-- ==== Sys2Proof/Word.lean ====
section
/-! DEFINITION. Sys2Proof/Word.lean: the word types of the Vexale X4 (00_scope.md R1; 02_work.md: scalar registers are 64
bits wide, vector registers 32 bits wide per thread). -/
namespace Sys2Proof

/-- A byte of memory or scratch. -/
abbrev Byte := BitVec 8
/-- A 32-bit word: one lane of a vector register. -/
abbrev Word := BitVec 32
/-- A 64-bit word: a scalar register, an instruction word, a system register. -/
abbrev DWord := BitVec 64
/-- A set of the 32 lanes (threads) of a wave. -/
abbrev Lanes := BitVec 32
/-- A set of the 8 slices of a wave. -/
abbrev Slices := BitVec 8

/-- Data by key, listing only what differs from the default of its reader, keys strictly rising. -/
abbrev Sparse (α : Type) := List (Nat × α)

end Sys2Proof
end

