-- ==== Sys2Proof/Syntax.lean ====
section
/-! DEFINITION. Sys2Proof/Syntax.lean: the instructions of the Vexale X4 and the events of its other agents,
one constructor per row of spec/opcode_table.json. Operands are those of Table 3.5 (03_code.md R63); a modifier has the
type of the values its entry allows. The events carry the arguments that say which of their occurrences happens. -/
namespace Sys2Proof

/-- A predicate register number: p0 to p127; p127 reads true and ignores writes (Table 0.1, R63). -/
abbrev Pr := BitVec 7

/-- An operand (Table 3.5, R63). -/
inductive Opd where
  | v (n : BitVec 7)   -- vector register
  | s (n : BitVec 6)   -- scalar register
  | zero               -- reads 0, discards writes
  | lane | wave | tx | ty | tz | role
  | q (n : BitVec 3)   -- pop operand queue
  | lc (n : Fin 3)     -- loop counter
  | k (n : BitVec 4)   -- constant
  deriving DecidableEq, Repr

/-- The fields every instruction word has (Table 3.2): STALL, guard negate and guard predicate. -/
structure Hdr where
  stall : BitVec 4
  gn : Bool
  gp : Pr
  deriving DecidableEq, Repr

/-- No guard: GP = 127 and GN = 0 (R56). -/
def Hdr.plain (h : Hdr) : Bool := h.gp == 127#7 && !h.gn

/-- IADD/ISUB saturation, FN[1:0] (R171). -/
inductive SatMode where
  | wrap   -- wraps
  | n32   -- saturates to .n32
  | i32   -- saturates to .i32
  deriving DecidableEq, Repr

/-- ICMP condition, FN[3:1] (R173). -/
inductive Cmp where
  | eq
  | ne
  | lt
  | le
  | gt
  | ge
  deriving DecidableEq, Repr

/-- FCMP condition (Table 7.6). -/
inductive FCond where
  | eq
  | ne
  | lt
  | le
  | gt
  | ge
  | un
  | ord
  deriving DecidableEq, Repr

/-- rounding field (Table 7.3). -/
inductive Rm where
  | dyn   -- `FMODE.RM` at issue
  | rn
  | rz
  | rd
  | ru
  deriving DecidableEq, Repr

/-- IADDW second operand, FN[1:0] (R176). -/
inductive WideB where
  | b64
  | n32
  | i32
  deriving DecidableEq, Repr

/-- integer type of a conversion, FN[5:4] (R188). -/
inductive ITy where
  | n32
  | i32
  | n64
  | i64
  deriving DecidableEq, Repr

/-- LXCH mode (Table 8.2). -/
inductive LxMode where
  | atl
  | lo
  | hi
  | mix
  | rot
  deriving DecidableEq, Repr

/-- LXCH group (Table 8.2). -/
inductive LxGroup where
  | g32
  | g16
  | g8
  | g4
  | g2
  | g1
  deriving DecidableEq, Repr

/-- AGREE test (R194). -/
inductive AgreeK where
  | every
  | some
  | same
  | none
  deriving DecidableEq, Repr

/-- WRED/WSCAN operation (Table 8.3). -/
inductive WOp where
  | add
  | min
  | max
  | and
  | or
  | xor
  deriving DecidableEq, Repr

/-- WRED/WSCAN type (Table 8.3). -/
inductive WTy where
  | n32
  | i32
  | f32
  deriving DecidableEq, Repr

/-- format M `TYPE` (Table 3.4). -/
inductive MTy where
  | b8
  | b16
  | b32
  | b64
  | b128
  | i32
  | i64
  | f32
  deriving DecidableEq, Repr

/-- format M `POL` (Table 3.4). -/
inductive Pol where
  | normal
  | stream
  | keep
  deriving DecidableEq, Repr

/-- scope (Table 3.4). -/
inductive Scope where
  | core
  | clus
  | nbhd
  | part
  | dev
  | sys
  deriving DecidableEq, Repr

/-- order (Table 3.4). -/
inductive Ord where
  | rlx
  | acq
  | rel
  | acqrel
  deriving DecidableEq, Repr

/-- atomic operation (Table 15.1). -/
inductive AtomOp where
  | exch
  | add
  | min
  | max
  | and
  | or
  | xor
  | inc
  | dec
  deriving DecidableEq, Repr

/-- QST mode (R272). -/
inductive QMode where
  | fault
  | clamp
  | none
  deriving DecidableEq, Repr

/-- HAD vector length (R298). -/
inductive HadP where
  | p16
  | p32
  | p64
  deriving DecidableEq, Repr

/-- HAD type pair (R298). -/
inductive HadTy where
  | i32i16
  | f32i16
  | f32i32
  | f32f16
  deriving DecidableEq, Repr

/-- TWALK dimensions (R300). -/
inductive WDim where
  | d1
  | d2
  | d3
  deriving DecidableEq, Repr

/-- What the error correction of a memory read finds (R226). -/
inductive EccErr where
  | none | corrected | uncorrectable
  deriving DecidableEq, Repr

/-- What a peer asks for (R442): a read, a write of bytes, or an atomic, ACAS where it names no operation, with its operands. -/
inductive PeerAct where
  | read
  | write (bs : List (BitVec 8))
  | atom (op : Option AtomOp) (ty : MTy) (x y : BitVec 64)
  deriving DecidableEq, Repr
/-- A request of a peer and the port it comes through (R442). -/
structure PeerReq where
  port : Bool
  act : PeerAct
  deriving DecidableEq, Repr

/-- Where an error of a core's storage lies (R414, R415). -/
inductive CoreLoc where
  | corrected                             -- any storage of the core: the ECC corrects it
  | noState                               -- storage that holds no state of any team
  | vreg (tag w r lane : Nat)             -- vector register word
  | sreg (tag w r : Nat)                  -- scalar register
  | sram (tag a : Nat)                 -- core SRAM word of a team
  | regionBuf (tag w : Nat)               -- region buffer
  | bank (tag w i : Nat)                  -- matrix accumulator
  | dirtyL1 (asid va : Nat)               -- dirty L1 bytes of a word
  deriving DecidableEq, Repr

/-- A staged firmware image as R436 and R437 judge it: do both signatures verify, its security version, its mailbox
protocol range, per die. -/
structure FwImage where
  rsaOk : Bool
  slhOk : Bool
  secVer : Nat
  protoLo : BitVec 16
  protoHi : BitVec 16
  deriving DecidableEq, Repr

/-- The register of a REGISTER_WRITE (R404): a pending CSRW of a wave, a register of a partition's queue page named by
its offset (R83, R216, R395, R418, R439), or a register of the management page (Table 18.3). -/
inductive RegWrite where
  | csr (tag w id : Nat)
  | queuePage (p off : Nat)
  | mgmt (off : Nat)
  deriving DecidableEq, Repr

/-- One instruction or event: a row of spec/opcode_table.json. -/
inductive Instr where
  /-- NOP (R152): Does nothing except hold the wave for its STALL count. -/
  | nop (h : Hdr)
  /-- BRA (R145): Relative branch: each active thread takes the clause at H + 8 × OFF, and inactive threads take the next clause. -/
  | bra (h : Hdr) (off : BitVec 32)
  /-- BRX (R145): Indirect branch to a 64-bit address; a misaligned or non-canonical address traps. -/
  | brx (h : Hdr) (a : Opd)
  /-- CALL (R145): Relative branch that writes the address of the next clause into the link operand. -/
  | call (h : Hdr) (d : Opd) (off : BitVec 32)
  /-- RET (R145): Indirect branch through the link register, marked as a return for the fetch predictor. -/
  | ret (h : Hdr) (a : Opd)
  /-- JOIN (R146): Every thread of the bundle takes the next clause and its slices are marked joining. -/
  | join (h : Hdr)
  /-- LOOP (R147): Starts a hardware loop on lck: pushes (START, END, k), or skips to END when the counter is zero. -/
  | loop (h : Hdr) (d : Opd) (off : BitVec 32)
  /-- LEXIT (R148): Active threads leave the innermost loop and are held at the target until the loop is popped. -/
  | lexit (h : Hdr) (off : BitVec 32)
  /-- EXIT (R149): After its region commits, each active thread exits; the team retires once all threads have exited. -/
  | exit (h : Hdr)
  /-- YIELD (R150): After its region commits, the wave moves to the next clause and is marked youngest in its class. -/
  | yield (h : Hdr)
  /-- WAIT (R151): Holds the wave until every masked event counter is at most K. -/
  | wait (h : Hdr) (k : BitVec 4) (mask : BitVec 8)
  /-- IADD (R171): Integer add, wrapping or saturating. -/
  | iadd (h : Hdr) (d : Opd) (a : Opd) (b : Opd) (sat : SatMode)
  /-- ISUB (R171): Integer subtract, wrapping or saturating. -/
  | isub (h : Hdr) (d : Opd) (a : Opd) (b : Opd) (sat : SatMode)
  /-- IMUL (R171): Low 32 bits of the product. -/
  | imul (h : Hdr) (d : Opd) (a : Opd) (b : Opd)
  /-- IMULH (R171): High 32 bits of the signed or unsigned 64-bit product. -/
  | imulh (h : Hdr) (d : Opd) (a : Opd) (b : Opd) (sg : Bool)
  /-- IMAD (R171): Multiply-add modulo 2^32. -/
  | imad (h : Hdr) (d : Opd) (a : Opd) (b : Opd) (c : Opd)
  /-- IMIN (R171): Signed or unsigned integer minimum. -/
  | imin (h : Hdr) (d : Opd) (a : Opd) (b : Opd) (sg : Bool)
  /-- IMAX (R171): Signed or unsigned integer maximum. -/
  | imax (h : Hdr) (d : Opd) (a : Opd) (b : Opd) (sg : Bool)
  /-- IABS (R171): Integer absolute value, wrapping or saturating. -/
  | iabs (h : Hdr) (d : Opd) (a : Opd) (sat : Bool)
  /-- ICMP (R173): Integer compare that writes a predicate. -/
  | icmp (h : Hdr) (d : Pr) (a : Opd) (b : Opd) (sg : Bool) (cc : Cmp)
  /-- AND (R172): Bitwise AND. -/
  | and (h : Hdr) (d : Opd) (a : Opd) (b : Opd)
  /-- OR (R172): Bitwise OR. -/
  | or (h : Hdr) (d : Opd) (a : Opd) (b : Opd)
  /-- XOR (R172): Bitwise XOR. -/
  | xor (h : Hdr) (d : Opd) (a : Opd) (b : Opd)
  /-- ANDN (R172): a AND NOT b. -/
  | andn (h : Hdr) (d : Opd) (a : Opd) (b : Opd)
  /-- SHL (R172): Shift left; counts of 32 or more give 0. -/
  | shl (h : Hdr) (d : Opd) (a : Opd) (b : Opd)
  /-- SHR (R172): Logical shift right. -/
  | shr (h : Hdr) (d : Opd) (a : Opd) (b : Opd)
  /-- SAR (R172): Arithmetic shift right. -/
  | sar (h : Hdr) (d : Opd) (a : Opd) (b : Opd)
  /-- ROT (R172): Rotate left, or rotate right with .r. -/
  | rot (h : Hdr) (d : Opd) (a : Opd) (b : Opd) (right : Bool)
  /-- POPC (R172): Population count. -/
  | popc (h : Hdr) (d : Opd) (a : Opd)
  /-- CLZ (R172): Count of leading zero bits. -/
  | clz (h : Hdr) (d : Opd) (a : Opd)
  /-- BREV (R172): Bit reversal. -/
  | brev (h : Hdr) (d : Opd) (a : Opd)
  /-- BFE (R174): Bit-field extract, signed or unsigned. -/
  | bfe (h : Hdr) (d : Opd) (a : Opd) (b : Opd) (c : Opd) (sg : Bool)
  /-- BFI (R174): Bit-field insert. -/
  | bfi (h : Hdr) (d : Opd) (a : Opd) (b : Opd) (c : Opd)
  /-- LEA (R176): Address arithmetic a + (b << k), 32-bit or 64-bit. -/
  | lea (h : Hdr) (d : Opd) (a : Opd) (b : Opd) (k : BitVec 5) (w : Bool) (sg : Bool)
  /-- IADDW (R176): 64-bit add of a 64-bit or extended 32-bit operand. -/
  | iaddw (h : Hdr) (d : Opd) (a : Opd) (b : Opd) (wb : WideB)
  /-- IADDC (R176): Add or subtract with carry in and carry out through a predicate. -/
  | iaddc (h : Hdr) (d : Opd) (a : Opd) (b : Opd) (c : Pr) (sub : Bool)
  /-- SAD (R171): Absolute difference plus an addend, modulo 2^32. -/
  | sad (h : Hdr) (d : Opd) (a : Opd) (b : Opd) (c : Opd) (sg : Bool)
  /-- BSEL (R175): Builds each result byte from a source byte and an action. -/
  | bsel (h : Hdr) (d : Opd) (a : Opd) (b : Opd) (c : Opd)
  /-- IDOT4 (R177): Four-way byte dot product plus an accumulator, wrapping or saturating. -/
  | idot4 (h : Hdr) (d : Opd) (a : Opd) (b : Opd) (c : Opd) (sa : Bool) (sb : Bool) (sat : Bool)
  /-- FADD (R178): FP32 add, rounded once. -/
  | fadd (h : Hdr) (d : Opd) (a : Opd) (b : Opd) (rm : Rm)
  /-- FSUB (R178): FP32 subtract, rounded once. -/
  | fsub (h : Hdr) (d : Opd) (a : Opd) (b : Opd) (rm : Rm)
  /-- FMUL (R178): FP32 multiply, rounded once. -/
  | fmul (h : Hdr) (d : Opd) (a : Opd) (b : Opd) (rm : Rm)
  /-- FFMA (R178): FP32 fused multiply-add with a single rounding. -/
  | ffma (h : Hdr) (d : Opd) (a : Opd) (b : Opd) (c : Opd) (rm : Rm)
  /-- FMIN (R179): IEEE minimumNumber. -/
  | fmin (h : Hdr) (d : Opd) (a : Opd) (b : Opd)
  /-- FMAX (R179): IEEE maximumNumber. -/
  | fmax (h : Hdr) (d : Opd) (a : Opd) (b : Opd)
  /-- FCMP (R180): FP32 compare that writes a predicate. -/
  | fcmp (h : Hdr) (d : Pr) (a : Opd) (b : Opd) (cc : FCond)
  /-- FRND (R181): Rounds to an integral FP32 value. -/
  | frnd (h : Hdr) (d : Opd) (a : Opd) (rm : Rm) (x : Bool)
  /-- FCLASS (R182): One-hot classification of an FP32 value. -/
  | fclass (h : Hdr) (d : Opd) (a : Opd)
  /-- FSCALE (R178): FP32 value times 2^n, rounded once. -/
  | fscale (h : Hdr) (d : Opd) (a : Opd) (b : Opd) (rm : Rm)
  /-- TWOSUM (R183): Error-free sum into a hi/lo register pair. -/
  | twosum (h : Hdr) (d : Opd) (a : Opd) (b : Opd)
  /-- TWOPROD (R183): Error-free product into a hi/lo register pair. -/
  | twoprod (h : Hdr) (d : Opd) (a : Opd) (b : Opd)
  /-- FADDP (R183): Pair accumulation, giving a normalised hi/lo pair. -/
  | faddp (h : Hdr) (d : Opd) (a : Opd) (b : Opd) (one : Bool)
  /-- PKADD (R185): Packed FP16 add. -/
  | pkadd (h : Hdr) (d : Opd) (a : Opd) (b : Opd) (rm : Rm) (b0 : Bool)
  /-- PKMUL (R185): Packed FP16 multiply. -/
  | pkmul (h : Hdr) (d : Opd) (a : Opd) (b : Opd) (rm : Rm) (b0 : Bool)
  /-- PKFMA (R185): Packed FP16 fused multiply-add. -/
  | pkfma (h : Hdr) (d : Opd) (a : Opd) (b : Opd) (c : Opd) (rm : Rm) (b0 : Bool)
  /-- PKFMAB (R185): Packed BF16 fused multiply-add. -/
  | pkfmab (h : Hdr) (d : Opd) (a : Opd) (b : Opd) (c : Opd) (rm : Rm) (b0 : Bool)
  /-- RCP (R186): Correctly rounded reciprocal on the SFU, counted on e1. -/
  | rcp (h : Hdr) (d : Opd) (a : Opd) (rm : Rm)
  /-- RSQ (R186): Reciprocal square root within 1 ulp, on the SFU. -/
  | rsq (h : Hdr) (d : Opd) (a : Opd)
  /-- SQRT (R186): Correctly rounded square root on the SFU. -/
  | sqrt (h : Hdr) (d : Opd) (a : Opd) (rm : Rm)
  /-- EXP2 (R186): 2^a within 1 ulp, on the SFU. -/
  | exp2 (h : Hdr) (d : Opd) (a : Opd)
  /-- LOG2 (R186): log2 a within 1 ulp, on the SFU. -/
  | log2 (h : Hdr) (d : Opd) (a : Opd)
  /-- SIN (R186): sin(π a) within 2 ulp, on the SFU. -/
  | sin (h : Hdr) (d : Opd) (a : Opd)
  /-- COS (R186): cos(π a) within 2 ulp, on the SFU. -/
  | cos (h : Hdr) (d : Opd) (a : Opd)
  /-- TANH (R186): tanh a within 2 ulp, on the SFU. -/
  | tanh (h : Hdr) (d : Opd) (a : Opd)
  /-- CVTIF (R188): Converts an integer to FP32. -/
  | cvtif (h : Hdr) (d : Opd) (a : Opd) (rm : Rm) (ty : ITy)
  /-- CVTFI (R188): Converts FP32 to an integer, saturating with NV. -/
  | cvtfi (h : Hdr) (d : Opd) (a : Opd) (rm : Rm) (ty : ITy)
  /-- CVTFF (R189): Converts packed FP16 to BF16, or BF16 to FP16. -/
  | cvtff (h : Hdr) (d : Opd) (a : Opd) (rm : Rm) (toF16 : Bool)
  /-- PACKH (R189): Rounds two FP32 values into one packed 16-bit pair. -/
  | packh (h : Hdr) (d : Opd) (a : Opd) (b : Opd) (rm : Rm) (bf : Bool)
  /-- UNPKH (R189): Widens one 16-bit element to FP32 exactly. -/
  | unpkh (h : Hdr) (d : Opd) (a : Opd) (bf : Bool) (hi : Bool)
  /-- DECN (R276): Decodes a narrow matrix code to FP32, optionally scaled, or tests it for the escape. -/
  | decn (h : Hdr) (d : Opd) (a : Opd) (b : Opd) (f : BitVec 5) (scl : Bool) (esc : Bool)
  /-- MOV (R153): Moves a 32-bit or 64-bit value into a vector, scalar or loop-counter register. -/
  | mov (h : Hdr) (d : Opd) (a : Opd) (w : Bool)
  /-- MOVI (R154): Moves a 32-bit immediate, zero-extended for a scalar destination. -/
  | movi (h : Hdr) (d : Opd) (imm : BitVec 32)
  /-- MOVI_S (R154): Moves a 32-bit immediate, sign-extended for a scalar destination. -/
  | moviS (h : Hdr) (d : Opd) (imm : BitVec 32)
  /-- MOVI_HI (R154): Writes the immediate into the high 32 bits of a scalar register. -/
  | moviHi (h : Hdr) (d : Opd) (imm : BitVec 32)
  /-- SEL (R156): Selects A or B per lane by a predicate. -/
  | sel (h : Hdr) (d : Opd) (a : Opd) (b : Opd) (c : Pr) (w : Bool)
  /-- PAND (R157): Predicate AND with optional negated inputs. -/
  | pand (h : Hdr) (d : Pr) (a : Pr) (b : Pr) (na : Bool) (nb : Bool)
  /-- POR (R157): Predicate OR with optional negated inputs. -/
  | por (h : Hdr) (d : Pr) (a : Pr) (b : Pr) (na : Bool) (nb : Bool)
  /-- PXOR (R157): Predicate XOR with optional negated inputs. -/
  | pxor (h : Hdr) (d : Pr) (a : Pr) (b : Pr) (na : Bool) (nb : Bool)
  /-- PMOV (R158): Copies one predicate to another. -/
  | pmov (h : Hdr) (d : Pr) (a : Pr)
  /-- PMOV_NOT (R158): Copies the negation of a predicate. -/
  | pmovNot (h : Hdr) (d : Pr) (a : Pr)
  /-- PMOV_VAL (R158): Writes a predicate into a vector register as 1 or 0. -/
  | pmovVal (h : Hdr) (d : Opd) (a : Pr)
  /-- PMOV_NZ (R158): Sets a predicate when a 32-bit source is nonzero. -/
  | pmovNz (h : Hdr) (d : Pr) (a : Opd)
  /-- PSET (R159): Unpacks n bits of a source into consecutive predicates. -/
  | pset (h : Hdr) (d : Pr) (a : Opd) (n1 : BitVec 6)
  /-- PSET_PACK (R159): Packs n consecutive predicates into a vector register. -/
  | psetPack (h : Hdr) (d : Opd) (a : Pr) (n1 : BitVec 6)
  /-- SMOV (R155): Moves one lane's value into a scalar or loop-counter register. -/
  | smov (h : Hdr) (d : Opd) (a : Opd) (b : Opd) (first : Bool)
  /-- LXCH (R193): Exchanges values between the lanes of a group. -/
  | lxch (h : Hdr) (d : Opd) (a : Opd) (b : Opd) (c : Option Pr) (mode : LxMode) (grp : LxGroup)
  /-- AGREE (R194): Tests a predicate across the active lanes. -/
  | agree (h : Hdr) (d : Pr) (a : Pr) (kd : AgreeK) (neg : Bool)
  /-- BALLOT (R195): Gathers a predicate into a lane mask, or counts it. -/
  | ballot (h : Hdr) (d : Opd) (a : Pr) (cnt : Bool) (neg : Bool)
  /-- WRED (R197): Reduces across the active lanes in a fixed pairwise tree. -/
  | wred (h : Hdr) (d : Opd) (a : Opd) (rm : Rm) (op : WOp) (ty : WTy)
  /-- WSCAN (R198): Inclusive or exclusive scan in ascending lane order. -/
  | wscan (h : Hdr) (d : Opd) (a : Opd) (rm : Rm) (op : WOp) (ty : WTy) (excl : Bool)
  /-- REBAL (R199): Spreads the elements of rows over lanes as (row, offset) pairs. -/
  | rebal (h : Hdr) (d : Opd) (a : Opd) (b : Opd)
  /-- CSAMP (R200): Chooses a lane in proportion to its weight. -/
  | csamp (h : Hdr) (d : Opd) (a : Opd) (b : Opd)
  /-- RAND (R201): Keyed stateless hash of a counter. -/
  | rand (h : Hdr) (d : Opd) (a : Opd) (b : Opd) (f01 : Bool)
  /-- LD (R233): Loads from virtual memory, counted on e0. -/
  | ld (h : Hdr) (d : Opd) (a : Opd) (b : Opd) (ty : MTy) (pol : Pol) (sc : Scope) (od : Ord)
  /-- ST (R235): Buffers a store to memory, optionally converted to a narrow format. -/
  | st (h : Hdr) (d : Opd) (a : Opd) (b : Opd) (sf : BitVec 5) (ty : MTy) (pol : Pol) (sc : Scope) (od : Ord)
  /-- LDS (R233): Loads from the issuing core's scratch. -/
  | lds (h : Hdr) (d : Opd) (a : Opd) (b : Opd) (ty : MTy) (pol : Pol) (sc : Scope) (od : Ord)
  /-- STS (R235): Buffers a store to scratch. -/
  | sts (h : Hdr) (d : Opd) (a : Opd) (b : Opd) (sf : BitVec 5) (ty : MTy) (pol : Pol) (sc : Scope) (od : Ord)
  /-- LDW (R233): Loads through the gang's scratch window, by role. -/
  | ldw (h : Hdr) (d : Opd) (a : Opd) (b : Opd) (ty : MTy) (pol : Pol) (sc : Scope) (od : Ord)
  /-- STW (R235): Buffers a store through the scratch window. -/
  | stw (h : Hdr) (d : Opd) (a : Opd) (b : Opd) (ty : MTy) (pol : Pol) (sc : Scope) (od : Ord)
  /-- LDN (R271): Loads a narrow block, one code per lane. -/
  | ldn (h : Hdr) (d : Opd) (a : Opd) (b : Opd) (ty : MTy) (pol : Pol) (sc : Scope) (od : Ord)
  /-- QST (R274): Quantises a block, elects outliers into the leat list and buffers the block and the list. -/
  | qst (h : Hdr) (d : Opd) (a : Opd) (b : Opd) (c : Opd) (f : BitVec 5) (mode : QMode) (ev : Option (BitVec 3))
  /-- PREF (R236): Run-ahead prefetch of a sector that never faults. -/
  | pref (h : Hdr) (a : Opd) (b : Opd) (pol : Pol)
  /-- SHBIND (R242): Reserves a shadow-window binding, which becomes the binding at commit. -/
  | shbind (h : Hdr) (d : Opd) (a : Opd) (b : Opd) (ev : Option (BitVec 3))
  /-- SHFREE (R243): Marks a shadow binding as leaving; it is removed at commit. -/
  | shfree (h : Hdr) (d : Opd) (a : Opd) (ev : Option (BitVec 3))
  /-- CPY (R249): Reads a copy descriptor and, at commit step 4, starts a tensor copy. -/
  | cpy (h : Hdr) (a : Opd) (ev : Option (BitVec 3))
  /-- AQSTART (R255): Starts the team's access program. -/
  | aqstart (h : Hdr) (d : Opd) (ev : Option (BitVec 3))
  /-- AQSTOP (R256): Stops the access program at commit. -/
  | aqstop (h : Hdr) (d : Opd) (ev : Option (BitVec 3))
  /-- AQSTOP_QRY (R256): Returns the free-entry count of a queue. -/
  | aqstopQry (h : Hdr) (d : Opd) (a : Opd) (ev : Option (BitVec 3))
  /-- LDC (R234): Loads a uniform value through the constant cache. -/
  | ldc (h : Hdr) (d : Opd) (a : Opd) (b : Opd) (ty : MTy)
  /-- ATOM (R367): Atomic read-modify-write, performed lane by lane at commit step 4 at the home of its scope. -/
  | atom (h : Hdr) (d : Opd) (a : Opd) (b : Opd) (op : AtomOp) (ty : MTy) (sc : Scope) (od : Ord)
  /-- ACAS (R367): Atomic compare and swap at the home of its scope. -/
  | acas (h : Hdr) (d : Opd) (a : Opd) (b : Opd) (ty : MTy) (sc : Scope) (od : Ord)
  /-- RED (R367): Reduction into an update-only copy, never lost. -/
  | red (h : Hdr) (a : Opd) (b : Opd) (op : AtomOp) (ty : MTy) (sc : Scope) (od : Ord)
  /-- FENCE (R371): At commit step 4, pushes dirty words for its release part and drops copies for its acquire part. -/
  | fence (h : Hdr) (sc : Scope) (od : Ord)
  /-- BAR (R373): Team barrier arrival. -/
  | bar (h : Hdr) (a : Opd)
  /-- NBAR (R373): Neighbourhood barrier arrival, with a .nbhd release on arrival and an acquire on departure. -/
  | nbar (h : Hdr) (a : Opd)
  /-- SLIN (R397): Waits for a key's turn, reserves it and enters the sluice section with a .part acquire. -/
  | slin (h : Hdr) (d : Opd) (a : Opd) (b : Opd)
  /-- SLOUT (R398): Leaves a held key: NEXT advances, with a .part release. -/
  | slout (h : Hdr) (d : Opd) (a : Opd)
  /-- SLOUT_LAST (R398): Leaves a held key and removes its entry. -/
  | sloutLast (h : Hdr) (d : Opd) (a : Opd)
  /-- SLQRY (R399): Reads a key's NEXT and its holder flags. -/
  | slqry (h : Hdr) (d : Opd) (a : Opd)
  /-- SLRST (R400): Sets NEXT of an unheld key. -/
  | slrst (h : Hdr) (d : Opd) (a : Opd) (b : Opd)
  /-- SLRST_DEL (R400): Removes an unheld key. -/
  | slrstDel (h : Hdr) (d : Opd) (a : Opd)
  /-- SEND (R377): Waits for a free launder slot, then fills it from scratch at commit. -/
  | send (h : Hdr) (d : Opd) (a : Opd) (n : BitVec 4)
  /-- RECV (R377): Waits for a filled launder slot, then empties it into scratch at commit. -/
  | recv (h : Hdr) (d : Opd) (a : Opd) (n : BitVec 4)
  /-- MLOADB (R292): Reads and checks a B tile and its list, and sets the wave's B descriptor and the latch. -/
  | mloadb (h : Hdr) (a : Opd) (b : Opd) (f : BitVec 5) (scr : Bool) (ev : Option (BitVec 3))
  /-- MMA (R293): Gathers A rows from scratch and sets each accumulator to the exact pass sum against the latched B. -/
  | mma (h : Hdr) (a : Opd) (b : Opd) (nkm : BitVec 4) (bank : Bool) (ev : Option (BitVec 3))
  /-- MRES (R294): Rounds four accumulators to FP32 and clears them. -/
  | mres (h : Hdr) (d : Opd) (g : BitVec 2) (bank : Bool) (ev : Option (BitVec 3))
  /-- MFENCE (R295): Waits for the wave's older ended instances, then acquires for later engine reads. -/
  | mfence (h : Hdr) (sc : Scope)
  /-- MWAIT (R296): Holds the wave until its MLOADB, MMA and HAD operations complete. -/
  | mwait (h : Hdr)
  /-- HAD (R298): Block Hadamard transform over scratch vectors. -/
  | had (h : Hdr) (a : Opd) (b : Opd) (c : Opd) (p : HadP) (ty : HadTy) (ev : Option (BitVec 3))
  /-- TWALK (R300): Sets up the wave's tile walk. -/
  | twalk (h : Hdr) (d : Opd) (a : Opd) (b : Opd) (n : WDim) (ev : Option (BitVec 3))
  /-- TNEXT (R302): Hands out a remaining tile of the walk, or DONE. -/
  | tnext (h : Hdr) (d : Opd) (ev : Option (BitVec 3))
  /-- MZERO (R297): Clears a bank, and optionally the B descriptor. -/
  | mzero (h : Hdr) (bank : Bool) (bd : Bool)
  /-- BEAM (R331): At commit, copies a beam record into the pool as BUSY and returns its handle. -/
  | beam (h : Hdr) (d : Opd) (a : Opd) (ev : Option (BitVec 3))
  /-- BFRAG (R332): Waits for the tree, then delivers one fragment per active lane. -/
  | bfrag (h : Hdr) (d : Opd) (a : Opd) (ev : Option (BitVec 3))
  /-- BDONE (R333): Frees a tree or a ray record at commit. -/
  | bdone (h : Hdr) (a : Opd)
  /-- RAYS (R334): At commit, casts up to four rays per record. -/
  | rays (h : Hdr) (d : Opd) (a : Opd) (b : Opd) (first : Bool) (sh : Bool) (ev : Option (BitVec 3))
  /-- HITGET (R335): Reads the hit state of a ray record. -/
  | hitget (h : Hdr) (d : Opd) (a : Opd) (ev : Option (BitVec 3))
  /-- HITGET_CAND (R335): Takes one undecided candidate. -/
  | hitgetCand (h : Hdr) (d : Opd) (a : Opd) (ev : Option (BitVec 3))
  /-- HITACC (R336): Decides candidates at commit; the record resumes when its batch is decided. -/
  | hitacc (h : Hdr) (a : Opd) (b : Opd) (c : Opd)
  /-- TEX (R337): Area-filters a texture, with a reshade bit and a residency request on a miss. -/
  | tex (h : Hdr) (d : Opd) (a : Opd) (b : Opd) (c : Opd) (nr : Bool) (ev : Option (BitVec 3))
  /-- TEXQ (R337): Queries the level, tile, residency and texel count of a texture footprint. -/
  | texq (h : Hdr) (d : Opd) (a : Opd) (b : Opd) (c : Opd) (ev : Option (BitVec 3))
  /-- BVHSET (R330): Reads and checks a scene descriptor and binds it to the wave. -/
  | bvhset (h : Hdr) (d : Opd) (a : Opd) (ev : Option (BitVec 3))
  /-- LAUNCH (R100): Wave 0 reads a launch record at commit and appends an accepted child grid to the child queue. -/
  | launch (h : Hdr) (d : Opd) (a : Opd)
  /-- WCHILD (R101): Waits, yielding, for the team's child grids and returns the torn-down count. -/
  | wchild (h : Hdr) (d : Opd)
  /-- GSIG (R93): Signals a marker node after a .sys release, completing it if ARMED. -/
  | gsig (h : Hdr) (d : Opd) (a : Opd)
  /-- ENRD (R431): Reads the team's metered energy. -/
  | enrd (h : Hdr) (d : Opd)
  /-- ENRD_BAL (R431): Reads the partition's BAL. -/
  | enrdBal (h : Hdr) (d : Opd)
  /-- ROLE (R39): Reads the core number bound to a role. -/
  | role (h : Hdr) (d : Opd) (a : Opd)
  /-- ROLE_ID (R39): Reads the COREID value bound to a role. -/
  | roleId (h : Hdr) (d : Opd) (a : Opd)
  /-- ROLE_POS (R39): Reads the position of a role. -/
  | rolePos (h : Hdr) (d : Opd) (a : Opd)
  /-- ROLE_CNT (R39): Reads the number of roles. -/
  | roleCnt (h : Hdr) (d : Opd)
  /-- TRAP (R419): Software trap 0x12, taken after commit. -/
  | trap (h : Hdr) (imm : BitVec 32)
  /-- RTE (R420): Reads the trap frame, restores state and leaves handler mode. -/
  | rte (h : Hdr)
  /-- CSRR (R421): Reads a system register. -/
  | csrr (h : Hdr) (d : Opd) (reg : BitVec 12)
  /-- CSRW (R421): Writes a system register, checked against R404 and R405. -/
  | csrw (h : Hdr) (d : Opd) (reg : BitVec 12)
  /-- CSRW_SET (R421): Sets bits of a system register. -/
  | csrwSet (h : Hdr) (d : Opd) (reg : BitVec 12)
  /-- CSRW_CLR (R421): Clears bits of a system register. -/
  | csrwClr (h : Hdr) (d : Opd) (reg : BitVec 12)
  /-- RINV (R422): Invalidates every translation, line and binding of an ASID. -/
  | rinv (h : Hdr) (d : Opd) (a : Opd) (ev : Option (BitVec 3))
  /-- RINV_RANGE (R422): Invalidates translations and lines of an ASID within a range. -/
  | rinvRange (h : Hdr) (d : Opd) (a : Opd) (b : Opd) (c : Opd) (ev : Option (BitVec 3))
  /-- QCTL_Q (R423): Quiesces the named queues and pre-empts and holds their teams. -/
  | qctlQ (h : Hdr) (d : Opd) (a : Opd) (ev : Option (BitVec 3))
  /-- QCTL_R (R423): Resumes quiesced queues if R105 holds. -/
  | qctlR (h : Hdr) (d : Opd) (a : Opd) (ev : Option (BitVec 3))
  /-- QCTL_QRY (R423): Returns the mask of named queues that have a placed team. -/
  | qctlQry (h : Hdr) (d : Opd) (a : Opd) (ev : Option (BitVec 3))
  /-- SFU_RESULT (R186): A pending SFU result is written, its flags are ORed into FFLAGS and e1 falls. -/
  | sfuResult (tag : Nat) (w : Nat) (id : Nat)
  /-- LOAD_COMPLETE (R231): A pending load returns and writes its destination, or takes its fault or trap; e0 falls. -/
  | loadComplete (tag : Nat) (w : Nat) (id : Nat)
  /-- COPY_COMPLETE (R246): Every byte of the copy has been written; STATUS is written with a .dev release and eEV falls. -/
  | copyComplete (id : Nat)
  /-- STREAM_PUSH (R250): The access program's run-ahead fetch for an iteration completes and pushes entries into the operand queues. -/
  | streamPush (tag : Nat)
  /-- QST_COMPLETE (R272): QST writes its status, ORs in its flags and lowers eEV. -/
  | qstComplete (tag : Nat) (w : Nat) (id : Nat)
  /-- SLUICE_TIMEOUT (R393): A SLIN wait longer than SLTMO.T raises trap 0x0D and aborts its instance. -/
  | sluiceTimeout (tag : Nat) (w : Nat)
  /-- SLUICE_DEADLOCK (R394): After 1 ms all-blocked, a snapshot is written and every blocked wave takes trap 0x0E. -/
  | sluiceDeadlock (p : Nat)
  /-- MLOADB_COMPLETE (R292): The tile read ends, the latch is filled and eEV falls. -/
  | mloadbComplete (tag : Nat) (w : Nat) (id : Nat)
  /-- MMA_COMPLETE (R291): 12 cycles after its last row slot, the MMA completes, ORs in its flags and lowers eEV. -/
  | mmaComplete (tag : Nat) (w : Nat) (id : Nat)
  /-- HAD_COMPLETE (R299): All HAD results are held, flags are ORed in and eEV falls. -/
  | hadComplete (tag : Nat) (w : Nat) (id : Nat)
  /-- BEAM_TREE_SETTLED (R315): Traversal of a beam tree ends: the tree becomes READY with fragments formed, or CAND or FAILED; eEV falls. -/
  | beamTreeSettled (tag : Nat) (rec : Nat)
  /-- RAYS_SETTLED (R322): Every record of a ray cast is READY, CAND or FAILED; eEV falls. -/
  | raysSettled (tag : Nat) (cast : Nat)
  /-- CLAUSE_ENTRY (R127): At a clause boundary the wave chooses a head PC, forms a bundle and makes the clause-entry checks. -/
  | clauseEntry (tag : Nat) (w : Nat)
  /-- REGION_COMMIT (R34): After its loads return, a region instance is granted its lines, makes its stores visible and performs its region-ending instruction. -/
  | regionCommit (tag : Nat) (w : Nat) (sl : Nat)
  /-- SECTOR_FILL (R211): A sector fill returns from memory into the slice and the waiting caches. -/
  | sectorFill (ix : Option Nat) (pa : Nat) (err : EccErr)
  /-- SPILL_REFETCH (R223): A spilled miss request is refetched when a miss-table entry frees. -/
  | spillRefetch (slice : Nat)
  /-- FAULT_RESOLVED (R217): Software marks a fault record RESOLVED and the slices and engines held on it resume. -/
  | faultResolved (p : Nat) (slot : Nat × Nat)
  /-- FAULT_SLOT_RETRY (R217): Every 100 µs the device retries writing a fault-ring slot it could not reach. -/
  | faultSlotRetry (p : Nat)
  /-- RECORD_TAKE (R85): A RUNNING queue takes its next record and checks it. -/
  | recordTake (p : Nat) (q : Nat)
  /-- NODE_COMPLETE (R94): A node completes: release, DONE, completion record, then its successors' completions. -/
  | nodeComplete (p : Nat)
  /-- GANG_PLACE (R116): Selects the next gang, admits it, searches for a rectangle, binds its roles and starts its teams. -/
  | gangPlace (p : Nat)
  /-- PREEMPT_SAVED (R412): The gang's state is saved and its slots and SRAM are freed. -/
  | preemptSaved (gid : Nat)
  /-- PARK (R101): A gang whose waves all wait in WCHILD for unplaceable children is saved and parked. -/
  | park (gid : Nat)
  /-- TEAM_RETIRE (R424): A team retires: records freed, BAL trued up, slots and SRAM freed. -/
  | teamRetire (tag : Nat)
  /-- ENERGY_REFILL (R429): Every 100 µs each partition's BAL is refilled by its share, up to its ceiling. -/
  | energyRefill
  /-- CORE_UNCORRECTABLE_ERROR (R414): An uncorrectable core ECC error poisons the word, fails the core and stops its gangs. -/
  | coreUncorrectableError (core : Nat) (at_ : CoreLoc)
  /-- SCHEDULER_CORE_ERROR (R417): A halted scheduler Miller core is reloaded from flash and its tables restored. -/
  | schedulerCoreError (q : Nat)
  /-- ROOT_CORE_ERROR (R438): An uncorrectable error in the root core halts the complex and sets DSTAT.HALT. -/
  | rootCoreError
  /-- BOOT (R435): On reset, the root core runs the boot steps with the persistent boot record. -/
  | boot (r : List Bool)
  /-- FIRMWARE_UPDATE (R436): Verifies a staged image and switches the dies one at a time. -/
  | firmwareUpdate (img : FwImage)
  /-- HOST_BAR2_ACCESS (R440): A host or peer-to-peer request through BAR2 is performed at a slice or a controller. -/
  | hostBar2Access (pa : Nat) (n : Nat) (wr : Option (List (BitVec 8)))
  /-- ATS_INVALIDATE (R440): An ATS Invalidate Request completes after the requests that used the entry. -/
  | atsInvalidate (bus : Nat)
  /-- PEER_ACCESS (R442): A request from a Borbel peer is performed at this device's home slice. -/
  | peerAccess (pa : Nat) (n : Nat) (req : PeerReq)
  /-- LINK_CRC_ERROR (R444): Link CRC errors are retried; after 16 failures a read returns poison and a write is dropped. -/
  | linkCrcError (port : Nat) (pa : Nat) (wr : Bool)
  /-- QCFG_WRITE (R84): Enabling a queue resets its indices to RUNNING; disabling makes it DISABLED. -/
  | qcfgWrite (p : Nat) (n : Nat) (v : BitVec 64)
  /-- QIDX_WRITE (R85): The host advances WIDX to append records. -/
  | qidxWrite (p : Nat) (n : Nat) (v : BitVec 64)
  /-- FQCFG_WRITE (R221): Enables or disables the fault queue and retries unreachable slots. -/
  | fqcfgWrite (p : Nat) (v : BitVec 64)
  /-- MQCFG_WRITE (R221): Enables or disables the migration queue. -/
  | mqcfgWrite (p : Nat) (v : BitVec 64)
  /-- MQIDX_WRITE (R220): Software advances RIDX and held postings are retried. -/
  | mqidxWrite (p : Nat) (v : BitVec 64)
  /-- ACTH_WRITE (R219): Sets the counting threshold; writing 0 to OVF clears it. -/
  | acthWrite (p : Nat) (v : BitVec 64)
  /-- SLCFG_WRITE (R388): Spills or drops the partition's key entries, then sets the backing table. -/
  | slcfgWrite (p : Nat) (v : BitVec 64)
  /-- CQCFG_WRITE (R427): Enables or disables the completion ring. -/
  | cqcfgWrite (p : Nat) (v : BitVec 64)
  /-- CQIDX_WRITE (R426): Software advances RIDX and waiting completions proceed. -/
  | cqidxWrite (p : Nat) (v : BitVec 64)
  /-- EQCFG_WRITE (R427): Enables or disables the error ring. -/
  | eqcfgWrite (p : Nat) (v : BitVec 64)
  /-- PQMASK_WRITE (R104): Changes the partition's quarters after the exclusivity checks. -/
  | pqmaskWrite (tag : Nat) (w : Nat) (id : Nat)
  /-- PWAYS_WRITE (R106): Changes allocatable ways; clearing ways first writes back and invalidates their lines. -/
  | pwaysWrite (tag : Nat) (w : Nat) (id : Nat)
  /-- NBND_WRITE (R388): Spills the partition's keys and changes its home blocks and link weight. -/
  | nbndWrite (tag : Nat) (w : Nat) (id : Nat)
  /-- PRSV_WRITE (R117): Changes reserved clusters and reruns a waiting placement search. -/
  | prsvWrite (tag : Nat) (w : Nat) (id : Nat)
  /-- ASIDV_WRITE (R203): Writes the ASID directory location. -/
  | asidvWrite (tag : Nat) (w : Nat) (id : Nat)
  /-- PCAP_WRITE (R103): Selects the partition that partition-register accesses reach. -/
  | pcapWrite (tag : Nat) (w : Nat) (id : Nat)
  /-- FMODE_WRITE (R162): Sets the dynamic rounding mode for later instructions. -/
  | fmodeWrite (tag : Nat) (w : Nat) (id : Nat)
  /-- FFLAGS_WRITE (R162): Replaces the sticky flags; pending operations OR theirs in later. -/
  | fflagsWrite (tag : Nat) (w : Nat) (id : Nat)
  /-- REGISTER_WRITE (R404): Write to any other register without behaviour of its own. -/
  | registerWrite (r : RegWrite) (v : BitVec 64)
  /-- REGION_ENDING_RESULT (R134): The result of a region-ending instruction performed at a home slice, the host port or a peer returns after commit step 4. For ATOM, ACAS, SLIN, SLOUT, SLQRY, SLRST, GSIG, LAUNCH, SEND and RECV this writes the destination, or takes a poisoned lane's trap, and releases the held wave; for FENCE it marks the fence performed. -/
  | regionEndingResult (tag : Nat) (w : Nat) (id : Nat)
  /-- TEX_COMPLETE (R337): The descriptor, residency and texel reads of a TEX or TEXQ return, v[D] to v[D+3] are written and eEV falls. -/
  | texComplete (tag : Nat) (w : Nat) (id : Nat)
  /-- BVHSET_COMPLETE (R330): The scene-descriptor read of BVHSET returns, the scene is bound or the status 3 is written, and eEV falls. -/
  | bvhsetComplete (tag : Nat) (w : Nat) (id : Nat)
  /-- SHBIND_COMPLETE (R242): The shadow-descriptor read of SHBIND returns, the status is written and the reservation made, and eN falls. -/
  | shbindComplete (tag : Nat) (w : Nat) (id : Nat)
  /-- TNEXT_COMPLETE (R301): The mask-word engine read that TNEXT needs returns, a tile is removed from the walk and written to sD, and eEV falls. -/
  | tnextComplete (tag : Nat) (w : Nat) (id : Nat) (pick : Nat)
  /-- MRES_COMPLETE (R294): With EVE = 1, MRES writes its four rounded results, ORs in its flags and lowers eEV. -/
  | mresComplete (tag : Nat) (w : Nat) (id : Nat)
  /-- RINV_COMPLETE (R422): Invalidation, combination and write-back at every controller and cache finish; D receives the status and eEV falls or the held wave is released. -/
  | rinvComplete (tag : Nat) (w : Nat) (id : Nat)
  /-- FAULT_RECORD_FREED (R217): Software returns a fault-ring slot to FREE, and faults held without a record enter their fault again. -/
  | faultRecordFreed (p : Nat) (slot : Nat × Nat)
  /-- ENERGY_WRITE (R96): A CSRW of ENERGY sets BAL, SHARE or RSV, takes effect before a refill on the same boundary, and re-tests waiting gangs whenever BAL rises. -/
  | energyWrite (tag : Nat) (w : Nat) (id : Nat)
  /-- SCHEDULER_CORE_RELOADED (R417): The root core finishes reloading a halted scheduler core and restoring its queue tables, and the waiting placements, completions and graph updates of the quarter proceed in their original order. -/
  | schedulerCoreReloaded (q : Nat)
  /-- MSIX_TABLE_WRITE (R439): A host write to the MSI-X table or pending-bit array unmasks or clears a vector, and a pending message is sent so that later messages of that vector are allowed. -/
  | msixTableWrite (vec : Nat) (mask : Bool) (clr : Bool)
  deriving DecidableEq, Repr

end Sys2Proof
end

