-- ==== Sys2Proof/WellFormed.lean ====
section
/-! DEFINITION. Sys2Proof/WellFormed.lean: which operands and modifiers each instruction takes (Tables 3.3 to 3.7, R58,
R63 to R67 and the operand rules of every entry). What depends on the kernel (R45, R65) or the mode (R403) is checked at
issue, in Machine/Ops.lean. -/
namespace Sys2Proof

namespace Opd

def isV : Opd → Bool | .v _ => true | _ => false
def isS : Opd → Bool | .s _ => true | _ => false
def isK : Opd → Bool | .k _ => true | _ => false
def isLc : Opd → Bool | .lc _ => true | _ => false
def isQ : Opd → Bool | .q _ => true | _ => false
/-- Every operand code of Table 3.5 is readable. -/
def rd : Opd → Bool | _ => true
/-- Even vector register: a .b64 vector operand (R67). -/
def vEven : Opd → Bool | .v n => n.toNat % 2 == 0 | _ => false
/-- Vector register whose number is a multiple of 4: a .b128 vector operand (R67). -/
def vQuad : Opd → Bool | .v n => n.toNat % 4 == 0 | _ => false
/-- Even scalar register: a .b128 scalar operand (R67). -/
def sEven : Opd → Bool | .s n => n.toNat % 2 == 0 | _ => false
/-- A destination that is a vector register, a scalar register or zero. -/
def dst3 : Opd → Bool | .v _ => true | .s _ => true | .zero => true | _ => false
/-- A destination that is a vector register or zero. -/
def dstV : Opd → Bool | .v _ => true | .zero => true | _ => false
/-- A 64-bit destination: scalar, even vector pair or zero. -/
def dst64 : Opd → Bool | .s _ => true | .zero => true | .v n => n.toNat % 2 == 0 | _ => false
/-- A source that a scalar operation may read (R66): a scalar register, zero, a constant or one of 0xC2 to 0xC6. -/
def scalarSrc : Opd → Bool | .v _ => false | .lane => false | .q _ => false | .lc _ => false | _ => true
/-- The sources of an instruction with destination `d` (R66). -/
def srcs (d : Opd) (l : List Opd) : Bool := if d.isS then l.all scalarSrc else true
/-- A 64-bit source: scalar, even vector pair, zero, a constant or one of 0xC1 to 0xC6 (R67). -/
def src64 : Opd → Bool | .v n => n.toNat % 2 == 0 | .q _ => false | .lc _ => false | _ => true
/-- A source of the .b64 forms of MOV and SEL: any but a queue, a vector register even (R153). -/
def mov64 : Opd → Bool | .v n => n.toNat % 2 == 0 | .q _ => false | _ => true
/-- An address operand: a scalar register or an even vector register. -/
def addr : Opd → Bool | .s _ => true | .v n => n.toNat % 2 == 0 | _ => false
/-- A scalar register, zero or a constant. -/
def szk : Opd → Bool | .s _ => true | .zero => true | .k _ => true | _ => false
/-- The A operand of a memory address (R228): scalar, zero, constant or even vector pair. -/
def memA : Opd → Bool | .s _ => true | .zero => true | .k _ => true | .v n => n.toNat % 2 == 0 | _ => false
/-- The B operand of a memory address, and both of a scratch address (R228). -/
def memB : Opd → Bool | .s _ => true | .zero => true | .k _ => true | .v _ => true | _ => false
/-- Sequence operand of SLIN and SLRST (R396). -/
def slSeq : Opd → Bool | .q _ => false | .lane => false | .lc _ => false | _ => true
/-- Index operand of ROLE. -/
def roleIdx : Opd → Bool | .q _ => false | .lane => false | .lc _ => false | .zero => false | _ => true

end Opd

/-- A 64-bit integer type. -/
def ITy.wide : ITy → Bool | .n64 => true | .i64 => true | _ => false

/-- Access size in bytes (Table 10.1). -/
def MTy.size : MTy → Nat | .b8 => 1 | .b16 => 2 | .b32 => 4 | .b64 => 8 | .b128 => 16 | .i32 => 4 | .i64 => 8 | .f32 => 4

/-- The operations, types and rounding fields that WRED and WSCAN allow (R196). -/
def wopOk (op : WOp) (ty : WTy) (rm : Rm) : Bool :=
  (ty ≠ .f32 || op = .add || op = .min || op = .max) && (rm = .dyn || (op = .add && ty = .f32))

/-- Destination of a load or atomic of type `ty` with address operands `a` and `b` (Table 10.1, R66, R229, R366). -/
def ldDst (d : Opd) (ty : MTy) (a b : Opd) : Bool :=
  match d with
  | .zero => true
  | .v n => if ty.size = 16 then n.toNat % 4 == 0 else if ty.size = 8 then n.toNat % 2 == 0 else true
  | .s n => a.szk && b.szk && (ty.size ≠ 16 || n.toNat % 2 == 0)
  | _ => false

/-- Data operand of a store of type `ty` (R67, R235): any readable source; wide vector data aligned, no wide queue. -/
def stData (d : Opd) (ty : MTy) : Bool :=
  match d with
  | .v n => if ty.size = 16 then n.toNat % 4 == 0 else if ty.size = 8 then n.toNat % 2 == 0 else true
  | .s n => ty.size ≠ 16 || n.toNat % 2 == 0
  | .q _ => ty.size ≤ 4
  | _ => true

/-- `SF` of ST and STS: 0x10, or a format code with a uniform address and a source type .f32 or .i32 (Table 3.4, R232). -/
def stSf (sf : BitVec 5) (ty : MTy) (a b : Opd) : Bool :=
  sf == 0x10#5 || ((sf.toNat < 16 || sf.toNat ≥ 30) && (ty = .f32 || ty = .i32) && a.szk && b.szk)

/-- The types that Table 15.1 allows for an atomic operation. -/
def atomTy (op : AtomOp) (ty : MTy) : Bool :=
  match op with
  | .exch | .and | .or | .xor => ty = .b32 || ty = .b64
  | .add | .min | .max => ty = .b32 || ty = .i32 || ty = .b64 || ty = .i64 || ty = .f32
  | .inc | .dec => ty = .b32

/-- Data operand of ATOM and RED (R366): a 64-bit type reads a scalar register whole or an even vector pair. -/
def atB (ty : MTy) (b : Opd) : Bool := if ty.size = 8 then b.mov64 else b.rd

/-- Destination of SLIN, SLOUT and SLRST (R396): scalar only when no operand is a vector register. -/
def slD (d : Opd) (l : List Opd) : Bool := d.dst3 && (!d.isS || l.all (fun o => !o.isV))


/-- The static rules of an instruction's operands and modifiers (R58, R63 to R67 and its entry): an instruction that
breaks them raises the illegal-instruction trap at issue (Table 3.7). Events are always well formed. -/
def Instr.wf : Instr → Bool
  | .nop _ => true
  | .bra _ _ => true
  | .brx _ a => a.addr
  | .call _ d _ => d.dst64
  | .ret _ a => a.addr
  | .join h => h.plain
  | .loop h d _ => h.plain && d.isLc
  | .lexit _ _ => true
  | .exit _ => true
  | .yield h => h.plain
  | .wait h _ _ => h.plain
  | .iadd _ d a b _ => d.dst3 && Opd.srcs d [a, b]
  | .isub _ d a b _ => d.dst3 && Opd.srcs d [a, b]
  | .imul _ d a b => d.dst3 && Opd.srcs d [a, b]
  | .imulh _ d a b _ => d.dst3 && Opd.srcs d [a, b]
  | .imad _ d a b c => d.dst3 && Opd.srcs d [a, b, c]
  | .imin _ d a b _ => d.dst3 && Opd.srcs d [a, b]
  | .imax _ d a b _ => d.dst3 && Opd.srcs d [a, b]
  | .iabs _ d a _ => d.dst3 && Opd.srcs d [a]
  | .icmp _ _ a b _ _ => a.rd && b.rd
  | .and _ d a b => d.dst3 && Opd.srcs d [a, b]
  | .or _ d a b => d.dst3 && Opd.srcs d [a, b]
  | .xor _ d a b => d.dst3 && Opd.srcs d [a, b]
  | .andn _ d a b => d.dst3 && Opd.srcs d [a, b]
  | .shl _ d a b => d.dst3 && Opd.srcs d [a, b]
  | .shr _ d a b => d.dst3 && Opd.srcs d [a, b]
  | .sar _ d a b => d.dst3 && Opd.srcs d [a, b]
  | .rot _ d a b _ => d.dst3 && Opd.srcs d [a, b]
  | .popc _ d a => d.dst3 && Opd.srcs d [a]
  | .clz _ d a => d.dst3 && Opd.srcs d [a]
  | .brev _ d a => d.dst3 && Opd.srcs d [a]
  | .bfe _ d a b c _ => d.dst3 && Opd.srcs d [a, b, c]
  | .bfi _ d a b c => d.dst3 && Opd.srcs d [a, b, c]
  | .lea _ d a b _ w sg => Opd.srcs d [a, b] && (if w then d.dst64 && a.src64 else d.dst3 && !sg)
  | .iaddw _ d a b wb => d.dst64 && a.src64 && Opd.srcs d [a, b] && (if wb = .b64 then b.src64 else b.rd)
  | .iaddc _ d a b _ _ => d.dstV && a.rd && b.rd
  | .sad _ d a b c _ => d.dst3 && Opd.srcs d [a, b, c]
  | .bsel _ d a b c => d.dst3 && Opd.srcs d [a, b, c]
  | .idot4 _ d a b c _ _ _ => d.dst3 && Opd.srcs d [a, b, c]
  | .fadd _ d a b _ => d.dst3 && Opd.srcs d [a, b]
  | .fsub _ d a b _ => d.dst3 && Opd.srcs d [a, b]
  | .fmul _ d a b _ => d.dst3 && Opd.srcs d [a, b]
  | .ffma _ d a b c _ => d.dst3 && Opd.srcs d [a, b, c]
  | .fmin _ d a b => d.dst3 && Opd.srcs d [a, b]
  | .fmax _ d a b => d.dst3 && Opd.srcs d [a, b]
  | .fcmp _ _ a b _ => a.rd && b.rd
  | .frnd _ d a _ _ => d.dst3 && Opd.srcs d [a]
  | .fclass _ d a => d.dst3 && Opd.srcs d [a]
  | .fscale _ d a b _ => d.dst3 && Opd.srcs d [a, b]
  | .twosum _ d a b => d.vEven && a.rd && b.rd
  | .twoprod _ d a b => d.vEven && a.rd && b.rd
  | .faddp _ d a b one => d.vEven && a.vEven && (if one then b.rd else b.vEven)
  | .pkadd _ d a b _ _ => d.dst3 && Opd.srcs d [a, b]
  | .pkmul _ d a b _ _ => d.dst3 && Opd.srcs d [a, b]
  | .pkfma _ d a b c _ _ => d.dst3 && Opd.srcs d [a, b, c]
  | .pkfmab _ d a b c _ _ => d.dst3 && Opd.srcs d [a, b, c]
  | .rcp _ d a _ => d.dst3 && Opd.srcs d [a]
  | .rsq _ d a => d.dst3 && Opd.srcs d [a]
  | .sqrt _ d a _ => d.dst3 && Opd.srcs d [a]
  | .exp2 _ d a => d.dst3 && Opd.srcs d [a]
  | .log2 _ d a => d.dst3 && Opd.srcs d [a]
  | .sin _ d a => d.dst3 && Opd.srcs d [a]
  | .cos _ d a => d.dst3 && Opd.srcs d [a]
  | .tanh _ d a => d.dst3 && Opd.srcs d [a]
  | .cvtif _ d a _ ty => d.dst3 && Opd.srcs d [a] && (if ty.wide then a.src64 else true)
  | .cvtfi _ d a _ ty => Opd.srcs d [a] && (if ty.wide then d.dst64 else d.dst3)
  | .cvtff _ d a _ _ => d.dst3 && Opd.srcs d [a]
  | .packh _ d a b _ _ => d.dst3 && Opd.srcs d [a, b]
  | .unpkh _ d a _ _ => d.dst3 && Opd.srcs d [a]
  | .decn _ d a b _ scl esc => d.dst3 && Opd.srcs d [a, b] && !(scl && esc) && (scl || b = .zero)
  | .mov _ d a w => (match d with | .lc _ => a.scalarSrc && !w | .s _ => a.scalarSrc | .v _ => !w || (d.vEven && a.mov64) | .zero => !w || a.mov64 | _ => false)
  | .movi _ d _ => d.dst3
  | .moviS _ d _ => d.dst3
  | .moviHi _ d _ => d.isS
  | .sel _ d a b _ w => d.dstV && (!w || ((d = .zero || d.vEven) && a.mov64 && b.mov64))
  | .pand _ _ _ _ _ _ => true
  | .por _ _ _ _ _ _ => true
  | .pxor _ _ _ _ _ _ => true
  | .pmov _ _ _ => true
  | .pmovNot _ _ _ => true
  | .pmovVal _ d _ => d.dstV
  | .pmovNz _ _ a => a.rd
  | .pset _ d a n1 => a.rd && n1.toNat < 32 && d.toNat + n1.toNat ≤ 127
  | .psetPack _ d a n1 => d.dstV && n1.toNat < 32 && a.toNat + n1.toNat ≤ 127
  | .smov _ d a b first => (d.isS || d.isLc) && a.isV && (if first then b = .zero else b.szk)
  | .lxch _ d a b _ _ _ => d.dstV && a.rd && b.rd
  | .agree _ _ _ _ _ => true
  | .ballot _ d _ _ _ => d.dst3
  | .wred _ d a rm op ty => d.dst3 && (!d.isS || a.isV || a.scalarSrc) && wopOk op ty rm
  | .wscan _ d a rm op ty _ => d.dstV && a.rd && wopOk op ty rm
  | .rebal _ d a b => d.vEven && a.rd && b.rd
  | .csamp _ d a b => d.dstV && a.rd && b.rd
  | .rand _ d a b _ => d.dst3 && a.rd && b.rd
  | .ld _ d a b ty _ _ od => (od = .rlx || od = .acq) && ldDst d ty a b && a.memA && b.memB
  | .st _ d a b sf ty _ _ od => (od = .rlx || od = .rel) && stData d ty && a.memA && b.memB && stSf sf ty a b
  | .lds _ d a b ty _ _ od => (od = .rlx || od = .acq) && ldDst d ty a b && a.memB && b.memB
  | .sts _ d a b sf ty _ _ od => (od = .rlx || od = .rel) && stData d ty && a.memB && b.memB && stSf sf ty a b
  | .ldw _ d a b ty _ _ od => (od = .rlx || od = .acq) && ldDst d ty a b && a.memB && b.memB
  | .stw _ d a b ty _ _ od => (od = .rlx || od = .rel) && stData d ty && a.memB && b.memB
  | .ldn _ d a b ty _ _ od => (od = .rlx || od = .acq) && d.dstV && a.szk && b.szk && (ty = .b8 || ty = .b16 || ty = .b32 || ty = .b64)
  | .qst _ d a b c f _ ev => d.dst3 && a.sEven && b.isS && c.isV && 16 ≤ f.toNat && f.toNat ≤ 29 && (d = .zero || ev.isSome)
  | .pref _ a b _ => a.memA && b.memB
  | .shbind _ d a b ev => d.dst3 && (d = .zero || ev.isSome) && a.addr && b.addr
  | .shfree _ d a ev => d.dst3 && (d = .zero || ev.isSome) && a.addr
  | .cpy _ a _ => a.addr
  | .aqstart _ d ev => d.dst3 && (d = .zero || ev.isSome)
  | .aqstop _ d ev => d.dst3 && (d = .zero || ev.isSome)
  | .aqstopQry _ d a ev => d.dst3 && (d = .zero || ev.isSome) && (match a with | .k n => n.toNat < 8 | _ => false)
  | .ldc _ d a b ty => ldDst d ty a b && a.szk && b.szk
  | .atom _ d a b op ty _ _ => atomTy op ty && a.addr && ldDst d ty a b && atB ty b
  | .acas _ d a b ty _ _ => (ty = .b32 || ty = .b64) && a.addr && ldDst d ty a b && (if ty = .b32 then b.vEven || b.sEven else b.vQuad || b.sEven)
  | .red _ a b op ty _ od => atomTy op ty && op ≠ .exch && op ≠ .inc && op ≠ .dec && (od = .rlx || od = .rel) && a.addr && atB ty b
  | .fence h _ od => h.plain && od ≠ .rlx
  | .bar h a => h.plain && (a.isK || a.isS)
  | .nbar h a => h.plain && (a.isK || a.isS)
  | .slin _ d a b => slD d [a, b] && a.addr && b.slSeq
  | .slout _ d a => slD d [a] && a.addr
  | .sloutLast _ d a => slD d [a] && a.addr
  | .slqry _ d a => (d = .zero || d.vEven) && a.addr
  | .slrst _ d a b => slD d [a, b] && a.addr && b.slSeq
  | .slrstDel _ d a => slD d [a] && a.addr
  | .send _ d a _ => d.dst3 && a.isS
  | .recv _ d a _ => d.dst3 && a.isS
  | .mloadb _ a b _ _ _ => a.isS && (b.isS || b = .zero)
  | .mma _ a b nkm _ _ => a.isS && b.isV && nkm ≠ 15#4
  | .mres _ d _ _ _ => d.vQuad
  | .mfence _ _ => true
  | .mwait h => h.plain
  | .had _ a b c _ _ _ => a.isS && b.isS && c.isS
  | .twalk _ d a b _ ev => d.dst3 && (d = .zero || ev.isSome) && a.isS && (b.isS || b = .zero)
  | .tnext _ d ev => d.isS && ev.isSome
  | .mzero _ _ _ => true
  | .beam _ d a _ => d.dst3 && a.isS
  | .bfrag _ d a ev => d.vQuad && a.isS && ev.isSome
  | .bdone _ a => a.isS || a.isV
  | .rays _ d a b _ _ _ => d.dstV && a.vQuad && b.vQuad
  | .hitget _ d a ev => d.vQuad && a.isV && ev.isSome
  | .hitgetCand _ d a ev => d.vQuad && a.isV && ev.isSome
  | .hitacc _ a b c => a.isV && b.isV && c.isV
  | .tex _ d a b c _ ev => d.vQuad && a.vQuad && b.vQuad && c.isS && ev.isSome
  | .texq _ d a b c ev => d.vQuad && a.vQuad && b.vQuad && c.isS && ev.isSome
  | .bvhset _ d a _ => d.dst3 && a.isS
  | .launch _ d a => d.dst3 && a.addr
  | .wchild _ d => d.dst3
  | .gsig _ d a => d.dst3 && (a.isV || a.isS || a.isK)
  | .enrd _ d => d.dst64
  | .enrdBal _ d => d.dst64
  | .role _ d a => d.dst3 && Opd.srcs d [a] && a.roleIdx
  | .roleId _ d a => d.dst3 && Opd.srcs d [a] && a.roleIdx
  | .rolePos _ d a => d.dst3 && Opd.srcs d [a] && a.roleIdx
  | .roleCnt _ d => d.dst3
  | .trap _ _ => true
  | .rte h => h.plain
  | .csrr _ d _ => d.dst64
  | .csrw _ d _ => d.szk
  | .csrwSet _ d _ => d.szk
  | .csrwClr _ d _ => d.szk
  | .rinv _ d a _ => d.dst3 && a.isS
  | .rinvRange _ d a b c _ => d.dst3 && a.isS && b.isS && c.isS
  | .qctlQ _ d a _ => d.dst3 && a.isS
  | .qctlR _ d a _ => d.dst3 && a.isS
  | .qctlQry _ d a _ => d.isS && a.isS
  | .sfuResult _ _ _ => true
  | .loadComplete _ _ _ => true
  | .copyComplete _ => true
  | .streamPush _ => true
  | .qstComplete _ _ _ => true
  | .sluiceTimeout _ _ => true
  | .sluiceDeadlock _ => true
  | .mloadbComplete _ _ _ => true
  | .mmaComplete _ _ _ => true
  | .hadComplete _ _ _ => true
  | .beamTreeSettled _ _ => true
  | .raysSettled _ _ => true
  | .clauseEntry _ _ => true
  | .regionCommit _ _ _ => true
  | .sectorFill _ _ _ => true
  | .spillRefetch _ => true
  | .faultResolved _ _ => true
  | .faultSlotRetry _ => true
  | .recordTake _ _ => true
  | .nodeComplete _ => true
  | .gangPlace _ => true
  | .preemptSaved _ => true
  | .park _ => true
  | .teamRetire _ => true
  | .energyRefill => true
  | .coreUncorrectableError _ _ => true
  | .schedulerCoreError _ => true
  | .rootCoreError => true
  | .boot _ => true
  | .firmwareUpdate _ => true
  | .hostBar2Access _ _ _ => true
  | .atsInvalidate _ => true
  | .peerAccess _ _ _ => true
  | .linkCrcError _ _ _ => true
  | .qcfgWrite _ _ _ => true
  | .qidxWrite _ _ _ => true
  | .fqcfgWrite _ _ => true
  | .mqcfgWrite _ _ => true
  | .mqidxWrite _ _ => true
  | .acthWrite _ _ => true
  | .slcfgWrite _ _ => true
  | .cqcfgWrite _ _ => true
  | .cqidxWrite _ _ => true
  | .eqcfgWrite _ _ => true
  | .pqmaskWrite _ _ _ => true
  | .pwaysWrite _ _ _ => true
  | .nbndWrite _ _ _ => true
  | .prsvWrite _ _ _ => true
  | .asidvWrite _ _ _ => true
  | .pcapWrite _ _ _ => true
  | .fmodeWrite _ _ _ => true
  | .fflagsWrite _ _ _ => true
  | .registerWrite _ _ => true
  | .regionEndingResult _ _ _ => true
  | .texComplete _ _ _ => true
  | .bvhsetComplete _ _ _ => true
  | .shbindComplete _ _ _ => true
  | .tnextComplete _ _ _ _ => true
  | .mresComplete _ _ _ => true
  | .rinvComplete _ _ _ => true
  | .faultRecordFreed _ _ => true
  | .energyWrite _ _ _ => true
  | .schedulerCoreReloaded _ => true
  | .msixTableWrite _ _ _ => true

/-- Is this row an event of an agent (true), or an instruction that a wave issues (false)? -/
def Instr.isEvent : Instr → Bool
  | .nop _ => false
  | .bra _ _ => false
  | .brx _ _ => false
  | .call _ _ _ => false
  | .ret _ _ => false
  | .join _ => false
  | .loop _ _ _ => false
  | .lexit _ _ => false
  | .exit _ => false
  | .yield _ => false
  | .wait _ _ _ => false
  | .iadd _ _ _ _ _ => false
  | .isub _ _ _ _ _ => false
  | .imul _ _ _ _ => false
  | .imulh _ _ _ _ _ => false
  | .imad _ _ _ _ _ => false
  | .imin _ _ _ _ _ => false
  | .imax _ _ _ _ _ => false
  | .iabs _ _ _ _ => false
  | .icmp _ _ _ _ _ _ => false
  | .and _ _ _ _ => false
  | .or _ _ _ _ => false
  | .xor _ _ _ _ => false
  | .andn _ _ _ _ => false
  | .shl _ _ _ _ => false
  | .shr _ _ _ _ => false
  | .sar _ _ _ _ => false
  | .rot _ _ _ _ _ => false
  | .popc _ _ _ => false
  | .clz _ _ _ => false
  | .brev _ _ _ => false
  | .bfe _ _ _ _ _ _ => false
  | .bfi _ _ _ _ _ => false
  | .lea _ _ _ _ _ _ _ => false
  | .iaddw _ _ _ _ _ => false
  | .iaddc _ _ _ _ _ _ => false
  | .sad _ _ _ _ _ _ => false
  | .bsel _ _ _ _ _ => false
  | .idot4 _ _ _ _ _ _ _ _ => false
  | .fadd _ _ _ _ _ => false
  | .fsub _ _ _ _ _ => false
  | .fmul _ _ _ _ _ => false
  | .ffma _ _ _ _ _ _ => false
  | .fmin _ _ _ _ => false
  | .fmax _ _ _ _ => false
  | .fcmp _ _ _ _ _ => false
  | .frnd _ _ _ _ _ => false
  | .fclass _ _ _ => false
  | .fscale _ _ _ _ _ => false
  | .twosum _ _ _ _ => false
  | .twoprod _ _ _ _ => false
  | .faddp _ _ _ _ _ => false
  | .pkadd _ _ _ _ _ _ => false
  | .pkmul _ _ _ _ _ _ => false
  | .pkfma _ _ _ _ _ _ _ => false
  | .pkfmab _ _ _ _ _ _ _ => false
  | .rcp _ _ _ _ => false
  | .rsq _ _ _ => false
  | .sqrt _ _ _ _ => false
  | .exp2 _ _ _ => false
  | .log2 _ _ _ => false
  | .sin _ _ _ => false
  | .cos _ _ _ => false
  | .tanh _ _ _ => false
  | .cvtif _ _ _ _ _ => false
  | .cvtfi _ _ _ _ _ => false
  | .cvtff _ _ _ _ _ => false
  | .packh _ _ _ _ _ _ => false
  | .unpkh _ _ _ _ _ => false
  | .decn _ _ _ _ _ _ _ => false
  | .mov _ _ _ _ => false
  | .movi _ _ _ => false
  | .moviS _ _ _ => false
  | .moviHi _ _ _ => false
  | .sel _ _ _ _ _ _ => false
  | .pand _ _ _ _ _ _ => false
  | .por _ _ _ _ _ _ => false
  | .pxor _ _ _ _ _ _ => false
  | .pmov _ _ _ => false
  | .pmovNot _ _ _ => false
  | .pmovVal _ _ _ => false
  | .pmovNz _ _ _ => false
  | .pset _ _ _ _ => false
  | .psetPack _ _ _ _ => false
  | .smov _ _ _ _ _ => false
  | .lxch _ _ _ _ _ _ _ => false
  | .agree _ _ _ _ _ => false
  | .ballot _ _ _ _ _ => false
  | .wred _ _ _ _ _ _ => false
  | .wscan _ _ _ _ _ _ _ => false
  | .rebal _ _ _ _ => false
  | .csamp _ _ _ _ => false
  | .rand _ _ _ _ _ => false
  | .ld _ _ _ _ _ _ _ _ => false
  | .st _ _ _ _ _ _ _ _ _ => false
  | .lds _ _ _ _ _ _ _ _ => false
  | .sts _ _ _ _ _ _ _ _ _ => false
  | .ldw _ _ _ _ _ _ _ _ => false
  | .stw _ _ _ _ _ _ _ _ => false
  | .ldn _ _ _ _ _ _ _ _ => false
  | .qst _ _ _ _ _ _ _ _ => false
  | .pref _ _ _ _ => false
  | .shbind _ _ _ _ _ => false
  | .shfree _ _ _ _ => false
  | .cpy _ _ _ => false
  | .aqstart _ _ _ => false
  | .aqstop _ _ _ => false
  | .aqstopQry _ _ _ _ => false
  | .ldc _ _ _ _ _ => false
  | .atom _ _ _ _ _ _ _ _ => false
  | .acas _ _ _ _ _ _ _ => false
  | .red _ _ _ _ _ _ _ => false
  | .fence _ _ _ => false
  | .bar _ _ => false
  | .nbar _ _ => false
  | .slin _ _ _ _ => false
  | .slout _ _ _ => false
  | .sloutLast _ _ _ => false
  | .slqry _ _ _ => false
  | .slrst _ _ _ _ => false
  | .slrstDel _ _ _ => false
  | .send _ _ _ _ => false
  | .recv _ _ _ _ => false
  | .mloadb _ _ _ _ _ _ => false
  | .mma _ _ _ _ _ _ => false
  | .mres _ _ _ _ _ => false
  | .mfence _ _ => false
  | .mwait _ => false
  | .had _ _ _ _ _ _ _ => false
  | .twalk _ _ _ _ _ _ => false
  | .tnext _ _ _ => false
  | .mzero _ _ _ => false
  | .beam _ _ _ _ => false
  | .bfrag _ _ _ _ => false
  | .bdone _ _ => false
  | .rays _ _ _ _ _ _ _ => false
  | .hitget _ _ _ _ => false
  | .hitgetCand _ _ _ _ => false
  | .hitacc _ _ _ _ => false
  | .tex _ _ _ _ _ _ _ => false
  | .texq _ _ _ _ _ _ => false
  | .bvhset _ _ _ _ => false
  | .launch _ _ _ => false
  | .wchild _ _ => false
  | .gsig _ _ _ => false
  | .enrd _ _ => false
  | .enrdBal _ _ => false
  | .role _ _ _ => false
  | .roleId _ _ _ => false
  | .rolePos _ _ _ => false
  | .roleCnt _ _ => false
  | .trap _ _ => false
  | .rte _ => false
  | .csrr _ _ _ => false
  | .csrw _ _ _ => false
  | .csrwSet _ _ _ => false
  | .csrwClr _ _ _ => false
  | .rinv _ _ _ _ => false
  | .rinvRange _ _ _ _ _ _ => false
  | .qctlQ _ _ _ _ => false
  | .qctlR _ _ _ _ => false
  | .qctlQry _ _ _ _ => false
  | .sfuResult _ _ _ => true
  | .loadComplete _ _ _ => true
  | .copyComplete _ => true
  | .streamPush _ => true
  | .qstComplete _ _ _ => true
  | .sluiceTimeout _ _ => true
  | .sluiceDeadlock _ => true
  | .mloadbComplete _ _ _ => true
  | .mmaComplete _ _ _ => true
  | .hadComplete _ _ _ => true
  | .beamTreeSettled _ _ => true
  | .raysSettled _ _ => true
  | .clauseEntry _ _ => true
  | .regionCommit _ _ _ => true
  | .sectorFill _ _ _ => true
  | .spillRefetch _ => true
  | .faultResolved _ _ => true
  | .faultSlotRetry _ => true
  | .recordTake _ _ => true
  | .nodeComplete _ => true
  | .gangPlace _ => true
  | .preemptSaved _ => true
  | .park _ => true
  | .teamRetire _ => true
  | .energyRefill => true
  | .coreUncorrectableError _ _ => true
  | .schedulerCoreError _ => true
  | .rootCoreError => true
  | .boot _ => true
  | .firmwareUpdate _ => true
  | .hostBar2Access _ _ _ => true
  | .atsInvalidate _ => true
  | .peerAccess _ _ _ => true
  | .linkCrcError _ _ _ => true
  | .qcfgWrite _ _ _ => true
  | .qidxWrite _ _ _ => true
  | .fqcfgWrite _ _ => true
  | .mqcfgWrite _ _ => true
  | .mqidxWrite _ _ => true
  | .acthWrite _ _ => true
  | .slcfgWrite _ _ => true
  | .cqcfgWrite _ _ => true
  | .cqidxWrite _ _ => true
  | .eqcfgWrite _ _ => true
  | .pqmaskWrite _ _ _ => true
  | .pwaysWrite _ _ _ => true
  | .nbndWrite _ _ _ => true
  | .prsvWrite _ _ _ => true
  | .asidvWrite _ _ _ => true
  | .pcapWrite _ _ _ => true
  | .fmodeWrite _ _ _ => true
  | .fflagsWrite _ _ _ => true
  | .registerWrite _ _ => true
  | .regionEndingResult _ _ _ => true
  | .texComplete _ _ _ => true
  | .bvhsetComplete _ _ _ => true
  | .shbindComplete _ _ _ => true
  | .tnextComplete _ _ _ _ => true
  | .mresComplete _ _ _ => true
  | .rinvComplete _ _ _ => true
  | .faultRecordFreed _ _ => true
  | .energyWrite _ _ _ => true
  | .schedulerCoreReloaded _ => true
  | .msixTableWrite _ _ _ => true

end Sys2Proof
end

