-- ==== Sys2Proof/Decode.lean ====
section
/-! DEFINITION. Sys2Proof/Decode.lean: from the 64-bit words of a clause to a header or an instruction (03_code.md R50,
R55, R58 to R63, Tables 3.1 to 3.6), and back: `encode`. A word that is no instruction is rejected by name. -/
namespace Sys2Proof

/-- The fields of an instruction word (Tables 3.2 and 3.3). -/
structure Fields where
  op : BitVec 8
  h : Hdr
  d : BitVec 8
  a : BitVec 8
  b : BitVec 8
  c : BitVec 8
  fn : BitVec 12
  deriving DecidableEq, Repr

/-- Split a word into the fields of Tables 3.2 and 3.3. -/
def Fields.ofWord (w : BitVec 64) : Fields :=
  { op := w.extractLsb' 56 8
    h := { stall := w.extractLsb' 52 4, gn := w.extractLsb' 51 1 == 1#1, gp := w.extractLsb' 44 7 }
    d := w.extractLsb' 36 8, a := w.extractLsb' 28 8, b := w.extractLsb' 20 8, c := w.extractLsb' 12 8
    fn := w.extractLsb' 0 12 }

/-- FN4 of the I and J formats: bits [35:32]. -/
def Fields.fn4 (f : Fields) : BitVec 4 := f.a.extractLsb' 4 4
/-- IMM32 or OFF of the I and J formats: bits [31:0]. -/
def Fields.imm (f : Fields) : BitVec 32 := f.a.extractLsb' 0 4 ++ f.b ++ f.c ++ f.fn

/-- Put a word together from its fields. -/
def packA (op : BitVec 8) (h : Hdr) (d a b c : BitVec 8) (fn : BitVec 12) : BitVec 64 :=
  op ++ h.stall ++ BitVec.ofBool h.gn ++ h.gp ++ d ++ a ++ b ++ c ++ fn

/-- Put a word of format I or J together. -/
def packI (op : BitVec 8) (h : Hdr) (d : BitVec 8) (fn4 : BitVec 4) (imm : BitVec 32) : BitVec 64 :=
  op ++ h.stall ++ BitVec.ofBool h.gn ++ h.gp ++ d ++ fn4 ++ imm

/-- The code of an operand (Table 3.5). -/
def Opd.code : Opd → BitVec 8
  | .v n => 0#1 ++ n
  | .s n => 2#2 ++ n
  | .zero => 0xC0#8
  | .lane => 0xC1#8
  | .wave => 0xC2#8
  | .tx => 0xC3#8
  | .ty => 0xC4#8
  | .tz => 0xC5#8
  | .role => 0xC6#8
  | .q n => 0x1A#5 ++ n
  | .lc n => BitVec.ofNat 8 (0xD8 + n.val)
  | .k n => 0xE#4 ++ n

/-- The operand of a code (Table 3.5); a reserved code has none. -/
def Opd.ofCode (c : BitVec 8) : Option Opd :=
  if c.extractLsb' 7 1 = 0#1 then some (.v (c.extractLsb' 0 7))
  else if c.extractLsb' 6 2 = 2#2 then some (.s (c.extractLsb' 0 6))
  else if c = 0xC0#8 then some .zero
  else if c = 0xC1#8 then some .lane
  else if c = 0xC2#8 then some .wave
  else if c = 0xC3#8 then some .tx
  else if c = 0xC4#8 then some .ty
  else if c = 0xC5#8 then some .tz
  else if c = 0xC6#8 then some .role
  else if c.extractLsb' 3 5 = 0x1A#5 then some (.q (c.extractLsb' 0 3))
  else if c = 0xD8#8 then some (.lc 0)
  else if c = 0xD9#8 then some (.lc 1)
  else if c = 0xDA#8 then some (.lc 2)
  else if c.extractLsb' 4 4 = 0xE#4 then some (.k (c.extractLsb' 0 4))
  else none

/-- A predicate field: bit 7 must be 0 (R63). -/
def prOf (c : BitVec 8) : Option Pr := if c.extractLsb' 7 1 = 0#1 then some (c.extractLsb' 0 7) else none
def prCode (p : Pr) : BitVec 8 := 0#1 ++ p
/-- The optional predicate of LXCH: with FN[6] = 0, C must be 0xC0. -/
def prOpt (on : Bool) (c : BitVec 8) : Option (Option Pr) :=
  if on then (prOf c).map some else if c = 0xC0#8 then some none else none
def prOptCode : Option Pr → BitVec 8
  | some p => prCode p
  | none => 0xC0#8

/-- `EV` and `EVE`, FN[11:7] of format E (R61): `EVE` = 0 needs `EV` = 0, and `EV` is at most 7. -/
def evOfBits (x : BitVec 5) : Option (Option (BitVec 3)) :=
  if x = 0#5 then some none
  else if x.extractLsb' 0 1 = 1#1 ∧ x.extractLsb' 4 1 = 0#1 then some (some (x.extractLsb' 1 3)) else none
def evToBits : Option (BitVec 3) → BitVec 5
  | none => 0#5
  | some n => 0#1 ++ n ++ 1#1


/-- The code of a SatMode. -/
def SatMode.toBits : SatMode → BitVec 2
  | .wrap => 0#2
  | .n32 => 2#2
  | .i32 => 3#2

/-- The SatMode of a code; a reserved code has none. -/
def SatMode.ofBits (x : BitVec 2) : Option SatMode :=
  if x = 0#2 then Option.some .wrap else if x = 2#2 then Option.some .n32 else if x = 3#2 then Option.some .i32 else Option.none

/-- The code of a Cmp. -/
def Cmp.toBits : Cmp → BitVec 3
  | .eq => 0#3
  | .ne => 1#3
  | .lt => 2#3
  | .le => 3#3
  | .gt => 4#3
  | .ge => 5#3

/-- The Cmp of a code; a reserved code has none. -/
def Cmp.ofBits (x : BitVec 3) : Option Cmp :=
  if x = 0#3 then Option.some .eq else if x = 1#3 then Option.some .ne else if x = 2#3 then Option.some .lt else if x = 3#3 then Option.some .le else if x = 4#3 then Option.some .gt else if x = 5#3 then Option.some .ge else Option.none

/-- The code of a FCond. -/
def FCond.toBits : FCond → BitVec 3
  | .eq => 0#3
  | .ne => 1#3
  | .lt => 2#3
  | .le => 3#3
  | .gt => 4#3
  | .ge => 5#3
  | .un => 6#3
  | .ord => 7#3

/-- The FCond of a code; a reserved code has none. -/
def FCond.ofBits (x : BitVec 3) : Option FCond :=
  if x = 0#3 then Option.some .eq else if x = 1#3 then Option.some .ne else if x = 2#3 then Option.some .lt else if x = 3#3 then Option.some .le else if x = 4#3 then Option.some .gt else if x = 5#3 then Option.some .ge else if x = 6#3 then Option.some .un else if x = 7#3 then Option.some .ord else Option.none

/-- The code of a Rm. -/
def Rm.toBits : Rm → BitVec 3
  | .dyn => 0#3
  | .rn => 4#3
  | .rz => 5#3
  | .rd => 6#3
  | .ru => 7#3

/-- The Rm of a code; a reserved code has none. -/
def Rm.ofBits (x : BitVec 3) : Option Rm :=
  if x = 0#3 then Option.some .dyn else if x = 4#3 then Option.some .rn else if x = 5#3 then Option.some .rz else if x = 6#3 then Option.some .rd else if x = 7#3 then Option.some .ru else Option.none

/-- The code of a WideB. -/
def WideB.toBits : WideB → BitVec 2
  | .b64 => 0#2
  | .n32 => 1#2
  | .i32 => 2#2

/-- The WideB of a code; a reserved code has none. -/
def WideB.ofBits (x : BitVec 2) : Option WideB :=
  if x = 0#2 then Option.some .b64 else if x = 1#2 then Option.some .n32 else if x = 2#2 then Option.some .i32 else Option.none

/-- The code of a ITy. -/
def ITy.toBits : ITy → BitVec 2
  | .n32 => 0#2
  | .i32 => 1#2
  | .n64 => 2#2
  | .i64 => 3#2

/-- The ITy of a code; a reserved code has none. -/
def ITy.ofBits (x : BitVec 2) : Option ITy :=
  if x = 0#2 then Option.some .n32 else if x = 1#2 then Option.some .i32 else if x = 2#2 then Option.some .n64 else if x = 3#2 then Option.some .i64 else Option.none

/-- The code of a LxMode. -/
def LxMode.toBits : LxMode → BitVec 3
  | .atl => 0#3
  | .lo => 1#3
  | .hi => 2#3
  | .mix => 3#3
  | .rot => 4#3

/-- The LxMode of a code; a reserved code has none. -/
def LxMode.ofBits (x : BitVec 3) : Option LxMode :=
  if x = 0#3 then Option.some .atl else if x = 1#3 then Option.some .lo else if x = 2#3 then Option.some .hi else if x = 3#3 then Option.some .mix else if x = 4#3 then Option.some .rot else Option.none

/-- The code of a LxGroup. -/
def LxGroup.toBits : LxGroup → BitVec 3
  | .g32 => 0#3
  | .g16 => 1#3
  | .g8 => 2#3
  | .g4 => 3#3
  | .g2 => 4#3
  | .g1 => 5#3

/-- The LxGroup of a code; a reserved code has none. -/
def LxGroup.ofBits (x : BitVec 3) : Option LxGroup :=
  if x = 0#3 then Option.some .g32 else if x = 1#3 then Option.some .g16 else if x = 2#3 then Option.some .g8 else if x = 3#3 then Option.some .g4 else if x = 4#3 then Option.some .g2 else if x = 5#3 then Option.some .g1 else Option.none

/-- The code of a AgreeK. -/
def AgreeK.toBits : AgreeK → BitVec 2
  | .every => 0#2
  | .some => 1#2
  | .same => 2#2
  | .none => 3#2

/-- The AgreeK of a code; a reserved code has none. -/
def AgreeK.ofBits (x : BitVec 2) : Option AgreeK :=
  if x = 0#2 then Option.some .every else if x = 1#2 then Option.some .some else if x = 2#2 then Option.some .same else if x = 3#2 then Option.some .none else Option.none

/-- The code of a WOp. -/
def WOp.toBits : WOp → BitVec 3
  | .add => 0#3
  | .min => 1#3
  | .max => 2#3
  | .and => 3#3
  | .or => 4#3
  | .xor => 5#3

/-- The WOp of a code; a reserved code has none. -/
def WOp.ofBits (x : BitVec 3) : Option WOp :=
  if x = 0#3 then Option.some .add else if x = 1#3 then Option.some .min else if x = 2#3 then Option.some .max else if x = 3#3 then Option.some .and else if x = 4#3 then Option.some .or else if x = 5#3 then Option.some .xor else Option.none

/-- The code of a WTy. -/
def WTy.toBits : WTy → BitVec 2
  | .n32 => 0#2
  | .i32 => 1#2
  | .f32 => 2#2

/-- The WTy of a code; a reserved code has none. -/
def WTy.ofBits (x : BitVec 2) : Option WTy :=
  if x = 0#2 then Option.some .n32 else if x = 1#2 then Option.some .i32 else if x = 2#2 then Option.some .f32 else Option.none

/-- The code of a MTy. -/
def MTy.toBits : MTy → BitVec 3
  | .b8 => 0#3
  | .b16 => 1#3
  | .b32 => 2#3
  | .b64 => 3#3
  | .b128 => 4#3
  | .i32 => 5#3
  | .i64 => 6#3
  | .f32 => 7#3

/-- The MTy of a code; a reserved code has none. -/
def MTy.ofBits (x : BitVec 3) : Option MTy :=
  if x = 0#3 then Option.some .b8 else if x = 1#3 then Option.some .b16 else if x = 2#3 then Option.some .b32 else if x = 3#3 then Option.some .b64 else if x = 4#3 then Option.some .b128 else if x = 5#3 then Option.some .i32 else if x = 6#3 then Option.some .i64 else if x = 7#3 then Option.some .f32 else Option.none

/-- The code of a Pol. -/
def Pol.toBits : Pol → BitVec 2
  | .normal => 0#2
  | .stream => 1#2
  | .keep => 2#2

/-- The Pol of a code; a reserved code has none. -/
def Pol.ofBits (x : BitVec 2) : Option Pol :=
  if x = 0#2 then Option.some .normal else if x = 1#2 then Option.some .stream else if x = 2#2 then Option.some .keep else Option.none

/-- The code of a Scope. -/
def Scope.toBits : Scope → BitVec 3
  | .core => 0#3
  | .clus => 1#3
  | .nbhd => 2#3
  | .part => 3#3
  | .dev => 4#3
  | .sys => 5#3

/-- The Scope of a code; a reserved code has none. -/
def Scope.ofBits (x : BitVec 3) : Option Scope :=
  if x = 0#3 then Option.some .core else if x = 1#3 then Option.some .clus else if x = 2#3 then Option.some .nbhd else if x = 3#3 then Option.some .part else if x = 4#3 then Option.some .dev else if x = 5#3 then Option.some .sys else Option.none

/-- The code of a Ord. -/
def Ord.toBits : Ord → BitVec 2
  | .rlx => 0#2
  | .acq => 1#2
  | .rel => 2#2
  | .acqrel => 3#2

/-- The Ord of a code; a reserved code has none. -/
def Ord.ofBits (x : BitVec 2) : Option Ord :=
  if x = 0#2 then Option.some .rlx else if x = 1#2 then Option.some .acq else if x = 2#2 then Option.some .rel else if x = 3#2 then Option.some .acqrel else Option.none

/-- The code of a AtomOp. -/
def AtomOp.toBits : AtomOp → BitVec 5
  | .exch => 0#5
  | .add => 1#5
  | .min => 2#5
  | .max => 3#5
  | .and => 4#5
  | .or => 5#5
  | .xor => 6#5
  | .inc => 7#5
  | .dec => 8#5

/-- The AtomOp of a code; a reserved code has none. -/
def AtomOp.ofBits (x : BitVec 5) : Option AtomOp :=
  if x = 0#5 then Option.some .exch else if x = 1#5 then Option.some .add else if x = 2#5 then Option.some .min else if x = 3#5 then Option.some .max else if x = 4#5 then Option.some .and else if x = 5#5 then Option.some .or else if x = 6#5 then Option.some .xor else if x = 7#5 then Option.some .inc else if x = 8#5 then Option.some .dec else Option.none

/-- The code of a QMode. -/
def QMode.toBits : QMode → BitVec 2
  | .fault => 0#2
  | .clamp => 1#2
  | .none => 2#2

/-- The QMode of a code; a reserved code has none. -/
def QMode.ofBits (x : BitVec 2) : Option QMode :=
  if x = 0#2 then Option.some .fault else if x = 1#2 then Option.some .clamp else if x = 2#2 then Option.some .none else Option.none

/-- The code of a HadP. -/
def HadP.toBits : HadP → BitVec 2
  | .p16 => 0#2
  | .p32 => 1#2
  | .p64 => 2#2

/-- The HadP of a code; a reserved code has none. -/
def HadP.ofBits (x : BitVec 2) : Option HadP :=
  if x = 0#2 then Option.some .p16 else if x = 1#2 then Option.some .p32 else if x = 2#2 then Option.some .p64 else Option.none

/-- The code of a HadTy. -/
def HadTy.toBits : HadTy → BitVec 2
  | .i32i16 => 0#2
  | .f32i16 => 1#2
  | .f32i32 => 2#2
  | .f32f16 => 3#2

/-- The HadTy of a code; a reserved code has none. -/
def HadTy.ofBits (x : BitVec 2) : Option HadTy :=
  if x = 0#2 then Option.some .i32i16 else if x = 1#2 then Option.some .f32i16 else if x = 2#2 then Option.some .f32i32 else if x = 3#2 then Option.some .f32f16 else Option.none

/-- The code of a WDim. -/
def WDim.toBits : WDim → BitVec 2
  | .d1 => 0#2
  | .d2 => 1#2
  | .d3 => 2#2

/-- The WDim of a code; a reserved code has none. -/
def WDim.ofBits (x : BitVec 2) : Option WDim :=
  if x = 0#2 then Option.some .d1 else if x = 1#2 then Option.some .d2 else if x = 2#2 then Option.some .d3 else Option.none

/-- Take a modifier out of a field and require a value. -/
def fld (w : Nat) (x : BitVec n) (lo : Nat) : BitVec w := x.extractLsb' lo w

/-- The instruction of the fields of a word, before the operand rules of WellFormed (Table 3.6). -/
def rawDecode0 (y : Fields) : Option Instr :=
  match y.op.toNat with
  | 0x00 => (do guard ((y.d == 0xC0#8) && (y.a == 0xC0#8) && (y.b == 0xC0#8) && (y.c == 0xC0#8) && (y.fn &&& 0xFFF#12 == 0x000#12)); pure (Instr.nop y.h))
  | 0x01 => (do guard ((y.d == 0xC0#8) && (y.fn4 == 0#4)); let off := y.imm; pure (Instr.bra y.h off))
  | 0x02 => (do guard ((y.d == 0xC0#8) && (y.b == 0xC0#8) && (y.c == 0xC0#8) && (y.fn &&& 0xFFF#12 == 0x000#12)); let a ← Opd.ofCode y.a; pure (Instr.brx y.h a))
  | 0x03 => (do guard ((y.fn4 == 0#4)); let d ← Opd.ofCode y.d; let off := y.imm; pure (Instr.call y.h d off))
  | 0x04 => (do guard ((y.d == 0xC0#8) && (y.b == 0xC0#8) && (y.c == 0xC0#8) && (y.fn &&& 0xFFF#12 == 0x000#12)); let a ← Opd.ofCode y.a; pure (Instr.ret y.h a))
  | 0x05 => (do guard ((y.d == 0xC0#8) && (y.a == 0xC0#8) && (y.b == 0xC0#8) && (y.c == 0xC0#8) && (y.fn &&& 0xFFF#12 == 0x000#12)); pure (Instr.join y.h))
  | 0x06 => (do guard ((y.fn4 == 0#4)); let d ← Opd.ofCode y.d; let off := y.imm; pure (Instr.loop y.h d off))
  | 0x07 => (do guard ((y.d == 0xC0#8) && (y.fn4 == 0#4)); let off := y.imm; pure (Instr.lexit y.h off))
  | 0x08 => (do guard ((y.d == 0xC0#8) && (y.a == 0xC0#8) && (y.b == 0xC0#8) && (y.c == 0xC0#8) && (y.fn &&& 0xFFF#12 == 0x000#12)); pure (Instr.exit y.h))
  | 0x09 => (do guard ((y.d == 0xC0#8) && (y.a == 0xC0#8) && (y.b == 0xC0#8) && (y.c == 0xC0#8) && (y.fn &&& 0xFFF#12 == 0x000#12)); pure (Instr.yield y.h))
  | 0x0A => (do guard ((y.d == 0xC0#8) && (y.a == 0xC0#8) && (y.b == 0xC0#8) && (y.c == 0xC0#8)); let k := (fld 4 y.fn 8); let mask := (fld 8 y.fn 0); pure (Instr.wait y.h k mask))
  | _ => none

def rawDecode1 (y : Fields) : Option Instr :=
  match y.op.toNat with
  | 0x10 => (do guard ((y.c == 0xC0#8) && (y.fn &&& 0xFFC#12 == 0x000#12)); let d ← Opd.ofCode y.d; let a ← Opd.ofCode y.a; let b ← Opd.ofCode y.b; let sat ← SatMode.ofBits (fld 2 y.fn 0); pure (Instr.iadd y.h d a b sat))
  | 0x11 => (do guard ((y.c == 0xC0#8) && (y.fn &&& 0xFFC#12 == 0x000#12)); let d ← Opd.ofCode y.d; let a ← Opd.ofCode y.a; let b ← Opd.ofCode y.b; let sat ← SatMode.ofBits (fld 2 y.fn 0); pure (Instr.isub y.h d a b sat))
  | 0x12 => (do guard ((y.c == 0xC0#8) && (y.fn &&& 0xFFF#12 == 0x000#12)); let d ← Opd.ofCode y.d; let a ← Opd.ofCode y.a; let b ← Opd.ofCode y.b; pure (Instr.imul y.h d a b))
  | 0x13 => (do guard ((y.c == 0xC0#8) && (y.fn &&& 0xFFE#12 == 0x000#12)); let d ← Opd.ofCode y.d; let a ← Opd.ofCode y.a; let b ← Opd.ofCode y.b; let sg := (fld 1 y.fn 0) == 1#1; pure (Instr.imulh y.h d a b sg))
  | 0x14 => (do guard ((y.fn &&& 0xFFF#12 == 0x000#12)); let d ← Opd.ofCode y.d; let a ← Opd.ofCode y.a; let b ← Opd.ofCode y.b; let c ← Opd.ofCode y.c; pure (Instr.imad y.h d a b c))
  | 0x15 => (do guard ((y.c == 0xC0#8) && (y.fn &&& 0xFFE#12 == 0x000#12)); let d ← Opd.ofCode y.d; let a ← Opd.ofCode y.a; let b ← Opd.ofCode y.b; let sg := (fld 1 y.fn 0) == 1#1; pure (Instr.imin y.h d a b sg))
  | 0x16 => (do guard ((y.c == 0xC0#8) && (y.fn &&& 0xFFE#12 == 0x000#12)); let d ← Opd.ofCode y.d; let a ← Opd.ofCode y.a; let b ← Opd.ofCode y.b; let sg := (fld 1 y.fn 0) == 1#1; pure (Instr.imax y.h d a b sg))
  | 0x17 => (do guard ((y.b == 0xC0#8) && (y.c == 0xC0#8) && (y.fn &&& 0xFFD#12 == 0x000#12)); let d ← Opd.ofCode y.d; let a ← Opd.ofCode y.a; let sat := (fld 1 y.fn 1) == 1#1; pure (Instr.iabs y.h d a sat))
  | 0x18 => (do guard ((y.c == 0xC0#8) && (y.fn &&& 0xFF0#12 == 0x000#12)); let d ← prOf y.d; let a ← Opd.ofCode y.a; let b ← Opd.ofCode y.b; let sg := (fld 1 y.fn 0) == 1#1; let cc ← Cmp.ofBits (fld 3 y.fn 1); pure (Instr.icmp y.h d a b sg cc))
  | 0x19 => (do guard ((y.c == 0xC0#8) && (y.fn &&& 0xFFF#12 == 0x000#12)); let d ← Opd.ofCode y.d; let a ← Opd.ofCode y.a; let b ← Opd.ofCode y.b; pure (Instr.and y.h d a b))
  | 0x1A => (do guard ((y.c == 0xC0#8) && (y.fn &&& 0xFFF#12 == 0x000#12)); let d ← Opd.ofCode y.d; let a ← Opd.ofCode y.a; let b ← Opd.ofCode y.b; pure (Instr.or y.h d a b))
  | 0x1B => (do guard ((y.c == 0xC0#8) && (y.fn &&& 0xFFF#12 == 0x000#12)); let d ← Opd.ofCode y.d; let a ← Opd.ofCode y.a; let b ← Opd.ofCode y.b; pure (Instr.xor y.h d a b))
  | 0x1C => (do guard ((y.c == 0xC0#8) && (y.fn &&& 0xFFF#12 == 0x000#12)); let d ← Opd.ofCode y.d; let a ← Opd.ofCode y.a; let b ← Opd.ofCode y.b; pure (Instr.andn y.h d a b))
  | 0x1D => (do guard ((y.c == 0xC0#8) && (y.fn &&& 0xFFF#12 == 0x000#12)); let d ← Opd.ofCode y.d; let a ← Opd.ofCode y.a; let b ← Opd.ofCode y.b; pure (Instr.shl y.h d a b))
  | 0x1E => (do guard ((y.c == 0xC0#8) && (y.fn &&& 0xFFF#12 == 0x000#12)); let d ← Opd.ofCode y.d; let a ← Opd.ofCode y.a; let b ← Opd.ofCode y.b; pure (Instr.shr y.h d a b))
  | 0x1F => (do guard ((y.c == 0xC0#8) && (y.fn &&& 0xFFF#12 == 0x000#12)); let d ← Opd.ofCode y.d; let a ← Opd.ofCode y.a; let b ← Opd.ofCode y.b; pure (Instr.sar y.h d a b))
  | _ => none

def rawDecode2 (y : Fields) : Option Instr :=
  match y.op.toNat with
  | 0x20 => (do guard ((y.c == 0xC0#8) && (y.fn &&& 0xFFE#12 == 0x000#12)); let d ← Opd.ofCode y.d; let a ← Opd.ofCode y.a; let b ← Opd.ofCode y.b; let right := (fld 1 y.fn 0) == 1#1; pure (Instr.rot y.h d a b right))
  | 0x21 => (do guard ((y.b == 0xC0#8) && (y.c == 0xC0#8) && (y.fn &&& 0xFFF#12 == 0x000#12)); let d ← Opd.ofCode y.d; let a ← Opd.ofCode y.a; pure (Instr.popc y.h d a))
  | 0x22 => (do guard ((y.b == 0xC0#8) && (y.c == 0xC0#8) && (y.fn &&& 0xFFF#12 == 0x000#12)); let d ← Opd.ofCode y.d; let a ← Opd.ofCode y.a; pure (Instr.clz y.h d a))
  | 0x23 => (do guard ((y.b == 0xC0#8) && (y.c == 0xC0#8) && (y.fn &&& 0xFFF#12 == 0x000#12)); let d ← Opd.ofCode y.d; let a ← Opd.ofCode y.a; pure (Instr.brev y.h d a))
  | 0x24 => (do guard ((y.fn &&& 0xFFE#12 == 0x000#12)); let d ← Opd.ofCode y.d; let a ← Opd.ofCode y.a; let b ← Opd.ofCode y.b; let c ← Opd.ofCode y.c; let sg := (fld 1 y.fn 0) == 1#1; pure (Instr.bfe y.h d a b c sg))
  | 0x25 => (do guard ((y.fn &&& 0xFFF#12 == 0x000#12)); let d ← Opd.ofCode y.d; let a ← Opd.ofCode y.a; let b ← Opd.ofCode y.b; let c ← Opd.ofCode y.c; pure (Instr.bfi y.h d a b c))
  | 0x26 => (do guard ((y.c == 0xC0#8) && (y.fn &&& 0xF80#12 == 0x000#12)); let d ← Opd.ofCode y.d; let a ← Opd.ofCode y.a; let b ← Opd.ofCode y.b; let k := (fld 5 y.fn 0); let w := (fld 1 y.fn 5) == 1#1; let sg := (fld 1 y.fn 6) == 1#1; pure (Instr.lea y.h d a b k w sg))
  | 0x27 => (do guard ((y.c == 0xC0#8) && (y.fn &&& 0xFFC#12 == 0x000#12)); let d ← Opd.ofCode y.d; let a ← Opd.ofCode y.a; let b ← Opd.ofCode y.b; let wb ← WideB.ofBits (fld 2 y.fn 0); pure (Instr.iaddw y.h d a b wb))
  | 0x28 => (do guard ((y.fn &&& 0xFFE#12 == 0x000#12)); let d ← Opd.ofCode y.d; let a ← Opd.ofCode y.a; let b ← Opd.ofCode y.b; let c ← prOf y.c; let sub := (fld 1 y.fn 0) == 1#1; pure (Instr.iaddc y.h d a b c sub))
  | 0x29 => (do guard ((y.fn &&& 0xFFE#12 == 0x000#12)); let d ← Opd.ofCode y.d; let a ← Opd.ofCode y.a; let b ← Opd.ofCode y.b; let c ← Opd.ofCode y.c; let sg := (fld 1 y.fn 0) == 1#1; pure (Instr.sad y.h d a b c sg))
  | 0x2A => (do guard ((y.fn &&& 0xFFF#12 == 0x000#12)); let d ← Opd.ofCode y.d; let a ← Opd.ofCode y.a; let b ← Opd.ofCode y.b; let c ← Opd.ofCode y.c; pure (Instr.bsel y.h d a b c))
  | 0x2B => (do guard ((y.fn &&& 0xFF8#12 == 0x000#12)); let d ← Opd.ofCode y.d; let a ← Opd.ofCode y.a; let b ← Opd.ofCode y.b; let c ← Opd.ofCode y.c; let sa := (fld 1 y.fn 0) == 1#1; let sb := (fld 1 y.fn 1) == 1#1; let sat := (fld 1 y.fn 2) == 1#1; pure (Instr.idot4 y.h d a b c sa sb sat))
  | _ => none

def rawDecode3 (y : Fields) : Option Instr :=
  match y.op.toNat with
  | 0x30 => (do guard ((y.c == 0xC0#8) && (y.fn &&& 0xFF8#12 == 0x000#12)); let d ← Opd.ofCode y.d; let a ← Opd.ofCode y.a; let b ← Opd.ofCode y.b; let rm ← Rm.ofBits (fld 3 y.fn 0); pure (Instr.fadd y.h d a b rm))
  | 0x31 => (do guard ((y.c == 0xC0#8) && (y.fn &&& 0xFF8#12 == 0x000#12)); let d ← Opd.ofCode y.d; let a ← Opd.ofCode y.a; let b ← Opd.ofCode y.b; let rm ← Rm.ofBits (fld 3 y.fn 0); pure (Instr.fsub y.h d a b rm))
  | 0x32 => (do guard ((y.c == 0xC0#8) && (y.fn &&& 0xFF8#12 == 0x000#12)); let d ← Opd.ofCode y.d; let a ← Opd.ofCode y.a; let b ← Opd.ofCode y.b; let rm ← Rm.ofBits (fld 3 y.fn 0); pure (Instr.fmul y.h d a b rm))
  | 0x33 => (do guard ((y.fn &&& 0xFF8#12 == 0x000#12)); let d ← Opd.ofCode y.d; let a ← Opd.ofCode y.a; let b ← Opd.ofCode y.b; let c ← Opd.ofCode y.c; let rm ← Rm.ofBits (fld 3 y.fn 0); pure (Instr.ffma y.h d a b c rm))
  | 0x34 => (do guard ((y.c == 0xC0#8) && (y.fn &&& 0xFFF#12 == 0x000#12)); let d ← Opd.ofCode y.d; let a ← Opd.ofCode y.a; let b ← Opd.ofCode y.b; pure (Instr.fmin y.h d a b))
  | 0x35 => (do guard ((y.c == 0xC0#8) && (y.fn &&& 0xFFF#12 == 0x000#12)); let d ← Opd.ofCode y.d; let a ← Opd.ofCode y.a; let b ← Opd.ofCode y.b; pure (Instr.fmax y.h d a b))
  | 0x36 => (do guard ((y.c == 0xC0#8) && (y.fn &&& 0xFF8#12 == 0x000#12)); let d ← prOf y.d; let a ← Opd.ofCode y.a; let b ← Opd.ofCode y.b; let cc ← FCond.ofBits (fld 3 y.fn 0); pure (Instr.fcmp y.h d a b cc))
  | 0x37 => (do guard ((y.b == 0xC0#8) && (y.c == 0xC0#8) && (y.fn &&& 0xFF0#12 == 0x000#12)); let d ← Opd.ofCode y.d; let a ← Opd.ofCode y.a; let rm ← Rm.ofBits (fld 3 y.fn 0); let x := (fld 1 y.fn 3) == 1#1; pure (Instr.frnd y.h d a rm x))
  | 0x38 => (do guard ((y.b == 0xC0#8) && (y.c == 0xC0#8) && (y.fn &&& 0xFFF#12 == 0x000#12)); let d ← Opd.ofCode y.d; let a ← Opd.ofCode y.a; pure (Instr.fclass y.h d a))
  | 0x39 => (do guard ((y.c == 0xC0#8) && (y.fn &&& 0xFF8#12 == 0x000#12)); let d ← Opd.ofCode y.d; let a ← Opd.ofCode y.a; let b ← Opd.ofCode y.b; let rm ← Rm.ofBits (fld 3 y.fn 0); pure (Instr.fscale y.h d a b rm))
  | 0x3A => (do guard ((y.c == 0xC0#8) && (y.fn &&& 0xFFF#12 == 0x000#12)); let d ← Opd.ofCode y.d; let a ← Opd.ofCode y.a; let b ← Opd.ofCode y.b; pure (Instr.twosum y.h d a b))
  | 0x3B => (do guard ((y.c == 0xC0#8) && (y.fn &&& 0xFFF#12 == 0x000#12)); let d ← Opd.ofCode y.d; let a ← Opd.ofCode y.a; let b ← Opd.ofCode y.b; pure (Instr.twoprod y.h d a b))
  | 0x3C => (do guard ((y.c == 0xC0#8) && (y.fn &&& 0xFFE#12 == 0x000#12)); let d ← Opd.ofCode y.d; let a ← Opd.ofCode y.a; let b ← Opd.ofCode y.b; let one := (fld 1 y.fn 0) == 1#1; pure (Instr.faddp y.h d a b one))
  | 0x3D => (do guard ((y.c == 0xC0#8) && (y.fn &&& 0xFF0#12 == 0x000#12)); let d ← Opd.ofCode y.d; let a ← Opd.ofCode y.a; let b ← Opd.ofCode y.b; let rm ← Rm.ofBits (fld 3 y.fn 0); let b0 := (fld 1 y.fn 3) == 1#1; pure (Instr.pkadd y.h d a b rm b0))
  | 0x3E => (do guard ((y.c == 0xC0#8) && (y.fn &&& 0xFF0#12 == 0x000#12)); let d ← Opd.ofCode y.d; let a ← Opd.ofCode y.a; let b ← Opd.ofCode y.b; let rm ← Rm.ofBits (fld 3 y.fn 0); let b0 := (fld 1 y.fn 3) == 1#1; pure (Instr.pkmul y.h d a b rm b0))
  | 0x3F => (do guard ((y.fn &&& 0xFF0#12 == 0x000#12)); let d ← Opd.ofCode y.d; let a ← Opd.ofCode y.a; let b ← Opd.ofCode y.b; let c ← Opd.ofCode y.c; let rm ← Rm.ofBits (fld 3 y.fn 0); let b0 := (fld 1 y.fn 3) == 1#1; pure (Instr.pkfma y.h d a b c rm b0))
  | _ => none

def rawDecode4 (y : Fields) : Option Instr :=
  match y.op.toNat with
  | 0x40 => (do guard ((y.fn &&& 0xFF0#12 == 0x000#12)); let d ← Opd.ofCode y.d; let a ← Opd.ofCode y.a; let b ← Opd.ofCode y.b; let c ← Opd.ofCode y.c; let rm ← Rm.ofBits (fld 3 y.fn 0); let b0 := (fld 1 y.fn 3) == 1#1; pure (Instr.pkfmab y.h d a b c rm b0))
  | _ => none

def rawDecode5 (y : Fields) : Option Instr :=
  match y.op.toNat with
  | 0x50 => (do guard ((y.b == 0xC0#8) && (y.c == 0xC0#8) && (y.fn &&& 0xFF8#12 == 0x000#12)); let d ← Opd.ofCode y.d; let a ← Opd.ofCode y.a; let rm ← Rm.ofBits (fld 3 y.fn 0); pure (Instr.rcp y.h d a rm))
  | 0x51 => (do guard ((y.b == 0xC0#8) && (y.c == 0xC0#8) && (y.fn &&& 0xFFF#12 == 0x000#12)); let d ← Opd.ofCode y.d; let a ← Opd.ofCode y.a; pure (Instr.rsq y.h d a))
  | 0x52 => (do guard ((y.b == 0xC0#8) && (y.c == 0xC0#8) && (y.fn &&& 0xFF8#12 == 0x000#12)); let d ← Opd.ofCode y.d; let a ← Opd.ofCode y.a; let rm ← Rm.ofBits (fld 3 y.fn 0); pure (Instr.sqrt y.h d a rm))
  | 0x53 => (do guard ((y.b == 0xC0#8) && (y.c == 0xC0#8) && (y.fn &&& 0xFFF#12 == 0x000#12)); let d ← Opd.ofCode y.d; let a ← Opd.ofCode y.a; pure (Instr.exp2 y.h d a))
  | 0x54 => (do guard ((y.b == 0xC0#8) && (y.c == 0xC0#8) && (y.fn &&& 0xFFF#12 == 0x000#12)); let d ← Opd.ofCode y.d; let a ← Opd.ofCode y.a; pure (Instr.log2 y.h d a))
  | 0x55 => (do guard ((y.b == 0xC0#8) && (y.c == 0xC0#8) && (y.fn &&& 0xFFF#12 == 0x000#12)); let d ← Opd.ofCode y.d; let a ← Opd.ofCode y.a; pure (Instr.sin y.h d a))
  | 0x56 => (do guard ((y.b == 0xC0#8) && (y.c == 0xC0#8) && (y.fn &&& 0xFFF#12 == 0x000#12)); let d ← Opd.ofCode y.d; let a ← Opd.ofCode y.a; pure (Instr.cos y.h d a))
  | 0x57 => (do guard ((y.b == 0xC0#8) && (y.c == 0xC0#8) && (y.fn &&& 0xFFF#12 == 0x000#12)); let d ← Opd.ofCode y.d; let a ← Opd.ofCode y.a; pure (Instr.tanh y.h d a))
  | 0x58 => (do guard ((y.b == 0xC0#8) && (y.c == 0xC0#8) && (y.fn &&& 0xFC8#12 == 0x000#12)); let d ← Opd.ofCode y.d; let a ← Opd.ofCode y.a; let rm ← Rm.ofBits (fld 3 y.fn 0); let ty ← ITy.ofBits (fld 2 y.fn 4); pure (Instr.cvtif y.h d a rm ty))
  | 0x59 => (do guard ((y.b == 0xC0#8) && (y.c == 0xC0#8) && (y.fn &&& 0xFC8#12 == 0x000#12)); let d ← Opd.ofCode y.d; let a ← Opd.ofCode y.a; let rm ← Rm.ofBits (fld 3 y.fn 0); let ty ← ITy.ofBits (fld 2 y.fn 4); pure (Instr.cvtfi y.h d a rm ty))
  | 0x5A => (do guard ((y.b == 0xC0#8) && (y.c == 0xC0#8) && (y.fn &&& 0xFE8#12 == 0x000#12)); let d ← Opd.ofCode y.d; let a ← Opd.ofCode y.a; let rm ← Rm.ofBits (fld 3 y.fn 0); let toF16 := (fld 1 y.fn 4) == 1#1; pure (Instr.cvtff y.h d a rm toF16))
  | 0x5B => (do guard ((y.c == 0xC0#8) && (y.fn &&& 0xFE8#12 == 0x000#12)); let d ← Opd.ofCode y.d; let a ← Opd.ofCode y.a; let b ← Opd.ofCode y.b; let rm ← Rm.ofBits (fld 3 y.fn 0); let bf := (fld 1 y.fn 4) == 1#1; pure (Instr.packh y.h d a b rm bf))
  | 0x5C => (do guard ((y.b == 0xC0#8) && (y.c == 0xC0#8) && (y.fn &&& 0xFCF#12 == 0x000#12)); let d ← Opd.ofCode y.d; let a ← Opd.ofCode y.a; let bf := (fld 1 y.fn 4) == 1#1; let hi := (fld 1 y.fn 5) == 1#1; pure (Instr.unpkh y.h d a bf hi))
  | 0x5D => (do guard ((y.c == 0xC0#8) && (y.fn &&& 0xF80#12 == 0x000#12)); let d ← Opd.ofCode y.d; let a ← Opd.ofCode y.a; let b ← Opd.ofCode y.b; let f := (fld 5 y.fn 0); let scl := (fld 1 y.fn 5) == 1#1; let esc := (fld 1 y.fn 6) == 1#1; pure (Instr.decn y.h d a b f scl esc))
  | _ => none

def rawDecode6 (y : Fields) : Option Instr :=
  match y.op.toNat with
  | 0x60 => (do guard ((y.b == 0xC0#8) && (y.c == 0xC0#8) && (y.fn &&& 0xFFE#12 == 0x000#12)); let d ← Opd.ofCode y.d; let a ← Opd.ofCode y.a; let w := (fld 1 y.fn 0) == 1#1; pure (Instr.mov y.h d a w))
  | 0x61 => (do guard ((y.fn4 == 0#4)); let d ← Opd.ofCode y.d; let imm := y.imm; pure (Instr.movi y.h d imm)) <|> (do guard ((y.fn4 == 1#4)); let d ← Opd.ofCode y.d; let imm := y.imm; pure (Instr.moviS y.h d imm)) <|> (do guard ((y.fn4 == 2#4)); let d ← Opd.ofCode y.d; let imm := y.imm; pure (Instr.moviHi y.h d imm))
  | 0x62 => (do guard ((y.fn &&& 0xFFE#12 == 0x000#12)); let d ← Opd.ofCode y.d; let a ← Opd.ofCode y.a; let b ← Opd.ofCode y.b; let c ← prOf y.c; let w := (fld 1 y.fn 0) == 1#1; pure (Instr.sel y.h d a b c w))
  | 0x63 => (do guard ((y.c == 0xC0#8) && (y.fn &&& 0xFFC#12 == 0x000#12)); let d ← prOf y.d; let a ← prOf y.a; let b ← prOf y.b; let na := (fld 1 y.fn 0) == 1#1; let nb := (fld 1 y.fn 1) == 1#1; pure (Instr.pand y.h d a b na nb))
  | 0x64 => (do guard ((y.c == 0xC0#8) && (y.fn &&& 0xFFC#12 == 0x000#12)); let d ← prOf y.d; let a ← prOf y.a; let b ← prOf y.b; let na := (fld 1 y.fn 0) == 1#1; let nb := (fld 1 y.fn 1) == 1#1; pure (Instr.por y.h d a b na nb))
  | 0x65 => (do guard ((y.c == 0xC0#8) && (y.fn &&& 0xFFC#12 == 0x000#12)); let d ← prOf y.d; let a ← prOf y.a; let b ← prOf y.b; let na := (fld 1 y.fn 0) == 1#1; let nb := (fld 1 y.fn 1) == 1#1; pure (Instr.pxor y.h d a b na nb))
  | 0x66 => (do guard ((y.b == 0xC0#8) && (y.c == 0xC0#8) && (y.fn &&& 0xFFF#12 == 0x000#12)); let d ← prOf y.d; let a ← prOf y.a; pure (Instr.pmov y.h d a)) <|> (do guard ((y.b == 0xC0#8) && (y.c == 0xC0#8) && (y.fn &&& 0xFFF#12 == 0x001#12)); let d ← prOf y.d; let a ← prOf y.a; pure (Instr.pmovNot y.h d a)) <|> (do guard ((y.b == 0xC0#8) && (y.c == 0xC0#8) && (y.fn &&& 0xFFF#12 == 0x002#12)); let d ← Opd.ofCode y.d; let a ← prOf y.a; pure (Instr.pmovVal y.h d a)) <|> (do guard ((y.b == 0xC0#8) && (y.c == 0xC0#8) && (y.fn &&& 0xFFF#12 == 0x003#12)); let d ← prOf y.d; let a ← Opd.ofCode y.a; pure (Instr.pmovNz y.h d a))
  | 0x67 => (do guard ((y.b == 0xC0#8) && (y.c == 0xC0#8) && (y.fn &&& 0xC0F#12 == 0x000#12)); let d ← prOf y.d; let a ← Opd.ofCode y.a; let n1 := (fld 6 y.fn 4); pure (Instr.pset y.h d a n1)) <|> (do guard ((y.b == 0xC0#8) && (y.c == 0xC0#8) && (y.fn &&& 0xC0F#12 == 0x001#12)); let d ← Opd.ofCode y.d; let a ← prOf y.a; let n1 := (fld 6 y.fn 4); pure (Instr.psetPack y.h d a n1))
  | 0x68 => (do guard ((y.c == 0xC0#8) && (y.fn &&& 0xFFE#12 == 0x000#12)); let d ← Opd.ofCode y.d; let a ← Opd.ofCode y.a; let b ← Opd.ofCode y.b; let first := (fld 1 y.fn 0) == 1#1; pure (Instr.smov y.h d a b first))
  | _ => none

def rawDecode7 (y : Fields) : Option Instr :=
  match y.op.toNat with
  | 0x70 => (do guard ((y.fn &&& 0xF80#12 == 0x000#12)); let d ← Opd.ofCode y.d; let a ← Opd.ofCode y.a; let b ← Opd.ofCode y.b; let c ← prOpt (fld 1 y.fn 6 == 1#1) y.c; let mode ← LxMode.ofBits (fld 3 y.fn 0); let grp ← LxGroup.ofBits (fld 3 y.fn 3); pure (Instr.lxch y.h d a b c mode grp))
  | 0x71 => (do guard ((y.b == 0xC0#8) && (y.c == 0xC0#8) && (y.fn &&& 0xFF8#12 == 0x000#12)); let d ← prOf y.d; let a ← prOf y.a; let kd ← AgreeK.ofBits (fld 2 y.fn 0); let neg := (fld 1 y.fn 2) == 1#1; pure (Instr.agree y.h d a kd neg))
  | 0x72 => (do guard ((y.b == 0xC0#8) && (y.c == 0xC0#8) && (y.fn &&& 0xFFC#12 == 0x000#12)); let d ← Opd.ofCode y.d; let a ← prOf y.a; let cnt := (fld 1 y.fn 0) == 1#1; let neg := (fld 1 y.fn 1) == 1#1; pure (Instr.ballot y.h d a cnt neg))
  | 0x73 => (do guard ((y.b == 0xC0#8) && (y.c == 0xC0#8) && (y.fn &&& 0xF00#12 == 0x000#12)); let d ← Opd.ofCode y.d; let a ← Opd.ofCode y.a; let rm ← Rm.ofBits (fld 3 y.fn 0); let op ← WOp.ofBits (fld 3 y.fn 3); let ty ← WTy.ofBits (fld 2 y.fn 6); pure (Instr.wred y.h d a rm op ty))
  | 0x74 => (do guard ((y.b == 0xC0#8) && (y.c == 0xC0#8) && (y.fn &&& 0xE00#12 == 0x000#12)); let d ← Opd.ofCode y.d; let a ← Opd.ofCode y.a; let rm ← Rm.ofBits (fld 3 y.fn 0); let op ← WOp.ofBits (fld 3 y.fn 3); let ty ← WTy.ofBits (fld 2 y.fn 6); let excl := (fld 1 y.fn 8) == 1#1; pure (Instr.wscan y.h d a rm op ty excl))
  | 0x75 => (do guard ((y.c == 0xC0#8) && (y.fn &&& 0xFFF#12 == 0x000#12)); let d ← Opd.ofCode y.d; let a ← Opd.ofCode y.a; let b ← Opd.ofCode y.b; pure (Instr.rebal y.h d a b))
  | 0x76 => (do guard ((y.c == 0xC0#8) && (y.fn &&& 0xFFF#12 == 0x000#12)); let d ← Opd.ofCode y.d; let a ← Opd.ofCode y.a; let b ← Opd.ofCode y.b; pure (Instr.csamp y.h d a b))
  | 0x77 => (do guard ((y.c == 0xC0#8) && (y.fn &&& 0xFFE#12 == 0x000#12)); let d ← Opd.ofCode y.d; let a ← Opd.ofCode y.a; let b ← Opd.ofCode y.b; let f01 := (fld 1 y.fn 0) == 1#1; pure (Instr.rand y.h d a b f01))
  | _ => none

def rawDecode8 (y : Fields) : Option Instr :=
  match y.op.toNat with
  | 0x80 => (do guard ((y.c &&& 0xF8#8 == 0#8) && (y.fn &&& 0x01F#12 == 0x000#12)); let d ← Opd.ofCode y.d; let a ← Opd.ofCode y.a; let b ← Opd.ofCode y.b; let ty ← MTy.ofBits (fld 3 y.c 0); let pol ← Pol.ofBits (fld 2 y.fn 10); let sc ← Scope.ofBits (fld 3 y.fn 7); let od ← Ord.ofBits (fld 2 y.fn 5); pure (Instr.ld y.h d a b ty pol sc od))
  | 0x81 => (do guard ((y.fn &&& 0x01F#12 == 0x000#12)); let d ← Opd.ofCode y.d; let a ← Opd.ofCode y.a; let b ← Opd.ofCode y.b; let sf := (fld 5 y.c 3); let ty ← MTy.ofBits (fld 3 y.c 0); let pol ← Pol.ofBits (fld 2 y.fn 10); let sc ← Scope.ofBits (fld 3 y.fn 7); let od ← Ord.ofBits (fld 2 y.fn 5); pure (Instr.st y.h d a b sf ty pol sc od))
  | 0x82 => (do guard ((y.c &&& 0xF8#8 == 0#8) && (y.fn &&& 0x01F#12 == 0x000#12)); let d ← Opd.ofCode y.d; let a ← Opd.ofCode y.a; let b ← Opd.ofCode y.b; let ty ← MTy.ofBits (fld 3 y.c 0); let pol ← Pol.ofBits (fld 2 y.fn 10); let sc ← Scope.ofBits (fld 3 y.fn 7); let od ← Ord.ofBits (fld 2 y.fn 5); pure (Instr.lds y.h d a b ty pol sc od))
  | 0x83 => (do guard ((y.fn &&& 0x01F#12 == 0x000#12)); let d ← Opd.ofCode y.d; let a ← Opd.ofCode y.a; let b ← Opd.ofCode y.b; let sf := (fld 5 y.c 3); let ty ← MTy.ofBits (fld 3 y.c 0); let pol ← Pol.ofBits (fld 2 y.fn 10); let sc ← Scope.ofBits (fld 3 y.fn 7); let od ← Ord.ofBits (fld 2 y.fn 5); pure (Instr.sts y.h d a b sf ty pol sc od))
  | 0x84 => (do guard ((y.c &&& 0xF8#8 == 0#8) && (y.fn &&& 0x01F#12 == 0x000#12)); let d ← Opd.ofCode y.d; let a ← Opd.ofCode y.a; let b ← Opd.ofCode y.b; let ty ← MTy.ofBits (fld 3 y.c 0); let pol ← Pol.ofBits (fld 2 y.fn 10); let sc ← Scope.ofBits (fld 3 y.fn 7); let od ← Ord.ofBits (fld 2 y.fn 5); pure (Instr.ldw y.h d a b ty pol sc od))
  | 0x85 => (do guard ((y.c &&& 0xF8#8 == 0#8) && (y.fn &&& 0x01F#12 == 0x000#12)); let d ← Opd.ofCode y.d; let a ← Opd.ofCode y.a; let b ← Opd.ofCode y.b; let ty ← MTy.ofBits (fld 3 y.c 0); let pol ← Pol.ofBits (fld 2 y.fn 10); let sc ← Scope.ofBits (fld 3 y.fn 7); let od ← Ord.ofBits (fld 2 y.fn 5); pure (Instr.stw y.h d a b ty pol sc od))
  | 0x86 => (do guard ((y.c &&& 0xF8#8 == 0#8) && (y.fn &&& 0x01F#12 == 0x000#12)); let d ← Opd.ofCode y.d; let a ← Opd.ofCode y.a; let b ← Opd.ofCode y.b; let ty ← MTy.ofBits (fld 3 y.c 0); let pol ← Pol.ofBits (fld 2 y.fn 10); let sc ← Scope.ofBits (fld 3 y.fn 7); let od ← Ord.ofBits (fld 2 y.fn 5); pure (Instr.ldn y.h d a b ty pol sc od))
  | 0x87 => (do let d ← Opd.ofCode y.d; let a ← Opd.ofCode y.a; let b ← Opd.ofCode y.b; let c ← Opd.ofCode y.c; let f := (fld 5 y.fn 0); let mode ← QMode.ofBits (fld 2 y.fn 5); let ev ← evOfBits (fld 5 y.fn 7); pure (Instr.qst y.h d a b c f mode ev))
  | 0x88 => (do guard ((y.c == 0x00#8) && (y.d == 0xC0#8) && (y.fn &&& 0x3FF#12 == 0x000#12)); let a ← Opd.ofCode y.a; let b ← Opd.ofCode y.b; let pol ← Pol.ofBits (fld 2 y.fn 10); pure (Instr.pref y.h a b pol))
  | 0x89 => (do guard ((y.c == 0xC0#8) && (y.fn &&& 0x07F#12 == 0x000#12)); let d ← Opd.ofCode y.d; let a ← Opd.ofCode y.a; let b ← Opd.ofCode y.b; let ev ← evOfBits (fld 5 y.fn 7); pure (Instr.shbind y.h d a b ev))
  | 0x8A => (do guard ((y.b == 0xC0#8) && (y.c == 0xC0#8) && (y.fn &&& 0x07F#12 == 0x000#12)); let d ← Opd.ofCode y.d; let a ← Opd.ofCode y.a; let ev ← evOfBits (fld 5 y.fn 7); pure (Instr.shfree y.h d a ev))
  | 0x8B => (do guard ((y.d == 0xC0#8) && (y.b == 0xC0#8) && (y.c == 0xC0#8) && (y.fn &&& 0x07F#12 == 0x000#12)); let a ← Opd.ofCode y.a; let ev ← evOfBits (fld 5 y.fn 7); pure (Instr.cpy y.h a ev))
  | 0x8C => (do guard ((y.a == 0xC0#8) && (y.b == 0xC0#8) && (y.c == 0xC0#8) && (y.fn &&& 0x07F#12 == 0x000#12)); let d ← Opd.ofCode y.d; let ev ← evOfBits (fld 5 y.fn 7); pure (Instr.aqstart y.h d ev))
  | 0x8D => (do guard ((y.a == 0xC0#8) && (y.b == 0xC0#8) && (y.c == 0xC0#8) && (y.fn &&& 0x07F#12 == 0x000#12)); let d ← Opd.ofCode y.d; let ev ← evOfBits (fld 5 y.fn 7); pure (Instr.aqstop y.h d ev)) <|> (do guard ((y.b == 0xC0#8) && (y.c == 0xC0#8) && (y.fn &&& 0x07F#12 == 0x001#12)); let d ← Opd.ofCode y.d; let a ← Opd.ofCode y.a; let ev ← evOfBits (fld 5 y.fn 7); pure (Instr.aqstopQry y.h d a ev))
  | 0x8E => (do guard ((y.c &&& 0xF8#8 == 0#8) && (y.fn &&& 0xFFF#12 == 0x000#12)); let d ← Opd.ofCode y.d; let a ← Opd.ofCode y.a; let b ← Opd.ofCode y.b; let ty ← MTy.ofBits (fld 3 y.c 0); pure (Instr.ldc y.h d a b ty))
  | _ => none

def rawDecodeA (y : Fields) : Option Instr :=
  match y.op.toNat with
  | 0xA0 => (do guard ((y.fn &&& 0xC1F#12 == 0x000#12)); let d ← Opd.ofCode y.d; let a ← Opd.ofCode y.a; let b ← Opd.ofCode y.b; let op ← AtomOp.ofBits (fld 5 y.c 3); let ty ← MTy.ofBits (fld 3 y.c 0); let sc ← Scope.ofBits (fld 3 y.fn 7); let od ← Ord.ofBits (fld 2 y.fn 5); pure (Instr.atom y.h d a b op ty sc od))
  | 0xA1 => (do guard ((y.c &&& 0xF8#8 == 0#8) && (y.fn &&& 0xC1F#12 == 0x000#12)); let d ← Opd.ofCode y.d; let a ← Opd.ofCode y.a; let b ← Opd.ofCode y.b; let ty ← MTy.ofBits (fld 3 y.c 0); let sc ← Scope.ofBits (fld 3 y.fn 7); let od ← Ord.ofBits (fld 2 y.fn 5); pure (Instr.acas y.h d a b ty sc od))
  | 0xA2 => (do guard ((y.d == 0xC0#8) && (y.fn &&& 0xC1F#12 == 0x000#12)); let a ← Opd.ofCode y.a; let b ← Opd.ofCode y.b; let op ← AtomOp.ofBits (fld 5 y.c 3); let ty ← MTy.ofBits (fld 3 y.c 0); let sc ← Scope.ofBits (fld 3 y.fn 7); let od ← Ord.ofBits (fld 2 y.fn 5); pure (Instr.red y.h a b op ty sc od))
  | 0xA3 => (do guard ((y.c == 0x00#8) && (y.d == 0xC0#8) && (y.a == 0xC0#8) && (y.b == 0xC0#8) && (y.fn &&& 0xC1F#12 == 0x000#12)); let sc ← Scope.ofBits (fld 3 y.fn 7); let od ← Ord.ofBits (fld 2 y.fn 5); pure (Instr.fence y.h sc od))
  | 0xA4 => (do guard ((y.d == 0xC0#8) && (y.b == 0xC0#8) && (y.c == 0xC0#8) && (y.fn &&& 0xFFF#12 == 0x000#12)); let a ← Opd.ofCode y.a; pure (Instr.bar y.h a))
  | 0xA5 => (do guard ((y.d == 0xC0#8) && (y.b == 0xC0#8) && (y.c == 0xC0#8) && (y.fn &&& 0xFFF#12 == 0x000#12)); let a ← Opd.ofCode y.a; pure (Instr.nbar y.h a))
  | 0xA6 => (do guard ((y.c == 0xC0#8) && (y.fn &&& 0xFFF#12 == 0x000#12)); let d ← Opd.ofCode y.d; let a ← Opd.ofCode y.a; let b ← Opd.ofCode y.b; pure (Instr.slin y.h d a b))
  | 0xA7 => (do guard ((y.b == 0xC0#8) && (y.c == 0xC0#8) && (y.fn &&& 0xFFF#12 == 0x000#12)); let d ← Opd.ofCode y.d; let a ← Opd.ofCode y.a; pure (Instr.slout y.h d a)) <|> (do guard ((y.b == 0xC0#8) && (y.c == 0xC0#8) && (y.fn &&& 0xFFF#12 == 0x001#12)); let d ← Opd.ofCode y.d; let a ← Opd.ofCode y.a; pure (Instr.sloutLast y.h d a))
  | 0xA8 => (do guard ((y.b == 0xC0#8) && (y.c == 0xC0#8) && (y.fn &&& 0xFFF#12 == 0x000#12)); let d ← Opd.ofCode y.d; let a ← Opd.ofCode y.a; pure (Instr.slqry y.h d a))
  | 0xA9 => (do guard ((y.c == 0xC0#8) && (y.fn &&& 0xFFF#12 == 0x000#12)); let d ← Opd.ofCode y.d; let a ← Opd.ofCode y.a; let b ← Opd.ofCode y.b; pure (Instr.slrst y.h d a b)) <|> (do guard ((y.b == 0xC0#8) && (y.c == 0xC0#8) && (y.fn &&& 0xFFF#12 == 0x001#12)); let d ← Opd.ofCode y.d; let a ← Opd.ofCode y.a; pure (Instr.slrstDel y.h d a))
  | 0xAA => (do guard ((y.b == 0xC0#8) && (y.c == 0xC0#8) && (y.fn &&& 0xFF0#12 == 0x000#12)); let d ← Opd.ofCode y.d; let a ← Opd.ofCode y.a; let n := (fld 4 y.fn 0); pure (Instr.send y.h d a n))
  | 0xAB => (do guard ((y.b == 0xC0#8) && (y.c == 0xC0#8) && (y.fn &&& 0xFF0#12 == 0x000#12)); let d ← Opd.ofCode y.d; let a ← Opd.ofCode y.a; let n := (fld 4 y.fn 0); pure (Instr.recv y.h d a n))
  | _ => none

def rawDecodeB (y : Fields) : Option Instr :=
  match y.op.toNat with
  | 0xB0 => (do guard ((y.d == 0xC0#8) && (y.c == 0xC0#8) && (y.fn &&& 0x040#12 == 0x000#12)); let a ← Opd.ofCode y.a; let b ← Opd.ofCode y.b; let f := (fld 5 y.fn 0); let scr := (fld 1 y.fn 5) == 1#1; let ev ← evOfBits (fld 5 y.fn 7); pure (Instr.mloadb y.h a b f scr ev))
  | 0xB1 => (do guard ((y.d == 0xC0#8) && (y.c == 0xC0#8) && (y.fn &&& 0x060#12 == 0x000#12)); let a ← Opd.ofCode y.a; let b ← Opd.ofCode y.b; let nkm := (fld 4 y.fn 0); let bank := (fld 1 y.fn 4) == 1#1; let ev ← evOfBits (fld 5 y.fn 7); pure (Instr.mma y.h a b nkm bank ev))
  | 0xB2 => (do guard ((y.a == 0xC0#8) && (y.b == 0xC0#8) && (y.c == 0xC0#8) && (y.fn &&& 0x078#12 == 0x000#12)); let d ← Opd.ofCode y.d; let g := (fld 2 y.fn 0); let bank := (fld 1 y.fn 2) == 1#1; let ev ← evOfBits (fld 5 y.fn 7); pure (Instr.mres y.h d g bank ev))
  | 0xB3 => (do guard ((y.d == 0xC0#8) && (y.a == 0xC0#8) && (y.b == 0xC0#8) && (y.c == 0xC0#8) && (y.fn &&& 0xFF8#12 == 0x000#12)); let sc ← Scope.ofBits (fld 3 y.fn 0); pure (Instr.mfence y.h sc))
  | 0xB4 => (do guard ((y.d == 0xC0#8) && (y.a == 0xC0#8) && (y.b == 0xC0#8) && (y.c == 0xC0#8) && (y.fn &&& 0xFFF#12 == 0x000#12)); pure (Instr.mwait y.h))
  | 0xB5 => (do guard ((y.d == 0xC0#8) && (y.fn &&& 0x070#12 == 0x000#12)); let a ← Opd.ofCode y.a; let b ← Opd.ofCode y.b; let c ← Opd.ofCode y.c; let p ← HadP.ofBits (fld 2 y.fn 0); let ty ← HadTy.ofBits (fld 2 y.fn 2); let ev ← evOfBits (fld 5 y.fn 7); pure (Instr.had y.h a b c p ty ev))
  | 0xB6 => (do guard ((y.c == 0xC0#8) && (y.fn &&& 0x07C#12 == 0x000#12)); let d ← Opd.ofCode y.d; let a ← Opd.ofCode y.a; let b ← Opd.ofCode y.b; let n ← WDim.ofBits (fld 2 y.fn 0); let ev ← evOfBits (fld 5 y.fn 7); pure (Instr.twalk y.h d a b n ev))
  | 0xB7 => (do guard ((y.a == 0xC0#8) && (y.b == 0xC0#8) && (y.c == 0xC0#8) && (y.fn &&& 0x07F#12 == 0x000#12)); let d ← Opd.ofCode y.d; let ev ← evOfBits (fld 5 y.fn 7); pure (Instr.tnext y.h d ev))
  | 0xB8 => (do guard ((y.d == 0xC0#8) && (y.a == 0xC0#8) && (y.b == 0xC0#8) && (y.c == 0xC0#8) && (y.fn &&& 0xFFC#12 == 0x000#12)); let bank := (fld 1 y.fn 0) == 1#1; let bd := (fld 1 y.fn 1) == 1#1; pure (Instr.mzero y.h bank bd))
  | _ => none

def rawDecodeC (y : Fields) : Option Instr :=
  match y.op.toNat with
  | 0xC0 => (do guard ((y.b == 0xC0#8) && (y.c == 0xC0#8) && (y.fn &&& 0x07F#12 == 0x000#12)); let d ← Opd.ofCode y.d; let a ← Opd.ofCode y.a; let ev ← evOfBits (fld 5 y.fn 7); pure (Instr.beam y.h d a ev))
  | 0xC1 => (do guard ((y.b == 0xC0#8) && (y.c == 0xC0#8) && (y.fn &&& 0x07F#12 == 0x000#12)); let d ← Opd.ofCode y.d; let a ← Opd.ofCode y.a; let ev ← evOfBits (fld 5 y.fn 7); pure (Instr.bfrag y.h d a ev))
  | 0xC2 => (do guard ((y.d == 0xC0#8) && (y.b == 0xC0#8) && (y.c == 0xC0#8) && (y.fn &&& 0xFFF#12 == 0x000#12)); let a ← Opd.ofCode y.a; pure (Instr.bdone y.h a))
  | 0xC3 => (do guard ((y.c == 0xC0#8) && (y.fn &&& 0x07C#12 == 0x000#12)); let d ← Opd.ofCode y.d; let a ← Opd.ofCode y.a; let b ← Opd.ofCode y.b; let first := (fld 1 y.fn 0) == 1#1; let sh := (fld 1 y.fn 1) == 1#1; let ev ← evOfBits (fld 5 y.fn 7); pure (Instr.rays y.h d a b first sh ev))
  | 0xC4 => (do guard ((y.b == 0xC0#8) && (y.c == 0xC0#8) && (y.fn &&& 0x07F#12 == 0x000#12)); let d ← Opd.ofCode y.d; let a ← Opd.ofCode y.a; let ev ← evOfBits (fld 5 y.fn 7); pure (Instr.hitget y.h d a ev)) <|> (do guard ((y.b == 0xC0#8) && (y.c == 0xC0#8) && (y.fn &&& 0x07F#12 == 0x001#12)); let d ← Opd.ofCode y.d; let a ← Opd.ofCode y.a; let ev ← evOfBits (fld 5 y.fn 7); pure (Instr.hitgetCand y.h d a ev))
  | 0xC5 => (do guard ((y.d == 0xC0#8) && (y.fn &&& 0xFFF#12 == 0x000#12)); let a ← Opd.ofCode y.a; let b ← Opd.ofCode y.b; let c ← Opd.ofCode y.c; pure (Instr.hitacc y.h a b c))
  | 0xC6 => (do guard ((y.fn &&& 0x07E#12 == 0x000#12)); let d ← Opd.ofCode y.d; let a ← Opd.ofCode y.a; let b ← Opd.ofCode y.b; let c ← Opd.ofCode y.c; let nr := (fld 1 y.fn 0) == 1#1; let ev ← evOfBits (fld 5 y.fn 7); pure (Instr.tex y.h d a b c nr ev))
  | 0xC7 => (do guard ((y.fn &&& 0x07F#12 == 0x000#12)); let d ← Opd.ofCode y.d; let a ← Opd.ofCode y.a; let b ← Opd.ofCode y.b; let c ← Opd.ofCode y.c; let ev ← evOfBits (fld 5 y.fn 7); pure (Instr.texq y.h d a b c ev))
  | 0xC8 => (do guard ((y.b == 0xC0#8) && (y.c == 0xC0#8) && (y.fn &&& 0x07F#12 == 0x000#12)); let d ← Opd.ofCode y.d; let a ← Opd.ofCode y.a; let ev ← evOfBits (fld 5 y.fn 7); pure (Instr.bvhset y.h d a ev))
  | _ => none

def rawDecodeD (y : Fields) : Option Instr :=
  match y.op.toNat with
  | 0xD0 => (do guard ((y.b == 0xC0#8) && (y.c == 0xC0#8) && (y.fn &&& 0xFFF#12 == 0x000#12)); let d ← Opd.ofCode y.d; let a ← Opd.ofCode y.a; pure (Instr.launch y.h d a))
  | 0xD1 => (do guard ((y.a == 0xC0#8) && (y.b == 0xC0#8) && (y.c == 0xC0#8) && (y.fn &&& 0xFFF#12 == 0x000#12)); let d ← Opd.ofCode y.d; pure (Instr.wchild y.h d))
  | 0xD2 => (do guard ((y.b == 0xC0#8) && (y.c == 0xC0#8) && (y.fn &&& 0xFFF#12 == 0x000#12)); let d ← Opd.ofCode y.d; let a ← Opd.ofCode y.a; pure (Instr.gsig y.h d a))
  | 0xD3 => (do guard ((y.a == 0xC0#8) && (y.b == 0xC0#8) && (y.c == 0xC0#8) && (y.fn &&& 0xFFF#12 == 0x000#12)); let d ← Opd.ofCode y.d; pure (Instr.enrd y.h d)) <|> (do guard ((y.a == 0xC0#8) && (y.b == 0xC0#8) && (y.c == 0xC0#8) && (y.fn &&& 0xFFF#12 == 0x001#12)); let d ← Opd.ofCode y.d; pure (Instr.enrdBal y.h d))
  | 0xD4 => (do guard ((y.b == 0xC0#8) && (y.c == 0xC0#8) && (y.fn &&& 0xFFF#12 == 0x000#12)); let d ← Opd.ofCode y.d; let a ← Opd.ofCode y.a; pure (Instr.role y.h d a)) <|> (do guard ((y.b == 0xC0#8) && (y.c == 0xC0#8) && (y.fn &&& 0xFFF#12 == 0x001#12)); let d ← Opd.ofCode y.d; let a ← Opd.ofCode y.a; pure (Instr.roleId y.h d a)) <|> (do guard ((y.b == 0xC0#8) && (y.c == 0xC0#8) && (y.fn &&& 0xFFF#12 == 0x002#12)); let d ← Opd.ofCode y.d; let a ← Opd.ofCode y.a; pure (Instr.rolePos y.h d a)) <|> (do guard ((y.a == 0xC0#8) && (y.b == 0xC0#8) && (y.c == 0xC0#8) && (y.fn &&& 0xFFF#12 == 0x003#12)); let d ← Opd.ofCode y.d; pure (Instr.roleCnt y.h d))
  | _ => none

def rawDecodeE (y : Fields) : Option Instr :=
  match y.op.toNat with
  | 0xE0 => (do guard ((y.d == 0xC0#8) && (y.fn4 == 0#4)); let imm := y.imm; pure (Instr.trap y.h imm))
  | 0xE1 => (do guard ((y.d == 0xC0#8) && (y.a == 0xC0#8) && (y.b == 0xC0#8) && (y.c == 0xC0#8) && (y.fn &&& 0xFFF#12 == 0x000#12)); pure (Instr.rte y.h))
  | 0xE2 => (do guard ((y.fn4 == 0#4) && (fld 20 y.imm 12 == 0#20)); let d ← Opd.ofCode y.d; let reg := fld 12 y.imm 0; pure (Instr.csrr y.h d reg))
  | 0xE3 => (do guard ((y.fn4 == 0#4) && (fld 20 y.imm 12 == 0#20)); let d ← Opd.ofCode y.d; let reg := fld 12 y.imm 0; pure (Instr.csrw y.h d reg)) <|> (do guard ((y.fn4 == 1#4) && (fld 20 y.imm 12 == 0#20)); let d ← Opd.ofCode y.d; let reg := fld 12 y.imm 0; pure (Instr.csrwSet y.h d reg)) <|> (do guard ((y.fn4 == 2#4) && (fld 20 y.imm 12 == 0#20)); let d ← Opd.ofCode y.d; let reg := fld 12 y.imm 0; pure (Instr.csrwClr y.h d reg))
  | 0xE4 => (do guard ((y.b == 0xC0#8) && (y.c == 0xC0#8) && (y.fn &&& 0x07F#12 == 0x000#12)); let d ← Opd.ofCode y.d; let a ← Opd.ofCode y.a; let ev ← evOfBits (fld 5 y.fn 7); pure (Instr.rinv y.h d a ev)) <|> (do guard ((y.fn &&& 0x07F#12 == 0x001#12)); let d ← Opd.ofCode y.d; let a ← Opd.ofCode y.a; let b ← Opd.ofCode y.b; let c ← Opd.ofCode y.c; let ev ← evOfBits (fld 5 y.fn 7); pure (Instr.rinvRange y.h d a b c ev))
  | 0xE5 => (do guard ((y.b == 0xC0#8) && (y.c == 0xC0#8) && (y.fn &&& 0x07F#12 == 0x000#12)); let d ← Opd.ofCode y.d; let a ← Opd.ofCode y.a; let ev ← evOfBits (fld 5 y.fn 7); pure (Instr.qctlQ y.h d a ev)) <|> (do guard ((y.b == 0xC0#8) && (y.c == 0xC0#8) && (y.fn &&& 0x07F#12 == 0x001#12)); let d ← Opd.ofCode y.d; let a ← Opd.ofCode y.a; let ev ← evOfBits (fld 5 y.fn 7); pure (Instr.qctlR y.h d a ev)) <|> (do guard ((y.b == 0xC0#8) && (y.c == 0xC0#8) && (y.fn &&& 0x07F#12 == 0x002#12)); let d ← Opd.ofCode y.d; let a ← Opd.ofCode y.a; let ev ← evOfBits (fld 5 y.fn 7); pure (Instr.qctlQry y.h d a ev))
  | _ => none

/-- The instruction of the fields of a word, before the operand rules (Table 3.6). -/
def rawDecode (y : Fields) : Option Instr :=
  match (y.op >>> 4).toNat with
  | 0x0 => rawDecode0 y
  | 0x1 => rawDecode1 y
  | 0x2 => rawDecode2 y
  | 0x3 => rawDecode3 y
  | 0x4 => rawDecode4 y
  | 0x5 => rawDecode5 y
  | 0x6 => rawDecode6 y
  | 0x7 => rawDecode7 y
  | 0x8 => rawDecode8 y
  | 0xA => rawDecodeA y
  | 0xB => rawDecodeB y
  | 0xC => rawDecodeC y
  | 0xD => rawDecodeD y
  | 0xE => rawDecodeE y
  | _ => none

/-- The word of an instruction (R55, R58 and the encoding line of each entry); an event has no word. -/
def encode : Instr → Option (BitVec 64)
  | .nop h => some (packA 0x00#8 h (0xC0#8) (0xC0#8) (0xC0#8) (0xC0#8) (0x000#12))
  | .bra h off => some (packI 0x01#8 h (0xC0#8) 0#4 off)
  | .brx h a => some (packA 0x02#8 h (0xC0#8) (a.code) (0xC0#8) (0xC0#8) (0x000#12))
  | .call h d off => some (packI 0x03#8 h (d.code) 0#4 off)
  | .ret h a => some (packA 0x04#8 h (0xC0#8) (a.code) (0xC0#8) (0xC0#8) (0x000#12))
  | .join h => some (packA 0x05#8 h (0xC0#8) (0xC0#8) (0xC0#8) (0xC0#8) (0x000#12))
  | .loop h d off => some (packI 0x06#8 h (d.code) 0#4 off)
  | .lexit h off => some (packI 0x07#8 h (0xC0#8) 0#4 off)
  | .exit h => some (packA 0x08#8 h (0xC0#8) (0xC0#8) (0xC0#8) (0xC0#8) (0x000#12))
  | .yield h => some (packA 0x09#8 h (0xC0#8) (0xC0#8) (0xC0#8) (0xC0#8) (0x000#12))
  | .wait h k mask => some (packA 0x0A#8 h (0xC0#8) (0xC0#8) (0xC0#8) (0xC0#8) (((k).setWidth 12 <<< 8) ||| ((mask).setWidth 12 <<< 0)))
  | .iadd h d a b sat => some (packA 0x10#8 h (d.code) (a.code) (b.code) (0xC0#8) (((sat.toBits).setWidth 12 <<< 0)))
  | .isub h d a b sat => some (packA 0x11#8 h (d.code) (a.code) (b.code) (0xC0#8) (((sat.toBits).setWidth 12 <<< 0)))
  | .imul h d a b => some (packA 0x12#8 h (d.code) (a.code) (b.code) (0xC0#8) (0x000#12))
  | .imulh h d a b sg => some (packA 0x13#8 h (d.code) (a.code) (b.code) (0xC0#8) ((((BitVec.ofBool sg)).setWidth 12 <<< 0)))
  | .imad h d a b c => some (packA 0x14#8 h (d.code) (a.code) (b.code) (c.code) (0x000#12))
  | .imin h d a b sg => some (packA 0x15#8 h (d.code) (a.code) (b.code) (0xC0#8) ((((BitVec.ofBool sg)).setWidth 12 <<< 0)))
  | .imax h d a b sg => some (packA 0x16#8 h (d.code) (a.code) (b.code) (0xC0#8) ((((BitVec.ofBool sg)).setWidth 12 <<< 0)))
  | .iabs h d a sat => some (packA 0x17#8 h (d.code) (a.code) (0xC0#8) (0xC0#8) ((((BitVec.ofBool sat)).setWidth 12 <<< 1)))
  | .icmp h d a b sg cc => some (packA 0x18#8 h (prCode d) (a.code) (b.code) (0xC0#8) ((((BitVec.ofBool sg)).setWidth 12 <<< 0) ||| ((cc.toBits).setWidth 12 <<< 1)))
  | .and h d a b => some (packA 0x19#8 h (d.code) (a.code) (b.code) (0xC0#8) (0x000#12))
  | .or h d a b => some (packA 0x1A#8 h (d.code) (a.code) (b.code) (0xC0#8) (0x000#12))
  | .xor h d a b => some (packA 0x1B#8 h (d.code) (a.code) (b.code) (0xC0#8) (0x000#12))
  | .andn h d a b => some (packA 0x1C#8 h (d.code) (a.code) (b.code) (0xC0#8) (0x000#12))
  | .shl h d a b => some (packA 0x1D#8 h (d.code) (a.code) (b.code) (0xC0#8) (0x000#12))
  | .shr h d a b => some (packA 0x1E#8 h (d.code) (a.code) (b.code) (0xC0#8) (0x000#12))
  | .sar h d a b => some (packA 0x1F#8 h (d.code) (a.code) (b.code) (0xC0#8) (0x000#12))
  | .rot h d a b right => some (packA 0x20#8 h (d.code) (a.code) (b.code) (0xC0#8) ((((BitVec.ofBool right)).setWidth 12 <<< 0)))
  | .popc h d a => some (packA 0x21#8 h (d.code) (a.code) (0xC0#8) (0xC0#8) (0x000#12))
  | .clz h d a => some (packA 0x22#8 h (d.code) (a.code) (0xC0#8) (0xC0#8) (0x000#12))
  | .brev h d a => some (packA 0x23#8 h (d.code) (a.code) (0xC0#8) (0xC0#8) (0x000#12))
  | .bfe h d a b c sg => some (packA 0x24#8 h (d.code) (a.code) (b.code) (c.code) ((((BitVec.ofBool sg)).setWidth 12 <<< 0)))
  | .bfi h d a b c => some (packA 0x25#8 h (d.code) (a.code) (b.code) (c.code) (0x000#12))
  | .lea h d a b k w sg => some (packA 0x26#8 h (d.code) (a.code) (b.code) (0xC0#8) (((k).setWidth 12 <<< 0) ||| (((BitVec.ofBool w)).setWidth 12 <<< 5) ||| (((BitVec.ofBool sg)).setWidth 12 <<< 6)))
  | .iaddw h d a b wb => some (packA 0x27#8 h (d.code) (a.code) (b.code) (0xC0#8) (((wb.toBits).setWidth 12 <<< 0)))
  | .iaddc h d a b c sub => some (packA 0x28#8 h (d.code) (a.code) (b.code) (prCode c) ((((BitVec.ofBool sub)).setWidth 12 <<< 0)))
  | .sad h d a b c sg => some (packA 0x29#8 h (d.code) (a.code) (b.code) (c.code) ((((BitVec.ofBool sg)).setWidth 12 <<< 0)))
  | .bsel h d a b c => some (packA 0x2A#8 h (d.code) (a.code) (b.code) (c.code) (0x000#12))
  | .idot4 h d a b c sa sb sat => some (packA 0x2B#8 h (d.code) (a.code) (b.code) (c.code) ((((BitVec.ofBool sa)).setWidth 12 <<< 0) ||| (((BitVec.ofBool sb)).setWidth 12 <<< 1) ||| (((BitVec.ofBool sat)).setWidth 12 <<< 2)))
  | .fadd h d a b rm => some (packA 0x30#8 h (d.code) (a.code) (b.code) (0xC0#8) (((rm.toBits).setWidth 12 <<< 0)))
  | .fsub h d a b rm => some (packA 0x31#8 h (d.code) (a.code) (b.code) (0xC0#8) (((rm.toBits).setWidth 12 <<< 0)))
  | .fmul h d a b rm => some (packA 0x32#8 h (d.code) (a.code) (b.code) (0xC0#8) (((rm.toBits).setWidth 12 <<< 0)))
  | .ffma h d a b c rm => some (packA 0x33#8 h (d.code) (a.code) (b.code) (c.code) (((rm.toBits).setWidth 12 <<< 0)))
  | .fmin h d a b => some (packA 0x34#8 h (d.code) (a.code) (b.code) (0xC0#8) (0x000#12))
  | .fmax h d a b => some (packA 0x35#8 h (d.code) (a.code) (b.code) (0xC0#8) (0x000#12))
  | .fcmp h d a b cc => some (packA 0x36#8 h (prCode d) (a.code) (b.code) (0xC0#8) (((cc.toBits).setWidth 12 <<< 0)))
  | .frnd h d a rm x => some (packA 0x37#8 h (d.code) (a.code) (0xC0#8) (0xC0#8) (((rm.toBits).setWidth 12 <<< 0) ||| (((BitVec.ofBool x)).setWidth 12 <<< 3)))
  | .fclass h d a => some (packA 0x38#8 h (d.code) (a.code) (0xC0#8) (0xC0#8) (0x000#12))
  | .fscale h d a b rm => some (packA 0x39#8 h (d.code) (a.code) (b.code) (0xC0#8) (((rm.toBits).setWidth 12 <<< 0)))
  | .twosum h d a b => some (packA 0x3A#8 h (d.code) (a.code) (b.code) (0xC0#8) (0x000#12))
  | .twoprod h d a b => some (packA 0x3B#8 h (d.code) (a.code) (b.code) (0xC0#8) (0x000#12))
  | .faddp h d a b one => some (packA 0x3C#8 h (d.code) (a.code) (b.code) (0xC0#8) ((((BitVec.ofBool one)).setWidth 12 <<< 0)))
  | .pkadd h d a b rm b0 => some (packA 0x3D#8 h (d.code) (a.code) (b.code) (0xC0#8) (((rm.toBits).setWidth 12 <<< 0) ||| (((BitVec.ofBool b0)).setWidth 12 <<< 3)))
  | .pkmul h d a b rm b0 => some (packA 0x3E#8 h (d.code) (a.code) (b.code) (0xC0#8) (((rm.toBits).setWidth 12 <<< 0) ||| (((BitVec.ofBool b0)).setWidth 12 <<< 3)))
  | .pkfma h d a b c rm b0 => some (packA 0x3F#8 h (d.code) (a.code) (b.code) (c.code) (((rm.toBits).setWidth 12 <<< 0) ||| (((BitVec.ofBool b0)).setWidth 12 <<< 3)))
  | .pkfmab h d a b c rm b0 => some (packA 0x40#8 h (d.code) (a.code) (b.code) (c.code) (((rm.toBits).setWidth 12 <<< 0) ||| (((BitVec.ofBool b0)).setWidth 12 <<< 3)))
  | .rcp h d a rm => some (packA 0x50#8 h (d.code) (a.code) (0xC0#8) (0xC0#8) (((rm.toBits).setWidth 12 <<< 0)))
  | .rsq h d a => some (packA 0x51#8 h (d.code) (a.code) (0xC0#8) (0xC0#8) (0x000#12))
  | .sqrt h d a rm => some (packA 0x52#8 h (d.code) (a.code) (0xC0#8) (0xC0#8) (((rm.toBits).setWidth 12 <<< 0)))
  | .exp2 h d a => some (packA 0x53#8 h (d.code) (a.code) (0xC0#8) (0xC0#8) (0x000#12))
  | .log2 h d a => some (packA 0x54#8 h (d.code) (a.code) (0xC0#8) (0xC0#8) (0x000#12))
  | .sin h d a => some (packA 0x55#8 h (d.code) (a.code) (0xC0#8) (0xC0#8) (0x000#12))
  | .cos h d a => some (packA 0x56#8 h (d.code) (a.code) (0xC0#8) (0xC0#8) (0x000#12))
  | .tanh h d a => some (packA 0x57#8 h (d.code) (a.code) (0xC0#8) (0xC0#8) (0x000#12))
  | .cvtif h d a rm ty => some (packA 0x58#8 h (d.code) (a.code) (0xC0#8) (0xC0#8) (((rm.toBits).setWidth 12 <<< 0) ||| ((ty.toBits).setWidth 12 <<< 4)))
  | .cvtfi h d a rm ty => some (packA 0x59#8 h (d.code) (a.code) (0xC0#8) (0xC0#8) (((rm.toBits).setWidth 12 <<< 0) ||| ((ty.toBits).setWidth 12 <<< 4)))
  | .cvtff h d a rm toF16 => some (packA 0x5A#8 h (d.code) (a.code) (0xC0#8) (0xC0#8) (((rm.toBits).setWidth 12 <<< 0) ||| (((BitVec.ofBool toF16)).setWidth 12 <<< 4)))
  | .packh h d a b rm bf => some (packA 0x5B#8 h (d.code) (a.code) (b.code) (0xC0#8) (((rm.toBits).setWidth 12 <<< 0) ||| (((BitVec.ofBool bf)).setWidth 12 <<< 4)))
  | .unpkh h d a bf hi => some (packA 0x5C#8 h (d.code) (a.code) (0xC0#8) (0xC0#8) ((((BitVec.ofBool bf)).setWidth 12 <<< 4) ||| (((BitVec.ofBool hi)).setWidth 12 <<< 5)))
  | .decn h d a b f scl esc => some (packA 0x5D#8 h (d.code) (a.code) (b.code) (0xC0#8) (((f).setWidth 12 <<< 0) ||| (((BitVec.ofBool scl)).setWidth 12 <<< 5) ||| (((BitVec.ofBool esc)).setWidth 12 <<< 6)))
  | .mov h d a w => some (packA 0x60#8 h (d.code) (a.code) (0xC0#8) (0xC0#8) ((((BitVec.ofBool w)).setWidth 12 <<< 0)))
  | .movi h d imm => some (packI 0x61#8 h (d.code) 0#4 imm)
  | .moviS h d imm => some (packI 0x61#8 h (d.code) 1#4 imm)
  | .moviHi h d imm => some (packI 0x61#8 h (d.code) 2#4 imm)
  | .sel h d a b c w => some (packA 0x62#8 h (d.code) (a.code) (b.code) (prCode c) ((((BitVec.ofBool w)).setWidth 12 <<< 0)))
  | .pand h d a b na nb => some (packA 0x63#8 h (prCode d) (prCode a) (prCode b) (0xC0#8) ((((BitVec.ofBool na)).setWidth 12 <<< 0) ||| (((BitVec.ofBool nb)).setWidth 12 <<< 1)))
  | .por h d a b na nb => some (packA 0x64#8 h (prCode d) (prCode a) (prCode b) (0xC0#8) ((((BitVec.ofBool na)).setWidth 12 <<< 0) ||| (((BitVec.ofBool nb)).setWidth 12 <<< 1)))
  | .pxor h d a b na nb => some (packA 0x65#8 h (prCode d) (prCode a) (prCode b) (0xC0#8) ((((BitVec.ofBool na)).setWidth 12 <<< 0) ||| (((BitVec.ofBool nb)).setWidth 12 <<< 1)))
  | .pmov h d a => some (packA 0x66#8 h (prCode d) (prCode a) (0xC0#8) (0xC0#8) (0x000#12))
  | .pmovNot h d a => some (packA 0x66#8 h (prCode d) (prCode a) (0xC0#8) (0xC0#8) (0x001#12))
  | .pmovVal h d a => some (packA 0x66#8 h (d.code) (prCode a) (0xC0#8) (0xC0#8) (0x002#12))
  | .pmovNz h d a => some (packA 0x66#8 h (prCode d) (a.code) (0xC0#8) (0xC0#8) (0x003#12))
  | .pset h d a n1 => some (packA 0x67#8 h (prCode d) (a.code) (0xC0#8) (0xC0#8) (((n1).setWidth 12 <<< 4)))
  | .psetPack h d a n1 => some (packA 0x67#8 h (d.code) (prCode a) (0xC0#8) (0xC0#8) (((n1).setWidth 12 <<< 4) ||| 0x001#12))
  | .smov h d a b first => some (packA 0x68#8 h (d.code) (a.code) (b.code) (0xC0#8) ((((BitVec.ofBool first)).setWidth 12 <<< 0)))
  | .lxch h d a b c mode grp => some (packA 0x70#8 h (d.code) (a.code) (b.code) (prOptCode c) (((BitVec.ofBool c.isSome).setWidth 12 <<< 6) ||| ((mode.toBits).setWidth 12 <<< 0) ||| ((grp.toBits).setWidth 12 <<< 3)))
  | .agree h d a kd neg => some (packA 0x71#8 h (prCode d) (prCode a) (0xC0#8) (0xC0#8) (((kd.toBits).setWidth 12 <<< 0) ||| (((BitVec.ofBool neg)).setWidth 12 <<< 2)))
  | .ballot h d a cnt neg => some (packA 0x72#8 h (d.code) (prCode a) (0xC0#8) (0xC0#8) ((((BitVec.ofBool cnt)).setWidth 12 <<< 0) ||| (((BitVec.ofBool neg)).setWidth 12 <<< 1)))
  | .wred h d a rm op ty => some (packA 0x73#8 h (d.code) (a.code) (0xC0#8) (0xC0#8) (((rm.toBits).setWidth 12 <<< 0) ||| ((op.toBits).setWidth 12 <<< 3) ||| ((ty.toBits).setWidth 12 <<< 6)))
  | .wscan h d a rm op ty excl => some (packA 0x74#8 h (d.code) (a.code) (0xC0#8) (0xC0#8) (((rm.toBits).setWidth 12 <<< 0) ||| ((op.toBits).setWidth 12 <<< 3) ||| ((ty.toBits).setWidth 12 <<< 6) ||| (((BitVec.ofBool excl)).setWidth 12 <<< 8)))
  | .rebal h d a b => some (packA 0x75#8 h (d.code) (a.code) (b.code) (0xC0#8) (0x000#12))
  | .csamp h d a b => some (packA 0x76#8 h (d.code) (a.code) (b.code) (0xC0#8) (0x000#12))
  | .rand h d a b f01 => some (packA 0x77#8 h (d.code) (a.code) (b.code) (0xC0#8) ((((BitVec.ofBool f01)).setWidth 12 <<< 0)))
  | .ld h d a b ty pol sc od => some (packA 0x80#8 h (d.code) (a.code) (b.code) (((ty.toBits).setWidth 8 <<< 0)) (((pol.toBits).setWidth 12 <<< 10) ||| ((sc.toBits).setWidth 12 <<< 7) ||| ((od.toBits).setWidth 12 <<< 5)))
  | .st h d a b sf ty pol sc od => some (packA 0x81#8 h (d.code) (a.code) (b.code) (((sf).setWidth 8 <<< 3) ||| ((ty.toBits).setWidth 8 <<< 0)) (((pol.toBits).setWidth 12 <<< 10) ||| ((sc.toBits).setWidth 12 <<< 7) ||| ((od.toBits).setWidth 12 <<< 5)))
  | .lds h d a b ty pol sc od => some (packA 0x82#8 h (d.code) (a.code) (b.code) (((ty.toBits).setWidth 8 <<< 0)) (((pol.toBits).setWidth 12 <<< 10) ||| ((sc.toBits).setWidth 12 <<< 7) ||| ((od.toBits).setWidth 12 <<< 5)))
  | .sts h d a b sf ty pol sc od => some (packA 0x83#8 h (d.code) (a.code) (b.code) (((sf).setWidth 8 <<< 3) ||| ((ty.toBits).setWidth 8 <<< 0)) (((pol.toBits).setWidth 12 <<< 10) ||| ((sc.toBits).setWidth 12 <<< 7) ||| ((od.toBits).setWidth 12 <<< 5)))
  | .ldw h d a b ty pol sc od => some (packA 0x84#8 h (d.code) (a.code) (b.code) (((ty.toBits).setWidth 8 <<< 0)) (((pol.toBits).setWidth 12 <<< 10) ||| ((sc.toBits).setWidth 12 <<< 7) ||| ((od.toBits).setWidth 12 <<< 5)))
  | .stw h d a b ty pol sc od => some (packA 0x85#8 h (d.code) (a.code) (b.code) (((ty.toBits).setWidth 8 <<< 0)) (((pol.toBits).setWidth 12 <<< 10) ||| ((sc.toBits).setWidth 12 <<< 7) ||| ((od.toBits).setWidth 12 <<< 5)))
  | .ldn h d a b ty pol sc od => some (packA 0x86#8 h (d.code) (a.code) (b.code) (((ty.toBits).setWidth 8 <<< 0)) (((pol.toBits).setWidth 12 <<< 10) ||| ((sc.toBits).setWidth 12 <<< 7) ||| ((od.toBits).setWidth 12 <<< 5)))
  | .qst h d a b c f mode ev => some (packA 0x87#8 h (d.code) (a.code) (b.code) (c.code) (((f).setWidth 12 <<< 0) ||| ((mode.toBits).setWidth 12 <<< 5) ||| (((evToBits ev)).setWidth 12 <<< 7)))
  | .pref h a b pol => some (packA 0x88#8 h (0xC0#8) (a.code) (b.code) (0x00#8) (((pol.toBits).setWidth 12 <<< 10)))
  | .shbind h d a b ev => some (packA 0x89#8 h (d.code) (a.code) (b.code) (0xC0#8) ((((evToBits ev)).setWidth 12 <<< 7)))
  | .shfree h d a ev => some (packA 0x8A#8 h (d.code) (a.code) (0xC0#8) (0xC0#8) ((((evToBits ev)).setWidth 12 <<< 7)))
  | .cpy h a ev => some (packA 0x8B#8 h (0xC0#8) (a.code) (0xC0#8) (0xC0#8) ((((evToBits ev)).setWidth 12 <<< 7)))
  | .aqstart h d ev => some (packA 0x8C#8 h (d.code) (0xC0#8) (0xC0#8) (0xC0#8) ((((evToBits ev)).setWidth 12 <<< 7)))
  | .aqstop h d ev => some (packA 0x8D#8 h (d.code) (0xC0#8) (0xC0#8) (0xC0#8) ((((evToBits ev)).setWidth 12 <<< 7)))
  | .aqstopQry h d a ev => some (packA 0x8D#8 h (d.code) (a.code) (0xC0#8) (0xC0#8) ((((evToBits ev)).setWidth 12 <<< 7) ||| 0x001#12))
  | .ldc h d a b ty => some (packA 0x8E#8 h (d.code) (a.code) (b.code) (((ty.toBits).setWidth 8 <<< 0)) (0x000#12))
  | .atom h d a b op ty sc od => some (packA 0xA0#8 h (d.code) (a.code) (b.code) (((op.toBits).setWidth 8 <<< 3) ||| ((ty.toBits).setWidth 8 <<< 0)) (((sc.toBits).setWidth 12 <<< 7) ||| ((od.toBits).setWidth 12 <<< 5)))
  | .acas h d a b ty sc od => some (packA 0xA1#8 h (d.code) (a.code) (b.code) (((ty.toBits).setWidth 8 <<< 0)) (((sc.toBits).setWidth 12 <<< 7) ||| ((od.toBits).setWidth 12 <<< 5)))
  | .red h a b op ty sc od => some (packA 0xA2#8 h (0xC0#8) (a.code) (b.code) (((op.toBits).setWidth 8 <<< 3) ||| ((ty.toBits).setWidth 8 <<< 0)) (((sc.toBits).setWidth 12 <<< 7) ||| ((od.toBits).setWidth 12 <<< 5)))
  | .fence h sc od => some (packA 0xA3#8 h (0xC0#8) (0xC0#8) (0xC0#8) (0x00#8) (((sc.toBits).setWidth 12 <<< 7) ||| ((od.toBits).setWidth 12 <<< 5)))
  | .bar h a => some (packA 0xA4#8 h (0xC0#8) (a.code) (0xC0#8) (0xC0#8) (0x000#12))
  | .nbar h a => some (packA 0xA5#8 h (0xC0#8) (a.code) (0xC0#8) (0xC0#8) (0x000#12))
  | .slin h d a b => some (packA 0xA6#8 h (d.code) (a.code) (b.code) (0xC0#8) (0x000#12))
  | .slout h d a => some (packA 0xA7#8 h (d.code) (a.code) (0xC0#8) (0xC0#8) (0x000#12))
  | .sloutLast h d a => some (packA 0xA7#8 h (d.code) (a.code) (0xC0#8) (0xC0#8) (0x001#12))
  | .slqry h d a => some (packA 0xA8#8 h (d.code) (a.code) (0xC0#8) (0xC0#8) (0x000#12))
  | .slrst h d a b => some (packA 0xA9#8 h (d.code) (a.code) (b.code) (0xC0#8) (0x000#12))
  | .slrstDel h d a => some (packA 0xA9#8 h (d.code) (a.code) (0xC0#8) (0xC0#8) (0x001#12))
  | .send h d a n => some (packA 0xAA#8 h (d.code) (a.code) (0xC0#8) (0xC0#8) (((n).setWidth 12 <<< 0)))
  | .recv h d a n => some (packA 0xAB#8 h (d.code) (a.code) (0xC0#8) (0xC0#8) (((n).setWidth 12 <<< 0)))
  | .mloadb h a b f scr ev => some (packA 0xB0#8 h (0xC0#8) (a.code) (b.code) (0xC0#8) (((f).setWidth 12 <<< 0) ||| (((BitVec.ofBool scr)).setWidth 12 <<< 5) ||| (((evToBits ev)).setWidth 12 <<< 7)))
  | .mma h a b nkm bank ev => some (packA 0xB1#8 h (0xC0#8) (a.code) (b.code) (0xC0#8) (((nkm).setWidth 12 <<< 0) ||| (((BitVec.ofBool bank)).setWidth 12 <<< 4) ||| (((evToBits ev)).setWidth 12 <<< 7)))
  | .mres h d g bank ev => some (packA 0xB2#8 h (d.code) (0xC0#8) (0xC0#8) (0xC0#8) (((g).setWidth 12 <<< 0) ||| (((BitVec.ofBool bank)).setWidth 12 <<< 2) ||| (((evToBits ev)).setWidth 12 <<< 7)))
  | .mfence h sc => some (packA 0xB3#8 h (0xC0#8) (0xC0#8) (0xC0#8) (0xC0#8) (((sc.toBits).setWidth 12 <<< 0)))
  | .mwait h => some (packA 0xB4#8 h (0xC0#8) (0xC0#8) (0xC0#8) (0xC0#8) (0x000#12))
  | .had h a b c p ty ev => some (packA 0xB5#8 h (0xC0#8) (a.code) (b.code) (c.code) (((p.toBits).setWidth 12 <<< 0) ||| ((ty.toBits).setWidth 12 <<< 2) ||| (((evToBits ev)).setWidth 12 <<< 7)))
  | .twalk h d a b n ev => some (packA 0xB6#8 h (d.code) (a.code) (b.code) (0xC0#8) (((n.toBits).setWidth 12 <<< 0) ||| (((evToBits ev)).setWidth 12 <<< 7)))
  | .tnext h d ev => some (packA 0xB7#8 h (d.code) (0xC0#8) (0xC0#8) (0xC0#8) ((((evToBits ev)).setWidth 12 <<< 7)))
  | .mzero h bank bd => some (packA 0xB8#8 h (0xC0#8) (0xC0#8) (0xC0#8) (0xC0#8) ((((BitVec.ofBool bank)).setWidth 12 <<< 0) ||| (((BitVec.ofBool bd)).setWidth 12 <<< 1)))
  | .beam h d a ev => some (packA 0xC0#8 h (d.code) (a.code) (0xC0#8) (0xC0#8) ((((evToBits ev)).setWidth 12 <<< 7)))
  | .bfrag h d a ev => some (packA 0xC1#8 h (d.code) (a.code) (0xC0#8) (0xC0#8) ((((evToBits ev)).setWidth 12 <<< 7)))
  | .bdone h a => some (packA 0xC2#8 h (0xC0#8) (a.code) (0xC0#8) (0xC0#8) (0x000#12))
  | .rays h d a b first sh ev => some (packA 0xC3#8 h (d.code) (a.code) (b.code) (0xC0#8) ((((BitVec.ofBool first)).setWidth 12 <<< 0) ||| (((BitVec.ofBool sh)).setWidth 12 <<< 1) ||| (((evToBits ev)).setWidth 12 <<< 7)))
  | .hitget h d a ev => some (packA 0xC4#8 h (d.code) (a.code) (0xC0#8) (0xC0#8) ((((evToBits ev)).setWidth 12 <<< 7)))
  | .hitgetCand h d a ev => some (packA 0xC4#8 h (d.code) (a.code) (0xC0#8) (0xC0#8) ((((evToBits ev)).setWidth 12 <<< 7) ||| 0x001#12))
  | .hitacc h a b c => some (packA 0xC5#8 h (0xC0#8) (a.code) (b.code) (c.code) (0x000#12))
  | .tex h d a b c nr ev => some (packA 0xC6#8 h (d.code) (a.code) (b.code) (c.code) ((((BitVec.ofBool nr)).setWidth 12 <<< 0) ||| (((evToBits ev)).setWidth 12 <<< 7)))
  | .texq h d a b c ev => some (packA 0xC7#8 h (d.code) (a.code) (b.code) (c.code) ((((evToBits ev)).setWidth 12 <<< 7)))
  | .bvhset h d a ev => some (packA 0xC8#8 h (d.code) (a.code) (0xC0#8) (0xC0#8) ((((evToBits ev)).setWidth 12 <<< 7)))
  | .launch h d a => some (packA 0xD0#8 h (d.code) (a.code) (0xC0#8) (0xC0#8) (0x000#12))
  | .wchild h d => some (packA 0xD1#8 h (d.code) (0xC0#8) (0xC0#8) (0xC0#8) (0x000#12))
  | .gsig h d a => some (packA 0xD2#8 h (d.code) (a.code) (0xC0#8) (0xC0#8) (0x000#12))
  | .enrd h d => some (packA 0xD3#8 h (d.code) (0xC0#8) (0xC0#8) (0xC0#8) (0x000#12))
  | .enrdBal h d => some (packA 0xD3#8 h (d.code) (0xC0#8) (0xC0#8) (0xC0#8) (0x001#12))
  | .role h d a => some (packA 0xD4#8 h (d.code) (a.code) (0xC0#8) (0xC0#8) (0x000#12))
  | .roleId h d a => some (packA 0xD4#8 h (d.code) (a.code) (0xC0#8) (0xC0#8) (0x001#12))
  | .rolePos h d a => some (packA 0xD4#8 h (d.code) (a.code) (0xC0#8) (0xC0#8) (0x002#12))
  | .roleCnt h d => some (packA 0xD4#8 h (d.code) (0xC0#8) (0xC0#8) (0xC0#8) (0x003#12))
  | .trap h imm => some (packI 0xE0#8 h (0xC0#8) 0#4 imm)
  | .rte h => some (packA 0xE1#8 h (0xC0#8) (0xC0#8) (0xC0#8) (0xC0#8) (0x000#12))
  | .csrr h d reg => some (packI 0xE2#8 h (d.code) 0#4 (reg.setWidth 32))
  | .csrw h d reg => some (packI 0xE3#8 h (d.code) 0#4 (reg.setWidth 32))
  | .csrwSet h d reg => some (packI 0xE3#8 h (d.code) 1#4 (reg.setWidth 32))
  | .csrwClr h d reg => some (packI 0xE3#8 h (d.code) 2#4 (reg.setWidth 32))
  | .rinv h d a ev => some (packA 0xE4#8 h (d.code) (a.code) (0xC0#8) (0xC0#8) ((((evToBits ev)).setWidth 12 <<< 7)))
  | .rinvRange h d a b c ev => some (packA 0xE4#8 h (d.code) (a.code) (b.code) (c.code) ((((evToBits ev)).setWidth 12 <<< 7) ||| 0x001#12))
  | .qctlQ h d a ev => some (packA 0xE5#8 h (d.code) (a.code) (0xC0#8) (0xC0#8) ((((evToBits ev)).setWidth 12 <<< 7)))
  | .qctlR h d a ev => some (packA 0xE5#8 h (d.code) (a.code) (0xC0#8) (0xC0#8) ((((evToBits ev)).setWidth 12 <<< 7) ||| 0x001#12))
  | .qctlQry h d a ev => some (packA 0xE5#8 h (d.code) (a.code) (0xC0#8) (0xC0#8) ((((evToBits ev)).setWidth 12 <<< 7) ||| 0x002#12))
  | .sfuResult _ _ _ => none
  | .loadComplete _ _ _ => none
  | .copyComplete _ => none
  | .streamPush _ => none
  | .qstComplete _ _ _ => none
  | .sluiceTimeout _ _ => none
  | .sluiceDeadlock _ => none
  | .mloadbComplete _ _ _ => none
  | .mmaComplete _ _ _ => none
  | .hadComplete _ _ _ => none
  | .beamTreeSettled _ _ => none
  | .raysSettled _ _ => none
  | .clauseEntry _ _ => none
  | .regionCommit _ _ _ => none
  | .sectorFill _ _ _ => none
  | .spillRefetch _ => none
  | .faultResolved _ _ => none
  | .faultSlotRetry _ => none
  | .recordTake _ _ => none
  | .nodeComplete _ => none
  | .gangPlace _ => none
  | .preemptSaved _ => none
  | .park _ => none
  | .teamRetire _ => none
  | .energyRefill => none
  | .coreUncorrectableError _ _ => none
  | .schedulerCoreError _ => none
  | .rootCoreError => none
  | .boot _ => none
  | .firmwareUpdate _ => none
  | .hostBar2Access _ _ _ => none
  | .atsInvalidate _ => none
  | .peerAccess _ _ _ => none
  | .linkCrcError _ _ _ => none
  | .qcfgWrite _ _ _ => none
  | .qidxWrite _ _ _ => none
  | .fqcfgWrite _ _ => none
  | .mqcfgWrite _ _ => none
  | .mqidxWrite _ _ => none
  | .acthWrite _ _ => none
  | .slcfgWrite _ _ => none
  | .cqcfgWrite _ _ => none
  | .cqidxWrite _ _ => none
  | .eqcfgWrite _ _ => none
  | .pqmaskWrite _ _ _ => none
  | .pwaysWrite _ _ _ => none
  | .nbndWrite _ _ _ => none
  | .prsvWrite _ _ _ => none
  | .asidvWrite _ _ _ => none
  | .pcapWrite _ _ _ => none
  | .fmodeWrite _ _ _ => none
  | .fflagsWrite _ _ _ => none
  | .registerWrite _ _ => none
  | .regionEndingResult _ _ _ => none
  | .texComplete _ _ _ => none
  | .bvhsetComplete _ _ _ => none
  | .shbindComplete _ _ _ => none
  | .tnextComplete _ _ _ _ => none
  | .mresComplete _ _ _ => none
  | .rinvComplete _ _ _ => none
  | .faultRecordFreed _ _ => none
  | .energyWrite _ _ _ => none
  | .schedulerCoreReloaded _ => none
  | .msixTableWrite _ _ _ => none

/-- The fields STALL and guard of an instruction; an event has none. -/
def Instr.hdr? : Instr → Option Hdr
  | .nop h => some h
  | .bra h _ => some h
  | .brx h _ => some h
  | .call h _ _ => some h
  | .ret h _ => some h
  | .join h => some h
  | .loop h _ _ => some h
  | .lexit h _ => some h
  | .exit h => some h
  | .yield h => some h
  | .wait h _ _ => some h
  | .iadd h _ _ _ _ => some h
  | .isub h _ _ _ _ => some h
  | .imul h _ _ _ => some h
  | .imulh h _ _ _ _ => some h
  | .imad h _ _ _ _ => some h
  | .imin h _ _ _ _ => some h
  | .imax h _ _ _ _ => some h
  | .iabs h _ _ _ => some h
  | .icmp h _ _ _ _ _ => some h
  | .and h _ _ _ => some h
  | .or h _ _ _ => some h
  | .xor h _ _ _ => some h
  | .andn h _ _ _ => some h
  | .shl h _ _ _ => some h
  | .shr h _ _ _ => some h
  | .sar h _ _ _ => some h
  | .rot h _ _ _ _ => some h
  | .popc h _ _ => some h
  | .clz h _ _ => some h
  | .brev h _ _ => some h
  | .bfe h _ _ _ _ _ => some h
  | .bfi h _ _ _ _ => some h
  | .lea h _ _ _ _ _ _ => some h
  | .iaddw h _ _ _ _ => some h
  | .iaddc h _ _ _ _ _ => some h
  | .sad h _ _ _ _ _ => some h
  | .bsel h _ _ _ _ => some h
  | .idot4 h _ _ _ _ _ _ _ => some h
  | .fadd h _ _ _ _ => some h
  | .fsub h _ _ _ _ => some h
  | .fmul h _ _ _ _ => some h
  | .ffma h _ _ _ _ _ => some h
  | .fmin h _ _ _ => some h
  | .fmax h _ _ _ => some h
  | .fcmp h _ _ _ _ => some h
  | .frnd h _ _ _ _ => some h
  | .fclass h _ _ => some h
  | .fscale h _ _ _ _ => some h
  | .twosum h _ _ _ => some h
  | .twoprod h _ _ _ => some h
  | .faddp h _ _ _ _ => some h
  | .pkadd h _ _ _ _ _ => some h
  | .pkmul h _ _ _ _ _ => some h
  | .pkfma h _ _ _ _ _ _ => some h
  | .pkfmab h _ _ _ _ _ _ => some h
  | .rcp h _ _ _ => some h
  | .rsq h _ _ => some h
  | .sqrt h _ _ _ => some h
  | .exp2 h _ _ => some h
  | .log2 h _ _ => some h
  | .sin h _ _ => some h
  | .cos h _ _ => some h
  | .tanh h _ _ => some h
  | .cvtif h _ _ _ _ => some h
  | .cvtfi h _ _ _ _ => some h
  | .cvtff h _ _ _ _ => some h
  | .packh h _ _ _ _ _ => some h
  | .unpkh h _ _ _ _ => some h
  | .decn h _ _ _ _ _ _ => some h
  | .mov h _ _ _ => some h
  | .movi h _ _ => some h
  | .moviS h _ _ => some h
  | .moviHi h _ _ => some h
  | .sel h _ _ _ _ _ => some h
  | .pand h _ _ _ _ _ => some h
  | .por h _ _ _ _ _ => some h
  | .pxor h _ _ _ _ _ => some h
  | .pmov h _ _ => some h
  | .pmovNot h _ _ => some h
  | .pmovVal h _ _ => some h
  | .pmovNz h _ _ => some h
  | .pset h _ _ _ => some h
  | .psetPack h _ _ _ => some h
  | .smov h _ _ _ _ => some h
  | .lxch h _ _ _ _ _ _ => some h
  | .agree h _ _ _ _ => some h
  | .ballot h _ _ _ _ => some h
  | .wred h _ _ _ _ _ => some h
  | .wscan h _ _ _ _ _ _ => some h
  | .rebal h _ _ _ => some h
  | .csamp h _ _ _ => some h
  | .rand h _ _ _ _ => some h
  | .ld h _ _ _ _ _ _ _ => some h
  | .st h _ _ _ _ _ _ _ _ => some h
  | .lds h _ _ _ _ _ _ _ => some h
  | .sts h _ _ _ _ _ _ _ _ => some h
  | .ldw h _ _ _ _ _ _ _ => some h
  | .stw h _ _ _ _ _ _ _ => some h
  | .ldn h _ _ _ _ _ _ _ => some h
  | .qst h _ _ _ _ _ _ _ => some h
  | .pref h _ _ _ => some h
  | .shbind h _ _ _ _ => some h
  | .shfree h _ _ _ => some h
  | .cpy h _ _ => some h
  | .aqstart h _ _ => some h
  | .aqstop h _ _ => some h
  | .aqstopQry h _ _ _ => some h
  | .ldc h _ _ _ _ => some h
  | .atom h _ _ _ _ _ _ _ => some h
  | .acas h _ _ _ _ _ _ => some h
  | .red h _ _ _ _ _ _ => some h
  | .fence h _ _ => some h
  | .bar h _ => some h
  | .nbar h _ => some h
  | .slin h _ _ _ => some h
  | .slout h _ _ => some h
  | .sloutLast h _ _ => some h
  | .slqry h _ _ => some h
  | .slrst h _ _ _ => some h
  | .slrstDel h _ _ => some h
  | .send h _ _ _ => some h
  | .recv h _ _ _ => some h
  | .mloadb h _ _ _ _ _ => some h
  | .mma h _ _ _ _ _ => some h
  | .mres h _ _ _ _ => some h
  | .mfence h _ => some h
  | .mwait h => some h
  | .had h _ _ _ _ _ _ => some h
  | .twalk h _ _ _ _ _ => some h
  | .tnext h _ _ => some h
  | .mzero h _ _ => some h
  | .beam h _ _ _ => some h
  | .bfrag h _ _ _ => some h
  | .bdone h _ => some h
  | .rays h _ _ _ _ _ _ => some h
  | .hitget h _ _ _ => some h
  | .hitgetCand h _ _ _ => some h
  | .hitacc h _ _ _ => some h
  | .tex h _ _ _ _ _ _ => some h
  | .texq h _ _ _ _ _ => some h
  | .bvhset h _ _ _ => some h
  | .launch h _ _ => some h
  | .wchild h _ => some h
  | .gsig h _ _ => some h
  | .enrd h _ => some h
  | .enrdBal h _ => some h
  | .role h _ _ => some h
  | .roleId h _ _ => some h
  | .rolePos h _ _ => some h
  | .roleCnt h _ => some h
  | .trap h _ => some h
  | .rte h => some h
  | .csrr h _ _ => some h
  | .csrw h _ _ => some h
  | .csrwSet h _ _ => some h
  | .csrwClr h _ _ => some h
  | .rinv h _ _ _ => some h
  | .rinvRange h _ _ _ _ _ => some h
  | .qctlQ h _ _ _ => some h
  | .qctlR h _ _ _ => some h
  | .qctlQry h _ _ _ => some h
  | .sfuResult _ _ _ => none
  | .loadComplete _ _ _ => none
  | .copyComplete _ => none
  | .streamPush _ => none
  | .qstComplete _ _ _ => none
  | .sluiceTimeout _ _ => none
  | .sluiceDeadlock _ => none
  | .mloadbComplete _ _ _ => none
  | .mmaComplete _ _ _ => none
  | .hadComplete _ _ _ => none
  | .beamTreeSettled _ _ => none
  | .raysSettled _ _ => none
  | .clauseEntry _ _ => none
  | .regionCommit _ _ _ => none
  | .sectorFill _ _ _ => none
  | .spillRefetch _ => none
  | .faultResolved _ _ => none
  | .faultSlotRetry _ => none
  | .recordTake _ _ => none
  | .nodeComplete _ => none
  | .gangPlace _ => none
  | .preemptSaved _ => none
  | .park _ => none
  | .teamRetire _ => none
  | .energyRefill => none
  | .coreUncorrectableError _ _ => none
  | .schedulerCoreError _ => none
  | .rootCoreError => none
  | .boot _ => none
  | .firmwareUpdate _ => none
  | .hostBar2Access _ _ _ => none
  | .atsInvalidate _ => none
  | .peerAccess _ _ _ => none
  | .linkCrcError _ _ _ => none
  | .qcfgWrite _ _ _ => none
  | .qidxWrite _ _ _ => none
  | .fqcfgWrite _ _ => none
  | .mqcfgWrite _ _ => none
  | .mqidxWrite _ _ => none
  | .acthWrite _ _ => none
  | .slcfgWrite _ _ => none
  | .cqcfgWrite _ _ => none
  | .cqidxWrite _ _ => none
  | .eqcfgWrite _ _ => none
  | .pqmaskWrite _ _ _ => none
  | .pwaysWrite _ _ _ => none
  | .nbndWrite _ _ _ => none
  | .prsvWrite _ _ _ => none
  | .asidvWrite _ _ _ => none
  | .pcapWrite _ _ _ => none
  | .fmodeWrite _ _ _ => none
  | .fflagsWrite _ _ _ => none
  | .registerWrite _ _ => none
  | .regionEndingResult _ _ _ => none
  | .texComplete _ _ _ => none
  | .bvhsetComplete _ _ _ => none
  | .shbindComplete _ _ _ => none
  | .tnextComplete _ _ _ _ => none
  | .mresComplete _ _ _ => none
  | .rinvComplete _ _ _ => none
  | .faultRecordFreed _ _ => none
  | .energyWrite _ _ _ => none
  | .schedulerCoreReloaded _ => none
  | .msixTableWrite _ _ _ => none

/-- Why a word is no instruction (Table 3.7): each is the illegal-instruction trap at issue. -/
inductive DecodeError where
  | reservedOp         -- the opcode is reserved
  | illegalEncoding    -- a reserved operand code, an unused field that is not 0xC0, undefined function bits
  | illegalOperand     -- an operand code illegal in its position, a misaligned wide register
  deriving DecidableEq, Repr

/-- Which engine class an opcode belongs to (Table 3.6): `some none` may stand in any clause, `none` is reserved. -/
def opEng (op : BitVec 8) : Option (Option Nat) :=
  let o := op.toNat
  if o ≤ 0x0A then some none
  else if 0x10 ≤ o ∧ o ≤ 0x2B then some (some 0)
  else if 0x30 ≤ o ∧ o ≤ 0x40 then some (some 0)
  else if 0x50 ≤ o ∧ o ≤ 0x5D then some (some 0)
  else if 0x60 ≤ o ∧ o ≤ 0x68 then some (some 0)
  else if 0x70 ≤ o ∧ o ≤ 0x77 then some (some 0)
  else if 0x80 ≤ o ∧ o ≤ 0x8E then some (some 1)
  else if 0xA0 ≤ o ∧ o ≤ 0xAB then some (some 4)
  else if 0xB0 ≤ o ∧ o ≤ 0xB8 then some (some 2)
  else if 0xC0 ≤ o ∧ o ≤ 0xC8 then some (some 3)
  else if 0xD0 ≤ o ∧ o ≤ 0xD4 then some (some 5)
  else if 0xE0 ≤ o ∧ o ≤ 0xE5 then some (some 5)
  else none

/-- Opcodes that transfer control and must stand last (R69), and RTE (R420). -/
def opTransfers (op : BitVec 8) : Bool :=
  let o := op.toNat
  (1 ≤ o && o ≤ 9) || o == 0xE1

/-- Opcodes of the region-ending instructions (Table 2.3): ATOM, ACAS, RED, FENCE, BAR, NBAR, the sluice operations,
SEND, RECV, LAUNCH, WCHILD, GSIG, TRAP, YIELD, EXIT, BEAM, RAYS, CPY. -/
def opEndsRegion (op : BitVec 8) : Bool :=
  let o := op.toNat
  (0xA0 ≤ o && o ≤ 0xAB) || o == 0xD0 || o == 0xD1 || o == 0xD2 || o == 0xE0 || o == 0x08 || o == 0x09
    || o == 0xC0 || o == 0xC3 || o == 0x8B

/-- The instruction of a 64-bit word. -/
def decode (w : BitVec 64) : Except DecodeError Instr :=
  let f := Fields.ofWord w
  match opEng f.op with
  | none => .error .reservedOp
  | some _ =>
    match rawDecode f with
    | none => .error .illegalEncoding
    | some i => if i.wf then .ok i else .error .illegalOperand

/-- A clause header (Table 3.1). -/
structure Header where
  n : Nat               -- instruction count N, 1 to 16
  eng : Nat
  rb : Bool
  chk : Bool
  lb : Bool
  waitMask : BitVec 8
  waitLe : BitVec 4
  deriving DecidableEq, Repr

/-- The header of a word; a word with a wrong MARK, a reserved `ENG` or a nonzero reserved bit is none (Table 3.7). -/
def Header.ofWord (w : BitVec 64) : Option Header :=
  if w.extractLsb' 60 4 = 0xC#4 ∧ (w.extractLsb' 52 4).toNat ≤ 5 ∧ w.extractLsb' 48 1 = 0#1 ∧ w.extractLsb' 0 36 = 0#36 then
    some { n := (w.extractLsb' 56 4).toNat + 1, eng := (w.extractLsb' 52 4).toNat
           rb := w.extractLsb' 51 1 == 1#1, chk := w.extractLsb' 50 1 == 1#1, lb := w.extractLsb' 49 1 == 1#1
           waitMask := w.extractLsb' 40 8, waitLe := w.extractLsb' 36 4 }
  else none

/-- The words of an instruction: its one 64-bit word (R49, R55). -/
def encodeWord (i : Instr) : Option (BitVec 64) := if i.wf then encode i else none

/-- The word at the front of a list of bytes, least significant byte first (R1). -/
def wordOfBytes (l : List (BitVec 8)) : BitVec 64 :=
  BitVec.ofNat 64 ((l.take 8).foldr (fun b n => b.toNat + 256 * n) 0)

/-- Decode the instruction word at the front of a list of bytes, and the bytes after it; too few bytes are refused. -/
def decodeBytes (l : List (BitVec 8)) : Except DecodeError (Instr × List (BitVec 8)) :=
  if l.length < 8 then .error .illegalEncoding
  else (decode (wordOfBytes l)).map (fun i => (i, l.drop 8))

/-- The host's question: the instruction of the word whose bits are `w`, bit 0 the least significant bit of its first
byte; bits above `nbits` are 0. -/
def decodeTableWord (nbits w : Nat) : Option Instr :=
  match decode (BitVec.ofNat 64 (w % 2 ^ nbits)) with
  | .ok i => some i
  | .error _ => none

end Sys2Proof
end

