-- ==== Sys2Proof/Config.lean ====
section
/-! DEFINITION. Sys2Proof/Config.lean: what the manual leaves open. Every constant here is opaque: nothing can be proved
about its value, so a claim holds whatever the value is (00_scope.md R4: unspecified and undefined values). -/
namespace Sys2Proof.Config

/-- The word that a read of a register returns before its result is ready with CHK clear (R53), of an undefined scratch or
memory byte (Table 2.2, R459), or of any other unspecified value: indexed by the state's counter, the register and the lane. -/
opaque freeWord : Nat → Nat → Nat → DWord
/-- Which of the two values a register keeps that is written while a variable-latency result for it is pending (R132). -/
opaque freeBool : Nat → Nat → Bool
/-- Which of the values within its bound (Table 7.8) an SFU function (0 RSQ, 1 EXP2, 2 LOG2, 3 SIN, 4 COS, 5 TANH) gives under a rounding
mode for an operand that Table 7.9 does not list: a fixed function of mode and operand (R186). -/
opaque sfu : Nat → Nat → Word → Nat
/-- Which set of a slice a line falls in, beyond the address bits (R16): by address space, or 65,536 for a physical tag, and line
number. -/
opaque sliceHash : Nat → Nat → Nat
/-- Ways of L1 and of a cluster cache, as 2^9 or 2^12 divided by 2 to this, and what their set index adds to the line number. -/
opaque l1Split : Nat
opaque clusSplit : Nat
opaque l1Hash : Nat → Nat → Nat
opaque clusHash : Nat → Nat → Nat
/-- Entries of a controller's translation lookaside buffer, at least one. -/
opaque tlbSize : Nat
/-- Energy in whole µJ metered to a team between two readings (R428). -/
opaque energy : Nat → Nat
/-- `BU`, `BV` and the entries of `J` of a fragment (R319): index 0 to 5. -/
opaque fragWord : Nat → Nat → Nat → Word
/-- The tag of a candidate (R335), any value but 0xFFFF_FFFF. -/
opaque candTag : Nat → Word
/-- Whether the host answers an atomic request for an address with Unsupported Request (R368). -/
opaque hostRefuses : Nat → Nat → Bool
/-- The security version fused in the device (R436). -/
opaque fusedVersion : Nat

end Sys2Proof.Config
end

