-- ==== Sys2Proof/Machine/State.lean ====
section
/-! DEFINITION. Sys2Proof/Machine/State.lean: everything the manual gives the device to hold, as plain data, and the
device right after reset. The inventory (INVENTORY.md, "State") lists each piece with its rule. -/
namespace Sys2Proof.Machine

/-- Bytes of memory by physical address, strictly rising, none equal to what an unlisted address reads as. -/
abbrev Memory := List Host.Cell

/-- A register of a wave (R31): vector, scalar, predicate, loop counter, event counter. -/
inductive Reg where
  | v (n : Nat) | s (n : Nat) | p (n : Nat) | lc (n : Nat) | e (n : Nat)
  deriving DecidableEq, Repr

/-- One write of a register of a wave. -/
inductive RegW where
  | v (n lane : Nat) (x : Word)
  | s (n : Nat) (x : DWord)
  | p (n lane : Nat) (x : Bool)
  | lc (n : Nat) (x : Word)
  deriving DecidableEq, Repr

/-- The space a stored byte lies in: virtual memory of an ASID, or the scratch of a team. -/
inductive Space where
  | mem (asid : Nat)
  | scratch (tag : Nat)
  deriving DecidableEq, Repr

/-- One byte that a region run has stored and not committed (R33): the address of the storing word, its issue, the storing lane and
the lanes active for it (R71, Table 17.3); how it reaches memory (R339, R233); `rel` marks a release, `eng` a HAD result, which does
not count toward the region-buffer limit (R299), `und` one whose value is undefined (R274), `lost` a byte over which a higher lane of the same issue has committed (R235). -/
structure BufW where
  sp : Space
  a : Nat
  b : Byte
  site : DWord
  iss : Nat
  lane : Nat
  lanes : Lanes
  sc : Scope
  pol : Pol
  rel : Bool
  eng : Bool
  und : Bool
  lost : Bool
  deriving DecidableEq, Repr

/-- Class of an accumulator (Table 12.1). -/
inductive AccCls where
  | fin | pinf | ninf | nan
  deriving DecidableEq, Repr

/-- A 128-bit two's-complement accumulator, LSB weight 2^-80, with its class (Table 12.1). -/
structure Acc where
  cls : AccCls
  x : BitVec 128
  deriving DecidableEq, Repr

/-- B descriptor of a wave (Table 12.1). -/
structure BDesc where
  asid : Nat
  scr : Bool
  tile : Nat
  fmt : Nat
  list : Option Nat
  deriving DecidableEq, Repr

/-- Walk state of a wave (R300): the extents, the mask address, and the tiles already handed out, each with the run that took it,
0 once that has committed. -/
structure Walk where
  t0 : Nat
  t1 : Nat
  t2 : Nat
  mask : Option Nat
  gone : List (Nat × Nat × Nat × Nat)
  deriving DecidableEq, Repr

/-- One thread of a wave (R125): its PC, whether it has exited, the loops it is a member of, and the loop entry that holds
it with whether it left by LEXIT (R138, Table 17.7). -/
structure Thread where
  pc : DWord
  exited : Bool
  mem : BitVec 3
  hold : Option (Nat × Bool)
  deriving DecidableEq, Repr

/-- A loop stack entry (R137). -/
structure Loop where
  start : DWord
  fin : DWord
  k : Nat
  deriving DecidableEq, Repr

/-- The snapshot of loop mode (R141). -/
structure Snap where
  clause : DWord
  loops : List Loop
  lc : Sparse Word
  thr : List Thread
  deriving DecidableEq, Repr

/-- A bundle part-way through a clause (R127): header address, the clause's words as fetched, the index of the next
instruction, and the threads that take part. -/
structure Bundle where
  h : DWord
  words : List DWord
  ix : Nat
  chk : Bool
  rb : Bool
  mask : Lanes
  deriving DecidableEq, Repr

/-- A region-ending instruction that has issued and not performed (R34, R464), with the operand values it read at issue. -/
structure EndOp where
  instr : Instr
  iss : Nat                 -- the issue, shared by the slices of its bundle
  lanes : Lanes             -- active lanes
  mask : Lanes              -- the threads of its bundle
  site : DWord              -- address of its word
  next : DWord              -- the clause after it
  x : List DWord            -- operand values by lane
  y : List DWord
  z : List DWord
  st : List (Nat × Nat)     -- SLIN: statuses already settled, by lane
  since : Nat               -- 0, or one more than the cycle at which its wait began (R393)
  lim : Nat                 -- `SLTMO.T` when its wait began (R393)
  deriving DecidableEq, Repr

/-- How a region run ended: in a clause that sets RB, or with a region-ending instruction (R464). -/
inductive Ended where
  | clause
  | op (e : EndOp)
  deriving DecidableEq, Repr

/-- What an abort restores beyond the stores (R35): the value that each accumulator had before this run first changed it, and where
the slice's threads stood. -/
structure Undo where
  acc : Sparse Acc
  thr : List Thread         -- the slice's four threads
  deriving DecidableEq, Repr

/-- A decision of HITACC that waits for its commit (R336). -/
structure Decision where
  tag : Word
  dec : Nat
  t : Word
  deriving DecidableEq, Repr

/-- A reshade bit and residency request of a TEX that missed (R328): reshade word and bit, ring and its size, the request. -/
structure TexMiss where
  rshd : Option (Nat × Nat)
  rq : Option (Nat × Nat)
  desc : Nat
  tile : Nat
  site : DWord
  lanes : Lanes
  deriving DecidableEq, Repr

/-- An open or ending region run of one slice (R29, R464): what the manual calls a region instance. -/
structure Region where
  rid : Nat
  sl : Nat
  start : DWord
  stores : List BufW
  rd : List (Reg × Lanes)   -- read before any write (R32), in these lanes
  wr : List (Reg × Lanes)   -- written
  ended : Option Ended
  undo : Undo
  decisions : List Decision
  bdone : List Word         -- handles freed at commit (R333)
  tex : List TexMiss
  aqStart : Bool            -- holds an AQSTART that started the program (R254)
  aqStop : Bool             -- holds an AQSTOP (R256)
  deriving DecidableEq, Repr

/-- What a slice waits for after its commit (R127): a barrier, or its child grids. -/
inductive Wait where
  | bar (b : Nat) (site : DWord) (lanes : Lanes)    -- the instruction's address, and the threads that wait
  | nbar (b : Nat) (site : DWord) (lanes : Lanes)
  | wchild (id : Nat) (d : Opd) (lanes : Lanes)
  deriving DecidableEq, Repr

/-- A hold of a slice on a fault record (R215, R217): the record, in the queue of a partition, by address space and address, or none while no slot could be used,
with what is to be entered and `who`, the entering it stands for: one number for the slices that one entering holds. -/
structure Hold where
  sl : Nat
  who : Nat
  part : Nat                -- whose fault queue
  slot : Option (Nat × Nat)
  asid : Nat
  blk : Nat
  pages : DWord
  kinds : Nat
  deriving DecidableEq, Repr

/-- A variable-latency operation of a wave that has issued and not completed (R134), with what it read at issue. -/
structure Pend where
  id : Nat
  instr : Instr
  rids : List Nat           -- region runs that hold it
  lanes : Lanes
  ev : Option Nat           -- event counter it is counted on
  site : DWord
  dsts : List Reg
  clob : List (Reg × Lanes) -- destinations written meanwhile, and the lanes (R132)
  hold : Bool               -- the wave issues nothing until it completes
  x : List DWord
  y : List DWord
  z : List DWord
  fwd : List (Nat × Byte)   -- bytes taken from the own region run at issue (R33)
  sec : List Nat            -- sectors that it missed in L1 (R227)
  wr : List RegW            -- results already known
  flags : BitVec 8
  lfl : List (BitVec 8)     -- the flags by lane, where each lane has its own
  mask : Lanes              -- the threads of its bundle
  trap : Option (Nat × DWord)
  deriving DecidableEq, Repr

/-- A trap that waits to be taken (R402). -/
structure TrapReq where
  cause : Nat
  lanes : Lanes
  addr : DWord
  region : DWord
  after : Bool
  faddr : DWord
  late : Bool := false      -- found once a pre-emption had stopped issue
  deriving DecidableEq, Repr

/-- An MMA from its issue until the MWAIT that covers it has completed (R281): the lanes of its bank, the registers and bytes
that software must not touch, and whether it did. -/
structure MOpen where
  id : Nat
  rids : List Nat
  bank : Bool
  lanes : Lanes
  regs : List Reg
  rng : List (Space × Nat × Nat)
  covered : Bool
  spoilt : Lanes            -- lanes whose accumulators are undefined when it completes
  deriving DecidableEq, Repr

/-- One wave of a team (Tables 2.1, 2.2, 17.11). -/
structure Wave where
  ix : Nat
  slot : Nat
  v : Sparse Word           -- key 32 n + lane
  s : Sparse DWord
  p : Sparse Lanes
  lc : Sparse Word
  ev : Sparse Nat           -- e0 to e7, each at most 63 (R134)
  fmode : DWord
  fflags : DWord
  tcause : DWord
  taddr : DWord
  tregion : DWord
  thr : List Thread         -- 32 threads
  joining : Slices
  age : Sparse Nat          -- by slice (R128)
  loops : List Loop         -- bottom first
  loopMode : Bool
  snap : Option Snap
  young : Bool              -- marked by YIELD (R150)
  ready : Nat               -- cycle from which it may issue again (R57)
  sb : List (Reg × Lanes × Nat) -- fixed-latency results, the lanes written and the cycle they are ready (R131)
  bundle : Option Bundle
  regions : List Region
  waits : List (Nat × Wait)
  holds : List Hold
  pend : List Pend
  waitCnt : Option (BitVec 8 × Nat)  -- WAIT (R151)
  waitIds : List Nat        -- operations MWAIT waits for (R296)
  waitRids : List Nat       -- region runs MFENCE waits for (R295)
  handler : Bool            -- handler mode (R403)
  kept : List Hold          -- holds kept outside the frame during handler mode (R407)
  keptW : List (Nat × Wait) -- waits of the slices at trap entry, which `WAITS` marks (R409)
  keptOver : List Nat       -- slices of these whose barrier has completed meanwhile
  trapQ : Option TrapReq    -- pending trap (R402)
  mfence : Option Scope     -- scope of the last MFENCE (Table 14.1)
  mfAcq : Option Scope      -- scope of the acquire that an MFENCE has still to make (R295)
  acc : Sparse Acc          -- key 512 bank + 16 lane + column
  accBad : List Nat         -- accumulators poisoned by a core error, by the same key (R414)
  mopen : List MOpen
  relatch : Bool            -- the next MMA refills the latch (R278)
  bdescs : List (Nat × Option BDesc) -- what MLOADB, MZERO, TWALK and BVHSET have set, newest first, each with its run, 0 once committed (R35)
  walks : List (Nat × Walk)
  scenes : List (Nat × List Byte)
  saved : List Byte         -- bytes of the trap frame while a wave in handler mode is off its core (R413)
  deriving DecidableEq, Repr

/-- State of a pool record (Table 13.5). -/
inductive RecSt where
  | free | busy | cand | ready | failed
  deriving DecidableEq, Repr

/-- A hit of a ray (R320), with the address of its leaf. -/
structure Hit where
  leaf : Nat
  t : Word
  u : Word
  v : Word
  gid : Word
  pid : Word
  deriving DecidableEq, Repr

/-- A candidate of a ray (R322). -/
structure Cand where
  tag : Word
  ray : Nat
  hit : Hit
  proc : Bool
  pix : Word
  taken : Option Nat            -- region run that took it
  dec : Option (Nat × Word)     -- decision and t
  deriving DecidableEq, Repr

/-- One ray of a ray record or of an overflowed pixel sample (R320, R317). -/
structure Ray where
  lane : Nat
  ox : Word
  oy : Word
  oz : Word
  tmin : Word
  dx : Word
  dy : Word
  dz : Word
  tmax : Word
  bad : Bool
  pix : Word                    -- pixel of an overflow sample
  hit : Option Hit
  fin : Bool                    -- the ray has finished
  todo : List (Nat × Bool)      -- nodes and leaves (marked) still to be visited
  deriving DecidableEq, Repr

/-- A record of a beam pool (R307, R309). -/
structure PoolRec where
  gen : BitVec 16
  st : RecSt
  root : Nat                    -- root record of its tree; its own number for a root or a ray record
  isRay : Bool
  src : List Byte               -- the 256 B of a beam record
  scene : List Byte
  first : Bool
  sh : Bool
  rays : List Ray
  cands : List Cand
  frags : List (List Word)      -- fragments not yet taken, in delivery order
  taken : List (Nat × List Word) -- fragments taken by open region runs, by run
  cause : Nat
  cast : Nat                    -- the casting operation
  wave : Nat
  ev : Option Nat
  sys : Bool                    -- mode of the engine's reads
  kids : Option (List Nat)      -- records that the tree's splits took, once traversed
  holds : List Hold             -- page faults of the engine's reads (R323)
  seen : List (Nat × List Byte) -- nodes and leaves that the engine has read, newest first (R323)
  old : List Word               -- tags of candidates decided before (R323)
  bad : Bool                    -- a word of it is poisoned by a core error (R414)
  endless : Bool                -- its engine runs for ever on a scene that software has built with a cycle (R3)
  deriving DecidableEq, Repr

/-- One barrier (R372): its phase and the threads that have arrived, by key 32 team-in-gang + wave. -/
structure Bar where
  phase : Nat
  arrived : Sparse Lanes
  relDone : List Nat            -- NBAR: teams whose arrival release was made
  deriving DecidableEq, Repr

/-- An entry of an operand queue (R250 to R253): the words by lane, `none` marking a deferred lane, and who has popped it. -/
structure QEnt where
  id : Nat
  words : List (Option Word)
  addrs : List Nat
  popped : Bool
  bad : Lanes                   -- words poisoned by a core error (R414)
  rids : List Nat               -- open region runs that popped it
  redo : List (Nat × Nat)       -- (wave, slice) that will pop it again after an abort (R253)
  deriving DecidableEq, Repr

/-- The access program of a team (R250 to R256). -/
structure Aq where
  run : Bool
  it : Nat                      -- iterations pushed
  ns : Nat                      -- the stream that pushes next within the iteration
  base : List DWord             -- by stream
  q : List (List QEnt)          -- by queue
  deriving DecidableEq, Repr

/-- A stream table entry (Table 2.9). -/
structure Stream where
  sbase : Nat
  esz : Nat
  lstride : Int
  stride : List Int
  deriving DecidableEq, Repr

/-- A launder table entry (Table 2.8). -/
structure LaunderDecl where
  src : Nat
  dst : Nat
  slots : Nat
  size : Nat                    -- slot size in bytes
  deriving DecidableEq, Repr

/-- What a kernel object declares (Tables 2.4 to 2.9). -/
structure KObj where
  addr : Nat
  entry : DWord
  waves : Nat
  gw : Nat
  gh : Nat
  vregs : Nat
  sregs : Nat
  roles : List (Nat × Nat)
  launders : List LaunderDecl
  aloops : Nat
  trips : List Nat
  scratchK : Nat
  pool : Nat
  qdepth : Nat
  qmask : BitVec 8
  streams : List Stream
  deriving DecidableEq, Repr

/-- A team (R24, R26). -/
structure Team where
  tag : Nat
  gid : Nat
  pos : Nat                     -- Y (GW + 1) + X
  core : Nat
  part : Nat
  asid : Nat
  sys : Bool                    -- system mode (R403)
  pcap : DWord                  -- PCAP (Table 5.8)
  waves : List Wave
  scratch : Sparse Byte         -- bytes that have a value; any other is undefined (Table 2.2)
  scrPoison : Sparse Nat        -- poisoned words of scratch, with the cause a read raises
  regPoison : List (Nat × Reg × Nat)  -- register words poisoned by a core error: wave, register, lane (R414)
  pool : Sparse PoolRec
  bars : List Bar
  aq : Aq
  meter : Nat                   -- µJ since first placement (R431)
  base : Nat                    -- meter at this placement (R97)
  sramLo : Nat
  sramLen : Nat
  torn : Nat                    -- child grids retired as torn down (WCHILD)
  retired : Bool
  deriving DecidableEq, Repr

/-- A filled slot of a launder: its fill sequence number, its bytes, and the poisoned words among them with the cause a read
raises. -/
structure LSlot where
  seq : Word
  bytes : List Byte
  bad : List (Nat × Nat)
  deriving DecidableEq, Repr

/-- A launder of a placed gang (R376): filled slots, oldest first. -/
structure Launder where
  free : Nat
  fseq : Word
  slots : List LSlot
  deriving DecidableEq, Repr

/-- Where a gang is (R89, R101, R423). -/
inductive GangSt where
  | placed | leaving | returning | parked | ended
  deriving DecidableEq, Repr

/-- An entry of the group binding table (R119). -/
structure Bind where
  x : Nat
  y : Nat
  core : Nat
  coreid : Nat
  deriving DecidableEq, Repr

/-- A gang (R24). -/
structure Gang where
  gid : Nat
  grid : Nat
  x : Nat
  y : Nat
  z : Nat
  kobj : KObj
  binds : List Bind
  launders : List Launder
  nbars : List Bar
  st : GangSt
  order : Nat                   -- order of first placement (R89)
  placedAt : Nat
  waitPark : Bool
  deriving DecidableEq, Repr

/-- A launch record (Table 4.1). -/
structure LRec where
  obj : DWord
  args : DWord
  gx : Word
  gy : Word
  gz : Word
  ctl : Word
  est : Word
  node : Word
  succ : DWord
  seq : DWord
  rsvd : DWord
  deriving DecidableEq, Repr

/-- A grid (R24, R28). -/
structure Grid where
  id : Nat
  part : Nat
  queue : Nat                   -- 0xFF for none
  lrec : LRec
  parent : Option Nat           -- team tag of a child grid's launcher
  depth : Nat
  asid : Nat
  lat : Bool
  next : Nat                    -- gangs placed so far
  kobj : Option KObj            -- the placement reading (R42)
  torn : Bool
  cause : Nat
  energy : Nat
  pcap : DWord                  -- PCAP that its teams hold (R433)
  dead : Bool                   -- refused at placement (R100)
  fin : Bool                    -- retired
  deriving DecidableEq, Repr

/-- A record that a queue has read and whose node entry it still has to use (R85, R91): its index, its bytes, and the status that the
other tests give it. -/
structure Took where
  ix : Nat
  raw : List Byte
  st : Nat
  deriving DecidableEq, Repr

/-- A submission queue (R83), its ready list of nodes (R93) and the grid it is placing (R87). -/
structure Queue where
  cfg : DWord
  idx : DWord
  stat : DWord
  readyN : List (Nat × LRec)    -- the nodes, with their records
  took : Option Took
  cur : Option Nat
  held : Bool                   -- quiesced: its nodes, grids and gangs are not placed (R423)
  deriving DecidableEq, Repr

/-- A completion in progress (R94, R426). -/
structure Compl where
  lrec : LRec
  queue : Nat
  asid : Nat
  status : Nat
  cause : Nat
  cstat : Nat
  energy : Nat
  stage : Nat                   -- step of R94 reached
  deriving DecidableEq, Repr

/-- A shadow-window binding (R238), reserved before its commit or leaving (R242, R243). -/
structure Shadow where
  asid : Nat
  base : Nat
  target : Nat
  index : Nat
  count : Nat
  lesz : Nat
  resBy : Option Nat            -- region run that reserved it
  leaving : Option Nat          -- region run that frees it
  deriving DecidableEq, Repr

/-- A migration notification that waits for room (R220). -/
structure MigWait where
  va : Nat
  asid : Nat
  deriving DecidableEq, Repr

/-- The gang that stands first in a class and waits (R96, R117): one that returns, or the next of a grid. -/
inductive HeadId where
  | back (gid : Nat)
  | fresh (grid : Nat)
  deriving DecidableEq, Repr

/-- One partition (Table 5.1 and the registers of its queue page). -/
structure Part where
  pqmask : DWord
  pways : DWord
  pbws : DWord
  pmbase : DWord
  pmlim : DWord
  milv : DWord
  nbnd : DWord
  prsv : DWord
  prgn : DWord
  energy : DWord
  sltmo : DWord
  tvec : DWord
  tsave : DWord
  queues : List Queue
  gnbase : DWord
  gnlen : DWord
  fqcfg : DWord
  fqidx : DWord
  mqcfg : DWord
  mqidx : DWord
  acth : DWord
  slcfg : DWord
  slsnap : DWord
  eqcfg : DWord
  eqidx : DWord
  eqdrop : DWord
  cqcfg : DWord
  cqidx : DWord
  ivec : DWord
  eseq : DWord                  -- the number it gives next (R216)
  childQ : List Nat
  compl : List Compl
  shadows : List Shadow
  migWait : List MigWait
  slotErr : Bool                -- an unreachable fault slot has been reported (R217)
  rotBulk : Nat                 -- queue that its class served last, plus one (R89)
  rotLat : Nat
  headLat : List HeadId         -- the heads of each class that wait: at most one that returns, and one of a grid (R96, R117)
  headBulk : List HeadId
  blockedAt : Option Nat        -- cycle since which it is all-blocked (R394)
  snapped : Bool                -- and whether the detector has acted since
  agentHolds : List Hold        -- faults of device agents (R91, R386, R426)
  retryAt : Nat                 -- cycle of the last try of an unreachable fault slot (R217)
  slWild : Bool                 -- software has written the backing table of its keys (R386)
  slDef : List DWord            -- keys of the table that the device has written since
  wild : Bool                   -- a register of its layout was written while it had placed teams (R106)
  moved : Bool                  -- `PMBASE`, `PMLIM` or `MILV` has changed since the last resume (R459)
  deriving DecidableEq, Repr

/-- Attributes of a page that a filled line carries (R208). -/
structure Attr where
  w : Bool
  x : Bool
  sys : Bool
  home : BitVec 2
  nopf : Bool
  cnt : Bool
  deriving DecidableEq, Repr

/-- A cache: the L1 of a core, the core SRAM that a core leaves to pinned lines (R214), the cache of a cluster, a slice of the
stack cache (R16, R213). -/
inductive Cache where
  | l1 (core : Nat)
  | sram (core : Nat)
  | clus (k : Nat)
  | slice (i : Nat)
  deriving DecidableEq, Repr

/-- A line of a cache (R211): 256 B at virtual address `va` of `asid` as a partition names it, or tagged by its physical address
for HOME = 10; which words were read from the next level, which bytes were written, and which of those the next level has not
got yet (in a slice: none of them, until the line is evicted). -/
structure Line where
  loc : Cache
  asid : Nat
  va : Nat
  byPa : Bool
  part : Nat
  pa : Nat
  attr : Attr
  filled : BitVec 64            -- by word
  mask : BitVec 256             -- by byte (R211)
  dirty : BitVec 256
  und : BitVec 256              -- bytes whose value is undefined (R4)
  bad : BitVec 64               -- poisoned words (R226)
  data : Sparse Byte            -- by offset
  own : Sparse Nat              -- core registered as owner of a word, by word (R356)
  way : Nat
  stamp : Nat                   -- when it was last used
  ret : Nat                     -- retention (Table 9.5): 0 streaming, 1 normal, 2 keep
  tag : Nat                     -- team that a line pinned for a core belongs to (R214)
  deriving DecidableEq, Repr

/-- An entry of a controller's translation lookaside buffer (R9, R209): the page of an address and its frame. -/
structure TlbEnt where
  ctl : Nat
  asid : Nat
  va : Nat
  size : Nat
  frame : Nat
  attr : Attr
  deriving DecidableEq, Repr

/-- An update-only copy of a word (R359): the operation, its type and the combined operand. -/
structure UpdOnly where
  loc : Cache
  part : Nat
  asid : Nat
  va : Nat
  sys : Bool
  op : AtomOp
  ty : MTy
  x : DWord
  deriving DecidableEq, Repr

/-- A loop body that a pipe's loop buffer holds (R143): its words from START on, headers included. -/
structure LoopBuf where
  core : Nat
  pipe : Nat
  part : Nat
  asid : Nat
  start : Nat
  words : List DWord
  deriving DecidableEq, Repr

/-- A sector fill in flight or spilled (R223): the sector by virtual address, or by physical address for HOME = 10. -/
structure Miss where
  slice : Nat
  byPa : Bool
  key : Nat                     -- the address that names the sector
  asid : Nat
  va : Nat                      -- sector address
  part : Nat
  demand : Bool
  sys : Bool
  deriving DecidableEq, Repr

/-- What the controllers have found in this step and not yet acted on: an uncorrectable error in what an update meets (R370), by
unit and address; a sector fill for a demand access, to be counted (R218). -/
inductive Due where
  | memErr (unit pa : Nat)
  | fill (slice asid va part pa : Nat) (cnt : Bool)
  deriving DecidableEq, Repr

/-- A word of a core's constant cache (R234). -/
structure ConstW where
  core : Nat
  asid : Nat
  va : Nat
  x : Word
  deriving DecidableEq, Repr

/-- The B latch of a matrix array (Table 12.1): the descriptor it read, the codes and the list entries. -/
structure Latch where
  core : Nat
  pipe : Nat
  desc : BDesc
  codes : List Byte
  list : List Byte
  deriving DecidableEq, Repr

/-- A running tensor copy (R244 to R249). -/
structure Copy where
  id : Nat
  desc : Nat
  bytes : List Byte
  asid : Nat
  part : Nat
  sys : Bool
  tag : Option Nat              -- issuing team, none for a copy record
  wave : Nat
  ev : Option Nat
  pos : Nat                     -- runs done
  poisoned : Bool
  flags : BitVec 8
  fin : Option Nat              -- the status to be written, once the data part has ended
  grid : Option Nat             -- the grid entry of a copy record
  holds : List Hold
  deriving DecidableEq, Repr

/-- A key of a sluice section (R381, R385): in a slice's table, or spilled to the backing table. -/
structure KeyEnt where
  part : Nat
  key : DWord
  next : Word
  holder : Option (Nat × Nat × Nat)  -- team tag, wave, lane
  resBy : Option Nat                 -- region run whose reservation it is (R390)
  made : Option Nat                  -- region run that keeps an entry made for SLRST (R400)
  abandoned : Bool
  used : Nat                         -- when it was last used
  deriving DecidableEq, Repr

/-- An access counter (R218). -/
structure Counter where
  asid : Nat
  va : Nat                      -- 64 KiB page
  ctl : Nat                     -- controller
  n : Nat
  part : Nat
  used : Nat
  sent : Bool                   -- it has reached the threshold (R220)
  deriving DecidableEq, Repr

/-- What happens next when the agents' order is fixed from outside: a wave issues an instruction, or an event occurs. -/
inductive Pick where
  | issue (tag w : Nat)
  | event (i : Instr)
  deriving DecidableEq, Repr

/-- A range of physical addresses whose bytes are undefined, but for those stored to since (R106, R459). -/
structure Undef where
  lo : Nat
  hi : Nat
  written : List Nat            -- rising
  deriving DecidableEq, Repr

/-- A transfer on a peer link whose retries have failed (R444): its sector, the cycle of the step in which it takes place, and whether
it is a write. -/
structure LinkErr where
  pa : Nat
  at_ : Nat
  wr : Bool
  deriving DecidableEq, Repr

/-- The SFU of a core, held by a pipe until a cycle (R130). -/
structure SfuHold where
  core : Nat
  pipe : Nat
  till : Nat
  deriving DecidableEq, Repr

/-- The device. -/
structure State where
  mem : Memory                  -- by cell (State.cell)
  undef : List Undef            -- newest first
  poison : Sparse Bool          -- key: cell of the word / 4
  asidDir : DWord               -- ASIDV.DIR in place (Table 9.1)
  cycle : Nat
  sched : List Pick
  free : Nat
  cur : Option (Nat × Nat)
  nextId : Nat
  nextTag : Nat
  refillAt : Nat                -- cycle of the last refill of the energy accounts (R429)
  disabled : List Nat
  quartersOff : BitVec 4
  bootBad : BitVec 4            -- quarters whose image failed at a start that step 3 of the boot did not survive (R435)
  failed : List Nat
  dstat : DWord
  bootrec : List Nat            -- steps 1 to 6
  pcq : List DWord
  pca : List DWord
  msixMask : DWord
  msixPend : DWord
  msgs : List Nat               -- vectors of the messages sent, newest first
  schedHalt : BitVec 4
  rootHalt : Bool
  fwVer : List Nat              -- security version of each die: Q0 to Q3, base
  fwProto : List (BitVec 16 × BitVec 16) -- mailbox protocol range of each die, lowest and highest (R437)
  fwPrev : List Nat
  portUp : List Bool            -- Borbel ports
  crc : Nat                     -- errors in core storage that holds no state, counted (R414)
  hostRead : List Byte          -- data of the last host or peer read
  ats : List Nat                -- translations the host port caches
  parts : List Part
  teams : List Team
  gangs : List Gang
  grids : List Grid
  lines : List Line
  stamp : Nat                   -- rises at every use of a line
  tlb : List TlbEnt             -- newest first
  maps : List TlbEnt            -- the pages with HOME 00 or 01 that have been translated since RINV last covered them (R210)
  upds : List UpdOnly           -- in the order in which they were made
  loopBufs : List LoopBuf
  due : List Due                -- newest last
  ecc : Nat                     -- corrected memory errors counted (R226)
  coreEcc : Nat                 -- corrected errors of core storage counted (R414)
  linkErr : List LinkErr        -- of the step that follows
  sfuBusy : List SfuHold
  misses : List Miss
  spill : List Miss
  counters : List Counter
  consts : List ConstW
  latches : List Latch
  copies : List Copy
  keys : List KeyEnt
  deriving DecidableEq, Repr

/-- Why a step stops the machine. -/
inductive Fault where
  /-- Raised by every instruction when no wave is issuing: there is no thread to execute it. Safe: hardware never does it. -/
  | noIssuer
  deriving DecidableEq, Repr

/-- Why a step has no meaning. -/
inductive Refusal where
  /-- Raised by Dispatch for a row that has no meaning yet. Safe. -/
  | notModelled (mnemonic : String)
  /-- Raised by an event that cannot occur now, because what it names is not pending. Safe: the device never does it. -/
  | notEnabled (mnemonic : String)
  deriving DecidableEq, Repr

/-- A queue after reset: DISABLED, all registers 0 (Tables 4.4 to 4.6). -/
def Queue.reset : Queue := { cfg := 0, idx := 0, stat := 0, readyN := [], took := none, cur := none, held := false }

/-- Partition `p` after reset (R102, Tables 4.7, 4.13, 5.2 to 5.10, 16.3; every other register 0). (DESIGN CHOICE: entry 9.) -/
def Part.reset (p : Nat) : Part :=
  { pqmask := if p = 0 then 0xF else 0
    pways := if p = 0 then 0xFFFF else 0
    pbws := if p = 0 then 64 else 0
    pmbase := 0
    pmlim := if p = 0 then 0x10_0000_0000 else 0
    milv := if p = 0 then 0xFFFF else 0
    nbnd := if p = 0 then 0x10F else 0
    prsv := 0, prgn := 0, energy := 0, sltmo := 0x186A0, tvec := 0, tsave := 0
    queues := List.replicate 64 Queue.reset
    gnbase := 0, gnlen := 0, fqcfg := 0, fqidx := 0, mqcfg := 0, mqidx := 0, acth := 0, slcfg := 0, slsnap := 0
    eqcfg := 0, eqidx := 0, eqdrop := 0, cqcfg := 0, cqidx := 0, ivec := 0
    eseq := 1
    childQ := [], compl := [], shadows := [], migWait := [], slotErr := false, rotBulk := 0, rotLat := 0, headLat := [], headBulk := []
    blockedAt := none, snapped := false, agentHolds := [], retryAt := 0, slWild := false, slDef := [], wild := false, moved := false }

/-- The device right after reset, of a family member with no core disabled (R12). (DESIGN CHOICE: entry 9.) -/
def State.reset : State :=
  { mem := [], undef := [], poison := [], asidDir := 0, cycle := 0, sched := [], free := 0, cur := none, nextId := 1, nextTag := 1, refillAt := 0
    disabled := [], quartersOff := 0, bootBad := 0, failed := [], dstat := 0, bootrec := [0, 0, 0, 0, 0, 0]
    pcq := [0, 0, 0, 0], pca := [0, 0, 0, 0], msixMask := 0, msixPend := 0, msgs := [], schedHalt := 0, rootHalt := false
    fwVer := [0, 0, 0, 0, 0], fwProto := [(0, 0), (0, 0), (0, 0), (0, 0), (0, 0)], fwPrev := [0, 0, 0, 0, 0]
    portUp := [false, false], crc := 0, hostRead := [], ats := []
    parts := [Part.reset 0, Part.reset 1, Part.reset 2, Part.reset 3]
    teams := [], gangs := [], grids := [], lines := [], stamp := 0, tlb := [], maps := [], upds := [], loopBufs := [], due := [], ecc := 0, coreEcc := 0, linkErr := [], sfuBusy := [], misses := [], spill := [], counters := []
    consts := [], latches := [], copies := [], keys := [] }

end Sys2Proof.Machine
end

