-- ==== Sys2Proof/Machine/Mem.lean ====
section
/-! DEFINITION. Sys2Proof/Machine/Mem.lean: sparse data, memory and its canonical form, the interleave, home slices and
page-table walks (09_memory.md R204 to R208; 05_placement.md R110 to R122, R465). -/
namespace Sys2Proof.Machine

/-! ### Sparse data -/

/-- The value listed at a key. -/
def shas : Sparse α → Nat → Option α
  | [], _ => none
  | (k, x) :: r, n => if k = n then some x else shas r n

/-- The value at a key; an unlisted key reads as `d`. -/
def sget (d : α) (m : Sparse α) (n : Nat) : α := (shas m n).getD d

/-- Set a key of data that lists every written key, keeping keys rising. -/
def sput : Sparse α → Nat → α → Sparse α
  | [], n, x => [(n, x)]
  | (k, y) :: r, n, x =>
    if n < k then (n, x) :: (k, y) :: r
    else if n = k then (n, x) :: r
    else (k, y) :: sput r n x

/-- Set a key, keeping keys rising; writing `d` removes the entry. -/
def sset [DecidableEq α] (d : α) (m : Sparse α) (n : Nat) (x : α) : Sparse α :=
  if x = d then m.filter (fun e => e.1 ≠ n) else sput m n x

/-- The canonical form: keys strictly rising from `lo`, no entry equal to the default. -/
def swf [DecidableEq α] (d : α) : Nat → Sparse α → Bool
  | _, [] => true
  | lo, (k, x) :: r => lo ≤ k && x ≠ d && swf d (k + 1) r

/-! ### Memory by physical address -/

/-- What a byte that nothing has written reads as (DESIGN CHOICE, entry 1). -/
def unwritten : Byte := 0

/-- Memory is in canonical form. -/
def Memory.wf (m : Memory) : Bool := swf unwritten 0 m
/-- Read one byte of memory. (DESIGN CHOICE: entry 1.) -/
def Memory.read (m : Memory) (pa : Nat) : Byte := sget unwritten m pa
/-- Write one byte of memory, keeping the canonical form. -/
def Memory.write (m : Memory) (pa : Nat) (b : Byte) : Memory := sset unwritten m pa b

/-- Bits [lo + n - 1 : lo] of a number. -/
def bits (x lo n : Nat) : Nat := (x >>> lo) % 2 ^ n
/-- Bit `i` of a number. -/
def bit (x i : Nat) : Bool := x.testBit i

/-- Little-endian value of bytes (R1). -/
def ofBytes (l : List Byte) : Nat := l.foldr (fun b n => b.toNat + 256 * n) 0
/-- The `n` little-endian bytes of a value. -/
def toBytes : Nat → Nat → List Byte
  | 0, _ => []
  | n + 1, x => BitVec.ofNat 8 x :: toBytes n (x / 256)

def devLimit : Nat := 2 ^ 36
def hostLo : Nat := 2 ^ 42
def peerLo : Nat := 2 ^ 43
def physLimit : Nat := 2 ^ 44

/-- Is a physical address one of R205 (and R442 for peers)? (DESIGN CHOICE: entry 12.) -/
def physOk (pa : Nat) : Bool :=
  pa < devLimit || (hostLo ≤ pa && pa < peerLo) || (peerLo ≤ pa && pa < physLimit && !bit pa 42 && bits pa 36 5 == 0)

/-! ### Partitions -/

/-- A partition's registers. -/
def State.part (s : State) (p : Nat) : Part := s.parts.getD p (Part.reset 1)
/-- Change a partition. -/
def State.updPart (s : State) (p : Nat) (f : Part → Part) : State := { s with parts := s.parts.modify p f }
/-- A partition is active while PQMASK is nonzero (R102). -/
def State.active (s : State) (p : Nat) : Bool := (s.part p).pqmask ≠ 0

/-- Population count of the low `n` bits. -/
def popc (x n : Nat) : Nat := (List.range n).foldl (fun a i => if bit x i then a + 1 else a) 0
/-- Index of the (k+1)-th lowest set bit among the low `n` bits. -/
def nthSet (x n k : Nat) : Nat := ((List.range n).filter (bit x)).getD k 0

/-- The partition whose interleave maps a device physical address (R465): the lowest active one whose range holds it. -/
def State.rangeOf (s : State) (pa : Nat) : Option Nat :=
  (List.range 4).find? (fun p => s.active p && (s.part p).pmbase.toNat ≤ pa && pa < (s.part p).pmlim.toNat)

/-- Controller and local address of a device physical address (R110, R465). (DEDUCED: entry 25.) (DESIGN CHOICE: entry 18.) -/
def State.interleave (s : State) (pa : Nat) : Nat × Nat :=
  match s.rangeOf pa with
  | some p =>
    let m := (s.part p).milv.toNat
    let mask := bits m 0 16
    let gran := bits m 16 4
    let loff := bits m 24 16
    let n := max (popc mask 16) 1
    let off := pa - (s.part p).pmbase.toNat
    let g := off >>> (gran + 8)
    (nthSet mask 16 (g % n), loff * 65536 + (g / n) * 2 ^ (gran + 8) + off % 2 ^ (gran + 8))
  | none => ((pa >>> 8) % 16, (pa >>> 8) / 16 * 256 + pa % 256)

/-- The cell of memory that a physical address reaches (R110, R465), named by the address that the fixed device interleave
sends to it: two device addresses that reach one place of one controller reach one cell. Host and peer memory is named by its
address. (DESIGN CHOICE: entry 12.) (DESIGN CHOICE: entry 13.) (DEDUCED: entry 25.) -/
def State.cell (s : State) (pa : Nat) : Nat :=
  if pa < devLimit then
    let x := s.interleave pa
    (x.2 / 256 * 16 + x.1) * 256 + x.2 % 256
  else pa

/-! ### Memory of the device -/

/-- A free value for the byte at an address, another one at each step (R4). -/
def State.freeByte (s : State) (a : Nat) : Byte := (Config.freeWord s.free 970 a).setWidth 8
/-- Does the byte belong to an undefined range and has nothing stored to it since (R106, R459)? -/
def State.undefAt (s : State) (pa : Nat) : Bool := s.undef.any (fun u => u.lo ≤ pa && pa < u.hi && !u.written.contains pa)
/-- One byte of memory; a byte of an undefined range is a free value, which the next read may find changed (R4, R459). -/
def State.memAt (s : State) (pa : Nat) : Byte := if s.undefAt pa then s.freeByte pa else s.mem.read (s.cell pa)
/-- Insert into a rising list. -/
def insertAsc : List Nat → Nat → List Nat
  | [], n => [n]
  | k :: r, n => if n < k then n :: k :: r else if n = k then k :: r else k :: insertAsc r n
/-- Write one byte of memory. -/
def State.memPut (s : State) (pa : Nat) (b : Byte) : State :=
  { s with mem := s.mem.write (s.cell pa) b
           undef := s.undef.map (fun u => if u.lo ≤ pa ∧ pa < u.hi then { u with written := insertAsc u.written pa } else u) }
/-- The bytes of a range become undefined. (DEDUCED: entry 26.) -/
def State.memLose (s : State) (lo hi : Nat) : State :=
  if hi ≤ lo then s
  else { s with undef := { lo := lo, hi := hi, written := [] } :: s.undef }
/-- Is the word of a physical address poisoned in memory (R226)? -/
def State.cellBad (s : State) (pa : Nat) : Bool := sget false s.poison (s.cell pa / 4)
/-- Set or clear the poison of the word of a physical address. -/
def State.setCellBad (s : State) (pa : Nat) (x : Bool) : State := { s with poison := sset false s.poison (s.cell pa / 4) x }
/-- Bytes of memory, read directly (page-table walks, controllers). -/
def State.physRead (s : State) (pa : Nat) : Nat → List Byte
  | 0 => []
  | n + 1 => s.memAt pa :: s.physRead (pa + 1) n
/-- Bytes written directly. -/
def State.physWrite (s : State) (pa : Nat) : List Byte → State
  | [] => s
  | b :: r => (s.memPut pa b).physWrite (pa + 1) r

/-- XOR of the `n` fields of `w` bits of `x` from bit `lo`. -/
def foldX (x lo w n : Nat) : Nat := (List.range n).foldl (fun a j => a ^^^ bits x (lo + w * j) w) 0

/-- The slice numbers of a partition's home blocks, ascending (R112). -/
def homeSlices (homes : Nat) : List Nat :=
  (List.range 64).filter (fun sl => bit homes ((sl / 8 / 4) * 2 + (sl % 8) / 4))

/-- The home slice of a line by virtual address (R112). (DESIGN CHOICE: entry 18.) -/
def State.homeVa (s : State) (p asid va : Nat) : Nat :=
  let homes := bits (s.part p).nbnd.toNat 0 4
  let m := popc homes 4
  let v := va % 2 ^ 48
  let i := if m = 3 then (foldX v 8 12 4 ^^^ bits asid 0 12 ^^^ bits asid 12 4) % 48
           else (foldX v 8 6 7 ^^^ bits asid 0 6 ^^^ bits asid 6 6 ^^^ bits asid 12 4) % (16 * max m 1)
  (homeSlices homes).getD i 0
/-- The home slice of a hand-off line by physical address (R122). -/
def homePa (pa : Nat) : Nat := foldX (pa % 2 ^ 44) 8 6 6
/-- The home slice of a sluice key (R384). -/
def State.homeKey (s : State) (p : Nat) (k : DWord) : Nat :=
  let homes := bits (s.part p).nbnd.toNat 0 4
  let m := popc homes 4
  let i := if m = 3 then foldX k.toNat 0 12 6 % 48 else foldX k.toNat 0 6 11 % (16 * max m 1)
  (homeSlices homes).getD i 0

/-! ### Translation -/

/-- How an access uses a page (Table 9.3). -/
inductive Acs where
  | read | write | fetch
  deriving DecidableEq, Repr

/-- Outcome of a translation (Table 9.3). -/
inductive Xlat where
  | ok (pa : Nat) (a : Attr)
  | fault
  | prot
  deriving DecidableEq, Repr

/-- A page-table or directory entry, read from device memory directly (R208). -/
def State.entry (s : State) (pa : Nat) : Nat := ofBytes (s.physRead pa 8)

/-- The attributes of a leaf entry (Table 9.2). -/
def Attr.ofPte (e : Nat) : Attr :=
  { w := bit e 1, x := bit e 2, sys := bit e 3, home := BitVec.ofNat 2 (bits e 4 2), nopf := bit e 6, cnt := bit e 7 }

/-- The rows of Table 9.3 about the access. -/
def Attr.allows (a : Attr) (sys : Bool) (k : Acs) : Bool :=
  !(a.sys && !sys) && (match k with | .read => true | .write => a.w | .fetch => a.x)

/-- The rows of Table 9.3 about a leaf that maps `size` bytes at `frame`: the partition's range (R111) or the physical map. -/
def State.frameOk (s : State) (p frame size : Nat) (a : Attr) : Bool :=
  physOk frame && physOk (frame + size - 1) &&
    (!(frame < devLimit) || a.home == 2#2 ||
      ((s.part p).pmbase.toNat ≤ frame && frame + size ≤ (s.part p).pmlim.toNat))

/-- Where a walk ends (R207): at a leaf that maps `size` bytes at `frame`, at an entry with V = 0, or at a cause of protection. -/
inductive Walked where
  | leaf (frame size : Nat) (a : Attr)
  | fault
  | prot
  deriving DecidableEq, Repr

/-- What a leaf means for an access (Table 9.3). -/
def State.leaf (s : State) (p va : Nat) (sys : Bool) (k : Acs) : Walked → Xlat
  | .leaf frame size a => if s.frameOk p frame size a && a.allows sys k then .ok (frame + va % size) a else .prot
  | .fault => .fault
  | .prot => .prot

/-- The 16 entries of a 64 KiB page agree (R206): equal bits [10:0], consecutive frames from an aligned one. -/
def State.groupOk (s : State) (tab ix : Nat) : Bool :=
  let g := ix / 16 * 16
  let e0 := s.entry (tab + 8 * g)
  bits e0 12 4 == 0 &&
    (List.range 16).all (fun j =>
      let e := s.entry (tab + 8 * (g + j))
      bits e 0 11 == bits e0 0 11 && bits e 12 32 == bits e0 12 32 + j && bits e 44 20 == 0 && !bit e 11)

/-- The walk from level `4 - n` on (R206, R207): each entry is tested as soon as it is read. -/
def State.walkFrom (s : State) (va : Nat) : Nat → Nat → Walked
  | 0, _ => .prot
  | n + 1, tab =>
    let level := 4 - n
    let ix := bits va (39 - 9 * (level - 1)) 9
    let e := s.entry (tab + 8 * ix)
    let size := bits e 8 3
    let pfn := bits e 12 32
    if !bit e 0 then .fault
    else if bits e 44 20 ≠ 0 || bit e 11 || size > 2 then .prot
    else if level = 4 then
      if size = 0 then .leaf (pfn * 4096) 4096 (Attr.ofPte e)
      else if size = 1 then
        if s.groupOk tab ix then .leaf ((pfn - ix % 16) * 4096) 65536 (Attr.ofPte e) else .prot
      else .prot
    else if level = 3 ∧ size = 2 then
      if pfn % 512 = 0 then .leaf (pfn * 4096) 2097152 (Attr.ofPte e) else .prot
    else if size ≠ 0 || bits e 1 11 ≠ 0 then .prot
    else if pfn * 4096 + 4096 ≤ devLimit then s.walkFrom va n (pfn * 4096) else .prot

/-- The table walk of a virtual address (R204, R206, R207). -/
def State.walk (s : State) (asid va : Nat) : Walked :=
  let dir := s.asidDir.toNat
  if dir + 524288 > devLimit then .prot
  else
    let e := s.entry (dir + 8 * asid)
    if !bit e 0 || bits e 1 11 ≠ 0 || bits e 44 20 ≠ 0 then .prot
    else if bits e 12 32 * 4096 + 4096 ≤ devLimit then s.walkFrom va 4 (bits e 12 32 * 4096) else .prot

end Sys2Proof.Machine
end

