-- ==== Sys2Proof/Machine/Regs.lean ====
section
/-! DEFINITION. Sys2Proof/Machine/Regs.lean: which registers each instruction reads and writes, which operands it names, the
event counter it is counted on and the latency of its result (R45, R65, R67, R79, Table 6.1). -/
namespace Sys2Proof
open Machine (Reg)

/-- `n` consecutive vector registers. -/
def vregs (r n : Nat) : List Reg := (List.range n).map (fun i => .v (r + i))
/-- Registers that an operand occupies: `nv` vector or `ns` scalar registers (R67). -/
def Opd.regs (o : Opd) (nv ns : Nat) : List Reg :=
  match o with
  | .v r => vregs r.toNat nv
  | .s r => if ns = 2 then [.s r.toNat, .s (r.toNat + 1)] else [.s r.toNat]
  | .lc j => [.lc j.val]
  | _ => []
/-- Two registers if wide. -/
def n2 (w : Bool) : Nat := if w then 2 else 1
/-- Vector registers that data of a type occupies (Table 10.1). -/
def MTy.nv (t : MTy) : Nat := max 1 (t.size / 4)
/-- Scalar registers that data of a type occupies (R67). -/
def MTy.ns (t : MTy) : Nat := if t.size = 16 then 2 else 1
/-- Consecutive predicates; p127 is no register (R63). -/
def pregs (p : Pr) (n : Nat) : List Reg := ((List.range n).map (fun i => p.toNat + i)).filter (· ≠ 127) |>.map .p
/-- The registers of an optional predicate. -/
def popt : Option Pr → List Reg | some p => pregs p 1 | none => []

/-- Registers that an instruction reads, its guard aside. -/
def Instr.srcRegs : Instr → List Reg
  | .brx _ a => Opd.regs a 2 1
  | .ret _ a => Opd.regs a 2 1
  | .loop _ d _ => Opd.regs d 1 1
  | .iadd _ _ a b _ => Opd.regs a 1 1 ++ Opd.regs b 1 1
  | .isub _ _ a b _ => Opd.regs a 1 1 ++ Opd.regs b 1 1
  | .imul _ _ a b => Opd.regs a 1 1 ++ Opd.regs b 1 1
  | .imulh _ _ a b _ => Opd.regs a 1 1 ++ Opd.regs b 1 1
  | .imad _ _ a b c => Opd.regs a 1 1 ++ Opd.regs b 1 1 ++ Opd.regs c 1 1
  | .imin _ _ a b _ => Opd.regs a 1 1 ++ Opd.regs b 1 1
  | .imax _ _ a b _ => Opd.regs a 1 1 ++ Opd.regs b 1 1
  | .iabs _ _ a _ => Opd.regs a 1 1
  | .icmp _ _ a b _ _ => Opd.regs a 1 1 ++ Opd.regs b 1 1
  | .and _ _ a b => Opd.regs a 1 1 ++ Opd.regs b 1 1
  | .or _ _ a b => Opd.regs a 1 1 ++ Opd.regs b 1 1
  | .xor _ _ a b => Opd.regs a 1 1 ++ Opd.regs b 1 1
  | .andn _ _ a b => Opd.regs a 1 1 ++ Opd.regs b 1 1
  | .shl _ _ a b => Opd.regs a 1 1 ++ Opd.regs b 1 1
  | .shr _ _ a b => Opd.regs a 1 1 ++ Opd.regs b 1 1
  | .sar _ _ a b => Opd.regs a 1 1 ++ Opd.regs b 1 1
  | .rot _ _ a b _ => Opd.regs a 1 1 ++ Opd.regs b 1 1
  | .popc _ _ a => Opd.regs a 1 1
  | .clz _ _ a => Opd.regs a 1 1
  | .brev _ _ a => Opd.regs a 1 1
  | .bfe _ _ a b c _ => Opd.regs a 1 1 ++ Opd.regs b 1 1 ++ Opd.regs c 1 1
  | .bfi _ _ a b c => Opd.regs a 1 1 ++ Opd.regs b 1 1 ++ Opd.regs c 1 1
  | .lea _ _ a b _ w _ => Opd.regs a (n2 w) 1 ++ Opd.regs b 1 1
  | .iaddw _ _ a b wb => Opd.regs a 2 1 ++ Opd.regs b (n2 (wb == .b64)) 1
  | .iaddc _ _ a b c _ => Opd.regs a 1 1 ++ Opd.regs b 1 1 ++ pregs c 1
  | .sad _ _ a b c _ => Opd.regs a 1 1 ++ Opd.regs b 1 1 ++ Opd.regs c 1 1
  | .bsel _ _ a b c => Opd.regs a 1 1 ++ Opd.regs b 1 1 ++ Opd.regs c 1 1
  | .idot4 _ _ a b c _ _ _ => Opd.regs a 1 1 ++ Opd.regs b 1 1 ++ Opd.regs c 1 1
  | .fadd _ _ a b _ => Opd.regs a 1 1 ++ Opd.regs b 1 1
  | .fsub _ _ a b _ => Opd.regs a 1 1 ++ Opd.regs b 1 1
  | .fmul _ _ a b _ => Opd.regs a 1 1 ++ Opd.regs b 1 1
  | .ffma _ _ a b c _ => Opd.regs a 1 1 ++ Opd.regs b 1 1 ++ Opd.regs c 1 1
  | .fmin _ _ a b => Opd.regs a 1 1 ++ Opd.regs b 1 1
  | .fmax _ _ a b => Opd.regs a 1 1 ++ Opd.regs b 1 1
  | .fcmp _ _ a b _ => Opd.regs a 1 1 ++ Opd.regs b 1 1
  | .frnd _ _ a _ _ => Opd.regs a 1 1
  | .fclass _ _ a => Opd.regs a 1 1
  | .fscale _ _ a b _ => Opd.regs a 1 1 ++ Opd.regs b 1 1
  | .twosum _ _ a b => Opd.regs a 1 1 ++ Opd.regs b 1 1
  | .twoprod _ _ a b => Opd.regs a 1 1 ++ Opd.regs b 1 1
  | .faddp _ _ a b one => Opd.regs a 2 1 ++ Opd.regs b (n2 (!one)) 1
  | .pkadd _ _ a b _ _ => Opd.regs a 1 1 ++ Opd.regs b 1 1
  | .pkmul _ _ a b _ _ => Opd.regs a 1 1 ++ Opd.regs b 1 1
  | .pkfma _ _ a b c _ _ => Opd.regs a 1 1 ++ Opd.regs b 1 1 ++ Opd.regs c 1 1
  | .pkfmab _ _ a b c _ _ => Opd.regs a 1 1 ++ Opd.regs b 1 1 ++ Opd.regs c 1 1
  | .rcp _ _ a _ => Opd.regs a 1 1
  | .rsq _ _ a => Opd.regs a 1 1
  | .sqrt _ _ a _ => Opd.regs a 1 1
  | .exp2 _ _ a => Opd.regs a 1 1
  | .log2 _ _ a => Opd.regs a 1 1
  | .sin _ _ a => Opd.regs a 1 1
  | .cos _ _ a => Opd.regs a 1 1
  | .tanh _ _ a => Opd.regs a 1 1
  | .cvtif _ _ a _ ty => Opd.regs a (n2 ty.wide) 1
  | .cvtfi _ _ a _ _ => Opd.regs a 1 1
  | .cvtff _ _ a _ _ => Opd.regs a 1 1
  | .packh _ _ a b _ _ => Opd.regs a 1 1 ++ Opd.regs b 1 1
  | .unpkh _ _ a _ _ => Opd.regs a 1 1
  | .decn _ _ a b _ _ _ => Opd.regs a 1 1 ++ Opd.regs b 1 1
  | .mov _ _ a w => Opd.regs a (n2 w) 1
  | .sel _ _ a b c w => Opd.regs a (n2 w) 1 ++ Opd.regs b (n2 w) 1 ++ pregs c 1
  | .pand _ _ a b _ _ => pregs a 1 ++ pregs b 1
  | .por _ _ a b _ _ => pregs a 1 ++ pregs b 1
  | .pxor _ _ a b _ _ => pregs a 1 ++ pregs b 1
  | .pmov _ _ a => pregs a 1
  | .pmovNot _ _ a => pregs a 1
  | .pmovVal _ _ a => pregs a 1
  | .pmovNz _ _ a => Opd.regs a 1 1
  | .pset _ _ a _ => Opd.regs a 1 1
  | .psetPack _ _ a n1 => pregs a (n1.toNat + 1)
  | .smov _ _ a b _ => Opd.regs a 1 1 ++ Opd.regs b 1 1
  | .lxch _ _ a b _ _ _ => Opd.regs a 1 1 ++ Opd.regs b 1 1
  | .agree _ _ a _ _ => pregs a 1
  | .ballot _ _ a _ _ => pregs a 1
  | .wred _ _ a _ _ _ => Opd.regs a 1 1
  | .wscan _ _ a _ _ _ _ => Opd.regs a 1 1
  | .rebal _ _ a b => Opd.regs a 1 1 ++ Opd.regs b 1 1
  | .csamp _ _ a b => Opd.regs a 1 1 ++ Opd.regs b 1 1
  | .rand _ _ a b _ => Opd.regs a 1 1 ++ Opd.regs b 1 1
  | .ld _ _ a b _ _ _ _ => Opd.regs a 2 1 ++ Opd.regs b 1 1
  | .st _ d a b _ ty _ _ _ => Opd.regs d ty.nv ty.ns ++ Opd.regs a 2 1 ++ Opd.regs b 1 1
  | .lds _ _ a b _ _ _ _ => Opd.regs a 1 1 ++ Opd.regs b 1 1
  | .sts _ d a b _ ty _ _ _ => Opd.regs d ty.nv ty.ns ++ Opd.regs a 1 1 ++ Opd.regs b 1 1
  | .ldw _ _ a b _ _ _ _ => Opd.regs a 1 1 ++ Opd.regs b 1 1
  | .stw _ d a b ty _ _ _ => Opd.regs d ty.nv ty.ns ++ Opd.regs a 1 1 ++ Opd.regs b 1 1
  | .ldn _ _ a b _ _ _ _ => Opd.regs a 1 1 ++ Opd.regs b 1 1
  | .qst _ _ a b c _ _ _ => Opd.regs a 2 2 ++ Opd.regs b 1 1 ++ Opd.regs c 1 1
  | .pref _ a b _ => Opd.regs a 2 1 ++ Opd.regs b 1 1
  | .shbind _ _ a b _ => Opd.regs a 2 1 ++ Opd.regs b 2 1
  | .shfree _ _ a _ => Opd.regs a 2 1
  | .cpy _ a _ => Opd.regs a 2 1
  | .aqstopQry _ _ a _ => Opd.regs a 1 1
  | .ldc _ _ a b _ => Opd.regs a 2 1 ++ Opd.regs b 1 1
  | .atom _ _ a b _ ty _ _ => Opd.regs a 2 1 ++ Opd.regs b ty.nv ty.ns
  | .acas _ _ a b ty _ _ => Opd.regs a 2 1 ++ Opd.regs b (2 * ty.nv) 2
  | .red _ a b _ ty _ _ => Opd.regs a 2 1 ++ Opd.regs b ty.nv ty.ns
  | .bar _ a => Opd.regs a 1 1
  | .nbar _ a => Opd.regs a 1 1
  | .slin _ _ a b => Opd.regs a 2 1 ++ Opd.regs b 1 1
  | .slout _ _ a => Opd.regs a 2 1
  | .sloutLast _ _ a => Opd.regs a 2 1
  | .slqry _ _ a => Opd.regs a 2 1
  | .slrst _ _ a b => Opd.regs a 2 1 ++ Opd.regs b 1 1
  | .slrstDel _ _ a => Opd.regs a 2 1
  | .send _ _ a _ => Opd.regs a 1 1
  | .recv _ _ a _ => Opd.regs a 1 1
  | .mloadb _ a b _ _ _ => Opd.regs a 1 1 ++ Opd.regs b 1 1
  | .mma _ a b _ _ _ => Opd.regs a 1 1 ++ Opd.regs b 1 1
  | .had _ a b c _ _ _ => Opd.regs a 1 1 ++ Opd.regs b 1 1 ++ Opd.regs c 1 1
  | .twalk _ _ a b _ _ => Opd.regs a 1 1 ++ Opd.regs b 1 1
  | .beam _ _ a _ => Opd.regs a 1 1
  | .bfrag _ _ a _ => Opd.regs a 1 1
  | .bdone _ a => Opd.regs a 1 1
  | .rays _ _ a b _ _ _ => Opd.regs a 4 2 ++ Opd.regs b 4 2
  | .hitget _ _ a _ => Opd.regs a 1 1
  | .hitgetCand _ _ a _ => Opd.regs a 1 1
  | .hitacc _ a b c => Opd.regs a 1 1 ++ Opd.regs b 1 1 ++ Opd.regs c 1 1
  | .tex _ _ a b c _ _ => Opd.regs a 4 2 ++ Opd.regs b 4 2 ++ Opd.regs c 1 1
  | .texq _ _ a b c _ => Opd.regs a 4 2 ++ Opd.regs b 4 2 ++ Opd.regs c 1 1
  | .bvhset _ _ a _ => Opd.regs a 1 1
  | .launch _ _ a => Opd.regs a 2 1
  | .gsig _ _ a => Opd.regs a 1 1
  | .role _ _ a => Opd.regs a 1 1
  | .roleId _ _ a => Opd.regs a 1 1
  | .rolePos _ _ a => Opd.regs a 1 1
  | .csrw _ d _ => Opd.regs d 1 1
  | .csrwSet _ d _ => Opd.regs d 1 1
  | .csrwClr _ d _ => Opd.regs d 1 1
  | .rinv _ _ a _ => Opd.regs a 1 1
  | .rinvRange _ _ a b c _ => Opd.regs a 1 1 ++ Opd.regs b 1 1 ++ Opd.regs c 1 1
  | .qctlQ _ _ a _ => Opd.regs a 1 1
  | .qctlR _ _ a _ => Opd.regs a 1 1
  | .qctlQry _ _ a _ => Opd.regs a 1 1
  | _ => []

/-- Registers that an instruction writes. -/
def Instr.dstRegs : Instr → List Reg
  | .call _ d _ => Opd.regs d 2 1
  | .iadd _ d _ _ _ => Opd.regs d 1 1
  | .isub _ d _ _ _ => Opd.regs d 1 1
  | .imul _ d _ _ => Opd.regs d 1 1
  | .imulh _ d _ _ _ => Opd.regs d 1 1
  | .imad _ d _ _ _ => Opd.regs d 1 1
  | .imin _ d _ _ _ => Opd.regs d 1 1
  | .imax _ d _ _ _ => Opd.regs d 1 1
  | .iabs _ d _ _ => Opd.regs d 1 1
  | .icmp _ d _ _ _ _ => pregs d 1
  | .and _ d _ _ => Opd.regs d 1 1
  | .or _ d _ _ => Opd.regs d 1 1
  | .xor _ d _ _ => Opd.regs d 1 1
  | .andn _ d _ _ => Opd.regs d 1 1
  | .shl _ d _ _ => Opd.regs d 1 1
  | .shr _ d _ _ => Opd.regs d 1 1
  | .sar _ d _ _ => Opd.regs d 1 1
  | .rot _ d _ _ _ => Opd.regs d 1 1
  | .popc _ d _ => Opd.regs d 1 1
  | .clz _ d _ => Opd.regs d 1 1
  | .brev _ d _ => Opd.regs d 1 1
  | .bfe _ d _ _ _ _ => Opd.regs d 1 1
  | .bfi _ d _ _ _ => Opd.regs d 1 1
  | .lea _ d _ _ _ w _ => Opd.regs d (n2 w) 1
  | .iaddw _ d _ _ _ => Opd.regs d 2 1
  | .iaddc _ d _ _ c _ => Opd.regs d 1 1 ++ pregs c 1
  | .sad _ d _ _ _ _ => Opd.regs d 1 1
  | .bsel _ d _ _ _ => Opd.regs d 1 1
  | .idot4 _ d _ _ _ _ _ _ => Opd.regs d 1 1
  | .fadd _ d _ _ _ => Opd.regs d 1 1
  | .fsub _ d _ _ _ => Opd.regs d 1 1
  | .fmul _ d _ _ _ => Opd.regs d 1 1
  | .ffma _ d _ _ _ _ => Opd.regs d 1 1
  | .fmin _ d _ _ => Opd.regs d 1 1
  | .fmax _ d _ _ => Opd.regs d 1 1
  | .fcmp _ d _ _ _ => pregs d 1
  | .frnd _ d _ _ _ => Opd.regs d 1 1
  | .fclass _ d _ => Opd.regs d 1 1
  | .fscale _ d _ _ _ => Opd.regs d 1 1
  | .twosum _ d _ _ => Opd.regs d 2 1
  | .twoprod _ d _ _ => Opd.regs d 2 1
  | .faddp _ d _ _ _ => Opd.regs d 2 1
  | .pkadd _ d _ _ _ _ => Opd.regs d 1 1
  | .pkmul _ d _ _ _ _ => Opd.regs d 1 1
  | .pkfma _ d _ _ _ _ _ => Opd.regs d 1 1
  | .pkfmab _ d _ _ _ _ _ => Opd.regs d 1 1
  | .rcp _ d _ _ => Opd.regs d 1 1
  | .rsq _ d _ => Opd.regs d 1 1
  | .sqrt _ d _ _ => Opd.regs d 1 1
  | .exp2 _ d _ => Opd.regs d 1 1
  | .log2 _ d _ => Opd.regs d 1 1
  | .sin _ d _ => Opd.regs d 1 1
  | .cos _ d _ => Opd.regs d 1 1
  | .tanh _ d _ => Opd.regs d 1 1
  | .cvtif _ d _ _ _ => Opd.regs d 1 1
  | .cvtfi _ d _ _ ty => Opd.regs d (n2 ty.wide) 1
  | .cvtff _ d _ _ _ => Opd.regs d 1 1
  | .packh _ d _ _ _ _ => Opd.regs d 1 1
  | .unpkh _ d _ _ _ => Opd.regs d 1 1
  | .decn _ d _ _ _ _ _ => Opd.regs d 1 1
  | .mov _ d _ w => Opd.regs d (n2 w) 1
  | .movi _ d _ => Opd.regs d 1 1
  | .moviS _ d _ => Opd.regs d 1 1
  | .moviHi _ d _ => Opd.regs d 1 1
  | .sel _ d _ _ _ w => Opd.regs d (n2 w) 1
  | .pand _ d _ _ _ _ => pregs d 1
  | .por _ d _ _ _ _ => pregs d 1
  | .pxor _ d _ _ _ _ => pregs d 1
  | .pmov _ d _ => pregs d 1
  | .pmovNot _ d _ => pregs d 1
  | .pmovVal _ d _ => Opd.regs d 1 1
  | .pmovNz _ d _ => pregs d 1
  | .pset _ d _ n1 => pregs d (n1.toNat + 1)
  | .psetPack _ d _ _ => Opd.regs d 1 1
  | .smov _ d _ _ _ => Opd.regs d 1 1
  | .lxch _ d _ _ c _ _ => Opd.regs d 1 1 ++ popt c
  | .agree _ d _ _ _ => pregs d 1
  | .ballot _ d _ _ _ => Opd.regs d 1 1
  | .wred _ d _ _ _ _ => Opd.regs d 1 1
  | .wscan _ d _ _ _ _ _ => Opd.regs d 1 1
  | .rebal _ d _ _ => Opd.regs d 2 1
  | .csamp _ d _ _ => Opd.regs d 1 1
  | .rand _ d _ _ _ => Opd.regs d 1 1
  | .ld _ d _ _ ty _ _ _ => Opd.regs d ty.nv ty.ns
  | .lds _ d _ _ ty _ _ _ => Opd.regs d ty.nv ty.ns
  | .ldw _ d _ _ ty _ _ _ => Opd.regs d ty.nv ty.ns
  | .ldn _ d _ _ _ _ _ _ => Opd.regs d 1 1
  | .qst _ d _ _ _ _ _ _ => Opd.regs d 1 1
  | .shbind _ d _ _ _ => Opd.regs d 1 1
  | .shfree _ d _ _ => Opd.regs d 1 1
  | .aqstart _ d _ => Opd.regs d 1 1
  | .aqstop _ d _ => Opd.regs d 1 1
  | .aqstopQry _ d _ _ => Opd.regs d 1 1
  | .ldc _ d _ _ ty => Opd.regs d ty.nv ty.ns
  | .atom _ d _ _ _ ty _ _ => Opd.regs d ty.nv ty.ns
  | .acas _ d _ _ ty _ _ => Opd.regs d ty.nv ty.ns
  | .slin _ d _ _ => Opd.regs d 1 1
  | .slout _ d _ => Opd.regs d 1 1
  | .sloutLast _ d _ => Opd.regs d 1 1
  | .slqry _ d _ => Opd.regs d 2 1
  | .slrst _ d _ _ => Opd.regs d 1 1
  | .slrstDel _ d _ => Opd.regs d 1 1
  | .send _ d _ _ => Opd.regs d 1 1
  | .recv _ d _ _ => Opd.regs d 1 1
  | .mres _ d _ _ _ => Opd.regs d 4 2
  | .twalk _ d _ _ _ _ => Opd.regs d 1 1
  | .tnext _ d _ => Opd.regs d 1 1
  | .beam _ d _ _ => Opd.regs d 1 1
  | .bfrag _ d _ _ => Opd.regs d 12 2
  | .rays _ d _ _ _ _ _ => Opd.regs d 1 1
  | .hitget _ d _ _ => Opd.regs d 8 2
  | .hitgetCand _ d _ _ => Opd.regs d 8 2
  | .tex _ d _ _ _ _ _ => Opd.regs d 4 2
  | .texq _ d _ _ _ _ => Opd.regs d 4 2
  | .bvhset _ d _ _ => Opd.regs d 1 1
  | .launch _ d _ => Opd.regs d 1 1
  | .wchild _ d => Opd.regs d 1 1
  | .gsig _ d _ => Opd.regs d 1 1
  | .enrd _ d => Opd.regs d 2 1
  | .enrdBal _ d => Opd.regs d 2 1
  | .role _ d _ => Opd.regs d 1 1
  | .roleId _ d _ => Opd.regs d 1 1
  | .rolePos _ d _ => Opd.regs d 1 1
  | .roleCnt _ d => Opd.regs d 1 1
  | .csrr _ d _ => Opd.regs d 2 1
  | .rinv _ d _ _ => Opd.regs d 1 1
  | .rinvRange _ d _ _ _ _ => Opd.regs d 1 1
  | .qctlQ _ d _ _ => Opd.regs d 1 1
  | .qctlR _ d _ _ => Opd.regs d 1 1
  | .qctlQry _ d _ _ => Opd.regs d 1 1
  | _ => []

/-- Source operands of an instruction. -/
def Instr.srcOpds : Instr → List Opd
  | .brx _ a => [a]
  | .ret _ a => [a]
  | .iadd _ _ a b _ => [a, b]
  | .isub _ _ a b _ => [a, b]
  | .imul _ _ a b => [a, b]
  | .imulh _ _ a b _ => [a, b]
  | .imad _ _ a b c => [a, b, c]
  | .imin _ _ a b _ => [a, b]
  | .imax _ _ a b _ => [a, b]
  | .iabs _ _ a _ => [a]
  | .icmp _ _ a b _ _ => [a, b]
  | .and _ _ a b => [a, b]
  | .or _ _ a b => [a, b]
  | .xor _ _ a b => [a, b]
  | .andn _ _ a b => [a, b]
  | .shl _ _ a b => [a, b]
  | .shr _ _ a b => [a, b]
  | .sar _ _ a b => [a, b]
  | .rot _ _ a b _ => [a, b]
  | .popc _ _ a => [a]
  | .clz _ _ a => [a]
  | .brev _ _ a => [a]
  | .bfe _ _ a b c _ => [a, b, c]
  | .bfi _ _ a b c => [a, b, c]
  | .lea _ _ a b _ _ _ => [a, b]
  | .iaddw _ _ a b _ => [a, b]
  | .iaddc _ _ a b _ _ => [a, b]
  | .sad _ _ a b c _ => [a, b, c]
  | .bsel _ _ a b c => [a, b, c]
  | .idot4 _ _ a b c _ _ _ => [a, b, c]
  | .fadd _ _ a b _ => [a, b]
  | .fsub _ _ a b _ => [a, b]
  | .fmul _ _ a b _ => [a, b]
  | .ffma _ _ a b c _ => [a, b, c]
  | .fmin _ _ a b => [a, b]
  | .fmax _ _ a b => [a, b]
  | .fcmp _ _ a b _ => [a, b]
  | .frnd _ _ a _ _ => [a]
  | .fclass _ _ a => [a]
  | .fscale _ _ a b _ => [a, b]
  | .twosum _ _ a b => [a, b]
  | .twoprod _ _ a b => [a, b]
  | .faddp _ _ a b _ => [a, b]
  | .pkadd _ _ a b _ _ => [a, b]
  | .pkmul _ _ a b _ _ => [a, b]
  | .pkfma _ _ a b c _ _ => [a, b, c]
  | .pkfmab _ _ a b c _ _ => [a, b, c]
  | .rcp _ _ a _ => [a]
  | .rsq _ _ a => [a]
  | .sqrt _ _ a _ => [a]
  | .exp2 _ _ a => [a]
  | .log2 _ _ a => [a]
  | .sin _ _ a => [a]
  | .cos _ _ a => [a]
  | .tanh _ _ a => [a]
  | .cvtif _ _ a _ _ => [a]
  | .cvtfi _ _ a _ _ => [a]
  | .cvtff _ _ a _ _ => [a]
  | .packh _ _ a b _ _ => [a, b]
  | .unpkh _ _ a _ _ => [a]
  | .decn _ _ a b _ _ _ => [a, b]
  | .mov _ _ a _ => [a]
  | .sel _ _ a b _ _ => [a, b]
  | .pmovNz _ _ a => [a]
  | .pset _ _ a _ => [a]
  | .smov _ _ a b _ => [a, b]
  | .lxch _ _ a b _ _ _ => [a, b]
  | .wred _ _ a _ _ _ => [a]
  | .wscan _ _ a _ _ _ _ => [a]
  | .rebal _ _ a b => [a, b]
  | .csamp _ _ a b => [a, b]
  | .rand _ _ a b _ => [a, b]
  | .ld _ _ a b _ _ _ _ => [a, b]
  | .st _ d a b _ _ _ _ _ => [d, a, b]
  | .lds _ _ a b _ _ _ _ => [a, b]
  | .sts _ d a b _ _ _ _ _ => [d, a, b]
  | .ldw _ _ a b _ _ _ _ => [a, b]
  | .stw _ d a b _ _ _ _ => [d, a, b]
  | .ldn _ _ a b _ _ _ _ => [a, b]
  | .qst _ _ a b c _ _ _ => [a, b, c]
  | .pref _ a b _ => [a, b]
  | .shbind _ _ a b _ => [a, b]
  | .shfree _ _ a _ => [a]
  | .cpy _ a _ => [a]
  | .aqstopQry _ _ a _ => [a]
  | .ldc _ _ a b _ => [a, b]
  | .atom _ _ a b _ _ _ _ => [a, b]
  | .acas _ _ a b _ _ _ => [a, b]
  | .red _ a b _ _ _ _ => [a, b]
  | .bar _ a => [a]
  | .nbar _ a => [a]
  | .slin _ _ a b => [a, b]
  | .slout _ _ a => [a]
  | .sloutLast _ _ a => [a]
  | .slqry _ _ a => [a]
  | .slrst _ _ a b => [a, b]
  | .slrstDel _ _ a => [a]
  | .send _ _ a _ => [a]
  | .recv _ _ a _ => [a]
  | .mloadb _ a b _ _ _ => [a, b]
  | .mma _ a b _ _ _ => [a, b]
  | .had _ a b c _ _ _ => [a, b, c]
  | .twalk _ _ a b _ _ => [a, b]
  | .beam _ _ a _ => [a]
  | .bfrag _ _ a _ => [a]
  | .bdone _ a => [a]
  | .rays _ _ a b _ _ _ => [a, b]
  | .hitget _ _ a _ => [a]
  | .hitgetCand _ _ a _ => [a]
  | .hitacc _ a b c => [a, b, c]
  | .tex _ _ a b c _ _ => [a, b, c]
  | .texq _ _ a b c _ => [a, b, c]
  | .bvhset _ _ a _ => [a]
  | .launch _ _ a => [a]
  | .gsig _ _ a => [a]
  | .role _ _ a => [a]
  | .roleId _ _ a => [a]
  | .rolePos _ _ a => [a]
  | .csrw _ d _ => [d]
  | .csrwSet _ d _ => [d]
  | .csrwClr _ d _ => [d]
  | .rinv _ _ a _ => [a]
  | .rinvRange _ _ a b c _ => [a, b, c]
  | .qctlQ _ _ a _ => [a]
  | .qctlR _ _ a _ => [a]
  | .qctlQry _ _ a _ => [a]
  | _ => []

/-- The event counter an instruction is counted on (R61, Table 6.1). -/
def Instr.counted : Instr → Option Nat
  | .rcp _ _ _ _ => some 1
  | .rsq _ _ _ => some 1
  | .sqrt _ _ _ _ => some 1
  | .exp2 _ _ _ => some 1
  | .log2 _ _ _ => some 1
  | .sin _ _ _ => some 1
  | .cos _ _ _ => some 1
  | .tanh _ _ _ => some 1
  | .ld _ _ _ _ _ _ _ _ => some 0
  | .lds _ _ _ _ _ _ _ _ => some 0
  | .ldw _ _ _ _ _ _ _ _ => some 0
  | .ldn _ _ _ _ _ _ _ _ => some 0
  | .qst _ _ _ _ _ _ _ ev => ev.map BitVec.toNat
  | .shbind _ _ _ _ ev => ev.map BitVec.toNat
  | .shfree _ _ _ ev => ev.map BitVec.toNat
  | .cpy _ _ ev => ev.map BitVec.toNat
  | .aqstart _ _ ev => ev.map BitVec.toNat
  | .aqstop _ _ ev => ev.map BitVec.toNat
  | .aqstopQry _ _ _ ev => ev.map BitVec.toNat
  | .ldc _ _ _ _ _ => some 0
  | .mloadb _ _ _ _ _ ev => ev.map BitVec.toNat
  | .mma _ _ _ _ _ ev => ev.map BitVec.toNat
  | .mres _ _ _ _ ev => ev.map BitVec.toNat
  | .had _ _ _ _ _ _ ev => ev.map BitVec.toNat
  | .twalk _ _ _ _ _ ev => ev.map BitVec.toNat
  | .tnext _ _ ev => ev.map BitVec.toNat
  | .beam _ _ _ ev => ev.map BitVec.toNat
  | .bfrag _ _ _ ev => ev.map BitVec.toNat
  | .rays _ _ _ _ _ _ ev => ev.map BitVec.toNat
  | .hitget _ _ _ ev => ev.map BitVec.toNat
  | .hitgetCand _ _ _ ev => ev.map BitVec.toNat
  | .tex _ _ _ _ _ _ ev => ev.map BitVec.toNat
  | .texq _ _ _ _ _ ev => ev.map BitVec.toNat
  | .bvhset _ _ _ ev => ev.map BitVec.toNat
  | .rinv _ _ _ ev => ev.map BitVec.toNat
  | .rinvRange _ _ _ _ _ ev => ev.map BitVec.toNat
  | .qctlQ _ _ _ ev => ev.map BitVec.toNat
  | .qctlR _ _ _ ev => ev.map BitVec.toNat
  | .qctlQry _ _ _ ev => ev.map BitVec.toNat
  | _ => none

/-- Event counters that an instruction reads (R31, R151). -/
def Instr.evReads : Instr → List Reg
  | .wait _ _ m => ((List.range 8).filter (m.getLsbD ·)).map .e
  | _ => []
/-- Event counters that an instruction changes: the one it is counted on (R31, R134). -/
def Instr.evWrites (i : Instr) : List Reg := (i.counted.map Reg.e).toList
/-- Does an instruction act once per issue for its bundle, rather than once per lane (R66, R463)? -/
def Instr.actsOnce (i : Instr) : Bool :=
  i.dstRegs.any (fun r => match r with | .s _ => true | .lc _ => true | _ => false) ||
  match i with
  | .st _ _ _ _ sf _ _ _ _ => sf ≠ 0x10#5
  | .sts _ _ _ _ sf _ _ _ _ => sf ≠ 0x10#5
  | .qst _ _ _ _ _ _ _ _ | .shbind _ _ _ _ _ | .shfree _ _ _ _ | .cpy _ _ _ | .aqstart _ _ _ | .aqstop _ _ _ | .aqstopQry _ _ _ _ => true
  | .mloadb _ _ _ _ _ _ | .had _ _ _ _ _ _ _ | .twalk _ _ _ _ _ _ | .tnext _ _ _ | .beam _ _ _ _ | .bvhset _ _ _ _ => true
  | .launch _ _ _ | .gsig _ _ _ | .send _ _ _ _ | .recv _ _ _ _ | .csrw _ _ _ | .csrwSet _ _ _ | .csrwClr _ _ _ | .rinv _ _ _ _ | .rinvRange _ _ _ _ _ _ => true
  | .qctlQ _ _ _ _ | .qctlR _ _ _ _ | .qctlQry _ _ _ _ => true
  | _ => false

/-- Latency in cycles of a fixed-latency result (Table 6.1); 0 for every other instruction. -/
def Instr.latency : Instr → Nat
  | .call _ _ _ => 4
  | .iadd _ _ _ _ _ => 4
  | .isub _ _ _ _ _ => 4
  | .imul _ _ _ _ => 6
  | .imulh _ _ _ _ _ => 6
  | .imad _ _ _ _ _ => 6
  | .imin _ _ _ _ _ => 4
  | .imax _ _ _ _ _ => 4
  | .iabs _ _ _ _ => 4
  | .icmp _ _ _ _ _ _ => 4
  | .and _ _ _ _ => 4
  | .or _ _ _ _ => 4
  | .xor _ _ _ _ => 4
  | .andn _ _ _ _ => 4
  | .shl _ _ _ _ => 4
  | .shr _ _ _ _ => 4
  | .sar _ _ _ _ => 4
  | .rot _ _ _ _ _ => 4
  | .popc _ _ _ => 4
  | .clz _ _ _ => 4
  | .brev _ _ _ => 4
  | .bfe _ _ _ _ _ _ => 4
  | .bfi _ _ _ _ _ => 4
  | .lea _ _ _ _ _ _ _ => 4
  | .iaddw _ _ _ _ _ => 4
  | .iaddc _ _ _ _ _ _ => 4
  | .sad _ _ _ _ _ _ => 4
  | .bsel _ _ _ _ _ => 4
  | .idot4 _ _ _ _ _ _ _ _ => 6
  | .fadd _ _ _ _ _ => 4
  | .fsub _ _ _ _ _ => 4
  | .fmul _ _ _ _ _ => 4
  | .ffma _ _ _ _ _ _ => 4
  | .fmin _ _ _ _ => 4
  | .fmax _ _ _ _ => 4
  | .fcmp _ _ _ _ _ => 4
  | .frnd _ _ _ _ _ => 4
  | .fclass _ _ _ => 4
  | .fscale _ _ _ _ _ => 4
  | .twosum _ _ _ _ => 6
  | .twoprod _ _ _ _ => 6
  | .faddp _ _ _ _ _ => 6
  | .pkadd _ _ _ _ _ _ => 4
  | .pkmul _ _ _ _ _ _ => 4
  | .pkfma _ _ _ _ _ _ _ => 4
  | .pkfmab _ _ _ _ _ _ _ => 4
  | .cvtif _ _ _ _ _ => 4
  | .cvtfi _ _ _ _ _ => 4
  | .cvtff _ _ _ _ _ => 4
  | .packh _ _ _ _ _ _ => 4
  | .unpkh _ _ _ _ _ => 4
  | .decn _ _ _ _ _ _ _ => 8
  | .mov _ _ _ _ => 4
  | .movi _ _ _ => 4
  | .moviS _ _ _ => 4
  | .moviHi _ _ _ => 4
  | .sel _ _ _ _ _ _ => 4
  | .pand _ _ _ _ _ _ => 2
  | .por _ _ _ _ _ _ => 2
  | .pxor _ _ _ _ _ _ => 2
  | .pmov _ _ _ => 2
  | .pmovNot _ _ _ => 2
  | .pmovVal _ _ _ => 2
  | .pmovNz _ _ _ => 2
  | .pset _ _ _ _ => 2
  | .psetPack _ _ _ _ => 2
  | .smov _ _ _ _ _ => 4
  | .lxch _ _ _ _ _ _ _ => 8
  | .agree _ _ _ _ _ => 8
  | .ballot _ _ _ _ _ => 8
  | .wred _ _ _ _ _ _ => 8
  | .wscan _ _ _ _ _ _ _ => 8
  | .rebal _ _ _ _ => 8
  | .csamp _ _ _ _ => 8
  | .rand _ _ _ _ _ => 8
  | .enrd _ _ => 12
  | .enrdBal _ _ => 12
  | .role _ _ _ => 4
  | .roleId _ _ _ => 4
  | .rolePos _ _ _ => 4
  | .roleCnt _ _ => 4
  | .csrr _ _ _ => 12
  | _ => 0

/-- Instructions that a handler must not issue (R408): clause ENG 2 or 3, AQSTART and AQSTOP. -/
def Instr.barredInHandler : Instr → Bool
  | .aqstart _ _ _ => true
  | .aqstop _ _ _ => true
  | .aqstopQry _ _ _ _ => true
  | .mloadb _ _ _ _ _ _ => true
  | .mma _ _ _ _ _ _ => true
  | .mres _ _ _ _ _ => true
  | .mfence _ _ => true
  | .mwait _ => true
  | .had _ _ _ _ _ _ _ => true
  | .twalk _ _ _ _ _ _ => true
  | .tnext _ _ _ => true
  | .mzero _ _ _ => true
  | .beam _ _ _ _ => true
  | .bfrag _ _ _ _ => true
  | .bdone _ _ => true
  | .rays _ _ _ _ _ _ _ => true
  | .hitget _ _ _ _ => true
  | .hitgetCand _ _ _ _ => true
  | .hitacc _ _ _ _ => true
  | .tex _ _ _ _ _ _ _ => true
  | .texq _ _ _ _ _ _ => true
  | .bvhset _ _ _ _ => true
  | _ => false

/-- Region-ending instructions (Table 2.3). -/
def Instr.endsRegion : Instr → Bool
  | .exit _ => true
  | .yield _ => true
  | .cpy _ _ _ => true
  | .atom _ _ _ _ _ _ _ _ => true
  | .acas _ _ _ _ _ _ _ => true
  | .red _ _ _ _ _ _ _ => true
  | .fence _ _ _ => true
  | .bar _ _ => true
  | .nbar _ _ => true
  | .slin _ _ _ _ => true
  | .slout _ _ _ => true
  | .sloutLast _ _ _ => true
  | .slqry _ _ _ => true
  | .slrst _ _ _ _ => true
  | .slrstDel _ _ _ => true
  | .send _ _ _ _ => true
  | .recv _ _ _ _ => true
  | .beam _ _ _ _ => true
  | .rays _ _ _ _ _ _ _ => true
  | .launch _ _ _ => true
  | .wchild _ _ => true
  | .gsig _ _ _ => true
  | .trap _ _ => true
  | _ => false

/-- Instructions that require system mode, CSRW aside (R403). -/
def Instr.privileged : Instr → Bool
  | .rte _ => true
  | .rinv _ _ _ _ => true
  | .rinvRange _ _ _ _ _ _ => true
  | .qctlQ _ _ _ _ => true
  | .qctlR _ _ _ _ => true
  | .qctlQry _ _ _ _ => true
  | _ => false

end Sys2Proof
end

