-- ==== Sys2Proof/Machine/Flags.lean ====
section
/-! DEFINITION. Sys2Proof/Machine/Flags.lean: floating-point values, the one rounding of every result, and the flags it
raises (07_arithmetic.md R160 to R168, R178 to R189). A value is a NaN, an infinity or an exact dyadic number. -/
namespace Sys2Proof.Machine

/-- `FFLAGS` bits (Table 7.2). -/
def fNX : BitVec 8 := 1
def fUF : BitVec 8 := 2
def fOF : BitVec 8 := 4
def fDZ : BitVec 8 := 8
def fNV : BitVec 8 := 16
def fQCL : BitVec 8 := 32
def fMFZ : BitVec 8 := 64
def fMSAT : BitVec 8 := 128

/-- A binary format: exponent bits and fraction bits. -/
structure Fmt where
  eb : Nat
  mb : Nat
  deriving DecidableEq, Repr

def fp32 : Fmt := { eb := 8, mb := 23 }
def fp16 : Fmt := { eb := 5, mb := 10 }
def bf16 : Fmt := { eb := 8, mb := 7 }
/-- Exponent bias. -/
def Fmt.bias (f : Fmt) : Nat := 2 ^ (f.eb - 1) - 1
/-- Exponent of the least significant bit of a subnormal. -/
def Fmt.qmin (f : Fmt) : Int := 1 - (f.bias : Int) - f.mb
/-- Exponent field of ∞ and NaN. -/
def Fmt.emax (f : Fmt) : Nat := 2 ^ f.eb - 1

/-- A floating-point value; `fin s m e` is (−1)^s · m · 2^e. -/
inductive Num where
  | nan (signalling : Bool)
  | inf (s : Bool)
  | fin (s : Bool) (m : Nat) (e : Int)
  deriving DecidableEq, Repr

/-- A result: its bits and the flags it raises. -/
structure FR where
  x : Nat
  fl : BitVec 8
  deriving DecidableEq, Repr

/-- The value of the bits of a format (R164). -/
def Num.of (f : Fmt) (x : Nat) : Num :=
  let s := bit x (f.eb + f.mb)
  let e := bits x f.mb f.eb
  let m := bits x 0 f.mb
  if e = f.emax then (if m = 0 then .inf s else .nan (!bit m (f.mb - 1)))
  else if e = 0 then .fin s m f.qmin
  else .fin s (m + 2 ^ f.mb) (f.qmin + (e - 1 : Nat))

/-- Put a sign on magnitude bits. -/
def Fmt.sign (f : Fmt) (s : Bool) (x : Nat) : Nat := if s then x + 2 ^ (f.eb + f.mb) else x
def Fmt.infBits (f : Fmt) (s : Bool) : Nat := f.sign s (f.emax * 2 ^ f.mb)
/-- The canonical NaN of a format (R165). -/
def Fmt.nanBits (f : Fmt) : Nat := f.emax * 2 ^ f.mb + 2 ^ (f.mb - 1)
def Fmt.zeroBits (f : Fmt) (s : Bool) : Nat := f.sign s 0

/-- Number of significant bits. -/
def bitLen (m : Nat) : Nat := if m = 0 then 0 else m.log2 + 1

/-- Round m · 2^e, plus something below its last bit if `st`, to a multiple of 2^q in mode `rm` (0 nearest even, 1 toward
zero, 2 toward −∞, 3 toward +∞): the multiple, and whether it is inexact. -/
def roundAt (rm : Nat) (s : Bool) (m : Nat) (e : Int) (st : Bool) (q : Int) : Nat × Bool :=
  if q ≤ e then (m * 2 ^ (e - q).toNat, st)
  else
    let sh := (q - e).toNat
    let keep := m / 2 ^ sh
    let rem := m % 2 ^ sh
    let half := 2 ^ (sh - 1)
    let inex := rem ≠ 0 || st
    let up := match rm with
      | 0 => half < rem || (rem = half && (st || keep % 2 = 1))
      | 1 => false
      | 2 => s && inex
      | _ => !s && inex
    (if up then keep + 1 else keep, inex)

/-- The magnitude code of an exact value rounded to a format, as if it had no largest exponent; whether it is inexact; and
whether it is tiny after rounding (R164). -/
def roundMag (f : Fmt) (rm : Nat) (s : Bool) (m : Nat) (e : Int) (st : Bool) : Nat × Bool × Bool :=
  let p := f.mb + 1
  let q0 := e + bitLen m - p
  let q := max q0 f.qmin
  let r := roundAt rm s m e st q
  let k := r.1
  let top := if (roundAt rm s m e st q0).1 = 2 ^ p then q0 + p else q0 + p - 1
  let k' := if k = 2 ^ p then 2 ^ (p - 1) else k
  let q' := if k = 2 ^ p then q + 1 else q
  ((q' - f.qmin).toNat * 2 ^ f.mb + k', r.2, top < f.qmin + f.mb)

/-- Round an exact value once to a format, with the overflow result of the mode, tininess after rounding, and the flags
OF, UF and NX (R164). -/
def roundTo (f : Fmt) (rm : Nat) (s : Bool) (m : Nat) (e : Int) (st : Bool := false) : FR :=
  if m = 0 && !st then { x := f.zeroBits s, fl := 0 }
  else
    let r := roundMag f rm s m e st
    if f.emax * 2 ^ f.mb ≤ r.1 then
      let toInf := match rm with | 0 => true | 1 => false | 2 => s | _ => !s
      { x := if toInf then f.infBits s else f.sign s (f.emax * 2 ^ f.mb - 1), fl := fOF ||| fNX }
    else { x := f.sign s r.1, fl := (if r.2.1 then fNX else 0) ||| (if r.2.2 && r.2.1 then fUF else 0) }

/-- Round a value; a NaN is the canonical NaN (R165). -/
def Num.round (f : Fmt) (rm : Nat) : Num → FR
  | .nan _ => { x := f.nanBits, fl := 0 }
  | .inf s => { x := f.infBits s, fl := 0 }
  | .fin s m e => roundTo f rm s m e

def Num.neg : Num → Num
  | .nan g => .nan g
  | .inf s => .inf (!s)
  | .fin s m e => .fin (!s) m e
def Num.isNan : Num → Bool | .nan _ => true | _ => false
def Num.isSnan : Num → Bool | .nan g => g | _ => false
def Num.isInf : Num → Bool | .inf _ => true | _ => false
def Num.sgn : Num → Bool | .nan _ => false | .inf s => s | .fin s _ _ => s
def Num.isZero : Num → Bool | .fin _ m _ => m == 0 | _ => false

/-- Signed integer m · 2^(e − q) for q ≤ e. -/
def scaled (s : Bool) (m : Nat) (e q : Int) : Int :=
  let x : Int := ((m * 2 ^ (e - q).toNat : Nat) : Int)
  if s then -x else x

/-- Exact sum; the sign of an exact zero sum follows the mode (R164). A NaN marked signalling stands for NV. -/
def Num.add (rm : Nat) (a b : Num) : Num :=
  match a, b with
  | .nan g, .nan h => .nan (g || h)
  | .nan g, _ => .nan g
  | _, .nan h => .nan h
  | .inf s, .inf t => if s = t then .inf s else .nan true
  | .inf s, _ => .inf s
  | _, .inf t => .inf t
  | .fin s m e, .fin t n d =>
    let q := min e d
    let x := scaled s m e q + scaled t n d q
    if x = 0 then .fin (if m = 0 ∧ n = 0 ∧ s = t then s else rm = 2) 0 q
    else .fin (x < 0) x.natAbs q

/-- Exact product (R164); ∞ × 0 is invalid. -/
def Num.mul (a b : Num) : Num :=
  match a, b with
  | .nan g, .nan h => .nan (g || h)
  | .nan g, _ => .nan g
  | _, .nan h => .nan h
  | .inf s, .inf t => .inf (s != t)
  | .inf s, .fin t n _ => if n = 0 then .nan true else .inf (s != t)
  | .fin s m _, .inf t => if m = 0 then .nan true else .inf (s != t)
  | .fin s m e, .fin t n d => .fin (s != t) (m * n) (e + d)

/-- NV of an operation: a signalling operand, or a NaN marked signalling by the operation itself. -/
def nvOf (l : List Num) : BitVec 8 := if l.any Num.isSnan then fNV else 0

/-- Round the exact result `r`; NV if `r` is marked (R164, R165). -/
def finish (f : Fmt) (rm : Nat) (r : Num) : FR :=
  let y := r.round f rm
  { x := y.x, fl := y.fl ||| nvOf [r] }

/-- a + b, rounded once. -/
def fAdd (f : Fmt) (rm : Nat) (a b : Num) : FR := finish f rm (a.add rm b)
/-- a × b, rounded once. -/
def fMul (f : Fmt) (rm : Nat) (a b : Num) : FR := finish f rm (a.mul b)
/-- a × b + c, rounded once; ∞ × 0 raises NV even with a quiet NaN addend (R165). -/
def fFma (f : Fmt) (rm : Nat) (a b c : Num) : FR := finish f rm ((a.mul b).add rm c)
/-- a × 2^n (R178). -/
def fScale (f : Fmt) (rm : Nat) (a : Num) (n : Int) : FR :=
  match a with
  | .fin s m e => finish f rm (.fin s m (e + n))
  | x => finish f rm x

/-- Order of two values that are not NaNs: −1, 0 or 1, zeros equal. -/
def Num.cmp (a b : Num) : Int :=
  match a, b with
  | .inf s, .inf t => if s = t then 0 else if s then -1 else 1
  | .inf s, _ => if s then -1 else 1
  | _, .inf t => if t then 1 else -1
  | .fin s m e, .fin t n d =>
    let q := min e d
    let x := scaled s m e q
    let y := scaled t n d q
    if x < y then -1 else if x = y then 0 else 1
  | _, _ => 0

/-- minimumNumber (`mx` false) or maximumNumber on the bits of a format (R179), with −0 < +0. -/
def fMinMax (f : Fmt) (mx : Bool) (x y : Nat) : FR :=
  let a := Num.of f x
  let b := Num.of f y
  let less := if a.cmp b = 0 then a.sgn && !b.sgn else a.cmp b < 0
  let r := if a.isNan && b.isNan then f.nanBits
    else if a.isNan then y
    else if b.isNan then x
    else if mx then (if less then y else x) else (if less then x else if a.cmp b = 0 ∧ a.sgn = b.sgn then x else y)
  { x := r, fl := nvOf [a, b] }

/-- FCMP (Table 7.6): the truth of the condition and NV. -/
def fCmp (cc : FCond) (a b : Num) : Bool × BitVec 8 :=
  let un := a.isNan || b.isNan
  let c := a.cmp b
  match cc with
  | .eq => (!un && c == 0, nvOf [a, b])
  | .ne => (un || c != 0, nvOf [a, b])
  | .lt => (!un && c < 0, if un then fNV else 0)
  | .le => (!un && c ≤ 0, if un then fNV else 0)
  | .gt => (!un && c > 0, if un then fNV else 0)
  | .ge => (!un && c ≥ 0, if un then fNV else 0)
  | .un => (un, nvOf [a, b])
  | .ord => (!un, nvOf [a, b])

/-- A value rounded to an integer: magnitude and whether it is inexact. -/
def toIntMag (rm : Nat) (s : Bool) (m : Nat) (e : Int) : Nat × Bool := roundAt rm s m e false 0

/-- FRND (R181): integral value with the sign of a; NX only if asked for. -/
def fRnd (f : Fmt) (rm : Nat) (x : Bool) (a : Num) : FR :=
  match a with
  | .fin s m e =>
    let (k, inex) := toIntMag rm s m e
    { x := (roundTo f 0 s k 0).x, fl := if x && inex then fNX else 0 }
  | y => finish f rm y

/-- FCLASS (R182). -/
def fClass (f : Fmt) (x : Nat) : Nat :=
  match Num.of f x with
  | .nan g => if g then 2 ^ 8 else 2 ^ 9
  | .inf s => if s then 1 else 2 ^ 7
  | .fin s m _ =>
    if m = 0 then (if s then 2 ^ 3 else 2 ^ 4)
    else if bits x f.mb f.eb = 0 then (if s then 2 ^ 2 else 2 ^ 5)
    else (if s then 2 else 2 ^ 6)

/-- The word of a result. -/
def FR.word (r : FR) : Word := BitVec.ofNat 32 r.x
/-- FP32 value of a word. -/
def f32 (x : Word) : Num := Num.of fp32 x.toNat
/-- FP16 or BF16 value of a half word. -/
def fH (bf : Bool) (x : Nat) : Num := Num.of (if bf then bf16 else fp16) x
/-- The exact FP32 value of a constant k (R64). -/
def kFloat (k : Nat) : Word := (roundTo fp32 0 false k 0).word

/-- The tail of every error-free transform: an infinite hi has lo +0, a NaN hi a canonical lo (R183). -/
def efTail (hi : FR) (lo : FR) : Word × Word :=
  match f32 hi.word with
  | .nan _ => (BitVec.ofNat 32 fp32.nanBits, BitVec.ofNat 32 fp32.nanBits)
  | .inf _ => (hi.word, 0)
  | .fin _ _ _ => (hi.word, lo.word)

/-- TWOSUM and TWOPROD of the exact result `r`: hi, lo and the flags (R183, R184). -/
def errFree (r : Num) : (Word × Word) × BitVec 8 :=
  let hi := finish fp32 0 r
  let lo := finish fp32 0 (r.add 0 (f32 hi.word).neg)
  let fl := match f32 hi.word with
    | .fin _ _ _ => hi.fl ||| (if lo.fl &&& fNX = 0 then 0 else fUF ||| fNX)
    | _ => hi.fl
  (efTail hi lo, fl)

/-- FADDP on pairs (R183, R184); no NX where the exact sum is not finite. (DEDUCED: entry 33.) -/
def faddPair (ah al bh bl : Word) : (Word × Word) × BitVec 8 :=
  let r := (f32 ah).add 0 (f32 bh)
  let s := finish fp32 0 r
  let e := finish fp32 0 (r.add 0 (f32 s.word).neg)
  let t := fAdd fp32 0 (f32 al) (f32 bl)
  let e2 := fAdd fp32 0 (f32 e.word) (f32 t.word)
  let r2 := (f32 s.word).add 0 (f32 e2.word)
  let hi := finish fp32 0 r2
  let lo := finish fp32 0 (r2.add 0 (f32 hi.word).neg)
  let p := efTail hi lo
  let exact := ((r.add 0 (f32 al)).add 0 (f32 bl))
  let got := (f32 p.1).add 0 (f32 p.2)
  let nx : Bool := match exact, got with
    | .fin _ _ _, .fin _ _ _ => exact.cmp got != 0
    | .fin _ _ _, _ => true
    | _, _ => false
  let nv := nvOf [f32 ah, f32 al, f32 bh, f32 bl] ||| ((s.fl ||| hi.fl) &&& fNV)
  let uf := (s.fl ||| e.fl ||| t.fl ||| e2.fl ||| hi.fl ||| lo.fl) &&& fUF
  (p, ((s.fl ||| hi.fl) &&& fOF) ||| nv ||| uf ||| (if nx then fNX else 0))

/-- Integer square root, by bits from the top. -/
def isqrtGo (n : Nat) : Nat → Nat → Nat
  | 0, r => r
  | k + 1, r => let t := r + 2 ^ k; isqrtGo n k (if t * t ≤ n then t else r)
def isqrt (n : Nat) : Nat := isqrtGo n (bitLen n / 2 + 1) 0

/-- RCP (R186, R187): correctly rounded. -/
def fRcp (rm : Nat) (a : Num) : FR :=
  match a with
  | .nan g => finish fp32 rm (.nan g)
  | .inf s => { x := fp32.zeroBits s, fl := 0 }
  | .fin s m e =>
    if m = 0 then { x := fp32.infBits s, fl := fDZ }
    else roundTo fp32 rm s (2 ^ 64 / m) (-64 - e) (2 ^ 64 % m ≠ 0)

/-- SQRT (R186, R187): correctly rounded. -/
def fSqrt (rm : Nat) (a : Num) : FR :=
  match a with
  | .nan g => finish fp32 rm (.nan g)
  | .inf s => if s then { x := fp32.nanBits, fl := fNV } else { x := fp32.infBits false, fl := 0 }
  | .fin s m e =>
    if m = 0 then { x := fp32.zeroBits s, fl := 0 }
    else if s then { x := fp32.nanBits, fl := fNV }
    else
      let m' := if e % 2 = 0 then m * 2 ^ 64 else m * 2 ^ 65
      let e' := if e % 2 = 0 then e - 64 else e - 65
      let r := isqrt m'
      roundTo fp32 rm false r (e' / 2) (r * r ≠ m')

/-- Is a finite value integral, and its parity; or n + 1/2 with the parity of n. -/
inductive PiClass where
  | int (odd : Bool) | half (odd : Bool) | other
  deriving DecidableEq, Repr
def piClass (s : Bool) (m : Nat) (e : Int) : PiClass :=
  if 0 ≤ e then .int (m * 2 ^ e.toNat % 2 = 1)
  else
    let k := (-e).toNat
    if m % 2 ^ k = 0 then .int (m / 2 ^ k % 2 = 1)
    else if m % 2 ^ k = 2 ^ (k - 1) then
      -- n is floor(a): for a negative a = −(j + 1/2) it is −(j + 1)
      .half ((m / 2 ^ k + (if s then 1 else 0)) % 2 = 1)
    else .other

/-- m is a power of two: its exponent. -/
def pow2? (m : Nat) (e : Int) : Option Int := if m ≠ 0 ∧ m = 2 ^ m.log2 then some (e + m.log2) else none

/-- The words ±1.0. -/
def oneBits (s : Bool) : Nat := fp32.sign s 0x3F800000

/-- The operands of Table 7.9 with their results and flags; any other operand is none. -/
def sfuSpecial (fn : Nat) (a : Num) : Option FR :=
  let zero (s : Bool) : FR := { x := fp32.zeroBits s, fl := 0 }
  let inf (s : Bool) (fl : BitVec 8) : FR := { x := fp32.infBits s, fl := fl }
  let bad : FR := { x := fp32.nanBits, fl := fNV }
  let int (i : Int) : FR := roundTo fp32 0 (i < 0) i.natAbs 0
  match a with
  | .nan g => some (finish fp32 0 (.nan g))
  | .inf s =>
    match fn with
    | 0 => some (if s then bad else zero false)
    | 1 => some (if s then zero false else inf false 0)
    | 2 => some (if s then bad else inf false 0)
    | 3 => some bad
    | 4 => some bad
    | _ => some { x := oneBits s, fl := 0 }
  | .fin s m e =>
    match fn with
    | 0 => if m = 0 then some (inf s fDZ) else if s then some bad
           else match pow2? m e with
             | some k => if k % 2 = 0 then some (roundTo fp32 0 false 1 (-(k / 2))) else none
             | none => none
    | 1 => if m = 0 then some { x := oneBits false, fl := 0 }
           else if !s && (Num.fin s m e).cmp (.fin false 128 0) ≥ 0 then some (inf false (fOF ||| fNX))
           else if (Num.fin s m e).cmp (.fin true 150 0) < 0 then some { x := fp32.zeroBits false, fl := fUF ||| fNX }
           else
             let n := roundAt 1 s m e false 0
             let i : Int := if s then -(n.1 : Int) else n.1
             if !n.2 ∧ -149 ≤ i then some (roundTo fp32 0 false 1 i) else none
    | 2 => if m = 0 then some (inf true fDZ) else if s then some bad
           else (pow2? m e).map int
    | 3 => match piClass s m e with
           | .int _ => some (zero s)
           | .half odd => some { x := oneBits odd, fl := 0 }
           | .other => none
    | 4 => match piClass s m e with
           | .int odd => some { x := oneBits odd, fl := 0 }
           | .half _ => some (zero false)
           | .other => none
    | _ => if m = 0 then some (zero s) else none

/-- Range of an integer type. -/
def ITy.lo : ITy → Int | .n32 => 0 | .n64 => 0 | .i32 => -(2 ^ 31) | .i64 => -(2 ^ 63)
def ITy.hi : ITy → Int | .n32 => 2 ^ 32 - 1 | .n64 => 2 ^ 64 - 1 | .i32 => 2 ^ 31 - 1 | .i64 => 2 ^ 63 - 1
/-- Clamp to a range. -/
def clampI (lo hi x : Int) : Int := if x < lo then lo else if hi < x then hi else x

/-- CVTFI (R188): the 64-bit pattern and the flags. -/
def fToInt (ty : ITy) (rm : Nat) (a : Num) : DWord × BitVec 8 :=
  let lo := ITy.lo ty
  let hi := ITy.hi ty
  match a with
  | .nan _ => (0, fNV)
  | .inf s => (BitVec.ofInt 64 (if s then lo else hi), fNV)
  | .fin s m e =>
    let (k, inex) := toIntMag rm s m e
    let n : Int := if s then -(k : Int) else k
    if n < lo ∨ hi < n then (BitVec.ofInt 64 (clampI lo hi n), fNV)
    else (BitVec.ofInt 64 n, if inex then fNX else 0)

/-- CVTIF (R188): from the integer value. -/
def fOfInt (rm : Nat) (n : Int) : FR := roundTo fp32 rm (n < 0) n.natAbs 0

end Sys2Proof.Machine
end

