-- ==== Sys2Proof/Machine/Operands.lean ====
section
/-! DEFINITION. Sys2Proof/Machine/Operands.lean: the issuing wave as an instruction sees it, every operand form, and writes of
registers (03_code.md R55 to R67, R79; 06_issue.md R126, R131). -/
namespace Sys2Proof.Machine

/-- What an instruction sees when it issues: its team, wave, gang and bundle as they stand, the active lanes, the address of
its word and of the next clause, the cycle, the counter of free values, the number of the issue and the words popped. -/
structure Ctx where
  tag : Nat
  w : Nat
  tm : Team
  wv : Wave
  gg : Gang
  b : Bundle
  lanes : Lanes
  site : DWord
  next : DWord
  cyc : Nat
  free : Nat
  iss : Nat
  pops : List (Nat × List Word)
  deriving DecidableEq, Repr

/-- The lanes of a set, ascending. -/
def lanesOf (m : Lanes) : List Nat := (List.range 32).filter (fun l => m.getLsbD l)
/-- The set of the lanes that satisfy `f`. -/
def lanesWhere (f : Nat → Bool) : Lanes := BitVec.ofNat 32 ((List.range 32).foldr (fun l n => (if f l then 1 else 0) + 2 * n) 0)
/-- A list of 32 values, by lane. -/
def byLane (f : Nat → α) : List α := (List.range 32).map f
/-- The four lanes of a slice. -/
def sliceMask (sl : Nat) : Lanes := 0xF#32 <<< (4 * sl)
/-- The slices that hold a lane of a set, ascending. -/
def slicesOf (m : Lanes) : List Nat := (List.range 8).filter (fun sl => m &&& sliceMask sl ≠ 0)
/-- The lowest lane of a set. -/
def lowest (m : Lanes) : Nat := (lanesOf m).headD 0

/-! ### Registers of a wave -/

def Wave.vr (wv : Wave) (n l : Nat) : Word := sget 0 wv.v (32 * n + l)
def Wave.sr (wv : Wave) (n : Nat) : DWord := sget 0 wv.s n
/-- A predicate; p127 reads true in every lane (R63). -/
def Wave.pr (wv : Wave) (n : Nat) : Lanes := if n = 127 then 0xFFFFFFFF else sget 0 wv.p n
def Wave.lcr (wv : Wave) (n : Nat) : Word := sget 0 wv.lc n
def Wave.evr (wv : Wave) (n : Nat) : Nat := sget 0 wv.ev n

/-- Write one register; a write of p127 is discarded (R63). -/
def Wave.put (wv : Wave) : RegW → Wave
  | .v n l x => { wv with v := sset 0 wv.v (32 * n + l) x }
  | .s n x => { wv with s := sset 0 wv.s n x }
  | .p n l x =>
    if n = 127 then wv
    else { wv with p := sset 0 wv.p n (if x then wv.pr n ||| (1#32 <<< l) else wv.pr n &&& ~~~(1#32 <<< l)) }
  | .lc n x => { wv with lc := sset 0 wv.lc n x }
/-- Write registers in order. -/
def Wave.puts (wv : Wave) (ws : List RegW) : Wave := ws.foldl Wave.put wv

/-- The register that a write names. -/
def RegW.reg : RegW → Reg
  | .v n _ _ => .v n
  | .s n _ => .s n
  | .p n _ _ => .p n
  | .lc n _ => .lc n

/-- Do two sets of lanes share a place of a register? A vector or predicate register has one place per lane (Table 2.1, R79). -/
def Reg.meets : Reg → Lanes → Lanes → Bool
  | .v _, a, b => a &&& b ≠ 0
  | .p _, a, b => a &&& b ≠ 0
  | _, _, _ => true
/-- The set of one lane. -/
def laneBit (l : Nat) : Lanes := 1#32 <<< l
/-- Is a pending operation to write register `r` in some lane of `m`? -/
def Pend.writes (q : Pend) (r : Reg) (m : Lanes) : Bool := q.dsts.contains r && r.meets q.lanes m
/-- Is the result of register `r` in some lane of `m` not ready at cycle `cyc` (R131, R133)? -/
def Wave.busy (wv : Wave) (cyc : Nat) (r : Reg) (m : Lanes) : Bool :=
  wv.sb.any (fun x => x.1 == r && cyc < x.2.2 && r.meets x.2.1 m) || wv.pend.any (·.writes r m)

/-! ### Operands -/

/-- Vector register `n` in lane `l`; a result that is not ready reads as an unspecified value (R53). -/
def Ctx.v (c : Ctx) (n l : Nat) : Word :=
  if c.wv.busy c.cyc (.v n) (laneBit l) then (Config.freeWord c.free n l).setWidth 32 else c.wv.vr n l
/-- Scalar register `n` (R53). -/
def Ctx.s (c : Ctx) (n : Nat) : DWord :=
  if c.wv.busy c.cyc (.s n) 0 then Config.freeWord c.free (128 + n) 0 else c.wv.sr n
/-- Predicate `n` in lane `l` (R53). -/
def Ctx.p (c : Ctx) (n l : Nat) : Bool :=
  if c.wv.busy c.cyc (.p n) (laneBit l) then (Config.freeWord c.free (200 + n) l).getLsbD 0 else (c.wv.pr n).getLsbD l
/-- Loop counter `n` (R53). -/
def Ctx.lc (c : Ctx) (n : Nat) : Word :=
  if c.wv.busy c.cyc (.lc n) 0 then (Config.freeWord c.free (400 + n) 0).setWidth 32 else c.wv.lcr n

/-- `%role`: the lowest-numbered role bound to the team's position (R39). -/
def Ctx.role (c : Ctx) : Word :=
  let gw := c.gg.kobj.gw
  match (c.gg.kobj.roles.zipIdx).find? (fun r => r.1.2 * gw + r.1.1 == c.tm.pos) with
  | some r => BitVec.ofNat 32 r.2
  | none => 0xFFFFFFFF

/-- The word of queue `n` popped for lane `l` (R65). -/
def Ctx.pop (c : Ctx) (n l : Nat) : Word :=
  match c.pops.find? (·.1 == n) with
  | some x => x.2.getD l 0
  | none => 0

/-- A source operand that is read as 32 bits, in lane `l` (Table 3.5, R64). -/
def Ctx.w32 (c : Ctx) (o : Opd) (l : Nat) : Word :=
  match o with
  | .v n => c.v n.toNat l
  | .s n => (c.s n.toNat).setWidth 32
  | .zero => 0
  | .lane => BitVec.ofNat 32 l
  | .wave => BitVec.ofNat 32 c.wv.ix
  | .tx => BitVec.ofNat 32 c.gg.x
  | .ty => BitVec.ofNat 32 c.gg.y
  | .tz => BitVec.ofNat 32 c.gg.z
  | .role => c.role
  | .q n => c.pop n.toNat l
  | .lc n => c.lc n.val
  | .k n => BitVec.ofNat 32 n.toNat
/-- A source operand read as FP32: a constant is k.0 (R64). -/
def Ctx.fp (c : Ctx) (o : Opd) (l : Nat) : Word :=
  match o with
  | .k n => kFloat n.toNat
  | o => c.w32 o l
/-- A source operand read as 64 bits, in lane `l` (R67). -/
def Ctx.w64 (c : Ctx) (o : Opd) (l : Nat) : DWord :=
  match o with
  | .v n => c.v (n.toNat + 1) l ++ c.v n.toNat l
  | .s n => c.s n.toNat
  | o => (c.w32 o l).setWidth 64
/-- Word `i` of a wide vector or scalar operand (R67): scalar registers hold two words each. -/
def Ctx.wide (c : Ctx) (o : Opd) (i l : Nat) : Word :=
  match o with
  | .v n => c.v (n.toNat + i) l
  | .s n => ((c.s (n.toNat + i / 2)) >>> (32 * (i % 2))).setWidth 32
  | o => if i = 0 then c.w32 o l else 0
/-- Is the operand of a kind that scalar operations read once? Then its value, else that of lane 0. -/
def Ctx.sc (c : Ctx) (o : Opd) : DWord := c.w64 o (lowest c.lanes)

/-! ### Destinations -/

/-- Write a 32-bit result: a vector register per lane of `m`, a scalar register once, zero-extended (R66, R169), with the result of the lowest
lane of `m`, which tells for RAND with sources that differ by lane. (DESIGN CHOICE: entry 63.) -/
def wr1 (m : Lanes) (d : Opd) (f : Nat → Word) : List RegW :=
  match d with
  | .v n => (lanesOf m).map (fun l => .v n.toNat l (f l))
  | .s n => if m = 0 then [] else [.s n.toNat ((f (lowest m)).setWidth 64)]
  | .lc n => if m = 0 then [] else [.lc n.val (f (lowest m))]
  | _ => []
/-- Write a 64-bit result: a vector pair per lane of `m`, or a scalar register once (R67, R169). -/
def wr64 (m : Lanes) (d : Opd) (f : Nat → DWord) : List RegW :=
  match d with
  | .v n => (lanesOf m).flatMap (fun l =>
      [.v n.toNat l ((f l).setWidth 32), .v (n.toNat + 1) l ((f l >>> 32).setWidth 32)])
  | .s n => if m = 0 then [] else [.s n.toNat (f (lowest m))]
  | _ => []
/-- Write words 0 to n − 1 of a wide result into consecutive vector registers, or one or two scalar registers (R67). -/
def wrN (m : Lanes) (d : Opd) (n : Nat) (f : Nat → Nat → Word) : List RegW :=
  match d with
  | .v r => (lanesOf m).flatMap (fun l => (List.range n).map (fun i => .v (r.toNat + i) l (f i l)))
  | .s r =>
    if m = 0 then []
    else
      let l := lowest m
      if n = 1 then [.s r.toNat ((f 0 l).setWidth 64)]
      else if n ≤ 2 then [.s r.toNat (f 1 l ++ f 0 l)]
      else [.s r.toNat (f 1 l ++ f 0 l), .s (r.toNat + 1) (f 3 l ++ f 2 l)]
  | _ => []
/-- The same for the active lanes of an issue. -/
def Ctx.dst (c : Ctx) (d : Opd) (f : Nat → Word) : List RegW := wr1 c.lanes d f
def Ctx.dst64 (c : Ctx) (d : Opd) (f : Nat → DWord) : List RegW := wr64 c.lanes d f
def Ctx.dstN (c : Ctx) (d : Opd) (n : Nat) (f : Nat → Nat → Word) : List RegW := wrN c.lanes d n f
/-- Write a predicate in every active lane; a write of p127 is discarded (R63). -/
def Ctx.dstP (c : Ctx) (p : Pr) (f : Nat → Bool) : List RegW := if p = 127#7 then [] else (lanesOf c.lanes).map (fun l => .p p.toNat l (f l))

/-- The flags raised in the lanes that execute: every active lane, or once for a scalar destination (R161, R169). -/
def Ctx.flags (c : Ctx) (d : Opd) (f : Nat → BitVec 8) : BitVec 8 :=
  match d with
  | .s _ => if c.lanes = 0 then 0 else f (lowest c.lanes)
  | _ => (lanesOf c.lanes).foldl (fun a l => a ||| f l) 0

/-- The mode of a rounding field (Table 7.3): `FMODE.RM` at issue, or the mode named. -/
def Ctx.rm (c : Ctx) : Rm → Nat
  | .dyn => (c.wv.fmode.extractLsb' 0 2).toNat
  | .rn => 0
  | .rz => 1
  | .rd => 2
  | .ru => 3

end Sys2Proof.Machine
end

