-- ==== Sys2Proof/Machine/Cache.lean ====
section
/-! DEFINITION. Sys2Proof/Machine/Cache.lean: the levels of cache on the way of an access, translation with its lookaside
buffers, reads, writes, releases, acquires, atomics and reductions at the home of their scope (09_memory.md R208 to R214;
14_order.md R340, R356 to R361; 15_sync.md Table 15.1). -/
/-- How far out the home of a scope lies (Table 14.2): 0 L1, 1 cluster cache, 2 home slice, 3 beyond the device. -/
def Sys2Proof.Scope.rank : Scope → Nat
  | .core => 0 | .clus => 1 | .nbhd => 2 | .part => 2 | .dev => 2 | .sys => 3
namespace Sys2Proof.Machine

/-! ### Levels -/

/-- How far out a cache lies. -/
def Cache.rank : Cache → Nat
  | .l1 _ => 0 | .sram _ => 0 | .clus _ => 1 | .slice _ => 2

/-- How an access reaches memory: the core that makes it, if one does, its scope, its `POL`, and the team it is made for. -/
structure Via where
  core : Option Nat
  sc : Scope
  pol : Pol
  tag : Nat
  deriving DecidableEq, Repr
/-- An access of an agent of the device, performed at the home slice. -/
def Via.agent : Via := { core := none, sc := .dev, pol := .normal, tag := 0 }
/-- An access of an agent at .sys. -/
def Via.outer : Via := { core := none, sc := .sys, pol := .normal, tag := 0 }
/-- An access of a team's core at a scope. -/
def Team.via (t : Team) (sc : Scope) : Via := { core := some t.core, sc := sc, pol := .normal, tag := t.tag }

/-- A line of memory as an access names it: 256 B at `va` in `asid` of a partition, the physical line, the page's attributes. -/
structure Tgt where
  part : Nat
  asid : Nat
  va : Nat
  pa : Nat
  a : Attr
  deriving DecidableEq, Repr
/-- The line of a translated byte. -/
def Tgt.of (p asid va pa : Nat) (a : Attr) : Tgt := { part := p, asid := asid, va := va / 256 * 256, pa := pa / 256 * 256, a := a }
/-- Lines of pages with HOME = 10 are tagged by physical address (R122). -/
def Tgt.byPa (t : Tgt) : Bool := t.a.home == 2#2
def Line.tgt (l : Line) : Tgt := { part := l.part, asid := l.asid, va := l.va, pa := l.pa, a := l.attr }

/-- Cluster of a core: its mesh row × 8 + mesh column (R10). -/
def clusOf (core : Nat) : Nat := (core / 128 * 4 + core % 64 / 16) * 8 + (core / 64 % 2 * 4 + core % 8 / 2)

/-- Does a line hold `t` in cache `c` (R210)? -/
def Line.is (l : Line) (c : Cache) (t : Tgt) : Bool :=
  l.loc == c && l.byPa == t.byPa && (if t.byPa then l.pa == t.pa else l.part == t.part && l.asid == t.asid && l.va == t.va)
/-- The line of a cache that holds `t`. -/
def State.lineAt (s : State) (c : Cache) (t : Tgt) : Option Line := s.lines.find? (·.is c t)
/-- Two lines of one cache with one tag. -/
def Line.same (l m : Line) : Bool := m.is l.loc l.tgt
/-- Replace a line, or add it. -/
def State.setLine (s : State) (l : Line) : State :=
  if s.lines.any (l.same ·) then { s with lines := s.lines.map (fun m => if l.same m then l else m) }
  else { s with lines := l :: s.lines }
/-- Forget a line. -/
def State.delLine (s : State) (l : Line) : State := { s with lines := s.lines.filter (fun m => !l.same m) }

/-- Home slice of a line (R112, R122). -/
def State.homeOf (s : State) (t : Tgt) : Nat := if t.byPa then homePa t.pa else s.homeVa t.part t.asid t.va
/-- Ways of its slice that a line may take (R108, R122, R214). -/
def State.waysOf (s : State) (t : Tgt) : Nat := if t.byPa then 0xFFFF else (s.part t.part).pways.toNat
/-- Bytes of core SRAM that no placed team and no pinned line uses (R214). -/
def State.sramFree (s : State) (core : Nat) : Nat :=
  393216 - (s.teams.filter (fun t => t.core == core && !t.retired && s.gangs.any (fun g => g.gid == t.gid && (g.st == .placed || g.st == .leaving)))).foldl (fun n t => n + t.sramLen) 0
    - 256 * (s.lines.filter (fun l => l.loc == .sram core)).length
/-- Caches that may hold a line, from the accessing core outward (Table 9.5): a line pinned for a core lies in free core SRAM, else
in L1 (R214); a partition without ways holds no line in a slice (R108). -/
def State.path (s : State) (core : Option Nat) (t : Tgt) : List Cache :=
  if t.a.home = 3#2 then []
  else
    let up := if s.waysOf t = 0 then [] else [Cache.slice (s.homeOf t)]
    match core with
    | none => up
    | some c =>
      if t.a.home = 0#2 then .l1 c :: .clus (clusOf c) :: up
      else if t.a.home = 1#2 then
        (if (s.lineAt (.sram c) t).isSome || ((s.lineAt (.l1 c) t).isNone && 256 ≤ s.sramFree c) then .sram c else .l1 c) :: up
      else up
/-- Level of the home of a scope for a line (R340): .sys reaches beyond the device for host and peer memory, but for hand-off
pages; a narrower scope's home is never farther out than the slice. -/
def Tgt.rank (t : Tgt) (sc : Scope) : Nat := if sc = .sys ∧ hostLo ≤ t.pa ∧ !t.byPa then 3 else min sc.rank 2

/-! ### Lines -/

/-- A byte with its poison, and whether its value is undefined. -/
structure BV where
  b : Byte
  bad : Bool
  und : Bool
  deriving DecidableEq, Repr
/-- Does a failed transfer of this step concern a byte (R444)? -/
def State.linkFails (s : State) (pa : Nat) (wr : Bool) : Bool := s.linkErr.any (fun x => x.at_ == s.cycle && x.wr == wr && x.pa == pa / 64 * 64)
/-- A byte of memory; a read that a peer link fails is poisoned (R226, R444). -/
def State.memBV (s : State) (pa : Nat) : BV := { b := s.memAt pa, bad := s.cellBad pa || s.linkFails pa false, und := s.undefAt pa }
/-- Does a line hold byte `o`: written, or read from the next level (R211)? -/
def Line.has (l : Line) (o : Nat) : Bool := l.mask.getLsbD o || l.filled.getLsbD (o / 4)
/-- A byte that a line holds; an undefined one reads as a free value each time (R4). -/
def Line.bv (l : Line) (s : State) (o : Nat) : BV :=
  { b := if l.und.getLsbD o then s.freeByte (l.pa + o) else sget 0 l.data o, bad := l.bad.getLsbD (o / 4), und := l.und.getLsbD o }
/-- Is a page of the kind whose lines are tagged by virtual address (Table 9.5)? -/
def Attr.inner (a : Attr) : Bool := a.home = 0#2 || a.home = 1#2
/-- Has a writable page with HOME 00 or 01 been mapped at two pairs of address and address space: a line or a translation made since
RINV last covered it names the frame otherwise, and the bytes may hold undefined values (R210)? (DEDUCED: entry 54.) -/
def State.aliased (s : State) (t : Tgt) : Bool :=
  t.a.inner && (s.lines.any (fun l => l.attr.inner && (l.attr.w || t.a.w) && l.pa == t.pa && (l.asid ≠ t.asid || l.va ≠ t.va))
    || s.maps.any (fun e => (e.attr.w || t.a.w) && e.frame ≤ t.pa && t.pa < e.frame + e.size
        && (e.asid ≠ t.asid || e.va + (t.pa - e.frame) ≠ t.va)))
/-- Does the range of its partition hold a line's frame? -/
def State.inRange (s : State) (t : Tgt) : Bool := (s.part t.part).pmbase.toNat ≤ t.pa && t.pa < (s.part t.part).pmlim.toNat
/-- Are the bytes of a line undefined to its partition: the page is mapped twice (R210), or the layout of the partition was changed under
its teams, or has left the frame out while a line still names it (R106)? Hand-off pages and memory beyond the device are not concerned.
(DEDUCED: entry 54.) -/
def State.blur (s : State) (t : Tgt) : Bool := s.aliased t || (!t.byPa && t.pa < devLimit && ((s.part t.part).wild || !s.inRange t))
/-- An undefined byte of a line (R4). -/
def State.blurBV (s : State) (t : Tgt) (o : Nat) : BV := { b := s.freeByte (t.pa + o + 2 ^ 64), bad := false, und := true }
/-- The bytes of a list of offsets, as a mask. -/
def byteMask (os : List Nat) : BitVec 256 := os.foldl (fun m o => m ||| (1#256 <<< o)) 0
def wordMask (ws : List Nat) : BitVec 64 := ws.foldl (fun m w => m ||| (1#64 <<< w)) 0
/-- The four bytes of a word. -/
def wordBytes (w : Nat) : List Nat := [4 * w, 4 * w + 1, 4 * w + 2, 4 * w + 3]
/-- Words that offsets lie in. -/
def wordsOfBytes (os : List Nat) : List Nat := (os.map (· / 4)).eraseDups

/-- A byte that is neither poisoned nor undefined. -/
def BV.of (b : Byte) : BV := { b := b, bad := false, und := false }
/-- Offsets of the undefined bytes, and words of the poisoned ones. -/
def undOs (ws : List (Nat × BV)) : List Nat := (ws.filter (·.2.und)).map (·.1)
def badWs (ws : List (Nat × BV)) : List Nat := wordsOfBytes ((ws.filter (·.2.bad)).map (·.1))
/-- Set bytes of a line and their mask bits; a word written whole is poisoned no longer, unless what is written is (R211, R226);
`own` registers the owner of each word (R356). -/
def Line.puts (l : Line) (ws : List (Nat × BV)) (own : Nat → Option Nat) (dirty : Bool) : Line :=
  let os := ws.map (·.1)
  let m := byteMask os
  let words := wordsOfBytes os
  let whole := words.filter (fun w => (wordBytes w).all os.contains)
  { l with
    data := ws.foldl (fun d x => sset 0 d x.1 x.2.b) l.data
    mask := l.mask ||| m, dirty := if dirty then l.dirty ||| m else l.dirty &&& ~~~m, und := (l.und &&& ~~~m) ||| byteMask (undOs ws)
    bad := (l.bad &&& ~~~(wordMask whole)) ||| wordMask (badWs ws)
    own := words.foldl (fun r w => match own w with | some c => sput r w c | none => r.filter (·.1 ≠ w)) l.own }
/-- Forget the copies of words that a line holds. -/
def Line.drop (l : Line) (words : List Nat) : Line :=
  let m := byteMask (words.flatMap wordBytes)
  let wm := wordMask words
  { l with filled := l.filled &&& ~~~wm, mask := l.mask &&& ~~~m, dirty := l.dirty &&& ~~~m, und := l.und &&& ~~~m
           bad := l.bad &&& ~~~wm, data := l.data.filter (fun x => !words.contains (x.1 / 4)) }
/-- Bytes of a line that the next level has not got, of some words. -/
def Line.unsent (l : Line) (words : List Nat) : List (Nat × BV) :=
  ((words.flatMap wordBytes).filter (l.dirty.getLsbD ·)).map (fun o =>
    (o, { b := sget 0 l.data o, bad := l.bad.getLsbD (o / 4), und := l.und.getLsbD o }))
/-- The words of a line. -/
def allWords : List Nat := List.range 64
/-- The owner that a line registers for a word; the lines of a core register that core. -/
def Line.owner (l : Line) (w : Nat) : Option Nat :=
  match l.loc with
  | .l1 c => some c
  | .sram c => some c
  | _ => shas l.own w

/-- Ways of a cache (R16). (DESIGN CHOICE: entry 24.) -/
def Cache.ways : Cache → Nat
  | .l1 _ => 2 ^ (9 - Config.l1Split % 10)
  | .sram _ => 1536
  | .clus _ => 2 ^ (12 - Config.clusSplit % 13)
  | .slice _ => 16
/-- The set of a cache that a line falls in (R16). (DESIGN CHOICE: entry 24.) -/
def Cache.set (c : Cache) (t : Tgt) : Nat :=
  let n := t.va / 256
  match c with
  | .l1 _ => (n + Config.l1Hash t.asid n) % 2 ^ (Config.l1Split % 10)
  | .sram _ => 0
  | .clus _ => (n + Config.clusHash t.asid n) % 2 ^ (Config.clusSplit % 13)
  | .slice _ => if t.byPa then (t.pa / 256 + Config.sliceHash 65536 (t.pa / 256)) % 2048 else (n + Config.sliceHash t.asid n) % 2048

/-- Which of two lines replacement would rather evict (Table 9.5): the lower retention, then, of two streaming lines, the one inserted
last, which is the next victim, else the one used longer ago. (DESIGN CHOICE: entry 24.) -/
def Line.before (l m : Line) : Line :=
  if m.ret < l.ret ∨ (m.ret = l.ret ∧ (if m.ret = 0 then l.stamp < m.stamp else m.stamp < l.stamp)) then m else l
/-- The line that replacement chooses among several. -/
def victim : List Line → Option Line
  | [] => none
  | l :: r => some (r.foldl Line.before l)
/-- Where a new line goes: a free way, or the way of the line that replacement chooses; none where it may choose no line. A set
of a slice holds at most eight pinned lines, and pinned lines make room only for pinned ones (R108, R213, R214).
(DESIGN CHOICE: entry 24.) -/
def State.room (s : State) (c : Cache) (t : Tgt) : Option (Option Line × Nat) :=
  let set := s.lines.filter (fun l => l.loc == c && c.set l.tgt == c.set t)
  let pins := set.filter (·.byPa)
  if t.byPa ∧ 8 ≤ pins.length then (victim pins).map (fun v => (some v, v.way))
  else
    let ok (w : Nat) : Bool := match c with | .slice _ => bit (s.waysOf t) w | _ => true
    match (List.range c.ways).find? (fun w => ok w && !set.any (·.way == w)) with
    | some w => some (none, w)
    | none => (victim (set.filter (fun l => !l.byPa && ok l.way))).map (fun v => (some v, v.way))

/-- Retention that a `POL` asks for; pinned pages ignore it (Table 9.5). -/
def Tgt.ret (t : Tgt) (pol : Pol) : Nat :=
  if t.a.home = 0#2 then (match pol with | .stream => 0 | .normal => 1 | .keep => 2) else 2
/-- A new line: nothing held. -/
def Line.fresh (c : Cache) (t : Tgt) (way stamp ret tag : Nat) : Line :=
  { loc := c, asid := t.asid, va := t.va, byPa := t.byPa, part := t.part, pa := t.pa, attr := t.a, filled := 0, mask := 0, dirty := 0, und := 0
    bad := 0, data := [], own := [], way := way, stamp := stamp, ret := ret, tag := tag }
/-- Caches farther out than that of a line, on its way to memory. -/
def State.beyond (s : State) (l : Line) : List Cache :=
  match l.loc with
  | .l1 c => (s.path (some c) l.tgt).filter (0 < ·.rank)
  | .sram c => (s.path (some c) l.tgt).filter (0 < ·.rank)
  | .clus _ => if s.waysOf l.tgt = 0 then [] else [.slice (s.homeOf l.tgt)]
  | .slice _ => []

/-- Write bytes of a line to memory, with the poison of their words (R211, R226); a write that a peer link fails is dropped (R444). -/
def State.memPuts (s : State) (t : Tgt) (ws : List (Nat × BV)) : State :=
  let ws := ws.filter (fun x => !s.linkFails (t.pa + x.1) true)
  let os := ws.map (·.1)
  let s := ws.foldl (fun s x =>
    let s := s.memPut (t.pa + x.1) x.2.b
    if x.2.und then s.memLose (t.pa + x.1) (t.pa + x.1 + 1) else s) s
  (wordsOfBytes os).foldl (fun s w =>
    if (badWs ws).contains w then s.setCellBad (t.pa + 4 * w) true
    else if (wordBytes w).all os.contains then s.setCellBad (t.pa + 4 * w) false else s) s

/-- Does an active partition other than `p` have a device address in its range? -/
def State.othersHold (s : State) (p pa : Nat) : Bool :=
  (List.range 4).any (fun o => o ≠ p && s.active o && (s.part o).pmbase.toNat ≤ pa && pa < (s.part o).pmlim.toNat)
/-- Bytes of a line that leave for memory. A partition reaches device memory, hand-off pages aside, only in its own range: what a line
names outside it is dropped, and what goes out under a layout changed beneath the partition's teams leaves undefined bytes of its own
and never those of another partition (R106, R459). (DEDUCED: entry 26.) -/
def State.memOut (s : State) (t : Tgt) (ws : List (Nat × BV)) : State :=
  if t.byPa || devLimit ≤ t.pa then s.memPuts t ws
  else if !s.inRange t then s
  else if s.active t.part && !(s.part t.part).wild then s.memPuts t ws
  else if s.othersHold t.part t.pa then s
  else ws.foldl (fun s x => s.memLose (t.pa + x.1) (t.pa + x.1 + 1)) s

/-- The lines that hold `t` on a way outward. -/
def State.heldOn (s : State) (path : List Cache) (t : Tgt) : List Line := path.filterMap (fun c => s.lineAt c t)
/-- Is a word poisoned in the first copy of its bytes that a way gives, or in memory? -/
def State.badOn (s : State) (ls : List Line) (t : Tgt) (w : Nat) : Bool :=
  (wordBytes w).any (fun o => match ls.find? (·.has o) with | some l => l.bad.getLsbD w | none => s.cellBad (t.pa + o))
/-- A line that is about to take part of a word of which it holds nothing takes on its poison: the word stays poisoned until a store
writes it whole (R226). -/
def State.taint (s : State) (up : List Cache) (l : Line) (ws : List (Nat × BV)) : Line :=
  let os := ws.map (·.1)
  let part := (wordsOfBytes os).filter (fun w => !(wordBytes w).all os.contains && !(wordBytes w).any l.has)
  { l with bad := l.bad ||| wordMask (part.filter (s.badOn (s.heldOn up l.tgt) l.tgt)) }

/-- Write bytes at the first cache of a way outward, or in memory where none is left. A line that is not there is made, after the
line that gives way to it has written back what the next level has not got (R211). -/
def State.putAt : Nat → State → List Cache → Tgt → Nat → Nat → List (Nat × BV) → (Nat → Option Nat) → State
  | 0, s, _, t, _, _, ws, _ => s.memOut t ws
  | _ + 1, s, [], t, _, _, ws, _ => s.memOut t ws
  | n + 1, s, c :: up, t, ret, tag, ws, own =>
    match s.lineAt c t with
    | some l => { s.setLine { (s.taint up l ws).puts ws own true with stamp := s.stamp } with stamp := s.stamp + 1 }
    | none =>
      match s.room c t with
      | none => s.putAt n up t ret tag ws own
      | some (v, way) =>
        let s := match v with
          | none => s
          | some v => (s.delLine v).putAt n (s.beyond v) v.tgt v.ret v.tag (v.unsent allWords) v.owner
        { s.setLine ((s.taint up (Line.fresh c t way s.stamp ret tag) ws).puts ws own true) with stamp := s.stamp + 1 }
/-- Write at a way outward: an eviction on it goes out by at most three levels. -/
def State.putOut (s : State) (up : List Cache) (t : Tgt) (ret tag : Nat) (ws : List (Nat × BV)) (own : Nat → Option Nat) : State :=
  s.putAt 4 up t ret tag ws own
/-- Send what the next level has not got of some words of a line, and keep the line or drop the words. -/
def State.sendWords (s : State) (l : Line) (words : List Nat) (keep : Bool) : State :=
  let ws := l.unsent words
  let s := if ws = [] then s else s.putOut (s.beyond l) l.tgt l.ret l.tag ws l.owner
  s.setLine (if keep then { l with dirty := l.dirty &&& ~~~(byteMask (ws.map (·.1))) } else l.drop words)
/-- Write back and drop every line that satisfies `f`, the inner levels first (R211, R422). -/
def State.dropLines (s : State) (f : Line → Bool) : State :=
  [0, 1, 2].foldl (fun s r =>
    ((s.lines.filter (fun l => l.loc.rank == r && f l)).foldl (fun s l =>
      let ws := l.unsent allWords
      let s := s.delLine l
      if ws = [] then s else s.putOut (s.beyond l) l.tgt l.ret l.tag ws l.owner) s)) s

/-! ### Bytes on the way of an access -/

/-- The byte that a way outward gives: the first copy met, else memory; a free value where the bytes are undefined (R106, R210). -/
def State.peek (s : State) (ls : List Line) (t : Tgt) (o : Nat) : BV :=
  if s.blur t then s.blurBV t o
  else match ls.find? (·.has o) with
    | some l => l.bv s o
    | none => s.memBV (t.pa + o)
/-- The byte that an access at level `r` reads (R340): what the levels below have not sent yet, else what the home gives. (DESIGN CHOICE: entry 4.) -/
def State.seek (s : State) (r : Nat) (ls : List Line) (t : Tgt) (o : Nat) : BV :=
  match ls.find? (fun l => l.loc.rank < r && l.dirty.getLsbD o) with
  | some l => if s.blur t then s.blurBV t o else l.bv s o
  | none => s.peek (ls.filter (fun l => r ≤ l.loc.rank)) t o

/-- Take the words of a line that it has not read yet from the levels beyond; bytes of the mask keep their values (R211). -/
def Line.fill (l : Line) (src : Nat → BV) (words : List Nat) : Line :=
  words.foldl (fun l w =>
    if l.filled.getLsbD w then l
    else
      let os := (wordBytes w).filter (fun o => !l.mask.getLsbD o)
      { l with
        filled := l.filled ||| (1#64 <<< w)
        data := os.foldl (fun d o => sset 0 d o (src o).b) l.data
        und := l.und ||| byteMask (os.filter (fun o => (src o).und))
        bad := if os.any (fun o => (src o).bad) then l.bad ||| (1#64 <<< w) else l.bad }) l
/-- Fill words of a cache from the levels beyond it. -/
def State.fillAt (s : State) (c : Cache) (up : List Cache) (t : Tgt) (words : List Nat) (ret tag : Nat) : State :=
  let s := s.putOut (c :: up) t ret tag [] (fun _ => none)
  match s.lineAt c t with
  | none => s
  | some l => s.setLine (l.fill (s.peek (s.heldOn up t) t) words)

/-! ### Translation -/

/-- The line that an access of a core, or of an agent, hits by virtual address (R208, R210). -/
def State.tagLine (s : State) (core : Option Nat) (p asid va : Nat) : Option Line :=
  let b := va / 256 * 256
  s.lines.find? (fun l => !l.byPa && l.part == p && l.asid == asid && l.va == b &&
    (match l.loc with
     | .l1 c => core == some c
     | .sram c => core == some c
     | .clus k => core.any (fun c => clusOf c == k)
     | .slice i => i == s.homeVa p asid b))
/-- Controller that translates for a line (R208). For a page with HOME 10, whose slice only the translation tells, it is that of the virtual
address. (DESIGN CHOICE: entry 23.) -/
def State.tlbOf (s : State) (p asid va : Nat) : Nat := s.homeVa p asid va % 16
/-- The lookaside entry of an address. -/
def State.tlbHit (s : State) (p asid va : Nat) : Option TlbEnt :=
  s.tlb.find? (fun e => e.ctl == s.tlbOf p asid va && e.asid == asid && e.va ≤ va && va < e.va + e.size)
/-- What a miss finds: a lookaside entry, else the tables as memory holds them (R208, R209). (DESIGN CHOICE: entry 23.) -/
def State.lookup (s : State) (p asid va : Nat) : Walked :=
  match s.tlbHit p asid va with
  | some e => .leaf e.frame e.size e.attr
  | none => s.walk asid va
/-- Translate an access (R202, R207, R208): a line that hits is checked against the attributes it carries. -/
def State.translateBy (s : State) (core : Option Nat) (p asid va : Nat) (sys : Bool) (k : Acs) : Xlat :=
  if va ≥ 2 ^ 48 then .prot
  else match s.tagLine core p asid va with
    | some l => if l.attr.allows sys k then .ok (l.pa + va % 256) l.attr else .prot
    | none => s.leaf p va sys k (s.lookup p asid va)
/-- Translate an access of an agent. -/
def State.translate (s : State) (p asid va : Nat) (sys : Bool) (k : Acs) : Xlat := s.translateBy none p asid va sys k
/-- A demand access that misses leaves its translation in the controller's buffer, which holds the newest entries; one with V = 0
is never held (R209). (DESIGN CHOICE: entry 23.) -/
def State.tlbFill (s : State) (core : Option Nat) (p asid va : Nat) : State :=
  if va ≥ 2 ^ 48 ∨ (s.tagLine core p asid va).isSome ∨ (s.tlbHit p asid va).isSome then s
  else match s.walk asid va with
    | .leaf frame size a =>
      let ctl := s.tlbOf p asid va
      let e : TlbEnt := { ctl := ctl, asid := asid, va := va / size * size, size := size, frame := frame, attr := a }
      let mine := (s.tlb.filter (·.ctl == ctl)).take (Config.tlbSize - 1)
      { s with tlb := e :: s.tlb.filter (fun x => x.ctl ≠ ctl || Config.tlbSize = 0 || mine.contains x)
               maps := if a.inner && !s.maps.contains e then e :: s.maps else s.maps }
    | _ => s

/-! ### Ranges -/

/-- Why an access failed: pages that faulted, protection, or poison, with the first byte concerned. -/
inductive Bad where
  | fault (pages : List Nat)   -- virtual addresses of the faulting 64 KiB pages
  | prot (va : Nat)
  | poison (va : Nat)
  deriving DecidableEq, Repr

/-- The 256 B pieces of a range of addresses: start and length. -/
def pieces : Nat → Nat → Nat → List (Nat × Nat)
  | 0, _, _ => []
  | fuel + 1, va, n => if n = 0 then [] else
      let k := min n (256 - va % 256)
      (va, k) :: pieces fuel (va + k) (n - k)
/-- The pieces of `n` bytes at `va`. -/
def piecesOf (va n : Nat) : List (Nat × Nat) := pieces (n / 256 + 2) va n

/-- Check every byte of a range before any part of its effect (R264): a protection cause first (R402), then the pages
that fault, all in one step (R215). -/
def State.checkBy (s : State) (core : Option Nat) (p asid va n : Nat) (sys : Bool) (k : Acs) : Option Bad :=
  let ps := piecesOf va n
  match ps.find? (fun x => s.translateBy core p asid x.1 sys k == .prot) with
  | some x => some (.prot x.1)
  | none =>
    match (ps.filter (fun x => s.translateBy core p asid x.1 sys k == .fault)).map (·.1 / 65536 * 65536) with
    | [] => none
    | l => some (.fault l.eraseDups)
def State.checkRange (s : State) (p asid va n : Nat) (sys : Bool) (k : Acs) : Option Bad := s.checkBy none p asid va n sys k

/-- Offsets of a piece in its line. -/
def pieceOs (x : Nat × Nat) : List Nat := (List.range x.2).map (x.1 % 256 + ·)
/-- Bytes of one piece, which lies in one line, as an access at its scope reads them. (DEDUCED: entry 54.) -/
def State.pieceBVs (s : State) (v : Via) (p asid : Nat) (sys : Bool) (k : Acs) (x : Nat × Nat) : List BV :=
  match s.translateBy v.core p asid x.1 sys k with
  | .ok pa a =>
    let t := Tgt.of p asid x.1 pa a
    (pieceOs x).map (s.seek (t.rank v.sc) (s.heldOn (s.path v.core t) t) t)
  | _ => []

/-! ### Writes -/

/-- Write bytes of a line at the home of the scope: copies below take them as sent; the home registers the core (R356). -/
def State.storePiece (s : State) (v : Via) (t : Tgt) (ws : List (Nat × BV)) : State :=
  let r := t.rank v.sc
  let path := s.path v.core t
  let s := (path.filter (·.rank < r)).foldl (fun s c =>
    match s.lineAt c t with
    | some l => s.setLine ((s.taint (s.beyond l) l ws).puts ws (fun _ => v.core) false)
    | none => s) s
  let up := path.filter (fun c => r ≤ c.rank && (v.pol ≠ .stream || t.a.home ≠ 0#2 || c.rank = 2 || (s.lineAt c t).isSome))
  s.putOut up t (t.ret v.pol) v.tag ws (fun _ => v.core)

/-! ### Update-only copies -/

/-- The new value of a word, from old and operand (Table 15.1), and the flags of the .f32 forms (R365). -/
def atomNew (op : AtomOp) (ty : MTy) (old b : DWord) : DWord × BitVec 8 :=
  let o32 : Word := old.setWidth 32
  let b32 : Word := b.setWidth 32
  let w (x : Word) : DWord × BitVec 8 := (x.setWidth 64, 0)
  let fr (r : FR) : DWord × BitVec 8 := (r.word.setWidth 64, r.fl)
  let pick (lt : Bool) : DWord × BitVec 8 := (if lt then old else b, 0)
  match op, ty with
  | .exch, _ => (b, 0)
  | .add, .f32 => fr (fAdd fp32 0 (f32 o32) (f32 b32))
  | .min, .f32 => fr (fMinMax fp32 false o32.toNat b32.toNat)
  | .max, .f32 => fr (fMinMax fp32 true o32.toNat b32.toNat)
  | .add, t => if t.size = 8 then (old + b, 0) else w (o32 + b32)
  | .min, .i32 => w (if o32.toInt ≤ b32.toInt then o32 else b32)
  | .max, .i32 => w (if o32.toInt ≤ b32.toInt then b32 else o32)
  | .min, .i64 => pick (old.toInt ≤ b.toInt)
  | .max, .i64 => pick (b.toInt < old.toInt)
  | .min, t => if t.size = 8 then pick (old.toNat ≤ b.toNat) else w (if o32.toNat ≤ b32.toNat then o32 else b32)
  | .max, t => if t.size = 8 then pick (b.toNat < old.toNat) else w (if o32.toNat ≤ b32.toNat then b32 else o32)
  | .and, _ => (old &&& b, 0)
  | .or, _ => (old ||| b, 0)
  | .xor, _ => (old ^^^ b, 0)
  | .inc, _ => w (if o32.toNat ≥ b32.toNat then 0 else o32 + 1)
  | .dec, _ => w (if o32 = 0 ∨ o32.toNat > b32.toNat then b32 else o32 - 1)

/-- The bytes of a written value, by offset in its line. -/
def valBytes (o n : Nat) (x : DWord) : List (Nat × BV) := (toBytes n x.toNat).zipIdx.map (fun y => (o + y.2, BV.of y.1))
/-- Apply one update at the home (R359, R370): poison there discards it, and the error is due to be reported. -/
def State.applyUpd (s : State) (u : UpdOnly) : State :=
  match s.translate u.part u.asid u.va u.sys .write with
  | .ok pa a =>
    let t := Tgt.of u.part u.asid u.va pa a
    let o := u.va % 256
    let bs := (List.range u.ty.size).map (fun i => s.seek 2 (s.heldOn (s.path none t) t) t (o + i))
    if bs.any (·.bad) then { s with due := s.due ++ [.memErr (s.interleave pa).1 (pa / 64 * 64)] }
    else s.storePiece .agent t (valBytes o u.ty.size (atomNew u.op u.ty (BitVec.ofNat 64 (ofBytes (bs.map (·.b)))) u.x).1)
  | _ => s
/-- Combine the update-only copies that `f` names at the home, in the order in which they were made (R359). -/
def State.combine (s : State) (f : UpdOnly → Bool) : State :=
  if s.upds.any f then (s.upds.filter f).foldl State.applyUpd { s with upds := s.upds.filter (fun u => !f u) } else s
/-- Does an update-only copy lie in a range? -/
def UpdOnly.meets (u : UpdOnly) (p asid va n : Nat) : Bool := u.part == p && u.asid == asid && u.va < va + n && va < u.va + u.ty.size
/-- A reader or writer of a range has appeared in some cache (R359). -/
def State.combineAt (s : State) (p asid va n : Nat) : State := s.combine (·.meets p asid va n)
/-- A read of a range fills whole sectors (R211), so it reads every word of them, and their update-only copies are combined first (R359). -/
def State.combineSec (s : State) (p asid va n : Nat) : State :=
  if n = 0 then s else s.combineAt p asid (va / 64 * 64) ((va + n + 63) / 64 * 64 - va / 64 * 64)
/-- Update-only copies whose line has been evicted are combined (R359). -/
def State.combineLost (s : State) : State :=
  s.combine (fun u => !s.lines.any (fun l => l.loc == u.loc && l.part == u.part && l.asid == u.asid && l.va == u.va / 256 * 256))

/-! ### Reads by virtual address -/

/-- Read `n` bytes at a virtual address, each with its poison, as an access at its scope finds them. -/
def State.readBVs (s : State) (v : Via) (p asid va n : Nat) (sys : Bool) (k : Acs) : Except Bad (List BV) :=
  match s.checkBy v.core p asid va n sys k with
  | some b => .error b
  | none => let s := s.combineSec p asid va n; .ok ((piecesOf va n).flatMap (s.pieceBVs v p asid sys k))
/-- The first poisoned byte of a list read at `va`, if any, else the bytes (R226). -/
def clean (va : Nat) (l : List BV) : Except Bad (List Byte) :=
  match l.zipIdx.find? (·.1.bad) with
  | some x => .error (.poison (va + x.2))
  | none => .ok (l.map (·.b))
/-- Read `n` bytes; a poisoned byte is a failure (R226). -/
def State.readBy (s : State) (v : Via) (p asid va n : Nat) (sys : Bool) (k : Acs) : Except Bad (List Byte) :=
  (s.readBVs v p asid va n sys k).bind (clean va)
/-- Read `n` bytes as an agent of the device does. -/
def State.readVa (s : State) (p asid va n : Nat) (sys : Bool) (k : Acs) : Except Bad (List Byte) := s.readBy .agent p asid va n sys k

/-- Sectors of a line that offsets lie in, as words. -/
def sectorWords (os : List Nat) : List Nat := ((os.map (· / 64)).eraseDups).flatMap (fun q => (List.range 16).map (16 * q + ·))
/-- Does a slice have to fill for an access at level `r` (R211): some byte is neither unsent below nor held at the home or beyond? -/
def lacking (r : Nat) (ls : List Line) (os : List Nat) : Bool :=
  os.any (fun o => !ls.any (fun l => if l.loc.rank < r then l.dirty.getLsbD o else l.has o))
/-- What the levels below the home have not sent of some bytes is sent there, and their copies of these words are dropped (R340). -/
def State.sendBelow (s : State) (v : Via) (t : Tgt) (os : List Nat) : State :=
  ((s.path v.core t).filter (·.rank < t.rank v.sc)).foldl (fun s c =>
    match s.lineAt c t with | some l => s.sendWords l (wordsOfBytes os) false | none => s) s
/-- The entry of a miss table that a sector of a line takes (R223). -/
def Tgt.miss (t : Tgt) (slice off : Nat) (sys demand : Bool) : Miss :=
  { slice := slice, byPa := t.byPa, key := if t.byPa then t.pa + off else t.va + off, asid := t.asid, va := t.va + off, part := t.part, demand := demand, sys := sys }
/-- Two requests for one sector share an entry. -/
def Miss.same (x y : Miss) : Bool := x.slice == y.slice && x.byPa == y.byPa && x.key == y.key && (x.byPa || (x.part == y.part && x.asid == y.asid))
/-- Are the slice's 704 entries taken? -/
def State.missFull (s : State) (slice : Nat) : Bool := 704 ≤ (s.misses.filter (·.slice == slice)).length
/-- Ask for the fill of a sector: join the entry it has, or take one, or go to the spill queue when the slice's 704 entries are taken
(R223). -/
def State.askFill (s : State) (m : Miss) : State :=
  if (s.misses ++ s.spill).any m.same then s
  else if s.missFull m.slice then { s with spill := s.spill ++ [m] }
  else { s with misses := s.misses ++ [m] }
/-- A fill that begins and ends within this step: it joins the entry that the sector has, or takes one and gives it back; with none free
its request is appended to the spill queue (R223). (DESIGN CHOICE: entry 24.) -/
def State.passFill (s : State) (m : Miss) : State := if s.missFull m.slice then s.askFill m else s
/-- What a read does on its way (R211, R213, R218, R223, R340): what lies unsent below the home is sent there and the copies below are
dropped; the slice fills the sectors concerned, and each that lacks bytes is one fill; the levels below hold the sectors read, but for
a streaming access, which leaves the line's place in the replacement as it is. (DESIGN CHOICE: entry 4.) -/
def State.touchPiece (s : State) (v : Via) (t : Tgt) (os : List Nat) (demand : Bool) : State :=
  let r := t.rank v.sc
  let path := s.path v.core t
  let sec := sectorWords os
  let ret := t.ret v.pol
  let s := s.sendBelow v t os
  let lack := let ls := s.heldOn path t; ((os.filter (fun o => lacking r ls [o])).map (· / 64 * 64)).eraseDups
  let lacked := lack ≠ []
  let fills := if path.any (fun c => c.rank = 2) then lack else []
  let s := fills.foldl (fun s o => s.passFill (t.miss (s.homeOf t) o true false)) s
  let s := if lacked && demand then
      { s with due := s.due ++ fills.map (fun o => .fill (s.homeVa t.part t.asid t.va) t.asid (t.va + o) t.part (t.pa + o) t.a.cnt)
               ats := if hostLo ≤ t.pa ∧ t.pa < peerLo then insertAsc s.ats ((t.pa - hostLo) / 4096) else s.ats }
    else s
  let s := path.reverse.foldl (fun s c =>
    let miss := (s.lineAt c t).all (fun l => os.any (fun o => !l.has o))
    if c.rank = 2 then (if lacked then s.fillAt c [] t sec ret v.tag else s)
    else if miss && (v.pol ≠ .stream || t.a.home ≠ 0#2) then s.fillAt c (path.filter (c.rank < ·.rank)) t sec ret v.tag
    else s) s
  match path.find? (fun c => r ≤ c.rank && (s.lineAt c t).isSome) with
  | some c => (match s.lineAt c t with
    | some l => if l.ret = 0 ∧ ret = 0 then s else { s.setLine { l with stamp := s.stamp, ret := if l.ret = 0 then ret else l.ret } with stamp := s.stamp + 1 }
    | none => s)
  | none => s
/-- What a read of `n` bytes does on its way. -/
def State.touch (s : State) (v : Via) (p asid va n : Nat) (sys : Bool) (k : Acs) (demand : Bool) : State :=
  ((piecesOf va n).foldl (fun s x =>
    match s.translateBy v.core p asid x.1 sys k with
    | .ok pa a => (s.tlbFill v.core p asid x.1).touchPiece v (Tgt.of p asid x.1 pa a) (pieceOs x) demand
    | _ => s) (s.combineSec p asid va n)).combineLost

/-! ### Writes by virtual address -/

/-- Write the bytes of one piece. -/
def State.writePiece (s : State) (v : Via) (p asid va : Nat) (sys : Bool) (bs : List BV) : State :=
  match s.translateBy v.core p asid va sys .write with
  | .ok pa a =>
    let o := va % 256
    (s.tlbFill v.core p asid va).storePiece v (Tgt.of p asid va pa a) (bs.zipIdx.map (fun x => (o + x.2, x.1)))
  | _ => s
/-- Write bytes, with poison, at a virtual address whose pages are known to allow it. -/
def State.writeBVs (s : State) (v : Via) (p asid va : Nat) (sys : Bool) (bs : List BV) : State :=
  ((piecesOf va bs.length).foldl (fun s x => s.writePiece v p asid x.1 sys ((bs.drop (x.1 - va)).take x.2)) (s.combineAt p asid va bs.length)).combineLost
def State.writeBy (s : State) (v : Via) (p asid va : Nat) (sys : Bool) (bs : List Byte) : State := s.writeBVs v p asid va sys (bs.map BV.of)
/-- Write as an agent of the device does. -/
def State.writeRaw (s : State) (p asid va : Nat) (sys : Bool) (bs : List Byte) : State := s.writeBy .agent p asid va sys bs
/-- Write bytes at a virtual address, or say why it cannot be done; nothing is written then. -/
def State.writeVia (s : State) (v : Via) (p asid va : Nat) (sys : Bool) (bs : List Byte) : Except Bad State :=
  match s.checkBy v.core p asid va bs.length sys .write with
  | some b => .error b
  | none => .ok (s.writeBy v p asid va sys bs)
def State.writeVa (s : State) (p asid va : Nat) (sys : Bool) (bs : List Byte) : Except Bad State := s.writeVia .agent p asid va sys bs

/-! ### Releases and acquires (R357, R358) -/

/-- Lines of a core's L1 and core SRAM. -/
def Line.inCore (l : Line) (core : Nat) : Bool := l.loc == .l1 core || l.loc == .sram core
/-- Send on what the next level has not got of the lines that `f` names. -/
def State.sendLines (s : State) (f : Line → Bool) : State :=
  (s.lines.filter (fun l => f l && l.dirty ≠ 0)).foldl (fun s l =>
    match s.lines.find? (l.same ·) with | some l => s.sendWords l allWords true | none => s) s
/-- Lines of memory beyond the device that slices hold (R441). -/
def Line.outer (l : Line) : Bool := l.loc.rank == 2 && hostLo ≤ l.pa && !l.byPa
/-- A release at level `r` by a core (R357): update-only copies that it covers combine, and dirty words go to the home. -/
def State.release (s : State) (core : Option Nat) (r : Nat) : State :=
  let mine (l : Line) : Bool := core.any l.inCore
  let clus (l : Line) : Bool := core.any (fun c => l.loc == .clus (clusOf c))
  let s := s.combine (fun u => core.any (fun c => (1 ≤ r && u.loc == .l1 c) || (1 ≤ r && u.loc == .sram c) || (2 ≤ r && u.loc == .clus (clusOf c))))
  let s := if 1 ≤ r then s.sendLines mine else s
  let s := if 2 ≤ r then s.sendLines clus else s
  (if 3 ≤ r then s.sendLines (·.outer) else s).combineLost
/-- Does a core own a word that a line below level `r` holds: the home at `r` registers it as the owner, and no level between names
another (R356, R358)? Beyond the slices nothing is registered. (DEDUCED: entry 55.) -/
def State.owns (s : State) (core : Nat) (r : Nat) (l : Line) (w : Nat) : Bool :=
  match (s.beyond l).find? (r ≤ ·.rank) with
  | none => false
  | some h =>
    let regs := (match l.loc with | .clus _ => [shas l.own w] | _ => []) ++ (s.heldOn ((s.beyond l).filter (·.rank ≤ h.rank)) l.tgt).map (fun m => shas m.own w)
    (regs.filterMap id).all (· == core) && (s.lineAt h l.tgt).any (fun m => shas m.own w == some core)
/-- Drop from a line what `stay` does not keep, after sending what is dirty (R358). -/
def State.shed (s : State) (l : Line) (stay : Nat → Bool) : State :=
  let words := allWords.filter (fun w => (wordBytes w).any l.has && !stay w)
  if words = [] then s else s.sendWords l words false
/-- Shed from the lines that `f` names what `stay` does not keep. -/
def State.shedAll (s : State) (f : Line → Bool) (stay : State → Line → Nat → Bool) : State :=
  (s.lines.filter f).foldl (fun s l => match s.lines.find? (l.same ·) with | some l => s.shed l (stay s l) | none => s) s
/-- An acquire at level `r` by a core, or by an agent, once its read has returned (R358). (DEDUCED: entry 55.) -/
def State.acquire (s : State) (core : Option Nat) (r : Nat) : State :=
  let own (s : State) (l : Line) (w : Nat) : Bool := core.any (fun c => s.owns c (l.tgt.rank (if r = 3 then .sys else if r = 2 then .dev else .clus)) l w)
  let s := if 1 ≤ r then s.shedAll (fun l => core.any l.inCore) own else s
  let s := if 2 ≤ r then s.shedAll (fun l => core.any (fun c => l.loc == .clus (clusOf c))) own else s
  (if 3 ≤ r then s.shedAll (·.outer) (fun _ _ _ => false) else s).combineLost

/-! ### Reductions and atomics at a home -/

/-- One reduction at its scope (R359): at the home slice and beyond it is applied there; nearer, it joins the update-only copy of
its word or makes one, after the values that the levels below the slice hold have gone to the slice. -/
def State.redAt (s : State) (v : Via) (t : Tgt) (u : UpdOnly) : State :=
  let s := s.combine (fun x => x.meets u.part u.asid u.va u.ty.size && (x.op ≠ u.op || x.ty ≠ u.ty || x.va ≠ u.va))
  let o := u.va % 256
  let os := (List.range u.ty.size).map (o + ·)
  let path := s.path v.core t
  let s1 := (path.filter (·.rank < max 2 (t.rank v.sc))).foldl (fun s c =>
    match s.lineAt c t with | some l => s.sendWords l (wordsOfBytes os) false | none => s) s
  match path.find? (fun c => t.rank v.sc ≤ c.rank && c.rank < 2) with
  | some c =>
    let s2 := s1.putOut (path.filter (c.rank ≤ ·.rank)) t (t.ret .normal) v.tag [] (fun _ => none)
    let u := { u with loc := c }
    (if s2.upds.any (fun (x : UpdOnly) => x.loc == c && x.meets u.part u.asid u.va u.ty.size) then
      { s2 with upds := s2.upds.map (fun (x : UpdOnly) => if x.loc == c && x.meets u.part u.asid u.va u.ty.size then { x with x := (atomNew u.op u.ty x.x u.x).1 } else x) }
    else { s2 with upds := s2.upds ++ [u] }).combineLost
  | none =>
    let r := t.rank v.sc
    let up := path.filter (r ≤ ·.rank)
    let bs := os.map (s1.seek r (s1.heldOn path t) t)
    if bs.any (·.bad) then { s1 with due := s1.due ++ [.memErr (s1.interleave (t.pa + o)).1 ((t.pa + o) / 64 * 64)] }
    else (s1.putOut up t (t.ret .normal) v.tag
      (valBytes o u.ty.size (atomNew u.op u.ty (BitVec.ofNat 64 (ofBytes (bs.map (·.b)))) u.x).1) (fun _ => v.core)).combineLost

end Sys2Proof.Machine
end

