-- ==== Sys2Proof/Machine/Work.lean ====
section
/-! DEFINITION. Sys2Proof/Machine/Work.lean: finding and changing teams, waves, gangs and grids; rings, event numbers, error,
fault and migration records, interrupts (09_memory.md R215 to R221, 17_interrupts.md R418, 18 R425, R427, R439); energy
true-up (R97); retirement of gangs and grids (R28, R101, R424). -/
namespace Sys2Proof.Machine

/-! ### Finding and changing -/

def State.team? (s : State) (tag : Nat) : Option Team := s.teams.find? (·.tag == tag)
def State.updTeam (s : State) (tag : Nat) (f : Team → Team) : State :=
  { s with teams := s.teams.map (fun t => if t.tag = tag then f t else t) }
def Team.wave? (t : Team) (w : Nat) : Option Wave := t.waves.find? (·.ix == w)
def Team.updWave (t : Team) (w : Nat) (f : Wave → Wave) : Team :=
  { t with waves := t.waves.map (fun x => if x.ix = w then f x else x) }
def State.wave? (s : State) (tag w : Nat) : Option Wave := (s.team? tag).bind (·.wave? w)
def State.updWave (s : State) (tag w : Nat) (f : Wave → Wave) : State := s.updTeam tag (fun t => t.updWave w f)
def State.gang? (s : State) (gid : Nat) : Option Gang := s.gangs.find? (·.gid == gid)
def State.updGang (s : State) (gid : Nat) (f : Gang → Gang) : State :=
  { s with gangs := s.gangs.map (fun g => if g.gid = gid then f g else g) }
def State.grid? (s : State) (id : Nat) : Option Grid := s.grids.find? (·.id == id)
def State.updGrid (s : State) (id : Nat) (f : Grid → Grid) : State :=
  { s with grids := s.grids.map (fun g => if g.id = id then f g else g) }
/-- The gang and the grid of a team. -/
def State.gangOf (s : State) (tag : Nat) : Option Gang := (s.team? tag).bind (fun t => s.gang? t.gid)
def State.gridOf (s : State) (tag : Nat) : Option Grid := (s.gangOf tag).bind (fun g => s.grid? g.grid)
/-- The teams of a gang that have not retired. -/
def State.teamsOf (s : State) (gid : Nat) : List Team := s.teams.filter (fun t => t.gid == gid && !t.retired)
/-- Take a fresh identity. -/
def State.fresh (s : State) : State := { s with nextId := s.nextId + 1 }

/-! ### Rings (Table 4.4) -/

def cfgEn (cfg : DWord) : Bool := cfg.getLsbD 0
def cfgAsid (cfg : DWord) : Nat := bits cfg.toNat 48 16
def cfgBase (cfg : DWord) : Nat := bits cfg.toNat 12 36 * 4096
/-- Entries of a ring: 2^(LOGN + 4). -/
def cfgSize (cfg : DWord) : Nat := 2 ^ (bits cfg.toNat 8 4 + 4)
/-- `RIDX` and `WIDX` of an index register. -/
def idxR (x : DWord) : Nat := bits x.toNat 32 32
def idxW (x : DWord) : Nat := bits x.toNat 0 32
def mkIdx (r w : Nat) : DWord := BitVec.ofNat 64 (r % 2 ^ 32 * 2 ^ 32 + w % 2 ^ 32)
/-- `WIDX` − `RIDX` modulo 2^32. -/
def idxUsed (x : DWord) : Nat := (idxW x + 2 ^ 32 - idxR x) % 2 ^ 32

/-- The next partition event sequence number (R216). -/
def State.seqOf (s : State) (p : Nat) : Nat := (s.part p).eseq.toNat
def State.bumpSeq (s : State) (p : Nat) : State := s.updPart p (fun q => { q with eseq := q.eseq + 1 })

/-- Deliver vector `v`: as a message, or as its pending bit while masked; none while an earlier one is pending (R439). (DESIGN CHOICE: entry 20.) -/
def State.sendMsix (s : State) (v : Nat) : State :=
  if s.msixPend.getLsbD v then s
  else if s.msixMask.getLsbD v then { s with msixPend := s.msixPend ||| (1#64 <<< v) }
  else { s with msgs := v :: s.msgs }
/-- Send the vector of a ring: enable bit and vector field of `IVEC` (Table 18.4). -/
def State.ringMsix (s : State) (p en lo : Nat) : State :=
  let iv := (s.part p).ivec.toNat
  if bit iv en then s.sendMsix (bits iv lo 6) else s

/-- Little-endian fields of a record, one after another: value and size in bytes. -/
def packRec (l : List (Nat × Nat)) : List Byte := l.flatMap (fun f => toBytes f.2 f.1)

/-- What an error record reports (Table 17.10). -/
structure ErrRec where
  kind : Nat
  cause : Nat := 0
  flg : Nat := 0
  tag : Nat := 0xFFFFFFFF
  core : Nat := 0xFFFF
  unit : Nat := 0
  asid : Nat := 0
  addr : Nat := 0
  qseq : Nat := 0
  deriving DecidableEq, Repr

/-- Post an error record, or count it in `EQDROP`: ring disabled, full or not writable (R418, R427). (DEDUCED: entry 28.) -/
def State.postError (s : State) (p : Nat) (e : ErrRec) : State :=
  let q := s.part p
  let drop := s.updPart p (fun q => { q with eqdrop := q.eqdrop + 1 })
  if !cfgEn q.eqcfg || idxUsed q.eqidx ≥ cfgSize q.eqcfg then drop
  else
    let va := cfgBase q.eqcfg + 64 * (idxW q.eqidx % cfgSize q.eqcfg)
    let rec_ := packRec [(s.seqOf p, 8), (e.kind, 1), (e.cause, 1), (e.flg, 1), (0, 1), (e.tag, 4), (e.core, 2), (e.unit, 2),
      (e.asid, 2), (0, 2), (e.addr, 8), (e.qseq, 8), (0, 24)]
    match s.writeVia .outer p (cfgAsid q.eqcfg) va true rec_ with
    | .error _ => drop
    | .ok s1 =>
      let s2 := (s1.bumpSeq p).updPart p (fun q => { q with eqidx := mkIdx (idxR q.eqidx) (idxW q.eqidx + 1) })
      s2.ringMsix p 31 24

/-- Cause code of a failed access (R418). -/
def Bad.code : Bad → Nat | .fault _ => 0x07 | .prot _ => 0x08 | .poison _ => 0x09
/-- First address concerned. -/
def Bad.addr : Bad → Nat | .fault l => l.headD 0 | .prot a => a | .poison a => a

/-! ### Fault records (R216, R217, R221) -/

/-- Access kinds of a fault record (Table 9.6). -/
def kRead : Nat := 1
def kWrite : Nat := 2
def kFetch : Nat := 4
def kEngine : Nat := 8
def kEngRead : Nat := 9
def kEngWrite : Nat := 10

/-- A slot of the fault queue: address space and address. -/
def Part.fqSlot (q : Part) (ix : Nat) : Nat × Nat := (cfgAsid q.fqcfg, cfgBase q.fqcfg + 64 * ix)
/-- Index of the next slot. -/
def Part.fqNext (q : Part) : Nat := idxW q.fqidx % cfgSize q.fqcfg

/-- Read a slot. (DEDUCED: entry 31.) -/
def State.readSlot (s : State) (p : Nat) (x : Nat × Nat) : Except Bad (List Byte) := s.readVa p x.1 x.2 64 true .read

/-- `STATE`, `ASID` and `VBLK` of a record. -/
def slotState (r : List Byte) : Nat := (r.getD 0x13 0).toNat
def slotIs (r : List Byte) (asid blk : Nat) : Bool :=
  ofBytes ((r.drop 0x10).take 2) == asid && ofBytes (r.take 8) == blk

/-- The OPEN record for a block and ASID; where none is found and some slot, which may hold it, cannot be read, that slot with what keeps
it from being read (R217). (DEDUCED: entry 31.) -/
def State.openSlot (s : State) (p asid blk : Nat) : Except ((Nat × Nat) × Bad) (Option Nat) :=
  let slots := (List.range (cfgSize (s.part p).fqcfg)).map (fun ix => (ix, s.readSlot p ((s.part p).fqSlot ix)))
  match slots.find? (fun x => match x.2 with | .ok r => slotState r == 1 && slotIs r asid blk | .error _ => false) with
  | some x => .ok (some x.1)
  | none =>
    match slots.findSome? (fun x => match x.2 with | .error b => some ((s.part p).fqSlot x.1, b) | .ok _ => none) with
    | some x => .error x
    | none => .ok none

/-- The slot cannot be read or written: one error record of kind 5 until an access succeeds again (R217). -/
def State.slotFailed (s : State) (p : Nat) (x : Nat × Nat) (b : Bad) : State :=
  if (s.part p).slotErr then s
  else (s.postError p { kind := 5, cause := b.code, asid := x.1, addr := x.2 }).updPart p (fun q => { q with slotErr := true })

/-- Write a record's bytes; the slot it used, or none. -/
def State.putSlot (s : State) (p : Nat) (x : Nat × Nat) (r : List Byte) : State × Option (Nat × Nat) :=
  match s.writeVa p x.1 x.2 true r with
  | .error b => (s.slotFailed p x b, none)
  | .ok s1 => (s1.updPart p (fun q => { q with slotErr := false }), some x)

/-- Enter a fault in the record of one 4 MiB block (R217): the OPEN record, or the next slot if it is FREE. -/
def State.enterFault (s : State) (p asid blk : Nat) (pages : DWord) (kinds : Nat) : State × Option (Nat × Nat) :=
  let q := s.part p
  if !cfgEn q.fqcfg then (s, none)
  else match s.openSlot p asid blk with
    | .error x => (s.slotFailed p x.1 x.2, none)
    | .ok (some ix) =>
      let x := q.fqSlot ix
      let s := s.touch .agent p x.1 x.2 64 true .read true
      match s.readSlot p x with
      | .error b => (s.slotFailed p x b, none)
      | .ok r =>
        let pg := ofBytes ((r.drop 8).take 8) ||| pages.toNat
        let kd := (r.getD 0x12 0).toNat ||| kinds
        let ct := min (ofBytes ((r.drop 0x14).take 4) + 1) 0xFFFFFFFF
        s.putSlot p x (r.take 8 ++ toBytes 8 pg ++ (r.drop 0x10).take 2 ++ toBytes 1 kd ++ toBytes 1 1 ++ toBytes 4 ct ++ r.drop 0x18)
    | .ok none =>
      let x := q.fqSlot q.fqNext
      let s := s.touch .agent p x.1 x.2 64 true .read true
      match s.readSlot p x with
      | .error b => (s.slotFailed p x b, none)
      | .ok r =>
        if slotState r ≠ 0 then (s.updPart p (fun q => { q with slotErr := false }), none)
        else
          match s.putSlot p x (packRec [(blk, 8), (pages.toNat, 8), (asid, 2), (kinds, 1), (1, 1), (1, 4), (s.seqOf p, 8), (0, 32)]) with
          | (s1, none) => (s1, none)
          | (s1, some x) =>
            ((s1.bumpSeq p).updPart p (fun q => { q with fqidx := mkIdx 0 ((q.fqNext + 1) % cfgSize q.fqcfg) }) |>.ringMsix p 15 8, some x)

/-- Faulting pages, each with its access kinds. -/
abbrev FaultPages := List (Nat × Nat)
/-- The 4 MiB blocks of faulting pages, each with its `PAGES` bits and its kinds. -/
def faultBlocks (pages : FaultPages) : List (Nat × DWord × Nat) :=
  ((pages.map (·.1 / 0x400000 * 0x400000)).eraseDups).map (fun blk =>
    let here := pages.filter (fun a => a.1 / 0x400000 * 0x400000 == blk)
    (blk, here.foldl (fun m a => m ||| (1#64 <<< (a.1 / 65536 % 64))) 0, here.foldl (fun m a => m ||| a.2) 0))

/-- Enter a fault once in the record of each block (R217), with the holds it puts on each slice named. -/
def State.enterFaultsK (s : State) (p asid : Nat) (pages : FaultPages) (sls : List Nat) : State × List Hold :=
  (faultBlocks pages).foldl (fun acc bp =>
    let r := acc.1.enterFault p asid bp.1 bp.2.1 bp.2.2
    (r.1.fresh, acc.2 ++ sls.map (fun sl =>
      { sl := sl, who := r.1.nextId, part := p, slot := r.2, asid := asid, blk := bp.1, pages := bp.2.1, kinds := bp.2.2 }))) (s, [])
/-- The same, with one kind for every page. -/
def State.enterFaults (s : State) (p asid : Nat) (pages : List Nat) (kinds : Nat) (sls : List Nat) : State × List Hold :=
  s.enterFaultsK p asid (pages.map (fun a => (a, kinds))) sls

/-! ### Backing tables of keys (R386) -/

/-- `LOGB` of a partition; a reserved value counts as 0 (Table 16.1). -/
def Part.logB (q : Part) : Nat := let n := bits q.slcfg.toNat 0 5; if 6 ≤ n ∧ n ≤ 26 then n else 0
def Part.slAsid (q : Part) : Nat := bits q.slcfg.toNat 48 16
def Part.slBase (q : Part) : Nat := bits q.slcfg.toNat 12 36 * 4096
/-- Does a range meet the backing table of a partition? -/
def Part.inTable (q : Part) (asid va n : Nat) : Bool := q.logB ≠ 0 && q.slAsid == asid && va < q.slBase + 64 * 2 ^ q.logB && q.slBase < va + n
/-- An undefined `NEXT` of a key. -/
def State.freeNext (s : State) (k : DWord) : Word := (Config.freeWord s.free 972 k.toNat).setWidth 32
/-- Software writes bytes of the backing tables of the partitions that `f` names: their keys hold undefined values of `NEXT` (R386). -/
def State.tablesLost (s : State) (f : Nat → Bool) : State :=
  if (List.range 4).any f then
    { s with keys := s.keys.map (fun k => if f k.part then { k with next := s.freeNext k.key } else k)
             parts := s.parts.zipIdx.map (fun x => if f x.2 then { x.1 with slWild := true, slDef := [] } else x.1) }
  else s
/-- Software writes `n` bytes at a virtual address. -/
def State.tableWrite (s : State) (asid va n : Nat) : State := s.tablesLost (fun p => (s.part p).inTable asid va n)
/-- Does a page of the backing table of a partition lie in a range of physical addresses? -/
def State.tableAt (s : State) (p pa n : Nat) : Bool :=
  let q := s.part p
  q.logB ≠ 0 && (List.range (2 ^ q.logB / 64)).any (fun i =>
    match s.translate p q.slAsid (q.slBase + 4096 * i) true .read with
    | .ok x _ => x < pa + n && pa < x + 4096
    | _ => false)

/-! ### Energy (R95 to R97, R428, R429) -/

def Part.bal (q : Part) : Int := (q.energy.extractLsb' 0 32).toInt
def Part.share (q : Part) : Nat := bits q.energy.toNat 48 12
def Part.rsv (q : Part) : Nat := bits q.energy.toNat 32 16
/-- `BAL` saturates at −2^31 and 2^31 − 1 (R97). -/
def Part.setBal (q : Part) (x : Int) : Part :=
  { q with energy := q.energy.extractLsb' 32 32 ++ BitVec.ofInt 32 (clampI (-(2 ^ 31)) (2 ^ 31 - 1) x) }
/-- Add what the Governor has metered since the last count: an unspecified amount (R428). (DESIGN CHOICE: entry 7.) -/
def State.meterTeam (s : State) (tag : Nat) : State :=
  { s.updTeam tag (fun t => { t with meter := t.meter + Config.energy s.free }) with free := s.free + 1 }
/-- BAL := BAL + EST − M (R97); the energy since this placement is added to the grid's total (R424). -/
def State.trueUp (s : State) (tag : Nat) : State :=
  let s := s.meterTeam tag
  match s.team? tag, s.gridOf tag with
  | some t, some g =>
    let m := t.meter - t.base
    let s := s.updPart t.part (fun q => q.setBal (q.bal + g.lrec.est.toNat - m))
    let s := s.updGrid g.id (fun g => { g with energy := g.energy + m })
    s.updTeam tag (fun t => { t with base := t.meter })
  | _, _ => s

/-! ### Retirement of gangs and grids -/

/-- Gangs of a grid: GX × GY × GZ. -/
def Grid.total (g : Grid) : Nat := g.lrec.gx.toNat * g.lrec.gy.toNat * g.lrec.gz.toNat
/-- The grids launched by the teams of a grid (R28). -/
def State.children (s : State) (id : Nat) : List Grid :=
  s.grids.filter (fun c => match c.parent with | some t => (s.gridOf t).any (·.id == id) | none => false)
/-- May a grid retire: all gangs placed and ended, or none will be placed; all children retired (R28, R100). -/
def State.gridDone (s : State) (g : Grid) : Bool :=
  !g.fin && (g.dead || (bits g.lrec.ctl.toNat 12 2 == 0 && g.next == g.total)) &&
    (s.gangs.filter (·.grid == g.id)).all (·.st == .ended) && (s.children g.id).all (·.fin)

/-- Does a team wait in WCHILD for a child grid that has not retired? -/
def State.childrenLeft (s : State) (tag : Nat) : Bool := s.grids.any (fun g => g.parent == some tag && !g.fin)
/-- A parked gang whose awaited children have all retired goes on the return list (R101). -/
def State.unpark (s : State) : State :=
  { s with gangs := s.gangs.map (fun g =>
      if g.st = .parked ∧ (s.teamsOf g.gid).all (fun t => !s.childrenLeft t.tag) then { g with st := .returning } else g) }

/-- Retire a grid: count it for its parent, or queue its completion (R94, R100, R425). -/
def State.gridRetire (s : State) (g : Grid) : State :=
  let s := s.updGrid g.id (fun g => { g with fin := true })
  match g.parent with
  | some t => (if g.torn then s.updTeam t (fun t => { t with torn := t.torn + 1 }) else s).unpark
  | none => s.updPart g.part (fun q => { q with compl := q.compl ++
      [{ lrec := g.lrec, queue := g.queue, asid := g.asid, status := if g.torn then 0x0C else 0, cause := g.cause, cstat := 0
         energy := g.energy, stage := 0 }] })
/-- Retire every grid that may, a child before its parent. -/
def State.gridsRetire : Nat → State → State
  | 0, s => s
  | n + 1, s =>
    match s.grids.find? s.gridDone with
    | some g => (s.gridRetire g).gridsRetire n
    | none => s
/-- After a gang has ended: retire what may retire. A grid has depth at most 10, so 11 rounds reach every ancestor. -/
def State.afterEnd (s : State) : State := s.gridsRetire 11

/-- Lines pinned for a team's core, which it gives up when it leaves the core (R214). -/
def Line.pinnedFor (l : Line) (tag : Nat) : Bool := l.attr.home == 1#2 && l.tag == tag && l.loc.rank == 0
/-- A team leaves its core: the lines pinned for it are written back and go (R214). -/
def State.leaveCore (s : State) (tag : Nat) : State :=
  match s.team? tag with
  | some _ => s.dropLines (·.pinnedFor tag)
  | none => s
/-- Free what a retired team held (R424): pool records, launder slots it receives in, operand queues, wave slots, SRAM. -/
def State.freeTeam (s : State) (tag : Nat) : State :=
  (s.leaveCore tag).updTeam tag (fun t =>
    { t with retired := true, waves := [], pool := [], scratch := [], scrPoison := [], regPoison := []
             bars := [], aq := { run := false, it := 0, ns := 0, base := [], q := [] }, sramLen := 0 })

/-- Threads that end leave the keys they hold: `NEXT` advances, the holder is cleared, `ABANDONED` is set (R392). -/
def State.abandon (s : State) (f : Nat × Nat × Nat → Bool) : State :=
  { s with keys := s.keys.map (fun k => match k.holder with
      | some h => if f h ∧ k.resBy = none then { k with next := k.next + 1, holder := none, abandoned := true } else k
      | none => k) }

end Sys2Proof.Machine
end

