-- ==== Sys2Proof/Machine/Window.lean ====
section
/-! DEFINITION. Sys2Proof/Machine/Window.lean: shadow windows (10_loads_stores.md R238 to R241), and what a program reads and writes
at a virtual address, in a window or not; fetches (09_memory.md Table 9.3; 06_issue.md R143, R144). -/
namespace Sys2Proof.Machine

/-! ### Causes -/

/-- The worst of a list of causes: protection, then poison, then every faulting page (R402). -/
def worst (l : List Bad) : Option Bad :=
  match l.find? (fun b => match b with | .prot _ => true | _ => false) with
  | some b => some b
  | none =>
    match l.find? (fun b => match b with | .poison _ => true | _ => false) with
    | some b => some b
    | none =>
      match l.flatMap (fun b => match b with | .fault ps => ps | _ => []) with
      | [] => none
      | ps => some (.fault ps.eraseDups)

/-- A failed access of an instruction: a cause that traps, or its faulting pages with their kinds. -/
inductive BadK where
  | trap (b : Bad)
  | pages (ps : FaultPages)
  deriving DecidableEq, Repr
/-- The worst of a list of causes, with the kinds of every faulting page. -/
def worstK (l : List (Bad × Nat)) : Option BadK :=
  match worst (l.map (·.1)) with
  | none => none
  | some (.fault _) => some (.pages (l.flatMap (fun x => match x.1 with | .fault ps => ps.map (·, x.2) | _ => [])).eraseDups)
  | some b => some (.trap b)

/-- Results of a list, or the worst cause among them. -/
def allOk (l : List (Except Bad α)) : Except Bad (List α) :=
  match worst (l.filterMap (fun x => match x with | .error e => some e | .ok _ => none)) with
  | some e => .error e
  | none => .ok (l.filterMap (fun x => match x with | .ok a => some a | .error _ => none))

/-! ### Windows -/

/-- Length of a binding's range (R238). -/
def Shadow.len (b : Shadow) : Nat := (b.count * 2 ^ b.lesz + 65535) / 65536 * 65536
/-- The binding whose range holds a virtual address. -/
def State.shadowAt (s : State) (p asid va : Nat) : Option Shadow :=
  (s.part p).shadows.find? (fun b => b.asid == asid && b.resBy.isNone && b.base ≤ va && va < b.base + b.len)
/-- Address of the index word of a window byte, modulo 2^64 (R202, R239). -/
def Shadow.indexVa (b : Shadow) (va : Nat) : Nat := (b.index + 4 * ((va - b.base) / 2 ^ b.lesz)) % 2 ^ 64
/-- How the gather engine reaches index and target of a window for an access: at their home slices, as a relaxed access at .dev of the
accessing thread (R239, R241). -/
def Via.win (v : Via) : Via := { v with sc := .dev, pol := .normal }
/-- The virtual address that a window byte stands for, or the cause met (R239). -/
def State.windowVa (s : State) (v : Via) (p asid : Nat) (sys : Bool) (b : Shadow) (va : Nat) : Except Bad Nat :=
  let o := va - b.base
  if o ≥ b.count * 2 ^ b.lesz then .error (.prot va)
  else match s.readBy v.win p asid (b.indexVa va) 4 sys .read with
    | .error e => .error e
    | .ok i =>
      let t := (b.target + ofBytes i * 2 ^ b.lesz + o % 2 ^ b.lesz) % 2 ^ 64
      if t ≥ 2 ^ 48 then .error (.prot va) else .ok t
/-- Does a range touch a window of the ASID? -/
def State.inWindow (s : State) (p asid va n : Nat) : Bool :=
  (s.part p).shadows.any (fun b => b.asid == asid && b.resBy.isNone && va < b.base + b.len && b.base < va + n)

/-! ### Reads -/

/-- One byte at a virtual address, through a window if it lies in one (R239). -/
def State.vread1 (s : State) (v : Via) (p asid : Nat) (sys : Bool) (va : Nat) : Except Bad BV :=
  let one (r : Except Bad (List BV)) : Except Bad BV := r.map (·.headD (BV.of 0))
  match s.shadowAt p asid va with
  | none => one (s.readBVs v p asid va 1 sys .read)
  | some b =>
    match s.windowVa v p asid sys b va with
    | .error e => .error e
    | .ok t => one (s.readBVs v.win p asid t 1 sys .read)
/-- `n` bytes of memory at a virtual address, each with its poison (R239 in a window). -/
def State.vreadBVs (s : State) (v : Via) (p asid va n : Nat) (sys : Bool) : Except Bad (List BV) :=
  if s.inWindow p asid va n then allOk ((List.range n).map (fun i => s.vread1 v p asid sys (va + i)))
  else s.readBVs v p asid va n sys .read
/-- The same; a poisoned byte is a failure, but for the bytes that `own` gives a value of its own (R33, R226). -/
def State.vreadOwn (s : State) (v : Via) (p asid va n : Nat) (sys : Bool) (own : Nat → Option Byte) : Except Bad (List Byte) :=
  (s.vreadBVs v p asid va n sys).bind (fun l =>
    clean va (l.zipIdx.map (fun x => match own x.2 with | some b => BV.of b | none => x.1)))
def State.vread (s : State) (v : Via) (p asid va n : Nat) (sys : Bool) : Except Bad (List Byte) := s.vreadOwn v p asid va n sys (fun _ => none)
/-- What a read of the gather engine does on its way: what the core has not sent to the home slice goes there, and the slice fills (R239, R340). -/
def State.gatherTouch (s : State) (v : Via) (p asid va n : Nat) (sys demand : Bool) : State :=
  ((piecesOf va n).foldl (fun s x =>
    match s.translateBy v.core p asid x.1 sys .read with
    | .ok pa a => s.sendBelow v.win (Tgt.of p asid x.1 pa a) (pieceOs x)
    | _ => s) s).touch .agent p asid va n sys .read demand
/-- What such a read does on its way (R211, R218). -/
def State.vtouch (s : State) (v : Via) (p asid va n : Nat) (sys demand : Bool) : State :=
  if s.inWindow p asid va n then
    (List.range n).foldl (fun s i =>
      match s.shadowAt p asid (va + i) with
      | none => s.touch v p asid (va + i) 1 sys .read demand
      | some b => match s.windowVa v p asid sys b (va + i) with
        | .error _ => s
        | .ok t => (s.gatherTouch v p asid (b.indexVa (va + i)) 4 sys demand).gatherTouch v p asid t 1 sys demand) s
  else s.touch v p asid va n sys .read demand

/-! ### Writes -/

/-- Everything that keeps `n` bytes from being written, each cause with its access kind (R217, R239); a release reaches no window
(R240). -/
def State.vcheckK (s : State) (v : Via) (p asid va n : Nat) (sys rel : Bool) : List (Bad × Nat) :=
  if s.inWindow p asid va n then
    if rel then [(.prot va, kWrite)]
    else (List.range n).filterMap (fun i =>
      match s.shadowAt p asid (va + i) with
      | none => (s.checkBy v.core p asid (va + i) 1 sys .write).map (·, kWrite)
      | some b => match s.windowVa v p asid sys b (va + i) with
        | .error e => some (e, kEngRead)
        | .ok t => (s.checkBy v.core p asid t 1 sys .write).map (·, kEngWrite))
  else ((s.checkBy v.core p asid va n sys .write).map (·, kWrite)).toList
/-- Can `n` bytes be written? -/
def State.vcheck (s : State) (v : Via) (p asid va n : Nat) (sys : Bool) : Option Bad := worst ((s.vcheckK v p asid va n sys false).map (·.1))

/-- Bytes by address as runs of consecutive addresses. -/
def runsOf : Sparse BV → List (Nat × List BV)
  | [] => []
  | (a, b) :: r =>
    match runsOf r with
    | (a', l) :: t => if a' = a + 1 then (a, b :: l) :: t else (a, [b]) :: (a', l) :: t
    | [] => [(a, [b])]
/-- The base of the window that a virtual address lies in. -/
def State.winOf (s : State) (p asid va : Nat) : Option Nat := (s.shadowAt p asid va).map (·.base)
/-- Where a byte that is written ends up: itself, or what a window byte stands for. -/
def State.landing (s : State) (v : Via) (p asid : Nat) (sys : Bool) (va : Nat) : Option Nat :=
  match s.shadowAt p asid va with
  | none => some va
  | some b => (s.windowVa v p asid sys b va).toOption
/-- Keep of two bytes for one place the one of the higher rank, the second where they are equal. -/
def keepHigh (m : Sparse (Nat × α)) (a : Nat) (x : Nat × α) : Sparse (Nat × α) :=
  if (shas m a).any (fun y => x.1 < y.1) then m else sput m a x
/-- Where the bytes of one instruction end up, outside windows and through them, each with its lane or other rank: of two elements of one
window that stand for one byte the higher stays (R241), of bytes that reach one place otherwise that of the higher lane (R235). -/
def State.vplaces (s : State) (v : Via) (p asid : Nat) (sys : Bool) (bs : Sparse (Nat × BV)) : Sparse BV × Sparse BV :=
  let wins := (bs.map (fun x => s.winOf p asid x.1)).eraseDups
  let of (w : Option Nat) : Sparse (Nat × BV) := (bs.filter (fun x => s.winOf p asid x.1 == w)).foldl (fun m x =>
    match s.landing v p asid sys x.1 with | some t => sput m t x.2 | none => m) []
  let all : Sparse (Nat × Bool × BV) := wins.foldl (fun m w => (of w).foldl (fun m x => keepHigh m x.1 (x.2.1, w.isSome, x.2.2)) m) []
  let out (k : Bool) : Sparse BV := (all.filter (fun x => x.2.2.1 == k)).map (fun x => (x.1, x.2.2.2))
  (out false, out true)
/-- Write bytes by rising address, each with its rank, whose pages are known to allow it, as one store does: a window's at .dev (R239). -/
def State.vwriteAll (s : State) (v : Via) (p asid : Nat) (sys : Bool) (bs : Sparse (Nat × BV)) : State :=
  let m := s.vplaces v p asid sys bs
  let s := (runsOf m.1).foldl (fun s x => (s.writeBVs v p asid x.1 sys x.2).tableWrite asid x.1 x.2.length) s
  (runsOf m.2).foldl (fun s x => (s.writeBVs v.win p asid x.1 sys x.2).tableWrite asid x.1 x.2.length) s
def State.vwriteBVs (s : State) (v : Via) (p asid va : Nat) (sys : Bool) (bs : List BV) : State :=
  s.vwriteAll v p asid sys (bs.zipIdx.map (fun x => (va + x.2, x.2, x.1)))
def State.vwrite (s : State) (v : Via) (p asid va : Nat) (sys : Bool) (bs : List Byte) : State := s.vwriteBVs v p asid va sys (bs.map BV.of)

/-! ### Run-ahead accesses -/

/-- Does a run-ahead access go through: no window, no cause of Table 9.3, no `NOPF`, and its translation is held wherever it needs one,
that is where its line misses in the home slice and no nearer line holds all its bytes (R208, R222, R240)? -/
def State.runAhead (s : State) (v : Via) (p asid va n : Nat) (sys : Bool) : Bool :=
  !s.inWindow p asid va n &&
    (piecesOf va n).all (fun x =>
      match s.translateBy v.core p asid x.1 sys .read with
      | .ok pa a =>
        let t := Tgt.of p asid x.1 pa a
        let ls := s.heldOn (s.path v.core t) t
        !a.nopf && ((s.tlbHit p asid x.1).isSome || (!t.byPa && (ls.any (fun l => l.loc.rank = 2 || (pieceOs x).all l.has))))
      | _ => false)

/-! ### Fetches -/

/-- Words of eight bytes each. -/
def wordsOf : Nat → List Byte → List DWord
  | 0, _ => []
  | n + 1, bs => BitVec.ofNat 64 (ofBytes (bs.take 8)) :: wordsOf n (bs.drop 8)
/-- Pipe of a wave slot (R13). -/
def Wave.pipe (wv : Wave) : Nat := wv.slot / 4
/-- Code that the loop buffer of the wave's pipe holds, from an address on (R143). -/
def State.bufferedCode (s : State) (t : Team) (wv : Wave) (va n : Nat) : Option (List DWord) :=
  (s.loopBufs.find? (fun b => b.core == t.core && b.pipe == wv.pipe && b.part == t.part && b.asid == t.asid
    && b.start ≤ va && va + 8 * n ≤ b.start + 8 * b.words.length)).map (fun b => (b.words.drop ((va - b.start) / 8)).take n)
/-- Fetch `n` words of code: from the loop buffer, or through L1; a window holds no code (R143, R144, R240). -/
def State.fetch (s : State) (t : Team) (wv : Wave) (sys : Bool) (va n : Nat) : Except Bad (List DWord) :=
  match s.bufferedCode t wv va n with
  | some ws => .ok ws
  | none =>
    if s.inWindow t.part t.asid va (8 * n) then .error (.prot va)
    else (s.readBy (t.via .core) t.part t.asid va (8 * n) sys .fetch).map (wordsOf n)
/-- What a fetch does on its way. -/
def State.fetchTouch (s : State) (t : Team) (wv : Wave) (sys : Bool) (va n : Nat) : State :=
  if (s.bufferedCode t wv va n).isSome then s else s.touch (t.via .core) t.part t.asid va (8 * n) sys .fetch true

end Sys2Proof.Machine
end

