-- ==== Sys2Proof/Machine/Ops.lean ====
section
/-! DEFINITION. Sys2Proof/Machine/Ops.lean: what the instructions share. Hardware loops (R138), abort (R35, R136), teardown
(R411), taking a trap and returning from one (R401 to R410, R420), page faults (R215, R217), the checks and the
bookkeeping of every issue (R45, R53, R56, R57, R65, R72, R131 to R134), results, and pending operations. -/
namespace Sys2Proof.Machine

/-! ### Threads and loops -/

def Wave.thread (wv : Wave) (t : Nat) : Thread := wv.thr.getD t { pc := 0, exited := true, mem := 0, hold := none }
/-- Change the threads of a set. -/
def Wave.mapThr (wv : Wave) (m : Lanes) (f : Nat → Thread → Thread) : Wave :=
  { wv with thr := wv.thr.zipIdx.map (fun x => if m.getLsbD x.2 then f x.2 x.1 else x.1) }
def Wave.setPcs (wv : Wave) (m : Lanes) (f : Nat → DWord) : Wave := wv.mapThr m (fun t x => { x with pc := f t })

/-- The open region run of a slice. -/
def Wave.region? (wv : Wave) (sl : Nat) : Option Region := wv.regions.find? (·.sl == sl)
/-- A slice whose run has ended waits for its commit (R464). -/
def Wave.ending (wv : Wave) (sl : Nat) : Bool := wv.regions.any (fun r => r.sl == sl && r.ended.isSome)

/-- A thread that runs: it has not exited and no loop holds it (R125). -/
def Thread.live (t : Thread) : Bool := !t.exited && t.hold.isNone

/-- Arrivals at the innermost loop, entry `top` with END `fin` (R138); a slice that waits for its commit has not arrived. -/
def Wave.arrive (wv : Wave) (top : Nat) (fin : DWord) : Wave :=
  { wv with thr := wv.thr.zipIdx.map (fun x =>
      if x.1.live && x.1.mem.getLsbD top && x.1.pc == fin && !wv.ending (x.2 / 4) then { x.1 with hold := some (top, false) } else x.1) }
/-- Is every thread that entered the loop held by it or exited? -/
def Wave.loopFull (wv : Wave) (top : Nat) : Bool :=
  wv.thr.all (fun t => !t.mem.getLsbD top || t.exited || t.hold.any (·.1 == top))
/-- Release a thread from loop entry `top`. -/
def Thread.release (top : Nat) (t : Thread) : Thread :=
  { t with mem := t.mem &&& ~~~(1#3 <<< top), hold := if t.hold.any (·.1 == top) then none else t.hold }
/-- Pop the innermost loop and release its threads. -/
def Wave.popLoop (wv : Wave) (top : Nat) : Wave :=
  { wv with loops := wv.loops.dropLast, thr := wv.thr.map (Thread.release top) }
/-- Send an arrived thread back to START. -/
def Thread.again (top : Nat) (start : DWord) (t : Thread) : Thread :=
  if t.hold = some (top, false) then { t with pc := start, hold := none } else t
/-- Step the loops as far as they go (R138). -/
def Wave.settle : Nat → Wave → Wave
  | 0, wv => wv
  | n + 1, wv =>
    match wv.loops.getLast? with
    | none => wv
    | some e =>
      let top := wv.loops.length - 1
      let wv := wv.arrive top e.fin
      if !wv.loopFull top then wv
      else if !wv.thr.any (·.hold == some (top, false)) then (wv.popLoop top).settle n
      else if (wv.lcr e.k).toNat ≤ 1 then ({ wv.popLoop top with lc := sset 0 wv.lc e.k 0 }).settle n
      else
        ({ wv with lc := sset 0 wv.lc e.k (wv.lcr e.k - 1)
                   thr := wv.thr.map (Thread.again top e.start) }).settle n

/-! ### Journals -/

/-- What holds now: the newest entry of a journal. -/
def jTop : List (Nat × α) → Option α
  | [] => none
  | x :: _ => some x.2
/-- Run `rid` sets a new value. -/
def jSet (j : List (Nat × α)) (rid : Nat) (x : α) : List (Nat × α) := (rid, x) :: j
/-- An abort of a run takes out what it set (R35). -/
def jDrop (j : List (Nat × α)) (rid : Nat) : List (Nat × α) := j.filter (·.1 ≠ rid)
/-- Entries down to the newest committed one. -/
def jTrim : List (Nat × α) → List (Nat × α)
  | [] => []
  | x :: r => if x.1 = 0 then [x] else x :: jTrim r
/-- What a run set is committed. -/
def jCommit (j : List (Nat × α)) (rid : Nat) : List (Nat × α) := jTrim (j.map (fun x => if x.1 = rid then (0, x.2) else x))

/-- The B descriptor, the walk state and the scene of a wave. -/
def Wave.bdesc (wv : Wave) : Option BDesc := (jTop wv.bdescs).join
def Wave.walk (wv : Wave) : Option Walk := jTop wv.walks
def Wave.scene (wv : Wave) : Option (List Byte) := jTop wv.scenes
/-- A run gives back the tiles that it took (R302). -/
def Walk.undo (k : Walk) (rid : Nat) : Walk := { k with gone := k.gone.filter (·.1 ≠ rid) }
/-- The tiles that a run took are taken for good. -/
def Walk.commit (k : Walk) (rid : Nat) : Walk := { k with gone := k.gone.map (fun x => if x.1 = rid then (0, x.2) else x) }
/-- What a run did to them is undone, or committed. -/
def Wave.jUndo (wv : Wave) (rid : Nat) : Wave :=
  { wv with bdescs := jDrop wv.bdescs rid, scenes := jDrop wv.scenes rid, walks := (jDrop wv.walks rid).map (fun x => (x.1, x.2.undo rid)) }
def Wave.jKeep (wv : Wave) (rid : Nat) : Wave :=
  { wv with bdescs := jCommit wv.bdescs rid, scenes := jCommit wv.scenes rid
            walks := (jCommit wv.walks rid).map (fun x => (x.1, x.2.commit rid)) }

/-! ### Abort (R35, R136) -/

/-- Undo what runs that abort together changed in the pool of their team: their fragments go back to the head, in delivery order (R324). -/
def PoolRec.undo (r : PoolRec) (rids : List Nat) : PoolRec :=
  { r with frags := (r.taken.filter (fun x => rids.contains x.1)).map (·.2) ++ r.frags
           taken := r.taken.filter (fun x => !rids.contains x.1)
           cands := r.cands.map (fun c => if c.taken.any rids.contains then { c with taken := none } else c) }
/-- Return a popped entry to the slice that will pop it again (R253). -/
def QEnt.undo (e : QEnt) (w sl rid : Nat) : QEnt :=
  if e.rids.contains rid then { e with rids := e.rids.filter (· ≠ rid), redo := e.redo ++ [(w, sl)] } else e
/-- Undo a run in the access program: one that it started stops and loses its entries, its pops are given back (R254). -/
def Aq.undo (a : Aq) (w : Nat) (r : Region) : Aq :=
  if r.aqStart then { run := false, it := 0, ns := 0, base := [], q := a.q.map (fun _ => []) }
  else { a with q := a.q.map (·.map (·.undo w r.sl r.rid)) }
/-- Take a run out of the pending operations: its lanes leave with their results and flags, and an operation that no run holds any more
is cancelled (R136). -/
def Pend.drop (q : Pend) (r : Region) : Option Pend :=
  if q.rids.contains r.rid then
    let rids := q.rids.filter (· ≠ r.rid)
    let m := q.lanes &&& ~~~sliceMask r.sl
    if rids = [] then none
    else some { q with
      rids := rids, lanes := m
      wr := q.wr.filter (fun x => match x with | .v _ l _ => m.getLsbD l | .p _ l _ => m.getLsbD l | _ => true)
      flags := if q.lfl = [] then q.flags else (lanesOf m).foldl (fun f l => f ||| q.lfl.getD l 0) 0 }
  else some q
/-- Event counters after the operations of `gone` are removed. -/
def decEv (ev : Sparse Nat) (gone : List Pend) : Sparse Nat :=
  gone.foldl (fun e q => match q.ev with | some n => sset 0 e n (sget 0 e n - 1) | none => e) ev

/-- Undo a run in its wave. -/
def Wave.undo (wv : Wave) (r : Region) : Wave :=
  let gone := wv.pend.filter (fun q => (q.drop r).isNone)
  { wv.jUndo r.rid with
    regions := wv.regions.filter (·.rid ≠ r.rid)
    pend := wv.pend.filterMap (·.drop r)
    ev := decEv wv.ev gone
    acc := r.undo.acc.foldl (fun a x => sset { cls := .fin, x := 0 } a x.1 x.2) wv.acc
    mopen := (wv.mopen.map (fun e => if e.rids.contains r.rid then { e with lanes := e.lanes &&& ~~~sliceMask r.sl } else e)).filter (·.lanes ≠ 0)
    joining := wv.joining &&& ~~~(1#8 <<< r.sl)
    thr := wv.thr.zipIdx.map (fun x => if x.2 / 4 = r.sl then r.undo.thr.getD (x.2 % 4) x.1 else x.1)
    bundle := match wv.bundle with
      | some b => let m := b.mask &&& ~~~sliceMask r.sl
                  if m = 0 then none else some { b with mask := m }
      | none => none }

/-- Abort one region run. -/
def State.abort1 (s : State) (tag w : Nat) (r : Region) : State :=
  let s := s.updTeam tag (fun t => { t.updWave w (·.undo r) with aq := t.aq.undo w r })
  let part := (s.team? tag).elim 0 (·.part)
  let s := s.updPart part (fun q => { q with shadows := (q.shadows.filter (·.resBy ≠ some r.rid)).map (fun b =>
    if b.leaving = some r.rid then { b with leaving := none } else b) })
  { s with keys := (s.keys.filter (fun k => k.made ≠ some r.rid)).map (fun k => if k.resBy = some r.rid then { k with resBy := none, holder := none } else k) }

/-- A slice that has committed and waits in BAR, NBAR or WCHILD. -/
def Wave.waitsIn (wv : Wave) (sl : Nat) : Bool := wv.waits.any (·.1 == sl)
/-- Restore the snapshot of loop mode: every slice restarts at its clause, one that waited in BAR, NBAR or WCHILD among them; threads that
have exited stay so (R141). (DEDUCED: entry 56.) -/
def Wave.restore (wv : Wave) : Wave :=
  match wv.snap with
  | some n => { wv with loops := n.loops, lc := n.lc, bundle := none, waits := []
                        thr := wv.thr.zipIdx.map (fun x => if x.1.exited then x.1 else n.thr.getD x.2 x.1) }
  | none => wv

/-- Abort the runs of the slices named; in loop mode every open run of the wave, with the snapshot restored (R35, R141).
Answers the slices aborted. (DEDUCED: entry 56.) -/
def State.abort (s : State) (tag w : Nat) (sls : List Nat) : State × List Nat :=
  match s.wave? tag w with
  | none => (s, [])
  | some wv =>
    let rs := if wv.loopMode then wv.regions else wv.regions.filter (fun r => sls.contains r.sl)
    let done := rs.map (·.sl)
    let s := rs.foldl (fun s r => s.abort1 tag w r) (s.updTeam tag (fun t => { t with pool := t.pool.map (fun x => (x.1, x.2.undo (rs.map (·.rid)))) }))
    if wv.loopMode && rs ≠ [] then (s.updWave tag w (·.restore), done) else (s, done)

/-! ### Pending operations -/

/-- Was the place of a write of a pending result written meanwhile? -/
def Pend.clobbered (q : Pend) : RegW → Bool
  | .v n l _ => q.clob.any (fun x => x.1 == .v n && x.2.getLsbD l)
  | .p n l _ => q.clob.any (fun x => x.1 == .p n && x.2.getLsbD l)
  | x => q.clob.any (·.1 == x.reg)
/-- Write a result that has arrived; where a destination was written meanwhile, either value stays (R132). -/
def Wave.deliver (wv : Wave) (free : Nat) (q : Pend) (ws : List RegW) (fl : BitVec 8) : Wave :=
  let wv' := wv.puts ((ws.zipIdx.filter (fun x => !q.clobbered x.1 || Config.freeBool free x.2)).map (·.1))
  { wv' with fflags := wv.fflags ||| fl.setWidth 64 }
/-- A word of a register that is written is poisoned no longer (R415). -/
def Team.cleanRegs (t : Team) (w : Nat) (ws : List RegW) : Team :=
  { t with regPoison := t.regPoison.filter (fun x => !(x.1 == w && ws.any (fun r => r.reg == x.2.1 &&
      (match r with | .v _ l _ => l == x.2.2 | _ => true)))) }
/-- Complete a pending operation: write its result, lower its counter, forget it (R134). -/
def Wave.finishPend (wv : Wave) (free : Nat) (q : Pend) (ws : List RegW) (fl : BitVec 8) : Wave :=
  let wv := wv.deliver free q ws fl
  { wv with pend := wv.pend.filter (·.id ≠ q.id), ev := decEv wv.ev [q] }
def State.finishPend (s : State) (tag w : Nat) (q : Pend) (ws : List RegW) (fl : BitVec 8) : State :=
  { s.updTeam tag (fun t => (t.updWave w (·.finishPend s.free q ws fl)).cleanRegs w ws) with free := s.free + 1 }
def Wave.pend? (wv : Wave) (id : Nat) : Option Pend := wv.pend.find? (·.id == id)

/-- The SFU operations: their results are known at issue. -/
def isSfu : Instr → Bool
  | .rcp _ _ _ _ | .rsq _ _ _ | .sqrt _ _ _ _ | .exp2 _ _ _ | .log2 _ _ _ | .sin _ _ _ | .cos _ _ _ | .tanh _ _ _ => true
  | _ => false
/-- Write the pending SFU results of a wave into their registers (R136). (DEDUCED: entry 30.) -/
def State.flushSfu (s : State) (tag w : Nat) : State :=
  match s.wave? tag w with
  | none => s
  | some wv => (wv.pend.filter (fun q => isSfu q.instr)).foldl (fun s q => s.finishPend tag w q q.wr q.flags) s

/-! ### Teardown (R411) -/

/-- Post the kind-3 record of a team (Table 17.10): its own cause if it is the one named, else 0x16. -/
def State.tornRecord (s : State) (who : Nat) (cause flg addr : Nat) (t : Team) : State :=
  let seq := (s.gridOf t.tag).elim 0 (·.lrec.seq.toNat)
  let e : ErrRec := { kind := 3, cause := if t.tag = who then cause else 0x16, flg := if t.tag = who then flg else 0, tag := t.tag
                      core := t.core, asid := t.asid, addr := if t.tag = who then addr else 0, qseq := seq }
  s.postError t.part e

/-- Tear a gang down for a trap or error of team `who`. -/
def State.teardown (s : State) (gid who cause flg addr : Nat) : State :=
  match s.gang? gid with
  | none => s
  | some g =>
    let ts := s.teamsOf gid
    let s := ts.foldl (fun s t => t.waves.foldl (fun s wv => wv.regions.foldl (fun s r => s.abort1 t.tag wv.ix r) s) s) s
    let s := s.abandon (fun h => ts.any (·.tag == h.1))
    let s := ts.foldl (fun s t => s.trueUp t.tag) s
    let s := ts.foldl (fun s t => s.tornRecord who cause flg addr t) s
    let s := ts.foldl (fun s t => s.freeTeam t.tag) s
    let s := s.updGang gid (fun g => { g with st := .ended, launders := [], nbars := [] })
    let s := s.updGrid g.grid (fun r => { r with torn := true, cause := if r.torn then r.cause else cause })
    s.afterEnd

/-! ### Taking a trap, and returning from one -/

/-- Address of the frame of a wave (R406). -/
def State.frameAddr (s : State) (t : Team) (wv : Wave) : Nat :=
  bits (s.part t.part).tsave.toNat 12 36 * 4096 + 0x4800 * (16 * t.core + wv.slot)

/-- The `PC` word of a thread (Table 17.7). -/
def framePc (joining : Bool) (t : Thread) : Nat :=
  t.pc.toNat / 8 * 8 % 2 ^ 48 + (if t.exited then 1 else 0) + (if t.hold.isSome then 2 else 0) + (if joining then 4 else 0)
    + t.mem.toNat * 2 ^ 48 + (t.hold.elim 0 (·.1)) * 2 ^ 51 + (if t.hold.any (·.2) then 2 ^ 53 else 0)
/-- A loop entry (Table 17.7). -/
def frameLoop (e : Loop) : List Byte := toBytes 8 (e.start.toNat % 2 ^ 48 + e.k * 2 ^ 48 + 2 ^ 63) ++ toBytes 8 e.fin.toNat
/-- The `WAITS` byte of a slice. -/
def Wait.byte : Wait → Nat
  | .bar b _ _ => 0x10 + b % 16
  | .nbar b _ _ => 0x20 + b % 16
  | .wchild _ _ _ => 0x30
def Wave.waitByte (wv : Wave) (sl : Nat) : Nat := (wv.waits.find? (·.1 == sl)).elim 0 (·.2.byte)
/-- The bytes of the frame, by offset (Table 17.7): of the registers, only the declared ones. (DEDUCED: entry 29.) -/
def Wave.frame (wv : Wave) (faddr : DWord) (vr sr : Nat) : List (Nat × List Byte) :=
  [(0x0000, (wv.thr.zipIdx).flatMap (fun x => toBytes 8 (framePc (wv.joining.getLsbD (x.2 / 4)) x.1))),
   (0x0100, toBytes 8 faddr.toNat ++ toBytes 8 wv.fmode.toNat ++ toBytes 8 wv.fflags.toNat),
   (0x0118, (List.range 3).flatMap (fun k => toBytes 4 (wv.lcr k).toNat) ++ toBytes 4 (if wv.loopMode then 1 else 0)),
   (0x0128, (List.range 3).flatMap (fun j => (wv.loops[j]?).elim (List.replicate 16 0) frameLoop)),
   (0x0158, (List.range 8).flatMap (fun sl => toBytes 1 (wv.waitByte sl))),
   (0x0200, (List.range 128).flatMap (fun n => toBytes 4 (wv.pr n).toNat)),
   (0x0400, (List.range sr).flatMap (fun n => toBytes 8 (wv.sr n).toNat)),
   (0x0800, (List.range vr).flatMap (fun n => (List.range 32).flatMap (fun l => toBytes 4 (wv.vr n l).toNat)))]
/-- The slots of the registers that the kernel does not declare hold unspecified values (Table 17.7). (DEDUCED: entry 29.) -/
def frameOpen (free vr sr : Nat) : List (Nat × List Byte) :=
  let any (o n : Nat) : Nat × List Byte := (o, (List.range n).map (fun i => (Config.freeWord free 980 (o + i)).setWidth 8))
  (if sr < 64 then [any (0x0400 + 8 * sr) (8 * (64 - sr))] else []) ++ (if vr < 128 then [any (0x0800 + 128 * vr) (128 * (128 - vr))] else [])

/-- Can a piece of a frame be written, in the team's ASID and in system mode? Never in a shadow window (R238, R240). -/
def State.pieceOk (s : State) (t : Team) (base : Nat) (x : Nat × List Byte) : Bool :=
  !s.inWindow t.part t.asid (base + x.1) x.2.length && (s.checkBy (some t.core) t.part t.asid (base + x.1) x.2.length true .write).isNone
/-- Write pieces at a base address as .core stores of the team's core; nothing is written if any piece cannot be (R407). -/
def State.writePieces (s : State) (t : Team) (base : Nat) (ps : List (Nat × List Byte)) : Option State :=
  if ps.all (s.pieceOk t base) then
    some (ps.foldl (fun s x => s.writeBy (t.via .core) t.part t.asid (base + x.1) true x.2) s)
  else none
/-- Write a frame; the slots of undeclared registers take unspecified values where they can be written. -/
def State.writeFrame (s : State) (t : Team) (base : Nat) (wv : Wave) (faddr : DWord) (vr sr : Nat) : Option State :=
  match s.writePieces t base (wv.frame faddr vr sr) with
  | none => none
  | some s' => some (((s'.writePieces t base ((frameOpen s.free vr sr).filter (s'.pieceOk t base))).getD s'))

/-- Counts of the copies that have performed and not completed, by event counter (R136). -/
def State.copyEv (s : State) (tag w : Nat) : Sparse Nat :=
  (s.copies.filter (fun c => c.tag == some tag && c.wave == w)).foldl
    (fun e c => match c.ev with | some n => sset 0 e n (sget 0 e n + 1) | none => e) []

/-- The wave as the handler starts (R407 step 5). -/
def Wave.enter (wv : Wave) (q : TrapReq) (tvec : DWord) (ev : Sparse Nat) : Wave :=
  { wv with
    tcause := BitVec.ofNat 64 (q.lanes.toNat * 2 ^ 32 + (if q.after then 256 else 0) + q.cause)
    taddr := BitVec.ofNat 64 (q.addr.toNat % 2 ^ 48), tregion := BitVec.ofNat 64 (q.region.toNat % 2 ^ 48)
    thr := List.replicate 32 { pc := BitVec.ofNat 64 (bits tvec.toNat 3 45 * 8), exited := false, mem := 0, hold := none }
    loops := [], joining := 0, loopMode := false, snap := none, ev := ev, waits := [], keptW := wv.waits, keptOver := [], age := [], bundle := none
    trapQ := none, handler := true, kept := wv.holds, holds := [], waitCnt := none, waitIds := [], waitRids := [], mfAcq := none }

/-- A cast of a wave whose counters are cleared is counted no more (R136). (DEDUCED: entry 41.) -/
def PoolRec.uncount (r : PoolRec) (w : Nat) : PoolRec := if r.wave = w then { r with ev := none } else r
/-- Enter the pending trap of a wave once nothing of it is pending any more (R407): write `TCAUSE`, `TADDR`, `TREGION` and
the frame, and start the handler; without a handler, in handler mode, or with a frame that cannot be written, tear the
gang down (R410, R411). A trap found once a pre-emption had stopped issue is kept until the gang is placed again; one raised before
that is entered first (R402). -/
def State.enterTrap (s : State) (tag w : Nat) : State :=
  match s.team? tag, s.wave? tag w with
  | some t, some wv =>
    match wv.trapQ with
    | none => s
    | some q =>
      let tvec := (s.part t.part).tvec
      let st := (s.gang? t.gid).elim .placed (·.st)
      if st ≠ .placed && (q.late || st ≠ .leaving) then s
      else if wv.handler then s.teardown t.gid tag q.cause (if tvec.getLsbD 0 then 2 else 6) q.addr.toNat
      else if !tvec.getLsbD 0 then s.teardown t.gid tag q.cause 4 q.addr.toNat
      else if wv.pend ≠ [] then s
      else
        let k := (s.gang? t.gid).map (·.kobj)
        match s.writeFrame t (s.frameAddr t wv) wv q.faddr (k.elim 0 (·.vregs)) (k.elim 0 (·.sregs)) with
        | none => s.teardown t.gid tag q.cause 12 q.addr.toNat
        | some s => s.updTeam tag (fun t => { t.updWave w (·.enter q tvec (s.copyEv tag w)) with pool := t.pool.map (fun x => (x.1, x.2.uncount w)) })
  | _, _ => s

/-- Take a trap in a wave (R407): every open run aborts, then the pending SFU results are written (R136), the threads of the trapping bundle `bl`
get the PC of `TREGION`, and the handler is entered as soon as committed operations have completed. A trap that comes while one of a
committed instance is pending is lost. (DEDUCED: entry 30.) -/
def State.takeTrap (s : State) (tag w : Nat) (bl : Lanes) (q : TrapReq) : State :=
  let s := (s.abort tag w (List.range 8)).1.flushSfu tag w
  let q := if q.cause = 0x15 then { q with faddr := 0 } else q
  let late := (((s.team? tag).map (·.gid)).bind s.gang?).any (·.st ≠ .placed)
  let s := s.updWave tag w (fun wv =>
    { wv.mapThr bl (fun _ t => if t.exited then t else { t with pc := q.region }) with bundle := none, trapQ := if wv.trapQ.any (·.after) then wv.trapQ else some { q with late := late } })
  s.enterTrap tag w

/-- Go on after an operation of a wave has completed: a pending trap may now be entered. -/
def State.afterPend (s : State) (tag w : Nat) : State := s.enterTrap tag w

/-- One thread from its `PC` word. -/
def threadOf (x : Nat) : Thread :=
  { pc := BitVec.ofNat 64 (bits x 3 45 * 8), exited := bit x 0, mem := BitVec.ofNat 3 (bits x 48 3)
    hold := if bit x 1 then some (bits x 51 2, bit x 53) else none }
/-- A loop entry from the frame. -/
def loopOf (r : List Byte) : Option Loop :=
  let a := ofBytes (r.take 8)
  if bit a 63 then some { start := BitVec.ofNat 64 (a % 2 ^ 48), fin := BitVec.ofNat 64 (ofBytes (r.drop 8)), k := bits a 48 2 } else none

/-- Does a frame keep Table 17.7 (R420)? -/
def frameOk (f : Nat → Nat → List Byte) : Bool :=
  let raw := (List.range 3).map (fun j => f (0x128 + 16 * j) 16)
  let ls := raw.map loopOf
  let valid (j : Nat) : Bool := (ls.getD j none).isSome
  let pcs := (List.range 32).map (fun t => ofBytes (f (8 * t) 8))
  pcs.all (fun x => bits x 54 10 = 0 && (List.range 3).all (fun j => !bit x (48 + j) || valid j)
    && (!bit x 1 || (valid (bits x 51 2) && bit x (48 + bits x 51 2))))
  && raw.all (fun r => let a := ofBytes (r.take 8); bits a 50 13 = 0 && (!bit a 63 || bits a 48 2 < 3))
  && ofBytes (f 0x108 8) < 4 && ofBytes (f 0x110 8) < 256
  && ls.all (fun l => l.all (fun e => e.start.toNat < e.fin.toNat && e.fin.toNat < 2 ^ 48))
  && ((ls.filterMap id).map (·.k)).Nodup
  && (!valid 1 || valid 0) && (!valid 2 || valid 1)
  && (List.range 8).all (fun sl => let b := ofBytes (f (0x158 + sl) 1); b < 64)
  && ofBytes (f 0x124 4) < 2

/-- The wait that a byte of `WAITS` gives a slice (R409, R420): the one it had at trap entry, unless its barrier has completed since; or
another that the handler has stored, of the threads that the frame lets run, at the word before the lowest PC of theirs. (DEDUCED: entry 29.) -/
def Wave.waitBack (wv : Wave) (thr : List Thread) (sl b : Nat) : Option (Nat × Wait) :=
  let here : Wave := { wv with thr := thr }
  let m := sliceMask sl &&& lanesWhere (fun l => (here.thread l).live)
  let at_ : DWord := (((lanesOf m).map (fun l => (here.thread l).pc)).foldl (fun (x : Option DWord) y => some (x.elim y (fun x => if x.toNat < y.toNat then x else y))) none).getD 8 - 8
  match wv.keptW.find? (fun x => x.1 == sl && x.2.byte == b) with
  | some x => if wv.keptOver.contains sl then none else some x
  | none => if b / 16 = 1 then some (sl, .bar (b % 16) at_ m) else if b / 16 = 2 then some (sl, .nbar (b % 16) at_ m)
    else if b / 16 = 3 then some (sl, ((wv.keptW.find? (fun x => x.1 == sl && x.2.byte == 0x30)).map (·.2)).getD (.wchild 0 .zero 0)) else none
/-- The wave as the frame gives it (R420). (DEDUCED: entry 29.) -/
def Wave.leave (wv : Wave) (f : Nat → Nat → List Byte) (vr sr : Nat) : Wave :=
  let num (o n : Nat) : Nat := ofBytes (f o n)
  let thr := (List.range 32).map (fun t => threadOf (num (8 * t) 8))
  { wv with
    thr := thr
    joining := BitVec.ofNat 8 ((List.range 8).foldr (fun sl n => (if bit (num (32 * sl) 8) 2 then 1 else 0) + 2 * n) 0)
    fmode := BitVec.ofNat 64 (num 0x108 8 % 4), fflags := BitVec.ofNat 64 (num 0x110 8 % 256)
    lc := (List.range 3).foldl (fun m k => sset 0 m k (BitVec.ofNat 32 (num (0x118 + 4 * k) 4))) []
    loopMode := bit (num 0x124 4) 0
    loops := (List.range 3).filterMap (fun j => loopOf (f (0x128 + 16 * j) 16))
    p := (List.range 127).foldl (fun m n => sset 0 m n (BitVec.ofNat 32 (num (0x200 + 4 * n) 4))) []
    s := (List.range sr).foldl (fun m n => sset 0 m n (BitVec.ofNat 64 (num (0x400 + 8 * n) 8))) (wv.s.filter (sr ≤ ·.1))
    v := (List.range (32 * vr)).foldl (fun m i => sset 0 m i (BitVec.ofNat 32 (num (0x800 + 4 * i) 4))) (wv.v.filter (32 * vr ≤ ·.1))
    waits := (List.range 8).filterMap (fun sl => wv.waitBack thr sl (num (0x158 + sl) 1)), keptW := [], keptOver := [], handler := false, holds := wv.kept, kept := [], relatch := true, regions := [], bundle := none, snap := none, sb := [], age := [] }

/-! ### Page faults (R215) -/

/-- Hold slices on the records of a fault. -/
def Wave.addHolds (wv : Wave) (hs : List Hold) : Wave := { wv with holds := wv.holds ++ hs }
/-- Enter the page fault of one instruction once per block, and hold its slices. -/
def State.faultHold (s : State) (tag w : Nat) (sls : List Nat) (pages : FaultPages) : State :=
  match s.team? tag with
  | none => s
  | some t =>
    let f := s.enterFaultsK t.part t.asid pages sls
    f.1.updWave tag w (·.addHolds f.2)
/-- Page faults of instructions that are found together: the runs of their slices abort once, and each fault is entered (R402, R217). -/
def State.pageFaults (s : State) (tag w : Nat) (l : List (List Nat × FaultPages)) : State :=
  l.foldl (fun s x => s.faultHold tag w x.1 x.2) (s.abort tag w ((l.flatMap (·.1)).eraseDups)).1
/-- A page fault of one instruction: enter it once per block, abort the runs of the slices, hold them. -/
def State.pageFaultK (s : State) (tag w : Nat) (sls : List Nat) (pages : FaultPages) : State := s.pageFaults tag w [(sls, pages)]
/-- The same, with one kind for every page. -/
def State.pageFault (s : State) (tag w : Nat) (sls : List Nat) (pages : List Nat) (kinds : Nat) : State :=
  s.pageFaultK tag w sls (pages.map (fun a => (a, kinds)))

/-! ### Issue -/

/-- Why an instruction does not complete at issue: it waits; it traps, with the first faulting byte; it faults on pages in
some slices. -/
inductive Stop where
  | wait
  | trap (cause : Nat) (faddr : Nat)
  | fault (sls : List Nat) (pages : FaultPages)
  deriving DecidableEq, Repr

/-- A run that has ended with a fence, or with an operation whose destination is still to be written, holds its wave (R134, R371). -/
def Region.holdsWave (r : Region) : Bool :=
  match r.ended with
  | some (.op e) => (match e.instr with | .fence _ _ _ => true | i => e.lanes ≠ 0 && i.dstRegs ≠ [])
  | _ => false
/-- A wave that must issue nothing (R134, R135, R295, R296, R402, R421). -/
def Wave.blocked (wv : Wave) : Bool :=
  wv.regions.any (·.holdsWave) || wv.pend.any (·.hold) || wv.waits.any (fun x => match x.2 with | .wchild _ d _ => d ≠ .zero | _ => false) || wv.trapQ.isSome
    || wv.waitCnt.any (fun x => (List.range 8).any (fun n => x.1.getLsbD n && x.2 < wv.evr n))
    || wv.waitIds.any (fun i => wv.pend.any (·.id == i)) || wv.waitRids.any (fun r => wv.regions.any (·.rid == r))

/-- Register number of a CSRR or CSRW, and whether it writes (R421). -/
def csrOf : Instr → Option (Nat × Bool)
  | .csrr _ _ r => some (r.toNat, false)
  | .csrw _ _ r => some (r.toNat, true)
  | .csrwSet _ _ r => some (r.toNat, true)
  | .csrwClr _ _ r => some (r.toNat, true)
  | _ => none
/-- Rows of Table 17.2: assigned numbers, read-only ones, those of a partition, and those a CSRW writes in system mode. -/
def csrKnown (n : Nat) : Bool := [0, 1, 8, 9, 0xA, 0x10, 0x11, 0x12].contains n || (0x20 ≤ n && n ≤ 0x2C)
def csrRO (n : Nat) : Bool := [8, 9, 0xA, 0x10].contains n
def csrPart (n : Nat) : Bool := 0x20 ≤ n && n ≤ 0x2C
def csrSys (n : Nat) : Bool := n == 0x11 || n == 0x12 || csrPart n
def csrCap (n : Nat) : Bool := 0x20 ≤ n && n ≤ 0x26
/-- Fields of `PCAP` (Table 5.8). -/
def Team.capVal (t : Team) : Bool := t.pcap.getLsbD 63
def Team.capSel (t : Team) : Nat := bits t.pcap.toNat 0 2
/-- The partition that accesses to partition registers and QCTL reach (R103). -/
def Team.reach (t : Team) : Nat := if t.capVal then t.capSel else t.part
def Team.capDenied (t : Team) : Bool := t.capVal && !bit t.pcap.toNat (4 + t.capSel)

/-- Does the wave run in system mode (R403)? -/
def Ctx.sys (c : Ctx) : Bool := c.tm.sys || c.wv.handler
/-- Registers that the wave may name (R45, R408). -/
def regOk (k : KObj) (handler : Bool) : Reg → Bool
  | .v n => n < if handler then 128 else k.vregs
  | .s n => n < if handler then 64 else k.sregs
  | _ => true
/-- Queues that an instruction names, each once (R65). -/
def queuesOf (i : Instr) : List Nat := (i.srcOpds.filterMap (fun o => match o with | .q n => some n.toNat | _ => none)).eraseDups

/-- H + 8 × SEXT(OFF), as an integer and as an address (R59). -/
def Ctx.targetInt (c : Ctx) (off : BitVec 32) : Int := c.b.h.toNat + 8 * off.toInt
def Ctx.target (c : Ctx) (off : BitVec 32) : DWord := c.b.h + (off.signExtend 64 <<< 3)
/-- May LOOP not push an entry: END ≤ START, a full stack, or the counter in use (R147)? -/
def Ctx.loopBad (c : Ctx) (d : Opd) (off : BitVec 32) : Bool :=
  c.targetInt off ≤ c.next.toNat || c.wv.loops.length ≥ 3 || c.wv.loops.any (fun e => d == .lc (Fin.ofNat 3 e.k))

/-- The illegal-instruction checks made at issue (Table 3.7, R45, R65, R147, R148, R408). -/
def Ctx.illegal (c : Ctx) (i : Instr) : Bool :=
  !i.wf || !((i.srcRegs ++ i.dstRegs).all (regOk c.gg.kobj c.wv.handler))
    || !((queuesOf i).all (fun n => c.gg.kobj.qmask.getLsbD n)) || (c.wv.handler && i.barredInHandler)
    || (csrOf i).any (fun r => !csrKnown r.1 || (r.2 && csrRO r.1))
    || (match i with
        | .rte _ => c.sys && !c.wv.handler
        | .lexit _ _ => c.wv.loops == []
        | .loop _ d off => c.loopBad d off
        | _ => false)
/-- The privilege checks made at issue (R403, R404, R103, R423). -/
def Ctx.denied (c : Ctx) (i : Instr) : Bool :=
  (i.privileged && !c.sys)
    || (csrOf i).any (fun r => (r.2 && csrSys r.1 && !c.sys) || (r.2 && csrCap r.1 && !c.tm.capVal) || (csrPart r.1 && c.tm.capDenied))
    || (match i with | .qctlQ _ _ _ _ => c.tm.capDenied | .qctlR _ _ _ _ => c.tm.capDenied | .qctlQry _ _ _ _ => c.tm.capDenied | _ => false)

/-- Would AQSTART start the program (R255)? -/
def Team.aqIdle (t : Team) (k : KObj) : Bool := k.aloops ≠ 0 && !t.aq.run && t.aq.q.all (· == [])
/-- The entry of queue `n` that a slice pops again after an abort (R253). -/
def redoOf (q : List QEnt) (w sl : Nat) : Option QEnt := q.find? (·.redo.contains (w, sl))
/-- The entry of a queue that a slice of the wave pops next: the one it popped before, if it was aborted, else the next (R253). -/
def Ctx.entry (c : Ctx) (n sl : Nat) : Option QEnt := let q := c.tm.aq.q.getD n []; (redoOf q c.w sl).or (q.find? (!·.popped))
/-- The lane number that SMOV reads, if it is known before its operand is loaded (R155). -/
def Ctx.smovLane (c : Ctx) (b : Opd) : Option Nat :=
  let l := lowest c.lanes
  (match b with
   | .q n => (c.entry n.toNat (l / 4)).elim (some 0) (·.words.getD l (some 0))
   | b => some (c.w32 b l)).map (fun (x : Word) => x.toNat % 32)
/-- Lanes in which a source register is read: the active ones; SMOV reads one lane, active or not (R155). -/
def Ctx.srcLanes (c : Ctx) : Instr → Reg → Lanes
  | .smov _ _ _ b first, .v _ => if first then laneBit (lowest c.lanes) else (c.smovLane b).elim (BitVec.allOnes 32) laneBit
  | _, _ => c.lanes
/-- Registers that this issue reads, with the lanes: the guard, and the operands if any thread is active; AQSTART reads the bases of
the streams that it starts (R255). -/
def Ctx.reads (c : Ctx) (i : Instr) : List (Reg × Lanes) :=
  (match i.hdr? with | some h => if h.gp = 127#7 then [] else [(.p h.gp.toNat, c.b.mask)] | none => [])
    ++ (if c.lanes = 0 then [] else
        i.srcRegs.map (fun r => (r, c.srcLanes i r))
          ++ (match i with
              | .aqstart _ _ _ => if c.tm.aqIdle c.gg.kobj then
                  ((List.range 8).filter (c.gg.kobj.qmask.getLsbD ·)).map (fun n => (.s ((c.gg.kobj.streams[n]?).elim 0 (·.sbase)), c.lanes)) else []
              | _ => []))
/-- Registers that this issue writes, in the active lanes. -/
def Ctx.writes (c : Ctx) (i : Instr) : List (Reg × Lanes) := if c.lanes = 0 then [] else i.dstRegs.map (·, c.lanes)

/-- The stall-count audit of CHK (R53, R133). -/
def Ctx.early (c : Ctx) (i : Instr) : Bool :=
  c.b.chk && ((c.reads i).any (fun x => c.wv.busy c.cyc x.1 x.2) || (c.writes i).any (fun x => c.wv.pend.any (·.writes x.1 x.2)))

/-- The slice of the lowest active lane: what acts once for the bundle belongs to its run (R463). -/
def Ctx.ownSlice (c : Ctx) : Nat := lowest c.lanes / 4
/-- Which of some accesses of registers belong to the run of a slice: its lanes of a vector or predicate register; a register that
the wave has once if one of its threads is active, or, of an instruction that acts once, if the slice is its own (R463). -/
def Ctx.inSlice (c : Ctx) (i : Instr) (sl : Nat) (l : List (Reg × Lanes)) : List (Reg × Lanes) :=
  (l.map (fun x => match x.1 with
    | .v _ => (x.1, x.2 &&& sliceMask sl)
    | .p _ => (x.1, x.2 &&& sliceMask sl)
    | r => (r, if (if i.actsOnce then c.ownSlice == sl else x.2 &&& sliceMask sl ≠ 0) then 1 else 0))).filter (·.2 ≠ 0)
/-- Event counters that an issue reads, and those it changes, for the audit of R31. -/
def Ctx.evReads (c : Ctx) (i : Instr) : List (Reg × Lanes) := i.evReads.map (·, c.b.mask)
def Ctx.evWrites (c : Ctx) (i : Instr) : List (Reg × Lanes) := if c.lanes = 0 then [] else i.evWrites.map (·, c.lanes)
/-- The lanes listed for a register. -/
def regLanes (l : List (Reg × Lanes)) (r : Reg) : Lanes := (l.find? (·.1 == r)).elim 0 (·.2)
/-- Add lanes of a register. -/
def addLanes (l : List (Reg × Lanes)) (x : Reg × Lanes) : List (Reg × Lanes) :=
  if x.2 = 0 then l
  else if l.any (·.1 == x.1) then l.map (fun y => if y.1 == x.1 then (y.1, y.2 ||| x.2) else y)
  else l ++ [x]
/-- The live-in audit of CHK (R32). (DEDUCED: entry 19.) (DEDUCED: entry 32.) -/
def Ctx.clobbers (c : Ctx) (i : Instr) : Bool :=
  c.b.chk && c.wv.regions.any (fun r => c.b.mask &&& sliceMask r.sl ≠ 0 &&
    (c.inSlice i r.sl (c.writes i ++ c.evWrites i)).any (fun x => regLanes r.rd x.1 &&& x.2 ≠ 0))
/-- Accumulators that an instruction reads, by key. -/
def Ctx.accReads (c : Ctx) (i : Instr) : List Nat :=
  match i with
  | .mma _ _ _ _ bank _ => (lanesOf c.lanes).flatMap (fun l => (List.range 16).map (fun n => (if bank then 512 else 0) + 16 * l + n))
  | .mres _ _ g bank _ => (lanesOf c.lanes).flatMap (fun l => (List.range 4).map (fun n => (if bank then 512 else 0) + 16 * l + 4 * g.toNat + n))
  | _ => []
/-- Reads a register or accumulator word poisoned by a core error (R415). (DESIGN CHOICE: entry 53.) -/
def Ctx.readsPoison (c : Ctx) (i : Instr) : Bool :=
  (c.wv.accBad ≠ [] && (c.accReads i).any c.wv.accBad.contains) || c.tm.regPoison.any (fun x => x.1 == c.w && (c.reads i).any (fun y => y.1 == x.2.1 &&
    (match x.2.1 with | .v _ => y.2.getLsbD x.2.2 | _ => true)))

/-- Threads that are active (R56): in the bundle, not exited, guard true. -/
def activeLanes (c : Ctx) (h : Hdr) : Lanes :=
  c.b.mask &&& lanesWhere (fun l => !(c.wv.thread l).exited && (c.p h.gp.toNat l != h.gn))

/-- What issuing an instruction of a wave finds. -/
inductive Pre where
  | go (c : Ctx) (s : State)
  | stop (c : Ctx) (x : Stop)
  | none

/-- The run that the operations of a slice belong to. -/
def Wave.ridOf (wv : Wave) (sl : Nat) : Nat := (wv.region? sl).elim 0 (·.rid)

/-- What a read finds in a buffered byte: an undefined one is a free value at each read (R4). -/
def BufW.val (b : BufW) (free : Nat) : Byte := if b.und then (Config.freeWord free 975 b.a).setWidth 8 else b.b
/-- A stored byte that the run of a slice has buffered in a space. -/
def Wave.fwdByte (wv : Wave) (free sl : Nat) (sp : Space) (a : Nat) : Option Byte :=
  match wv.region? sl with
  | some r => (r.stores.reverse.find? (fun b => b.sp == sp && b.a == a)).map (·.val free)
  | none => none

/-- Why a deferred lane cannot be loaded: a trap with its cause and address, or faulting pages with their kinds. -/
inductive LaneBad where
  | trap (cause a : Nat)
  | pages (ps : FaultPages)
  deriving DecidableEq, Repr
/-- A failed access of a lane, of the kind named. -/
def Bad.lane (k : Nat) : Bad → LaneBad
  | .prot a => .trap 0x08 a
  | .poison a => .trap 0x09 a
  | .fault ps => .pages (ps.map (·, k))
/-- The kind of a lane's read: of the gather engine in a window (R217, R239). -/
def State.readKind (s : State) (p asid va n : Nat) : Nat := if s.inWindow p asid va n then kEngRead else kRead

/-- The word of a deferred lane, loaded on demand at the pop, as a .rlx .core load (R252). -/
def State.popLane (s : State) (c : Ctx) (esz addr l : Nat) : Except LaneBad Word :=
  if addr % esz ≠ 0 then .error (.trap 0x06 addr)
  else match s.vreadOwn (c.tm.via .core) c.tm.part c.tm.asid addr esz c.sys (fun i => c.wv.fwdByte s.free (l / 4) (.mem c.tm.asid) (addr + i)) with
    | .ok bs => .ok (BitVec.ofNat 32 (ofBytes bs))
    | .error e => .error (e.lane (s.readKind c.tm.part c.tm.asid addr esz))

/-- Element size of a stream. -/
def Ctx.esz (c : Ctx) (n : Nat) : Nat := (c.gg.kobj.streams[n]?).elim 4 (·.esz)
/-- The word of an entry for a lane; with no entry it is 0. -/
def State.popWord (s : State) (c : Ctx) (n : Nat) (e : Option QEnt) (l : Nat) : Except LaneBad Word :=
  match e with
  | none => .ok 0
  | some q => if q.bad.getLsbD l then .error (.trap 0x15 0) else match q.words.getD l (some 0) with
    | some x => .ok x
    | none => s.popLane c (c.esz n) (q.addrs.getD l 0) l
/-- Does a lane have to load its word of an entry? -/
def QEnt.defers (e : Option QEnt) (l : Nat) : Bool := e.any (fun q => (q.words.getD l (some 0)).isNone)

/-- The stop that the lanes of one instruction meet: the trap of the lowest lane that meets one, else all the faulting pages,
which the slices concerned enter together (R215, R402). -/
def laneStop (l : List (Nat × Except LaneBad α)) : Option Stop :=
  match l.findSome? (fun x => match x.2 with | .error (.trap c a) => some (c, a) | _ => none) with
  | some (c, a) => some (.trap c a)
  | none =>
    match l.filterMap (fun x => match x.2 with | .error (.pages ps) => some (x.1, ps) | _ => none) with
    | [] => none
    | bs => some (.fault ((bs.map (·.1 / 4)).eraseDups) ((bs.flatMap (·.2)).eraseDups))
/-- A load that acquires (R343). -/
def isAcqLoad : Instr → Bool
  | .ld _ _ _ _ _ _ _ od | .lds _ _ _ _ _ _ _ od | .ldw _ _ _ _ _ _ _ od | .ldn _ _ _ _ _ _ _ od => od == .acq || od == .acqrel
  | _ => false
/-- Is an acquire that a thread issued earlier still pending (R347)? -/
def Wave.acqPending (wv : Wave) (l : Nat) : Bool := wv.pend.any (fun p => p.lanes.getLsbD l && isAcqLoad p.instr)
/-- Pop one entry of queue `n` for the bundle (R65, R253): each slice takes the entry it popped before, if it was aborted,
else the next entry; with none, it waits while the program runs and reads 0 afterwards. A deferred lane's load, made now, waits for the
acquires of its thread that are pending (R252, R347). -/
def State.popQueue (s : State) (c : Ctx) (n : Nat) : Except Stop (List Word × State) :=
  let q := c.tm.aq.q.getD n []
  let sls := slicesOf c.b.mask
  let head := q.find? (!·.popped)
  let fresh := sls.filter (fun sl => (redoOf q c.w sl).isNone)
  if fresh ≠ [] ∧ head = none ∧ c.tm.aq.run then .error .wait
  else
    let ent (sl : Nat) : Option QEnt := c.entry n sl
    let ls := lanesOf c.lanes
    let words := ls.map (fun l => (l, s.popWord c n (ent (l / 4)) l))
    if ls.any (fun l => QEnt.defers (ent (l / 4)) l && c.wv.acqPending l) then .error .wait
    else match laneStop words with
    | some x => .error x
    | none =>
      let q' := q.map (fun e =>
        let mine := sls.filter (fun sl => (ent sl).any (·.id == e.id))
        if mine = [] then e
        else { e with popped := true, rids := e.rids ++ mine.map c.wv.ridOf, redo := e.redo.filter (fun x => !(x.1 == c.w && mine.contains x.2)) })
      let s := (ls.filter (fun l => QEnt.defers (ent (l / 4)) l)).foldl (fun s l =>
        s.vtouch (c.tm.via .core) c.tm.part c.tm.asid ((ent (l / 4)).elim 0 (·.addrs.getD l 0)) (c.esz n) c.sys true) s
      .ok (byLane (fun l => match words.find? (·.1 == l) with | some (_, .ok x) => x | _ => 0),
        s.updTeam c.tag (fun t => { t with aq := { t.aq with q := t.aq.q.set n q' } }))

/-- Pop every queue that the instruction names. -/
def State.popAll (c : Ctx) : List Nat → State → Except Stop (List (Nat × List Word) × State)
  | [], s => .ok ([], s)
  | n :: r, s =>
    match s.popQueue c n with
    | .error e => .error e
    | .ok (ws, s) =>
      match State.popAll c r s with
      | .error e => .error e
      | .ok (l, s) => .ok ((n, ws) :: l, s)

/-- The issuing wave, if it is at an instruction. -/
def State.ctx? (s : State) (i : Instr) : Option Ctx :=
  match s.cur with
  | none => none
  | some (tag, w) =>
    match s.team? tag with
    | none => none
    | some t =>
      match t.wave? w, s.gang? t.gid with
      | some wv, some g =>
        match wv.bundle, i.hdr? with
        | some b, some h =>
          let c : Ctx :=
            { tag := tag, w := w, tm := t, wv := wv, gg := g, b := b, lanes := 0
              site := b.h + BitVec.ofNat 64 (8 * (b.ix + 1)), next := b.h + BitVec.ofNat 64 (8 * (b.words.length + 1))
              cyc := s.cycle, free := s.free, iss := s.nextId, pops := [] }
          some { c with lanes := activeLanes c h }
        | _, _ => none
      | _, _ => none

/-- Does an instruction find the core's SFU held by another pipe (R130)? -/
def State.sfuHeld (s : State) (c : Ctx) (i : Instr) : Bool :=
  isSfu i && s.sfuBusy.any (fun x => x.core == c.tm.core && x.pipe != c.wv.pipe && s.cycle < x.till)
/-- The holds of SFUs once an instruction has issued: an SFU instruction takes its own for one cycle, or for two with more than 16 threads in
the bundle (R130). -/
def State.sfuTake (s : State) (c : Ctx) (i : Instr) : List SfuHold :=
  if isSfu i then
    s.sfuBusy.filter (s.cycle < ·.till) ++ [{ core := c.tm.core, pipe := c.wv.pipe, till := s.cycle + (if popc c.b.mask.toNat 32 ≤ 16 then 1 else 2) }]
  else s.sfuBusy

/-- Everything that is tested before an instruction reads an operand, in the order of R72, R53, R32 and R415; then the waits
of R134 and R130 and the pops of R65. (DESIGN CHOICE: entry 65.) -/
def State.pre (s : State) (i : Instr) : Pre :=
  match s.ctx? i with
  | none => .none
  | some c =>
    if c.gg.st ≠ .placed || s.cycle < c.wv.ready || c.wv.blocked then .stop c .wait
    else if c.illegal i then .stop c (.trap 0x01 0)
    else if c.denied i then .stop c (.trap 0x05 0)
    else if c.early i then .stop c (.trap 0x03 0)
    else if c.clobbers i then .stop c (.trap 0x04 0)
    else if c.readsPoison i then .stop c (.trap 0x15 0)
    else if (c.lanes ≠ 0 && i.counted.any (fun n => c.wv.evr n ≥ 63)) || s.sfuHeld c i then .stop c .wait
    else if c.lanes = 0 then .go c s
    else match State.popAll c (queuesOf i) s with
      | .error x => .stop c x
      | .ok (l, s) => .go { c with pops := l } s

/-- The slices of a wave with a PC: the lowest PC among the threads that run (R125). -/
def Wave.slicePc (wv : Wave) (sl : Nat) : Option DWord :=
  ((List.range 4).filterMap (fun j => let t := wv.thread (4 * sl + j); if t.live then some t.pc else none)).foldl
    (fun m pc => match m with | none => some pc | some x => some (if pc.toNat < x.toNat then pc else x)) none

/-- Registers read before any write, and written, as the instruction leaves them (R31, R32). (DEDUCED: entry 19.) (DEDUCED: entry 32.) -/
def Region.track (r : Region) (reads writes : List (Reg × Lanes)) : Region :=
  { r with rd := reads.foldl (fun l x => addLanes l (x.1, x.2 &&& ~~~regLanes r.wr x.1)) r.rd, wr := writes.foldl addLanes r.wr }

/-- An accumulator that holds an undefined value. -/
def freeAcc (free l n : Nat) : Acc :=
  let c := (Config.freeWord free 700 (16 * l + n)).toNat % 4
  { cls := if c = 0 then .fin else if c = 1 then .pinf else if c = 2 then .ninf else .nan
    x := Config.freeWord free 701 (16 * l + n) ++ Config.freeWord free 702 (16 * l + n) }
/-- The accumulators of a bank's lanes are undefined. -/
def freeAccs (free : Nat) (a : Sparse Acc) (bank : Bool) (m : Lanes) : Sparse Acc :=
  (lanesOf m).foldl (fun a l => (List.range 16).foldl (fun a n =>
    sset { cls := .fin, x := 0 } a ((if bank then 512 else 0) + 16 * l + n) (freeAcc free l n)) a) a
/-- Software touched what an open MMA forbids (R281): what that MMA writes is undefined, now if it has completed, otherwise
when it does. -/
def Wave.spoil (wv : Wave) (free : Nat) (f : MOpen → Bool) : Wave :=
  { wv with mopen := wv.mopen.map (fun e => if f e then { e with spoilt := e.lanes } else e)
            acc := (wv.mopen.filter f).foldl (fun a e => if wv.pend.any (·.id == e.id) then a else freeAccs free a e.bank e.lanes) wv.acc }

/-- An MMA for which the rule of R281 still holds: no MWAIT covers it, or the one that does has not completed. -/
def Wave.guards (wv : Wave) (e : MOpen) : Bool := !e.covered || wv.waitIds.any (fun i => wv.pend.any (·.id == i))
/-- Bytes that software writes are bytes that an MMA reads before the MWAIT that covers it has completed (R281). -/
def State.spoilBytes (s : State) (bs : List (Space × Nat)) : State :=
  let hit (wv : Wave) (e : MOpen) : Bool := wv.guards e && bs.any (fun b => e.rng.any (fun r => r.1 == b.1 && r.2.1 ≤ b.2 && b.2 < r.2.1 + r.2.2))
  { s with teams := s.teams.map (fun t => { t with waves := t.waves.map (fun wv => if wv.mopen.any (hit wv) then wv.spoil s.free (hit wv) else wv) }) }
/-- The wave after an instruction has issued: the next instruction, STALL, the marks of R31 and R150, and at the last
instruction of the clause the next clause as PC of every thread of the bundle (R57, R127). -/
def Ctx.advance (c : Ctx) (i : Instr) (wv : Wave) : Wave :=
  let stall := i.hdr?.elim 0 (·.stall.toNat)
  let last := c.b.ix + 1 ≥ c.b.words.length
  let wv := if (c.writes i) = [] then wv else wv.spoil c.free (fun e => !e.covered && e.regs.any (fun r => (c.writes i).any (·.1 == r)))
  let wv := { wv with
    mopen := wv.mopen.filter (!·.covered)
    ready := c.cyc + stall + 1, young := false, waitCnt := none, waitIds := [], waitRids := []
    sb := wv.sb.filter (fun x => c.cyc < x.2.2)
    bundle := if last then none else some { c.b with ix := c.b.ix + 1 }
    regions := wv.regions.map (fun r => if c.b.mask &&& sliceMask r.sl ≠ 0 then
      r.track (c.inSlice i r.sl (c.reads i ++ c.evReads i)) (c.inSlice i r.sl (c.writes i ++ c.evWrites i)) else r) }
  if last then wv.setPcs c.b.mask (fun _ => c.next) else wv

/-- The header at an address, if it can be fetched. -/
def State.header? (s : State) (t : Team) (wv : Wave) (sys : Bool) (va : DWord) : Option Header :=
  match s.fetch t wv sys va.toNat 1 with
  | .ok ws => Header.ofWord (ws.headD 0)
  | .error _ => none

/-- Does a slice wait by R127, or for its commit or a fault record? -/
def Wave.waiting (wv : Wave) (sl : Nat) : Bool :=
  wv.waits.any (·.1 == sl) || wv.ending sl || wv.holds.any (·.sl == sl)
/-- The `WAITMASK` condition of a header (R51). -/
def Wave.headerWait (wv : Wave) (h : Header) : Bool :=
  (List.range 8).all (fun n => !h.waitMask.getLsbD n || wv.evr n ≤ h.waitLe.toNat)

/-- Does the clause at an address hold LOOP? -/
def State.holdsLoop (s : State) (t : Team) (wv : Wave) (sys : Bool) (va : DWord) (h : Header) : Bool :=
  match s.fetch t wv sys (va.toNat + 8 * h.n) 1 with
  | .ok ws => (ws.headD 0).extractLsb' 56 8 == 0x06
  | .error _ => false

/-- Have all threads that run reached the clause at `pc`, none of them waiting, so that one bundle can hold them (R140)? -/
def Wave.converged (wv : Wave) (pc : DWord) : Bool :=
  wv.thr.all (fun t => !t.live || t.pc == pc) && (List.range 8).all (fun sl => (wv.slicePc sl).isNone || !wv.waiting sl)
/-- Is a slice held at the convergence clause at `pc` (R140)? -/
def State.convHeld (s : State) (t : Team) (wv : Wave) (sys : Bool) (pc : DWord) : Bool :=
  !wv.converged pc && (s.header? t wv sys pc).any (fun h => (wv.loopMode && h.rb) || s.holdsLoop t wv sys pc h)
/-- Does a slice wait in BAR, NBAR, SLIN, SEND, RECV or WCHILD (R127)? -/
def Wave.waitsInOp (wv : Wave) (sl : Nat) : Bool :=
  wv.waitsIn sl || wv.regions.any (fun r => r.sl == sl && (match r.ended with
    | some (.op e) => (match e.instr with | .slin _ _ _ _ | .send _ _ _ _ | .recv _ _ _ _ => true | _ => false)
    | _ => false))
/-- Is a joining slice held: another slice has a lower PC, does not wait in an instruction of R127, and is not held itself, on a fault
record or at a convergence clause (R129)? -/
def State.joinHeld (s : State) (t : Team) (wv : Wave) (sys : Bool) (sl : Nat) (pc : DWord) : Bool :=
  wv.joining.getLsbD sl && (List.range 8).any (fun o => o ≠ sl && !wv.waitsInOp o && !wv.holds.any (·.sl == o) &&
    (wv.slicePc o).any (fun x => x.toNat < pc.toNat && !s.convHeld t wv sys x))

/-- Would a slice be ready but for the wait of its clause's header (R127)? -/
def State.nearReady (s : State) (t : Team) (wv : Wave) (sl : Nat) : Bool :=
  (wv.slicePc sl).any (fun pc =>
    let sys := t.sys || wv.handler
    !wv.waiting sl && !s.joinHeld t wv sys sl pc && !s.convHeld t wv sys pc)
/-- Does the wait of the header that a slice has reached hold (R51)? -/
def State.headerHolds (s : State) (t : Team) (wv : Wave) (sl : Nat) : Bool :=
  (wv.slicePc sl).any (fun pc => (s.header? t wv (t.sys || wv.handler) pc).any (fun h => !wv.headerWait h))
/-- Is a slice ready (R127)? At a header that cannot be fetched, or is none, its fault or trap is due (R215, R71). -/
def State.readySlice (s : State) (t : Team) (wv : Wave) (sl : Nat) : Bool := s.nearReady t wv sl && !s.headerHolds t wv sl
/-- Does the wait of a clause header hold the whole wave (R135)? (DEDUCED: entry 58.) -/
def State.waveHeld (s : State) (t : Team) (wv : Wave) : Bool :=
  (List.range 8).any (fun sl => s.nearReady t wv sl && s.headerHolds t wv sl)

/-- Age counts at an issue (R128): one more for each ready slice outside the bundle, 0 for those in it. -/
def State.ages (s : State) (t : Team) (wv : Wave) (bl : Lanes) : Sparse Nat :=
  (List.range 8).foldl (fun a sl =>
    if bl &&& sliceMask sl ≠ 0 then sset 0 a sl 0
    else if s.readySlice t wv sl then sset 0 a sl (sget 0 a sl + 1) else a) wv.age

/-- The state once an instruction has issued, before its effect. -/
def State.advance (s : State) (c : Ctx) (i : Instr) : State :=
  let age := s.ages c.tm c.wv c.b.mask
  { s.updWave c.tag c.w (fun wv => { c.advance i wv with age := age }) with free := s.free + 1, nextId := s.nextId + 1, sfuBusy := s.sfuTake c i }

/-- First clause of the run at which an aborted bundle resumes. -/
def Ctx.firstClause (c : Ctx) : DWord :=
  match c.wv.regions.find? (·.sl == lowest c.b.mask / 4) with
  | some r => r.start
  | none => c.b.h

/-- An instruction that does not complete: it waits, takes its trap at its own word (R71), or enters its page fault. -/
def State.stop (s : State) (c : Ctx) : Stop → State
  | .wait => s
  | .trap cause faddr => s.takeTrap c.tag c.w c.b.mask
      { cause := cause, lanes := c.lanes, addr := c.site, region := c.firstClause, after := false, faddr := BitVec.ofNat 64 faddr }
  | .fault sls ps => s.pageFaultK c.tag c.w sls ps

/-- Settle the loops of a wave once an instruction has acted (R138). -/
def State.settle (s : State) (tag w : Nat) : State := s.updWave tag w (Wave.settle 4)

/-- Issue an instruction whose effect is `k`, which sees the state after the bookkeeping of the issue. -/
def issue (i : Instr) (s : State) (k : Ctx → State → Except Stop State) : Host.Outcome State Fault Refusal :=
  match s.pre i with
  | .none => .fault .noIssuer
  | .stop c x => .next (s.stop c x)
  | .go c s' =>
    match k c (s'.advance c i) with
    | .ok s'' => .next (s''.settle c.tag c.w)
    | .error x => .next (s.stop c x)

/-! ### Results -/

/-- The registers that writes name, each with its lanes; a register that the wave has once has one place. -/
def writtenLanes (ws : List RegW) : List (Reg × Lanes) :=
  ws.foldl (fun l x => addLanes l (match x with | .v n i _ => (.v n, laneBit i) | .p n i _ => (.p n, laneBit i) | x => (x.reg, 1))) []
/-- Note that lanes of a register were written while the operation was pending (R132). -/
def Pend.clobber (q : Pend) (rs : List (Reg × Lanes)) : Pend := { q with clob := (rs.filter (fun x => q.writes x.1 x.2)).foldl addLanes q.clob }
/-- Take lanes of a register out of the results that are not ready. -/
def sbDrop (rs : List (Reg × Lanes)) (x : Reg × Lanes × Nat) : Option (Reg × Lanes × Nat) :=
  let m := regLanes rs x.1
  if m = 0 then some x
  else match x.1 with
    | .v _ => let k := x.2.1 &&& ~~~m; if k = 0 then none else some (x.1, k, x.2.2)
    | .p _ => let k := x.2.1 &&& ~~~m; if k = 0 then none else some (x.1, k, x.2.2)
    | _ => none
/-- Record registers as ready only from cycle `at_` on (R131), and that pending destinations were written (R132). -/
def Wave.mark (wv : Wave) (rs : List (Reg × Lanes)) (at_ : Nat) : Wave :=
  { wv with sb := wv.sb.filterMap (sbDrop rs) ++ rs.map (fun x => (x.1, x.2, at_)), pend := wv.pend.map (·.clobber rs) }
/-- Write the fixed-latency results of an instruction, and its flags, which a CSRR sees from the next step on (R131, R161, R162).
(DESIGN CHOICE: entry 61.) -/
def State.result (s : State) (c : Ctx) (i : Instr) (ws : List RegW) (fl : BitVec 8) : State :=
  s.updTeam c.tag (fun t =>
    (t.updWave c.w (fun wv =>
      let wv := (wv.puts ws).mark (writtenLanes ws) (c.cyc + i.latency)
      { wv with fflags := wv.fflags ||| fl.setWidth 64 })).cleanRegs c.w ws)

/-- Write registers of a wave. -/
def State.putRegs (s : State) (tag w : Nat) (ws : List RegW) : State := s.updTeam tag (fun t => (t.updWave w (·.puts ws)).cleanRegs w ws)
/-- Write results that are ready at once. -/
def State.putNow (s : State) (c : Ctx) (ws : List RegW) : State :=
  s.updTeam c.tag (fun t => (t.updWave c.w (fun wv => (wv.puts ws).mark (writtenLanes ws) c.cyc)).cleanRegs c.w ws)

/-- An instruction that only computes: its writes and flags from what it reads (R79). -/
def compute (i : Instr) (s : State) (f : Ctx → List RegW × BitVec 8) : Host.Outcome State Fault Refusal :=
  issue i s (fun c s => .ok (s.result c i (f c).1 (f c).2))

/-- Runs that a per-lane operation belongs to. -/
def Ctx.rids (c : Ctx) : List Nat := (slicesOf c.lanes).map c.wv.ridOf
/-- The run that an operation of the whole bundle belongs to (R463). -/
def Ctx.ownRid (c : Ctx) : Nat := c.wv.ridOf c.ownSlice

/-- A pending operation as it stands at issue. (DEDUCED: entry 35.) -/
def Ctx.pend (c : Ctx) (i : Instr) (rids : List Nat) : Pend :=
  { id := c.iss, instr := i, rids := rids, lanes := c.lanes, ev := i.counted, site := c.site, dsts := i.dstRegs, clob := []
    hold := false, x := [], y := [], z := [], fwd := [], sec := [], wr := [], flags := 0, lfl := [], mask := c.b.mask
    trap := none }
/-- Start a pending operation: counted from now on (R134); nothing with no active thread. -/
def State.start (s : State) (c : Ctx) (q : Pend) : State :=
  if c.lanes = 0 then s
  else s.updWave c.tag c.w (fun wv =>
    { wv with pend := (wv.pend.map (·.clobber (q.dsts.map (·, q.lanes)))) ++ [q]
              ev := match q.ev with | some n => sset 0 wv.ev n (wv.evr n + 1) | none => wv.ev })

/-- End the run of every slice of the bundle with a region-ending instruction (R464). -/
def State.endRuns (s : State) (c : Ctx) (e : EndOp) : State :=
  s.updWave c.tag c.w (fun wv =>
    { wv with regions := wv.regions.map (fun r => if c.b.mask &&& sliceMask r.sl ≠ 0 then { r with ended := some (.op e) } else r) })
/-- A region-ending instruction with the operand values it reads at issue. -/
def Ctx.endOp (c : Ctx) (i : Instr) (x y z : List DWord) : EndOp :=
  { instr := i, iss := c.iss, lanes := c.lanes, mask := c.b.mask, site := c.site, next := c.next, x := x, y := y, z := z, st := [], since := 0, lim := 0 }
/-- Issue a region-ending instruction: it performs at commit step 4 (R34). -/
def endRegion (i : Instr) (s : State) (f : Ctx → List DWord × List DWord × List DWord) : Host.Outcome State Fault Refusal :=
  issue i s (fun c s => .ok (s.endRuns c (c.endOp i (f c).1 (f c).2.1 (f c).2.2)))

/-! ### Events -/

/-- Must a pending operation, SFU results aside, stay behind an acquire that its threads issued before it (R347)? -/
def Wave.behindAcq (wv : Wave) (q : Pend) : Bool :=
  !isSfu q.instr && wv.pend.any (fun p => p.id < q.id && p.lanes &&& q.lanes ≠ 0 && isAcqLoad p.instr)
/-- An event about a pending operation of a wave: `refused` unless one that `f` accepts is pending under that number, and no earlier
acquire of its threads is. -/
def withPend (mn : String) (s : State) (tag w id : Nat) (f : Instr → Bool) (k : Team → Wave → Pend → State) :
    Host.Outcome State Fault Refusal :=
  match s.team? tag, s.wave? tag w with
  | some t, some wv =>
    match wv.pend? id with
    | some q => if f q.instr && !wv.behindAcq q then .next ((k t wv q).afterPend tag w) else .refused (.notEnabled mn)
    | none => .refused (.notEnabled mn)
  | _, _ => .refused (.notEnabled mn)

/-- Slices whose runs hold a pending operation. -/
def Wave.slicesOfPend (wv : Wave) (q : Pend) : List Nat := (wv.regions.filter (fun r => q.rids.contains r.rid)).map (·.sl)
/-- Threads of the bundle of an issue, as far as the runs that were open then are still open. -/
def Wave.bundleOf (wv : Wave) (iss : Nat) (mask : Lanes) : Lanes :=
  (wv.regions.filter (·.rid < iss)).foldl (fun m r => m ||| (mask &&& sliceMask r.sl)) 0
/-- A trap of a pending operation at its own word (R71, R231). -/
def State.pendTrap (s : State) (tag w : Nat) (wv : Wave) (q : Pend) (cause faddr : Nat) : State :=
  let start := (wv.regions.find? (fun r => q.rids.contains r.rid)).elim q.site (·.start)
  s.takeTrap tag w (wv.bundleOf q.id q.mask)
    { cause := cause, lanes := q.lanes, addr := q.site, region := start, after := false, faddr := BitVec.ofNat 64 faddr }
/-- A pending operation that cannot complete: its trap, or its page fault. -/
def State.pendStop (s : State) (tag w : Nat) (wv : Wave) (q : Pend) : Stop → State
  | .wait => s
  | .trap cause a => s.pendTrap tag w wv q cause a
  | .fault sls ps => s.pageFaultK tag w sls ps

end Sys2Proof.Machine
end

