-- ==== Sys2Proof/Machine/Integer.lean ====
section
/-! DEFINITION. Sys2Proof/Machine/Integer.lean: integer arithmetic, bit operations, compares, bit fields, addresses (07_arithmetic.md
R169 to R177). Integer instructions never read `FMODE` and raise no flag (R170). -/
namespace Sys2Proof.Machine
open Host (Outcome)

/-- A word as an integer: signed if `sg` (R170). -/
def wInt (sg : Bool) (x : Word) : Int := if sg then x.toInt else x.toNat
/-- SAT to .i32 or .n32 (R80). -/
def sat32 (sg : Bool) (x : Int) : Word :=
  BitVec.ofInt 32 (if sg then clampI (-(2 ^ 31)) (2 ^ 31 - 1) x else clampI 0 (2 ^ 32 - 1) x)

/-- IADD and ISUB: `op` on integers, wrapped or saturated (Table 7.4). -/
def satOp (m : SatMode) (op : Int → Int → Int) (a b : Word) : Word :=
  match m with
  | .wrap => BitVec.ofInt 32 (op (wInt false a) (wInt false b))
  | .n32 => sat32 false (op (wInt false a) (wInt false b))
  | .i32 => sat32 true (op (wInt true a) (wInt true b))

def imulh (sg : Bool) (a b : Word) : Word := BitVec.ofInt 32 ((wInt sg a * wInt sg b) / 2 ^ 32)
def imin (sg : Bool) (a b : Word) : Word := if wInt sg a ≤ wInt sg b then a else b
def imax (sg : Bool) (a b : Word) : Word := if wInt sg a ≤ wInt sg b then b else a
def iabs (sat : Bool) (a : Word) : Word := if sat then sat32 true a.toInt.natAbs else BitVec.ofNat 32 a.toInt.natAbs
def sad (sg : Bool) (a b c : Word) : Word := BitVec.ofNat 32 (wInt sg a - wInt sg b).natAbs + c

/-- Shifts by the full unsigned count (Table 7.5). -/
def shl (a b : Word) : Word := if b.toNat < 32 then a <<< b.toNat else 0
def shr (a b : Word) : Word := if b.toNat < 32 then a >>> b.toNat else 0
def sar (a b : Word) : Word := a.sshiftRight (min b.toNat 31)
def rot (right : Bool) (a b : Word) : Word := if right then a.rotateRight (b.toNat % 32) else a.rotateLeft (b.toNat % 32)
def popcW (a : Word) : Word := BitVec.ofNat 32 (popc a.toNat 32)
def clzW (a : Word) : Word := BitVec.ofNat 32 (32 - bitLen a.toNat)
def brev (a : Word) : Word := lanesWhere (fun i => a.getLsbD (31 - i))

/-- ICMP (R173). -/
def icmp (cc : Cmp) (sg : Bool) (a b : Word) : Bool :=
  let x := wInt sg a
  let y := wInt sg b
  match cc with
  | .eq => x == y | .ne => x != y | .lt => x < y | .le => x ≤ y | .gt => x > y | .ge => x ≥ y

/-- BFE (R174). -/
def bfe (sg : Bool) (a b c : Word) : Word :=
  let pos := b.toNat % 256
  let len := min (c.toNat % 256) 32
  let f := ((wInt sg a) / (2 ^ pos : Nat)) % (2 ^ len : Nat)
  if len = 0 then 0
  else BitVec.ofInt 32 (if sg ∧ f ≥ (2 ^ (len - 1) : Nat) then f - (2 ^ len : Nat) else f)
/-- BFI (R174). -/
def bfi (a b c : Word) : Word :=
  let pos := b.toNat % 256
  let len := min (b.toNat / 256 % 256) 32
  let mask := BitVec.ofNat 32 ((2 ^ len - 1) * 2 ^ pos)
  (c &&& ~~~mask) ||| (BitVec.ofNat 32 (a.toNat * 2 ^ pos) &&& mask)

/-- One result byte of BSEL (R175). -/
def bselByte (x : DWord) (t : Nat) : Nat :=
  let y := bits x.toNat (8 * (t % 8)) 8
  match t / 8 % 4 with
  | 0 => y
  | 1 => 0
  | 2 => if bit y 7 then 0xFF else 0
  | _ => 0xFF
/-- BSEL (R175). -/
def bsel (a b c : Word) : Word :=
  BitVec.ofNat 32 (ofBytes ((List.range 4).map (fun k => BitVec.ofNat 8 (bselByte (b ++ a) (bits c.toNat (8 * k) 8)))))

/-- Byte `i` of a word, signed or not. -/
def byteInt (sg : Bool) (x : Word) (i : Nat) : Int :=
  let b : Byte := x.extractLsb' (8 * i) 8
  if sg then b.toInt else b.toNat
/-- IDOT4 (R177). -/
def idot4 (sa sb sat : Bool) (a b c : Word) : Word :=
  let t : Int := wInt (sa || sb) c + byteInt sa a 0 * byteInt sb b 0 + byteInt sa a 1 * byteInt sb b 1
    + byteInt sa a 2 * byteInt sb b 2 + byteInt sa a 3 * byteInt sb b 3
  if sat then sat32 (sa || sb) t else BitVec.ofInt 32 t

/-- IADDC: sum and carry, or difference and borrow (R176). -/
def addc (sub : Bool) (a b : Word) (ci : Bool) : Word × Bool :=
  let n : Int := if ci then 1 else 0
  let t : Int := if sub then (a.toNat : Int) - b.toNat - n else a.toNat + b.toNat + n
  (BitVec.ofInt 32 t, if sub then t < 0 else t ≥ 2 ^ 32)

/-- An instruction of one 32-bit result per lane and no flag. -/
def alu (i : Instr) (s : State) (d : Opd) (f : Ctx → Nat → Word) : Outcome State Fault Refusal :=
  compute i s (fun c => (c.dst d (f c), 0))
def alu1 (i : Instr) (s : State) (d a : Opd) (f : Word → Word) : Outcome State Fault Refusal :=
  alu i s d (fun c l => f (c.w32 a l))
def alu2 (i : Instr) (s : State) (d a b : Opd) (f : Word → Word → Word) : Outcome State Fault Refusal :=
  alu i s d (fun c l => f (c.w32 a l) (c.w32 b l))
def alu3 (i : Instr) (s : State) (d a b x : Opd) (f : Word → Word → Word → Word) : Outcome State Fault Refusal :=
  alu i s d (fun c l => f (c.w32 a l) (c.w32 b l) (c.w32 x l))

/-- IADD (R171). -/
def execIadd (h : Hdr) (d a b : Opd) (m : SatMode) (s : State) : Outcome State Fault Refusal :=
  alu2 (.iadd h d a b m) s d a b (satOp m (· + ·))
/-- ISUB (R171). -/
def execIsub (h : Hdr) (d a b : Opd) (m : SatMode) (s : State) : Outcome State Fault Refusal :=
  alu2 (.isub h d a b m) s d a b (satOp m (· - ·))
/-- IMUL (R171). -/
def execImul (h : Hdr) (d a b : Opd) (s : State) : Outcome State Fault Refusal := alu2 (.imul h d a b) s d a b (· * ·)
/-- IMULH (R171). -/
def execImulh (h : Hdr) (d a b : Opd) (sg : Bool) (s : State) : Outcome State Fault Refusal :=
  alu2 (.imulh h d a b sg) s d a b (imulh sg)
/-- IMAD (R171). -/
def execImad (h : Hdr) (d a b c : Opd) (s : State) : Outcome State Fault Refusal :=
  alu3 (.imad h d a b c) s d a b c (fun x y z => x * y + z)
/-- IMIN (R171). -/
def execImin (h : Hdr) (d a b : Opd) (sg : Bool) (s : State) : Outcome State Fault Refusal :=
  alu2 (.imin h d a b sg) s d a b (imin sg)
/-- IMAX (R171). -/
def execImax (h : Hdr) (d a b : Opd) (sg : Bool) (s : State) : Outcome State Fault Refusal :=
  alu2 (.imax h d a b sg) s d a b (imax sg)
/-- IABS (R171). -/
def execIabs (h : Hdr) (d a : Opd) (sat : Bool) (s : State) : Outcome State Fault Refusal :=
  alu1 (.iabs h d a sat) s d a (iabs sat)
/-- ICMP (R173): a predicate in each active lane. -/
def execIcmp (h : Hdr) (p : Pr) (a b : Opd) (sg : Bool) (cc : Cmp) (s : State) : Outcome State Fault Refusal :=
  compute (.icmp h p a b sg cc) s (fun c => (c.dstP p (fun l => icmp cc sg (c.w32 a l) (c.w32 b l)), 0))
/-- AND (R172). -/
def execAnd (h : Hdr) (d a b : Opd) (s : State) : Outcome State Fault Refusal := alu2 (.and h d a b) s d a b (· &&& ·)
/-- OR (R172). -/
def execOr (h : Hdr) (d a b : Opd) (s : State) : Outcome State Fault Refusal := alu2 (.or h d a b) s d a b (· ||| ·)
/-- XOR (R172). -/
def execXor (h : Hdr) (d a b : Opd) (s : State) : Outcome State Fault Refusal := alu2 (.xor h d a b) s d a b (· ^^^ ·)
/-- ANDN (R172). -/
def execAndn (h : Hdr) (d a b : Opd) (s : State) : Outcome State Fault Refusal :=
  alu2 (.andn h d a b) s d a b (fun x y => x &&& ~~~y)
/-- SHL (R172). -/
def execShl (h : Hdr) (d a b : Opd) (s : State) : Outcome State Fault Refusal := alu2 (.shl h d a b) s d a b shl
/-- SHR (R172). -/
def execShr (h : Hdr) (d a b : Opd) (s : State) : Outcome State Fault Refusal := alu2 (.shr h d a b) s d a b shr
/-- SAR (R172). -/
def execSar (h : Hdr) (d a b : Opd) (s : State) : Outcome State Fault Refusal := alu2 (.sar h d a b) s d a b sar
/-- ROT (R172). -/
def execRot (h : Hdr) (d a b : Opd) (right : Bool) (s : State) : Outcome State Fault Refusal :=
  alu2 (.rot h d a b right) s d a b (rot right)
/-- POPC (R172). -/
def execPopc (h : Hdr) (d a : Opd) (s : State) : Outcome State Fault Refusal := alu1 (.popc h d a) s d a popcW
/-- CLZ (R172). -/
def execClz (h : Hdr) (d a : Opd) (s : State) : Outcome State Fault Refusal := alu1 (.clz h d a) s d a clzW
/-- BREV (R172). -/
def execBrev (h : Hdr) (d a : Opd) (s : State) : Outcome State Fault Refusal := alu1 (.brev h d a) s d a brev
/-- BFE (R174). -/
def execBfe (h : Hdr) (d a b c : Opd) (sg : Bool) (s : State) : Outcome State Fault Refusal :=
  alu3 (.bfe h d a b c sg) s d a b c (bfe sg)
/-- BFI (R174). -/
def execBfi (h : Hdr) (d a b c : Opd) (s : State) : Outcome State Fault Refusal := alu3 (.bfi h d a b c) s d a b c bfi

/-- LEA: 32 bits, or 64 bits with an extended 32-bit second operand (R176). -/
def execLea (h : Hdr) (d a b : Opd) (k : BitVec 5) (w sg : Bool) (s : State) : Outcome State Fault Refusal :=
  compute (.lea h d a b k w sg) s (fun c =>
    (if w then c.dst64 d (fun l => c.w64 a l + ((if sg then (c.w32 b l).signExtend 64 else (c.w32 b l).setWidth 64) <<< k.toNat))
     else c.dst d (fun l => c.w32 a l + (c.w32 b l <<< k.toNat)), 0))
/-- IADDW (R176). -/
def execIaddw (h : Hdr) (d a b : Opd) (wb : WideB) (s : State) : Outcome State Fault Refusal :=
  compute (.iaddw h d a b wb) s (fun c => (c.dst64 d (fun l => c.w64 a l + (match wb with
    | .b64 => c.w64 b l | .n32 => (c.w32 b l).setWidth 64 | .i32 => (c.w32 b l).signExtend 64)), 0))
/-- IADDC (R176): the sum and the predicate, in each active lane. -/
def execIaddc (h : Hdr) (d a b : Opd) (p : Pr) (sub : Bool) (s : State) : Outcome State Fault Refusal :=
  compute (.iaddc h d a b p sub) s (fun c =>
    (c.dst d (fun l => (addc sub (c.w32 a l) (c.w32 b l) (c.p p.toNat l)).1)
      ++ c.dstP p (fun l => (addc sub (c.w32 a l) (c.w32 b l) (c.p p.toNat l)).2), 0))
/-- SAD (R171). -/
def execSad (h : Hdr) (d a b c : Opd) (sg : Bool) (s : State) : Outcome State Fault Refusal :=
  alu3 (.sad h d a b c sg) s d a b c (sad sg)
/-- BSEL (R175). -/
def execBsel (h : Hdr) (d a b c : Opd) (s : State) : Outcome State Fault Refusal := alu3 (.bsel h d a b c) s d a b c bsel
/-- IDOT4 (R177). -/
def execIdot4 (h : Hdr) (d a b c : Opd) (sa sb sat : Bool) (s : State) : Outcome State Fault Refusal :=
  alu3 (.idot4 h d a b c sa sb sat) s d a b c (idot4 sa sb sat)

end Sys2Proof.Machine
end

