-- ==== Sys2Proof/Machine/Sfu.lean ====
section
/-! DEFINITION. Sys2Proof/Machine/Sfu.lean: the values that RSQ, EXP2, LOG2, SIN, COS and TANH may give within the bounds of Table 7.8
(07_arithmetic.md R186, R187). An exact value is enclosed between two fixed-point numbers of `encP` fraction bits, which is far
finer than any ulp. -/
namespace Sys2Proof.Machine

/-- Fraction bits of an enclosure. -/
def encP : Nat := 700
/-- 1 in fixed point. -/
def encOne : Int := 2 ^ 700
/-- A number between `lo` and `hi`, in fixed point. -/
structure Enc where
  lo : Int
  hi : Int
  deriving DecidableEq, Repr
def Enc.neg (a : Enc) : Enc := { lo := -a.hi, hi := -a.lo }
def Enc.add (a b : Enc) : Enc := { lo := a.lo + b.lo, hi := a.hi + b.hi }
/-- Product of two enclosures of numbers that are not negative. -/
def Enc.mul (a b : Enc) : Enc := { lo := a.lo * b.lo / encOne, hi := a.hi * b.hi / encOne + 1 }
/-- Division by a positive integer. -/
def Enc.divN (a : Enc) (n : Nat) : Enc := { lo := a.lo / n, hi := a.hi / n + 1 }
/-- atanh(n / d) for n / d ≤ 1/3: the sum of z^(2k + 1) / (2k + 1). -/
def encAtanh (n d : Nat) : Enc :=
  let z : Enc := { lo := n * encOne / d, hi := n * encOne / d + 1 }
  let r := (List.range 240).foldl (fun (a : Enc × Enc) k => (a.1.add (a.2.divN (2 * k + 1)), a.2.mul (z.mul z))) ({ lo := 0, hi := 2 }, z)
  r.1
/-- e^t for 0 ≤ t < 1: the sum of t^k / k!. -/
def encExp (t : Enc) : Enc :=
  ((List.range 160).foldl (fun (a : Enc × Enc) k => (a.1.add a.2, (a.2.mul t).divN (k + 1))) ({ lo := 0, hi := 4 }, { lo := encOne, hi := encOne })).1
/-- π by 16 atan(1/5) − 4 atan(1/239). -/
def encPi : Enc :=
  let at_ (k : Nat) : Int := (List.range 160).foldl (fun a j => a + (if j % 2 = 0 then 1 else -1) * (encOne / ((2 * j + 1) * k ^ (2 * j + 1) : Nat))) 0
  let x := 16 * at_ 5 - 4 * at_ 239
  { lo := x - 4000, hi := x + 4000 }
/-- sin(π b) for 0 ≤ b ≤ 1/2. -/
def encSin (b : Int) : Enc :=
  let y : Enc := { lo := encPi.lo * b / encOne, hi := encPi.hi * b / encOne + 1 }
  let y2 := y.mul y
  ((List.range 80).foldl (fun (a : Enc × Enc) k => (a.1.add (if k % 2 = 0 then a.2 else a.2.neg), (a.2.mul y2).divN ((2 * k + 2) * (2 * k + 3))))
    ({ lo := -2, hi := 2 }, y)).1
/-- sin(π x) for any x. -/
def encSinPi (x : Int) : Enc :=
  let b := x % (2 * encOne)
  let c := if encOne ≤ b then b - encOne else b
  let r := encSin (if encOne / 2 < c then encOne - c else c)
  if encOne ≤ b then r.neg else r
/-- tanh x for x ≥ 0, by e^(2x) from 2x / 2^9 squared nine times; from 128 on it is within 2^−300 of 1. -/
def encTanh (x : Int) : Enc :=
  if 128 * encOne ≤ x then { lo := encOne - 2 ^ 400, hi := encOne }
  else
    let t : Enc := { lo := x / 256, hi := x / 256 + 1 }
    let e := (List.range 9).foldl (fun (a : Enc) _ => a.mul a) (encExp t)
    { lo := (e.lo - encOne) * encOne / (e.lo + encOne), hi := (e.hi - encOne) * encOne / (e.hi + encOne) + 1 }

/-- The exact value of function `fn` (0 RSQ, 1 EXP2, 2 LOG2, 3 SIN, 4 COS, 5 TANH) of a finite operand that Table 7.9 does not list. -/
def sfuEnc (fn : Nat) (s : Bool) (m : Nat) (e : Int) : Enc :=
  let a : Int := m * 2 ^ (e + encP).toNat
  let x : Int := if s then -a else a
  match fn with
  | 0 => let r : Int := isqrt ((encOne * encOne * encOne / a).toNat)
         { lo := r, hi := r + 1 }
  | 1 =>
    let n := x / encOne
    let ln2 := (encAtanh 1 3).add (encAtanh 1 3)
    let f := x - n * encOne
    let r := encExp { lo := ln2.lo * f / encOne, hi := ln2.hi * f / encOne + 1 }
    if 0 ≤ n then { lo := r.lo * 2 ^ n.toNat, hi := r.hi * 2 ^ n.toNat }
    else { lo := r.lo / 2 ^ (-n).toNat, hi := r.hi / 2 ^ (-n).toNat + 1 }
  | 2 =>
    let l := bitLen m - 1
    let g := encAtanh (m - 2 ^ l) (m + 2 ^ l)
    let d := encAtanh 1 3
    let n : Int := (e + l) * encOne
    { lo := n + g.lo * encOne / d.hi, hi := n + g.hi * encOne / d.lo + 1 }
  | 3 => encSinPi x
  | 4 => encSinPi (x + encOne / 2)
  | _ => if s then (encTanh a).neg else encTanh a

/-- The finite FP32 values within `n` ulp of an enclosed number, the ulp taken at the number (R186). -/
def nearWords (n : Nat) (r : Enc) : List Word :=
  let mag := if r.lo ≤ 0 ∧ 0 ≤ r.hi then 0 else min r.lo.natAbs r.hi.natAbs
  let e : Int := max ((bitLen mag : Int) - 1 - encP) (-126)
  let ulp : Nat := 2 ^ (e - 23 + encP).toNat
  let i : Int := (e + 126) * 2 ^ 23 + (mag / ulp : Nat)
  let i := if r.hi < 0 then -i else i
  let val (k : Int) : Int := match f32 (BitVec.ofNat 32 k.natAbs) with
    | .fin _ m e => (if k < 0 then -1 else 1) * (m * 2 ^ (e + encP).toNat)
    | _ => 0
  let ok (k : Int) : Bool := k.natAbs < 0x7F800000 && (val k - r.lo).natAbs ≤ n * ulp && (val k - r.hi).natAbs ≤ n * ulp
  ((List.range 9).map (fun (j : Nat) => i + (j : Int) - 4)).filter ok |>.flatMap (fun (k : Int) =>
    if k = 0 then [0x00000000, 0x80000000] else if k < 0 then [BitVec.ofNat 32 (0x80000000 + k.natAbs)] else [BitVec.ofNat 32 k.natAbs])
/-- The results that Table 7.8 allows for an operand that Table 7.9 does not list. (DESIGN CHOICE: entry 6.) -/
def sfuValues (fn : Nat) (x : Word) : List Word :=
  match f32 x with
  | .fin s m e => nearWords (if fn ≤ 2 then 1 else 2) (sfuEnc fn s m e)
  | _ => []

/-- RSQ, EXP2, LOG2, SIN, COS or TANH under a rounding mode: Table 7.9, or one of the values within the bound of Table 7.8, which one
being a fixed function of operand and mode, with NX (R186, R187; DESIGN CHOICE: entry 6). -/
def fSfu (fn rm : Nat) (x : Word) : FR :=
  match sfuSpecial fn (f32 x) with
  | some r => r
  | none =>
    let l := sfuValues fn x
    { x := (l.getD (Config.sfu fn rm x % l.length) 0).toNat, fl := fNX }

end Sys2Proof.Machine
end

