-- ==== Sys2Proof/Machine/Float.lean ====
section
/-! DEFINITION. Sys2Proof/Machine/Float.lean: FP32 and packed 16-bit arithmetic, special functions and conversions (07_arithmetic.md
R161 to R169, R178 to R189). Flags go to `FFLAGS` when the result is written (R161). -/
namespace Sys2Proof.Machine
open Host (Outcome)

/-- An instruction of one FP32 or packed result per lane, with its flags. -/
def flt (i : Instr) (s : State) (d : Opd) (f : Ctx → Nat → FR) : Outcome State Fault Refusal :=
  compute i s (fun c => (c.dst d (fun l => (f c l).word), c.flags d (fun l => (f c l).fl)))

/-- FP32 value of a source in a lane (R64). -/
def Ctx.fv (c : Ctx) (o : Opd) (l : Nat) : Num := f32 (c.fp o l)

/-- FADD (R178). -/
def execFadd (h : Hdr) (d a b : Opd) (rm : Rm) (s : State) : Outcome State Fault Refusal :=
  flt (.fadd h d a b rm) s d (fun c l => fAdd fp32 (c.rm rm) (c.fv a l) (c.fv b l))
/-- FSUB (R178): a − b is a + (−b). -/
def execFsub (h : Hdr) (d a b : Opd) (rm : Rm) (s : State) : Outcome State Fault Refusal :=
  flt (.fsub h d a b rm) s d (fun c l => fAdd fp32 (c.rm rm) (c.fv a l) (c.fv b l).neg)
/-- FMUL (R178). -/
def execFmul (h : Hdr) (d a b : Opd) (rm : Rm) (s : State) : Outcome State Fault Refusal :=
  flt (.fmul h d a b rm) s d (fun c l => fMul fp32 (c.rm rm) (c.fv a l) (c.fv b l))
/-- FFMA (R178): one rounding. -/
def execFfma (h : Hdr) (d a b c : Opd) (rm : Rm) (s : State) : Outcome State Fault Refusal :=
  flt (.ffma h d a b c rm) s d (fun x l => fFma fp32 (x.rm rm) (x.fv a l) (x.fv b l) (x.fv c l))
/-- FMIN (R179). -/
def execFmin (h : Hdr) (d a b : Opd) (s : State) : Outcome State Fault Refusal :=
  flt (.fmin h d a b) s d (fun c l => fMinMax fp32 false (c.fp a l).toNat (c.fp b l).toNat)
/-- FMAX (R179). -/
def execFmax (h : Hdr) (d a b : Opd) (s : State) : Outcome State Fault Refusal :=
  flt (.fmax h d a b) s d (fun c l => fMinMax fp32 true (c.fp a l).toNat (c.fp b l).toNat)
/-- FCMP (R180): NV is raised even for p127. -/
def execFcmp (h : Hdr) (p : Pr) (a b : Opd) (cc : FCond) (s : State) : Outcome State Fault Refusal :=
  compute (.fcmp h p a b cc) s (fun c => (c.dstP p (fun l => (fCmp cc (c.fv a l) (c.fv b l)).1),
    c.flags .zero (fun l => (fCmp cc (c.fv a l) (c.fv b l)).2)))
/-- FRND (R181). -/
def execFrnd (h : Hdr) (d a : Opd) (rm : Rm) (x : Bool) (s : State) : Outcome State Fault Refusal :=
  flt (.frnd h d a rm x) s d (fun c l => fRnd fp32 (c.rm rm) x (c.fv a l))
/-- FCLASS (R182): no flag. -/
def execFclass (h : Hdr) (d a : Opd) (s : State) : Outcome State Fault Refusal :=
  flt (.fclass h d a) s d (fun c l => { x := fClass fp32 (c.fp a l).toNat, fl := 0 })
/-- FSCALE (R178): the second operand is an integer. -/
def execFscale (h : Hdr) (d a b : Opd) (rm : Rm) (s : State) : Outcome State Fault Refusal :=
  flt (.fscale h d a b rm) s d (fun c l => fScale fp32 (c.rm rm) (c.fv a l) (c.w32 b l).toInt)

/-- An error-free transform: hi and lo in a vector pair (R183). -/
def pairOp (i : Instr) (s : State) (d : Opd) (f : Ctx → Nat → (Word × Word) × BitVec 8) : Outcome State Fault Refusal :=
  compute i s (fun c => (c.dstN d 2 (fun j l => if j = 0 then (f c l).1.1 else (f c l).1.2), c.flags d (fun l => (f c l).2)))
/-- TWOSUM (R183, R184). -/
def execTwosum (h : Hdr) (d a b : Opd) (s : State) : Outcome State Fault Refusal :=
  pairOp (.twosum h d a b) s d (fun c l => errFree ((c.fv a l).add 0 (c.fv b l)))
/-- TWOPROD (R183, R184). -/
def execTwoprod (h : Hdr) (d a b : Opd) (s : State) : Outcome State Fault Refusal :=
  pairOp (.twoprod h d a b) s d (fun c l => errFree ((c.fv a l).mul (c.fv b l)))
/-- FADDP (R183, R184): with .s, B is one FP32 operand and its low part +0. -/
def execFaddp (h : Hdr) (d a b : Opd) (one : Bool) (s : State) : Outcome State Fault Refusal :=
  pairOp (.faddp h d a b one) s d (fun c l =>
    faddPair (c.wide a 0 l) (c.wide a 1 l) (if one then c.fp b l else c.wide b 0 l) (if one then 0 else c.wide b 1 l))

/-- Element `i` of a packed word. -/
def half (x : Word) (i : Nat) : Nat := bits x.toNat (16 * i) 16
/-- Two packed results: the word and the union of the flags (R166). -/
def pk2 (f : Nat → FR) : FR := { x := (f 1).x * 65536 + (f 0).x, fl := (f 0).fl ||| (f 1).fl }
/-- A packed operation; with .b0 element 0 of B serves both (R185). Constants read as integers. -/
def packed (i : Instr) (s : State) (d a b x : Opd) (b0 : Bool) (f : Ctx → Nat → Nat → Nat → FR) : Outcome State Fault Refusal :=
  flt i s d (fun c l => pk2 (fun e => f c (half (c.w32 a l) e) (half (c.w32 b l) (if b0 then 0 else e)) (half (c.w32 x l) e)))
/-- PKADD (R185). -/
def execPkadd (h : Hdr) (d a b : Opd) (rm : Rm) (b0 : Bool) (s : State) : Outcome State Fault Refusal :=
  packed (.pkadd h d a b rm b0) s d a b .zero b0 (fun c x y _ => fAdd fp16 (c.rm rm) (fH false x) (fH false y))
/-- PKMUL (R185). -/
def execPkmul (h : Hdr) (d a b : Opd) (rm : Rm) (b0 : Bool) (s : State) : Outcome State Fault Refusal :=
  packed (.pkmul h d a b rm b0) s d a b .zero b0 (fun c x y _ => fMul fp16 (c.rm rm) (fH false x) (fH false y))
/-- PKFMA (R185). -/
def execPkfma (h : Hdr) (d a b c : Opd) (rm : Rm) (b0 : Bool) (s : State) : Outcome State Fault Refusal :=
  packed (.pkfma h d a b c rm b0) s d a b c b0 (fun k x y z => fFma fp16 (k.rm rm) (fH false x) (fH false y) (fH false z))
/-- PKFMAB (R185). -/
def execPkfmab (h : Hdr) (d a b c : Opd) (rm : Rm) (b0 : Bool) (s : State) : Outcome State Fault Refusal :=
  packed (.pkfmab h d a b c rm b0) s d a b c b0 (fun k x y z => fFma bf16 (k.rm rm) (fH true x) (fH true y) (fH true z))

/-! ### Special functions: variable latency, counted on e1 (R186) -/

/-- An SFU operation: its result and flags are fixed at issue and written at SFU_RESULT. -/
def sfuOp (i : Instr) (s : State) (d a : Opd) (f : Ctx → Word → FR) : Outcome State Fault Refusal :=
  issue i s (fun c s => .ok (s.start c
    { c.pend i (match d with | .s _ => [c.ownRid] | _ => c.rids) with
      wr := c.dst d (fun l => (f c (c.fp a l)).word), flags := c.flags d (fun l => (f c (c.fp a l)).fl)
      lfl := match d with | .s _ => [] | _ => byLane (fun l => (f c (c.fp a l)).fl) }))
/-- RCP (R186, R187). -/
def execRcp (h : Hdr) (d a : Opd) (rm : Rm) (s : State) : Outcome State Fault Refusal :=
  sfuOp (.rcp h d a rm) s d a (fun c x => fRcp (c.rm rm) (f32 x))
/-- RSQ (R186, R187). -/
def execRsq (h : Hdr) (d a : Opd) (s : State) : Outcome State Fault Refusal := sfuOp (.rsq h d a) s d a (fun c => fSfu 0 (c.rm .dyn))
/-- SQRT (R186, R187). -/
def execSqrt (h : Hdr) (d a : Opd) (rm : Rm) (s : State) : Outcome State Fault Refusal :=
  sfuOp (.sqrt h d a rm) s d a (fun c x => fSqrt (c.rm rm) (f32 x))
/-- EXP2 (R186, R187). -/
def execExp2 (h : Hdr) (d a : Opd) (s : State) : Outcome State Fault Refusal := sfuOp (.exp2 h d a) s d a (fun c => fSfu 1 (c.rm .dyn))
/-- LOG2 (R186, R187). -/
def execLog2 (h : Hdr) (d a : Opd) (s : State) : Outcome State Fault Refusal := sfuOp (.log2 h d a) s d a (fun c => fSfu 2 (c.rm .dyn))
/-- SIN (R186, R187). -/
def execSin (h : Hdr) (d a : Opd) (s : State) : Outcome State Fault Refusal := sfuOp (.sin h d a) s d a (fun c => fSfu 3 (c.rm .dyn))
/-- COS (R186, R187). -/
def execCos (h : Hdr) (d a : Opd) (s : State) : Outcome State Fault Refusal := sfuOp (.cos h d a) s d a (fun c => fSfu 4 (c.rm .dyn))
/-- TANH (R186, R187). -/
def execTanh (h : Hdr) (d a : Opd) (s : State) : Outcome State Fault Refusal := sfuOp (.tanh h d a) s d a (fun c => fSfu 5 (c.rm .dyn))
/-- SFU_RESULT (R134, R161): a pending SFU result and its flags are written, e1 falls. -/
def execSfuResult (tag w id : Nat) (s : State) : Outcome State Fault Refusal :=
  withPend "SFU_RESULT" s tag w id isSfu (fun _ _ q => s.finishPend tag w q q.wr q.flags)

/-! ### Conversions -/

/-- Integer value of a source of a type (R188). -/
def Ctx.intOf (c : Ctx) (ty : ITy) (a : Opd) (l : Nat) : Int :=
  match ty with
  | .n32 => (c.w32 a l).toNat
  | .i32 => (c.w32 a l).toInt
  | .n64 => (c.w64 a l).toNat
  | .i64 => (c.w64 a l).toInt
/-- CVTIF (R188). -/
def execCvtif (h : Hdr) (d a : Opd) (rm : Rm) (ty : ITy) (s : State) : Outcome State Fault Refusal :=
  flt (.cvtif h d a rm ty) s d (fun c l => fOfInt (c.rm rm) (c.intOf ty a l))
/-- CVTFI (R188): saturates with NV outside the type's range. -/
def execCvtfi (h : Hdr) (d a : Opd) (rm : Rm) (ty : ITy) (s : State) : Outcome State Fault Refusal :=
  compute (.cvtfi h d a rm ty) s (fun c =>
    let r (l : Nat) := fToInt ty (c.rm rm) (c.fv a l)
    (if ty.wide then c.dst64 d (fun l => (r l).1) else c.dst d (fun l => (r l).1.setWidth 32), c.flags d (fun l => (r l).2)))
/-- CVTFF (R189): between the two packed 16-bit formats. -/
def execCvtff (h : Hdr) (d a : Opd) (rm : Rm) (toF16 : Bool) (s : State) : Outcome State Fault Refusal :=
  flt (.cvtff h d a rm toF16) s d (fun c l =>
    pk2 (fun e => finish (if toF16 then fp16 else bf16) (c.rm rm) (fH toF16 (half (c.w32 a l) e))))
/-- PACKH (R189). -/
def execPackh (h : Hdr) (d a b : Opd) (rm : Rm) (bf : Bool) (s : State) : Outcome State Fault Refusal :=
  flt (.packh h d a b rm bf) s d (fun c l =>
    pk2 (fun e => finish (if bf then bf16 else fp16) (c.rm rm) (if e = 0 then c.fv a l else c.fv b l)))
/-- UNPKH (R189): exact. -/
def execUnpkh (h : Hdr) (d a : Opd) (bf hi : Bool) (s : State) : Outcome State Fault Refusal :=
  flt (.unpkh h d a bf hi) s d (fun c l => finish fp32 0 (fH bf (half (c.w32 a l) (if hi then 1 else 0))))

end Sys2Proof.Machine
end

