-- ==== Sys2Proof/Machine/CrossLane.lean ====
section
/-! DEFINITION. Sys2Proof/Machine/CrossLane.lean: instructions that look across the active lanes of the bundle (08_wave.md R190 to
R201). A lane that is not active contributes nothing and receives nothing (R190). -/
namespace Sys2Proof.Machine
open Host (Outcome)

/-- Width of a group (Table 8.2). -/
def LxGroup.width : LxGroup → Nat | .g32 => 32 | .g16 => 16 | .g8 => 8 | .g4 => 4 | .g2 => 2 | .g1 => 1
/-- The lane that lane `l` reads in LXCH, if any (R193). -/
def lxLane (m : LxMode) (w l b : Nat) : Option Nat :=
  let base := l - l % w
  match m with
  | .atl => some (base + b % w)
  | .lo => if b < w ∧ base + b ≤ l then some (l - b) else none
  | .hi => if b < w ∧ l + b < base + w then some (l + b) else none
  | .mix => some (base + ((l - base) ^^^ (b % w)))
  | .rot => some (base + (l - base + b) % w)
/-- The lane that lane `l` reads, if it is active (R193). -/
def Ctx.lxFrom (c : Ctx) (m : LxMode) (g : LxGroup) (b : Opd) (l : Nat) : Option Nat :=
  (lxLane m (LxGroup.width g) l (c.w32 b l).toNat).filter (fun j => c.lanes.getLsbD j)
/-- LXCH (R193). -/
def execLxch (h : Hdr) (d a b : Opd) (p : Option Pr) (m : LxMode) (g : LxGroup) (s : State) : Outcome State Fault Refusal :=
  compute (.lxch h d a b p m g) s (fun c =>
    (c.dst d (fun l => c.w32 a ((c.lxFrom m g b l).getD l))
      ++ (match p with | some p => c.dstP p (fun l => (c.lxFrom m g b l).isSome) | none => []), 0))

/-- The values of a predicate in the active lanes, negated if asked (R194). -/
def Ctx.preds (c : Ctx) (p : Pr) (neg : Bool) : List Bool := (lanesOf c.lanes).map (fun l => c.p p.toNat l != neg)
/-- AGREE (R194). -/
def agree (k : AgreeK) (xs : List Bool) : Bool :=
  match k with
  | .every => xs.all id
  | .some => xs.any id
  | .same => xs.all id || !xs.any id
  | .none => !xs.any id
def execAgree (h : Hdr) (p a : Pr) (k : AgreeK) (neg : Bool) (s : State) : Outcome State Fault Refusal :=
  compute (.agree h p a k neg) s (fun c => (c.dstP p (fun _ => agree k (c.preds a neg)), 0))

/-- BALLOT (R195): the mask of the active lanes whose predicate is true, or their number. -/
def execBallot (h : Hdr) (d : Opd) (a : Pr) (cnt neg : Bool) (s : State) : Outcome State Fault Refusal :=
  compute (.ballot h d a cnt neg) s (fun c =>
    let m := lanesWhere (fun l => c.lanes.getLsbD l && (c.p a.toNat l != neg))
    (c.dst d (fun _ => if cnt then popcW m else m), 0))

/-- x op y of WRED and WSCAN (R196). -/
def wop (op : WOp) (ty : WTy) (rm : Nat) (x y : Word) : FR :=
  let int (z : Word) : FR := { x := z.toNat, fl := 0 }
  match ty, op with
  | .f32, .add => fAdd fp32 rm (f32 x) (f32 y)
  | .f32, .min => fMinMax fp32 false x.toNat y.toNat
  | .f32, .max => fMinMax fp32 true x.toNat y.toNat
  | _, .add => int (x + y)
  | t, .min => int (imin (t = .i32) x y)
  | t, .max => int (imax (t = .i32) x y)
  | _, .and => int (x &&& y)
  | _, .or => int (x ||| y)
  | _, .xor => int (x ^^^ y)
/-- Identity of an exclusive scan (Table 8.3). -/
def wident (op : WOp) (ty : WTy) : Word :=
  match op, ty with
  | .add, _ => 0
  | .min, .n32 => 0xFFFFFFFF
  | .min, .i32 => 0x7FFFFFFF
  | .min, .f32 => 0x7F800000
  | .max, .n32 => 0
  | .max, .i32 => 0x80000000
  | .max, .f32 => 0xFF800000
  | .and, _ => 0xFFFFFFFF
  | .or, _ => 0
  | .xor, _ => 0
/-- Combine two nodes of the tree; an absent one is passed on (R197). -/
def wnode (op : WOp) (ty : WTy) (rm : Nat) (x y : Option Word × BitVec 8) : Option Word × BitVec 8 :=
  match x.1, y.1 with
  | none, _ => (y.1, x.2 ||| y.2)
  | some a, none => (some a, x.2 ||| y.2)
  | some a, some b => let r := wop op ty rm a b; (some r.word, x.2 ||| y.2 ||| r.fl)
/-- One level of the tree. -/
def wlevel (f : α → α → α) : List α → List α
  | a :: b :: r => f a b :: wlevel f r
  | l => l
/-- WRED's tree over 32 lanes: five levels (R197). -/
def wtree (op : WOp) (ty : WTy) (rm : Nat) (xs : List (Option Word)) : Option Word × BitVec 8 :=
  let lv := wlevel (wnode op ty rm)
  (lv (lv (lv (lv (lv (xs.map (·, 0))))))).headD (none, 0)
/-- A value of a source as the type reads it (R64). -/
def Ctx.wsrc (c : Ctx) (ty : WTy) (a : Opd) (l : Nat) : Word := if ty = .f32 then c.fp a l else c.w32 a l
/-- WRED (R197). -/
def execWred (h : Hdr) (d a : Opd) (rm : Rm) (op : WOp) (ty : WTy) (s : State) : Outcome State Fault Refusal :=
  compute (.wred h d a rm op ty) s (fun c =>
    let r := wtree op ty (c.rm rm) (byLane (fun l => if c.lanes.getLsbD l then some (c.wsrc ty a l) else none))
    (c.dst d (fun _ => r.1.getD 0), r.2))

/-- WSCAN over the active lanes, in order: results and flags (R198). -/
def wscan (op : WOp) (ty : WTy) (rm : Nat) (excl : Bool) (f : Nat → Word) : List Nat → Option Word → List (Nat × Word) × BitVec 8
  | [], _ => ([], 0)
  | l :: r, acc =>
    let x := match acc with
      | none => { x := (f l).toNat, fl := 0 : FR }
      | some a => wop op ty rm a (f l)
    let rest := wscan op ty rm excl f r (some x.word)
    ((l, if excl then acc.getD (wident op ty) else x.word) :: rest.1, x.fl ||| rest.2)
def execWscan (h : Hdr) (d a : Opd) (rm : Rm) (op : WOp) (ty : WTy) (excl : Bool) (s : State) : Outcome State Fault Refusal :=
  compute (.wscan h d a rm op ty excl) s (fun c =>
    let r := wscan op ty (c.rm rm) excl (c.wsrc ty a) (lanesOf c.lanes) none
    (c.dst d (fun l => ((r.1.find? (·.1 == l)).map (·.2)).getD 0), r.2))

/-- REBAL: row and offset of lane `l` with base `b`, for row lengths `len` (R199). -/
def rebal (len : Nat → Nat) (b l : Nat) : Word × Word :=
  let p (i : Nat) : Nat := (List.range i).foldl (fun a j => a + len j) 0
  let w := b + l
  if p 32 ≤ w then (0xFFFFFFFF, BitVec.ofNat 32 (w - p 32))
  else
    let row := (List.range 32).foldl (fun r i => if p i ≤ w then i else r) 0
    (BitVec.ofNat 32 row, BitVec.ofNat 32 (w - p row))
def execRebal (h : Hdr) (d a b : Opd) (s : State) : Outcome State Fault Refusal :=
  compute (.rebal h d a b) s (fun c =>
    let len (j : Nat) : Nat := if c.lanes.getLsbD j then (c.w32 a j).toNat else 0
    (c.dstN d 2 (fun i l => let r := rebal len (c.w32 b l).toNat l; if i = 0 then r.1 else r.2), 0))

/-- CSAMP: prefix sums of the weights, with flags NV and OF only (R200). -/
def prefixes : List Word → Word → BitVec 8 → List Word × BitVec 8
  | [], _, fl => ([], fl)
  | x :: r, q, fl =>
    let y := fAdd fp32 0 (f32 q) (f32 x)
    let rest := prefixes r y.word (fl ||| (y.fl &&& fOF))
    (y.word :: rest.1, rest.2)
/-- The lane that random value `r` chooses among prefixes `qs` of weights `ws` (R200). -/
def csamp (ws qs : List Word) (r : Word) : Word :=
  let total := qs.getD 31 0
  if (f32 total).isZero then 0xFFFFFFFF
  else if (f32 total).isInf then BitVec.ofNat 32 (((List.range 32).find? (fun i => (f32 (qs.getD i 0)).isInf)).getD 0)
  else
    let t := (finish fp32 0 ((f32 total).mul (.fin false r.toNat (-32)))).word
    match (List.range 32).find? (fun i => (f32 (qs.getD i 0)).cmp (f32 t) > 0) with
    | some i => BitVec.ofNat 32 i
    | none => BitVec.ofNat 32 ((List.range 32).foldl (fun m i => if (f32 (ws.getD i 0)).cmp (.fin false 0 0) > 0 then i else m) 0)
/-- CSAMP (R200). -/
def execCsamp (h : Hdr) (d a b : Opd) (s : State) : Outcome State Fault Refusal :=
  compute (.csamp h d a b) s (fun c =>
    let bad (l : Nat) : Bool := let x := c.fv a l; x.isNan || x.cmp (.fin false 0 0) < 0
    let ws := byLane (fun l => if c.lanes.getLsbD l && !bad l then c.fp a l else 0)
    let q := prefixes ws 0 0
    (c.dst d (fun l => csamp ws q.1 (c.w32 b l)),
      if c.lanes = 0 then 0 else q.2 ||| (if (lanesOf c.lanes).any bad then fNV else 0)))

/-- One round of RAND (Table 8.6). -/
def randRound (m : Word) (sh : Nat) (x k : Word) : Word × Word :=
  let y := (x ^^^ k) * m
  (y ^^^ (y >>> sh), k.rotateLeft 11 + 0x6D2B79F5)
/-- RAND's hash (R201). -/
def randHash (x k : Word) : Word :=
  let a := randRound 0xA3B195A5 15 x k
  let b := randRound 0x8F4C2D6B 13 a.1 a.2
  let c := randRound 0xC2D17A93 16 b.1 b.2
  (randRound 0xE54B1F37 14 c.1 c.2).1
/-- RAND (R201). (DESIGN CHOICE: entry 63.) -/
def execRand (h : Hdr) (d a b : Opd) (f01 : Bool) (s : State) : Outcome State Fault Refusal :=
  compute (.rand h d a b f01) s (fun c => (c.dst d (fun l =>
    let x := randHash (c.w32 a l) (c.w32 b l)
    if f01 then (roundTo fp32 0 false (x.toNat / 256) (-24)).word else x), 0))

end Sys2Proof.Machine
end

