-- ==== Sys2Proof/Machine/Move.lean ====
section
/-! DEFINITION. Sys2Proof/Machine/Move.lean: moves, selects and predicate instructions (06_issue.md R153 to R159). -/
namespace Sys2Proof.Machine
open Host (Outcome)

/-- MOV (R153): 32 or 64 bits, to a vector, scalar or loop-counter register. -/
def execMov (h : Hdr) (d a : Opd) (w : Bool) (s : State) : Outcome State Fault Refusal :=
  compute (.mov h d a w) s (fun c => (if w then c.dst64 d (c.w64 a) else c.dst d (c.w32 a), 0))
/-- MOVI (R154): a scalar is zero-extended. -/
def execMovi (h : Hdr) (d : Opd) (imm : BitVec 32) (s : State) : Outcome State Fault Refusal :=
  compute (.movi h d imm) s (fun c => (c.dst d (fun _ => imm), 0))
/-- MOVI.s (R154): a scalar is sign-extended, a vector as plain. -/
def execMoviS (h : Hdr) (d : Opd) (imm : BitVec 32) (s : State) : Outcome State Fault Refusal :=
  compute (.moviS h d imm) s (fun c =>
    (match d with | .s _ => c.dst64 d (fun _ => imm.signExtend 64) | d => c.dst d (fun _ => imm), 0))
/-- MOVI.hi (R154): bits [63:32] of a scalar register; the others are not read, they stay. -/
def execMoviHi (h : Hdr) (d : Opd) (imm : BitVec 32) (s : State) : Outcome State Fault Refusal :=
  compute (.moviHi h d imm) s (fun c =>
    let low : Word := match d with | .s n => (c.wv.sr n.toNat).setWidth 32 | _ => 0
    (c.dst64 d (fun _ => imm ++ low), 0))
/-- SEL (R156). -/
def execSel (h : Hdr) (d a b : Opd) (p : Pr) (w : Bool) (s : State) : Outcome State Fault Refusal :=
  compute (.sel h d a b p w) s (fun c =>
    (if w then c.dst64 d (fun l => if c.p p.toNat l then c.w64 a l else c.w64 b l)
     else c.dst d (fun l => if c.p p.toNat l then c.w32 a l else c.w32 b l), 0))

/-- Predicate logic (R157). -/
def plogic (i : Instr) (s : State) (p a b : Pr) (na nb : Bool) (op : Bool → Bool → Bool) : Outcome State Fault Refusal :=
  compute i s (fun c => (c.dstP p (fun l => op (c.p a.toNat l != na) (c.p b.toNat l != nb)), 0))
/-- PAND (R157). -/
def execPand (h : Hdr) (p a b : Pr) (na nb : Bool) (s : State) : Outcome State Fault Refusal :=
  plogic (.pand h p a b na nb) s p a b na nb and
/-- POR (R157). -/
def execPor (h : Hdr) (p a b : Pr) (na nb : Bool) (s : State) : Outcome State Fault Refusal :=
  plogic (.por h p a b na nb) s p a b na nb or
/-- PXOR (R157). -/
def execPxor (h : Hdr) (p a b : Pr) (na nb : Bool) (s : State) : Outcome State Fault Refusal :=
  plogic (.pxor h p a b na nb) s p a b na nb bne
/-- PMOV (R158). -/
def execPmov (h : Hdr) (p a : Pr) (s : State) : Outcome State Fault Refusal :=
  compute (.pmov h p a) s (fun c => (c.dstP p (c.p a.toNat), 0))
/-- PMOV.not (R158). -/
def execPmovNot (h : Hdr) (p a : Pr) (s : State) : Outcome State Fault Refusal :=
  compute (.pmovNot h p a) s (fun c => (c.dstP p (fun l => !c.p a.toNat l), 0))
/-- PMOV.val (R158). -/
def execPmovVal (h : Hdr) (d : Opd) (a : Pr) (s : State) : Outcome State Fault Refusal :=
  compute (.pmovVal h d a) s (fun c => (c.dst d (fun l => if c.p a.toNat l then 1 else 0), 0))
/-- PMOV.nz (R158). -/
def execPmovNz (h : Hdr) (p : Pr) (a : Opd) (s : State) : Outcome State Fault Refusal :=
  compute (.pmovNz h p a) s (fun c => (c.dstP p (fun l => c.w32 a l ≠ 0), 0))
/-- PSET (R159): n consecutive predicates from the bits of the source. -/
def execPset (h : Hdr) (p : Pr) (a : Opd) (n1 : BitVec 6) (s : State) : Outcome State Fault Refusal :=
  compute (.pset h p a n1) s (fun c =>
    ((List.range (n1.toNat + 1)).flatMap (fun i => c.dstP (p + BitVec.ofNat 7 i) (fun l => (c.w32 a l).getLsbD i)), 0))
/-- PSET.pack (R159). -/
def execPsetPack (h : Hdr) (d : Opd) (a : Pr) (n1 : BitVec 6) (s : State) : Outcome State Fault Refusal :=
  compute (.psetPack h d a n1) s (fun c =>
    (c.dst d (fun l => lanesWhere (fun i => i ≤ n1.toNat && c.p (a.toNat + i) l)), 0))
/-- SMOV (R155): one lane of a vector register, read even if that lane is not active. -/
def execSmov (h : Hdr) (d a b : Opd) (first : Bool) (s : State) : Outcome State Fault Refusal :=
  compute (.smov h d a b first) s (fun c =>
    (c.dst d (fun _ => c.w32 a (if first then lowest c.lanes else (c.sc b).toNat % 32)), 0))

end Sys2Proof.Machine
end

