-- ==== Sys2Proof/Machine/Control.lean ====
section
/-! DEFINITION. Sys2Proof/Machine/Control.lean: control instructions and the entry of a clause (06_issue.md R125 to R152;
03_code.md R49 to R54, R71, R72; 02_work.md R29, R30, R464). -/
namespace Sys2Proof.Machine
open Host (Outcome)

/-- Change the issuing wave. -/
def State.onWave (s : State) (c : Ctx) (f : Wave → Wave) : State := s.updWave c.tag c.w f
/-- NOP (R152). -/
def execNop (h : Hdr) (s : State) : Outcome State Fault Refusal := issue (.nop h) s (fun _ s => .ok s)
/-- BRA (R145): active threads take the target, the others the next clause. -/
def execBra (h : Hdr) (off : BitVec 32) (s : State) : Outcome State Fault Refusal :=
  issue (.bra h off) s (fun c s => .ok (s.onWave c (·.setPcs c.lanes (fun _ => c.target off))))

/-- The first active lane whose address fails `f`. -/
def Ctx.badLane (c : Ctx) (a : Opd) (f : DWord → Bool) : Option Nat := (lanesOf c.lanes).find? (fun l => f (c.w64 a l))
/-- An indirect transfer: misaligned first, then bits [63:48] (R145). -/
def indirect (c : Ctx) (a : Opd) (s : State) : Except Stop State :=
  match c.badLane a (fun x => x.extractLsb' 0 3 ≠ 0) with
  | some l => .error (.trap 0x06 (c.w64 a l).toNat)
  | none =>
    match c.badLane a (fun x => x.extractLsb' 48 16 ≠ 0) with
    | some l => .error (.trap 0x08 (c.w64 a l).toNat)
    | none => .ok (s.onWave c (·.setPcs c.lanes (fun l => c.w64 a l)))
/-- BRX (R145). -/
def execBrx (h : Hdr) (a : Opd) (s : State) : Outcome State Fault Refusal := issue (.brx h a) s (fun c s => indirect c a s)
/-- CALL (R145): the link is the next clause. -/
def execCall (h : Hdr) (d : Opd) (off : BitVec 32) (s : State) : Outcome State Fault Refusal :=
  issue (.call h d off) s (fun c s =>
    .ok ((s.onWave c (·.setPcs c.lanes (fun _ => c.target off))).result c (.call h d off) (c.dst64 d (fun _ => c.next)) 0))
/-- RET (R145): BRX marked as a return. -/
def execRet (h : Hdr) (a : Opd) (s : State) : Outcome State Fault Refusal := issue (.ret h a) s (fun c s => indirect c a s)

/-- The set of the slices of a lane set. -/
def sliceBits (m : Lanes) : Slices := BitVec.ofNat 8 ((List.range 8).foldr (fun sl n => (if m &&& sliceMask sl ≠ 0 then 1 else 0) + 2 * n) 0)
/-- JOIN (R146): every slice of the bundle is marked joining. -/
def execJoin (h : Hdr) (s : State) : Outcome State Fault Refusal :=
  issue (.join h) s (fun c s => .ok (s.onWave c (fun wv => { wv with joining := wv.joining ||| sliceBits c.b.mask })))

/-- LOOP (R147): skip the body when the counter is 0, otherwise push an entry of which every thread of the bundle is a
member. -/
def execLoop (h : Hdr) (d : Opd) (off : BitVec 32) (s : State) : Outcome State Fault Refusal :=
  issue (.loop h d off) s (fun c s =>
    let k := match d with | .lc k => k.val | _ => 0
    let fin := c.target off
    let ls := c.wv.loops
    if c.lc k = 0 then .ok (s.onWave c (·.setPcs c.b.mask (fun _ => fin)))
    else .ok (s.onWave c (fun wv =>
      { wv.mapThr c.b.mask (fun _ t => { t with pc := c.next, mem := t.mem ||| (1#3 <<< ls.length) }) with
        loops := ls ++ [{ start := c.next, fin := fin, k := k }] })))

/-- LEXIT (R148): active threads are held at the target until the innermost loop is popped. -/
def execLexit (h : Hdr) (off : BitVec 32) (s : State) : Outcome State Fault Refusal :=
  issue (.lexit h off) s (fun c s =>
    .ok (s.onWave c (·.mapThr c.lanes (fun _ t =>
      { t with pc := c.target off, hold := some (c.wv.loops.length - 1, true) }))))

/-- EXIT (R149): performs after its region commits. -/
def execExit (h : Hdr) (s : State) : Outcome State Fault Refusal := endRegion (.exit h) s (fun _ => ([], [], []))
/-- YIELD (R150): performs after its region commits. -/
def execYield (h : Hdr) (s : State) : Outcome State Fault Refusal := endRegion (.yield h) s (fun _ => ([], [], []))
/-- WAIT (R135, R151). -/
def execWait (h : Hdr) (k : BitVec 4) (mask : BitVec 8) (s : State) : Outcome State Fault Refusal :=
  issue (.wait h k mask) s (fun c s => .ok (s.onWave c (fun wv => { wv with waitCnt := some (mask, k.toNat) })))

/-! ### Entering a clause -/

/-- The head PC among ready slices: the lowest, or that of the oldest slice once a count reaches 4,096 (R127, R128). -/
def Wave.headPc (wv : Wave) (ready : List Nat) : Option DWord :=
  match ready.filter (fun sl => 4096 ≤ sget 0 wv.age sl) with
  | [] => ready.foldl (fun m sl => match m, wv.slicePc sl with
      | some x, some pc => some (if pc.toNat < x.toNat then pc else x)
      | m, pc => m.or pc) none
  | o :: os => wv.slicePc (os.foldl (fun b sl => if sget 0 wv.age b < sget 0 wv.age sl then sl else b) o)

/-- The threads that take part in the clause at `pc` (R126). -/
def Wave.bundleAt (wv : Wave) (ready : List Nat) (pc : DWord) : Lanes :=
  lanesWhere (fun t => ready.contains (t / 4) && wv.slicePc (t / 4) == some pc && (wv.thread t).live && (wv.thread t).pc == pc)

/-- Opcode of a word. -/
def opOf (x : DWord) : BitVec 8 := x.extractLsb' 56 8
/-- The clause-level checks of Table 3.7 on the words of a clause, with R69, R30 and R141. -/
def clauseBad (h : Header) (ws : List DWord) : Bool :=
  ws.any (fun x => match opEng (opOf x) with | some (some e) => e ≠ h.eng | _ => false)
    || (ws.dropLast).any (fun x => opTransfers (opOf x) || opEndsRegion (opOf x))
    || (ws.any (fun x => opOf x == 0x06) && !h.rb)

/-- Where a slice restarts: the first clause of its open run, or the clause itself. -/
def Wave.startOf (wv : Wave) (sl : Nat) (pc : DWord) : DWord := (wv.region? sl).elim pc (·.start)
/-- A clause-level trap (R71, R72). -/
def State.clauseTrap (s : State) (tag w : Nat) (wv : Wave) (m : Lanes) (pc : DWord) (cause faddr : Nat) : State :=
  s.takeTrap tag w m { cause := cause, lanes := m, addr := pc, region := wv.startOf (lowest m / 4) pc, after := false
                       faddr := BitVec.ofNat 64 faddr }
/-- A fetch that fails (R215, Table 9.3, R226). -/
def State.fetchStop (s : State) (tag w : Nat) (wv : Wave) (m : Lanes) (pc : DWord) : Bad → State
  | .fault ps => s.pageFault tag w (slicesOf m) ps kFetch
  | .prot a => s.clauseTrap tag w wv m pc 0x08 a
  | .poison a => s.clauseTrap tag w wv m pc 0x09 a

/-- A new run of a slice (R29). -/
def Wave.newRun (wv : Wave) (rid sl : Nat) (pc : DWord) : Region :=
  { rid := rid, sl := sl, start := pc, stores := [], rd := [], wr := [], ended := none
    undo := { acc := [], thr := (List.range 4).map (fun j => wv.thread (4 * sl + j)) }
    decisions := [], bdone := [], tex := [], aqStart := false, aqStop := false }

/-- Slices that the wave's loops hold: their runs begin anew with those of the others at an RB clause in loop mode, so that every
open run began at the clause of the snapshot (R141). -/
def Wave.loopHeld (wv : Wave) : List Nat :=
  (List.range 8).filter (fun sl => (wv.slicePc sl).isNone && (List.range 4).any (fun j => !(wv.thread (4 * sl + j)).exited))
/-- The bundle enters its clause: runs begin at an RB clause, loop mode and its snapshot (R141), the marks of the slices
clear (R128, R129). (DEDUCED: entry 8.) -/
def Wave.enterClause (wv : Wave) (id : Nat) (m : Lanes) (pc : DWord) (h : Header) (ws : List DWord) : Wave :=
  let sls := slicesOf m
  let loop := ws.any (fun x => opOf x == 0x06)
  let mode := loop || (wv.loopMode && !(h.rb && wv.loops == []))
  let begin_ := if !h.rb then [] else if mode then sls ++ wv.loopHeld else sls
  let snap := if !mode then none
    else if h.rb then some { clause := pc, loops := wv.loops, lc := wv.lc, thr := wv.thr } else wv.snap
  { wv with
    regions := wv.regions ++ begin_.map (fun sl => wv.newRun (id + sl) sl pc)
    bundle := some { h := pc, words := ws, ix := 0, chk := h.chk, rb := h.rb, mask := m }
    loopMode := mode, snap := snap, joining := wv.joining &&& ~~~sliceBits m
    age := sls.foldl (fun a sl => sset 0 a sl 0) wv.age }

/-- Slices of a set whose run is open. -/
def Wave.openIn (wv : Wave) (m : Lanes) : List Nat := (slicesOf m).filter (fun sl => (wv.region? sl).isSome)

/-- Runs that end as a bundle enters an RB clause: those of its slices, and in loop mode those of the whole wave (R464, R141). -/
def Wave.endsAt (wv : Wave) (m : Lanes) (r : Region) : Bool := r.ended.isNone && (wv.loopMode || m &&& sliceMask r.sl ≠ 0)

/-- The words of a loop body from `va` up to END, if every clause of it sets `LB` and they are at most `n` (R143). (DEDUCED: entry 22.) -/
def State.loopBody (s : State) (t : Team) (wv : Wave) (sys : Bool) (fin : Nat) : Nat → Nat → Option (List DWord)
  | 0, _ => none
  | n + 1, va =>
    if va = fin then some []
    else match s.header? t wv sys (BitVec.ofNat 64 va) with
      | none => none
      | some h =>
        if !h.lb || va + 8 * (h.n + 1) > fin then none
        else match s.fetch t wv sys va (h.n + 1), s.loopBody t wv sys fin n (va + 8 * (h.n + 1)) with
          | .ok ws, some r => some (ws ++ r)
          | _, _ => none
/-- Does some wave run the loop whose body a buffer holds? -/
def State.loopUsed (s : State) (b : LoopBuf) : Bool :=
  s.teams.any (fun t => !t.retired && t.core == b.core && t.part == b.part && t.asid == b.asid &&
    t.waves.any (fun wv => wv.pipe == b.pipe && wv.loops.any (·.start.toNat == b.start)))
/-- At the START of its innermost loop a wave's pipe takes the body into its loop buffer, if it fits beside the bodies that are still
used (R143). (DEDUCED: entry 22.) -/
def State.loopFill (s : State) (t : Team) (wv : Wave) (sys : Bool) (pc : DWord) : State :=
  let s := { s with loopBufs := s.loopBufs.filter s.loopUsed }
  match wv.loops.getLast? with
  | none => s
  | some e =>
    if e.start ≠ pc || (s.bufferedCode t wv pc.toNat 1).isSome then s
    else match s.loopBody t wv sys e.fin.toNat 129 pc.toNat with
      | none => s
      | some ws =>
        let used := (s.loopBufs.filter (fun b => b.core == t.core && b.pipe == wv.pipe)).foldl (fun n b => n + b.words.length) 0
        if used + ws.length ≤ 256 then
          { s with loopBufs := s.loopBufs ++ [{ core := t.core, pipe := wv.pipe, part := t.part, asid := t.asid, start := pc.toNat, words := ws }] }
        else s

/-- Enter the clause at `pc` with the threads `m`. (DEDUCED: entry 8.) -/
def State.enterAt (s : State) (t : Team) (wv : Wave) (m : Lanes) (pc : DWord) : State :=
  let sys := t.sys || wv.handler
  let w := wv.ix
  match s.fetch t wv sys pc.toNat 1 with
  | .error b => s.fetchStop t.tag w wv m pc b
  | .ok hw =>
    match Header.ofWord (hw.headD 0) with
    | none => (s.fetchTouch t wv sys pc.toNat 1).clauseTrap t.tag w wv m pc 0x02 0
    | some h =>
      if h.rb ∧ wv.regions.any (wv.endsAt m) then
        -- the runs end here and commit before the clause issues (R464)
        (s.fetchTouch t wv sys pc.toNat 1).updWave t.tag w (fun wv =>
          { wv with regions := wv.regions.map (fun r => if wv.endsAt m r then { r with ended := some .clause } else r) })
      else
        match s.fetch t wv sys (pc.toNat + 8) h.n with
        | .error b => s.fetchStop t.tag w wv m pc b
        | .ok ws =>
          let s := s.fetchTouch t wv sys pc.toNat (h.n + 1)
          if clauseBad h ws || (!h.rb && wv.openIn m ≠ slicesOf m) then s.clauseTrap t.tag w wv m pc 0x02 0
          else { (s.loopFill t wv sys pc).updWave t.tag w (·.enterClause s.nextId m pc h ws) with nextId := s.nextId + 8 }

/-- Is a gang placed? -/
def State.placed (s : State) (t : Team) : Bool := (s.gang? t.gid).any (·.st == .placed)
/-- May the wave choose a bundle (R127, R130, R135)? (DEDUCED: entry 58.) -/
def State.atBoundary (s : State) (t : Team) (wv : Wave) : Bool :=
  s.placed t && !t.retired && wv.bundle.isNone && !wv.blocked && wv.ready ≤ s.cycle && !s.waveHeld t wv
/-- The ready slices of a wave. -/
def State.readySlices (s : State) (t : Team) (wv : Wave) : List Nat := (List.range 8).filter (s.readySlice t wv)

/-- CLAUSE_ENTRY (R127, R51, R71, R141): at a clause boundary the wave forms a bundle, fetches the clause and checks it. -/
def execClauseEntry (tag w : Nat) (s : State) : Outcome State Fault Refusal :=
  match s.team? tag, s.wave? tag w with
  | some t, some wv =>
    let ready := s.readySlices t wv
    if !s.atBoundary t wv then .refused (.notEnabled "CLAUSE_ENTRY")
    else match wv.headPc ready with
      | none => .refused (.notEnabled "CLAUSE_ENTRY")
      | some pc => .next (s.enterAt t wv (wv.bundleAt ready pc) pc)
  | _, _ => .refused (.notEnabled "CLAUSE_ENTRY")

end Sys2Proof.Machine
end

