-- ==== Sys2Proof/Machine/Narrow.lean ====
section
/-! DEFINITION. Sys2Proof/Machine/Narrow.lean: the matrix formats, decoding and conversion of narrow codes, leat lists, DECN and
the election of QST (11_narrow.md R257 to R276). -/
namespace Sys2Proof.Machine
open Host (Outcome)

/-- Is a format code a leat variant (R257)? -/
def isLeat (f : Nat) : Bool := 16 ≤ f && f ≤ 29
/-- Its base. -/
def baseOf (f : Nat) : Nat := if isLeat f then f - 16 else f
/-- Width in bits (Table 11.1). -/
def fmtWidth (f : Nat) : Nat :=
  match baseOf f with
  | 0 | 1 | 2 | 7 | 8 => 6
  | 3 | 4 | 5 | 9 | 10 | 12 | 13 => 8
  | 6 | 11 => 4
  | _ => 16
/-- Escape code of a leat format (Table 11.1). -/
def escOf (f : Nat) : Nat := if baseOf f = 13 then 0xFF else 2 ^ (fmtWidth f - 1)
/-- Tapered formats: bits and exponent bits. -/
def taperOf (f : Nat) : Option (Nat × Nat) :=
  match baseOf f with
  | 0 => some (6, 0) | 1 => some (6, 1) | 2 => some (6, 2) | 3 => some (8, 0) | 4 => some (8, 1) | 5 => some (8, 2) | _ => none
/-- Minifloat formats (Table 11.4), FP16 and BF16. -/
def miniOf (f : Nat) : Option Fmt :=
  match baseOf f with
  | 6 => some ⟨2, 1⟩ | 7 => some ⟨2, 3⟩ | 8 => some ⟨3, 2⟩ | 9 => some ⟨4, 3⟩ | 10 => some ⟨5, 2⟩ | 14 => some fp16 | 15 => some bf16
  | _ => none

/-- Length of the run of bits equal to `b` from bit `n − 1` downward. -/
def runLen (x : Nat) (b : Bool) : Nat → Nat
  | 0 => 0
  | n + 1 => if bit x n = b then runLen x b n + 1 else 0
/-- Positive value of a tapered magnitude code of `n` bits (R258). -/
def taperMag (n es c : Nat) : Num :=
  let m := n - 1
  let b := bit c (m - 1)
  let k := runLen c b m
  let r : Int := if b then (k : Int) - 1 else -k
  let rem := m - k - 1
  let e := if es ≤ rem then bits c (rem - es) es else (c % 2 ^ rem) * 2 ^ (es - rem)
  let fw := rem - es
  .fin false (2 ^ fw + c % 2 ^ fw) (r * (2 ^ es : Nat) + e - fw)

/-- Value of a code: a NaN, a number, or none for the escape of a leat format (R258, R261). -/
def codeVal (f c : Nat) : Option Num :=
  let w := fmtWidth f
  if isLeat f && c == escOf f then none
  else some (match taperOf f with
    | some (n, es) =>
      if c = 0 then .fin false 0 0
      else if c = 2 ^ (n - 1) then .nan false
      else if bit c (n - 1) then (taperMag n es (2 ^ n - c)).neg
      else taperMag n es c
    | none =>
      match miniOf f with
      | some m =>
        if baseOf f = 9 then
          if c % 128 = 127 then .nan false
          else
            let e := bits c 3 4
            if e = 0 then .fin (bit c 7) (c % 8) (-9) else .fin (bit c 7) (c % 8 + 8) ((e : Int) - 10)
        else if m.eb ≤ 3 then
          let e := bits c m.mb m.eb
          let s := bit c (m.eb + m.mb)
          if e = 0 then .fin s (c % 2 ^ m.mb) m.qmin else .fin s (c % 2 ^ m.mb + 2 ^ m.mb) (m.qmin + (e - 1 : Nat))
        else match Num.of m c with
          | .nan _ => .nan false
          | x => x
      | none =>
        let signed := baseOf f = 11 || baseOf f = 12 || baseOf f = 30
        if signed && bit c (w - 1) then .fin true (2 ^ w - c) 0 else .fin false c 0)

/-- Range of an integer format, its leat variant without the escape (Table 11.4). -/
def intRange (f : Nat) : Int × Int :=
  let l : Int := if isLeat f then 1 else 0
  match baseOf f with
  | 11 => (-8 + l, 7)
  | 12 => (-128 + l, 127)
  | 13 => (0, 255 - l)
  | 30 => (-32768, 32767)
  | _ => (0, 65535)

/-- Two's complement negation of a tapered code. -/
def negCode (n : Nat) (s : Bool) (c : Nat) : Nat := if s && c ≠ 0 then 2 ^ n - c else c
/-- Conversion into a tapered format (R260). -/
def toTaper (leat : Bool) (n es : Nat) (x : Num) : FR :=
  let mx := 2 ^ (n - 1) - 1
  let val (c : Nat) : Num := taperMag n es c
  match x with
  | .nan _ => { x := if leat then 0 else 2 ^ (n - 1), fl := fNV }
  | .inf s => { x := negCode n s mx, fl := fOF ||| fNX }
  | .fin s m e =>
    let a := Num.fin false m e
    if m = 0 then { x := 0, fl := 0 }
    else if a.cmp (val 1) < 0 then { x := negCode n s 1, fl := fUF ||| fNX }
    else if a.cmp (val mx) > 0 then { x := negCode n s mx, fl := fOF ||| fNX }
    else
      let c := (List.range (mx + 1)).foldl (fun b c => if c ≠ 0 ∧ (val c).cmp a ≤ 0 then c else b) 0
      if (val c).cmp a = 0 then { x := negCode n s c, fl := 0 }
      else
        let d := a.cmp (taperMag (n + 1) es (2 * c + 1))
        let r := if d < 0 then c else if d > 0 then c + 1 else if c % 2 = 0 then c else c + 1
        { x := negCode n s r, fl := fNX }

/-- Largest magnitude code of a minifloat without infinities. -/
def miniMax (f : Nat) (m : Fmt) : Nat := if baseOf f = 9 then 0x7E else 2 ^ (m.eb + m.mb) - 1
/-- Conversion into a minifloat (R262). -/
def toMini (f : Nat) (m : Fmt) (x : Num) : FR :=
  let nz (r : FR) : FR := if isLeat f && r.x == m.zeroBits true then { r with x := 0 } else r
  if 14 ≤ baseOf f then finish m 0 x
  else if baseOf f = 10 then
    match x with
    | .nan g => { x := 0x7E, fl := if g then fNV else 0 }
    | x => nz (finish m 0 x)
  else
    match x with
    | .nan _ => { x := if baseOf f = 9 then 0x7F else 0, fl := fNV }
    | .inf s => { x := m.sign s (miniMax f m), fl := fOF ||| fNX }
    | .fin s k e =>
      if k = 0 then nz { x := m.zeroBits s, fl := 0 }
      else
        let r := roundMag m 0 s k e false
        if r.1 > miniMax f m then { x := m.sign s (miniMax f m), fl := fOF ||| fNX }
        else nz { x := m.sign s r.1, fl := (if r.2.1 then fNX else 0) ||| (if r.2.2 && r.2.1 then fUF else 0) }

/-- A value rounded to nearest even on the integers. -/
def rneInt (s : Bool) (m : Nat) (e : Int) : Int × Bool :=
  let r := roundAt 0 s m e false 0
  (if s then -(r.1 : Int) else r.1, r.2)
/-- Conversion into an integer format (R262). -/
def toIntFmt (f : Nat) (x : Num) : FR :=
  let w := fmtWidth f
  let lo := (intRange f).1
  let hi := (intRange f).2
  let code (i : Int) : Nat := (BitVec.ofInt w i).toNat
  match x with
  | .nan _ => { x := 0, fl := fNV }
  | .inf s => { x := code (if s then lo else hi), fl := fNV }
  | .fin s m e =>
    let r := rneInt s m e
    if r.1 < lo ∨ hi < r.1 then { x := code (clampI lo hi r.1), fl := fNV }
    else { x := code r.1, fl := if r.2 then fNX else 0 }

/-- The code and flags of a value converted into a format (R260, R262). -/
def toCode (f : Nat) (x : Num) : FR :=
  match taperOf f with
  | some (n, es) => toTaper (isLeat f) n es x
  | none =>
    match miniOf f with
    | some m => toMini f m x
    | none => toIntFmt f x

/-- Does a value, rounded without bound, fall outside the range of a leat format (R273)? -/
def outOfRange (f : Nat) (x : Num) : Bool :=
  match x with
  | .nan _ => false
  | .inf _ => true
  | .fin s m e =>
    if m = 0 then false
    else match taperOf f with
      | some (n, es) => (Num.fin false m e).cmp (taperMag n es (2 ^ (n - 1) - 1)) > 0
      | none =>
        match miniOf f with
        | some g =>
          let r := (roundMag g 0 s m e false).1
          if baseOf f = 10 then g.emax * 2 ^ g.mb ≤ r else r > miniMax f g
        | none => let i := (rneInt s m e).1; i < (intRange f).1 || (intRange f).2 < i

/-- 32 codes packed at their width, as bytes (R263). -/
def packCodes (w : Nat) (cs : List Nat) : List Byte :=
  toBytes (4 * w) ((cs.zipIdx).foldl (fun n x => n + (x.1 % 2 ^ w) * 2 ^ (w * x.2)) 0)
/-- Code `i` of a block. -/
def codeAt (w : Nat) (blk : List Byte) (i : Nat) : Nat := bits (ofBytes blk) (i * w) w

/-! ### Leat lists (R267, R268) -/

/-- An entry: row or column, K, FP16 value. -/
structure Leat where
  row : Nat
  k : Nat
  val : Nat
  deriving DecidableEq, Repr
def leatOf (sideB : Bool) (x : Nat) : Leat :=
  { row := if sideB then bits x 23 4 else bits x 23 5, k := bits x 16 7, val := bits x 0 16 }
/-- The word of an entry. -/
def Leat.word (e : Leat) : Nat := e.row * 2 ^ 23 + e.k * 2 ^ 16 + e.val
/-- Reserved bits of an entry are zero (Table 11.6). -/
def leatResOk (sideB : Bool) (x : Nat) : Bool := bits x 28 4 == 0 && !(sideB && bit x 27)
/-- Entries in strictly ascending order. -/
def leatAsc : List Leat → Bool
  | a :: b :: r => (a.row < b.row || (a.row == b.row && a.k < b.k)) && leatAsc (b :: r)
  | _ => true
/-- COUNT, CAP and the entries of a list of bytes; none where it is not well-formed (R268). -/
def leatList (sideB : Bool) (bs : List Byte) : Option (Nat × List Leat) :=
  let h := ofBytes (bs.take 8)
  let cap := bits h 16 8
  let n := bits h 0 16
  if bits h 24 40 ≠ 0 ∨ cap > 64 ∨ n > cap then none
  else
    let ws := (List.range n).map (fun j => ofBytes ((bs.drop (8 + 4 * j)).take 4))
    let es := ws.map (leatOf sideB)
    if ws.all (leatResOk sideB) && leatAsc es && es.all (fun e => bits e.val 10 5 ≠ 31) then some (cap, es) else none
/-- Bytes that a list occupies, from its header (R267); never more than the largest list. -/
def leatSize (h : List Byte) : Nat := let x := ofBytes (h.take 8); 8 + 4 * min (min (bits x 0 16) (bits x 16 8)) 64

/-! ### DECN (R276) -/

/-- FP32 bits of a decoded value; the escape is +0. -/
def decVal (f c : Nat) : Word :=
  match codeVal f c with
  | none => 0
  | some x => (x.round fp32 0).word
/-- A code scaled by 2^(s − 127) and rounded (R276). -/
def decScaled (f c s : Nat) : FR :=
  match codeVal f c with
  | none => { x := 0, fl := 0 }
  | some (.fin g m e) => roundTo fp32 0 g m (e + s - 127)
  | some x => x.round fp32 0
/-- The escape of a leat format, or NaR. -/
def isEsc (f c : Nat) : Bool :=
  match codeVal f c with
  | none => true
  | some x => (taperOf f).isSome && x.isNan
/-- DECN (R276): a reserved scale traps before any lane is written. -/
def execDecn (h : Hdr) (d a b : Opd) (f : BitVec 5) (scl esc : Bool) (s : State) : Outcome State Fault Refusal :=
  issue (.decn h d a b f scl esc) s (fun c s =>
    let fm := f.toNat
    let code (l : Nat) : Nat := (c.w32 a l).toNat % 2 ^ fmtWidth fm
    let sc (l : Nat) : Nat := (c.w32 b l).toNat % 256
    let r (l : Nat) : FR :=
      if esc then { x := if isEsc fm (code l) then 0xFFFFFFFF else 0, fl := 0 }
      else if scl then decScaled fm (code l) (sc l)
      else { x := (decVal fm (code l)).toNat, fl := 0 }
    if scl && (lanesOf c.lanes).any (fun l => sc l == 255) then .error (.trap 0x13 0)
    else .ok (s.result c (.decn h d a b f scl esc) (c.dst d (fun l => (r l).word)) (c.flags d (fun l => (r l).fl))))

end Sys2Proof.Machine
end

