-- ==== Sys2Proof/Machine/Memory.lean ====
section
/-! DEFINITION. Sys2Proof/Machine/Memory.lean: addresses, scratch, the miss tables, the region buffer, loads, stores and prefetch
(10_loads_stores.md R228 to R236, R240, R241; 02_work.md R33; 05 R120; 11 R271; 14 R347 to R349, R354 to R358; 09 R222, R223, R226,
R227, R231). -/
namespace Sys2Proof.Machine
open Host (Outcome)

/-! ### Scratch -/

/-- A byte of a team's scratch; one that has no value reads as an unspecified value (Table 2.2). -/
def Team.scrByte (t : Team) (free a : Nat) : Byte :=
  match shas t.scratch a with
  | some b => b
  | none => (Config.freeWord free 1000 a).setWidth 8
/-- The cause that a read of a scratch range raises, if a word of it is poisoned (R247, R415). -/
def Team.scrBad (t : Team) (a n : Nat) : Option Nat :=
  ((List.range n).findSome? (fun i => shas t.scrPoison ((a + i) / 4)))
/-- Write scratch bytes; a word written whole is no longer poisoned. -/
def Team.scrWrite (t : Team) (a : Nat) (bs : List Byte) : Team :=
  { t with
    scratch := bs.zipIdx.foldl (fun m x => sput m (a + x.2) x.1) t.scratch
    scrPoison := t.scrPoison.filter (fun x => !(a ≤ 4 * x.1 && 4 * x.1 + 4 ≤ a + bs.length)) }
/-- Write scratch bytes; an undefined one has no value, the word of a poisoned one is poisoned, a word written whole and sound is
poisoned no longer (R245, R247). -/
def Team.scrPut (t : Team) (bs : List (Nat × BV)) : Team :=
  let t := bs.foldl (fun (t : Team) x =>
    { t with scratch := if x.2.und then t.scratch.filter (·.1 ≠ x.1) else sput t.scratch x.1 x.2.b }) t
  let kept := t.scrPoison.filter (fun x => !(wordBytes x.1).all (fun a => bs.any (·.1 == a)))
  { t with scrPoison := (badWs bs).foldl (fun m w => sput m w 0x09) kept }
/-- Bytes of scratch that a kernel has. -/
def KObj.scrLen (k : KObj) : Nat := k.scratchK * 1024

/-! ### Addresses -/

/-- A′ + B′ of LD, ST, PREF and LDC (R228). -/
def Ctx.memAddr (c : Ctx) (a b : Opd) (l : Nat) : DWord :=
  c.w64 a l + (match b with | .v n => (c.v n.toNat l).signExtend 64 | o => c.w64 o l)
/-- The low 32 bits of A + B (R228). -/
def Ctx.scrAddr (c : Ctx) (a b : Opd) (l : Nat) : Nat := (c.w32 a l + c.w32 b l).toNat

/-- The team at a position of the gang. -/
def State.teamAt (s : State) (gid pos : Nat) : Option Team := s.teams.find? (fun t => t.gid == gid && t.pos == pos)
/-- Team and scratch offset of a window address, for `n` bytes (R120). -/
def State.windowAt (s : State) (c : Ctx) (x n : Nat) : Option (Nat × Nat) :=
  let k := c.gg.kobj
  let role := bits x 19 5
  let off := bits x 0 19
  if bits x 24 8 ≠ 0 ∨ role ≥ k.roles.length ∨ off + n > k.scrLen then none
  else match k.roles[role]? with
    | some (px, py) => (s.teamAt c.gg.gid (py * k.gw + px)).map (fun t => (t.tag, off))
    | none => none

/-- Where the bytes of one lane lie: its space and offset, or none where it breaks a bound (R120, R233). -/
def State.place (s : State) (c : Ctx) (kind : Nat) (a b : Opd) (n l : Nat) : Option (Space × Nat) :=
  match kind with
  | 0 => some (.mem c.tm.asid, (c.memAddr a b l).toNat)
  | 1 => let x := c.scrAddr a b l; if x + n ≤ c.gg.kobj.scrLen then some (.scratch c.tag, x) else none
  | _ => (s.windowAt c (c.scrAddr a b l) n).map (fun y => (.scratch y.1, y.2))
/-- The raw address of a lane, for alignment and reports. -/
def Ctx.rawAddr (c : Ctx) (kind : Nat) (a b : Opd) (l : Nat) : Nat :=
  if kind = 0 then (c.memAddr a b l).toNat else c.scrAddr a b l

/-! ### Misses -/

/-- The sectors of a range of memory, by virtual address. -/
def sectorsOf (va n : Nat) : List Nat := (List.range (n / 64 + 2)).map (fun j => va / 64 * 64 + 64 * j) |>.filter (· < va + n)
/-- What a read of one piece, in one line, has to wait for (R211): the line and its sectors that lack bytes of the piece. -/
def State.lackedIn (s : State) (v : Via) (p asid : Nat) (sys : Bool) (x : Nat × Nat) : Option (Tgt × List Nat) :=
  match s.translateBy v.core p asid x.1 sys .read with
  | .ok pa a =>
    let t := Tgt.of p asid x.1 pa a
    let path := s.path v.core t
    if !path.any (fun c => c.rank = 2) || 3 ≤ t.rank v.sc then none
    else
      let ls := s.heldOn path t
      let os := (pieceOs x).filter (fun o => lacking (t.rank v.sc) ls [o])
      if os = [] then none else some (t, (os.map (fun o => o / 64 * 64)).eraseDups)
  | _ => none
/-- Ask for the sectors that a demand read of a range lacks; the gather engine of a window fills by itself. -/
def State.askFills (s : State) (v : Via) (p asid va n : Nat) (sys : Bool) : State :=
  if s.inWindow p asid va n then s
  else (piecesOf va n).foldl (fun s x =>
    match s.lackedIn v p asid sys x with
    | some (t, offs) => offs.foldl (fun s o => s.askFill (t.miss (s.homeOf t) o sys true)) (s.tlbFill v.core p asid x.1)
    | none => s) s
/-- Does a read of a range lack a sector whose fill is still pending (R211)? -/
def State.filling (s : State) (v : Via) (p asid va n : Nat) (sys : Bool) : Bool :=
  !s.inWindow p asid va n && (piecesOf va n).any (fun x =>
    (s.lackedIn v p asid sys x).any (fun y => y.2.any (fun o => (s.misses ++ s.spill).any (y.1.miss (s.homeOf y.1) o sys true).same)))
/-- Sectors of a range that the core's L1, or its pinned lines, cannot give the bytes that `need` names: each takes an entry of L1's
128 (R227). -/
def State.l1Misses (s : State) (v : Via) (p asid va n : Nat) (sys : Bool) (need : Nat → Bool) : List Nat :=
  if s.inWindow p asid va n then []
  else (piecesOf va n).flatMap (fun x =>
    match s.translateBy v.core p asid x.1 sys .read with
    | .ok pa a =>
      let t := Tgt.of p asid x.1 pa a
      let near := (s.heldOn (s.path v.core t) t).filter (fun l => l.loc.rank = 0 && t.rank v.sc = 0)
      (((pieceOs x).filter (fun o => need (x.1 / 256 * 256 + o - va) && !near.any (·.has o))).map (fun o => asid * 2 ^ 48 + (x.1 / 256 * 256 + o) / 64 * 64)).eraseDups
    | _ => [])
/-- Sectors that pending loads of a core miss in L1. -/
def State.l1Flight (s : State) (core : Nat) : List Nat :=
  ((s.teams.filter (fun t => t.core == core && !t.retired && s.placed t)).flatMap (fun t => t.waves.flatMap (fun wv => wv.pend.flatMap (·.sec)))).eraseDups

/-! ### Loads -/

/-- Bytes of a lane that its own run has stored, by key 64 lane + offset (R33). -/
def Ctx.forward (c : Ctx) (free : Nat) (sp : Space) (a n l : Nat) : List (Nat × Byte) :=
  (List.range n).filterMap (fun i => (c.wv.fwdByte free (l / 4) sp (a + i)).map (fun b => (64 * l + i, b)))
/-- Lanes that access: one for a scalar destination, every active lane otherwise. -/
def Ctx.accLanes (c : Ctx) (d : Opd) : List Nat :=
  match d with
  | .s _ => if c.lanes = 0 then [] else [lowest c.lanes]
  | _ => lanesOf c.lanes
/-- Code of a space in a pending operation: 0 memory, otherwise tag + 1 of the team whose scratch it is. -/
def spaceCode : Space → DWord
  | .mem _ => 0
  | .scratch t => BitVec.ofNat 64 (t + 1)

/-- How a load reaches memory: its scope and its `POL` (R233, R339); LDC and LDN's defaults are .core. -/
def ldVia (t : Team) : Instr → Via
  | .ld _ _ _ _ _ pol sc _ => { t.via sc with pol := pol }
  | .ldn _ _ _ _ _ pol sc _ => { t.via sc with pol := pol }
  | _ => t.via .core
/-- Sectors that a load's lanes miss in L1, own stores aside (R227). -/
def State.l1Sec (s : State) (c : Ctx) (i : Instr) (kind n : Nat) (d a b : Opd) : List Nat :=
  if kind ≠ 0 then [] else ((c.accLanes d).flatMap (fun l =>
    let p := (s.place c kind a b n l).getD (.mem 0, 0)
    let f := c.forward s.free p.1 p.2 n l
    s.l1Misses (ldVia c.tm i) c.tm.part c.tm.asid p.2 n c.sys (fun j => !f.any (·.1 == 64 * l + j)))).eraseDups
/-- Would they make more than 128 in flight in L1, beside some that are (R227)? -/
def State.l1Full (s : State) (c : Ctx) (i : Instr) (kind n : Nat) (d a b : Opd) : Bool :=
  let sec := s.l1Sec c i kind n d a b
  let flight := if sec = [] then [] else s.l1Flight c.tm.core
  sec.any (!flight.contains ·) && (flight ++ sec).eraseDups.length > 128 && flight ≠ []
/-- Issue a load of `n` bytes per lane (R228 to R231, R233): alignment and bounds are checked, own stores are taken, fills
are asked for; it waits where its misses would make more than 128 in flight in L1 (R227). -/
def load (i : Instr) (s : State) (kind n align : Nat) (d a b : Opd) : Outcome State Fault Refusal :=
  issue i s (fun c s =>
    let ls := c.accLanes d
    match ls.find? (fun l => c.rawAddr kind a b l % align ≠ 0) with
    | some l => .error (.trap 0x06 (c.rawAddr kind a b l))
    | none =>
      match ls.find? (fun l => (s.place c kind a b n l).isNone) with
      | some l => .error (.trap 0x08 (c.rawAddr kind a b l))
      | none =>
        let pl (l : Nat) : Space × Nat := (s.place c kind a b n l).getD (.mem 0, 0)
        let v := ldVia c.tm i
        let fwd (l : Nat) : List (Nat × Byte) := c.forward s.free (pl l).1 (pl l).2 n l
        if s.l1Full c i kind n d a b then .error .wait
        else
          let q : Pend := { c.pend i (match d with | .s _ => [c.ownRid] | _ => c.rids) with
            x := byLane (fun l => BitVec.ofNat 64 (pl l).2), y := byLane (fun l => spaceCode (pl l).1)
            fwd := ls.flatMap fwd, sec := s.l1Sec c i kind n d a b }
          let s := if kind = 0 then ls.foldl (fun s l => s.askFills v c.tm.part c.tm.asid (pl l).2 n c.sys) s else s
          .ok (s.start c q))

/-- LD (R233). -/
def execLd (h : Hdr) (d a b : Opd) (ty : MTy) (pol : Pol) (sc : Scope) (od : Ord) (s : State) : Outcome State Fault Refusal :=
  load (.ld h d a b ty pol sc od) s 0 ty.size ty.size d a b
/-- LDS (R233). -/
def execLds (h : Hdr) (d a b : Opd) (ty : MTy) (pol : Pol) (sc : Scope) (od : Ord) (s : State) : Outcome State Fault Refusal :=
  load (.lds h d a b ty pol sc od) s 1 ty.size ty.size d a b
/-- LDW (R120, R233). -/
def execLdw (h : Hdr) (d a b : Opd) (ty : MTy) (pol : Pol) (sc : Scope) (od : Ord) (s : State) : Outcome State Fault Refusal :=
  load (.ldw h d a b ty pol sc od) s 2 ty.size ty.size d a b
/-- Width of the codes of LDN: `TYPE` 0 w4, 1 w6, 2 w8, 3 w16 (R271). -/
def ldnWidth : MTy → Nat | .b8 => 4 | .b16 => 6 | .b32 => 8 | _ => 16
/-- LDN (R271): a whole block of 32 codes, 8-byte aligned. -/
def execLdn (h : Hdr) (d a b : Opd) (ty : MTy) (pol : Pol) (sc : Scope) (od : Ord) (s : State) : Outcome State Fault Refusal :=
  load (.ldn h d a b ty pol sc od) s 0 (4 * ldnWidth ty) 8 d a b
/-- LDC (R234). -/
def execLdc (h : Hdr) (d a b : Opd) (ty : MTy) (s : State) : Outcome State Fault Refusal :=
  load (.ldc h d a b ty) s 0 ty.size ty.size d a b

/-- What a completing load needs to know: its kind, bytes per lane, destination, order. -/
structure LdForm where
  kind : Nat      -- 0 memory, 1 scratch or window, 2 constant cache
  n : Nat
  d : Opd
  ty : MTy
  narrow : Bool
  sc : Scope
  od : Ord
  deriving DecidableEq, Repr
/-- What the completion of a load has to know of its instruction. -/
def ldForm : Instr → Option LdForm
  | .ld _ d _ _ ty _ sc od => some { kind := 0, n := ty.size, d := d, ty := ty, narrow := false, sc := sc, od := od }
  | .lds _ d _ _ ty _ sc od => some { kind := 1, n := ty.size, d := d, ty := ty, narrow := false, sc := sc, od := od }
  | .ldw _ d _ _ ty _ sc od => some { kind := 1, n := ty.size, d := d, ty := ty, narrow := false, sc := sc, od := od }
  | .ldn _ d _ _ ty _ sc od => some { kind := 0, n := 4 * ldnWidth ty, d := d, ty := ty, narrow := true, sc := sc, od := od }
  | .ldc _ d _ _ ty => some { kind := 2, n := ty.size, d := d, ty := ty, narrow := false, sc := .core, od := .rlx }
  | _ => none

/-- A word of the core's constant cache, if it holds it (R234). -/
def State.constAt (s : State) (core asid va : Nat) : Option Word :=
  (s.consts.find? (fun x => x.core == core && x.asid == asid && x.va == va)).map (·.x)
/-- Bytes read through the constant cache. -/
def State.constRead (s : State) (t : Team) (va n : Nat) (sys : Bool) : Except Bad (List BV) :=
  if s.inWindow t.part t.asid va n then .error (.prot va)
  else (s.readBVs (t.via .core) t.part t.asid va n sys .read).map (fun bs => bs.zipIdx.map (fun x =>
    match s.constAt t.core t.asid ((va + x.2) / 4 * 4) with
    | some w => BV.of ((w >>> (8 * ((va + x.2) % 4))).setWidth 8)
    | none => x.1))
/-- Keep a word in the core's constant cache of 16 KiB, which holds the newest. -/
def State.constAdd (s : State) (core asid va : Nat) (x : Word) : State :=
  let mine := (s.consts.filter (·.core == core)).take 4095
  { s with consts := { core := core, asid := asid, va := va, x := x } :: s.consts.filter (fun c => c.core ≠ core || mine.contains c) }
/-- Keep the words read. -/
def State.constKeep (s : State) (t : Team) (va n : Nat) (sys : Bool) : State :=
  (List.range ((n + 3) / 4)).foldl (fun s j =>
    let a := va / 4 * 4 + 4 * j
    match s.constAt t.core t.asid a, s.readBy (t.via .core) t.part t.asid a 4 sys .read with
    | none, .ok bs => s.constAdd t.core t.asid a (BitVec.ofNat 32 (ofBytes bs))
    | _, _ => s) s

/-- Bytes of one lane of a completing load, own stores first: a byte that the run has stored is returned whatever memory holds
(R33, R226, R233). -/
def State.laneBytes (s : State) (t : Team) (sys : Bool) (q : Pend) (f : LdForm) (l : Nat) : Except LaneBad (List Byte) :=
  let a := (q.x.getD l 0).toNat
  let own (j : Nat) : Option Byte := (q.fwd.find? (·.1 == 64 * l + j)).map (·.2)
  let mem (r : Except Bad (List Byte)) : Except LaneBad (List Byte) :=
    match r with | .ok bs => .ok bs | .error e => .error (e.lane (s.readKind t.part t.asid a f.n))
  match f.kind with
  | 0 => if f.od ≠ .rlx && s.inWindow t.part t.asid a f.n then .error (.trap 0x08 a) else mem (s.vreadOwn (ldVia t q.instr) t.part t.asid a f.n sys own)
  | 2 => mem ((s.constRead t a f.n sys).bind (fun l => clean a (l.zipIdx.map (fun x => match own x.2 with | some b => BV.of b | none => x.1))))
  | _ =>
    match s.team? ((q.y.getD l 0).toNat - 1) with
    | none => .ok ((List.range f.n).map (fun j => (own j).getD 0))
    | some o =>
      match (List.range f.n).find? (fun j => (own j).isNone && (o.scrBad (a + j) 1).isSome) with
      | some j => .error (.trap ((o.scrBad (a + j) 1).getD 0x09) (a + j))
      | none => .ok ((List.range f.n).map (fun j => (own j).getD (o.scrByte s.free (a + j))))

/-- Word `i` of a lane's result (Table 10.1). -/
def ldWord (f : LdForm) (l i : Nat) (bs : List Byte) : Word :=
  if f.narrow then BitVec.ofNat 32 (codeAt (ldnWidth f.ty) bs l)
  else BitVec.ofNat 32 (ofBytes ((bs.drop (4 * i)).take 4))
/-- Registers that a load writes: an .i32 scalar is sign-extended. -/
def ldWrites (f : LdForm) (m : Lanes) (bytes : Nat → List Byte) : List RegW :=
  match f.d, f.ty with
  | .s r, .i32 => if m = 0 then [] else [.s r.toNat ((ldWord f (lowest m) 0 (bytes (lowest m))).signExtend 64)]
  | d, _ => wrN m d (if f.narrow then 1 else max 1 (f.n / 4)) (fun i l => ldWord f l i (bytes l))

/-- Lanes whose bytes a load returns. -/
def LdForm.lanes (f : LdForm) (m : Lanes) : List Nat := match f.d with | .s _ => [lowest m] | _ => lanesOf m
/-- Do two pending loads of one wave read a word of one place for one thread? -/
def meetLoads (p q : Pend) : Bool :=
  match ldForm p.instr, ldForm q.instr with
  | some f, some g => (f.lanes p.lanes).any (fun l => (g.lanes q.lanes).contains l && p.y.getD l 0 == q.y.getD l 0 &&
      (p.x.getD l 0).toNat / 4 * 4 < (q.x.getD l 0).toNat + g.n && (q.x.getD l 0).toNat / 4 * 4 < (p.x.getD l 0).toNat + f.n)
  | _, _ => false
/-- Texture reads, whose addresses a completion finds. -/
def isTex : Instr → Bool
  | .tex _ _ _ _ _ _ _ | .texq _ _ _ _ _ _ => true
  | _ => false
/-- Must a load or a texture read stay behind an earlier one of the same thread, so that two reads of one word come in order (R348,
R349)? (DESIGN CHOICE: entry 4.) -/
def Wave.mustWait (wv : Wave) (q : Pend) : Bool :=
  wv.pend.any (fun p => p.id < q.id && p.lanes &&& q.lanes ≠ 0 && (meetLoads p q || (isTex p.instr && (ldForm q.instr).isSome) || (isTex q.instr && (ldForm p.instr).isSome)))
/-- Lanes of a pending load that read memory of a peer at .sys, each with the port (R442). -/
def State.peerLanes (s : State) (t : Team) (sys : Bool) (q : Pend) : List (Nat × Bool) :=
  match ldForm q.instr with
  | some f => if f.kind ≠ 0 ∨ f.sc ≠ .sys then [] else (f.lanes q.lanes).flatMap (fun l =>
      (piecesOf (q.x.getD l 0).toNat f.n).filterMap (fun x => match s.translateBy (some t.core) t.part t.asid x.1 sys .read with
        | .ok pa a => if peerLo ≤ pa ∧ a.home ≠ 2#2 then some (l, bit pa 41) else none
        | _ => none))
  | none => []
/-- Must a .sys load of a peer's memory stay behind an earlier one of its thread: they travel in program order (R443)? -/
def State.peerWaits (s : State) (t : Team) (wv : Wave) (q : Pend) : Bool :=
  let sys := t.sys || wv.handler
  let mine := s.peerLanes t sys q
  mine ≠ [] && wv.pend.any (fun p => p.id < q.id && (s.peerLanes t sys p).any mine.contains)
/-- Does a load still wait: for a sector that is being filled, or behind an earlier load? -/
def State.loadWaits (s : State) (tag w id : Nat) : Bool :=
  match s.team? tag, s.wave? tag w with
  | some t, some wv => (wv.pend? id).any (fun q => wv.mustWait q || s.peerWaits t wv q || (ldForm q.instr).any (fun f => f.kind ≠ 1 && (f.lanes q.lanes).any (fun l =>
      s.filling (ldVia t q.instr) t.part t.asid (q.x.getD l 0).toNat f.n (t.sys || wv.handler))))
  | _, _ => false
/-- What a load that returns does on its way: caches, the constant cache, then its acquire (R211, R213, R234, R358). -/
def State.loadTouch (s : State) (t : Team) (sys : Bool) (q : Pend) (f : LdForm) : State :=
  let s := if f.kind = 1 then s else (f.lanes q.lanes).foldl (fun s l =>
    let a := (q.x.getD l 0).toNat
    (if f.kind = 2 then s.constKeep t a f.n sys else s).vtouch (ldVia t q.instr) t.part t.asid a f.n sys true) s
  if isAcqLoad q.instr then s.acquire (some t.core) f.sc.rank else s
/-- What a pending load meets: the trap of its lowest lane that meets one, else the pages that fault. -/
def State.loadStop (s : State) (t : Team) (wv : Wave) (q : Pend) : Option Stop :=
  (ldForm q.instr).bind (fun f => laneStop ((f.lanes q.lanes).map (fun l => (l, s.laneBytes t (t.sys || wv.handler) q f l))))
/-- The page faults that pending loads of the runs of some slices meet with the first of them: the slices of each join (R402). (DEDUCED: entry 62.) -/
def Wave.faultsWith (wv : Wave) : Nat → List (Pend × List Nat × FaultPages) → List (List Nat × FaultPages) → List (List Nat × FaultPages)
  | 0, _, got => got
  | n + 1, cands, got =>
    let sls := if wv.loopMode then List.range 8 else got.flatMap (·.1)
    match cands.find? (fun x => (wv.slicesOfPend x.1).any sls.contains) with
    | some x => wv.faultsWith n (cands.filter (·.1.id ≠ x.1.id)) (got ++ [x.2])
    | none => got
/-- A page fault of a pending load: it and every other pending load of the runs that abort which faults too are entered, and the runs abort
once (R402, R217). (DEDUCED: entry 62.) -/
def State.loadFaults (s : State) (tag w : Nat) (t : Team) (wv : Wave) (q : Pend) (sls : List Nat) (ps : FaultPages) : State :=
  let cands := (wv.pend.filter (·.id ≠ q.id)).filterMap (fun p => match s.loadStop t wv p with | some (.fault a b) => some (p, a, b) | _ => none)
  s.pageFaults tag w (wv.faultsWith cands.length cands [(sls, ps)])
/-- LOAD_COMPLETE (R231): the load returns and writes its destination, raises the trap of the lowest lane that meets one, or
enters its page fault and aborts the slices concerned; e0 falls. -/
def execLoadComplete (tag w id : Nat) (s : State) : Outcome State Fault Refusal :=
  if s.loadWaits tag w id then .refused (.notEnabled "LOAD_COMPLETE")
  else withPend "LOAD_COMPLETE" s tag w id (fun i => (ldForm i).isSome) (fun t wv q =>
    match ldForm q.instr with
    | none => s
    | some f =>
      let sys := t.sys || wv.handler
      let r (l : Nat) : Except LaneBad (List Byte) := s.laneBytes t sys q f l
      match laneStop ((f.lanes q.lanes).map (fun l => (l, r l))) with
      | some (.fault sls ps) => s.loadFaults tag w t wv q sls ps
      | some x => s.pendStop tag w wv q x
      | none =>
        let bytes (l : Nat) : List Byte := match r l with | .ok bs => bs | .error _ => []
        (s.loadTouch t sys q f).finishPend tag w q (ldWrites f q.lanes bytes) 0)

/-! ### Stores -/

/-- Lines of 256 B that a run holds, HAD results aside (R33, R299). (DEDUCED: entry 17.) -/
def Region.lines (r : Region) : List (Space × Nat) := ((r.stores.filter (!·.eng)).map (fun b => (b.sp, b.a / 256))).eraseDups
/-- Lines that all open runs on a core hold, and the oldest run. -/
def State.coreRuns (s : State) (core : Nat) : List Region :=
  (s.teams.filter (fun t => t.core == core && !t.retired && s.placed t)).flatMap (fun t => t.waves.flatMap (·.regions))
def oldestRun (rs : List Region) : Nat := rs.foldl (fun m r => if m = 0 ∨ r.rid < m then r.rid else m) 0
/-- Must runs of a wave wait for the lines they would take, named with their number: granting those of all but the core's oldest run could
leave the oldest without its 64 of the 512 (R33). A wave that holds the oldest run does not wait, or the oldest would wait behind the younger
runs of its own wave (R46). (DEDUCED: entry 17.) -/
def State.linesShort (s : State) (core : Nat) (wv : Wave) (grown : List (Nat × Nat)) : Bool :=
  let rs := s.coreRuns core
  let o := oldestRun rs
  let used := rs.foldl (fun n r => n + r.lines.length) 0
  let held := ((rs.find? (·.rid == o)).elim 0 (fun r => r.lines.length))
  let new := (grown.filter (·.1 ≠ o)).foldl (fun n x => n + x.2) 0
  !wv.regions.any (·.rid == o) && new ≠ 0 && used + new + (64 - held) > 512

/-- Add the stores of one issue, which stand in the order of issue. -/
def addIssue (l bs : List BufW) : List BufW :=
  let i := (bs.head?).elim 0 (·.iss)
  l.filter (·.iss ≤ i) ++ bs ++ l.filter (i < ·.iss)
/-- Add stores to the run of a slice. -/
def Wave.addStores (wv : Wave) (sl : Nat) (bs : List BufW) : Wave :=
  { wv with regions := wv.regions.map (fun r => if r.sl = sl then { r with stores := addIssue r.stores bs } else r) }
/-- Where a stored byte ends up: the byte that a window byte stands for. -/
def State.storedAt (s : State) (t : Team) (sys : Bool) (b : BufW) : Option (Space × Nat) :=
  match b.sp with
  | .mem asid => (s.landing (t.via b.sc) t.part asid sys b.a).map (fun va => (b.sp, va))
  | .scratch _ => some (b.sp, b.a)
/-- Stores of an instruction, by slice, into the region buffer (R33): a 65th line traps 0x11; where the runs of other waves than that of the
core's oldest would together take lines that it may still need, the instruction waits. -/
def State.buffer (s : State) (c : Ctx) (parts : List (Nat × List BufW)) : Except Stop State :=
  let after (x : Nat × List BufW) (r : Region) : Nat := ({ r with stores := r.stores ++ x.2 } : Region).lines.length
  let grown : List (Nat × Nat) := parts.filterMap (fun x => (c.wv.region? x.1).map (fun r => (r.rid, after x r - r.lines.length)))
  if parts.any (fun x => (c.wv.region? x.1).any (fun r => after x r > 64)) then .error (.trap 0x11 0)
  else if s.linesShort c.tm.core c.wv grown then .error .wait
  else .ok ((s.onWave c (fun wv => parts.foldl (fun wv x => wv.addStores x.1 x.2) wv)).spoilBytes
    (parts.flatMap (fun x => x.2.filterMap (s.storedAt c.tm c.sys))))

/-- How the bytes of a store instruction reach memory. -/
structure StVia where
  sc : Scope
  pol : Pol
  rel : Bool
  eng : Bool
  deriving DecidableEq, Repr
/-- Bytes that lane `l` stores at a place. -/
def Ctx.bufs (c : Ctx) (v : StVia) (l : Nat) (sp : Space) (a : Nat) (bs : List Byte) : List BufW :=
  bs.zipIdx.map (fun x => { sp := sp, a := a + x.2, b := x.1, site := c.site, iss := c.iss, lane := l, lanes := c.lanes, sc := v.sc, pol := v.pol
                            rel := v.rel, eng := v.eng, und := false, lost := false })

/-- Data word `i` of a store in a lane; a constant stored as .f32 is k.0 (R64, R235). (DEDUCED: entry 34.) -/
def Ctx.stWord (c : Ctx) (d : Opd) (ty : MTy) (i l : Nat) : Word :=
  match ty, d with
  | .f32, .k n => kFloat n.toNat
  | _, _ => c.wide d i l
/-- The bytes that a lane stores (R235, Table 10.1). -/
def Ctx.stBytes (c : Ctx) (d : Opd) (ty : MTy) (l : Nat) : List Byte :=
  ((List.range (max 1 (ty.size / 4))).flatMap (fun i => toBytes 4 (c.stWord d ty i l).toNat)).take ty.size

/-- A plain store of every active lane (R235); of bytes that several lanes write the highest lane's stand, those of a window by
element (R241), as the commit decides. -/
def store (i : Instr) (s : State) (kind : Nat) (v : StVia) (d a b : Opd) (ty : MTy) : Outcome State Fault Refusal :=
  issue i s (fun c s =>
    let ls := lanesOf c.lanes
    match ls.find? (fun l => c.rawAddr kind a b l % ty.size ≠ 0) with
    | some l => .error (.trap 0x06 (c.rawAddr kind a b l))
    | none =>
      match ls.find? (fun l => (s.place c kind a b ty.size l).isNone) with
      | some l => .error (.trap 0x08 (c.rawAddr kind a b l))
      | none =>
        let one (l : Nat) : List BufW :=
          let p := (s.place c kind a b ty.size l).getD (.mem 0, 0)
          c.bufs v l p.1 p.2 (c.stBytes d ty l)
        s.buffer c ((slicesOf c.lanes).map (fun sl => (sl, (lanesOf (c.lanes &&& sliceMask sl)).flatMap one))))

/-- Source value of a converting store (R232). -/
def Ctx.cvtSrc (c : Ctx) (d : Opd) (ty : MTy) (l : Nat) : Num :=
  if ty = .i32 then let x := (c.w32 d l).toInt; .fin (x < 0) x.natAbs 0 else f32 (c.fp d l)
/-- A converting store: one run of 32 codes at a uniform address, 8-byte aligned; an inactive lane gives code 0 (R232). -/
def storeCvt (i : Instr) (s : State) (kind : Nat) (v : StVia) (d a b : Opd) (sf : Nat) (ty : MTy) : Outcome State Fault Refusal :=
  issue i s (fun c s =>
    if c.lanes = 0 then .ok s
    else
      let l0 := lowest c.lanes
      let w := fmtWidth sf
      let r (l : Nat) : FR := if c.lanes.getLsbD l then toCode sf (c.cvtSrc d ty l) else { x := 0, fl := 0 }
      if c.rawAddr kind a b l0 % 8 ≠ 0 then .error (.trap 0x06 (c.rawAddr kind a b l0))
      else match s.place c kind a b (4 * w) l0 with
        | none => .error (.trap 0x08 (c.rawAddr kind a b l0))
        | some p =>
          match s.buffer c [(c.ownSlice, c.bufs v l0 p.1 p.2 (packCodes w (byLane (fun l => (r l).x))))] with
          | .error e => .error e
          | .ok s => .ok (s.result c i [] ((lanesOf c.lanes).foldl (fun f l => f ||| (r l).fl) 0)))

/-- How a store of a scope, policy and order reaches memory. -/
def stVia (pol : Pol) (sc : Scope) (od : Ord) : StVia := { sc := sc, pol := pol, rel := od == .rel || od == .acqrel, eng := false }
/-- ST (R232, R235). -/
def execSt (h : Hdr) (d a b : Opd) (sf : BitVec 5) (ty : MTy) (pol : Pol) (sc : Scope) (od : Ord) (s : State) :
    Outcome State Fault Refusal :=
  if sf = 0x10#5 then store (.st h d a b sf ty pol sc od) s 0 (stVia pol sc od) d a b ty
  else storeCvt (.st h d a b sf ty pol sc od) s 0 (stVia pol sc od) d a b sf.toNat ty
/-- STS (R232, R235). -/
def execSts (h : Hdr) (d a b : Opd) (sf : BitVec 5) (ty : MTy) (pol : Pol) (sc : Scope) (od : Ord) (s : State) :
    Outcome State Fault Refusal :=
  if sf = 0x10#5 then store (.sts h d a b sf ty pol sc od) s 1 (stVia pol sc od) d a b ty
  else storeCvt (.sts h d a b sf ty pol sc od) s 1 (stVia pol sc od) d a b sf.toNat ty
/-- STW (R120, R235). -/
def execStw (h : Hdr) (d a b : Opd) (ty : MTy) (pol : Pol) (sc : Scope) (od : Ord) (s : State) : Outcome State Fault Refusal :=
  store (.stw h d a b ty pol sc od) s 2 (stVia pol sc od) d a b ty

/-- PREF (R236): the sector of each active lane is fetched into the home slice and, unless `POL` is streaming, into the cluster cache
and L1, or dropped. -/
def execPref (h : Hdr) (a b : Opd) (pol : Pol) (s : State) : Outcome State Fault Refusal :=
  issue (.pref h a b pol) s (fun c s =>
    .ok ((lanesOf c.lanes).foldl (fun s l =>
      let va := (c.memAddr a b l).toNat / 64 * 64
      let v : Via := { c.tm.via .core with pol := pol }
      if s.runAhead v c.tm.part c.tm.asid va 64 c.sys then s.touch v c.tm.part c.tm.asid va 64 c.sys .read false else s) s))

/-! ### Stores become visible -/

/-- The bytes of one issue, by place, each with its lane: of several lanes the highest stands (R235). -/
def issueBytes (sp : Space) (bs : List BufW) : Sparse (Nat × BV) :=
  ((List.range 32).flatMap (fun l => bs.filter (fun b => b.lane == l && b.sp == sp))).foldl (fun m b => sput m b.a (b.lane, { b := b.b, bad := false, und := b.und })) []
/-- The stores of one issue become visible (R34, R240, R241, R356); a release first sends what its scope covers (R357). (DEDUCED: entry 16.) -/
def State.showIssue (s : State) (t : Team) (sys : Bool) (bs : List BufW) : State :=
  match bs with
  | [] => s
  | b :: _ =>
    let s := if b.rel then s.release (some t.core) b.sc.rank else s
    ((bs.map (·.sp)).eraseDups).foldl (fun s sp =>
      match sp with
      | .mem asid => s.vwriteAll { t.via b.sc with pol := b.pol } t.part asid sys (issueBytes sp bs)
      | .scratch tag => s.updTeam tag (fun t => t.scrPut ((issueBytes sp bs).map (fun x => (x.1, x.2.2))))) s
/-- A byte of a release over which a later store of its run goes: it is never seen, as releases come last (R349, R354). -/
def overtaken (bs : List BufW) (b : BufW) : Bool := bs.any (fun x => b.iss < x.iss && x.sp == b.sp && x.a == b.a && x.lane / 4 == b.lane / 4)
/-- Step 3: the stores of runs become visible, instruction by instruction; releases come last (R354). (DEDUCED: entry 16.) -/
def State.visible (s : State) (t : Team) (sys : Bool) (rs : List Region) : State :=
  let bs := rs.flatMap (fun r => r.stores.filter (!·.lost))
  let of (l : List BufW) (s : State) : State :=
    ((l.map (·.iss)).foldl insertAsc []).foldl (fun s i => s.showIssue t sys (l.filter (·.iss == i))) s
  of (bs.filter (fun b => b.rel && !overtaken bs b)) (of (bs.filter (!·.rel)) s)

/-- Does a byte of an issue stand against another at the same place: as the higher element of one window, else as that of the higher lane
(R235, R241)? -/
def State.beats (s : State) (t : Team) (x b : BufW) : Bool :=
  let win (y : BufW) : Option Nat := match y.sp with | .mem asid => s.winOf t.part asid y.a | .scratch _ => none
  if win x = win b ∧ (win x).isSome ∧ x.a ≠ b.a then b.a < x.a else b.lane < x.lane
/-- Is a byte of an open run overtaken by a committed one: another slice's of the same issue (R235, R241)? -/
def State.beaten (s : State) (t : Team) (sys : Bool) (done : List BufW) (b : BufW) : Bool :=
  done.any (fun x => x.iss == b.iss && x.lane / 4 ≠ b.lane / 4 && s.beats t x b &&
    (s.storedAt t sys x).any (fun y => s.storedAt t sys b == some y))
/-- After runs have committed: mark what the other runs of the wave have lost to them. -/
def State.markLost (s : State) (t : Team) (w : Nat) (sys : Bool) (rs : List Region) : State :=
  let done := rs.flatMap (·.stores)
  s.updWave t.tag w (fun wv => { wv with regions := wv.regions.map (fun r =>
    if rs.any (·.rid == r.rid) || !r.stores.any (fun b => done.any (·.iss == b.iss)) then r
    else { r with stores := r.stores.map (fun b => if s.beaten t sys done b then { b with lost := true } else b) }) })

end Sys2Proof.Machine
end

