-- ==== Sys2Proof/Machine/Sync.lean ====
section
/-! DEFINITION. Sys2Proof/Machine/Sync.lean: atomics, reductions, fences, barriers and launders (15_sync.md R363 to R380). Their
meanings record the operands at issue; what they do at commit steps 2 to 4 (R34) stands here too, for Commit.lean. -/
namespace Sys2Proof.Machine
open Host (Outcome)

/-! ### What region-ending instructions share -/

/-- A committed operation answers: its destination is written later, and until then the wave issues nothing (R134). -/
def State.answer (s : State) (tag w : Nat) (e : EndOp) (ws : List RegW) (fl : BitVec 8) (trap : Option (Nat × DWord)) (at_ : List DWord) : State :=
  let q : Pend :=
    { id := s.nextId, instr := e.instr, rids := [], lanes := e.lanes, ev := none, site := e.site, dsts := (ws.map RegW.reg).eraseDups
      clob := [], hold := true, x := at_, y := [], z := [], fwd := [], sec := [], wr := ws, flags := fl, lfl := [], mask := e.mask, trap := trap }
  if ws = [] ∧ trap = none then s.updWave tag w (fun wv => { wv with fflags := wv.fflags ||| fl.setWidth 64 })
  else { s.updWave tag w (fun wv => { wv with pend := wv.pend ++ [q] }) with nextId := s.nextId + 1 }

/-- REGION_ENDING_RESULT (R134, R367, R369): the destination of a committed operation is written; a poisoned atomic then
takes its trap with `AFTER` set. A WCHILD whose child grids have all retired answers and its slices become ready. -/
def execRegionEndingResult (tag w id : Nat) (s : State) : Outcome State Fault Refusal :=
  match s.team? tag, s.wave? tag w with
  | some t, some wv =>
    match wv.pend.find? (fun q => q.id == id && q.hold && q.rids == [] && q.instr.endsRegion) with
    | some q =>
      let s := s.finishPend tag w q q.wr q.flags
      match q.trap with
      | some (cause, region) =>
        .next (s.takeTrap tag w 0 { cause := cause, lanes := q.lanes, addr := q.site, region := region, after := true, faddr := q.x.headD 0 })
      | none => .next (s.afterPend tag w)
    | none =>
      match wv.waits.find? (fun x => match x.2 with | .wchild i _ _ => i == id | _ => false) with
      | some (_, .wchild _ d m) =>
        if s.childrenLeft tag then .refused (.notEnabled "REGION_ENDING_RESULT")
        else .next ((s.putRegs tag w (wr1 m d (fun _ => BitVec.ofNat 32 (min t.torn 0xFFFFFFFF)))).updWave tag w (fun wv =>
          { wv with waits := wv.waits.filter (fun x => match x.2 with | .wchild i _ _ => i ≠ id | _ => true) }))
      | _ => .refused (.notEnabled "REGION_ENDING_RESULT")
  | _, _ => .refused (.notEnabled "REGION_ENDING_RESULT")

/-- A 64-bit operand per lane, as it is read at issue. -/
def Ctx.cap (_ : Ctx) (f : Nat → DWord) : List DWord := byLane f

/-! ### Atomics and reductions -/

/-- Data operand of an atomic; a constant of an .f32 operation is k.0 (R64, R366). (DEDUCED: entry 34.) -/
def Ctx.atB (c : Ctx) (ty : MTy) (b : Opd) (l : Nat) : DWord :=
  if ty.size = 8 then c.w64 b l else if ty = .f32 then (c.fp b l).setWidth 64 else (c.w32 b l).setWidth 64

/-- Issue an atomic: misaligned, then protection for bits [63:48] (R363 step 1), then the operands are kept. -/
def atomIssue (i : Instr) (s : State) (a : Opd) (ls : Ctx → List Nat) (ty : MTy) (y z : Ctx → Nat → DWord) :
    Outcome State Fault Refusal :=
  issue i s (fun c s =>
    match (ls c).find? (fun l => (c.w64 a l).toNat % ty.size ≠ 0) with
    | some l => .error (.trap 0x06 (c.w64 a l).toNat)
    | none =>
      match (ls c).find? (fun l => (c.w64 a l).toNat ≥ 2 ^ 48) with
      | some l => .error (.trap 0x08 (c.w64 a l).toNat)
      | none => .ok (s.endRuns c (c.endOp i (c.cap (c.w64 a)) (c.cap (y c)) (c.cap (z c)))))
/-- ATOM (R363 to R367). -/
def execAtom (h : Hdr) (d a b : Opd) (op : AtomOp) (ty : MTy) (sc : Scope) (od : Ord) (s : State) : Outcome State Fault Refusal :=
  atomIssue (.atom h d a b op ty sc od) s a (fun c => c.accLanes d) ty (fun c l => c.atB ty b l) (fun _ _ => 0)
/-- ACAS (R363 to R367): compare value and new value from the pair B (R366). -/
def execAcas (h : Hdr) (d a b : Opd) (ty : MTy) (sc : Scope) (od : Ord) (s : State) : Outcome State Fault Refusal :=
  let half (c : Ctx) (j l : Nat) : DWord :=
    match b with
    | .s n => if ty = .b32 then ((c.s (n.toNat + j)).setWidth 32 : Word).setWidth 64 else c.s (n.toNat + j)
    | .v n => if ty = .b32 then (c.v (n.toNat + j) l).setWidth 64 else c.v (n.toNat + 2 * j + 1) l ++ c.v (n.toNat + 2 * j) l
    | _ => 0
  atomIssue (.acas h d a b ty sc od) s a (fun c => c.accLanes d) ty (fun c l => half c 0 l) (fun c l => half c 1 l)
/-- RED (R363 to R367). -/
def execRed (h : Hdr) (a b : Opd) (op : AtomOp) (ty : MTy) (sc : Scope) (od : Ord) (s : State) : Outcome State Fault Refusal :=
  atomIssue (.red h a b op ty sc od) s a (fun c => lanesOf c.lanes) ty (fun c l => c.atB ty b l) (fun _ _ => 0)

/-- An atomic as its operation, type, scope and destination. -/
structure AtomForm where
  op : Option AtomOp      -- none: ACAS
  ty : MTy
  sc : Scope
  od : Ord
  d : Opd
  red : Bool
  deriving DecidableEq, Repr
def atomForm : Instr → Option AtomForm
  | .atom _ d _ _ op ty sc od => some { op := some op, ty := ty, sc := sc, od := od, d := d, red := false }
  | .acas _ d _ _ ty sc od => some { op := none, ty := ty, sc := sc, od := od, d := d, red := false }
  | .red _ _ _ op ty sc od => some { op := some op, ty := ty, sc := sc, od := od, d := .zero, red := true }
  | _ => none
/-- Lanes in which an operation with destination `d` accesses. -/
def EndOp.accLanes (e : EndOp) (d : Opd) : List Nat :=
  match d with | .s _ => (if e.lanes = 0 then [] else [lowest e.lanes]) | _ => lanesOf e.lanes

/-- May this operation be made on host memory at .sys (R368)? (DESIGN CHOICE: entry 13.) -/
def hostOk (f : AtomForm) : Bool :=
  match f.op with
  | none => true
  | some .exch => true
  | some .add => f.ty ≠ .f32
  | _ => false
/-- Does an order have a release part, an acquire part? -/
def Ord.rels (od : Ord) : Bool := od == .rel || od == .acqrel
def Ord.acqs (od : Ord) : Bool := od == .acq || od == .acqrel
/-- Host memory. -/
def isHost (pa : Nat) : Bool := hostLo ≤ pa && pa < peerLo
/-- How an atomic on a byte at `pa` reaches its home: on host memory a scope narrower than .sys executes at the home slice (R368). -/
def AtomForm.via (f : AtomForm) (t : Team) (pa : Nat) : Via := t.via (if isHost pa && f.sc ≠ .sys then .dev else f.sc)
/-- Commit step 2 of an atomic in one lane: translation and write permission; windows and barred host operations are
protection (R363, R368, R240). -/
def State.atomCheck (s : State) (t : Team) (sys : Bool) (f : AtomForm) (a : Nat) : Option Bad :=
  if s.inWindow t.part t.asid a f.ty.size then some (.prot a)
  else match s.translateBy (some t.core) t.part t.asid a sys .write with
    | .fault => some (.fault [a / 65536 * 65536])
    | .prot => some (.prot a)
    | .ok pa _ => if f.sc = .sys ∧ isHost pa ∧ !hostOk f then some (.prot a) else none

/-- Post the kind-1 record of a memory error at a physical address (R416, R370): to the partition whose range holds it, or
to every active partition. -/
def State.memError (s : State) (unit pa : Nat) : State :=
  match s.rangeOf pa with
  | some p => s.postError p { kind := 1, unit := unit, addr := pa }
  | none => ((List.range 4).filter s.active).foldl (fun s p => s.postError p { kind := 1, unit := unit, addr := pa }) s

/-- The bytes that an atomic or a reduction writes. -/
def atomBytes (t : Team) (f : AtomForm) (a : Nat) : List (Space × Nat) := (List.range f.ty.size).map (fun i => (.mem t.asid, a + i))
/-- One lane of a RED (R359, R370): it is applied at its home; a request that the host refuses is dropped and reported as poison is. -/
def State.redLane (s : State) (t : Team) (sys : Bool) (f : AtomForm) (op : AtomOp) (a : Nat) (b : DWord) : State :=
  match s.translateBy (some t.core) t.part t.asid a sys .write with
  | .ok pa at_ =>
    if f.sc = .sys ∧ isHost pa ∧ Config.hostRefuses s.free pa then s.memError (s.interleave pa).1 (pa / 64 * 64)
    else (((s.tlbFill (some t.core) t.part t.asid a).tableWrite t.asid a f.ty.size).spoilBytes (atomBytes t f a)).redAt (f.via t pa) (Tgt.of t.part t.asid a pa at_)
      { loc := .slice 0, part := t.part, asid := t.asid, va := a, sys := sys, op := op, ty := f.ty, x := b }
  | _ => s
/-- One lane of an ATOM or ACAS, at the home of its scope (R350, R360, R367, R368): the state, the old value and the flags, or the
trap's cause where it meets poison or a host that refuses (R369). -/
def State.atomLane (s : State) (t : Team) (sys : Bool) (e : EndOp) (f : AtomForm) (l : Nat) : Except Nat (State × DWord × BitVec 8) :=
  let a := (e.x.getD l 0).toNat
  match s.translateBy (some t.core) t.part t.asid a sys .write with
  | .ok pa _ =>
    if f.sc = .sys ∧ isHost pa ∧ Config.hostRefuses s.free pa then .error 0x08
    else
      let v := f.via t pa
      let s := s.touch v t.part t.asid a f.ty.size sys .write true
      match s.readBy v t.part t.asid a f.ty.size sys .write with
      | .error _ => .error 0x09
      | .ok bs =>
        let old := BitVec.ofNat 64 (ofBytes bs)
        let new : Option DWord × BitVec 8 := match f.op with
          | some op => let x := atomNew op f.ty old (e.y.getD l 0); (some x.1, x.2)
          | none => (if old = e.y.getD l 0 then some (e.z.getD l 0) else none, 0)
        .ok (match new.1 with
          | some x => ((s.writeBy v t.part t.asid a sys (toBytes f.ty.size x.toNat)).tableWrite t.asid a f.ty.size).spoilBytes (atomBytes t f a)
          | none => s, old, new.2)
  | _ => .error 0x08
/-- Perform an atomic lane by lane, in ascending order (R363 step 3): the state, the results, the flags, and the lane that
stops with its cause (R369). (DEDUCED: entry 27.) -/
def State.atomLanes (s : State) (t : Team) (sys : Bool) (e : EndOp) (f : AtomForm) :
    List Nat → State × List (Nat × DWord) × BitVec 8 × Option (Nat × Nat)
  | [] => (s, [], 0, none)
  | l :: r =>
    match f.red, f.op with
    | true, some op => (s.redLane t sys f op (e.x.getD l 0).toNat (e.y.getD l 0)).atomLanes t sys e f r
    | _, _ =>
      match s.atomLane t sys e f l with
      | .error c => (s, [], 0, some (l, c))
      | .ok (s, old, fl) =>
        let rest := s.atomLanes t sys e f r
        (rest.1, (l, old) :: rest.2.1, fl ||| rest.2.2.1, rest.2.2.2)

/-- Registers that the results of an atomic go to, for the lanes that have performed (R367, R369). -/
def atomWrites (f : AtomForm) (m : Lanes) (rs : List (Nat × DWord)) : List RegW :=
  let m' := m &&& lanesWhere (fun l => rs.any (·.1 == l))
  let v (l : Nat) : DWord := ((rs.find? (·.1 == l)).map (·.2)).getD 0
  match f.d with
  | .s n => if m' = 0 then [] else [.s n.toNat (v (lowest m'))]
  | d => if f.ty.size = 8 then wr64 m' d v else wr1 m' d (fun l => (v l).setWidth 32)
/-- Commit step 4 of an atomic: its release part, the lanes, its acquire part (R367). (DEDUCED: entry 27.) -/
def State.atomPerform (s : State) (t : Team) (sys : Bool) (w : Nat) (e : EndOp) (f : AtomForm) : State :=
  let s := if Ord.rels f.od then s.release (some t.core) f.sc.rank else s
  let r := s.atomLanes t sys e f (e.accLanes f.d)
  let s := if Ord.acqs f.od then r.1.acquire (some t.core) f.sc.rank else r.1
  let ws := atomWrites f e.lanes r.2.1
  match r.2.2.2 with
  | some (l, cause) => s.answer t.tag w e ws r.2.2.1 (some (cause, e.next)) [e.x.getD l 0]
  | none => s.answer t.tag w e ws (if f.red then 0 else r.2.2.1) none []

/-! ### Fences -/

/-- FENCE (R371): performs at commit step 4. -/
def execFence (h : Hdr) (sc : Scope) (od : Ord) (s : State) : Outcome State Fault Refusal :=
  endRegion (.fence h sc od) s (fun _ => ([], [], []))
/-- What a fence does when it performs (R357, R358, R371). -/
def State.fencePerform (s : State) (t : Team) (sc : Scope) (od : Ord) : State :=
  let s := if Ord.rels od then s.release (some t.core) sc.rank else s
  if Ord.acqs od then s.acquire (some t.core) sc.rank else s

/-! ### Barriers -/

/-- BAR (R373). -/
def execBar (h : Hdr) (a : Opd) (s : State) : Outcome State Fault Refusal :=
  endRegion (.bar h a) s (fun c => (c.cap (fun _ => c.w64 a 0), [], []))
/-- NBAR (R373). -/
def execNbar (h : Hdr) (a : Opd) (s : State) : Outcome State Fault Refusal :=
  endRegion (.nbar h a) s (fun c => (c.cap (fun _ => c.w64 a 0), [], []))

def Bar.reset : Bar := { phase := 0, arrived := [], relDone := [] }
/-- Has a wave arrived at a barrier: every thread with a PC, not exited and not held by a loop (R373)? -/
def Wave.arrived (wv : Wave) (m : Lanes) : Bool := wv.thr.zipIdx.all (fun x => !x.1.live || m.getLsbD x.2)
/-- Does the wave still have a thread that has not exited? -/
def Wave.lives (wv : Wave) : Bool := wv.thr.any (!·.exited)
/-- Has a team arrived, by the arrivals under `key`? -/
def Team.arrived (t : Team) (key : Nat → Nat) (b : Bar) : Bool :=
  t.waves.all (fun wv => !wv.lives || wv.arrived (sget 0 b.arrived (key wv.ix)))
/-- Release the slices of a wave that wait for a barrier; those that waited at trap entry wait no more after RTE. -/
def Wave.release (wv : Wave) (f : Wait → Bool) : Wave :=
  { wv with waits := wv.waits.filter (fun x => !f x.2), keptOver := wv.keptOver ++ (wv.keptW.filter (fun x => f x.2)).map (·.1) }
/-- Next phase of a barrier. -/
def Bar.complete (b : Bar) : Bar := { phase := b.phase + 1, arrived := [], relDone := [] }

/-- Complete the team barriers whose instance is full (R373). -/
def State.barsTeam (s : State) (tag : Nat) : State :=
  s.updTeam tag (fun t => (List.range 16).foldl (fun t j =>
    let b := t.bars.getD j Bar.reset
    if b.arrived ≠ [] ∧ t.arrived (fun w => w) b then
      { t with bars := t.bars.set j b.complete
               waves := t.waves.map (·.release (fun x => match x with | .bar i _ _ => i == j | _ => false)) }
    else t) t)
/-- Teams of a gang that have arrived at an NBAR and whose release is still to be made release at .nbhd (R374). -/
def State.nbarRelease (s : State) (gid j : Nat) : State :=
  match s.gang? gid with
  | none => s
  | some g =>
    let b := g.nbars.getD j Bar.reset
    let ts := if b.arrived = [] then [] else (s.teamsOf gid).filter (fun t => t.arrived (fun w => 32 * t.pos + w) b && !b.relDone.contains t.tag)
    if ts = [] then s
    else (ts.foldl (fun s t => s.release (some t.core) 2) s).updGang gid (fun g =>
      { g with nbars := g.nbars.set j { b with relDone := b.relDone ++ ts.map (·.tag) } })
/-- Complete an NBAR whose instance is full: every team departs with an acquire at .nbhd (R373, R374). -/
def State.nbarComplete (s : State) (gid j : Nat) : State :=
  match s.gang? gid with
  | none => s
  | some g =>
    let b := g.nbars.getD j Bar.reset
    let ts := s.teamsOf gid
    if b.arrived ≠ [] ∧ ts.all (fun t => t.arrived (fun w => 32 * t.pos + w) b) then
      let s := (ts.foldl (fun s t => s.acquire (some t.core) 2) s).updGang gid (fun g => { g with nbars := g.nbars.set j b.complete })
      { s with teams := s.teams.map (fun t => if t.gid = gid then
          { t with waves := t.waves.map (·.release (fun x => match x with | .nbar i _ _ => i == j | _ => false)) } else t) }
    else s
/-- The neighbourhood barriers of a gang (R373, R374). -/
def State.barsGang (s : State) (gid : Nat) : State := (List.range 16).foldl (fun s j => (s.nbarRelease gid j).nbarComplete gid j) s
/-- After an arrival, an exit or a retirement. -/
def State.barriers (s : State) (tag gid : Nat) : State := (s.barsTeam tag).barsGang gid
/-- Every barrier at which some thread has arrived: a thread that a loop holds, or the end of handler mode, can complete an instance
too (R373). -/
def State.barriersAll (s : State) : State :=
  let s := (s.teams.filter (fun t => !t.retired && t.bars.any (·.arrived ≠ []))).foldl (fun s t => s.barsTeam t.tag) s
  (s.gangs.filter (fun g => g.nbars.any (·.arrived ≠ []))).foldl (fun s g => s.barsGang g.gid) s

/-- Arrive at a barrier with the active threads; the slices of the bundle wait (R373). -/
def State.barArrive (s : State) (t : Team) (w : Nat) (sls : List Nat) (e : EndOp) (nb : Bool) : State :=
  let j := (e.x.headD 0).toNat % 16
  let add (b : Bar) (key : Nat) : Bar := { b with arrived := sset 0 b.arrived key (sget 0 b.arrived key ||| e.lanes) }
  let s := s.updWave t.tag w (fun wv => { wv with waits := wv.waits ++ sls.map (fun sl =>
    let m := e.mask &&& sliceMask sl
    (sl, if nb then .nbar j e.site m else .bar j e.site m)) })
  let s := if nb then s.updGang t.gid (fun g => { g with nbars := g.nbars.set j (add (g.nbars.getD j Bar.reset) (32 * t.pos + w)) })
    else s.updTeam t.tag (fun t => { t with bars := t.bars.set j (add (t.bars.getD j Bar.reset) w) })
  s.barriers t.tag t.gid

/-- EXIT at commit step 4 (R149, R392): the active threads exit and leave their keys; barriers may complete (R373). A wave
in handler mode all of whose threads have exited leaves handler mode and ends (R408). -/
def State.exitPerform (s : State) (t : Team) (w : Nat) (e : EndOp) : State :=
  let s := s.updWave t.tag w (fun wv =>
    let wv := wv.mapThr e.lanes (fun _ x => { x with exited := true, hold := none })
    if wv.handler && !wv.lives then { wv with handler := false, kept := [], keptW := [], keptOver := [] } else wv)
  let s := s.abandon (fun h => h.1 == t.tag && h.2.1 == w && e.lanes.getLsbD h.2.2)
  s.barriers t.tag t.gid

/-! ### Launders -/

/-- Position named by a role. -/
def KObj.posOf (k : KObj) (r : Nat) : Option Nat := (k.roles[r]?).map (fun x => x.2 * k.gw + x.1)
/-- Issue SEND or RECV: misuse, misaligned, bounds, in this order (R377, R380). -/
def launderIssue (i : Instr) (s : State) (a : Opd) (n : BitVec 4) (send : Bool) : Outcome State Fault Refusal :=
  issue i s (fun c s =>
    if c.lanes = 0 then .ok (s.endRuns c (c.endOp i [] [] []))
    else
      let k := c.gg.kobj
      match k.launders[n.toNat]? with
      | none => .error (.trap 0x10 0)
      | some ld =>
        if k.posOf (if send then ld.src else ld.dst) ≠ some c.tm.pos then .error (.trap 0x10 0)
        else
          let o := (c.sc a).toNat % 2 ^ 32
          if o % 16 ≠ 0 then .error (.trap 0x06 o)
          else if o + ld.size > k.scrLen then .error (.trap 0x08 o)
          else .ok (s.endRuns c (c.endOp i [BitVec.ofNat 64 o] [] [])))
/-- SEND (R377 to R380). -/
def execSend (h : Hdr) (d a : Opd) (n : BitVec 4) (s : State) : Outcome State Fault Refusal :=
  launderIssue (.send h d a n) s a n true
/-- RECV (R377 to R380). -/
def execRecv (h : Hdr) (d a : Opd) (n : BitVec 4) (s : State) : Outcome State Fault Refusal :=
  launderIssue (.recv h d a n) s a n false

/-- May a SEND or RECV reserve now (R377)? -/
def State.launderReady (s : State) (t : Team) (n : Nat) (send : Bool) : Bool :=
  match s.gang? t.gid with
  | none => false
  | some g => (g.launders[n]?).any (fun x => if send then x.free > 0 else x.slots ≠ [])
/-- Poisoned words of a scratch range, by word offset, with their causes. (DEDUCED: entry 38.) -/
def Team.scrBadIn (t : Team) (a n : Nat) : List (Nat × Nat) :=
  (t.scrPoison.filter (fun x => a ≤ 4 * x.1 && 4 * x.1 < a + n)).map (fun x => (x.1 - a / 4, x.2))
/-- Mark words of a scratch range as poisoned. (DEDUCED: entry 38.) -/
def Team.scrMark (t : Team) (a : Nat) (l : List (Nat × Nat)) : Team :=
  { t with scrPoison := l.foldl (fun m x => sput m (a / 4 + x.1) x.2) t.scrPoison }
/-- Bytes of a team's scratch as they stand. -/
def Team.scrRead (t : Team) (free a n : Nat) : List Byte := (List.range n).map (fun i => t.scrByte free (a + i))
/-- SEND or RECV at commit step 4 (R377): SEND releases at .nbhd, RECV acquires. -/
def State.launderPerform (s : State) (t : Team) (w : Nat) (e : EndOp) (d : Opd) (n : Nat) (send : Bool) : State :=
  match s.gang? t.gid, s.team? t.tag with
  | some g, some t =>
    match g.launders[n]?, g.kobj.launders[n]? with
    | some ld, some decl =>
      let o := (e.x.headD 0).toNat
      if send then
        let x : LSlot := { seq := ld.fseq, bytes := t.scrRead s.free o decl.size, bad := t.scrBadIn o decl.size }
        let ld' : Launder := { free := ld.free - 1, fseq := ld.fseq + 1, slots := ld.slots ++ [x] }
        let s := (s.release (some t.core) 2).updGang t.gid (fun g => { g with launders := g.launders.set n ld' })
        s.answer t.tag w e (wr1 e.lanes d (fun _ => ld.fseq)) 0 none []
      else
        match ld.slots with
        | [] => s
        | x :: r =>
          let s := s.updGang t.gid (fun g => { g with launders := g.launders.set n { ld with free := ld.free + 1, slots := r } })
          let s := (s.updTeam t.tag (fun t => (t.scrWrite o x.bytes).scrMark o x.bad)).spoilBytes ((List.range x.bytes.length).map (fun i => (.scratch t.tag, o + i)))
          (s.acquire (some t.core) 2).answer t.tag w e (wr1 e.lanes d (fun _ => x.seq)) 0 none []
    | _, _ => s
  | _, _ => s

end Sys2Proof.Machine
end

