-- ==== Sys2Proof/Machine/Sluice.lean ====
section
/-! DEFINITION. Sys2Proof/Machine/Sluice.lean: sluice sections (16_sluice.md R381 to R400): keys, slice tables and backing
tables; SLIN, SLOUT, SLQRY and SLRST at issue and at their commit; SLUICE_TIMEOUT. -/
namespace Sys2Proof.Machine
open Host (Outcome)

/-! ### Keys (R381 to R388) -/

/-- The entry of a key in its home slice's table. -/
def State.key? (s : State) (p : Nat) (k : DWord) : Option KeyEnt := s.keys.find? (fun e => e.part == p && e.key == k)
/-- Replace the entry of a key, or add it. -/
def State.putKey (s : State) (e : KeyEnt) : State :=
  let e := { e with used := s.cycle }
  if s.keys.any (fun x => x.part == e.part && x.key == e.key) then
    { s with keys := s.keys.map (fun x => if x.part = e.part ∧ x.key = e.key then e else x) }
  else { s with keys := e :: s.keys }

/-- A key is used: its entry, if it has one, is now the one used last (R385). -/
def State.useKey (s : State) (p : Nat) (k : DWord) : State :=
  { s with keys := s.keys.map (fun x => if x.part = p ∧ x.key = k then { x with used := s.cycle } else x) }

/-- A SLIN that waits: its wave and issue, the lane, its region run, the key and the sequence number. -/
structure Waiter where
  tag : Nat
  w : Nat
  iss : Nat
  lane : Nat
  rid : Nat
  key : DWord
  q : Word
  deriving DecidableEq, Repr
/-- The waiting lanes of a region run whose SLIN has begun (R397). -/
def Region.waiters (r : Region) (tag w : Nat) : List Waiter :=
  match r.ended with
  | some (.op e) =>
    match e.instr with
    | .slin _ _ _ _ =>
      if e.since = 0 then []
      else ((lanesOf (e.lanes &&& sliceMask r.sl)).filter (fun l => !e.st.any (·.1 == l))).map (fun l =>
        { tag := tag, w := w, iss := e.iss, lane := l, rid := r.rid, key := e.x.getD l 0, q := (e.y.getD l 0).setWidth 32 })
    | _ => []
  | _ => []
/-- Every waiting lane of a partition. -/
def State.waiters (s : State) (p : Nat) : List Waiter :=
  (s.teams.filter (·.part == p)).flatMap (fun t => t.waves.flatMap (fun wv => wv.regions.flatMap (·.waiters t.tag wv.ix)))
def State.awaited (s : State) (p : Nat) (k : DWord) : List Waiter := (s.waiters p).filter (·.key == k)
/-- May an entry leave its table: neither held nor awaited, nor kept for a SLRST (R385, R400)? -/
def State.loose (s : State) (e : KeyEnt) : Bool := e.holder.isNone && e.made.isNone && s.awaited e.part e.key == []
/-- Drop the entries that need none (R385). -/
def State.dropKeys (s : State) : State :=
  { s with keys := s.keys.filter (fun e => !(s.loose e && e.next == 0 && !e.abandoned)) }

/-- Change the ended operation of an issue in every run that waits for it. -/
def Wave.updEnd (wv : Wave) (iss : Nat) (f : EndOp → EndOp) : Wave :=
  { wv with regions := wv.regions.map (fun r => match r.ended with
      | some (.op e) => if e.iss = iss then { r with ended := some (.op (f e)) } else r
      | _ => r) }
/-- A waiting lane gets its status. -/
def State.settleLane (s : State) (st : Nat) (x : Waiter) : State :=
  s.updWave x.tag x.w (·.updEnd x.iss (fun e => { e with st := e.st ++ [(x.lane, st)] }))
/-- After a change of a key its waiting lanes compare again (R382): those whose number has passed get STALE; while it has no holder, one of
those whose turn it is enters, whichever. (DESIGN CHOICE: entry 60.) -/
def State.recheck (s : State) (p : Nat) (k : DWord) : State :=
  match s.key? p k with
  | none => s
  | some e =>
    let ws := s.awaited p k
    let d (x : Waiter) : Nat := (x.q - e.next).toNat
    let s := (ws.filter (fun x => 2 ^ 31 ≤ d x)).foldl (·.settleLane 1 ·) s
    let due := ws.filter (fun x => d x = 0)
    if e.holder.isSome then s
    else match due[(Config.freeWord s.free 973 0).toNat % due.length]? with
      | none => s
      | some x => ({ s.putKey { e with holder := some (x.tag, x.w, x.lane), resBy := some x.rid } with free := s.free + 1 }).settleLane 0 x
/-- The same, for every key that is awaited. -/
def State.recheckAll (s : State) : State :=
  ((List.range 4).flatMap (fun p => ((s.waiters p).map (fun x => (p, x.key))).eraseDups)).foldl (fun s x => s.recheck x.1 x.2) s

/-- Virtual address of the bucket of a key (R386). -/
def Part.bucket (q : Part) (k : DWord) : Nat :=
  let h := (k.setWidth 32 ^^^ (k >>> 32).setWidth 32 : Word) * 0x85EBCA77#32
  q.slBase + 64 * (h.toNat >>> (32 - q.logB))

/-- Why a sluice instruction cannot go on: no room, a trap on its own bucket, or page faults of buckets, each with its partition, address
space and page. -/
inductive KeyStop where
  | cap
  | trap (cause a : Nat)
  | fault (fs : List (Nat × Nat × Nat))
  deriving DecidableEq, Repr
/-- What a bucket access that fails does to the instruction whose key it is (R386). -/
def Bad.keyStop (p asid : Nat) : Bad → KeyStop
  | .fault ps => .fault (ps.map (fun a => (p, asid, a)))
  | .prot a => .trap 0x08 a
  | .poison a => .trap 0x09 a
/-- The stop of several lanes: what traps in the lowest that does, else every page that faults. -/
def keyStops (l : List KeyStop) : Option KeyStop :=
  match l.find? (fun x => match x with | .fault _ => false | _ => true) with
  | some x => some x
  | none => match (l.flatMap (fun x => match x with | .fault fs => fs | _ => [])).eraseDups with | [] => none | fs => some (.fault fs)

/-- The bytes of a key's bucket. -/
def State.bucketRead (s : State) (p : Nat) (k : DWord) : Except Bad (List Byte) :=
  s.readVa p (s.part p).slAsid ((s.part p).bucket k) 64 true .read
/-- What a bucket read does on its way (R211, R218). -/
def State.bucketTouch (s : State) (p : Nat) (k : DWord) : State :=
  if (s.part p).logB = 0 then s else s.touch .agent p (s.part p).slAsid ((s.part p).bucket k) 64 true .read true
/-- Field of a bucket slot. -/
def slotField (b : List Byte) (j o n : Nat) : Nat := ofBytes ((b.drop (16 * j + o)).take n)
/-- The slot of a bucket that holds a key. -/
def slotOf (b : List Byte) (k : DWord) : Option Nat :=
  (List.range 4).find? (fun j => slotField b j 0 8 == k.toNat && slotField b j 12 4 % 2 == 1)
/-- Write bytes into a slot of a key's bucket. -/
def State.bucketWrite (s : State) (p : Nat) (k : DWord) (j o : Nat) (bs : List Byte) : Except Bad State :=
  s.writeVa p (s.part p).slAsid ((s.part p).bucket k + 16 * j + o) true bs
/-- A key in the backing table: its slot, `NEXT`, undefined once software has written the table, and `ABANDONED`. -/
def State.backed (s : State) (p : Nat) (k : DWord) : Except Bad (Option (Nat × Word × Bool)) :=
  if (s.part p).logB = 0 then .ok none
  else (s.bucketRead p k).map (fun b => (slotOf b k).map (fun j =>
    (j, if (s.part p).slWild && !(s.part p).slDef.contains k then s.freeNext k else BitVec.ofNat 32 (slotField b j 8 4), bit (slotField b j 12 4) 1)))

/-- The device has written a key's slot: its `NEXT` there is defined, whatever software wrote to the table before (R386, R400). -/
def State.slotMade (s : State) (p : Nat) (k : DWord) : State := s.updPart p (fun q => if q.slWild then { q with slDef := k :: q.slDef } else q)
/-- Spill an entry to the lowest free slot of its bucket (R385); where it cannot be done, the cause and the word, if an access failed.
(DEDUCED: entry 37.) -/
def State.spillKey (s : State) (e : KeyEnt) : Except (Option (Bad × Nat)) State :=
  let base := (s.part e.part).bucket e.key
  if (s.part e.part).logB = 0 then .error none
  else match s.bucketRead e.part e.key with
    | .error b => .error (some (b, match b with | .poison a => a / 4 * 4 | _ => base))
    | .ok b =>
      match (List.range 4).find? (fun j => slotField b j 12 4 % 2 == 0) with
      | none => .error none
      | some j =>
        match (s.bucketTouch e.part e.key).bucketWrite e.part e.key j 0
            (toBytes 8 e.key.toNat ++ toBytes 4 e.next.toNat ++ toBytes 4 (if e.abandoned then 3 else 1)) with
        | .error b => .error (some (b, base + 16 * j))
        | .ok s => .ok { s.slotMade e.part e.key with keys := s.keys.filter (fun x => !(x.part == e.part && x.key == e.key)) }

/-- Insert by last use. -/
def insertUsed (e : KeyEnt) : List KeyEnt → List KeyEnt
  | [] => [e]
  | x :: r => if e.used ≤ x.used then e :: x :: r else x :: insertUsed e r
/-- Try the candidates one after another (R385 to R387); a page fault on the bucket of a candidate makes the instruction wait. (DEDUCED: entry 37.) -/
def State.makeRoom (s : State) : List KeyEnt → Except KeyStop State
  | [] => .error .cap
  | e :: r =>
    match s.spillKey e with
    | .ok s => .ok s
    | .error (some (.fault ps, _)) => .error ((Bad.fault ps).keyStop e.part (s.part e.part).slAsid)
    | .error _ => s.makeRoom r
/-- Room for one entry in the table of a slice (R385, R387). -/
def State.keyRoom (s : State) (sl : Nat) : Except KeyStop State :=
  let s := s.dropKeys
  let here := s.keys.filter (fun e => s.homeKey e.part e.key == sl)
  if here.length < 256 then .ok s
  else s.makeRoom ((here.filter s.loose).foldl (fun l e => insertUsed e l) [])
/-- The entry of a key for SLIN: the one it has, one reloaded from its bucket, or a new one (R387). -/
def State.ensureKey (s : State) (p : Nat) (k : DWord) : Except KeyStop State :=
  if (s.key? p k).isSome then .ok s
  else match s.backed p k with
    | .error b => .error (b.keyStop p (s.part p).slAsid)
    | .ok slot =>
      match (s.bucketTouch p k).keyRoom (s.homeKey p k) with
      | .error x => .error x
      | .ok s =>
        let e : KeyEnt := { part := p, key := k, next := 0, holder := none, resBy := none, made := none, abandoned := false, used := 0 }
        match slot with
        | none => .ok (s.putKey e)
        | some (j, n, ab) =>
          match s.bucketWrite p k j 12 (toBytes 4 (if ab then 2 else 0)) with
          | .error b => .error (b.keyStop p (s.part p).slAsid)
          | .ok s => .ok (s.putKey { e with next := n, abandoned := ab })

/-! ### Issue -/

/-- SLIN (R396, R397). -/
def execSlin (h : Hdr) (d a b : Opd) (s : State) : Outcome State Fault Refusal :=
  endRegion (.slin h d a b) s (fun c => (c.cap (c.w64 a), c.cap (fun l => (c.w32 b l).setWidth 64), []))
/-- SLOUT (R398). -/
def execSlout (h : Hdr) (d a : Opd) (s : State) : Outcome State Fault Refusal :=
  endRegion (.slout h d a) s (fun c => (c.cap (c.w64 a), [], []))
/-- SLOUT.last (R398). -/
def execSloutLast (h : Hdr) (d a : Opd) (s : State) : Outcome State Fault Refusal :=
  endRegion (.sloutLast h d a) s (fun c => (c.cap (c.w64 a), [], []))
/-- SLQRY (R399). -/
def execSlqry (h : Hdr) (d a : Opd) (s : State) : Outcome State Fault Refusal :=
  endRegion (.slqry h d a) s (fun c => (c.cap (c.w64 a), [], []))
/-- SLRST (R400). -/
def execSlrst (h : Hdr) (d a b : Opd) (s : State) : Outcome State Fault Refusal :=
  endRegion (.slrst h d a b) s (fun c => (c.cap (c.w64 a), c.cap (fun l => (c.w32 b l).setWidth 64), []))
/-- SLRST.del (R400). -/
def execSlrstDel (h : Hdr) (d a : Opd) (s : State) : Outcome State Fault Refusal :=
  endRegion (.slrstDel h d a) s (fun c => (c.cap (c.w64 a), [], []))

/-! ### SLIN before commit step 3 -/

/-- Does a lane hold a key (R383)? -/
def State.holds (s : State) (p : Nat) (k : DWord) (x : Nat × Nat × Nat) : Bool :=
  (s.key? p k).any (fun e => e.holder == some x && e.resBy.isNone)
/-- Statuses known before the wait: DUP and OWN (R397). -/
def State.slinFirst (s : State) (t : Team) (w : Nat) (e : EndOp) (m : Lanes) : List (Nat × Nat) :=
  (lanesOf m).filterMap (fun l =>
    if (lanesOf m).any (fun o => o < l && e.x.getD o 0 == e.x.getD l 0) then some (l, 2)
    else if s.holds t.part (e.x.getD l 0) (t.tag, w, l) then some (l, 5) else none)
/-- Compare the pending lanes once, in ascending order (R382, R397): entries are made, holders reserve. The state, the statuses, and what
stops lanes whose key's entry cannot be had. A lane whose number has passed has its status at once, and awaits its key no more.
(DESIGN CHOICE: entry 60.) -/
def State.slinLanes (s : State) (t : Team) (wv : Wave) (e : EndOp) : List Nat → State × List (Nat × Nat) × List KeyStop
  | [] => (s, [], [])
  | l :: r =>
    let k := e.x.getD l 0
    match s.ensureKey t.part k with
    | .error x => let y := s.slinLanes t wv e r; (y.1, y.2.1, x :: y.2.2)
    | .ok s =>
      match s.key? t.part k with
      | none => s.slinLanes t wv e r
      | some en =>
        let d := ((e.y.getD l 0).setWidth 32 - en.next).toNat
        if 2 ^ 31 ≤ d then
          let y := ((s.useKey t.part k).updWave t.tag wv.ix (·.updEnd e.iss (fun e => { e with st := e.st ++ [(l, 1)] }))).slinLanes t wv e r
          (y.1, (l, 1) :: y.2.1, y.2.2)
        else if d = 0 ∧ en.holder = none then
          let y := (s.putKey { en with holder := some (t.tag, wv.ix, l), resBy := some (wv.ridOf (l / 4)) }).slinLanes t wv e r
          (y.1, (l, 0) :: y.2.1, y.2.2)
        else s.slinLanes t wv e r
/-- One attempt of a SLIN over the lanes of its group: the wait begins (R390, R393), the lanes compare; the result says
which lanes have settled, and what stops the instruction. -/
def State.slinTry (s : State) (t : Team) (wv : Wave) (e : EndOp) (m : Lanes) : State × EndOp × Option KeyStop :=
  let e := if e.since = 0 then
      { e with since := s.cycle + 1, lim := bits (s.part t.part).sltmo.toNat 0 32, st := s.slinFirst t wv.ix e m }
    else e
  let s := s.updWave t.tag wv.ix (·.updEnd e.iss (fun _ => e))
  let y := s.slinLanes t wv e ((lanesOf m).filter (fun l => !e.st.any (·.1 == l)))
  let e := { e with st := e.st ++ y.2.1 }
  (y.1.updWave t.tag wv.ix (·.updEnd e.iss (fun _ => e)), e, keyStops y.2.2)
/-- Have all lanes of a set settled? -/
def EndOp.settled (e : EndOp) (m : Lanes) : Bool := (lanesOf m).all (fun l => e.st.any (·.1 == l))

/-- Does a SLIN only wait for its keys to change: it has begun, and every lane that has no status has its entry? -/
def State.slinWaits (s : State) (t : Team) (e : EndOp) (m : Lanes) : Bool :=
  e.since ≠ 0 && !e.settled m && (lanesOf m).all (fun l => e.st.any (·.1 == l) || (s.key? t.part (e.x.getD l 0)).isSome)

/-- Entries that a SLRST needs before commit step 3 (R400). -/
def State.slrstKeys (s : State) (t : Team) (wv : Wave) (e : EndOp) : List Nat → Except KeyStop State
  | [] => .ok s
  | l :: r =>
    let k := e.x.getD l 0
    if (s.key? t.part k).isSome || (e.y.getD l 0).setWidth 32 = (0 : Word) then s.slrstKeys t wv e r
    else match s.backed t.part k with
      | .error b => .error (b.keyStop t.part (s.part t.part).slAsid)
      | .ok (some _) => s.slrstKeys t wv e r
      | .ok none =>
        match s.ensureKey t.part k with
        | .error x => .error x
        | .ok s =>
          match s.key? t.part k with
          | some en => (s.putKey { en with made := some (wv.ridOf (l / 4)) }).slrstKeys t wv e r
          | none => s.slrstKeys t wv e r
/-- The buckets that SLQRY reads and SLRST rewrites can be used (R386). -/
def State.bucketsOk (s : State) (t : Team) (e : EndOp) (wr : Bool) (ls : List Nat) : Option KeyStop :=
  let q := s.part t.part
  keyStops (ls.filterMap (fun l =>
    let k := e.x.getD l 0
    if (s.key? t.part k).isSome then none
    else match s.backed t.part k with
      | .error b => some (b.keyStop t.part q.slAsid)
      | .ok none => none
      | .ok (some _) => if wr then (s.checkRange t.part q.slAsid (q.bucket k) 64 true .write).map (·.keyStop t.part q.slAsid) else none))

/-! ### Commit step 4 -/

/-- SLIN: reservations become holds, with an acquire at .part if a lane has entered (R389, R390, R397). -/
def State.slinPerform (s : State) (t : Team) (w : Nat) (e : EndOp) (d : Opd) (m : Lanes) (rids : List Nat) : State :=
  let s := { s with keys := s.keys.map (fun (k : KeyEnt) => if k.resBy.any rids.contains then { k with resBy := none } else k) }
  let s := if (lanesOf m).any (fun l => e.st.any (fun x => x.1 == l && x.2 == 0)) then s.acquire (some t.core) (Scope.rank .part) else s
  let st (l : Nat) : Word := BitVec.ofNat 32 (((e.st.find? (·.1 == l)).map (·.2)).getD 0)
  s.dropKeys.answer t.tag w e (wr1 m d st) 0 none []

/-- SLOUT of one lane: its status (R398). -/
def State.slout1 (s : State) (t : Team) (w : Nat) (k : DWord) (l : Nat) (last : Bool) : State × Word :=
  match s.key? t.part k with
  | some e =>
    if e.holder = some (t.tag, w, l) ∧ e.resBy = none then
      (s.putKey (if last then { e with next := 0, holder := none, abandoned := false } else { e with next := e.next + 1, holder := none }), 0)
    else (s.useKey t.part k, 3)
  | none => (s, 3)
/-- SLRST of one lane: its status (R400). -/
def State.slrst1 (s : State) (t : Team) (k : DWord) (q : Word) (del : Bool) : State × Word :=
  match s.key? t.part k with
  | some e =>
    if e.holder.isSome then (s.putKey { e with made := none }, 4)
    else (s.putKey { e with next := if del then 0 else q, abandoned := false, made := none }, 0)
  | none =>
    match s.backed t.part k with
    | .ok (some (j, _, ab)) =>
      let r := if del then s.bucketWrite t.part k j 12 (toBytes 4 (if ab then 2 else 0))
        else s.bucketWrite t.part k j 8 (toBytes 4 q.toNat ++ toBytes 4 1)
      (match r with | .ok s => if del then s else s.slotMade t.part k | .error _ => s, 0)
    | _ => (s, 0)
/-- Lanes one after another, each with its status; after each the waiting lanes of its key compare again (R382, R398, R400). -/
def keyLanes (p : Nat) (e : EndOp) (f : State → Nat → State × Word) : List Nat → State → State × List (Nat × Word)
  | [], s => (s, [])
  | l :: r, s =>
    let x := f s l
    let y := keyLanes p e f r (x.1.recheck p (e.x.getD l 0))
    (y.1, (l, x.2) :: y.2)
/-- SLOUT and SLRST: the lanes act in ascending order and receive their statuses. -/
def State.keyPerform (s : State) (t : Team) (w : Nat) (e : EndOp) (d : Opd) (m : Lanes) (f : State → Nat → State × Word) : State :=
  let r := keyLanes t.part e f (lanesOf m) s
  r.1.dropKeys.answer t.tag w e (wr1 m d (fun l => ((r.2.find? (·.1 == l)).map (·.2)).getD 0)) 0 none []
/-- SLOUT: a release at .part first, if a lane holds its key (R389, R398). -/
def State.sloutPerform (s : State) (t : Team) (w : Nat) (e : EndOp) (d : Opd) (m : Lanes) (last : Bool) : State :=
  let k (l : Nat) : DWord := e.x.getD l 0
  let s := if (lanesOf m).any (fun l => s.holds t.part (k l) (t.tag, w, l)) then s.release (some t.core) (Scope.rank .part) else s
  s.keyPerform t w e d m (fun s l => s.slout1 t w (k l) l last)

/-- `NEXT` and the flags of SLQRY in a lane (R399). -/
def State.slqry1 (s : State) (t : Team) (w : Nat) (k : DWord) (l : Nat) : Word × Word :=
  match s.key? t.part k with
  | some e => (e.next, BitVec.ofNat 32 ((if e.holder.isSome then 1 else 0) + (if e.holder = some (t.tag, w, l) then 2 else 0)
      + (if e.abandoned then 4 else 0) + 256 * min (s.awaited t.part k).length 255))
  | none =>
    match s.backed t.part k with
    | .ok (some (_, n, ab)) => (n, if ab then 4 else 0)
    | _ => (0, 0)
/-- SLQRY (R399). -/
def State.slqryPerform (s : State) (t : Team) (w : Nat) (e : EndOp) (d : Opd) (m : Lanes) : State :=
  ((lanesOf m).foldl (fun s l => if (s.key? t.part (e.x.getD l 0)).isSome then s.useKey t.part (e.x.getD l 0) else s.bucketTouch t.part (e.x.getD l 0)) s).answer t.tag w e
    (wrN m d 2 (fun i l => let x := s.slqry1 t w (e.x.getD l 0) l; if i = 0 then x.1 else x.2)) 0 none []

/-! ### Timeout -/

/-- Lanes of the slices whose runs one issue has ended. -/
def Wave.endMask (wv : Wave) (iss : Nat) : Lanes :=
  (wv.regions.filter (fun x => match x.ended with | some (.op y) => y.iss == iss | _ => false)).foldl (fun m x => m ||| sliceMask x.sl) 0
/-- A SLIN of a wave that waits and has waited longer than its limit (R393). -/
def Wave.late (wv : Wave) (cyc : Nat) : Option (Region × EndOp) :=
  wv.regions.findSome? (fun r => match r.ended with
    | some (.op e) =>
      let e := { e with lanes := e.lanes &&& wv.endMask e.iss }
      (match e.instr with
       | .slin _ _ _ _ => if e.since ≠ 0 ∧ e.lim ≠ 0 ∧ e.lim * 1200 < cyc - (e.since - 1) ∧ !e.settled e.lanes then some (r, e) else none
       | _ => none)
    | _ => none)
/-- SLUICE_TIMEOUT (R393). -/
def execSluiceTimeout (tag w : Nat) (s : State) : Outcome State Fault Refusal :=
  match s.wave? tag w with
  | some wv =>
    match wv.late s.cycle with
    | some (r, e) => .next (s.takeTrap tag w (e.mask &&& wv.endMask e.iss)
        { cause := 0x0D, lanes := e.lanes, addr := e.site, region := r.start, after := false, faddr := 0 })
    | none => .refused (.notEnabled "SLUICE_TIMEOUT")
  | none => .refused (.notEnabled "SLUICE_TIMEOUT")

end Sys2Proof.Machine
end

