-- ==== Sys2Proof/Machine/Copy.lean ====
section
/-! DEFINITION. Sys2Proof/Machine/Copy.lean: the address engine (clauses of ENG 1): shadow bindings, tensor copies, access
programs (10_loads_stores.md R237 to R256). -/
namespace Sys2Proof.Machine
open Host (Outcome)

/-- An operation of an engine that acts once per issue and completes as it issues: its counter rises and falls in this step. (DEDUCED: entry 35.) -/
def State.done (s : State) (c : Ctx) (d : Opd) (x : Word) : State :=
  let ws := c.dst d (fun _ => x)
  s.putNow c ws
/-- Change the run that an operation of the whole bundle belongs to (R463). -/
def State.updRun (s : State) (c : Ctx) (f : Region → Region) : State :=
  s.onWave c (fun wv => { wv with regions := wv.regions.map (fun r => if r.sl = c.ownSlice then f r else r) })

/-- A byte that a run had stored when an operation of it issued (R33, R351). -/
def Pend.ownByte (q : Pend) (wv : Wave) (free rid asid a : Nat) : Option Byte :=
  match wv.regions.find? (·.rid == rid) with
  | some r => (r.stores.reverse.find? (fun b => b.iss < q.id && b.sp == .mem asid && b.a == a)).map (·.val free)
  | none => none
/-- Bytes of memory that an operation of a run reads at .core, with what the run had stored at its issue (R33, R351), through a shadow window
where they lie in one. (DEDUCED: entry 41.) -/
def State.runRead (s : State) (t : Team) (wv : Wave) (q : Pend) (rid va n : Nat) (sys : Bool) : Except Bad (List Byte) :=
  s.vreadOwn (t.via .core) t.part t.asid va n sys (fun i => q.ownByte wv s.free rid t.asid (va + i))
/-- What such a read does on its way. -/
def State.runTouch (s : State) (t : Team) (va n : Nat) (sys : Bool) : State := s.vtouch (t.via .core) t.part t.asid va n sys true

/-! ### Shadow bindings (R237 to R243) -/

/-- SHBIND (R242): misaligned at issue, the rest when the descriptor has been read. -/
def execShbind (h : Hdr) (d a b : Opd) (ev : Option (BitVec 3)) (s : State) : Outcome State Fault Refusal :=
  issue (.shbind h d a b ev) s (fun c s =>
    if c.lanes = 0 then .ok s
    else if (c.sc a).toNat % 8 ≠ 0 then .error (.trap 0x06 (c.sc a).toNat)
    else .ok (s.start c { c.pend (.shbind h d a b ev) [c.ownRid] with x := [c.sc a], y := [c.sc b] }))
/-- Status of a descriptor and window (R242), with the binding it describes. -/
def State.shbindStatus (s : State) (p asid win : Nat) (bs : List Byte) (rid : Nat) : Nat × Shadow :=
  let f (o n : Nat) : Nat := ofBytes ((bs.drop o).take n)
  let lesz := bits (f 20 4) 0 3
  let b : Shadow := { asid := asid, base := win, target := f 0 8, index := f 8 8, count := f 16 4, lesz := lesz, resBy := some rid, leaving := none }
  let st :=
    if win % 65536 ≠ 0 ∨ f 16 4 = 0 ∨ f 16 4 > 2 ^ 24 ∨ lesz > 4 ∨ f 0 8 % 2 ^ lesz ≠ 0 ∨ f 8 8 % 4 ≠ 0 ∨ bits (f 20 4) 3 29 ≠ 0
        ∨ f 24 8 ≠ 0 ∨ win + b.len > 2 ^ 48 then 3
    else if (s.part p).shadows.any (fun x => x.asid == asid && x.base < win + b.len && win < x.base + x.len) then 2
    else if (s.part p).shadows.length ≥ 64 then 1 else 0
  (st, b)
/-- SHBIND_COMPLETE (R242); the descriptor may lie in a window. (DEDUCED: entry 41.) -/
def execShbindComplete (tag w id : Nat) (s : State) : Outcome State Fault Refusal :=
  withPend "SHBIND_COMPLETE" s tag w id (fun i => match i with | .shbind _ _ _ _ _ => true | _ => false) (fun t wv q =>
    let rid := q.rids.headD 0
    let sl := ((wv.regions.find? (·.rid == rid)).map (·.sl)).getD 0
    let sys := t.sys || wv.handler
    match s.runRead t wv q rid (q.x.headD 0).toNat 32 sys with
    | .error (.fault ps) => s.pageFault tag w [sl] ps kEngRead
    | .error e => s.pendTrap tag w wv q e.code e.addr
    | .ok bs =>
      let r := s.shbindStatus t.part t.asid (q.y.headD 0).toNat bs rid
      let s := s.runTouch t (q.x.headD 0).toNat 32 sys
      let s := if r.1 = 0 then s.updPart t.part (fun p => { p with shadows := p.shadows ++ [r.2] }) else s
      match q.instr with
      | .shbind _ d _ _ _ => s.finishPend tag w q (wr1 q.lanes d (fun _ => BitVec.ofNat 32 r.1)) 0
      | _ => s)
/-- SHFREE (R243): marks the binding as leaving, at issue. -/
def execShfree (h : Hdr) (d a : Opd) (ev : Option (BitVec 3)) (s : State) : Outcome State Fault Refusal :=
  issue (.shfree h d a ev) s (fun c s =>
    if c.lanes = 0 then .ok s
    else
      let isIt (b : Shadow) : Bool := b.asid == c.tm.asid && b.base == (c.sc a).toNat && b.resBy.isNone && b.leaving.isNone
      if (s.part c.tm.part).shadows.any isIt then
        .ok ((s.updPart c.tm.part (fun p => { p with shadows := p.shadows.map (fun b => if isIt b then { b with leaving := some c.ownRid } else b) })).done c d 0)
      else .ok (s.done c d 4))

/-! ### Tensor copies (R244 to R249) -/

/-- CPY (R249): counted from its issue, performed at commit step 4. -/
def execCpy (h : Hdr) (a : Opd) (ev : Option (BitVec 3)) (s : State) : Outcome State Fault Refusal :=
  issue (.cpy h a ev) s (fun c s =>
    if c.lanes ≠ 0 ∧ (c.sc a).toNat % 128 ≠ 0 then .error (.trap 0x06 (c.sc a).toNat)
    else .ok ((s.start c { c.pend (.cpy h a ev) [c.ownRid] with dsts := [] }).endRuns c (c.endOp (.cpy h a ev) [c.sc a] [] [])))

/-- Little-endian field of a copy's descriptor. -/
def Copy.f (c : Copy) (o n : Nat) : Nat := ofBytes ((c.bytes.drop o).take n)
/-- Fields of `CTL` (Table 10.5). -/
def Copy.ctl (c : Copy) : Nat := c.f 0x10 8
def Copy.tscr (c : Copy) : Bool := bit c.ctl 14
def Copy.fscr (c : Copy) : Bool := bit c.ctl 13
def Copy.lesz (c : Copy) : Nat := bits c.ctl 9 3
def Copy.sf (c : Copy) : Nat := bits c.ctl 4 5
def Copy.dims (c : Copy) : Nat := bits c.ctl 0 4 + 1
def Copy.count (c : Copy) (j : Nat) : Nat := c.f (0x18 + 4 * j) 4
/-- Signed strides of dimension `j` ≥ 1. -/
def Copy.fstr (c : Copy) (j : Nat) : Int := (BitVec.ofNat 32 (c.f (0x3C + 4 * j) 4)).toInt
def Copy.tstr (c : Copy) (j : Nat) : Int := (BitVec.ofNat 32 (c.f (0x5C + 4 * j) 4)).toInt
/-- The rules of R244, R245 and R248. -/
def Copy.bad (c : Copy) : Bool :=
  let e : Nat := 2 ^ c.lesz
  let js := (List.range 8).map (· + 1)
  let used := js.filter (· < c.dims)
  bits c.ctl 15 49 ≠ 0 || c.dims > 9 || c.lesz > 4 || !(c.sf ≤ 16 || c.sf ≥ 30)
    || (List.range (min c.dims 9)).any (fun j => c.count j = 0)
    || js.any (fun j => c.dims ≤ j && (c.count j ≠ 0 || c.fstr j ≠ 0 || c.tstr j ≠ 0))
    || (if c.sf = 16 then c.f 0 8 % e ≠ 0 || c.f 8 8 % e ≠ 0 || used.any (fun j => c.fstr j % e ≠ 0 || c.tstr j % e ≠ 0)
        else c.lesz ≠ 2 || c.count 0 % 32 ≠ 0 || c.f 0 8 % 4 ≠ 0 || c.f 8 8 % 8 ≠ 0 || used.any (fun j => c.tstr j % 8 ≠ 0))
    || (c.grid.isSome && (c.tscr || c.fscr))
/-- Elements moved at a time: one, or a run of 32. -/
def Copy.per (c : Copy) : Nat := if c.sf = 16 then 1 else 32
/-- Units of a copy. -/
def Copy.units (c : Copy) : Nat := (List.range c.dims).foldl (fun n j => n * c.count j) 1 / c.per
/-- Index along dimension `j` of unit `u`, dimension 0 varying fastest (R245). -/
def Copy.ixs (c : Copy) (u : Nat) : List Nat :=
  ((List.range c.dims).foldl (fun (a : List Nat × Nat) j =>
    let n := if j = 0 then c.count 0 / c.per else c.count j
    (a.1 ++ [a.2 % max n 1 * (if j = 0 then c.per else 1)], a.2 / max n 1)) ([], u)).1
/-- Sum of index × stride over the upper dimensions. -/
def offs (ixs : List Nat) (str : Nat → Int) : Int := (ixs.zipIdx.drop 1).foldl (fun a x => a + x.1 * str x.2) 0
/-- Source address and length of a unit. -/
def Copy.src (c : Copy) (u : Nat) : Int × Nat :=
  (c.f 0 8 + (c.ixs u).headD 0 * 2 ^ c.lesz + offs (c.ixs u) c.fstr, c.per * 2 ^ c.lesz)
/-- Destination address and length of a unit. -/
def Copy.dst (c : Copy) (u : Nat) : Int × Nat :=
  if c.sf = 16 then (c.f 8 8 + (c.ixs u).headD 0 * 2 ^ c.lesz + offs (c.ixs u) c.tstr, 2 ^ c.lesz)
  else (c.f 8 8 + (c.ixs u).headD 0 / 32 * (4 * fmtWidth c.sf) + offs (c.ixs u) c.tstr, 4 * fmtWidth c.sf)

/-- How a copy reaches memory: as an agent of the core on which its team is, at .dev (Table 14.1, R246). -/
def State.copyVia (s : State) (c : Copy) : Via :=
  match c.tag.bind s.team? with
  | some t => if s.placed t then t.via .dev else .agent
  | none => .agent
/-- An address of a copy, modulo 2^64 (R202). -/
def vaOf (a : Int) : Nat := (a % (2 : Int) ^ 64).toNat
/-- Where a byte of a copy lies, with windows resolved (R239). -/
def State.copyVa (s : State) (c : Copy) (a : Int) : Except Bad Nat :=
  match s.shadowAt c.part c.asid (vaOf a) with
  | none => .ok (vaOf a)
  | some b => s.windowVa (s.copyVia c) c.part c.asid c.sys b (vaOf a)
/-- Bytes of scratch of the issuing team that a copy may use. -/
def State.copyScr (s : State) (c : Copy) : Nat :=
  match c.tag with
  | some t => (s.gangOf t).elim 0 (·.kobj.scrLen)
  | none => 0
/-- A byte's identity: scratch offset or physical address. -/
def State.copyPlace (s : State) (c : Copy) (scr : Bool) (a : Int) : Option (Bool × Nat) :=
  if scr then some (true, a.toNat)
  else match s.copyVa c a with
    | .ok va => match s.translate c.part c.asid va c.sys .read with | .ok pa _ => some (false, pa) | _ => none
    | .error _ => none
/-- Source bytes with their poison (R247). -/
def State.copyRead (s : State) (c : Copy) (a : Int) (n : Nat) : Except Bad (List BV) :=
  if c.fscr then
    match c.tag.bind s.team? with
    | some t =>
      if a < 0 ∨ a.toNat + n > s.copyScr c then .error (.prot a.toNat)
      else .ok ((List.range n).map (fun i => { b := t.scrByte s.free (a.toNat + i), bad := (t.scrBad (a.toNat + i) 1).isSome, und := false }))
    | none => .error (.prot a.toNat)
  else s.vreadBVs (s.copyVia c) c.part c.asid (vaOf a) n c.sys
/-- What reading them does on its way. -/
def State.copyTouch (s : State) (c : Copy) (a : Int) (n : Nat) : State :=
  if c.fscr then s else s.vtouch (s.copyVia c) c.part c.asid (vaOf a) n c.sys true
/-- What keeps destination bytes from being written, with the access kinds (R217). -/
def State.copyCheck (s : State) (c : Copy) (a : Int) (n : Nat) : List (Bad × Nat) :=
  if c.tscr then if a < 0 ∨ a.toNat + n > s.copyScr c then [(.prot a.toNat, kEngWrite)] else []
  else (s.vcheckK (s.copyVia c) c.part c.asid (vaOf a) n c.sys false).map (fun x => (x.1, x.2 ||| kEngine))
/-- Write destination bytes. -/
def State.copyWrite (s : State) (c : Copy) (bs : List (Nat × BV)) : State :=
  if c.tscr then match c.tag with | some t => (s.updTeam t (·.scrPut bs)).spoilBytes (bs.map (fun x => (.scratch t, x.1))) | none => s
  else (s.vwriteAll (s.copyVia c) c.part c.asid c.sys (bs.map (fun x => (x.1, 0, x.2)))).spoilBytes (bs.map (fun x => (.mem c.asid, x.1)))

/-- Is a destination byte also a source byte of the copy: then it holds an undefined value (R245)? -/
def State.copyOverlap (s : State) (c : Copy) (a : Int) : Bool :=
  c.tscr == c.fscr && (s.copyPlace c c.tscr a).isSome &&
    (List.range c.units).any (fun u => (List.range (c.src u).2).any (fun i =>
      s.copyPlace c c.fscr ((c.src u).1 + i) == s.copyPlace c c.tscr a))
/-- Has an earlier unit written the same byte through a higher element of the same window (R241)? -/
def State.copyHidden (s : State) (c : Copy) (u : Nat) (a : Int) : Bool :=
  !c.tscr && (s.winOf c.part c.asid (vaOf a)).isSome &&
    (List.range u).any (fun v => (List.range (c.dst v).2).any (fun i =>
      vaOf a < vaOf ((c.dst v).1 + i) && s.winOf c.part c.asid (vaOf ((c.dst v).1 + i)) == s.winOf c.part c.asid (vaOf a)
        && s.copyPlace c false ((c.dst v).1 + i) == s.copyPlace c false a))

/-- Source element as a number (R232). -/
def Copy.elem (c : Copy) (bs : List Byte) : Num :=
  let x : Word := BitVec.ofNat 32 (ofBytes bs)
  if bit c.ctl 12 then .fin (x.toInt < 0) x.toInt.natAbs 0 else f32 x
/-- What a unit writes, and its flags (R245, R247): the bits of a poisoned word hold unspecified values. -/
def Copy.out (c : Copy) (free : Nat) (bs : List BV) (dst : Int) : List BV × BitVec 8 :=
  let word (k : Nat) : Int := (dst + k) / 4
  let any (k : Nat) : Byte := (Config.freeWord free 901 k).setWidth 8
  if c.sf = 16 then
    let badWords := (bs.zipIdx.filter (·.1.bad)).map (fun x => word x.2)
    (bs.zipIdx.map (fun x => if badWords.contains (word x.2) then { b := any x.2, bad := true, und := false } else x.1), 0)
  else
    let r (i : Nat) : FR := toCode c.sf (c.elem ((bs.drop (4 * i)).take 4 |>.map (·.b)))
    let w := fmtWidth c.sf
    let badEl (i : Nat) : Bool := ((bs.drop (4 * i)).take 4).any (·.bad)
    let badWords := ((List.range 32).filter badEl).flatMap (fun i => (List.range w).map (fun j => word ((i * w + j) / 8)))
    ((packCodes w ((List.range 32).map (fun i => (r i).x))).zipIdx.map (fun x =>
        if badWords.contains (word x.2) then { b := any x.2, bad := true, und := false } else BV.of x.1),
      (List.range 32).foldl (fun f i => if badEl i then f else f ||| (r i).fl) 0)

/-- One unit of a copy: the state with the unit done, or why it stops. -/
def State.copyUnit (s : State) (c : Copy) : Except BadK (State × Copy) :=
  let sr := c.src c.pos
  let ds := c.dst c.pos
  match s.copyRead c sr.1 sr.2 with
  | .error (.fault ps) => .error (.pages (ps.map (·, kEngRead)))
  | .error e => .error (.trap e)
  | .ok bs =>
    match worstK (s.copyCheck c ds.1 ds.2) with
    | some e => .error e
    | none =>
      let o := c.out s.free bs ds.1
      let ws := (o.1.zipIdx.filter (fun x => !s.copyHidden c c.pos (ds.1 + x.2))).map (fun x =>
        (if c.tscr then (ds.1 + x.2).toNat else vaOf (ds.1 + x.2),
          if s.copyOverlap c (ds.1 + x.2) then { b := (Config.freeWord s.free 900 (c.pos + x.2)).setWidth 8, bad := x.1.bad, und := true } else x.1))
      let s := (s.copyTouch c sr.1 sr.2).copyWrite c ws
      .ok ({ s with free := s.free + 1 }, { c with pos := c.pos + 1, poisoned := c.poisoned || bs.any (·.bad), flags := c.flags ||| o.2 })

/-- Replace a running copy. -/
def State.setCopy (s : State) (c : Copy) : State := { s with copies := s.copies.map (fun x => if x.id = c.id then c else x) }
/-- A page fault of a copy holds it (R247). -/
def State.copyHold (s : State) (c : Copy) (ps : FaultPages) : State :=
  let r := s.enterFaultsK c.part c.asid ps [0]
  r.1.setCopy { c with holds := r.2 }
/-- The data part, from where it stands: to its end, a protection cause, or a page fault that holds it. (DEDUCED: entry 39.) -/
def State.copyRun : Nat → State → Copy → State × Copy
  | 0, s, c => (s, { c with fin := some (if c.poisoned then 9 else 0) })
  | n + 1, s, c =>
    match s.copyUnit c with
    | .ok (s, c) => s.copyRun n c
    | .error (.pages ps) => let s := s.copyHold c ps; (s, (s.copies.find? (·.id == c.id)).getD c)
    | .error _ => (s, { c with fin := some 8 })

/-- The copy has ended: its counter falls, its flags reach its wave; a copy record completes (R94, R246, R248). -/
def State.copyEnd (s : State) (c : Copy) (cstat : Nat) : State :=
  let s := { s with copies := s.copies.filter (·.id ≠ c.id) }
  match c.tag, c.grid with
  | some t, _ => s.updWave t c.wave (fun wv =>
      { wv with ev := (match c.ev with | some n => sset 0 wv.ev n (wv.evr n - 1) | none => wv.ev), fflags := wv.fflags ||| c.flags.setWidth 64 })
  | none, some g =>
    match s.grid? g with
    | none => s
    | some gr =>
      let m := Config.energy s.free
      let s := { s with free := s.free + 1 }
      let s := (s.updGrid g (fun g => { g with fin := true })).updPart c.part (fun q => q.setBal (q.bal + gr.lrec.est.toNat - m))
      if gr.parent.isSome then (s.gridRetire gr).afterEnd
      else s.updPart c.part (fun q => { q with compl := q.compl ++
          [{ lrec := gr.lrec, queue := gr.queue, asid := gr.asid, status := 0, cause := 0, cstat := cstat, energy := m, stage := 0 }] })
  | none, none => s
/-- Write `STATUS`, a release at .dev (Table 14.1), and complete; or wait for its page (R246, R247). -/
def State.copyStatus (s : State) (c : Copy) (st : Nat) : State :=
  match worstK (s.vcheckK (s.copyVia c) c.part c.asid (c.desc + 0x3C) 4 c.sys true) with
  | some (.pages ps) => s.copyHold c (ps.map (fun x => (x.1, x.2 ||| kEngine)))
  | some _ => s.copyEnd c 8
  | none =>
    (((s.release (s.copyVia c).core Scope.dev.rank).vwrite (s.copyVia c) c.part c.asid (c.desc + 0x3C) c.sys (toBytes 4 st)).spoilBytes
      ((List.range 4).map (fun i => (.mem c.asid, c.desc + 0x3C + i)))).copyEnd c st
/-- A copy that runs: its data, then its status. -/
def State.copyGo (s : State) (c : Copy) : State :=
  match c.fin with
  | some st => s.copyStatus c st
  | none =>
    if c.bad then (s.setCopy { c with fin := some 1 }).copyStatus { c with fin := some 1 } 1
    else
      let r := s.copyRun (c.units - c.pos) c
      match r.2.fin with
      | some st => (r.1.setCopy r.2).copyStatus r.2 st
      | none => r.1
/-- COPY_COMPLETE (R246 to R248): the bytes are written and the copy completes, or a page fault holds it. (DEDUCED: entry 39.) -/
def execCopyComplete (id : Nat) (s : State) : Outcome State Fault Refusal :=
  match s.copies.find? (·.id == id) with
  | none => .refused (.notEnabled "COPY_COMPLETE")
  | some c =>
    if c.holds ≠ [] then .refused (.notEnabled "COPY_COMPLETE")
    else if c.bytes = [] then
      match s.vread .agent c.part c.asid c.desc 128 c.sys with
      | .error (.fault ps) => .next (s.copyHold c (ps.map (·, kEngRead)))
      | .error _ => .next (s.copyEnd c 8)
      | .ok bs => .next ((s.vtouch .agent c.part c.asid c.desc 128 c.sys true).copyGo { c with bytes := bs })
    else .next (s.copyGo c)
/-- CPY at commit step 4 (R249): the copy starts, counted where it was. -/
def State.cpyPerform (s : State) (t : Team) (w : Nat) (e : EndOp) (bs : List Byte) (sys : Bool) : State :=
  if e.lanes = 0 then s
  else
    let ev := ((s.wave? t.tag w).bind (·.pend? e.iss)).bind (·.ev)
    let c : Copy := { id := e.iss, desc := (e.x.headD 0).toNat, bytes := bs, asid := t.asid, part := t.part, sys := sys, tag := some t.tag
                      wave := w, ev := ev, pos := 0, poisoned := false, flags := 0, fin := none, grid := none, holds := [] }
    { s.updWave t.tag w (fun wv => { wv with pend := wv.pend.filter (·.id ≠ e.iss) }) with copies := s.copies ++ [c] }

/-! ### Access programs (R41, R250 to R256) -/

/-- FREE(n) (R250). -/
def Team.freeQ (t : Team) (k : KObj) (n : Nat) : Nat := k.qdepth - (t.aq.q.getD n []).length
/-- Is a stream fed? -/
def KObj.fed (k : KObj) (n : Nat) : Bool := k.qmask.getLsbD n
/-- Iterations of the program. -/
def KObj.iters (k : KObj) : Nat := (k.trips.take k.aloops).foldl (· * ·) 1
/-- AQSTART (R255). -/
def execAqstart (h : Hdr) (d : Opd) (ev : Option (BitVec 3)) (s : State) : Outcome State Fault Refusal :=
  issue (.aqstart h d ev) s (fun c s =>
    if c.lanes = 0 then .ok s
    else if c.gg.kobj.aloops = 0 then .ok (s.done c d 2)
    else if !c.tm.aqIdle c.gg.kobj then .ok (s.done c d 1)
    else
      let base := c.gg.kobj.streams.map (fun st => c.s st.sbase)
      let s := s.updTeam c.tag (fun t => { t with aq := { run := true, it := 0, ns := 0, base := base, q := List.replicate 8 [] } })
      .ok ((s.updRun c (fun r => { r with aqStart := true })).done c d 0))
/-- AQSTOP (R256): stops the program at commit step 3. -/
def execAqstop (h : Hdr) (d : Opd) (ev : Option (BitVec 3)) (s : State) : Outcome State Fault Refusal :=
  issue (.aqstop h d ev) s (fun c s =>
    if c.lanes = 0 then .ok s
    else .ok ((s.updRun c (fun r => { r with aqStop := true })).done c d (if c.tm.aq.run then 0 else 3)))
/-- AQSTOP.qry (R256). -/
def execAqstopQry (h : Hdr) (d a : Opd) (ev : Option (BitVec 3)) (s : State) : Outcome State Fault Refusal :=
  issue (.aqstopQry h d a ev) s (fun c s =>
    if c.lanes = 0 then .ok s
    else
      let n := (c.sc a).toNat
      .ok (s.done c d (if c.gg.kobj.fed n then BitVec.ofNat 32 (c.tm.freeQ c.gg.kobj n) else 0xFFFFFFFF)))

/-- Index of loop `j` in iteration `it`, i0 varying fastest (R250). -/
def KObj.ixAt (k : KObj) (it j : Nat) : Nat := it / ((k.trips.take j).foldl (· * ·) 1) % max (k.trips.getD j 1) 1
/-- addr(n, l) of R41. -/
def KObj.streamAddr (k : KObj) (st : Stream) (base : DWord) (it l : Nat) : Nat :=
  let a : Int := (List.range k.aloops).foldl (fun a j => a + k.ixAt it j * st.stride.getD j 0) (base.toNat + l * st.lstride)
  (BitVec.ofInt 64 a).toNat
/-- Does the fetch of a lane go through (R251, R252)? -/
def State.streamGoes (s : State) (t : Team) (esz va : Nat) : Bool := va % esz = 0 && s.runAhead (t.via .core) t.part t.asid va esz t.sys
/-- One fetched lane: its word, or none where it is deferred (R251, R252). -/
def State.streamLane (s : State) (t : Team) (esz va : Nat) : Option Word :=
  if s.streamGoes t esz va then
    match s.readBy (t.via .core) t.part t.asid va esz t.sys .read with
    | .ok bs => some (BitVec.ofNat 32 (ofBytes bs))
    | .error _ => none
  else none
/-- What the fetches of an entry do on their way; they count in no counter (R218, R222). -/
def State.streamTouch (s : State) (t : Team) (esz : Nat) (addrs : List Nat) : State :=
  addrs.foldl (fun s va => if s.streamGoes t esz va then s.touch (t.via .core) t.part t.asid va esz t.sys .read false else s) s
/-- The stream that pushes next, from `n` on. -/
def KObj.nextFed (k : KObj) (n : Nat) : Option Nat := ((List.range 8).filter (fun j => n ≤ j && k.fed j)).head?
/-- May the program of a team push now (R250)? -/
def Team.mayPush (t : Team) (k : KObj) : Bool := t.aq.run && (k.nextFed t.aq.ns).any (fun n => t.freeQ k n > 0)
/-- Push the entries of the iteration, stream by stream, as far as there is room. -/
def State.pushes (tag : Nat) (k : KObj) : Nat → State → State
  | 0, s => s
  | fuel + 1, s =>
    match s.team? tag with
    | none => s
    | some t =>
      match k.nextFed t.aq.ns with
      | none =>
        s.updTeam tag (fun t => { t with aq := { t.aq with it := t.aq.it + 1, ns := 0, run := t.aq.it + 1 < k.iters } })
      | some n =>
        if t.freeQ k n = 0 then s
        else
          match k.streams[n]? with
          | none => s
          | some st =>
            let addrs := byLane (fun l => k.streamAddr st (t.aq.base.getD n 0) t.aq.it l)
            let e : QEnt := { id := s.nextId, words := addrs.map (s.streamLane t st.esz), addrs := addrs, popped := false, bad := 0, rids := [], redo := [] }
            let s := s.streamTouch t st.esz addrs
            let s := { s.updTeam tag (fun t => { t with aq := { t.aq with ns := n + 1, q := t.aq.q.set n (t.aq.q.getD n [] ++ [e]) } }) with
                       nextId := s.nextId + 1 }
            s.pushes tag k fuel
/-- STREAM_PUSH (R250 to R252). -/
def execStreamPush (tag : Nat) (s : State) : Outcome State Fault Refusal :=
  match s.team? tag, s.gangOf tag with
  | some t, some g =>
    if s.placed t && !t.retired && t.mayPush g.kobj then .next (s.pushes tag g.kobj 9)
    else .refused (.notEnabled "STREAM_PUSH")
  | _, _ => .refused (.notEnabled "STREAM_PUSH")

/-! ### Commit step 3 of a run, for the address engine -/

/-- Free the entries that every run has committed (R36, R250). -/
def Aq.commit (a : Aq) (rid : Nat) : Aq :=
  { a with q := a.q.map (fun q => (q.map (fun (e : QEnt) => { e with rids := e.rids.filter (· ≠ rid) })).filter
      (fun e => !(e.popped && e.rids == [] && e.redo == []))) }
/-- Bindings reserved by a run become bindings, and lines of their ranges go; those it frees go (R242, R243); the program
stops if the run holds AQSTOP (R256). -/
def State.engineCommit (s : State) (t : Team) (r : Region) : State :=
  let bs := (s.part t.part).shadows.filter (·.resBy == some r.rid)
  let s := s.dropLines (fun l => !l.byPa && l.asid == t.asid && bs.any (fun b => l.va + 256 > b.base && l.va < b.base + b.len))
  let s := s.updPart t.part (fun p => { p with shadows := (p.shadows.filter (·.leaving ≠ some r.rid)).map (fun b =>
    if b.resBy = some r.rid then { b with resBy := none } else b) })
  s.updTeam t.tag (fun t =>
    let aq := t.aq.commit r.rid
    { t with aq := if r.aqStop then { aq with run := false } else aq })

end Sys2Proof.Machine
end

