-- ==== Sys2Proof/Machine/Quant.lean ====
section
/-! DEFINITION. Sys2Proof/Machine/Quant.lean: QST, which quantises a block, elects outliers and keeps the leat list
(11_narrow.md R272 to R275). -/
namespace Sys2Proof.Machine
open Host (Outcome)

/-- Bytes that a pending operation stores at a place, as .core stores. -/
def Pend.bufs (q : Pend) (eng : Bool) (sp : Space) (a : Nat) (bs : List Byte) : List BufW :=
  bs.zipIdx.map (fun x => { sp := sp, a := a + x.2, b := x.1, site := q.site, iss := q.id, lane := lowest q.lanes, lanes := q.lanes, sc := .core
                            pol := .normal, rel := false, eng := eng, und := false, lost := false })
/-- What adding stores to a run from an engine gives: a trap, a wait, or the state. -/
def State.bufferEng (s : State) (t : Team) (w rid : Nat) (bs : List BufW) : Except Stop State :=
  match s.wave? t.tag w, (s.wave? t.tag w).bind (fun wv => wv.regions.find? (·.rid == rid)) with
  | none, _ | _, none => .ok s
  | some wv, some r =>
    let n := ({ r with stores := r.stores ++ bs } : Region).lines.length
    if n > 64 then .error (.trap 0x11 0)
    else if s.linesShort t.core wv [(r.rid, n - r.lines.length)] then .error .wait
    else .ok ((s.updWave t.tag w (·.addStores r.sl bs)).spoilBytes (bs.map (fun b => (b.sp, b.a))))

/-- A QST that has been issued: format, mode, parameters and addresses. -/
structure QstForm where
  f : Nat
  mode : QMode
  blk : Nat
  list : Nat
  par : Nat
  deriving DecidableEq, Repr
def QstForm.thr (q : QstForm) : Word := BitVec.ofNat 32 (bits q.par 0 32)
def QstForm.scl (q : QstForm) : Nat := bits q.par 32 8
def QstForm.row (q : QstForm) : Nat := bits q.par 40 5
def QstForm.kb (q : QstForm) : Nat := bits q.par 45 2
def QstForm.sideB (q : QstForm) : Bool := bit q.par 47

/-- q(l): the element scaled exactly (R273). -/
def QstForm.q (q : QstForm) (x : Word) : Num :=
  match f32 x with
  | .fin s m e => .fin s m (e + 127 - q.scl)
  | y => y
def Num.abs : Num → Num
  | .fin _ m e => .fin false m e
  | .inf _ => .inf false
  | x => x
/-- Is an element elected (R273)? -/
def QstForm.elected (q : QstForm) (x : Word) : Bool :=
  let v := q.q x
  q.mode ≠ .none && !v.isNan &&
    ((q.thr.getLsbD 31 = false && q.thr ≠ 0 && bits q.thr.toNat 23 8 ≠ 255 && v.abs.cmp (f32 q.thr) ≥ 0) || outOfRange q.f v)
/-- The FP16 value of an entry, saturated at ±65,504 (R273). -/
def leatVal (v : Num) : FR :=
  match v with
  | .inf s => { x := fp16.sign s 0x7BFF, fl := fOF ||| fNX }
  | .fin s _ _ =>
    let r := v.round fp16 0
    if bits r.x 10 5 = 31 then { x := fp16.sign s 0x7BFF, fl := fOF ||| fNX } else { x := r.x, fl := r.fl &&& fNX }
  | .nan _ => { x := 0, fl := 0 }

/-- Insert an element by falling |q|, ties to the lower lane. -/
def insertMag (f : Nat → Num) (l : Nat) : List Nat → List Nat
  | [] => [l]
  | x :: r => if (f l).abs.cmp (f x).abs > 0 then l :: x :: r else x :: insertMag f l r
/-- Insert an entry in the order of R268. -/
def insertLeat (e : Leat) : List Leat → List Leat
  | [] => [e]
  | x :: r => if e.row < x.row ∨ (e.row = x.row ∧ e.k < x.k) then e :: x :: r else x :: insertLeat e r

/-- What QST writes: the block, the entries, the status and the flags; none where the list overflows (R274). -/
def QstForm.result (q : QstForm) (cap : Nat) (old : List Leat) (m : Lanes) (x : Nat → Word) :
    Option (List Byte × List Leat × Word × BitVec 8) :=
  let lo := 32 * q.kb
  let keep := old.filter (fun e => !(e.row == q.row && lo ≤ e.k && e.k < lo + 32))
  let cand := (lanesOf m).filter (fun l => q.elected (x l))
  let room := cap - keep.length
  if cand.length > room ∧ q.mode = .fault then none
  else
    let byMag := cand.foldl (fun a l => insertMag (fun l => q.q (x l)) l a) []
    let new := if cand.length > room then cand.filter (byMag.take room).contains else cand
    let dropped := cand.length - new.length
    let code (l : Nat) : FR :=
      if !m.getLsbD l then { x := 0, fl := 0 }
      else if new.contains l then { x := escOf q.f, fl := (leatVal (q.q (x l))).fl }
      else toCode q.f (q.q (x l))
    let entry (l : Nat) : Leat := { row := q.row, k := lo + l, val := (leatVal (q.q (x l))).x }
    some (packCodes (fmtWidth q.f) (byLane (fun l => (code l).x)), new.foldl (fun a l => insertLeat (entry l) a) keep,
      BitVec.ofNat 32 (new.length + 256 * dropped),
      (lanesOf m).foldl (fun f l => f ||| (code l).fl) (if dropped > 0 then fQCL else 0))

/-- QST (R272 to R275): the checks of its operands at issue, the rest when the list has been read. -/
def execQst (h : Hdr) (d a b c : Opd) (f : BitVec 5) (mode : QMode) (ev : Option (BitVec 3)) (s : State) :
    Outcome State Fault Refusal :=
  issue (.qst h d a b c f mode ev) s (fun x s =>
    if x.lanes = 0 then .ok s
    else
      let n := match a with | .s n => n.toNat | _ => 0
      let q : QstForm := { f := f.toNat, mode := mode, blk := (x.s n).toNat, list := (x.s (n + 1)).toNat, par := (x.sc b).toNat }
      if q.blk % 8 ≠ 0 then .error (.trap 0x06 q.blk)
      else if q.list % 8 ≠ 0 then .error (.trap 0x06 q.list)
      else if q.scl = 255 ∨ bits q.par 48 16 ≠ 0 ∨ (q.sideB ∧ q.row > 15) then .error (.trap 0x13 0)
      else .ok (s.start x { x.pend (.qst h d a b c f mode ev) [x.ownRid] with
        x := [BitVec.ofNat 64 q.blk, BitVec.ofNat 64 q.list, BitVec.ofNat 64 q.par], y := byLane (fun l => (x.w32 c l).setWidth 64) }))
/-- The form of a pending QST. -/
def Pend.qst (q : Pend) : Option QstForm :=
  match q.instr with
  | .qst _ _ _ _ _ f mode _ => some { f := f.toNat, mode := mode, blk := (q.x.getD 0 0).toNat, list := (q.x.getD 1 0).toNat, par := (q.x.getD 2 0).toNat }
  | _ => none
def Pend.dst (q : Pend) : Opd :=
  match q.instr with
  | .qst _ d _ _ _ _ _ _ => d
  | _ => .zero

/-- A failed read of an engine in a run: page fault of its slice, or a trap at its word. -/
def State.engBad (s : State) (tag w : Nat) (wv : Wave) (q : Pend) (kinds : Nat) : Bad → State
  | .fault ps => s.pageFault tag w [((wv.regions.find? (·.rid == q.rids.headD 0)).map (·.sl)).getD 0] ps kinds
  | e => s.pendTrap tag w wv q e.code e.addr

/-- The stores of a QST; bytes that the block and the list share hold undefined values (R274). -/
def QstForm.stores (q : QstForm) (p : Pend) (asid free cap : Nat) (blk : List Byte) (es : List Leat) : List BufW :=
  let head := es.length + cap * 2 ^ 16
  let lst := toBytes 8 head ++ es.flatMap (fun e => toBytes 4 e.word)
  let shared (a : Nat) : Bool := q.blk ≤ a && a < q.blk + blk.length && q.list ≤ a && a < q.list + 8 + 4 * cap
  (p.bufs false (.mem asid) q.blk blk ++ p.bufs false (.mem asid) q.list lst).map (fun x =>
    if shared x.a then { x with b := (Config.freeWord free 901 (x.a - q.blk)).setWidth 8, und := true } else x)

/-- QST_COMPLETE (R272 to R275). -/
def execQstComplete (tag w id : Nat) (s : State) : Outcome State Fault Refusal :=
  withPend "QST_COMPLETE" s tag w id (fun i => match i with | .qst _ _ _ _ _ _ _ _ => true | _ => false) (fun t wv p =>
    match p.qst with
    | none => s
    | some q =>
      let sys := t.sys || wv.handler
      let rid := p.rids.headD 0
      let kr (n : Nat) : Nat := s.readKind t.part t.asid q.list n
      match s.runRead t wv p rid q.list 8 sys with
      | .error e => s.engBad tag w wv p (kr 8) e
      | .ok hd =>
        match s.runRead t wv p rid q.list (leatSize hd) sys with
        | .error e => s.engBad tag w wv p (kr (leatSize hd)) e
        | .ok bs =>
          match leatList q.sideB bs with
          | none => s.pendTrap tag w wv p 0x0B 0
          | some (cap, old) =>
            match q.result cap old p.lanes (fun l => (p.y.getD l 0).setWidth 32) with
            | none => s.pendTrap tag w wv p 0x0A 0
            | some (blk, es, st, fl) =>
              match worstK (s.vcheckK (t.via .core) t.part t.asid q.blk blk.length sys false
                  ++ s.vcheckK (t.via .core) t.part t.asid q.list (8 + 4 * es.length) sys false) with
              | some (.pages ps) => s.pageFaultK tag w [((wv.regions.find? (·.rid == rid)).map (·.sl)).getD 0] ps
              | some (.trap e) => s.engBad tag w wv p kWrite e
              | none =>
                match (s.runTouch t q.list (leatSize hd) sys).bufferEng t w rid (q.stores p t.asid s.free cap blk es) with
                | .error (.trap cause a) => s.pendTrap tag w wv p cause a
                | .error _ => s
                | .ok s => s.finishPend tag w p (wr1 p.lanes p.dst (fun _ => st)) fl)

end Sys2Proof.Machine
end

