-- ==== Sys2Proof/Machine/Matrix.lean ====
section
/-! DEFINITION. Sys2Proof/Machine/Matrix.lean: the matrix engine (12_matrix.md R277 to R302): B latch, exact pass sums, MRES,
the Hadamard transform and the tile walk. -/
namespace Sys2Proof.Machine
open Host (Outcome)

/-! ### Accumulators -/

def Acc.zero : Acc := { cls := .fin, x := 0 }
def accKey (bank : Bool) (l n : Nat) : Nat := (if bank then 512 else 0) + 16 * l + n
def Wave.accAt (wv : Wave) (bank : Bool) (l n : Nat) : Acc := sget Acc.zero wv.acc (accKey bank l n)
/-- Keep, in the run of each lane's slice, what an accumulator held when the run began (R278). (DEDUCED: entry 40.) -/
def Region.keepAcc (r : Region) (wv : Wave) (ks : List (Nat × Nat)) : Region :=
  { r with undo := { r.undo with acc := ks.foldl (fun u x =>
      if x.1 / 4 = r.sl ∧ (shas u x.2).isNone then sput u x.2 (sget Acc.zero wv.acc x.2) else u) r.undo.acc } }
/-- Write accumulators of lanes, by (lane, key, value), undoably. -/
def Wave.putAccs (wv : Wave) (xs : List (Nat × Nat × Acc)) : Wave :=
  { wv with regions := wv.regions.map (·.keepAcc wv (xs.map (fun x => (x.1, x.2.1))))
            acc := xs.foldl (fun a x => sset Acc.zero a x.2.1 x.2.2) wv.acc }
/-- Run `rid` changes the B descriptor, or sets a walk, undoably (R278). -/
def Wave.putBDesc (wv : Wave) (rid : Nat) (d : Option BDesc) : Wave := { wv with bdescs := jSet wv.bdescs rid d }
def Wave.putWalk (wv : Wave) (rid : Nat) (k : Walk) : Wave := { wv with walks := jSet wv.walks rid k }
/-- Run `rid` takes a tile of the walk, undoably (R302). -/
def Wave.takeTile (wv : Wave) (rid : Nat) (x : Nat × Nat × Nat) : Wave :=
  { wv with walks := match wv.walks with | [] => [] | k :: r => (k.1, { k.2 with gone := (rid, x) :: k.2.gone }) :: r }

/-! ### Engine reads (R279) -/

/-- How the engine reads memory: at the scope of the wave's last MFENCE (R280, Table 14.1). -/
def Wave.engVia (wv : Wave) (t : Team) : Via := t.via (wv.mfence.getD .core)
/-- Bytes read by an engine, each with its poison: memory outside any window, or scratch of the team; never a buffered store. -/
def State.engBVs (s : State) (v : Via) (t : Team) (lim : Nat) (scr : Bool) (a n : Nat) (sys : Bool) : Except Bad (List BV) :=
  if scr then
    if a + n > lim then .error (.prot a)
    else .ok ((List.range n).map (fun i => { b := t.scrByte s.free (a + i), bad := (t.scrBad (a + i) 1).isSome, und := false }))
  else if s.inWindow t.part t.asid a n then .error (.prot a)
  else s.readBVs v t.part t.asid a n sys .read
/-- The same; a poisoned byte is a failure. -/
def State.engRead (s : State) (v : Via) (t : Team) (lim : Nat) (scr : Bool) (a n : Nat) (sys : Bool) : Except Bad (List Byte) :=
  (s.engBVs v t lim scr a n sys).bind (clean a)
/-- What such a read does on its way. -/
def State.engTouch (s : State) (v : Via) (t : Team) (scr : Bool) (a n : Nat) (sys : Bool) : State :=
  if scr then s else s.touch v t.part t.asid a n sys .read true
/-- A failed engine read in a wave: the page fault of the slices concerned, or a trap at the instruction's word. -/
def State.engStop (s : State) (tag w : Nat) (t : Team) (wv : Wave) (q : Pend) (scr : Bool) : Bad → State
  | .fault ps => s.pageFault tag w ((wv.regions.filter (fun r => q.rids.contains r.rid)).map (·.sl)) ps kEngRead
  | .poison a => s.pendTrap tag w wv q (if scr then (t.scrBad a 1).getD 0x09 else 0x09) a
  | .prot a => s.pendTrap tag w wv q 0x08 a

/-- Code at (row or column, k) of a tile of format `f` (R266). -/
def tileCode (f : Nat) (codes : List Byte) (row k : Nat) : Nat :=
  let w := fmtWidth f
  codeAt w ((codes.drop ((4 * row + k / 32) * 4 * w)).take (4 * w)) (k % 32)
/-- Positions of the escapes among the rows and blocks named. -/
def escapes (f : Nat) (codes : List Byte) (rows : List Nat) (ks : List Nat) : List (Nat × Nat) :=
  if isLeat f then rows.flatMap (fun r => (ks.filter (fun k => tileCode f codes r k == escOf f)).map (fun k => (r, k))) else []
def ksOf (nkm : Nat) : List Nat := (List.range 128).filter (fun k => !bit nkm (k / 32))

/-- The entries of a list that has been read, for a tile of `sideB` (R268). -/
def latchList (sideB : Bool) (bs : List Byte) : List Leat := ((leatList sideB bs).map (·.2)).getD []

/-- Bytes of a list that its header says it takes up (R267). -/
def listLen (hd : List Byte) : Nat := 8 + 4 * bits (ofBytes hd) 16 8
/-- Read a B tile and its list, with every check of R292 in its order: bounds, protection and page faults of all that is read, then poison,
then the list. The latch, a failed read, or the malformed-list trap. -/
def State.readTile (s : State) (v : Via) (t : Team) (lim : Nat) (sys : Bool) (d : BDesc) : Except (Option Bad) (List Byte × List Byte) :=
  let rd (a n : Nat) : Except Bad (List BV) := s.engBVs v t lim d.scr a n sys
  let tile := rd d.tile (256 * fmtWidth d.fmt)
  let list : Except Bad (List BV) := match d.list with
    | none => .ok []
    | some la => (rd la 8).bind (fun hd => if hd.any (·.bad) then .ok hd else rd la (listLen (hd.map (·.b))))
  match allOk [tile, list] with
  | .error e => .error (some e)
  | .ok rs =>
    match clean d.tile (rs.getD 0 []), clean (d.list.getD 0) (rs.getD 1 []) with
    | .error e, _ => .error (some e)
    | _, .error e => .error (some e)
    | .ok codes, .ok bs =>
      if d.list.isNone then .ok (codes, [])
      else match leatList true bs with
        | none => .error none
        | some (_, es) =>
          if es.map (fun e => (e.row, e.k)) = escapes d.fmt codes (List.range 16) (List.range 128) then .ok (codes, bs) else .error none
/-- What reading them does on its way. -/
def State.tileTouch (s : State) (v : Via) (t : Team) (sys : Bool) (d : BDesc) (list : List Byte) : State :=
  let s := s.engTouch v t d.scr d.tile (256 * fmtWidth d.fmt) sys
  match d.list with | none => s | some la => s.engTouch v t d.scr la list.length sys

/-- The latch of an array: core and pipe (R13). -/
def State.latchOf (s : State) (core pipe : Nat) : Option Latch := s.latches.find? (fun x => x.core == core && x.pipe == pipe)
def State.setLatch (s : State) (x : Latch) : State :=
  { s with latches := x :: s.latches.filter (fun (y : Latch) => !(y.core == x.core && y.pipe == x.pipe)) }

/-! ### MLOADB -/

/-- MLOADB (R292): the descriptor is seen at once by later instructions (R278); the tile is read afterwards. -/
def execMloadb (h : Hdr) (a b : Opd) (f : BitVec 5) (scr : Bool) (ev : Option (BitVec 3)) (s : State) : Outcome State Fault Refusal :=
  issue (.mloadb h a b f scr ev) s (fun c s =>
    if c.lanes = 0 then .ok s
    else
      let la : Option Nat := match b with | .zero => none | o => some (c.sc o).toNat
      if isLeat f.toNat ≠ la.isSome then .error (.trap 0x13 0)
      else if (c.sc a).toNat % 8 ≠ 0 then .error (.trap 0x06 (c.sc a).toNat)
      else if la.any (· % 8 ≠ 0) then .error (.trap 0x06 (la.getD 0))
      else
        let d : BDesc := { asid := c.tm.asid, scr := scr, tile := (c.sc a).toNat, fmt := f.toNat, list := la }
        .ok ((s.onWave c (·.putBDesc c.ownRid (some d))).start c
          { c.pend (.mloadb h a b f scr ev) [c.ownRid] with x := [c.sc a, BitVec.ofNat 64 (la.getD 0)], y := [if la.isSome then 1 else 0] }))
/-- Is a matrix operation of the same wave or pipe that must come first still pending (R290)? -/
def State.engFirst (s : State) (t : Team) (wv : Wave) (id : Nat) : Bool :=
  (s.teams.filter (fun u => u.core == t.core && !u.retired && s.placed u)).any (fun u => u.waves.any (fun x => x.pipe == wv.pipe &&
    x.pend.any (fun q => q.id < id && (match q.instr with | .mma _ _ _ _ _ _ => true | .mloadb _ _ _ _ _ _ => x.ix == wv.ix && u.tag == t.tag | _ => false))))
/-- The kernel's scratch length for a team. -/
def State.scrLim (s : State) (t : Team) : Nat := (s.gang? t.gid).elim 0 (·.kobj.scrLen)
/-- MLOADB_COMPLETE (R292): the latch holds the reading. -/
def execMloadbComplete (tag w id : Nat) (s : State) : Outcome State Fault Refusal :=
  withPend "MLOADB_COMPLETE" s tag w id (fun i => match i with | .mloadb _ _ _ _ _ _ => true | _ => false) (fun t wv q =>
    match q.instr with
    | .mloadb _ _ _ f scr _ =>
      let d : BDesc := { asid := t.asid, scr := scr, tile := (q.x.getD 0 0).toNat, fmt := f.toNat
                         list := if q.y.getD 0 0 = 1 then some (q.x.getD 1 0).toNat else none }
      let sys := t.sys || wv.handler
      match s.readTile (wv.engVia t) t (s.scrLim t) sys d with
      | .error (some e) => s.engStop tag w t wv q scr e
      | .error none => s.pendTrap tag w wv q 0x0B 0
      | .ok (codes, l) =>
        ((s.tileTouch (wv.engVia t) t sys d l).setLatch { core := t.core, pipe := wv.pipe, desc := d, codes := codes, list := l }).finishPend tag w q [] 0
    | _ => s)

/-! ### MMA -/

/-- The fields of an A descriptor (Table 12.6). -/
structure ADesc where
  lv : Bool
  list : Nat
  fmt : Nat
  tile : Nat
  bad : Bool
  deriving DecidableEq, Repr
def ADesc.of (d : Nat) : ADesc :=
  { lv := bit d 63, list := bits d 32 19, fmt := bits d 24 5, tile := bits d 0 19
    bad := bits d 51 12 ≠ 0 || bits d 29 3 ≠ 0 || bits d 19 5 ≠ 0 }
/-- Is a pair of formats permitted (R282)? -/
def pairOk (a b : Nat) : Bool :=
  ((baseOf a == 15) == (baseOf b == 15)) && !(baseOf a == 5 && (baseOf b == 5 || baseOf b == 2)) && !(baseOf b == 5 && baseOf a == 2)

/-- Does an MMA, MRES or MZERO touch a bank with an MMA pending and not covered (R281)? -/
def Ctx.mBusy (c : Ctx) (bank : Bool) : Bool :=
  c.b.chk && c.wv.mopen.any (fun e => e.bank == bank && !e.covered && c.wv.pend.any (·.id == e.id))
/-- An MMA, MRES or MZERO on lanes whose MMA is still open spoils what that MMA writes (R281). -/
def overlaps (bank : Bool) (m : Lanes) (e : MOpen) : Bool := e.bank == bank && !e.covered && e.lanes &&& m ≠ 0

/-- Lanes that take part: active, with a row index (R289). -/
def Ctx.rowLanes (c : Ctx) (b : Opd) : Lanes := lanesWhere (fun l => c.lanes.getLsbD l && c.w32 b l ≠ 0xFFFFFFFF)
/-- Bytes that the B tile and lists of an MMA take up (R281). -/
def State.mmaRange (s : State) (c : Ctx) (a : ADesc) (d : BDesc) : List (Space × Nat × Nat) :=
  let capOf (r : Except Bad (List Byte)) : Nat := match r with | .ok bs => bits (ofBytes bs) 16 8 | .error _ => 0
  let lim := c.gg.kobj.scrLen
  let sp : Space := if d.scr then .scratch c.tag else .mem d.asid
  [(.scratch c.tag, a.tile, 512 * fmtWidth a.fmt), (sp, d.tile, 256 * fmtWidth d.fmt)]
    ++ (if a.lv then [(.scratch c.tag, a.list, 8 + 4 * capOf (s.engRead (c.wv.engVia c.tm) c.tm lim true a.list 8 c.sys))] else [])
    ++ (match d.list with | some la => [(sp, la, 8 + 4 * capOf (s.engRead (c.wv.engVia c.tm) c.tm lim d.scr la 8 c.sys))] | none => [])
/-- MMA (R293): the checks of its operands at issue; rows and descriptor are kept. -/
def execMma (h : Hdr) (a b : Opd) (nkm : BitVec 4) (bank : Bool) (ev : Option (BitVec 3)) (s : State) : Outcome State Fault Refusal :=
  issue (.mma h a b nkm bank ev) s (fun c s =>
    if c.lanes = 0 then .ok s
    else if c.mBusy bank then .error (.trap 0x03 0)
    else
      let d := ADesc.of (c.sc a).toNat
      match c.wv.bdesc with
      | none => .error (.trap 0x13 0)
      | some bd =>
        if d.bad || isLeat d.fmt != d.lv || !pairOk d.fmt bd.fmt then .error (.trap 0x13 0)
        else if d.tile % 8 ≠ 0 then .error (.trap 0x06 d.tile)
        else if d.lv && d.list % 8 ≠ 0 then .error (.trap 0x06 d.list)
        else if d.tile + 512 * fmtWidth d.fmt > c.gg.kobj.scrLen then .error (.trap 0x08 d.tile)
        else if (lanesOf c.lanes).any (fun l => (c.w32 b l).toNat > 31 && c.w32 b l ≠ 0xFFFFFFFF) then .error (.trap 0x08 0)
        else
          let m := c.rowLanes b
          let spoils := (c.wv.mopen.filter (overlaps bank m)).foldl (fun (x : Lanes) e => x ||| e.lanes) 0 &&& m
          let s := s.onWave c (·.spoil c.free (overlaps bank m))
          let e : MOpen := { id := c.iss, rids := c.rids, bank := bank, lanes := m, regs := a.regs 1 1 ++ b.regs 1 1, rng := s.mmaRange c d bd
                             covered := false, spoilt := spoils }
          let s := s.onWave c (fun wv => { wv with mopen := wv.mopen ++ [e] })
          .ok (s.start c { c.pend (.mma h a b nkm bank ev) c.rids with
            x := [c.sc a, BitVec.ofNat 64 bd.asid, if bd.scr then 1 else 0, BitVec.ofNat 64 bd.tile, BitVec.ofNat 64 bd.fmt,
                  if bd.list.isSome then 1 else 0, BitVec.ofNat 64 (bd.list.getD 0)]
            y := byLane (fun l => (c.w32 b l).setWidth 64) }))

/-- The running total of a pass: exact terms with weight 2^−80, the classes met, and MFZ (R283 to R287). -/
structure PSum where
  x : Int
  nan : Bool
  pinf : Bool
  ninf : Bool
  mfz : Bool
  deriving DecidableEq, Repr
/-- Add one term. -/
def PSum.add (p : PSum) (t : Num) : PSum :=
  match t with
  | .nan _ => { p with nan := true }
  | .inf false => { p with pinf := true }
  | .inf true => { p with ninf := true }
  | .fin s m e =>
    if m = 0 then p
    else
      let e' := e + 80
      if 0 ≤ e' then let v : Int := ((m * 2 ^ e'.toNat : Nat) : Int); { p with x := p.x + (if s then -v else v) }
      else if m % 2 ^ (-e').toNat = 0 then
        let v : Int := ((m / 2 ^ (-e').toNat : Nat) : Int); { p with x := p.x + (if s then -v else v) }
      else { p with mfz := true }
/-- Accumulator and flags of a pass (R286, R287). -/
def PSum.acc (p : PSum) : Acc × BitVec 8 :=
  if p.nan || (p.pinf && p.ninf) then ({ cls := .nan, x := 0 }, 0)
  else if p.pinf then ({ cls := .pinf, x := 0 }, 0)
  else if p.ninf then ({ cls := .ninf, x := 0 }, 0)
  else
    let lim : Int := 2 ^ 127
    let z : BitVec 8 := if p.mfz then fMFZ else 0
    if p.x ≥ lim then ({ cls := .fin, x := BitVec.ofInt 128 (lim - 1) }, z ||| fMSAT)
    else if p.x ≤ -lim then ({ cls := .fin, x := BitVec.ofInt 128 (1 - lim) }, z ||| fMSAT)
    else ({ cls := .fin, x := BitVec.ofInt 128 p.x }, z)
/-- Value of a tile element: its code, or the entry at an escape (R269). -/
def tileVal (f : Nat) (codes : List Byte) (es : List Leat) (row k : Nat) : Num :=
  match codeVal f (tileCode f codes row k) with
  | some x => x
  | none => match es.find? (fun e => e.row == row && e.k == k) with
    | some e => Num.of fp16 e.val
    | none => .fin false 0 0
/-- S of a row and a column (R283), as one sum of exact terms: the order of the paths of R284 cannot be seen. -/
def passSum (av bv : Nat → Num) (ks : List Nat) : PSum :=
  ks.foldl (fun p k => p.add ((av k).mul (bv k))) { x := 0, nan := false, pinf := false, ninf := false, mfz := false }

/-- The form of a pending MMA. -/
structure MmaForm where
  ad : ADesc
  bd : BDesc
  nkm : Nat
  bank : Bool
  deriving DecidableEq, Repr
def Pend.mma (q : Pend) : Option MmaForm :=
  match q.instr with
  | .mma _ _ _ nkm bank _ =>
    let x (i : Nat) : Nat := (q.x.getD i 0).toNat
    some { ad := ADesc.of (x 0), nkm := nkm.toNat, bank := bank
           bd := { asid := x 1, scr := x 2 = 1, tile := x 3, fmt := x 4, list := if x 5 = 1 then some (x 6) else none } }
  | _ => none
def Pend.row (q : Pend) (l : Nat) : Nat := (q.y.getD l 0).toNat
/-- Lanes of a pending MMA that take part. (DEDUCED: entry 40.) -/
def Pend.mmaLanes (q : Pend) : List Nat := (lanesOf q.lanes).filter (fun l => q.row l ≠ 0xFFFFFFFF)

/-- Read what an MMA gathers from scratch: the included blocks of the rows named, and the A list up to COUNT (R269); none stands for the
malformed-list trap. The codes of blocks that are not read are zero. -/
def State.gatherA (s : State) (t : Team) (lim : Nat) (sys : Bool) (q : Pend) (m : MmaForm) : Except (Option Bad) (List Byte × List Leat) :=
  let w := fmtWidth m.ad.fmt
  let rows := (q.mmaLanes.map q.row).eraseDups
  let blk (j : Nat) : Except Bad (List Byte) :=
    if rows.contains (j / 4) && !bit m.nkm (j % 4) then s.engRead .agent t lim true (m.ad.tile + j * 4 * w) (4 * w) sys
    else .ok (List.replicate (4 * w) 0)
  match allOk ((List.range 128).map blk) with
  | .error e => .error (some e)
  | .ok bs =>
    let codes := bs.flatMap (fun x => x)
    if !m.ad.lv then .ok (codes, [])
    else match s.engRead .agent t lim true m.ad.list 8 sys with
      | .error e => .error (some e)
      | .ok hd =>
        match s.engRead .agent t lim true m.ad.list (leatSize hd) sys with
        | .error e => .error (some e)
        | .ok l =>
          match leatList false l with
          | none => .error none
          | some (_, es) =>
            let ks := ksOf m.nkm
            let mine := (es.filter (fun e => rows.contains e.row && ks.contains e.k)).map (fun e => (e.row, e.k))
            if mine = escapes m.ad.fmt codes ((List.range 32).filter rows.contains) ks then .ok (codes, es) else .error none

/-- The latch for an MMA: as it stands, or refilled from the descriptor (R290). -/
def State.latchFor (s : State) (t : Team) (wv : Wave) (sys : Bool) (d : BDesc) : Except (Option Bad) Latch :=
  match (if wv.relatch then none else s.latchOf t.core wv.pipe) with
  | some x => if x.desc = d then .ok x else
      (s.readTile (wv.engVia t) t (s.scrLim t) sys d).map (fun r => { core := t.core, pipe := wv.pipe, desc := d, codes := r.1, list := r.2 })
  | none => (s.readTile (wv.engVia t) t (s.scrLim t) sys d).map (fun r => { core := t.core, pipe := wv.pipe, desc := d, codes := r.1, list := r.2 })

/-- Accumulators of one lane, with the flags. -/
def mmaLane (m : MmaForm) (x : Latch) (a : List Byte) (al : List Leat) (row l : Nat) : List (Nat × Nat × Acc) × BitVec 8 :=
  let ks := ksOf m.nkm
  let bl := latchList true x.list
  let rs := (List.range 16).map (fun n =>
    (n, (passSum (tileVal m.ad.fmt a al row) (tileVal x.desc.fmt x.codes bl n) ks).acc))
  (rs.map (fun r => (l, accKey m.bank l r.1, r.2.1)), rs.foldl (fun f r => f ||| r.2.2) 0)

/-- MMA_COMPLETE (R289 to R293): the operations of a pipe complete in the order of their issue. -/
def execMmaComplete (tag w id : Nat) (s : State) : Outcome State Fault Refusal :=
  match s.team? tag, s.wave? tag w with
  | some t, some wv =>
    if s.engFirst t wv id then .refused (.notEnabled "MMA_COMPLETE")
    else withPend "MMA_COMPLETE" s tag w id (fun i => match i with | .mma _ _ _ _ _ _ => true | _ => false) (fun t wv q =>
      match q.mma with
      | none => s
      | some m =>
        let sys := t.sys || wv.handler
        match s.gatherA t (s.scrLim t) sys q m with
        | .error (some e) => s.engStop tag w t wv q true e
        | .error none => s.pendTrap tag w wv q 0x0B 0
        | .ok (a, al) =>
          match s.latchFor t wv sys m.bd with
          | .error (some e) => s.engStop tag w t wv q m.bd.scr e
          | .error none => s.pendTrap tag w wv q 0x0B 0
          | .ok x =>
            let rs := q.mmaLanes.map (fun l => mmaLane m x a al (q.row l) l)
            let spoilt : Lanes := ((wv.mopen.find? (·.id == q.id)).map (·.spoilt)).getD 0
            let accs := rs.flatMap (·.1)
            let accs := accs.map (fun y => if spoilt.getLsbD y.1 then (y.1, y.2.1, freeAcc s.free y.1 (y.2.1 % 16)) else y)
            let s := if !wv.relatch && s.latchOf t.core wv.pipe == some x then s else s.tileTouch (wv.engVia t) t sys m.bd x.list
            let s := (s.setLatch x).updWave tag w (fun wv => { wv.putAccs accs with relatch := false })
            s.finishPend tag w q [] (rs.foldl (fun f r => f ||| r.2) 0))
  | _, _ => .refused (.notEnabled "MMA_COMPLETE")

/-! ### MRES, MZERO, MFENCE, MWAIT -/

/-- An accumulator rounded to FP32 (R294). -/
def Acc.res (a : Acc) : FR :=
  match a.cls with
  | .nan => { x := 0x7FC00000, fl := fNV }
  | .pinf => { x := 0x7F800000, fl := 0 }
  | .ninf => { x := 0xFF800000, fl := 0 }
  | .fin => let v := a.x.toInt; if v = 0 then { x := 0, fl := 0 } else roundTo fp32 0 (v < 0) v.natAbs (-80)
/-- MRES (R294): the values are read and the accumulators cleared at issue; with an event counter they are written later. -/
def execMres (h : Hdr) (d : Opd) (g : BitVec 2) (bank : Bool) (ev : Option (BitVec 3)) (s : State) : Outcome State Fault Refusal :=
  issue (.mres h d g bank ev) s (fun c s =>
    if c.lanes = 0 then .ok s
    else if c.mBusy bank then .error (.trap 0x03 0)
    else
      let cols := (List.range 4).map (· + 4 * g.toNat)
      let open_ := c.wv.mopen.filter (overlaps bank c.lanes)
      let bad (l : Nat) : Bool := open_.any (fun e => e.lanes.getLsbD l)
      let r (j l : Nat) : FR := (c.wv.accAt bank l (4 * g.toNat + j)).res
      let ws := wrN c.lanes d 4 (fun j l => if bad l then (Config.freeWord c.free (710 + j) l).setWidth 32 else (r j l).word)
      let fl := (lanesOf c.lanes).foldl (fun f l => (List.range 4).foldl (fun f j => f ||| (r j l).fl) f) 0
      let s := s.onWave c (fun wv =>
        (wv.putAccs ((lanesOf c.lanes).flatMap (fun l => cols.map (fun n => (l, accKey bank l n, Acc.zero))))).spoil c.free (overlaps bank c.lanes))
      match ev with
      | none => .ok (s.result c (.mres h d g bank ev) ws fl)
      | some _ => .ok (s.start c { c.pend (.mres h d g bank ev) c.rids with
          wr := ws, flags := fl, lfl := byLane (fun l => (List.range 4).foldl (fun f j => f ||| (r j l).fl) 0) }))
/-- MRES_COMPLETE (R294). -/
def execMresComplete (tag w id : Nat) (s : State) : Outcome State Fault Refusal :=
  withPend "MRES_COMPLETE" s tag w id (fun i => match i with | .mres _ _ _ _ _ => true | _ => false) (fun _ _ q =>
    s.finishPend tag w q q.wr q.flags)
/-- MZERO (R297). -/
def execMzero (h : Hdr) (bank bd : Bool) (s : State) : Outcome State Fault Refusal :=
  issue (.mzero h bank bd) s (fun c s =>
    if c.lanes = 0 then .ok s
    else if c.mBusy bank then .error (.trap 0x03 0)
    else .ok (s.onWave c (fun wv =>
      let wv := (wv.putAccs ((lanesOf c.lanes).flatMap (fun l => (List.range 16).map (fun n => (l, accKey bank l n, Acc.zero))))).spoil
        c.free (overlaps bank c.lanes)
      let wv := { wv with accBad := wv.accBad.filter (fun k => !(decide (512 ≤ k) == bank && c.lanes.getLsbD (k % 512 / 16))) }
      if bd then wv.putBDesc c.ownRid none else wv)))
/-- The slice whose run MFENCE acts in (R463); with no active thread, that of the bundle's lowest lane. (DESIGN CHOICE: entry 15.) -/
def Ctx.fenceSlice (c : Ctx) : Nat := if c.lanes = 0 then lowest c.b.mask / 4 else c.ownSlice
/-- The clause entry at which a run began: runs that one bundle begins together have one. -/
def Region.entry (r : Region) : Nat := r.rid - r.sl
/-- MFENCE (R295): waits for the wave's ended runs that began before its own, then acquires at its scope (`State.fenceAcquire`); the
engine's later reads are made at that scope (Table 14.1). (DEDUCED: entry 15.) -/
def execMfence (h : Hdr) (sc : Scope) (s : State) : Outcome State Fault Refusal :=
  issue (.mfence h sc) s (fun c s =>
    let own := c.wv.ridOf c.fenceSlice - c.fenceSlice
    .ok (s.onWave c (fun wv => { wv with
      mfence := some sc, mfAcq := some sc, waitRids := (wv.regions.filter (fun r => r.ended.isSome && r.entry < own)).map (·.rid) })))
/-- The runs that an MFENCE of a wave waits for are gone. -/
def Wave.fenceDone (wv : Wave) : Bool := wv.waitRids.all (fun r => wv.regions.all (·.rid ≠ r))
/-- Every MFENCE whose wait has ended performs its acquire (R295, R358). -/
def State.fenceAcquire (s : State) : State :=
  s.teams.foldl (fun s t => t.waves.foldl (fun s wv =>
    match wv.mfAcq with
    | some sc => if wv.fenceDone then (s.acquire (some t.core) sc.rank).updWave t.tag wv.ix (fun wv => { wv with mfAcq := none }) else s
    | none => s) s) s
/-- The operations that MWAIT waits for. -/
def isMatrixOp : Instr → Bool
  | .mloadb _ _ _ _ _ _ | .mma _ _ _ _ _ _ | .had _ _ _ _ _ _ _ => true
  | _ => false
/-- MWAIT (R296). -/
def execMwait (h : Hdr) (s : State) : Outcome State Fault Refusal :=
  issue (.mwait h) s (fun c s => .ok (s.onWave c (fun wv =>
    { wv with waitIds := (wv.pend.filter (fun q => isMatrixOp q.instr)).map (·.id), mopen := wv.mopen.map (fun e => { e with covered := true }) })))

/-! ### HAD -/

def hadN : HadP → Nat | .p16 => 16 | .p32 => 32 | .p64 => 64
def hadK : HadP → Nat | .p16 => 2 | _ => 3
def hadE : HadTy → Nat | .f32i32 => 4 | _ => 2
/-- HAD (R298): its areas are checked at issue. -/
def execHad (h : Hdr) (a b c : Opd) (p : HadP) (ty : HadTy) (ev : Option (BitVec 3)) (s : State) : Outcome State Fault Refusal :=
  issue (.had h a b c p ty ev) s (fun x s =>
    if x.lanes = 0 then .ok s
    else
      let f := (x.sc a).toNat
      let o := (x.sc b).toNat
      let v := (x.sc c).toNat
      let lim := x.gg.kobj.scrLen
      if f % hadE ty ≠ 0 then .error (.trap 0x06 f)
      else if o % 4 ≠ 0 then .error (.trap 0x06 o)
      else if v ≠ 0 ∧ f + v * hadN p * hadE ty > lim then .error (.trap 0x08 f)
      else if v ≠ 0 ∧ o + v * hadN p * 4 > lim then .error (.trap 0x08 o)
      else if v = 0 then .ok s
      else .ok (s.start x { x.pend (.had h a b c p ty ev) [x.ownRid] with x := [x.sc a, x.sc b, x.sc c] }))
/-- A source element as a number (R298). -/
def hadElem (ty : HadTy) (bs : List Byte) : Num :=
  match ty with
  | .f32f16 => Num.of fp16 (ofBytes bs)
  | .f32i32 => let x := (BitVec.ofNat 32 (ofBytes bs)).toInt; .fin (x < 0) x.natAbs 0
  | _ => let x := (BitVec.ofNat 16 (ofBytes bs)).toInt; .fin (x < 0) x.natAbs 0
/-- The P results of one vector, with flags (R298). -/
def hadVec (p : HadP) (ty : HadTy) (xs : List Num) : List Word × BitVec 8 :=
  if xs.any (fun x => x.isNan || x.isInf) then (List.replicate (hadN p) 0x7FC00000, fNV)
  else
    let y (m : Nat) : Int := xs.zipIdx.foldl (fun (a : Int) x =>
      let v : Int := (match x.1 with | .fin s m e => scaled s m e (-24) | _ => 0)
      if popc (m &&& x.2) 6 % 2 = 1 then a - v else a + v) 0
    let r (m : Nat) : Word × BitVec 8 :=
      match ty with
      | .i32i16 => (BitVec.ofInt 32 (rneInt (y m < 0) (y m).natAbs (-24 - hadK p)).1, 0)
      | _ => if y m = 0 then (0, 0) else
          let f := roundTo fp32 0 (y m < 0) (y m).natAbs (-24 - hadK p); (f.word, f.fl &&& fNX)
    let rs := (List.range (hadN p)).map r
    (rs.map (·.1), rs.foldl (fun f x => f ||| x.2) 0)
/-- HAD_COMPLETE (R298, R299): the results are held as stores of the run, outside its line limit. -/
def execHadComplete (tag w id : Nat) (s : State) : Outcome State Fault Refusal :=
  withPend "HAD_COMPLETE" s tag w id (fun i => match i with | .had _ _ _ _ _ _ _ => true | _ => false) (fun t wv q =>
    match q.instr with
    | .had _ _ _ _ p ty _ =>
      let f := (q.x.getD 0 0).toNat
      let o := (q.x.getD 1 0).toNat
      let v := (q.x.getD 2 0).toNat
      let n := v * hadN p * hadE ty
      match s.engRead .agent t (s.scrLim t) true f n (t.sys || wv.handler) with
      | .error e => s.engStop tag w t wv q true e
      | .ok bs =>
        let el (i j : Nat) : Num := hadElem ty ((bs.drop ((i * hadN p + j) * hadE ty)).take (hadE ty))
        let rs := (List.range v).map (fun i => hadVec p ty ((List.range (hadN p)).map (el i)))
        let out := rs.flatMap (fun r => r.1.flatMap (fun x => toBytes 4 x.toNat))
        let shared (a : Nat) : Bool := !(hadE ty == 4 && f == o) && f ≤ a && a < f + n
        let bufs := (q.bufs true (.scratch tag) o out).map (fun x =>
          if shared x.a then { x with und := true } else x)
        let sl := ((wv.regions.find? (fun r => q.rids.contains r.rid)).map (·.sl)).getD 0
        ((s.updWave tag w (·.addStores sl bufs)).spoilBytes (bufs.map (fun b => (b.sp, b.a)))).finishPend tag w q [] (rs.foldl (fun f r => f ||| r.2) 0)
    | _ => s)

/-! ### The tile walk -/

def walkN : WDim → Nat | .d1 => 1 | .d2 => 2 | .d3 => 3
/-- TWALK (R300). -/
def execTwalk (h : Hdr) (d a b : Opd) (n : WDim) (ev : Option (BitVec 3)) (s : State) : Outcome State Fault Refusal :=
  issue (.twalk h d a b n ev) s (fun c s =>
    if c.lanes = 0 then .ok s
    else
      let x := (c.sc a).toNat
      let t (j : Nat) : Nat := bits x (16 * j) 16
      let bad := (List.range 3).any (fun j => if j < walkN n then t j = 0 else t j ≠ 0) || bits x 48 16 ≠ 0
      let mask : Option Nat := match b with | .zero => none | o => some (c.sc o).toNat
      if bad then .ok (s.done c d 3)
      else if mask.any (· % 8 ≠ 0) then .error (.trap 0x06 (mask.getD 0))
      else .ok ((s.onWave c (·.putWalk c.ownRid { t0 := t 0, t1 := max (t 1) 1, t2 := max (t 2) 1, mask := mask, gone := [] })).done c d 0))
/-- TNEXT (R302). -/
def execTnext (h : Hdr) (d : Opd) (ev : Option (BitVec 3)) (s : State) : Outcome State Fault Refusal :=
  issue (.tnext h d ev) s (fun c s => .ok (s.start c (c.pend (.tnext h d ev) [c.ownRid])))
/-- The tile of a number below T0 T1 T2. -/
def Walk.tile (k : Walk) (i : Nat) : Nat × Nat × Nat := (i % k.t0, i / k.t0 % k.t1, i / k.t0 / k.t1 % k.t2)
/-- Address of the mask word of a tile (R301). -/
def Walk.maskAt (k : Walk) (a : Nat) (x : Nat × Nat × Nat) : Nat := (a + 8 * ((x.2.2 * k.t1 + x.2.1) * ((k.t0 + 63) / 64) + x.1 / 64)) % 2 ^ 64
/-- Is a tile's mask bit set (R301)? With the state after the read of its word. -/
def State.tileSet (s : State) (v : Via) (t : Team) (sys : Bool) (k : Walk) (x : Nat × Nat × Nat) : Except Bad (Bool × State) :=
  match k.mask with
  | none => .ok (true, s)
  | some a => (s.engRead v t 0 false (k.maskAt a x) 8 sys).map (fun bs => (bit (ofBytes bs) (x.1 % 64), s.engTouch v t false (k.maskAt a x) 8 sys))
/-- The first tile that remains, from number `i` on, cyclically. -/
def State.findTile (v : Via) (t : Team) (sys : Bool) (k : Walk) : Nat → Nat → State → Except Bad (Option (Nat × Nat × Nat) × State)
  | 0, _, s => .ok (none, s)
  | fuel + 1, i, s =>
    let x := k.tile i
    if k.gone.any (·.2 == x) then s.findTile v t sys k fuel (i + 1)
    else match s.tileSet v t sys k x with
      | .error e => .error e
      | .ok (true, s) => .ok (some x, s)
      | .ok (false, s) => s.findTile v t sys k fuel (i + 1)
/-- TNEXT_COMPLETE (R301, R302): hands out the tile that `pick` leads to, or DONE, of the walk that stands when it completes.
(DESIGN CHOICE: entry 64.) -/
def execTnextComplete (tag w id pick : Nat) (s : State) : Outcome State Fault Refusal :=
  withPend "TNEXT_COMPLETE" s tag w id (fun i => match i with | .tnext _ _ _ => true | _ => false) (fun t wv q =>
    match q.instr with
    | .tnext _ d _ =>
      let total := wv.walk.elim 0 (fun k => k.t0 * k.t1 * k.t2)
      let none_ : Walk := { t0 := 1, t1 := 1, t2 := 1, mask := none, gone := [] }
      let k := wv.walk.getD none_
      match s.findTile (wv.engVia t) t (t.sys || wv.handler) k total pick with
      | .error e => s.engStop tag w t wv q false e
      | .ok (none, s) => s.finishPend tag w q (wr64 q.lanes d (fun _ => 0x8000000000000000)) 0
      | .ok (some x, s) =>
        let s := s.updWave tag w (·.takeTile (q.rids.headD 0) x)
        s.finishPend tag w q (wr64 q.lanes d (fun _ => BitVec.ofNat 64 (x.2.2 * 2 ^ 32 + x.2.1 * 2 ^ 16 + x.1))) 0
    | _ => s)

end Sys2Proof.Machine
end

