-- ==== Sys2Proof/Machine/Quern.lean ====
section
/-! DEFINITION. Sys2Proof/Machine/Quern.lean: the geometry of the beam engine (13_beams.md R304 to R305, R310 to R320): exact
and FP32 clipping, projection, splitting, fragments, and the ray test. Points are in pixels; a depth plane takes 1/256 pixel.
The choices that the manual leaves to the engine are entry 14 of the log. -/
namespace Sys2Proof.Machine

/-! ### Numbers -/

/-- m · 2^e as a rational. -/
def qDyadic (s : Bool) (m : Nat) (e : Int) : Rat :=
  let x : Rat := if 0 ≤ e then ((m * 2 ^ e.toNat : Nat) : Rat) else mkRat m (2 ^ (-e).toNat)
  if s then -x else x
/-- The value of a finite FP32 word. -/
def q32? (w : Word) : Option Rat := match f32 w with | .fin s m e => some (qDyadic s m e) | _ => none
def q32 (w : Word) : Rat := (q32? w).getD 0
/-- The FP32 number nearest a rational, ties to even, or rounded down (2) or up (3). -/
def rq (rm : Nat) (x : Rat) : FR :=
  let n := x.num.natAbs
  let sh := 64 + bitLen x.den
  roundTo fp32 rm (x.num < 0) (n * 2 ^ sh / x.den) (-(sh : Int)) (n * 2 ^ sh % x.den ≠ 0)
/-- The FP32 number nearest a rational: past the largest, the largest. (DEDUCED: entry 14.) -/
def r32 (x : Rat) : Rat :=
  let r := rq 0 x
  match f32 r.word with
  | .fin s m e => qDyadic s m e
  | _ => qDyadic (x.num < 0) (2 ^ 24 - 1) 104
/-- The nearest integer, ties to even. -/
def rInt (x : Rat) : Int :=
  let f := x.floor
  let d := x - (f : Rat)
  if d < mkRat 1 2 then f else if mkRat 1 2 < d then f + 1 else if f % 2 = 0 then f else f + 1

def ffmaW (a b c : Word) : Word := (fFma fp32 0 (f32 a) (f32 b) (f32 c)).word
def faddW (a b : Word) : Word := (fAdd fp32 0 (f32 a) (f32 b)).word
def fsubW (a b : Word) : Word := (fAdd fp32 0 (f32 a) (f32 b).neg).word
def fmulW (a b : Word) : Word := (fMul fp32 0 (f32 a) (f32 b)).word
def fnegW (a : Word) : Word := a ^^^ 0x80000000
/-- a ÷ b, rounded once. -/
def fdivW (a b : Word) : Word :=
  match f32 a, f32 b with
  | .nan _, _ => 0x7FC00000
  | _, .nan _ => 0x7FC00000
  | .inf _, .inf _ => 0x7FC00000
  | .inf s, .fin t _ _ => BitVec.ofNat 32 (fp32.infBits (s != t))
  | .fin s _ _, .inf t => BitVec.ofNat 32 (fp32.zeroBits (s != t))
  | .fin s m e, .fin t n d =>
    if n = 0 then (if m = 0 then 0x7FC00000 else BitVec.ofNat 32 (fp32.infBits (s != t)))
    else if m = 0 then BitVec.ofNat 32 (fp32.zeroBits (s != t))
    else (rq 0 (qDyadic s m e / qDyadic t n d)).word
/-- Comparisons of FP32 words: false with a NaN. -/
def fltW (a b : Word) : Bool := !(f32 a).isNan && !(f32 b).isNan && (f32 a).cmp (f32 b) < 0
def fleW (a b : Word) : Bool := !(f32 a).isNan && !(f32 b).isNan && (f32 a).cmp (f32 b) ≤ 0
def finW (a : Word) : Bool := (q32? a).isSome
/-- k/2 as FP32. -/
def halfW (k : Nat) : Word := (rq 0 (mkRat k 2)).word

/-! ### Polygons, exact or in FP32 -/

/-- A point with its coordinates as rationals. -/
abbrev Pt := List Rat
/-- The numbers in which a beam clips and splits: exact ones, or FP32 with every operation rounded to nearest even (R311, R316). -/
structure Kit (α : Type) where
  ofQ : Rat → α
  ofW : Word → α
  toQ : α → Option Rat      -- its value, where it is finite
  fma : α → α → α → α
  add : α → α → α
  div : α → α → α
  neg : α → α
  le : α → α → Bool
  grid : α → α              -- the nearest point of the 1/256 grid, where points are snapped
/-- Exact numbers (R311); vertices and equal-depth points are snapped (R310, R313). -/
def Kit.exact : Kit Rat :=
  { ofQ := fun x => x, ofW := q32, toQ := fun x => some x, fma := fun a b c => a * b + c, add := fun a b => a + b, div := fun a b => a / b
    neg := fun a => -a, le := fun a b => decide (a ≤ b), grid := fun x => (rInt (x * 256) : Rat) / 256 }
/-- FP32 words (R316): nothing is snapped. -/
def Kit.fp : Kit Word :=
  { ofQ := fun x => (rq 0 x).word, ofW := fun x => x, toQ := q32?, fma := ffmaW, add := faddW, div := fdivW, neg := fnegW, le := fleW, grid := fun x => x }
variable {α : Type}
def Kit.zero (K : Kit α) : α := K.ofQ 0
def Kit.sub (K : Kit α) (a b : α) : α := K.add a (K.neg b)
def Kit.mul (K : Kit α) (a b : α) : α := K.fma a b K.zero
/-- Strictly less; false with a NaN. -/
def Kit.lt (K : Kit α) (a b : α) : Bool := K.le a b && !K.le b a
def Kit.eq (K : Kit α) (a b : α) : Bool := K.le a b && K.le b a
/-- A polygon, or a point, as rationals; none where a coordinate is not finite. -/
def Kit.pt? (K : Kit α) (p : List α) : Option Pt := p.mapM K.toQ
def Kit.poly? (K : Kit α) (p : List (List α)) : Option (List Pt) := p.mapM K.pt?
def Kit.pt (K : Kit α) (p : Pt) : List α := p.map K.ofQ
/-- A line or plane: coefficients and constant; its inner side is ≥ 0. -/
structure Side (α : Type) where
  k : List α
  d : α
  deriving DecidableEq, Repr
/-- A line in other numbers. -/
def Kit.side (K : Kit α) (h : Side Rat) : Side α := { k := h.k.map K.ofQ, d := K.ofQ h.d }
/-- Signed distance, by one FFMA per coordinate (R316). -/
def Side.dist (K : Kit α) (h : Side α) (p : List α) : α := (h.k.zip p).foldl (fun a x => K.fma x.1 x.2 a) h.d
def Side.neg (K : Kit α) (h : Side α) : Side α := { k := h.k.map K.neg, d := K.neg h.d }
/-- a + t(b − a) (R310, R316). -/
def along (K : Kit α) (t : α) (a b : List α) : List α := (a.zip b).map (fun x => K.fma t (K.sub x.2 x.1) x.1)
/-- The pairs of successive elements, around the end. -/
def ring {β : Type} (l : List β) : List (β × β) := l.zip (l.drop 1 ++ l.take 1)
/-- Clip a polygon to the inner side (R316): the new vertex is formed from the kept end; one that stands on the line is its own. -/
def clip (K : Kit α) (h : Side α) (p : List (List α)) : List (List α) :=
  (ring (p.map (fun x => (x, h.dist K x)))).flatMap (fun e =>
    let a := e.1.1
    let b := e.2.1
    let da := e.1.2
    let db := e.2.2
    let ka := K.le K.zero da
    let kb := K.le K.zero db
    (if ka then [a] else [])
      ++ (if ka && !kb && !K.eq da K.zero then [along K (K.div da (K.sub da db)) a b]
          else if !ka && kb && !K.eq db K.zero then [along K (K.div db (K.sub db da)) b a] else []))
def Kit.px (K : Kit α) (p : List α) : α := p.getD 0 K.zero
def Kit.py (K : Kit α) (p : List α) : α := p.getD 1 K.zero
def px (p : Pt) : Rat := p.getD 0 0
def py (p : Pt) : Rat := p.getD 1 0
/-- Twice the signed area by the shoelace formula. -/
def area2 (K : Kit α) (p : List (List α)) : α :=
  (ring p).foldl (fun a e => K.fma (K.neg (K.px e.2)) (K.py e.1) (K.fma (K.px e.1) (K.py e.2) a)) K.zero
def qabs (x : Rat) : Rat := if x < 0 then -x else x
/-- The area, where it is finite. -/
def area? (K : Kit α) (p : List (List α)) : Option Rat := (K.toQ (area2 K p)).map (fun x => qabs x / 2)
/-- The side on which a polygon turns, exactly where its coordinates are finite: 0 where it has no area. -/
def turn (K : Kit α) (p : List (List α)) : Int :=
  match K.poly? p with
  | some q => let x := area2 Kit.exact q; if x < 0 then -1 else if x = 0 then 0 else 1
  | none => let x := area2 K p; if K.lt x K.zero then -1 else if K.lt K.zero x then 1 else 0
def solid (K : Kit α) (p : List (List α)) : Bool := p.length ≥ 3 && turn K p ≠ 0
/-- First moments times 6. -/
def moments (K : Kit α) (p : List (List α)) : α × α :=
  (ring p).foldl (fun a e =>
    let c := K.fma (K.neg (K.px e.2)) (K.py e.1) (K.mul (K.px e.1) (K.py e.2))
    (K.fma (K.add (K.px e.1) (K.px e.2)) c a.1, K.fma (K.add (K.py e.1) (K.py e.2)) c a.2)) (K.zero, K.zero)
/-- Centroid of the union of disjoint solid polygons; in FP32 each operation rounds once. (DESIGN CHOICE: entry 14.) -/
def centroid (K : Kit α) (ps : List (List (List α))) : List α :=
  let t := ps.foldl (fun (a : α × α × α) p =>
    let s (x : α) : α := if K.lt (area2 K p) K.zero then K.neg x else x
    let m := moments K p
    (K.add a.1 (s (area2 K p)), K.add a.2.1 (s m.1), K.add a.2.2 (s m.2))) (K.zero, K.zero, K.zero)
  if K.eq t.1 K.zero then ((ps.headD []).headD [K.zero, K.zero])
  else let w := K.mul (K.ofQ 3) t.1; [K.div t.2.1 w, K.div t.2.2 w]
/-- The line through two points, positive on the left of a to b. -/
def lineOf (K : Kit α) (a b : List α) : Side α :=
  { k := [K.sub (K.py a) (K.py b), K.sub (K.px b) (K.px a)], d := K.fma (K.neg (K.px b)) (K.py a) (K.mul (K.px a) (K.py b)) }
/-- The edges of a convex polygon with their interior positive (R311). -/
def edges (K : Kit α) (p : List (List α)) : List (Side α) :=
  (ring p).map (fun e => let h := lineOf K e.1 e.2; if turn K p < 0 then h.neg K else h)
/-- Clip against lines in order. -/
def clipAll (K : Kit α) (hs : List (Side α)) (p : List (List α)) : List (List α) := hs.foldl (fun p h => clip K h p) p

/-! ### Owners and splitting (R312 to R314) -/

/-- A leaf (Table 13.3): address, the nine words of its vertices, the twelve of `M`, ids and flags. -/
structure Leaf where
  a : Nat
  v : List Word
  m : List Word
  gid : Word
  pid : Word
  alpha : Bool
  proc : Bool
  nosh : Bool
  deriving DecidableEq, Repr
/-- The owner of a child: its depth plane, ids, and the clip coordinates of its leaf's vertices; none is the background. -/
structure Owner (α : Type) where
  d : Side α
  gid : Word
  pid : Word
  clip : List (List Word)
  deriving DecidableEq, Repr
/-- A child of a beam tree: record number, its parts, its owner, and whether it has overflowed. -/
structure Child (α : Type) where
  no : Nat
  polys : List (List (List α))
  own : Option (Owner α)
  more : Bool
  deriving DecidableEq, Repr

/-- Order of ids. -/
def idLess (g1 p1 g2 p2 : Word) : Bool := g1.toNat < g2.toNat || (g1 == g2 && p1.toNat < p2.toNat)
def Owner.less (a b : Owner α) : Bool := idLess a.gid a.pid b.gid b.pid
/-- A depth plane at a point in pixels. -/
def Owner.at (K : Kit α) (o : Owner α) (p : List α) : α := o.d.dist K (p.map (K.mul (K.ofQ 256)))
/-- D_T − D_O at a point. -/
def depthDiff (K : Kit α) (t o : Owner α) (p : List α) : α := K.sub (t.at K p) (o.at K p)
/-- Judged by a sign; ids where it is zero (R312). -/
def bySign (K : Kit α) (t o : Owner α) (x : α) : Bool := K.lt x K.zero || (K.eq x K.zero && t.less o)
/-- T is nearer than O on a part without a sign change (R312). -/
def nearer (K : Kit α) (t o : Owner α) (p : List (List α)) : Bool :=
  let ds := p.map (depthDiff K t o)
  ds.all (fun x => K.le x K.zero) && (ds.any (fun x => K.lt x K.zero) || t.less o)
/-- Points of the boundary where an affine function is zero, from its values at the vertices. -/
def zeros (K : Kit α) (l : List (List α × α)) : List (List α) :=
  (ring l).flatMap (fun e =>
    let a := e.1.2
    let b := e.2.2
    if K.eq a K.zero then [e.1.1]
    else if (K.lt a K.zero && K.lt K.zero b) || (K.lt K.zero a && K.lt b K.zero) then [along K (K.div a (K.sub a b)) e.1.1 e.2.1] else [])
/-- The parts of Q with whether T is nearer (R313 step 1). -/
def judge (K : Kit α) (t : Owner α) (o : Option (Owner α)) (q : List (List α)) : List (List (List α) × Bool) :=
  match o with
  | none => [(q, true)]
  | some o =>
    let ds := q.map (depthDiff K t o)
    let mid (p : List (List α)) : Bool := bySign K t o (depthDiff K t o (centroid K [p]))
    if ds.any (fun x => K.lt x K.zero) ∧ ds.any (fun x => K.lt K.zero x) then
      let z := (zeros K (q.zip ds)).map (fun p => p.map K.grid)
      let a := z.getD 0 []
      let b := z.getD 1 []
      if (a.zip b).all (fun x => K.eq x.1 x.2) then [(q, mid q)]
      else
        let h := lineOf K a b
        (([clip K h q, clip K (h.neg K) q]).filter (solid K)).map (fun p => (p, mid p))
    else [(q, nearer K t o q)]
/-- P ∩ T, and the parts that T's edges cut off, in order (R313 step 3). -/
def cut (K : Kit α) (es : List (Side α)) (p : List (List α)) : List (List α) × List (List (List α)) :=
  es.foldl (fun a h => (clip K h a.1, a.2 ++ ([clip K (h.neg K) a.1].filter (solid K)))) (p, [])

/-- Split one child by a triangle with owner `t` (R313, R314): the children it leaves, and the record numbers left. -/
def split1 (K : Kit α) (tri : List (List α)) (t : Owner α) (c : Child α) (free : List Nat) : List (Child α) × List Nat :=
  if c.more then ([c], free)
  else
    let p := c.polys.headD []
    let qs := cut K (edges K tri) p
    if !solid K qs.1 then ([c], free)
    else
      let js := judge K t c.own qs.1
      if !js.any (·.2) then ([c], free)
      else
        let parts : List (List (List α) × Option (Owner α)) :=
          (js.filter (·.2)).map (fun x => (x.1, some t)) ++ (js.filter (!·.2)).map (fun x => (x.1, c.own)) ++ qs.2.map (fun x => (x, c.own))
        match parts with
        | [] => ([c], free)
        | f :: r =>
          let n := min r.length free.length
          let new := ((r.take n).zip free).map (fun x => ({ no := x.2, polys := [x.1.1], own := x.1.2, more := false } : Child α))
          let left := (r.drop n).map (·.1)
          (({ no := c.no, polys := f.1 :: left, own := f.2, more := left ≠ [] } : Child α) :: new, free.drop n)
/-- Split every child, in order. -/
def splitAll (K : Kit α) (tri : List (List α)) (t : Owner α) (cs : List (Child α)) (free : List Nat) : List (Child α) × List Nat :=
  let r := cs.foldl (fun (a : List (Child α) × List (Child α) × List Nat) c =>
    let x := split1 K tri t c a.2.2
    (a.1 ++ x.1.take 1, a.2.1 ++ x.1.drop 1, x.2)) ([], [], free)
  (r.1 ++ r.2.1, r.2.2)
/-- The sides of a box of pixels. -/
def boxSides (x0 y0 x1 y1 : Rat) : List (Side Rat) :=
  [{ k := [1, 0], d := -x0 }, { k := [0, 1], d := -y0 }, { k := [-1, 0], d := x1 }, { k := [0, -1], d := y1 }]
/-- Overflow the children that a box meets, or all of them (R318). -/
def overBox (K : Kit α) (box : Option (List (Side Rat))) (cs : List (Child α)) : List (Child α) :=
  cs.map (fun c => match box with
    | none => { c with more := true }
    | some hs => if c.polys.any (fun p => !(clipAll K (hs.map K.side) p).isEmpty) then { c with more := true } else c)

/-! ### The records of a scene, a beam and a node -/

/-- Word at an offset. -/
def wordAt (b : List Byte) (o : Nat) : Word := BitVec.ofNat 32 (ofBytes ((b.drop o).take 4))
def natAt (b : List Byte) (o n : Nat) : Nat := ofBytes ((b.drop o).take n)
def wordsAt (b : List Byte) (o n : Nat) : List Word := (List.range n).map (fun i => wordAt b (o + 4 * i))
/-- Numbers of finite words. -/
def qs? (ws : List Word) : Option (List Rat) := ws.mapM q32?

/-- The rules of R308 for a source record against a scene. -/
def beamOk (sc b : List Byte) : Bool :=
  let kind := natAt b 0 1
  let npl := natAt b 1 1
  let apk := natAt b 2 1
  let nav := natAt b 3 1
  let zero (o n : Nat) : Bool := natAt b o n == 0
  let pl (i j : Nat) : Word := wordAt b (0x50 + 16 * i + 4 * j)
  let intOk (w : Word) : Bool := (q32? w).any (fun q => q.den = 1 && q.num.natAbs ≤ 4096)
  kind < 3 && 3 ≤ npl && npl ≤ 8
    && ((kind = 0 && apk = 0 && nav = 1) || (kind = 2 && apk = 2 && nav = 1) || (kind = 1 && apk = 1 && (nav = 3 || nav = 4)))
    && zero 0x08 8 && zero 0xD8 8 && zero 0xE0 32
    && zero (0x10 + 12 * nav) (48 - 12 * nav) && zero (0x50 + 16 * npl) (128 - 16 * npl)
    && (if kind = 0 then zero 0x40 16 else if kind = 1 then zero 0x4C 4 else true)
    && ((wordsAt b 0x10 12) ++ (wordsAt b 0x40 4) ++ (wordsAt b 0x50 32)).all finW
    && finW (wordAt b 0xD0) && finW (wordAt b 0xD4) && 0 ≤ q32 (wordAt b 0xD0) && q32 (wordAt b 0xD0) ≤ q32 (wordAt b 0xD4)
    && (kind = 1 ||
      ((List.range npl).all (fun i => q32 (pl i 2) = 0 && intOk (pl i 0) && intOk (pl i 1)
          && (q32 (pl i 3) * 256).den = 1 && qabs (q32 (pl i 3)) ≤ 2 ^ 24)
        && 64 * natAt b 4 2 < natAt sc 0x1C 2 && 64 * natAt b 6 2 < natAt sc 0x1E 2))

/-- A child of an interior node: address, whether it is a leaf, and the corners of its box where they are finite (R304). -/
structure NodeKid where
  a : Nat
  leaf : Bool
  lo : List (Option Rat)
  hi : List (Option Rat)
  deriving DecidableEq, Repr
/-- Corner coordinate of a box, rounded outward. -/
def corner (up : Bool) (org : Word) (q : Nat) (e : Int) : Option Rat :=
  (q32? org).bind (fun o => q32? (rq (if up then 3 else 2) (o + qDyadic false q e)).word)
/-- The children of a node, or none where it breaks Table 13.2. -/
def nodeKids (b : List Byte) : Option (List NodeKid) :=
  let n := natAt b 0x0F 1
  let base := natAt b 0x10 8
  if n = 0 ∨ n > 8 ∨ base % 32 ≠ 0 ∨ natAt b 0x68 24 ≠ 0 then none
  else some ((List.range n).map (fun c =>
    let w := natAt b (0x18 + 4 * c) 4
    let ex (i : Nat) : Int := (BitVec.ofNat 8 (natAt b (0x0C + i) 1)).toInt
    { a := (base + 32 * bits w 0 31) % 2 ^ 64, leaf := bit w 31
      lo := (List.range 3).map (fun i => corner false (wordAt b (4 * i)) (natAt b (0x38 + 6 * c + i) 1) (ex i))
      hi := (List.range 3).map (fun i => corner true (wordAt b (4 * i)) (natAt b (0x3B + 6 * c + i) 1) (ex i)) }))
/-- A leaf, or none where it breaks Table 13.3. -/
def leafOf (a : Nat) (b : List Byte) : Option Leaf :=
  let gid := wordAt b 0x54
  let pid := wordAt b 0x58
  let f := natAt b 0x5C 4
  if gid = 0xFFFFFFFF ∨ pid = 0xFFFFFFFF ∨ bits f 3 29 ≠ 0 then none
  else some { a := a, v := wordsAt b 0 9, m := wordsAt b 0x24 12, gid := gid, pid := pid, alpha := bit f 0, proc := bit f 1, nosh := bit f 2 }

/-- Why a traversal stops. -/
inductive WalkBad where
  | bad (b : Bad) | malformed | endless
  deriving DecidableEq, Repr
/-- What a traversal has read, newest first: an address and the bytes (R323). -/
abbrev Seen := List (Nat × List Byte)
/-- A node or leaf that has been read. -/
def Seen.at? (k : Seen) (a n : Nat) : Option (List Byte) := (k.find? (fun x => x.1 == a && x.2.length == n)).map (·.2)
/-- Read a node or leaf, once. -/
def Seen.get (k : Seen) (rd : Nat → Nat → Except Bad (List Byte)) (a n : Nat) : Except WalkBad (List Byte × Seen) :=
  match k.at? a n with
  | some b => .ok (b, k)
  | none => match rd a n with
    | .error e => .error (.bad e)
    | .ok b => .ok (b, (a, b) :: k)
/-- What stands at a place of the hierarchy. -/
inductive Place where
  | leaf (l : Leaf)
  | node (ks : List NodeKid)
  deriving DecidableEq, Repr
/-- Read the node, or the leaf (marked), at an address; one that breaks its table is malformed (R306). -/
def openPlace (rd : Nat → Nat → Except Bad (List Byte)) (k : Seen) (x : Nat × Bool) : Except WalkBad (Place × Seen) :=
  if x.2 then
    match k.get rd x.1 96 with
    | .error e => .error e
    | .ok (b, k) => match leafOf x.1 b with
      | none => .error .malformed
      | some l => .ok (.leaf l, k)
  else if x.1 % 128 ≠ 0 then .error .malformed
  else match k.get rd x.1 128 with
    | .error e => .error e
    | .ok (b, k) => match nodeKids b with
      | none => .error .malformed
      | some ks => .ok (.node ks, k)
/-- The children that a traversal visits, in an order of the engine's own: the manual gives none (R456), so it is free, one for each
cast. (DESIGN CHOICE: entry 14.) -/
def visited (cast : Nat) (visit : NodeKid → Bool) (ks : List NodeKid) : List (Nat × Bool) :=
  let key (x : Nat × Bool) : Nat := (Config.freeWord cast 980 x.1).toNat
  ((ks.filter visit).map (fun k => (k.a, k.leaf))).foldr (fun x l => l.takeWhile (fun y => key y < key x) ++ x :: l.dropWhile (fun y => key y < key x)) []
/-- Depth-first traversal (R304): the leaves reached, in order, and what has been read. (DESIGN CHOICE: entry 14.) -/
def walkScene (cast : Nat) (rd : Nat → Nat → Except Bad (List Byte)) (visit : NodeKid → Bool) :
    Nat → List (Nat × Bool) → List Leaf → Seen → Except WalkBad (List Leaf) × Seen
  | 0, _, _, k => (.error .endless, k)
  | _ + 1, [], acc, k => (.ok acc.reverse, k)
  | n + 1, x :: r, acc, k =>
    match openPlace rd k x with
    | .error e => (.error e, k)
    | .ok (.leaf l, k) => walkScene cast rd visit n r (l :: acc) k
    | .ok (.node ks, k) => walkScene cast rd visit n (visited cast visit ks ++ r) acc k
/-- Steps that a traversal of a hierarchy without cycles never reaches (entry 14). -/
def walkFuel : Nat := 2 ^ 40
/-- Where a traversal starts. -/
def rootOf (sc : List Byte) : List (Nat × Bool) := [(natAt sc 0 8, false)]

/-- The corners of a box, if they are all finite. -/
def NodeKid.corners (k : NodeKid) : Option (List Pt) :=
  match k.lo, k.hi with
  | [some x0, some y0, some z0], [some x1, some y1, some z1] =>
    some ([x0, x1].flatMap (fun x => [y0, y1].flatMap (fun y => [z0, z1].map (fun z => [x, y, z]))))
  | _, _ => none
/-- Does a box not lie wholly outside one of the sides? -/
def NodeKid.touches (k : NodeKid) (hs : List (Side Rat)) : Bool :=
  match k.corners with
  | none => true
  | some ps => hs.all (fun h => ps.any (fun p => 0 ≤ h.dist Kit.exact p))

/-! ### Rays (R320 to R322) -/

/-- Is a ray bad (R321)? -/
def rayBad (o d : List Word) (tmin tmax : Word) : Bool :=
  !((o ++ d).all finW) || d.all (fun w => (f32 w).isZero) || fltW tmin 0 || fltW tmax tmin
/-- Does a ray meet a box within its interval? -/
def NodeKid.onRay (k : NodeKid) (r : Ray) : Bool :=
  match k.corners, qs? [r.ox, r.oy, r.oz, r.tmin, r.dx, r.dy, r.dz] with
  | some _, some [ox, oy, oz, t0, dx, dy, dz] =>
    let t1 : Option Rat := q32? r.tmax
    let axes := ([(ox, dx), (oy, dy), (oz, dz)].zip (k.lo.zip k.hi)).map (fun a => (a.1.1, a.1.2, a.2.1.getD 0, a.2.2.getD 0))
    let lims := axes.map (fun (o, d, l, h) =>
      if d = 0 then (if l ≤ o ∧ o ≤ h then some (none, none) else none)
      else
        let a := (l - o) / d
        let b := (h - o) / d
        some (some (min a b), some (max a b)))
    if lims.any (·.isNone) then false
    else
      let los := t0 :: lims.filterMap (fun x => x.bind (·.1))
      let his := t1.toList ++ lims.filterMap (fun x => x.bind (·.2))
      los.all (fun a => his.all (fun b => a ≤ b))
  | _, _ => true
/-- The ray test of a leaf (R320): t, u and v where it passes with interval (tmin, tbest]. -/
def rayTest (l : Leaf) (r : Ray) (tbest : Word) : Option (Word × Word × Word) :=
  let row (i j : Nat) : Word := l.m.getD (4 * i + j) 0
  let o (i : Nat) : Word := ffmaW (row i 2) r.oz (ffmaW (row i 1) r.oy (ffmaW (row i 0) r.ox (row i 3)))
  let d (i : Nat) : Word := ffmaW (row i 2) r.dz (ffmaW (row i 1) r.dy (fmulW (row i 0) r.dx))
  if (f32 (d 2)).isZero then none
  else
    let t := fdivW (fnegW (o 2)) (d 2)
    let u := ffmaW t (d 0) (o 0)
    let v := ffmaW t (d 1) (o 1)
    if fleW 0 u && fleW 0 v && fleW (faddW u v) 0x3F800000 && fltW r.tmin t && fleW t tbest then some (t, u, v) else none
def Ray.tbest (r : Ray) : Word := match r.hit with | some h => h.t | none => r.tmax
/-- Offer a hit (R320). -/
def Ray.offer (r : Ray) (h : Hit) (first : Bool) : Ray :=
  match r.hit with
  | none => { r with hit := some h, fin := r.fin || first }
  | some g => if fltW h.t g.t || ((f32 h.t).cmp (f32 g.t) == 0 && idLess h.gid h.pid g.gid g.pid) then { r with hit := some h } else r
/-- Candidates that a ray has in its buffer (R322). -/
def buffered (cs : List Cand) (ix : Nat) : Nat := (cs.filter (·.ray == ix)).length
/-- Test a leaf: the ray, and the candidate that the leaf becomes, if it does (R320, R322). -/
def Ray.test (r : Ray) (first sh : Bool) (ix : Nat) (l : Leaf) : Ray × List Cand :=
  if sh && l.nosh then (r, [])
  else match rayTest l r r.tbest with
    | none => (r, [])
    | some (t, u, v) =>
      let h : Hit := { leaf := l.a, t := t, u := u, v := v, gid := l.gid, pid := l.pid }
      if l.alpha || l.proc then (r, [{ tag := 0, ray := ix, hit := h, proc := l.proc, pix := r.pix, taken := none, dec := none }])
      else (r.offer h first, [])
/-- Where the traversal of a ray has come to: the ray, the candidates of its record, what has been read, and why it stopped short. -/
structure RayRun where
  ray : Ray
  cands : List Cand
  seen : Seen
  bad : Option WalkBad
  deriving DecidableEq, Repr
/-- Run a ray until it ends, its buffer of 16 is full, or a read fails: each leaf is tested as it is reached, and a ray that has ended
reads no more (R304, R320, R322, R323). -/
def Ray.run (cast : Nat) (rd : Nat → Nat → Except Bad (List Byte)) (first sh : Bool) (ix : Nat) : Nat → Ray → List Cand → Seen → RayRun
  | 0, r, cs, k => { ray := r, cands := cs, seen := k, bad := some .endless }
  | n + 1, r, cs, k =>
    if r.fin || buffered cs ix ≥ 16 then { ray := r, cands := cs, seen := k, bad := none }
    else match r.todo with
      | [] => { ray := { r with fin := true }, cands := cs, seen := k, bad := none }
      | x :: todo =>
        match openPlace rd k x with
        | .error e => { ray := r, cands := cs, seen := k, bad := some e }
        | .ok (.node ks, k) => Ray.run cast rd first sh ix n { r with todo := visited cast (·.onRay r) ks ++ todo } cs k
        | .ok (.leaf l, k) => let y := { r with todo := todo }.test first sh ix l; Ray.run cast rd first sh ix n y.1 (cs ++ y.2) k

/-! ### Projection (R310) -/

/-- Clip coordinates of a point. -/
def project (sc : List Byte) (p : List Word) : List Word :=
  (List.range 4).map (fun r =>
    let m (j : Nat) : Word := wordAt sc (0x20 + 16 * r + 4 * j)
    ffmaW (m 2) (p.getD 2 0) (ffmaW (m 1) (p.getD 1 0) (ffmaW (m 0) (p.getD 0 0) (m 3))))
/-- Clip in clip space against w = `WNEAR`. -/
def clipNear (wn : Word) (vs : List (List Word)) : List (List Word) :=
  let w (v : List Word) : Word := v.getD 3 0
  let mix (a b : List Word) : List Word :=
    let t := match q32? wn, q32? (w a), q32? (w b) with
      | some x, some wa, some wb => (rq 0 ((x - wa) / (wb - wa))).word
      | _, _, _ => fdivW (fsubW wn (w a)) (fsubW (w b) (w a))
    (a.zip b).map (fun x => ffmaW t (fsubW x.2 x.1) x.1)
  (ring vs).flatMap (fun e =>
    let ka := fleW wn (w e.1)
    let kb := fleW wn (w e.2)
    (if ka then [e.1] else []) ++ (if ka ∧ !kb then [mix e.1 e.2] else if !ka ∧ kb then [mix e.2 e.1] else []))
/-- Screen coordinates and depth of clip coordinates. -/
def screen (sc : List Byte) (v : List Word) : Word × Word × Word :=
  let w := v.getD 3 0
  let hx := halfW (natAt sc 0x1C 2)
  let hy := halfW (natAt sc 0x1E 2)
  (ffmaW (fdivW (v.getD 0 0) w) hx hx, ffmaW (fnegW (fdivW (v.getD 1 0) w)) hy hy, fdivW (v.getD 2 0) w)
/-- The depth plane nearest the exact plane through three vertices in pixels with their depths (R312). -/
def depthPlane (tri : List Pt) (z : List Rat) : Side Rat :=
  let p (i : Nat) : Pt := (tri.getD i []).map (256 * ·)
  let x1 := px (p 1) - px (p 0)
  let y1 := py (p 1) - py (p 0)
  let x2 := px (p 2) - px (p 0)
  let y2 := py (p 2) - py (p 0)
  let z0 := z.getD 0 0
  let z1 := z.getD 1 0 - z0
  let z2 := z.getD 2 0 - z0
  let det := x1 * y2 - x2 * y1
  let a := (z1 * y2 - z2 * y1) / det
  let b := (x1 * z2 - x2 * z1) / det
  { k := [r32 a, r32 b], d := r32 (z0 - a * px (p 0) - b * py (p 0)) }

/-- What a triangle does to the children: nothing, split them, or overflow those that a box meets (none: all). -/
inductive TriAct (α : Type) where
  | drop
  | split (tri : List (List α)) (o : Owner α)
  | more (box : Option (List (Side Rat)))
  deriving DecidableEq, Repr
/-- The screen triangle of clip coordinates, snapped where the numbers are, with its depth plane; none where it is not finite or has no
area. -/
def triPlane (K : Kit α) (sc : List Byte) (vs : List (List Word)) : Option (List (List α) × Side Rat) :=
  let ss := vs.map (screen sc)
  if !(ss.all (fun x => finW x.1 && finW x.2.1 && finW x.2.2)) then none
  else
    let tri : List (List α) := ss.map (fun x => [K.grid (K.ofW x.1), K.grid (K.ofW x.2.1)])
    match K.poly? tri with
    | some p => if solid K tri then some (tri, depthPlane p (ss.map (fun x => q32 x.2.2))) else none
    | none => none
/-- One triangle in clip coordinates (R310); a reflected one is clipped against the screen planes `hs` of its beam, in their order (R316).
`was` says that the near limit cut its leaf. -/
def triAct (K : Kit α) (hs : List (Side Rat)) (sc b : List Byte) (l : Leaf) (clip0 : List (List Word)) (was : Bool) (vs : List (List Word)) : TriAct α :=
  let ss := vs.map (screen sc)
  let rlo := wordAt b 0xD0
  let rhi := wordAt b 0xD4
  if ss.all (fun x => fltW x.2.2 rlo) || ss.all (fun x => fltW rhi x.2.2) then .drop
  else if !(ss.all (fun x => finW x.1 && finW x.2.1 && finW x.2.2)) then .more none
  else match triPlane K sc vs with
    | none => .drop
    | some (tri, d) =>
      let xs := ss.map (fun x => q32 x.1)
      let ys := ss.map (fun x => q32 x.2.1)
      let far (p : List α) : Bool := p.any (fun x => (K.toQ x).all (fun q => qabs q > 2 ^ 14))
      if l.alpha || l.proc || tri.any far then
        .more (if was then none
          else some (boxSides (xs.foldl min (xs.headD 0)) (ys.foldl min (ys.headD 0)) (xs.foldl max (xs.headD 0)) (ys.foldl max (ys.headD 0))))
      else
        let t := clipAll K (hs.map K.side) tri
        if solid K t then .split t { d := K.side d, gid := l.gid, pid := l.pid, clip := clip0 } else .drop
/-- A fan of triangles of a polygon of three or four vertices. -/
def fan (p : List α) : List (List α) :=
  match p with
  | a :: b :: c :: r => [a, b, c] :: (match r with | d :: _ => [[a, c, d]] | [] => [])
  | _ => []
/-- The vertices of a leaf. -/
def Leaf.verts (l : Leaf) : List (List Word) := (List.range 3).map (fun i => (l.v.drop (3 * i)).take 3)
/-- Reflect a point through a plane (R316). -/
def reflectPt (aux : List Word) (p : List Word) : List Word :=
  let dist := (List.range 3).foldl (fun a i => ffmaW (aux.getD i 0) (p.getD i 0) a) (aux.getD 3 0)
  let k := fmulW 0xC0000000 dist
  (List.range 3).map (fun i => ffmaW k (aux.getD i 0) (p.getD i 0))
/-- The triangles of a leaf for a primary or reflection beam, in clip coordinates: what the mirror plane and the near limit leave of it
(R310, R316), whether the near limit cut it, and the clip coordinates of its own vertices. -/
structure LeafTris where
  tris : List (Bool × List (List Word))
  clip0 : List (List Word)
  deriving DecidableEq, Repr
def leafTris (sc b : List Byte) (l : Leaf) : LeafTris :=
  let wn := wordAt sc 0xA0
  let near (vs : List (List Word)) : List (Bool × List (List Word)) :=
    let cs := vs.map (project sc)
    let was := cs.any (fun c => fltW (c.getD 3 0) wn)
    (if was then fan (clipNear wn cs) else [cs]).map (was, ·)
  if natAt b 0 1 ≠ 2 then { tris := near l.verts, clip0 := l.verts.map (project sc) }
  else
    let aux := wordsAt b 0x40 4
    let vs := l.verts.map (reflectPt aux)
    { tris := (fan (clip Kit.fp { k := aux.take 3, d := aux.getD 3 0 } vs)).flatMap near
      clip0 := vs.map (project sc) }
/-- The screen planes of a record, in pixels. -/
def beamSides (b : List Byte) : List (Side Rat) :=
  (List.range (natAt b 1 1)).map (fun i =>
    let w (j : Nat) : Rat := q32 (wordAt b (0x50 + 16 * i + 4 * j))
    if natAt b 0 1 = 1 then { k := [w 0, w 1, w 2], d := w 3 } else { k := [w 0, w 1], d := w 3 })
/-- What a leaf does to a primary or reflection beam. -/
def leafActs (K : Kit α) (sc b : List Byte) (l : Leaf) : List (TriAct α) :=
  let x := leafTris sc b l
  x.tris.map (fun t => triAct K (if natAt b 0 1 = 2 then beamSides b else []) sc b l x.clip0 t.1 t.2)

/-- Apply actions in order. -/
def applyActs (K : Kit α) (as_ : List (TriAct α)) (cs : List (Child α)) (free : List Nat) : List (Child α) × List Nat :=
  as_.foldl (fun a x => match x with
    | .drop => a
    | .split tri o => splitAll K tri o a.1 a.2
    | .more box => (overBox K box a.1, a.2)) (cs, free)

/-- The region of a primary or reflection beam (R308). -/
def beamRegion (K : Kit α) (sc b : List Byte) : List (List α) :=
  let x0 : Rat := (64 * natAt b 4 2 : Nat)
  let y0 : Rat := (64 * natAt b 6 2 : Nat)
  let x1 := min (x0 + 64) (natAt sc 0x1C 2 : Nat)
  let y1 := min (y0 + 64) (natAt sc 0x1E 2 : Nat)
  clipAll K ((beamSides b).map K.side) ([[x0, y0], [x1, y0], [x1, y1], [x0, y1]].map K.pt)
/-- The screen planes as linear forms over the world, positive inside for w > 0. -/
def worldSides (sc b : List Byte) : List (Side Rat) :=
  match qs? (wordsAt sc 0x20 16) with
  | none => []
  | some m =>
    let row (r j : Nat) : Rat := m.getD (4 * r + j) 0
    let hx : Rat := mkRat (natAt sc 0x1C 2) 2
    let hy : Rat := mkRat (natAt sc 0x1E 2) 2
    let form (h : Side Rat) (j : Nat) : Rat :=
      h.k.getD 0 0 * hx * (row 0 j + row 3 j) + h.k.getD 1 0 * hy * (row 3 j - row 1 j) + h.d * row 3 j
    (beamSides b).map (fun h => { k := [form h 0, form h 1, form h 2], d := form h 3 })
/-- The same forms for points before their reflection: composed with p ↦ p − 2(n·p + d)n (R316). -/
def mirrored (aux : List Word) (h : Side Rat) : Side Rat :=
  let n := (aux.take 3).map q32
  let d := q32 (aux.getD 3 0)
  let kn := (h.k.zip n).foldl (fun a x => a + x.1 * x.2) 0
  { k := (h.k.zip n).map (fun x => x.1 - 2 * kn * x.2), d := h.d - 2 * kn * d }
/-- Does the engine visit a box (R304)? It does unless the box lies wholly on the outer side of a plane of the beam. -/
def beamVisit (sc b : List Byte) (k : NodeKid) : Bool :=
  match natAt b 0 1 with
  | 0 => k.touches (worldSides sc b)
  | 1 => k.touches (beamSides b)
  | _ => k.touches ((worldSides sc b).map (mirrored (wordsAt b 0x40 4)))

/-! ### Shadow beams (R316) -/

/-- Drop coordinate `ax` of a point. -/
def flat {β : Type} (ax : Nat) (p : List β) : List β := (p.zipIdx.filter (·.2 ≠ ax)).map (·.1)
/-- The light polygon, its plane in FP32, and the axis that its plane faces most. -/
def lightOf (b : List Byte) : List (List Word) × Side Word × Nat :=
  let l : List (List Word) := (List.range (natAt b 3 1)).map (fun i => wordsAt b (0x10 + 12 * i) 3)
  let p (i j : Nat) : Rat := q32 ((l.getD i []).getD j 0)
  let v (i j : Nat) : Rat := p i j - p 0 j
  let n : List Rat := [v 1 1 * v 2 2 - v 1 2 * v 2 1, v 1 2 * v 2 0 - v 1 0 * v 2 2, v 1 0 * v 2 1 - v 1 1 * v 2 0]
  let k : List Word := n.map (fun x => (rq 0 x).word)
  let d : Word := match qs? k with
    | some m => (rq 0 (-((m.zipIdx).foldl (fun a x => a + x.1 * p 0 x.2) 0))).word
    | none => fnegW ((k.zip (l.getD 0 [])).foldl (fun a x => ffmaW x.1 x.2 a) 0)
  let a (i : Nat) : Rat := qabs (n.getD i 0)
  (l, { k := k, d := d }, if a 0 ≥ a 1 ∧ a 0 ≥ a 2 then 0 else if a 1 ≥ a 2 then 1 else 2)
/-- An affine function through the first three vertices that span a triangle. -/
def fitPlane (p : List Pt) (z : List Rat) : Option (Side Rat) :=
  let n := p.length
  let js := (List.range n).flatMap (fun i => (List.range n).map (fun j => (i, j)))
  match js.find? (fun x => 0 < x.1 ∧ x.1 < x.2 ∧ area2 Kit.exact [p.getD 0 [], p.getD x.1 [], p.getD x.2 []] ≠ 0) with
  | some (i, j) => some (depthPlane [p.getD 0 [], p.getD i [], p.getD j []] [z.getD 0 0, z.getD i 0, z.getD j 0])
  | none => none
/-- What a leaf does to a shadow beam: the depth is −s, which grows with distance along each line from the receiver. One whose projection
is not finite overflows, as in R310. -/
def shadowActs (b : List Byte) (l : Leaf) : List (TriAct Word) :=
  if l.nosh then []
  else if !l.verts.all (·.all finW) then [.more none]
  else
    let occ := clipAll Kit.fp ((beamSides b).map Kit.fp.side) l.verts
    let r := wordsAt b 0x40 3
    let d2 (p : List Word) : Option Rat := (qs? p).map (fun p => (p.zip (r.map q32)).foldl (fun a x => a + (x.1 - x.2) * (x.1 - x.2)) 0)
    let lo := q32 (wordAt b 0xD0)
    let hi := q32 (wordAt b 0xD4)
    if occ.length < 3 ∨ occ.all (fun p => (d2 p).any (· < lo * lo)) ∨ occ.all (fun p => (d2 p).any (hi * hi < ·)) then []
    else if l.alpha || l.proc then [.more none]
    else
      let lt := lightOf b
      let dr := lt.2.1.dist Kit.fp r
      let s := occ.map (fun p => fdivW dr (fsubW dr (lt.2.1.dist Kit.fp p)))
      let q := (occ.zip s).map (fun x => flat lt.2.2 (along Kit.fp x.2 r x.1))
      match qs? s, Kit.fp.poly? q with
      | some zs, some qq => match fitPlane qq (zs.map (- ·)) with
        | none => []
        | some d => if solid Kit.fp q then [.split q { d := Kit.fp.side d, gid := l.gid, pid := l.pid, clip := [] }] else []
      | _, _ => [.more none]

/-- Combine the half-spaces on the two sides of coordinate `i`, so that it drops out. -/
def elimAxis (i : Nat) (hs : List (Side Rat)) : List (Side Rat) :=
  let c (h : Side Rat) : Rat := h.k.getD i 0
  hs.filter (fun h => c h = 0) ++ (hs.filter (fun h => 0 < c h)).flatMap (fun p => (hs.filter (fun h => c h < 0)).map (fun n =>
    ({ k := (p.k.zip n.k).map (fun x => -(c n) * x.1 + c p * x.2), d := -(c n) * p.d + c p * n.d } : Side Rat)))
/-- Does some point of the world lie on the inner side of every plane (R308)? -/
def someInside (hs : List (Side Rat)) : Bool := (elimAxis 2 (elimAxis 1 (elimAxis 0 hs))).all (fun h => 0 ≤ h.d)

/-! ### Traversal of a beam -/

/-- How a kind of beam clips, splits and yields fragments: its numbers, its region, and what a leaf does to it. -/
structure BeamKind (α : Type) where
  kit : Kit α
  start : List (List α)
  acts : Leaf → List (TriAct α)
/-- A primary beam is exact; a reflection or shadow beam clips in FP32 (R311, R316). -/
def primary (sc b : List Byte) : BeamKind Rat := { kit := Kit.exact, start := beamRegion Kit.exact sc b, acts := leafActs Kit.exact sc b }
def reflection (sc b : List Byte) : BeamKind Word := { kit := Kit.fp, start := beamRegion Kit.fp sc b, acts := leafActs Kit.fp sc b }
/-- A shadow beam whose planes leave no point has no region (R308). -/
def shadowBeam (b : List Byte) : BeamKind Word :=
  let lt := lightOf b
  { kit := Kit.fp, start := if someInside (beamSides b) then lt.1.map (flat lt.2.2) else [], acts := shadowActs b }
/-- The children of a beam's tree, from the leaves in traversal order (R313). -/
def BeamKind.children (k : BeamKind α) (root : Nat) (free : List Nat) (ls : List Leaf) : List (Child α) × List Nat :=
  if !solid k.kit k.start then ([], free)
  else applyActs k.kit (ls.flatMap k.acts) [{ no := root, polys := [k.start], own := none, more := false }] free

/-- Is a sample point in a region: on an edge, where its inward normal points right, or straight up in y (R317)? -/
def inRegion (p : Pt) (poly : List Pt) : Bool :=
  solid Kit.exact poly && (edges Kit.exact poly).all (fun h =>
    let d := h.dist Kit.exact p
    0 < d || (d = 0 && (0 < h.k.getD 0 0 || (h.k.getD 0 0 = 0 && 0 < h.k.getD 1 0))))
/-- Table 13.7. -/
def samplePts : List (Nat × Nat) := [(96, 32), (224, 96), (32, 160), (160, 224)]
/-- The pixels of a region square. -/
def regionPixels (sc b : List Byte) : List (Nat × Nat) :=
  let x0 := 64 * natAt b 4 2
  let y0 := 64 * natAt b 6 2
  (List.range (min 64 (natAt sc 0x1E 2 - y0))).flatMap (fun y => (List.range (min 64 (natAt sc 0x1C 2 - x0))).map (fun x => (x0 + x, y0 + y)))
def pixWord (x : Nat × Nat) : Word := BitVec.ofNat 32 (x.1 + 65536 * x.2)
/-- The samples that overflowed records cast: pixel and sample number. Of a shadow beam they lie in the receiver's pixel; which of them lie
in the record's region the manual does not say. (DESIGN CHOICE: entry 14.) -/
def overSamples (K : Kit α) (sc b : List Byte) (free : Nat) (cs : List (Child α)) : List ((Nat × Nat) × Nat) :=
  let polys := ((cs.filter (·.more)).flatMap (·.polys)).filterMap K.poly?
  if !cs.any (·.more) then []
  else if natAt b 0 1 = 1 then ((List.range 4).filter (Config.freeBool free)).map (fun j => ((natAt b 4 2, natAt b 6 2), j))
  else (regionPixels sc b).flatMap (fun x => ((List.range 4).filter (fun j =>
    let o := samplePts.getD j (0, 0)
    polys.any (inRegion [mkRat (256 * x.1 + o.1) 256, mkRat (256 * x.2 + o.2) 256]))).map (fun j => (x, j)))
/-- The ray of a sample (R317); `lane` holds the sample number. -/
def sampleRay (sc : List Byte) (x : (Nat × Nat) × Nat) : Ray :=
  let o := samplePts.getD x.2 (0, 0)
  let w (q : Rat) : Word := (rq 0 q).word
  let sx := w (mkRat (256 * x.1.1 + o.1) 256)
  let sy := w (mkRat (256 * x.1.2 + o.2) 256)
  let d (i : Nat) : Word := ffmaW sy (wordAt sc (0x90 + 4 * i)) (ffmaW sx (wordAt sc (0x80 + 4 * i)) (wordAt sc (0x70 + 4 * i)))
  let e (i : Nat) : Word := wordAt sc (0x60 + 4 * i)
  let bad := rayBad [e 0, e 1, e 2] [d 0, d 1, d 2] 0 0x7F800000
  { lane := x.2, ox := e 0, oy := e 1, oz := e 2, tmin := 0, dx := d 0, dy := d 1, dz := d 2, tmax := 0x7F800000, bad := bad
    pix := pixWord x.1, hit := none, fin := bad, todo := rootOf sc }

/-! ### Fragments (R315, R319) -/

/-- Perspective-correct barycentrics of a screen point in pixels, and their derivatives ∂u/∂x, ∂u/∂y, ∂v/∂x, ∂v/∂y: exact. -/
def baryAt (sc : List Byte) (cl : List (List Word)) (p : Pt) : Option (List Rat) :=
  match cl.mapM qs? with
  | some [c0, c1, c2] =>
    let hx : Rat := mkRat (natAt sc 0x1C 2) 2
    let hy : Rat := mkRat (natAt sc 0x1E 2) 2
    let sx := (px p - hx) / hx
    let sy := -(py p - hy) / hy
    let g (c : List Rat) (i : Nat) : Rat := c.getD i 0
    let f (i : Nat) (s : Rat) (c : List Rat) : Rat := g c i - s * g c 3
    let a1 := f 0 sx c1 - f 0 sx c0
    let b1 := f 0 sx c2 - f 0 sx c0
    let r1 := -(f 0 sx c0)
    let a2 := f 1 sy c1 - f 1 sy c0
    let b2 := f 1 sy c2 - f 1 sy c0
    let r2 := -(f 1 sy c0)
    let det := a1 * b2 - a2 * b1
    if det = 0 then none
    else
      let u := (r1 * b2 - r2 * b1) / det
      let v := (a1 * r2 - a2 * r1) / det
      let w := g c0 3 + u * (g c1 3 - g c0 3) + v * (g c2 3 - g c0 3)
      let kx := w / hx
      let ky := -w / hy
      some [u, v, kx * b2 / det, -(ky * b1) / det, -(kx * a2) / det, ky * a1 / det]
  | _ => none
/-- A word within a tolerance of an exact value: free within it (R319). -/
def within (tol x : Rat) (w : Word) : Word :=
  match q32? w with
  | some y => if qabs (y - x) ≤ tol then w else (rq 0 x).word
  | none => (rq 0 x).word
/-- Words 6 to 11 of a fragment. -/
def baryWords (free : Nat) (pix : Word) (ord : Nat) (r : Option (List Rat)) : List Word :=
  let w (i : Nat) : Word := Config.fragWord free (pix.toNat * 65536 + ord) i
  let x (l : List Rat) (i : Nat) : Rat := l.getD i 0
  match r with
  | none => (List.range 6).map w
  | some l =>
    ([2, 3, 4, 5].map (fun i => within (qabs (x l i) / 2 ^ 18) (x l i) (w (i - 2))))
      ++ [within (1 / 2 ^ 20) (x l 0) (w 4), within (1 / 2 ^ 20) (x l 1) (w 5)]

/-- What a fragment needs of its owner: its depth plane, where one can be computed, and the clip coordinates of its leaf. -/
structure Shown where
  d : Option (Side Rat)
  clip : List (List Word)
  deriving DecidableEq, Repr
/-- What one owner covers in a pixel: ids, exact parts, winning samples, and its owner. -/
structure Share (α : Type) where
  gid : Word
  pid : Word
  own : Option Shown
  parts : List (List (List α))
  wins : List Nat
  deriving DecidableEq, Repr
/-- Background last, then by ids. -/
def Share.before (a b : Share α) : Bool := idLess a.gid a.pid b.gid b.pid
def insertShare (x : Share α) : List (Share α) → List (Share α)
  | [] => [x]
  | y :: r =>
    if x.gid = y.gid ∧ x.pid = y.pid then { y with parts := y.parts ++ x.parts, wins := y.wins ++ x.wins, own := y.own.or x.own } :: r
    else if x.before y then x :: y :: r else y :: insertShare x r
def Child.share (K : Kit α) (c : Child α) (parts : List (List (List α))) : Share α :=
  { gid := c.own.elim 0xFFFFFFFF (·.gid), pid := c.own.elim 0xFFFFFFFF (·.pid), parts := parts, wins := []
    own := c.own.map (fun o => { d := match K.pt? o.d.k, K.toQ o.d.d with | some k, some d => some { k := k, d := d } | _, _ => none, clip := o.clip }) }

/-- What the rays that a sample may cast have won in a pixel. -/
def wonBy (rays : List Ray) (ownerOf : Hit → Option Shown) (x : Nat × Nat) : List (Share α) :=
  (rays.filter (·.pix == pixWord x)).map (fun r =>
    match r.hit with
    | some h => { gid := h.gid, pid := h.pid, own := ownerOf h, parts := [], wins := [r.lane] }
    | none => { gid := 0xFFFFFFFF, pid := 0xFFFFFFFF, own := none, parts := [], wins := [r.lane] })
/-- Word `FINF` of a fragment (Table 13.8): `EXACT`, ordinal and number of fragments, each in its field. -/
def fragInfo (exact : Bool) (ord n : Nat) : Word := BitVec.ofNat 32 ((if exact then 1 else 0) + 256 * (ord % 256) + 65536 * (n % 256))
/-- The fragments of one pixel. -/
def pixelFrags (K : Kit α) (sc b : List Byte) (free : Nat) (cs : List (Child α)) (rays : List Ray) (ownerOf : Hit → Option Shown)
    (x : Nat × Nat) : List (List Word) :=
  let hs := (boxSides (x.1 : Nat) (x.2 : Nat) ((x.1 + 1 : Nat) : Rat) ((x.2 + 1 : Nat) : Rat)).map K.side
  let exact := (cs.filter (!·.more)).filterMap (fun c =>
    let ps := (c.polys.map (clipAll K hs)).filter (solid K)
    if ps.isEmpty then none else some (c.share K ps))
  let l := (exact ++ wonBy rays ownerOf x).foldl (fun l s => insertShare s l) []
  l.zipIdx.map (fun s =>
    let sum := s.1.parts.foldl (fun a p => a + (area? K p).getD 0) 0 + mkRat s.1.wins.length 4
    let bg := s.1.gid = 0xFFFFFFFF
    let at_ : Pt :=
      if s.1.wins = [] then centroid Kit.exact (s.1.parts.filterMap K.poly?)
      else
        let pts := s.1.wins.map (fun j => samplePts.getD j (0, 0))
        let n : Rat := mkRat 1 (256 * pts.length)
        [(x.1 : Nat) + n * ((pts.map (·.1)).foldl (· + ·) 0 : Nat), (x.2 : Nat) + n * ((pts.map (·.2)).foldl (· + ·) 0 : Nat)]
    let c := at_.map r32
    let dep : Word := if bg then wordAt b 0xD4
      else match s.1.own.bind (·.d) with
        | some d => (rq 0 (d.dist Kit.exact (c.map (256 * ·)))).word
        | none => Config.fragWord free ((pixWord x).toNat * 65536 + s.2) 6
    [pixWord x, BitVec.ofInt 32 (rInt (sum * 2 ^ 31)),
      fragInfo s.1.wins.isEmpty s.2 l.length, dep, s.1.gid, s.1.pid]
      ++ (if bg then List.replicate 6 0
          else baryWords free (pixWord x) s.2 (s.1.own.bind (fun o => baryAt sc o.clip c))))
/-- The fragments of a primary or reflection beam, in delivery order. -/
def beamFrags (K : Kit α) (sc b : List Byte) (free : Nat) (cs : List (Child α)) (rays : List Ray) (ownerOf : Hit → Option Shown) : List (List Word) :=
  (regionPixels sc b).flatMap (pixelFrags K sc b free cs rays ownerOf)
/-- The share of a light polygon that an owner covers, with 1/4 for each sample it wins (R316, R317), clamped to [0, 1]: none where the
division gives a NaN. -/
def lightShare (parts : List (Option Rat)) (nan : Bool) (total : Option Rat) (wins : Nat) : Option Rat :=
  let sum : Option Rat := (parts.mapM (fun x => x)).map (·.foldl (· + ·) 0)
  let q : Rat := mkRat wins 4
  if nan then none
  else match sum, total with
    | some a, some t => if t ≠ 0 then some (max 0 (min 1 (r32 (a / t + q)))) else if a ≠ 0 then some 1 else none
    | some _, none => some (min 1 q)
    | none, some _ => some 1
    | none, none => none
/-- The fragments of a shadow beam (R316): one per owner, coverage relative to the light polygon, with 1/4 for each sample that an owner
wins (R317). The manual defines no depth plane and no barycentrics for them: those words are free, as is a coverage that is a NaN.
(DESIGN CHOICE: entry 14.) -/
def shadowFrags (b : List Byte) (free : Nat) (cs : List (Child Word)) (rays : List Ray) : List (List Word) :=
  let lt := lightOf b
  let whole := area2 Kit.fp (lt.1.map (flat lt.2.2))
  let nan (x : Word) : Bool := (f32 x).isNan
  let half (x : Word) : Option Rat := (q32? x).map (fun q => qabs q / 2)
  let x := (natAt b 4 2, natAt b 6 2)
  let l : List (Share Word) := ((cs.filter (fun (c : Child Word) => !c.more)).map (fun (c : Child Word) => c.share Kit.fp c.polys) ++ wonBy rays (fun _ => none) x).foldl (fun l s => insertShare s l) []
  l.zipIdx.map (fun s =>
    let w (i : Nat) : Word := Config.fragWord free ((pixWord x).toNat * 65536 + s.2) i
    let as_ := s.1.parts.map (area2 Kit.fp)
    let cov : Word := match lightShare (as_.map half) ((whole :: as_).any nan) (half whole) s.1.wins.length with
      | some r => BitVec.ofInt 32 (rInt (r * 2 ^ 31))
      | none => w 7
    let bg := s.1.gid = 0xFFFFFFFF
    [pixWord x, cov, fragInfo s.1.wins.isEmpty s.2 l.length, if bg then wordAt b 0xD4 else w 6, s.1.gid, s.1.pid]
      ++ (if bg then List.replicate 6 0 else (List.range 6).map w))

end Sys2Proof.Machine
end

