-- ==== Sys2Proof/Machine/Beam.lean ====
section
/-! DEFINITION. Sys2Proof/Machine/Beam.lean: the beam pool, the traversal of trees and rays, and the instructions of clauses of
ENG 3 (13_beams.md R303, R306 to R309, R321 to R337). -/
namespace Sys2Proof.Machine
open Host (Outcome)

/-! ### The pool (R309) -/

def PoolRec.empty : PoolRec :=
  { gen := 0, st := .free, root := 0, isRay := false, src := [], scene := [], first := false, sh := false, rays := [], cands := []
    frags := [], taken := [], cause := 0, cast := 0, wave := 0, ev := none, sys := false, kids := none, holds := [], seen := [], old := [], bad := false, endless := false }
/-- Record `n` of a team's pool. -/
def Team.record (t : Team) (n : Nat) : PoolRec := (shas t.pool n).getD PoolRec.empty
def Team.setRec (t : Team) (n : Nat) (r : PoolRec) : Team := { t with pool := sput t.pool n r }
/-- Numbers of the FREE records, ascending. -/
def Team.freeRecs (t : Team) (k : KObj) : List Nat := (List.range k.pool).filter (fun n => (t.record n).st == .free)
/-- The handle of a ray of a record. -/
def handleOf (gen : BitVec 16) (n ray : Nat) : Word := BitVec.ofNat 32 (gen.toNat * 65536 + ray % 4 * 1024 + n % 1024)
/-- The record and ray that a handle names, where it is one that R309 allows. -/
def Team.byHandle (t : Team) (h : Word) : Option (Nat × PoolRec × Nat) :=
  let n := bits h.toNat 0 10
  let ray := bits h.toNat 10 2
  let r := t.record n
  if bits h.toNat 12 4 ≠ 0 ∨ r.st = .free ∨ r.gen.toNat ≠ bits h.toNat 16 16 ∨ r.root ≠ n ∨ (!r.isRay ∧ ray ≠ 0) then none
  else some (n, r, ray)
/-- The values that are not handles. -/
def noHandle (h : Word) : Bool := h == 0xFFFFFFFF || h == 0xFFFFFFFE

/-- The counter of a cast falls once none of its records is BUSY (R331, R334). -/
def State.castDone (s : State) (tag cast : Nat) : State :=
  match s.team? tag with
  | none => s
  | some t =>
    let rs := (t.pool.map (·.2)).filter (fun r => r.cast == cast && r.ev.isSome)
    if rs.any (fun r => r.st == .busy) then s
    else match rs with
      | [] => s
      | r :: _ =>
        let s := match r.ev with
          | some n => s.updWave tag r.wave (fun wv => { wv with ev := sset 0 wv.ev n (wv.evr n - 1) })
          | none => s
        s.updTeam tag (fun t => { t with pool := t.pool.map (fun x => (x.1, if x.2.cast = cast then { x.2 with ev := none } else x.2)) })
/-- Free a record and, for a root, all its tree: the generations advance (R333). -/
def Team.freeTree (t : Team) (n : Nat) : Team :=
  { t with pool := t.pool.map (fun x => (x.1, if x.2.st ≠ .free ∧ (x.1 = n ∨ x.2.root = n) then
      { PoolRec.empty with gen := x.2.gen + 1, cast := x.2.cast, wave := x.2.wave, ev := x.2.ev } else x.2)) }

/-! ### Traversal (R304 to R306, R313, R317, R320 to R323) -/

/-- An engine read of a scene: a relaxed .dev load of memory outside windows (R306). -/
def State.sceneRead (s : State) (t : Team) (sys : Bool) (a n : Nat) : Except Bad (List Byte) := s.engRead (t.via .dev) t 0 false a n sys
/-- Run the rays of a record from number `i` on, each as far as it goes, until a read fails. -/
def runRays (cast : Nat) (rd : Nat → Nat → Except Bad (List Byte)) (first sh : Bool) : List Ray → Nat → List Cand → Seen → List Ray × List Cand × Seen × Option WalkBad
  | [], _, cs, k => ([], cs, k, none)
  | y :: ys, i, cs, k =>
    let r := Ray.run cast rd first sh i walkFuel y cs k
    match r.bad with
    | some e => (r.ray :: ys, r.cands, r.seen, some e)
    | none => let x := runRays cast rd first sh ys (i + 1) r.cands r.seen; (r.ray :: x.1, x.2)
/-- A tag that no candidate of the team has (R335). -/
def freshTag (used : List Word) (free : Nat) : Word :=
  let w := Config.candTag free
  if w ≠ 0xFFFFFFFF ∧ !used.contains w then w
  else ((List.range (used.length + 1)).map (BitVec.ofNat 32)).find? (fun x => !used.contains x) |>.getD 0
/-- Give candidates their tags. -/
def tagged (free : Nat) (used : List Word) (cs : List Cand) : List Cand :=
  (cs.zipIdx.foldl (fun (a : List Word × List Cand) c =>
    let w := freshTag a.1 (free + c.2)
    (w :: a.1, a.2 ++ [{ c.1 with tag := w }])) (used, [])).2
def Team.tags (t : Team) : List Word := t.pool.flatMap (fun x => x.2.cands.map (·.tag) ++ x.2.old)

/-- What the fragments of a leaf show in a beam, for the samples that it won: the depth plane of its triangle, the first that can be
computed (R319). -/
def leafShown (sc b : List Byte) (l : Leaf) : Shown :=
  let x := leafTris sc b l
  { d := x.tris.findSome? (fun t => if natAt b 0 1 = 2 then (triPlane Kit.fp sc t.2).map (·.2) else (triPlane Kit.exact sc t.2).map (·.2))
    clip := x.clip0 }
/-- The leaf of a hit, as it was read. -/
def Seen.shown (k : Seen) (sc b : List Byte) (h : Hit) : Option Shown :=
  ((k.at? h.leaf 96).bind (leafOf h.leaf)).map (leafShown sc b)

/-- A record after its rays have run: its batch, if a candidate waits; else it is complete (R322). -/
def PoolRec.settled (r : PoolRec) (free : Nat) (used : List Word) : PoolRec :=
  if r.cands = [] then { r with st := .ready, seen := [] } else { r with st := .cand, cands := tagged free used r.cands }
/-- One pass of the engine over a ray record: the pool, and why it stopped short. -/
def State.passRays (s : State) (t : Team) (n : Nat) (r : PoolRec) : Team × Option WalkBad :=
  let x := runRays r.cast (s.sceneRead t r.sys) r.first r.sh r.rays 0 r.cands r.seen
  let r := { r with rays := x.1, cands := x.2.1, seen := x.2.2.1 }
  (t.setRec n (if x.2.2.2.isNone then r.settled s.free t.tags else r), x.2.2.2)
/-- One pass of the engine over a beam tree of one kind: clip and split, cast the samples of overflow, and form the fragments (`frs`)
once no candidate is left. -/
def State.passTree {α : Type} (s : State) (t : Team) (k : KObj) (n : Nat) (r : PoolRec) (bk : BeamKind α)
    (frs : List (Child α) → List Ray → (Hit → Option Shown) → List (List Word)) : Team × Option WalkBad :=
  let rd := s.sceneRead t r.sys
  let w := walkScene r.cast rd (beamVisit r.scene r.src) walkFuel (rootOf r.scene) [] r.seen
  match w.1 with
  | .error e => (t.setRec n { r with seen := w.2 }, some e)
  | .ok ls =>
    let cs := (bk.children n (r.kids.getD (t.freeRecs k)) ls).1
    let kids := (cs.map (·.no)).filter (· ≠ n)
    let rays := if r.kids.isSome then r.rays else (overSamples bk.kit r.scene r.src s.free cs).map (sampleRay r.scene)
    let t1 := kids.foldl (fun t c => t.setRec c { (t.record c) with st := .ready, root := n, isRay := false, cast := 0, ev := none }) t
    let x := runRays r.cast rd false (natAt r.src 0 1 = 1) rays 0 r.cands w.2
    let r1 := { r with rays := x.1, cands := x.2.1, seen := x.2.2.1, kids := some kids }
    match x.2.2.2 with
    | some e => (t1.setRec n r1, some e)
    | none =>
      let fr := if r1.cands ≠ [] then [] else frs cs r1.rays (Seen.shown r1.seen r.scene r.src)
      (t1.setRec n { r1.settled s.free t.tags with frags := fr }, none)
/-- One pass of the engine over a beam tree. -/
def State.passBeam (s : State) (t : Team) (k : KObj) (n : Nat) (r : PoolRec) : Team × Option WalkBad :=
  match natAt r.src 0 1 with
  | 0 => s.passTree t k n r (primary r.scene r.src) (beamFrags Kit.exact r.scene r.src s.free)
  | 1 => s.passTree t k n r (shadowBeam r.src) (fun cs rays _ => shadowFrags r.src s.free cs rays)
  | _ => s.passTree t k n r (reflection r.scene r.src) (beamFrags Kit.fp r.scene r.src s.free)
/-- What the reads of a pass have done on their way. -/
def State.seenTouch (s : State) (t : Team) (sys : Bool) (new : Seen) : State :=
  new.reverse.foldl (fun s x => s.engTouch (t.via .dev) t false x.1 x.2.length sys) s
/-- The engine runs a BUSY record to its next stop: READY, CAND or FAILED, or a page fault that holds it where it stands (R322, R323). -/
def State.runRec (s : State) (tag n : Nat) : State :=
  match s.team? tag, s.gangOf tag with
  | some t, some g =>
    let r := t.record n
    let x := if r.isRay then s.passRays t n r else s.passBeam t g.kobj n r
    let new := (x.1.record n).seen.filter (fun y => !r.seen.contains y)
    let fail (c : Nat) : State := (s.seenTouch t r.sys new).updTeam tag (fun _ => x.1.setRec n { x.1.record n with st := .failed, cause := c, seen := [], cands := [] })
    match x.2 with
    | none => { (s.seenTouch t r.sys new).updTeam tag (fun _ => x.1) with free := s.free + 1024 }
    | some .malformed => fail 0x14
    | some .endless => s.updTeam tag (fun _ => t.setRec n { r with endless := true })
    | some (.bad (.fault ps)) =>
      let f := (s.seenTouch t r.sys new).enterFaults t.part t.asid ps kEngRead [0]
      f.1.updTeam tag (fun _ => x.1.setRec n { x.1.record n with holds := f.2 })
    | some (.bad e) => fail e.code
  | _, _ => s

/-! ### Reading trees and rays (R332, R335) -/

/-- What a read of the pool meets: a BUSY record; a trap; or words by lane, and the pool after it. -/
inductive PoolTry where
  | wait
  | trap (cause : Nat)
  | ok (ws : List (Nat × List Word)) (t : Team)
  deriving DecidableEq, Repr

/-- BFRAG (R332). -/
def Team.tryFrag (t : Team) (ls : List Nat) (h : Word) (rid : Nat → Nat) : PoolTry :=
  match t.byHandle h with
  | none => .trap 0x14
  | some (n, r, _) =>
    if r.isRay then .trap 0x14
    else match r.st with
      | .busy => .wait
      | .failed => .trap r.cause
      | _ => if r.bad then .trap 0x15 else match r.st with
      | .cand => .ok (ls.map (fun l => (l, 0xFFFFFFFE :: List.replicate 11 0))) t
      | _ =>
        let got := (ls.take r.frags.length).zip r.frags
        .ok (ls.map (fun l => (l, ((got.find? (·.1 == l)).map (·.2)).getD (0xFFFFFFFF :: List.replicate 11 0))))
          (t.setRec n { r with frags := r.frags.drop got.length, taken := r.taken ++ got.map (fun x => (rid x.1, x.2)) })
/-- HITGET of one lane (R335), for a record that is not BUSY. -/
def PoolRec.hitWords (r : PoolRec) (free l ray : Nat) : List Word :=
  let any (i : Nat) : Word := (Config.freeWord free 950 (8 * l + i)).setWidth 32
  if r.st = .cand then [1, any 1, any 2, any 3, any 4, any 5, 0, 0]
  else match r.rays.find? (fun y => if r.isRay then y.lane == ray else true) with
    | some y =>
      match y.hit with
      | some h => [2, h.t, h.gid, h.pid, h.u, h.v, 0, 0]
      | none => [3, any 1, any 2, any 3, any 4, any 5, 0, 0]
    | none => if r.isRay then 4 :: List.replicate 7 0 else [3, any 1, any 2, any 3, any 4, any 5, 0, 0]
/-- HITGET.cand of one lane: the words, and the record with the candidate taken. -/
def PoolRec.candWords (r : PoolRec) (rid : Nat) : List Word × PoolRec :=
  match r.cands.find? (fun c => c.taken.isNone && c.dec.isNone) with
  | none => (0xFFFFFFFF :: List.replicate 7 0, r)
  | some c => ([c.tag, c.hit.t, c.hit.gid, c.hit.pid, c.hit.u, c.hit.v, c.pix, 0],
      { r with cands := r.cands.map (fun x => if x.tag = c.tag then { x with taken := some rid } else x) })
/-- HITGET and HITGET.cand (R335): handles first, then FAILED records, then BUSY ones. -/
def Team.tryHit (t : Team) (ls : List Nat) (h : Nat → Word) (cand : Bool) (free : Nat) (rid : Nat → Nat) : PoolTry :=
  let real := ls.filter (fun l => !noHandle (h l))
  if real.any (fun l => (t.byHandle (h l)).isNone) then .trap 0x14
  else match real.findSome? (fun l => (t.byHandle (h l)).bind (fun x => if x.2.1.st = .failed then some x.2.1.cause else none)) with
    | some c => .trap c
    | none =>
      if real.any (fun l => (t.byHandle (h l)).any (fun x => x.2.1.st == .busy)) then .wait
      else if real.any (fun l => (t.byHandle (h l)).any (·.2.1.bad)) then .trap 0x15
      else
        let r := ls.foldl (fun (a : List (Nat × List Word) × Team) l =>
          if noHandle (h l) then (a.1 ++ [(l, 4 :: List.replicate 7 0)], a.2)
          else match a.2.byHandle (h l) with
            | none => a
            | some (n, r, ray) =>
              if cand then let x := r.candWords (rid l); (a.1 ++ [(l, x.1)], a.2.setRec n x.2)
              else (a.1 ++ [(l, r.hitWords free l ray)], a.2)) ([], t)
        .ok r.1 r.2

/-- The instruction, with its handles by lane, against the pool. -/
def Team.tryPool (t : Team) (i : Instr) (ls : List Nat) (h : Nat → Word) (free : Nat) (rid : Nat → Nat) : PoolTry :=
  match i with
  | .bfrag _ _ _ _ => t.tryFrag ls (h (ls.headD 0)) rid
  | .hitgetCand _ _ _ _ => t.tryHit ls h true free rid
  | _ => t.tryHit ls h false free rid
/-- Words of a result per lane into consecutive vector registers. -/
def poolWrites (m : Lanes) (d : Opd) (n : Nat) (ws : List (Nat × List Word)) : List RegW :=
  wrN m d n (fun i l => (((ws.find? (·.1 == l)).map (·.2)).getD []).getD i 0)
def poolDst : Instr → Opd × Nat
  | .bfrag _ d _ _ => (d, 12)
  | .hitget _ d _ _ => (d, 8)
  | .hitgetCand _ d _ _ => (d, 8)
  | _ => (.zero, 0)
/-- A read of the pool: at its issue, or counted until its records settle (R323 at the next instruction that names them). -/
def poolRead (i : Instr) (s : State) (h : Ctx → Nat → Word) : Outcome State Fault Refusal :=
  issue i s (fun c s =>
    if c.lanes = 0 then .ok s
    else match s.team? c.tag with
      | none => .ok s
      | some t =>
        match t.tryPool i (lanesOf c.lanes) (h c) s.free (fun l => c.wv.ridOf (l / 4)) with
        | .trap cause => .error (.trap cause 0)
        | .wait => .ok (s.start c { c.pend i c.rids with x := byLane (fun l => (h c l).setWidth 64) })
        | .ok ws t' =>
          let rw := poolWrites c.lanes (poolDst i).1 (poolDst i).2 ws
          .ok ((s.updTeam c.tag (fun _ => t')).putNow c rw))
/-- BFRAG (R332). -/
def execBfrag (h : Hdr) (d a : Opd) (ev : Option (BitVec 3)) (s : State) : Outcome State Fault Refusal :=
  poolRead (.bfrag h d a ev) s (fun c _ => (c.sc a).setWidth 32)
/-- HITGET (R335). -/
def execHitget (h : Hdr) (d a : Opd) (ev : Option (BitVec 3)) (s : State) : Outcome State Fault Refusal :=
  poolRead (.hitget h d a ev) s (fun c l => c.w32 a l)
/-- HITGET.cand (R335). -/
def execHitgetCand (h : Hdr) (d a : Opd) (ev : Option (BitVec 3)) (s : State) : Outcome State Fault Refusal :=
  poolRead (.hitgetCand h d a ev) s (fun c l => c.w32 a l)

/-- Is an operation one that waits on the pool? -/
def isPoolRead : Instr → Bool
  | .bfrag _ _ _ _ => true
  | .hitget _ _ _ _ => true
  | .hitgetCand _ _ _ _ => true
  | _ => false
/-- Try a waiting read of the pool again. -/
def State.wake1 (s : State) (tag w id : Nat) : State :=
  match s.team? tag, s.wave? tag w with
  | some t, some wv =>
    match wv.pend? id with
    | none => s
    | some q =>
      let rid (l : Nat) : Nat := ((wv.regions.find? (fun r => r.sl == l / 4 && q.rids.contains r.rid)).map (·.rid)).getD 0
      match t.tryPool q.instr (lanesOf q.lanes) (fun l => (q.x.getD l 0).setWidth 32) s.free rid with
      | .wait => s
      | .trap cause => (s.pendTrap tag w wv q cause 0).afterPend tag w
      | .ok ws t' =>
        ((s.updTeam tag (fun _ => t')).finishPend tag w q (poolWrites q.lanes (poolDst q.instr).1 (poolDst q.instr).2 ws) 0).afterPend tag w
  | _, _ => s
/-- After a record has settled or gone: the counters of its cast, then the reads that wait, oldest first. -/
def State.wakeBeams (s : State) (tag : Nat) : State :=
  match s.team? tag with
  | none => s
  | some t =>
    let casts := ((t.pool.filter (fun x => x.2.ev.isSome)).map (·.2.cast)).eraseDups
    let s := casts.foldl (fun s c => s.castDone tag c) s
    let ids := t.waves.flatMap (fun wv => (wv.pend.filter (fun q => isPoolRead q.instr)).map (fun q => (q.id, wv.ix)))
    let sorted := ids.foldl (fun (l : List (Nat × Nat)) x => (l.filter (·.1 < x.1)) ++ [x] ++ (l.filter (fun y => x.1 ≤ y.1))) []
    sorted.foldl (fun s x => s.wake1 tag x.2 x.1) s

/-- Does the engine of a placed team have this record to run, one that it does not run for ever already (R3)? -/
def State.recRuns (s : State) (t : Team) (r : PoolRec) : Bool := s.placed t && !t.retired && r.st == .busy && r.holds == [] && !r.endless
/-- BEAM_TREE_SETTLED (R315, R322, R323). -/
def execBeamTreeSettled (tag n : Nat) (s : State) : Outcome State Fault Refusal :=
  match s.team? tag with
  | none => .refused (.notEnabled "BEAM_TREE_SETTLED")
  | some t =>
    let r := t.record n
    if s.recRuns t r && !r.isRay && r.root == n then .next ((s.runRec tag n).wakeBeams tag)
    else .refused (.notEnabled "BEAM_TREE_SETTLED")
/-- RAYS_SETTLED (R322, R334): every record of a cast that can run does. -/
def execRaysSettled (tag cast : Nat) (s : State) : Outcome State Fault Refusal :=
  match s.team? tag with
  | none => .refused (.notEnabled "RAYS_SETTLED")
  | some t =>
    match (t.pool.filter (fun x => x.2.isRay && x.2.cast == cast && s.recRuns t x.2)).map (·.1) with
    | [] => .refused (.notEnabled "RAYS_SETTLED")
    | ns => .next ((ns.foldl (fun s n => s.runRec tag n) s).wakeBeams tag)

/-! ### Binding a scene (R303, R330) -/

/-- Does a scene descriptor keep Table 13.1 and R330? -/
def sceneOk (d : List Byte) : Bool :=
  let rq := natAt d 0x10 8
  let rqn := natAt d 0x18 1
  let vw := natAt d 0x1C 2
  let vh := natAt d 0x1E 2
  let wn := wordAt d 0xA0
  natAt d 0x19 1 = 0 && natAt d 0x6C 4 = 0 && natAt d 0x7C 4 = 0 && natAt d 0x8C 4 = 0 && natAt d 0x9C 4 = 0 && natAt d 0xA4 92 = 0
    && natAt d 0 8 % 128 = 0 && rq % 16 = 0 && natAt d 8 8 % 4 = 0 && (rq = 0 || (4 ≤ rqn && rqn ≤ 16))
    && 1 ≤ vw && vw ≤ 16384 && 1 ≤ vh && vh ≤ 16384 && finW wn && fltW 0 wn
/-- Run `rid` binds a scene, undoably (R303). -/
def Wave.putScene (wv : Wave) (rid : Nat) (d : List Byte) : Wave := { wv with scenes := jSet wv.scenes rid d }
/-- BVHSET (R330): it performs at issue, on the wave's scene (Table 13.9); what its read finds amiss is taken when the read returns (R279),
and a read that fails is made again then. (DEDUCED: entry 41.) -/
def execBvhset (h : Hdr) (d a : Opd) (ev : Option (BitVec 3)) (s : State) : Outcome State Fault Refusal :=
  issue (.bvhset h d a ev) s (fun c s =>
    if c.lanes = 0 then .ok s
    else if (c.sc a).toNat % 64 ≠ 0 then .error (.trap 0x06 (c.sc a).toNat)
    else
      let q := { c.pend (.bvhset h d a ev) [c.ownRid] with x := [c.sc a] }
      match s.engRead (c.wv.engVia c.tm) c.tm 0 false (c.sc a).toNat 256 c.sys with
      | .error _ => .ok (s.start c q)
      | .ok d =>
        let s := s.engTouch (c.wv.engVia c.tm) c.tm false (c.sc a).toNat 256 c.sys
        .ok ((if sceneOk d then s.onWave c (·.putScene c.ownRid d) else s).start c { q with y := [if sceneOk d then 0 else 3] }))
/-- BVHSET_COMPLETE (R330): the status is written; a failed read is made again. -/
def execBvhsetComplete (tag w id : Nat) (s : State) : Outcome State Fault Refusal :=
  withPend "BVHSET_COMPLETE" s tag w id (fun i => match i with | .bvhset _ _ _ _ => true | _ => false) (fun t wv q =>
    match q.instr, q.y with
    | .bvhset _ o _ _, st :: _ => s.finishPend tag w q (wr1 q.lanes o (fun _ => st.setWidth 32)) 0
    | .bvhset _ o _ _, [] =>
      match s.engRead (wv.engVia t) t 0 false (q.x.headD 0).toNat 256 (t.sys || wv.handler) with
      | .error e => s.engStop tag w t wv q false e
      | .ok d =>
        let s := s.engTouch (wv.engVia t) t false (q.x.headD 0).toNat 256 (t.sys || wv.handler)
        let s := if sceneOk d then s.updWave tag w (·.putScene (q.rids.headD 0) d) else s
        s.finishPend tag w q (wr1 q.lanes o (fun _ => if sceneOk d then 0 else 3)) 0
    | _, _ => s)

/-! ### Casting (R331, R334) -/

/-- Is a scene bound, or about to be by a BVHSET that has issued? -/
def Wave.sceneDue (wv : Wave) : Bool := wv.scene.isSome || wv.pend.any (fun q => match q.instr with | .bvhset _ _ _ _ => true | _ => false)
/-- BEAM (R331): the record is read at commit step 2. -/
def execBeam (h : Hdr) (d a : Opd) (ev : Option (BitVec 3)) (s : State) : Outcome State Fault Refusal :=
  issue (.beam h d a ev) s (fun c s =>
    let o := (c.sc a).toNat
    let e := c.endOp (.beam h d a ev) [BitVec.ofNat 64 o] [] []
    if c.lanes = 0 then .ok (s.endRuns c e)
    else if o % 16 ≠ 0 then .error (.trap 0x06 o)
    else if o + 256 > c.gg.kobj.scrLen then .error (.trap 0x08 o)
    else if !c.wv.sceneDue then .error (.trap 0x14 0)
    else .ok ((s.start c { c.pend (.beam h d a ev) [c.ownRid] with dsts := [] }).endRuns c e))
/-- RAYS (R334): the operands are kept, four words a lane. -/
def execRays (h : Hdr) (d a b : Opd) (first sh : Bool) (ev : Option (BitVec 3)) (s : State) : Outcome State Fault Refusal :=
  issue (.rays h d a b first sh ev) s (fun c s =>
    let four (o : Opd) : List DWord := (List.range 128).map (fun i => (c.wide o (i % 4) (i / 4)).setWidth 64)
    let e := c.endOp (.rays h d a b first sh ev) (four a) (four b) []
    if c.lanes = 0 then .ok (s.endRuns c e)
    else if !c.wv.sceneDue then .error (.trap 0x14 0)
    else .ok ((s.start c { c.pend (.rays h d a b first sh ev) c.rids with dsts := [] }).endRuns c e))

/-- The counter on which a cast is counted, taken over from its pending operation. -/
def State.castEv (s : State) (tag w iss : Nat) : Option Nat := ((s.wave? tag w).bind (·.pend? iss)).bind (·.ev)
def State.dropPend (s : State) (tag w iss : Nat) : State := s.updWave tag w (fun wv => { wv with pend := wv.pend.filter (·.id ≠ iss) })
/-- Lower a counter. -/
def State.lower (s : State) (tag w : Nat) (ev : Option Nat) : State :=
  match ev with
  | some n => s.updWave tag w (fun wv => { wv with ev := sset 0 wv.ev n (wv.evr n - 1) })
  | none => s
/-- BEAM at commit step 4 (R331): the lowest FREE record takes the source record `src`. (DEDUCED: entry 41.) -/
def State.beamPerform (s : State) (t : Team) (w : Nat) (e : EndOp) (d : Opd) (src : List Byte) (sys : Bool) : State :=
  match s.team? t.tag, s.wave? t.tag w, s.gang? t.gid with
  | some t, some wv, some g =>
    let ev := s.castEv t.tag w e.iss
    let s := s.dropPend t.tag w e.iss
    match t.freeRecs g.kobj with
    | [] => (s.putRegs t.tag w (wr1 e.lanes d (fun _ => 0xFFFFFFFF))).lower t.tag w ev
    | n :: _ =>
      let r : PoolRec := { PoolRec.empty with gen := (t.record n).gen, st := .busy, root := n, src := src, scene := wv.scene.getD []
                                              cast := e.iss, wave := w, ev := ev, sys := sys }
      (s.updTeam t.tag (·.setRec n r)).putRegs t.tag w (wr1 e.lanes d (fun _ => handleOf r.gen n 0))
  | _, _, _ => s

/-- Operand word `i` of a lane of a RAYS. -/
def rayWord (x : List DWord) (l i : Nat) : Word := (x.getD (4 * l + i) 0).setWidth 32
def EndOp.ray (e : EndOp) (l : Nat) : Ray :=
  let o (i : Nat) : Word := rayWord e.x l i
  let d (i : Nat) : Word := rayWord e.y l i
  { lane := l % 4, ox := o 0, oy := o 1, oz := o 2, tmin := o 3, dx := d 0, dy := d 1, dz := d 2, tmax := d 3
    bad := rayBad [o 0, o 1, o 2] [d 0, d 1, d 2] (o 3) (d 3), pix := 0, hit := none, fin := false, todo := [] }
/-- RAYS at commit step 4 (R334): one record for each slice with an active lane. -/
def State.raysPerform (s : State) (t : Team) (w : Nat) (e : EndOp) (d : Opd) (first sh sys : Bool) : State :=
  match s.team? t.tag, s.wave? t.tag w, s.gang? t.gid with
  | some t, some wv, some g =>
    let ev := s.castEv t.tag w e.iss
    let s := s.dropPend t.tag w e.iss
    let sc := wv.scene.getD []
    let r := (slicesOf e.lanes).foldl (fun (a : Team × List (Nat × Word)) sl =>
      let ls := lanesOf (e.lanes &&& sliceMask sl)
      let good := ls.filter (fun l => !(e.ray l).bad)
      match a.1.freeRecs g.kobj with
      | [] => (a.1, a.2 ++ ls.map (fun l => (l, if (e.ray l).bad then 0xFFFFFFFE else 0xFFFFFFFF)))
      | n :: _ =>
        let x : PoolRec := { PoolRec.empty with gen := (a.1.record n).gen, st := if good = [] then .ready else .busy, root := n, isRay := true
                                                scene := sc, first := first, sh := sh, rays := good.map (fun l => { e.ray l with todo := rootOf sc }), cast := e.iss
                                                wave := w, ev := ev, sys := sys }
        (a.1.setRec n x, a.2 ++ ls.map (fun l => (l, if (e.ray l).bad then 0xFFFFFFFE else handleOf x.gen n (l % 4))))) (t, [])
    let s := (s.updTeam t.tag (fun _ => r.1)).putRegs t.tag w
      (wr1 e.lanes d (fun l => ((r.2.find? (·.1 == l)).map (·.2)).getD 0xFFFFFFFF))
    if r.1.pool.any (fun x => x.2.cast == e.iss && x.2.ev.isSome) then s.castDone t.tag e.iss else s.lower t.tag w ev
  | _, _, _ => s

/-! ### Freeing and deciding (R333, R336) -/

/-- BDONE (R333): frees at commit step 3. -/
def execBdone (h : Hdr) (a : Opd) (s : State) : Outcome State Fault Refusal :=
  issue (.bdone h a) s (fun c s =>
    let x : Word := (c.sc a).setWidth 32
    if c.lanes = 0 ∨ noHandle x then .ok s
    else if (c.tm.byHandle x).isNone then .error (.trap 0x14 0)
    else .ok (s.updRun c (fun r => { r with bdone := r.bdone ++ [x] })))
/-- The candidate of a tag among those handed out: of a record that waits for decisions (R335, R336), with its record. -/
def Team.candOf (t : Team) (tag : Word) : Option (PoolRec × Cand) :=
  t.pool.findSome? (fun x => if x.2.st = .cand then (x.2.cands.find? (·.tag == tag)).map (fun c => (x.2, c)) else none)
/-- The cause of a FAILED record that a tag names (R323). -/
def Team.failedBy (t : Team) (tag : Word) : Option Nat :=
  t.pool.findSome? (fun x => if x.2.st = .failed ∧ x.2.old.contains tag then some x.2.cause else none)
/-- HITACC (R336): the decisions are kept until commit step 3. -/
def execHitacc (h : Hdr) (a b d : Opd) (s : State) : Outcome State Fault Refusal :=
  issue (.hitacc h a b d) s (fun c s =>
    let ls := (lanesOf c.lanes).filter (fun l => c.w32 a l ≠ 0xFFFFFFFF)
    let bad (l : Nat) : Bool := (c.w32 d l).toNat > 2 || (match c.tm.candOf (c.w32 a l) with
      | none => true
      | some (_, x) => x.dec.isSome || x.taken.any (· ≠ c.wv.ridOf (l / 4)))
    if (ls.filter bad).any (fun l => (c.tm.failedBy (c.w32 a l)).isNone) then .error (.trap 0x14 0)
    else match ls.findSome? (fun l => c.tm.failedBy (c.w32 a l)) with
    | some cause => .error (.trap cause 0)
    | none => if ls.any (fun l => (c.tm.candOf (c.w32 a l)).any (·.1.bad)) then .error (.trap 0x15 0) else .ok (s.onWave c (fun wv => { wv with regions := wv.regions.map (fun r =>
      { r with decisions := r.decisions ++ ((ls.filter (fun l => l / 4 = r.sl)).map (fun l =>
          ({ tag := c.w32 a l, dec := (c.w32 d l).toNat, t := c.w32 b l } : Decision))) }) })))

/-- The hit of an accepted candidate of a ray, if its t lies in (tmin, tbest] as the batch found it, and whether it ends the ray (R322).
(DEDUCED: entry 14.) -/
def Ray.accepted (y : Ray) (c : Cand) : Option (Hit × Bool) :=
  match c.dec with
  | some (k, t) =>
    let h : Hit := { c.hit with t := if c.proc then t else c.hit.t }
    if k ≠ 0 && fltW y.tmin h.t && fleW h.t y.tbest then some (h, k = 2) else none
  | none => none
/-- A batch takes effect on a ray: the accepted candidates compete, and a terminating accept, or any with `.first`, ends the ray. -/
def Ray.decide (first : Bool) (y : Ray) (cs : List Cand) : Ray :=
  let hs := cs.filterMap y.accepted
  let z := hs.foldl (fun z h => z.offer h.1 first) y
  if y.fin || hs.any (·.2) || (first && hs ≠ []) then { z with fin := true, todo := [] } else z
/-- Once every candidate of the batch is decided, the record is BUSY again (R322). -/
def PoolRec.resume (r : PoolRec) : PoolRec :=
  if r.st = .cand ∧ r.cands.all (·.dec.isSome) then
    { r with st := .busy, cands := [], old := r.old ++ r.cands.map (·.tag)
             rays := r.rays.zipIdx.map (fun y => y.1.decide r.first (r.cands.filter (·.ray == y.2))) }
  else r
/-- Commit step 3 of a run, for the pool (R324, R333, R336): what it took is gone, what it left undecided is given back, its
decisions take effect, and the records it frees go. -/
def State.beamCommit (s : State) (t : Team) (r : Region) : State :=
  let one (x : PoolRec) : PoolRec :=
    let cs := if x.st ≠ .cand then x.cands else r.decisions.foldl (fun (cs : List Cand) d => cs.map (fun c => if c.tag = d.tag ∧ c.dec.isNone then { c with dec := some (d.dec, d.t) } else c)) x.cands
    ({ x with taken := x.taken.filter (·.1 ≠ r.rid)
              cands := cs.map (fun c => if c.taken = some r.rid then { c with taken := none } else c) } : PoolRec).resume
  let s := s.updTeam t.tag (fun t => { t with pool := t.pool.map (fun x => (x.1, one x.2)) })
  let s := r.bdone.foldl (fun s h => s.updTeam t.tag (fun t => match t.byHandle h with | some (n, _, _) => t.freeTree n | none => t)) s
  if r.bdone = [] then s else s.wakeBeams t.tag

/-! ### Textures (R326 to R328, R337) -/

/-- Issue TEX or TEXQ: C and `J` by lane, and the descriptor's address. -/
def texIssue (i : Instr) (s : State) (a b d : Opd) : Outcome State Fault Refusal :=
  issue i s (fun c s =>
    let four (o : Opd) : List DWord := (List.range 128).map (fun i => (c.wide o (i % 4) (i / 4)).setWidth 64)
    if c.lanes = 0 then .ok s
    else if (c.sc d).toNat % 64 ≠ 0 then .error (.trap 0x06 (c.sc d).toNat)
    else .ok (s.start c { c.pend i c.rids with x := four a, y := four b, z := [c.sc d] }))
/-- TEX (R337). -/
def execTex (h : Hdr) (d a b c : Opd) (nr : Bool) (ev : Option (BitVec 3)) (s : State) : Outcome State Fault Refusal :=
  texIssue (.tex h d a b c nr ev) s a b c
/-- TEXQ (R337). -/
def execTexq (h : Hdr) (d a b c : Opd) (ev : Option (BitVec 3)) (s : State) : Outcome State Fault Refusal :=
  texIssue (.texq h d a b c ev) s a b c

/-- Does a texture descriptor keep Table 13.11? -/
def texOk (d : List Byte) : Bool :=
  let lw := natAt d 0x10 1
  let lh := natAt d 0x11 1
  let lv := natAt d 0x12 1
  natAt d 0 8 % 65536 = 0 && natAt d 8 8 % 8 = 0 && lw ≤ 14 && lh ≤ 14 && 1 ≤ lv && lv ≤ 1 + max lw lh && natAt d 0x13 1 ≤ 2
    && natAt d 0x14 1 ≤ 2 && natAt d 0x15 3 = 0 && natAt d 0x28 24 = 0
/-- Bytes of a texel, and rows of a tile. -/
def texSize (d : List Byte) : Nat := if natAt d 0x13 1 = 1 then 8 else 4
def texRows (d : List Byte) : Nat := 65536 / (128 * texSize d)
def texW (d : List Byte) (k : Nat) : Nat := max (2 ^ natAt d 0x10 1 / 2 ^ k) 1
def texH (d : List Byte) (k : Nat) : Nat := max (2 ^ natAt d 0x11 1 / 2 ^ k) 1
def tilesX (d : List Byte) (k : Nat) : Nat := (texW d k + 127) / 128
def tilesY (d : List Byte) (k : Nat) : Nat := (texH d k + texRows d - 1) / texRows d
/-- Global number of the first tile of a level. -/
def levelTile (d : List Byte) (k : Nat) : Nat := (List.range k).foldl (fun n j => n + tilesX d j * tilesY d j) 0
/-- A texel after `ADDR`, or none for the border (R327). -/
def texAddr (d : List Byte) (k : Nat) (i j : Int) : Option (Nat × Nat) :=
  let w : Int := texW d k
  let h : Int := texH d k
  match natAt d 0x14 1 with
  | 0 => some ((i % w).toNat, (j % h).toNat)
  | 1 => some ((clampI 0 (w - 1) i).toNat, (clampI 0 (h - 1) j).toNat)
  | _ => if 0 ≤ i ∧ i < w ∧ 0 ≤ j ∧ j < h then some (i.toNat, j.toNat) else none
def texTile (d : List Byte) (k : Nat) (x : Nat × Nat) : Nat := levelTile d k + x.2 / texRows d * tilesX d k + x.1 / 128
def texelVa (d : List Byte) (k : Nat) (x : Nat × Nat) : Nat :=
  (natAt d 0 8 + 65536 * texTile d k x + (x.2 % texRows d * 128 + x.1 % 128) * texSize d) % 2 ^ 64
/-- The four channels of a texel. -/
def texel (d bs : List Byte) : List Word :=
  match natAt d 0x13 1 with
  | 0 => (List.range 4).map (fun i => (rq 0 (mkRat (natAt bs i 1) 255)).word)
  | 1 => (List.range 4).map (fun i => ((fH false (natAt bs (2 * i) 2)).round fp32 0).word)
  | _ => [wordAt bs 0, 0, 0, 0x3F800000]
/-- The footprint of a lane (R327): level, centre, width and height; none where an operand is not finite. -/
def footprint (d : List Byte) (c j : Nat → Word) : Option (Nat × Rat × Rat × Rat × Rat) :=
  match qs? [c 0, c 1, j 0, j 1, j 2, j 3] with
  | some [cs, ct, j0, j1, j2, j3] =>
    let ex := r32 (r32 (qabs j0 + qabs j1) * (2 ^ natAt d 0x10 1 : Nat))
    let ey := r32 (r32 (qabs j2 + qabs j3) * (2 ^ natAt d 0x11 1 : Nat))
    let k0 := ((List.range 130).find? (fun k => max ex ey ≤ ((2 ^ (k + 1) : Nat) : Rat))).getD 130
    let k := (clampI 0 ((natAt d 0x12 1 : Nat) - 1) (k0 + (c 3).toInt)).toNat
    let lim (e : Rat) : Rat := min (max (r32 (e * mkRat 1 (2 ^ k))) 1) 16
    some (k, r32 (cs * (texW d k : Nat)), r32 (ct * (texH d k : Nat)), lim ex, lim ey)
  | _ => none
/-- Cells of the unit grid that an interval meets, with the lengths they share. -/
def cells (c w : Rat) : List (Int × Rat) :=
  let lo := c - w / 2
  let hi := c + w / 2
  ((List.range 18).map (fun n => lo.floor + ((n : Nat) : Int))).filterMap (fun (i : Int) =>
    let len := min hi ((i : Rat) + 1) - max lo (i : Rat)
    if 0 < len then some (i, len) else none)
/-- Bytes that a TEX reads: relaxed .dev loads of its run as at its issue, never through a window (R337). (DEDUCED: entry 41.) -/
def State.texRead (s : State) (t : Team) (wv : Wave) (q : Pend) (rid va n : Nat) (sys : Bool) : Except Bad (List Byte) :=
  if s.inWindow t.part t.asid va n then .error (.prot va)
  else s.vreadOwn (t.via .dev) t.part t.asid va n sys (fun i => q.ownByte wv s.free rid t.asid (va + i))
/-- What one lane of a TEX or TEXQ gives: four words, the lowest missing tile, and the ranges read. -/
structure TexOut where
  ws : List Word
  miss : Option Nat
  reads : List (Nat × Nat)
  deriving DecidableEq, Repr
/-- Sum of weighted texels, by channel (R327). -/
def weigh (bw bh : Rat) (vs : List (List Word × Rat)) : List Word :=
  vs.foldl (fun acc v => let wgt := (rq 0 (v.2 / (bw * bh))).word; (acc.zip v.1).map (fun x => ffmaW wgt x.2 x.1)) (List.replicate 4 0)
/-- One lane of a TEX or TEXQ (R326 to R328, R337). -/
def State.texLane (s : State) (t : Team) (wv : Wave) (sys : Bool) (q : Pend) (query : Bool) (l : Nat) : Except Bad TexOut :=
  let rid := wv.ridOf (l / 4)
  let va := (q.z.headD 0).toNat
  match s.texRead t wv q rid va 64 sys with
  | .error e => .error e
  | .ok d =>
    if !texOk d then .error (.prot va)
    else match footprint d (fun i => rayWord q.x l i) (fun i => rayWord q.y l i) with
      | none => .ok { ws := (List.range 4).map (fun i => (Config.freeWord s.free 960 (4 * l + i)).setWidth 32), miss := none, reads := [(va, 64)] }
      | some (k, cx, cy, bw, bh) =>
        let xs := cells cx bw
        let met := (cells cy bh).flatMap (fun y => xs.map (fun x => (x.1, y.1, x.2 * y.2)))
        let tiles := ((met.filterMap (fun m => texAddr d k m.1 m.2.1)).map (texTile d k)).eraseDups
        let rmap (n : Nat) : Nat := (natAt d 8 8 + 8 * (n / 64)) % 2 ^ 64
        match allOk (tiles.map (fun n => (s.texRead t wv q rid (rmap n) 8 sys).map (fun b => (n, bit (ofBytes b) (n % 64))))) with
        | .error e => .error e
        | .ok res =>
          let gone := (res.filter (!·.2)).map (·.1)
          let miss : Option Nat := match gone with | [] => none | n :: r => some (r.foldl min n)
          let border := (List.range 4).map (fun i => wordAt d (0x18 + 4 * i))
          let reads := (va, 64) :: tiles.map (fun n => (rmap n, 8))
          if query then
            let mid := match texAddr d k cx.floor cy.floor with
              | some x => BitVec.ofNat 32 (texTile d k x)
              | none => (Config.freeWord s.free 961 l).setWidth 32
            .ok { ws := [BitVec.ofNat 32 k, mid, if miss.isNone then 1 else 0, BitVec.ofNat 32 met.length], miss := none, reads := reads }
          else if miss.isSome then .ok { ws := border, miss := miss, reads := reads }
          else match allOk (met.map (fun m => match texAddr d k m.1 m.2.1 with
              | none => .ok (border, m.2.2)
              | some x => (s.texRead t wv q rid (texelVa d k x) (texSize d) sys).map (fun b => (texel d b, m.2.2)))) with
            | .error e => .error e
            | .ok vs => .ok { ws := weigh bw bh vs, miss := none
                              reads := reads ++ (met.filterMap (fun m => texAddr d k m.1 m.2.1)).map (fun x => (texelVa d k x, texSize d)) }
/-- The reshade bit and the request of a miss (R328), from the wave's scene. -/
def texMissOf (sc : List Byte) (pix : Word) (desc tile : Nat) (site : DWord) (lanes : Lanes) : TexMiss :=
  let x := bits pix.toNat 0 16
  let y := bits pix.toNat 16 16
  let rs := natAt sc 8 8
  let rqa := natAt sc 0x10 8
  { rshd := if rs = 0 then none else some (rs + 4 * (y / 16 * natAt sc 0x1A 2 + x / 512), x / 16 % 32)
    rq := if rqa = 0 then none else some (rqa, natAt sc 0x18 1), desc := desc, tile := tile, site := site, lanes := lanes }
/-- TEX_COMPLETE (R337). -/
def execTexComplete (tag w id : Nat) (s : State) : Outcome State Fault Refusal :=
  withPend "TEX_COMPLETE" s tag w id (fun i => match i with | .tex _ _ _ _ _ _ _ => true | .texq _ _ _ _ _ _ => true | _ => false) (fun t wv q =>
    let f : Option (Opd × Bool × Bool) := match q.instr with
      | .tex _ d _ _ _ nr _ => some (d, nr, false)
      | .texq _ d _ _ _ _ => some (d, true, true)
      | _ => none
    match f with
    | none => s
    | some (d, nr, query) =>
      let sys := t.sys || wv.handler
      let ls := lanesOf q.lanes
      let r (l : Nat) : Except Bad TexOut := s.texLane t wv sys q query l
      match ls.findSome? (fun l => match r l with | .error (.fault _) => none | .error e => some e | .ok _ => none) with
      | some e => s.pendTrap tag w wv q e.code e.addr
      | none =>
        let bad := ls.filter (fun l => match r l with | .error _ => true | .ok _ => false)
        if bad ≠ [] then
          s.pageFault tag w ((bad.map (· / 4)).eraseDups)
            ((bad.flatMap (fun l => match r l with | .error (.fault ps) => ps | _ => [])).eraseDups) kEngRead
        else
          let out (l : Nat) : TexOut := match r l with | .ok x => x | .error _ => { ws := [], miss := none, reads := [] }
          let s := ((ls.flatMap (fun l => (out l).reads)).eraseDups).foldl (fun s x => s.touch (t.via .dev) t.part t.asid x.1 x.2 sys .read true) s
          let misses := ls.filterMap (fun l => (out l).miss.bind (fun n => wv.scene.map (fun sc =>
            (l / 4, texMissOf sc (rayWord q.x l 2) (q.z.headD 0).toNat n q.site q.lanes))))
          let s := if nr then s else s.updWave tag w (fun wv => { wv with regions := wv.regions.map (fun r =>
            { r with tex := r.tex ++ ((misses.filter (·.1 == r.sl)).map (·.2)) }) })
          s.finishPend tag w q (wrN q.lanes d 4 (fun i l => (out l).ws.getD i 0)) 0)

/-- Addresses that the misses of a run write at commit step 3, from memory as it stands: reshade words, ring headers and the slots
claimed (R328), with whether they are read too. -/
def State.texRanges (s : State) (t : Team) (sys : Bool) (ms : List TexMiss) : List (Nat × Nat × Bool × TexMiss) :=
  ms.zipIdx.flatMap (fun m =>
    (match m.1.rshd with | some (a, _) => [(a % 2 ^ 64, 4, true, m.1)] | none => [])
      ++ (match m.1.rq with
          | some (a, n) =>
            (a, 16, true, m.1) :: (match s.readBy (t.via .dev) t.part t.asid a 4 sys .read with
              | .ok b => [((a + 16 + 16 * ((ofBytes b + m.2) % 2 ^ n)) % 2 ^ 64, 16, false, m.1)]
              | .error _ => [])
          | none => []))
/-- Why the misses of a run cannot be written, with the access kind and the miss; never through a window (R240). -/
def State.texCheck (s : State) (t : Team) (sys : Bool) (ms : List TexMiss) : List (Bad × Nat × TexMiss) :=
  (s.texRanges t sys ms).filterMap (fun x =>
    if s.inWindow t.part t.asid x.1 x.2.1 then some (.prot x.1, kEngWrite, x.2.2.2)
    else match s.checkBy (some t.core) t.part t.asid x.1 x.2.1 sys .write with
      | some b => some (b, kEngWrite, x.2.2.2)
      | none => match s.readBy (t.via .dev) t.part t.asid x.1 x.2.1 sys .read with
        | .error b => if x.2.2.1 then some (b, kEngRead, x.2.2.2) else none
        | .ok _ => none)
/-- A word that a miss reads and changes at .dev. -/
def State.texWord (s : State) (t : Team) (sys : Bool) (a : Nat) : Nat × State :=
  ((match s.readBy (t.via .dev) t.part t.asid a 4 sys .read with | .ok b => ofBytes b | .error _ => 0), s.touch (t.via .dev) t.part t.asid a 4 sys .read true)
/-- The effects of a miss (R328). -/
def State.texMiss (s : State) (t : Team) (sys : Bool) (m : TexMiss) : State :=
  let wr (s : State) (a : Nat) (bs : List Byte) : State := (s.writeBy (t.via .dev) t.part t.asid a sys bs).tableWrite t.asid a bs.length
  let s1 := match m.rshd with
    | some (a, b) => let x := s.texWord t sys (a % 2 ^ 64); wr x.2 (a % 2 ^ 64) (toBytes 4 (x.1 ||| 2 ^ b))
    | none => s
  match m.rq with
  | none => s1
  | some (a, n) =>
    let w := s1.texWord t sys a
    let r := w.2.texWord t sys (a + 4)
    if (w.1 + 2 ^ 32 - r.1) % 2 ^ 32 = 2 ^ n then r.2
    else
      let s2 := wr r.2 a (toBytes 4 (w.1 + 1))
      let e := (a + 16 + 16 * (w.1 % 2 ^ n)) % 2 ^ 64
      let s3 := wr s2 e (toBytes 8 m.desc ++ toBytes 4 m.tile)
      wr (s3.release (some t.core) Scope.dev.rank) (e + 12) (toBytes 4 (w.1 + 1))

end Sys2Proof.Machine
end

