-- ==== Sys2Proof/Machine/System.lean ====
section
/-! DEFINITION. Sys2Proof/Machine/System.lean: system registers, RINV, QCTL, TRAP, RTE, ENRD and ROLE (17_interrupts.md R403 to
R406, R419 to R423; 05_placement.md R103 to R107; 18 R431, R434; 16 R388), and the events by which a CSRW takes effect. -/
namespace Sys2Proof.Machine
open Host (Outcome)

/-! ### Registers (R404 to R406) -/

/-- `COREID` of a core (R10, Table 1.2). -/
def coreId (core : Nat) : Nat :=
  let q := core / 64
  let r := core % 64 / 8
  let c := core % 8
  ((q / 2 * 4 + r / 2) * 8 + (q % 2 * 4 + c / 2)) * 256 + q * 64 + r * 8 + c
/-- A partition register by its number (Table 17.2). -/
def Part.reg (q : Part) (n : Nat) : DWord :=
  match n with
  | 0x20 => q.pqmask | 0x21 => q.pways | 0x22 => q.pbws | 0x23 => q.pmbase | 0x24 => q.pmlim | 0x25 => q.milv | 0x26 => q.nbnd
  | 0x27 => q.prsv | 0x28 => q.prgn | 0x29 => q.energy | 0x2A => q.sltmo | 0x2B => q.tvec | _ => q.tsave
def Part.setReg (q : Part) (n : Nat) (x : DWord) : Part :=
  match n with
  | 0x20 => { q with pqmask := x } | 0x21 => { q with pways := x } | 0x22 => { q with pbws := x } | 0x23 => { q with pmbase := x }
  | 0x24 => { q with pmlim := x } | 0x25 => { q with milv := x } | 0x26 => { q with nbnd := x } | 0x27 => { q with prsv := x }
  | 0x28 => { q with prgn := x } | 0x29 => { q with energy := x } | 0x2A => { q with sltmo := x } | 0x2B => { q with tvec := x }
  | _ => { q with tsave := x }
/-- A register as it stands, partition registers in partition `p`. -/
def State.regNow (s : State) (t : Team) (wv : Wave) (p n : Nat) : DWord :=
  match n with
  | 0 => wv.fmode
  | 1 => wv.fflags
  | 8 => wv.tcause
  | 9 => wv.taddr
  | 0xA => wv.tregion
  | 0x10 => BitVec.ofNat 64 (coreId t.core)
  | 0x11 => BitVec.ofNat 64 (t.asid * 2 ^ 48) ||| s.asidDir
  | 0x12 => t.pcap
  | n => (s.part p).reg n
/-- What CSRR reads: `TSAVE` of the own partition is the address of the wave's own frame (R406). -/
def State.csrRead (s : State) (t : Team) (wv : Wave) (n : Nat) : DWord :=
  if n = 0x2C ∧ t.reach = t.part then BitVec.ofNat 64 (s.frameAddr t wv) else s.regNow t wv t.reach n
/-- CSRR (R421). -/
def execCsrr (h : Hdr) (d : Opd) (reg : BitVec 12) (s : State) : Outcome State Fault Refusal :=
  compute (.csrr h d reg) s (fun c => (c.dst64 d (fun _ => s.csrRead c.tm c.wv reg.toNat), 0))

/-- Issue a CSRW: the wave is held until the write takes effect; an abort does not undo it (R421). (DEDUCED: entry 36.) -/
def csrIssue (i : Instr) (s : State) (a : Opd) : Outcome State Fault Refusal :=
  issue i s (fun c s => .ok (s.start c { c.pend i [] with
    hold := true, x := [c.sc a], y := [c.firstClause], z := [BitVec.ofNat 64 c.tm.reach] }))
/-- CSRW (R421). -/
def execCsrw (h : Hdr) (a : Opd) (reg : BitVec 12) (s : State) : Outcome State Fault Refusal := csrIssue (.csrw h a reg) s a
/-- CSRW.set (R421). -/
def execCsrwSet (h : Hdr) (a : Opd) (reg : BitVec 12) (s : State) : Outcome State Fault Refusal := csrIssue (.csrwSet h a reg) s a
/-- CSRW.clr (R421). -/
def execCsrwClr (h : Hdr) (a : Opd) (reg : BitVec 12) (s : State) : Outcome State Fault Refusal := csrIssue (.csrwClr h a reg) s a

/-- The value that a CSRW writes, from the value that stands (R421). (DEDUCED: entry 36.) -/
def csrNew (i : Instr) (old src : DWord) : DWord :=
  match i with
  | .csrwSet _ _ _ => old ||| src
  | .csrwClr _ _ _ => old &&& ~~~src
  | _ => src
/-- A CSRW of one of the registers `f` takes effect: `k` answers none for the protection trap (R103 to R405). A write of a
partition register waits while the root core is halted (R417). -/
def csrWrite (mn : String) (s : State) (tag w id : Nat) (f : Nat → Bool) (k : Nat → Nat → DWord → Option State) :
    Outcome State Fault Refusal :=
  match s.team? tag, s.wave? tag w with
  | some t, some wv =>
    match wv.pend? id with
    | some q =>
      match csrOf q.instr with
      | some (n, true) =>
        if !f n || (csrPart n && s.rootHalt) then .refused (.notEnabled mn)
        else
          let p := (q.z.headD 0).toNat
          match k n p (csrNew q.instr (s.regNow t wv p n) (q.x.headD 0)) with
          | some s => .next ((s.finishPend tag w q [] 0).afterPend tag w)
          | none => .next ((s.updWave tag w (fun wv => { wv with pend := wv.pend.filter (·.id ≠ id) })).takeTrap tag w (wv.bundleOf id q.mask)
              { cause := 0x08, lanes := q.lanes, addr := q.site, region := q.y.headD 0, after := false, faddr := 0 })
      | _ => .refused (.notEnabled mn)
    | none => .refused (.notEnabled mn)
  | _, _ => .refused (.notEnabled mn)

/-- FMODE_WRITE (R160, R162). -/
def execFmodeWrite (tag w id : Nat) (s : State) : Outcome State Fault Refusal :=
  csrWrite "FMODE_WRITE" s tag w id (· == 0) (fun _ _ x => some (s.updWave tag w (fun wv => { wv with fmode := x &&& 3 })))
/-- FFLAGS_WRITE (R160, R162). -/
def execFflagsWrite (tag w id : Nat) (s : State) : Outcome State Fault Refusal :=
  csrWrite "FFLAGS_WRITE" s tag w id (· == 1) (fun _ _ x => some (s.updWave tag w (fun wv => { wv with fflags := x &&& 0xFF })))
/-- ASIDV_WRITE (R203): `DIR` only. -/
def execAsidvWrite (tag w id : Nat) (s : State) : Outcome State Fault Refusal :=
  csrWrite "ASIDV_WRITE" s tag w id (· == 0x11) (fun _ _ x => some { s with asidDir := x &&& 0x00000FFFFFF80000 })
/-- PCAP_WRITE (R103, R405): `SEL` only; a reserved bit traps. -/
def execPcapWrite (tag w id : Nat) (s : State) : Outcome State Fault Refusal :=
  csrWrite "PCAP_WRITE" s tag w id (· == 0x12) (fun _ _ x =>
    if bits x.toNat 8 55 ≠ 0 ∨ bits x.toNat 2 2 ≠ 0 then none
    else some (s.updTeam tag (fun t => { t with pcap := (t.pcap &&& ~~~(3#64)) ||| (x &&& 3) })))

/-! ### Partitions (R102 to R111, R388) -/

/-- Is a team on its cores? -/
def State.resident (s : State) (t : Team) : Bool := !t.retired && (s.gang? t.gid).any (fun g => g.st == .placed || g.st == .leaving)
/-- The bytes of a line that lie in a range of physical addresses become undefined. -/
def Line.lose (l : Line) (lo hi : Nat) : Line :=
  { l with und := l.und ||| (l.mask &&& byteMask ((List.range 256).filter (fun o => lo ≤ l.pa + o && l.pa + o < hi))) }
/-- The bytes of a partition's range become undefined, in memory and in every line that holds them (R459). (DEDUCED: entry 26.) -/
def State.loseRange (s : State) (p : Nat) : State :=
  let lo := (s.part p).pmbase.toNat
  let hi := (s.part p).pmlim.toNat
  let s := s.memLose lo hi
  { s with lines := s.lines.map (fun l => if lo < l.pa + 256 ∧ l.pa < hi ∧ l.pa < devLimit then l.lose lo hi else l) }
/-- A write that breaks R106: teams of the partition may see undefined values in memory, which the partition reads until a resume gives it a
new layout, and in scratch. -/
def State.disturb (s : State) (p : Nat) : State :=
  if s.teams.any (fun t => t.part == p && s.resident t) then
    { s.updPart p (fun q => { q with wild := true }) with teams := s.teams.map (fun t => if t.part = p ∧ s.resident t then { t with scratch := [] } else t) }
  else s
/-- The undefined values of a key that is held or awaited when its partition's keys are spilled (R388): `NEXT`, the holder, `ABANDONED`. -/
def KeyEnt.lose (e : KeyEnt) (s : State) : KeyEnt :=
  let w (i : Nat) : Nat := (Config.freeWord s.free 974 (8 * e.key.toNat + i)).toNat
  let keep := Config.freeBool s.free (2 * e.key.toNat)
  { e with
    next := s.freeNext e.key, abandoned := Config.freeBool s.free (2 * e.key.toNat + 1)
    holder := if keep then e.holder else if w 0 % 2 = 0 then none else some (w 1, w 2, w 3 % 32)
    resBy := if keep then e.resBy else none }
/-- Spill or drop every key of a partition (R388); a spill that cannot be written loses its key and is reported. -/
def State.spillAll (s : State) (p : Nat) : State :=
  (s.keys.filter (·.part == p)).foldl (fun s e =>
    let gone (s : State) : State := { s with keys := s.keys.filter (fun x => !(x.part == e.part && x.key == e.key)) }
    if !s.loose e then { s with keys := s.keys.map (fun x => if x.part = e.part ∧ x.key = e.key then x.lose s else x) }
    else if (e.next == 0 && !e.abandoned) || (s.part p).logB = 0 then gone s
    else match s.spillKey e with
      | .ok s => s
      | .error b => (gone s).postError p { kind := 5, cause := b.elim 0 (·.1.code), asid := (s.part p).slAsid, addr := b.elim ((s.part p).bucket e.key) (·.2) }) s

/-- PQMASK_WRITE (R104, R435). -/
def execPqmaskWrite (tag w id : Nat) (s : State) : Outcome State Fault Refusal :=
  csrWrite "PQMASK_WRITE" s tag w id (· == 0x20) (fun n p x =>
    if x.toNat ≥ 16 ∨ popc x.toNat 4 = 3 ∨ (x &&& s.quartersOff.setWidth 64) ≠ 0
        ∨ (List.range 4).any (fun o => o ≠ p && ((s.part o).pqmask &&& x) ≠ 0) then none
    else some ((s.updPart p (·.setReg n x)).disturb p))
/-- PWAYS_WRITE (R104, R106): lines in ways that leave the mask are written back and invalidated. -/
def execPwaysWrite (tag w id : Nat) (s : State) : Outcome State Fault Refusal :=
  csrWrite "PWAYS_WRITE" s tag w id (· == 0x21) (fun n p x =>
    if x.toNat ≥ 2 ^ 16 then none
    else
      let off := (s.part p).pways &&& ~~~x
      some ((s.dropLines (fun l => l.loc.rank == 2 && !l.byPa && l.part == p && off.getLsbD l.way)).updPart p (·.setReg n x)))
/-- NBND_WRITE (R104, R106, R388). -/
def execNbndWrite (tag w id : Nat) (s : State) : Outcome State Fault Refusal :=
  csrWrite "NBND_WRITE" s tag w id (· == 0x26) (fun n p x =>
    if bits x.toNat 4 4 ≠ 0 ∨ bits x.toNat 12 52 ≠ 0 then none
    else some (((s.spillAll p).updPart p (·.setReg n x)).disturb p))
/-- PRSV_WRITE (R88, R104, R117): any value; bits for quarters outside `PQMASK` are ignored where they are used. -/
def execPrsvWrite (tag w id : Nat) (s : State) : Outcome State Fault Refusal :=
  csrWrite "PRSV_WRITE" s tag w id (· == 0x27) (fun n p x => some (s.updPart p (·.setReg n x)))
/-- ENERGY_WRITE (R96, R104, R429). -/
def execEnergyWrite (tag w id : Nat) (s : State) : Outcome State Fault Refusal :=
  csrWrite "ENERGY_WRITE" s tag w id (· == 0x29) (fun n p x => if bits x.toNat 60 4 ≠ 0 then none else some (s.updPart p (·.setReg n x)))

/-- Reserved bits and values of the registers without an event of their own (R104, R405, Tables 5.4 to 5.6, 16.3, 17.5, 17.6). -/
def csrPlainBad (n : Nat) (x : DWord) : Bool :=
  let v := x.toNat
  match n with
  | 0x22 => v > 64
  | 0x23 => bits v 44 20 ≠ 0 || bits v 0 16 ≠ 0
  | 0x24 => bits v 44 20 ≠ 0 || bits v 0 16 ≠ 0
  | 0x25 => bits v 40 24 ≠ 0 || bits v 20 4 ≠ 0 || bits v 16 4 > 9 || !([0, 1, 2, 4, 8, 16].contains (popc v 16))
  | 0x2A => bits v 32 32 ≠ 0
  | 0x2B => bits v 48 16 ≠ 0 || bits v 1 2 ≠ 0
  | 0x2C => bits v 48 16 ≠ 0 || bits v 0 12 ≠ 0
  | _ => false
/-- Registers whose CSRW is a REGISTER_WRITE. -/
def csrPlain (n : Nat) : Bool := [0x22, 0x23, 0x24, 0x25, 0x28, 0x2A, 0x2B, 0x2C].contains n
/-- The effect of such a CSRW: a change of range or interleave is marked, and disturbs placed teams (R106, R459). -/
def State.plainWrite (s : State) (n p : Nat) (x : DWord) : State :=
  if 0x23 ≤ n ∧ n ≤ 0x25 then
    (s.updPart p (fun q => { q.setReg n x with moved := q.moved || q.reg n != x })).disturb p
  else s.updPart p (·.setReg n x)
/-- Fields of the queue page that software writes and that do nothing else: node table, snapshot area, vectors, `RIDX` of the
error ring (Tables 4.8, 4.9, 16.4, 18.4, R418). -/
def State.pageWrite (s : State) (p off : Nat) (v : DWord) : State :=
  s.updPart p (fun q => match off with
    | 0x800 => { q with gnbase := v &&& 0x0000FFFFFFFFFF80 }
    | 0x808 => { q with gnlen := v &&& 0xFFFF0000FFFFFFFF }
    | 0x848 => { q with slsnap := v &&& 0xFFFFFFFFFFFFFF01 }
    | 0x858 => { q with eqidx := mkIdx (idxR v) (idxW q.eqidx) }
    | 0x870 => { q with ivec := v &&& 0xBFBFBFBF }
    | _ => q)
/-- Offsets of the queue page whose writes are events of their own. -/
def pageOwn (off : Nat) : Bool :=
  [0x810, 0x820, 0x828, 0x830, 0x840, 0x850, 0x860, 0x868].contains off || (off < 0x800 && (off % 0x20 == 0 || off % 0x20 == 8))
/-- Registers of the management page that the host writes (Table 18.3). -/
def State.mgmtWrite (s : State) (off : Nat) (v : DWord) : State :=
  if off % 8 ≠ 0 then s
  else if 0x40 ≤ off ∧ off < 0x60 then { s with pcq := s.pcq.set ((off - 0x40) / 8) v }
  else if 0x60 ≤ off ∧ off < 0x80 then { s with pca := s.pca.set ((off - 0x60) / 8) (v &&& 0xF) }
  else s
/-- REGISTER_WRITE (R404, R405, R418, R433). -/
def execRegisterWrite (r : RegWrite) (v : BitVec 64) (s : State) : Outcome State Fault Refusal :=
  match r with
  | .csr tag w id => csrWrite "REGISTER_WRITE" s tag w id csrPlain (fun n p x => if csrPlainBad n x then none else some (s.plainWrite n p x))
  | .queuePage p off => if p < 4 && off < 0x1000 && off % 8 == 0 && !pageOwn off then .next (s.pageWrite p off v) else .refused (.notEnabled "REGISTER_WRITE")
  | .mgmt off => .next (s.mgmtWrite off v)

/-! ### RINV (R422) -/

/-- Issue RINV. -/
def rinvIssue (i : Instr) (s : State) (a : Opd) (ev : Option (BitVec 3)) (y z : Ctx → List DWord) : Outcome State Fault Refusal :=
  issue i s (fun c s => .ok (s.start c { c.pend i [c.ownRid] with hold := ev.isNone, x := [c.sc a], y := y c, z := z c }))
/-- RINV. -/
def execRinv (h : Hdr) (d a : Opd) (ev : Option (BitVec 3)) (s : State) : Outcome State Fault Refusal :=
  rinvIssue (.rinv h d a ev) s a ev (fun _ => []) (fun _ => [])
/-- RINV.range. -/
def execRinvRange (h : Hdr) (d a b c : Opd) (ev : Option (BitVec 3)) (s : State) : Outcome State Fault Refusal :=
  rinvIssue (.rinvRange h d a b c ev) s a ev (fun x => [x.sc b]) (fun x => [x.sc c])
/-- Drop everything that depends on the pages [lo, hi) of an ASID: translations first, fills that were translated before, then lines, once
update-only copies have combined. -/
def State.invalidate (s : State) (asid lo hi : Nat) : State :=
  let inC (a va n : Nat) : Bool := a == asid && va < hi && lo < va + n
  let s := { s with
    tlb := s.tlb.filter (fun e => !inC e.asid e.va e.size), maps := s.maps.filter (fun e => !inC e.asid e.va e.size), loopBufs := s.loopBufs.filter (·.asid ≠ asid)
    misses := s.misses.filter (fun m => !inC m.asid m.va 64), spill := s.spill.filter (fun m => !inC m.asid m.va 64) }
  let s := (s.combine (fun u => inC u.asid u.va u.ty.size)).dropLines (fun l => !l.byPa && inC l.asid l.va 256)
  { s with
    counters := s.counters.filter (fun c => !inC c.asid c.va 65536)
    parts := s.parts.map (fun q => { q with
      shadows := q.shadows.filter (fun b => !(b.resBy.isNone && inC b.asid b.base b.len))
      migWait := q.migWait.filter (fun m => !inC m.asid m.va 65536) })
    consts := [] }
/-- RINV_COMPLETE (R422). -/
def execRinvComplete (tag w id : Nat) (s : State) : Outcome State Fault Refusal :=
  withPend "RINV_COMPLETE" s tag w id (fun i => match i with | .rinv _ _ _ _ => true | .rinvRange _ _ _ _ _ _ => true | _ => false) (fun t _ q =>
    let a := (q.x.headD 0).toNat
    let va := (q.y.headD 0).toNat
    let len := (q.z.headD 0).toNat
    let range := match q.instr with | .rinvRange _ _ _ _ _ _ => true | _ => false
    let bad : Bool := a ≥ 65536 || (range && (va % 4096 ≠ 0 || len = 0 || len % 4096 ≠ 0 || va + len > 2 ^ 48))
    let d := match q.instr with | .rinv _ d _ _ => d | .rinvRange _ d _ _ _ _ => d | _ => .zero
    let r := s.release (some t.core) (Scope.rank .dev)
    let s := if bad then s else if range then r.invalidate a va (va + len) else r.invalidate a 0 (2 ^ 64)
    s.finishPend tag w q (wr1 q.lanes d (fun _ => if bad then 1 else 0)) 0)

/-! ### QCTL (R105, R423, R434) -/

/-- `STATE` of a queue (Table 4.6). -/
def Queue.state (q : Queue) : Nat := bits q.stat.toNat 0 2
def Queue.setState (q : Queue) (n : Nat) : Queue := { q with stat := (q.stat &&& ~~~(3#64)) ||| BitVec.ofNat 64 n }
/-- Change the queues named by a mask. -/
def Part.updQueues (q : Part) (mask : DWord) (f : Queue → Queue) : Part :=
  { q with queues := q.queues.zipIdx.map (fun x => if mask.getLsbD x.2 then f x.1 else x.1) }
/-- The queue of a team: that of its grid. -/
def State.queueOf (s : State) (t : Team) : Nat := (s.gridOf t.tag).elim 255 (·.queue)
/-- Teams of the named queues that are on their cores. -/
def State.namedTeams (s : State) (p : Nat) (mask : DWord) : List Team :=
  s.teams.filter (fun t => t.part == p && s.resident t && s.queueOf t < 64 && mask.getLsbD (s.queueOf t))
/-- Local range of a partition on its controllers. -/
def Part.local (q : Part) : Nat × Nat :=
  let lo := bits q.milv.toNat 24 16 * 65536
  (lo, lo + (q.pmlim.toNat - q.pmbase.toNat) / max 1 (popc q.milv.toNat 16))
/-- The conditions of R105 and R434 for a resume. -/
def State.configOk (s : State) (p : Nat) : Bool :=
  let q := s.part p
  let n := popc q.milv.toNat 16
  let g := 2 ^ (bits q.milv.toNat 16 4 + 8)
  let len := q.pmlim.toNat - q.pmbase.toNat
  let others := ((List.range 4).filter (fun o => o ≠ p && s.active o)).map s.part
  let overlap (a b : Nat × Nat) : Bool := a.1 < a.2 && b.1 < b.2 && a.1 < b.2 && b.1 < a.2
  q.pqmask ≠ 0 && q.pways ≠ 0 && bits q.nbnd.toNat 0 4 ≠ 0 && bits q.nbnd.toNat 8 4 ≠ 0 && q.pbws ≠ 0 && n ≠ 0
    && q.pmbase.toNat < q.pmlim.toNat && q.pmlim.toNat ≤ 0x1000000000 && len % (n * g) = 0 && q.local.2 ≤ 2 ^ 32
    && (((List.range 4).filter s.active).foldl (fun a o => a + (s.part o).pbws.toNat) 0) ≤ 64
    && others.all (fun o => ((o.nbnd &&& q.nbnd &&& 0xF) = 0 || (o.pways &&& q.pways) = 0)
        && ((o.milv &&& q.milv &&& 0xFFFF) = 0 || !overlap o.local q.local))
    && q.pmlim.toNat ≤ 0xFE0000000 && q.local.2 ≤ 0xFE000000

/-- Stop a gang and begin to move it off its cores (R412 stage 1, R136). (DEDUCED: entry 44.) -/
def State.preempt (s : State) (gid : Nat) : State :=
  let s := (s.teamsOf gid).foldl (fun s t => t.waves.foldl (fun s wv =>
    let s := (s.abort t.tag wv.ix (List.range 8)).1.flushSfu t.tag wv.ix
    s.updWave t.tag wv.ix (fun wv => { wv with bundle := none, waitCnt := none, waitIds := [], waitRids := [], mfAcq := none })) s) s
  s.updGang gid (fun g => if g.st = .placed then { g with st := .leaving } else g)

/-- QCTL.q (R423). -/
def execQctlQ (h : Hdr) (d a : Opd) (ev : Option (BitVec 3)) (s : State) : Outcome State Fault Refusal :=
  issue (.qctlQ h d a ev) s (fun c s =>
    let mask := c.sc a
    let p := c.tm.reach
    let ts := s.namedTeams p mask
    if c.lanes = 0 then .ok s
    else if s.rootHalt then .error .wait
    else if mask = 0 then .ok (s.done c d 1)
    else if c.tm.part = p ∧ mask.getLsbD (s.queueOf c.tm) ∧ s.queueOf c.tm < 64 then .ok (s.done c d 3)
    else if ts.any (fun t => (s.gridOf t.tag).any (·.lat)) then .ok (s.done c d 2)
    else
      let s := s.updPart p (·.updQueues mask (fun q => { (if q.state = 1 then q.setState 2 else q) with held := true }))
      let s := ((ts.map (·.gid)).eraseDups).foldl (fun s g => s.preempt g) s
      if ts = [] then .ok (s.done c d 0)
      else .ok (s.start c { c.pend (.qctlQ h d a ev) [c.ownRid] with hold := ev.isNone, x := [mask], z := [BitVec.ofNat 64 p] }))
/-- A quiesce completes once none of the named teams is placed (R423). -/
def State.qctlSettle (s : State) : State :=
  s.teams.foldl (fun s t => t.waves.foldl (fun s wv => wv.pend.foldl (fun s q =>
    match q.instr with
    | .qctlQ _ d _ _ =>
      if s.namedTeams (q.z.headD 0).toNat (q.x.headD 0) = [] then
        (s.finishPend t.tag wv.ix q (wr1 q.lanes d (fun _ => 0)) 0).afterPend t.tag wv.ix
      else s
    | _ => s) s) s) s
/-- QCTL.r (R423, R459). -/
def execQctlR (h : Hdr) (d a : Opd) (ev : Option (BitVec 3)) (s : State) : Outcome State Fault Refusal :=
  issue (.qctlR h d a ev) s (fun c s =>
    let mask := c.sc a
    let p := c.tm.reach
    if c.lanes = 0 then .ok s
    else if s.rootHalt then .error .wait
    else if mask = 0 then .ok (s.done c d 1)
    else if !s.configOk p then .ok (s.done c d 4)
    else
      let s := s.updPart p (·.updQueues mask (fun q => { (if q.state = 2 then q.setState 1 else q) with held := false }))
      let s := (if (s.part p).moved then s.loseRange p else s).updPart p (fun q => { q with moved := false, wild := false })
      .ok (s.done c d 0))
/-- QCTL.qry (R423). -/
def execQctlQry (h : Hdr) (d a : Opd) (ev : Option (BitVec 3)) (s : State) : Outcome State Fault Refusal :=
  issue (.qctlQry h d a ev) s (fun c s =>
    let mask := c.sc a
    if c.lanes = 0 then .ok s
    else if s.rootHalt then .error .wait
    else
      let r : DWord := if mask = 0 then 1
        else (s.namedTeams c.tm.reach mask).foldl (fun m t => m ||| (1#64 <<< s.queueOf t)) 0
      let ws := c.dst64 d (fun _ => r)
      .ok (s.putNow c ws))

/-! ### TRAP and RTE (R419, R420) -/

/-- TRAP (R419). -/
def execTrap (h : Hdr) (imm : BitVec 32) (s : State) : Outcome State Fault Refusal := endRegion (.trap h imm) s (fun _ => ([], [], []))
/-- TRAP at commit step 4. -/
def State.trapPerform (s : State) (t : Team) (w : Nat) (e : EndOp) : State :=
  if e.lanes = 0 then s
  else s.takeTrap t.tag w 0 { cause := 0x12, lanes := e.lanes, addr := e.site, region := e.next, after := true, faddr := 0 }
/-- RTE (R420): the frame is read before the run commits. -/
def execRte (h : Hdr) (s : State) : Outcome State Fault Refusal := endRegion (.rte h) s (fun _ => ([], [], []))
/-- The wave returns to where the frame says, once its own run has committed: every other run aborts (R420). A frame that
breaks Table 17.7 traps in the handler. -/
def State.rtePerform (s : State) (t : Team) (w : Nat) (e : EndOp) (start : DWord) (f : Nat → Nat → List Byte) : State :=
  match s.gang? t.gid with
  | none => s
  | some g =>
    if !Sys2Proof.Machine.frameOk f then s.takeTrap t.tag w 0 { cause := 0x01, lanes := e.lanes, addr := e.site, region := start, after := false, faddr := 0 }
    else
      let s := (s.abort t.tag w (List.range 8)).1
      s.updWave t.tag w (fun wv => wv.leave f g.kobj.vregs g.kobj.sregs)

/-! ### ENRD (R431) -/

/-- ENRD (R431): the meter is read as it stands, after an unspecified amount has been counted (R428). -/
def execEnrd (h : Hdr) (d : Opd) (s : State) : Outcome State Fault Refusal :=
  issue (.enrd h d) s (fun c s =>
    if c.lanes = 0 then .ok s
    else
      let s := s.meterTeam c.tag
      .ok (s.result c (.enrd h d) (c.dst64 d (fun _ => BitVec.ofNat 64 ((s.team? c.tag).elim 0 (·.meter)))) 0))
/-- ENRD.bal (R431). -/
def execEnrdBal (h : Hdr) (d : Opd) (s : State) : Outcome State Fault Refusal :=
  compute (.enrdBal h d) s (fun c => (c.dst64 d (fun _ => BitVec.ofInt 64 (s.part c.tm.part).bal), 0))

/-! ### ROLE (R39, R119) -/

/-- A role's entry of the group binding table, or all ones (R119). -/
def Ctx.binding (c : Ctx) (a : Opd) (f : Bind → Nat) (l : Nat) : Word :=
  match c.gg.binds[(c.w32 a l).toNat]? with
  | some b => BitVec.ofNat 32 (f b)
  | none => 0xFFFFFFFF
/-- ROLE. -/
def execRole (h : Hdr) (d a : Opd) (s : State) : Outcome State Fault Refusal :=
  compute (.role h d a) s (fun c => (c.dst d (c.binding a (·.core)), 0))
/-- ROLE.id. -/
def execRoleId (h : Hdr) (d a : Opd) (s : State) : Outcome State Fault Refusal :=
  compute (.roleId h d a) s (fun c => (c.dst d (c.binding a (·.coreid)), 0))
/-- ROLE.pos. -/
def execRolePos (h : Hdr) (d a : Opd) (s : State) : Outcome State Fault Refusal :=
  compute (.rolePos h d a) s (fun c => (c.dst d (c.binding a (fun b => b.y * 16 + b.x)), 0))
/-- ROLE.cnt. -/
def execRoleCnt (h : Hdr) (d : Opd) (s : State) : Outcome State Fault Refusal :=
  compute (.roleCnt h d) s (fun c => (c.dst d (fun _ => BitVec.ofNat 32 c.gg.kobj.roles.length), 0))

end Sys2Proof.Machine
end

