-- ==== Sys2Proof/Machine/Launch.lean ====
section
/-! DEFINITION. Sys2Proof/Machine/Launch.lean: launch records and kernel objects (Tables 2.4 to 2.9, 4.1 to 4.3), the node table
(R91 to R94), and LAUNCH, WCHILD and GSIG (04_launch.md R100, R101; 02_work.md R42 to R44). -/
namespace Sys2Proof.Machine
open Host (Outcome)

/-! ### Launch records (R81, R82) -/

def LRec.ofBytes (b : List Byte) : LRec :=
  let f (o n : Nat) : Nat := Sys2Proof.Machine.ofBytes ((b.drop o).take n)
  { obj := BitVec.ofNat 64 (f 0 8), args := BitVec.ofNat 64 (f 8 8), gx := BitVec.ofNat 32 (f 16 4), gy := BitVec.ofNat 32 (f 20 4)
    gz := BitVec.ofNat 32 (f 24 4), ctl := BitVec.ofNat 32 (f 28 4), est := BitVec.ofNat 32 (f 32 4), node := BitVec.ofNat 32 (f 36 4)
    succ := BitVec.ofNat 64 (f 40 8), seq := BitVec.ofNat 64 (f 48 8), rsvd := BitVec.ofNat 64 (f 56 8) }
def LRec.preds (r : LRec) : Nat := bits r.ctl.toNat 24 8
def LRec.nsucc (r : LRec) : Nat := bits r.ctl.toNat 16 8
def LRec.lat (r : LRec) : Bool := r.ctl.getLsbD 14
/-- 0 launch, 1 copy, 2 marker. -/
def LRec.kind (r : LRec) : Nat := bits r.ctl.toNat 12 2
def LRec.hasNode (r : LRec) : Bool := r.node ≠ 0xFFFFFFFF
/-- Status KIND, but for the class of a child. (DEDUCED: entry 42.) -/
def LRec.kindBad (r : LRec) : Bool := r.kind = 3 || r.rsvd ≠ 0 || (r.kind ≠ 0 && bits r.ctl.toNat 0 12 ≠ 0)
/-- Status SHAPE, as far as the record alone decides. (DEDUCED: entry 42.) -/
def LRec.shapeBad (r : LRec) : Bool := r.kind = 0 && (r.gx = 0 || r.gy = 0 || r.gz = 0)
/-- What a read of a device agent, in system mode, does on its way (R211, R218). -/
def State.agentTouch (s : State) (p asid va n : Nat) : State := s.touch .agent p asid va n true .read true
/-- The ids of a successor list, read in order where it lies, aligned or not: those before the first word that cannot be read, and what it
met. (DESIGN CHOICE: entry 42.) -/
def State.succIds (s : State) (p asid a : Nat) : Nat → List Nat × Option (Bad × Nat)
  | 0 => ([], none)
  | n + 1 =>
    match s.readVa p asid a 4 true .read with
    | .error e => ([], some (e, a))
    | .ok b => let r := s.succIds p asid (a + 4) n; (ofBytes b :: r.1, r.2)

/-! ### Kernel objects (R42 to R44) -/

/-- Field of an object. -/
def objF (b : List Byte) (o n : Nat) : Nat := ofBytes ((b.drop o).take n)
/-- Role positions, launders and streams as the tables declare them. -/
def objRoles (b : List Byte) : List (Nat × Nat) :=
  (List.range (bits (objF b 8 8) 12 5 + 1)).map (fun n => (bits (objF b (0x40 + 4 * n) 4) 0 4, bits (objF b (0x40 + 4 * n) 4) 4 4))
def objLaunders (b : List Byte) : List LaunderDecl :=
  (List.range (bits (objF b 8 8) 17 5)).map (fun n =>
    let x := objF b (0xC0 + 4 * n) 4
    { src := bits x 0 5, dst := bits x 5 5, slots := bits x 10 6 + 1, size := 16 * (bits x 16 4 + 1) })
def objStreams (b : List Byte) : List Stream :=
  (List.range 8).map (fun n =>
    let o := 0x120 + 32 * n
    let i (k : Nat) : Int := (BitVec.ofNat 32 (objF b (o + k) 4)).toInt
    { sbase := objF b o 1, esz := 4 / 2 ^ bits (objF b (o + 1) 1) 0 2, lstride := i 4, stride := (List.range 4).map (fun j => i (8 + 4 * j)) })
/-- The object at an address. -/
def KObj.ofBytes (a : Nat) (b : List Byte) : KObj :=
  let sh := objF b 8 8
  let sr := objF b 16 8
  { addr := a, entry := BitVec.ofNat 64 (objF b 0 8), waves := bits sh 0 4 + 1, gw := bits sh 4 4 + 1, gh := bits sh 8 4 + 1
    vregs := bits sh 32 7 + 1, sregs := bits sh 39 6 + 1, roles := objRoles b, launders := objLaunders b, aloops := bits sh 22 3
    trips := (List.range 4).map (fun j => objF b (0x100 + 4 * j) 4), scratchK := bits sr 0 10, pool := bits sr 10 10
    qdepth := bits sr 20 7, qmask := BitVec.ofNat 8 (bits sr 27 8), streams := objStreams b }
/-- Does an object keep R43? -/
def objOk (b : List Byte) : Bool :=
  let sh := objF b 8 8
  let sr := objF b 16 8
  let k := KObj.ofBytes 0 b
  let role (n : Nat) : Nat := objF b (0x40 + 4 * n) 4
  let ldr (n : Nat) : Nat := objF b (0xC0 + 4 * n) 4
  let o (n : Nat) : Nat := 0x120 + 32 * n
  bits (objF b 0 8) 0 3 = 0 && bits (objF b 0 8) 48 16 = 0 && bits sh 45 19 = 0 && bits sh 25 7 = 0 && bits sr 35 29 = 0
    && objF b 0x18 40 = 0 && objF b 0x110 16 = 0 && k.roles.length ≤ 32
    && (List.range 32).all (fun n => if n < k.roles.length then bits (role n) 8 24 = 0 else role n = 0)
    && (List.range 16).all (fun n => if n < k.launders.length then bits (ldr n) 20 12 = 0 else ldr n = 0)
    && (List.range 4).all (fun j => if j < k.aloops then k.trips.getD j 0 ≠ 0 else k.trips.getD j 0 = 0)
    && (List.range 8).all (fun n => if k.qmask.getLsbD n then
        bits (objF b (o n + 1) 1) 2 6 = 0 && bits (objF b (o n + 1) 1) 0 2 ≠ 3 && objF b (o n + 2) 2 = 0 && objF b (o n + 24) 8 = 0
          && objF b (o n) 1 < k.sregs
      else objF b (o n) 32 = 0)
    && k.aloops ≤ 4 && k.launders.length ≤ 16 && k.qdepth ≤ 64 && k.pool ≤ 768 && k.scratchK ≤ 384 && k.gw * k.gh ≤ 24
    && k.roles.all (fun r => r.1 < k.gw && r.2 < k.gh)
    && k.launders.all (fun l => l.src < k.roles.length && l.dst < k.roles.length)
    && (k.aloops = 0) == (k.qmask = 0) && (k.qmask = 0 || 1 ≤ k.qdepth)
/-- Core SRAM that a position sets aside (R44). -/
def KObj.need (k : KObj) (pos : Nat) : Nat :=
  k.scratchK * 1024 + k.pool * 256 + (k.launders.filter (fun l => k.posOf l.dst == some pos)).foldl (fun n l => n + l.slots * l.size) 0
    + popc k.qmask.toNat 8 * k.qdepth * 128
/-- Read an object, in system mode, wherever it lies. (DESIGN CHOICE: entry 42.) -/
def State.readObj (s : State) (p asid : Nat) (a : DWord) : Except Bad (List Byte) := s.readVa p asid a.toNat 544 true .read

/-! ### The node table (R91 to R94) -/

def State.nodeN (s : State) (p : Nat) : Nat := bits (s.part p).gnlen.toNat 0 32
def State.nodeAsid (s : State) (p : Nat) : Nat := bits (s.part p).gnlen.toNat 48 16
def State.nodeVa (s : State) (p k : Nat) : Nat := (s.part p).gnbase.toNat + 128 * k
/-- An entry that can be read and written, or why not. (DEDUCED: entry 31.) -/
def State.nodeRead (s : State) (p k : Nat) : Except Bad (List Byte) :=
  match s.checkRange p (s.nodeAsid p) (s.nodeVa p k) 128 true .write with
  | some e => .error e
  | none => s.readVa p (s.nodeAsid p) (s.nodeVa p k) 128 true .read
/-- What reading an entry does on its way. -/
def State.nodeTouch (s : State) (p k : Nat) : State := s.agentTouch p (s.nodeAsid p) (s.nodeVa p k) 128
/-- Write bytes of an entry that has been read. -/
def State.nodeWrite (s : State) (p k o : Nat) (bs : List Byte) : State := s.writeRaw p (s.nodeAsid p) (s.nodeVa p k + o) true bs
def nodeRem (b : List Byte) : Int := (BitVec.ofNat 32 (objF b 0x40 4)).toInt
def nodeState (b : List Byte) : Nat := objF b 0x44 1
def nodeQueue (b : List Byte) : Nat := objF b 0x45 1
def nodeSig (b : List Byte) : Bool := bit (objF b 0x46 1) 0
/-- Enter a page fault of a device agent in a fault record, with a hold that is the agent's own (R91, R217). -/
def State.agentFault (s : State) (p asid : Nat) (ps : List Nat) (kinds who : Nat) : State :=
  let r := s.enterFaults p asid ps kinds [who]
  r.1.updPart p (fun q => { q with agentHolds := q.agentHolds ++ r.2 })

/-- A marker that is armed and signalled, or another record whose work has ended, joins the completions (R94). -/
def State.queueCompl (s : State) (p : Nat) (r : LRec) (queue asid : Nat) : State :=
  s.updPart p (fun q => { q with compl := q.compl ++
    [{ lrec := r, queue := queue, asid := asid, status := 0, cause := 0, cstat := 0, energy := 0, stage := 0 }] })
/-- Address space of a queue, as its register stands. (DESIGN CHOICE: entry 46.) -/
def Part.queueAsid (q : Part) (n : Nat) : Nat := (q.queues[n]?).elim 0 (fun x => cfgAsid x.cfg)
/-- A node becomes ready (R93): a launch or copy joins its queue's ready list; a marker is armed, and completes if it is
signalled. -/
def State.nodeReady (s : State) (p k queue : Nat) (r : LRec) (sig : Bool) : State :=
  if r.kind = 2 then
    let s := s.nodeWrite p k 0x44 [4]
    if sig then s.queueCompl p r queue ((s.part p).queueAsid queue) else s
  else (s.nodeWrite p k 0x44 [2]).updPart p (fun q => { q with queues := q.queues.zipIdx.map (fun x =>
      if x.2 = queue then { x.1 with readyN := x.1.readyN ++ [(k, r)] } else x.1) })
/-- Predecessor completion (R93). -/
def State.nodeDec (s : State) (p k : Nat) : Except Bad State :=
  match s.nodeRead p k with
  | .error e => .error e
  | .ok b =>
    let m := nodeRem b - 1
    let s := (s.nodeTouch p k).nodeWrite p k 0x40 (toBytes 4 (BitVec.ofInt 32 m).toNat)
    if nodeState b = 1 ∧ m = 0 then .ok (s.nodeReady p k (nodeQueue b) (LRec.ofBytes b) (nodeSig b)) else .ok s

/-! ### LAUNCH (R100) -/

/-- The grid of a team, for its depth and class. -/
def State.depthOf (s : State) (tag : Nat) : Nat := (s.gridOf tag).elim 0 (·.depth)
/-- LAUNCH: the depth and the alignment are tested before the record is read, at commit. -/
def execLaunch (h : Hdr) (d a : Opd) (s : State) : Outcome State Fault Refusal :=
  issue (.launch h d a) s (fun c s =>
    if c.lanes = 0 then .ok (s.endRuns c (c.endOp (.launch h d a) [] [] []))
    else if s.depthOf c.tag ≥ 10 then .error (.trap 0x0F 0)
    else if c.w = 0 ∧ (c.sc a).toNat % 64 ≠ 0 then .error (.trap 0x06 (c.sc a).toNat)
    else .ok (s.endRuns c (c.endOp (.launch h d a) [c.sc a] [] [])))
/-- Would a node id of a record carry an access outside the node table, the object that it names (R432)? Table 4.3 refuses such an id as
NODE first. (DEDUCED: entry 21.) -/
def State.capBad (s : State) (p : Nat) (ids : List Nat) : Bool := ids.any (fun k => !(k < s.nodeN p))
/-- First status of Table 4.3 of a child's record, and whether its successor list could be read. A copy record is accepted as a child.
(DEDUCED: entry 21.) (DESIGN CHOICE: entry 42.) -/
def State.launchStatus (s : State) (t : Team) (r : LRec) (succOk : Bool) : Nat :=
  if !succOk then 0x07
  else if r.kindBad || (r.lat && !(s.gridOf t.tag).any (·.lat)) then 0x04
  else if r.shapeBad then 0x03
  else if r.hasNode || r.preds ≠ 0 || r.nsucc ≠ 0 || r.kind = 2 then 0x05
  else if (s.part t.part).childQ.length ≥ 1024 then 0x0A
  else if s.capBad t.part (if r.hasNode then [r.node.toNat] else []) then 0x09
  else 0
/-- What LAUNCH finds in its record as its run sees it: the status and the record, or pages of the record that fault; a list that cannot be
read gives status FAULT (R82, R215). Record and list may lie in a window. (DEDUCED: entry 41.) -/
def State.launchRead (s : State) (t : Team) (w : Nat) (sys : Bool) (e : EndOp) : Except FaultPages (Nat × LRec) :=
  let a := (e.x.headD 0).toNat
  let none_ : LRec := LRec.ofBytes []
  if w ≠ 0 then .ok (0x0B, none_)
  else match s.vread (t.via .core) t.part t.asid a 64 sys with
    | .error (.fault ps) => .error (ps.map (·, s.readKind t.part t.asid a 64))
    | .error _ => .ok (0x07, none_)
    | .ok b =>
      let r := LRec.ofBytes b
      let list : Bool := r.nsucc = 0 || (match s.vread (t.via .core) t.part t.asid r.succ.toNat (4 * r.nsucc) sys with | .ok _ => true | .error _ => false)
      .ok (s.launchStatus t r list, r)
/-- What these reads do on their way. -/
def State.launchTouch (s : State) (t : Team) (w : Nat) (sys : Bool) (e : EndOp) (r : LRec) : State :=
  if w ≠ 0 then s
  else
    let s := s.vtouch (t.via .core) t.part t.asid (e.x.headD 0).toNat 64 sys true
    if r.nsucc = 0 then s else s.vtouch (t.via .core) t.part t.asid r.succ.toNat (4 * r.nsucc) sys true
/-- A grid of a record. -/
def LRec.grid (r : LRec) (id p queue asid depth : Nat) (parent : Option Nat) (pcap : DWord) : Grid :=
  { id := id, part := p, queue := queue, lrec := r, parent := parent, depth := depth, asid := asid, lat := r.lat
    next := 0, kobj := none, torn := false, cause := 0, energy := 0, pcap := pcap, dead := false, fin := false }
/-- LAUNCH at commit step 4: after a release at .dev an accepted child joins the child queue, and the status is written. -/
def State.launchPerform (s : State) (t : Team) (w : Nat) (e : EndOp) (d : Opd) (st : Nat) (r : LRec) : State :=
  let s := if st ≠ 0 then s
    else
      let s := s.release (some t.core) (Scope.rank .dev)
      let g := r.grid s.nextId t.part (s.queueOf t) t.asid (s.depthOf t.tag + 1) (some t.tag) (t.pcap &&& ~~~(3#64))
      { s.updPart t.part (fun q => { q with childQ := q.childQ ++ [s.nextId] }) with grids := s.grids ++ [g], nextId := s.nextId + 1 }
  s.answer t.tag w e (wr1 e.lanes d (fun _ => BitVec.ofNat 32 st)) 0 none []

/-! ### WCHILD -/

/-- WCHILD. -/
def execWchild (h : Hdr) (d : Opd) (s : State) : Outcome State Fault Refusal := endRegion (.wchild h d) s (fun _ => ([], [], []))
/-- WCHILD at commit step 4: the slices wait while a child grid of the team has not retired. -/
def State.wchildPerform (s : State) (t : Team) (w : Nat) (sls : List Nat) (e : EndOp) (d : Opd) : State :=
  if s.childrenLeft t.tag then
    s.updWave t.tag w (fun wv => { wv with waits := wv.waits ++ sls.map (fun sl => (sl, .wchild e.iss d e.lanes)) })
  else s.answer t.tag w e (wr1 e.lanes d (fun _ => BitVec.ofNat 32 (min ((s.team? t.tag).elim 0 (·.torn)) 0xFFFFFFFF))) 0 none []

/-! ### GSIG -/

/-- GSIG: the node of the lowest active lane. -/
def execGsig (h : Hdr) (d a : Opd) (s : State) : Outcome State Fault Refusal :=
  endRegion (.gsig h d a) s (fun c => ([(c.w32 a (lowest c.lanes)).setWidth 64], [], []))
/-- No Miller core that a partition's graph updates need is halted (R417). -/
def State.coresUp (s : State) (p : Nat) : Bool := !s.rootHalt && (s.schedHalt &&& BitVec.ofNat 4 (s.part p).pqmask.toNat) = 0
/-- Pages of the entry that fault: GSIG then waits on their record (R91). -/
def State.gsigFault (s : State) (p : Nat) (e : EndOp) : Option (List Nat) :=
  let k := (e.x.headD 0).toNat
  if k ≥ s.nodeN p then none
  else match s.nodeRead p k with | .error (.fault ps) => some ps | _ => none
/-- GSIG at commit step 4: after a release at .sys. -/
def State.gsigPerform (s : State) (t : Team) (w : Nat) (e : EndOp) (d : Opd) : State :=
  let p := t.part
  let k := (e.x.headD 0).toNat
  let s := s.release (some t.core) (Scope.rank .sys)
  let r : State × Nat :=
    if k ≥ s.nodeN p then (s, 5)
    else match s.nodeRead p k with
      | .error _ => (s, 7)
      | .ok b =>
        let rec_ := LRec.ofBytes b
        if nodeSig b ∨ nodeState b = 5 ∨ (nodeState b ≠ 0 ∧ rec_.kind ≠ 2) then (s, 5)
        else
          let s := (s.nodeTouch p k).nodeWrite p k 0x46 (toBytes 1 (objF b 0x46 1 ||| 1))
          (if nodeState b = 4 then s.queueCompl p rec_ (nodeQueue b) ((s.part p).queueAsid (nodeQueue b)) else s, 0)
  r.1.answer t.tag w e (wr1 e.lanes d (fun _ => BitVec.ofNat 32 r.2)) 0 none []

end Sys2Proof.Machine
end

