-- ==== Sys2Proof/Machine/Commit.lean ====
section
/-! DEFINITION. Sys2Proof/Machine/Commit.lean: the commit of a region run (02_work.md R34, R464; 03_code.md R71): what a commit
waits for, the faults it finds, the stores it makes visible, and the region-ending instruction that it performs. -/
namespace Sys2Proof.Machine
open Host (Outcome)

/-- The runs that commit together: those that one region-ending instruction ended, with that instruction for their lanes, and
whether the run that its single action belongs to (R463) is among them; else the run of one slice, or in loop mode every run
that the same clause ended (R141). -/
structure Grp where
  rs : List Region
  e : Option EndOp
  own : Bool
  deriving DecidableEq, Repr
def Grp.sls (g : Grp) : List Nat := g.rs.map (·.sl)
def Grp.rids (g : Grp) : List Nat := g.rs.map (·.rid)
/-- The group of the run of a slice. (DEDUCED: entry 15.) -/
def Wave.group (wv : Wave) (sl : Nat) : Option Grp :=
  match wv.region? sl with
  | none => none
  | some r =>
    match r.ended with
    | none => none
    | some .clause => some { rs := if wv.loopMode then wv.regions.filter (fun x => x.ended == some .clause) else [r], e := none, own := true }
    | some (.op e) =>
      let rs := wv.regions.filter (fun x => match x.ended with | some (.op y) => y.iss == e.iss | _ => false)
      some { rs := rs, e := some { e with lanes := e.lanes &&& wv.endMask e.iss }, own := e.lanes ≠ 0 && rs.any (fun x => x.sl == lowest e.lanes / 4) }

/-- Step 1: every operation of the runs has completed, and no slice of them is held. -/
def Wave.drained (wv : Wave) (g : Grp) : Bool :=
  wv.pend.all (fun q => isSfu q.instr || !g.rids.any q.rids.contains || g.e.any (·.iss == q.id)) && !wv.holds.any (fun h => g.sls.contains h.sl)

/-! ### Step 2 -/

/-- A cause found at step 2: a trap, with what the handler reads, or pages that fault; the word that met it, the slices. -/
structure Found where
  trap : Option TrapReq
  pages : FaultPages
  site : DWord
  sls : List Nat
  bundle : Nat × Lanes      -- the issue that trapped, and the threads of its bundle (R407 step 4)
  deriving DecidableEq, Repr
/-- The threads of the slices of some lanes. -/
def sliceThreads (m : Lanes) : Lanes := (slicesOf m).foldl (fun a sl => a ||| sliceMask sl) 0
/-- The bytes of a run to check: outside windows one for each line, whose page decides for all of it; every byte of a window. -/
def State.toCheck (s : State) (t : Team) (r : Region) : List BufW :=
  (r.stores.foldl (fun (a : List (Space × Nat) × List BufW) b =>
    match b.sp with
    | .scratch _ => a
    | .mem asid =>
      if s.inWindow t.part asid b.a 1 then (a.1, b :: a.2)
      else if a.1.contains (b.sp, b.a / 256) then a else ((b.sp, b.a / 256) :: a.1, b :: a.2)) ([], [])).2.reverse
/-- Everything that keeps the bytes of a run from being written; a byte of a window is checked as the stores that its commit shows before it
leave the index array (R239, R241). -/
def State.storeBads (s : State) (t : Team) (sys : Bool) (rs : List Region) (r : Region) : List (BufW × Bad × Nat) :=
  (s.toCheck t r).flatMap (fun b => match b.sp with
    | .mem asid =>
      let s' := if s.inWindow t.part asid b.a 1 then s.visible t sys (rs.map (fun x => { x with stores := x.stores.filter (·.iss < b.iss) })) else s
      (s'.vcheckK (t.via b.sc) t.part asid b.a 1 sys b.rel).map (fun x => (b, x))
    | .scratch _ => [])
def isFault : Bad → Bool | .fault _ => true | _ => false
def isProt : Bad → Bool | .prot _ => true | _ => false
def badPages : Bad → List Nat | .fault ps => ps | _ => []
/-- The trap of a buffered line: the store that first wrote a byte of the line whose first store came earliest (R71). (DEDUCED: entry 50.) -/
def Region.storeTrap (r : Region) (bs : List (BufW × Bad × Nat)) : Option (TrapReq × Nat × Lanes) :=
  let ts := bs.filter (fun x => !isFault x.2.1)
  let ts := if ts.any (fun x => isProt x.2.1) then ts.filter (fun x => isProt x.2.1) else ts
  match r.stores.find? (fun b => ts.any (fun x => x.1.sp == b.sp && x.1.a / 256 == b.a / 256)) with
  | none => none
  | some b => (ts.find? (fun x => x.1.sp == b.sp && x.1.a / 256 == b.a / 256)).map (fun x =>
      ({ cause := x.2.1.code, lanes := b.lanes, addr := b.site, region := r.start, after := false, faddr := BitVec.ofNat 64 x.2.1.addr },
        b.iss, sliceThreads b.lanes))
/-- What step 2 finds for the stores of a run. (DEDUCED: entry 43.) -/
def State.foundStores (s : State) (t : Team) (sys : Bool) (rs : List Region) (r : Region) : List Found :=
  let bs := s.storeBads t sys rs r
  ((r.storeTrap bs).map (fun q => ({ trap := some q.1, pages := [], site := q.1.addr, sls := [r.sl], bundle := q.2 } : Found))).toList
    ++ (bs.filter (fun x => isFault x.2.1)).map (fun x =>
      { trap := none, pages := (badPages x.2.1).map (fun a => (a, x.2.2)), site := x.1.site, sls := [r.sl], bundle := (0, 0) })
/-- What step 2 finds for the texture misses of a run (R328). -/
def State.foundTex (s : State) (t : Team) (sys : Bool) (r : Region) : List Found :=
  (s.texCheck t sys r.tex).map (fun x =>
    if isFault x.1 then { trap := none, pages := (badPages x.1).map (fun a => (a, x.2.1)), site := x.2.2.site, sls := [r.sl], bundle := (0, 0) }
    else { trap := some { cause := x.1.code, lanes := x.2.2.lanes, addr := x.2.2.site, region := r.start, after := false
                          faddr := BitVec.ofNat 64 x.1.addr }, pages := [], site := x.2.2.site, sls := [r.sl], bundle := (s.nextId, sliceThreads x.2.2.lanes) })
/-- First clause of the run of the lowest active lane. -/
def Grp.start (g : Grp) (e : EndOp) : DWord := ((g.rs.find? (·.sl == lowest e.lanes / 4)).or g.rs.head?).elim e.site (·.start)
/-- A trap of the region-ending instruction, with its lanes in the group. (DEDUCED: entry 50.) -/
def Grp.trap (g : Grp) (e : EndOp) (cause a : Nat) : TrapReq :=
  { cause := cause, lanes := e.lanes, addr := e.site, region := g.start e, after := false, faddr := BitVec.ofNat 64 a }
/-- A trap of the region-ending instruction. -/
def Grp.foundTrap (g : Grp) (e : EndOp) (cause a : Nat) : Found := { trap := some (g.trap e cause a), pages := [], site := e.site, sls := g.sls, bundle := (e.iss, e.mask) }
/-- A failed access of the region-ending instruction in slices. -/
def Grp.foundBad (g : Grp) (e : EndOp) (kind : Nat) (sls : List Nat) (b : Bad) : Found :=
  if isFault b then { trap := none, pages := (badPages b).map (fun a => (a, kind)), site := e.site, sls := sls, bundle := (0, 0) }
  else g.foundTrap e b.code b.addr
/-- Pieces of the frame that RTE reads: offset and length (Table 17.7). -/
def framePieces (vr sr : Nat) : List (Nat × Nat) := [(0, 0x160), (0x200, 0x200), (0x400, 8 * sr), (0x800, 128 * vr)]
/-- A read of the frame of the wave's slot in system mode; never through a shadow window (R238, R240). -/
def State.frameRead (s : State) (t : Team) (wv : Wave) (o n : Nat) : Except Bad (List Byte) :=
  if s.inWindow t.part t.asid (s.frameAddr t wv + o) n then .error (.prot (s.frameAddr t wv + o))
  else s.readBy (t.via .core) t.part t.asid (s.frameAddr t wv + o) n true .read
/-- Bytes of the frame. -/
def State.frameByte (s : State) (t : Team) (wv : Wave) (o n : Nat) : List Byte :=
  match s.frameRead t wv o n with | .ok b => b | .error _ => []
/-- What reading the frame does on its way. -/
def State.frameTouch (s : State) (t : Team) (wv : Wave) : State :=
  (s.gang? t.gid).elim s (fun g => (framePieces g.kobj.vregs g.kobj.sregs).foldl (fun s x =>
    s.touch (t.via .core) t.part t.asid (s.frameAddr t wv + x.1) x.2 true .read true) s)
/-- The state as a region-ending instruction that reads memory or scratch for its bundle sees it: with the stores of its own run (R463). -/
def State.ownView (s : State) (t : Team) (sys : Bool) (g : Grp) (e : EndOp) : State :=
  match e.instr with
  | .cpy _ _ _ | .beam _ _ _ _ | .launch _ _ _ | .rte _ => s.visible t sys (g.rs.filter (fun r => r.sl == lowest e.lanes / 4))
  | _ => s
/-- What step 2 finds for the own access of the region-ending instruction, in the view of its own run `s3`. -/
def State.foundOwn (s s3 : State) (t : Team) (wv : Wave) (sys : Bool) (g : Grp) (e : EndOp) : List Found :=
  let mine := [lowest e.lanes / 4]
  match atomForm e.instr with
  | some f => (e.accLanes f.d).filterMap (fun l =>
      (s.atomCheck t sys f (e.x.getD l 0).toNat).map (g.foundBad e (if f.red then kWrite else kRead + kWrite) [l / 4]))
  | none =>
    match e.instr with
    | .cpy _ _ _ => match s3.vread (t.via .core) t.part t.asid (e.x.headD 0).toNat 128 sys with
        | .error b => [g.foundBad e kEngRead mine b]
        | .ok _ => []
    | .beam _ _ _ _ =>
      let o := (e.x.headD 0).toNat
      (match s3.team? t.tag, wv.scene with
       | some t3, some sc =>
         match t3.scrBad o 256 with
         | some c => [g.foundTrap e c o]
         | none => if beamOk sc (t3.scrRead s.free o 256) then [] else [g.foundTrap e 0x14 0]
       | _, _ => [g.foundTrap e 0x14 0])
    | .rays _ _ _ _ _ _ _ => if wv.scene.isNone then [g.foundTrap e 0x14 0] else []
    | .launch _ _ _ => match s3.launchRead t wv.ix sys e with
        | .error ps => [{ trap := none, pages := ps, site := e.site, sls := mine, bundle := (0, 0) }]
        | .ok _ => []
    | .rte _ =>
      (match s.gang? t.gid with
       | none => []
       | some gg =>
         let bads := (framePieces gg.kobj.vregs gg.kobj.sregs).filterMap (fun x =>
           match s3.frameRead t wv x.1 x.2 with | .error b => some (b, kRead) | .ok _ => none)
         match worstK bads with
         | some (.trap b) => [g.foundTrap e b.code b.addr]
         | some (.pages ps) => [{ trap := none, pages := ps, site := e.site, sls := g.sls, bundle := (0, 0) }]
         | none => if Sys2Proof.Machine.frameOk (s3.frameByte t wv) then [] else [g.foundTrap e 0x01 0])
    | _ => []
/-- Region-ending instructions whose action belongs to the run of one slice (R463). -/
def Instr.once : Instr → Bool
  | .cpy _ _ _ => true
  | .beam _ _ _ _ => true
  | .launch _ _ _ => true
  | .gsig _ _ _ => true
  | .send _ _ _ _ => true
  | .recv _ _ _ _ => true
  | .atom _ (.s _) _ _ _ _ _ _ => true
  | .acas _ (.s _) _ _ _ _ _ => true
  | _ => false
/-- Does the group perform anything at step 4? A fence performs with no active thread too (R371). -/
def Grp.acts (g : Grp) : Option EndOp :=
  match g.e with
  | some e => match e.instr with
    | .fence _ _ _ => some e
    | i => if e.lanes = 0 ∨ (Instr.once i ∧ !g.own) then none else some e
  | none => none
/-- Pages entered at commit, one record entry for each word and block (R217), and the holds of its slices. (DEDUCED: entry 15.) (DEDUCED: entry 43.) -/
def State.commitFaults (s : State) (t : Team) (w : Nat) (fs : List Found) : State :=
  ((fs.map (·.site)).eraseDups).foldl (fun s site =>
    let here := fs.filter (fun f => f.site == site)
    let r := s.enterFaultsK t.part t.asid (here.flatMap (·.pages)).eraseDups (here.flatMap (·.sls)).eraseDups
    r.1.updWave t.tag w (·.addHolds r.2)) s
/-- Step 2 failed: the trap of the first cause that traps, else the page faults, which abort the runs of their slices. The pages that other
instructions than the trapping one met are entered with a trap too (R402). -/
def State.commitStop (s : State) (t : Team) (w : Nat) (fs : List Found) : State :=
  let down (fs : List Found) : State := ((s.abort t.tag w (fs.flatMap (·.sls)).eraseDups).1).commitFaults t w fs
  match fs.findSome? (fun f => f.trap.map (fun q => (q, f.bundle))) with
  | some (q, m) =>
    (down (fs.filter (fun f => f.trap.isNone && f.site != q.addr))).takeTrap t.tag w ((s.wave? t.tag w).elim 0 (·.bundleOf m.1 m.2)) q
  | none => down fs

/-! ### Between steps 2 and 3 -/

/-- What a wait before step 3 says: go on in a state with the instruction as settled, stay, or not yet. -/
inductive Ready where
  | go (s : State) (e : Option EndOp)
  | stay (s : State)
  | notYet
/-- A bucket that cannot be used: a trap, or a wait for its page (R386, R387). -/
def State.keyStop (s : State) (t : Team) (w : Nat) (g : Grp) (e : EndOp) : KeyStop → State
  | .cap => s.takeTrap t.tag w ((s.wave? t.tag w).elim 0 (·.bundleOf e.iss e.mask)) (g.trap e 0x0C 0)
  | .trap c a => s.takeTrap t.tag w ((s.wave? t.tag w).elim 0 (·.bundleOf e.iss e.mask)) (g.trap e c a)
  | .fault fs =>
    ((fs.map (fun f => (f.1, f.2.1))).eraseDups).foldl (fun s x =>
      let r := s.enterFaults x.1 x.2 ((fs.filter (fun f => f.1 == x.1 && f.2.1 == x.2)).map (·.2.2)) kEngRead g.sls
      r.1.updWave t.tag w (·.addHolds r.2)) s
/-- The waits of SLIN, SEND and RECV, the entries of SLRST, the pages that SLQRY, SLRST and GSIG need, and the wait of GSIG for a halted
scheduler core (R378, R390, R400, R386, R91, R417). -/
def State.beforeStep3 (s : State) (t : Team) (wv : Wave) (g : Grp) (e : EndOp) : Ready :=
  let w := wv.ix
  let stop (x : KeyStop) : Ready := .stay (s.keyStop t w g e x)
  match e.instr with
  | .slin _ _ _ _ =>
    if s.slinWaits t e e.lanes then .notYet
    else
      let y := s.slinTry t wv e e.lanes
      match y.2.2 with
      | some x => .stay (y.1.keyStop t w g e x)
      | none => if y.2.1.settled e.lanes then .go y.1 (some y.2.1) else .stay y.1
  | .slrst _ _ _ _ =>
    match s.bucketsOk t e true (lanesOf e.lanes) with
    | some x => stop x
    | none => match s.slrstKeys t wv e (lanesOf e.lanes) with
      | .error x => stop x
      | .ok s' => .go s' (some e)
  | .slrstDel _ _ _ => match s.bucketsOk t e true (lanesOf e.lanes) with | some x => stop x | none => .go s (some e)
  | .slqry _ _ _ => match s.bucketsOk t e false (lanesOf e.lanes) with | some x => stop x | none => .go s (some e)
  | .send _ _ _ n => if s.launderReady t n.toNat true then .go s (some e) else .notYet
  | .recv _ _ _ n => if s.launderReady t n.toNat false then .go s (some e) else .notYet
  | .gsig _ _ _ =>
    if !s.coresUp t.part then .notYet
    else match s.gsigFault t.part e with
    | some ps =>
      let r := s.enterFaults t.part (s.nodeAsid t.part) ps (kEngRead + kWrite) g.sls
      .stay (r.1.updWave t.tag w (·.addHolds r.2))
    | none => .go s (some e)
  | _ => .go s (some e)

/-! ### Steps 3 and 4 -/

/-- Step 3 of the runs: stores, the address engine, the pool, texture misses, journals (R34, R242, R243, R256, R302, R324, R328, R333, R336). -/
def State.commitStep3 (s : State) (t : Team) (wv : Wave) (sys : Bool) (g : Grp) : State :=
  let s := (s.visible t sys g.rs).markLost t wv.ix sys g.rs
  let s := g.rs.foldl (fun s r => (s.engineCommit t r).beamCommit t r) s
  let s := g.rs.foldl (fun s r => r.tex.foldl (fun s m => s.texMiss t sys m) s) s
  s.updWave t.tag wv.ix (fun wv =>
    let wv := g.rids.foldl (·.jKeep ·) wv
    { wv with regions := wv.regions.filter (fun r => !g.rids.contains r.rid) })
/-- Step 4: the region-ending instruction performs; `so` is the view in which it read what it reads at step 2. -/
def State.commitStep4 (s so : State) (t : Team) (wv : Wave) (sys : Bool) (g : Grp) (e : EndOp) : State :=
  let w := wv.ix
  let at_ (l : Nat) : DWord := e.x.getD l 0
  match atomForm e.instr with
  | some f => s.atomPerform t sys w e f
  | none =>
    match e.instr with
    | .fence _ sc od => s.fencePerform t sc od
    | .bar _ _ => s.barArrive t w g.sls e false
    | .nbar _ _ => s.barArrive t w g.sls e true
    | .exit _ => s.exitPerform t w e
    | .yield _ => s.updWave t.tag w (fun wv => { wv with young := true })
    | .trap _ _ => s.trapPerform t w e
    | .rte _ => (s.frameTouch t wv).rtePerform t w e (g.start e) (so.frameByte t wv)
    | .slin _ d _ _ => s.slinPerform t w e d e.lanes g.rids
    | .slout _ d _ => s.sloutPerform t w e d e.lanes false
    | .sloutLast _ d _ => s.sloutPerform t w e d e.lanes true
    | .slqry _ d _ => s.slqryPerform t w e d e.lanes
    | .slrst _ d _ _ => s.keyPerform t w e d e.lanes (fun s l => s.slrst1 t (at_ l) ((e.y.getD l 0).setWidth 32) false)
    | .slrstDel _ d _ => s.keyPerform t w e d e.lanes (fun s l => s.slrst1 t (at_ l) 0 true)
    | .send _ d _ n => s.launderPerform t w e d n.toNat true
    | .recv _ d _ n => s.launderPerform t w e d n.toNat false
    | .launch _ d _ =>
      match so.launchRead t w sys e with
      | .ok (st, r) => (s.launchTouch t w sys e r).launchPerform t w e d st r
      | .error _ => s
    | .wchild _ d => s.wchildPerform t w g.sls e d
    | .gsig _ d _ => s.gsigPerform t w e d
    | .beam _ d _ _ => s.beamPerform t w e d ((so.team? t.tag).elim [] (fun t => t.scrRead s.free (e.x.headD 0).toNat 256)) sys
    | .rays _ d _ _ first sh _ => s.raysPerform t w e d first sh sys
    | .cpy _ _ _ =>
      match so.vread (t.via .core) t.part t.asid (e.x.headD 0).toNat 128 sys with
      | .ok bs => (s.vtouch (t.via .core) t.part t.asid (e.x.headD 0).toNat 128 sys true).cpyPerform t w e bs sys
      | .error _ => s
    | _ => s

/-- Does an instruction that acts once read, at its commit, what the runs of its bundle have stored (R463)? -/
def Instr.readsOnce : Instr → Bool
  | .cpy _ _ _ => true
  | .beam _ _ _ _ => true
  | .launch _ _ _ => true
  | _ => false
/-- What step 2 finds for the runs of a group. -/
def State.foundRuns (s : State) (t : Team) (sys : Bool) (g : Grp) : List Found :=
  g.rs.flatMap (fun r => s.foundStores t sys g.rs r ++ s.foundTex t sys r)
/-- Steps 2 to 4 of a group: what it is found to lack, a wait, or its commit. None while it must wait. -/
def State.commitGrp (s : State) (t : Team) (wv : Wave) (sys : Bool) (g : Grp) : Option State :=
  let fs := s.foundRuns t sys g ++ g.acts.elim [] (fun e => s.foundOwn (s.ownView t sys g e) t wv sys g e)
  if fs ≠ [] then some (s.commitStop t wv.ix fs)
  else
    match (match g.acts with | some e => s.beforeStep3 t wv g e | none => .go s none) with
    | .notYet => none
    | .stay s' => some s'
    | .go s' e =>
      let s3 := s'.commitStep3 t wv sys g
      some ((match e with | some e => s3.commitStep4 (s'.ownView t sys g e) t wv sys g e | none => s3).settle t.tag wv.ix)
/-- The part of a group that commits first: where the instruction acts once and reads, the runs of the other slices. Their stores are committed
stores when it reads (R463, R457). (DEDUCED: entry 15.) -/
def Grp.ahead (g : Grp) : Option (Grp × Grp) :=
  match g.acts with
  | none => none
  | some e =>
    let mine (r : Region) : Bool := r.sl == lowest e.lanes / 4
    if Instr.readsOnce e.instr && g.rs.any (fun r => !mine r) then
      some ({ rs := g.rs.filter (fun r => !mine r), e := none, own := true }, { g with rs := g.rs.filter mine })
    else none

/-- REGION_COMMIT (R34): the run of a slice that has ended commits, with those that the same instruction ended. -/
def execRegionCommit (tag w sl : Nat) (s : State) : Outcome State Fault Refusal :=
  match s.team? tag, s.wave? tag w with
  | some t, some wv =>
    match wv.group sl with
    | none => .refused (.notEnabled "REGION_COMMIT")
    | some g =>
      if !s.placed t || t.retired || !wv.drained g then .refused (.notEnabled "REGION_COMMIT")
      else
        let sys := t.sys || wv.handler
        let go (s : State) (wv : Wave) (g : Grp) : Outcome State Fault Refusal :=
          match s.commitGrp t wv sys g with
          | none => .refused (.notEnabled "REGION_COMMIT")
          | some s' => .next s'
        match g.ahead with
        | none => go s wv g
        | some (g1, g2) =>
          let fs := s.foundRuns t sys g1
          if fs ≠ [] then .next (s.commitStop t w fs)
          else
            let s1 := s.commitStep3 t wv sys g1
            go s1 ((s1.wave? tag w).getD wv) g2
  | _, _ => .refused (.notEnabled "REGION_COMMIT")

end Sys2Proof.Machine
end

