-- ==== Sys2Proof/Machine/Deadlock.lean ====
section
/-! DEFINITION. Sys2Proof/Machine/Deadlock.lean: blocked waves, the all-blocked partition, its snapshot and its trap
(16_sluice.md R394, R395; 17_interrupts.md R409). -/
namespace Sys2Proof.Machine
open Host (Outcome)

/-- What a slice waits in (R394). -/
inductive SWait where
  | slin (e : EndOp) (start : DWord)
  | bar (b : Nat) (site : DWord) (lanes : Lanes)
  | nbar (b : Nat) (site : DWord) (lanes : Lanes)
  | send (e : EndOp) (start : DWord) (n : Nat)
  | recv (e : EndOp) (start : DWord) (n : Nat)
  deriving DecidableEq, Repr
/-- The threads of a slice that wait: those of the bundle that came to the instruction. -/
def SWait.lanes (sl : Nat) : SWait → Lanes
  | .slin e _ => e.mask &&& sliceMask sl
  | .bar _ _ m => m
  | .nbar _ _ m => m
  | .send e _ _ => e.mask &&& sliceMask sl
  | .recv e _ _ => e.mask &&& sliceMask sl
/-- The wait of a slice, if it is one of R394. -/
def State.sliceWait (s : State) (t : Team) (wv : Wave) (sl : Nat) : Option SWait :=
  match wv.waits.find? (·.1 == sl) with
  | some (_, .bar b x m) => some (.bar b x m)
  | some (_, .nbar b x m) => some (.nbar b x m)
  | some _ => none
  | none =>
    match wv.group sl with
    | none => none
    | some g =>
      match g.e, wv.region? sl with
      | some e, some r =>
        if !wv.drained g then none
        else match e.instr with
          | .slin _ _ _ _ => if e.since ≠ 0 && !e.settled e.lanes then some (.slin e r.start) else none
          | .send _ _ _ n => if g.acts.isSome && !s.launderReady t n.toNat true then some (.send e r.start n.toNat) else none
          | .recv _ _ _ n => if g.acts.isSome && !s.launderReady t n.toNat false then some (.recv e r.start n.toNat) else none
          | _ => none
      | _, _ => none
/-- A wave is blocked while every slice of it that has a PC waits; a wave in handler mode never is (R394, R408). -/
def State.waveBlocked (s : State) (t : Team) (wv : Wave) : Bool :=
  !wv.handler && wv.trapQ.isNone && (List.range 8).all (fun sl => (wv.slicePc sl).isNone || (s.sliceWait t wv sl).isSome)
/-- Slices of a wave that wait, lowest first. -/
def State.waitingSlices (s : State) (t : Team) (wv : Wave) : List (Nat × SWait) :=
  (List.range 8).filterMap (fun sl => if (wv.slicePc sl).isSome then (s.sliceWait t wv sl).map (sl, ·) else none)

/-- Operations of engines that an instruction starts. -/
def isEngineOp (i : Instr) : Bool := !isSfu i && (ldForm i).isNone
/-- Placed teams of a partition. -/
def State.placedTeams (s : State) (p : Nat) : List Team := s.teams.filter (fun t => t.part == p && s.placed t && !t.retired)
/-- The other conditions of R394: no engine operation is pending, no slice is held, no record waits, no team is off its cores. (DEDUCED: entry 57.) -/
def State.quietPart (s : State) (p : Nat) : Bool :=
  let q := s.part p
  (s.placedTeams p).all (fun t =>
      t.waves.all (fun wv => wv.pend.all (fun x => !isEngineOp x.instr) && wv.holds == [] && wv.kept == [])
        && t.pool.all (fun x => x.2.st ≠ .busy) && !(s.gang? t.gid).any (fun g => t.mayPush g.kobj))
    && s.copies.all (fun c => c.part ≠ p)
    && q.queues.all (fun x => (x.state = 0 || idxUsed x.idx = 0) && x.readyN == [] && x.cur.isNone) && q.childQ == []
    && s.teams.all (fun t => t.part ≠ p || t.retired || s.placed t)
/-- A partition is all-blocked (R394); one that has no wave is, as the rule is worded. -/
def State.allBlocked (s : State) (p : Nat) : Bool :=
  (s.placedTeams p).all (fun t => t.waves.all (s.waveBlocked t)) && s.quietPart p

/-- The entry of a blocked wave in the snapshot (Table 16.6). -/
def State.snapEntry (s : State) (t : Team) (wv : Wave) (x : Nat × SWait) : List Byte :=
  let none_ := 0xFFFFFFFF
  let f : Nat × Nat × Nat × Nat × Nat × Nat :=      -- kind, id, key, sq, next, holder
    match x.2 with
    | .bar b _ _ => (1, b, 0, 0, 0, none_)
    | .nbar b _ _ => (2, b, 0, 0, 0, none_)
    | .send _ _ n => (3, n, 0, 0, 0, none_)
    | .recv _ _ n => (4, n, 0, 0, 0, none_)
    | .slin e _ =>
      let due (m : Lanes) : List Nat := (lanesOf m).filter (fun l => !e.st.any (·.1 == l))
      let l := (due (e.lanes &&& sliceMask x.1) ++ due e.lanes).headD (lowest e.lanes)
      let k := e.x.getD l 0
      match s.key? t.part k with
      | some en => (0, 0, k.toNat, (e.y.getD l 0).toNat % 2 ^ 32, en.next.toNat, en.holder.elim none_ (·.1))
      | none => (0, 0, k.toNat, (e.y.getD l 0).toNat % 2 ^ 32, 0, none_)
  packRec [(t.tag, 4), (wv.ix, 1), (f.1, 1), (f.2.1, 2), (f.2.2.1, 8), (f.2.2.2.1, 4), (f.2.2.2.2.1, 4), (f.2.2.2.2.2, 4), (0, 4)]
/-- Write entries one after another; the state and whether all could be written. -/
def State.snapEntries (s : State) (p asid a : Nat) : List (List Byte) → State × Bool
  | [] => (s, true)
  | b :: r =>
    match s.writeVa p asid a true b with
    | .error _ => (s, false)
    | .ok s => s.snapEntries p asid (a + 32) r
/-- The blocked waves of a partition, by tag and wave index. -/
def State.blockedWaves (s : State) (p : Nat) : List (Team × Wave) :=
  let ts := (s.placedTeams p).foldl (fun (l : List Team) t => l.filter (·.tag < t.tag) ++ [t] ++ l.filter (fun x => t.tag ≤ x.tag)) []
  ts.flatMap (fun t => (t.waves.filter (fun wv => s.waitingSlices t wv ≠ [])).map (fun wv => (t, wv)))
/-- The snapshot (R395). (DEDUCED: entry 57.) -/
def State.snapshot (s : State) (p : Nat) : State :=
  let sn := (s.part p).slsnap
  if !sn.getLsbD 0 then s
  else
    let asid := bits sn.toNat 48 16
    let base := bits sn.toNat 12 36 * 4096
    let ws := s.blockedWaves p
    let es := (ws.map (fun x => s.snapEntry x.1 x.2 ((s.waitingSlices x.1 x.2).headD (0, .bar 0 0 0)))).take (2 ^ (bits sn.toNat 8 4 + 4))
    match s.snapEntries p asid (base + 32) es with
    | (s, false) => s
    | (s, true) =>
      match s.writeVa p asid base true (packRec [(s.seqOf p, 8), (ws.length, 4), (es.length, 4), (0, 16)]) with
      | .error _ => s
      | .ok s => s.bumpSeq p
/-- The deadlock trap of a wave (R394, R409). -/
def State.deadlockTrap (s : State) (t : Team) (wv : Wave) : TrapReq :=
  let ws := s.waitingSlices t wv
  let lanes := ws.foldl (fun m x => m ||| x.2.lanes x.1) (0 : Lanes)
  match ws.head? with
  | some (_, .slin e st) => { cause := 0x0E, lanes := lanes, addr := e.site, region := st, after := false, faddr := 0 }
  | some (_, .send e st _) => { cause := 0x0E, lanes := lanes, addr := e.site, region := st, after := false, faddr := 0 }
  | some (_, .recv e st _) => { cause := 0x0E, lanes := lanes, addr := e.site, region := st, after := false, faddr := 0 }
  | some (_, .bar _ x _) => { cause := 0x0E, lanes := lanes, addr := x, region := x + 8, after := true, faddr := 0 }
  | some (_, .nbar _ x _) => { cause := 0x0E, lanes := lanes, addr := x, region := x + 8, after := true, faddr := 0 }
  | none => { cause := 0x0E, lanes := lanes, addr := 0, region := 0, after := false, faddr := 0 }
/-- SLUICE_DEADLOCK (R394): 1 ms after the partition became all-blocked. -/
def execSluiceDeadlock (p : Nat) (s : State) : Outcome State Fault Refusal :=
  match (s.part p).blockedAt with
  | none => .refused (.notEnabled "SLUICE_DEADLOCK")
  | some c =>
    if s.cycle < c + 1200000 || (s.part p).snapped || !s.allBlocked p then .refused (.notEnabled "SLUICE_DEADLOCK")
    else
      let ws := s.blockedWaves p
      let qs := ws.map (fun x => (x.1.tag, x.2.ix, s.deadlockTrap x.1 x.2))
      let s := (s.snapshot p).updPart p (fun q => { q with snapped := true })
      .next (qs.foldl (fun s x => s.takeTrap x.1 x.2.1 0 x.2.2) s)

end Sys2Proof.Machine
end

