-- ==== Sys2Proof/Machine/Fabric.lean ====
section
/-! DEFINITION. Sys2Proof/Machine/Fabric.lean: sector fills and evictions, access counters and migration notifications, fault
records once software acts on them, and accesses from the host and the peers (09_memory.md R211 to R226; 18 R440, R442, R444). -/
namespace Sys2Proof.Machine
open Host (Outcome)

/-! ### Access counters (R218 to R220) -/

def Part.threshold (q : Part) : Nat := bits q.acth.toNat 0 16
/-- Post one migration notification if the ring works and has room (R220, R221). (DEDUCED: entry 45.) -/
def State.migPost (s : State) (p : Nat) (m : MigWait) : Option State :=
  let q := s.part p
  if !cfgEn q.mqcfg || idxUsed q.mqidx ≥ cfgSize q.mqcfg then none
  else match s.writeVia .outer p (cfgAsid q.mqcfg) (cfgBase q.mqcfg + 32 * (idxW q.mqidx % cfgSize q.mqcfg)) true
      (packRec [(m.va, 8), (m.asid, 2), (0, 6), (s.seqOf p, 8), (0, 8)]) with
    | .error _ => none
    | .ok s1 => some (((s1.bumpSeq p).updPart p (fun q => { q with mqidx := mkIdx (idxR q.mqidx) (idxW q.mqidx + 1) })).ringMsix p 23 16)
/-- Post what waits, in the order in which the counters reached the threshold. -/
def State.migRetry (s : State) (p : Nat) : State :=
  ((s.part p).migWait).foldl (fun s m =>
    if (s.part p).migWait.head? ≠ some m then s
    else match s.migPost p m with
      | some s1 => s1.updPart p (fun q => { q with migWait := q.migWait.drop 1 })
      | none => s) s
/-- A counter has reached the threshold: post, or hold with `OVF` set; earlier holds go first. -/
def State.migNotify (s : State) (p : Nat) (m : MigWait) : State :=
  let hold (s : State) : State := s.updPart p (fun q => { q with migWait := q.migWait ++ [m], acth := q.acth ||| 0x10000 })
  if (s.part p).migWait ≠ [] then hold s else (s.migPost p m).getD (hold s)
/-- Count a demand fill of a counted page of host memory (R218). -/
def State.countFill (s : State) (slice asid va p pa : Nat) (cnt : Bool) : State :=
  let t := (s.part p).threshold
  if !cnt || pa < hostLo || peerLo ≤ pa || t = 0 then s
  else
    let va := va / 65536 * 65536
    let ctl := slice % 16
    let isIt (c : Counter) : Bool := c.asid == asid && c.va == va && c.ctl == ctl
    let bump (s : State) (c : Counter) : State :=
      if c.sent then s
      else
        let c' : Counter := { c with n := min (c.n + 1) t, used := s.cycle, sent := t ≤ c.n + 1 }
        let s := { s with counters := s.counters.map (fun x => if isIt x then c' else x) }
        if c'.sent then s.migNotify p { va := va, asid := asid } else s
    match s.counters.find? isIt with
    | some c => bump s c
    | none =>
      let c : Counter := { asid := asid, va := va, ctl := ctl, n := 0, part := p, used := s.cycle, sent := false }
      let here := s.counters.filter (·.ctl == ctl)
      if here.length < 4096 then bump { s with counters := s.counters ++ [c] } c
      else
        match here.filter (!·.sent) with
        | [] => s
        | x :: xs =>
          let old := xs.foldl (fun (b : Counter) y => if y.used < b.used then y else b) x
          bump { s with counters := s.counters.filter (fun y => y ≠ old) ++ [c] } c
/-- What the controllers found in a step: records of errors that updates met (R370, R416), and demand fills, counted (R218). -/
def State.flushDue (s : State) : State :=
  s.due.foldl (fun s x => match x with
    | .memErr u pa => s.memError u pa
    | .fill sl asid va p pa cnt => s.countFill sl asid va p pa cnt) { s with due := [] }

/-- Clear what stands in `MQCFG` and the other rings: the value after a write (R221, R427): an enabled ring changes only by
being disabled; a reserved `LOGN` leaves `EN` at 0. (DEDUCED: entry 45.) -/
def ringCfg (old v : DWord) : DWord :=
  let x := v &&& 0xFFFFFFFFFFFFFF01
  if cfgEn old then (if cfgEn v then old else old &&& ~~~(1#64))
  else if cfgEn v && bits v.toNat 8 4 ≥ 12 then x &&& ~~~(1#64) else x
/-- Does a write enable a ring? -/
def ringOn (old v : DWord) : Bool := !cfgEn old && cfgEn (ringCfg old v)
/-- MQCFG_WRITE (R221). -/
def execMqcfgWrite (p : Nat) (v : BitVec 64) (s : State) : Outcome State Fault Refusal :=
  if p ≥ 4 then .refused (.notEnabled "MQCFG_WRITE")
  else
    let on := ringOn (s.part p).mqcfg v
    let s := s.updPart p (fun q => { q with mqcfg := ringCfg q.mqcfg v, mqidx := if on then 0 else q.mqidx })
    .next (if on then s.migRetry p else s)
/-- MQIDX_WRITE (R219, R220): `RIDX` only. -/
def execMqidxWrite (p : Nat) (v : BitVec 64) (s : State) : Outcome State Fault Refusal :=
  if p ≥ 4 then .refused (.notEnabled "MQIDX_WRITE")
  else .next ((s.updPart p (fun q => { q with mqidx := mkIdx (idxR v) (idxW q.mqidx) })).migRetry p)
/-- ACTH_WRITE (R219): `T`, and a 0 in `OVF` clears it. -/
def execActhWrite (p : Nat) (v : BitVec 64) (s : State) : Outcome State Fault Refusal :=
  if p ≥ 4 then .refused (.notEnabled "ACTH_WRITE")
  else .next (s.updPart p (fun q => { q with acth := (v &&& 0xFFFF) ||| (q.acth &&& v &&& 0x10000) }))

/-! ### Fills (R211, R223, R226) -/

/-- The controller finds that the correction of a sector it reads fails: every word of it is poisoned, and reported (R226, R416). -/
def State.poisonSector (s : State) (pa : Nat) : State :=
  let a := pa / 64 * 64
  ((List.range 16).foldl (fun s j => s.setCellBad (a + 4 * j) true) s).memError (s.interleave a).1 a
/-- What the error correction finds in a sector that the controller reads (R226). -/
def State.eccRead (s : State) (pa : Nat) : Sys2Proof.EccErr → State
  | .none => s
  | .corrected => { s with ecc := s.ecc + 1 }
  | .uncorrectable => s.poisonSector pa
/-- A sector fill returns for a miss: the slice takes it, making room by its replacement. -/
def State.fillMiss (s : State) (m : Miss) (err : Sys2Proof.EccErr) : State :=
  match s.translate m.part m.asid m.va m.sys .read with
  | .ok pa a => ((s.eccRead pa err).tlbFill none m.part m.asid m.va).touchPiece .agent (Tgt.of m.part m.asid m.va pa a)
      ((List.range 64).map (m.va % 256 / 64 * 64 + ·)) m.demand
  | _ => s
/-- SECTOR_FILL (R211, R223, R226): the fill of one entry of a miss table, or, with no entry, the read of the sector at `pa` of device
memory for an access that takes none, as its error correction finds it. (DEDUCED: entry 24.) -/
def execSectorFill (ix : Option Nat) (pa : Nat) (err : Sys2Proof.EccErr) (s : State) : Outcome State Fault Refusal :=
  match ix with
  | some i =>
    (match s.misses[i]? with
     | none => .refused (.notEnabled "SECTOR_FILL")
     | some m => .next ({ s with misses := s.misses.eraseIdx i }.fillMiss m err))
  | none => if pa ≥ devLimit || err == .none then .refused (.notEnabled "SECTOR_FILL") else .next (s.eccRead pa err)
/-- SPILL_REFETCH (R223): the oldest spilled request of a slice takes a free entry. -/
def execSpillRefetch (slice : Nat) (s : State) : Outcome State Fault Refusal :=
  match s.spill.find? (·.slice == slice) with
  | none => .refused (.notEnabled "SPILL_REFETCH")
  | some m =>
    if (s.misses.filter (·.slice == slice)).length ≥ 704 then .refused (.notEnabled "SPILL_REFETCH")
    else .next { s with misses := s.misses ++ [m], spill := s.spill.erase m }

/-! ### Fault records (R217, R221) -/

/-- Change every hold, whoever has it. -/
def State.mapHolds (s : State) (f : List Hold → List Hold) : State :=
  { s with
    teams := s.teams.map (fun t =>
      { t with waves := t.waves.map (fun (wv : Wave) => { wv with holds := f wv.holds, kept := f wv.kept })
               pool := t.pool.map (fun (x : Nat × PoolRec) => (x.1, { x.2 with holds := f x.2.holds })) })
    copies := s.copies.map (fun (c : Copy) => { c with holds := f c.holds })
    parts := s.parts.map (fun q => { q with agentHolds := f q.agentHolds }) }
/-- Every hold on the fault queue of a partition. -/
def State.holdsOf (s : State) (p : Nat) : List Hold :=
  (s.teams.flatMap (fun t => t.waves.flatMap (fun wv => wv.holds ++ wv.kept) ++ t.pool.flatMap (fun x => x.2.holds))
    ++ s.copies.flatMap (·.holds) ++ s.parts.flatMap (·.agentHolds)).filter (·.part == p)
/-- Faults held without a record enter again, each once, in the order in which they were met (R217). -/
def State.reenter (s : State) (p : Nat) : State :=
  ((((s.holdsOf p).filter (·.slot.isNone)).map (·.who)).foldl insertAsc []).foldl (fun s who =>
    match (s.holdsOf p).find? (fun h => h.slot.isNone && h.who == who) with
    | none => s
    | some k =>
      let r := s.enterFault p k.asid k.blk k.pages k.kinds
      match r.2 with
      | none => r.1
      | some x => r.1.mapHolds (·.map (fun h => if h.part = p ∧ h.who = who then { h with slot := some x } else h))) s
/-- Write `STATE` of a record. -/
def State.setSlotState (s : State) (p : Nat) (x : Nat × Nat) (n : Nat) : Option State :=
  match s.readSlot p x with
  | .error _ => none
  | .ok r =>
    match s.putSlot p x (r.take 0x13 ++ [BitVec.ofNat 8 n] ++ r.drop 0x14) with
    | (s, some _) => some s
    | (_, none) => none
/-- Is there a slot of the ring that a partition uses, or has used, at an address: one of its present ring, or one that something is held on
(R221)? -/
def State.isSlot (s : State) (p : Nat) (x : Nat × Nat) : Bool :=
  p < 4 && ((List.range (cfgSize (s.part p).fqcfg)).any (fun ix => (s.part p).fqSlot ix == x) || (s.holdsOf p).any (·.slot == some x))
/-- Does a slot hold a record? -/
def State.slotUsed (s : State) (p : Nat) (x : Nat × Nat) : Bool :=
  s.isSlot p x && (match s.readSlot p x with | .ok r => slotState r ≠ 0 && slotState r ≤ 3 | .error _ => false)
/-- FAULT_RESOLVED (R217): software writes RESOLVED into a record, and what is held on it resumes. (DEDUCED: entry 47.) -/
def execFaultResolved (p : Nat) (slot : Nat × Nat) (s : State) : Outcome State Fault Refusal :=
  if !s.slotUsed p slot then .refused (.notEnabled "FAULT_RESOLVED")
  else match s.setSlotState p slot 3 with
    | none => .refused (.notEnabled "FAULT_RESOLVED")
    | some s => .next (s.mapHolds (·.filter (fun h => !(h.part == p && h.slot == some slot))))
/-- FAULT_RECORD_FREED (R217): software writes FREE, and faults without a record enter again. (DEDUCED: entry 47.) -/
def execFaultRecordFreed (p : Nat) (slot : Nat × Nat) (s : State) : Outcome State Fault Refusal :=
  if !s.isSlot p slot then .refused (.notEnabled "FAULT_RECORD_FREED")
  else match s.setSlotState p slot 0 with
    | none => .refused (.notEnabled "FAULT_RECORD_FREED")
    | some s => .next (s.reenter p)
/-- FAULT_SLOT_RETRY (R217): 100 µs after the last try of a slot that could not be reached. -/
def execFaultSlotRetry (p : Nat) (s : State) : Outcome State Fault Refusal :=
  if p < 4 && (s.part p).slotErr && s.cycle ≥ (s.part p).retryAt + 120000 then
    .next ((s.updPart p (fun q => { q with retryAt := s.cycle })).reenter p)
  else .refused (.notEnabled "FAULT_SLOT_RETRY")
/-- FQCFG_WRITE (R217, R221). -/
def execFqcfgWrite (p : Nat) (v : BitVec 64) (s : State) : Outcome State Fault Refusal :=
  if p ≥ 4 then .refused (.notEnabled "FQCFG_WRITE")
  else
    let on := ringOn (s.part p).fqcfg v
    .next ((s.updPart p (fun q => { q with fqcfg := ringCfg q.fqcfg v, fqidx := if on then 0 else q.fqidx })).reenter p)

/-! ### The host and the peers (R438 to R444) -/

/-- The line of a hand-off page that its slice holds for a physical address (R440). -/
def State.handOff (s : State) (pa : Nat) : Option Line :=
  s.lines.find? (fun l => l.byPa && l.loc == .slice (homePa pa) && l.pa == pa / 256 * 256)
/-- One byte of an access by physical address: in a line of a hand-off page, else in memory (R440). -/
def State.devByte (s : State) (pa : Nat) : Byte :=
  match s.handOff pa with
  | some l => if l.has (pa % 256) then (l.bv s (pa % 256)).b else s.memAt pa
  | none => s.memAt pa
/-- Write the bytes of one piece, likewise. -/
def State.devPiece (s : State) (pa : Nat) (bs : List Byte) : State :=
  let ws := bs.zipIdx.map (fun x => (pa % 256 + x.2, BV.of x.1))
  match s.handOff pa with
  | some l => s.setLine ((s.taint [] l ws).puts ws (fun _ => none) true)
  | none => s.memPuts (Tgt.of 0 0 0 pa (Attr.ofPte 0)) ws
/-- Software outside the device has written a range of device memory: where a backing table lies there, its keys are lost (R386). -/
def State.tableWritePa (s : State) (pa n : Nat) : State := s.tablesLost (fun p => s.tableAt p pa n)
/-- An access of an outside agent to device memory: the bytes read, or the bytes written. -/
def State.devAccess (s : State) (pa n : Nat) (wr : Option (List (BitVec 8))) : State :=
  match wr with
  | none => { s with hostRead := (List.range n).map (fun i => s.devByte (pa + i)) }
  | some bs => ((piecesOf pa n).foldl (fun s x => s.devPiece x.1 ((bs.drop (x.1 - pa)).take x.2)) s).tableWritePa pa n
def fwLo : Nat := 0xFE0000000
/-- HOST_BAR2_ACCESS (R438, R440): an access to the firmware area is aborted, and a read of it gives all ones. -/
def execHostBar2Access (pa n : Nat) (wr : Option (List (BitVec 8))) (s : State) : Outcome State Fault Refusal :=
  if n = 0 || pa + n > devLimit || wr.any (·.length ≠ n) then .refused (.notEnabled "HOST_BAR2_ACCESS")
  else if pa + n > fwLo then .next (if wr.isNone then { s with hostRead := List.replicate n 0xFF } else s)
  else .next (s.devAccess pa n wr)
/-- The line of a slice that holds a physical address: a peer's access acts at the home slice, as a device agent's does (R442). -/
def State.sliceLine (s : State) (pa : Nat) : Option Line := s.lines.find? (fun l => l.loc.rank == 2 && l.pa == pa / 256 * 256)
/-- One byte, with its poison, as the home slice gives it to a peer. -/
def State.peerByte (s : State) (pa : Nat) : BV :=
  match s.sliceLine pa with
  | some l => if l.has (pa % 256) then l.bv s (pa % 256) else s.memBV pa
  | none => s.memBV pa
/-- Write bytes of one line there. -/
def State.peerPiece (s : State) (pa : Nat) (bs : List Byte) : State :=
  let ws := bs.zipIdx.map (fun x => (pa % 256 + x.2, BV.of x.1))
  match s.sliceLine pa with
  | some l => s.setLine ((s.taint [] l ws).puts ws (fun _ => none) true)
  | none => s.memPuts (Tgt.of 0 0 0 pa (Attr.ofPte 0)) ws
/-- Update-only copies of words that a peer's access meets are combined first (R359). -/
def State.combinePa (s : State) (pa n : Nat) : State :=
  s.combine (fun u => match s.translate u.part u.asid u.va u.sys .read with
    | .ok x _ => x < pa + n && pa < x + u.ty.size
    | _ => false)
/-- Write a range there. -/
def State.peerWrite (s : State) (pa : Nat) (bs : List Byte) : State :=
  ((piecesOf pa bs.length).foldl (fun s x => s.peerPiece x.1 ((bs.drop (x.1 - pa)).take x.2)) s).tableWritePa pa bs.length
/-- A request of a peer: a read, a write, or a read-modify-write at the home slice (R350, R442); poison leaves memory as it is (R369). -/
def State.peerDo (s : State) (pa n : Nat) : PeerAct → State
  | .read => let s := s.combinePa pa n; { s with hostRead := (List.range n).map (fun i => (s.peerByte (pa + i)).b) }
  | .write bs => (s.combinePa pa n).peerWrite pa bs
  | .atom op ty x y =>
    let s := s.combinePa pa n
    let bs := (List.range n).map (fun i => s.peerByte (pa + i))
    let old := BitVec.ofNat 64 (ofBytes (bs.map (·.b)))
    let new : Option DWord := match op with | some op => some (atomNew op ty old x).1 | none => if old = x then some y else none
    let s := { s with hostRead := bs.map (·.b) }
    match new with
    | some z => if bs.any (·.bad) then s else s.peerWrite pa (toBytes n z.toNat)
    | none => s
/-- Does a request fit its length: an atomic of 4 or 8 bytes at an aligned address? -/
def peerFits (pa n : Nat) : PeerAct → Bool
  | .read => true
  | .write bs => bs.length = n
  | .atom _ ty _ _ => 4 ≤ ty.size && ty.size = n && pa % n = 0
/-- PEER_ACCESS (R442): a peer reaches device physical addresses through a port that is up. -/
def execPeerAccess (pa n : Nat) (req : PeerReq) (s : State) : Outcome State Fault Refusal :=
  if n = 0 || pa + n > devLimit || !peerFits pa n req.act || !s.portUp.getD (if req.port then 1 else 0) false then .refused (.notEnabled "PEER_ACCESS")
  else .next (s.peerDo pa n req.act)
/-- ATS_INVALIDATE (R440): the translation of the page goes; in this model every earlier request has completed. -/
def execAtsInvalidate (bus : Nat) (s : State) : Outcome State Fault Refusal := .next { s with ats := s.ats.filter (· ≠ bus / 4096) }
/-- Report a link error (R444). -/
def State.linkError (s : State) (port pa : Nat) : State :=
  ((List.range 4).filter s.active).foldl (fun s p => s.postError p { kind := 1, unit := 17 + port, addr := pa }) s
/-- LINK_CRC_ERROR (R444): after 16 retries, what the next step reads of a sector of peer memory is poisoned, or what it writes there is
dropped. (DEDUCED: entry 24.) -/
def execLinkCrcError (port pa : Nat) (wr : Bool) (s : State) : Outcome State Fault Refusal :=
  if !physOk pa || pa < peerLo || bits pa 41 1 ≠ port then .refused (.notEnabled "LINK_CRC_ERROR")
  else .next ({ s with linkErr := { pa := pa / 64 * 64, at_ := s.cycle + 1, wr := wr } :: s.linkErr }.linkError port pa)

end Sys2Proof.Machine
end

