-- ==== Sys2Proof/Machine/Device.lean ====
section
/-! DEFINITION. Sys2Proof/Machine/Device.lean: the Miller complex seen from outside (18_retire_power_firmware.md R429, R435 to R439;
17 R417; 04 R84, R85; 16 R388; 18 R426, R427): boot, firmware update, halted cores, interrupt vectors, queue and ring registers. -/
namespace Sys2Proof.Machine
open Host (Outcome)

/-- Has boot ended? -/
def State.booted (s : State) : Bool := s.bootrec.all (fun x => 2 ≤ x && x ≤ 4)
/-- Does the scheduler of a partition work: booted, no halted core (R417)? -/
def State.working (s : State) (p : Nat) : Bool :=
  s.booted && !s.dstat.getLsbD 1 && p < 4 && s.active p && s.coresUp p

/-! ### Boot and firmware (R434 to R437) -/

def State.setBoot (s : State) (j n : Nat) : State := { s with bootrec := s.bootrec.set j n }
/-- Boot from step `j` + 1 on, `n` steps left. `r` says how this start goes: entries 0 to 5 whether each step succeeds, 6 to 9
whether each quarter's image loads, 10 and 11 whether each port trains; a missing entry says yes. The quarters whose image failed at one start are
left disabled by the alternate path of the next. (DESIGN CHOICE: entry 11.) -/
def State.bootFrom (r : List Bool) : Nat → Nat → State → State
  | 0, _, s => s.updPart 0 (fun q => { q with pmlim := 0xFE0000000 })
  | n + 1, j, s =>
    let ok := r.getD j true
    let bad : BitVec 4 := BitVec.ofNat 4 ((List.range 4).foldr (fun q m => (if r.getD (6 + q) true then 0 else 1) + 2 * m) 0)
    let ports := [r.getD 10 true, r.getD 11 true]
    if s.bootrec.getD j 0 = 1 then
      if j = 3 then (s.setBoot j 4).bootFrom r n (j + 1)
      else if j = 5 then ({ s.setBoot j 4 with portUp := [false, false] }).bootFrom r n (j + 1)
      else if j = 2 then
        (if bad &&& ~~~s.bootBad = 0 then ({ s.setBoot j 3 with quartersOff := s.bootBad }).bootFrom r n (j + 1)
         else { s with bootBad := s.bootBad ||| bad })
      else if ok then (s.setBoot j 3).bootFrom r n (j + 1)
      else { s.setBoot j 5 with dstat := s.dstat ||| 2 }
    else if ok && (j ≠ 2 || bad = 0) then
      (if j = 5 then { s.setBoot j 2 with portUp := ports } else if j = 2 then { s.setBoot j 2 with quartersOff := 0 } else s.setBoot j 2).bootFrom r n (j + 1)
    else if j = 2 then { s.setBoot j 1 with bootBad := bad }
    else s.setBoot j 1
/-- BOOT (R435): one start of the device. -/
def execBoot (r : List Bool) (s : State) : Outcome State Fault Refusal :=
  if s.booted || s.dstat.getLsbD 1 || s.teams ≠ [] then .refused (.notEnabled "BOOT") else .next (s.bootFrom r 6 0)

/-- Record of kind 4 to each partition that holds a quarter (R417). (DEDUCED: entry 48.) -/
def State.quarterRecord (s : State) (q : Nat) : State :=
  ((List.range 4).filter (fun p => bit (s.part p).pqmask.toNat q)).foldl (fun s p => s.postError p { kind := 4, unit := q }) s
/-- The highest mailbox version in both of two ranges, if there is one (R437). -/
def protoMeet (a b : BitVec 16 × BitVec 16) : Option (BitVec 16) :=
  let lo := max a.1.toNat b.1.toNat
  let hi := min a.2.toNat b.2.toNat
  if lo ≤ hi then some (BitVec.ofNat 16 hi) else none
/-- The mailbox version that two dies use (R437). -/
def State.mailVersion (s : State) (d o : Nat) : Option (BitVec 16) := protoMeet (s.fwProto.getD d (0, 0)) (s.fwProto.getD o (0, 0))
/-- Switch the dies named, one after another; a die without a common version with each other die keeps its image, and the
update stops. -/
def State.switchDies (s : State) (img : FwImage) : List Nat → State
  | [] => s
  | d :: r =>
    let pr := (img.protoLo, img.protoHi)
    if ((List.range 5).filter (· ≠ d)).all (fun o => (protoMeet pr (s.fwProto.getD o (0, 0))).isSome) then
      let s1 := { s with fwPrev := s.fwPrev.set d (s.fwVer.getD d 0), fwVer := s.fwVer.set d img.secVer, fwProto := s.fwProto.set d pr }
      (if d < 4 then s1.quarterRecord d else s1).switchDies img r
    else s
/-- FIRMWARE_UPDATE (R436, R437). (DESIGN CHOICE: entry 11.) -/
def execFirmwareUpdate (img : FwImage) (s : State) : Outcome State Fault Refusal :=
  if !s.booted || s.rootHalt then .refused (.notEnabled "FIRMWARE_UPDATE")
  else if img.rsaOk && img.slhOk && Config.fusedVersion ≤ img.secVer then .next (s.switchDies img [0, 1, 2, 3, 4])
  else .next s

/-! ### Halted cores (R417, R438) -/

/-- SCHEDULER_CORE_ERROR (R417): the quarter's scheduler halts. -/
def execSchedulerCoreError (q : Nat) (s : State) : Outcome State Fault Refusal :=
  if q < 4 && !s.schedHalt.getLsbD q then .next { s with schedHalt := s.schedHalt ||| (1#4 <<< q) }
  else .refused (.notEnabled "SCHEDULER_CORE_ERROR")
/-- SCHEDULER_CORE_RELOADED (R417). (DEDUCED: entry 48.) -/
def execSchedulerCoreReloaded (q : Nat) (s : State) : Outcome State Fault Refusal :=
  if q < 4 && s.schedHalt.getLsbD q && !s.rootHalt then
    .next ({ s with schedHalt := s.schedHalt &&& ~~~(1#4 <<< q) }.quarterRecord q)
  else .refused (.notEnabled "SCHEDULER_CORE_RELOADED")
/-- ROOT_CORE_ERROR (R417, R438): the complex halts until reset; vector 0 is sent. -/
def execRootCoreError (s : State) : Outcome State Fault Refusal :=
  if s.rootHalt then .refused (.notEnabled "ROOT_CORE_ERROR")
  else .next ({ s with rootHalt := true, dstat := s.dstat ||| 1 }.sendMsix 0)
/-- MSIX_TABLE_WRITE (R439): the mask bit of a vector, and its pending bit; a pending message is sent once it is unmasked. (DESIGN CHOICE: entry 20.) -/
def execMsixTableWrite (vec : Nat) (mask clr : Bool) (s : State) : Outcome State Fault Refusal :=
  if vec ≥ 64 then .refused (.notEnabled "MSIX_TABLE_WRITE")
  else
    let b : DWord := 1#64 <<< vec
    let s := { s with msixMask := if mask then s.msixMask ||| b else s.msixMask &&& ~~~b
                      msixPend := if clr then s.msixPend &&& ~~~b else s.msixPend }
    if !mask && s.msixPend.getLsbD vec then .next { s with msixPend := s.msixPend &&& ~~~b, msgs := vec :: s.msgs } else .next s

/-! ### Queues and rings -/

/-- Change queue `n`. -/
def State.updQueue (s : State) (p n : Nat) (f : Queue → Queue) : State := s.updPart p (fun q => { q with queues := q.queues.modify n f })
/-- QCFG_WRITE (R84): while a queue is enabled, only `EN` can change. A queue that QCTL.q holds stays held when it is disabled and enabled
again. (DEDUCED: entries 44 and 49.) (DEDUCED: entry 49.) -/
def execQcfgWrite (p n : Nat) (v : BitVec 64) (s : State) : Outcome State Fault Refusal :=
  if p ≥ 4 || n ≥ 64 then .refused (.notEnabled "QCFG_WRITE")
  else .next (s.updQueue p n (fun q =>
    let x := v &&& 0xFFFFFFFFFFFFFF01
    if cfgEn q.cfg then
      if cfgEn v then q else { q.setState 0 with cfg := q.cfg &&& ~~~(1#64) }
    else if cfgEn v then
      if bits v.toNat 8 4 ≥ 12 then { q.setState 3 with cfg := x, idx := 0, stat := ((q.stat &&& ~~~(0xFF03#64)) ||| 0x0403#64) }
      else { q.setState 1 with cfg := x, idx := 0 }
    else { q with cfg := x }))
/-- QIDX_WRITE (R85, Table 4.5): `WIDX` only. -/
def execQidxWrite (p n : Nat) (v : BitVec 64) (s : State) : Outcome State Fault Refusal :=
  if p ≥ 4 || n ≥ 64 then .refused (.notEnabled "QIDX_WRITE")
  else .next (s.updQueue p n (fun q => { q with idx := mkIdx (idxR q.idx) (idxW v) }))
/-- `SLCFG` after a write: a table that software has written stays so until the register names another one, or none (R386, R388). -/
def Part.setSlcfg (q : Part) (v : DWord) : Part :=
  let q' := { q with slcfg := v &&& 0xFFFFFFFFFFFFF01F }
  let same := q'.logB ≠ 0 && q'.slBase == q.slBase && q'.slAsid == q.slAsid
  { q' with slWild := q.slWild && same, slDef := if same then q.slDef else [] }
/-- SLCFG_WRITE (R388). -/
def execSlcfgWrite (p : Nat) (v : BitVec 64) (s : State) : Outcome State Fault Refusal :=
  if p ≥ 4 then .refused (.notEnabled "SLCFG_WRITE") else .next ((s.spillAll p).updPart p (·.setSlcfg v))
/-- CQCFG_WRITE (R427). -/
def execCqcfgWrite (p : Nat) (v : BitVec 64) (s : State) : Outcome State Fault Refusal :=
  if p ≥ 4 then .refused (.notEnabled "CQCFG_WRITE")
  else .next (s.updPart p (fun q => { q with cqcfg := ringCfg q.cqcfg v, cqidx := if ringOn q.cqcfg v then 0 else q.cqidx }))
/-- CQIDX_WRITE (R425, R426): `RIDX` only. -/
def execCqidxWrite (p : Nat) (v : BitVec 64) (s : State) : Outcome State Fault Refusal :=
  if p ≥ 4 then .refused (.notEnabled "CQIDX_WRITE")
  else .next (s.updPart p (fun q => { q with cqidx := mkIdx (idxR v) (idxW q.cqidx) }))
/-- EQCFG_WRITE (R427). -/
def execEqcfgWrite (p : Nat) (v : BitVec 64) (s : State) : Outcome State Fault Refusal :=
  if p ≥ 4 then .refused (.notEnabled "EQCFG_WRITE")
  else .next (s.updPart p (fun q => { q with eqcfg := ringCfg q.eqcfg v, eqidx := if ringOn q.eqcfg v then 0 else q.eqidx }))

/-- ENERGY_REFILL (R95, R429): every 100 µs, all accounts at once; scaled when the shares exceed 540 W. (DEDUCED: entry 52.) -/
def execEnergyRefill (s : State) : Outcome State Fault Refusal :=
  if s.cycle < s.refillAt + 120000 then .refused (.notEnabled "ENERGY_REFILL")
  else
    let sum := (((List.range 4).filter s.active).map (fun p => (s.part p).share)).foldl (· + ·) 0
    .next { s with
      refillAt := s.refillAt + 120000
      parts := s.parts.map (fun q =>
        let add : Int := if sum > 540 then ((q.share * 100 * 540 / sum : Nat) : Int) else ((q.share * 100 : Nat) : Int)
        q.setBal (min (q.bal + add) (max q.bal ((q.share * 1000 : Nat) : Int)))) }

end Sys2Proof.Machine
end

