-- ==== Sys2Proof/Machine/Queues.lean ====
section
/-! DEFINITION. Sys2Proof/Machine/Queues.lean: taking a record from its submission queue, and completions (04_launch.md R82 to R87,
R91 to R94; 18_retire_power_firmware.md R425, R426). -/
namespace Sys2Proof.Machine
open Host (Outcome)

/-! ### The grid of cores (R88, R114) -/

/-- The core at a row and column of the 16 × 16 grid. -/
def coreAt (r c : Nat) : Nat := ((r / 8) * 2 + c / 8) * 64 + r % 8 * 8 + c % 8
/-- Quarter of a core. -/
def quarterOf (core : Nat) : Nat := core / 64
/-- Is a core reserved for the latency class (R88)? -/
def State.reserved (s : State) (p core : Nat) : Bool :=
  bit (s.part p).prsv.toNat (16 * quarterOf core + 4 * (core % 64 / 8 / 2) + core % 8 / 2)
/-- Is a core enabled and in a quarter of the partition? -/
def State.enabledIn (s : State) (p core : Nat) : Bool :=
  bit (s.part p).pqmask.toNat (quarterOf core) && !s.disabled.contains core && !s.quartersOff.getLsbD (quarterOf core)
/-- The cores of a rectangle of width `w` and height `h` at an anchor, in row-major order. -/
def rect (w h r c : Nat) : List Nat := (List.range (w * h)).map (fun i => coreAt (r + i / w) (c + i % w))
/-- Anchors in the order of R116. -/
def anchors (w h : Nat) : List (Nat × Nat) :=
  if w = 0 ∨ h = 0 ∨ w > 16 ∨ h > 16 then []
  else (List.range (17 - h)).flatMap (fun r => (List.range (17 - w)).map (fun c => (r, c)))
/-- Is there a rectangle all of whose cores satisfy `f`? -/
def fits (w h : Nat) (f : Nat → Bool) : Bool := (anchors w h).any (fun a => (rect w h a.1 a.2).all f)
/-- The rectangle test of status SHAPE (Table 4.3, R121). -/
def State.shapeFits (s : State) (p : Nat) (lat region : Bool) (w h : Nat) : Bool :=
  let ok (core : Nat) : Bool := s.enabledIn p core && (!lat || s.reserved p core)
  if region then ((List.range 4).filter (bit (s.part p).pqmask.toNat)).all (fun q => fits w h (fun c => quarterOf c == q && ok c))
  else fits w h ok

/-! ### Statuses that need the kernel object -/

/-- The first of SHAPE, OBJ and SRAM that an object gives a record (Table 4.3). -/
def State.objStatus (s : State) (p : Nat) (r : LRec) (region : Bool) (b : List Byte) : Nat :=
  let k := KObj.ofBytes r.obj.toNat b
  if bits r.ctl.toNat 4 4 + 1 ≠ k.gw ∨ bits r.ctl.toNat 8 4 + 1 ≠ k.gh ∨ bits r.ctl.toNat 0 4 + 1 ≠ k.waves ∨ !s.shapeFits p r.lat region k.gw k.gh then 0x03
  else if !objOk b then 0x01
  else if (List.range (k.gw * k.gh)).any (fun pos => k.need pos > 393216) then 0x02
  else 0
/-- Are grids of a queue region-placed (R121)? -/
def State.regionQ (s : State) (p n : Nat) : Bool := (s.part p).prgn.getLsbD n

/-! ### Taking a record (R85 to R87, R91, R93) -/

/-- What the tests of a record read at once: its successor ids and its kernel object. -/
structure RecReads where
  succ : List Nat × Option (Bad × Nat)
  obj : Option (Except Bad (List Byte))
def State.recReads (s : State) (p asid : Nat) (r : LRec) : RecReads :=
  { succ := s.succIds p asid r.succ.toNat r.nsucc, obj := if r.kind = 0 then some (s.readObj p asid r.obj) else none }
/-- What these reads do on their way. -/
def State.recTouch (s : State) (p asid : Nat) (r : LRec) : State :=
  let s := if r.nsucc = 0 then s else s.agentTouch p asid r.succ.toNat (4 * r.nsucc)
  if r.kind = 0 then s.agentTouch p asid r.obj.toNat 544 else s
/-- First status of Table 4.3 for a record of queue `q`, the node entry aside. (DEDUCED: entry 21.) -/
def State.recStatus (s : State) (p q : Nat) (r : LRec) (x : RecReads) (big : Bool) : Nat :=
  let n := s.nodeN p
  if x.succ.2.isSome || x.obj.any (fun o => match o with | .error _ => true | .ok _ => false) then 0x07
  else if big then 0x06
  else if r.kindBad then 0x04
  else if r.shapeBad then 0x03
  else
    let o := match x.obj with | some (.ok b) => s.objStatus p r (s.regionQ p q) b | _ => 0
    if o ≠ 0 then o
    else if (r.hasNode && r.node.toNat ≥ n) || x.succ.1.any (n ≤ ·) || (!r.hasNode && (r.preds ≠ 0 || r.kind = 2)) then 0x05
    else if s.capBad p ((if r.hasNode then [r.node.toNat] else []) ++ x.succ.1) then 0x09
    else 0
/-- Is an entry usable for a record (R91)? -/
def nodeUsable (r : LRec) (b : List Byte) : Bool := nodeState b = 0 && (!nodeSig b || r.kind = 2)
/-- The status once the node entry has been read, or met protection or poison. -/
def nodeStatus (r : LRec) (st : Nat) : Except Bad (List Byte) → Nat
  | .error _ => 0x07
  | .ok b => if st ≠ 0 then st else if nodeUsable r b then 0 else 0x05
/-- A refused record stops its queue (R86). -/
def State.refuse (s : State) (p q ix st : Nat) : State :=
  s.updQueue p q (fun x => { x with stat := BitVec.ofNat 64 (ix % 2 ^ 32 * 2 ^ 32 + st * 256 + 3) })
/-- Arrival of a record with a node (R93). (DEDUCED: entry 46.) -/
def State.arrive (s : State) (p q ix : Nat) (r : LRec) (raw b : List Byte) : State :=
  let k := r.node.toNat
  let m := nodeRem b + r.preds
  let s := ((s.nodeWrite p k 0 (raw.take 64)).nodeWrite p k 0x40 (toBytes 4 (BitVec.ofInt 32 m).toNat)).nodeWrite p k 0x45 (toBytes 1 q)
  if m = 0 then s.nodeReady p k q r (nodeSig b)
  else if m < 0 then s.refuse p q ix 0x05
  else s.nodeWrite p k 0x44 [1]
/-- A record without a node becomes what its queue places or starts next (R87). -/
def State.direct (s : State) (p q asid : Nat) (r : LRec) : State :=
  let g := r.grid s.nextId p q asid 1 none 0
  { s.updQueue p q (fun x => { x with cur := some s.nextId }) with grids := s.grids ++ [g], nextId := s.nextId + 1 }
/-- Agent holds of queue `q`: on the entry of the record that it has read, and on the entry of the node that it starts. -/
def takeHold (q : Nat) : Nat := 1 + q
def startHold (q : Nat) : Nat := 65 + q
/-- Does a device agent wait for a page? -/
def Part.agentWaits (q : Part) (n : Nat) : Bool := q.agentHolds.any (·.sl == n)
/-- Go on with the record that a queue has read: without a node entry to read it is refused or starts; otherwise it waits while the entry's
page faults, and is refused or arrives (R82, R91). A refusal sets the queue's STATE to ERROR also if it has been disabled meanwhile.
(DEDUCED: entry 49.) -/
def State.takeOn (s : State) (p q : Nat) (x : Took) : State :=
  let r := LRec.ofBytes x.raw
  let gone (s : State) : State := s.updQueue p q (fun y => { y with took := none })
  if r.hasNode && r.node.toNat < s.nodeN p then
    match s.nodeRead p r.node.toNat with
    | .error (.fault ps) => (s.updQueue p q (fun y => { y with took := some x })).agentFault p (s.nodeAsid p) ps (kEngRead + kWrite) (takeHold q)
    | e =>
      let st := nodeStatus r x.st e
      let s := (gone s).nodeTouch p r.node.toNat
      if st ≠ 0 then s.refuse p q x.ix st
      else match e with
        | .ok b => s.arrive p q x.ix r x.raw b
        | .error _ => s
  else if x.st ≠ 0 then (gone s).refuse p q x.ix x.st
  else (gone s).direct p q (((s.part p).queueAsid q)) r
/-- Does a queue take its next record now (R85, R87)? (DEDUCED: entry 49.) -/
def Queue.mayTake (q : Queue) : Bool := q.state = 1 && cfgEn q.cfg && idxUsed q.idx ≠ 0 && q.cur.isNone && q.readyN == [] && q.took.isNone
/-- RECORD_TAKE (R82, R85, R86, R91): the queue reads its next record, once, with a .sys acquire, counts it, and tests it; or it goes on with the
one that it has read. -/
def execRecordTake (p q : Nat) (s : State) : Outcome State Fault Refusal :=
  match (s.part p).queues[q]? with
  | none => .refused (.notEnabled "RECORD_TAKE")
  | some x =>
    if !s.working p || (s.part p).agentWaits (takeHold q) then .refused (.notEnabled "RECORD_TAKE")
    else match x.took with
      | some y => .next (s.takeOn p q y)
      | none =>
        if !x.mayTake then .refused (.notEnabled "RECORD_TAKE")
        else
          let asid := cfgAsid x.cfg
          let ix := idxR x.idx
          let va := cfgBase x.cfg + 64 * (ix % cfgSize x.cfg)
          let raw := s.readBy .outer p asid va 64 true .read
          let s := ((s.touch .outer p asid va 64 true .read true).acquire none (Scope.rank .sys)).updQueue p q
            (fun x => { x with idx := mkIdx (ix + 1) (idxW x.idx) })
          match raw with
          | .error _ => .next (s.refuse p q ix 0x07)
          | .ok raw =>
            let r := LRec.ofBytes raw
            let st := s.recStatus p q r (s.recReads p asid r) (idxUsed x.idx > cfgSize x.cfg)
            .next ((s.recTouch p asid r).takeOn p q { ix := ix, raw := raw, st := st })

/-! ### Completions (R94, R425, R426) -/

def State.updCompl (s : State) (p : Nat) (f : Compl → Compl) : State :=
  s.updPart p (fun q => { q with compl := match q.compl with | c :: r => f c :: r | [] => [] })
def State.dropCompl (s : State) (p : Nat) : State := s.updPart p (fun q => { q with compl := q.compl.drop 1 })
/-- Report a queue structure that cannot be used (R418). -/
def State.structError (s : State) (p asid : Nat) (b : Bad) (a : Nat) (c : Compl) : State :=
  s.postError p { kind := 5, cause := b.code, asid := asid, addr := a, qseq := c.lrec.seq.toNat }
/-- Step 1: the release that covers every store of the node's work, on whatever core it ran (R94): what the caches below the slices hold of the
address space that the slices have not got goes there, core by core, then cluster by cluster. (DEDUCED: entry 46.) -/
def State.complRelease (s : State) (p : Nat) (c : Compl) : State :=
  let work (part asid : Nat) : Bool := part == p && asid == c.asid
  let s := s.combine (fun u => work u.part u.asid)
  let s := s.sendLines (fun l => l.loc.rank == 0 && work l.part l.asid)
  let s := s.sendLines (fun l => l.loc.rank == 1 && work l.part l.asid)
  s.release none (Scope.rank (if c.lrec.ctl.getLsbD 15 then .sys else .dev))
/-- Agent hold of the oldest completion. -/
def complHold : Nat := 0
/-- Step 2: the node entry is DONE. None: it waits for a page. -/
def State.complNode (s : State) (p : Nat) (c : Compl) : State × Bool :=
  let k := c.lrec.node.toNat
  if !c.lrec.hasNode || k ≥ s.nodeN p then (s, true)
  else match s.nodeRead p k with
    | .ok _ => ((s.nodeTouch p k).nodeWrite p k 0x44 [5], true)
    | .error (.fault ps) => (s.agentFault p (s.nodeAsid p) ps (kEngRead + kWrite) complHold, false)
    | .error b => (s.structError p (s.nodeAsid p) b (s.nodeVa p k) c, true)
/-- Is the completion ring full? -/
def Part.complFull (q : Part) : Bool := cfgEn q.cqcfg && idxUsed q.cqidx ≥ cfgSize q.cqcfg
/-- Step 3: the completion record (Table 18.1), written with a .sys release. -/
def State.complRecord (s : State) (p : Nat) (c : Compl) : State × Bool :=
  let q := s.part p
  if !cfgEn q.cqcfg then (s, true)
  else
    let va := cfgBase q.cqcfg + 32 * (idxW q.cqidx % cfgSize q.cqcfg)
    match s.writeVia .outer p (cfgAsid q.cqcfg) va true (packRec [(c.lrec.seq.toNat, 8), (c.lrec.node.toNat, 4), (c.queue, 1), (c.status, 1),
        (c.cause, 1), (c.cstat, 1), (c.energy, 8), (s.seqOf p, 8)]) with
    | .error (.fault ps) => (s.agentFault p (cfgAsid q.cqcfg) ps kEngWrite complHold, false)
    | .error b => (s.structError p (cfgAsid q.cqcfg) b va c, true)
    | .ok s => (((s.bumpSeq p).updPart p (fun q => { q with cqidx := mkIdx (idxR q.cqidx) (idxW q.cqidx + 1) })).ringMsix p 7 0, true)
/-- Step 4: the predecessor completion of the id at a place of the successor list: what follows is the rest of the list, its
end, or a wait. (DEDUCED: entry 46.) -/
def State.complSucc (s : State) (p : Nat) (c : Compl) (i : Nat) : State × Option Bool :=
  let a := c.lrec.succ.toNat + 4 * i
  match s.readVa p c.asid a 4 true .read with
  | .error (.fault ps) => (s.agentFault p c.asid ps kEngRead complHold, none)
  | .error b => (s.structError p c.asid b a c, some false)
  | .ok bs =>
    let k := ofBytes bs
    let s := s.agentTouch p c.asid a 4
    if k ≥ s.nodeN p then (s, some true)
    else match s.nodeDec p k with
      | .ok s => (s, some true)
      | .error (.fault ps) => (s.agentFault p (s.nodeAsid p) ps (kEngRead + kWrite) complHold, none)
      | .error b => (s.structError p (s.nodeAsid p) b (s.nodeVa p k) c, some true)
/-- The successor list from place `i` on. -/
def State.complWalk (s : State) (p : Nat) (c : Compl) : Nat → Nat → State
  | 0, _ => s.dropCompl p
  | n + 1, i =>
    match s.complSucc p c i with
    | (s, some true) => s.complWalk p c n (i + 1)
    | (s, some false) => s.dropCompl p
    | (s, none) => s.updCompl p (fun c => { c with stage := 2 + i })
/-- Steps 3 and 4 of the oldest completion. -/
def State.complRest (s : State) (p : Nat) (c : Compl) : State :=
  if c.stage ≥ 2 then s.complWalk p c (c.lrec.nsucc - (c.stage - 2)) (c.stage - 2)
  else if (s.part p).complFull then s.updCompl p (fun c => { c with stage := 1 })
  else match s.complRecord p c with
    | (s, false) => s.updCompl p (fun c => { c with stage := 1 })
    | (s, true) => s.complWalk p c c.lrec.nsucc 0
/-- NODE_COMPLETE (R94, R425, R426): the oldest completion of the partition goes as far as it can. -/
def execNodeComplete (p : Nat) (s : State) : Outcome State Fault Refusal :=
  match (s.part p).compl with
  | [] => .refused (.notEnabled "NODE_COMPLETE")
  | c :: _ =>
    if !s.working p || (s.part p).agentWaits complHold || (c.stage = 1 && (s.part p).complFull) then .refused (.notEnabled "NODE_COMPLETE")
    else if c.stage ≥ 1 then .next (s.complRest p c)
    else match (s.complRelease p c).complNode p c with
      | (s, false) => .next s
      | (s, true) => .next (s.complRest p c)

end Sys2Proof.Machine
end

