-- ==== Sys2Proof/Machine/Place.lean ====
section
/-! DEFINITION. Sys2Proof/Machine/Place.lean: selecting, admitting and placing gangs, and taking them off their cores
(05_placement.md R114 to R121, 04_launch.md R87 to R101, 17_interrupts.md R412 to R415, 18 R424). -/
namespace Sys2Proof.Machine
open Host (Outcome)

/-! ### Free room on a core (R115, R118) -/

def State.gridLat (s : State) (t : Team) : Bool := (s.gridOf t.tag).any (·.lat)
/-- Teams that hold slots and SRAM of a core. -/
def State.onCore (s : State) (core : Nat) : List Team := s.teams.filter (fun t => t.core == core && s.resident t)
/-- What a search looks for: the partition, class and kernel of a gang, its quarter if it is region-placed, whether it must
stay off reserved cores (R117), and whether bulk teams on reserved cores count as gone (R90). -/
structure Want where
  p : Nat
  lat : Bool
  k : KObj
  quarter : Option Nat
  spare : Bool
  force : Bool
/-- Teams of a core that count. -/
def State.standing (s : State) (x : Want) (core : Nat) : List Team :=
  (s.onCore core).filter (fun t => !(x.force && s.reserved x.p core && !s.gridLat t))
/-- Free wave slots beside some teams. -/
def freeSlots (ts : List Team) : List Nat := (List.range 16).filter (fun n => ts.all (fun t => t.waves.all (·.slot ≠ n)))
/-- The lowest range of core SRAM that fits, on a 256 B boundary. -/
def firstFit (ts : List Team) (need : Nat) : Option Nat :=
  let used := (ts.map (fun t => (t.sramLo, t.sramLen))).filter (·.2 ≠ 0)
  ((0 :: used.map (fun u => (u.1 + u.2 + 255) / 256 * 256)).filter (fun a =>
      a + need ≤ 393216 && used.all (fun u => a + need ≤ u.1 || u.1 + u.2 ≤ a))).foldl
    (fun m a => match m with | none => some a | some b => some (min a b)) none
/-- Is a core available for a position (R115)? -/
def State.available (s : State) (x : Want) (core pos : Nat) : Bool :=
  let ts := s.standing x core
  s.enabledIn x.p core && !s.failed.contains core && x.quarter.all (· == quarterOf core)
    && (!x.lat || s.reserved x.p core) && !(x.spare && s.reserved x.p core)
    && ts.all (fun t => (s.gang? t.gid).all (·.st ≠ .leaving))
    && x.k.waves ≤ (freeSlots ts).length && (firstFit ts (x.k.need pos)).isSome
/-- The search (R116): the first anchor at which every position's core is available. -/
def State.search (s : State) (x : Want) : Option (Nat × Nat) :=
  (anchors x.k.gw x.k.gh).find? (fun a =>
    (List.range (x.k.gw * x.k.gh)).all (fun pos => s.available x (coreAt (a.1 + pos / x.k.gw) (a.2 + pos % x.k.gw)) pos))
/-- Slots of a team's waves, in wave order (R118): the lowest free slot of the pipes that hold the fewest of its waves. -/
def pickSlots (free : List Nat) : Nat → List Nat → List Nat
  | 0, l => l
  | n + 1, l =>
    let cnt (slot : Nat) : Nat := (l.filter (fun y => y / 4 == slot / 4)).length
    match (free.filter (fun x => !l.contains x)).foldl (fun (b : Option Nat) x =>
        match b with | none => some x | some y => if cnt x < cnt y then some x else some y) none with
    | none => l
    | some x => pickSlots free n (l ++ [x])

/-! ### Placing teams (R27, R118, R119) -/

/-- A wave at the first instruction of its team (Table 2.2). -/
def Wave.first (ix slot : Nat) (entry args obj : DWord) : Wave :=
  { ix := ix, slot := slot, v := [], s := sset 0 (sset 0 [] 0 args) 1 obj, p := [], lc := [], ev := [], fmode := 0, fflags := 0
    tcause := 0, taddr := 0, tregion := 0
    thr := List.replicate 32 { pc := entry, exited := false, mem := 0, hold := none }
    joining := 0, age := [], loops := [], loopMode := false, snap := none, young := false, ready := 0, sb := [], bundle := none
    regions := [], waits := [], holds := [], pend := [], waitCnt := none, waitIds := [], waitRids := [], handler := false
    kept := [], keptW := [], keptOver := [], trapQ := none, mfence := none, mfAcq := none, acc := [], accBad := [], mopen := [], relatch := false, bdescs := []
    walks := [], scenes := [], saved := [] }
/-- The group binding table of a gang at an anchor (R119). -/
def KObj.bindAt (k : KObj) (a : Nat × Nat) : List Bind :=
  k.roles.map (fun r => let c := coreAt (a.1 + r.2) (a.2 + r.1); { x := r.1, y := r.2, core := c, coreid := coreId c })
/-- The core of a position. -/
def KObj.coreOf (k : KObj) (a : Nat × Nat) (pos : Nat) : Nat := coreAt (a.1 + pos / k.gw) (a.2 + pos % k.gw)
/-- Is a tag free (R395)? -/
def State.tagFree (s : State) (n : Nat) : Bool := n ≠ 0 && n % 2 ^ 32 ≠ 0xFFFFFFFF && !s.teams.any (fun t => t.tag == n && !t.retired)
/-- The next tag that may be given. -/
def State.takeTag : Nat → State → Nat × State
  | 0, s => (s.nextTag, s)
  | n + 1, s =>
    let t := s.nextTag
    let s' := { s with nextTag := (s.nextTag + 1) % 2 ^ 32 }
    if s.tagFree t then (t, { s' with teams := s'.teams.filter (·.tag ≠ t) }) else State.takeTag n s'
/-- Is a team in system mode (R403): does the page of its `ENTRY` have `SYS` = 1? -/
def State.entrySys (s : State) (p asid : Nat) (entry : DWord) : Bool :=
  match s.translate p asid entry.toNat true .fetch with | .ok _ a => a.sys | _ => false
/-- The capability of a team (R433). -/
def State.capOf (s : State) (g : Grid) (sys : Bool) : DWord :=
  if !sys then 0
  else if g.parent.isSome then g.pcap
  else if g.queue < 64 ∧ (s.pcq.getD g.part 0).getLsbD g.queue then (1#64 <<< 63) ||| ((s.pca.getD g.part 0 &&& 0xF) <<< 4) else 0
/-- Bytes of a core's SRAM that placed teams use. -/
def State.sramUsed (s : State) (core : Nat) : Nat := (s.onCore core).foldl (fun n t => n + t.sramLen) 0
/-- Pinned lines give up the core SRAM that placement needs, those used longest ago first (R214). -/
def State.sramTrim (s : State) (core : Nat) : State :=
  let ls := s.lines.filter (fun l => l.loc == .sram core)
  let room := (393216 - s.sramUsed core) / 256
  if ls.length ≤ room then s else s.dropLines (fun l => l.loc == .sram core && room ≤ (ls.filter (fun m => l.stamp < m.stamp)).length)
/-- What a core does when a team is placed on it: its constant cache and its loop buffers are emptied, pinned lines make room, and the team
starts with an acquire (R94, R144, R214, R234). (DEDUCED: entry 46.) -/
def State.enterCore (s : State) (core r : Nat) : State :=
  let s := { s with consts := s.consts.filter (·.core ≠ core), loopBufs := s.loopBufs.filter (·.core ≠ core) }
  (s.sramTrim core).acquire (some core) r
/-- Scope at which a grid starts: that of its predecessors' releases, which may be .sys for a node that has some (R94). -/
def LRec.startRank (r : LRec) : Nat := if r.hasNode ∧ r.preds ≠ 0 then Scope.rank .sys else Scope.rank .dev
/-- One team of a new gang. -/
def State.newTeam (s : State) (g : Grid) (k : KObj) (gid : Nat) (a : Nat × Nat) (pos : Nat) : State :=
  let core := k.coreOf a pos
  let ts := s.onCore core
  let slots := pickSlots (freeSlots ts) k.waves []
  let sys := s.entrySys g.part g.asid k.entry
  let lo := (firstFit ts (k.need pos)).getD 0
  let cap := s.capOf g sys
  let r := s.takeTag (s.teams.length + 3)
  let t : Team :=
    { tag := r.1, gid := gid, pos := pos, core := core, part := g.part, asid := g.asid, sys := sys, pcap := cap
      waves := slots.zipIdx.map (fun x => Wave.first x.2 x.1 k.entry g.lrec.args (BitVec.ofNat 64 k.addr))
      scratch := [], scrPoison := [], regPoison := [], pool := [], bars := List.replicate 16 Bar.reset
      aq := { run := false, it := 0, ns := 0, base := [], q := List.replicate 8 [] }
      meter := 0, base := 0, sramLo := lo, sramLen := k.need pos, torn := 0, retired := false }
  { r.2 with teams := r.2.teams ++ [t] }.enterCore core g.lrec.startRank
/-- Charge an account (R96). -/
def State.charge (s : State) (p : Nat) (e : Nat) : State := s.updPart p (fun q => q.setBal (q.bal - e))
/-- Place the next gang of a grid at an anchor. -/
def State.placeNew (s : State) (g : Grid) (k : KObj) (a : Nat × Nat) : State :=
  let gid := s.nextId
  let gx := max 1 g.lrec.gx.toNat
  let gy := max 1 g.lrec.gy.toNat
  let gang : Gang :=
    { gid := gid, grid := g.id, x := g.next % gx, y := g.next / gx % gy, z := g.next / (gx * gy), kobj := k, binds := k.bindAt a
      launders := k.launders.map (fun l => { free := l.slots, fseq := 0, slots := [] }), nbars := List.replicate 16 Bar.reset
      st := .placed, order := gid, placedAt := s.cycle, waitPark := false }
  let s := { s with nextId := s.nextId + 1, gangs := s.gangs ++ [gang] }
  let s := (List.range (k.gw * k.gh)).foldl (fun s pos => s.newTeam g k gid a pos) s
  (s.charge g.part (k.gw * k.gh * g.lrec.est.toNat)).updGrid g.id (fun x => { x with next := x.next + 1, kobj := some k })
/-- A wave as it is saved and restored: outside handler mode its undeclared registers come back undefined (R45, R413). -/
def Wave.restored (wv : Wave) (free : Nat) (k : KObj) (slot : Nat) : Wave :=
  let wv := { wv with slot := slot, relatch := true, ready := 0, sb := [], young := false, age := [] }
  if wv.handler then wv
  else
    let v := (List.range (4096 - 32 * k.vregs)).map (fun i => (32 * k.vregs + i, (Config.freeWord free (1100 + wv.ix) i).setWidth 32))
    let s := (List.range (64 - k.sregs)).map (fun i => (k.sregs + i, Config.freeWord free (1120 + wv.ix) i))
    { wv with v := wv.v.filter (·.1 < 32 * k.vregs) ++ v.filter (fun x => x.2 ≠ 0), s := wv.s.filter (·.1 < k.sregs) ++ s.filter (fun x => x.2 ≠ 0) }
/-- Restore one team on its new core (R413): slots, SRAM, the latch to be read again, and the frames of its handler waves. -/
def State.oldTeam (s : State) (k : KObj) (a : Nat × Nat) (t : Team) : State :=
  let core := k.coreOf a t.pos
  let ts := s.onCore core
  let slots := pickSlots (freeSlots ts) t.waves.length []
  let lo := (firstFit ts (k.need t.pos)).getD 0
  let s := (s.updTeam t.tag (fun t => { t with
    core := core, sramLo := lo, sramLen := k.need t.pos, base := t.meter
    waves := t.waves.zipIdx.map (fun (x : Wave × Nat) => x.1.restored s.free k (slots.getD x.2 0)) })).enterCore core (Scope.rank .dev)
  match s.team? t.tag with
  | none => s
  | some t => t.waves.foldl (fun s wv =>
      if wv.saved = [] then s
      else
        let s := match s.writePieces t (s.frameAddr t wv) [(0, wv.saved)] with | some s => s | none => s
        s.updWave t.tag wv.ix (fun wv => { wv with saved := [] })) s
/-- Place a gang of the return list afresh (R90, R413). -/
def State.placeOld (s : State) (g : Gang) (gr : Grid) (a : Nat × Nat) : State :=
  let ts := s.teamsOf g.gid
  -- its slots and SRAM are chosen team by team: a team not yet moved holds none
  let s := s.updGang g.gid (fun g => { g with binds := g.kobj.bindAt a, st := .placed, placedAt := s.cycle })
  let s := { s with teams := s.teams.map (fun (t : Team) => if t.gid = g.gid ∧ !t.retired then { t with core := 256 } else t) }
  let s := ts.foldl (fun s t => s.oldTeam g.kobj a t) s
  let s := s.charge gr.part (ts.length * gr.lrec.est.toNat)
  let s := { s with free := s.free + 1 }
  ts.foldl (fun s t => t.waves.foldl (fun s wv => s.enterTrap t.tag wv.ix) s) s

/-! ### Selection (R87, R89, R93) -/

/-- What may be placed or started next. -/
inductive Head where
  | back (g : Gang) (gr : Grid)
  | fresh (gr : Grid)
/-- Is a queue quiesced (R423)? (DEDUCED: entry 44.) -/
def State.queueHeld (s : State) (p n : Nat) : Bool := ((s.part p).queues[n]?).any (·.held)
/-- Gangs of a class on the return list of a partition, the oldest first placement first. -/
def State.returnHead (s : State) (p : Nat) (lat : Bool) : Option Head :=
  (s.gangs.foldl (fun (b : Option (Gang × Grid)) g =>
    match s.grid? g.grid with
    | none => b
    | some gr =>
      if g.st ≠ .returning || gr.part ≠ p || gr.lat != lat || s.queueHeld p gr.queue then b
      else match b with | some (x, _) => if g.order < x.order then some (g, gr) else b | none => some (g, gr)) none).map
    (fun x => Head.back x.1 x.2)
/-- The first child grid of a class. -/
def State.childHead (s : State) (p : Nat) (lat : Bool) : Option Head :=
  (((s.part p).childQ.filterMap s.grid?).find? (fun g => g.lat == lat && !s.queueHeld p g.queue)).map Head.fresh
/-- The first grid of a class among the queues, from the rotation on. -/
def State.queueHead (s : State) (p : Nat) (lat : Bool) : Option Head :=
  let rot := if lat then (s.part p).rotLat else (s.part p).rotBulk
  let qs := (List.range 64).map (fun i => (rot + i) % 64)
  ((qs.filterMap (fun n => match (s.part p).queues[n]? with
      | some q => if q.held then none else q.cur.bind s.grid?
      | none => none)).find? (·.lat == lat)).map Head.fresh
/-- The name of a head, by which a partition remembers that it waits. -/
def Head.id : Head → HeadId
  | .back g _ => .back g.gid
  | .fresh gr => .fresh gr.id
/-- Does a gang of the return list go by this name? -/
def HeadId.isBack : HeadId → Bool
  | .back _ => true
  | .fresh _ => false
def Part.waiting (q : Part) (lat : Bool) : List HeadId := if lat then q.headLat else q.headBulk
def Part.setWaiting (q : Part) (lat : Bool) (f : List HeadId → List HeadId) : Part :=
  if lat then { q with headLat := f q.headLat } else { q with headBulk := f q.headBulk }
/-- A head by its name, if it still can be placed. -/
def State.headNamed (s : State) (p : Nat) : HeadId → Option Head
  | .back gid => (match s.gang? gid with
    | some g => (match s.grid? g.grid with
      | some gr => if g.st == .returning && gr.part == p && !s.queueHeld p gr.queue then some (.back g gr) else none
      | none => none)
    | none => none)
  | .fresh id => (match s.grid? id with
    | some gr => if gr.part == p && !s.queueHeld p gr.queue && ((s.part p).childQ.contains id || (s.part p).queues.any (·.cur == some id)) then some (.fresh gr) else none
    | none => none)
/-- The head that waits in a class among those of the return list, or among the grids. -/
def State.waitingHead (s : State) (p : Nat) (lat back : Bool) : Option Head :=
  ((s.part p).waiting lat).findSome? (fun h => if h.isBack == back then s.headNamed p h else none)
/-- The next of a class: gangs of the return list go ahead of child gangs and queue records, and in each of the two the one that waits stays
first (R89, R90, R96, R117). (DEDUCED: entry 51.) -/
def State.head? (s : State) (p : Nat) (lat : Bool) : Option Head :=
  (((s.waitingHead p lat true).or (s.returnHead p lat)).or (s.waitingHead p lat false)).or ((s.childHead p lat).or (s.queueHead p lat))

/-- A queue whose ready list has a node that it can take now (R87, R93). -/
def State.pullable (s : State) (p n : Nat) : Bool :=
  ((s.part p).queues[n]?).any (fun q => !q.held && q.cur.isNone && q.took.isNone && q.readyN ≠ [])
/-- The queue takes the node: its grid becomes the one it places next. (DEDUCED: entry 46.) -/
def State.pull (s : State) (p n : Nat) : State :=
  match (s.part p).queues[n]? with
  | none => s
  | some q =>
    match q.readyN with
    | [] => s
    | k :: _ => (s.updQueue p n (fun q => { q with readyN := q.readyN.drop 1 })).direct p n ((s.part p).queueAsid n) k.2

/-- A grid has placed all its gangs, or started: it leaves its queue, or the child queue. -/
def State.leaveQueue (s : State) (g : Grid) : State :=
  s.updPart g.part (fun q => { q with
    childQ := q.childQ.filter (· ≠ g.id)
    queues := q.queues.map (fun (x : Queue) => if x.cur = some g.id then { x with cur := none } else x) })
/-- Its class has served its queue (R89). -/
def State.served (s : State) (g : Grid) : State :=
  if g.parent.isSome then s
  else s.updPart g.part (fun q => if g.lat then { q with rotLat := (g.queue + 1) % 64 } else { q with rotBulk := (g.queue + 1) % 64 })
/-- Does a grid start a node when its first gang is placed, or its copy begins (R93)? -/
def Grid.starts (g : Grid) : Bool := g.parent.isNone && g.lrec.hasNode && g.next == 0
/-- Pages of the node entry that keep a grid from starting (R91). -/
def State.startFault (s : State) (g : Grid) : Option (List Nat) :=
  if !g.starts then none else match s.nodeRead g.part g.lrec.node.toNat with | .error (.fault ps) => some ps | _ => none
/-- The node of a grid starts (R93); an entry that meets protection or poison is left and reported. (DESIGN CHOICE: entry 46.) -/
def State.nodeStart (s : State) (g : Grid) : State :=
  if !g.starts then s
  else
    let k := g.lrec.node.toNat
    match s.nodeRead g.part k with
    | .ok _ => (s.nodeTouch g.part k).nodeWrite g.part k 0x44 [3]
    | .error b => s.postError g.part { kind := 5, cause := b.code, asid := s.nodeAsid g.part, addr := s.nodeVa g.part k, qseq := g.lrec.seq.toNat }
/-- A grid whose object fails at the placement reading (R100): it places no team and retires as torn down. -/
def State.stillborn (s : State) (g : Grid) : State :=
  let s := s.updGrid g.id (fun g => { g with dead := true, torn := true })
  let s := s.postError g.part { kind := 3, asid := 0, addr := g.lrec.obj.toNat, qseq := g.lrec.seq.toNat }
  (s.leaveQueue g).afterEnd
/-- Is a grid region-placed, as `PRGN` stands at a search (R106, R121)? -/
def State.regionOf (s : State) (g : Grid) : Bool := g.parent.isNone && g.queue < 64 && s.regionQ g.part g.queue
/-- Quarter of a gang of a region-placed grid, by its coordinates (R121). -/
def State.quarterAt (s : State) (g : Grid) (x y : Nat) : Option Nat :=
  if !s.regionOf g then none
  else
    let mask := (s.part g.part).pqmask.toNat
    let m := max 1 (popc mask 4)
    some (nthSet mask 4 ((x + (if m ≤ 3 then 1 else 2) * y) % m))
/-- Quarter of its next gang. -/
def State.quarterFor (s : State) (g : Grid) : Option Nat :=
  let gx := max 1 g.lrec.gx.toNat
  s.quarterAt g (g.next % gx) (g.next / gx % max 1 g.lrec.gy.toNat)
/-- The object a grid is placed by: the reading it has, or the placement reading (R42, R100). -/
def State.kobjOf (s : State) (g : Grid) : Option KObj :=
  match g.kobj with
  | some k => some k
  | none =>
    match s.readObj g.part g.asid g.lrec.obj with
    | .error _ => none
    | .ok b => if s.objStatus g.part g.lrec (s.regionOf g) b = 0 then some (KObj.ofBytes g.lrec.obj.toNat b) else none
/-- What a head looks for. -/
def State.wantOf (s : State) (p : Nat) (h : Head) (spare : Bool) : Option Want :=
  match h with
  | .back g gr => some { p := p, lat := gr.lat, k := g.kobj, quarter := s.quarterAt gr g.x g.y, spare := spare, force := false }
  | .fresh g => (s.kobjOf g).map (fun k => { p := p, lat := g.lat, k := k, quarter := s.quarterFor g, spare := spare, force := false })
/-- Cost of a head (R96). -/
def State.costOf (s : State) (h : Head) : Nat :=
  match h with
  | .back g gr => (s.teamsOf g.gid).length * gr.lrec.est.toNat
  | .fresh g => if g.lrec.kind = 1 then g.lrec.est.toNat else ((s.kobjOf g).elim 0 (fun k => k.gw * k.gh)) * g.lrec.est.toNat
/-- Is it admitted (R96)? -/
def Part.admits (q : Part) (lat : Bool) (e : Nat) : Bool := if lat then decide (q.bal - e ≥ -(q.rsv : Int)) else decide (q.bal ≥ e)

/-- What can be done with a head: it starts as a copy; its object fails; there is room at an anchor; it waits for energy, or for the page of its
node entry; it finds no rectangle. -/
inductive Verdict where
  | copy
  | dead
  | room (a : Nat × Nat)
  | poor
  | page (ps : List Nat)
  | stuck
  deriving DecidableEq, Repr
/-- The verdict on the head of a class. (DEDUCED: entry 51.) -/
def State.verdict (s : State) (p : Nat) (lat spare : Bool) (h : Head) : Verdict :=
  let poor := !(s.part p).admits lat (s.costOf h)
  let waits : Option Verdict := match h with
    | .fresh g => if (s.part p).agentWaits (startHold g.queue) && g.starts then some .poor else (s.startFault g).map .page
    | .back _ _ => none
  let isCopy : Bool := match h with | .fresh g => g.lrec.kind == 1 | .back _ _ => false
  if isCopy then (if poor then .poor else waits.getD .copy)
  else match s.wantOf p h spare with
    | none => (match h with | .fresh _ => .dead | .back _ _ => .stuck)
    | some x =>
      if poor then .poor
      else match s.search x with
        | some a => waits.getD (.room a)
        | none => .stuck
/-- Place a head where the search found room. -/
def State.placeHead (s : State) (h : Head) (a : Nat × Nat) : State :=
  match h with
  | .back g gr => s.placeOld g gr a
  | .fresh g =>
    match s.kobjOf g with
    | none => s
    | some k =>
      let s := if g.kobj.isNone then s.agentTouch g.part g.asid g.lrec.obj.toNat 544 else s
      let s := ((s.nodeStart g).placeNew g k a).served g
      if g.next + 1 ≥ g.total then s.leaveQueue g else s
/-- Start a copy record, with an acquire (R94); its accesses are not in system mode. (DESIGN CHOICE: entry 39.) -/
def State.startCopy (s : State) (g : Grid) : State :=
  let c : Copy := { id := s.nextId, desc := g.lrec.obj.toNat, bytes := [], asid := g.asid, part := g.part, sys := false, tag := none, wave := 0
                    ev := none, pos := 0, poisoned := false, flags := 0, fin := none, grid := some g.id, holds := [] }
  let s := ((s.nodeStart g).charge g.part g.lrec.est.toNat).acquire none g.lrec.startRank
  ({ s with copies := s.copies ++ [c], nextId := s.nextId + 1 }.served g).leaveQueue g
/-- The head stands first and waits: it takes the place of another of its kind that can be placed no more. -/
def State.headWaits (s : State) (p : Nat) (lat : Bool) (h : Head) : State :=
  s.updPart p (·.setWaiting lat (fun l => h.id :: l.filter (·.isBack != h.id.isBack)))
/-- Act on a verdict; none where the head has to wait. -/
def State.actOn (s : State) (p : Nat) (lat : Bool) (h : Head) (v : Verdict) : Option State :=
  let gone (s : State) : State := s.updPart p (·.setWaiting lat (·.filter (· ≠ h.id)))
  match v, h with
  | .copy, .fresh g => some (gone (s.startCopy g))
  | .dead, .fresh g => some (gone (s.stillborn g))
  | .room a, h => some (gone (s.placeHead h a))
  | .page ps, .fresh g => some ((s.headWaits p lat h).agentFault p (s.nodeAsid p) ps (kEngRead + kWrite) (startHold g.queue))
  | _, _ => none
/-- Remember that a head waits, where that is new. -/
def State.noteHead (s : State) (p : Nat) (lat : Bool) (h : Head) : Option State :=
  if ((s.part p).waiting lat).contains h.id then none else some (s.headWaits p lat h)
/-- Gangs of bulk teams on the reserved cores of a rectangle. -/
def State.bulkIn (s : State) (x : Want) (a : Nat × Nat) : List Nat :=
  ((rect x.k.gw x.k.gh a.1 a.2).flatMap (fun c => ((s.onCore c).filter (fun t => !s.gridLat t)).map (·.gid))).eraseDups
/-- The retry of R90: the anchor, counting bulk teams on reserved cores as gone. -/
def State.retry (s : State) (p : Nat) (h : Head) : Option (Want × (Nat × Nat)) :=
  (s.wantOf p h false).bind (fun x => (s.search { x with force := true }).map (fun a => (x, a)))
/-- The bulk gangs that must leave for a head, those that have not begun to (R90). -/
def State.evictFor (s : State) (p : Nat) (h : Head) : List Nat :=
  (s.retry p h).elim [] (fun x => (s.bulkIn x.1 x.2).filter (fun g => (s.gang? g).any (·.st == .placed)))
/-- One placement of a partition, after R89, R90 and R117; none where nothing can be done. A latency head that waits for energy holds the bulk
class too. (DESIGN CHOICE: entry 51.) -/
def State.placeStep (s : State) (p : Nat) : Option State :=
  let bulk (spare : Bool) : Option State :=
    match s.head? p false with
    | none => none
    | some h => (s.actOn p false h (s.verdict p false spare h)).or (s.noteHead p false h)
  match s.head? p true with
  | none => bulk false
  | some h =>
    let v := s.verdict p true false h
    match s.actOn p true h v with
    | some s => some s
    | none =>
      if v ≠ .stuck then s.noteHead p true h
      else match s.evictFor p h with
        | [] => (s.noteHead p true h).or (bulk true)
        | gs => some (gs.foldl (fun s g => s.preempt g) (s.headWaits p true h))
/-- GANG_PLACE (R87 to R90, R96, R99, R100, R114 to R121): ready nodes reach their queues, and the first gang or copy in the
order of R89 is placed or started, or makes room for itself, or waits. -/
def execGangPlace (p : Nat) (s : State) : Outcome State Fault Refusal :=
  if !s.working p then .refused (.notEnabled "GANG_PLACE")
  else
    let qs := (List.range 64).filter (s.pullable p)
    let s1 := qs.foldl (fun s n => s.pull p n) s
    match s1.placeStep p with
    | some s2 => .next s2
    | none => if qs = [] then .refused (.notEnabled "GANG_PLACE") else .next s1

/-! ### Leaving the cores (R101, R412, R413) -/

/-- A wave in handler mode takes its frame along (R413). (DEDUCED: entry 44.) -/
def State.saveFrame (s : State) (t : Team) (wv : Wave) : State :=
  if !wv.handler then s
  else match s.readBy (t.via .core) t.part t.asid (s.frameAddr t wv) 0x4800 true .read with
    | .ok bs => s.updWave t.tag wv.ix (fun wv => { wv with saved := bs })
    | .error _ => s
/-- Counters fall to the copies that run on (R136); casts are counted no more. -/
def State.saveCounts (s : State) (t : Team) (wv : Wave) : State :=
  let ev := s.copyEv t.tag wv.ix
  s.updTeam t.tag (fun t => { t.updWave wv.ix (fun wv => { wv with ev := ev }) with pool := t.pool.map (fun (x : Nat × PoolRec) => (x.1, x.2.uncount wv.ix)) })
/-- PREEMPT_SAVED (R412, R413): stage 4, once nothing committed is pending in any wave of the gang. What its cores have written goes to the home
slices, so that its threads see it wherever they go on (R348). (DEDUCED: entry 44.) -/
def execPreemptSaved (gid : Nat) (s : State) : Outcome State Fault Refusal :=
  match s.gang? gid with
  | none => .refused (.notEnabled "PREEMPT_SAVED")
  | some g =>
    let ts := s.teamsOf gid
    if g.st ≠ .leaving || ts.any (fun t => t.waves.any (fun wv => wv.pend ≠ [])) then .refused (.notEnabled "PREEMPT_SAVED")
    else
      let s := ts.foldl (fun s t => t.waves.foldl (fun s wv => (s.saveFrame t wv).saveCounts t wv) s) s
      let s := ts.foldl (fun s t => ((s.trueUp t.tag).release (some t.core) (Scope.rank .dev)).leaveCore t.tag) s
      let s := s.updGang gid (fun g => { g with st := if g.waitPark then .parked else .returning, waitPark := false })
      .next s.unpark.qctlSettle

/-- Can no gang of a class be placed: its head, or a latency head that holds it back, finds no rectangle, whatever is pre-empted, or waits for
energy (R101)? (DEDUCED: entry 51.) -/
def State.classStuck (s : State) (p : Nat) (lat : Bool) : Bool :=
  let top : Option (Verdict × Bool) := (s.head? p true).map (fun h => (s.verdict p true false h, (s.retry p h).isNone))
  let bulk (spare : Bool) : Bool := (s.head? p false).any (fun h => let v := s.verdict p false spare h; v == .stuck || v == .poor)
  match top with
  | none => !lat && bulk false
  | some (.poor, _) => true
  | some (.stuck, gone) => if lat then gone else bulk true
  | some _ => false
/-- A slice waits in WCHILD. -/
def Wave.inWchild (wv : Wave) (sl : Nat) : Bool :=
  wv.waits.any (fun x => x.1 == sl && (match x.2 with | .wchild _ _ _ => true | _ => false))
/-- May a gang be parked (R101)? -/
def State.mayPark (s : State) (g : Gang) : Bool :=
  let ts := s.teamsOf g.gid
  g.st == .placed && ts ≠ []
    && ts.all (fun t => t.waves.all (fun wv => wv.trapQ.isNone &&
        (List.range 8).all (fun sl => (wv.slicePc sl).isNone || wv.inWchild sl)))
    && ts.any (fun t => s.grids.any (fun c => c.parent == some t.tag && !c.fin
        && ((s.part t.part).childQ.contains c.id || s.gangs.any (fun x => x.grid == c.id && x.st == .returning)) && s.classStuck t.part c.lat))
/-- PARK (R101): the gang leaves its cores. -/
def execPark (gid : Nat) (s : State) : Outcome State Fault Refusal :=
  match s.gang? gid with
  | none => .refused (.notEnabled "PARK")
  | some g =>
    if !s.mayPark g then .refused (.notEnabled "PARK")
    else .next ((s.updGang gid (fun g => { g with waitPark := true })).preempt gid)

/-! ### Retirement (R149, R424) -/

/-- Has a team ended: every thread has exited, every run has committed, no operation is pending, no engine at work for it, but one on a scene
that has no end, which keeps no team from retiring (R3)? (DEDUCED: entry 41.) -/
def Team.ended (t : Team) : Bool :=
  !t.retired && t.pool.all (fun x => x.2.st ≠ .busy || x.2.endless) && t.waves.all (fun wv => wv.thr.all (·.exited) && wv.regions == [] && wv.pend == [] && wv.trapQ.isNone && wv.bundle.isNone)
/-- Empty the launders that a position receives from. -/
def Gang.dropReceived (g : Gang) (pos : Nat) : Gang :=
  { g with launders := g.launders.zipIdx.map (fun (x : Launder × Nat) =>
      if (g.kobj.launders[x.2]?).any (fun l => g.kobj.posOf l.dst == some pos) then { x.1 with free := 0, slots := [] } else x.1) }
/-- TEAM_RETIRE (R424). -/
def execTeamRetire (tag : Nat) (s : State) : Outcome State Fault Refusal :=
  match s.team? tag with
  | none => .refused (.notEnabled "TEAM_RETIRE")
  | some t =>
    if !s.placed t || !t.ended then .refused (.notEnabled "TEAM_RETIRE")
    else
      let s := s.abandon (fun h => h.1 == tag)
      let s := ((s.updGang t.gid (·.dropReceived t.pos)).trueUp tag).freeTeam tag
      let s := if s.teamsOf t.gid = [] then
          (s.updGang t.gid (fun g => { g with st := .ended, launders := [], nbars := [] })).afterEnd
        else s.barsGang t.gid
      .next s.qctlSettle

/-! ### Uncorrectable errors of a core (R414, R415) -/

/-- What a byte of the core SRAM of a position belongs to (R118): scratch, a pool record, a slot of a launder, an entry of an operand queue, or
nothing. -/
inductive SramUnit where
  | scratch (a : Nat)
  | pool (n : Nat)
  | launder (n slot a : Nat)
  | queue (n entry a : Nat)
  | pad
  deriving DecidableEq, Repr
/-- Find an offset among areas of unit number, unit size and unit count, laid one after another: area, unit and offset. -/
def findUnit : List (Nat × Nat × Nat) → Nat → Except Nat (Nat × Nat × Nat)
  | [], a => .error a
  | (n, size, count) :: r, a => if a < size * count then .ok (n, a / size, a % size) else findUnit r (a - size * count)
/-- The layout of a position's core SRAM (R118): scratch, the beam pool, launder slots in increasing launder number, operand queues in
increasing queue number. -/
def KObj.sramAt (k : KObj) (pos a : Nat) : SramUnit :=
  if a < k.scrLen then .scratch a
  else if a - k.scrLen < k.pool * 256 then .pool ((a - k.scrLen) / 256)
  else
    let a := a - k.scrLen - k.pool * 256
    match findUnit ((k.launders.zipIdx.filter (fun x => k.posOf x.1.dst == some pos)).map (fun x => (x.2, x.1.size, x.1.slots))) a with
    | .ok x => .launder x.1 x.2.1 x.2.2
    | .error a =>
      match findUnit (((List.range 8).filter (k.qmask.getLsbD ·)).map (fun n => (n, 128, k.qdepth))) a with
      | .ok x => .queue x.1 x.2.1 x.2.2
      | .error _ => .pad
/-- The team that owns a word, none for storage without an owner. -/
def CoreLoc.owner : CoreLoc → Option Nat
  | .vreg tag _ _ _ => some tag
  | .sreg tag _ _ => some tag
  | .sram tag _ => some tag
  | .regionBuf tag _ => some tag
  | .bank tag _ _ => some tag
  | _ => none
/-- Is a line of a core's the one that holds a dirty word at an address? -/
def Line.dirtyIn (l : Line) (core asid va : Nat) : Bool :=
  l.inCore core && !l.byPa && l.asid == asid && l.va == va / 256 * 256 && (wordBytes (va % 256 / 4)).any (l.dirty.getLsbD ·)
/-- Does the word lie on the core? -/
def State.locOn (s : State) (core : Nat) (x : Sys2Proof.CoreLoc) : Bool :=
  let on (tag : Nat) (f : Team → Bool) : Bool := (s.team? tag).any (fun t => t.core == core && s.resident t && f t)
  match x with
  | .noState => core < 256
  | .corrected => core < 256
  | .vreg tag w r l => r < 128 && l < 32 && on tag (fun t => (t.wave? w).isSome)
  | .sreg tag w r => r < 64 && on tag (fun t => (t.wave? w).isSome)
  | .sram tag a => on tag (fun t => a < t.sramLen)
  | .regionBuf tag w => on tag (fun t => (t.wave? w).any (·.regions ≠ []))
  | .bank tag w i => i < 1024 && on tag (fun t => (t.wave? w).isSome)
  | .dirtyL1 asid va => core < 256 && s.lines.any (·.dirtyIn core asid va)
/-- Mark a word of a team's core SRAM as poisoned, in what it belongs to; one that holds nothing is written before it is read. (DESIGN CHOICE: entry 53.) -/
def State.poisonSram (s : State) (t : Team) (k : KObj) (a : Nat) : State :=
  match k.sramAt t.pos a with
  | .scratch a => s.updTeam t.tag (fun t => { t with scrPoison := sput t.scrPoison (a / 4) 0x15 })
  | .pool n => s.updTeam t.tag (fun t => { t with pool := t.pool.map (fun x => if x.1 = n ∧ x.2.st ≠ .free then (x.1, { x.2 with bad := true }) else x) })
  | .launder n slot a => s.updGang t.gid (fun g => { g with launders := g.launders.modify n (fun ld =>
      { ld with slots := ld.slots.map (fun x => if x.seq.toNat % (ld.free + ld.slots.length) = slot then { x with bad := x.bad ++ [(a / 4, 0x15)] } else x) }) })
  | .queue n i a => s.updTeam t.tag (fun t => { t with aq := { t.aq with q := t.aq.q.modify n (fun q =>
      q.modify i (fun e => { e with bad := e.bad ||| laneBit (a / 4 % 32) })) } })
  | .pad => s
/-- Mark the word as poisoned. (DESIGN CHOICE: entry 53.) -/
def State.poisonLoc (s : State) (core : Nat) (x : Sys2Proof.CoreLoc) : State :=
  match x with
  | .noState => s
  | .corrected => s
  | .vreg tag w r l => s.updTeam tag (fun t => { t with regPoison := t.regPoison ++ [(w, .v r, l)] })
  | .sreg tag w r => s.updTeam tag (fun t => { t with regPoison := t.regPoison ++ [(w, .s r, 0)] })
  | .sram tag a => (match s.team? tag with
    | some t => (s.gang? t.gid).elim s (fun g => s.poisonSram t g.kobj a)
    | none => s)
  | .regionBuf _ _ => s
  | .bank tag w i => s.updWave tag w (fun wv => { wv with accBad := insertAsc wv.accBad i })
  | .dirtyL1 asid va => { s with lines := s.lines.map (fun l =>
      if l.dirtyIn core asid va then { l with bad := l.bad ||| (1#64 <<< (va % 256 / 4)) } else l) }
/-- Was nothing open or pending in the gang (R415)? -/
def State.quietGang (s : State) (gid : Nat) : Bool :=
  (s.teamsOf gid).all (fun t => s.copies.all (fun c => c.tag ≠ some t.tag) && t.pool.all (fun x => x.2.st ≠ .busy) && t.waves.all (fun wv => wv.regions == [] && wv.pend.all (fun q => !isEngineOp q.instr)))
/-- Record of kind 2 (Table 17.10). -/
def State.coreRecord (s : State) (t : Team) (requeued : Bool) : State :=
  s.postError t.part { kind := 2, cause := 0x15, flg := if requeued then 1 else 0, tag := t.tag, core := t.core, asid := t.asid
                       qseq := (s.gridOf t.tag).elim 0 (·.lrec.seq.toNat) }
/-- The record of a word that no team owns, to each partition that holds the core's quarter. (DEDUCED: entry 53.) -/
def State.coreRecordNone (s : State) (core : Nat) : State :=
  ((List.range 4).filter (fun p => bit (s.part p).pqmask.toNat (quarterOf core))).foldl (fun s p =>
    s.postError p { kind := 2, cause := 0x15, core := core }) s
/-- Every other gang with a team on the core is pre-empted. -/
def State.clearCore (s : State) (core : Nat) (but : Option Nat) : State :=
  (((s.onCore core).map (·.gid)).eraseDups.filter (fun g => some g ≠ but)).foldl (fun s g => s.preempt g) s
/-- The traps that wait in the waves of a gang are discarded (R402). -/
def State.dropTraps (s : State) (gid : Nat) : State :=
  { s with teams := s.teams.map (fun t => if t.gid = gid then { t with waves := t.waves.map (fun wv => { wv with trapQ := none }) } else t) }
/-- CORE_UNCORRECTABLE_ERROR (R402, R414, R415). -/
def execCoreUncorrectableError (core : Nat) (at_ : Sys2Proof.CoreLoc) (s : State) : Outcome State Fault Refusal :=
  if !s.locOn core at_ then .refused (.notEnabled "CORE_UNCORRECTABLE_ERROR")
  else match at_ with
    | .noState => .next { s with crc := s.crc + 1 }
    | .corrected => .next { s with coreEcc := s.coreEcc + 1 }
    | _ =>
      let s := { s.poisonLoc core at_ with failed := insertAsc s.failed core }
      match (Sys2Proof.Machine.CoreLoc.owner at_).bind s.team? with
      | none => .next ((s.clearCore core none).coreRecordNone core)
      | some t =>
        let q := s.quietGang t.gid
        let s := (s.clearCore core (some t.gid)).coreRecord t q
        .next (if q then (s.dropTraps t.gid).preempt t.gid else s.teardown t.gid t.tag 0x15 0 0)

end Sys2Proof.Machine
end

