-- ==== Sys2Proof/Machine/Run.lean ====
section
/-! DEFINITION. Sys2Proof/Machine/Run.lean: what a step does around an instruction or an event: the passing of a cycle, the word
that a wave issues next, a word that is no instruction, which wave a pipe may choose (R130), what the device does by itself after every
step, and what may happen next when nothing outside fixes it. -/
namespace Sys2Proof.Machine
open Host (Outcome)

/-- A constructor that is an event, and not an instruction of a wave. -/
def isEvent (i : Instr) : Bool := i.hdr?.isNone

/-- One cycle passes; a partition that is all-blocked keeps the cycle since which it is (R394). (DESIGN CHOICE: entry 2.) -/
def State.tick (s : State) : State :=
  let c := s.cycle + 1
  let s := { s with cycle := c, free := s.free + 1 }
  { s with parts := s.parts.zipIdx.map (fun (x : Part × Nat) =>
      let b := s.allBlocked x.2
      { x.1 with blockedAt := if b then some (x.1.blockedAt.getD c) else none, snapped := x.1.snapped && b }) }

/-- The word that a wave issues next: the next of the clause that its bundle is in (R127). -/
def State.nextWord (s : State) (tag w : Nat) : Option DWord :=
  match (s.wave? tag w).bind (·.bundle) with
  | some b => b.words[b.ix]?
  | none => none
/-- A word that is no instruction raises the illegal-instruction trap at its issue (Table 3.7, R71, R72), as soon as the wave
may issue. -/
def State.badWord (s : State) (tag w : Nat) (x : DWord) : State :=
  match { s with cur := some (tag, w) }.ctx? (.nop (Fields.ofWord x).h) with
  | none => s
  | some c => if c.gg.st ≠ .placed || s.cycle < c.wv.ready || c.wv.blocked then s else s.stop c (.trap 0x01 0)

/-- What the device does by itself after every step: the controllers report errors and count fills (R218, R370, R416), barriers complete
(R373), keys that need no entry go and waiting lanes compare (R382, R385), an MFENCE whose wait has ended acquires (R295), and a quiesce that
leaves no team placed completes (R423). -/
def State.wrapUp (s : State) : State :=
  let s := (s.flushDue.barriersAll.dropKeys).recheckAll.fenceAcquire.qctlSettle
  { s with linkErr := s.linkErr.filter (s.cycle < ·.at_) }
def wrap : Outcome State Fault Refusal → Outcome State Fault Refusal
  | .next s => .next s.wrapUp
  | o => o

/-! ### Which wave a pipe chooses (R130) -/

/-- A wave about to issue, as an instruction finds it. -/
def State.at_ (s : State) (tag w : Nat) : State := { s with cur := some (tag, w) }
/-- Can the next word of a wave part-way through a clause issue: does it do anything but wait? `go` is what an instruction does. -/
def State.wordMoves (go : Instr → State → Outcome State Fault Refusal) (s : State) (tag w : Nat) : Bool :=
  match s.nextWord tag w with
  | none => false
  | some x =>
    match decode x with
    | .ok i => (match go i (s.at_ tag w) with | .next s' => s' ≠ s.at_ tag w | _ => false)
    | .error _ => s.badWord tag w x ≠ s
/-- Is a wave ready? (DEDUCED: entry 59.) -/
def State.waveReady (go : Instr → State → Outcome State Fault Refusal) (s : State) (x : Team × Wave) : Bool :=
  s.placed x.1 && !x.1.retired && x.2.ready ≤ s.cycle && !x.2.blocked &&
    (if x.2.bundle.isNone then s.atBoundary x.1 x.2 && s.readySlices x.1 x.2 ≠ [] else s.wordMoves go x.1.tag x.2.ix)
/-- Does a pipe choose wave `x` before wave `y`, both ready: the latency class first, then the older team, the lower tag, the lower wave index;
a wave marked by YIELD after the others of its class. (DEDUCED: entry 59.) -/
def State.before (s : State) (x y : Team × Wave) : Bool :=
  let key (z : Team × Wave) : List Nat :=
    [if s.gridLat z.1 then 0 else 1, if z.2.young then 1 else 0, (s.gang? z.1.gid).elim 0 (·.placedAt), z.1.tag, z.2.ix]
  decide (key x < key y)
/-- The other waves of the pipe of a wave. -/
def State.rivals (s : State) (t : Team) (wv : Wave) : List (Team × Wave) :=
  ((s.onCore t.core).flatMap (fun u => u.waves.map (fun x => (u, x)))).filter (fun x => x.2.pipe == wv.pipe && !(x.1.tag == t.tag && x.2.ix == wv.ix))
/-- May the pipe of a wave choose it: no ready wave of the pipe comes before it? -/
def State.maySelect (go : Instr → State → Outcome State Fault Refusal) (s : State) (tag w : Nat) : Bool :=
  match s.team? tag, s.wave? tag w with
  | some t, some wv => (s.rivals t wv).all (fun x => !(s.before x (t, wv) && s.waveReady go x))
  | _, _ => true

/-- Events that a pending operation can end with. -/
def pendEvents (tag w id : Nat) : List Instr :=
  [.sfuResult tag w id, .loadComplete tag w id, .qstComplete tag w id, .mloadbComplete tag w id, .mmaComplete tag w id
  , .hadComplete tag w id, .regionEndingResult tag w id, .texComplete tag w id, .bvhsetComplete tag w id
  , .shbindComplete tag w id, .tnextComplete tag w id 0, .mresComplete tag w id, .rinvComplete tag w id, .pqmaskWrite tag w id
  , .pwaysWrite tag w id, .nbndWrite tag w id, .prsvWrite tag w id, .asidvWrite tag w id, .pcapWrite tag w id
  , .fmodeWrite tag w id, .fflagsWrite tag w id, .energyWrite tag w id, .registerWrite (.csr tag w id) 0]
/-- What a wave can do next. -/
def Wave.picks (wv : Wave) (tag : Nat) : List Pick :=
  [.issue tag wv.ix, .event (.clauseEntry tag wv.ix), .event (.sluiceTimeout tag wv.ix)]
    ++ (List.range 8).map (fun sl => .event (.regionCommit tag wv.ix sl))
    ++ (wv.pend.flatMap (fun q => pendEvents tag wv.ix q.id)).map .event
    ++ wv.waits.filterMap (fun x => match x.2 with | .wchild i _ _ => some (.event (.regionEndingResult tag wv.ix i)) | _ => none)
/-- What a team and its engines can do next. -/
def Team.picks (t : Team) : List Pick :=
  t.waves.flatMap (·.picks t.tag) ++ [.event (.streamPush t.tag), .event (.teamRetire t.tag)]
    ++ (t.pool.filter (fun x => x.2.st == .busy)).map (fun x =>
        .event (if x.2.isRay then .raysSettled t.tag x.2.cast else .beamTreeSettled t.tag x.1))
/-- Fault slots that software has set to RESOLVED in memory, and whether a fault without a record may enter again (R217). -/
def State.faultPicks (s : State) (p : Nat) : List Pick :=
  let hs := s.holdsOf p
  let x := (s.part p).fqSlot (s.part p).fqNext
  ((hs.filterMap (·.slot)).eraseDups.filter (fun x => match s.readSlot p x with | .ok r => slotState r == 3 | .error _ => false)).map
      (fun x => .event (.faultResolved p x))
    ++ (if hs.any (·.slot.isNone) && cfgEn (s.part p).fqcfg
          && (match s.readSlot p x with | .ok r => slotState r == 0 | .error _ => false) then [.event (.faultRecordFreed p x)] else [])
/-- What a partition's agents can do next. -/
def State.partPicks (s : State) (p : Nat) : List Pick :=
  [.event (.gangPlace p), .event (.nodeComplete p), .event (.sluiceDeadlock p), .event (.faultSlotRetry p)]
    ++ (List.range 64).map (fun q => .event (.recordTake p q)) ++ s.faultPicks p
/-- Everything that the device can do next without anything from outside, in a fixed order. -/
def State.picks (s : State) : List Pick :=
  s.teams.flatMap (·.picks) ++ s.gangs.flatMap (fun g => [.event (.preemptSaved g.gid), .event (.park g.gid)])
    ++ (s.copies.map (fun c => .event (.copyComplete c.id))) ++ (if s.misses = [] then [] else [.event (.sectorFill (some 0) 0 .none)])
    ++ (s.spill.map (·.slice)).eraseDups.map (fun i => .event (.spillRefetch i)) ++ (List.range 4).flatMap s.partPicks
    ++ [.event .energyRefill]
/-- The order in which they are tried: another one first at every cycle. (DESIGN CHOICE: entry 3.) -/
def State.picksNow (s : State) : List Pick := s.picks.rotateLeft (s.cycle % (s.picks.length + 1))

/-! ### A wave about to issue a given word -/

/-- A kernel that declares everything. -/
def KObj.full : KObj :=
  { addr := 0, entry := 0, waves := 1, gw := 1, gh := 1, vregs := 128, sregs := 64, roles := [(0, 0)]
    launders := List.replicate 16 { src := 0, dst := 0, slots := 1, size := 16 }
    aloops := 1, trips := [1, 0, 0, 0], scratchK := 64, pool := 64, qdepth := 1, qmask := 0xFF
    streams := List.replicate 8 { sbase := 0, esz := 4, lstride := 0, stride := [0, 0, 0, 0] } }
/-- A device in which wave 0 of team 1 stands in a clause whose only word is `x`, in system mode, with an open run in every
slice. (DESIGN CHOICE: entry 10.) -/
def State.atWord (s : State) (x : DWord) : State :=
  let k := KObj.full
  let wv := Wave.first 0 0 0 0 0
  let wv := { wv with
    regions := (List.range 8).map (fun sl => wv.newRun (sl + 1) sl 0)
    bundle := some { h := 0, words := [x], ix := 0, chk := true, rb := true, mask := BitVec.allOnes 32 } }
  let t : Team :=
    { tag := 1, gid := 9, pos := 0, core := 0, part := 0, asid := 0, sys := true, pcap := 0x80000000000000F0#64
      waves := [wv], scratch := [], scrPoison := [], regPoison := [], pool := [], bars := List.replicate 16 Bar.reset
      aq := { run := false, it := 0, ns := 0, base := [], q := List.replicate 8 [] }
      meter := 0, base := 0, sramLo := 0, sramLen := k.need 0, torn := 0, retired := false }
  let g : Gang :=
    { gid := 9, grid := 10, x := 0, y := 0, z := 0, kobj := k, binds := k.bindAt (0, 0)
      launders := k.launders.map (fun l => { free := l.slots, fseq := 0, slots := [] }), nbars := List.replicate 16 Bar.reset
      st := .placed, order := 9, placedAt := 0, waitPark := false }
  let r : LRec := { obj := 0, args := 0, gx := 1, gy := 1, gz := 1, ctl := 0, est := 0, node := 0xFFFFFFFF, succ := 0, seq := 0, rsvd := 0 }
  let gr : Grid := { r.grid 10 0 0 0 1 none 0 with next := 1, kobj := some k }
  { s with teams := [t], gangs := [g], grids := [gr], nextId := 11, nextTag := 2, sched := [.issue 1 0] }

end Sys2Proof.Machine
end

