-- ==== Sys2Proof/Machine/Dispatch.lean ====
section
/-! DEFINITION. Sys2Proof/Machine/Dispatch.lean: one arm per constructor of Instr, each a direct call of its meaning. -/
namespace Sys2Proof.Machine

def exec (i : Instr) (s : State) : Host.Outcome State Fault Refusal :=
  match i with
  | .nop h => Sys2Proof.Machine.execNop h s
  | .bra h off => Sys2Proof.Machine.execBra h off s
  | .brx h a => Sys2Proof.Machine.execBrx h a s
  | .call h d off => Sys2Proof.Machine.execCall h d off s
  | .ret h a => Sys2Proof.Machine.execRet h a s
  | .join h => Sys2Proof.Machine.execJoin h s
  | .loop h d off => Sys2Proof.Machine.execLoop h d off s
  | .lexit h off => Sys2Proof.Machine.execLexit h off s
  | .exit h => Sys2Proof.Machine.execExit h s
  | .yield h => Sys2Proof.Machine.execYield h s
  | .wait h k mask => Sys2Proof.Machine.execWait h k mask s
  | .iadd h d a b sat => Sys2Proof.Machine.execIadd h d a b sat s
  | .isub h d a b sat => Sys2Proof.Machine.execIsub h d a b sat s
  | .imul h d a b => Sys2Proof.Machine.execImul h d a b s
  | .imulh h d a b sg => Sys2Proof.Machine.execImulh h d a b sg s
  | .imad h d a b c => Sys2Proof.Machine.execImad h d a b c s
  | .imin h d a b sg => Sys2Proof.Machine.execImin h d a b sg s
  | .imax h d a b sg => Sys2Proof.Machine.execImax h d a b sg s
  | .iabs h d a sat => Sys2Proof.Machine.execIabs h d a sat s
  | .icmp h d a b sg cc => Sys2Proof.Machine.execIcmp h d a b sg cc s
  | .and h d a b => Sys2Proof.Machine.execAnd h d a b s
  | .or h d a b => Sys2Proof.Machine.execOr h d a b s
  | .xor h d a b => Sys2Proof.Machine.execXor h d a b s
  | .andn h d a b => Sys2Proof.Machine.execAndn h d a b s
  | .shl h d a b => Sys2Proof.Machine.execShl h d a b s
  | .shr h d a b => Sys2Proof.Machine.execShr h d a b s
  | .sar h d a b => Sys2Proof.Machine.execSar h d a b s
  | .rot h d a b right => Sys2Proof.Machine.execRot h d a b right s
  | .popc h d a => Sys2Proof.Machine.execPopc h d a s
  | .clz h d a => Sys2Proof.Machine.execClz h d a s
  | .brev h d a => Sys2Proof.Machine.execBrev h d a s
  | .bfe h d a b c sg => Sys2Proof.Machine.execBfe h d a b c sg s
  | .bfi h d a b c => Sys2Proof.Machine.execBfi h d a b c s
  | .lea h d a b k w sg => Sys2Proof.Machine.execLea h d a b k w sg s
  | .iaddw h d a b wb => Sys2Proof.Machine.execIaddw h d a b wb s
  | .iaddc h d a b c sub => Sys2Proof.Machine.execIaddc h d a b c sub s
  | .sad h d a b c sg => Sys2Proof.Machine.execSad h d a b c sg s
  | .bsel h d a b c => Sys2Proof.Machine.execBsel h d a b c s
  | .idot4 h d a b c sa sb sat => Sys2Proof.Machine.execIdot4 h d a b c sa sb sat s
  | .fadd h d a b rm => Sys2Proof.Machine.execFadd h d a b rm s
  | .fsub h d a b rm => Sys2Proof.Machine.execFsub h d a b rm s
  | .fmul h d a b rm => Sys2Proof.Machine.execFmul h d a b rm s
  | .ffma h d a b c rm => Sys2Proof.Machine.execFfma h d a b c rm s
  | .fmin h d a b => Sys2Proof.Machine.execFmin h d a b s
  | .fmax h d a b => Sys2Proof.Machine.execFmax h d a b s
  | .fcmp h d a b cc => Sys2Proof.Machine.execFcmp h d a b cc s
  | .frnd h d a rm x => Sys2Proof.Machine.execFrnd h d a rm x s
  | .fclass h d a => Sys2Proof.Machine.execFclass h d a s
  | .fscale h d a b rm => Sys2Proof.Machine.execFscale h d a b rm s
  | .twosum h d a b => Sys2Proof.Machine.execTwosum h d a b s
  | .twoprod h d a b => Sys2Proof.Machine.execTwoprod h d a b s
  | .faddp h d a b one => Sys2Proof.Machine.execFaddp h d a b one s
  | .pkadd h d a b rm b0 => Sys2Proof.Machine.execPkadd h d a b rm b0 s
  | .pkmul h d a b rm b0 => Sys2Proof.Machine.execPkmul h d a b rm b0 s
  | .pkfma h d a b c rm b0 => Sys2Proof.Machine.execPkfma h d a b c rm b0 s
  | .pkfmab h d a b c rm b0 => Sys2Proof.Machine.execPkfmab h d a b c rm b0 s
  | .rcp h d a rm => Sys2Proof.Machine.execRcp h d a rm s
  | .rsq h d a => Sys2Proof.Machine.execRsq h d a s
  | .sqrt h d a rm => Sys2Proof.Machine.execSqrt h d a rm s
  | .exp2 h d a => Sys2Proof.Machine.execExp2 h d a s
  | .log2 h d a => Sys2Proof.Machine.execLog2 h d a s
  | .sin h d a => Sys2Proof.Machine.execSin h d a s
  | .cos h d a => Sys2Proof.Machine.execCos h d a s
  | .tanh h d a => Sys2Proof.Machine.execTanh h d a s
  | .cvtif h d a rm ty => Sys2Proof.Machine.execCvtif h d a rm ty s
  | .cvtfi h d a rm ty => Sys2Proof.Machine.execCvtfi h d a rm ty s
  | .cvtff h d a rm toF16 => Sys2Proof.Machine.execCvtff h d a rm toF16 s
  | .packh h d a b rm bf => Sys2Proof.Machine.execPackh h d a b rm bf s
  | .unpkh h d a bf hi => Sys2Proof.Machine.execUnpkh h d a bf hi s
  | .decn h d a b f scl esc => Sys2Proof.Machine.execDecn h d a b f scl esc s
  | .mov h d a w => Sys2Proof.Machine.execMov h d a w s
  | .movi h d imm => Sys2Proof.Machine.execMovi h d imm s
  | .moviS h d imm => Sys2Proof.Machine.execMoviS h d imm s
  | .moviHi h d imm => Sys2Proof.Machine.execMoviHi h d imm s
  | .sel h d a b c w => Sys2Proof.Machine.execSel h d a b c w s
  | .pand h d a b na nb => Sys2Proof.Machine.execPand h d a b na nb s
  | .por h d a b na nb => Sys2Proof.Machine.execPor h d a b na nb s
  | .pxor h d a b na nb => Sys2Proof.Machine.execPxor h d a b na nb s
  | .pmov h d a => Sys2Proof.Machine.execPmov h d a s
  | .pmovNot h d a => Sys2Proof.Machine.execPmovNot h d a s
  | .pmovVal h d a => Sys2Proof.Machine.execPmovVal h d a s
  | .pmovNz h d a => Sys2Proof.Machine.execPmovNz h d a s
  | .pset h d a n1 => Sys2Proof.Machine.execPset h d a n1 s
  | .psetPack h d a n1 => Sys2Proof.Machine.execPsetPack h d a n1 s
  | .smov h d a b first => Sys2Proof.Machine.execSmov h d a b first s
  | .lxch h d a b c mode grp => Sys2Proof.Machine.execLxch h d a b c mode grp s
  | .agree h d a kd neg => Sys2Proof.Machine.execAgree h d a kd neg s
  | .ballot h d a cnt neg => Sys2Proof.Machine.execBallot h d a cnt neg s
  | .wred h d a rm op ty => Sys2Proof.Machine.execWred h d a rm op ty s
  | .wscan h d a rm op ty excl => Sys2Proof.Machine.execWscan h d a rm op ty excl s
  | .rebal h d a b => Sys2Proof.Machine.execRebal h d a b s
  | .csamp h d a b => Sys2Proof.Machine.execCsamp h d a b s
  | .rand h d a b f01 => Sys2Proof.Machine.execRand h d a b f01 s
  | .ld h d a b ty pol sc od => Sys2Proof.Machine.execLd h d a b ty pol sc od s
  | .st h d a b sf ty pol sc od => Sys2Proof.Machine.execSt h d a b sf ty pol sc od s
  | .lds h d a b ty pol sc od => Sys2Proof.Machine.execLds h d a b ty pol sc od s
  | .sts h d a b sf ty pol sc od => Sys2Proof.Machine.execSts h d a b sf ty pol sc od s
  | .ldw h d a b ty pol sc od => Sys2Proof.Machine.execLdw h d a b ty pol sc od s
  | .stw h d a b ty pol sc od => Sys2Proof.Machine.execStw h d a b ty pol sc od s
  | .ldn h d a b ty pol sc od => Sys2Proof.Machine.execLdn h d a b ty pol sc od s
  | .qst h d a b c f mode ev => Sys2Proof.Machine.execQst h d a b c f mode ev s
  | .pref h a b pol => Sys2Proof.Machine.execPref h a b pol s
  | .shbind h d a b ev => Sys2Proof.Machine.execShbind h d a b ev s
  | .shfree h d a ev => Sys2Proof.Machine.execShfree h d a ev s
  | .cpy h a ev => Sys2Proof.Machine.execCpy h a ev s
  | .aqstart h d ev => Sys2Proof.Machine.execAqstart h d ev s
  | .aqstop h d ev => Sys2Proof.Machine.execAqstop h d ev s
  | .aqstopQry h d a ev => Sys2Proof.Machine.execAqstopQry h d a ev s
  | .ldc h d a b ty => Sys2Proof.Machine.execLdc h d a b ty s
  | .atom h d a b op ty sc od => Sys2Proof.Machine.execAtom h d a b op ty sc od s
  | .acas h d a b ty sc od => Sys2Proof.Machine.execAcas h d a b ty sc od s
  | .red h a b op ty sc od => Sys2Proof.Machine.execRed h a b op ty sc od s
  | .fence h sc od => Sys2Proof.Machine.execFence h sc od s
  | .bar h a => Sys2Proof.Machine.execBar h a s
  | .nbar h a => Sys2Proof.Machine.execNbar h a s
  | .slin h d a b => Sys2Proof.Machine.execSlin h d a b s
  | .slout h d a => Sys2Proof.Machine.execSlout h d a s
  | .sloutLast h d a => Sys2Proof.Machine.execSloutLast h d a s
  | .slqry h d a => Sys2Proof.Machine.execSlqry h d a s
  | .slrst h d a b => Sys2Proof.Machine.execSlrst h d a b s
  | .slrstDel h d a => Sys2Proof.Machine.execSlrstDel h d a s
  | .send h d a n => Sys2Proof.Machine.execSend h d a n s
  | .recv h d a n => Sys2Proof.Machine.execRecv h d a n s
  | .mloadb h a b f scr ev => Sys2Proof.Machine.execMloadb h a b f scr ev s
  | .mma h a b nkm bank ev => Sys2Proof.Machine.execMma h a b nkm bank ev s
  | .mres h d g bank ev => Sys2Proof.Machine.execMres h d g bank ev s
  | .mfence h sc => Sys2Proof.Machine.execMfence h sc s
  | .mwait h => Sys2Proof.Machine.execMwait h s
  | .had h a b c p ty ev => Sys2Proof.Machine.execHad h a b c p ty ev s
  | .twalk h d a b n ev => Sys2Proof.Machine.execTwalk h d a b n ev s
  | .tnext h d ev => Sys2Proof.Machine.execTnext h d ev s
  | .mzero h bank bd => Sys2Proof.Machine.execMzero h bank bd s
  | .beam h d a ev => Sys2Proof.Machine.execBeam h d a ev s
  | .bfrag h d a ev => Sys2Proof.Machine.execBfrag h d a ev s
  | .bdone h a => Sys2Proof.Machine.execBdone h a s
  | .rays h d a b first sh ev => Sys2Proof.Machine.execRays h d a b first sh ev s
  | .hitget h d a ev => Sys2Proof.Machine.execHitget h d a ev s
  | .hitgetCand h d a ev => Sys2Proof.Machine.execHitgetCand h d a ev s
  | .hitacc h a b c => Sys2Proof.Machine.execHitacc h a b c s
  | .tex h d a b c nr ev => Sys2Proof.Machine.execTex h d a b c nr ev s
  | .texq h d a b c ev => Sys2Proof.Machine.execTexq h d a b c ev s
  | .bvhset h d a ev => Sys2Proof.Machine.execBvhset h d a ev s
  | .launch h d a => Sys2Proof.Machine.execLaunch h d a s
  | .wchild h d => Sys2Proof.Machine.execWchild h d s
  | .gsig h d a => Sys2Proof.Machine.execGsig h d a s
  | .enrd h d => Sys2Proof.Machine.execEnrd h d s
  | .enrdBal h d => Sys2Proof.Machine.execEnrdBal h d s
  | .role h d a => Sys2Proof.Machine.execRole h d a s
  | .roleId h d a => Sys2Proof.Machine.execRoleId h d a s
  | .rolePos h d a => Sys2Proof.Machine.execRolePos h d a s
  | .roleCnt h d => Sys2Proof.Machine.execRoleCnt h d s
  | .trap h imm => Sys2Proof.Machine.execTrap h imm s
  | .rte h => Sys2Proof.Machine.execRte h s
  | .csrr h d reg => Sys2Proof.Machine.execCsrr h d reg s
  | .csrw h d reg => Sys2Proof.Machine.execCsrw h d reg s
  | .csrwSet h d reg => Sys2Proof.Machine.execCsrwSet h d reg s
  | .csrwClr h d reg => Sys2Proof.Machine.execCsrwClr h d reg s
  | .rinv h d a ev => Sys2Proof.Machine.execRinv h d a ev s
  | .rinvRange h d a b c ev => Sys2Proof.Machine.execRinvRange h d a b c ev s
  | .qctlQ h d a ev => Sys2Proof.Machine.execQctlQ h d a ev s
  | .qctlR h d a ev => Sys2Proof.Machine.execQctlR h d a ev s
  | .qctlQry h d a ev => Sys2Proof.Machine.execQctlQry h d a ev s
  | .sfuResult tag w id => Sys2Proof.Machine.execSfuResult tag w id s
  | .loadComplete tag w id => Sys2Proof.Machine.execLoadComplete tag w id s
  | .copyComplete id => Sys2Proof.Machine.execCopyComplete id s
  | .streamPush tag => Sys2Proof.Machine.execStreamPush tag s
  | .qstComplete tag w id => Sys2Proof.Machine.execQstComplete tag w id s
  | .sluiceTimeout tag w => Sys2Proof.Machine.execSluiceTimeout tag w s
  | .sluiceDeadlock p => Sys2Proof.Machine.execSluiceDeadlock p s
  | .mloadbComplete tag w id => Sys2Proof.Machine.execMloadbComplete tag w id s
  | .mmaComplete tag w id => Sys2Proof.Machine.execMmaComplete tag w id s
  | .hadComplete tag w id => Sys2Proof.Machine.execHadComplete tag w id s
  | .beamTreeSettled tag rec => Sys2Proof.Machine.execBeamTreeSettled tag rec s
  | .raysSettled tag cast => Sys2Proof.Machine.execRaysSettled tag cast s
  | .clauseEntry tag w => Sys2Proof.Machine.execClauseEntry tag w s
  | .regionCommit tag w sl => Sys2Proof.Machine.execRegionCommit tag w sl s
  | .sectorFill ix pa err => Sys2Proof.Machine.execSectorFill ix pa err s
  | .spillRefetch slice => Sys2Proof.Machine.execSpillRefetch slice s
  | .faultResolved p slot => Sys2Proof.Machine.execFaultResolved p slot s
  | .faultSlotRetry p => Sys2Proof.Machine.execFaultSlotRetry p s
  | .recordTake p q => Sys2Proof.Machine.execRecordTake p q s
  | .nodeComplete p => Sys2Proof.Machine.execNodeComplete p s
  | .gangPlace p => Sys2Proof.Machine.execGangPlace p s
  | .preemptSaved gid => Sys2Proof.Machine.execPreemptSaved gid s
  | .park gid => Sys2Proof.Machine.execPark gid s
  | .teamRetire tag => Sys2Proof.Machine.execTeamRetire tag s
  | .energyRefill => Sys2Proof.Machine.execEnergyRefill s
  | .coreUncorrectableError core at_ => Sys2Proof.Machine.execCoreUncorrectableError core at_ s
  | .schedulerCoreError q => Sys2Proof.Machine.execSchedulerCoreError q s
  | .rootCoreError => Sys2Proof.Machine.execRootCoreError s
  | .boot r => Sys2Proof.Machine.execBoot r s
  | .firmwareUpdate img => Sys2Proof.Machine.execFirmwareUpdate img s
  | .hostBar2Access pa n wr => Sys2Proof.Machine.execHostBar2Access pa n wr s
  | .atsInvalidate bus => Sys2Proof.Machine.execAtsInvalidate bus s
  | .peerAccess pa n req => Sys2Proof.Machine.execPeerAccess pa n req s
  | .linkCrcError port pa wr => Sys2Proof.Machine.execLinkCrcError port pa wr s
  | .qcfgWrite p n v => Sys2Proof.Machine.execQcfgWrite p n v s
  | .qidxWrite p n v => Sys2Proof.Machine.execQidxWrite p n v s
  | .fqcfgWrite p v => Sys2Proof.Machine.execFqcfgWrite p v s
  | .mqcfgWrite p v => Sys2Proof.Machine.execMqcfgWrite p v s
  | .mqidxWrite p v => Sys2Proof.Machine.execMqidxWrite p v s
  | .acthWrite p v => Sys2Proof.Machine.execActhWrite p v s
  | .slcfgWrite p v => Sys2Proof.Machine.execSlcfgWrite p v s
  | .cqcfgWrite p v => Sys2Proof.Machine.execCqcfgWrite p v s
  | .cqidxWrite p v => Sys2Proof.Machine.execCqidxWrite p v s
  | .eqcfgWrite p v => Sys2Proof.Machine.execEqcfgWrite p v s
  | .pqmaskWrite tag w id => Sys2Proof.Machine.execPqmaskWrite tag w id s
  | .pwaysWrite tag w id => Sys2Proof.Machine.execPwaysWrite tag w id s
  | .nbndWrite tag w id => Sys2Proof.Machine.execNbndWrite tag w id s
  | .prsvWrite tag w id => Sys2Proof.Machine.execPrsvWrite tag w id s
  | .asidvWrite tag w id => Sys2Proof.Machine.execAsidvWrite tag w id s
  | .pcapWrite tag w id => Sys2Proof.Machine.execPcapWrite tag w id s
  | .fmodeWrite tag w id => Sys2Proof.Machine.execFmodeWrite tag w id s
  | .fflagsWrite tag w id => Sys2Proof.Machine.execFflagsWrite tag w id s
  | .registerWrite r v => Sys2Proof.Machine.execRegisterWrite r v s
  | .regionEndingResult tag w id => Sys2Proof.Machine.execRegionEndingResult tag w id s
  | .texComplete tag w id => Sys2Proof.Machine.execTexComplete tag w id s
  | .bvhsetComplete tag w id => Sys2Proof.Machine.execBvhsetComplete tag w id s
  | .shbindComplete tag w id => Sys2Proof.Machine.execShbindComplete tag w id s
  | .tnextComplete tag w id pick => Sys2Proof.Machine.execTnextComplete tag w id pick s
  | .mresComplete tag w id => Sys2Proof.Machine.execMresComplete tag w id s
  | .rinvComplete tag w id => Sys2Proof.Machine.execRinvComplete tag w id s
  | .faultRecordFreed p slot => Sys2Proof.Machine.execFaultRecordFreed p slot s
  | .energyWrite tag w id => Sys2Proof.Machine.execEnergyWrite tag w id s
  | .schedulerCoreReloaded q => Sys2Proof.Machine.execSchedulerCoreReloaded q s
  | .msixTableWrite vec mask clr => Sys2Proof.Machine.execMsixTableWrite vec mask clr s

end Sys2Proof.Machine
end

