-- ==== Sys2Proof/Machine/Step.lean ====
section
/-! DEFINITION. Sys2Proof/Machine/Step.lean: one step of the device: one cycle passes, and the next pick happens. -/
namespace Sys2Proof.Machine
open Host (Outcome)

/-- What a pick does: a wave that its pipe may choose issues its next word, or an event occurs. (DESIGN CHOICE: entry 3.) -/
def runPick (k : Pick) (s : State) : Outcome State Fault Refusal :=
  match k with
  | .event i => if isEvent i then exec i s else .refused (.notEnabled "EVENT")
  | .issue tag w =>
    if !s.maySelect exec tag w then .refused (.notEnabled "ISSUE")
    else match s.nextWord tag w with
      | none => .refused (.notEnabled "ISSUE")
      | some x =>
        match decode x with
        | .ok i => exec i (s.at_ tag w)
        | .error _ => .next (s.badWord tag w x)
/-- The first pick of a list that can happen; with none, the cycle passes idle. -/
def runFirst (s : State) : List Pick → Outcome State Fault Refusal
  | [] => .next s
  | k :: r =>
    match runPick k s with
    | .next s' => .next s'
    | _ => runFirst s r

/-- One step: a cycle passes, one pick happens, and the device does what it does by itself. The picks that `sched` lists happen in its order; beyond
them the device goes on by itself. (DESIGN CHOICE: entry 2.) -/
def step (s : State) : Outcome State Fault Refusal :=
  let s := s.tick
  match s.sched with
  | k :: r => wrap (runPick k { s with sched := r })
  | [] => wrap (runFirst s s.picksNow)

/-- `s` with the given word about to be issued (its bits above `nbits` zero). (DESIGN CHOICE: entry 10.) -/
def State.withFetchWord (s : State) (nbits w : Nat) : State := s.atWord (BitVec.ofNat 64 (w % 2 ^ nbits))

end Sys2Proof.Machine
end

