-- ==== Sys2Proof/Safety.lean ====
section
/-! DEFINITION. Sys2Proof/Safety.lean: the terms in which claims are stated: what a result writes and what it leaves alone, when
an instruction acts, and the invariant of the device. -/
namespace Sys2Proof

/-! ### What a result writes -/

/-- The vector, scalar or loop-counter register that an operand names. -/
def Opd.vNum : Opd → Option Nat | .v n => some n.toNat | _ => none
def Opd.sNum : Opd → Option Nat | .s n => some n.toNat | _ => none
def Opd.lcNum : Opd → Option Nat | .lc n => some n.val | _ => none

namespace Machine

/-- From wave `a` to wave `b`, destination `d` got the 32-bit result `f` in the lanes `m`, and no other general or loop-counter
register changed: a vector register in each lane of `m`, a scalar register zero-extended and a loop counter from the lowest lane
of `m` (R66, R169); an operand that is no register discards the result. -/
structure Wave.Got32 (a b : Wave) (m : Lanes) (d : Opd) (f : Nat → Word) : Prop where
  v : ∀ n l, l < 32 → b.vr n l = if d.vNum = some n ∧ m.getLsbD l then f l else a.vr n l
  s : ∀ n, b.sr n = if d.sNum = some n ∧ m ≠ 0 then (f (lowest m)).setWidth 64 else a.sr n
  lc : ∀ n, b.lcr n = if d.lcNum = some n ∧ m ≠ 0 then f (lowest m) else a.lcr n

/-- The same for a 64-bit result: a vector pair, low word first, or a scalar register (R67). -/
structure Wave.Got64 (a b : Wave) (m : Lanes) (d : Opd) (f : Nat → DWord) : Prop where
  v : ∀ n l, l < 32 → b.vr n l = if m.getLsbD l then
      (if d.vNum = some n then (f l).setWidth 32 else if d.vNum.map (· + 1) = some n then (f l >>> 32).setWidth 32 else a.vr n l)
    else a.vr n l
  s : ∀ n, b.sr n = if d.sNum = some n ∧ m ≠ 0 then f (lowest m) else a.sr n
  lc : ∀ n, b.lcr n = a.lcr n

/-- No general or loop-counter register changed. -/
structure Wave.KeptRegs (a b : Wave) : Prop where
  v : ∀ n l, b.vr n l = a.vr n l
  s : ∀ n, b.sr n = a.sr n
  lc : ∀ n, b.lcr n = a.lcr n

/-- Predicate `p` got `f` in the lanes `m`, unless it is p127, and no other predicate changed (R63). -/
def Wave.GotP (a b : Wave) (m : Lanes) (p : Pr) (f : Nat → Bool) : Prop :=
  ∀ n l, l < 32 → (b.pr n).getLsbD l = if p ≠ 127#7 ∧ p.toNat = n ∧ m.getLsbD l then f l else (a.pr n).getLsbD l
/-- No predicate changed. -/
def Wave.KeptPreds (a b : Wave) : Prop := ∀ n, b.pr n = a.pr n

/-! ### When an instruction acts -/

/-- The instruction `i` acts: whenever a wave issues it and it is past every check of its issue (`State.pre`, spelled out by
`Obligations.IssueChecks`), the outcome is a next state, in which the issuing wave is the loop settlement (R138) of a wave for
which `R` holds; `R` sees the state before, the issue, and that wave. -/
def Acts (i : Instr) (R : State → Ctx → Wave → Prop) : Prop :=
  ∀ s c s', s.pre i = .go c s' →
    ∃ t wv, exec i s = .next t ∧ t.wave? c.tag c.w = some (Wave.settle 4 wv) ∧ R s c wv

/-- The same for an issue of which `P` holds. -/
def ActsIf (i : Instr) (P : State → Ctx → Prop) (R : State → Ctx → Wave → Prop) : Prop :=
  ∀ s c s', s.pre i = .go c s' → P s c →
    ∃ t wv, exec i s = .next t ∧ t.wave? c.tag c.w = some (Wave.settle 4 wv) ∧ R s c wv
/-- The same, where `R` sees the next state too. -/
def ActsTo (i : Instr) (P : State → Ctx → Prop) (R : State → Ctx → State → Wave → Prop) : Prop :=
  ∀ s c s', s.pre i = .go c s' → P s c →
    ∃ t wv, exec i s = .next t ∧ t.wave? c.tag c.w = some (Wave.settle 4 wv) ∧ R s c t wv
/-- An issue of which `P` holds takes the trap `cause` at its own word, with `faddr` as the address concerned (R71, R407). -/
def TrapsIf (i : Instr) (P : State → Ctx → Prop) (cause : Nat) (faddr : Ctx → Nat) : Prop :=
  ∀ s c s', s.pre i = .go c s' → P s c →
    exec i s = .next (s.takeTrap c.tag c.w c.b.mask
      { cause := cause, lanes := c.lanes, addr := c.site, region := c.firstClause, after := false, faddr := BitVec.ofNat 64 (faddr c) })

/-- No register, predicate or flag changed, and nothing became pending. -/
structure Wave.Quiet (a b : Wave) : Prop where
  regs : a.KeptRegs b
  preds : a.KeptPreds b
  fflags : b.fflags = a.fflags
  pend : b.pend = a.pend
  ev : ∀ n, b.evr n = a.evr n

/-- A region-ending instruction ends the run of every slice of its bundle, with the operand values `x`, `y` and `z` read at issue,
and does nothing else before its commit (R34, R464). -/
def Ends (i : Instr) (P : State → Ctx → Prop) (x y z : Ctx → List DWord) : Prop :=
  ActsIf i P (fun s c wv => c.wv.Quiet wv ∧
    wv.regions.map (fun r => (r.rid, r.sl, r.start, r.stores, r.undo)) = c.wv.regions.map (fun r => (r.rid, r.sl, r.start, r.stores, r.undo)) ∧
    ∃ e : EndOp, (e.instr = i ∧ e.iss = s.nextId ∧ e.lanes = c.lanes ∧ e.site = c.site ∧ e.next = c.next ∧ e.x = x c ∧ e.y = y c ∧ e.z = z c) ∧
      ∀ r ∈ wv.regions, c.b.mask &&& sliceMask r.sl ≠ 0 → r.ended = some (.op e))

/-- A pending operation: with an active thread, one operation that satisfies `Q` becomes pending, counted on its event counter, and
no register changes yet; with none, nothing becomes pending (R134). -/
def Starts (i : Instr) (P : State → Ctx → Prop) (Q : State → Ctx → Pend → Prop) : Prop :=
  ActsIf i P (fun s c wv => c.wv.KeptRegs wv ∧ c.wv.KeptPreds wv ∧ wv.fflags = c.wv.fflags ∧
    (c.lanes = 0 → wv.pend = c.wv.pend ∧ ∀ n, wv.evr n = c.wv.evr n) ∧
    (c.lanes ≠ 0 → (∀ n, wv.evr n = if i.counted = some n then c.wv.evr n + 1 else c.wv.evr n) ∧
      ∃ q, wv.pend.getLast? = some q ∧ wv.pend.length = c.wv.pend.length + 1 ∧ q.id = s.nextId ∧ q.instr = i ∧ q.ev = i.counted ∧
        q.dsts = i.dstRegs ∧ q.lanes = c.lanes ∧ Q s c q))

/-- An engine operation that performs at the commit of its runs: with an active thread it is counted from its issue on, and it ends
the runs of its bundle with the operand values `x` and `y`; with none it only ends them. -/
def StartsEnding (i : Instr) (P : State → Ctx → Prop) (x y : Ctx → List DWord) : Prop :=
  ActsIf i P (fun s c wv => c.wv.KeptRegs wv ∧ c.wv.KeptPreds wv ∧ wv.fflags = c.wv.fflags ∧
    (c.lanes = 0 → wv.pend = c.wv.pend ∧ (∀ n, wv.evr n = c.wv.evr n) ∧
      ∀ r ∈ wv.regions, c.b.mask &&& sliceMask r.sl ≠ 0 → ∃ e, r.ended = some (.op e) ∧ e.instr = i ∧ e.lanes = 0) ∧
    (c.lanes ≠ 0 → (∀ n, wv.evr n = if i.counted = some n then c.wv.evr n + 1 else c.wv.evr n) ∧
      (∃ q, wv.pend.getLast? = some q ∧ wv.pend.length = c.wv.pend.length + 1 ∧ q.id = s.nextId ∧ q.instr = i ∧ q.lanes = c.lanes) ∧
      ∃ e : EndOp, (e.instr = i ∧ e.iss = s.nextId ∧ e.lanes = c.lanes ∧ e.site = c.site ∧ e.next = c.next ∧ e.x = x c ∧ e.y = y c) ∧
        ∀ r ∈ wv.regions, c.b.mask &&& sliceMask r.sl ≠ 0 → r.ended = some (.op e)))

/-- A status or other 32-bit result known at issue. -/
def Answers (i : Instr) (P : State → Ctx → Prop) (d : Opd) (f : State → Ctx → Nat → Word) (R : State → Ctx → State → Wave → Prop) : Prop :=
  ActsTo i P (fun s c t wv => c.wv.Got32 wv c.lanes d (f s c) ∧ c.wv.KeptPreds wv ∧ wv.fflags = c.wv.fflags ∧ wv.pend.map (·.id) = c.wv.pend.map (·.id) ∧
    (∀ n, wv.evr n = c.wv.evr n) ∧ R s c t wv)

/-- A 32-bit result that raises the flags `fl` and changes no predicate. -/
def Gives32 (i : Instr) (d : Opd) (f : Ctx → Nat → Word) (fl : Ctx → BitVec 8) : Prop :=
  Acts i (fun _ c wv => c.wv.Got32 wv c.lanes d (f c) ∧ c.wv.KeptPreds wv ∧ wv.fflags = c.wv.fflags ||| (fl c).setWidth 64)
/-- A 64-bit result that raises the flags `fl` and changes no predicate. -/
def Gives64 (i : Instr) (d : Opd) (f : Ctx → Nat → DWord) (fl : Ctx → BitVec 8) : Prop :=
  Acts i (fun _ c wv => c.wv.Got64 wv c.lanes d (f c) ∧ c.wv.KeptPreds wv ∧ wv.fflags = c.wv.fflags ||| (fl c).setWidth 64)
/-- A predicate result that raises the flags `fl` and changes no other register. -/
def GivesP (i : Instr) (p : Pr) (f : Ctx → Nat → Bool) (fl : Ctx → BitVec 8) : Prop :=
  Acts i (fun _ c wv => c.wv.KeptRegs wv ∧ c.wv.GotP wv c.lanes p (f c) ∧ wv.fflags = c.wv.fflags ||| (fl c).setWidth 64)
/-- A 32-bit result without flags. -/
abbrev Gives (i : Instr) (d : Opd) (f : Ctx → Nat → Word) : Prop := Gives32 i d f (fun _ => 0)
/-- An FP32 or packed result with the flags of the lanes that execute. -/
abbrev GivesF (i : Instr) (d : Opd) (f : Ctx → Nat → FR) : Prop :=
  Gives32 i d (fun c l => (f c l).word) (fun c => c.flags d (fun l => (f c l).fl))

/-- A pending operation has been delivered: its destination registers are written with `ws`, its flags are raised, it is pending no
more, and its event counter is one lower (R134). -/
structure Wave.Delivered (a b : Wave) (q : Pend) (ws : List RegW) (fl : BitVec 8) : Prop where
  v : ∀ n l, b.vr n l = (a.puts ws).vr n l
  s : ∀ n, b.sr n = (a.puts ws).sr n
  p : ∀ n, b.pr n = (a.puts ws).pr n
  lc : ∀ n, b.lcr n = (a.puts ws).lcr n
  fflags : b.fflags = a.fflags ||| fl.setWidth 64
  pend : b.pend = a.pend.filter (·.id ≠ q.id)
  ev : ∀ n, b.evr n = if q.ev = some n then a.evr n - 1 else a.evr n

/-- Operation `q` is pending in wave `w` of team `tag` under number `id`: none of its destinations has been written since, no acquire
holds it back (R347), and the wave has no trap waiting to be taken. -/
structure State.Pending (s : State) (tag w id : Nat) (t : Team) (wv : Wave) (q : Pend) : Prop where
  team : s.team? tag = some t
  wave : t.wave? w = some wv
  op : wv.pend? id = some q
  clean : q.clob = []
  due : wv.behindAcq q = false
  quiet : wv.trapQ = none

/-- The event `ev` completes the pending operation `q`: the outcome is a next state in which `q` has been delivered with the
results `ws` and the flags `fl`, and for which `R` holds; `R` sees that state and the wave in it. -/
def State.Completes (s : State) (ev : Instr) (tag w : Nat) (wv : Wave) (q : Pend) (ws : List RegW) (fl : BitVec 8)
    (R : State → Wave → Prop) : Prop :=
  ∃ u v, exec ev s = .next u ∧ u.wave? tag w = some v ∧ wv.Delivered v q ws fl ∧ R u v

/-! ### What an instruction leaves alone -/

/-- No cache line, translation or update-only copy of the pages [lo, hi) of address space `asid` is left, hand-off lines aside (R422). -/
structure State.Without (s : State) (asid lo hi : Nat) : Prop where
  lines : ∀ l ∈ s.lines, l.byPa = true ∨ l.asid ≠ asid ∨ l.va + 256 ≤ lo ∨ hi ≤ l.va
  tlb : ∀ e ∈ s.tlb, e.asid ≠ asid ∨ e.va + e.size ≤ lo ∨ hi ≤ e.va
  upds : ∀ u ∈ s.upds, u.asid ≠ asid ∨ u.va + u.ty.size ≤ lo ∨ hi ≤ u.va

/-- The device but for memory, its caches, lookaside buffers, mappings seen and update-only copies, requests for fills that wait, and what the
controllers have yet to report. -/
def State.sansCache (s : State) : State :=
  { s with mem := [], undef := [], poison := [], lines := [], stamp := 0, tlb := [], maps := [], upds := [], due := [], ats := [], spill := [] }

/-- From `s` to `t`, operand queues of team `tag` were popped (R65): nothing else changed, but what the loads of deferred lanes do in
memory and caches on their way (R252); with no deferred lane in the queues, nothing at all. -/
structure State.Popped (s t : State) (tag : Nat) : Prop where
  rest : ∃ g : List (List QEnt) → List (List QEnt),
    t.sansCache = (s.updTeam tag (fun a => { a with aq := { a.aq with q := g a.aq.q } })).sansCache
  exact : (∀ a, s.team? tag = some a → ∀ q ∈ a.aq.q, ∀ e ∈ q, ∀ x ∈ e.words, x ≠ none) →
    ∃ g : List (List QEnt) → List (List QEnt), t = s.updTeam tag (fun a => { a with aq := { a.aq with q := g a.aq.q } })

/-- Between `s` and `t` only wave `w` of team `tag` changed, beyond the counters of issues and free values and the poisoned-register
marks of the team: memory, the lines of every cache, every register of a partition and of the device, every queue, grid, gang, other
team and other wave stand as they were. A byte of memory whose value is undefined stays one; every other reads as before. -/
structure State.OnlyWave (s t : State) (tag w : Nat) : Prop where
  rest : { t with teams := s.teams, free := s.free, nextId := s.nextId } = s
  teams : ∀ k, k ≠ tag → t.team? k = s.team? k
  waves : ∀ k, k ≠ w → t.wave? tag k = s.wave? tag k
  team : ∀ a, s.team? tag = some a → ∃ b, t.team? tag = some b ∧ { b with waves := a.waves, regPoison := a.regPoison } = a
  lost : ∀ x, t.undefAt x = s.undefAt x
  mem : ∀ x, s.undefAt x = false → t.memAt x = s.memAt x

/-- What a wave keeps through an instruction that only computes: event counters, `FMODE`, the trap registers, the loops, stores
and undo records of its runs, waits, held faults, the B descriptor, the walk state and the scene, and its accumulators unless an
open MMA has them at stake (R281). -/
structure Wave.KeptBut (a b : Wave) : Prop where
  ix : b.ix = a.ix
  slot : b.slot = a.slot
  ev : b.ev = a.ev
  fmode : b.fmode = a.fmode
  tcause : b.tcause = a.tcause
  taddr : b.taddr = a.taddr
  tregion : b.tregion = a.tregion
  waits : b.waits = a.waits
  holds : b.holds = a.holds
  handler : b.handler = a.handler
  trapQ : b.trapQ = a.trapQ
  stores : b.regions.map (fun r => (r.rid, r.sl, r.start, r.stores, r.undo)) = a.regions.map (fun r => (r.rid, r.sl, r.start, r.stores, r.undo))
  bdesc : b.bdesc = a.bdesc
  walk : b.walk = a.walk
  scene : b.scene = a.scene
  acc : a.mopen = [] → b.acc = a.acc

/-- Instructions that only compute: the families of chapters 6 to 8 whose results are written at a fixed latency. -/
def computes : Instr → Bool
  | .iadd .. | .isub .. | .imul .. | .imulh .. | .imad .. | .imin .. | .imax .. | .iabs .. | .icmp .. | .and .. | .or .. | .xor ..
  | .andn .. | .shl .. | .shr .. | .sar .. | .rot .. | .popc .. | .clz .. | .brev .. | .bfe .. | .bfi .. | .lea .. | .iaddw .. | .iaddc ..
  | .sad .. | .bsel .. | .idot4 .. | .fadd .. | .fsub .. | .fmul .. | .ffma .. | .fmin .. | .fmax .. | .fcmp .. | .frnd .. | .fclass ..
  | .fscale .. | .twosum .. | .twoprod .. | .faddp .. | .pkadd .. | .pkmul .. | .pkfma .. | .pkfmab .. | .cvtif .. | .cvtfi .. | .cvtff ..
  | .packh .. | .unpkh .. | .mov .. | .movi .. | .moviS .. | .moviHi .. | .sel .. | .pand .. | .por .. | .pxor .. | .pmov .. | .pmovNot ..
  | .pmovVal .. | .pmovNz .. | .pset .. | .psetPack .. | .smov .. | .lxch .. | .agree .. | .ballot .. | .wred .. | .wscan .. | .rebal ..
  | .csamp .. | .rand .. | .role .. | .roleId .. | .rolePos .. | .roleCnt .. | .csrr .. | .enrdBal .. => true
  | _ => false

/-! ### The invariant -/

/-- Every state of the device: memory keeps its canonical form. -/
def Inv (s : State) : Prop := s.mem.wf = true

end Machine
end Sys2Proof
end

