-- ==== Sys2Proof/Certificates/Slice0/Obligations.lean ====
section
/-! DEFINITION. Sys2Proof/Certificates/Slice0/Obligations.lean: the statements for the provers. Each says, in the terms of
Sys2Proof/Safety.lean, what the model does; its docstring names the rules of the manual that it formalises. -/
open Sys2Proof Sys2Proof.Machine
open Host (Outcome)

/-- Table 7.4 (R171, R170, R80): IADD, ISUB, IMUL, IMULH, IMAD, IMIN, IMAX, IABS and SAD complete with the table's result in the
destination, for every operand form and every lane, and raise no flag. -/
def Obligations.IntegerArithmetic : Prop :=
  ∀ (h : Hdr) (d a b x : Opd),
    Gives (.iadd h d a b .wrap) d (fun c l => c.w32 a l + c.w32 b l) ∧
    Gives (.iadd h d a b .n32) d (fun c l => BitVec.ofNat 32 (min (2 ^ 32 - 1) ((c.w32 a l).toNat + (c.w32 b l).toNat))) ∧
    Gives (.iadd h d a b .i32) d (fun c l => BitVec.ofInt 32 (max (-2 ^ 31) (min (2 ^ 31 - 1) ((c.w32 a l).toInt + (c.w32 b l).toInt)))) ∧
    Gives (.isub h d a b .wrap) d (fun c l => c.w32 a l - c.w32 b l) ∧
    Gives (.isub h d a b .n32) d (fun c l => BitVec.ofNat 32 ((c.w32 a l).toNat - (c.w32 b l).toNat)) ∧
    Gives (.isub h d a b .i32) d (fun c l => BitVec.ofInt 32 (max (-2 ^ 31) (min (2 ^ 31 - 1) ((c.w32 a l).toInt - (c.w32 b l).toInt)))) ∧
    Gives (.imul h d a b) d (fun c l => c.w32 a l * c.w32 b l) ∧
    Gives (.imulh h d a b false) d (fun c l => ((c.w32 a l).setWidth 64 * (c.w32 b l).setWidth 64).extractLsb' 32 32) ∧
    Gives (.imulh h d a b true) d (fun c l => ((c.w32 a l).signExtend 64 * (c.w32 b l).signExtend 64).extractLsb' 32 32) ∧
    Gives (.imad h d a b x) d (fun c l => c.w32 a l * c.w32 b l + c.w32 x l) ∧
    Gives (.imin h d a b false) d (fun c l => if (c.w32 a l).ult (c.w32 b l) then c.w32 a l else c.w32 b l) ∧
    Gives (.imin h d a b true) d (fun c l => if (c.w32 a l).slt (c.w32 b l) then c.w32 a l else c.w32 b l) ∧
    Gives (.imax h d a b false) d (fun c l => if (c.w32 a l).ult (c.w32 b l) then c.w32 b l else c.w32 a l) ∧
    Gives (.imax h d a b true) d (fun c l => if (c.w32 a l).slt (c.w32 b l) then c.w32 b l else c.w32 a l) ∧
    Gives (.iabs h d a false) d (fun c l => if (c.w32 a l).slt 0 then -(c.w32 a l) else c.w32 a l) ∧
    Gives (.iabs h d a true) d (fun c l => if c.w32 a l = 0x80000000 then 0x7FFFFFFF else if (c.w32 a l).slt 0 then -(c.w32 a l) else c.w32 a l) ∧
    Gives (.sad h d a b x false) d (fun c l =>
      (if (c.w32 a l).ult (c.w32 b l) then c.w32 b l - c.w32 a l else c.w32 a l - c.w32 b l) + c.w32 x l) ∧
    Gives (.sad h d a b x true) d (fun c l =>
      (if (c.w32 a l).slt (c.w32 b l) then c.w32 b l - c.w32 a l else c.w32 a l - c.w32 b l) + c.w32 x l)

/-- Table 7.5 (R172): each bit operation completes with the table's result, read bit by bit; shift counts are the full unsigned
second operand, and ROT counts modulo 32. -/
def Obligations.BitOperations : Prop :=
  ∀ (h : Hdr) (d a b : Opd),
    Gives (.and h d a b) d (fun c l => c.w32 a l &&& c.w32 b l) ∧
    Gives (.or h d a b) d (fun c l => c.w32 a l ||| c.w32 b l) ∧
    Gives (.xor h d a b) d (fun c l => c.w32 a l ^^^ c.w32 b l) ∧
    Gives (.andn h d a b) d (fun c l => c.w32 a l &&& ~~~(c.w32 b l)) ∧
    Gives (.shl h d a b) d (fun c l => c.w32 a l <<< (c.w32 b l).toNat) ∧
    Gives (.shr h d a b) d (fun c l => c.w32 a l >>> (c.w32 b l).toNat) ∧
    Gives (.sar h d a b) d (fun c l => BitVec.ofInt 32 ((c.w32 a l).toInt / 2 ^ (c.w32 b l).toNat)) ∧
    (∃ f : Word → Word → Word, Gives (.rot h d a b false) d (fun c l => f (c.w32 a l) (c.w32 b l)) ∧
      ∀ x n i, i < 32 → (f x n).getLsbD ((i + n.toNat) % 32) = x.getLsbD i) ∧
    (∃ f : Word → Word → Word, Gives (.rot h d a b true) d (fun c l => f (c.w32 a l) (c.w32 b l)) ∧
      ∀ x n i, i < 32 → (f x n).getLsbD i = x.getLsbD ((i + n.toNat) % 32)) ∧
    Gives (.popc h d a) d (fun c l => BitVec.ofNat 32 ((List.range 32).countP (fun i => (c.w32 a l).getLsbD i))) ∧
    (∃ f : Word → Word, Gives (.clz h d a) d (fun c l => f (c.w32 a l)) ∧ f 0 = 32 ∧
      ∀ x, x ≠ 0 → (f x).toNat < 32 ∧ x.getLsbD (31 - (f x).toNat) = true ∧ ∀ i, i < (f x).toNat → x.getLsbD (31 - i) = false) ∧
    (∃ f : Word → Word, Gives (.brev h d a) d (fun c l => f (c.w32 a l)) ∧ ∀ x i, i < 32 → (f x).getLsbD i = x.getLsbD (31 - i))

/-- BFE, BFI, BSEL and IDOT4 (R174, R175, R177), by the bits and bytes of the result. -/
def Obligations.BitFields : Prop :=
  ∀ (h : Hdr) (d a b x : Opd),
    (∃ f : Bool → Word → Word → Word → Word,
      (∀ sg, Gives (.bfe h d a b x sg) d (fun c l => f sg (c.w32 a l) (c.w32 b l) (c.w32 x l))) ∧
      ∀ sg (u v w : Word) i, i < 32 → (f sg u v w).getLsbD i =
        (let n := min (w.toNat % 256) 32
         let at_ (j : Nat) : Bool := if j < 32 then u.getLsbD j else sg && u.getLsbD 31
         if n = 0 then false else if i < n then at_ (v.toNat % 256 + i) else sg && at_ (v.toNat % 256 + n - 1))) ∧
    (∃ f : Word → Word → Word → Word, Gives (.bfi h d a b x) d (fun c l => f (c.w32 a l) (c.w32 b l) (c.w32 x l)) ∧
      ∀ (u v w : Word) i, i < 32 → (f u v w).getLsbD i =
        if v.toNat % 256 ≤ i ∧ i < v.toNat % 256 + min (v.toNat / 256 % 256) 32 then u.getLsbD (i - v.toNat % 256) else w.getLsbD i) ∧
    (∃ f : Word → Word → Word → Word, Gives (.bsel h d a b x) d (fun c l => f (c.w32 a l) (c.w32 b l) (c.w32 x l)) ∧
      ∀ (u v w : Word) k, k < 4 → (f u v w).extractLsb' (8 * k) 8 =
        (let t : BitVec 8 := w.extractLsb' (8 * k) 8
         let j := (t.extractLsb' 0 3).toNat
         let y : Byte := if j < 4 then u.extractLsb' (8 * j) 8 else v.extractLsb' (8 * (j - 4)) 8
         match (t.extractLsb' 3 2).toNat with
         | 0 => y | 1 => 0x00 | 2 => if y.msb then 0xFF else 0x00 | _ => 0xFF)) ∧
    (∀ sa sb sat, Gives (.idot4 h d a b x sa sb sat) d (fun c l =>
      let byte (sg : Bool) (w : Word) (i : Nat) : Int := if sg then (w.extractLsb' (8 * i) 8).toInt else (w.extractLsb' (8 * i) 8).toNat
      let t : Int := (if sa || sb then (c.w32 x l).toInt else (c.w32 x l).toNat)
        + ((List.range 4).map (fun i => byte sa (c.w32 a l) i * byte sb (c.w32 b l) i)).sum
      if sat then (if sa || sb then BitVec.ofInt 32 (max (-2 ^ 31) (min (2 ^ 31 - 1) t)) else BitVec.ofInt 32 (max 0 (min (2 ^ 32 - 1) t)))
      else BitVec.ofInt 32 t))

/-- LEA, IADDW and IADDC (R176). -/
def Obligations.WideAddresses : Prop :=
  ∀ (h : Hdr) (d a b : Opd) (k : BitVec 5) (p : Pr),
    Gives (.lea h d a b k false false) d (fun c l => c.w32 a l + (c.w32 b l <<< k.toNat)) ∧
    Gives64 (.lea h d a b k true false) d (fun c l => c.w64 a l + ((c.w32 b l).setWidth 64 <<< k.toNat)) (fun _ => 0) ∧
    Gives64 (.lea h d a b k true true) d (fun c l => c.w64 a l + ((c.w32 b l).signExtend 64 <<< k.toNat)) (fun _ => 0) ∧
    Gives64 (.iaddw h d a b .b64) d (fun c l => c.w64 a l + c.w64 b l) (fun _ => 0) ∧
    Gives64 (.iaddw h d a b .n32) d (fun c l => c.w64 a l + (c.w32 b l).setWidth 64) (fun _ => 0) ∧
    Gives64 (.iaddw h d a b .i32) d (fun c l => c.w64 a l + (c.w32 b l).signExtend 64) (fun _ => 0) ∧
    (∀ sub, Acts (.iaddc h d a b p sub) (fun _ c wv =>
      let ci (l : Nat) : Nat := if c.p p.toNat l then 1 else 0
      c.wv.Got32 wv c.lanes d (fun l => if sub then c.w32 a l - c.w32 b l - BitVec.ofNat 32 (ci l) else c.w32 a l + c.w32 b l + BitVec.ofNat 32 (ci l)) ∧
      c.wv.GotP wv c.lanes p (fun l => if sub then (c.w32 a l).toNat < (c.w32 b l).toNat + ci l else 2 ^ 32 ≤ (c.w32 a l).toNat + (c.w32 b l).toNat + ci l) ∧
      wv.fflags = c.wv.fflags))

/-- ICMP (R173) and FCMP (R180, Table 7.6): each active lane of the predicate gets the truth of the condition, no other register
changes, and a write of p127 is discarded; FCMP raises NV for a signalling operand, and in the ordered relations for any NaN. -/
def Obligations.Compares : Prop :=
  ∀ (h : Hdr) (p : Pr) (a b : Opd),
    (∀ cc, GivesP (.icmp h p a b false cc) p (fun c l => match cc with
      | .eq => c.w32 a l = c.w32 b l | .ne => c.w32 a l ≠ c.w32 b l
      | .lt => (c.w32 a l).ult (c.w32 b l) | .le => (c.w32 a l).ule (c.w32 b l)
      | .gt => (c.w32 b l).ult (c.w32 a l) | .ge => (c.w32 b l).ule (c.w32 a l)) (fun _ => 0)) ∧
    (∀ cc, GivesP (.icmp h p a b true cc) p (fun c l => match cc with
      | .eq => c.w32 a l = c.w32 b l | .ne => c.w32 a l ≠ c.w32 b l
      | .lt => (c.w32 a l).slt (c.w32 b l) | .le => (c.w32 a l).sle (c.w32 b l)
      | .gt => (c.w32 b l).slt (c.w32 a l) | .ge => (c.w32 b l).sle (c.w32 a l)) (fun _ => 0)) ∧
    (∀ cc, GivesP (.fcmp h p a b cc) p
      (fun c l =>
        let x := f32 (c.fp a l)
        let y := f32 (c.fp b l)
        match cc with
        | .un => x.isNan || y.isNan
        | .ord => !(x.isNan || y.isNan)
        | .ne => x.isNan || y.isNan || x.cmp y ≠ 0
        | .eq => !(x.isNan || y.isNan) && x.cmp y = 0
        | .lt => !(x.isNan || y.isNan) && x.cmp y < 0
        | .le => !(x.isNan || y.isNan) && x.cmp y ≤ 0
        | .gt => !(x.isNan || y.isNan) && x.cmp y > 0
        | .ge => !(x.isNan || y.isNan) && x.cmp y ≥ 0)
      (fun c =>
        let nan (l : Nat) : Bool := (f32 (c.fp a l)).isNan || (f32 (c.fp b l)).isNan
        let snan (l : Nat) : Bool := (f32 (c.fp a l)).isSnan || (f32 (c.fp b l)).isSnan
        match cc with
        | .lt | .le | .gt | .ge => if (lanesOf c.lanes).any nan then fNV else 0
        | _ => if (lanesOf c.lanes).any snan then fNV else 0))

/-- MOV (R153), MOVI, MOVI.s, MOVI.hi (R154), SMOV (R155) and SEL (R156). -/
def Obligations.MovesAndSelects : Prop :=
  ∀ (h : Hdr) (d a b : Opd) (p : Pr) (imm : BitVec 32),
    Gives (.mov h d a false) d (fun c l => c.w32 a l) ∧
    Gives64 (.mov h d a true) d (fun c l => c.w64 a l) (fun _ => 0) ∧
    Gives (.movi h d imm) d (fun _ _ => imm) ∧
    (∀ n, Gives (.moviS h (.v n) imm) (.v n) (fun _ _ => imm)) ∧
    (∀ n, Gives64 (.moviS h (.s n) imm) (.s n) (fun _ _ => imm.signExtend 64) (fun _ => 0)) ∧
    (∀ n, Gives64 (.moviHi h (.s n) imm) (.s n) (fun c _ => imm ++ (c.wv.sr n.toNat).setWidth 32) (fun _ => 0)) ∧
    Gives (.smov h d a b true) d (fun c _ => c.w32 a (lowest c.lanes)) ∧
    Gives (.smov h d a b false) d (fun c _ => c.w32 a ((c.w64 b (lowest c.lanes)).toNat % 32)) ∧
    Gives (.sel h d a b p false) d (fun c l => if c.p p.toNat l then c.w32 a l else c.w32 b l) ∧
    Gives64 (.sel h d a b p true) d (fun c l => if c.p p.toNat l then c.w64 a l else c.w64 b l) (fun _ => 0)

/-- PAND, POR, PXOR (R157), PMOV (R158, Table 6.4), PSET and PSET.pack (R159). -/
def Obligations.PredicateMoves : Prop :=
  ∀ (h : Hdr) (d a : Opd) (p q r : Pr) (nq nr : Bool) (n1 : BitVec 6),
    GivesP (.pand h p q r nq nr) p (fun c l => (c.p q.toNat l != nq) && (c.p r.toNat l != nr)) (fun _ => 0) ∧
    GivesP (.por h p q r nq nr) p (fun c l => (c.p q.toNat l != nq) || (c.p r.toNat l != nr)) (fun _ => 0) ∧
    GivesP (.pxor h p q r nq nr) p (fun c l => (c.p q.toNat l != nq) != (c.p r.toNat l != nr)) (fun _ => 0) ∧
    GivesP (.pmov h p q) p (fun c l => c.p q.toNat l) (fun _ => 0) ∧
    GivesP (.pmovNot h p q) p (fun c l => !c.p q.toNat l) (fun _ => 0) ∧
    GivesP (.pmovNz h p a) p (fun c l => c.w32 a l ≠ 0) (fun _ => 0) ∧
    Gives (.pmovVal h d q) d (fun c l => if c.p q.toNat l then 1 else 0) ∧
    (∃ f : Ctx → Nat → Word, Gives (.psetPack h d q n1) d f ∧
      ∀ c l i, i < 32 → (f c l).getLsbD i = (decide (i ≤ n1.toNat) && c.p (q.toNat + i) l)) ∧
    Acts (.pset h p a n1) (fun _ c wv => c.wv.KeptRegs wv ∧ wv.fflags = c.wv.fflags ∧
      ∀ n l, l < 32 → (wv.pr n).getLsbD l =
        if p.toNat ≤ n ∧ n ≤ p.toNat + n1.toNat ∧ n ≠ 127 ∧ c.lanes.getLsbD l then (c.w32 a l).getLsbD (n - p.toNat) else (c.wv.pr n).getLsbD l)

/-- FADD, FSUB, FMUL, FFMA, FSCALE (R178), FMIN, FMAX (R179), FRND (R181) and FCLASS (R182): the exact result of the operands'
values, rounded once by the mode of the rounding field, with the flags of that rounding in the lanes that execute (R161, R164). -/
def Obligations.FloatArithmetic : Prop :=
  ∀ (h : Hdr) (d a b x : Opd) (rm : Rm),
    GivesF (.fadd h d a b rm) d (fun c l => finish fp32 (c.rm rm) ((f32 (c.fp a l)).add (c.rm rm) (f32 (c.fp b l)))) ∧
    GivesF (.fsub h d a b rm) d (fun c l => finish fp32 (c.rm rm) ((f32 (c.fp a l)).add (c.rm rm) (f32 (c.fp b l)).neg)) ∧
    GivesF (.fmul h d a b rm) d (fun c l => finish fp32 (c.rm rm) ((f32 (c.fp a l)).mul (f32 (c.fp b l)))) ∧
    GivesF (.ffma h d a b x rm) d (fun c l => finish fp32 (c.rm rm) (((f32 (c.fp a l)).mul (f32 (c.fp b l))).add (c.rm rm) (f32 (c.fp x l)))) ∧
    GivesF (.fscale h d a b rm) d (fun c l => fScale fp32 (c.rm rm) (f32 (c.fp a l)) (c.w32 b l).toInt) ∧
    GivesF (.fmin h d a b) d (fun c l => fMinMax fp32 false (c.fp a l).toNat (c.fp b l).toNat) ∧
    GivesF (.fmax h d a b) d (fun c l => fMinMax fp32 true (c.fp a l).toNat (c.fp b l).toNat) ∧
    (∀ e, GivesF (.frnd h d a rm e) d (fun c l => fRnd fp32 (c.rm rm) e (f32 (c.fp a l)))) ∧
    Gives (.fclass h d a) d (fun c l => BitVec.ofNat 32 (fClass fp32 (c.fp a l).toNat))

/-- Special values: a NaN result is the canonical NaN of its format, a signalling operand raises NV (R165), overflow follows the
rounding mode and raises OF and NX, the sign of an exact zero sum follows the mode (R164), FMIN and FMAX return the number beside
a NaN (R179), and FCLASS sets exactly one bit of ten (R182). -/
def Obligations.FloatSpecialValues : Prop :=
  (∀ f rm g, (finish f rm (.nan g)).x = f.nanBits ∧ (finish f rm (.nan g)).fl = if g then fNV else 0) ∧
  (fp32.nanBits = 0x7FC00000 ∧ fp16.nanBits = 0x7E00 ∧ bf16.nanBits = 0x7FC0) ∧
  (∀ rm a b, a.isNan || b.isNan → ∃ g, Machine.Num.add rm a b = .nan g ∧ Machine.Num.mul a b = .nan g ∧ g = (a.isSnan || b.isSnan)) ∧
  (∀ rm s, Machine.Num.add rm (.inf s) (.inf (!s)) = .nan true) ∧ (∀ s t e, Machine.Num.mul (.inf s) (.fin t 0 e) = .nan true) ∧
  (∀ f rm s (e : Int), 1 ≤ f.eb → (f.emax * 2 : Int) < e → (roundTo f rm s 1 e).fl = fOF ||| fNX ∧
    (roundTo f rm s 1 e).x = if rm = 0 ∨ (rm = 2 ∧ s = true) ∨ (3 ≤ rm ∧ s = false) then f.infBits s else f.sign s (f.emax * 2 ^ f.mb - 1)) ∧
  (∀ rm s m e, m ≠ 0 → ∃ q, Machine.Num.add rm (.fin s m e) (.fin (!s) m e) = .fin (rm = 2) 0 q) ∧
  (∀ mx x y, (f32 x).isNan = true → (f32 y).isNan = false → (fMinMax fp32 mx x.toNat y.toNat).x = y.toNat ∧ (fMinMax fp32 mx y.toNat x.toNat).x = y.toNat) ∧
  (∀ x : Word, ∃ k, k < 10 ∧ fClass fp32 x.toNat = 2 ^ k)

/-- TWOSUM, TWOPROD, FADDP (R183, R184), the packed 16-bit instructions (R185, R166) and the conversions (R188, R189): each
completes with its pair or word in the destination and its flags.
Where the manual leaves it open, this is the model's choice: log entry 33. -/
def Obligations.PairsAndConversions : Prop :=
  ∀ (h : Hdr) (d a b x : Opd) (rm : Rm) (b0 : Bool),
    Gives64 (.twosum h d a b) d (fun c l => let r := errFree ((f32 (c.fp a l)).add 0 (f32 (c.fp b l))); r.1.2 ++ r.1.1)
      (fun c => c.flags d (fun l => (errFree ((f32 (c.fp a l)).add 0 (f32 (c.fp b l)))).2)) ∧
    Gives64 (.twoprod h d a b) d (fun c l => let r := errFree ((f32 (c.fp a l)).mul (f32 (c.fp b l))); r.1.2 ++ r.1.1)
      (fun c => c.flags d (fun l => (errFree ((f32 (c.fp a l)).mul (f32 (c.fp b l)))).2)) ∧
    Gives64 (.faddp h d a b false) d (fun c l => let r := faddPair (c.wide a 0 l) (c.wide a 1 l) (c.wide b 0 l) (c.wide b 1 l); r.1.2 ++ r.1.1)
      (fun c => c.flags d (fun l => (faddPair (c.wide a 0 l) (c.wide a 1 l) (c.wide b 0 l) (c.wide b 1 l)).2)) ∧
    Gives64 (.faddp h d a b true) d (fun c l => let r := faddPair (c.wide a 0 l) (c.wide a 1 l) (c.fp b l) 0; r.1.2 ++ r.1.1)
      (fun c => c.flags d (fun l => (faddPair (c.wide a 0 l) (c.wide a 1 l) (c.fp b l) 0).2)) ∧
    (let e (w : Word) (i : Nat) : Nat := (w.extractLsb' (16 * i) 16).toNat
     GivesF (.pkadd h d a b rm b0) d (fun c l => pk2 (fun i => fAdd fp16 (c.rm rm) (Machine.Num.of fp16 (e (c.w32 a l) i)) (Machine.Num.of fp16 (e (c.w32 b l) (if b0 then 0 else i))))) ∧
     GivesF (.pkmul h d a b rm b0) d (fun c l => pk2 (fun i => fMul fp16 (c.rm rm) (Machine.Num.of fp16 (e (c.w32 a l) i)) (Machine.Num.of fp16 (e (c.w32 b l) (if b0 then 0 else i))))) ∧
     GivesF (.pkfma h d a b x rm b0) d (fun c l => pk2 (fun i => fFma fp16 (c.rm rm) (Machine.Num.of fp16 (e (c.w32 a l) i)) (Machine.Num.of fp16 (e (c.w32 b l) (if b0 then 0 else i))) (Machine.Num.of fp16 (e (c.w32 x l) i)))) ∧
     GivesF (.pkfmab h d a b x rm b0) d (fun c l => pk2 (fun i => fFma bf16 (c.rm rm) (Machine.Num.of bf16 (e (c.w32 a l) i)) (Machine.Num.of bf16 (e (c.w32 b l) (if b0 then 0 else i))) (Machine.Num.of bf16 (e (c.w32 x l) i)))) ∧
     GivesF (.cvtff h d a rm true) d (fun c l => pk2 (fun i => finish fp16 (c.rm rm) (Machine.Num.of bf16 (e (c.w32 a l) i)))) ∧
     GivesF (.cvtff h d a rm false) d (fun c l => pk2 (fun i => finish bf16 (c.rm rm) (Machine.Num.of fp16 (e (c.w32 a l) i)))) ∧
     (∀ bf, GivesF (.packh h d a b rm bf) d (fun c l => pk2 (fun i => finish (if bf then bf16 else fp16) (c.rm rm) (f32 (if i = 0 then c.fp a l else c.fp b l))))) ∧
     (∀ bf hi, GivesF (.unpkh h d a bf hi) d (fun c l => finish fp32 0 (Machine.Num.of (if bf then bf16 else fp16) (e (c.w32 a l) (if hi then 1 else 0)))))) ∧
    GivesF (.cvtif h d a rm .i32) d (fun c l => fOfInt (c.rm rm) (c.w32 a l).toInt) ∧
    GivesF (.cvtif h d a rm .n32) d (fun c l => fOfInt (c.rm rm) (c.w32 a l).toNat) ∧
    GivesF (.cvtif h d a rm .i64) d (fun c l => fOfInt (c.rm rm) (c.w64 a l).toInt) ∧
    GivesF (.cvtif h d a rm .n64) d (fun c l => fOfInt (c.rm rm) (c.w64 a l).toNat) ∧
    (∀ ty, ty.wide = false → Gives32 (.cvtfi h d a rm ty) d (fun c l => (fToInt ty (c.rm rm) (f32 (c.fp a l))).1.setWidth 32)
      (fun c => c.flags d (fun l => (fToInt ty (c.rm rm) (f32 (c.fp a l))).2))) ∧
    (∀ ty, ty.wide = true → Gives64 (.cvtfi h d a rm ty) d (fun c l => (fToInt ty (c.rm rm) (f32 (c.fp a l))).1)
      (fun c => c.flags d (fun l => (fToInt ty (c.rm rm) (f32 (c.fp a l))).2)))

/-- LXCH, AGREE, BALLOT, WRED, WSCAN, REBAL, CSAMP and RAND (R190 to R201): results over the lanes that are active. -/
def Obligations.CrossLane : Prop :=
  ∀ (h : Hdr) (d a b : Opd) (p q : Pr) (rm : Rm) (neg : Bool),
    (∀ m g, Gives (.lxch h d a b none m g) d (fun c l => c.w32 a ((c.lxFrom m g b l).getD l))) ∧
    (∀ m g, Acts (.lxch h d a b (some p) m g) (fun _ c wv =>
      c.wv.Got32 wv c.lanes d (fun l => c.w32 a ((c.lxFrom m g b l).getD l)) ∧ c.wv.GotP wv c.lanes p (fun l => (c.lxFrom m g b l).isSome) ∧
      wv.fflags = c.wv.fflags)) ∧
    (∀ k, GivesP (.agree h p q k neg) p (fun c _ =>
      let some_ := (List.range 32).any (fun l => c.lanes.getLsbD l && (c.p q.toNat l != neg))
      let all_ := (List.range 32).all (fun l => !c.lanes.getLsbD l || (c.p q.toNat l != neg))
      match k with | .every => all_ | .some => some_ | .same => all_ || !some_ | .none => !some_) (fun _ => 0)) ∧
    (∃ f : Ctx → Word, (∀ c i, i < 32 → (f c).getLsbD i = (c.lanes.getLsbD i && (c.p q.toNat i != neg))) ∧
      Gives (.ballot h d q false neg) d (fun c _ => f c) ∧
      Gives (.ballot h d q true neg) d (fun c _ => BitVec.ofNat 32 ((List.range 32).countP (fun i => (f c).getLsbD i)))) ∧
    (∀ op ty, Gives32 (.wred h d a rm op ty) d
      (fun c _ => (wtree op ty (c.rm rm) (byLane (fun l => if c.lanes.getLsbD l then some (c.wsrc ty a l) else none))).1.getD 0)
      (fun c => (wtree op ty (c.rm rm) (byLane (fun l => if c.lanes.getLsbD l then some (c.wsrc ty a l) else none))).2)) ∧
    (∀ op ty ex, Gives32 (.wscan h d a rm op ty ex) d
      (fun c l => (((wscan op ty (c.rm rm) ex (c.wsrc ty a) (lanesOf c.lanes) none).1.find? (·.1 == l)).map (·.2)).getD 0)
      (fun c => (wscan op ty (c.rm rm) ex (c.wsrc ty a) (lanesOf c.lanes) none).2)) ∧
    Gives64 (.rebal h d a b) d (fun c l =>
      let r := rebal (fun j => if c.lanes.getLsbD j then (c.w32 a j).toNat else 0) (c.w32 b l).toNat l
      r.2 ++ r.1) (fun _ => 0) ∧
    (let bad (c : Ctx) (l : Nat) : Bool := (f32 (c.fp a l)).isNan || decide ((f32 (c.fp a l)).cmp (.fin false 0 0) < 0)
     let ws (c : Ctx) : List Word := byLane (fun l => if c.lanes.getLsbD l && !bad c l then c.fp a l else 0)
     Gives32 (.csamp h d a b) d (fun c l => csamp (ws c) (prefixes (ws c) 0 0).1 (c.w32 b l))
      (fun c => if c.lanes = 0 then 0 else (prefixes (ws c) 0 0).2 ||| (if (lanesOf c.lanes).any (bad c) then fNV else 0)) ∧
     ∀ l q, (prefixes l q 0).2 &&& ~~~fOF = 0) ∧
    Gives (.rand h d a b false) d (fun c l => randHash (c.w32 a l) (c.w32 b l)) ∧
    (∃ f : Word → Word → Word, Gives (.rand h d a b true) d (fun c l => f (c.w32 a l) (c.w32 b l)) ∧
      ∀ x k, (f32 (f x k)).isNan = false ∧ (f32 (f x k)).sgn = false ∧ (f32 (f x k)).cmp (.fin false 1 0) < 0)

/-- ROLE, ROLE.id, ROLE.pos, ROLE.cnt (R39, R119), ENRD.bal (R431) and CSRR (R421, R404 to R406): what each reads of the machine. COREID is
Table 1.2's word for the team's core, ASIDV the team's ASID beside the device's DIR (R203), PCAP the team's; a partition register is that of
the team's own partition, or of PCAP.SEL where PCAP.VAL is set (R103), and TSAVE of the own partition the address of the wave's own frame
(R406). A CSRR of a number that Table 17.1 does not list is illegal and does not get here. -/
def Obligations.Identities : Prop :=
  ∀ (h : Hdr) (d a : Opd) (reg : BitVec 12),
    Gives (.role h d a) d (fun c l => match c.gg.binds[(c.w32 a l).toNat]? with | some b => BitVec.ofNat 32 b.core | none => 0xFFFFFFFF) ∧
    Gives (.roleId h d a) d (fun c l => match c.gg.binds[(c.w32 a l).toNat]? with | some b => BitVec.ofNat 32 b.coreid | none => 0xFFFFFFFF) ∧
    Gives (.rolePos h d a) d (fun c l => match c.gg.binds[(c.w32 a l).toNat]? with | some b => BitVec.ofNat 32 (b.y * 16 + b.x) | none => 0xFFFFFFFF) ∧
    Gives (.roleCnt h d) d (fun c _ => BitVec.ofNat 32 c.gg.kobj.roles.length) ∧
    Acts (.enrdBal h d) (fun s c wv => c.wv.Got64 wv c.lanes d (fun _ => BitVec.ofInt 64 (s.part c.tm.part).bal) ∧ c.wv.KeptPreds wv ∧ wv.fflags = c.wv.fflags) ∧
    Acts (.csrr h d reg) (fun s c wv => c.wv.KeptPreds wv ∧ wv.fflags = c.wv.fflags ∧
      c.wv.Got64 wv c.lanes d (fun _ => match reg.toNat with
        | 0x000 => c.wv.fmode | 0x001 => c.wv.fflags | 0x008 => c.wv.tcause | 0x009 => c.wv.taddr | 0x00A => c.wv.tregion
        | 0x010 =>
          let q := c.tm.core / 64
          let row := c.tm.core / 8 % 8
          let col := c.tm.core % 8
          BitVec.ofNat 64 (((q / 2 * 4 + row / 2) * 8 + (q % 2 * 4 + col / 2)) * 256 + q * 64 + row * 8 + col)
        | 0x011 => BitVec.ofNat 64 (c.tm.asid * 2 ^ 48) ||| s.asidDir
        | 0x012 => c.tm.pcap
        | n =>
          let p := if c.tm.pcap.getLsbD 63 then c.tm.pcap.toNat % 4 else c.tm.part
          match n with
          | 0x020 => (s.part p).pqmask | 0x021 => (s.part p).pways | 0x022 => (s.part p).pbws | 0x023 => (s.part p).pmbase | 0x024 => (s.part p).pmlim
          | 0x025 => (s.part p).milv | 0x026 => (s.part p).nbnd | 0x027 => (s.part p).prsv | 0x028 => (s.part p).prgn | 0x029 => (s.part p).energy
          | 0x02A => (s.part p).sltmo | 0x02B => (s.part p).tvec
          | 0x02C => if p = c.tm.part
              then BitVec.ofNat 64 ((s.part p).tsave.toNat / 4096 % 2 ^ 36 * 4096 + 0x4800 * (16 * c.tm.core + c.wv.slot)) else (s.part p).tsave
          | _ => s.csrRead c.tm c.wv n))

/-- The frame of every instruction that only computes: beyond the destination registers, predicates and flags that the statements
of its family name, the wave keeps what `Wave.KeptBut` lists, and no other wave, team, register or byte of memory changes; before
that, operand queues that it names are popped, which changes nothing else but what loads of deferred lanes do in memory and caches. -/
def Obligations.ComputeFrame : Prop :=
  ∀ i s c s', computes i = true → s.pre i = .go c s' →
    s.Popped s' c.tag ∧ (queuesOf i = [] → s' = s) ∧
    ∃ t wv, exec i s = .next t ∧ t.wave? c.tag c.w = some (Wave.settle 4 wv) ∧ c.wv.KeptBut wv ∧ s'.OnlyWave t c.tag c.w

/-- RCP, RSQ, SQRT, EXP2, LOG2, SIN, COS and TANH issue (R186, R134, R130): with an active thread, one operation becomes pending with its
result and flags, counted on e1, and no register changes yet; with none, nothing becomes pending. The wave's pipe holds the core's SFU for
one cycle, or for two with more than 16 threads in the bundle. The result of an operand that
Table 7.9 does not list is one of the values that the bound of Table 7.8 allows, with NX; which one is left open (log entry 6). -/
def Obligations.SfuIssue : Prop :=
  (∀ fn rm x, sfuSpecial fn (f32 x) = none → sfuValues fn x ≠ [] → (fSfu fn rm x).word ∈ sfuValues fn x ∧ (fSfu fn rm x).fl = fNX) ∧
  ∀ (h : Hdr) (d a : Opd) (rm : Rm) (i : Instr) (f : Ctx → Word → FR),
    ((i = .rcp h d a rm ∧ f = fun c x => fRcp (c.rm rm) (f32 x)) ∨ (i = .sqrt h d a rm ∧ f = fun c x => fSqrt (c.rm rm) (f32 x)) ∨
      (i = .rsq h d a ∧ f = fun c => fSfu 0 (c.rm .dyn)) ∨ (i = .exp2 h d a ∧ f = fun c => fSfu 1 (c.rm .dyn)) ∨ (i = .log2 h d a ∧ f = fun c => fSfu 2 (c.rm .dyn)) ∨
      (i = .sin h d a ∧ f = fun c => fSfu 3 (c.rm .dyn)) ∨ (i = .cos h d a ∧ f = fun c => fSfu 4 (c.rm .dyn)) ∨ (i = .tanh h d a ∧ f = fun c => fSfu 5 (c.rm .dyn))) →
    ActsTo i (fun _ _ => True) (fun s c t wv => c.wv.KeptRegs wv ∧ c.wv.KeptPreds wv ∧ wv.fflags = c.wv.fflags ∧
      (∃ x ∈ t.sfuBusy, x.core = c.tm.core ∧ x.pipe = c.wv.pipe ∧
        x.till = s.cycle + if (List.range 32).countP (fun l => c.b.mask.getLsbD l) ≤ 16 then 1 else 2) ∧
      (c.lanes = 0 → wv.pend = c.wv.pend ∧ ∀ n, wv.evr n = c.wv.evr n) ∧
      (c.lanes ≠ 0 → (∀ n, wv.evr n = if n = 1 then c.wv.evr 1 + 1 else c.wv.evr n) ∧
        ∃ q, wv.pend.getLast? = some q ∧ q.id = s.nextId ∧ q.instr = i ∧ q.ev = some 1 ∧ q.dsts = i.dstRegs ∧
          q.wr = wr1 c.lanes d (fun l => (f c (c.fp a l)).word) ∧ q.flags = c.flags d (fun l => (f c (c.fp a l)).fl)))

/-- Decode and encode agree: every instruction a wave can issue has a word, and the word of a well-formed instruction decodes to it,
with every operand at every value that its fields admit (R55 to R68). -/
def Obligations.DecodeOfEncode : Prop :=
  (∀ i, isEvent i = false → (encode i).isSome) ∧ (∀ i w, i.wf = true → encode i = some w → decode w = .ok i)

/-- Each word has one meaning: a word that decodes is the encoding of the well-formed instruction it decodes to, so no bit of an
accepted word is ignored. -/
def Obligations.EncodeOfDecode : Prop :=
  ∀ w i, decode w = .ok i → i.wf = true ∧ isEvent i = false ∧ encode i = some w

/-- The opcodes of Table 3.6 that hold no instruction are refused by the decoder whatever the other bits are, and no other. -/
def Obligations.ReservedOpcodes : Prop :=
  ∀ w : BitVec 64, decode w = .error .reservedOp ↔
    (let o := (w.extractLsb' 56 8).toNat
     ¬(o ≤ 0x0A ∨ (0x10 ≤ o ∧ o ≤ 0x2B) ∨ (0x30 ≤ o ∧ o ≤ 0x40) ∨ (0x50 ≤ o ∧ o ≤ 0x5D) ∨ (0x60 ≤ o ∧ o ≤ 0x68) ∨ (0x70 ≤ o ∧ o ≤ 0x77) ∨
       (0x80 ≤ o ∧ o ≤ 0x8E) ∨ (0xA0 ≤ o ∧ o ≤ 0xAB) ∨ (0xB0 ≤ o ∧ o ≤ 0xB8) ∨ (0xC0 ≤ o ∧ o ≤ 0xC8) ∨ (0xD0 ≤ o ∧ o ≤ 0xD4) ∨ (0xE0 ≤ o ∧ o ≤ 0xE5)))

/-- Words written out by hand from the manual's own examples decode to the instruction they stand for. -/
def Obligations.SpecEncodings : Prop :=
  decode 0x0107FC0000000005#64 = .ok (.bra { stall := 0, gn := false, gp := 127 } 5) ∧
  decode 0x1107F050102C0003#64 = .ok (.isub { stall := 0, gn := false, gp := 127 } (.v 5) (.v 1) (.v 2) .i32) ∧
  decode 0x1807F020102C0005#64 = .ok (.icmp { stall := 0, gn := false, gp := 127 } 2 (.v 1) (.v 2) true .lt) ∧
  decode 0x3307F0C010203000#64 = .ok (.ffma { stall := 0, gn := false, gp := 127 } (.v 12) (.v 1) (.v 2) (.v 3) .dyn) ∧
  decode 0x7307F860AC0C0090#64 = .ok (.wred { stall := 0, gn := false, gp := 127 } (.s 6) (.v 10) .dyn .max .f32) ∧
  decode 0xD007F0884C0C0000#64 = .ok (.launch { stall := 0, gn := false, gp := 127 } (.v 8) (.s 4)) ∧
  decode 0x0807FC0C0C0C0000#64 = .ok (.exit { stall := 0, gn := false, gp := 127 })

/-- A step lets one cycle pass, does the next pick of the fixed order, and then what the device does by itself (`State.wrapUp`): when a
wave that its pipe may choose (R130) is to issue and the word at its place decodes, the step is the meaning of that instruction for
that wave; an event occurs by its own meaning; a word that is no instruction raises the illegal-instruction trap when the wave may
issue (Table 3.7).
Where the manual leaves it open, this is the model's choice: log entries 2, 3 and 59. -/
def Obligations.StepRunsDecoded : Prop :=
  (∀ s tag w x i r, s.sched = .issue tag w :: r →
    let u : State := { s.tick with sched := r }
    u.maySelect exec tag w = true → u.nextWord tag w = some x → decode x = .ok i →
      step s = wrap (exec i { u with cur := some (tag, w) })) ∧
  (∀ s i r, s.sched = .event i :: r → isEvent i = true → step s = wrap (exec i { s.tick with sched := r })) ∧
  (∀ s tag w x e r, s.sched = .issue tag w :: r →
    let u : State := { s.tick with sched := r }
    u.maySelect exec tag w = true → u.nextWord tag w = some x → decode x = .error e → step s = .next (u.badWord tag w x).wrapUp) ∧
  (∀ s, s.sched = [] → step s = wrap (runFirst s.tick s.tick.picksNow)) ∧
  (∀ o : Outcome State Fault Refusal, ∀ t, wrap o = .next t ↔ ∃ u, o = .next u ∧ t = u.wrapUp) ∧
  (∀ s : State, s.tick.cycle = s.cycle + 1 ∧ s.tick.teams = s.teams ∧ s.tick.mem = s.mem)

/-- A word placed where the next step fetches is the word that the step runs (R127): from every state, and from reset.
Where the manual leaves it open, this is the model's choice: log entries 3 and 10. -/
def Obligations.FetchWordRuns : Prop :=
  ∀ (s : State) (nbits w : Nat) (i : Instr), decodeTableWord nbits w = some i → isEvent i = false →
    ∃ u : State, step (s.withFetchWord nbits w) = wrap (exec i u) ∧ u.cur = some (1, 0) ∧ (u.ctx? i).isSome

/-- The checks at the issue of an instruction (R72, R53, R133, R32, R415, R134, R130): a wave that may not issue now waits;
then illegal instruction (0x01), privilege (0x05), a result that is not ready (0x03) or an overwritten live-in (0x04) under CHK, a
poisoned register (0x15) are taken as traps at the word's address before anything else happens; a full event counter waits, and so does
an SFU instruction while another pipe of the core holds the SFU. Past all of them the instruction goes on with the operands as they
stand. The manual puts 0x01 first and 0x05 second (R72); that 0x03 comes before 0x04, 0x04 before 0x15 and the waits after all of them is the
model's order (log entry 65), and what counts as an overwritten live-in (`Ctx.clobbers`) rests on log entries 19 and 32.
Where the manual leaves it open, this is the model's choice: log entries 19, 32 and 65. -/
def Obligations.IssueChecks : Prop :=
  ∀ i s c, s.ctx? i = some c →
    let trap (cause : Nat) : Outcome State Fault Refusal := .next (s.takeTrap c.tag c.w c.b.mask
      { cause := cause, lanes := c.lanes, addr := c.site, region := c.firstClause, after := false, faddr := 0 })
    let may := c.gg.st = .placed ∧ c.wv.ready ≤ s.cycle ∧ c.wv.blocked = false
    (¬may → exec i s = .next s) ∧
    (may → c.illegal i = true → exec i s = trap 0x01) ∧
    (may → c.illegal i = false → c.denied i = true → exec i s = trap 0x05) ∧
    (may → c.illegal i = false → c.denied i = false → c.early i = true → exec i s = trap 0x03) ∧
    (may → c.illegal i = false → c.denied i = false → c.early i = false → c.clobbers i = true → exec i s = trap 0x04) ∧
    (may → c.illegal i = false → c.denied i = false → c.early i = false → c.clobbers i = false → c.readsPoison i = true → exec i s = trap 0x15) ∧
    (may → c.illegal i = false → c.denied i = false → c.early i = false → c.clobbers i = false → c.readsPoison i = false →
      (∀ n, c.lanes ≠ 0 → i.counted = some n → 63 ≤ c.wv.evr n → exec i s = .next s) ∧
      (∀ x ∈ s.sfuBusy, isSfu i = true → x.core = c.tm.core → x.pipe ≠ c.wv.pipe → s.cycle < x.till → exec i s = .next s) ∧
      ((c.lanes = 0 ∨ ∀ n, i.counted = some n → c.wv.evr n < 63) → s.sfuHeld c i = false →
        ((c.lanes = 0 ∨ queuesOf i = []) → ∃ l, s.pre i = .go { c with pops := l } s) ∧
        (∀ e, State.popAll c (queuesOf i) s = .error e → c.lanes ≠ 0 → exec i s = .next (s.stop c e))))

/-- In a wave that is not in system mode, a privileged instruction, or a CSRW of a register that only system mode writes, changes
nothing but by trap 0x05, if it is a legal instruction (R403, R404, R423). -/
def Obligations.PrivilegedInstructions : Prop :=
  ∀ i s c, s.ctx? i = some c → c.gg.st = .placed → c.wv.ready ≤ s.cycle → c.wv.blocked = false → c.illegal i = false → c.tm.sys = false → c.wv.handler = false →
    (i.privileged = true ∨ ∃ n, csrOf i = some (n, true) ∧ csrSys n = true) →
    exec i s = .next (s.takeTrap c.tag c.w c.b.mask
      { cause := 0x05, lanes := c.lanes, addr := c.site, region := c.firstClause, after := false, faddr := 0 })

/-- What reset leaves (R102, Tables 4.4 to 4.7, 5.1 to 5.10, 16.3): partition 0 holds the device, the other partitions are inactive,
every queue is disabled, the first event number is 1, and nothing is placed.
Where the manual leaves it open, this is the model's choice: log entries 1, 9 and 20. -/
def Obligations.ResetState : Prop :=
  let s := State.reset
  (s.parts.length = 4 ∧ (s.part 0).pqmask = 0xF ∧ (s.part 1).pqmask = 0 ∧ (s.part 2).pqmask = 0 ∧ (s.part 3).pqmask = 0) ∧
  ((s.part 0).pmbase = 0 ∧ (s.part 0).pmlim = 0x1000000000 ∧ (s.part 0).milv = 0xFFFF ∧ (s.part 0).pways = 0xFFFF) ∧
  (∀ p, p < 4 → (s.part p).eseq = 1 ∧ (s.part p).tvec = 0 ∧ (s.part p).fqcfg = 0 ∧ (s.part p).cqcfg = 0 ∧ (s.part p).eqcfg = 0 ∧ (s.part p).sltmo = 100000 ∧
    (s.part p).queues.length = 64 ∧ ∀ q ∈ (s.part p).queues, q.cfg = 0 ∧ q.idx = 0 ∧ q.stat = 0) ∧
  (s.asidDir = 0 ∧ s.dstat = 0 ∧ s.msixMask = 0 ∧ s.teams = [] ∧ s.gangs = [] ∧ s.grids = [] ∧ s.lines = [] ∧ s.copies = [] ∧ s.keys = [])

/-- The invariant holds at reset.
Where the manual leaves it open, this is the model's choice: log entry 1. -/
def Obligations.ResetInvariant : Prop := Machine.Inv State.reset

/-- Memory by physical address: a byte read back is the byte last written there, a write changes no byte of another cell, and the
canonical form stays (R202, R465).
Where the manual leaves it open, this is the model's choice: log entries 1, 4, 25 and 54. -/
def Obligations.MemoryReadsWhatWasWritten : Prop :=
  (∀ (s : State) pa b, (s.memPut pa b).memAt pa = b) ∧
  (∀ (s : State) pa qa b, pa ≠ qa → s.cell pa ≠ s.cell qa → (s.memPut pa b).memAt qa = s.memAt qa) ∧
  (∀ (s : State) pa b, Machine.Inv s → Machine.Inv (s.memPut pa b)) ∧
  (∀ (s : State) pa l j, (∀ i k, i < l.length → k < l.length → s.cell (pa + i) = s.cell (pa + k) → i = k) → j < l.length →
    (s.physWrite pa l).memAt (pa + j) = l.getD j 0) ∧
  (∀ m n : Memory, m.wf = true → n.wf = true → (∀ a, m.read a = n.read a) → m = n)

/-- The interleave (R110, R465; that no address of one active range shares a place with another also where MILV.MASK is 0 rests on log
entry 18, and that a byte outside every range is named by its own address on log entry 25): outside every active range the fixed device interleave holds, so a cell is its own address, and
within the range of an active partition two addresses never reach one place of one controller; the controllers that a range
reaches are those of its mask. -/
def Obligations.InterleaveOfMemory : Prop :=
  (∀ (s : State) pa, s.rangeOf pa = none → s.interleave pa = (pa / 256 % 16, pa / 256 / 16 * 256 + pa % 256)) ∧
  (∀ (s : State) pa, s.rangeOf pa = none → pa < devLimit → s.cell pa = pa) ∧
  (∀ pa, pa < devLimit → State.reset.interleave pa = (pa / 256 % 16, pa / 256 / 16 * 256 + pa % 256)) ∧
  (∀ (s : State) pa qa p, s.rangeOf pa = some p → s.rangeOf qa = some p → s.interleave pa = s.interleave qa → pa = qa) ∧
  (∀ (s : State) pa p, s.rangeOf pa = some p → (s.part p).milv.toNat % 65536 ≠ 0 → (s.part p).milv.getLsbD (s.interleave pa).1 = true) ∧
  (∀ (s : State) pa p, s.rangeOf pa = some p → s.active p = true ∧ (s.part p).pmbase.toNat ≤ pa ∧ pa < (s.part p).pmlim.toNat ∧
    ∀ q, q < p → ¬(s.active q = true ∧ (s.part q).pmbase.toNat ≤ pa ∧ pa < (s.part q).pmlim.toNat))

/-- Isolation of partitions and modes (R111, R202, R204, R207 to R209, Table 9.3; which lookaside buffer is asked, and what its entries hold, is
log entry 23's choice): a page of device memory that does not lie in the partition's range
whole is a protection fault unless it is a hand-off page; an address that an access of a core or an agent gets is one that its page
allows, from the cached line that it hits, which is one of its own partition, or else from the controller's lookaside buffer or the
tables; an address of 2^48 or more, or a directory entry that is not present, is a protection fault. -/
def Obligations.TranslationStaysInRange : Prop :=
  ∀ (s : State) core p asid va sys k,
    (∀ frame size a, frame < devLimit → a.home ≠ 2#2 → (frame < (s.part p).pmbase.toNat ∨ (s.part p).pmlim.toNat < frame + size) →
      s.leaf p va sys k (.leaf frame size a) = .prot) ∧
    (∀ pa a, s.leaf p va sys k (s.lookup p asid va) = .ok pa a →
      (a.sys = true → sys = true) ∧ (k = .write → a.w = true) ∧ (k = .fetch → a.x = true) ∧
      (pa < devLimit → a.home ≠ 2#2 → (s.part p).pmbase.toNat ≤ pa ∧ pa < (s.part p).pmlim.toNat)) ∧
    (2 ^ 48 ≤ va → s.translateBy core p asid va sys k = .prot) ∧
    (va < 2 ^ 48 → s.tagLine core p asid va = none → s.translateBy core p asid va sys k = s.leaf p va sys k (s.lookup p asid va)) ∧
    (∀ l pa a, s.tagLine core p asid va = some l → s.translateBy core p asid va sys k = .ok pa a →
      l.part = p ∧ l.asid = asid ∧ a = l.attr ∧ pa = l.pa + va % 256 ∧ (a.sys = true → sys = true) ∧ (k = .write → a.w = true) ∧ (k = .fetch → a.x = true)) ∧
    (s.tlbHit p asid va = none → s.lookup p asid va = s.walk asid va) ∧
    ((s.entry (s.asidDir.toNat + 8 * asid)) % 2 = 0 → s.walk asid va = .prot)

/-- The home of a line and of a sluice key is one of the slices of the partition's home blocks (R112, R384): for m blocks there are
16 m, in ascending order.
Where the manual leaves it open, this is the model's choice: log entry 18. -/
def Obligations.HomeSlices : Prop :=
  (∀ homes sl, sl ∈ homeSlices homes ↔ sl < 64 ∧ homes.testBit (sl / 32 * 2 + sl % 8 / 4) = true) ∧
  (∀ homes, homes < 16 → (homeSlices homes).length = 16 * popc homes 4) ∧
  (∀ (s : State) p asid va, (s.part p).nbnd.toNat % 16 ≠ 0 → s.homeVa p asid va ∈ homeSlices ((s.part p).nbnd.toNat % 16)) ∧
  (∀ (s : State) p k, (s.part p).nbnd.toNat % 16 ≠ 0 → s.homeKey p k ∈ homeSlices ((s.part p).nbnd.toNat % 16))

/-- Entering a trap (R407, R410): when the handler is enabled, the wave is not in handler mode, nothing of it is pending, its gang
is placed and its frame can be written, the registers save the cause, lanes, address and region, every thread stands at the
handler, and the wave is in handler mode; without a handler, or in handler mode, the gang is torn down with the flags that say
why.
Where the manual leaves it open, this is the model's choice: log entries 29 and 30. -/
def Obligations.TrapEntry : Prop :=
  ∀ (s : State) tag w t wv q g, s.team? tag = some t → t.wave? w = some wv → wv.trapQ = some q → s.gang? t.gid = some g →
    (g.st ≠ .placed → q.late = true ∨ g.st ≠ .leaving → s.enterTrap tag w = s) ∧
    (g.st = .placed → wv.handler = true → s.enterTrap tag w = s.teardown t.gid tag q.cause (if (s.part t.part).tvec.getLsbD 0 then 2 else 6) q.addr.toNat) ∧
    (g.st = .placed → wv.handler = false → (s.part t.part).tvec.getLsbD 0 = false → s.enterTrap tag w = s.teardown t.gid tag q.cause 4 q.addr.toNat) ∧
    (g.st = .placed → wv.handler = false → (s.part t.part).tvec.getLsbD 0 = true → wv.pend = [] →
      s.writeFrame t (s.frameAddr t wv) wv q.faddr g.kobj.vregs g.kobj.sregs = none → s.enterTrap tag w = s.teardown t.gid tag q.cause 12 q.addr.toNat) ∧
    (∀ u, g.st = .placed → wv.handler = false → (s.part t.part).tvec.getLsbD 0 = true → wv.pend = [] →
      s.writeFrame t (s.frameAddr t wv) wv q.faddr g.kobj.vregs g.kobj.sregs = some u →
      ∃ wv', (s.enterTrap tag w).wave? tag w = some wv' ∧ wv'.handler = true ∧ wv'.trapQ = none ∧
        wv'.tcause = BitVec.ofNat 64 (q.lanes.toNat * 2 ^ 32 + (if q.after then 256 else 0) + q.cause) ∧
        wv'.taddr = q.addr &&& 0xFFFFFFFFFFFF#64 ∧ wv'.tregion = q.region &&& 0xFFFFFFFFFFFF#64 ∧
        (∀ n, n < 32 → (wv'.thread n).pc = (s.part t.part).tvec &&& 0xFFFFFFFFFFF8#64 ∧ (wv'.thread n).exited = false) ∧
        wv'.v = wv.v ∧ wv'.s = wv.s ∧ wv'.p = wv.p ∧ wv'.lc = wv.lc ∧ wv'.fmode = wv.fmode ∧ wv'.fflags = wv.fflags)

/-- The frame's words are read back as written (Table 17.7, R420): the PC word of a thread whose address is aligned and below 2^48,
and a loop entry of it.
Where the manual leaves it open, this is the model's choice: log entry 29. -/
def Obligations.FrameWords : Prop :=
  (∀ (j : Bool) (t : Thread), t.pc.toNat % 8 = 0 → t.pc.toNat < 2 ^ 48 → (∀ x, t.hold = some x → x.1 < 4) → threadOf (framePc j t) = t) ∧
  (∀ (e : Loop), e.start.toNat < 2 ^ 48 → e.k < 4 → loopOf (frameLoop e) = some e) ∧
  (∀ (j : Bool) (t : Thread), bit (framePc j t) 2 = j) ∧
  (∀ (n : Nat) (x : Nat), x < 256 ^ n → ofBytes (toBytes n x) = x)

/-- NOP (R152), and what every issue does around its effect (R57, R127): the wave issues nothing for STALL cycles after this one, the
bundle moves to the next word of its clause, or after the last one its threads move to the next clause, and nothing else changes. -/
def Obligations.IssueBookkeeping : Prop :=
  ∀ h : Hdr, Acts (.nop h) (fun s c wv => c.wv.Quiet wv ∧ c.wv.KeptBut wv ∧
    wv.ready = s.cycle + h.stall.toNat + 1 ∧
    (c.b.ix + 1 < c.b.words.length → wv.bundle = some { c.b with ix := c.b.ix + 1 } ∧ wv.thr = c.wv.thr) ∧
    (c.b.words.length ≤ c.b.ix + 1 → wv.bundle = none ∧ (c.wv.thr.length = 32 → ∀ n, n < 32 →
      wv.thread n = if c.b.mask.getLsbD n then { c.wv.thread n with pc := c.b.h + BitVec.ofNat 64 (8 * (c.b.words.length + 1)) } else c.wv.thread n)))

/-- BRA, CALL, BRX and RET (R145, R59): the active threads get the target as PC, CALL writes the address of the next clause; an
indirect target that is misaligned takes trap 0x06, else one with bits [63:48] takes trap 0x08, in the first such lane. -/
def Obligations.Branches : Prop :=
  ∀ (h : Hdr) (d a : Opd) (off : BitVec 32),
    let tgt (c : Ctx) (wv : Wave) (f : Nat → DWord) : Prop :=
      c.wv.thr.length = 32 → ∀ n, n < 32 → (wv.thread n).exited = (c.wv.thread n).exited ∧
        (wv.thread n).pc = if c.lanes.getLsbD n then f n
          else if c.b.words.length ≤ c.b.ix + 1 ∧ c.b.mask.getLsbD n then c.b.h + BitVec.ofNat 64 (8 * (c.b.words.length + 1)) else (c.wv.thread n).pc
    Acts (.bra h off) (fun _ c wv => c.wv.Quiet wv ∧ tgt c wv (fun _ => c.b.h + (off.signExtend 64 <<< 3))) ∧
    Acts (.call h d off) (fun _ c wv => c.wv.Got64 wv c.lanes d (fun _ => c.b.h + BitVec.ofNat 64 (8 * (c.b.words.length + 1))) ∧
      c.wv.KeptPreds wv ∧ wv.fflags = c.wv.fflags ∧ tgt c wv (fun _ => c.b.h + (off.signExtend 64 <<< 3))) ∧
    (∀ i, i = .brx h a ∨ i = .ret h a →
      ActsIf i (fun _ c => ∀ l ∈ lanesOf c.lanes, (c.w64 a l).toNat % 8 = 0 ∧ (c.w64 a l).toNat < 2 ^ 48)
        (fun _ c wv => c.wv.Quiet wv ∧ tgt c wv (fun l => c.w64 a l)) ∧
      (∀ l, TrapsIf i (fun _ c => (lanesOf c.lanes).find? (fun k => (c.w64 a k).toNat % 8 ≠ 0) = some l) 0x06 (fun c => (c.w64 a l).toNat)) ∧
      (∀ l, TrapsIf i (fun _ c => (∀ k ∈ lanesOf c.lanes, (c.w64 a k).toNat % 8 = 0) ∧
        (lanesOf c.lanes).find? (fun k => 2 ^ 48 ≤ (c.w64 a k).toNat) = some l) 0x08 (fun c => (c.w64 a l).toNat)))

/-- LOOP, LEXIT (R147, R148), JOIN (R146) and WAIT (R151). -/
def Obligations.LoopsJoinsAndWaits : Prop :=
  ∀ (h : Hdr) (k : Fin 3) (off : BitVec 32) (n : BitVec 4) (mask : BitVec 8),
    let fin (c : Ctx) : DWord := c.b.h + (off.signExtend 64 <<< 3)
    let ok (c : Ctx) : Prop := (c.next.toNat : Int) < c.b.h.toNat + 8 * off.toInt ∧ c.wv.loops.length < 3 ∧ ∀ e ∈ c.wv.loops, e.k ≠ k.val
    let traps (i : Instr) (P : Ctx → Prop) : Prop := ∀ s c, s.ctx? i = some c → c.gg.st = .placed → c.wv.ready ≤ s.cycle → c.wv.blocked = false → P c →
      exec i s = .next (s.takeTrap c.tag c.w c.b.mask
        { cause := 0x01, lanes := c.lanes, addr := c.site, region := c.firstClause, after := false, faddr := 0 })
    traps (.loop h (.lc k) off) (fun c => ¬ok c) ∧
    ActsIf (.loop h (.lc k) off) (fun _ c => c.lc k.val = 0) (fun _ c wv => c.wv.Quiet wv ∧ wv.loops = c.wv.loops ∧
      (c.wv.thr.length = 32 → ∀ t, t < 32 → c.b.mask.getLsbD t → (wv.thread t).pc = fin c)) ∧
    ActsIf (.loop h (.lc k) off) (fun _ c => c.lc k.val ≠ 0) (fun _ c wv => c.wv.Quiet wv ∧
      wv.loops = c.wv.loops ++ [{ start := c.next, fin := fin c, k := k.val }] ∧
      (c.wv.thr.length = 32 → ∀ t, t < 32 → c.b.mask.getLsbD t → (wv.thread t).pc = c.next ∧ (wv.thread t).mem.getLsbD c.wv.loops.length = true)) ∧
    traps (.lexit h off) (fun c => c.wv.loops = []) ∧
    Acts (.lexit h off) (fun _ c wv => c.wv.Quiet wv ∧ wv.loops = c.wv.loops ∧
      (c.wv.thr.length = 32 → ∀ t, t < 32 → c.lanes.getLsbD t →
        (wv.thread t).pc = fin c ∧ (wv.thread t).hold = some (c.wv.loops.length - 1, true))) ∧
    Acts (.join h) (fun _ c wv => c.wv.Quiet wv ∧
      ∀ sl, sl < 8 → wv.joining.getLsbD sl = (c.wv.joining.getLsbD sl || decide (c.b.mask &&& sliceMask sl ≠ 0))) ∧
    Acts (.wait h n mask) (fun _ c wv => c.wv.Quiet wv ∧ wv.waitCnt = some (mask, n.toNat)) ∧
    (∀ wv : Wave, wv.waitCnt = some (mask, n.toNat) → (∃ j, j < 8 ∧ mask.getLsbD j = true ∧ n.toNat < wv.evr j) → wv.blocked = true)

/-- The region-ending instructions without a check of their own (Table 2.3, R34, R464): each ends the runs of its bundle with the
operand values it read at issue, and performs at their commit.
Where the manual leaves it open, this is the model's choice: log entry 15. -/
def Obligations.RegionEndingIssue : Prop :=
  ∀ (h : Hdr) (d a b : Opd) (sc : Scope) (od : Ord) (imm : BitVec 32),
    let any : State → Ctx → Prop := fun _ _ => True
    let no : Ctx → List DWord := fun _ => []
    let keys : Ctx → List DWord := fun c => byLane (fun l => c.w64 a l)
    let vals : Ctx → List DWord := fun c => byLane (fun l => (c.w32 b l).setWidth 64)
    Ends (.exit h) any no no no ∧ Ends (.yield h) any no no no ∧ Ends (.fence h sc od) any no no no ∧
    Ends (.trap h imm) any no no no ∧ Ends (.rte h) any no no no ∧ Ends (.wchild h d) any no no no ∧
    Ends (.bar h a) any (fun c => byLane (fun _ => c.w64 a 0)) no no ∧ Ends (.nbar h a) any (fun c => byLane (fun _ => c.w64 a 0)) no no ∧
    Ends (.gsig h d a) any (fun c => [(c.w32 a (lowest c.lanes)).setWidth 64]) no no ∧
    Ends (.slin h d a b) any keys vals no ∧ Ends (.slout h d a) any keys no no ∧ Ends (.sloutLast h d a) any keys no no ∧
    Ends (.slqry h d a) any keys no no ∧ Ends (.slrst h d a b) any keys vals no ∧ Ends (.slrstDel h d a) any keys no no

/-- ATOM, ACAS and RED at issue (R363, R366): an accessing lane whose address is misaligned takes trap 0x06, else one whose address
is 2^48 or above takes trap 0x08; otherwise the runs end with the addresses and data of every lane.
Where the manual leaves it open, this is the model's choice: log entry 34. -/
def Obligations.AtomicsIssue : Prop :=
  ∀ (h : Hdr) (d a b : Opd) (op : AtomOp) (ty : MTy) (sc : Scope) (od : Ord) (i : Instr) (ls : Ctx → List Nat) (y z : Ctx → Nat → DWord),
    ((i = .atom h d a b op ty sc od ∧ ls = (fun c => c.accLanes d) ∧ y = (fun c l => c.atB ty b l) ∧ z = fun _ _ => 0) ∨
     (i = .red h a b op ty sc od ∧ ls = (fun c => lanesOf c.lanes) ∧ y = (fun c l => c.atB ty b l) ∧ z = fun _ _ => 0) ∨
     (∃ n, b = .v n ∧ ty = .b32 ∧ i = .acas h d a b ty sc od ∧ ls = (fun c => c.accLanes d) ∧
       y = (fun c l => (c.v n.toNat l).setWidth 64) ∧ z = fun c l => (c.v (n.toNat + 1) l).setWidth 64) ∨
     (∃ n, b = .v n ∧ ty ≠ .b32 ∧ i = .acas h d a b ty sc od ∧ ls = (fun c => c.accLanes d) ∧
       y = (fun c l => c.v (n.toNat + 1) l ++ c.v n.toNat l) ∧ z = fun c l => c.v (n.toNat + 3) l ++ c.v (n.toNat + 2) l) ∨
     (∃ n, b = .s n ∧ ty ≠ .b32 ∧ i = .acas h d a b ty sc od ∧ ls = (fun c => c.accLanes d) ∧
       y = (fun c _ => c.s n.toNat) ∧ z = fun c _ => c.s (n.toNat + 1)) ∨
     (∃ n, b = .s n ∧ ty = .b32 ∧ i = .acas h d a b ty sc od ∧ ls = (fun c => c.accLanes d) ∧
       y = (fun c _ => ((c.s n.toNat).setWidth 32 : Word).setWidth 64) ∧ z = fun c _ => ((c.s (n.toNat + 1)).setWidth 32 : Word).setWidth 64)) →
    (∀ l, TrapsIf i (fun _ c => (ls c).find? (fun k => (c.w64 a k).toNat % ty.size ≠ 0) = some l) 0x06 (fun c => (c.w64 a l).toNat)) ∧
    (∀ l, TrapsIf i (fun _ c => (∀ k ∈ ls c, (c.w64 a k).toNat % ty.size = 0) ∧ (ls c).find? (fun k => 2 ^ 48 ≤ (c.w64 a k).toNat) = some l)
      0x08 (fun c => (c.w64 a l).toNat)) ∧
    Ends i (fun _ c => ∀ k ∈ ls c, (c.w64 a k).toNat % ty.size = 0 ∧ (c.w64 a k).toNat < 2 ^ 48)
      (fun c => byLane (c.w64 a)) (fun c => byLane (y c)) (fun c => byLane (z c))

/-- The value an atomic stores and the one it returns (R363 to R365, Table 15.1), lane by lane in the order named: the word of one lane
is read at the home of the scope, its old value is the lane's result, and the home gets the new value; ACAS stores only where the
comparison holds; a RED is applied at its home and returns nothing; poison stops with cause 0x09, a host that refuses with 0x08.
Where the manual leaves it open, this is the model's choice: log entries 4, 13 and 27. -/
def Obligations.AtomicValues : Prop :=
  (∀ (o b : DWord), (atomNew .add .b64 o b).1 = o + b ∧ (atomNew .exch .b64 o b).1 = b ∧ (atomNew .and .b64 o b).1 = o &&& b ∧
    (atomNew .or .b64 o b).1 = o ||| b ∧ (atomNew .xor .b64 o b).1 = o ^^^ b ∧
    (atomNew .min .b64 o b).1 = (if o.ule b then o else b) ∧ (atomNew .max .b64 o b).1 = (if b.ult o then o else b) ∧
    (atomNew .min .i64 o b).1 = (if o.sle b then o else b) ∧ (atomNew .max .i64 o b).1 = (if b.slt o then o else b)) ∧
  (∀ (o b : Word), (atomNew .add .b32 (o.setWidth 64) (b.setWidth 64)).1 = (o + b).setWidth 64 ∧
    (atomNew .inc .b32 (o.setWidth 64) (b.setWidth 64)).1 = (if b.ule o then 0 else o + 1 : Word).setWidth 64 ∧
    (atomNew .dec .b32 (o.setWidth 64) (b.setWidth 64)).1 = (if o = 0 ∨ b.ult o then b else o - 1 : Word).setWidth 64 ∧
    (atomNew .exch .b32 (o.setWidth 64) (b.setWidth 64)).1 = b.setWidth 64 ∧ (atomNew .and .b32 (o.setWidth 64) (b.setWidth 64)).1 = (o &&& b).setWidth 64 ∧
    (atomNew .or .b32 (o.setWidth 64) (b.setWidth 64)).1 = (o ||| b).setWidth 64 ∧ (atomNew .xor .b32 (o.setWidth 64) (b.setWidth 64)).1 = (o ^^^ b).setWidth 64 ∧
    (atomNew .min .b32 (o.setWidth 64) (b.setWidth 64)).1 = (if o.ule b then o else b).setWidth 64 ∧
    (atomNew .max .b32 (o.setWidth 64) (b.setWidth 64)).1 = (if b.ult o then o else b).setWidth 64 ∧
    (atomNew .add .i32 (o.setWidth 64) (b.setWidth 64)).1 = (o + b).setWidth 64 ∧
    (atomNew .min .i32 (o.setWidth 64) (b.setWidth 64)).1 = (if o.sle b then o else b).setWidth 64 ∧
    (atomNew .max .i32 (o.setWidth 64) (b.setWidth 64)).1 = (if b.slt o then o else b).setWidth 64 ∧
    (atomNew .add .f32 (o.setWidth 64) (b.setWidth 64)).1 = (fAdd fp32 0 (f32 o) (f32 b)).word.setWidth 64 ∧
    (atomNew .min .f32 (o.setWidth 64) (b.setWidth 64)).1 = (fMinMax fp32 false o.toNat b.toNat).word.setWidth 64 ∧
    (atomNew .max .f32 (o.setWidth 64) (b.setWidth 64)).1 = (fMinMax fp32 true o.toNat b.toNat).word.setWidth 64) ∧
  (∀ (s : State) t sys (e : EndOp) (f : AtomForm) l pa at_,
    let va := (e.x.getD l 0).toNat
    s.translateBy (some t.core) t.part t.asid va sys .write = .ok pa at_ →
    let refused : Prop := f.sc = .sys ∧ isHost pa = true ∧ Config.hostRefuses s.free pa = true
    (f.red = false → ¬refused →
      let s1 := s.touch (f.via t pa) t.part t.asid va f.ty.size sys .write true
      (∀ bs, s1.readBy (f.via t pa) t.part t.asid va f.ty.size sys .write = .ok bs →
        let old := BitVec.ofNat 64 (ofBytes bs)
        let put (x : DWord) : State := ((s1.writeBy (f.via t pa) t.part t.asid va sys (toBytes f.ty.size x.toNat)).tableWrite t.asid va f.ty.size).spoilBytes
          (atomBytes t f va)
        (∀ op, f.op = some op → (s.atomLanes t sys e f [l]).1 = put (atomNew op f.ty old (e.y.getD l 0)).1) ∧
        (f.op = none → (s.atomLanes t sys e f [l]).1 = if old = e.y.getD l 0 then put (e.z.getD l 0) else s1) ∧
        (s.atomLanes t sys e f [l]).2.1 = [(l, old)] ∧ (s.atomLanes t sys e f [l]).2.2.2 = none) ∧
      (∀ x, s1.readBy (f.via t pa) t.part t.asid va f.ty.size sys .write = .error x → s.atomLanes t sys e f [l] = (s, [], 0, some (l, 0x09)))) ∧
    (f.red = false → refused → s.atomLanes t sys e f [l] = (s, [], 0, some (l, 0x08))) ∧
    (∀ op, f.red = true → f.op = some op → ¬refused →
      s.atomLanes t sys e f [l] = ((((s.tlbFill (some t.core) t.part t.asid va).tableWrite t.asid va f.ty.size).spoilBytes (atomBytes t f va)).redAt (f.via t pa) (Tgt.of t.part t.asid va pa at_)
        { loc := .slice 0, part := t.part, asid := t.asid, va := va, sys := sys, op := op, ty := f.ty, x := e.y.getD l 0 }, [], 0, none))) ∧
  (∀ (s : State) t sys (e : EndOp) (f : AtomForm) l ls, (s.atomLanes t sys e f [l]).2.2.2 = none →
    (s.atomLanes t sys e f (l :: ls)).1 = ((s.atomLanes t sys e f [l]).1.atomLanes t sys e f ls).1 ∧
    (s.atomLanes t sys e f (l :: ls)).2.1 = (s.atomLanes t sys e f [l]).2.1 ++ ((s.atomLanes t sys e f [l]).1.atomLanes t sys e f ls).2.1)

/-- SEND and RECV at issue (R377, R380): a launder that the kernel does not declare, or whose end is another position, is trap 0x10,
a scratch address that is not a multiple of 16 trap 0x06, a slot beyond the scratch trap 0x08; otherwise the runs end with the
scratch address.
Where the manual leaves it open, this is the model's choice: log entry 38. -/
def Obligations.LaunderIssue : Prop :=
  ∀ (h : Hdr) (d a : Opd) (n : BitVec 4) (send : Bool) (i : Instr), i = (if send then .send h d a n else .recv h d a n) →
    let o (c : Ctx) : Nat := (c.w64 a (lowest c.lanes)).toNat % 2 ^ 32
    let mine (c : Ctx) (ld : LaunderDecl) : Prop := c.gg.kobj.launders[n.toNat]? = some ld ∧
      c.gg.kobj.posOf (if send then ld.src else ld.dst) = some c.tm.pos
    TrapsIf i (fun _ c => c.lanes ≠ 0 ∧ ∀ ld, ¬mine c ld) 0x10 (fun _ => 0) ∧
    TrapsIf i (fun _ c => c.lanes ≠ 0 ∧ (∃ ld, mine c ld) ∧ o c % 16 ≠ 0) 0x06 (fun c => o c) ∧
    TrapsIf i (fun _ c => c.lanes ≠ 0 ∧ o c % 16 = 0 ∧ ∃ ld, mine c ld ∧ c.gg.kobj.scrLen < o c + ld.size) 0x08 (fun c => o c) ∧
    Ends i (fun _ c => c.lanes ≠ 0 ∧ o c % 16 = 0 ∧ ∃ ld, mine c ld ∧ o c + ld.size ≤ c.gg.kobj.scrLen)
      (fun c => [BitVec.ofNat 64 (o c)]) (fun _ => []) (fun _ => []) ∧
    Ends i (fun _ c => c.lanes = 0) (fun _ => []) (fun _ => []) (fun _ => [])

/-- REGION_COMMIT (R34, R35, R463, R464): the ended runs of a placed team whose operations have completed. CPY, BEAM and LAUNCH, which read once
for their bundle, commit the runs of the bundle's other slices first (log entry 15). Where step 2 finds a cause, the commit stops there; otherwise, with no region-ending instruction or one with nothing to wait for, it answers a next state in which the
stores of the runs have become visible and the runs are gone: runs that a clause ended do nothing more; YIELD marks its wave, TRAP
takes trap 0x12 after the clause, and EXIT ends its threads; SLIN, SEND and RECV wait until their wait is over.
Where the manual leaves it open, this is the model's choice: log entries 4, 15, 16, 43, 50 and 56. -/
def Obligations.RegionCommit : Prop :=
  ∀ (s : State) tag w sl t wv g, s.team? tag = some t → t.wave? w = some wv → wv.ix = w → t.tag = tag → wv.group sl = some g →
    s.placed t = true → t.retired = false → wv.drained g = true →
    let sys := t.sys || wv.handler
    let finds (u : State) (x : Wave) (y : Grp) : List Found := y.rs.flatMap (fun r => u.foundStores t sys y.rs r ++ u.foundTex t sys r)
      ++ y.acts.elim [] (fun e => u.foundOwn (u.ownView t sys y e) t x sys y e)
    let found := finds s wv g
    let waits (i : Instr) : Bool := match i with
      | .slin .. | .slrst .. | .slrstDel .. | .slqry .. | .send .. | .recv .. | .gsig .. => true | _ => false
    let plain := ∀ r ∈ g.rs, r.tex = [] ∧ r.bdone = [] ∧ ∀ b ∈ (s.part t.part).shadows, b.resBy ≠ some r.rid
    let gone (u : State) : Prop := u.mem = (s.visible t sys g.rs).mem ∧ u.lines = (s.visible t sys g.rs).lines ∧
      ∃ v, u.wave? tag w = some (Wave.settle 4 v) ∧ ∀ r ∈ v.regions, r.rid ∉ g.rids
    (g.ahead = none → found ≠ [] → exec (.regionCommit tag w sl) s = .next (s.commitStop t w found)) ∧
    (found = [] → g.acts = none → exec (.regionCommit tag w sl) s = .next ((s.commitStep3 t wv sys g).settle tag w)) ∧
    (∀ e, g.ahead = none → found = [] → g.acts = some e → waits e.instr = false →
      exec (.regionCommit tag w sl) s = .next (((s.commitStep3 t wv sys g).commitStep4 (s.ownView t sys g e) t wv sys g e).settle tag w)) ∧
    (∀ e g1 g2, g.acts = some e → g.ahead = some (g1, g2) →
      let s1 := s.commitStep3 t wv sys g1
      let wv1 := (s1.wave? tag w).getD wv
      let first := g1.rs.flatMap (fun r => s.foundStores t sys g1.rs r ++ s.foundTex t sys r)
      (first ≠ [] → exec (.regionCommit tag w sl) s = .next (s.commitStop t w first)) ∧
      (first = [] → finds s1 wv1 g2 ≠ [] → exec (.regionCommit tag w sl) s = .next (s1.commitStop t w (finds s1 wv1 g2))) ∧
      (first = [] → finds s1 wv1 g2 = [] → exec (.regionCommit tag w sl) s =
        .next (((s1.commitStep3 t wv1 sys g2).commitStep4 (s1.ownView t sys g2 e) t wv1 sys g2 e).settle tag w))) ∧
    (g.ahead = none ↔ ∀ e, g.acts = some e → Instr.readsOnce e.instr = true → ∀ r ∈ g.rs, r.sl = lowest e.lanes / 4) ∧
    (∀ e h d a n, found = [] → g.acts = some e → (e.instr = .send h d a n ∨ e.instr = .recv h d a n) →
      ((∃ u, exec (.regionCommit tag w sl) s = .next u) ↔ s.launderReady t n.toNat (match e.instr with | .send .. => true | _ => false) = true)) ∧
    (found = [] → plain → g.acts = none → ∃ u, exec (.regionCommit tag w sl) s = .next u ∧ gone u) ∧
    (∀ e h, found = [] → plain → g.acts = some e → e.instr = .yield h → ∃ u, exec (.regionCommit tag w sl) s = .next u ∧ gone u ∧
      ∃ v, u.wave? tag w = some v ∧ v.young = true) ∧
    (∀ e h, found = [] → plain → g.acts = some e → e.instr = .exit h → wv.thr.length = 32 →
      (∀ gg, s.gang? t.gid = some gg → ∀ b ∈ gg.nbars, b.arrived = []) → ∃ u v, exec (.regionCommit tag w sl) s = .next u ∧
      u.mem = (s.visible t sys g.rs).mem ∧ u.lines = (s.visible t sys g.rs).lines ∧ u.wave? tag w = some (Wave.settle 4 v) ∧
      ∀ n, n < 32 → (v.thread n).exited = ((wv.thread n).exited || e.lanes.getLsbD n))

/-- LD, LDS, LDW, LDN and LDC at issue (R228 to R233, R271, R120): the first accessing lane whose address is not a multiple of the
access size (8 for LDN) takes trap 0x06, else the first one out of bounds takes trap 0x08; a load that would make more than 128 sectors
missing in L1, beside some that are, waits and changes nothing (R227); otherwise one operation becomes pending on e0 that holds each lane's address and the bytes that the lane's own run has stored there (R33).
Where the manual leaves it open, this is the model's choice: log entries 4, 23 and 24. -/
def Obligations.LoadIssue : Prop :=
  ∀ (h : Hdr) (d a b : Opd) (ty : MTy) (pol : Pol) (sc : Scope) (od : Ord) (i : Instr) (kind n align : Nat),
    ((i = .ld h d a b ty pol sc od ∧ kind = 0 ∧ n = ty.size ∧ align = ty.size) ∨
     (i = .lds h d a b ty pol sc od ∧ kind = 1 ∧ n = ty.size ∧ align = ty.size) ∨
     (i = .ldw h d a b ty pol sc od ∧ kind = 2 ∧ n = ty.size ∧ align = ty.size) ∨
     (i = .ldn h d a b ty pol sc od ∧ kind = 0 ∧ n = 4 * (match ty with | .b8 => 4 | .b16 => 6 | .b32 => 8 | _ => 16) ∧ align = 8) ∨
     (i = .ldc h d a b ty ∧ kind = 0 ∧ n = ty.size ∧ align = ty.size)) →
    (∀ l, TrapsIf i (fun _ c => (c.accLanes d).find? (fun k => c.rawAddr kind a b k % align ≠ 0) = some l) 0x06 (fun c => c.rawAddr kind a b l)) ∧
    (∀ l, TrapsIf i (fun s c => (∀ k ∈ c.accLanes d, c.rawAddr kind a b k % align = 0) ∧
      (c.accLanes d).find? (fun k => (s.place c kind a b n k).isNone) = some l) 0x08 (fun c => c.rawAddr kind a b l)) ∧
    (∀ s c u, s.pre i = .go c u → (∀ k ∈ c.accLanes d, c.rawAddr kind a b k % align = 0 ∧ (s.place c kind a b n k).isSome) →
      (u.advance c i).l1Full c i kind n d a b = true → exec i s = .next s) ∧
    Starts i (fun s c => (∀ k ∈ c.accLanes d, c.rawAddr kind a b k % align = 0 ∧ (s.place c kind a b n k).isSome) ∧
        ∀ u, s.pre i = .go c u → (u.advance c i).l1Full c i kind n d a b = false)
      (fun s c q => ∀ l ∈ c.accLanes d, ∀ sp x, s.place c kind a b n l = some (sp, x) →
        q.x.getD l 0 = BitVec.ofNat 64 x ∧ q.y.getD l 0 = spaceCode sp ∧
        ∀ k, k < n → (q.fwd.find? (·.1 == 64 * l + k)).map (·.2) = c.wv.fwdByte (s.free + 1) (l / 4) sp (x + k))

/-- LOAD_COMPLETE (R231, Table 10.1): a pending load that waits for no sector, no earlier load and no acquire, and whose lanes can all
be read, writes its destination, its own stores first, lowers e0 and is gone; it changes nothing else of the device but what its reads
and its acquire do in the caches, which a relaxed load of scratch has not; the lowest lane that meets another cause than a page fault
raises its trap at the load's own word; pages that fault are entered, with those of the other pending loads of the runs that abort (log entry
62); a load that has to wait does not complete.
Where the manual leaves it open, this is the model's choice: log entries 4, 23, 54, 55 and 62. -/
def Obligations.LoadResult : Prop :=
  ∀ (s : State) tag w id t wv q f, s.team? tag = some t → t.wave? w = some wv → wv.pend? id = some q → ldForm q.instr = some f →
    let lane (l : Nat) : Except LaneBad (List Byte) := s.laneBytes t (t.sys || wv.handler) q f l
    (∀ bytes : Nat → List Byte, s.Pending tag w id t wv q → s.loadWaits tag w id = false → (∀ l ∈ f.lanes q.lanes, lane l = .ok (bytes l)) →
      (∀ l, l ∉ f.lanes q.lanes → bytes l = []) →
      s.Completes (.loadComplete tag w id) tag w wv q (ldWrites f q.lanes bytes) 0 (fun u _ =>
        (∀ k, k ≠ tag → u.team? k = s.team? k) ∧ (∀ k, k ≠ w → u.wave? tag k = s.wave? tag k) ∧
        { u with teams := s.teams, free := s.free, consts := s.consts }.sansCache = s.sansCache ∧
        (f.kind = 1 → isAcqLoad q.instr = false → { u with teams := s.teams, free := s.free } = s))) ∧
    (∀ l cause a, s.loadWaits tag w id = false → wv.behindAcq q = false →
      (f.lanes q.lanes).find? (fun k => match lane k with | .error (.trap _ _) => true | _ => false) = some l →
      lane l = .error (.trap cause a) → exec (.loadComplete tag w id) s = .next ((s.pendTrap tag w wv q cause a).afterPend tag w)) ∧
    (∀ sls ps, s.loadWaits tag w id = false → wv.behindAcq q = false → laneStop ((f.lanes q.lanes).map (fun l => (l, lane l))) = some (.fault sls ps) →
      exec (.loadComplete tag w id) s = .next ((s.loadFaults tag w t wv q sls ps).afterPend tag w)) ∧
    (s.loadWaits tag w id = true ∨ wv.behindAcq q = true → exec (.loadComplete tag w id) s = .refused (.notEnabled "LOAD_COMPLETE"))

/-- ST, STS and STW without conversion (R235, R33): misaligned lanes take trap 0x06, out-of-bounds lanes 0x08, a run that would hold
more than 64 lines trap 0x11, and where the lines that the core's runs need are short the store waits; otherwise each slice's run
holds the bytes of its active lanes in ascending lane order, among its stores in the order of issue, and nothing is visible before
the commit.
Where the manual leaves it open, this is the model's choice: log entries 17 and 34. -/
def Obligations.StoreIssue : Prop :=
  ∀ (h : Hdr) (d a b : Opd) (ty : MTy) (pol : Pol) (sc : Scope) (od : Ord) (i : Instr) (kind : Nat),
    ((i = .st h d a b 0x10 ty pol sc od ∧ kind = 0) ∨ (i = .sts h d a b 0x10 ty pol sc od ∧ kind = 1) ∨ (i = .stw h d a b ty pol sc od ∧ kind = 2)) →
    let lane (s : State) (c : Ctx) (l : Nat) : List BufW :=
      match s.place c kind a b ty.size l with
      | some p => c.bufs (stVia pol sc od) l p.1 p.2 (c.stBytes d ty l)
      | none => []
    let adds (s : State) (c : Ctx) (sl : Nat) : List BufW := (lanesOf (c.lanes &&& sliceMask sl)).flatMap (lane s c)
    let longer (s : State) (c : Ctx) (r : Region) (sl : Nat) : Nat := ({ r with stores := r.stores ++ adds s c sl } : Region).lines.length
    let short (s : State) (c : Ctx) : Bool := s.linesShort c.tm.core c.wv
      ((slicesOf c.lanes).filterMap (fun sl => (c.wv.region? sl).map (fun r => (r.rid, longer s c r sl - r.lines.length))))
    let ok (s : State) (c : Ctx) : Prop := ∀ l ∈ lanesOf c.lanes, c.rawAddr kind a b l % ty.size = 0 ∧ (s.place c kind a b ty.size l).isSome
    let fits (s : State) (c : Ctx) : Prop := ∀ sl ∈ slicesOf c.lanes, ∀ r, c.wv.region? sl = some r → longer s c r sl ≤ 64
    (∀ l, TrapsIf i (fun _ c => (lanesOf c.lanes).find? (fun k => c.rawAddr kind a b k % ty.size ≠ 0) = some l) 0x06 (fun c => c.rawAddr kind a b l)) ∧
    (∀ l, TrapsIf i (fun s c => (∀ k ∈ lanesOf c.lanes, c.rawAddr kind a b k % ty.size = 0) ∧
      (lanesOf c.lanes).find? (fun k => (s.place c kind a b ty.size k).isNone) = some l) 0x08 (fun c => c.rawAddr kind a b l)) ∧
    TrapsIf i (fun s c => ok s c ∧ ¬fits s c) 0x11 (fun _ => 0) ∧
    (∀ s c u, s.pre i = .go c u → ok s c → fits s c → short s c = true → exec i s = .next s) ∧
    ActsIf i (fun s c => ok s c ∧ fits s c ∧ short s c = false)
      (fun s c wv => c.wv.Quiet wv ∧ ∀ sl ∈ slicesOf c.lanes, ∀ r, c.wv.region? sl = some r →
        ∃ r', wv.region? sl = some r' ∧ r'.rid = r.rid ∧
          r'.stores = r.stores.filter (·.iss ≤ s.nextId) ++ adds s c sl ++ r.stores.filter (s.nextId < ·.iss))

/-- ST and STS with a conversion (R232): the 32 codes of the lanes, code 0 for an inactive one, packed at the format's width into one
block at the lowest active lane's address, with the conversions' flags; without an active lane nothing is stored.
Where the manual leaves it open, this is the model's choice: log entries 17 and 34. -/
def Obligations.ConvertingStoreIssue : Prop :=
  ∀ (h : Hdr) (d a b : Opd) (sf : BitVec 5) (ty : MTy) (pol : Pol) (sc : Scope) (od : Ord) (i : Instr) (kind : Nat), sf ≠ 0x10 →
    ((i = .st h d a b sf ty pol sc od ∧ kind = 0) ∨ (i = .sts h d a b sf ty pol sc od ∧ kind = 1)) →
    let w := fmtWidth sf.toNat
    let code (c : Ctx) (l : Nat) : FR := if c.lanes.getLsbD l then toCode sf.toNat (c.cvtSrc d ty l) else { x := 0, fl := 0 }
    let l0 (c : Ctx) : Nat := lowest c.lanes
    let adds (c : Ctx) (p : Space × Nat) : List BufW := c.bufs (stVia pol sc od) (l0 c) p.1 p.2 (packCodes w (byLane (fun l => (code c l).x)))
    let longer (c : Ctx) (p : Space × Nat) (r : Region) : Nat := ({ r with stores := r.stores ++ adds c p } : Region).lines.length
    let ok (s : State) (c : Ctx) (p : Space × Nat) : Prop := c.lanes ≠ 0 ∧ c.rawAddr kind a b (l0 c) % 8 = 0 ∧ s.place c kind a b (4 * w) (l0 c) = some p
    TrapsIf i (fun _ c => c.lanes ≠ 0 ∧ c.rawAddr kind a b (l0 c) % 8 ≠ 0) 0x06 (fun c => c.rawAddr kind a b (l0 c)) ∧
    TrapsIf i (fun s c => c.lanes ≠ 0 ∧ c.rawAddr kind a b (l0 c) % 8 = 0 ∧ s.place c kind a b (4 * w) (l0 c) = none) 0x08 (fun c => c.rawAddr kind a b (l0 c)) ∧
    TrapsIf i (fun s c => ∃ p r, ok s c p ∧ c.wv.region? (l0 c / 4) = some r ∧ 64 < longer c p r) 0x11 (fun _ => 0) ∧
    ActsIf i (fun _ c => c.lanes = 0) (fun _ c wv => c.wv.Quiet wv) ∧
    ActsIf i (fun s c => ∃ p r, ok s c p ∧ c.wv.region? (l0 c / 4) = some r ∧ longer c p r ≤ 64 ∧
        s.linesShort c.tm.core c.wv [(r.rid, longer c p r - r.lines.length)] = false)
      (fun s c wv => c.wv.KeptRegs wv ∧ c.wv.KeptPreds wv ∧
        wv.fflags = c.wv.fflags ||| ((lanesOf c.lanes).foldl (fun f l => f ||| (code c l).fl) 0).setWidth 64 ∧
        ∀ p r, s.place c kind a b (4 * w) (l0 c) = some p → c.wv.region? (l0 c / 4) = some r →
          ∃ r', wv.region? (l0 c / 4) = some r' ∧ r'.rid = r.rid ∧
            r'.stores = r.stores.filter (·.iss ≤ s.nextId) ++ adds c p ++ r.stores.filter (s.nextId < ·.iss))

/-- What issuing leaves alone (R33, R34): whatever instruction a wave issues, once it has popped the operand queues that it names and
unless it stops in a wait, a trap or a page fault, memory and its caches keep every byte, and no register of the device, sluice key,
grid, gang, fault queue, error ring or submission queue changes; what stores write becomes visible at the commit of their region only.
PREF and BVHSET, which read at issue, alone reach the caches (R236, R330); QCTL stops queues and moves gangs off their cores, and a QCTL resume makes a new layout
undefined (R423, R459).
Where the manual leaves it open, this is the model's choice: log entry 4. -/
def Obligations.NothingVisibleBeforeCommit : Prop :=
  ∀ i s c s', isEvent i = false → s.pre i = .go c s' → s.Popped s' c.tag ∧ ∃ t, exec i s = .next t ∧
    ((∃ x, t = s.stop c x) ∨
      ((match i with
          | .pref .. | .bvhset .. => True
          | .qctlR .. => t.mem = s'.mem ∧ t.lines = s'.lines
          | _ => t.mem = s'.mem ∧ t.undef = s'.undef ∧ t.poison = s'.poison ∧ t.lines = s'.lines ∧ t.upds = s'.upds) ∧
        t.asidDir = s.asidDir ∧ t.grids = s.grids ∧
        (match i with
          | .qctlQ .. | .qctlR .. => True
          | _ => t.keys = s.keys ∧ t.gangs = s.gangs ∧ ∀ p, (t.part p).queues = (s.part p).queues) ∧
        ∀ p, (t.part p).fqidx = (s.part p).fqidx ∧ (t.part p).eqidx = (s.part p).eqidx ∧ (t.part p).tvec = (s.part p).tvec ∧
          (t.part p).pqmask = (s.part p).pqmask))

/-- SFU_RESULT, MRES_COMPLETE and REGION_ENDING_RESULT (R134, R294): the results that were known are written, one operation fewer is
counted, and nothing is pending under that number any more. A committed operation that met poison takes its trap after that, and a
WCHILD that waits answers once every child grid of its team has retired (R101).
Where the manual leaves it open, this is the model's choice: log entry 35. -/
def Obligations.PendingResults : Prop :=
  ∀ (s : State) tag w id t wv,
    (∀ q, s.Pending tag w id t wv q →
      (isSfu q.instr = true → s.Completes (.sfuResult tag w id) tag w wv q q.wr q.flags (fun u _ => u.mem = s.mem ∧ u.lines = s.lines)) ∧
      ((∃ h d g b ev, q.instr = .mres h d g b ev) → s.Completes (.mresComplete tag w id) tag w wv q q.wr q.flags (fun u _ => u.mem = s.mem ∧ u.lines = s.lines)) ∧
      (q.hold = true → q.rids = [] → q.instr.endsRegion = true →
        (q.trap = none → s.Completes (.regionEndingResult tag w id) tag w wv q q.wr q.flags (fun u _ => u.mem = s.mem ∧ u.lines = s.lines)) ∧
        (∀ cause region, q.trap = some (cause, region) → exec (.regionEndingResult tag w id) s = .next ((s.finishPend tag w q q.wr q.flags).takeTrap
          tag w 0 { cause := cause, lanes := q.lanes, addr := q.site, region := region, after := true, faddr := q.x.headD 0 })))) ∧
    (∀ sl d m, s.team? tag = some t → t.wave? w = some wv → wv.pend? id = none →
      wv.waits.find? (fun x => match x.2 with | .wchild i _ _ => i == id | _ => false) = some (sl, .wchild id d m) →
      (s.childrenLeft tag = true → exec (.regionEndingResult tag w id) s = .refused (.notEnabled "REGION_ENDING_RESULT")) ∧
      (s.childrenLeft tag = false → ∃ u v, exec (.regionEndingResult tag w id) s = .next u ∧ u.wave? tag w = some v ∧
        wv.Got32 v m d (fun _ => BitVec.ofNat 32 (min t.torn 0xFFFFFFFF)) ∧
        v.waits = wv.waits.filter (fun x => match x.2 with | .wchild i _ _ => i ≠ id | _ => true)))

/-- BVHSET_COMPLETE (R330; the scene has been bound at the issue, unless the descriptor could not be read then), RINV_COMPLETE (R422), SHBIND_COMPLETE (R242), TNEXT_COMPLETE (R301, R302), QST_COMPLETE (R272 to R275)
and TEX_COMPLETE (R328, R337), once what they read can be read.
Where the manual leaves it open, this is the model's choice: log entries 35, 41 and 55. -/
def Obligations.EngineResults : Prop :=
  ∀ (s : State) tag w id t wv q, s.Pending tag w id t wv q →
    let sys := t.sys || wv.handler
    let rid := q.rids.headD 0
    let x0 := (q.x.headD 0).toNat
    let y0 := (q.y.headD 0).toNat
    let z0 := (q.z.headD 0).toNat
    (∀ h d a ev st, q.instr = .bvhset h d a ev → q.y.head? = some st →
      s.Completes (.bvhsetComplete tag w id) tag w wv q (wr1 q.lanes d (fun _ => st.setWidth 32)) 0 (fun _ v => v.scene = wv.scene)) ∧
    (∀ h d a ev bs, q.instr = .bvhset h d a ev → q.y = [] → s.engRead (wv.engVia t) t 0 false x0 256 sys = .ok bs →
      s.Completes (.bvhsetComplete tag w id) tag w wv q (wr1 q.lanes d (fun _ => if sceneOk bs then 0 else 3)) 0
        (fun _ v => v.scene = if sceneOk bs then some bs else wv.scene)) ∧
    (∀ h d a ev, q.instr = .rinv h d a ev → s.Completes (.rinvComplete tag w id) tag w wv q (wr1 q.lanes d (fun _ => if x0 < 65536 then 0 else 1)) 0
      (fun u _ => (x0 < 65536 → u.Without x0 0 (2 ^ 64)) ∧ (65536 ≤ x0 → u.lines = s.lines ∧ u.tlb = s.tlb))) ∧
    (∀ h d a b c ev, q.instr = .rinvRange h d a b c ev →
      let ok : Prop := x0 < 65536 ∧ y0 % 4096 = 0 ∧ z0 ≠ 0 ∧ z0 % 4096 = 0 ∧ y0 + z0 ≤ 2 ^ 48
      s.Completes (.rinvComplete tag w id) tag w wv q (wr1 q.lanes d (fun _ => if ok then 0 else 1)) 0
        (fun u _ => (ok → u.Without x0 y0 (y0 + z0)) ∧ (¬ok → u.lines = s.lines ∧ u.tlb = s.tlb))) ∧
    (∀ h d a b ev bs, q.instr = .shbind h d a b ev → s.runRead t wv q rid x0 32 sys = .ok bs →
      let r := s.shbindStatus t.part t.asid y0 bs rid
      s.Completes (.shbindComplete tag w id) tag w wv q (wr1 q.lanes d (fun _ => BitVec.ofNat 32 r.1)) 0
        (fun u _ => t.part < s.parts.length → (u.part t.part).shadows = (s.part t.part).shadows ++ (if r.1 = 0 then [r.2] else []))) ∧
    (∀ h d ev pick u1, q.instr = .tnext h d ev →
      let k : Walk := wv.walk.getD { t0 := 1, t1 := 1, t2 := 1, mask := none, gone := [] }
      let tile := s.findTile (wv.engVia t) t sys k (wv.walk.elim 0 (fun k => k.t0 * k.t1 * k.t2)) pick
      (tile = .ok (none, u1) → s.Completes (.tnextComplete tag w id pick) tag w wv q (wr64 q.lanes d (fun _ => 0x8000000000000000)) 0
        (fun _ v => v.walk = wv.walk)) ∧
      (∀ x y z, tile = .ok (some (x, y, z), u1) →
        s.Completes (.tnextComplete tag w id pick) tag w wv q (wr64 q.lanes d (fun _ => BitVec.ofNat 64 (z * 2 ^ 32 + y * 2 ^ 16 + x))) 0
          (fun _ v => v.walk = some { k with gone := (rid, (x, y, z)) :: k.gone }))) ∧
    (∀ f hd bs cap old blk es st fl, q.qst = some f → s.runRead t wv q rid f.list 8 sys = .ok hd → s.runRead t wv q rid f.list (leatSize hd) sys = .ok bs →
      leatList f.sideB bs = some (cap, old) → f.result cap old q.lanes (fun l => (q.y.getD l 0).setWidth 32) = some (blk, es, st, fl) →
      s.vcheckK (t.via .core) t.part t.asid f.blk blk.length sys false = [] → s.vcheckK (t.via .core) t.part t.asid f.list (8 + 4 * es.length) sys false = [] →
      let adds := f.stores q t.asid s.free cap blk es
      (∀ r, wv.regions.find? (·.rid == rid) = some r →
        let r' : Region := { r with stores := r.stores ++ adds }
        r'.lines.length ≤ 64 ∧ s.linesShort t.core wv [(r.rid, r'.lines.length - r.lines.length)] = false) →
      s.Completes (.qstComplete tag w id) tag w wv q (wr1 q.lanes q.dst (fun _ => st)) fl
        (fun _ v => ∀ r, wv.regions.find? (·.rid == rid) = some r → wv.region? r.sl = some r →
          ∃ r', v.region? r.sl = some r' ∧ r'.stores = r.stores.filter (·.iss ≤ id) ++ adds ++ r.stores.filter (id < ·.iss))) ∧
    (∀ (d : Opd) (nr query : Bool),
      ((∃ h a b c ev, q.instr = .tex h d a b c nr ev ∧ query = false) ∨ (∃ h a b c ev, q.instr = .texq h d a b c ev ∧ nr = true ∧ query = true)) →
      ∀ out : Nat → TexOut, (∀ l ∈ lanesOf q.lanes, s.texLane t wv sys q query l = .ok (out l)) →
        s.Completes (.texComplete tag w id) tag w wv q (wrN q.lanes d 4 (fun i l => (out l).ws.getD i 0)) 0
          (fun u v => { u with teams := s.teams, free := s.free }.sansCache = s.sansCache ∧
            ∀ sl r, wv.region? sl = some r → ∃ r', v.region? sl = some r' ∧ r'.stores = r.stores ∧
            (nr = true ∨ wv.scene = none → r'.tex = r.tex) ∧
            (∀ sc, nr = false → wv.scene = some sc → r'.tex = r.tex ++ ((lanesOf q.lanes).filter (· / 4 = sl)).filterMap (fun l => (out l).miss.map (fun n =>
              texMissOf sc (rayWord q.x l 2) (q.z.headD 0).toNat n q.site q.lanes)))))

/-- MLOADB_COMPLETE (R292), MMA_COMPLETE (R283 to R293) and HAD_COMPLETE (R298, R299), once what they read can be read: the B latch holds
the tile; each accumulator of a lane that takes part holds the exact sum of the products over the included K blocks, rounded and
saturated as R286 and R287 say; and the Hadamard results are stores of the run.
Where the manual leaves it open, this is the model's choice: log entry 40. -/
def Obligations.MatrixResults : Prop :=
  ∀ (s : State) tag w id t wv q, s.Pending tag w id t wv q →
    let sys := t.sys || wv.handler
    (∀ h a b f scr ev codes l, q.instr = .mloadb h a b f scr ev →
      let d : BDesc := { asid := t.asid, scr := scr, tile := (q.x.getD 0 0).toNat, fmt := f.toNat
                         list := if q.y.getD 0 0 = 1 then some (q.x.getD 1 0).toNat else none }
      s.readTile (wv.engVia t) t (s.scrLim t) sys d = .ok (codes, l) →
      s.Completes (.mloadbComplete tag w id) tag w wv q [] 0
        (fun u v => v.acc = wv.acc ∧ u.latchOf t.core wv.pipe = some { core := t.core, pipe := wv.pipe, desc := d, codes := codes, list := l })) ∧
    (∀ m a al x, q.mma = some m → s.engFirst t wv id = false → s.gatherA t (s.scrLim t) sys q m = .ok (a, al) → s.latchFor t wv sys m.bd = .ok x →
      (∀ e ∈ wv.mopen, e.id = id → e.spoilt = 0) →
      let sum (l n : Nat) : Acc × BitVec 8 :=
        (passSum (tileVal m.ad.fmt a al (q.row l)) (tileVal x.desc.fmt x.codes (latchList true x.list) n) (ksOf m.nkm)).acc
      s.Completes (.mmaComplete tag w id) tag w wv q [] (q.mmaLanes.foldl (fun f l => f ||| (List.range 16).foldl (fun f n => f ||| (sum l n).2) 0) 0)
        (fun u v => u.latchOf t.core wv.pipe = some x ∧ v.relatch = false ∧
          ∀ bank l n, l < 32 → n < 16 → v.accAt bank l n = if bank = m.bank ∧ l ∈ q.mmaLanes then (sum l n).1 else wv.accAt bank l n)) ∧
    (s.engFirst t wv id = true → exec (.mmaComplete tag w id) s = .refused (.notEnabled "MMA_COMPLETE")) ∧
    (∀ h a b c p ty ev bs r, q.instr = .had h a b c p ty ev → wv.regions.find? (fun x => q.rids.contains x.rid) = some r →
      wv.region? r.sl = some r →
      let f := (q.x.getD 0 0).toNat
      let o := (q.x.getD 1 0).toNat
      let v := (q.x.getD 2 0).toNat
      let n := v * hadN p * hadE ty
      v ≠ 0 → s.engRead .agent t (s.scrLim t) true f n sys = .ok bs → (f + n ≤ o ∨ o + v * hadN p * 4 ≤ f) →
      let vec (i : Nat) : List Word × BitVec 8 := hadVec p ty ((List.range (hadN p)).map (fun j => hadElem ty ((bs.drop ((i * hadN p + j) * hadE ty)).take (hadE ty))))
      s.Completes (.hadComplete tag w id) tag w wv q [] ((List.range v).foldl (fun f i => f ||| (vec i).2) 0)
        (fun _ x => ∃ r', x.region? r.sl = some r' ∧ r'.stores = r.stores.filter (·.iss ≤ id) ++
          q.bufs true (.scratch tag) o ((List.range v).flatMap (fun i => (vec i).1.flatMap (fun y => toBytes 4 y.toNat))) ++ r.stores.filter (id < ·.iss)))

/-- CSRW, CSRW.set and CSRW.clr (R404, R405, R421): the issue holds the wave with the source value, and the write takes effect in an
event of its own, from the value that stands then. A reserved bit or value takes the protection trap and changes nothing; a write of a
partition register waits while the root core is halted (R417).
Where the manual leaves it open, this is the model's choice: log entries 26 and 36. -/
def Obligations.SystemRegisterWrites : Prop :=
  (∀ (h : Hdr) (a : Opd) (reg : BitVec 12), ∀ i ∈ [Instr.csrw h a reg, .csrwSet h a reg, .csrwClr h a reg],
    Starts i (fun _ _ => True) (fun _ c q => q.hold = true ∧ q.x = [c.w64 a (lowest c.lanes)] ∧ q.y = [c.firstClause] ∧ q.z = [BitVec.ofNat 64 c.tm.reach])) ∧
  (∀ (s : State) tag w id t wv q n, s.team? tag = some t → t.wave? w = some wv → wv.pend? id = some q → wv.trapQ = none →
    csrOf q.instr = some (n, true) →
    let p := (q.z.headD 0).toNat
    let src := q.x.headD 0
    let old := s.regNow t wv p n
    let x : DWord := match q.instr with | .csrwSet _ _ _ => old ||| src | .csrwClr _ _ _ => old &&& ~~~src | _ => src
    let wrote (ev : Instr) (R : State → Wave → Prop) : Prop := ∃ u v, exec ev s = .next u ∧ u.wave? tag w = some v ∧ wv.KeptRegs v ∧
      wv.KeptPreds v ∧ v.pend = wv.pend.filter (·.id ≠ id) ∧ R u v
    let part (ev : Instr) : Prop := wrote ev (fun u v => v.fmode = wv.fmode ∧ v.fflags = wv.fflags ∧ (p < s.parts.length → (u.part p).reg n = x))
    let traps (ev : Instr) : Prop := exec ev s = .next ((s.updWave tag w (fun wv => { wv with pend := wv.pend.filter (·.id ≠ id) })).takeTrap tag w (wv.bundleOf id q.mask)
      { cause := 0x08, lanes := q.lanes, addr := q.site, region := q.y.headD 0, after := false, faddr := 0 })
    let either (ev : Instr) (bad : Prop) : Prop := (bad → traps ev) ∧ (¬bad → part ev)
    (n = 0 → wrote (.fmodeWrite tag w id) (fun _ v => v.fmode = x &&& 3 ∧ v.fflags = wv.fflags)) ∧
    (n = 1 → wrote (.fflagsWrite tag w id) (fun _ v => v.fflags = x &&& 0xFF ∧ v.fmode = wv.fmode)) ∧
    (n = 0x11 → wrote (.asidvWrite tag w id) (fun u _ => u.asidDir = x &&& 0x00000FFFFFF80000)) ∧
    (n = 0x12 → bits x.toNat 8 55 = 0 → bits x.toNat 2 2 = 0 →
      wrote (.pcapWrite tag w id) (fun u _ => (u.team? tag).map (·.pcap) = some ((t.pcap &&& ~~~3#64) ||| (x &&& 3)))) ∧
    (n = 0x12 → bits x.toNat 8 55 ≠ 0 ∨ bits x.toNat 2 2 ≠ 0 → traps (.pcapWrite tag w id)) ∧
    (0x20 ≤ n → n ≤ 0x2C → s.rootHalt = true → ∀ ev ∈ [Instr.pqmaskWrite tag w id, .pwaysWrite tag w id, .nbndWrite tag w id, .prsvWrite tag w id,
      .energyWrite tag w id, .registerWrite (.csr tag w id) 0], ∃ m, exec ev s = .refused (.notEnabled m)) ∧
    (s.rootHalt = false →
      (n = 0x20 → either (.pqmaskWrite tag w id) (16 ≤ x.toNat ∨ popc x.toNat 4 = 3 ∨ x &&& s.quartersOff.setWidth 64 ≠ 0 ∨
        ∃ o, o < 4 ∧ o ≠ p ∧ (s.part o).pqmask &&& x ≠ 0)) ∧
      (n = 0x21 → either (.pwaysWrite tag w id) (2 ^ 16 ≤ x.toNat)) ∧
      (n = 0x26 → either (.nbndWrite tag w id) (bits x.toNat 4 4 ≠ 0 ∨ bits x.toNat 12 52 ≠ 0)) ∧
      (n = 0x27 → either (.prsvWrite tag w id) False) ∧
      (n = 0x29 → either (.energyWrite tag w id) (bits x.toNat 60 4 ≠ 0)) ∧
      (n = 0x22 → either (.registerWrite (.csr tag w id) 0) (64 < x.toNat)) ∧
      (n = 0x23 ∨ n = 0x24 → either (.registerWrite (.csr tag w id) 0) (bits x.toNat 44 20 ≠ 0 ∨ bits x.toNat 0 16 ≠ 0)) ∧
      (n = 0x25 → either (.registerWrite (.csr tag w id) 0) (bits x.toNat 40 24 ≠ 0 ∨ bits x.toNat 20 4 ≠ 0 ∨ 9 < bits x.toNat 16 4 ∨
        popc x.toNat 16 ∉ [0, 1, 2, 4, 8, 16])) ∧
      (n = 0x28 → either (.registerWrite (.csr tag w id) 0) False) ∧
      (n = 0x2A → either (.registerWrite (.csr tag w id) 0) (bits x.toNat 32 32 ≠ 0)) ∧
      (n = 0x2B → either (.registerWrite (.csr tag w id) 0) (bits x.toNat 48 16 ≠ 0 ∨ bits x.toNat 1 2 ≠ 0)) ∧
      (n = 0x2C → either (.registerWrite (.csr tag w id) 0) (bits x.toNat 48 16 ≠ 0 ∨ bits x.toNat 0 12 ≠ 0))))

/-- Writes of the queue page and the management page (R84, R85, R219, R221, R388, R425 to R427, R433): each register afterwards.
Where the manual leaves it open, this is the model's choice: log entries 37, 45 and 49. -/
def Obligations.QueueRegisterWrites : Prop :=
  (∀ (s : State) p n v q, p < 4 → s.parts.length = 4 → n < 64 → (s.part p).queues[n]? = some q →
    (∃ t q', exec (.qcfgWrite p n v) s = .next t ∧ (t.part p).queues[n]? = some q' ∧ q'.readyN = q.readyN ∧ q'.cur = q.cur ∧ q'.held = q.held ∧
      (cfgEn q.cfg = true → cfgEn v = true → q' = q) ∧
      (cfgEn q.cfg = true → cfgEn v = false → q'.cfg = q.cfg &&& ~~~1#64 ∧ q'.idx = q.idx ∧ q'.state = 0) ∧
      (cfgEn q.cfg = false → cfgEn v = true → bits v.toNat 8 4 < 12 → q'.cfg = v &&& 0xFFFFFFFFFFFFFF01 ∧ q'.idx = 0 ∧ q'.state = 1) ∧
      (cfgEn q.cfg = false → cfgEn v = true → 12 ≤ bits v.toNat 8 4 → q'.state = 3 ∧ bits q'.stat.toNat 8 8 = 4) ∧
      (cfgEn q.cfg = false → cfgEn v = false → q'.cfg = v &&& 0xFFFFFFFFFFFFFF01 ∧ q'.idx = q.idx ∧ q'.stat = q.stat)) ∧
    (∃ t, exec (.qidxWrite p n v) s = .next t ∧ (t.part p).queues[n]? = some { q with idx := mkIdx (idxR q.idx) (idxW v) } ∧
      ∀ m, m ≠ n → (t.part p).queues[m]? = (s.part p).queues[m]?)) ∧
  (∀ (s : State) p v, p < 4 → s.parts.length = 4 →
    let ring (old : DWord) : DWord :=
      if cfgEn old then (if cfgEn v then old else old &&& ~~~1#64)
      else (if cfgEn v && decide (12 ≤ bits v.toNat 8 4) then v &&& 0xFFFFFFFFFFFFFF00 else v &&& 0xFFFFFFFFFFFFFF01)
    let starts (old : DWord) : Bool := !cfgEn old && cfgEn v && decide (bits v.toNat 8 4 < 12)
    (∃ t, exec (.fqcfgWrite p v) s = .next t ∧ (t.part p).fqcfg = ring (s.part p).fqcfg) ∧
    (∃ t, exec (.mqcfgWrite p v) s = .next t ∧ (t.part p).mqcfg = ring (s.part p).mqcfg) ∧
    (∃ t, exec (.cqcfgWrite p v) s = .next t ∧ (t.part p).cqcfg = ring (s.part p).cqcfg ∧
      (t.part p).cqidx = if starts (s.part p).cqcfg then 0 else (s.part p).cqidx) ∧
    (∃ t, exec (.eqcfgWrite p v) s = .next t ∧ (t.part p).eqcfg = ring (s.part p).eqcfg ∧
      (t.part p).eqidx = if starts (s.part p).eqcfg then 0 else (s.part p).eqidx) ∧
    (∃ t, exec (.mqidxWrite p v) s = .next t ∧ idxR (t.part p).mqidx = idxR v) ∧
    (∃ t, exec (.acthWrite p v) s = .next t ∧ (t.part p).acth = (v &&& 0xFFFF) ||| ((s.part p).acth &&& v &&& 0x10000)) ∧
    (∃ t, exec (.slcfgWrite p v) s = .next t ∧ (t.part p).slcfg = v &&& 0xFFFFFFFFFFFFF01F) ∧
    (∃ t, exec (.cqidxWrite p v) s = .next t ∧ idxR (t.part p).cqidx = idxR v ∧ idxW (t.part p).cqidx = idxW (s.part p).cqidx) ∧
    (∀ off, off < 0x1000 → off % 8 = 0 → pageOwn off = false → ∃ t, exec (.registerWrite (.queuePage p off) v) s = .next t ∧
      (off = 0x800 → (t.part p).gnbase = v &&& 0x0000FFFFFFFFFF80) ∧ (off = 0x808 → (t.part p).gnlen = v &&& 0xFFFF0000FFFFFFFF) ∧
      (off = 0x848 → (t.part p).slsnap = v &&& 0xFFFFFFFFFFFFFF01) ∧ (off = 0x870 → (t.part p).ivec = v &&& 0xBFBFBFBF) ∧
      (off = 0x858 → idxR (t.part p).eqidx = idxR v ∧ idxW (t.part p).eqidx = idxW (s.part p).eqidx) ∧
      (off ∉ [0x800, 0x808, 0x848, 0x858, 0x870] → t = s))) ∧
  (∀ (s : State) j v, j < 4 → s.pcq.length = 4 → s.pca.length = 4 →
    (∃ t, exec (.registerWrite (.mgmt (0x40 + 8 * j)) v) s = .next t ∧ t.pcq[j]? = some v) ∧
    (∃ t, exec (.registerWrite (.mgmt (0x60 + 8 * j)) v) s = .next t ∧ t.pca[j]? = some (v &&& 0xF)))

/-- The address-engine instructions at issue: SHBIND, SHFREE (R242, R243), CPY (R249), AQSTART, AQSTOP, AQSTOP.qry (R255, R256), PREF (R236)
and QST (R272).
Where the manual leaves it open, this is the model's choice: log entries 15, 23 and 35. -/
def Obligations.AddressEngineIssue : Prop :=
  ∀ (h : Hdr) (d a b g : Opd) (ev : Option (BitVec 3)) (n : BitVec 6) (f : BitVec 5) (mode : QMode) (pol : Pol),
    let x (o : Opd) (c : Ctx) : DWord := c.w64 o (lowest c.lanes)
    let act : State → Ctx → Prop := fun _ c => c.lanes ≠ 0
    TrapsIf (.shbind h d a b ev) (fun _ c => c.lanes ≠ 0 ∧ (x a c).toNat % 8 ≠ 0) 0x06 (fun c => (x a c).toNat) ∧
    Starts (.shbind h d a b ev) (fun _ c => c.lanes = 0 ∨ (x a c).toNat % 8 = 0) (fun _ c q => q.rids = [c.wv.ridOf (lowest c.lanes / 4)] ∧
      q.x = [x a c] ∧ q.y = [x b c]) ∧
    (let isIt (c : Ctx) (y : Shadow) : Bool := y.asid == c.tm.asid && y.base == (x a c).toNat && y.resBy.isNone && y.leaving.isNone
     Answers (.shfree h d a ev) act d (fun s c _ => if (s.part c.tm.part).shadows.any (isIt c) then 0 else 4) (fun s c t _ =>
       c.tm.part < s.parts.length → (t.part c.tm.part).shadows = (s.part c.tm.part).shadows.map (fun y =>
         if isIt c y then { y with leaving := some (c.wv.ridOf (lowest c.lanes / 4)) } else y))) ∧
    TrapsIf (.cpy h a ev) (fun _ c => c.lanes ≠ 0 ∧ (x a c).toNat % 128 ≠ 0) 0x06 (fun c => (x a c).toNat) ∧
    StartsEnding (.cpy h a ev) (fun _ c => c.lanes = 0 ∨ (x a c).toNat % 128 = 0) (fun c => [x a c]) (fun _ => []) ∧
    (let busy (c : Ctx) : Prop := c.tm.aq.run = true ∨ ∃ q ∈ c.tm.aq.q, q ≠ []
     Answers (.aqstart h d ev) act d (fun _ c _ => if c.gg.kobj.aloops = 0 then 2 else if c.tm.aq.run || c.tm.aq.q.any (· ≠ []) then 1 else 0)
       (fun _ c t _ => (c.gg.kobj.aloops = 0 ∨ busy c → (t.team? c.tag).map (·.aq) = some c.tm.aq) ∧
         (c.gg.kobj.aloops ≠ 0 → ¬busy c → (t.team? c.tag).map (·.aq) =
           some { run := true, it := 0, ns := 0, base := c.gg.kobj.streams.map (fun st => c.s st.sbase), q := List.replicate 8 [] }))) ∧
    Answers (.aqstop h d ev) act d (fun _ c _ => if c.tm.aq.run then 0 else 3) (fun _ c t wv => (t.team? c.tag).map (·.aq) = some c.tm.aq ∧
      ∀ r ∈ wv.regions, r.sl = lowest c.lanes / 4 → r.aqStop = true) ∧
    Answers (.aqstopQry h d a ev) act d (fun _ c _ => if c.gg.kobj.qmask.getLsbD (x a c).toNat then
        BitVec.ofNat 32 (c.gg.kobj.qdepth - (c.tm.aq.q.getD (x a c).toNat []).length) else 0xFFFFFFFF)
      (fun _ c t _ => (t.team? c.tag).map (·.aq) = some c.tm.aq) ∧
    (let via (c : Ctx) : Via := { c.tm.via .core with pol := pol }
     let sec (c : Ctx) (l : Nat) : Nat := (c.memAddr a b l).toNat / 64 * 64
     let goes (u : State) (c : Ctx) (l : Nat) : Bool := u.runAhead (via c) c.tm.part c.tm.asid (sec c l) 64 c.sys
     ∀ s c s', s.pre (.pref h a b pol) = .go c s' → ∃ t wv, exec (.pref h a b pol) s = .next t ∧ t.wave? c.tag c.w = some (Wave.settle 4 wv) ∧ c.wv.Quiet wv ∧
       ({ t with teams := s.teams, free := s.free, nextId := s.nextId } : State).sansCache = s.sansCache ∧
       (let u0 := s'.advance c (.pref h a b pol)
        let fetched := (lanesOf c.lanes).foldl (fun u l => if goes u c l then u.touch (via c) c.tm.part c.tm.asid (sec c l) 64 c.sys .read false else u) u0
        t.mem = fetched.mem ∧ t.lines = fetched.lines ∧
        ((∀ l ∈ lanesOf c.lanes, goes u0 c l = false) → t.mem = s'.mem ∧ t.lines = s'.lines))) ∧
    (let par (c : Ctx) : Nat := (x b c).toNat
     let i : Instr := .qst h d (.s n) b g f mode ev
     let lst (c : Ctx) : Nat := (c.s (n.toNat + 1)).toNat
     let blk (c : Ctx) : Nat := (c.s n.toNat).toNat
     let res (c : Ctx) : Prop := bits (par c) 32 8 = 255 ∨ bits (par c) 48 16 ≠ 0 ∨ (bit (par c) 47 = true ∧ 15 < bits (par c) 40 5)
     TrapsIf i (fun _ c => c.lanes ≠ 0 ∧ blk c % 8 ≠ 0) 0x06 blk ∧
     TrapsIf i (fun _ c => c.lanes ≠ 0 ∧ blk c % 8 = 0 ∧ lst c % 8 ≠ 0) 0x06 lst ∧
     TrapsIf i (fun _ c => c.lanes ≠ 0 ∧ blk c % 8 = 0 ∧ lst c % 8 = 0 ∧ res c) 0x13 (fun _ => 0) ∧
     Starts i (fun _ c => c.lanes = 0 ∨ (blk c % 8 = 0 ∧ lst c % 8 = 0 ∧ ¬res c)) (fun _ c q =>
       q.x = [c.s n.toNat, c.s (n.toNat + 1), BitVec.ofNat 64 (par c)] ∧ q.y = byLane (fun l => (c.w32 g l).setWidth 64)))

/-- DECN (R276): the value of a code, or of a code times 2^(s - 127), rounded to FP32, with the escape as 0; `.esc` marks escapes and NaR
with all ones; a scale byte of 255 in an active lane takes trap 0x13 before any lane is written. -/
def Obligations.DecodedNumbers : Prop :=
  ∀ (h : Hdr) (d a b : Opd) (f : BitVec 5) (scl esc : Bool),
    let i : Instr := .decn h d a b f scl esc
    let code (c : Ctx) (l : Nat) : Nat := (c.w32 a l).toNat % 2 ^ fmtWidth f.toNat
    let sc (c : Ctx) (l : Nat) : Nat := (c.w32 b l).toNat % 256
    let r (c : Ctx) (l : Nat) : FR :=
      if esc then { x := if isEsc f.toNat (code c l) then 0xFFFFFFFF else 0, fl := 0 }
      else match codeVal f.toNat (code c l) with
        | none => { x := 0, fl := 0 }
        | some (.fin s m e) => if scl then roundTo fp32 0 s m (e + sc c l - 127) else { x := ((Machine.Num.fin s m e).round fp32 0).word.toNat, fl := 0 }
        | some v => if scl then v.round fp32 0 else { x := (v.round fp32 0).word.toNat, fl := 0 }
    let bad : State → Ctx → Prop := fun _ c => scl = true ∧ ∃ l ∈ lanesOf c.lanes, sc c l = 255
    TrapsIf i bad 0x13 (fun _ => 0) ∧
    ActsIf i (fun s c => ¬bad s c) (fun _ c wv => c.wv.Got32 wv c.lanes d (fun l => (r c l).word) ∧ c.wv.KeptPreds wv ∧
      wv.fflags = c.wv.fflags ||| (c.flags d (fun l => (r c l).fl)).setWidth 64)

/-- The matrix instructions at issue: MLOADB (R292), MMA (R281, R282, R289, R293), MRES (R294), MZERO (R297), MFENCE (R295), MWAIT (R296),
HAD (R298), TWALK (R300) and TNEXT (R302).
Where the manual leaves it open, this is the model's choice: log entries 15 and 40. -/
def Obligations.MatrixIssue : Prop :=
  ∀ (h : Hdr) (d a b g : Opd) (f : BitVec 5) (scr bank bd : Bool) (nkm : BitVec 4) (ev : Option (BitVec 3)) (cg : BitVec 2) (sc : Scope)
    (p : HadP) (ty : HadTy) (wd : WDim),
    let x (o : Opd) (c : Ctx) : DWord := c.w64 o (lowest c.lanes)
    let lst (c : Ctx) : Option Nat := match b with | .zero => none | o => some (x o c).toNat
    let ml : Instr := .mloadb h a b f scr ev
    let okB (c : Ctx) : Prop := isLeat f.toNat = (lst c).isSome
    (TrapsIf ml (fun _ c => c.lanes ≠ 0 ∧ ¬okB c) 0x13 (fun _ => 0) ∧
      TrapsIf ml (fun _ c => c.lanes ≠ 0 ∧ okB c ∧ (x a c).toNat % 8 ≠ 0) 0x06 (fun c => (x a c).toNat) ∧
      TrapsIf ml (fun _ c => c.lanes ≠ 0 ∧ okB c ∧ (x a c).toNat % 8 = 0 ∧ ∃ l, lst c = some l ∧ l % 8 ≠ 0) 0x06 (fun c => (lst c).getD 0) ∧
      ActsIf ml (fun _ c => c.lanes ≠ 0 ∧ okB c ∧ (x a c).toNat % 8 = 0 ∧ ∀ l, lst c = some l → l % 8 = 0) (fun s c wv => c.wv.KeptRegs wv ∧
        wv.bdesc = some { asid := c.tm.asid, scr := scr, tile := (x a c).toNat, fmt := f.toNat, list := lst c } ∧ wv.acc = c.wv.acc ∧
        (∀ n, wv.evr n = if ml.counted = some n then c.wv.evr n + 1 else c.wv.evr n) ∧ ∃ q, wv.pend.getLast? = some q ∧ q.id = s.nextId ∧ q.instr = ml)) ∧
    (let i : Instr := .mma h a b nkm bank ev
     let ad (c : Ctx) : ADesc := ADesc.of (x a c).toNat
     let free (c : Ctx) : Prop := c.b.chk = false ∨ ∀ e ∈ c.wv.mopen, e.bank = bank → e.covered = true ∨ ∀ q ∈ c.wv.pend, q.id ≠ e.id
     let okD (c : Ctx) : Prop := ∃ w, c.wv.bdesc = some w ∧ (ad c).bad = false ∧ isLeat (ad c).fmt = (ad c).lv ∧ pairOk (ad c).fmt w.fmt = true
     let al (c : Ctx) : Prop := (ad c).tile % 8 = 0 ∧ ((ad c).lv = true → (ad c).list % 8 = 0)
     let inS (c : Ctx) : Prop := (ad c).tile + 512 * fmtWidth (ad c).fmt ≤ c.gg.kobj.scrLen
     let rows (c : Ctx) : Prop := ∀ l ∈ lanesOf c.lanes, (c.w32 b l).toNat ≤ 31 ∨ c.w32 b l = 0xFFFFFFFF
     TrapsIf i (fun _ c => c.lanes ≠ 0 ∧ ¬free c) 0x03 (fun _ => 0) ∧
     TrapsIf i (fun _ c => c.lanes ≠ 0 ∧ free c ∧ ¬okD c) 0x13 (fun _ => 0) ∧
     TrapsIf i (fun _ c => c.lanes ≠ 0 ∧ free c ∧ okD c ∧ (ad c).tile % 8 ≠ 0) 0x06 (fun c => (ad c).tile) ∧
     TrapsIf i (fun _ c => c.lanes ≠ 0 ∧ free c ∧ okD c ∧ (ad c).tile % 8 = 0 ∧ (ad c).lv = true ∧ (ad c).list % 8 ≠ 0) 0x06 (fun c => (ad c).list) ∧
     TrapsIf i (fun _ c => c.lanes ≠ 0 ∧ free c ∧ okD c ∧ al c ∧ ¬inS c) 0x08 (fun c => (ad c).tile) ∧
     TrapsIf i (fun _ c => c.lanes ≠ 0 ∧ free c ∧ okD c ∧ al c ∧ inS c ∧ ¬rows c) 0x08 (fun _ => 0) ∧
     Starts i (fun _ c => c.lanes = 0 ∨ (free c ∧ okD c ∧ al c ∧ inS c ∧ rows c)) (fun _ c q => q.rids = (slicesOf c.lanes).map c.wv.ridOf ∧
       q.y = byLane (fun l => (c.w32 b l).setWidth 64) ∧ ∀ w, c.wv.bdesc = some w → (w.asid < 2 ^ 64 ∧ w.tile < 2 ^ 64 ∧ w.fmt < 2 ^ 64 ∧ ∀ l, w.list = some l → l < 2 ^ 64) →
         q.mma = some { ad := ad c, bd := w, nkm := nkm.toNat, bank := bank }) ∧
     (let closed (c : Ctx) : Prop := ∀ e ∈ c.wv.mopen, e.bank = bank → e.covered = true ∨ e.lanes &&& c.lanes = 0
      let val (c : Ctx) (j l : Nat) : FR := (c.wv.accAt bank l (4 * cg.toNat + j)).res
      let cleared (c : Ctx) (wv : Wave) (cols : Nat → Prop) : Prop := ∀ bk l n, l < 32 → n < 16 →
        ((bk = bank ∧ c.lanes.getLsbD l = true ∧ cols n) → wv.accAt bk l n = Acc.zero) ∧
        (¬(bk = bank ∧ c.lanes.getLsbD l = true ∧ cols n) → wv.accAt bk l n = c.wv.accAt bk l n)
      TrapsIf (.mres h d cg bank ev) (fun _ c => c.lanes ≠ 0 ∧ ¬free c) 0x03 (fun _ => 0) ∧
      TrapsIf (.mzero h bank bd) (fun _ c => c.lanes ≠ 0 ∧ ¬free c) 0x03 (fun _ => 0) ∧
      (let apart (c : Ctx) : Prop := ∀ e ∈ c.wv.mopen, e.covered = true ∨ ∀ r ∈ d.regs 4 2, r ∉ e.regs
       (∀ n, d = .v n → ActsIf (.mres h d cg bank none) (fun _ c => c.lanes ≠ 0 ∧ free c ∧ closed c) (fun _ c wv =>
        (∀ m l, l < 32 → wv.vr m l = if n.toNat ≤ m ∧ m < n.toNat + 4 ∧ c.lanes.getLsbD l then (val c (m - n.toNat) l).word else c.wv.vr m l) ∧
        (∀ m, wv.sr m = c.wv.sr m) ∧ (∀ m, wv.lcr m = c.wv.lcr m) ∧ c.wv.KeptPreds wv ∧
        wv.fflags = c.wv.fflags ||| ((lanesOf c.lanes).foldl (fun f l => (List.range 4).foldl (fun f j => f ||| (val c j l).fl) f) (0 : BitVec 8)).setWidth 64 ∧
        (apart c → cleared c wv (fun n => n / 4 = cg.toNat)))) ∧
       (∀ e, ActsIf (.mres h d cg bank (some e)) (fun _ c => c.lanes ≠ 0 ∧ free c ∧ closed c) (fun s c wv => c.wv.KeptRegs wv ∧ wv.fflags = c.wv.fflags ∧
        (∀ n, wv.evr n = if e.toNat = n then c.wv.evr n + 1 else c.wv.evr n) ∧ (apart c → cleared c wv (fun n => n / 4 = cg.toNat)) ∧
        ∃ q, wv.pend.getLast? = some q ∧ q.id = s.nextId ∧ q.lanes = c.lanes ∧ q.wr = wrN c.lanes d 4 (fun j l => (val c j l).word)))) ∧
      ActsIf (.mzero h bank bd) (fun _ c => c.lanes ≠ 0 ∧ free c ∧ closed c) (fun _ c wv => c.wv.Quiet wv ∧ cleared c wv (fun _ => True) ∧
        wv.bdesc = if bd then none else c.wv.bdesc))) ∧
    Acts (.mfence h sc) (fun _ c wv => c.wv.Quiet wv ∧ wv.mfence = some sc ∧ wv.mfAcq = some sc ∧
      (let own : Nat := if c.lanes = 0 then lowest c.b.mask / 4 else lowest c.lanes / 4
       ∀ r, r ∈ wv.waitRids ↔ ∃ y ∈ c.wv.regions, y.rid = r ∧ y.ended.isSome ∧ y.entry < c.wv.ridOf own - own)) ∧
    Acts (.mwait h) (fun _ c wv => c.wv.Quiet wv ∧ (∀ e ∈ wv.mopen, e.covered = true) ∧
      wv.waitIds = (c.wv.pend.filter (fun q => isMatrixOp q.instr)).map (·.id)) ∧
    (let i : Instr := .had h a b g p ty ev
     let n (c : Ctx) : Nat := (x g c).toNat
     let al (c : Ctx) : Prop := (x a c).toNat % hadE ty = 0 ∧ (x b c).toNat % 4 = 0
     let inF (c : Ctx) : Prop := (x a c).toNat + n c * hadN p * hadE ty ≤ c.gg.kobj.scrLen
     let inO (c : Ctx) : Prop := (x b c).toNat + n c * hadN p * 4 ≤ c.gg.kobj.scrLen
     TrapsIf i (fun _ c => c.lanes ≠ 0 ∧ (x a c).toNat % hadE ty ≠ 0) 0x06 (fun c => (x a c).toNat) ∧
     TrapsIf i (fun _ c => c.lanes ≠ 0 ∧ (x a c).toNat % hadE ty = 0 ∧ (x b c).toNat % 4 ≠ 0) 0x06 (fun c => (x b c).toNat) ∧
     TrapsIf i (fun _ c => c.lanes ≠ 0 ∧ al c ∧ n c ≠ 0 ∧ ¬inF c) 0x08 (fun c => (x a c).toNat) ∧
     TrapsIf i (fun _ c => c.lanes ≠ 0 ∧ al c ∧ n c ≠ 0 ∧ inF c ∧ ¬inO c) 0x08 (fun c => (x b c).toNat) ∧
     ActsIf i (fun _ c => c.lanes ≠ 0 ∧ al c ∧ n c = 0) (fun _ c wv => c.wv.Quiet wv) ∧
     Starts i (fun _ c => c.lanes = 0 ∨ (al c ∧ n c ≠ 0 ∧ inF c ∧ inO c)) (fun _ c q => q.x = [x a c, x b c, x g c])) ∧
    (let i : Instr := .twalk h d a b wd ev
     let t (c : Ctx) (j : Nat) : Nat := bits (x a c).toNat (16 * j) 16
     let bad (c : Ctx) : Prop := (∃ j, j < 3 ∧ (j < walkN wd ↔ t c j = 0)) ∨ bits (x a c).toNat 48 16 ≠ 0
     TrapsIf i (fun _ c => c.lanes ≠ 0 ∧ ¬bad c ∧ ∃ l, lst c = some l ∧ l % 8 ≠ 0) 0x06 (fun c => (lst c).getD 0) ∧
     Answers i (fun _ c => c.lanes ≠ 0 ∧ bad c) d (fun _ _ _ => 3) (fun _ c _ wv => wv.walk = c.wv.walk) ∧
     Answers i (fun _ c => c.lanes ≠ 0 ∧ ¬bad c ∧ ∀ l, lst c = some l → l % 8 = 0) d (fun _ _ _ => 0) (fun _ c _ wv =>
       wv.walk = some { t0 := t c 0, t1 := max (t c 1) 1, t2 := max (t c 2) 1, mask := lst c, gone := [] })) ∧
    Starts (.tnext h d ev) (fun _ _ => True) (fun _ _ _ => True)

/-- The beam and texture instructions at issue: BEAM (R331), RAYS (R334), BDONE (R333), HITACC (R336), BVHSET (R330), TEX and TEXQ (R337).
Where the manual leaves it open, this is the model's choice: log entries 14 and 41. -/
def Obligations.BeamIssue : Prop :=
  ∀ (h : Hdr) (d a b g : Opd) (nr first sh : Bool) (ev : Option (BitVec 3)),
    let x (o : Opd) (c : Ctx) : DWord := c.w64 o (lowest c.lanes)
    let four (o : Opd) (c : Ctx) : List DWord := (List.range 128).map (fun i => (c.wide o (i % 4) (i / 4)).setWidth 64)
    let o (c : Ctx) : Nat := (x a c).toNat
    (TrapsIf (.beam h d a ev) (fun _ c => c.lanes ≠ 0 ∧ o c % 16 ≠ 0) 0x06 o ∧
      TrapsIf (.beam h d a ev) (fun _ c => c.lanes ≠ 0 ∧ o c % 16 = 0 ∧ c.gg.kobj.scrLen < o c + 256) 0x08 o ∧
      TrapsIf (.beam h d a ev) (fun _ c => c.lanes ≠ 0 ∧ o c % 16 = 0 ∧ o c + 256 ≤ c.gg.kobj.scrLen ∧ c.wv.sceneDue = false) 0x14 (fun _ => 0) ∧
      StartsEnding (.beam h d a ev) (fun _ c => c.lanes = 0 ∨ (o c % 16 = 0 ∧ o c + 256 ≤ c.gg.kobj.scrLen ∧ c.wv.sceneDue = true))
        (fun c => [x a c]) (fun _ => [])) ∧
    (TrapsIf (.rays h d a b first sh ev) (fun _ c => c.lanes ≠ 0 ∧ c.wv.sceneDue = false) 0x14 (fun _ => 0) ∧
      StartsEnding (.rays h d a b first sh ev) (fun _ c => c.lanes = 0 ∨ c.wv.sceneDue = true) (four a) (four b)) ∧
    (let hd (c : Ctx) : Word := (x a c).setWidth 32
     let none_ (c : Ctx) : Prop := c.lanes = 0 ∨ hd c = 0xFFFFFFFF ∨ hd c = 0xFFFFFFFE
     TrapsIf (.bdone h a) (fun _ c => ¬none_ c ∧ c.tm.byHandle (hd c) = none) 0x14 (fun _ => 0) ∧
     ActsIf (.bdone h a) (fun _ c => none_ c ∨ c.tm.byHandle (hd c) ≠ none) (fun _ c wv => c.wv.Quiet wv ∧
       ∀ sl r, c.wv.region? sl = some r → ∃ r', wv.region? sl = some r' ∧
         r'.bdone = r.bdone ++ if ¬none_ c ∧ sl = lowest c.lanes / 4 then [hd c] else [])) ∧
    (let ls (c : Ctx) : List Nat := (lanesOf c.lanes).filter (fun l => c.w32 a l ≠ 0xFFFFFFFF)
     let ok (c : Ctx) (l : Nat) : Prop := (c.w32 g l).toNat ≤ 2 ∧ ∃ r y, c.tm.candOf (c.w32 a l) = some (r, y) ∧ y.dec = none ∧
       ∀ k, y.taken = some k → k = c.wv.ridOf (l / 4)
     let failed (c : Ctx) (l : Nat) : Option Nat := c.tm.failedBy (c.w32 a l)
     let spoilt (c : Ctx) (l : Nat) : Prop := ∃ r y, c.tm.candOf (c.w32 a l) = some (r, y) ∧ r.bad = true
     TrapsIf (.hitacc h a b g) (fun _ c => ∃ l ∈ ls c, ¬ok c l ∧ failed c l = none) 0x14 (fun _ => 0) ∧
     (∀ cause, TrapsIf (.hitacc h a b g) (fun _ c => (∀ l ∈ ls c, ok c l ∨ failed c l ≠ none) ∧ (ls c).findSome? (failed c) = some cause) cause (fun _ => 0)) ∧
     TrapsIf (.hitacc h a b g) (fun _ c => (∀ l ∈ ls c, ok c l ∧ failed c l = none) ∧ ∃ l ∈ ls c, spoilt c l) 0x15 (fun _ => 0) ∧
     ActsIf (.hitacc h a b g) (fun _ c => ∀ l ∈ ls c, ok c l ∧ failed c l = none ∧ ¬spoilt c l) (fun _ c wv => c.wv.Quiet wv ∧
       ∀ sl r, c.wv.region? sl = some r → ∃ r', wv.region? sl = some r' ∧ r'.stores = r.stores ∧
         r'.decisions = r.decisions ++ ((ls c).filter (fun l => l / 4 = sl)).map (fun l =>
           ({ tag := c.w32 a l, dec := (c.w32 g l).toNat, t := c.w32 b l } : Decision)))) ∧
    (TrapsIf (.bvhset h d a ev) (fun _ c => c.lanes ≠ 0 ∧ (x a c).toNat % 64 ≠ 0) 0x06 (fun c => (x a c).toNat) ∧
      Starts (.bvhset h d a ev) (fun _ c => c.lanes = 0 ∨ (x a c).toNat % 64 = 0) (fun _ c q => q.x = [x a c] ∧ q.rids = [c.wv.ridOf (lowest c.lanes / 4)]) ∧
      (let i : Instr := .bvhset h d a ev
       ∀ s c s' bs, s.pre i = .go c s' → c.lanes ≠ 0 → (x a c).toNat % 64 = 0 →
        (s'.advance c i).engRead (c.wv.engVia c.tm) c.tm 0 false (x a c).toNat 256 c.sys = .ok bs →
        ∃ t wv, exec i s = .next t ∧ t.wave? c.tag c.w = some (Wave.settle 4 wv) ∧ wv.scene = (if sceneOk bs then some bs else c.wv.scene) ∧
          ∃ q, wv.pend.getLast? = some q ∧ q.id = s.nextId ∧ q.y = [if sceneOk bs then 0 else 3])) ∧
    (∀ i, i = .tex h d a b g nr ev ∨ i = .texq h d a b g ev →
      TrapsIf i (fun _ c => c.lanes ≠ 0 ∧ (x g c).toNat % 64 ≠ 0) 0x06 (fun c => (x g c).toNat) ∧
      Starts i (fun _ c => c.lanes = 0 ∨ (x g c).toNat % 64 = 0) (fun _ c q => q.x = four a c ∧ q.y = four b c ∧ q.z = [x g c] ∧
        q.rids = (slicesOf c.lanes).map c.wv.ridOf))

/-- BFRAG, HITGET and HITGET.cand (R332, R335): against the pool as it stands they trap, answer at once, or become pending until their
records settle; and what BFRAG answers: 0xFFFFFFFE while a candidate is undecided, else the fragments in delivery order to the active
lanes in ascending order, and 0xFFFFFFFF beyond the last, each fragment once.
Where the manual leaves it open, this is the model's choice: log entries 5 and 14. -/
def Obligations.PoolReads : Prop :=
  (∀ (h : Hdr) (d a : Opd) (ev : Option (BitVec 3)) (i : Instr) (hd : Ctx → Nat → Word) (n : Nat),
    ((i = .bfrag h d a ev ∧ n = 12 ∧ hd = fun c _ => (c.w64 a (lowest c.lanes)).setWidth 32) ∨
     ((i = .hitget h d a ev ∨ i = .hitgetCand h d a ev) ∧ n = 8 ∧ hd = fun c l => c.w32 a l)) →
    let try_ (s : State) (c : Ctx) : PoolTry := c.tm.tryPool i (lanesOf c.lanes) (hd c) (s.free + 1) (fun l => c.wv.ridOf (l / 4))
    (∀ cause, TrapsIf i (fun s c => c.lanes ≠ 0 ∧ try_ s c = .trap cause) cause (fun _ => 0)) ∧
    Starts i (fun s c => c.lanes ≠ 0 ∧ try_ s c = .wait) (fun _ c q => q.x = byLane (fun l => (hd c l).setWidth 64)) ∧
    (∀ r, d = .v r → ∀ ws t', ActsTo i (fun s c => c.lanes ≠ 0 ∧ try_ s c = .ok ws t') (fun _ c t wv =>
      (t.team? c.tag).map (·.pool) = some t'.pool ∧ c.wv.KeptPreds wv ∧ wv.fflags = c.wv.fflags ∧ (∀ m, wv.sr m = c.wv.sr m) ∧
      ∀ m l, l < 32 → wv.vr m l = if r.toNat ≤ m ∧ m < r.toNat + n ∧ c.lanes.getLsbD l then
        (((ws.find? (·.1 == l)).map (·.2)).getD []).getD (m - r.toNat) 0 else c.wv.vr m l))) ∧
  (∀ (t : Team) (ls : List Nat) (h : Word) (rid : Nat → Nat),
    (t.byHandle h = none → t.tryFrag ls h rid = .trap 0x14) ∧
    (∀ k r ray, t.byHandle h = some (k, r, ray) →
      (r.isRay = true → t.tryFrag ls h rid = .trap 0x14) ∧
      (r.isRay = false → r.st = .busy → t.tryFrag ls h rid = .wait) ∧
      (r.isRay = false → r.st = .failed → t.tryFrag ls h rid = .trap r.cause) ∧
      (r.isRay = false → r.st ≠ .busy → r.st ≠ .failed → r.bad = true → t.tryFrag ls h rid = .trap 0x15) ∧
      (r.isRay = false → r.st = .cand → r.bad = false → t.tryFrag ls h rid = .ok (ls.map (fun l => (l, 0xFFFFFFFE :: List.replicate 11 0))) t) ∧
      (r.isRay = false → r.st = .ready → r.bad = false → ls.Nodup → ∃ ws t', t.tryFrag ls h rid = .ok ws t' ∧
        (t'.record k).frags = r.frags.drop ls.length ∧
        ∀ (j l : Nat), ls[j]? = some l → ((ws.find? (·.1 == l)).map (·.2)) = some ((r.frags[j]?).getD (0xFFFFFFFF :: List.replicate 11 0)))))

/-- RINV, RINV.range (R422), QCTL (R423), LAUNCH (R100) and ENRD (R431) at issue. QCTL waits while the root core is halted (R417).
Where the manual leaves it open, this is the model's choice: log entries 36 and 50. -/
def Obligations.SystemIssue : Prop :=
  ∀ (h : Hdr) (d a b g : Opd) (ev : Option (BitVec 3)),
    let x (o : Opd) (c : Ctx) : DWord := c.w64 o (lowest c.lanes)
    Starts (.rinv h d a ev) (fun _ _ => True) (fun _ c q => q.hold = ev.isNone ∧ q.x = [x a c]) ∧
    Starts (.rinvRange h d a b g ev) (fun _ _ => True) (fun _ c q => q.hold = ev.isNone ∧ q.x = [x a c] ∧ q.y = [x b c] ∧ q.z = [x g c]) ∧
    (∀ i ∈ [Instr.qctlQ h d a ev, .qctlR h d a ev, .qctlQry h d a ev], ∀ s c s', s.pre i = .go c s' →
      (c.lanes = 0 → ∃ t wv, exec i s = .next t ∧ t.wave? c.tag c.w = some (Wave.settle 4 wv) ∧ c.wv.Quiet wv ∧ t.parts = s.parts) ∧
      (c.lanes ≠ 0 → s.rootHalt = true → exec i s = .next s)) ∧
    (let go : State → Ctx → Prop := fun s c => c.lanes ≠ 0 ∧ s.rootHalt = false ∧ c.tm.reach < s.parts.length
     let mine (s : State) (c : Ctx) : Prop := c.tm.part = c.tm.reach ∧ s.queueOf c.tm < 64 ∧ (x a c).getLsbD (s.queueOf c.tm) = true
     let lat (s : State) (c : Ctx) : Prop := ∃ t ∈ s.namedTeams c.tm.reach (x a c), ∃ gr, s.gridOf t.tag = some gr ∧ gr.lat = true
     let now (s : State) (c : Ctx) (t : State) (f : Queue → Queue) : Prop := (t.part c.tm.reach).queues =
       (s.part c.tm.reach).queues.zipIdx.map (fun q => if (x a c).getLsbD q.2 then f q.1 else q.1)
     let quiesce (q : Queue) : Queue := { (if q.state = 1 then q.setState 2 else q) with held := true }
     let resume (q : Queue) : Queue := { (if q.state = 2 then q.setState 1 else q) with held := false }
     Answers (.qctlQ h d a ev) (fun s c => go s c ∧ x a c = 0) d (fun _ _ _ => 1) (fun s _ t _ => t.parts = s.parts) ∧
     Answers (.qctlQ h d a ev) (fun s c => go s c ∧ x a c ≠ 0 ∧ mine s c) d (fun _ _ _ => 3) (fun s _ t _ => t.parts = s.parts) ∧
     Answers (.qctlQ h d a ev) (fun s c => go s c ∧ x a c ≠ 0 ∧ ¬mine s c ∧ lat s c) d (fun _ _ _ => 2) (fun s _ t _ => t.parts = s.parts) ∧
     Answers (.qctlQ h d a ev) (fun s c => go s c ∧ x a c ≠ 0 ∧ ¬mine s c ∧ s.namedTeams c.tm.reach (x a c) = []) d (fun _ _ _ => 0)
       (fun s c t _ => now s c t quiesce) ∧
     ActsTo (.qctlQ h d a ev) (fun s c => go s c ∧ x a c ≠ 0 ∧ ¬mine s c ∧ ¬lat s c ∧ s.namedTeams c.tm.reach (x a c) ≠ [] ∧
         (∀ u ∈ s.namedTeams c.tm.reach (x a c), ∀ y ∈ s.teams, y.gid = u.gid → y.tag ≠ c.tag))
       (fun s c t wv => c.wv.KeptRegs wv ∧ now s c t quiesce ∧ (∀ u ∈ s.namedTeams c.tm.reach (x a c), (t.gang? u.gid).map (·.st) = some .leaving) ∧
         ∃ q, wv.pend.getLast? = some q ∧ q.id = s.nextId ∧ q.instr = .qctlQ h d a ev ∧ q.x = [x a c]) ∧
     Answers (.qctlR h d a ev) (fun s c => go s c ∧ x a c = 0) d (fun _ _ _ => 1) (fun s _ t _ => t.parts = s.parts) ∧
     Answers (.qctlR h d a ev) (fun s c => go s c ∧ x a c ≠ 0 ∧ s.configOk c.tm.reach = false) d (fun _ _ _ => 4) (fun s _ t _ => t.parts = s.parts) ∧
     Answers (.qctlR h d a ev) (fun s c => go s c ∧ x a c ≠ 0 ∧ s.configOk c.tm.reach = true) d (fun _ _ _ => 0) (fun s c t _ => now s c t resume) ∧
     ActsTo (.qctlQry h d a ev) go (fun s c t wv => t.parts = s.parts ∧ c.wv.KeptPreds wv ∧ wv.fflags = c.wv.fflags ∧
       c.wv.Got64 wv c.lanes d (fun _ => if x a c = 0 then 1
         else (s.namedTeams c.tm.reach (x a c)).foldl (fun m t => m ||| (1#64 <<< s.queueOf t)) 0))) ∧
    TrapsIf (.launch h d a) (fun s c => c.lanes ≠ 0 ∧ 10 ≤ s.depthOf c.tag) 0x0F (fun _ => 0) ∧
    TrapsIf (.launch h d a) (fun s c => c.lanes ≠ 0 ∧ s.depthOf c.tag < 10 ∧ c.w = 0 ∧ (x a c).toNat % 64 ≠ 0) 0x06 (fun c => (x a c).toNat) ∧
    Ends (.launch h d a) (fun s c => c.lanes ≠ 0 ∧ s.depthOf c.tag < 10 ∧ (c.w = 0 → (x a c).toNat % 64 = 0)) (fun c => [x a c]) (fun _ => []) (fun _ => []) ∧
    Ends (.launch h d a) (fun _ c => c.lanes = 0) (fun _ => []) (fun _ => []) (fun _ => []) ∧
    ActsTo (.enrd h d) (fun _ c => c.lanes ≠ 0) (fun _ c t wv => c.wv.KeptPreds wv ∧ wv.fflags = c.wv.fflags ∧
      ∃ m, c.tm.meter ≤ m ∧ (t.team? c.tag).map (·.meter) = some m ∧ c.wv.Got64 wv c.lanes d (fun _ => BitVec.ofNat 64 m)) ∧
    ActsTo (.enrd h d) (fun _ c => c.lanes = 0) (fun _ c _ wv => c.wv.Quiet wv)

/-- The agents that work for a team: CLAUSE_ENTRY (R51, R71, R127, R464), COPY_COMPLETE (R245 to R248), STREAM_PUSH (R41, R250 to R252), the
beam engine (R315, R322, R323), SLUICE_TIMEOUT (R393) and SLUICE_DEADLOCK (R394).
Where the manual leaves it open, this is the model's choice: log entries 2, 8, 14, 22, 39, 57 and 58. -/
def Obligations.TeamAgents : Prop :=
  (∀ (s : State) tag w t wv, s.team? tag = some t → t.wave? w = some wv →
    let ready := s.readySlices t wv
    let sys := t.sys || wv.handler
    (s.atBoundary t wv = false ∨ wv.headPc ready = none → exec (.clauseEntry tag w) s = .refused (.notEnabled "CLAUSE_ENTRY")) ∧
    (∀ pc hw, s.atBoundary t wv = true → wv.headPc ready = some pc → s.fetch t wv sys pc.toNat 1 = .ok hw →
      let m := wv.bundleAt ready pc
      (Header.ofWord (hw.headD 0) = none → exec (.clauseEntry tag w) s = .next ((s.fetchTouch t wv sys pc.toNat 1).takeTrap tag w m
        { cause := 0x02, lanes := m, addr := pc, region := wv.startOf (lowest m / 4) pc, after := false, faddr := 0 })) ∧
      (∀ h, Header.ofWord (hw.headD 0) = some h →
        (h.rb = true → wv.regions.any (wv.endsAt m) = true → ∃ u v, exec (.clauseEntry tag w) s = .next u ∧ u.wave? tag w = some v ∧ wv.KeptRegs v ∧
          wv.KeptPreds v ∧ v.bundle = wv.bundle ∧ v.regions = wv.regions.map (fun r => if wv.endsAt m r then { r with ended := some .clause } else r)) ∧
        (∀ ws, ¬(h.rb = true ∧ wv.regions.any (wv.endsAt m) = true) → s.fetch t wv sys (pc.toNat + 8) h.n = .ok ws →
          clauseBad h ws = false → (h.rb = true ∨ wv.openIn m = slicesOf m) →
          ∃ u v, exec (.clauseEntry tag w) s = .next u ∧ u.wave? tag w = some v ∧ wv.KeptRegs v ∧ wv.KeptPreds v ∧
            v.bundle = some { h := pc, words := ws, ix := 0, chk := h.chk, rb := h.rb, mask := m } ∧
            (h.rb = true → ∀ sl ∈ slicesOf m, wv.region? sl = none → ∃ r, v.region? sl = some r ∧ r.start = pc ∧ r.stores = [] ∧ r.ended = none) ∧
            (h.rb = false → v.regions = wv.regions))))) ∧
  (∀ (s : State) id c, s.copies.find? (·.id == id) = some c →
    (c.holds ≠ [] → exec (.copyComplete id) s = .refused (.notEnabled "COPY_COMPLETE")) ∧
    (c.holds = [] → c.bytes = [] →
      (∀ bs, s.vread .agent c.part c.asid c.desc 128 c.sys = .ok bs →
        exec (.copyComplete id) s = .next ((s.vtouch .agent c.part c.asid c.desc 128 c.sys true).copyGo { c with bytes := bs })) ∧
      (∀ e, s.vread .agent c.part c.asid c.desc 128 c.sys = .error e → (∀ ps, e ≠ .fault ps) → exec (.copyComplete id) s = .next (s.copyEnd c 8))) ∧
    (c.holds = [] → c.bytes ≠ [] →
      let ends (S : State) (C : Copy) (st : Nat) : Prop := S.vcheckK (S.copyVia C) C.part C.asid (C.desc + 0x3C) 4 C.sys true = [] →
        let T := ((S.release (S.copyVia C).core Scope.dev.rank).vwrite (S.copyVia C) C.part C.asid (C.desc + 0x3C) C.sys (toBytes 4 st)).spoilBytes
          ((List.range 4).map (fun i => (.mem C.asid, C.desc + 0x3C + i)))
        ∃ u, exec (.copyComplete id) s = .next u ∧ u.copies = s.copies.filter (·.id ≠ id) ∧
          (∀ tag, c.tag = some tag → u.mem = T.mem ∧ u.lines = T.lines ∧
            ∀ wv, S.wave? tag c.wave = some wv → ∃ v, u.wave? tag c.wave = some v ∧ v.fflags = wv.fflags ||| C.flags.setWidth 64 ∧
              ∀ n, v.evr n = if c.ev = some n then wv.evr n - 1 else wv.evr n) ∧
          (∀ g gr, c.tag = none → c.grid = some g → S.grid? g = some gr → gr.parent = none → c.part < s.parts.length → ∃ y,
            (u.part c.part).compl = (S.part c.part).compl ++ [y] ∧ y.lrec = gr.lrec ∧ y.status = 0 ∧ y.cstat = st)
      (∀ st, c.fin = some st → ends s c st) ∧
      (c.fin = none → c.bad = true → ends (s.setCopy { c with fin := some 1 }) { c with fin := some 1 } 1) ∧
      (∀ s1 c1 st, c.fin = none → c.bad = false → s.copyRun (c.units - c.pos) c = (s1, c1) → c1.fin = some st → ends (s1.setCopy c1) c1 st)) ∧
    (∀ tag t a b n, c.tag = some tag → s.team? tag = some t → c.fscr = true → c.tscr = true → c.sf = 16 →
      c.src c.pos = (((a : Nat) : Int), n) → c.dst c.pos = (((b : Nat) : Int), n) → a + n ≤ s.copyScr c → b + n ≤ s.copyScr c →
      (∀ i, i < n → s.copyOverlap c (b + i : Nat) = false ∧ t.scrBad (a + i) 1 = none) →
      ∃ s1 c1, s.copyUnit c = .ok (s1, c1) ∧ c1.pos = c.pos + 1 ∧ s1.copies = s.copies ∧ ∃ t1, s1.team? tag = some t1 ∧
        ∀ x, shas t1.scratch x = if b ≤ x ∧ x < b + n then some (t.scrByte s.free (a + (x - b))) else shas t.scratch x)) ∧
  (∀ (s : State) tag t g, s.team? tag = some t → s.gang? t.gid = some g →
    (s.placed t = false ∨ t.retired = true ∨ t.mayPush g.kobj = false → exec (.streamPush tag) s = .refused (.notEnabled "STREAM_PUSH")) ∧
    (∀ n st, s.placed t = true → t.retired = false → t.mayPush g.kobj = true → g.kobj.nextFed t.aq.ns = some n → g.kobj.streams[n]? = some st → t.aq.q.length = 8 →
      let addr (l : Nat) : Nat := (BitVec.ofInt 64 ((List.range g.kobj.aloops).foldl (fun a j =>
        a + (t.aq.it / ((g.kobj.trips.take j).foldl (· * ·) 1) % max (g.kobj.trips.getD j 1) 1 : Nat) * st.stride.getD j 0)
        (((t.aq.base.getD n 0).toNat : Nat) + (l : Nat) * st.lstride))).toNat
      ∃ u t' e, exec (.streamPush tag) s = .next u ∧ u.team? tag = some t' ∧ t'.aq.q.getD n [] = t.aq.q.getD n [] ++ [e] ∧
        e.addrs = byLane addr ∧ e.words = byLane (fun l => s.streamLane t st.esz (addr l)) ∧ e.popped = false)) ∧
  (∀ (s : State) tag w wv, s.wave? tag w = some wv →
    (∀ r e, wv.late s.cycle = some (r, e) → exec (.sluiceTimeout tag w) s = .next (s.takeTrap tag w (e.mask &&& wv.endMask e.iss)
      { cause := 0x0D, lanes := e.lanes, addr := e.site, region := r.start, after := false, faddr := 0 })) ∧
    (wv.late s.cycle = none → exec (.sluiceTimeout tag w) s = .refused (.notEnabled "SLUICE_TIMEOUT")) ∧
    (wv.late s.cycle = none ↔ ∀ r ∈ wv.regions, ∀ e h d a b, r.ended = some (.op e) → e.instr = .slin h d a b → e.since ≠ 0 → e.lim ≠ 0 →
      ({ e with lanes := e.lanes &&& wv.endMask e.iss } : EndOp).settled (e.lanes &&& wv.endMask e.iss) = false → s.cycle - (e.since - 1) ≤ e.lim * 1200)) ∧
  (∀ (s : State) p, (∀ c, (s.part p).blockedAt = some c → s.cycle < c + 1200000 ∨ (s.part p).snapped = true ∨ s.allBlocked p = false) →
      exec (.sluiceDeadlock p) s = .refused (.notEnabled "SLUICE_DEADLOCK")) ∧
  (∀ (s : State) p c, (s.part p).blockedAt = some c → c + 1200000 ≤ s.cycle → (s.part p).snapped = false → s.allBlocked p = true →
      exec (.sluiceDeadlock p) s = .next ((s.blockedWaves p).foldl (fun u x => u.takeTrap x.1.tag x.2.ix 0 (s.deadlockTrap x.1 x.2))
        ((s.snapshot p).updPart p (fun q => { q with snapped := true })))) ∧
  (∀ (s : State) tag n t g, s.team? tag = some t → s.gang? t.gid = some g →
    let r := t.record n
    (s.recRuns t r = true → r.isRay = false → r.root = n → exec (.beamTreeSettled tag n) s = .next ((s.runRec tag n).wakeBeams tag)) ∧
    (s.recRuns t r = false ∨ r.isRay = true ∨ r.root ≠ n → exec (.beamTreeSettled tag n) s = .refused (.notEnabled "BEAM_TREE_SETTLED")) ∧
    (∀ x, shas t.pool n = some x → x.isRay = true → s.recRuns t x = true → (t.pool.map (·.1)).Nodup →
        (∀ m y, (m, y) ∈ t.pool → y.isRay = true → y.cast = x.cast → m = n) →
      exec (.raysSettled tag x.cast) s = .next ((s.runRec tag n).wakeBeams tag)) ∧
    (r.isRay = true → r.cands = [] → (∀ y ∈ r.rays, y.fin = true) → ∃ t', (s.runRec tag n).team? tag = some t' ∧ (t'.record n).st = .ready) ∧
    (r.isRay = true → (s.passRays t n r).2 = some .malformed → ∃ t', (s.runRec tag n).team? tag = some t' ∧ (t'.record n).st = .failed ∧ (t'.record n).cause = 0x14) ∧
    (r.isRay = false → (s.passBeam t g.kobj n r).2 = some .malformed → ∃ t', (s.runRec tag n).team? tag = some t' ∧ (t'.record n).st = .failed ∧ (t'.record n).cause = 0x14) ∧
    (r.isRay = true → (s.passRays t n r).2 = none → (s.runRec tag n).team? tag = some (s.passRays t n r).1) ∧
    (r.isRay = false → (s.passBeam t g.kobj n r).2 = none → (s.runRec tag n).team? tag = some (s.passBeam t g.kobj n r).1))

/-- SECTOR_FILL, SPILL_REFETCH (R211, R223, R226), the fault records that software resolves or frees (R217), accesses of the host and of peers
(R438, R440, R442), ATS_INVALIDATE (R440) and LINK_CRC_ERROR (R444).
Where the manual leaves it open, this is the model's choice: log entries 24 and 47. -/
def Obligations.FillsFaultsAndOutsideAccesses : Prop :=
  (∀ (s : State) i m pa err, s.misses[i]? = some m → exec (.sectorFill (some i) pa err) s = .next (({ s with misses := s.misses.eraseIdx i } : State).fillMiss m err)) ∧
  (∀ (s : State) i pa err, s.misses[i]? = none → exec (.sectorFill (some i) pa err) s = .refused (.notEnabled "SECTOR_FILL")) ∧
  (∀ (s : State) m pa a, s.translate m.part m.asid m.va m.sys .read = .ok pa a → a.home ≠ 3#2 → s.lines = [] →
    let t := Tgt.of m.part m.asid m.va pa a
    s.blur t = false → (∃ w, w < 16 ∧ bit (s.waysOf t) w = true) → ∃ l, (s.fillMiss m .none).lineAt (.slice (s.homeOf t)) t = some l ∧
      ∀ o, o / 64 = m.va % 256 / 64 → l.has o = true ∧ (s.undefAt (t.pa + o) = false → sget 0 l.data o = s.memAt (t.pa + o))) ∧
  (∀ (s : State) pa,
    (devLimit ≤ pa → ∀ err, exec (.sectorFill none pa err) s = .refused (.notEnabled "SECTOR_FILL")) ∧
    exec (.sectorFill none pa .none) s = .refused (.notEnabled "SECTOR_FILL") ∧
    (pa < devLimit → exec (.sectorFill none pa .corrected) s = .next { s with ecc := s.ecc + 1 }) ∧
    (pa < devLimit → ∃ u : State, exec (.sectorFill none pa .uncorrectable) s = .next (u.memError (s.interleave (pa / 64 * 64)).1 (pa / 64 * 64)) ∧
      u.mem = s.mem ∧ ∀ j, j < 16 → u.cellBad (pa / 64 * 64 + 4 * j) = true)) ∧
  (∀ (s : State) sl m, s.spill.find? (·.slice == sl) = some m →
    ((s.misses.filter (·.slice == sl)).length < 704 → exec (.spillRefetch sl) s = .next { s with misses := s.misses ++ [m], spill := s.spill.erase m }) ∧
    (704 ≤ (s.misses.filter (·.slice == sl)).length → exec (.spillRefetch sl) s = .refused (.notEnabled "SPILL_REFETCH"))) ∧
  (∀ (s : State) p slot,
    (s.slotUsed p slot = false → exec (.faultResolved p slot) s = .refused (.notEnabled "FAULT_RESOLVED")) ∧
    (∀ s1, s.slotUsed p slot = true → s.setSlotState p slot 3 = some s1 → ∃ u, exec (.faultResolved p slot) s = .next u ∧
      (∀ h ∈ u.holdsOf p, h.slot ≠ some slot) ∧ u.mem = s1.mem ∧ u.lines = s1.lines) ∧
    (s.isSlot p slot = false → exec (.faultRecordFreed p slot) s = .refused (.notEnabled "FAULT_RECORD_FREED")) ∧
    (∀ s1, s.isSlot p slot = true → s.setSlotState p slot 0 = some s1 → exec (.faultRecordFreed p slot) s = .next (s1.reenter p)) ∧
    (p < 4 → (s.part p).slotErr = true → (s.part p).retryAt + 120000 ≤ s.cycle →
      exec (.faultSlotRetry p) s = .next ((s.updPart p (fun q => { q with retryAt := s.cycle })).reenter p)) ∧
    ((s.part p).slotErr = false ∨ s.cycle < (s.part p).retryAt + 120000 → exec (.faultSlotRetry p) s = .refused (.notEnabled "FAULT_SLOT_RETRY")) ∧
    ((∀ h ∈ s.holdsOf p, h.slot.isSome) → s.reenter p = s)) ∧
  (∀ (s : State) pa n, n ≠ 0 → pa + n ≤ devLimit → pa + n ≤ fwLo →
    exec (.hostBar2Access pa n none) s = .next { s with hostRead := (List.range n).map (fun i => s.devByte (pa + i)) } ∧
    (∀ bs, bs.length = n → (∀ i j, i < n → j < n → s.cell (pa + i) = s.cell (pa + j) → i = j) → s.lines = [] → s.linkErr = [] →
      ∃ u, exec (.hostBar2Access pa n (some bs)) s = .next u ∧ (∀ i, i < n → u.devByte (pa + i) = bs.getD i 0) ∧
        ∀ a, (∀ i, i < n → s.cell a ≠ s.cell (pa + i)) → u.memAt a = s.memAt a)) ∧
  (∀ (s : State) port pa n, n ≠ 0 → pa + n ≤ devLimit → s.portUp.getD (if port then 1 else 0) false = true →
    let S := s.combinePa pa n
    let bs := (List.range n).map (fun i => S.peerByte (pa + i))
    let old := BitVec.ofNat 64 (ofBytes (bs.map (·.b)))
    let T : State := { S with hostRead := bs.map (·.b) }
    exec (.peerAccess pa n ⟨port, .read⟩) s = .next T ∧
    (∀ xs, xs.length = n → (∀ i j, i < n → j < n → s.cell (pa + i) = s.cell (pa + j) → i = j) → s.lines = [] → s.linkErr = [] → s.upds = [] →
      ∃ u, exec (.peerAccess pa n ⟨port, .write xs⟩) s = .next u ∧ (∀ i, i < n → (u.peerByte (pa + i)).b = xs.getD i 0) ∧
        ∀ a, (∀ i, i < n → s.cell a ≠ s.cell (pa + i)) → u.memAt a = s.memAt a) ∧
    (∀ op ty x y, 4 ≤ MTy.size ty → ty.size = n → pa % n = 0 →
      ((∃ b ∈ bs, b.bad = true) → ∀ o, exec (.peerAccess pa n ⟨port, .atom o ty x y⟩) s = .next T) ∧
      ((∀ b ∈ bs, b.bad = false) → exec (.peerAccess pa n ⟨port, .atom (some op) ty x y⟩) s = .next (T.peerWrite pa (toBytes n (atomNew op ty old x).1.toNat)) ∧
        exec (.peerAccess pa n ⟨port, .atom none ty x y⟩) s = .next (if old = x then T.peerWrite pa (toBytes n y.toNat) else T)))) ∧
  (∀ (s : State) pa n (req : PeerReq), s.portUp.getD (if req.port then 1 else 0) false = false → exec (.peerAccess pa n req) s = .refused (.notEnabled "PEER_ACCESS")) ∧
  (∀ (s : State) pa n, n ≠ 0 → pa + n ≤ devLimit → fwLo < pa + n →
    exec (.hostBar2Access pa n none) s = .next { s with hostRead := List.replicate n 0xFF } ∧
    ∀ bs, bs.length = n → exec (.hostBar2Access pa n (some bs)) s = .next s) ∧
  (∀ (s : State) bus, ∃ u, exec (.atsInvalidate bus) s = .next u ∧ bus / 4096 ∉ u.ats ∧ (∀ x ∈ s.ats, x ≠ bus / 4096 → x ∈ u.ats) ∧ u.mem = s.mem) ∧
  (∀ (s : State) port pa wr,
    (physOk pa = true → peerLo ≤ pa → bits pa 41 1 = port → exec (.linkCrcError port pa wr) s =
      .next (({ s with linkErr := { pa := pa / 64 * 64, at_ := s.cycle + 1, wr := wr } :: s.linkErr } : State).linkError port pa)) ∧
    (physOk pa = false ∨ pa < peerLo ∨ bits pa 41 1 ≠ port → exec (.linkCrcError port pa wr) s = .refused (.notEnabled "LINK_CRC_ERROR"))) ∧
  (∀ (s : State) (t : Tgt) o b, (s.linkFails (t.pa + o) false = true → (s.memBV (t.pa + o)).bad = true) ∧
    (s.linkFails (t.pa + o) true = true → s.memPuts t [(o, b)] = s))

/-- RECORD_TAKE (R82, R85 to R87, R91, R93, Table 4.3) and NODE_COMPLETE (R94, R425, R426).
Where the manual leaves it open, this is the model's choice: log entries 21, 42, 46 and 49. -/
def Obligations.RecordsAndCompletions : Prop :=
  (∀ (s : State) p q x, p < 4 → s.parts.length = 4 → (s.part p).queues[q]? = some x →
    (s.working p = false ∨ (s.part p).agentWaits (takeHold q) = true ∨ (x.took = none ∧ x.mayTake = false) →
      exec (.recordTake p q) s = .refused (.notEnabled "RECORD_TAKE")) ∧
    (∀ y, s.working p = true → (s.part p).agentWaits (takeHold q) = false → x.took = some y → exec (.recordTake p q) s = .next (s.takeOn p q y)) ∧
    (s.working p = true → (s.part p).agentWaits (takeHold q) = false → x.mayTake = true →
      let asid := cfgAsid x.cfg
      let ix := idxR x.idx
      let va := cfgBase x.cfg + 64 * (ix % cfgSize x.cfg)
      let idx := mkIdx (ix + 1) (idxW x.idx)
      let S := ((s.touch .outer p asid va 64 true .read true).acquire none (Scope.rank .sys)).updQueue p q (fun x => { x with idx := idx })
      let refused (st : Nat) : Prop := ∃ u, exec (.recordTake p q) s = .next u ∧ (u.part p).queues[q]? = some { x with
        idx := idx, stat := BitVec.ofNat 64 (ix % 2 ^ 32 * 2 ^ 32 + st * 256 + 3) } ∧ u.grids = s.grids
      (∀ e, s.readBy .outer p asid va 64 true .read = .error e → refused 0x07) ∧
      (∀ raw, s.readBy .outer p asid va 64 true .read = .ok raw →
        let r := LRec.ofBytes raw
        let st := S.recStatus p q r (S.recReads p asid r) (idxUsed x.idx > cfgSize x.cfg)
        let T := S.recTouch p asid r
        let entry := T.nodeRead p r.node.toNat
        let hasEntry : Prop := r.hasNode = true ∧ r.node.toNat < S.nodeN p
        (st ≠ 0 → ¬hasEntry → refused st) ∧
        (st = 0 → r.hasNode = false → ∃ u g, exec (.recordTake p q) s = .next u ∧ u.grids = s.grids ++ [g] ∧ g.id = s.nextId ∧ g.lrec = r ∧
          g.queue = q ∧ g.asid = asid ∧ g.parent = none ∧ g.depth = 1 ∧ (u.part p).queues[q]? = some { x with idx := idx, cur := some s.nextId }) ∧
        (∀ ps, hasEntry → entry = .error (.fault ps) → ∃ u, exec (.recordTake p q) s = .next u ∧ u.grids = s.grids ∧
          (u.part p).queues[q]? = some { x with idx := idx, took := some { ix := ix, raw := raw, st := st } }) ∧
        (hasEntry → (∀ ps, entry ≠ .error (.fault ps)) → nodeStatus r st entry ≠ 0 → refused (nodeStatus r st entry)) ∧
        (∀ b, hasEntry → entry = .ok b → nodeStatus r st entry = 0 → nodeRem b + r.preds = 0 → r.kind ≠ 2 → ∃ u, exec (.recordTake p q) s = .next u ∧
          (u.part p).queues[q]? = some { x with idx := idx, readyN := x.readyN ++ [(r.node.toNat, r)] })))) ∧
  (∀ (s : State) p q (r : LRec) (rd : RecReads) big, (rd.succ.2 ≠ none ∨ ∃ e, rd.obj = some (.error e)) → s.recStatus p q r rd big = 0x07) ∧
  (∀ (s : State) p q (r : LRec) (rd : RecReads), rd.succ.2 = none → (∀ e, rd.obj ≠ some (.error e)) →
    s.recStatus p q r rd true = 0x06 ∧ (r.kindBad = true → s.recStatus p q r rd false = 0x04) ∧
    (r.kindBad = false → r.shapeBad = true → s.recStatus p q r rd false = 0x03) ∧
    (r.kindBad = false → r.shapeBad = false → rd.obj = none → r.hasNode = false → (r.preds ≠ 0 ∨ r.kind = 2) → s.recStatus p q r rd false = 0x05)) ∧
  (∀ (s : State) p c rest, p < 4 → s.parts.length = 4 → (s.part p).compl = c :: rest →
    (s.working p = false ∨ (s.part p).agentWaits complHold = true ∨ (c.stage = 1 ∧ (s.part p).complFull = true) →
      exec (.nodeComplete p) s = .refused (.notEnabled "NODE_COMPLETE")) ∧
    (s.working p = true → (s.part p).agentWaits complHold = false → c.lrec.hasNode = false →
      let S := if c.stage = 0 then s.complRelease p c else s
      (c.stage = 0 → (s.part p).complFull = true → ∃ u, exec (.nodeComplete p) s = .next u ∧ (u.part p).compl = { c with stage := 1 } :: rest) ∧
      (c.stage ≤ 1 → c.lrec.nsucc = 0 → cfgEn (s.part p).cqcfg = false → ∃ u, exec (.nodeComplete p) s = .next u ∧ (u.part p).compl = rest) ∧
      (∀ s1, c.stage ≤ 1 → c.lrec.nsucc = 0 → cfgEn (s.part p).cqcfg = true → (s.part p).complFull = false →
        S.writeVia .outer p (cfgAsid (s.part p).cqcfg) (cfgBase (s.part p).cqcfg + 32 * (idxW (s.part p).cqidx % cfgSize (s.part p).cqcfg)) true
          (packRec [(c.lrec.seq.toNat, 8), (c.lrec.node.toNat, 4), (c.queue, 1), (c.status, 1), (c.cause, 1), (c.cstat, 1), (c.energy, 8), (s.seqOf p, 8)]) = .ok s1 →
        ∃ u, exec (.nodeComplete p) s = .next u ∧ (u.part p).compl = rest ∧ u.mem = s1.mem ∧ u.lines = s1.lines ∧ (u.part p).eseq = (s.part p).eseq + 1 ∧
          (u.part p).cqidx = mkIdx (idxR (s.part p).cqidx) (idxW (s.part p).cqidx + 1))))

/-- GANG_PLACE (R89, R96, R114 to R119), PREEMPT_SAVED (R412, R413), PARK (R101), TEAM_RETIRE (R424) and CORE_UNCORRECTABLE_ERROR (R414).
Where the manual leaves it open, this is the model's choice: log entries 5, 44, 46, 51 and 53. -/
def Obligations.PlacementAndRetirement : Prop :=
  (∀ (s : State) p, (s.working p = false → exec (.gangPlace p) s = .refused (.notEnabled "GANG_PLACE")) ∧
    (∀ u, s.working p = true → (∀ n, n < 64 → s.pullable p n = false) → s.placeStep p = some u → exec (.gangPlace p) s = .next u) ∧
    (s.working p = true → (∀ n, n < 64 → s.pullable p n = false) → s.placeStep p = none → exec (.gangPlace p) s = .refused (.notEnabled "GANG_PLACE")) ∧
    (∀ g k a, s.working p = true → (∀ n, n < 64 → s.pullable p n = false) → s.head? p true = none → s.head? p false = some (.fresh g) → g.lat = false → g.lrec.kind = 0 →
      g.lrec.hasNode = false → s.kobjOf g = some k → (s.part p).admits false (k.gw * k.gh * g.lrec.est.toNat) = true →
      s.search { p := p, lat := false, k := k, quarter := s.quarterFor g, spare := false, force := false } = some a →
      (∀ t ∈ s.teams, t.gid ≠ s.nextId) →
      ∃ u y, exec (.gangPlace p) s = .next u ∧ u.gangs = s.gangs ++ [y] ∧ y.gid = s.nextId ∧ y.grid = g.id ∧ y.st = .placed ∧ y.kobj = k ∧
        y.x = g.next % max 1 g.lrec.gx.toNat ∧ y.y = g.next / max 1 g.lrec.gx.toNat % max 1 g.lrec.gy.toNat ∧
        y.z = g.next / (max 1 g.lrec.gx.toNat * max 1 g.lrec.gy.toNat) ∧ (u.teamsOf y.gid).length = k.gw * k.gh ∧
        ∀ t ∈ u.teamsOf y.gid, t.core = k.coreOf a t.pos ∧ t.part = g.part ∧ t.asid = g.asid ∧
          ∀ wv ∈ t.waves, wv.sr 0 = g.lrec.args ∧ wv.sr 1 = BitVec.ofNat 64 k.addr ∧ wv.thr = List.replicate 32 { pc := k.entry, exited := false, mem := 0, hold := none })) ∧
  (∀ (s : State) p h, p < s.parts.length → s.working p = true → (∀ n, n < 64 → s.pullable p n = false) → s.head? p true = none → s.head? p false = some h →
    s.actOn p false h (s.verdict p false false h) = none → h.id ∉ (s.part p).headBulk →
    exec (.gangPlace p) s = .next (s.updPart p (fun q => { q with headBulk := h.id :: q.headBulk.filter (fun x => x.isBack != h.id.isBack) }))) ∧
  (∀ (s : State) gid g, s.gang? gid = some g →
    (g.st ≠ .leaving ∨ (∃ t ∈ s.teamsOf gid, ∃ wv ∈ t.waves, wv.pend ≠ []) → exec (.preemptSaved gid) s = .refused (.notEnabled "PREEMPT_SAVED")) ∧
    (g.st = .leaving → (∀ t ∈ s.teamsOf gid, ∀ wv ∈ t.waves, wv.pend = []) →
      (∀ t ∈ s.teams, ∀ y ∈ s.teams, t.gid = gid → y.tag = t.tag → y.gid = gid) → ∃ u, exec (.preemptSaved gid) s = .next u ∧
      (g.waitPark = false → (u.gang? gid).map (·.st) = some .returning) ∧
      (g.waitPark = true → (u.gang? gid).map (·.st) = some .parked ∨ (u.gang? gid).map (·.st) = some .returning)) ∧
    (s.mayPark g = false → exec (.park gid) s = .refused (.notEnabled "PARK")) ∧
    (s.mayPark g = true → ∃ u, exec (.park gid) s = .next u ∧ (u.gang? gid).map (fun x => (x.st, x.waitPark)) = some (.leaving, true))) ∧
  (∀ (s : State) tag t, s.team? tag = some t →
    (s.placed t = false ∨ t.ended = false → exec (.teamRetire tag) s = .refused (.notEnabled "TEAM_RETIRE")) ∧
    (s.placed t = true → t.ended = true → ∃ u, exec (.teamRetire tag) s = .next u ∧ (u.team? tag).map (fun x => (x.retired, x.waves, x.sramLen)) = some (true, [], 0))) ∧
  (∀ (s : State) core x, (s.locOn core x = false → exec (.coreUncorrectableError core x) s = .refused (.notEnabled "CORE_UNCORRECTABLE_ERROR")) ∧
    (s.locOn core x = true → x = .noState → exec (.coreUncorrectableError core x) s = .next { s with crc := s.crc + 1 }) ∧
    (s.locOn core x = true → x = .corrected → exec (.coreUncorrectableError core x) s = .next { s with coreEcc := s.coreEcc + 1 }) ∧
    (s.locOn core x = true → x ≠ .noState → x ≠ .corrected → ∃ u, exec (.coreUncorrectableError core x) s = .next u ∧ core ∈ u.failed))

/-- BOOT (R434, R435), FIRMWARE_UPDATE (R436, R437), the halted cores (R417, R438), MSIX_TABLE_WRITE (R439) and ENERGY_REFILL (R95, R429).
Where the manual leaves it open, this is the model's choice: log entries 9, 11, 20, 48 and 52. -/
def Obligations.DeviceEvents : Prop :=
  (∀ (s : State) r, s.booted = true ∨ s.dstat.getLsbD 1 = true ∨ s.teams ≠ [] → exec (.boot r) s = .refused (.notEnabled "BOOT")) ∧
  (∀ s : State, s.bootrec = [0, 0, 0, 0, 0, 0] → s.dstat.getLsbD 1 = false → s.teams = [] → s.parts.length = 4 →
    (∃ u, exec (.boot []) s = .next u ∧ u.bootrec = [2, 2, 2, 2, 2, 2] ∧ u.portUp = [true, true] ∧ (u.part 0).pmlim = 0xFE0000000 ∧ u.mem = s.mem) ∧
    (∀ j, j < 6 → ∃ u, exec (.boot ((List.range 6).map (· != j))) s = .next u ∧ u.bootrec[j]? = some 1 ∧ u.booted = false)) ∧
  (∀ s : State, s.bootrec = [1, 0, 0, 0, 0, 0] → s.dstat.getLsbD 1 = false → s.teams = [] →
    ∃ u, exec (.boot [false]) s = .next u ∧ u.bootrec[0]? = some 5 ∧ u.dstat.getLsbD 1 = true) ∧
  (∀ (s : State) (img : FwImage), (s.booted = false ∨ s.rootHalt = true → exec (.firmwareUpdate img) s = .refused (.notEnabled "FIRMWARE_UPDATE")) ∧
    (s.booted = true → s.rootHalt = false →
      (img.rsaOk = false ∨ img.slhOk = false ∨ img.secVer < Config.fusedVersion → exec (.firmwareUpdate img) s = .next s) ∧
      (img.rsaOk = true → img.slhOk = true → Config.fusedVersion ≤ img.secVer → s.fwVer.length = 5 → s.fwProto.length = 5 →
        img.protoLo.toNat ≤ img.protoHi.toNat →
        (∀ x ∈ s.fwProto, max img.protoLo.toNat x.1.toNat ≤ min img.protoHi.toNat x.2.toNat) →
        ∃ u, exec (.firmwareUpdate img) s = .next u ∧ u.fwVer = List.replicate 5 img.secVer ∧
          ∀ d o, d < 5 → o < 5 → u.mailVersion d o = some img.protoHi))) ∧
  (∀ (s : State) d o, s.mailVersion d o =
    let x := s.fwProto.getD d (0, 0)
    let y := s.fwProto.getD o (0, 0)
    if max x.1.toNat y.1.toNat ≤ min x.2.toNat y.2.toNat then some (BitVec.ofNat 16 (min x.2.toNat y.2.toNat)) else none) ∧
  (∀ (s : State) q, q < 4 →
    (s.schedHalt.getLsbD q = false → exec (.schedulerCoreError q) s = .next { s with schedHalt := s.schedHalt ||| (1#4 <<< q) }) ∧
    (s.schedHalt.getLsbD q = true → exec (.schedulerCoreError q) s = .refused (.notEnabled "SCHEDULER_CORE_ERROR")) ∧
    (s.schedHalt.getLsbD q = true → s.rootHalt = false → ∃ u, exec (.schedulerCoreReloaded q) s = .next u ∧
      ∀ j, j < 4 → u.schedHalt.getLsbD j = (s.schedHalt.getLsbD j && decide (j ≠ q))) ∧
    (s.schedHalt.getLsbD q = false ∨ s.rootHalt = true → exec (.schedulerCoreReloaded q) s = .refused (.notEnabled "SCHEDULER_CORE_RELOADED"))) ∧
  (∀ s : State, (s.rootHalt = true → exec .rootCoreError s = .refused (.notEnabled "ROOT_CORE_ERROR")) ∧
    (s.rootHalt = false → ∃ u, exec .rootCoreError s = .next u ∧ u.rootHalt = true ∧ u.dstat = s.dstat ||| 1 ∧ (∀ p, u.working p = false) ∧
      (s.msixPend.getLsbD 0 = false → s.msixMask.getLsbD 0 = false → u.msgs = 0 :: s.msgs) ∧
      (s.msixMask.getLsbD 0 = true → u.msgs = s.msgs ∧ u.msixPend.getLsbD 0 = true ∨ s.msixPend.getLsbD 0 = true))) ∧
  (∀ (s : State) v mask clr, v < 64 → ∃ u, exec (.msixTableWrite v mask clr) s = .next u ∧
    (∀ j, j < 64 → u.msixMask.getLsbD j = if j = v then mask else s.msixMask.getLsbD j) ∧
    (mask = false → clr = false → s.msixPend.getLsbD v = true → u.msgs = v :: s.msgs ∧ u.msixPend.getLsbD v = false) ∧
    (mask = true ∨ clr = true ∨ s.msixPend.getLsbD v = false → u.msgs = s.msgs)) ∧
  (∀ s : State, (s.cycle < s.refillAt + 120000 → exec .energyRefill s = .refused (.notEnabled "ENERGY_REFILL")) ∧
    (s.refillAt + 120000 ≤ s.cycle → ∃ u, exec .energyRefill s = .next u ∧ u.refillAt = s.refillAt + 120000 ∧ u.mem = s.mem ∧ u.teams = s.teams ∧
      ((((List.range 4).filter s.active).map (fun p => (s.part p).share)).foldl (· + ·) 0 ≤ 540 → ∀ p, p < s.parts.length →
        (u.part p).bal = min ((s.part p).bal + (s.part p).share * 100) (max (s.part p).bal ((s.part p).share * 1000)) ∧
        (u.part p).share = (s.part p).share ∧ (u.part p).rsv = (s.part p).rsv)))

/-- Every step keeps the canonical form of memory: addresses strictly rising and no entry equal to what an unlisted address reads as.
Where the manual leaves it open, this is the model's choice: log entry 1. -/
def Obligations.StepKeepsInv : Prop := ∀ s t : State, step s = .next t → Machine.Inv s → Machine.Inv t
end

