-- ==== Sys2Proof/Laws/State.lean ====
section
/-! SUPPORT. Sys2Proof/Laws/State.lean: what each update of the device leaves as it was, field by field. -/
namespace Sys2Proof.Machine

/-! ### State.updTeam -/

@[simp] theorem State.updTeam_mem (s : State) (tag : Nat) (f : Team → Team) : (s.updTeam tag f).mem = s.mem := rfl
@[simp] theorem State.updTeam_undef (s : State) (tag : Nat) (f : Team → Team) : (s.updTeam tag f).undef = s.undef := rfl
@[simp] theorem State.updTeam_poison (s : State) (tag : Nat) (f : Team → Team) : (s.updTeam tag f).poison = s.poison := rfl
@[simp] theorem State.updTeam_asidDir (s : State) (tag : Nat) (f : Team → Team) : (s.updTeam tag f).asidDir = s.asidDir := rfl
@[simp] theorem State.updTeam_cycle (s : State) (tag : Nat) (f : Team → Team) : (s.updTeam tag f).cycle = s.cycle := rfl
@[simp] theorem State.updTeam_sched (s : State) (tag : Nat) (f : Team → Team) : (s.updTeam tag f).sched = s.sched := rfl
@[simp] theorem State.updTeam_free (s : State) (tag : Nat) (f : Team → Team) : (s.updTeam tag f).free = s.free := rfl
@[simp] theorem State.updTeam_cur (s : State) (tag : Nat) (f : Team → Team) : (s.updTeam tag f).cur = s.cur := rfl
@[simp] theorem State.updTeam_nextId (s : State) (tag : Nat) (f : Team → Team) : (s.updTeam tag f).nextId = s.nextId := rfl
@[simp] theorem State.updTeam_nextTag (s : State) (tag : Nat) (f : Team → Team) : (s.updTeam tag f).nextTag = s.nextTag := rfl
@[simp] theorem State.updTeam_refillAt (s : State) (tag : Nat) (f : Team → Team) : (s.updTeam tag f).refillAt = s.refillAt := rfl
@[simp] theorem State.updTeam_disabled (s : State) (tag : Nat) (f : Team → Team) : (s.updTeam tag f).disabled = s.disabled := rfl
@[simp] theorem State.updTeam_quartersOff (s : State) (tag : Nat) (f : Team → Team) : (s.updTeam tag f).quartersOff = s.quartersOff := rfl
@[simp] theorem State.updTeam_bootBad (s : State) (tag : Nat) (f : Team → Team) : (s.updTeam tag f).bootBad = s.bootBad := rfl
@[simp] theorem State.updTeam_failed (s : State) (tag : Nat) (f : Team → Team) : (s.updTeam tag f).failed = s.failed := rfl
@[simp] theorem State.updTeam_dstat (s : State) (tag : Nat) (f : Team → Team) : (s.updTeam tag f).dstat = s.dstat := rfl
@[simp] theorem State.updTeam_bootrec (s : State) (tag : Nat) (f : Team → Team) : (s.updTeam tag f).bootrec = s.bootrec := rfl
@[simp] theorem State.updTeam_pcq (s : State) (tag : Nat) (f : Team → Team) : (s.updTeam tag f).pcq = s.pcq := rfl
@[simp] theorem State.updTeam_pca (s : State) (tag : Nat) (f : Team → Team) : (s.updTeam tag f).pca = s.pca := rfl
@[simp] theorem State.updTeam_msixMask (s : State) (tag : Nat) (f : Team → Team) : (s.updTeam tag f).msixMask = s.msixMask := rfl
@[simp] theorem State.updTeam_msixPend (s : State) (tag : Nat) (f : Team → Team) : (s.updTeam tag f).msixPend = s.msixPend := rfl
@[simp] theorem State.updTeam_msgs (s : State) (tag : Nat) (f : Team → Team) : (s.updTeam tag f).msgs = s.msgs := rfl
@[simp] theorem State.updTeam_schedHalt (s : State) (tag : Nat) (f : Team → Team) : (s.updTeam tag f).schedHalt = s.schedHalt := rfl
@[simp] theorem State.updTeam_rootHalt (s : State) (tag : Nat) (f : Team → Team) : (s.updTeam tag f).rootHalt = s.rootHalt := rfl
@[simp] theorem State.updTeam_fwVer (s : State) (tag : Nat) (f : Team → Team) : (s.updTeam tag f).fwVer = s.fwVer := rfl
@[simp] theorem State.updTeam_fwProto (s : State) (tag : Nat) (f : Team → Team) : (s.updTeam tag f).fwProto = s.fwProto := rfl
@[simp] theorem State.updTeam_fwPrev (s : State) (tag : Nat) (f : Team → Team) : (s.updTeam tag f).fwPrev = s.fwPrev := rfl
@[simp] theorem State.updTeam_portUp (s : State) (tag : Nat) (f : Team → Team) : (s.updTeam tag f).portUp = s.portUp := rfl
@[simp] theorem State.updTeam_crc (s : State) (tag : Nat) (f : Team → Team) : (s.updTeam tag f).crc = s.crc := rfl
@[simp] theorem State.updTeam_hostRead (s : State) (tag : Nat) (f : Team → Team) : (s.updTeam tag f).hostRead = s.hostRead := rfl
@[simp] theorem State.updTeam_ats (s : State) (tag : Nat) (f : Team → Team) : (s.updTeam tag f).ats = s.ats := rfl
@[simp] theorem State.updTeam_parts (s : State) (tag : Nat) (f : Team → Team) : (s.updTeam tag f).parts = s.parts := rfl
@[simp] theorem State.updTeam_gangs (s : State) (tag : Nat) (f : Team → Team) : (s.updTeam tag f).gangs = s.gangs := rfl
@[simp] theorem State.updTeam_grids (s : State) (tag : Nat) (f : Team → Team) : (s.updTeam tag f).grids = s.grids := rfl
@[simp] theorem State.updTeam_lines (s : State) (tag : Nat) (f : Team → Team) : (s.updTeam tag f).lines = s.lines := rfl
@[simp] theorem State.updTeam_stamp (s : State) (tag : Nat) (f : Team → Team) : (s.updTeam tag f).stamp = s.stamp := rfl
@[simp] theorem State.updTeam_tlb (s : State) (tag : Nat) (f : Team → Team) : (s.updTeam tag f).tlb = s.tlb := rfl
@[simp] theorem State.updTeam_maps (s : State) (tag : Nat) (f : Team → Team) : (s.updTeam tag f).maps = s.maps := rfl
@[simp] theorem State.updTeam_upds (s : State) (tag : Nat) (f : Team → Team) : (s.updTeam tag f).upds = s.upds := rfl
@[simp] theorem State.updTeam_loopBufs (s : State) (tag : Nat) (f : Team → Team) : (s.updTeam tag f).loopBufs = s.loopBufs := rfl
@[simp] theorem State.updTeam_due (s : State) (tag : Nat) (f : Team → Team) : (s.updTeam tag f).due = s.due := rfl
@[simp] theorem State.updTeam_ecc (s : State) (tag : Nat) (f : Team → Team) : (s.updTeam tag f).ecc = s.ecc := rfl
@[simp] theorem State.updTeam_coreEcc (s : State) (tag : Nat) (f : Team → Team) : (s.updTeam tag f).coreEcc = s.coreEcc := rfl
@[simp] theorem State.updTeam_linkErr (s : State) (tag : Nat) (f : Team → Team) : (s.updTeam tag f).linkErr = s.linkErr := rfl
@[simp] theorem State.updTeam_sfuBusy (s : State) (tag : Nat) (f : Team → Team) : (s.updTeam tag f).sfuBusy = s.sfuBusy := rfl
@[simp] theorem State.updTeam_misses (s : State) (tag : Nat) (f : Team → Team) : (s.updTeam tag f).misses = s.misses := rfl
@[simp] theorem State.updTeam_spill (s : State) (tag : Nat) (f : Team → Team) : (s.updTeam tag f).spill = s.spill := rfl
@[simp] theorem State.updTeam_counters (s : State) (tag : Nat) (f : Team → Team) : (s.updTeam tag f).counters = s.counters := rfl
@[simp] theorem State.updTeam_consts (s : State) (tag : Nat) (f : Team → Team) : (s.updTeam tag f).consts = s.consts := rfl
@[simp] theorem State.updTeam_latches (s : State) (tag : Nat) (f : Team → Team) : (s.updTeam tag f).latches = s.latches := rfl
@[simp] theorem State.updTeam_copies (s : State) (tag : Nat) (f : Team → Team) : (s.updTeam tag f).copies = s.copies := rfl
@[simp] theorem State.updTeam_keys (s : State) (tag : Nat) (f : Team → Team) : (s.updTeam tag f).keys = s.keys := rfl

/-! ### State.updWave -/

@[simp] theorem State.updWave_mem (s : State) (tag w : Nat) (f : Wave → Wave) : (s.updWave tag w f).mem = s.mem := rfl
@[simp] theorem State.updWave_undef (s : State) (tag w : Nat) (f : Wave → Wave) : (s.updWave tag w f).undef = s.undef := rfl
@[simp] theorem State.updWave_poison (s : State) (tag w : Nat) (f : Wave → Wave) : (s.updWave tag w f).poison = s.poison := rfl
@[simp] theorem State.updWave_asidDir (s : State) (tag w : Nat) (f : Wave → Wave) : (s.updWave tag w f).asidDir = s.asidDir := rfl
@[simp] theorem State.updWave_cycle (s : State) (tag w : Nat) (f : Wave → Wave) : (s.updWave tag w f).cycle = s.cycle := rfl
@[simp] theorem State.updWave_sched (s : State) (tag w : Nat) (f : Wave → Wave) : (s.updWave tag w f).sched = s.sched := rfl
@[simp] theorem State.updWave_free (s : State) (tag w : Nat) (f : Wave → Wave) : (s.updWave tag w f).free = s.free := rfl
@[simp] theorem State.updWave_cur (s : State) (tag w : Nat) (f : Wave → Wave) : (s.updWave tag w f).cur = s.cur := rfl
@[simp] theorem State.updWave_nextId (s : State) (tag w : Nat) (f : Wave → Wave) : (s.updWave tag w f).nextId = s.nextId := rfl
@[simp] theorem State.updWave_nextTag (s : State) (tag w : Nat) (f : Wave → Wave) : (s.updWave tag w f).nextTag = s.nextTag := rfl
@[simp] theorem State.updWave_refillAt (s : State) (tag w : Nat) (f : Wave → Wave) : (s.updWave tag w f).refillAt = s.refillAt := rfl
@[simp] theorem State.updWave_disabled (s : State) (tag w : Nat) (f : Wave → Wave) : (s.updWave tag w f).disabled = s.disabled := rfl
@[simp] theorem State.updWave_quartersOff (s : State) (tag w : Nat) (f : Wave → Wave) : (s.updWave tag w f).quartersOff = s.quartersOff := rfl
@[simp] theorem State.updWave_bootBad (s : State) (tag w : Nat) (f : Wave → Wave) : (s.updWave tag w f).bootBad = s.bootBad := rfl
@[simp] theorem State.updWave_failed (s : State) (tag w : Nat) (f : Wave → Wave) : (s.updWave tag w f).failed = s.failed := rfl
@[simp] theorem State.updWave_dstat (s : State) (tag w : Nat) (f : Wave → Wave) : (s.updWave tag w f).dstat = s.dstat := rfl
@[simp] theorem State.updWave_bootrec (s : State) (tag w : Nat) (f : Wave → Wave) : (s.updWave tag w f).bootrec = s.bootrec := rfl
@[simp] theorem State.updWave_pcq (s : State) (tag w : Nat) (f : Wave → Wave) : (s.updWave tag w f).pcq = s.pcq := rfl
@[simp] theorem State.updWave_pca (s : State) (tag w : Nat) (f : Wave → Wave) : (s.updWave tag w f).pca = s.pca := rfl
@[simp] theorem State.updWave_msixMask (s : State) (tag w : Nat) (f : Wave → Wave) : (s.updWave tag w f).msixMask = s.msixMask := rfl
@[simp] theorem State.updWave_msixPend (s : State) (tag w : Nat) (f : Wave → Wave) : (s.updWave tag w f).msixPend = s.msixPend := rfl
@[simp] theorem State.updWave_msgs (s : State) (tag w : Nat) (f : Wave → Wave) : (s.updWave tag w f).msgs = s.msgs := rfl
@[simp] theorem State.updWave_schedHalt (s : State) (tag w : Nat) (f : Wave → Wave) : (s.updWave tag w f).schedHalt = s.schedHalt := rfl
@[simp] theorem State.updWave_rootHalt (s : State) (tag w : Nat) (f : Wave → Wave) : (s.updWave tag w f).rootHalt = s.rootHalt := rfl
@[simp] theorem State.updWave_fwVer (s : State) (tag w : Nat) (f : Wave → Wave) : (s.updWave tag w f).fwVer = s.fwVer := rfl
@[simp] theorem State.updWave_fwProto (s : State) (tag w : Nat) (f : Wave → Wave) : (s.updWave tag w f).fwProto = s.fwProto := rfl
@[simp] theorem State.updWave_fwPrev (s : State) (tag w : Nat) (f : Wave → Wave) : (s.updWave tag w f).fwPrev = s.fwPrev := rfl
@[simp] theorem State.updWave_portUp (s : State) (tag w : Nat) (f : Wave → Wave) : (s.updWave tag w f).portUp = s.portUp := rfl
@[simp] theorem State.updWave_crc (s : State) (tag w : Nat) (f : Wave → Wave) : (s.updWave tag w f).crc = s.crc := rfl
@[simp] theorem State.updWave_hostRead (s : State) (tag w : Nat) (f : Wave → Wave) : (s.updWave tag w f).hostRead = s.hostRead := rfl
@[simp] theorem State.updWave_ats (s : State) (tag w : Nat) (f : Wave → Wave) : (s.updWave tag w f).ats = s.ats := rfl
@[simp] theorem State.updWave_parts (s : State) (tag w : Nat) (f : Wave → Wave) : (s.updWave tag w f).parts = s.parts := rfl
@[simp] theorem State.updWave_gangs (s : State) (tag w : Nat) (f : Wave → Wave) : (s.updWave tag w f).gangs = s.gangs := rfl
@[simp] theorem State.updWave_grids (s : State) (tag w : Nat) (f : Wave → Wave) : (s.updWave tag w f).grids = s.grids := rfl
@[simp] theorem State.updWave_lines (s : State) (tag w : Nat) (f : Wave → Wave) : (s.updWave tag w f).lines = s.lines := rfl
@[simp] theorem State.updWave_stamp (s : State) (tag w : Nat) (f : Wave → Wave) : (s.updWave tag w f).stamp = s.stamp := rfl
@[simp] theorem State.updWave_tlb (s : State) (tag w : Nat) (f : Wave → Wave) : (s.updWave tag w f).tlb = s.tlb := rfl
@[simp] theorem State.updWave_maps (s : State) (tag w : Nat) (f : Wave → Wave) : (s.updWave tag w f).maps = s.maps := rfl
@[simp] theorem State.updWave_upds (s : State) (tag w : Nat) (f : Wave → Wave) : (s.updWave tag w f).upds = s.upds := rfl
@[simp] theorem State.updWave_loopBufs (s : State) (tag w : Nat) (f : Wave → Wave) : (s.updWave tag w f).loopBufs = s.loopBufs := rfl
@[simp] theorem State.updWave_due (s : State) (tag w : Nat) (f : Wave → Wave) : (s.updWave tag w f).due = s.due := rfl
@[simp] theorem State.updWave_ecc (s : State) (tag w : Nat) (f : Wave → Wave) : (s.updWave tag w f).ecc = s.ecc := rfl
@[simp] theorem State.updWave_coreEcc (s : State) (tag w : Nat) (f : Wave → Wave) : (s.updWave tag w f).coreEcc = s.coreEcc := rfl
@[simp] theorem State.updWave_linkErr (s : State) (tag w : Nat) (f : Wave → Wave) : (s.updWave tag w f).linkErr = s.linkErr := rfl
@[simp] theorem State.updWave_sfuBusy (s : State) (tag w : Nat) (f : Wave → Wave) : (s.updWave tag w f).sfuBusy = s.sfuBusy := rfl
@[simp] theorem State.updWave_misses (s : State) (tag w : Nat) (f : Wave → Wave) : (s.updWave tag w f).misses = s.misses := rfl
@[simp] theorem State.updWave_spill (s : State) (tag w : Nat) (f : Wave → Wave) : (s.updWave tag w f).spill = s.spill := rfl
@[simp] theorem State.updWave_counters (s : State) (tag w : Nat) (f : Wave → Wave) : (s.updWave tag w f).counters = s.counters := rfl
@[simp] theorem State.updWave_consts (s : State) (tag w : Nat) (f : Wave → Wave) : (s.updWave tag w f).consts = s.consts := rfl
@[simp] theorem State.updWave_latches (s : State) (tag w : Nat) (f : Wave → Wave) : (s.updWave tag w f).latches = s.latches := rfl
@[simp] theorem State.updWave_copies (s : State) (tag w : Nat) (f : Wave → Wave) : (s.updWave tag w f).copies = s.copies := rfl
@[simp] theorem State.updWave_keys (s : State) (tag w : Nat) (f : Wave → Wave) : (s.updWave tag w f).keys = s.keys := rfl

/-! ### State.updPart -/

@[simp] theorem State.updPart_mem (s : State) (p : Nat) (f : Part → Part) : (s.updPart p f).mem = s.mem := rfl
@[simp] theorem State.updPart_undef (s : State) (p : Nat) (f : Part → Part) : (s.updPart p f).undef = s.undef := rfl
@[simp] theorem State.updPart_poison (s : State) (p : Nat) (f : Part → Part) : (s.updPart p f).poison = s.poison := rfl
@[simp] theorem State.updPart_asidDir (s : State) (p : Nat) (f : Part → Part) : (s.updPart p f).asidDir = s.asidDir := rfl
@[simp] theorem State.updPart_cycle (s : State) (p : Nat) (f : Part → Part) : (s.updPart p f).cycle = s.cycle := rfl
@[simp] theorem State.updPart_sched (s : State) (p : Nat) (f : Part → Part) : (s.updPart p f).sched = s.sched := rfl
@[simp] theorem State.updPart_free (s : State) (p : Nat) (f : Part → Part) : (s.updPart p f).free = s.free := rfl
@[simp] theorem State.updPart_cur (s : State) (p : Nat) (f : Part → Part) : (s.updPart p f).cur = s.cur := rfl
@[simp] theorem State.updPart_nextId (s : State) (p : Nat) (f : Part → Part) : (s.updPart p f).nextId = s.nextId := rfl
@[simp] theorem State.updPart_nextTag (s : State) (p : Nat) (f : Part → Part) : (s.updPart p f).nextTag = s.nextTag := rfl
@[simp] theorem State.updPart_refillAt (s : State) (p : Nat) (f : Part → Part) : (s.updPart p f).refillAt = s.refillAt := rfl
@[simp] theorem State.updPart_disabled (s : State) (p : Nat) (f : Part → Part) : (s.updPart p f).disabled = s.disabled := rfl
@[simp] theorem State.updPart_quartersOff (s : State) (p : Nat) (f : Part → Part) : (s.updPart p f).quartersOff = s.quartersOff := rfl
@[simp] theorem State.updPart_bootBad (s : State) (p : Nat) (f : Part → Part) : (s.updPart p f).bootBad = s.bootBad := rfl
@[simp] theorem State.updPart_failed (s : State) (p : Nat) (f : Part → Part) : (s.updPart p f).failed = s.failed := rfl
@[simp] theorem State.updPart_dstat (s : State) (p : Nat) (f : Part → Part) : (s.updPart p f).dstat = s.dstat := rfl
@[simp] theorem State.updPart_bootrec (s : State) (p : Nat) (f : Part → Part) : (s.updPart p f).bootrec = s.bootrec := rfl
@[simp] theorem State.updPart_pcq (s : State) (p : Nat) (f : Part → Part) : (s.updPart p f).pcq = s.pcq := rfl
@[simp] theorem State.updPart_pca (s : State) (p : Nat) (f : Part → Part) : (s.updPart p f).pca = s.pca := rfl
@[simp] theorem State.updPart_msixMask (s : State) (p : Nat) (f : Part → Part) : (s.updPart p f).msixMask = s.msixMask := rfl
@[simp] theorem State.updPart_msixPend (s : State) (p : Nat) (f : Part → Part) : (s.updPart p f).msixPend = s.msixPend := rfl
@[simp] theorem State.updPart_msgs (s : State) (p : Nat) (f : Part → Part) : (s.updPart p f).msgs = s.msgs := rfl
@[simp] theorem State.updPart_schedHalt (s : State) (p : Nat) (f : Part → Part) : (s.updPart p f).schedHalt = s.schedHalt := rfl
@[simp] theorem State.updPart_rootHalt (s : State) (p : Nat) (f : Part → Part) : (s.updPart p f).rootHalt = s.rootHalt := rfl
@[simp] theorem State.updPart_fwVer (s : State) (p : Nat) (f : Part → Part) : (s.updPart p f).fwVer = s.fwVer := rfl
@[simp] theorem State.updPart_fwProto (s : State) (p : Nat) (f : Part → Part) : (s.updPart p f).fwProto = s.fwProto := rfl
@[simp] theorem State.updPart_fwPrev (s : State) (p : Nat) (f : Part → Part) : (s.updPart p f).fwPrev = s.fwPrev := rfl
@[simp] theorem State.updPart_portUp (s : State) (p : Nat) (f : Part → Part) : (s.updPart p f).portUp = s.portUp := rfl
@[simp] theorem State.updPart_crc (s : State) (p : Nat) (f : Part → Part) : (s.updPart p f).crc = s.crc := rfl
@[simp] theorem State.updPart_hostRead (s : State) (p : Nat) (f : Part → Part) : (s.updPart p f).hostRead = s.hostRead := rfl
@[simp] theorem State.updPart_ats (s : State) (p : Nat) (f : Part → Part) : (s.updPart p f).ats = s.ats := rfl
@[simp] theorem State.updPart_teams (s : State) (p : Nat) (f : Part → Part) : (s.updPart p f).teams = s.teams := rfl
@[simp] theorem State.updPart_gangs (s : State) (p : Nat) (f : Part → Part) : (s.updPart p f).gangs = s.gangs := rfl
@[simp] theorem State.updPart_grids (s : State) (p : Nat) (f : Part → Part) : (s.updPart p f).grids = s.grids := rfl
@[simp] theorem State.updPart_lines (s : State) (p : Nat) (f : Part → Part) : (s.updPart p f).lines = s.lines := rfl
@[simp] theorem State.updPart_stamp (s : State) (p : Nat) (f : Part → Part) : (s.updPart p f).stamp = s.stamp := rfl
@[simp] theorem State.updPart_tlb (s : State) (p : Nat) (f : Part → Part) : (s.updPart p f).tlb = s.tlb := rfl
@[simp] theorem State.updPart_maps (s : State) (p : Nat) (f : Part → Part) : (s.updPart p f).maps = s.maps := rfl
@[simp] theorem State.updPart_upds (s : State) (p : Nat) (f : Part → Part) : (s.updPart p f).upds = s.upds := rfl
@[simp] theorem State.updPart_loopBufs (s : State) (p : Nat) (f : Part → Part) : (s.updPart p f).loopBufs = s.loopBufs := rfl
@[simp] theorem State.updPart_due (s : State) (p : Nat) (f : Part → Part) : (s.updPart p f).due = s.due := rfl
@[simp] theorem State.updPart_ecc (s : State) (p : Nat) (f : Part → Part) : (s.updPart p f).ecc = s.ecc := rfl
@[simp] theorem State.updPart_coreEcc (s : State) (p : Nat) (f : Part → Part) : (s.updPart p f).coreEcc = s.coreEcc := rfl
@[simp] theorem State.updPart_linkErr (s : State) (p : Nat) (f : Part → Part) : (s.updPart p f).linkErr = s.linkErr := rfl
@[simp] theorem State.updPart_sfuBusy (s : State) (p : Nat) (f : Part → Part) : (s.updPart p f).sfuBusy = s.sfuBusy := rfl
@[simp] theorem State.updPart_misses (s : State) (p : Nat) (f : Part → Part) : (s.updPart p f).misses = s.misses := rfl
@[simp] theorem State.updPart_spill (s : State) (p : Nat) (f : Part → Part) : (s.updPart p f).spill = s.spill := rfl
@[simp] theorem State.updPart_counters (s : State) (p : Nat) (f : Part → Part) : (s.updPart p f).counters = s.counters := rfl
@[simp] theorem State.updPart_consts (s : State) (p : Nat) (f : Part → Part) : (s.updPart p f).consts = s.consts := rfl
@[simp] theorem State.updPart_latches (s : State) (p : Nat) (f : Part → Part) : (s.updPart p f).latches = s.latches := rfl
@[simp] theorem State.updPart_copies (s : State) (p : Nat) (f : Part → Part) : (s.updPart p f).copies = s.copies := rfl
@[simp] theorem State.updPart_keys (s : State) (p : Nat) (f : Part → Part) : (s.updPart p f).keys = s.keys := rfl

/-! ### State.updGang -/

@[simp] theorem State.updGang_mem (s : State) (gid : Nat) (f : Gang → Gang) : (s.updGang gid f).mem = s.mem := rfl
@[simp] theorem State.updGang_undef (s : State) (gid : Nat) (f : Gang → Gang) : (s.updGang gid f).undef = s.undef := rfl
@[simp] theorem State.updGang_poison (s : State) (gid : Nat) (f : Gang → Gang) : (s.updGang gid f).poison = s.poison := rfl
@[simp] theorem State.updGang_asidDir (s : State) (gid : Nat) (f : Gang → Gang) : (s.updGang gid f).asidDir = s.asidDir := rfl
@[simp] theorem State.updGang_cycle (s : State) (gid : Nat) (f : Gang → Gang) : (s.updGang gid f).cycle = s.cycle := rfl
@[simp] theorem State.updGang_sched (s : State) (gid : Nat) (f : Gang → Gang) : (s.updGang gid f).sched = s.sched := rfl
@[simp] theorem State.updGang_free (s : State) (gid : Nat) (f : Gang → Gang) : (s.updGang gid f).free = s.free := rfl
@[simp] theorem State.updGang_cur (s : State) (gid : Nat) (f : Gang → Gang) : (s.updGang gid f).cur = s.cur := rfl
@[simp] theorem State.updGang_nextId (s : State) (gid : Nat) (f : Gang → Gang) : (s.updGang gid f).nextId = s.nextId := rfl
@[simp] theorem State.updGang_nextTag (s : State) (gid : Nat) (f : Gang → Gang) : (s.updGang gid f).nextTag = s.nextTag := rfl
@[simp] theorem State.updGang_refillAt (s : State) (gid : Nat) (f : Gang → Gang) : (s.updGang gid f).refillAt = s.refillAt := rfl
@[simp] theorem State.updGang_disabled (s : State) (gid : Nat) (f : Gang → Gang) : (s.updGang gid f).disabled = s.disabled := rfl
@[simp] theorem State.updGang_quartersOff (s : State) (gid : Nat) (f : Gang → Gang) : (s.updGang gid f).quartersOff = s.quartersOff := rfl
@[simp] theorem State.updGang_bootBad (s : State) (gid : Nat) (f : Gang → Gang) : (s.updGang gid f).bootBad = s.bootBad := rfl
@[simp] theorem State.updGang_failed (s : State) (gid : Nat) (f : Gang → Gang) : (s.updGang gid f).failed = s.failed := rfl
@[simp] theorem State.updGang_dstat (s : State) (gid : Nat) (f : Gang → Gang) : (s.updGang gid f).dstat = s.dstat := rfl
@[simp] theorem State.updGang_bootrec (s : State) (gid : Nat) (f : Gang → Gang) : (s.updGang gid f).bootrec = s.bootrec := rfl
@[simp] theorem State.updGang_pcq (s : State) (gid : Nat) (f : Gang → Gang) : (s.updGang gid f).pcq = s.pcq := rfl
@[simp] theorem State.updGang_pca (s : State) (gid : Nat) (f : Gang → Gang) : (s.updGang gid f).pca = s.pca := rfl
@[simp] theorem State.updGang_msixMask (s : State) (gid : Nat) (f : Gang → Gang) : (s.updGang gid f).msixMask = s.msixMask := rfl
@[simp] theorem State.updGang_msixPend (s : State) (gid : Nat) (f : Gang → Gang) : (s.updGang gid f).msixPend = s.msixPend := rfl
@[simp] theorem State.updGang_msgs (s : State) (gid : Nat) (f : Gang → Gang) : (s.updGang gid f).msgs = s.msgs := rfl
@[simp] theorem State.updGang_schedHalt (s : State) (gid : Nat) (f : Gang → Gang) : (s.updGang gid f).schedHalt = s.schedHalt := rfl
@[simp] theorem State.updGang_rootHalt (s : State) (gid : Nat) (f : Gang → Gang) : (s.updGang gid f).rootHalt = s.rootHalt := rfl
@[simp] theorem State.updGang_fwVer (s : State) (gid : Nat) (f : Gang → Gang) : (s.updGang gid f).fwVer = s.fwVer := rfl
@[simp] theorem State.updGang_fwProto (s : State) (gid : Nat) (f : Gang → Gang) : (s.updGang gid f).fwProto = s.fwProto := rfl
@[simp] theorem State.updGang_fwPrev (s : State) (gid : Nat) (f : Gang → Gang) : (s.updGang gid f).fwPrev = s.fwPrev := rfl
@[simp] theorem State.updGang_portUp (s : State) (gid : Nat) (f : Gang → Gang) : (s.updGang gid f).portUp = s.portUp := rfl
@[simp] theorem State.updGang_crc (s : State) (gid : Nat) (f : Gang → Gang) : (s.updGang gid f).crc = s.crc := rfl
@[simp] theorem State.updGang_hostRead (s : State) (gid : Nat) (f : Gang → Gang) : (s.updGang gid f).hostRead = s.hostRead := rfl
@[simp] theorem State.updGang_ats (s : State) (gid : Nat) (f : Gang → Gang) : (s.updGang gid f).ats = s.ats := rfl
@[simp] theorem State.updGang_parts (s : State) (gid : Nat) (f : Gang → Gang) : (s.updGang gid f).parts = s.parts := rfl
@[simp] theorem State.updGang_teams (s : State) (gid : Nat) (f : Gang → Gang) : (s.updGang gid f).teams = s.teams := rfl
@[simp] theorem State.updGang_grids (s : State) (gid : Nat) (f : Gang → Gang) : (s.updGang gid f).grids = s.grids := rfl
@[simp] theorem State.updGang_lines (s : State) (gid : Nat) (f : Gang → Gang) : (s.updGang gid f).lines = s.lines := rfl
@[simp] theorem State.updGang_stamp (s : State) (gid : Nat) (f : Gang → Gang) : (s.updGang gid f).stamp = s.stamp := rfl
@[simp] theorem State.updGang_tlb (s : State) (gid : Nat) (f : Gang → Gang) : (s.updGang gid f).tlb = s.tlb := rfl
@[simp] theorem State.updGang_maps (s : State) (gid : Nat) (f : Gang → Gang) : (s.updGang gid f).maps = s.maps := rfl
@[simp] theorem State.updGang_upds (s : State) (gid : Nat) (f : Gang → Gang) : (s.updGang gid f).upds = s.upds := rfl
@[simp] theorem State.updGang_loopBufs (s : State) (gid : Nat) (f : Gang → Gang) : (s.updGang gid f).loopBufs = s.loopBufs := rfl
@[simp] theorem State.updGang_due (s : State) (gid : Nat) (f : Gang → Gang) : (s.updGang gid f).due = s.due := rfl
@[simp] theorem State.updGang_ecc (s : State) (gid : Nat) (f : Gang → Gang) : (s.updGang gid f).ecc = s.ecc := rfl
@[simp] theorem State.updGang_coreEcc (s : State) (gid : Nat) (f : Gang → Gang) : (s.updGang gid f).coreEcc = s.coreEcc := rfl
@[simp] theorem State.updGang_linkErr (s : State) (gid : Nat) (f : Gang → Gang) : (s.updGang gid f).linkErr = s.linkErr := rfl
@[simp] theorem State.updGang_sfuBusy (s : State) (gid : Nat) (f : Gang → Gang) : (s.updGang gid f).sfuBusy = s.sfuBusy := rfl
@[simp] theorem State.updGang_misses (s : State) (gid : Nat) (f : Gang → Gang) : (s.updGang gid f).misses = s.misses := rfl
@[simp] theorem State.updGang_spill (s : State) (gid : Nat) (f : Gang → Gang) : (s.updGang gid f).spill = s.spill := rfl
@[simp] theorem State.updGang_counters (s : State) (gid : Nat) (f : Gang → Gang) : (s.updGang gid f).counters = s.counters := rfl
@[simp] theorem State.updGang_consts (s : State) (gid : Nat) (f : Gang → Gang) : (s.updGang gid f).consts = s.consts := rfl
@[simp] theorem State.updGang_latches (s : State) (gid : Nat) (f : Gang → Gang) : (s.updGang gid f).latches = s.latches := rfl
@[simp] theorem State.updGang_copies (s : State) (gid : Nat) (f : Gang → Gang) : (s.updGang gid f).copies = s.copies := rfl
@[simp] theorem State.updGang_keys (s : State) (gid : Nat) (f : Gang → Gang) : (s.updGang gid f).keys = s.keys := rfl

/-! ### State.updGrid -/

@[simp] theorem State.updGrid_mem (s : State) (id : Nat) (f : Grid → Grid) : (s.updGrid id f).mem = s.mem := rfl
@[simp] theorem State.updGrid_undef (s : State) (id : Nat) (f : Grid → Grid) : (s.updGrid id f).undef = s.undef := rfl
@[simp] theorem State.updGrid_poison (s : State) (id : Nat) (f : Grid → Grid) : (s.updGrid id f).poison = s.poison := rfl
@[simp] theorem State.updGrid_asidDir (s : State) (id : Nat) (f : Grid → Grid) : (s.updGrid id f).asidDir = s.asidDir := rfl
@[simp] theorem State.updGrid_cycle (s : State) (id : Nat) (f : Grid → Grid) : (s.updGrid id f).cycle = s.cycle := rfl
@[simp] theorem State.updGrid_sched (s : State) (id : Nat) (f : Grid → Grid) : (s.updGrid id f).sched = s.sched := rfl
@[simp] theorem State.updGrid_free (s : State) (id : Nat) (f : Grid → Grid) : (s.updGrid id f).free = s.free := rfl
@[simp] theorem State.updGrid_cur (s : State) (id : Nat) (f : Grid → Grid) : (s.updGrid id f).cur = s.cur := rfl
@[simp] theorem State.updGrid_nextId (s : State) (id : Nat) (f : Grid → Grid) : (s.updGrid id f).nextId = s.nextId := rfl
@[simp] theorem State.updGrid_nextTag (s : State) (id : Nat) (f : Grid → Grid) : (s.updGrid id f).nextTag = s.nextTag := rfl
@[simp] theorem State.updGrid_refillAt (s : State) (id : Nat) (f : Grid → Grid) : (s.updGrid id f).refillAt = s.refillAt := rfl
@[simp] theorem State.updGrid_disabled (s : State) (id : Nat) (f : Grid → Grid) : (s.updGrid id f).disabled = s.disabled := rfl
@[simp] theorem State.updGrid_quartersOff (s : State) (id : Nat) (f : Grid → Grid) : (s.updGrid id f).quartersOff = s.quartersOff := rfl
@[simp] theorem State.updGrid_bootBad (s : State) (id : Nat) (f : Grid → Grid) : (s.updGrid id f).bootBad = s.bootBad := rfl
@[simp] theorem State.updGrid_failed (s : State) (id : Nat) (f : Grid → Grid) : (s.updGrid id f).failed = s.failed := rfl
@[simp] theorem State.updGrid_dstat (s : State) (id : Nat) (f : Grid → Grid) : (s.updGrid id f).dstat = s.dstat := rfl
@[simp] theorem State.updGrid_bootrec (s : State) (id : Nat) (f : Grid → Grid) : (s.updGrid id f).bootrec = s.bootrec := rfl
@[simp] theorem State.updGrid_pcq (s : State) (id : Nat) (f : Grid → Grid) : (s.updGrid id f).pcq = s.pcq := rfl
@[simp] theorem State.updGrid_pca (s : State) (id : Nat) (f : Grid → Grid) : (s.updGrid id f).pca = s.pca := rfl
@[simp] theorem State.updGrid_msixMask (s : State) (id : Nat) (f : Grid → Grid) : (s.updGrid id f).msixMask = s.msixMask := rfl
@[simp] theorem State.updGrid_msixPend (s : State) (id : Nat) (f : Grid → Grid) : (s.updGrid id f).msixPend = s.msixPend := rfl
@[simp] theorem State.updGrid_msgs (s : State) (id : Nat) (f : Grid → Grid) : (s.updGrid id f).msgs = s.msgs := rfl
@[simp] theorem State.updGrid_schedHalt (s : State) (id : Nat) (f : Grid → Grid) : (s.updGrid id f).schedHalt = s.schedHalt := rfl
@[simp] theorem State.updGrid_rootHalt (s : State) (id : Nat) (f : Grid → Grid) : (s.updGrid id f).rootHalt = s.rootHalt := rfl
@[simp] theorem State.updGrid_fwVer (s : State) (id : Nat) (f : Grid → Grid) : (s.updGrid id f).fwVer = s.fwVer := rfl
@[simp] theorem State.updGrid_fwProto (s : State) (id : Nat) (f : Grid → Grid) : (s.updGrid id f).fwProto = s.fwProto := rfl
@[simp] theorem State.updGrid_fwPrev (s : State) (id : Nat) (f : Grid → Grid) : (s.updGrid id f).fwPrev = s.fwPrev := rfl
@[simp] theorem State.updGrid_portUp (s : State) (id : Nat) (f : Grid → Grid) : (s.updGrid id f).portUp = s.portUp := rfl
@[simp] theorem State.updGrid_crc (s : State) (id : Nat) (f : Grid → Grid) : (s.updGrid id f).crc = s.crc := rfl
@[simp] theorem State.updGrid_hostRead (s : State) (id : Nat) (f : Grid → Grid) : (s.updGrid id f).hostRead = s.hostRead := rfl
@[simp] theorem State.updGrid_ats (s : State) (id : Nat) (f : Grid → Grid) : (s.updGrid id f).ats = s.ats := rfl
@[simp] theorem State.updGrid_parts (s : State) (id : Nat) (f : Grid → Grid) : (s.updGrid id f).parts = s.parts := rfl
@[simp] theorem State.updGrid_teams (s : State) (id : Nat) (f : Grid → Grid) : (s.updGrid id f).teams = s.teams := rfl
@[simp] theorem State.updGrid_gangs (s : State) (id : Nat) (f : Grid → Grid) : (s.updGrid id f).gangs = s.gangs := rfl
@[simp] theorem State.updGrid_lines (s : State) (id : Nat) (f : Grid → Grid) : (s.updGrid id f).lines = s.lines := rfl
@[simp] theorem State.updGrid_stamp (s : State) (id : Nat) (f : Grid → Grid) : (s.updGrid id f).stamp = s.stamp := rfl
@[simp] theorem State.updGrid_tlb (s : State) (id : Nat) (f : Grid → Grid) : (s.updGrid id f).tlb = s.tlb := rfl
@[simp] theorem State.updGrid_maps (s : State) (id : Nat) (f : Grid → Grid) : (s.updGrid id f).maps = s.maps := rfl
@[simp] theorem State.updGrid_upds (s : State) (id : Nat) (f : Grid → Grid) : (s.updGrid id f).upds = s.upds := rfl
@[simp] theorem State.updGrid_loopBufs (s : State) (id : Nat) (f : Grid → Grid) : (s.updGrid id f).loopBufs = s.loopBufs := rfl
@[simp] theorem State.updGrid_due (s : State) (id : Nat) (f : Grid → Grid) : (s.updGrid id f).due = s.due := rfl
@[simp] theorem State.updGrid_ecc (s : State) (id : Nat) (f : Grid → Grid) : (s.updGrid id f).ecc = s.ecc := rfl
@[simp] theorem State.updGrid_coreEcc (s : State) (id : Nat) (f : Grid → Grid) : (s.updGrid id f).coreEcc = s.coreEcc := rfl
@[simp] theorem State.updGrid_linkErr (s : State) (id : Nat) (f : Grid → Grid) : (s.updGrid id f).linkErr = s.linkErr := rfl
@[simp] theorem State.updGrid_sfuBusy (s : State) (id : Nat) (f : Grid → Grid) : (s.updGrid id f).sfuBusy = s.sfuBusy := rfl
@[simp] theorem State.updGrid_misses (s : State) (id : Nat) (f : Grid → Grid) : (s.updGrid id f).misses = s.misses := rfl
@[simp] theorem State.updGrid_spill (s : State) (id : Nat) (f : Grid → Grid) : (s.updGrid id f).spill = s.spill := rfl
@[simp] theorem State.updGrid_counters (s : State) (id : Nat) (f : Grid → Grid) : (s.updGrid id f).counters = s.counters := rfl
@[simp] theorem State.updGrid_consts (s : State) (id : Nat) (f : Grid → Grid) : (s.updGrid id f).consts = s.consts := rfl
@[simp] theorem State.updGrid_latches (s : State) (id : Nat) (f : Grid → Grid) : (s.updGrid id f).latches = s.latches := rfl
@[simp] theorem State.updGrid_copies (s : State) (id : Nat) (f : Grid → Grid) : (s.updGrid id f).copies = s.copies := rfl
@[simp] theorem State.updGrid_keys (s : State) (id : Nat) (f : Grid → Grid) : (s.updGrid id f).keys = s.keys := rfl

/-! ### State.memPut -/

@[simp] theorem State.memPut_poison (s : State) (pa : Nat) (b : Byte) : (s.memPut pa b).poison = s.poison := rfl
@[simp] theorem State.memPut_asidDir (s : State) (pa : Nat) (b : Byte) : (s.memPut pa b).asidDir = s.asidDir := rfl
@[simp] theorem State.memPut_cycle (s : State) (pa : Nat) (b : Byte) : (s.memPut pa b).cycle = s.cycle := rfl
@[simp] theorem State.memPut_sched (s : State) (pa : Nat) (b : Byte) : (s.memPut pa b).sched = s.sched := rfl
@[simp] theorem State.memPut_free (s : State) (pa : Nat) (b : Byte) : (s.memPut pa b).free = s.free := rfl
@[simp] theorem State.memPut_cur (s : State) (pa : Nat) (b : Byte) : (s.memPut pa b).cur = s.cur := rfl
@[simp] theorem State.memPut_nextId (s : State) (pa : Nat) (b : Byte) : (s.memPut pa b).nextId = s.nextId := rfl
@[simp] theorem State.memPut_nextTag (s : State) (pa : Nat) (b : Byte) : (s.memPut pa b).nextTag = s.nextTag := rfl
@[simp] theorem State.memPut_refillAt (s : State) (pa : Nat) (b : Byte) : (s.memPut pa b).refillAt = s.refillAt := rfl
@[simp] theorem State.memPut_disabled (s : State) (pa : Nat) (b : Byte) : (s.memPut pa b).disabled = s.disabled := rfl
@[simp] theorem State.memPut_quartersOff (s : State) (pa : Nat) (b : Byte) : (s.memPut pa b).quartersOff = s.quartersOff := rfl
@[simp] theorem State.memPut_bootBad (s : State) (pa : Nat) (b : Byte) : (s.memPut pa b).bootBad = s.bootBad := rfl
@[simp] theorem State.memPut_failed (s : State) (pa : Nat) (b : Byte) : (s.memPut pa b).failed = s.failed := rfl
@[simp] theorem State.memPut_dstat (s : State) (pa : Nat) (b : Byte) : (s.memPut pa b).dstat = s.dstat := rfl
@[simp] theorem State.memPut_bootrec (s : State) (pa : Nat) (b : Byte) : (s.memPut pa b).bootrec = s.bootrec := rfl
@[simp] theorem State.memPut_pcq (s : State) (pa : Nat) (b : Byte) : (s.memPut pa b).pcq = s.pcq := rfl
@[simp] theorem State.memPut_pca (s : State) (pa : Nat) (b : Byte) : (s.memPut pa b).pca = s.pca := rfl
@[simp] theorem State.memPut_msixMask (s : State) (pa : Nat) (b : Byte) : (s.memPut pa b).msixMask = s.msixMask := rfl
@[simp] theorem State.memPut_msixPend (s : State) (pa : Nat) (b : Byte) : (s.memPut pa b).msixPend = s.msixPend := rfl
@[simp] theorem State.memPut_msgs (s : State) (pa : Nat) (b : Byte) : (s.memPut pa b).msgs = s.msgs := rfl
@[simp] theorem State.memPut_schedHalt (s : State) (pa : Nat) (b : Byte) : (s.memPut pa b).schedHalt = s.schedHalt := rfl
@[simp] theorem State.memPut_rootHalt (s : State) (pa : Nat) (b : Byte) : (s.memPut pa b).rootHalt = s.rootHalt := rfl
@[simp] theorem State.memPut_fwVer (s : State) (pa : Nat) (b : Byte) : (s.memPut pa b).fwVer = s.fwVer := rfl
@[simp] theorem State.memPut_fwProto (s : State) (pa : Nat) (b : Byte) : (s.memPut pa b).fwProto = s.fwProto := rfl
@[simp] theorem State.memPut_fwPrev (s : State) (pa : Nat) (b : Byte) : (s.memPut pa b).fwPrev = s.fwPrev := rfl
@[simp] theorem State.memPut_portUp (s : State) (pa : Nat) (b : Byte) : (s.memPut pa b).portUp = s.portUp := rfl
@[simp] theorem State.memPut_crc (s : State) (pa : Nat) (b : Byte) : (s.memPut pa b).crc = s.crc := rfl
@[simp] theorem State.memPut_hostRead (s : State) (pa : Nat) (b : Byte) : (s.memPut pa b).hostRead = s.hostRead := rfl
@[simp] theorem State.memPut_ats (s : State) (pa : Nat) (b : Byte) : (s.memPut pa b).ats = s.ats := rfl
@[simp] theorem State.memPut_parts (s : State) (pa : Nat) (b : Byte) : (s.memPut pa b).parts = s.parts := rfl
@[simp] theorem State.memPut_teams (s : State) (pa : Nat) (b : Byte) : (s.memPut pa b).teams = s.teams := rfl
@[simp] theorem State.memPut_gangs (s : State) (pa : Nat) (b : Byte) : (s.memPut pa b).gangs = s.gangs := rfl
@[simp] theorem State.memPut_grids (s : State) (pa : Nat) (b : Byte) : (s.memPut pa b).grids = s.grids := rfl
@[simp] theorem State.memPut_lines (s : State) (pa : Nat) (b : Byte) : (s.memPut pa b).lines = s.lines := rfl
@[simp] theorem State.memPut_stamp (s : State) (pa : Nat) (b : Byte) : (s.memPut pa b).stamp = s.stamp := rfl
@[simp] theorem State.memPut_tlb (s : State) (pa : Nat) (b : Byte) : (s.memPut pa b).tlb = s.tlb := rfl
@[simp] theorem State.memPut_maps (s : State) (pa : Nat) (b : Byte) : (s.memPut pa b).maps = s.maps := rfl
@[simp] theorem State.memPut_upds (s : State) (pa : Nat) (b : Byte) : (s.memPut pa b).upds = s.upds := rfl
@[simp] theorem State.memPut_loopBufs (s : State) (pa : Nat) (b : Byte) : (s.memPut pa b).loopBufs = s.loopBufs := rfl
@[simp] theorem State.memPut_due (s : State) (pa : Nat) (b : Byte) : (s.memPut pa b).due = s.due := rfl
@[simp] theorem State.memPut_ecc (s : State) (pa : Nat) (b : Byte) : (s.memPut pa b).ecc = s.ecc := rfl
@[simp] theorem State.memPut_coreEcc (s : State) (pa : Nat) (b : Byte) : (s.memPut pa b).coreEcc = s.coreEcc := rfl
@[simp] theorem State.memPut_linkErr (s : State) (pa : Nat) (b : Byte) : (s.memPut pa b).linkErr = s.linkErr := rfl
@[simp] theorem State.memPut_sfuBusy (s : State) (pa : Nat) (b : Byte) : (s.memPut pa b).sfuBusy = s.sfuBusy := rfl
@[simp] theorem State.memPut_misses (s : State) (pa : Nat) (b : Byte) : (s.memPut pa b).misses = s.misses := rfl
@[simp] theorem State.memPut_spill (s : State) (pa : Nat) (b : Byte) : (s.memPut pa b).spill = s.spill := rfl
@[simp] theorem State.memPut_counters (s : State) (pa : Nat) (b : Byte) : (s.memPut pa b).counters = s.counters := rfl
@[simp] theorem State.memPut_consts (s : State) (pa : Nat) (b : Byte) : (s.memPut pa b).consts = s.consts := rfl
@[simp] theorem State.memPut_latches (s : State) (pa : Nat) (b : Byte) : (s.memPut pa b).latches = s.latches := rfl
@[simp] theorem State.memPut_copies (s : State) (pa : Nat) (b : Byte) : (s.memPut pa b).copies = s.copies := rfl
@[simp] theorem State.memPut_keys (s : State) (pa : Nat) (b : Byte) : (s.memPut pa b).keys = s.keys := rfl

/-! ### State.setCellBad -/

@[simp] theorem State.setCellBad_mem (s : State) (pa : Nat) (x : Bool) : (s.setCellBad pa x).mem = s.mem := rfl
@[simp] theorem State.setCellBad_undef (s : State) (pa : Nat) (x : Bool) : (s.setCellBad pa x).undef = s.undef := rfl
@[simp] theorem State.setCellBad_asidDir (s : State) (pa : Nat) (x : Bool) : (s.setCellBad pa x).asidDir = s.asidDir := rfl
@[simp] theorem State.setCellBad_cycle (s : State) (pa : Nat) (x : Bool) : (s.setCellBad pa x).cycle = s.cycle := rfl
@[simp] theorem State.setCellBad_sched (s : State) (pa : Nat) (x : Bool) : (s.setCellBad pa x).sched = s.sched := rfl
@[simp] theorem State.setCellBad_free (s : State) (pa : Nat) (x : Bool) : (s.setCellBad pa x).free = s.free := rfl
@[simp] theorem State.setCellBad_cur (s : State) (pa : Nat) (x : Bool) : (s.setCellBad pa x).cur = s.cur := rfl
@[simp] theorem State.setCellBad_nextId (s : State) (pa : Nat) (x : Bool) : (s.setCellBad pa x).nextId = s.nextId := rfl
@[simp] theorem State.setCellBad_nextTag (s : State) (pa : Nat) (x : Bool) : (s.setCellBad pa x).nextTag = s.nextTag := rfl
@[simp] theorem State.setCellBad_refillAt (s : State) (pa : Nat) (x : Bool) : (s.setCellBad pa x).refillAt = s.refillAt := rfl
@[simp] theorem State.setCellBad_disabled (s : State) (pa : Nat) (x : Bool) : (s.setCellBad pa x).disabled = s.disabled := rfl
@[simp] theorem State.setCellBad_quartersOff (s : State) (pa : Nat) (x : Bool) : (s.setCellBad pa x).quartersOff = s.quartersOff := rfl
@[simp] theorem State.setCellBad_bootBad (s : State) (pa : Nat) (x : Bool) : (s.setCellBad pa x).bootBad = s.bootBad := rfl
@[simp] theorem State.setCellBad_failed (s : State) (pa : Nat) (x : Bool) : (s.setCellBad pa x).failed = s.failed := rfl
@[simp] theorem State.setCellBad_dstat (s : State) (pa : Nat) (x : Bool) : (s.setCellBad pa x).dstat = s.dstat := rfl
@[simp] theorem State.setCellBad_bootrec (s : State) (pa : Nat) (x : Bool) : (s.setCellBad pa x).bootrec = s.bootrec := rfl
@[simp] theorem State.setCellBad_pcq (s : State) (pa : Nat) (x : Bool) : (s.setCellBad pa x).pcq = s.pcq := rfl
@[simp] theorem State.setCellBad_pca (s : State) (pa : Nat) (x : Bool) : (s.setCellBad pa x).pca = s.pca := rfl
@[simp] theorem State.setCellBad_msixMask (s : State) (pa : Nat) (x : Bool) : (s.setCellBad pa x).msixMask = s.msixMask := rfl
@[simp] theorem State.setCellBad_msixPend (s : State) (pa : Nat) (x : Bool) : (s.setCellBad pa x).msixPend = s.msixPend := rfl
@[simp] theorem State.setCellBad_msgs (s : State) (pa : Nat) (x : Bool) : (s.setCellBad pa x).msgs = s.msgs := rfl
@[simp] theorem State.setCellBad_schedHalt (s : State) (pa : Nat) (x : Bool) : (s.setCellBad pa x).schedHalt = s.schedHalt := rfl
@[simp] theorem State.setCellBad_rootHalt (s : State) (pa : Nat) (x : Bool) : (s.setCellBad pa x).rootHalt = s.rootHalt := rfl
@[simp] theorem State.setCellBad_fwVer (s : State) (pa : Nat) (x : Bool) : (s.setCellBad pa x).fwVer = s.fwVer := rfl
@[simp] theorem State.setCellBad_fwProto (s : State) (pa : Nat) (x : Bool) : (s.setCellBad pa x).fwProto = s.fwProto := rfl
@[simp] theorem State.setCellBad_fwPrev (s : State) (pa : Nat) (x : Bool) : (s.setCellBad pa x).fwPrev = s.fwPrev := rfl
@[simp] theorem State.setCellBad_portUp (s : State) (pa : Nat) (x : Bool) : (s.setCellBad pa x).portUp = s.portUp := rfl
@[simp] theorem State.setCellBad_crc (s : State) (pa : Nat) (x : Bool) : (s.setCellBad pa x).crc = s.crc := rfl
@[simp] theorem State.setCellBad_hostRead (s : State) (pa : Nat) (x : Bool) : (s.setCellBad pa x).hostRead = s.hostRead := rfl
@[simp] theorem State.setCellBad_ats (s : State) (pa : Nat) (x : Bool) : (s.setCellBad pa x).ats = s.ats := rfl
@[simp] theorem State.setCellBad_parts (s : State) (pa : Nat) (x : Bool) : (s.setCellBad pa x).parts = s.parts := rfl
@[simp] theorem State.setCellBad_teams (s : State) (pa : Nat) (x : Bool) : (s.setCellBad pa x).teams = s.teams := rfl
@[simp] theorem State.setCellBad_gangs (s : State) (pa : Nat) (x : Bool) : (s.setCellBad pa x).gangs = s.gangs := rfl
@[simp] theorem State.setCellBad_grids (s : State) (pa : Nat) (x : Bool) : (s.setCellBad pa x).grids = s.grids := rfl
@[simp] theorem State.setCellBad_lines (s : State) (pa : Nat) (x : Bool) : (s.setCellBad pa x).lines = s.lines := rfl
@[simp] theorem State.setCellBad_stamp (s : State) (pa : Nat) (x : Bool) : (s.setCellBad pa x).stamp = s.stamp := rfl
@[simp] theorem State.setCellBad_tlb (s : State) (pa : Nat) (x : Bool) : (s.setCellBad pa x).tlb = s.tlb := rfl
@[simp] theorem State.setCellBad_maps (s : State) (pa : Nat) (x : Bool) : (s.setCellBad pa x).maps = s.maps := rfl
@[simp] theorem State.setCellBad_upds (s : State) (pa : Nat) (x : Bool) : (s.setCellBad pa x).upds = s.upds := rfl
@[simp] theorem State.setCellBad_loopBufs (s : State) (pa : Nat) (x : Bool) : (s.setCellBad pa x).loopBufs = s.loopBufs := rfl
@[simp] theorem State.setCellBad_due (s : State) (pa : Nat) (x : Bool) : (s.setCellBad pa x).due = s.due := rfl
@[simp] theorem State.setCellBad_ecc (s : State) (pa : Nat) (x : Bool) : (s.setCellBad pa x).ecc = s.ecc := rfl
@[simp] theorem State.setCellBad_coreEcc (s : State) (pa : Nat) (x : Bool) : (s.setCellBad pa x).coreEcc = s.coreEcc := rfl
@[simp] theorem State.setCellBad_linkErr (s : State) (pa : Nat) (x : Bool) : (s.setCellBad pa x).linkErr = s.linkErr := rfl
@[simp] theorem State.setCellBad_sfuBusy (s : State) (pa : Nat) (x : Bool) : (s.setCellBad pa x).sfuBusy = s.sfuBusy := rfl
@[simp] theorem State.setCellBad_misses (s : State) (pa : Nat) (x : Bool) : (s.setCellBad pa x).misses = s.misses := rfl
@[simp] theorem State.setCellBad_spill (s : State) (pa : Nat) (x : Bool) : (s.setCellBad pa x).spill = s.spill := rfl
@[simp] theorem State.setCellBad_counters (s : State) (pa : Nat) (x : Bool) : (s.setCellBad pa x).counters = s.counters := rfl
@[simp] theorem State.setCellBad_consts (s : State) (pa : Nat) (x : Bool) : (s.setCellBad pa x).consts = s.consts := rfl
@[simp] theorem State.setCellBad_latches (s : State) (pa : Nat) (x : Bool) : (s.setCellBad pa x).latches = s.latches := rfl
@[simp] theorem State.setCellBad_copies (s : State) (pa : Nat) (x : Bool) : (s.setCellBad pa x).copies = s.copies := rfl
@[simp] theorem State.setCellBad_keys (s : State) (pa : Nat) (x : Bool) : (s.setCellBad pa x).keys = s.keys := rfl

/-! ### State.setLine -/

@[simp] theorem State.setLine_mem (s : State) (l : Line) : (s.setLine l).mem = s.mem := by unfold State.setLine; split <;> rfl
@[simp] theorem State.setLine_undef (s : State) (l : Line) : (s.setLine l).undef = s.undef := by unfold State.setLine; split <;> rfl
@[simp] theorem State.setLine_poison (s : State) (l : Line) : (s.setLine l).poison = s.poison := by unfold State.setLine; split <;> rfl
@[simp] theorem State.setLine_asidDir (s : State) (l : Line) : (s.setLine l).asidDir = s.asidDir := by unfold State.setLine; split <;> rfl
@[simp] theorem State.setLine_cycle (s : State) (l : Line) : (s.setLine l).cycle = s.cycle := by unfold State.setLine; split <;> rfl
@[simp] theorem State.setLine_sched (s : State) (l : Line) : (s.setLine l).sched = s.sched := by unfold State.setLine; split <;> rfl
@[simp] theorem State.setLine_free (s : State) (l : Line) : (s.setLine l).free = s.free := by unfold State.setLine; split <;> rfl
@[simp] theorem State.setLine_cur (s : State) (l : Line) : (s.setLine l).cur = s.cur := by unfold State.setLine; split <;> rfl
@[simp] theorem State.setLine_nextId (s : State) (l : Line) : (s.setLine l).nextId = s.nextId := by unfold State.setLine; split <;> rfl
@[simp] theorem State.setLine_nextTag (s : State) (l : Line) : (s.setLine l).nextTag = s.nextTag := by unfold State.setLine; split <;> rfl
@[simp] theorem State.setLine_refillAt (s : State) (l : Line) : (s.setLine l).refillAt = s.refillAt := by unfold State.setLine; split <;> rfl
@[simp] theorem State.setLine_disabled (s : State) (l : Line) : (s.setLine l).disabled = s.disabled := by unfold State.setLine; split <;> rfl
@[simp] theorem State.setLine_quartersOff (s : State) (l : Line) : (s.setLine l).quartersOff = s.quartersOff := by unfold State.setLine; split <;> rfl
@[simp] theorem State.setLine_bootBad (s : State) (l : Line) : (s.setLine l).bootBad = s.bootBad := by unfold State.setLine; split <;> rfl
@[simp] theorem State.setLine_failed (s : State) (l : Line) : (s.setLine l).failed = s.failed := by unfold State.setLine; split <;> rfl
@[simp] theorem State.setLine_dstat (s : State) (l : Line) : (s.setLine l).dstat = s.dstat := by unfold State.setLine; split <;> rfl
@[simp] theorem State.setLine_bootrec (s : State) (l : Line) : (s.setLine l).bootrec = s.bootrec := by unfold State.setLine; split <;> rfl
@[simp] theorem State.setLine_pcq (s : State) (l : Line) : (s.setLine l).pcq = s.pcq := by unfold State.setLine; split <;> rfl
@[simp] theorem State.setLine_pca (s : State) (l : Line) : (s.setLine l).pca = s.pca := by unfold State.setLine; split <;> rfl
@[simp] theorem State.setLine_msixMask (s : State) (l : Line) : (s.setLine l).msixMask = s.msixMask := by unfold State.setLine; split <;> rfl
@[simp] theorem State.setLine_msixPend (s : State) (l : Line) : (s.setLine l).msixPend = s.msixPend := by unfold State.setLine; split <;> rfl
@[simp] theorem State.setLine_msgs (s : State) (l : Line) : (s.setLine l).msgs = s.msgs := by unfold State.setLine; split <;> rfl
@[simp] theorem State.setLine_schedHalt (s : State) (l : Line) : (s.setLine l).schedHalt = s.schedHalt := by unfold State.setLine; split <;> rfl
@[simp] theorem State.setLine_rootHalt (s : State) (l : Line) : (s.setLine l).rootHalt = s.rootHalt := by unfold State.setLine; split <;> rfl
@[simp] theorem State.setLine_fwVer (s : State) (l : Line) : (s.setLine l).fwVer = s.fwVer := by unfold State.setLine; split <;> rfl
@[simp] theorem State.setLine_fwProto (s : State) (l : Line) : (s.setLine l).fwProto = s.fwProto := by unfold State.setLine; split <;> rfl
@[simp] theorem State.setLine_fwPrev (s : State) (l : Line) : (s.setLine l).fwPrev = s.fwPrev := by unfold State.setLine; split <;> rfl
@[simp] theorem State.setLine_portUp (s : State) (l : Line) : (s.setLine l).portUp = s.portUp := by unfold State.setLine; split <;> rfl
@[simp] theorem State.setLine_crc (s : State) (l : Line) : (s.setLine l).crc = s.crc := by unfold State.setLine; split <;> rfl
@[simp] theorem State.setLine_hostRead (s : State) (l : Line) : (s.setLine l).hostRead = s.hostRead := by unfold State.setLine; split <;> rfl
@[simp] theorem State.setLine_ats (s : State) (l : Line) : (s.setLine l).ats = s.ats := by unfold State.setLine; split <;> rfl
@[simp] theorem State.setLine_parts (s : State) (l : Line) : (s.setLine l).parts = s.parts := by unfold State.setLine; split <;> rfl
@[simp] theorem State.setLine_teams (s : State) (l : Line) : (s.setLine l).teams = s.teams := by unfold State.setLine; split <;> rfl
@[simp] theorem State.setLine_gangs (s : State) (l : Line) : (s.setLine l).gangs = s.gangs := by unfold State.setLine; split <;> rfl
@[simp] theorem State.setLine_grids (s : State) (l : Line) : (s.setLine l).grids = s.grids := by unfold State.setLine; split <;> rfl
@[simp] theorem State.setLine_stamp (s : State) (l : Line) : (s.setLine l).stamp = s.stamp := by unfold State.setLine; split <;> rfl
@[simp] theorem State.setLine_tlb (s : State) (l : Line) : (s.setLine l).tlb = s.tlb := by unfold State.setLine; split <;> rfl
@[simp] theorem State.setLine_maps (s : State) (l : Line) : (s.setLine l).maps = s.maps := by unfold State.setLine; split <;> rfl
@[simp] theorem State.setLine_upds (s : State) (l : Line) : (s.setLine l).upds = s.upds := by unfold State.setLine; split <;> rfl
@[simp] theorem State.setLine_loopBufs (s : State) (l : Line) : (s.setLine l).loopBufs = s.loopBufs := by unfold State.setLine; split <;> rfl
@[simp] theorem State.setLine_due (s : State) (l : Line) : (s.setLine l).due = s.due := by unfold State.setLine; split <;> rfl
@[simp] theorem State.setLine_ecc (s : State) (l : Line) : (s.setLine l).ecc = s.ecc := by unfold State.setLine; split <;> rfl
@[simp] theorem State.setLine_coreEcc (s : State) (l : Line) : (s.setLine l).coreEcc = s.coreEcc := by unfold State.setLine; split <;> rfl
@[simp] theorem State.setLine_linkErr (s : State) (l : Line) : (s.setLine l).linkErr = s.linkErr := by unfold State.setLine; split <;> rfl
@[simp] theorem State.setLine_sfuBusy (s : State) (l : Line) : (s.setLine l).sfuBusy = s.sfuBusy := by unfold State.setLine; split <;> rfl
@[simp] theorem State.setLine_misses (s : State) (l : Line) : (s.setLine l).misses = s.misses := by unfold State.setLine; split <;> rfl
@[simp] theorem State.setLine_spill (s : State) (l : Line) : (s.setLine l).spill = s.spill := by unfold State.setLine; split <;> rfl
@[simp] theorem State.setLine_counters (s : State) (l : Line) : (s.setLine l).counters = s.counters := by unfold State.setLine; split <;> rfl
@[simp] theorem State.setLine_consts (s : State) (l : Line) : (s.setLine l).consts = s.consts := by unfold State.setLine; split <;> rfl
@[simp] theorem State.setLine_latches (s : State) (l : Line) : (s.setLine l).latches = s.latches := by unfold State.setLine; split <;> rfl
@[simp] theorem State.setLine_copies (s : State) (l : Line) : (s.setLine l).copies = s.copies := by unfold State.setLine; split <;> rfl
@[simp] theorem State.setLine_keys (s : State) (l : Line) : (s.setLine l).keys = s.keys := by unfold State.setLine; split <;> rfl

/-! ### State.delLine -/

@[simp] theorem State.delLine_mem (s : State) (l : Line) : (s.delLine l).mem = s.mem := rfl
@[simp] theorem State.delLine_undef (s : State) (l : Line) : (s.delLine l).undef = s.undef := rfl
@[simp] theorem State.delLine_poison (s : State) (l : Line) : (s.delLine l).poison = s.poison := rfl
@[simp] theorem State.delLine_asidDir (s : State) (l : Line) : (s.delLine l).asidDir = s.asidDir := rfl
@[simp] theorem State.delLine_cycle (s : State) (l : Line) : (s.delLine l).cycle = s.cycle := rfl
@[simp] theorem State.delLine_sched (s : State) (l : Line) : (s.delLine l).sched = s.sched := rfl
@[simp] theorem State.delLine_free (s : State) (l : Line) : (s.delLine l).free = s.free := rfl
@[simp] theorem State.delLine_cur (s : State) (l : Line) : (s.delLine l).cur = s.cur := rfl
@[simp] theorem State.delLine_nextId (s : State) (l : Line) : (s.delLine l).nextId = s.nextId := rfl
@[simp] theorem State.delLine_nextTag (s : State) (l : Line) : (s.delLine l).nextTag = s.nextTag := rfl
@[simp] theorem State.delLine_refillAt (s : State) (l : Line) : (s.delLine l).refillAt = s.refillAt := rfl
@[simp] theorem State.delLine_disabled (s : State) (l : Line) : (s.delLine l).disabled = s.disabled := rfl
@[simp] theorem State.delLine_quartersOff (s : State) (l : Line) : (s.delLine l).quartersOff = s.quartersOff := rfl
@[simp] theorem State.delLine_bootBad (s : State) (l : Line) : (s.delLine l).bootBad = s.bootBad := rfl
@[simp] theorem State.delLine_failed (s : State) (l : Line) : (s.delLine l).failed = s.failed := rfl
@[simp] theorem State.delLine_dstat (s : State) (l : Line) : (s.delLine l).dstat = s.dstat := rfl
@[simp] theorem State.delLine_bootrec (s : State) (l : Line) : (s.delLine l).bootrec = s.bootrec := rfl
@[simp] theorem State.delLine_pcq (s : State) (l : Line) : (s.delLine l).pcq = s.pcq := rfl
@[simp] theorem State.delLine_pca (s : State) (l : Line) : (s.delLine l).pca = s.pca := rfl
@[simp] theorem State.delLine_msixMask (s : State) (l : Line) : (s.delLine l).msixMask = s.msixMask := rfl
@[simp] theorem State.delLine_msixPend (s : State) (l : Line) : (s.delLine l).msixPend = s.msixPend := rfl
@[simp] theorem State.delLine_msgs (s : State) (l : Line) : (s.delLine l).msgs = s.msgs := rfl
@[simp] theorem State.delLine_schedHalt (s : State) (l : Line) : (s.delLine l).schedHalt = s.schedHalt := rfl
@[simp] theorem State.delLine_rootHalt (s : State) (l : Line) : (s.delLine l).rootHalt = s.rootHalt := rfl
@[simp] theorem State.delLine_fwVer (s : State) (l : Line) : (s.delLine l).fwVer = s.fwVer := rfl
@[simp] theorem State.delLine_fwProto (s : State) (l : Line) : (s.delLine l).fwProto = s.fwProto := rfl
@[simp] theorem State.delLine_fwPrev (s : State) (l : Line) : (s.delLine l).fwPrev = s.fwPrev := rfl
@[simp] theorem State.delLine_portUp (s : State) (l : Line) : (s.delLine l).portUp = s.portUp := rfl
@[simp] theorem State.delLine_crc (s : State) (l : Line) : (s.delLine l).crc = s.crc := rfl
@[simp] theorem State.delLine_hostRead (s : State) (l : Line) : (s.delLine l).hostRead = s.hostRead := rfl
@[simp] theorem State.delLine_ats (s : State) (l : Line) : (s.delLine l).ats = s.ats := rfl
@[simp] theorem State.delLine_parts (s : State) (l : Line) : (s.delLine l).parts = s.parts := rfl
@[simp] theorem State.delLine_teams (s : State) (l : Line) : (s.delLine l).teams = s.teams := rfl
@[simp] theorem State.delLine_gangs (s : State) (l : Line) : (s.delLine l).gangs = s.gangs := rfl
@[simp] theorem State.delLine_grids (s : State) (l : Line) : (s.delLine l).grids = s.grids := rfl
@[simp] theorem State.delLine_stamp (s : State) (l : Line) : (s.delLine l).stamp = s.stamp := rfl
@[simp] theorem State.delLine_tlb (s : State) (l : Line) : (s.delLine l).tlb = s.tlb := rfl
@[simp] theorem State.delLine_maps (s : State) (l : Line) : (s.delLine l).maps = s.maps := rfl
@[simp] theorem State.delLine_upds (s : State) (l : Line) : (s.delLine l).upds = s.upds := rfl
@[simp] theorem State.delLine_loopBufs (s : State) (l : Line) : (s.delLine l).loopBufs = s.loopBufs := rfl
@[simp] theorem State.delLine_due (s : State) (l : Line) : (s.delLine l).due = s.due := rfl
@[simp] theorem State.delLine_ecc (s : State) (l : Line) : (s.delLine l).ecc = s.ecc := rfl
@[simp] theorem State.delLine_coreEcc (s : State) (l : Line) : (s.delLine l).coreEcc = s.coreEcc := rfl
@[simp] theorem State.delLine_linkErr (s : State) (l : Line) : (s.delLine l).linkErr = s.linkErr := rfl
@[simp] theorem State.delLine_sfuBusy (s : State) (l : Line) : (s.delLine l).sfuBusy = s.sfuBusy := rfl
@[simp] theorem State.delLine_misses (s : State) (l : Line) : (s.delLine l).misses = s.misses := rfl
@[simp] theorem State.delLine_spill (s : State) (l : Line) : (s.delLine l).spill = s.spill := rfl
@[simp] theorem State.delLine_counters (s : State) (l : Line) : (s.delLine l).counters = s.counters := rfl
@[simp] theorem State.delLine_consts (s : State) (l : Line) : (s.delLine l).consts = s.consts := rfl
@[simp] theorem State.delLine_latches (s : State) (l : Line) : (s.delLine l).latches = s.latches := rfl
@[simp] theorem State.delLine_copies (s : State) (l : Line) : (s.delLine l).copies = s.copies := rfl
@[simp] theorem State.delLine_keys (s : State) (l : Line) : (s.delLine l).keys = s.keys := rfl

/-! ### State.meterTeam -/

@[simp] theorem State.meterTeam_mem (s : State) (tag : Nat) : (s.meterTeam tag).mem = s.mem := rfl
@[simp] theorem State.meterTeam_undef (s : State) (tag : Nat) : (s.meterTeam tag).undef = s.undef := rfl
@[simp] theorem State.meterTeam_poison (s : State) (tag : Nat) : (s.meterTeam tag).poison = s.poison := rfl
@[simp] theorem State.meterTeam_asidDir (s : State) (tag : Nat) : (s.meterTeam tag).asidDir = s.asidDir := rfl
@[simp] theorem State.meterTeam_cycle (s : State) (tag : Nat) : (s.meterTeam tag).cycle = s.cycle := rfl
@[simp] theorem State.meterTeam_sched (s : State) (tag : Nat) : (s.meterTeam tag).sched = s.sched := rfl
@[simp] theorem State.meterTeam_cur (s : State) (tag : Nat) : (s.meterTeam tag).cur = s.cur := rfl
@[simp] theorem State.meterTeam_nextId (s : State) (tag : Nat) : (s.meterTeam tag).nextId = s.nextId := rfl
@[simp] theorem State.meterTeam_nextTag (s : State) (tag : Nat) : (s.meterTeam tag).nextTag = s.nextTag := rfl
@[simp] theorem State.meterTeam_refillAt (s : State) (tag : Nat) : (s.meterTeam tag).refillAt = s.refillAt := rfl
@[simp] theorem State.meterTeam_disabled (s : State) (tag : Nat) : (s.meterTeam tag).disabled = s.disabled := rfl
@[simp] theorem State.meterTeam_quartersOff (s : State) (tag : Nat) : (s.meterTeam tag).quartersOff = s.quartersOff := rfl
@[simp] theorem State.meterTeam_bootBad (s : State) (tag : Nat) : (s.meterTeam tag).bootBad = s.bootBad := rfl
@[simp] theorem State.meterTeam_failed (s : State) (tag : Nat) : (s.meterTeam tag).failed = s.failed := rfl
@[simp] theorem State.meterTeam_dstat (s : State) (tag : Nat) : (s.meterTeam tag).dstat = s.dstat := rfl
@[simp] theorem State.meterTeam_bootrec (s : State) (tag : Nat) : (s.meterTeam tag).bootrec = s.bootrec := rfl
@[simp] theorem State.meterTeam_pcq (s : State) (tag : Nat) : (s.meterTeam tag).pcq = s.pcq := rfl
@[simp] theorem State.meterTeam_pca (s : State) (tag : Nat) : (s.meterTeam tag).pca = s.pca := rfl
@[simp] theorem State.meterTeam_msixMask (s : State) (tag : Nat) : (s.meterTeam tag).msixMask = s.msixMask := rfl
@[simp] theorem State.meterTeam_msixPend (s : State) (tag : Nat) : (s.meterTeam tag).msixPend = s.msixPend := rfl
@[simp] theorem State.meterTeam_msgs (s : State) (tag : Nat) : (s.meterTeam tag).msgs = s.msgs := rfl
@[simp] theorem State.meterTeam_schedHalt (s : State) (tag : Nat) : (s.meterTeam tag).schedHalt = s.schedHalt := rfl
@[simp] theorem State.meterTeam_rootHalt (s : State) (tag : Nat) : (s.meterTeam tag).rootHalt = s.rootHalt := rfl
@[simp] theorem State.meterTeam_fwVer (s : State) (tag : Nat) : (s.meterTeam tag).fwVer = s.fwVer := rfl
@[simp] theorem State.meterTeam_fwProto (s : State) (tag : Nat) : (s.meterTeam tag).fwProto = s.fwProto := rfl
@[simp] theorem State.meterTeam_fwPrev (s : State) (tag : Nat) : (s.meterTeam tag).fwPrev = s.fwPrev := rfl
@[simp] theorem State.meterTeam_portUp (s : State) (tag : Nat) : (s.meterTeam tag).portUp = s.portUp := rfl
@[simp] theorem State.meterTeam_crc (s : State) (tag : Nat) : (s.meterTeam tag).crc = s.crc := rfl
@[simp] theorem State.meterTeam_hostRead (s : State) (tag : Nat) : (s.meterTeam tag).hostRead = s.hostRead := rfl
@[simp] theorem State.meterTeam_ats (s : State) (tag : Nat) : (s.meterTeam tag).ats = s.ats := rfl
@[simp] theorem State.meterTeam_parts (s : State) (tag : Nat) : (s.meterTeam tag).parts = s.parts := rfl
@[simp] theorem State.meterTeam_gangs (s : State) (tag : Nat) : (s.meterTeam tag).gangs = s.gangs := rfl
@[simp] theorem State.meterTeam_grids (s : State) (tag : Nat) : (s.meterTeam tag).grids = s.grids := rfl
@[simp] theorem State.meterTeam_lines (s : State) (tag : Nat) : (s.meterTeam tag).lines = s.lines := rfl
@[simp] theorem State.meterTeam_stamp (s : State) (tag : Nat) : (s.meterTeam tag).stamp = s.stamp := rfl
@[simp] theorem State.meterTeam_tlb (s : State) (tag : Nat) : (s.meterTeam tag).tlb = s.tlb := rfl
@[simp] theorem State.meterTeam_maps (s : State) (tag : Nat) : (s.meterTeam tag).maps = s.maps := rfl
@[simp] theorem State.meterTeam_upds (s : State) (tag : Nat) : (s.meterTeam tag).upds = s.upds := rfl
@[simp] theorem State.meterTeam_loopBufs (s : State) (tag : Nat) : (s.meterTeam tag).loopBufs = s.loopBufs := rfl
@[simp] theorem State.meterTeam_due (s : State) (tag : Nat) : (s.meterTeam tag).due = s.due := rfl
@[simp] theorem State.meterTeam_ecc (s : State) (tag : Nat) : (s.meterTeam tag).ecc = s.ecc := rfl
@[simp] theorem State.meterTeam_coreEcc (s : State) (tag : Nat) : (s.meterTeam tag).coreEcc = s.coreEcc := rfl
@[simp] theorem State.meterTeam_linkErr (s : State) (tag : Nat) : (s.meterTeam tag).linkErr = s.linkErr := rfl
@[simp] theorem State.meterTeam_sfuBusy (s : State) (tag : Nat) : (s.meterTeam tag).sfuBusy = s.sfuBusy := rfl
@[simp] theorem State.meterTeam_misses (s : State) (tag : Nat) : (s.meterTeam tag).misses = s.misses := rfl
@[simp] theorem State.meterTeam_spill (s : State) (tag : Nat) : (s.meterTeam tag).spill = s.spill := rfl
@[simp] theorem State.meterTeam_counters (s : State) (tag : Nat) : (s.meterTeam tag).counters = s.counters := rfl
@[simp] theorem State.meterTeam_consts (s : State) (tag : Nat) : (s.meterTeam tag).consts = s.consts := rfl
@[simp] theorem State.meterTeam_latches (s : State) (tag : Nat) : (s.meterTeam tag).latches = s.latches := rfl
@[simp] theorem State.meterTeam_copies (s : State) (tag : Nat) : (s.meterTeam tag).copies = s.copies := rfl
@[simp] theorem State.meterTeam_keys (s : State) (tag : Nat) : (s.meterTeam tag).keys = s.keys := rfl

end Sys2Proof.Machine
end

