-- ==== Sys2Proof/Laws/Find.lean ====
section
/-! SUPPORT. Sys2Proof/Laws/Find.lean: finding a team, a wave, a gang, a grid or a partition after one of them was changed. -/
namespace Sys2Proof.Machine

/-- Finding an element by its key after the elements of one key were changed by something that keeps the key. -/
theorem find?_upd {α : Type} (key : α → Nat) (k j : Nat) (f : α → α) (hf : ∀ x, key (f x) = key x) : ∀ l : List α,
    (l.map (fun x => if key x = k then f x else x)).find? (fun x => key x == j)
      = if j = k then (l.find? (fun x => key x == j)).map f else l.find? (fun x => key x == j)
  | [] => by simp
  | a :: r => by
    have ih := find?_upd key k j f hf r
    rw [List.map_cons, List.find?_cons, List.find?_cons, ih]
    by_cases ha : key a = k
    · rw [if_pos ha, hf]
      by_cases hj : key a = j
      · have : j = k := hj.symm.trans ha
        simp [hj, this]
      · have : (key a == j) = false := by simpa using hj
        simp [this]
    · rw [if_neg ha]
      by_cases hj : key a = j
      · have : ¬ j = k := fun e => ha (hj.trans e)
        simp [hj, this]
      · have : (key a == j) = false := by simpa using hj
        simp [this]

theorem State.team?_updTeam (s : State) (tag k : Nat) (f : Team → Team) (hf : ∀ t, (f t).tag = t.tag) :
    (s.updTeam tag f).team? k = if k = tag then (s.team? k).map f else s.team? k := find?_upd Team.tag tag k f hf s.teams
theorem Team.wave?_updWave (t : Team) (w k : Nat) (f : Wave → Wave) (hf : ∀ x, (f x).ix = x.ix) :
    (t.updWave w f).wave? k = if k = w then (t.wave? k).map f else t.wave? k := find?_upd Wave.ix w k f hf t.waves
theorem State.gang?_updGang (s : State) (gid k : Nat) (f : Gang → Gang) (hf : ∀ g, (f g).gid = g.gid) :
    (s.updGang gid f).gang? k = if k = gid then (s.gang? k).map f else s.gang? k := find?_upd Gang.gid gid k f hf s.gangs
theorem State.grid?_updGrid (s : State) (id k : Nat) (f : Grid → Grid) (hf : ∀ g, (f g).id = g.id) :
    (s.updGrid id f).grid? k = if k = id then (s.grid? k).map f else s.grid? k := find?_upd Grid.id id k f hf s.grids
theorem State.part_updPart (s : State) (p q : Nat) (f : Part → Part) :
    (s.updPart p f).part q = if q = p ∧ p < s.parts.length then f (s.part q) else s.part q := by
  simp only [State.updPart, State.part, List.getD_eq_getElem?_getD, List.getElem?_modify]
  by_cases h : q = p
  · subst h
    by_cases hl : q < s.parts.length
    · simp [hl]
    · simp [hl]
  · simp [h, Ne.symm h]

@[simp] theorem Team.updWave_tag (t : Team) (w : Nat) (f : Wave → Wave) : (t.updWave w f).tag = t.tag := rfl
@[simp] theorem Team.updWave_gid (t : Team) (w : Nat) (f : Wave → Wave) : (t.updWave w f).gid = t.gid := rfl
@[simp] theorem State.gang?_updTeam (s : State) (tag k : Nat) (f : Team → Team) : (s.updTeam tag f).gang? k = s.gang? k := rfl
@[simp] theorem State.grid?_updTeam (s : State) (tag k : Nat) (f : Team → Team) : (s.updTeam tag f).grid? k = s.grid? k := rfl
@[simp] theorem State.part_updTeam (s : State) (tag k : Nat) (f : Team → Team) : (s.updTeam tag f).part k = s.part k := rfl
@[simp] theorem State.memAt_updTeam (s : State) (tag pa : Nat) (f : Team → Team) : (s.updTeam tag f).memAt pa = s.memAt pa := rfl

/-- The wave after a change of one wave. -/
theorem State.wave?_updWave (s : State) (tag w k j : Nat) (f : Wave → Wave) (hf : ∀ x, (f x).ix = x.ix) :
    (s.updWave tag w f).wave? k j = if k = tag ∧ j = w then (s.wave? k j).map f else s.wave? k j := by
  simp only [State.wave?, State.updWave]
  rw [State.team?_updTeam s tag k (fun t => t.updWave w f) (fun _ => rfl)]
  by_cases hk : k = tag
  · subst hk
    rw [if_pos rfl]
    cases s.team? k with
    | none => simp
    | some t =>
      simp only [Option.map_some, Option.bind_some, true_and]
      exact Team.wave?_updWave t w j f hf
  · simp [hk]

/-- Two changes of one team, one after the other. -/
theorem State.updTeam_updTeam (s : State) (tag : Nat) (f g : Team → Team) (hf : ∀ t, (f t).tag = t.tag) :
    (s.updTeam tag f).updTeam tag g = s.updTeam tag (fun t => g (f t)) := by
  simp only [State.updTeam, List.map_map, State.mk.injEq, and_self, and_true, true_and]
  apply List.map_congr_left
  intro t _
  by_cases h : t.tag = tag
  · simp [h, hf]
  · simp [h]
theorem State.updTeam_id (s : State) (tag : Nat) : s.updTeam tag (fun t => t) = s := by
  simp [State.updTeam]

end Sys2Proof.Machine
end

