-- ==== Sys2Proof/Laws/Data.lean ====
section
/-! SUPPORT. Sys2Proof/Laws/Data.lean: sparse data (read after write, the canonical form), little-endian bytes, sets of lanes. -/
namespace Sys2Proof.Machine

/-! ### Sparse data -/

theorem shas_sput (m : Sparse α) (n : Nat) (x : α) (k : Nat) : shas (sput m n x) k = if n = k then some x else shas m k := by
  induction m with
  | nil => simp [sput, shas]
  | cons e r ih =>
    obtain ⟨j, y⟩ := e
    simp only [sput]
    split
    · simp [shas]
    · split
      · subst_vars
        simp only [shas]
        split <;> rfl
      · simp only [shas, ih]
        split
        · split <;> first | rfl | (exfalso; omega)
        · rfl

theorem shas_filter (m : Sparse α) (n k : Nat) :
    shas (m.filter (fun e => e.1 ≠ n)) k = if n = k then none else shas m k := by
  induction m with
  | nil => simp [shas]
  | cons e r ih =>
    obtain ⟨j, y⟩ := e
    simp only [List.filter_cons]
    split
    · rename_i h
      simp only [shas, ih]
      have h' : j ≠ n := by simpa using h
      split
      · subst_vars
        rw [if_neg (fun h => h' h.symm)]
      · rfl
    · rename_i h
      have h' : j = n := by simpa using h
      subst h'
      rw [ih]
      simp only [shas]
      split <;> rfl

/-- A write is read back at its key, and nowhere else. -/
theorem sget_sset [DecidableEq α] (d : α) (m : Sparse α) (n : Nat) (x : α) (k : Nat) :
    sget d (sset d m n x) k = if n = k then x else sget d m k := by
  unfold sget sset
  split
  · rw [shas_filter]
    split
    · subst_vars; rfl
    · rfl
  · rw [shas_sput]
    split <;> rfl
@[simp] theorem sget_sset_same [DecidableEq α] (d : α) (m : Sparse α) (n : Nat) (x : α) : sget d (sset d m n x) n = x := by
  simp [sget_sset]
theorem sget_sset_ne [DecidableEq α] (d : α) (m : Sparse α) {n k : Nat} (h : n ≠ k) (x : α) :
    sget d (sset d m n x) k = sget d m k := by simp [sget_sset, h]
@[simp] theorem sget_nil (d : α) (k : Nat) : sget d [] k = d := rfl

theorem swf_mono [DecidableEq α] (d : α) {lo hi : Nat} (h : lo ≤ hi) {m : Sparse α} (w : swf d hi m = true) : swf d lo m = true := by
  cases m with
  | nil => rfl
  | cons e r =>
    simp only [swf, Bool.and_eq_true, decide_eq_true_eq] at *
    exact ⟨⟨by omega, w.1.2⟩, w.2⟩

theorem swf_sput [DecidableEq α] (d : α) (n : Nat) (x : α) (hx : x ≠ d) :
    ∀ (m : Sparse α) (lo : Nat), swf d lo m = true → lo ≤ n → swf d lo (sput m n x) = true
  | [], lo, _, hl => by simp [sput, swf, hl, hx]
  | (k, y) :: r, lo, w, hl => by
    simp only [swf, Bool.and_eq_true, decide_eq_true_eq] at w
    simp only [sput]
    split
    · simp only [swf, Bool.and_eq_true, decide_eq_true_eq]
      exact ⟨⟨hl, hx⟩, ⟨by omega, w.1.2⟩, w.2⟩
    · split
      · subst_vars
        simp only [swf, Bool.and_eq_true, decide_eq_true_eq]
        exact ⟨⟨hl, hx⟩, w.2⟩
      · simp only [swf, Bool.and_eq_true, decide_eq_true_eq]
        exact ⟨w.1, swf_sput d n x hx r (k + 1) w.2 (by omega)⟩

theorem swf_filter [DecidableEq α] (d : α) (f : Nat × α → Bool) :
    ∀ (m : Sparse α) (lo : Nat), swf d lo m = true → swf d lo (m.filter f) = true
  | [], _, _ => rfl
  | (k, y) :: r, lo, w => by
    simp only [swf, Bool.and_eq_true, decide_eq_true_eq] at w
    have ih := swf_filter d f r (k + 1) w.2
    simp only [List.filter_cons]
    split
    · simp only [swf, Bool.and_eq_true, decide_eq_true_eq]
      exact ⟨w.1, ih⟩
    · exact swf_mono d (by omega) ih

/-- A write keeps the canonical form. -/
theorem swf_sset [DecidableEq α] (d : α) (m : Sparse α) (n : Nat) (x : α) (w : swf d 0 m = true) : swf d 0 (sset d m n x) = true := by
  unfold sset
  split
  · exact swf_filter d _ m 0 w
  · rename_i h
    exact swf_sput d n x h m 0 w (Nat.zero_le _)

theorem shas_below [DecidableEq α] (d : α) : ∀ (m : Sparse α) (lo k : Nat), swf d lo m = true → k < lo → shas m k = none
  | [], _, _, _, _ => rfl
  | (j, y) :: r, lo, k, w, h => by
    simp only [swf, Bool.and_eq_true, decide_eq_true_eq] at w
    simp only [shas]
    rw [if_neg (by omega)]
    exact shas_below d r (j + 1) k w.2 (by omega)

theorem sget_below [DecidableEq α] (d : α) (m : Sparse α) (lo k : Nat) (w : swf d lo m = true) (h : k < lo) : sget d m k = d := by
  simp [sget, shas_below d m lo k w h]

/-- Data in canonical form that reads the same at every key is the same data. -/
theorem swf_ext [DecidableEq α] (d : α) : ∀ (a b : Sparse α) (lo : Nat), swf d lo a = true → swf d lo b = true →
    (∀ k, sget d a k = sget d b k) → a = b
  | [], [], _, _, _, _ => rfl
  | [], (j, y) :: r, lo, _, wb, h => by
    simp only [swf, Bool.and_eq_true, decide_eq_true_eq] at wb
    exact absurd ((h j).symm.trans rfl) (by simp [sget, shas, wb.1.2])
  | (j, y) :: r, [], lo, wa, _, h => by
    simp only [swf, Bool.and_eq_true, decide_eq_true_eq] at wa
    exact absurd (h j) (by simp [sget, shas, wa.1.2])
  | (j, y) :: r, (i, z) :: q, lo, wa, wb, h => by
    simp only [swf, Bool.and_eq_true, decide_eq_true_eq] at wa wb
    have hr : ∀ k, k ≤ j → sget d r k = d := fun k hk => sget_below d r (j + 1) k wa.2 (by omega)
    have hq : ∀ k, k ≤ i → sget d q k = d := fun k hk => sget_below d q (i + 1) k wb.2 (by omega)
    have hs : ∀ (e : Nat) (x : α) (m : Sparse α) (k : Nat), sget d ((e, x) :: m) k = if e = k then x else sget d m k := by
      intro e x m k
      simp only [sget, shas]
      split <;> rfl
    have hij : j = i := by
      rcases Nat.lt_trichotomy j i with hlt | heq | hgt
      · have := h j
        rw [hs, hs, if_pos rfl, if_neg (by omega), hq j (by omega)] at this
        exact absurd this wa.1.2
      · exact heq
      · have := h i
        rw [hs, hs, if_pos rfl, if_neg (by omega), hr i (by omega)] at this
        exact absurd this.symm wb.1.2
    subst hij
    have hxy : y = z := by have := h j; rwa [hs, hs, if_pos rfl, if_pos rfl] at this
    subst hxy
    have : r = q := by
      refine swf_ext d r q (j + 1) wa.2 wb.2 (fun k => ?_)
      by_cases hk : k = j
      · subst hk; rw [hr k (le_refl k), hq k (le_refl k)]
      · have := h k
        rwa [hs, hs, if_neg (Ne.symm hk), if_neg (Ne.symm hk)] at this
    rw [this]

/-! ### Memory -/

theorem Memory.read_write (m : Memory) (a : Nat) (b : Byte) (k : Nat) :
    Memory.read (Memory.write m a b) k = if a = k then b else Memory.read m k := sget_sset unwritten m a b k
theorem Memory.wf_write (m : Memory) (a : Nat) (b : Byte) (w : Memory.wf m = true) : Memory.wf (Memory.write m a b) = true :=
  swf_sset unwritten m a b w
theorem Memory.ext_read (m n : Memory) (wm : Memory.wf m = true) (wn : Memory.wf n = true)
    (h : ∀ a, Memory.read m a = Memory.read n a) : m = n := swf_ext unwritten m n 0 wm wn h

/-! ### Bytes -/

@[simp] theorem length_toBytes : ∀ (n x : Nat), (toBytes n x).length = n
  | 0, _ => rfl
  | n + 1, x => by simp [toBytes, length_toBytes n]

theorem ofBytes_toBytes : ∀ (n x : Nat), ofBytes (toBytes n x) = x % 256 ^ n
  | 0, x => by simp [toBytes, ofBytes, Nat.mod_one]
  | n + 1, x => by
    have ih := ofBytes_toBytes n (x / 256)
    simp only [toBytes, ofBytes, List.foldr_cons] at *
    rw [ih, BitVec.toNat_ofNat, show 256 ^ (n + 1) = 256 * 256 ^ n from by rw [Nat.pow_succ, Nat.mul_comm], Nat.mod_mul]

/-! ### Sets of lanes -/

theorem foldr_bits_lt (f : Nat → Bool) : ∀ l : List Nat, (l.foldr (fun i n => (if f i then 1 else 0) + 2 * n) 0) < 2 ^ l.length
  | [] => by simp
  | i :: r => by
    have := foldr_bits_lt f r
    simp only [List.foldr_cons, List.length_cons, Nat.pow_succ]
    split <;> omega

theorem testBit_foldr_bits (f : Nat → Bool) : ∀ (l : List Nat) (i : Nat),
    (l.foldr (fun i n => (if f i then 1 else 0) + 2 * n) 0).testBit i = (l[i]?).elim false f
  | [], i => by simp
  | j :: r, i => by
    have ih := testBit_foldr_bits f r
    simp only [List.foldr_cons]
    cases i with
    | zero =>
      simp only [Nat.testBit_zero, List.getElem?_cons_zero, Option.elim_some]
      cases f j <;> simp
    | succ i =>
      rw [Nat.testBit_succ, List.getElem?_cons_succ, ← ih i]
      congr 1
      split <;> omega

/-- Lane `l` is in the set of the lanes that satisfy `f`. -/
@[simp] theorem getLsbD_lanesWhere (f : Nat → Bool) (l : Nat) : (lanesWhere f).getLsbD l = (decide (l < 32) && f l) := by
  unfold lanesWhere
  rw [BitVec.getLsbD_ofNat, testBit_foldr_bits]
  by_cases h : l < 32
  · rw [List.getElem?_eq_getElem (by simpa using h)]
    simp [h]
  · simp [h]

theorem mem_lanesOf (m : Lanes) (l : Nat) : l ∈ lanesOf m ↔ l < 32 ∧ m.getLsbD l = true := by simp [lanesOf]
theorem nodup_lanesOf (m : Lanes) : (lanesOf m).Nodup := List.nodup_range.filter _

theorem lanesOf_eq_nil (m : Lanes) : lanesOf m = [] ↔ m = 0 := by
  constructor
  · intro h
    apply BitVec.eq_of_getLsbD_eq
    intro i hi
    change m.getLsbD i = (0#32).getLsbD i
    rw [BitVec.getLsbD_zero]
    by_contra hc
    have : i ∈ lanesOf m := (mem_lanesOf m i).2 ⟨hi, by simpa using hc⟩
    rw [h] at this
    exact absurd this (by simp)
  · rintro rfl
    simp [lanesOf]

/-- The lowest lane of a nonempty set is in it. -/
theorem lowest_mem (m : Lanes) (h : m ≠ 0) : lowest m ∈ lanesOf m := by
  unfold lowest
  cases e : lanesOf m with
  | nil => exact absurd ((lanesOf_eq_nil m).1 e) h
  | cons a r => simp

end Sys2Proof.Machine
end

