-- ==== Sys2Proof/Laws/Mem.lean ====
section
/-! SUPPORT. Sys2Proof/Laws/Mem.lean: what the operations of memory and its caches can do, said once: they change memory by its
primitive writes, and caches, lookaside buffers, update-only copies and what the controllers have yet to report; whatever those
changes keep, every access keeps. Memory keeps its canonical form, and the rest of the device stands as it was. -/
namespace Sys2Proof.Machine

/-- What each step of a fold keeps, the fold keeps. -/
theorem foldl_keeps {α β : Type} (P : β → Prop) (f : β → α → β) (hf : ∀ b a, P b → P (f b a)) : ∀ (l : List α) (b : β), P b → P (l.foldl f b)
  | [], _, h => h
  | a :: l, b, h => foldl_keeps P f hf l (f b a) (hf b a h)

/-- A property that the primitive changes of memory and its caches keep. -/
structure CacheKeeps (P : State → Prop) : Prop where
  put : ∀ s pa b, P s → P (s.memPut pa b)
  lose : ∀ s lo hi, P s → P (s.memLose lo hi)
  bad : ∀ s pa x, P s → P (s.setCellBad pa x)
  lines : ∀ (s : State) l, P s → P { s with lines := l }
  stamp : ∀ (s : State) n, P s → P { s with stamp := n }
  upds : ∀ (s : State) l, P s → P { s with upds := l }
  due : ∀ (s : State) l, P s → P { s with due := l }
  ats : ∀ (s : State) l, P s → P { s with ats := l }
  tlb : ∀ (s : State) l m, P s → P { s with tlb := l, maps := m }
  spill : ∀ (s : State) l, P s → P { s with spill := l }

section
variable {P : State → Prop} (h : CacheKeeps P)
include h

theorem CacheKeeps.setLine (s : State) (l : Line) (p : P s) : P (s.setLine l) := by
  unfold State.setLine
  split
  · exact h.lines s _ p
  · exact h.lines s _ p
theorem CacheKeeps.delLine (s : State) (l : Line) (p : P s) : P (s.delLine l) := h.lines s _ p
theorem CacheKeeps.memPuts (s : State) (t : Tgt) (ws : List (Nat × BV)) (p : P s) : P (s.memPuts t ws) := by
  unfold State.memPuts
  refine foldl_keeps P _ (fun s w q => ?_) _ _ (foldl_keeps P _ (fun s x q => ?_) _ _ p)
  · split
    · exact h.bad s _ _ q
    · split
      · exact h.bad s _ _ q
      · exact q
  · dsimp only
    split
    · exact h.lose _ _ _ (h.put _ _ _ q)
    · exact h.put _ _ _ q
theorem CacheKeeps.memOut (s : State) (t : Tgt) (ws : List (Nat × BV)) (p : P s) : P (s.memOut t ws) := by
  unfold State.memOut
  split
  · exact h.memPuts s t ws p
  · split
    · exact p
    · split
      · exact h.memPuts s t ws p
      · split
        · exact p
        · exact foldl_keeps P _ (fun s x q => h.lose s _ _ q) _ s p
theorem CacheKeeps.putAt : ∀ (n : Nat) (s : State) (up : List Cache) (t : Tgt) (ret tag : Nat) (ws : List (Nat × BV)) (own : Nat → Option Nat),
    P s → P (s.putAt n up t ret tag ws own)
  | 0, s, _, t, _, _, ws, _, p => h.memOut s t ws p
  | _ + 1, s, [], t, _, _, ws, _, p => h.memOut s t ws p
  | n + 1, s, c :: up, t, ret, tag, ws, own, p => by
    unfold State.putAt
    split
    · exact h.stamp _ _ (h.setLine _ _ p)
    · split
      · exact CacheKeeps.putAt n s up t ret tag ws own p
      · dsimp only
        split
        · exact h.stamp _ _ (h.setLine _ _ p)
        · exact h.stamp _ _ (h.setLine _ _ (CacheKeeps.putAt n _ _ _ _ _ _ _ (h.delLine _ _ p)))
theorem CacheKeeps.putOut (s : State) (up : List Cache) (t : Tgt) (ret tag : Nat) (ws : List (Nat × BV)) (own : Nat → Option Nat) (p : P s) :
    P (s.putOut up t ret tag ws own) := h.putAt 4 s up t ret tag ws own p
theorem CacheKeeps.sendWords (s : State) (l : Line) (ws : List Nat) (k : Bool) (p : P s) : P (s.sendWords l ws k) := by
  unfold State.sendWords
  dsimp only
  split
  · exact h.setLine _ _ p
  · exact h.setLine _ _ (h.putOut _ _ _ _ _ _ _ p)
theorem CacheKeeps.dropLines (s : State) (f : Line → Bool) (p : P s) : P (s.dropLines f) := by
  unfold State.dropLines
  refine foldl_keeps P _ (fun s r q => foldl_keeps P _ (fun s l q => ?_) _ s q) _ s p
  dsimp only
  split
  · exact h.delLine _ _ q
  · exact h.putOut _ _ _ _ _ _ _ (h.delLine _ _ q)
theorem CacheKeeps.fillAt (s : State) (c : Cache) (up : List Cache) (t : Tgt) (ws : List Nat) (ret tag : Nat) (p : P s) :
    P (s.fillAt c up t ws ret tag) := by
  unfold State.fillAt
  dsimp only
  split
  · exact h.putOut _ _ _ _ _ _ _ p
  · exact h.setLine _ _ (h.putOut _ _ _ _ _ _ _ p)
theorem CacheKeeps.tlbFill (s : State) (core : Option Nat) (q asid va : Nat) (p : P s) : P (s.tlbFill core q asid va) := by
  unfold State.tlbFill
  split
  · exact p
  · split
    · exact h.tlb s _ _ p
    · exact p
theorem CacheKeeps.storePiece (s : State) (v : Via) (t : Tgt) (ws : List (Nat × BV)) (p : P s) : P (s.storePiece v t ws) := by
  unfold State.storePiece
  refine h.putOut _ _ _ _ _ _ _ (foldl_keeps P _ (fun s c q => ?_) _ s p)
  split
  · exact h.setLine _ _ q
  · exact q
theorem CacheKeeps.applyUpd (s : State) (u : UpdOnly) (p : P s) : P (s.applyUpd u) := by
  unfold State.applyUpd
  split
  · dsimp only
    split
    · exact h.due s _ p
    · exact h.storePiece s _ _ _ p
  · exact p
theorem CacheKeeps.combine (s : State) (f : UpdOnly → Bool) (p : P s) : P (s.combine f) := by
  unfold State.combine
  split
  · exact foldl_keeps P _ (fun s u q => h.applyUpd s u q) _ _ (h.upds s _ p)
  · exact p
theorem CacheKeeps.combineAt (s : State) (q asid va n : Nat) (p : P s) : P (s.combineAt q asid va n) := h.combine s _ p
theorem CacheKeeps.combineSec (s : State) (q asid va n : Nat) (p : P s) : P (s.combineSec q asid va n) := by
  unfold State.combineSec
  split
  · exact p
  · exact h.combineAt s _ _ _ _ p
theorem CacheKeeps.combineLost (s : State) (p : P s) : P s.combineLost := h.combine s _ p
theorem CacheKeeps.sendBelow (s : State) (v : Via) (t : Tgt) (os : List Nat) (p : P s) : P (s.sendBelow v t os) := by
  unfold State.sendBelow
  refine foldl_keeps P _ (fun s c q => ?_) _ s p
  split
  · exact h.sendWords _ _ _ _ q
  · exact q
/-- A fill that begins and ends in one step takes no entry: it changes at most the requests that wait. -/
theorem CacheKeeps.passFill (s : State) (m : Miss) (p : P s) : P (s.passFill m) := by
  unfold State.passFill
  split
  · rename_i hf
    unfold State.askFill
    split <;> try split
    · exact p
    · exact h.spill s _ p
  · exact p
theorem CacheKeeps.touchPiece (s : State) (v : Via) (t : Tgt) (os : List Nat) (d : Bool) (p : P s) : P (s.touchPiece v t os d) := by
  have both : ∀ (s : State) a b, P s → P { s with due := a, ats := b } := fun s a b q => h.ats { s with due := a } b (h.due s a q)
  unfold State.touchPiece
  dsimp only
  generalize hs0 : s.sendBelow v t os = s0
  have p0 : P s0 := hs0 ▸ h.sendBelow s v t os p
  generalize hs1 : List.foldl _ s0 _ = s1
  have p1 : P s1 := by
    rw [← hs1]
    exact foldl_keeps P _ (fun s o q => h.passFill s _ q) _ s0 p0
  generalize hs3 : (if (_ && d) = true then _ else s1) = s3
  have p3 : P s3 := by
    rw [← hs3]
    split
    · exact both s1 _ _ p1
    · exact p1
  generalize hs2 : ((s.path v.core t).reverse.foldl _ s3) = s2
  have p2 : P s2 := by
    rw [← hs2]
    refine foldl_keeps P _ (fun s c q => ?_) _ s3 p3
    split
    · split
      · exact h.fillAt _ _ _ _ _ _ _ q
      · exact q
    · split
      · exact h.fillAt _ _ _ _ _ _ _ q
      · exact q
  split
  · split
    · split
      · exact p2
      · exact h.stamp _ _ (h.setLine _ _ p2)
    · exact p2
  · exact p2
/-- A read keeps it. -/
theorem CacheKeeps.touch (s : State) (v : Via) (q asid va n : Nat) (sys : Bool) (k : Acs) (d : Bool) (p : P s) : P (s.touch v q asid va n sys k d) := by
  unfold State.touch
  refine h.combineLost _ (foldl_keeps P _ (fun s x r => ?_) _ _ (h.combineSec s _ _ _ _ p))
  split
  · exact h.touchPiece _ _ _ _ _ (h.tlbFill _ _ _ _ _ r)
  · exact r
theorem CacheKeeps.gatherTouch (s : State) (v : Via) (q asid va n : Nat) (sys d : Bool) (p : P s) : P (s.gatherTouch v q asid va n sys d) := by
  unfold State.gatherTouch
  refine h.touch _ _ _ _ _ _ _ _ _ (foldl_keeps P _ (fun s x r => ?_) _ s p)
  split
  · exact h.sendBelow _ _ _ _ r
  · exact r
theorem CacheKeeps.vtouch (s : State) (v : Via) (q asid va n : Nat) (sys d : Bool) (p : P s) : P (s.vtouch v q asid va n sys d) := by
  unfold State.vtouch
  split
  · refine foldl_keeps P _ (fun s i r => ?_) _ s p
    split
    · exact h.touch _ _ _ _ _ _ _ _ _ r
    · split
      · exact r
      · exact h.gatherTouch _ _ _ _ _ _ _ _ (h.gatherTouch _ _ _ _ _ _ _ _ r)
  · exact h.touch _ _ _ _ _ _ _ _ _ p
theorem CacheKeeps.writePiece (s : State) (v : Via) (q asid va : Nat) (sys : Bool) (bs : List BV) (p : P s) : P (s.writePiece v q asid va sys bs) := by
  unfold State.writePiece
  split
  · exact h.storePiece _ _ _ _ (h.tlbFill _ _ _ _ _ p)
  · exact p
/-- A write keeps it. -/
theorem CacheKeeps.writeBVs (s : State) (v : Via) (q asid va : Nat) (sys : Bool) (bs : List BV) (p : P s) : P (s.writeBVs v q asid va sys bs) :=
  h.combineLost _ (foldl_keeps P _ (fun s _ r => h.writePiece s v q asid _ sys _ r) _ _ (h.combineAt s _ _ _ _ p))
theorem CacheKeeps.writeBy (s : State) (v : Via) (q asid va : Nat) (sys : Bool) (bs : List Byte) (p : P s) : P (s.writeBy v q asid va sys bs) :=
  h.writeBVs s v q asid va sys _ p
theorem CacheKeeps.writeRaw (s : State) (q asid va : Nat) (sys : Bool) (bs : List Byte) (p : P s) : P (s.writeRaw q asid va sys bs) :=
  h.writeBVs s _ q asid va sys _ p
/-- A write that may fail keeps it whenever it is made. -/
theorem CacheKeeps.writeVia (s t : State) (v : Via) (q asid va : Nat) (sys : Bool) (bs : List Byte) (p : P s)
    (w : s.writeVia v q asid va sys bs = .ok t) : P t := by
  unfold State.writeVia at w
  split at w
  · cases w
  · cases w; exact h.writeBy s v q asid va sys bs p
theorem CacheKeeps.sendLines (s : State) (f : Line → Bool) (p : P s) : P (s.sendLines f) := by
  unfold State.sendLines
  refine foldl_keeps P _ (fun s l q => ?_) _ s p
  split
  · exact h.sendWords _ _ _ _ q
  · exact q
/-- A release keeps it (R357). -/
theorem CacheKeeps.release (s : State) (core : Option Nat) (r : Nat) (p : P s) : P (s.release core r) := by
  have send : ∀ (b : Prop) [Decidable b] (s : State) (f : Line → Bool), P s → P (if b then s.sendLines f else s) := by
    intro b _ s f q
    split
    · exact h.sendLines s f q
    · exact q
  exact h.combineLost _ (send _ _ _ (send _ _ _ (send _ _ _ (h.combine s _ p))))
theorem CacheKeeps.shedAll (s : State) (f : Line → Bool) (g : State → Line → Nat → Bool) (p : P s) : P (s.shedAll f g) := by
  unfold State.shedAll
  refine foldl_keeps P _ (fun s l q => ?_) _ s p
  split
  · unfold State.shed
    dsimp only
    split
    · exact q
    · exact h.sendWords _ _ _ _ q
  · exact q
/-- An acquire keeps it (R358). -/
theorem CacheKeeps.acquire (s : State) (core : Option Nat) (r : Nat) (p : P s) : P (s.acquire core r) := by
  have shed : ∀ (b : Prop) [Decidable b] (s : State) (f : Line → Bool) (g : State → Line → Nat → Bool), P s → P (if b then s.shedAll f g else s) := by
    intro b _ s f g q
    split
    · exact h.shedAll s f g q
    · exact q
  exact h.combineLost _ (shed _ _ _ _ (shed _ _ _ _ (shed _ _ _ _ p)))
/-- A reduction keeps it (R359). -/
theorem CacheKeeps.redAt (s : State) (v : Via) (t : Tgt) (u : UpdOnly) (p : P s) : P (s.redAt v t u) := by
  unfold State.redAt
  dsimp only
  generalize hs1 : (List.foldl _ (s.combine _) _) = s1
  have p1 : P s1 := by
    rw [← hs1]
    refine foldl_keeps P _ (fun s c q => ?_) _ _ (h.combine s _ p)
    split
    · exact h.sendWords _ _ _ _ q
    · exact q
  split
  · refine h.combineLost _ ?_
    split
    · exact h.upds _ _ (h.putOut _ _ _ _ _ _ _ p1)
    · exact h.upds _ _ (h.putOut _ _ _ _ _ _ _ p1)
  · split
    · exact h.due _ _ p1
    · exact h.combineLost _ (h.putOut _ _ _ _ _ _ _ p1)
end

/-! ### Memory keeps its canonical form -/

/-- The memory of a state has its canonical form. -/
abbrev State.MemOk (s : State) : Prop := s.mem.wf = true

theorem State.memOk_reset : State.reset.MemOk := by decide
theorem State.memOk_memPut (s : State) (pa : Nat) (b : Byte) (h : s.MemOk) : (s.memPut pa b).MemOk := Memory.wf_write s.mem (s.cell pa) b h
@[simp] theorem State.mem_memLose (s : State) (lo hi : Nat) : (s.memLose lo hi).mem = s.mem := by unfold memLose; split <;> rfl
theorem memOk_cache : CacheKeeps State.MemOk where
  put := State.memOk_memPut
  lose := fun s lo hi h => by simpa only [State.MemOk, State.mem_memLose] using h
  bad := fun _ _ _ h => h
  lines := fun _ _ h => h
  stamp := fun _ _ h => h
  upds := fun _ _ h => h
  due := fun _ _ h => h
  ats := fun _ _ h => h
  tlb := fun _ _ _ h => h
  spill := fun _ _ h => h
theorem State.memOk_physWrite : ∀ (bs : List Byte) (s : State) (pa : Nat), s.MemOk → (s.physWrite pa bs).MemOk
  | [], _, _, h => h
  | b :: bs, s, pa, h => memOk_physWrite bs (s.memPut pa b) (pa + 1) (s.memOk_memPut pa b h)
/-- A program's write, in a window or not, keeps the form. -/
theorem State.memOk_tableWrite (s : State) (asid va n : Nat) (h : s.MemOk) : (s.tableWrite asid va n).MemOk := by
  unfold tableWrite tablesLost; split <;> exact h
theorem State.memOk_vwriteAll (s : State) (v : Via) (p asid : Nat) (sys : Bool) (bs : Sparse (Nat × BV)) (h : s.MemOk) : (s.vwriteAll v p asid sys bs).MemOk := by
  unfold vwriteAll
  exact foldl_keeps State.MemOk _ (fun s x q => memOk_tableWrite _ _ _ _ (memOk_cache.writeBVs _ _ _ _ _ _ _ q)) _ _
    (foldl_keeps State.MemOk _ (fun s x q => memOk_tableWrite _ _ _ _ (memOk_cache.writeBVs _ _ _ _ _ _ _ q)) _ _ h)
theorem State.memOk_vwrite (s : State) (v : Via) (p asid va : Nat) (sys : Bool) (bs : List Byte) (h : s.MemOk) : (s.vwrite v p asid va sys bs).MemOk :=
  s.memOk_vwriteAll v p asid sys _ h

/-! ### One byte of memory -/

@[simp] theorem State.cell_memPut (s : State) (pa a : Nat) (b : Byte) : (s.memPut pa b).cell a = s.cell a := rfl
theorem mem_insertAsc (n k : Nat) : ∀ l : List Nat, k ∈ insertAsc l n ↔ k = n ∨ k ∈ l
  | [] => by simp [insertAsc]
  | x :: r => by
    unfold insertAsc
    split
    · simp
    · split
      · subst_vars; simp
      · rw [List.mem_cons, mem_insertAsc n k r, List.mem_cons]; tauto
/-- A byte that was written has a value; every other is undefined if it was. -/
theorem State.undefAt_memPut (s : State) (pa a : Nat) (b : Byte) : (s.memPut pa b).undefAt a = (s.undefAt a && decide (a ≠ pa)) := by
  unfold undefAt memPut
  simp only
  induction s.undef with
  | nil => rfl
  | cons u l ih =>
    rw [List.map_cons, List.any_cons, List.any_cons, ih]
    by_cases e : a = pa
    · subst e
      simp only [ne_eq, not_true_eq_false, decide_false, Bool.and_false, Bool.or_false]
      split
      · simp [List.contains_eq_mem, mem_insertAsc]
      · simp; omega
    · simp only [ne_eq, e, not_false_eq_true, decide_true, Bool.and_true]
      split
      · simp [List.contains_eq_mem, mem_insertAsc, e]
      · rfl
/-- A byte after a write to memory: the byte written at the address itself, what stood there at the address of any other cell. -/
theorem State.memAt_memPut_same (s : State) (pa : Nat) (b : Byte) : (s.memPut pa b).memAt pa = b := by
  unfold memAt
  rw [undefAt_memPut]
  simp only [ne_eq, not_true_eq_false, decide_false, Bool.and_false, Bool.false_eq_true, if_false, cell_memPut]
  exact (Memory.read_write ..).trans (if_pos rfl)
theorem State.memAt_memPut_other (s : State) (pa a : Nat) (b : Byte) (h : s.cell a ≠ s.cell pa) : (s.memPut pa b).memAt a = s.memAt a := by
  have hne : a ≠ pa := fun e => h (e ▸ rfl)
  unfold memAt
  rw [undefAt_memPut]
  simp only [ne_eq, hne, not_false_eq_true, decide_true, Bool.and_true, cell_memPut]
  split
  · rfl
  · exact (Memory.read_write ..).trans (if_neg (fun e => h e.symm))

end Sys2Proof.Machine
end

