-- ==== Sys2Proof/Laws/Cache.lean ====
section
/-! SUPPORT. Sys2Proof/Laws/Cache.lean: beyond memory, its caches, lookaside buffers, update-only copies and what the controllers
have yet to report, no access changes anything. -/
namespace Sys2Proof.Machine

/-- Accesses keep the rest of the device. -/
theorem sansCache_keeps (c : State) : CacheKeeps (fun s => s.sansCache = c) where
  put := fun _ _ _ h => h
  lose := fun s lo hi h => by
    simp only [State.memLose]
    split
    · exact h
    · exact h
  bad := fun _ _ _ h => h
  lines := fun _ _ h => h
  stamp := fun _ _ h => h
  upds := fun _ _ h => h
  due := fun _ _ h => h
  ats := fun _ _ h => h
  tlb := fun _ _ _ h => h
  spill := fun _ _ h => h

@[simp] theorem State.sansCache_touch (s : State) (v : Via) (p asid va n : Nat) (sys : Bool) (k : Acs) (d : Bool) :
    (s.touch v p asid va n sys k d).sansCache = s.sansCache := (sansCache_keeps _).touch s v p asid va n sys k d rfl
@[simp] theorem State.sansCache_vtouch (s : State) (v : Via) (p asid va n : Nat) (sys d : Bool) :
    (s.vtouch v p asid va n sys d).sansCache = s.sansCache := (sansCache_keeps _).vtouch s v p asid va n sys d rfl
@[simp] theorem State.sansCache_writeBVs (s : State) (v : Via) (p asid va : Nat) (sys : Bool) (bs : List BV) :
    (s.writeBVs v p asid va sys bs).sansCache = s.sansCache := (sansCache_keeps _).writeBVs s v p asid va sys bs rfl
@[simp] theorem State.sansCache_writeRaw (s : State) (p asid va : Nat) (sys : Bool) (bs : List Byte) :
    (s.writeRaw p asid va sys bs).sansCache = s.sansCache := (sansCache_keeps _).writeRaw s p asid va sys bs rfl
@[simp] theorem State.sansCache_release (s : State) (core : Option Nat) (r : Nat) : (s.release core r).sansCache = s.sansCache :=
  (sansCache_keeps _).release s core r rfl
@[simp] theorem State.sansCache_acquire (s : State) (core : Option Nat) (r : Nat) : (s.acquire core r).sansCache = s.sansCache :=
  (sansCache_keeps _).acquire s core r rfl
@[simp] theorem State.sansCache_dropLines (s : State) (f : Line → Bool) : (s.dropLines f).sansCache = s.sansCache :=
  (sansCache_keeps _).dropLines s f rfl
theorem State.sansCache_foldl {α : Type} (f : State → α → State) (hf : ∀ s a, (f s a).sansCache = s.sansCache) (l : List α) (s : State) :
    (l.foldl f s).sansCache = s.sansCache := foldl_keeps (fun t => t.sansCache = s.sansCache) f (fun t a h => (hf t a).trans h) l s rfl

/-- What the rest of the device is, read off. -/
theorem State.teams_sansCache {s t : State} (h : t.sansCache = s.sansCache) : t.teams = s.teams := by have e := congrArg State.teams h; exact e
theorem State.team?_sansCache {s t : State} (h : t.sansCache = s.sansCache) (k : Nat) : t.team? k = s.team? k := by
  unfold team?; rw [teams_sansCache h]
theorem State.free_sansCache {s t : State} (h : t.sansCache = s.sansCache) : t.free = s.free := by have e := congrArg State.free h; exact e
theorem State.nextId_sansCache {s t : State} (h : t.sansCache = s.sansCache) : t.nextId = s.nextId := by have e := congrArg State.nextId h; exact e
theorem State.sansCache_updTeam (s : State) (tag : Nat) (f : Team → Team) : (s.updTeam tag f).sansCache = s.sansCache.updTeam tag f := rfl

end Sys2Proof.Machine
end

