-- ==== Sys2Proof/Laws/Encoding.lean ====
section
/-! SUPPORT. Sys2Proof/Laws/Encoding.lean: putting a word together and taking it apart (Tables 3.2 to 3.6): what the round trip
of every instruction rests on. -/
namespace Sys2Proof

/-- A field of the higher part of a concatenation. -/
theorem extract_high (x : BitVec n) (y : BitVec m) (lo w : Nat) (h : m ≤ lo) : (x ++ y).extractLsb' lo w = x.extractLsb' (lo - m) w := by
  apply BitVec.eq_of_getLsbD_eq
  intro i hi
  simp only [BitVec.getLsbD_extractLsb', BitVec.getLsbD_append, hi, decide_true, Bool.true_and]
  rw [if_neg (by omega)]
  congr 1
  omega
/-- A field of the lower part of a concatenation. -/
theorem extract_low (x : BitVec n) (y : BitVec m) (lo w : Nat) (h : lo + w ≤ m) : (x ++ y).extractLsb' lo w = y.extractLsb' lo w := by
  apply BitVec.eq_of_getLsbD_eq
  intro i hi
  simp only [BitVec.getLsbD_extractLsb', BitVec.getLsbD_append, hi, decide_true, Bool.true_and]
  rw [if_pos (by omega)]
/-- The fields of a word of format A, M or E put together are those it was put together from. -/
theorem Fields.ofWord_packA (op : BitVec 8) (h : Hdr) (d a b c : BitVec 8) (fn : BitVec 12) :
    Fields.ofWord (packA op h d a b c fn) = ⟨op, h, d, a, b, c, fn⟩ := by
  obtain ⟨st, gn, gp⟩ := h
  simp (disch := decide) only [Fields.ofWord, packA, extract_high, extract_low, BitVec.extractLsb'_eq_self, Nat.reduceSub]
  cases gn <;> rfl
/-- The same for formats I and J, whose 32-bit field runs over A, B, C and FN. -/
theorem Fields.ofWord_packI (op : BitVec 8) (h : Hdr) (d : BitVec 8) (f4 : BitVec 4) (imm : BitVec 32) :
    Fields.ofWord (packI op h d f4 imm) = ⟨op, h, d, (f4 ++ imm).extractLsb' 28 8, imm.extractLsb' 20 8, imm.extractLsb' 12 8,
      imm.extractLsb' 0 12⟩ := by
  obtain ⟨st, gn, gp⟩ := h
  simp (disch := decide) only [Fields.ofWord, packI, extract_high, extract_low, BitVec.extractLsb'_eq_self, Nat.reduceSub]
  simp only [Fields.mk.injEq]
  refine ⟨trivial, ?_, trivial, ?_, trivial, trivial, trivial⟩ 
  · cases gn <;> rfl
  · apply BitVec.eq_of_getLsbD_eq
    intro i hi
    simp only [BitVec.getLsbD_extractLsb', BitVec.getLsbD_append, hi, decide_true, Bool.true_and]
    split
    · rfl
    · rw [if_pos (by omega)]
theorem Fields.fn4_packI (op : BitVec 8) (h : Hdr) (d : BitVec 8) (f4 : BitVec 4) (imm : BitVec 32) (b c : BitVec 8) (fn : BitVec 12) :
    (Fields.mk op h d ((f4 ++ imm).extractLsb' 28 8) b c fn).fn4 = f4 := by
  apply BitVec.eq_of_getLsbD_eq
  intro i hi
  simp only [Fields.fn4, BitVec.getLsbD_extractLsb', BitVec.getLsbD_append, hi, decide_true, Bool.true_and]
  rw [if_neg (by omega), decide_eq_true (by omega), Bool.true_and]
  congr 1
  omega
theorem Fields.imm_packI (op : BitVec 8) (h : Hdr) (d : BitVec 8) (f4 : BitVec 4) (imm : BitVec 32) :
    (Fields.mk op h d ((f4 ++ imm).extractLsb' 28 8) (imm.extractLsb' 20 8) (imm.extractLsb' 12 8) (imm.extractLsb' 0 12)).imm = imm := by
  apply BitVec.eq_of_getLsbD_eq
  intro i hi
  simp only [Fields.imm, BitVec.getLsbD_extractLsb', BitVec.getLsbD_append]
  split
  · simp only [*, decide_true, Bool.true_and, Nat.zero_add]
  · split
    · rw [decide_eq_true (by omega), Bool.true_and]
      congr 1
      omega
    · split
      · rw [decide_eq_true (by omega), Bool.true_and]
        congr 1
        omega
      · rw [decide_eq_true (by omega), Bool.true_and, decide_eq_true (by omega), Bool.true_and, if_pos (by omega)]
        congr 1
        omega
/-- The code of an operand is read back as that operand (Table 3.5). -/
theorem Opd.ofCode_code (o : Opd) : Opd.ofCode o.code = some o := by
  cases o with
  | v n => revert n; decide
  | s n => revert n; decide
  | q n => revert n; decide
  | lc n => revert n; decide
  | k n => revert n; decide
  | _ => rfl
theorem prOf_prCode (p : Pr) : prOf (prCode p) = some p := by revert p; unfold Pr; decide
theorem prOpt_some (p : Pr) : prOpt true (prCode p) = some (some p) := by simp [prOpt, prOf_prCode]
theorem evOfBits_evToBits (e : Option (BitVec 3)) : evOfBits (evToBits e) = some e := by
  cases e with
  | none => rfl
  | some n => revert n; decide
/-- A word decodes to an instruction once its fields do and the operand rules hold. -/
theorem decode_of {i : Instr} {f : Fields} {w : BitVec 64} (hf : Fields.ofWord w = f) (ho : (opEng f.op).isSome) (hr : rawDecode f = some i)
    (hw : i.wf = true) : decode w = .ok i := by
  unfold decode
  rw [hf]
  obtain ⟨x, hx⟩ := Option.isSome_iff_exists.1 ho
  simp [hx, hr, hw]
theorem fld_reg (r : BitVec 12) : fld 12 (r.setWidth 32 : BitVec 32) 0 = r := by
  apply BitVec.eq_of_getLsbD_eq
  intro i hi
  simp only [fld, BitVec.getLsbD_extractLsb', BitVec.getLsbD_setWidth, Nat.zero_add, hi, decide_true, Bool.true_and]
  rw [decide_eq_true (by omega), Bool.true_and]
theorem fld_reg_high (r : BitVec 12) : fld 20 (r.setWidth 32 : BitVec 32) 12 = 0#20 := by
  apply BitVec.eq_of_getLsbD_eq
  intro i hi
  simp only [fld, BitVec.getLsbD_extractLsb', BitVec.getLsbD_setWidth, BitVec.getLsbD_zero]
  rw [BitVec.getLsbD_of_ge r (12 + i) (by omega)]
  simp

theorem raw0 (op : BitVec 8) (h : Hdr) (d a b c : BitVec 8) (fn : BitVec 12) (e : (op >>> 4).toNat = 0x0) :
    rawDecode ⟨op, h, d, a, b, c, fn⟩ = rawDecode0 ⟨op, h, d, a, b, c, fn⟩ := by
  unfold rawDecode
  simp only [e]
theorem raw1 (op : BitVec 8) (h : Hdr) (d a b c : BitVec 8) (fn : BitVec 12) (e : (op >>> 4).toNat = 0x1) :
    rawDecode ⟨op, h, d, a, b, c, fn⟩ = rawDecode1 ⟨op, h, d, a, b, c, fn⟩ := by
  unfold rawDecode
  simp only [e]
theorem raw2 (op : BitVec 8) (h : Hdr) (d a b c : BitVec 8) (fn : BitVec 12) (e : (op >>> 4).toNat = 0x2) :
    rawDecode ⟨op, h, d, a, b, c, fn⟩ = rawDecode2 ⟨op, h, d, a, b, c, fn⟩ := by
  unfold rawDecode
  simp only [e]
theorem raw3 (op : BitVec 8) (h : Hdr) (d a b c : BitVec 8) (fn : BitVec 12) (e : (op >>> 4).toNat = 0x3) :
    rawDecode ⟨op, h, d, a, b, c, fn⟩ = rawDecode3 ⟨op, h, d, a, b, c, fn⟩ := by
  unfold rawDecode
  simp only [e]
theorem raw4 (op : BitVec 8) (h : Hdr) (d a b c : BitVec 8) (fn : BitVec 12) (e : (op >>> 4).toNat = 0x4) :
    rawDecode ⟨op, h, d, a, b, c, fn⟩ = rawDecode4 ⟨op, h, d, a, b, c, fn⟩ := by
  unfold rawDecode
  simp only [e]
theorem raw5 (op : BitVec 8) (h : Hdr) (d a b c : BitVec 8) (fn : BitVec 12) (e : (op >>> 4).toNat = 0x5) :
    rawDecode ⟨op, h, d, a, b, c, fn⟩ = rawDecode5 ⟨op, h, d, a, b, c, fn⟩ := by
  unfold rawDecode
  simp only [e]
theorem raw6 (op : BitVec 8) (h : Hdr) (d a b c : BitVec 8) (fn : BitVec 12) (e : (op >>> 4).toNat = 0x6) :
    rawDecode ⟨op, h, d, a, b, c, fn⟩ = rawDecode6 ⟨op, h, d, a, b, c, fn⟩ := by
  unfold rawDecode
  simp only [e]
theorem raw7 (op : BitVec 8) (h : Hdr) (d a b c : BitVec 8) (fn : BitVec 12) (e : (op >>> 4).toNat = 0x7) :
    rawDecode ⟨op, h, d, a, b, c, fn⟩ = rawDecode7 ⟨op, h, d, a, b, c, fn⟩ := by
  unfold rawDecode
  simp only [e]
theorem raw8 (op : BitVec 8) (h : Hdr) (d a b c : BitVec 8) (fn : BitVec 12) (e : (op >>> 4).toNat = 0x8) :
    rawDecode ⟨op, h, d, a, b, c, fn⟩ = rawDecode8 ⟨op, h, d, a, b, c, fn⟩ := by
  unfold rawDecode
  simp only [e]
theorem rawA (op : BitVec 8) (h : Hdr) (d a b c : BitVec 8) (fn : BitVec 12) (e : (op >>> 4).toNat = 0xA) :
    rawDecode ⟨op, h, d, a, b, c, fn⟩ = rawDecodeA ⟨op, h, d, a, b, c, fn⟩ := by
  unfold rawDecode
  simp only [e]
theorem rawB (op : BitVec 8) (h : Hdr) (d a b c : BitVec 8) (fn : BitVec 12) (e : (op >>> 4).toNat = 0xB) :
    rawDecode ⟨op, h, d, a, b, c, fn⟩ = rawDecodeB ⟨op, h, d, a, b, c, fn⟩ := by
  unfold rawDecode
  simp only [e]
theorem rawC (op : BitVec 8) (h : Hdr) (d a b c : BitVec 8) (fn : BitVec 12) (e : (op >>> 4).toNat = 0xC) :
    rawDecode ⟨op, h, d, a, b, c, fn⟩ = rawDecodeC ⟨op, h, d, a, b, c, fn⟩ := by
  unfold rawDecode
  simp only [e]
theorem rawD (op : BitVec 8) (h : Hdr) (d a b c : BitVec 8) (fn : BitVec 12) (e : (op >>> 4).toNat = 0xD) :
    rawDecode ⟨op, h, d, a, b, c, fn⟩ = rawDecodeD ⟨op, h, d, a, b, c, fn⟩ := by
  unfold rawDecode
  simp only [e]
theorem rawE (op : BitVec 8) (h : Hdr) (d a b c : BitVec 8) (fn : BitVec 12) (e : (op >>> 4).toNat = 0xE) :
    rawDecode ⟨op, h, d, a, b, c, fn⟩ = rawDecodeE ⟨op, h, d, a, b, c, fn⟩ := by
  unfold rawDecode
  simp only [e]

theorem arm00 (fh : Hdr) (fd fa fb fc : BitVec 8) (ff : BitVec 12) : rawDecode0 ⟨0x00#8, fh, fd, fa, fb, fc, ff⟩ =
    ((do guard ((fd == 0xC0#8) && (fa == 0xC0#8) && (fb == 0xC0#8) && (fc == 0xC0#8) && (ff &&& 0xFFF#12 == 0x000#12)); pure (Instr.nop fh)) : Option Instr) := rfl
theorem arm01 (fh : Hdr) (fd fa fb fc : BitVec 8) (ff : BitVec 12) : rawDecode0 ⟨0x01#8, fh, fd, fa, fb, fc, ff⟩ =
    ((do guard ((fd == 0xC0#8) && ((Fields.mk 0x01#8 fh fd fa fb fc ff).fn4 == 0#4)); let off := (Fields.mk 0x01#8 fh fd fa fb fc ff).imm; pure (Instr.bra fh off)) : Option Instr) := rfl
theorem arm02 (fh : Hdr) (fd fa fb fc : BitVec 8) (ff : BitVec 12) : rawDecode0 ⟨0x02#8, fh, fd, fa, fb, fc, ff⟩ =
    ((do guard ((fd == 0xC0#8) && (fb == 0xC0#8) && (fc == 0xC0#8) && (ff &&& 0xFFF#12 == 0x000#12)); let a ← Opd.ofCode fa; pure (Instr.brx fh a)) : Option Instr) := rfl
theorem arm03 (fh : Hdr) (fd fa fb fc : BitVec 8) (ff : BitVec 12) : rawDecode0 ⟨0x03#8, fh, fd, fa, fb, fc, ff⟩ =
    ((do guard (((Fields.mk 0x03#8 fh fd fa fb fc ff).fn4 == 0#4)); let d ← Opd.ofCode fd; let off := (Fields.mk 0x03#8 fh fd fa fb fc ff).imm; pure (Instr.call fh d off)) : Option Instr) := rfl
theorem arm04 (fh : Hdr) (fd fa fb fc : BitVec 8) (ff : BitVec 12) : rawDecode0 ⟨0x04#8, fh, fd, fa, fb, fc, ff⟩ =
    ((do guard ((fd == 0xC0#8) && (fb == 0xC0#8) && (fc == 0xC0#8) && (ff &&& 0xFFF#12 == 0x000#12)); let a ← Opd.ofCode fa; pure (Instr.ret fh a)) : Option Instr) := rfl
theorem arm05 (fh : Hdr) (fd fa fb fc : BitVec 8) (ff : BitVec 12) : rawDecode0 ⟨0x05#8, fh, fd, fa, fb, fc, ff⟩ =
    ((do guard ((fd == 0xC0#8) && (fa == 0xC0#8) && (fb == 0xC0#8) && (fc == 0xC0#8) && (ff &&& 0xFFF#12 == 0x000#12)); pure (Instr.join fh)) : Option Instr) := rfl
theorem arm06 (fh : Hdr) (fd fa fb fc : BitVec 8) (ff : BitVec 12) : rawDecode0 ⟨0x06#8, fh, fd, fa, fb, fc, ff⟩ =
    ((do guard (((Fields.mk 0x06#8 fh fd fa fb fc ff).fn4 == 0#4)); let d ← Opd.ofCode fd; let off := (Fields.mk 0x06#8 fh fd fa fb fc ff).imm; pure (Instr.loop fh d off)) : Option Instr) := rfl
theorem arm07 (fh : Hdr) (fd fa fb fc : BitVec 8) (ff : BitVec 12) : rawDecode0 ⟨0x07#8, fh, fd, fa, fb, fc, ff⟩ =
    ((do guard ((fd == 0xC0#8) && ((Fields.mk 0x07#8 fh fd fa fb fc ff).fn4 == 0#4)); let off := (Fields.mk 0x07#8 fh fd fa fb fc ff).imm; pure (Instr.lexit fh off)) : Option Instr) := rfl
theorem arm08 (fh : Hdr) (fd fa fb fc : BitVec 8) (ff : BitVec 12) : rawDecode0 ⟨0x08#8, fh, fd, fa, fb, fc, ff⟩ =
    ((do guard ((fd == 0xC0#8) && (fa == 0xC0#8) && (fb == 0xC0#8) && (fc == 0xC0#8) && (ff &&& 0xFFF#12 == 0x000#12)); pure (Instr.exit fh)) : Option Instr) := rfl
theorem arm09 (fh : Hdr) (fd fa fb fc : BitVec 8) (ff : BitVec 12) : rawDecode0 ⟨0x09#8, fh, fd, fa, fb, fc, ff⟩ =
    ((do guard ((fd == 0xC0#8) && (fa == 0xC0#8) && (fb == 0xC0#8) && (fc == 0xC0#8) && (ff &&& 0xFFF#12 == 0x000#12)); pure (Instr.yield fh)) : Option Instr) := rfl
theorem arm0A (fh : Hdr) (fd fa fb fc : BitVec 8) (ff : BitVec 12) : rawDecode0 ⟨0x0A#8, fh, fd, fa, fb, fc, ff⟩ =
    ((do guard ((fd == 0xC0#8) && (fa == 0xC0#8) && (fb == 0xC0#8) && (fc == 0xC0#8)); let k := (fld 4 ff 8); let mask := (fld 8 ff 0); pure (Instr.wait fh k mask)) : Option Instr) := rfl
theorem arm10 (fh : Hdr) (fd fa fb fc : BitVec 8) (ff : BitVec 12) : rawDecode1 ⟨0x10#8, fh, fd, fa, fb, fc, ff⟩ =
    ((do guard ((fc == 0xC0#8) && (ff &&& 0xFFC#12 == 0x000#12)); let d ← Opd.ofCode fd; let a ← Opd.ofCode fa; let b ← Opd.ofCode fb; let sat ← SatMode.ofBits (fld 2 ff 0); pure (Instr.iadd fh d a b sat)) : Option Instr) := rfl
theorem arm11 (fh : Hdr) (fd fa fb fc : BitVec 8) (ff : BitVec 12) : rawDecode1 ⟨0x11#8, fh, fd, fa, fb, fc, ff⟩ =
    ((do guard ((fc == 0xC0#8) && (ff &&& 0xFFC#12 == 0x000#12)); let d ← Opd.ofCode fd; let a ← Opd.ofCode fa; let b ← Opd.ofCode fb; let sat ← SatMode.ofBits (fld 2 ff 0); pure (Instr.isub fh d a b sat)) : Option Instr) := rfl
theorem arm12 (fh : Hdr) (fd fa fb fc : BitVec 8) (ff : BitVec 12) : rawDecode1 ⟨0x12#8, fh, fd, fa, fb, fc, ff⟩ =
    ((do guard ((fc == 0xC0#8) && (ff &&& 0xFFF#12 == 0x000#12)); let d ← Opd.ofCode fd; let a ← Opd.ofCode fa; let b ← Opd.ofCode fb; pure (Instr.imul fh d a b)) : Option Instr) := rfl
theorem arm13 (fh : Hdr) (fd fa fb fc : BitVec 8) (ff : BitVec 12) : rawDecode1 ⟨0x13#8, fh, fd, fa, fb, fc, ff⟩ =
    ((do guard ((fc == 0xC0#8) && (ff &&& 0xFFE#12 == 0x000#12)); let d ← Opd.ofCode fd; let a ← Opd.ofCode fa; let b ← Opd.ofCode fb; let sg := (fld 1 ff 0) == 1#1; pure (Instr.imulh fh d a b sg)) : Option Instr) := rfl
theorem arm14 (fh : Hdr) (fd fa fb fc : BitVec 8) (ff : BitVec 12) : rawDecode1 ⟨0x14#8, fh, fd, fa, fb, fc, ff⟩ =
    ((do guard ((ff &&& 0xFFF#12 == 0x000#12)); let d ← Opd.ofCode fd; let a ← Opd.ofCode fa; let b ← Opd.ofCode fb; let c ← Opd.ofCode fc; pure (Instr.imad fh d a b c)) : Option Instr) := rfl
theorem arm15 (fh : Hdr) (fd fa fb fc : BitVec 8) (ff : BitVec 12) : rawDecode1 ⟨0x15#8, fh, fd, fa, fb, fc, ff⟩ =
    ((do guard ((fc == 0xC0#8) && (ff &&& 0xFFE#12 == 0x000#12)); let d ← Opd.ofCode fd; let a ← Opd.ofCode fa; let b ← Opd.ofCode fb; let sg := (fld 1 ff 0) == 1#1; pure (Instr.imin fh d a b sg)) : Option Instr) := rfl
theorem arm16 (fh : Hdr) (fd fa fb fc : BitVec 8) (ff : BitVec 12) : rawDecode1 ⟨0x16#8, fh, fd, fa, fb, fc, ff⟩ =
    ((do guard ((fc == 0xC0#8) && (ff &&& 0xFFE#12 == 0x000#12)); let d ← Opd.ofCode fd; let a ← Opd.ofCode fa; let b ← Opd.ofCode fb; let sg := (fld 1 ff 0) == 1#1; pure (Instr.imax fh d a b sg)) : Option Instr) := rfl
theorem arm17 (fh : Hdr) (fd fa fb fc : BitVec 8) (ff : BitVec 12) : rawDecode1 ⟨0x17#8, fh, fd, fa, fb, fc, ff⟩ =
    ((do guard ((fb == 0xC0#8) && (fc == 0xC0#8) && (ff &&& 0xFFD#12 == 0x000#12)); let d ← Opd.ofCode fd; let a ← Opd.ofCode fa; let sat := (fld 1 ff 1) == 1#1; pure (Instr.iabs fh d a sat)) : Option Instr) := rfl
theorem arm18 (fh : Hdr) (fd fa fb fc : BitVec 8) (ff : BitVec 12) : rawDecode1 ⟨0x18#8, fh, fd, fa, fb, fc, ff⟩ =
    ((do guard ((fc == 0xC0#8) && (ff &&& 0xFF0#12 == 0x000#12)); let d ← prOf fd; let a ← Opd.ofCode fa; let b ← Opd.ofCode fb; let sg := (fld 1 ff 0) == 1#1; let cc ← Cmp.ofBits (fld 3 ff 1); pure (Instr.icmp fh d a b sg cc)) : Option Instr) := rfl
theorem arm19 (fh : Hdr) (fd fa fb fc : BitVec 8) (ff : BitVec 12) : rawDecode1 ⟨0x19#8, fh, fd, fa, fb, fc, ff⟩ =
    ((do guard ((fc == 0xC0#8) && (ff &&& 0xFFF#12 == 0x000#12)); let d ← Opd.ofCode fd; let a ← Opd.ofCode fa; let b ← Opd.ofCode fb; pure (Instr.and fh d a b)) : Option Instr) := rfl
theorem arm1A (fh : Hdr) (fd fa fb fc : BitVec 8) (ff : BitVec 12) : rawDecode1 ⟨0x1A#8, fh, fd, fa, fb, fc, ff⟩ =
    ((do guard ((fc == 0xC0#8) && (ff &&& 0xFFF#12 == 0x000#12)); let d ← Opd.ofCode fd; let a ← Opd.ofCode fa; let b ← Opd.ofCode fb; pure (Instr.or fh d a b)) : Option Instr) := rfl
theorem arm1B (fh : Hdr) (fd fa fb fc : BitVec 8) (ff : BitVec 12) : rawDecode1 ⟨0x1B#8, fh, fd, fa, fb, fc, ff⟩ =
    ((do guard ((fc == 0xC0#8) && (ff &&& 0xFFF#12 == 0x000#12)); let d ← Opd.ofCode fd; let a ← Opd.ofCode fa; let b ← Opd.ofCode fb; pure (Instr.xor fh d a b)) : Option Instr) := rfl
theorem arm1C (fh : Hdr) (fd fa fb fc : BitVec 8) (ff : BitVec 12) : rawDecode1 ⟨0x1C#8, fh, fd, fa, fb, fc, ff⟩ =
    ((do guard ((fc == 0xC0#8) && (ff &&& 0xFFF#12 == 0x000#12)); let d ← Opd.ofCode fd; let a ← Opd.ofCode fa; let b ← Opd.ofCode fb; pure (Instr.andn fh d a b)) : Option Instr) := rfl
theorem arm1D (fh : Hdr) (fd fa fb fc : BitVec 8) (ff : BitVec 12) : rawDecode1 ⟨0x1D#8, fh, fd, fa, fb, fc, ff⟩ =
    ((do guard ((fc == 0xC0#8) && (ff &&& 0xFFF#12 == 0x000#12)); let d ← Opd.ofCode fd; let a ← Opd.ofCode fa; let b ← Opd.ofCode fb; pure (Instr.shl fh d a b)) : Option Instr) := rfl
theorem arm1E (fh : Hdr) (fd fa fb fc : BitVec 8) (ff : BitVec 12) : rawDecode1 ⟨0x1E#8, fh, fd, fa, fb, fc, ff⟩ =
    ((do guard ((fc == 0xC0#8) && (ff &&& 0xFFF#12 == 0x000#12)); let d ← Opd.ofCode fd; let a ← Opd.ofCode fa; let b ← Opd.ofCode fb; pure (Instr.shr fh d a b)) : Option Instr) := rfl
theorem arm1F (fh : Hdr) (fd fa fb fc : BitVec 8) (ff : BitVec 12) : rawDecode1 ⟨0x1F#8, fh, fd, fa, fb, fc, ff⟩ =
    ((do guard ((fc == 0xC0#8) && (ff &&& 0xFFF#12 == 0x000#12)); let d ← Opd.ofCode fd; let a ← Opd.ofCode fa; let b ← Opd.ofCode fb; pure (Instr.sar fh d a b)) : Option Instr) := rfl
theorem arm20 (fh : Hdr) (fd fa fb fc : BitVec 8) (ff : BitVec 12) : rawDecode2 ⟨0x20#8, fh, fd, fa, fb, fc, ff⟩ =
    ((do guard ((fc == 0xC0#8) && (ff &&& 0xFFE#12 == 0x000#12)); let d ← Opd.ofCode fd; let a ← Opd.ofCode fa; let b ← Opd.ofCode fb; let right := (fld 1 ff 0) == 1#1; pure (Instr.rot fh d a b right)) : Option Instr) := rfl
theorem arm21 (fh : Hdr) (fd fa fb fc : BitVec 8) (ff : BitVec 12) : rawDecode2 ⟨0x21#8, fh, fd, fa, fb, fc, ff⟩ =
    ((do guard ((fb == 0xC0#8) && (fc == 0xC0#8) && (ff &&& 0xFFF#12 == 0x000#12)); let d ← Opd.ofCode fd; let a ← Opd.ofCode fa; pure (Instr.popc fh d a)) : Option Instr) := rfl
theorem arm22 (fh : Hdr) (fd fa fb fc : BitVec 8) (ff : BitVec 12) : rawDecode2 ⟨0x22#8, fh, fd, fa, fb, fc, ff⟩ =
    ((do guard ((fb == 0xC0#8) && (fc == 0xC0#8) && (ff &&& 0xFFF#12 == 0x000#12)); let d ← Opd.ofCode fd; let a ← Opd.ofCode fa; pure (Instr.clz fh d a)) : Option Instr) := rfl
theorem arm23 (fh : Hdr) (fd fa fb fc : BitVec 8) (ff : BitVec 12) : rawDecode2 ⟨0x23#8, fh, fd, fa, fb, fc, ff⟩ =
    ((do guard ((fb == 0xC0#8) && (fc == 0xC0#8) && (ff &&& 0xFFF#12 == 0x000#12)); let d ← Opd.ofCode fd; let a ← Opd.ofCode fa; pure (Instr.brev fh d a)) : Option Instr) := rfl
theorem arm24 (fh : Hdr) (fd fa fb fc : BitVec 8) (ff : BitVec 12) : rawDecode2 ⟨0x24#8, fh, fd, fa, fb, fc, ff⟩ =
    ((do guard ((ff &&& 0xFFE#12 == 0x000#12)); let d ← Opd.ofCode fd; let a ← Opd.ofCode fa; let b ← Opd.ofCode fb; let c ← Opd.ofCode fc; let sg := (fld 1 ff 0) == 1#1; pure (Instr.bfe fh d a b c sg)) : Option Instr) := rfl
theorem arm25 (fh : Hdr) (fd fa fb fc : BitVec 8) (ff : BitVec 12) : rawDecode2 ⟨0x25#8, fh, fd, fa, fb, fc, ff⟩ =
    ((do guard ((ff &&& 0xFFF#12 == 0x000#12)); let d ← Opd.ofCode fd; let a ← Opd.ofCode fa; let b ← Opd.ofCode fb; let c ← Opd.ofCode fc; pure (Instr.bfi fh d a b c)) : Option Instr) := rfl
theorem arm26 (fh : Hdr) (fd fa fb fc : BitVec 8) (ff : BitVec 12) : rawDecode2 ⟨0x26#8, fh, fd, fa, fb, fc, ff⟩ =
    ((do guard ((fc == 0xC0#8) && (ff &&& 0xF80#12 == 0x000#12)); let d ← Opd.ofCode fd; let a ← Opd.ofCode fa; let b ← Opd.ofCode fb; let k := (fld 5 ff 0); let w := (fld 1 ff 5) == 1#1; let sg := (fld 1 ff 6) == 1#1; pure (Instr.lea fh d a b k w sg)) : Option Instr) := rfl
theorem arm27 (fh : Hdr) (fd fa fb fc : BitVec 8) (ff : BitVec 12) : rawDecode2 ⟨0x27#8, fh, fd, fa, fb, fc, ff⟩ =
    ((do guard ((fc == 0xC0#8) && (ff &&& 0xFFC#12 == 0x000#12)); let d ← Opd.ofCode fd; let a ← Opd.ofCode fa; let b ← Opd.ofCode fb; let wb ← WideB.ofBits (fld 2 ff 0); pure (Instr.iaddw fh d a b wb)) : Option Instr) := rfl
theorem arm28 (fh : Hdr) (fd fa fb fc : BitVec 8) (ff : BitVec 12) : rawDecode2 ⟨0x28#8, fh, fd, fa, fb, fc, ff⟩ =
    ((do guard ((ff &&& 0xFFE#12 == 0x000#12)); let d ← Opd.ofCode fd; let a ← Opd.ofCode fa; let b ← Opd.ofCode fb; let c ← prOf fc; let sub := (fld 1 ff 0) == 1#1; pure (Instr.iaddc fh d a b c sub)) : Option Instr) := rfl
theorem arm29 (fh : Hdr) (fd fa fb fc : BitVec 8) (ff : BitVec 12) : rawDecode2 ⟨0x29#8, fh, fd, fa, fb, fc, ff⟩ =
    ((do guard ((ff &&& 0xFFE#12 == 0x000#12)); let d ← Opd.ofCode fd; let a ← Opd.ofCode fa; let b ← Opd.ofCode fb; let c ← Opd.ofCode fc; let sg := (fld 1 ff 0) == 1#1; pure (Instr.sad fh d a b c sg)) : Option Instr) := rfl
theorem arm2A (fh : Hdr) (fd fa fb fc : BitVec 8) (ff : BitVec 12) : rawDecode2 ⟨0x2A#8, fh, fd, fa, fb, fc, ff⟩ =
    ((do guard ((ff &&& 0xFFF#12 == 0x000#12)); let d ← Opd.ofCode fd; let a ← Opd.ofCode fa; let b ← Opd.ofCode fb; let c ← Opd.ofCode fc; pure (Instr.bsel fh d a b c)) : Option Instr) := rfl
theorem arm2B (fh : Hdr) (fd fa fb fc : BitVec 8) (ff : BitVec 12) : rawDecode2 ⟨0x2B#8, fh, fd, fa, fb, fc, ff⟩ =
    ((do guard ((ff &&& 0xFF8#12 == 0x000#12)); let d ← Opd.ofCode fd; let a ← Opd.ofCode fa; let b ← Opd.ofCode fb; let c ← Opd.ofCode fc; let sa := (fld 1 ff 0) == 1#1; let sb := (fld 1 ff 1) == 1#1; let sat := (fld 1 ff 2) == 1#1; pure (Instr.idot4 fh d a b c sa sb sat)) : Option Instr) := rfl
theorem arm30 (fh : Hdr) (fd fa fb fc : BitVec 8) (ff : BitVec 12) : rawDecode3 ⟨0x30#8, fh, fd, fa, fb, fc, ff⟩ =
    ((do guard ((fc == 0xC0#8) && (ff &&& 0xFF8#12 == 0x000#12)); let d ← Opd.ofCode fd; let a ← Opd.ofCode fa; let b ← Opd.ofCode fb; let rm ← Rm.ofBits (fld 3 ff 0); pure (Instr.fadd fh d a b rm)) : Option Instr) := rfl
theorem arm31 (fh : Hdr) (fd fa fb fc : BitVec 8) (ff : BitVec 12) : rawDecode3 ⟨0x31#8, fh, fd, fa, fb, fc, ff⟩ =
    ((do guard ((fc == 0xC0#8) && (ff &&& 0xFF8#12 == 0x000#12)); let d ← Opd.ofCode fd; let a ← Opd.ofCode fa; let b ← Opd.ofCode fb; let rm ← Rm.ofBits (fld 3 ff 0); pure (Instr.fsub fh d a b rm)) : Option Instr) := rfl
theorem arm32 (fh : Hdr) (fd fa fb fc : BitVec 8) (ff : BitVec 12) : rawDecode3 ⟨0x32#8, fh, fd, fa, fb, fc, ff⟩ =
    ((do guard ((fc == 0xC0#8) && (ff &&& 0xFF8#12 == 0x000#12)); let d ← Opd.ofCode fd; let a ← Opd.ofCode fa; let b ← Opd.ofCode fb; let rm ← Rm.ofBits (fld 3 ff 0); pure (Instr.fmul fh d a b rm)) : Option Instr) := rfl
theorem arm33 (fh : Hdr) (fd fa fb fc : BitVec 8) (ff : BitVec 12) : rawDecode3 ⟨0x33#8, fh, fd, fa, fb, fc, ff⟩ =
    ((do guard ((ff &&& 0xFF8#12 == 0x000#12)); let d ← Opd.ofCode fd; let a ← Opd.ofCode fa; let b ← Opd.ofCode fb; let c ← Opd.ofCode fc; let rm ← Rm.ofBits (fld 3 ff 0); pure (Instr.ffma fh d a b c rm)) : Option Instr) := rfl
theorem arm34 (fh : Hdr) (fd fa fb fc : BitVec 8) (ff : BitVec 12) : rawDecode3 ⟨0x34#8, fh, fd, fa, fb, fc, ff⟩ =
    ((do guard ((fc == 0xC0#8) && (ff &&& 0xFFF#12 == 0x000#12)); let d ← Opd.ofCode fd; let a ← Opd.ofCode fa; let b ← Opd.ofCode fb; pure (Instr.fmin fh d a b)) : Option Instr) := rfl
theorem arm35 (fh : Hdr) (fd fa fb fc : BitVec 8) (ff : BitVec 12) : rawDecode3 ⟨0x35#8, fh, fd, fa, fb, fc, ff⟩ =
    ((do guard ((fc == 0xC0#8) && (ff &&& 0xFFF#12 == 0x000#12)); let d ← Opd.ofCode fd; let a ← Opd.ofCode fa; let b ← Opd.ofCode fb; pure (Instr.fmax fh d a b)) : Option Instr) := rfl
theorem arm36 (fh : Hdr) (fd fa fb fc : BitVec 8) (ff : BitVec 12) : rawDecode3 ⟨0x36#8, fh, fd, fa, fb, fc, ff⟩ =
    ((do guard ((fc == 0xC0#8) && (ff &&& 0xFF8#12 == 0x000#12)); let d ← prOf fd; let a ← Opd.ofCode fa; let b ← Opd.ofCode fb; let cc ← FCond.ofBits (fld 3 ff 0); pure (Instr.fcmp fh d a b cc)) : Option Instr) := rfl
theorem arm37 (fh : Hdr) (fd fa fb fc : BitVec 8) (ff : BitVec 12) : rawDecode3 ⟨0x37#8, fh, fd, fa, fb, fc, ff⟩ =
    ((do guard ((fb == 0xC0#8) && (fc == 0xC0#8) && (ff &&& 0xFF0#12 == 0x000#12)); let d ← Opd.ofCode fd; let a ← Opd.ofCode fa; let rm ← Rm.ofBits (fld 3 ff 0); let x := (fld 1 ff 3) == 1#1; pure (Instr.frnd fh d a rm x)) : Option Instr) := rfl
theorem arm38 (fh : Hdr) (fd fa fb fc : BitVec 8) (ff : BitVec 12) : rawDecode3 ⟨0x38#8, fh, fd, fa, fb, fc, ff⟩ =
    ((do guard ((fb == 0xC0#8) && (fc == 0xC0#8) && (ff &&& 0xFFF#12 == 0x000#12)); let d ← Opd.ofCode fd; let a ← Opd.ofCode fa; pure (Instr.fclass fh d a)) : Option Instr) := rfl
theorem arm39 (fh : Hdr) (fd fa fb fc : BitVec 8) (ff : BitVec 12) : rawDecode3 ⟨0x39#8, fh, fd, fa, fb, fc, ff⟩ =
    ((do guard ((fc == 0xC0#8) && (ff &&& 0xFF8#12 == 0x000#12)); let d ← Opd.ofCode fd; let a ← Opd.ofCode fa; let b ← Opd.ofCode fb; let rm ← Rm.ofBits (fld 3 ff 0); pure (Instr.fscale fh d a b rm)) : Option Instr) := rfl
theorem arm3A (fh : Hdr) (fd fa fb fc : BitVec 8) (ff : BitVec 12) : rawDecode3 ⟨0x3A#8, fh, fd, fa, fb, fc, ff⟩ =
    ((do guard ((fc == 0xC0#8) && (ff &&& 0xFFF#12 == 0x000#12)); let d ← Opd.ofCode fd; let a ← Opd.ofCode fa; let b ← Opd.ofCode fb; pure (Instr.twosum fh d a b)) : Option Instr) := rfl
theorem arm3B (fh : Hdr) (fd fa fb fc : BitVec 8) (ff : BitVec 12) : rawDecode3 ⟨0x3B#8, fh, fd, fa, fb, fc, ff⟩ =
    ((do guard ((fc == 0xC0#8) && (ff &&& 0xFFF#12 == 0x000#12)); let d ← Opd.ofCode fd; let a ← Opd.ofCode fa; let b ← Opd.ofCode fb; pure (Instr.twoprod fh d a b)) : Option Instr) := rfl
theorem arm3C (fh : Hdr) (fd fa fb fc : BitVec 8) (ff : BitVec 12) : rawDecode3 ⟨0x3C#8, fh, fd, fa, fb, fc, ff⟩ =
    ((do guard ((fc == 0xC0#8) && (ff &&& 0xFFE#12 == 0x000#12)); let d ← Opd.ofCode fd; let a ← Opd.ofCode fa; let b ← Opd.ofCode fb; let one := (fld 1 ff 0) == 1#1; pure (Instr.faddp fh d a b one)) : Option Instr) := rfl
theorem arm3D (fh : Hdr) (fd fa fb fc : BitVec 8) (ff : BitVec 12) : rawDecode3 ⟨0x3D#8, fh, fd, fa, fb, fc, ff⟩ =
    ((do guard ((fc == 0xC0#8) && (ff &&& 0xFF0#12 == 0x000#12)); let d ← Opd.ofCode fd; let a ← Opd.ofCode fa; let b ← Opd.ofCode fb; let rm ← Rm.ofBits (fld 3 ff 0); let b0 := (fld 1 ff 3) == 1#1; pure (Instr.pkadd fh d a b rm b0)) : Option Instr) := rfl
theorem arm3E (fh : Hdr) (fd fa fb fc : BitVec 8) (ff : BitVec 12) : rawDecode3 ⟨0x3E#8, fh, fd, fa, fb, fc, ff⟩ =
    ((do guard ((fc == 0xC0#8) && (ff &&& 0xFF0#12 == 0x000#12)); let d ← Opd.ofCode fd; let a ← Opd.ofCode fa; let b ← Opd.ofCode fb; let rm ← Rm.ofBits (fld 3 ff 0); let b0 := (fld 1 ff 3) == 1#1; pure (Instr.pkmul fh d a b rm b0)) : Option Instr) := rfl
theorem arm3F (fh : Hdr) (fd fa fb fc : BitVec 8) (ff : BitVec 12) : rawDecode3 ⟨0x3F#8, fh, fd, fa, fb, fc, ff⟩ =
    ((do guard ((ff &&& 0xFF0#12 == 0x000#12)); let d ← Opd.ofCode fd; let a ← Opd.ofCode fa; let b ← Opd.ofCode fb; let c ← Opd.ofCode fc; let rm ← Rm.ofBits (fld 3 ff 0); let b0 := (fld 1 ff 3) == 1#1; pure (Instr.pkfma fh d a b c rm b0)) : Option Instr) := rfl
theorem arm40 (fh : Hdr) (fd fa fb fc : BitVec 8) (ff : BitVec 12) : rawDecode4 ⟨0x40#8, fh, fd, fa, fb, fc, ff⟩ =
    ((do guard ((ff &&& 0xFF0#12 == 0x000#12)); let d ← Opd.ofCode fd; let a ← Opd.ofCode fa; let b ← Opd.ofCode fb; let c ← Opd.ofCode fc; let rm ← Rm.ofBits (fld 3 ff 0); let b0 := (fld 1 ff 3) == 1#1; pure (Instr.pkfmab fh d a b c rm b0)) : Option Instr) := rfl
theorem arm50 (fh : Hdr) (fd fa fb fc : BitVec 8) (ff : BitVec 12) : rawDecode5 ⟨0x50#8, fh, fd, fa, fb, fc, ff⟩ =
    ((do guard ((fb == 0xC0#8) && (fc == 0xC0#8) && (ff &&& 0xFF8#12 == 0x000#12)); let d ← Opd.ofCode fd; let a ← Opd.ofCode fa; let rm ← Rm.ofBits (fld 3 ff 0); pure (Instr.rcp fh d a rm)) : Option Instr) := rfl
theorem arm51 (fh : Hdr) (fd fa fb fc : BitVec 8) (ff : BitVec 12) : rawDecode5 ⟨0x51#8, fh, fd, fa, fb, fc, ff⟩ =
    ((do guard ((fb == 0xC0#8) && (fc == 0xC0#8) && (ff &&& 0xFFF#12 == 0x000#12)); let d ← Opd.ofCode fd; let a ← Opd.ofCode fa; pure (Instr.rsq fh d a)) : Option Instr) := rfl
theorem arm52 (fh : Hdr) (fd fa fb fc : BitVec 8) (ff : BitVec 12) : rawDecode5 ⟨0x52#8, fh, fd, fa, fb, fc, ff⟩ =
    ((do guard ((fb == 0xC0#8) && (fc == 0xC0#8) && (ff &&& 0xFF8#12 == 0x000#12)); let d ← Opd.ofCode fd; let a ← Opd.ofCode fa; let rm ← Rm.ofBits (fld 3 ff 0); pure (Instr.sqrt fh d a rm)) : Option Instr) := rfl
theorem arm53 (fh : Hdr) (fd fa fb fc : BitVec 8) (ff : BitVec 12) : rawDecode5 ⟨0x53#8, fh, fd, fa, fb, fc, ff⟩ =
    ((do guard ((fb == 0xC0#8) && (fc == 0xC0#8) && (ff &&& 0xFFF#12 == 0x000#12)); let d ← Opd.ofCode fd; let a ← Opd.ofCode fa; pure (Instr.exp2 fh d a)) : Option Instr) := rfl
theorem arm54 (fh : Hdr) (fd fa fb fc : BitVec 8) (ff : BitVec 12) : rawDecode5 ⟨0x54#8, fh, fd, fa, fb, fc, ff⟩ =
    ((do guard ((fb == 0xC0#8) && (fc == 0xC0#8) && (ff &&& 0xFFF#12 == 0x000#12)); let d ← Opd.ofCode fd; let a ← Opd.ofCode fa; pure (Instr.log2 fh d a)) : Option Instr) := rfl
theorem arm55 (fh : Hdr) (fd fa fb fc : BitVec 8) (ff : BitVec 12) : rawDecode5 ⟨0x55#8, fh, fd, fa, fb, fc, ff⟩ =
    ((do guard ((fb == 0xC0#8) && (fc == 0xC0#8) && (ff &&& 0xFFF#12 == 0x000#12)); let d ← Opd.ofCode fd; let a ← Opd.ofCode fa; pure (Instr.sin fh d a)) : Option Instr) := rfl
theorem arm56 (fh : Hdr) (fd fa fb fc : BitVec 8) (ff : BitVec 12) : rawDecode5 ⟨0x56#8, fh, fd, fa, fb, fc, ff⟩ =
    ((do guard ((fb == 0xC0#8) && (fc == 0xC0#8) && (ff &&& 0xFFF#12 == 0x000#12)); let d ← Opd.ofCode fd; let a ← Opd.ofCode fa; pure (Instr.cos fh d a)) : Option Instr) := rfl
theorem arm57 (fh : Hdr) (fd fa fb fc : BitVec 8) (ff : BitVec 12) : rawDecode5 ⟨0x57#8, fh, fd, fa, fb, fc, ff⟩ =
    ((do guard ((fb == 0xC0#8) && (fc == 0xC0#8) && (ff &&& 0xFFF#12 == 0x000#12)); let d ← Opd.ofCode fd; let a ← Opd.ofCode fa; pure (Instr.tanh fh d a)) : Option Instr) := rfl
theorem arm58 (fh : Hdr) (fd fa fb fc : BitVec 8) (ff : BitVec 12) : rawDecode5 ⟨0x58#8, fh, fd, fa, fb, fc, ff⟩ =
    ((do guard ((fb == 0xC0#8) && (fc == 0xC0#8) && (ff &&& 0xFC8#12 == 0x000#12)); let d ← Opd.ofCode fd; let a ← Opd.ofCode fa; let rm ← Rm.ofBits (fld 3 ff 0); let ty ← ITy.ofBits (fld 2 ff 4); pure (Instr.cvtif fh d a rm ty)) : Option Instr) := rfl
theorem arm59 (fh : Hdr) (fd fa fb fc : BitVec 8) (ff : BitVec 12) : rawDecode5 ⟨0x59#8, fh, fd, fa, fb, fc, ff⟩ =
    ((do guard ((fb == 0xC0#8) && (fc == 0xC0#8) && (ff &&& 0xFC8#12 == 0x000#12)); let d ← Opd.ofCode fd; let a ← Opd.ofCode fa; let rm ← Rm.ofBits (fld 3 ff 0); let ty ← ITy.ofBits (fld 2 ff 4); pure (Instr.cvtfi fh d a rm ty)) : Option Instr) := rfl
theorem arm5A (fh : Hdr) (fd fa fb fc : BitVec 8) (ff : BitVec 12) : rawDecode5 ⟨0x5A#8, fh, fd, fa, fb, fc, ff⟩ =
    ((do guard ((fb == 0xC0#8) && (fc == 0xC0#8) && (ff &&& 0xFE8#12 == 0x000#12)); let d ← Opd.ofCode fd; let a ← Opd.ofCode fa; let rm ← Rm.ofBits (fld 3 ff 0); let toF16 := (fld 1 ff 4) == 1#1; pure (Instr.cvtff fh d a rm toF16)) : Option Instr) := rfl
theorem arm5B (fh : Hdr) (fd fa fb fc : BitVec 8) (ff : BitVec 12) : rawDecode5 ⟨0x5B#8, fh, fd, fa, fb, fc, ff⟩ =
    ((do guard ((fc == 0xC0#8) && (ff &&& 0xFE8#12 == 0x000#12)); let d ← Opd.ofCode fd; let a ← Opd.ofCode fa; let b ← Opd.ofCode fb; let rm ← Rm.ofBits (fld 3 ff 0); let bf := (fld 1 ff 4) == 1#1; pure (Instr.packh fh d a b rm bf)) : Option Instr) := rfl
theorem arm5C (fh : Hdr) (fd fa fb fc : BitVec 8) (ff : BitVec 12) : rawDecode5 ⟨0x5C#8, fh, fd, fa, fb, fc, ff⟩ =
    ((do guard ((fb == 0xC0#8) && (fc == 0xC0#8) && (ff &&& 0xFCF#12 == 0x000#12)); let d ← Opd.ofCode fd; let a ← Opd.ofCode fa; let bf := (fld 1 ff 4) == 1#1; let hi := (fld 1 ff 5) == 1#1; pure (Instr.unpkh fh d a bf hi)) : Option Instr) := rfl
theorem arm5D (fh : Hdr) (fd fa fb fc : BitVec 8) (ff : BitVec 12) : rawDecode5 ⟨0x5D#8, fh, fd, fa, fb, fc, ff⟩ =
    ((do guard ((fc == 0xC0#8) && (ff &&& 0xF80#12 == 0x000#12)); let d ← Opd.ofCode fd; let a ← Opd.ofCode fa; let b ← Opd.ofCode fb; let f := (fld 5 ff 0); let scl := (fld 1 ff 5) == 1#1; let esc := (fld 1 ff 6) == 1#1; pure (Instr.decn fh d a b f scl esc)) : Option Instr) := rfl
theorem arm60 (fh : Hdr) (fd fa fb fc : BitVec 8) (ff : BitVec 12) : rawDecode6 ⟨0x60#8, fh, fd, fa, fb, fc, ff⟩ =
    ((do guard ((fb == 0xC0#8) && (fc == 0xC0#8) && (ff &&& 0xFFE#12 == 0x000#12)); let d ← Opd.ofCode fd; let a ← Opd.ofCode fa; let w := (fld 1 ff 0) == 1#1; pure (Instr.mov fh d a w)) : Option Instr) := rfl
theorem arm61 (fh : Hdr) (fd fa fb fc : BitVec 8) (ff : BitVec 12) : rawDecode6 ⟨0x61#8, fh, fd, fa, fb, fc, ff⟩ =
    ((do guard (((Fields.mk 0x61#8 fh fd fa fb fc ff).fn4 == 0#4)); let d ← Opd.ofCode fd; let imm := (Fields.mk 0x61#8 fh fd fa fb fc ff).imm; pure (Instr.movi fh d imm)) <|> (do guard (((Fields.mk 0x61#8 fh fd fa fb fc ff).fn4 == 1#4)); let d ← Opd.ofCode fd; let imm := (Fields.mk 0x61#8 fh fd fa fb fc ff).imm; pure (Instr.moviS fh d imm)) <|> (do guard (((Fields.mk 0x61#8 fh fd fa fb fc ff).fn4 == 2#4)); let d ← Opd.ofCode fd; let imm := (Fields.mk 0x61#8 fh fd fa fb fc ff).imm; pure (Instr.moviHi fh d imm)) : Option Instr) := rfl
theorem arm62 (fh : Hdr) (fd fa fb fc : BitVec 8) (ff : BitVec 12) : rawDecode6 ⟨0x62#8, fh, fd, fa, fb, fc, ff⟩ =
    ((do guard ((ff &&& 0xFFE#12 == 0x000#12)); let d ← Opd.ofCode fd; let a ← Opd.ofCode fa; let b ← Opd.ofCode fb; let c ← prOf fc; let w := (fld 1 ff 0) == 1#1; pure (Instr.sel fh d a b c w)) : Option Instr) := rfl
theorem arm63 (fh : Hdr) (fd fa fb fc : BitVec 8) (ff : BitVec 12) : rawDecode6 ⟨0x63#8, fh, fd, fa, fb, fc, ff⟩ =
    ((do guard ((fc == 0xC0#8) && (ff &&& 0xFFC#12 == 0x000#12)); let d ← prOf fd; let a ← prOf fa; let b ← prOf fb; let na := (fld 1 ff 0) == 1#1; let nb := (fld 1 ff 1) == 1#1; pure (Instr.pand fh d a b na nb)) : Option Instr) := rfl
theorem arm64 (fh : Hdr) (fd fa fb fc : BitVec 8) (ff : BitVec 12) : rawDecode6 ⟨0x64#8, fh, fd, fa, fb, fc, ff⟩ =
    ((do guard ((fc == 0xC0#8) && (ff &&& 0xFFC#12 == 0x000#12)); let d ← prOf fd; let a ← prOf fa; let b ← prOf fb; let na := (fld 1 ff 0) == 1#1; let nb := (fld 1 ff 1) == 1#1; pure (Instr.por fh d a b na nb)) : Option Instr) := rfl
theorem arm65 (fh : Hdr) (fd fa fb fc : BitVec 8) (ff : BitVec 12) : rawDecode6 ⟨0x65#8, fh, fd, fa, fb, fc, ff⟩ =
    ((do guard ((fc == 0xC0#8) && (ff &&& 0xFFC#12 == 0x000#12)); let d ← prOf fd; let a ← prOf fa; let b ← prOf fb; let na := (fld 1 ff 0) == 1#1; let nb := (fld 1 ff 1) == 1#1; pure (Instr.pxor fh d a b na nb)) : Option Instr) := rfl
theorem arm66 (fh : Hdr) (fd fa fb fc : BitVec 8) (ff : BitVec 12) : rawDecode6 ⟨0x66#8, fh, fd, fa, fb, fc, ff⟩ =
    ((do guard ((fb == 0xC0#8) && (fc == 0xC0#8) && (ff &&& 0xFFF#12 == 0x000#12)); let d ← prOf fd; let a ← prOf fa; pure (Instr.pmov fh d a)) <|> (do guard ((fb == 0xC0#8) && (fc == 0xC0#8) && (ff &&& 0xFFF#12 == 0x001#12)); let d ← prOf fd; let a ← prOf fa; pure (Instr.pmovNot fh d a)) <|> (do guard ((fb == 0xC0#8) && (fc == 0xC0#8) && (ff &&& 0xFFF#12 == 0x002#12)); let d ← Opd.ofCode fd; let a ← prOf fa; pure (Instr.pmovVal fh d a)) <|> (do guard ((fb == 0xC0#8) && (fc == 0xC0#8) && (ff &&& 0xFFF#12 == 0x003#12)); let d ← prOf fd; let a ← Opd.ofCode fa; pure (Instr.pmovNz fh d a)) : Option Instr) := rfl
theorem arm67 (fh : Hdr) (fd fa fb fc : BitVec 8) (ff : BitVec 12) : rawDecode6 ⟨0x67#8, fh, fd, fa, fb, fc, ff⟩ =
    ((do guard ((fb == 0xC0#8) && (fc == 0xC0#8) && (ff &&& 0xC0F#12 == 0x000#12)); let d ← prOf fd; let a ← Opd.ofCode fa; let n1 := (fld 6 ff 4); pure (Instr.pset fh d a n1)) <|> (do guard ((fb == 0xC0#8) && (fc == 0xC0#8) && (ff &&& 0xC0F#12 == 0x001#12)); let d ← Opd.ofCode fd; let a ← prOf fa; let n1 := (fld 6 ff 4); pure (Instr.psetPack fh d a n1)) : Option Instr) := rfl
theorem arm68 (fh : Hdr) (fd fa fb fc : BitVec 8) (ff : BitVec 12) : rawDecode6 ⟨0x68#8, fh, fd, fa, fb, fc, ff⟩ =
    ((do guard ((fc == 0xC0#8) && (ff &&& 0xFFE#12 == 0x000#12)); let d ← Opd.ofCode fd; let a ← Opd.ofCode fa; let b ← Opd.ofCode fb; let first := (fld 1 ff 0) == 1#1; pure (Instr.smov fh d a b first)) : Option Instr) := rfl
theorem arm70 (fh : Hdr) (fd fa fb fc : BitVec 8) (ff : BitVec 12) : rawDecode7 ⟨0x70#8, fh, fd, fa, fb, fc, ff⟩ =
    ((do guard ((ff &&& 0xF80#12 == 0x000#12)); let d ← Opd.ofCode fd; let a ← Opd.ofCode fa; let b ← Opd.ofCode fb; let c ← prOpt (fld 1 ff 6 == 1#1) fc; let mode ← LxMode.ofBits (fld 3 ff 0); let grp ← LxGroup.ofBits (fld 3 ff 3); pure (Instr.lxch fh d a b c mode grp)) : Option Instr) := rfl
theorem arm71 (fh : Hdr) (fd fa fb fc : BitVec 8) (ff : BitVec 12) : rawDecode7 ⟨0x71#8, fh, fd, fa, fb, fc, ff⟩ =
    ((do guard ((fb == 0xC0#8) && (fc == 0xC0#8) && (ff &&& 0xFF8#12 == 0x000#12)); let d ← prOf fd; let a ← prOf fa; let kd ← AgreeK.ofBits (fld 2 ff 0); let neg := (fld 1 ff 2) == 1#1; pure (Instr.agree fh d a kd neg)) : Option Instr) := rfl
theorem arm72 (fh : Hdr) (fd fa fb fc : BitVec 8) (ff : BitVec 12) : rawDecode7 ⟨0x72#8, fh, fd, fa, fb, fc, ff⟩ =
    ((do guard ((fb == 0xC0#8) && (fc == 0xC0#8) && (ff &&& 0xFFC#12 == 0x000#12)); let d ← Opd.ofCode fd; let a ← prOf fa; let cnt := (fld 1 ff 0) == 1#1; let neg := (fld 1 ff 1) == 1#1; pure (Instr.ballot fh d a cnt neg)) : Option Instr) := rfl
theorem arm73 (fh : Hdr) (fd fa fb fc : BitVec 8) (ff : BitVec 12) : rawDecode7 ⟨0x73#8, fh, fd, fa, fb, fc, ff⟩ =
    ((do guard ((fb == 0xC0#8) && (fc == 0xC0#8) && (ff &&& 0xF00#12 == 0x000#12)); let d ← Opd.ofCode fd; let a ← Opd.ofCode fa; let rm ← Rm.ofBits (fld 3 ff 0); let op ← WOp.ofBits (fld 3 ff 3); let ty ← WTy.ofBits (fld 2 ff 6); pure (Instr.wred fh d a rm op ty)) : Option Instr) := rfl
theorem arm74 (fh : Hdr) (fd fa fb fc : BitVec 8) (ff : BitVec 12) : rawDecode7 ⟨0x74#8, fh, fd, fa, fb, fc, ff⟩ =
    ((do guard ((fb == 0xC0#8) && (fc == 0xC0#8) && (ff &&& 0xE00#12 == 0x000#12)); let d ← Opd.ofCode fd; let a ← Opd.ofCode fa; let rm ← Rm.ofBits (fld 3 ff 0); let op ← WOp.ofBits (fld 3 ff 3); let ty ← WTy.ofBits (fld 2 ff 6); let excl := (fld 1 ff 8) == 1#1; pure (Instr.wscan fh d a rm op ty excl)) : Option Instr) := rfl
theorem arm75 (fh : Hdr) (fd fa fb fc : BitVec 8) (ff : BitVec 12) : rawDecode7 ⟨0x75#8, fh, fd, fa, fb, fc, ff⟩ =
    ((do guard ((fc == 0xC0#8) && (ff &&& 0xFFF#12 == 0x000#12)); let d ← Opd.ofCode fd; let a ← Opd.ofCode fa; let b ← Opd.ofCode fb; pure (Instr.rebal fh d a b)) : Option Instr) := rfl
theorem arm76 (fh : Hdr) (fd fa fb fc : BitVec 8) (ff : BitVec 12) : rawDecode7 ⟨0x76#8, fh, fd, fa, fb, fc, ff⟩ =
    ((do guard ((fc == 0xC0#8) && (ff &&& 0xFFF#12 == 0x000#12)); let d ← Opd.ofCode fd; let a ← Opd.ofCode fa; let b ← Opd.ofCode fb; pure (Instr.csamp fh d a b)) : Option Instr) := rfl
theorem arm77 (fh : Hdr) (fd fa fb fc : BitVec 8) (ff : BitVec 12) : rawDecode7 ⟨0x77#8, fh, fd, fa, fb, fc, ff⟩ =
    ((do guard ((fc == 0xC0#8) && (ff &&& 0xFFE#12 == 0x000#12)); let d ← Opd.ofCode fd; let a ← Opd.ofCode fa; let b ← Opd.ofCode fb; let f01 := (fld 1 ff 0) == 1#1; pure (Instr.rand fh d a b f01)) : Option Instr) := rfl
theorem arm80 (fh : Hdr) (fd fa fb fc : BitVec 8) (ff : BitVec 12) : rawDecode8 ⟨0x80#8, fh, fd, fa, fb, fc, ff⟩ =
    ((do guard ((fc &&& 0xF8#8 == 0#8) && (ff &&& 0x01F#12 == 0x000#12)); let d ← Opd.ofCode fd; let a ← Opd.ofCode fa; let b ← Opd.ofCode fb; let ty ← MTy.ofBits (fld 3 fc 0); let pol ← Pol.ofBits (fld 2 ff 10); let sc ← Scope.ofBits (fld 3 ff 7); let od ← Ord.ofBits (fld 2 ff 5); pure (Instr.ld fh d a b ty pol sc od)) : Option Instr) := rfl
theorem arm81 (fh : Hdr) (fd fa fb fc : BitVec 8) (ff : BitVec 12) : rawDecode8 ⟨0x81#8, fh, fd, fa, fb, fc, ff⟩ =
    ((do guard ((ff &&& 0x01F#12 == 0x000#12)); let d ← Opd.ofCode fd; let a ← Opd.ofCode fa; let b ← Opd.ofCode fb; let sf := (fld 5 fc 3); let ty ← MTy.ofBits (fld 3 fc 0); let pol ← Pol.ofBits (fld 2 ff 10); let sc ← Scope.ofBits (fld 3 ff 7); let od ← Ord.ofBits (fld 2 ff 5); pure (Instr.st fh d a b sf ty pol sc od)) : Option Instr) := rfl
theorem arm82 (fh : Hdr) (fd fa fb fc : BitVec 8) (ff : BitVec 12) : rawDecode8 ⟨0x82#8, fh, fd, fa, fb, fc, ff⟩ =
    ((do guard ((fc &&& 0xF8#8 == 0#8) && (ff &&& 0x01F#12 == 0x000#12)); let d ← Opd.ofCode fd; let a ← Opd.ofCode fa; let b ← Opd.ofCode fb; let ty ← MTy.ofBits (fld 3 fc 0); let pol ← Pol.ofBits (fld 2 ff 10); let sc ← Scope.ofBits (fld 3 ff 7); let od ← Ord.ofBits (fld 2 ff 5); pure (Instr.lds fh d a b ty pol sc od)) : Option Instr) := rfl
theorem arm83 (fh : Hdr) (fd fa fb fc : BitVec 8) (ff : BitVec 12) : rawDecode8 ⟨0x83#8, fh, fd, fa, fb, fc, ff⟩ =
    ((do guard ((ff &&& 0x01F#12 == 0x000#12)); let d ← Opd.ofCode fd; let a ← Opd.ofCode fa; let b ← Opd.ofCode fb; let sf := (fld 5 fc 3); let ty ← MTy.ofBits (fld 3 fc 0); let pol ← Pol.ofBits (fld 2 ff 10); let sc ← Scope.ofBits (fld 3 ff 7); let od ← Ord.ofBits (fld 2 ff 5); pure (Instr.sts fh d a b sf ty pol sc od)) : Option Instr) := rfl
theorem arm84 (fh : Hdr) (fd fa fb fc : BitVec 8) (ff : BitVec 12) : rawDecode8 ⟨0x84#8, fh, fd, fa, fb, fc, ff⟩ =
    ((do guard ((fc &&& 0xF8#8 == 0#8) && (ff &&& 0x01F#12 == 0x000#12)); let d ← Opd.ofCode fd; let a ← Opd.ofCode fa; let b ← Opd.ofCode fb; let ty ← MTy.ofBits (fld 3 fc 0); let pol ← Pol.ofBits (fld 2 ff 10); let sc ← Scope.ofBits (fld 3 ff 7); let od ← Ord.ofBits (fld 2 ff 5); pure (Instr.ldw fh d a b ty pol sc od)) : Option Instr) := rfl
theorem arm85 (fh : Hdr) (fd fa fb fc : BitVec 8) (ff : BitVec 12) : rawDecode8 ⟨0x85#8, fh, fd, fa, fb, fc, ff⟩ =
    ((do guard ((fc &&& 0xF8#8 == 0#8) && (ff &&& 0x01F#12 == 0x000#12)); let d ← Opd.ofCode fd; let a ← Opd.ofCode fa; let b ← Opd.ofCode fb; let ty ← MTy.ofBits (fld 3 fc 0); let pol ← Pol.ofBits (fld 2 ff 10); let sc ← Scope.ofBits (fld 3 ff 7); let od ← Ord.ofBits (fld 2 ff 5); pure (Instr.stw fh d a b ty pol sc od)) : Option Instr) := rfl
theorem arm86 (fh : Hdr) (fd fa fb fc : BitVec 8) (ff : BitVec 12) : rawDecode8 ⟨0x86#8, fh, fd, fa, fb, fc, ff⟩ =
    ((do guard ((fc &&& 0xF8#8 == 0#8) && (ff &&& 0x01F#12 == 0x000#12)); let d ← Opd.ofCode fd; let a ← Opd.ofCode fa; let b ← Opd.ofCode fb; let ty ← MTy.ofBits (fld 3 fc 0); let pol ← Pol.ofBits (fld 2 ff 10); let sc ← Scope.ofBits (fld 3 ff 7); let od ← Ord.ofBits (fld 2 ff 5); pure (Instr.ldn fh d a b ty pol sc od)) : Option Instr) := rfl
theorem arm87 (fh : Hdr) (fd fa fb fc : BitVec 8) (ff : BitVec 12) : rawDecode8 ⟨0x87#8, fh, fd, fa, fb, fc, ff⟩ =
    ((do let d ← Opd.ofCode fd; let a ← Opd.ofCode fa; let b ← Opd.ofCode fb; let c ← Opd.ofCode fc; let f := (fld 5 ff 0); let mode ← QMode.ofBits (fld 2 ff 5); let ev ← evOfBits (fld 5 ff 7); pure (Instr.qst fh d a b c f mode ev)) : Option Instr) := rfl
theorem arm88 (fh : Hdr) (fd fa fb fc : BitVec 8) (ff : BitVec 12) : rawDecode8 ⟨0x88#8, fh, fd, fa, fb, fc, ff⟩ =
    ((do guard ((fc == 0x00#8) && (fd == 0xC0#8) && (ff &&& 0x3FF#12 == 0x000#12)); let a ← Opd.ofCode fa; let b ← Opd.ofCode fb; let pol ← Pol.ofBits (fld 2 ff 10); pure (Instr.pref fh a b pol)) : Option Instr) := rfl
theorem arm89 (fh : Hdr) (fd fa fb fc : BitVec 8) (ff : BitVec 12) : rawDecode8 ⟨0x89#8, fh, fd, fa, fb, fc, ff⟩ =
    ((do guard ((fc == 0xC0#8) && (ff &&& 0x07F#12 == 0x000#12)); let d ← Opd.ofCode fd; let a ← Opd.ofCode fa; let b ← Opd.ofCode fb; let ev ← evOfBits (fld 5 ff 7); pure (Instr.shbind fh d a b ev)) : Option Instr) := rfl
theorem arm8A (fh : Hdr) (fd fa fb fc : BitVec 8) (ff : BitVec 12) : rawDecode8 ⟨0x8A#8, fh, fd, fa, fb, fc, ff⟩ =
    ((do guard ((fb == 0xC0#8) && (fc == 0xC0#8) && (ff &&& 0x07F#12 == 0x000#12)); let d ← Opd.ofCode fd; let a ← Opd.ofCode fa; let ev ← evOfBits (fld 5 ff 7); pure (Instr.shfree fh d a ev)) : Option Instr) := rfl
theorem arm8B (fh : Hdr) (fd fa fb fc : BitVec 8) (ff : BitVec 12) : rawDecode8 ⟨0x8B#8, fh, fd, fa, fb, fc, ff⟩ =
    ((do guard ((fd == 0xC0#8) && (fb == 0xC0#8) && (fc == 0xC0#8) && (ff &&& 0x07F#12 == 0x000#12)); let a ← Opd.ofCode fa; let ev ← evOfBits (fld 5 ff 7); pure (Instr.cpy fh a ev)) : Option Instr) := rfl
theorem arm8C (fh : Hdr) (fd fa fb fc : BitVec 8) (ff : BitVec 12) : rawDecode8 ⟨0x8C#8, fh, fd, fa, fb, fc, ff⟩ =
    ((do guard ((fa == 0xC0#8) && (fb == 0xC0#8) && (fc == 0xC0#8) && (ff &&& 0x07F#12 == 0x000#12)); let d ← Opd.ofCode fd; let ev ← evOfBits (fld 5 ff 7); pure (Instr.aqstart fh d ev)) : Option Instr) := rfl
theorem arm8D (fh : Hdr) (fd fa fb fc : BitVec 8) (ff : BitVec 12) : rawDecode8 ⟨0x8D#8, fh, fd, fa, fb, fc, ff⟩ =
    ((do guard ((fa == 0xC0#8) && (fb == 0xC0#8) && (fc == 0xC0#8) && (ff &&& 0x07F#12 == 0x000#12)); let d ← Opd.ofCode fd; let ev ← evOfBits (fld 5 ff 7); pure (Instr.aqstop fh d ev)) <|> (do guard ((fb == 0xC0#8) && (fc == 0xC0#8) && (ff &&& 0x07F#12 == 0x001#12)); let d ← Opd.ofCode fd; let a ← Opd.ofCode fa; let ev ← evOfBits (fld 5 ff 7); pure (Instr.aqstopQry fh d a ev)) : Option Instr) := rfl
theorem arm8E (fh : Hdr) (fd fa fb fc : BitVec 8) (ff : BitVec 12) : rawDecode8 ⟨0x8E#8, fh, fd, fa, fb, fc, ff⟩ =
    ((do guard ((fc &&& 0xF8#8 == 0#8) && (ff &&& 0xFFF#12 == 0x000#12)); let d ← Opd.ofCode fd; let a ← Opd.ofCode fa; let b ← Opd.ofCode fb; let ty ← MTy.ofBits (fld 3 fc 0); pure (Instr.ldc fh d a b ty)) : Option Instr) := rfl
theorem armA0 (fh : Hdr) (fd fa fb fc : BitVec 8) (ff : BitVec 12) : rawDecodeA ⟨0xA0#8, fh, fd, fa, fb, fc, ff⟩ =
    ((do guard ((ff &&& 0xC1F#12 == 0x000#12)); let d ← Opd.ofCode fd; let a ← Opd.ofCode fa; let b ← Opd.ofCode fb; let op ← AtomOp.ofBits (fld 5 fc 3); let ty ← MTy.ofBits (fld 3 fc 0); let sc ← Scope.ofBits (fld 3 ff 7); let od ← Ord.ofBits (fld 2 ff 5); pure (Instr.atom fh d a b op ty sc od)) : Option Instr) := rfl
theorem armA1 (fh : Hdr) (fd fa fb fc : BitVec 8) (ff : BitVec 12) : rawDecodeA ⟨0xA1#8, fh, fd, fa, fb, fc, ff⟩ =
    ((do guard ((fc &&& 0xF8#8 == 0#8) && (ff &&& 0xC1F#12 == 0x000#12)); let d ← Opd.ofCode fd; let a ← Opd.ofCode fa; let b ← Opd.ofCode fb; let ty ← MTy.ofBits (fld 3 fc 0); let sc ← Scope.ofBits (fld 3 ff 7); let od ← Ord.ofBits (fld 2 ff 5); pure (Instr.acas fh d a b ty sc od)) : Option Instr) := rfl
theorem armA2 (fh : Hdr) (fd fa fb fc : BitVec 8) (ff : BitVec 12) : rawDecodeA ⟨0xA2#8, fh, fd, fa, fb, fc, ff⟩ =
    ((do guard ((fd == 0xC0#8) && (ff &&& 0xC1F#12 == 0x000#12)); let a ← Opd.ofCode fa; let b ← Opd.ofCode fb; let op ← AtomOp.ofBits (fld 5 fc 3); let ty ← MTy.ofBits (fld 3 fc 0); let sc ← Scope.ofBits (fld 3 ff 7); let od ← Ord.ofBits (fld 2 ff 5); pure (Instr.red fh a b op ty sc od)) : Option Instr) := rfl
theorem armA3 (fh : Hdr) (fd fa fb fc : BitVec 8) (ff : BitVec 12) : rawDecodeA ⟨0xA3#8, fh, fd, fa, fb, fc, ff⟩ =
    ((do guard ((fc == 0x00#8) && (fd == 0xC0#8) && (fa == 0xC0#8) && (fb == 0xC0#8) && (ff &&& 0xC1F#12 == 0x000#12)); let sc ← Scope.ofBits (fld 3 ff 7); let od ← Ord.ofBits (fld 2 ff 5); pure (Instr.fence fh sc od)) : Option Instr) := rfl
theorem armA4 (fh : Hdr) (fd fa fb fc : BitVec 8) (ff : BitVec 12) : rawDecodeA ⟨0xA4#8, fh, fd, fa, fb, fc, ff⟩ =
    ((do guard ((fd == 0xC0#8) && (fb == 0xC0#8) && (fc == 0xC0#8) && (ff &&& 0xFFF#12 == 0x000#12)); let a ← Opd.ofCode fa; pure (Instr.bar fh a)) : Option Instr) := rfl
theorem armA5 (fh : Hdr) (fd fa fb fc : BitVec 8) (ff : BitVec 12) : rawDecodeA ⟨0xA5#8, fh, fd, fa, fb, fc, ff⟩ =
    ((do guard ((fd == 0xC0#8) && (fb == 0xC0#8) && (fc == 0xC0#8) && (ff &&& 0xFFF#12 == 0x000#12)); let a ← Opd.ofCode fa; pure (Instr.nbar fh a)) : Option Instr) := rfl
theorem armA6 (fh : Hdr) (fd fa fb fc : BitVec 8) (ff : BitVec 12) : rawDecodeA ⟨0xA6#8, fh, fd, fa, fb, fc, ff⟩ =
    ((do guard ((fc == 0xC0#8) && (ff &&& 0xFFF#12 == 0x000#12)); let d ← Opd.ofCode fd; let a ← Opd.ofCode fa; let b ← Opd.ofCode fb; pure (Instr.slin fh d a b)) : Option Instr) := rfl
theorem armA7 (fh : Hdr) (fd fa fb fc : BitVec 8) (ff : BitVec 12) : rawDecodeA ⟨0xA7#8, fh, fd, fa, fb, fc, ff⟩ =
    ((do guard ((fb == 0xC0#8) && (fc == 0xC0#8) && (ff &&& 0xFFF#12 == 0x000#12)); let d ← Opd.ofCode fd; let a ← Opd.ofCode fa; pure (Instr.slout fh d a)) <|> (do guard ((fb == 0xC0#8) && (fc == 0xC0#8) && (ff &&& 0xFFF#12 == 0x001#12)); let d ← Opd.ofCode fd; let a ← Opd.ofCode fa; pure (Instr.sloutLast fh d a)) : Option Instr) := rfl
theorem armA8 (fh : Hdr) (fd fa fb fc : BitVec 8) (ff : BitVec 12) : rawDecodeA ⟨0xA8#8, fh, fd, fa, fb, fc, ff⟩ =
    ((do guard ((fb == 0xC0#8) && (fc == 0xC0#8) && (ff &&& 0xFFF#12 == 0x000#12)); let d ← Opd.ofCode fd; let a ← Opd.ofCode fa; pure (Instr.slqry fh d a)) : Option Instr) := rfl
theorem armA9 (fh : Hdr) (fd fa fb fc : BitVec 8) (ff : BitVec 12) : rawDecodeA ⟨0xA9#8, fh, fd, fa, fb, fc, ff⟩ =
    ((do guard ((fc == 0xC0#8) && (ff &&& 0xFFF#12 == 0x000#12)); let d ← Opd.ofCode fd; let a ← Opd.ofCode fa; let b ← Opd.ofCode fb; pure (Instr.slrst fh d a b)) <|> (do guard ((fb == 0xC0#8) && (fc == 0xC0#8) && (ff &&& 0xFFF#12 == 0x001#12)); let d ← Opd.ofCode fd; let a ← Opd.ofCode fa; pure (Instr.slrstDel fh d a)) : Option Instr) := rfl
theorem armAA (fh : Hdr) (fd fa fb fc : BitVec 8) (ff : BitVec 12) : rawDecodeA ⟨0xAA#8, fh, fd, fa, fb, fc, ff⟩ =
    ((do guard ((fb == 0xC0#8) && (fc == 0xC0#8) && (ff &&& 0xFF0#12 == 0x000#12)); let d ← Opd.ofCode fd; let a ← Opd.ofCode fa; let n := (fld 4 ff 0); pure (Instr.send fh d a n)) : Option Instr) := rfl
theorem armAB (fh : Hdr) (fd fa fb fc : BitVec 8) (ff : BitVec 12) : rawDecodeA ⟨0xAB#8, fh, fd, fa, fb, fc, ff⟩ =
    ((do guard ((fb == 0xC0#8) && (fc == 0xC0#8) && (ff &&& 0xFF0#12 == 0x000#12)); let d ← Opd.ofCode fd; let a ← Opd.ofCode fa; let n := (fld 4 ff 0); pure (Instr.recv fh d a n)) : Option Instr) := rfl
theorem armB0 (fh : Hdr) (fd fa fb fc : BitVec 8) (ff : BitVec 12) : rawDecodeB ⟨0xB0#8, fh, fd, fa, fb, fc, ff⟩ =
    ((do guard ((fd == 0xC0#8) && (fc == 0xC0#8) && (ff &&& 0x040#12 == 0x000#12)); let a ← Opd.ofCode fa; let b ← Opd.ofCode fb; let f := (fld 5 ff 0); let scr := (fld 1 ff 5) == 1#1; let ev ← evOfBits (fld 5 ff 7); pure (Instr.mloadb fh a b f scr ev)) : Option Instr) := rfl
theorem armB1 (fh : Hdr) (fd fa fb fc : BitVec 8) (ff : BitVec 12) : rawDecodeB ⟨0xB1#8, fh, fd, fa, fb, fc, ff⟩ =
    ((do guard ((fd == 0xC0#8) && (fc == 0xC0#8) && (ff &&& 0x060#12 == 0x000#12)); let a ← Opd.ofCode fa; let b ← Opd.ofCode fb; let nkm := (fld 4 ff 0); let bank := (fld 1 ff 4) == 1#1; let ev ← evOfBits (fld 5 ff 7); pure (Instr.mma fh a b nkm bank ev)) : Option Instr) := rfl
theorem armB2 (fh : Hdr) (fd fa fb fc : BitVec 8) (ff : BitVec 12) : rawDecodeB ⟨0xB2#8, fh, fd, fa, fb, fc, ff⟩ =
    ((do guard ((fa == 0xC0#8) && (fb == 0xC0#8) && (fc == 0xC0#8) && (ff &&& 0x078#12 == 0x000#12)); let d ← Opd.ofCode fd; let g := (fld 2 ff 0); let bank := (fld 1 ff 2) == 1#1; let ev ← evOfBits (fld 5 ff 7); pure (Instr.mres fh d g bank ev)) : Option Instr) := rfl
theorem armB3 (fh : Hdr) (fd fa fb fc : BitVec 8) (ff : BitVec 12) : rawDecodeB ⟨0xB3#8, fh, fd, fa, fb, fc, ff⟩ =
    ((do guard ((fd == 0xC0#8) && (fa == 0xC0#8) && (fb == 0xC0#8) && (fc == 0xC0#8) && (ff &&& 0xFF8#12 == 0x000#12)); let sc ← Scope.ofBits (fld 3 ff 0); pure (Instr.mfence fh sc)) : Option Instr) := rfl
theorem armB4 (fh : Hdr) (fd fa fb fc : BitVec 8) (ff : BitVec 12) : rawDecodeB ⟨0xB4#8, fh, fd, fa, fb, fc, ff⟩ =
    ((do guard ((fd == 0xC0#8) && (fa == 0xC0#8) && (fb == 0xC0#8) && (fc == 0xC0#8) && (ff &&& 0xFFF#12 == 0x000#12)); pure (Instr.mwait fh)) : Option Instr) := rfl
theorem armB5 (fh : Hdr) (fd fa fb fc : BitVec 8) (ff : BitVec 12) : rawDecodeB ⟨0xB5#8, fh, fd, fa, fb, fc, ff⟩ =
    ((do guard ((fd == 0xC0#8) && (ff &&& 0x070#12 == 0x000#12)); let a ← Opd.ofCode fa; let b ← Opd.ofCode fb; let c ← Opd.ofCode fc; let p ← HadP.ofBits (fld 2 ff 0); let ty ← HadTy.ofBits (fld 2 ff 2); let ev ← evOfBits (fld 5 ff 7); pure (Instr.had fh a b c p ty ev)) : Option Instr) := rfl
theorem armB6 (fh : Hdr) (fd fa fb fc : BitVec 8) (ff : BitVec 12) : rawDecodeB ⟨0xB6#8, fh, fd, fa, fb, fc, ff⟩ =
    ((do guard ((fc == 0xC0#8) && (ff &&& 0x07C#12 == 0x000#12)); let d ← Opd.ofCode fd; let a ← Opd.ofCode fa; let b ← Opd.ofCode fb; let n ← WDim.ofBits (fld 2 ff 0); let ev ← evOfBits (fld 5 ff 7); pure (Instr.twalk fh d a b n ev)) : Option Instr) := rfl
theorem armB7 (fh : Hdr) (fd fa fb fc : BitVec 8) (ff : BitVec 12) : rawDecodeB ⟨0xB7#8, fh, fd, fa, fb, fc, ff⟩ =
    ((do guard ((fa == 0xC0#8) && (fb == 0xC0#8) && (fc == 0xC0#8) && (ff &&& 0x07F#12 == 0x000#12)); let d ← Opd.ofCode fd; let ev ← evOfBits (fld 5 ff 7); pure (Instr.tnext fh d ev)) : Option Instr) := rfl
theorem armB8 (fh : Hdr) (fd fa fb fc : BitVec 8) (ff : BitVec 12) : rawDecodeB ⟨0xB8#8, fh, fd, fa, fb, fc, ff⟩ =
    ((do guard ((fd == 0xC0#8) && (fa == 0xC0#8) && (fb == 0xC0#8) && (fc == 0xC0#8) && (ff &&& 0xFFC#12 == 0x000#12)); let bank := (fld 1 ff 0) == 1#1; let bd := (fld 1 ff 1) == 1#1; pure (Instr.mzero fh bank bd)) : Option Instr) := rfl
theorem armC0 (fh : Hdr) (fd fa fb fc : BitVec 8) (ff : BitVec 12) : rawDecodeC ⟨0xC0#8, fh, fd, fa, fb, fc, ff⟩ =
    ((do guard ((fb == 0xC0#8) && (fc == 0xC0#8) && (ff &&& 0x07F#12 == 0x000#12)); let d ← Opd.ofCode fd; let a ← Opd.ofCode fa; let ev ← evOfBits (fld 5 ff 7); pure (Instr.beam fh d a ev)) : Option Instr) := rfl
theorem armC1 (fh : Hdr) (fd fa fb fc : BitVec 8) (ff : BitVec 12) : rawDecodeC ⟨0xC1#8, fh, fd, fa, fb, fc, ff⟩ =
    ((do guard ((fb == 0xC0#8) && (fc == 0xC0#8) && (ff &&& 0x07F#12 == 0x000#12)); let d ← Opd.ofCode fd; let a ← Opd.ofCode fa; let ev ← evOfBits (fld 5 ff 7); pure (Instr.bfrag fh d a ev)) : Option Instr) := rfl
theorem armC2 (fh : Hdr) (fd fa fb fc : BitVec 8) (ff : BitVec 12) : rawDecodeC ⟨0xC2#8, fh, fd, fa, fb, fc, ff⟩ =
    ((do guard ((fd == 0xC0#8) && (fb == 0xC0#8) && (fc == 0xC0#8) && (ff &&& 0xFFF#12 == 0x000#12)); let a ← Opd.ofCode fa; pure (Instr.bdone fh a)) : Option Instr) := rfl
theorem armC3 (fh : Hdr) (fd fa fb fc : BitVec 8) (ff : BitVec 12) : rawDecodeC ⟨0xC3#8, fh, fd, fa, fb, fc, ff⟩ =
    ((do guard ((fc == 0xC0#8) && (ff &&& 0x07C#12 == 0x000#12)); let d ← Opd.ofCode fd; let a ← Opd.ofCode fa; let b ← Opd.ofCode fb; let first := (fld 1 ff 0) == 1#1; let sh := (fld 1 ff 1) == 1#1; let ev ← evOfBits (fld 5 ff 7); pure (Instr.rays fh d a b first sh ev)) : Option Instr) := rfl
theorem armC4 (fh : Hdr) (fd fa fb fc : BitVec 8) (ff : BitVec 12) : rawDecodeC ⟨0xC4#8, fh, fd, fa, fb, fc, ff⟩ =
    ((do guard ((fb == 0xC0#8) && (fc == 0xC0#8) && (ff &&& 0x07F#12 == 0x000#12)); let d ← Opd.ofCode fd; let a ← Opd.ofCode fa; let ev ← evOfBits (fld 5 ff 7); pure (Instr.hitget fh d a ev)) <|> (do guard ((fb == 0xC0#8) && (fc == 0xC0#8) && (ff &&& 0x07F#12 == 0x001#12)); let d ← Opd.ofCode fd; let a ← Opd.ofCode fa; let ev ← evOfBits (fld 5 ff 7); pure (Instr.hitgetCand fh d a ev)) : Option Instr) := rfl
theorem armC5 (fh : Hdr) (fd fa fb fc : BitVec 8) (ff : BitVec 12) : rawDecodeC ⟨0xC5#8, fh, fd, fa, fb, fc, ff⟩ =
    ((do guard ((fd == 0xC0#8) && (ff &&& 0xFFF#12 == 0x000#12)); let a ← Opd.ofCode fa; let b ← Opd.ofCode fb; let c ← Opd.ofCode fc; pure (Instr.hitacc fh a b c)) : Option Instr) := rfl
theorem armC6 (fh : Hdr) (fd fa fb fc : BitVec 8) (ff : BitVec 12) : rawDecodeC ⟨0xC6#8, fh, fd, fa, fb, fc, ff⟩ =
    ((do guard ((ff &&& 0x07E#12 == 0x000#12)); let d ← Opd.ofCode fd; let a ← Opd.ofCode fa; let b ← Opd.ofCode fb; let c ← Opd.ofCode fc; let nr := (fld 1 ff 0) == 1#1; let ev ← evOfBits (fld 5 ff 7); pure (Instr.tex fh d a b c nr ev)) : Option Instr) := rfl
theorem armC7 (fh : Hdr) (fd fa fb fc : BitVec 8) (ff : BitVec 12) : rawDecodeC ⟨0xC7#8, fh, fd, fa, fb, fc, ff⟩ =
    ((do guard ((ff &&& 0x07F#12 == 0x000#12)); let d ← Opd.ofCode fd; let a ← Opd.ofCode fa; let b ← Opd.ofCode fb; let c ← Opd.ofCode fc; let ev ← evOfBits (fld 5 ff 7); pure (Instr.texq fh d a b c ev)) : Option Instr) := rfl
theorem armC8 (fh : Hdr) (fd fa fb fc : BitVec 8) (ff : BitVec 12) : rawDecodeC ⟨0xC8#8, fh, fd, fa, fb, fc, ff⟩ =
    ((do guard ((fb == 0xC0#8) && (fc == 0xC0#8) && (ff &&& 0x07F#12 == 0x000#12)); let d ← Opd.ofCode fd; let a ← Opd.ofCode fa; let ev ← evOfBits (fld 5 ff 7); pure (Instr.bvhset fh d a ev)) : Option Instr) := rfl
theorem armD0 (fh : Hdr) (fd fa fb fc : BitVec 8) (ff : BitVec 12) : rawDecodeD ⟨0xD0#8, fh, fd, fa, fb, fc, ff⟩ =
    ((do guard ((fb == 0xC0#8) && (fc == 0xC0#8) && (ff &&& 0xFFF#12 == 0x000#12)); let d ← Opd.ofCode fd; let a ← Opd.ofCode fa; pure (Instr.launch fh d a)) : Option Instr) := rfl
theorem armD1 (fh : Hdr) (fd fa fb fc : BitVec 8) (ff : BitVec 12) : rawDecodeD ⟨0xD1#8, fh, fd, fa, fb, fc, ff⟩ =
    ((do guard ((fa == 0xC0#8) && (fb == 0xC0#8) && (fc == 0xC0#8) && (ff &&& 0xFFF#12 == 0x000#12)); let d ← Opd.ofCode fd; pure (Instr.wchild fh d)) : Option Instr) := rfl
theorem armD2 (fh : Hdr) (fd fa fb fc : BitVec 8) (ff : BitVec 12) : rawDecodeD ⟨0xD2#8, fh, fd, fa, fb, fc, ff⟩ =
    ((do guard ((fb == 0xC0#8) && (fc == 0xC0#8) && (ff &&& 0xFFF#12 == 0x000#12)); let d ← Opd.ofCode fd; let a ← Opd.ofCode fa; pure (Instr.gsig fh d a)) : Option Instr) := rfl
theorem armD3 (fh : Hdr) (fd fa fb fc : BitVec 8) (ff : BitVec 12) : rawDecodeD ⟨0xD3#8, fh, fd, fa, fb, fc, ff⟩ =
    ((do guard ((fa == 0xC0#8) && (fb == 0xC0#8) && (fc == 0xC0#8) && (ff &&& 0xFFF#12 == 0x000#12)); let d ← Opd.ofCode fd; pure (Instr.enrd fh d)) <|> (do guard ((fa == 0xC0#8) && (fb == 0xC0#8) && (fc == 0xC0#8) && (ff &&& 0xFFF#12 == 0x001#12)); let d ← Opd.ofCode fd; pure (Instr.enrdBal fh d)) : Option Instr) := rfl
theorem armD4 (fh : Hdr) (fd fa fb fc : BitVec 8) (ff : BitVec 12) : rawDecodeD ⟨0xD4#8, fh, fd, fa, fb, fc, ff⟩ =
    ((do guard ((fb == 0xC0#8) && (fc == 0xC0#8) && (ff &&& 0xFFF#12 == 0x000#12)); let d ← Opd.ofCode fd; let a ← Opd.ofCode fa; pure (Instr.role fh d a)) <|> (do guard ((fb == 0xC0#8) && (fc == 0xC0#8) && (ff &&& 0xFFF#12 == 0x001#12)); let d ← Opd.ofCode fd; let a ← Opd.ofCode fa; pure (Instr.roleId fh d a)) <|> (do guard ((fb == 0xC0#8) && (fc == 0xC0#8) && (ff &&& 0xFFF#12 == 0x002#12)); let d ← Opd.ofCode fd; let a ← Opd.ofCode fa; pure (Instr.rolePos fh d a)) <|> (do guard ((fa == 0xC0#8) && (fb == 0xC0#8) && (fc == 0xC0#8) && (ff &&& 0xFFF#12 == 0x003#12)); let d ← Opd.ofCode fd; pure (Instr.roleCnt fh d)) : Option Instr) := rfl
theorem armE0 (fh : Hdr) (fd fa fb fc : BitVec 8) (ff : BitVec 12) : rawDecodeE ⟨0xE0#8, fh, fd, fa, fb, fc, ff⟩ =
    ((do guard ((fd == 0xC0#8) && ((Fields.mk 0xE0#8 fh fd fa fb fc ff).fn4 == 0#4)); let imm := (Fields.mk 0xE0#8 fh fd fa fb fc ff).imm; pure (Instr.trap fh imm)) : Option Instr) := rfl
theorem armE1 (fh : Hdr) (fd fa fb fc : BitVec 8) (ff : BitVec 12) : rawDecodeE ⟨0xE1#8, fh, fd, fa, fb, fc, ff⟩ =
    ((do guard ((fd == 0xC0#8) && (fa == 0xC0#8) && (fb == 0xC0#8) && (fc == 0xC0#8) && (ff &&& 0xFFF#12 == 0x000#12)); pure (Instr.rte fh)) : Option Instr) := rfl
theorem armE2 (fh : Hdr) (fd fa fb fc : BitVec 8) (ff : BitVec 12) : rawDecodeE ⟨0xE2#8, fh, fd, fa, fb, fc, ff⟩ =
    ((do guard (((Fields.mk 0xE2#8 fh fd fa fb fc ff).fn4 == 0#4) && (fld 20 (Fields.mk 0xE2#8 fh fd fa fb fc ff).imm 12 == 0#20)); let d ← Opd.ofCode fd; let reg := fld 12 (Fields.mk 0xE2#8 fh fd fa fb fc ff).imm 0; pure (Instr.csrr fh d reg)) : Option Instr) := rfl
theorem armE3 (fh : Hdr) (fd fa fb fc : BitVec 8) (ff : BitVec 12) : rawDecodeE ⟨0xE3#8, fh, fd, fa, fb, fc, ff⟩ =
    ((do guard (((Fields.mk 0xE3#8 fh fd fa fb fc ff).fn4 == 0#4) && (fld 20 (Fields.mk 0xE3#8 fh fd fa fb fc ff).imm 12 == 0#20)); let d ← Opd.ofCode fd; let reg := fld 12 (Fields.mk 0xE3#8 fh fd fa fb fc ff).imm 0; pure (Instr.csrw fh d reg)) <|> (do guard (((Fields.mk 0xE3#8 fh fd fa fb fc ff).fn4 == 1#4) && (fld 20 (Fields.mk 0xE3#8 fh fd fa fb fc ff).imm 12 == 0#20)); let d ← Opd.ofCode fd; let reg := fld 12 (Fields.mk 0xE3#8 fh fd fa fb fc ff).imm 0; pure (Instr.csrwSet fh d reg)) <|> (do guard (((Fields.mk 0xE3#8 fh fd fa fb fc ff).fn4 == 2#4) && (fld 20 (Fields.mk 0xE3#8 fh fd fa fb fc ff).imm 12 == 0#20)); let d ← Opd.ofCode fd; let reg := fld 12 (Fields.mk 0xE3#8 fh fd fa fb fc ff).imm 0; pure (Instr.csrwClr fh d reg)) : Option Instr) := rfl
theorem armE4 (fh : Hdr) (fd fa fb fc : BitVec 8) (ff : BitVec 12) : rawDecodeE ⟨0xE4#8, fh, fd, fa, fb, fc, ff⟩ =
    ((do guard ((fb == 0xC0#8) && (fc == 0xC0#8) && (ff &&& 0x07F#12 == 0x000#12)); let d ← Opd.ofCode fd; let a ← Opd.ofCode fa; let ev ← evOfBits (fld 5 ff 7); pure (Instr.rinv fh d a ev)) <|> (do guard ((ff &&& 0x07F#12 == 0x001#12)); let d ← Opd.ofCode fd; let a ← Opd.ofCode fa; let b ← Opd.ofCode fb; let c ← Opd.ofCode fc; let ev ← evOfBits (fld 5 ff 7); pure (Instr.rinvRange fh d a b c ev)) : Option Instr) := rfl
theorem armE5 (fh : Hdr) (fd fa fb fc : BitVec 8) (ff : BitVec 12) : rawDecodeE ⟨0xE5#8, fh, fd, fa, fb, fc, ff⟩ =
    ((do guard ((fb == 0xC0#8) && (fc == 0xC0#8) && (ff &&& 0x07F#12 == 0x000#12)); let d ← Opd.ofCode fd; let a ← Opd.ofCode fa; let ev ← evOfBits (fld 5 ff 7); pure (Instr.qctlQ fh d a ev)) <|> (do guard ((fb == 0xC0#8) && (fc == 0xC0#8) && (ff &&& 0x07F#12 == 0x001#12)); let d ← Opd.ofCode fd; let a ← Opd.ofCode fa; let ev ← evOfBits (fld 5 ff 7); pure (Instr.qctlR fh d a ev)) <|> (do guard ((fb == 0xC0#8) && (fc == 0xC0#8) && (ff &&& 0x07F#12 == 0x002#12)); let d ← Opd.ofCode fd; let a ← Opd.ofCode fa; let ev ← evOfBits (fld 5 ff 7); pure (Instr.qctlQry fh d a ev)) : Option Instr) := rfl

end Sys2Proof
end

