-- ==== Sys2Proof/Laws/Regs.lean ====
section
/-! SUPPORT. Sys2Proof/Laws/Regs.lean: reading a register after registers were written, and what each form of a destination
writes (R63, R66, R67, R169). -/
namespace Sys2Proof.Machine

/-! ### One write -/

theorem vkey_inj {n l m k : Nat} (hl : l < 32) (hk : k < 32) (h : 32 * n + l = 32 * m + k) : n = m ∧ l = k := by omega

@[simp] theorem Wave.put_s_vr (wv : Wave) (n : Nat) (x : DWord) (m k : Nat) : (wv.put (.s n x)).vr m k = wv.vr m k := rfl
@[simp] theorem Wave.put_lc_vr (wv : Wave) (n : Nat) (x : Word) (m k : Nat) : (wv.put (.lc n x)).vr m k = wv.vr m k := rfl
@[simp] theorem Wave.put_p_vr (wv : Wave) (n l : Nat) (x : Bool) (m k : Nat) : (wv.put (.p n l x)).vr m k = wv.vr m k := by
  simp only [put]; split <;> rfl
theorem Wave.put_v_vr (wv : Wave) (n l : Nat) (x : Word) (m k : Nat) (hl : l < 32) (hk : k < 32) :
    (wv.put (.v n l x)).vr m k = if n = m ∧ l = k then x else wv.vr m k := by
  simp only [put, vr, sget_sset]
  by_cases h : n = m ∧ l = k
  · rw [if_pos h, if_pos (by omega)]
  · rw [if_neg h, if_neg (fun e => h (vkey_inj hl hk e))]

@[simp] theorem Wave.put_v_sr (wv : Wave) (n l : Nat) (x : Word) (m : Nat) : (wv.put (.v n l x)).sr m = wv.sr m := rfl
@[simp] theorem Wave.put_lc_sr (wv : Wave) (n : Nat) (x : Word) (m : Nat) : (wv.put (.lc n x)).sr m = wv.sr m := rfl
@[simp] theorem Wave.put_p_sr (wv : Wave) (n l : Nat) (x : Bool) (m : Nat) : (wv.put (.p n l x)).sr m = wv.sr m := by
  simp only [put]; split <;> rfl
@[simp] theorem Wave.put_s_sr (wv : Wave) (n : Nat) (x : DWord) (m : Nat) :
    (wv.put (.s n x)).sr m = if n = m then x else wv.sr m := sget_sset ..

@[simp] theorem Wave.put_v_lcr (wv : Wave) (n l : Nat) (x : Word) (m : Nat) : (wv.put (.v n l x)).lcr m = wv.lcr m := rfl
@[simp] theorem Wave.put_s_lcr (wv : Wave) (n : Nat) (x : DWord) (m : Nat) : (wv.put (.s n x)).lcr m = wv.lcr m := rfl
@[simp] theorem Wave.put_p_lcr (wv : Wave) (n l : Nat) (x : Bool) (m : Nat) : (wv.put (.p n l x)).lcr m = wv.lcr m := by
  simp only [put]; split <;> rfl
@[simp] theorem Wave.put_lc_lcr (wv : Wave) (n : Nat) (x : Word) (m : Nat) :
    (wv.put (.lc n x)).lcr m = if n = m then x else wv.lcr m := sget_sset ..

@[simp] theorem Wave.put_v_pr (wv : Wave) (n l : Nat) (x : Word) (m : Nat) : (wv.put (.v n l x)).pr m = wv.pr m := rfl
@[simp] theorem Wave.put_s_pr (wv : Wave) (n : Nat) (x : DWord) (m : Nat) : (wv.put (.s n x)).pr m = wv.pr m := rfl
@[simp] theorem Wave.put_lc_pr (wv : Wave) (n : Nat) (x : Word) (m : Nat) : (wv.put (.lc n x)).pr m = wv.pr m := rfl
/-- p127 reads true whatever is written (R63). -/
@[simp] theorem Wave.pr_127 (wv : Wave) : wv.pr 127 = 0xFFFFFFFF := rfl

theorem getLsbD_one_shift (l k : Nat) (hk : k < 32) : (1#32 <<< l).getLsbD k = decide (l = k) := by
  rw [BitVec.getLsbD_shiftLeft, BitVec.getLsbD_one]
  by_cases h : l = k
  · subst h; simp [hk]
  · simp only [hk, decide_true, Bool.true_and, h, decide_false, Bool.and_eq_false_imp]
    intro h1
    simp only [Bool.not_eq_eq_eq_not, Bool.not_true, decide_eq_false_iff_not] at h1
    have : ¬ (k - l = 0) := by omega
    simp [this]

theorem Wave.put_p_pr (wv : Wave) (n l : Nat) (x : Bool) (m k : Nat) (hn : n ≠ 127) (hk : k < 32) :
    ((wv.put (.p n l x)).pr m).getLsbD k = if n = m ∧ l = k then x else (wv.pr m).getLsbD k := by
  by_cases hm : m = 127
  · subst hm
    rw [if_neg (fun h => hn h.1)]
    simp [pr]
  · simp only [put, hn, if_false, pr, hm, sget_sset]
    by_cases h : n = m
    · subst h
      rw [if_pos rfl]
      by_cases hl : l = k
      · subst hl
        cases x <;> simp [hk]
      · simp only [hl, and_false, if_false]
        have hs := getLsbD_one_shift l k hk
        rw [decide_eq_false hl] at hs
        cases x <;> simp only [if_true, if_false, Bool.false_eq_true, BitVec.getLsbD_or, BitVec.getLsbD_and, BitVec.getLsbD_not, hs,
          Bool.or_false, Bool.not_false, hk, decide_true, Bool.and_true]
    · rw [if_neg h, if_neg (fun e => h e.1)]

/-! ### Many writes -/

@[simp] theorem Wave.puts_nil (wv : Wave) : wv.puts [] = wv := rfl
@[simp] theorem Wave.puts_cons (wv : Wave) (x : RegW) (r : List RegW) : wv.puts (x :: r) = (wv.put x).puts r := rfl
theorem Wave.puts_append (wv : Wave) (a b : List RegW) : wv.puts (a ++ b) = (wv.puts a).puts b := List.foldl_append ..

/-- A vector register that no write names keeps its words. -/
theorem Wave.puts_vr_other (m k : Nat) (hk : k < 32) : ∀ (ws : List RegW) (wv : Wave),
    (∀ n l x, RegW.v n l x ∈ ws → l < 32 ∧ ¬(n = m ∧ l = k)) → (wv.puts ws).vr m k = wv.vr m k
  | [], _, _ => rfl
  | w :: r, wv, h => by
    rw [puts_cons, puts_vr_other m k hk r _ (fun n l x hx => h n l x (List.mem_cons_of_mem _ hx))]
    cases w with
    | v n l x =>
      have := h n l x List.mem_cons_self
      rw [put_v_vr _ _ _ _ _ _ this.1 hk, if_neg this.2]
    | s n x => rfl
    | p n l x => simp
    | lc n x => rfl
theorem Wave.puts_sr_other (m : Nat) : ∀ (ws : List RegW) (wv : Wave),
    (∀ n x, RegW.s n x ∈ ws → n ≠ m) → (wv.puts ws).sr m = wv.sr m
  | [], _, _ => rfl
  | w :: r, wv, h => by
    rw [puts_cons, puts_sr_other m r _ (fun n x hx => h n x (List.mem_cons_of_mem _ hx))]
    cases w with
    | s n x => rw [put_s_sr, if_neg (h n x List.mem_cons_self)]
    | v n l x => rfl
    | p n l x => simp
    | lc n x => rfl
theorem Wave.puts_lcr_other (m : Nat) : ∀ (ws : List RegW) (wv : Wave),
    (∀ n x, RegW.lc n x ∈ ws → n ≠ m) → (wv.puts ws).lcr m = wv.lcr m
  | [], _, _ => rfl
  | w :: r, wv, h => by
    rw [puts_cons, puts_lcr_other m r _ (fun n x hx => h n x (List.mem_cons_of_mem _ hx))]
    cases w with
    | lc n x => rw [put_lc_lcr, if_neg (h n x List.mem_cons_self)]
    | v n l x => rfl
    | p n l x => simp
    | s n x => rfl
theorem Wave.puts_pr_other (m k : Nat) (hk : k < 32) : ∀ (ws : List RegW) (wv : Wave),
    (∀ n l x, RegW.p n l x ∈ ws → ¬(n = m ∧ l = k)) → ((wv.puts ws).pr m).getLsbD k = (wv.pr m).getLsbD k
  | [], _, _ => rfl
  | w :: r, wv, h => by
    rw [puts_cons, puts_pr_other m k hk r _ (fun n l x hx => h n l x (List.mem_cons_of_mem _ hx))]
    cases w with
    | p n l x =>
      by_cases hn : n = 127
      · subst hn; simp [put]
      · rw [put_p_pr _ _ _ _ _ _ hn hk, if_neg (h n l x List.mem_cons_self)]
    | v n l x => rfl
    | s n x => rfl
    | lc n x => rfl

/-- One vector write per lane of a list without repeats. -/
theorem Wave.puts_lanes_vr (n m k : Nat) (f : Nat → Word) (hk : k < 32) : ∀ (ls : List Nat) (wv : Wave), (∀ l ∈ ls, l < 32) →
    (wv.puts (ls.map (fun l => .v n l (f l)))).vr m k = if n = m ∧ k ∈ ls then f k else wv.vr m k
  | [], _, _ => by simp
  | l :: r, wv, h => by
    have hl : l < 32 := h l List.mem_cons_self
    rw [List.map_cons, puts_cons, puts_lanes_vr n m k f hk r _ (fun x hx => h x (List.mem_cons_of_mem _ hx)), put_v_vr _ _ _ _ _ _ hl hk]
    by_cases hn : n = m
    · by_cases hr : k ∈ r
      · simp [hn, hr]
      · by_cases hlk : l = k
        · subst hlk; simp [hn]
        · simp [hn, hr, hlk, Ne.symm hlk]
    · simp [hn]
theorem Wave.puts_lanes_pr (n m k : Nat) (f : Nat → Bool) (hn : n ≠ 127) (hk : k < 32) : ∀ (ls : List Nat) (wv : Wave),
    ((wv.puts (ls.map (fun l => .p n l (f l)))).pr m).getLsbD k = if n = m ∧ k ∈ ls then f k else (wv.pr m).getLsbD k
  | [], _ => by simp
  | l :: r, wv => by
    rw [List.map_cons, puts_cons, puts_lanes_pr n m k f hn hk r, put_p_pr _ _ _ _ _ _ hn hk]
    by_cases hm : n = m
    · by_cases hr : k ∈ r
      · simp [hm, hr]
      · by_cases hlk : l = k
        · subst hlk; simp [hm]
        · simp [hm, hr, hlk, Ne.symm hlk]
    · simp [hm]

/-! ### Destinations -/

/-- A 32-bit result in a vector register: the active lanes get their values, the others keep theirs (R66, R169). -/
theorem Wave.puts_wr1_v (wv : Wave) (m : Lanes) (n : BitVec 7) (f : Nat → Word) (r k : Nat) (hk : k < 32) :
    (wv.puts (wr1 m (.v n) f)).vr r k = if n.toNat = r ∧ m.getLsbD k then f k else wv.vr r k := by
  simp only [wr1]
  rw [puts_lanes_vr _ _ _ _ hk _ _ (fun l hl => ((mem_lanesOf m l).1 hl).1)]
  simp [mem_lanesOf, hk]
/-- A 32-bit result in a scalar register: the value of the lowest active lane, zero-extended (R66, R169). -/
theorem Wave.puts_wr1_s (wv : Wave) (m : Lanes) (n : BitVec 6) (f : Nat → Word) (r : Nat) :
    (wv.puts (wr1 m (.s n) f)).sr r = if n.toNat = r ∧ m ≠ 0 then (f (lowest m)).setWidth 64 else wv.sr r := by
  simp only [wr1]
  by_cases h : m = 0
  · rw [if_pos h, if_neg (fun e => e.2 h), puts_nil]
  · rw [if_neg h]
    simp only [puts_cons, puts_nil, put_s_sr, h, ne_eq, not_false_eq_true, and_true]
theorem Wave.puts_wr1_lc (wv : Wave) (m : Lanes) (n : Fin 3) (f : Nat → Word) (r : Nat) :
    (wv.puts (wr1 m (.lc n) f)).lcr r = if n.val = r ∧ m ≠ 0 then f (lowest m) else wv.lcr r := by
  simp only [wr1]
  by_cases h : m = 0
  · rw [if_pos h, if_neg (fun e => e.2 h), puts_nil]
  · rw [if_neg h]
    simp only [puts_cons, puts_nil, put_lc_lcr, h, ne_eq, not_false_eq_true, and_true]
/-- A 64-bit result in a scalar register. -/
theorem Wave.puts_wr64_s (wv : Wave) (m : Lanes) (n : BitVec 6) (f : Nat → DWord) (r : Nat) :
    (wv.puts (wr64 m (.s n) f)).sr r = if n.toNat = r ∧ m ≠ 0 then f (lowest m) else wv.sr r := by
  simp only [wr64]
  by_cases h : m = 0
  · rw [if_pos h, if_neg (fun e => e.2 h), puts_nil]
  · rw [if_neg h]
    simp only [puts_cons, puts_nil, put_s_sr, h, ne_eq, not_false_eq_true, and_true]

/-- A 64-bit result in a vector pair: low word first (R67). -/
theorem Wave.puts_pairs_vr (n m k : Nat) (f : Nat → DWord) (hk : k < 32) : ∀ (ls : List Nat) (wv : Wave), (∀ l ∈ ls, l < 32) →
    (wv.puts (ls.flatMap (fun l => [.v n l ((f l).setWidth 32), .v (n + 1) l ((f l >>> 32).setWidth 32)]))).vr m k
      = if k ∈ ls then (if n = m then (f k).setWidth 32 else if n + 1 = m then (f k >>> 32).setWidth 32 else wv.vr m k) else wv.vr m k
  | [], _, _ => by simp
  | l :: r, wv, h => by
    have hl : l < 32 := h l List.mem_cons_self
    rw [List.flatMap_cons, puts_append, puts_pairs_vr n m k f hk r _ (fun x hx => h x (List.mem_cons_of_mem _ hx))]
    simp only [puts_cons, puts_nil, put_v_vr _ _ _ _ _ _ hl hk]
    by_cases hr : k ∈ r
    · simp only [hr, if_true, List.mem_cons, or_true]
      by_cases h1 : n = m
      · simp [h1]
      · by_cases h2 : n + 1 = m
        · simp [h1, h2]
        · simp [h1, h2]
    · by_cases hlk : l = k
      · subst hlk
        by_cases h1 : n = m
        · subst h1; simp [hr]
        · by_cases h2 : n + 1 = m <;> simp [hr, h1, h2]
      · simp [hr, hlk, Ne.symm hlk]
theorem Wave.puts_wr64_v (wv : Wave) (m : Lanes) (n : BitVec 7) (f : Nat → DWord) (r k : Nat) (hk : k < 32) :
    (wv.puts (wr64 m (.v n) f)).vr r k = if m.getLsbD k then (if n.toNat = r then (f k).setWidth 32
      else if n.toNat + 1 = r then (f k >>> 32).setWidth 32 else wv.vr r k) else wv.vr r k := by
  simp only [wr64]
  rw [puts_pairs_vr _ _ _ _ hk _ _ (fun l hl => ((mem_lanesOf m l).1 hl).1)]
  simp [mem_lanesOf, hk]

/-- Predicate results (R63). -/
theorem Wave.puts_dstP (c : Ctx) (wv : Wave) (p : Pr) (f : Nat → Bool) (r k : Nat) (hk : k < 32) :
    ((wv.puts (c.dstP p f)).pr r).getLsbD k = if p ≠ 127#7 ∧ p.toNat = r ∧ c.lanes.getLsbD k then f k else (wv.pr r).getLsbD k := by
  unfold Ctx.dstP
  by_cases h : p = 127#7
  · simp [h]
  · have h' : p.toNat ≠ 127 := fun e => h (BitVec.eq_of_toNat_eq (by simpa using e))
    rw [if_neg h, puts_lanes_pr _ _ _ _ h' hk]
    simp [mem_lanesOf, hk, h]

/-- The registers that a list of writes names. -/
theorem mem_wr1_reg (m : Lanes) (d : Opd) (f : Nat → Word) (w : RegW) (h : w ∈ wr1 m d f) : w.reg ∈ Opd.regs d 1 1 := by
  cases d <;> simp only [wr1, List.not_mem_nil] at h
  · simp only [List.mem_map] at h
    obtain ⟨l, _, rfl⟩ := h
    simp [RegW.reg, Opd.regs, vregs]
  · split at h <;> simp at h
    subst h
    simp [RegW.reg, Opd.regs]
  · split at h <;> simp at h
    subst h
    simp [RegW.reg, Opd.regs]

end Sys2Proof.Machine
end

