-- ==== Sys2Proof/Laws/Issue.lean ====
section
/-! SUPPORT. Sys2Proof/Laws/Issue.lean: what the issue of an instruction can do, once for every instruction (R56, R57, R72, R131):
what holds when an instruction is past every check, the wave after the bookkeeping of the issue, and the wave after a
fixed-latency result. -/
namespace Sys2Proof.Machine
open Host (Outcome)

/-! ### Past the checks -/

/-- What a pop does (R65, R252): the queue of the team, and what the loads of deferred lanes do on their way. -/
theorem popQueue_upd (s : State) (c : Ctx) (n : Nat) (ws : List Word) (s' : State) (h : s.popQueue c n = .ok (ws, s')) :
    ∃ (ls : List Nat) (u : State) (g : List (List QEnt) → List (List QEnt)),
      (∀ P, CacheKeeps P → P s → P u) ∧ (ls = [] → u = s) ∧ (∀ l ∈ ls, QEnt.defers (c.entry n (l / 4)) l = true) ∧
      s' = u.updTeam c.tag (fun t => { t with aq := { t.aq with q := g t.aq.q } }) := by
  simp only [State.popQueue] at h
  split at h
  · cases h
  · split at h
    · cases h
    · split at h
      · cases h
      simp only [Except.ok.injEq, Prod.mk.injEq] at h
      refine ⟨(lanesOf c.lanes).filter (fun l => QEnt.defers (c.entry n (l / 4)) l), _, fun q => q.set n _, ?_, ?_, ?_, h.2.symm⟩
      · intro P hP p
        exact foldl_keeps P _ (fun s l q => hP.vtouch _ _ _ _ _ _ _ _ q) _ s p
      · intro e; rw [e]; rfl
      · intro l hl; exact (List.mem_filter.1 hl).2
theorem popAll_upd (c : Ctx) : ∀ (ns : List Nat) (s : State) (l : List (Nat × List Word)) (s' : State),
    State.popAll c ns s = .ok (l, s') →
    ∃ g : List (List QEnt) → List (List QEnt), s'.sansCache = (s.updTeam c.tag (fun t => { t with aq := { t.aq with q := g t.aq.q } })).sansCache
  | [], s, l, s', h => by
    simp only [State.popAll, Except.ok.injEq, Prod.mk.injEq] at h
    exact ⟨id, by rw [← h.2]; exact congrArg State.sansCache (State.updTeam_id s c.tag).symm⟩
  | n :: r, s, l, s', h => by
    simp only [State.popAll] at h
    split at h
    · cases h
    · rename_i ws s1 h1
      split at h
      · cases h
      · rename_i l2 s2 h2
        simp only [Except.ok.injEq, Prod.mk.injEq] at h
        obtain ⟨ls, u, g1, hP, -, -, rfl⟩ := popQueue_upd s c n ws s1 h1
        obtain ⟨g2, hg2⟩ := popAll_upd c r _ l2 s2 h2
        refine ⟨fun q => g2 (g1 q), ?_⟩
        rw [← h.2, hg2, State.updTeam_updTeam u c.tag (fun t => { t with aq := { t.aq with q := g1 t.aq.q } })
          (fun t => { t with aq := { t.aq with q := g2 t.aq.q } }) (fun _ => rfl), State.sansCache_updTeam, State.sansCache_updTeam]
        rw [hP _ (sansCache_keeps s.sansCache) rfl]
/-- Pops keep what accesses keep and the queues do not touch. -/
theorem popAll_keeps (c : Ctx) (P : State → Prop) (hP : CacheKeeps P) (hT : ∀ (s : State) tag f, P s → P (s.updTeam tag f)) :
    ∀ (ns : List Nat) (s : State) (l : List (Nat × List Word)) (s' : State), State.popAll c ns s = .ok (l, s') → P s → P s'
  | [], s, l, s', h, p => by
    simp only [State.popAll, Except.ok.injEq, Prod.mk.injEq] at h
    exact h.2 ▸ p
  | n :: r, s, l, s', h, p => by
    simp only [State.popAll] at h
    split at h
    · cases h
    · rename_i ws s1 h1
      split at h
      · cases h
      · rename_i l2 s2 h2
        simp only [Except.ok.injEq, Prod.mk.injEq] at h
        obtain ⟨ls, u, g1, hu, -, -, rfl⟩ := popQueue_upd s c n ws s1 h1
        exact h.2 ▸ popAll_keeps c P hP hT r _ l2 s2 h2 (hT _ _ _ (hu P hP p))
/-- With no deferred lane in the queues, pops change nothing but the queues. -/
theorem popAll_exact (c : Ctx) (hd : ∀ n sl l, QEnt.defers (c.entry n sl) l = false) : ∀ (ns : List Nat) (s : State) (l : List (Nat × List Word))
    (s' : State), State.popAll c ns s = .ok (l, s') →
    ∃ g : List (List QEnt) → List (List QEnt), s' = s.updTeam c.tag (fun t => { t with aq := { t.aq with q := g t.aq.q } })
  | [], s, l, s', h => by
    simp only [State.popAll, Except.ok.injEq, Prod.mk.injEq] at h
    exact ⟨id, by rw [← h.2]; exact (State.updTeam_id s c.tag).symm⟩
  | n :: r, s, l, s', h => by
    simp only [State.popAll] at h
    split at h
    · cases h
    · rename_i ws s1 h1
      split at h
      · cases h
      · rename_i l2 s2 h2
        simp only [Except.ok.injEq, Prod.mk.injEq] at h
        obtain ⟨ls, u, g1, -, hu, hl, rfl⟩ := popQueue_upd s c n ws s1 h1
        have e : ls = [] := by
          cases ls with
          | nil => rfl
          | cons x r => have := hl x List.mem_cons_self; rw [hd] at this; cases this
        obtain ⟨g2, hg2⟩ := popAll_exact c hd r _ l2 s2 h2
        refine ⟨fun q => g2 (g1 q), ?_⟩
        rw [← h.2, hg2, hu e]
        exact State.updTeam_updTeam s c.tag _ _ (fun _ => rfl)
theorem Ctx.entry_mem (c : Ctx) (n sl : Nat) (e : QEnt) (h : c.entry n sl = some e) : ∃ q ∈ c.tm.aq.q, e ∈ q := by
  have hm : e ∈ c.tm.aq.q.getD n [] := by
    unfold Ctx.entry at h
    simp only [Option.or_eq_some_iff] at h
    obtain h | ⟨-, h⟩ := h
    · exact List.mem_of_find?_eq_some h
    · exact List.mem_of_find?_eq_some h
  by_cases hn : n < c.tm.aq.q.length
  · rw [List.getD_eq_getElem _ _ hn] at hm
    exact ⟨_, List.getElem_mem hn, hm⟩
  · rw [List.getD_eq_default _ _ (by omega)] at hm
    cases hm
theorem Ctx.defers_false (c : Ctx) (h : ∀ q ∈ c.tm.aq.q, ∀ e ∈ q, ∀ x ∈ e.words, x ≠ none) (n sl l : Nat) : QEnt.defers (c.entry n sl) l = false := by
  unfold QEnt.defers
  cases he : c.entry n sl with
  | none => rfl
  | some e =>
    obtain ⟨q, hq, hm⟩ := c.entry_mem n sl e he
    simp only [Option.any_some]
    by_cases hl : l < e.words.length
    · rw [List.getD_eq_getElem _ _ hl]
      have := h q hq e hm _ (List.getElem_mem hl)
      cases hw : e.words[l] with
      | none => exact absurd hw this
      | some _ => rfl
    · rw [List.getD_eq_default _ _ (by omega)]; rfl

/-- What holds of an instruction that is past every check: who issues it, and the checks of R72, R53, R32, R415 and R134. -/
structure PastChecks (s : State) (i : Instr) (c : Ctx) (s' : State) : Prop where
  cur : s.cur = some (c.tag, c.w)
  team : s.team? c.tag = some c.tm
  wave : c.tm.wave? c.w = some c.wv
  gang : s.gang? c.tm.gid = some c.gg
  bundle : c.wv.bundle = some c.b
  lanes : ∃ h, i.hdr? = some h ∧ c.lanes = activeLanes c h
  placed : c.gg.st = .placed
  ready : c.wv.ready ≤ s.cycle
  free : c.wv.blocked = false
  legal : c.illegal i = false
  allowed : c.denied i = false
  inTime : c.early i = false
  liveIn : c.clobbers i = false
  sound : c.readsPoison i = false
  pops : s.Popped s' c.tag
  keeps : ∀ P, CacheKeeps P → (∀ (s : State) tag f, P s → P (s.updTeam tag f)) → P s → P s'
  now : c.cyc = s.cycle ∧ c.free = s.free ∧ c.iss = s.nextId
  addr : c.site = c.b.h + BitVec.ofNat 64 (8 * (c.b.ix + 1)) ∧ c.next = c.b.h + BitVec.ofNat 64 (8 * (c.b.words.length + 1))

theorem ctx?_some (s : State) (i : Instr) (c : Ctx) (h : s.ctx? i = some c) :
    s.cur = some (c.tag, c.w) ∧ s.team? c.tag = some c.tm ∧ c.tm.wave? c.w = some c.wv ∧ s.gang? c.tm.gid = some c.gg ∧
    c.wv.bundle = some c.b ∧ (∃ h, i.hdr? = some h ∧ c.lanes = activeLanes c h) ∧ (c.cyc = s.cycle ∧ c.free = s.free ∧ c.iss = s.nextId) ∧
    c.site = c.b.h + BitVec.ofNat 64 (8 * (c.b.ix + 1)) ∧ c.next = c.b.h + BitVec.ofNat 64 (8 * (c.b.words.length + 1)) := by
  unfold State.ctx? at h
  split at h
  · cases h
  · rename_i tag w hc
    split at h
    · cases h
    · rename_i t ht
      split at h
      · rename_i wv g hw hg
        split at h
        · rename_i b hd hb hh
          simp only [Option.some.injEq] at h
          subst h
          exact ⟨hc, ht, hw, hg, hb, ⟨hd, hh, rfl⟩, ⟨rfl, rfl, rfl⟩, rfl, rfl⟩
        · cases h
      · cases h

/-- The words popped do not matter to the checks, which come first. -/
theorem Ctx.smovLane_pops (c : Ctx) (l : List (Nat × List Word)) (b : Opd) : ({ c with pops := l } : Ctx).smovLane b = c.smovLane b := by
  cases b <;> rfl
theorem Ctx.srcLanes_pops (c : Ctx) (l : List (Nat × List Word)) (i : Instr) (r : Reg) : ({ c with pops := l } : Ctx).srcLanes i r = c.srcLanes i r := by
  unfold Ctx.srcLanes
  split
  · rw [Ctx.smovLane_pops]
  · rfl
theorem Ctx.reads_pops (c : Ctx) (l : List (Nat × List Word)) (i : Instr) : ({ c with pops := l } : Ctx).reads i = c.reads i := by
  unfold Ctx.reads
  simp only [Ctx.srcLanes_pops]
theorem Ctx.early_pops (c : Ctx) (l : List (Nat × List Word)) (i : Instr) : ({ c with pops := l } : Ctx).early i = c.early i := by
  unfold Ctx.early
  rw [Ctx.reads_pops]
  rfl
theorem Ctx.readsPoison_pops (c : Ctx) (l : List (Nat × List Word)) (i : Instr) : ({ c with pops := l } : Ctx).readsPoison i = c.readsPoison i := by
  unfold Ctx.readsPoison
  rw [Ctx.reads_pops]
  rfl

theorem pre_go (s : State) (i : Instr) (c : Ctx) (s' : State) (h : s.pre i = .go c s') : PastChecks s i c s' := by
  unfold State.pre at h
  split at h
  · cases h
  · rename_i c0 hc
    obtain ⟨h1, h2, h3, h4, h5, h6, h7, h8⟩ := ctx?_some s i c0 hc
    split at h
    · cases h
    · rename_i hb
      simp only [Bool.or_eq_true, decide_eq_true_eq, not_or, Bool.not_eq_true, ne_eq, not_not, not_lt] at hb
      split at h
      · cases h
      · rename_i hi
        split at h
        · cases h
        · rename_i hd
          split at h
          · cases h
          · rename_i he
            split at h
            · cases h
            · rename_i hl
              split at h
              · cases h
              · rename_i hp
                split at h
                · cases h
                · simp only [Bool.not_eq_true] at hi hd he hl hp
                  split at h
                  · simp only [Pre.go.injEq] at h
                    obtain ⟨rfl, rfl⟩ := h
                    exact ⟨h1, h2, h3, h4, h5, h6, hb.1.1, hb.1.2, hb.2, hi, hd, he, hl, hp,
                      ⟨⟨id, congrArg State.sansCache (State.updTeam_id s c0.tag).symm⟩, fun _ => ⟨id, (State.updTeam_id s c0.tag).symm⟩⟩,
                      fun _ _ _ p => p, h7, h8⟩
                  · split at h
                    · cases h
                    · rename_i l s1 hq
                      simp only [Pre.go.injEq] at h
                      obtain ⟨rfl, rfl⟩ := h
                      obtain ⟨hh, e1, e2⟩ := h6
                      exact ⟨h1, h2, h3, h4, h5, ⟨hh, e1, e2⟩, hb.1.1, hb.1.2, hb.2, hi, hd, (Ctx.early_pops c0 l i).trans he, hl,
                        (Ctx.readsPoison_pops c0 l i).trans hp,
                        ⟨popAll_upd c0 _ s l s1 hq, fun hn => popAll_exact c0 (c0.defers_false (hn _ h2)) _ s l s1 hq⟩,
                        fun P hP hT p => popAll_keeps c0 P hP hT _ s l s1 hq p, h7, h8⟩

/-- An instruction past every check does its effect `k`, unless `k` stops it; then the loops step (R138). -/
theorem issue_go (s : State) (i : Instr) (k : Ctx → State → Except Stop State) (c : Ctx) (s' : State) (h : s.pre i = .go c s') :
    issue i s k = match k c (s'.advance c i) with
      | .ok t => .next (t.settle c.tag c.w)
      | .error x => .next (s.stop c x) := by
  simp only [issue, h] <;> rfl
theorem compute_go (s : State) (i : Instr) (f : Ctx → List RegW × BitVec 8) (c : Ctx) (s' : State) (h : s.pre i = .go c s') :
    compute i s f = .next (((s'.advance c i).result c i (f c).1 (f c).2).settle c.tag c.w) := by
  unfold compute
  rw [issue_go s i _ c s' h]
/-- Every instruction that a wave issues answers a next state: its effect, a wait, a trap or a page fault. -/
theorem issue_next (s : State) (i : Instr) (k : Ctx → State → Except Stop State) (c : Ctx) (h : s.ctx? i = some c) :
    ∃ t, issue i s k = .next t := by
  unfold issue
  have hn : s.pre i ≠ .none := by
    unfold State.pre
    rw [h]
    simp only
    repeat' split
    all_goals simp
  split
  · exact absurd ‹_› hn
  · exact ⟨_, rfl⟩
  · split
    · exact ⟨_, rfl⟩
    · exact ⟨_, rfl⟩

/-! ### The wave after the bookkeeping of the issue -/

@[simp] theorem Wave.spoil_ix (wv : Wave) (n : Nat) (f : MOpen → Bool) : (wv.spoil n f).ix = wv.ix := rfl
@[simp] theorem Wave.setPcs_ix (wv : Wave) (m : Lanes) (f : Nat → DWord) : (wv.setPcs m f).ix = wv.ix := rfl
@[simp] theorem Wave.mapThr_ix (wv : Wave) (m : Lanes) (f : Nat → Thread → Thread) : (wv.mapThr m f).ix = wv.ix := rfl
@[simp] theorem Wave.put_ix (wv : Wave) (x : RegW) : (wv.put x).ix = wv.ix := by
  cases x <;> simp only [Wave.put]
  split <;> rfl
@[simp] theorem Wave.puts_ix : ∀ (ws : List RegW) (wv : Wave), (wv.puts ws).ix = wv.ix
  | [], _ => rfl
  | w :: r, wv => by rw [Wave.puts_cons, Wave.puts_ix r, Wave.put_ix]
@[simp] theorem Wave.mark_ix (wv : Wave) (rs : List (Reg × Lanes)) (n : Nat) : (wv.mark rs n).ix = wv.ix := rfl

/-- What the bookkeeping of an issue keeps of its wave: every register, the event counters, the status and system registers,
the loops, the stores of its runs, its pending operations and what its slices wait for. -/
structure Wave.Same (a b : Wave) : Prop where
  ix : b.ix = a.ix
  slot : b.slot = a.slot
  v : b.v = a.v
  s : b.s = a.s
  p : b.p = a.p
  lc : b.lc = a.lc
  ev : b.ev = a.ev
  fmode : b.fmode = a.fmode
  fflags : b.fflags = a.fflags
  tcause : b.tcause = a.tcause
  taddr : b.taddr = a.taddr
  tregion : b.tregion = a.tregion
  joining : b.joining = a.joining
  loops : b.loops = a.loops
  loopMode : b.loopMode = a.loopMode
  snap : b.snap = a.snap
  pend : b.pend = a.pend
  waits : b.waits = a.waits
  holds : b.holds = a.holds
  handler : b.handler = a.handler
  trapQ : b.trapQ = a.trapQ
  stores : b.regions.map (fun r => (r.rid, r.sl, r.start, r.stores, r.ended)) = a.regions.map (fun r => (r.rid, r.sl, r.start, r.stores, r.ended))
  bdesc : b.bdesc = a.bdesc
  walk : b.walk = a.walk
  scene : b.scene = a.scene

/-- The parts of the wave that the bookkeeping changes. -/
theorem Ctx.advance_same (c : Ctx) (i : Instr) (wv : Wave) (age : Sparse Nat) : wv.Same { c.advance i wv with age := age } := by
  have hr : ∀ (rs : List Region) (f : Region → Prop) [DecidablePred f] (x y : Region → List (Reg × Lanes)),
      (rs.map (fun r => if f r then r.track (x r) (y r) else r)).map (fun r => (r.rid, r.sl, r.start, r.stores, r.ended))
        = rs.map (fun r => (r.rid, r.sl, r.start, r.stores, r.ended)) := by
    intro rs f _ x y
    rw [List.map_map]
    apply List.map_congr_left
    intro r _
    simp only [Function.comp]
    split <;> rfl
  simp only [Ctx.advance]
  split <;> split <;> exact ⟨rfl, rfl, rfl, rfl, rfl, rfl, rfl, rfl, rfl, rfl, rfl, rfl, rfl, rfl, rfl, rfl, rfl, rfl, rfl, rfl, rfl,
    hr _ (fun r => c.b.mask &&& sliceMask r.sl ≠ 0) _ _, rfl, rfl, rfl⟩

/-- The threads after the bookkeeping: at the last instruction of the clause, those of the bundle stand at the next clause. -/
theorem Ctx.advance_thr (c : Ctx) (i : Instr) (wv : Wave) :
    (c.advance i wv).thr = if c.b.ix + 1 ≥ c.b.words.length then (wv.setPcs c.b.mask (fun _ => c.next)).thr else wv.thr := by
  simp only [Ctx.advance]
  split <;> split <;> rfl
/-- The bundle after the bookkeeping: the next instruction of the clause, or none. -/
theorem Ctx.advance_bundle (c : Ctx) (i : Instr) (wv : Wave) :
    (c.advance i wv).bundle = if c.b.ix + 1 ≥ c.b.words.length then none else some { c.b with ix := c.b.ix + 1 } := by
  simp only [Ctx.advance]
  split <;> split <;> rfl
/-- The wave issues nothing for STALL cycles after the one of the issue (R57). -/
theorem Ctx.advance_ready (c : Ctx) (i : Instr) (wv : Wave) :
    (c.advance i wv).ready = c.cyc + (i.hdr?.elim 0 (·.stall.toNat)) + 1 := by
  simp only [Ctx.advance]
  split <;> split <;> rfl

/-- Pops leave every wave as it was. -/
theorem State.Popped.wave? {s t : State} {tag : Nat} (h : s.Popped t tag) (k w : Nat) : t.wave? k w = s.wave? k w := by
  obtain ⟨g, e⟩ := h.rest
  simp only [State.wave?]
  rw [State.team?_sansCache e, State.team?_updTeam s tag k (fun t => { t with aq := { t.aq with q := g t.aq.q } }) (fun _ => rfl)]
  by_cases hk : k = tag
  · rw [if_pos hk]
    cases s.team? k <;> rfl
  · rw [if_neg hk]

/-- The state after the bookkeeping of an issue: the wave as `Ctx.advance` leaves it, two counters, and the queue pops. -/
theorem advance_wave (s : State) (i : Instr) (c : Ctx) (s' : State) (h : s.pre i = .go c s') :
    ∃ wv, (s'.advance c i).wave? c.tag c.w = some wv ∧ ∃ age, wv = { c.advance i c.wv with age := age } := by
  have p := pre_go s i c s' h
  refine ⟨{ c.advance i c.wv with age := s'.ages c.tm c.wv c.b.mask }, ?_, _, rfl⟩
  simp only [State.advance]
  have hx : ∀ (s : State) (n m : Nat) (l : List SfuHold) (a b : Nat), State.wave? { s with free := n, nextId := m, sfuBusy := l } a b = s.wave? a b :=
    fun _ _ _ _ _ _ => rfl
  rw [hx, State.wave?_updWave _ _ _ _ _ _ (fun x => by
    exact (Ctx.advance_same c i x _).ix), if_pos ⟨rfl, rfl⟩, p.pops.wave?]
  have : s.wave? c.tag c.w = some c.wv := by
    simp only [State.wave?, p.team]
    exact p.wave
  rw [this]
  rfl

/-! ### A fixed-latency result -/

/-- The wave after a result: its registers as written, and the flags raised (R131, R161). -/
theorem result_wave (s : State) (c : Ctx) (i : Instr) (ws : List RegW) (fl : BitVec 8) (wv : Wave) (h : s.wave? c.tag c.w = some wv) :
    (s.result c i ws fl).wave? c.tag c.w = some { (wv.puts ws).mark (writtenLanes ws) (c.cyc + i.latency) with
      fflags := (wv.puts ws).fflags ||| fl.setWidth 64 } := by
  simp only [State.wave?] at h ⊢
  cases ht : s.team? c.tag with
  | none => rw [ht] at h; cases h
  | some t =>
    rw [ht, Option.bind_some] at h
    unfold State.result
    rw [State.team?_updTeam s c.tag c.tag _ (by intro t; rfl), if_pos rfl, ht]
    simp only [Option.map_some, Option.bind_some]
    have hw : ∀ (t : Team) (w : Nat) (ws : List RegW) (k : Nat), (t.cleanRegs w ws).wave? k = t.wave? k := fun _ _ _ _ => rfl
    rw [hw, Team.wave?_updWave _ _ _ _ (by intro x; exact Wave.puts_ix ws x), if_pos rfl, h]
    rfl

end Sys2Proof.Machine
end

