-- ==== Sys2Proof/Laws/Result.lean ====
section
/-! SUPPORT. Sys2Proof/Laws/Result.lean: what the instructions do that only compute, once for all of them: the registers that a
list of writes leaves, the completion of `compute`, and its frame. -/
namespace Sys2Proof.Machine
open Host (Outcome)

/-! ### Registers read by what determines them -/

/-- Waves with the same registers read the same. -/
theorem Wave.vr_congr {a b : Wave} (h : a.v = b.v) (n l : Nat) : a.vr n l = b.vr n l := by simp only [vr, h]
theorem Wave.sr_congr {a b : Wave} (h : a.s = b.s) (n : Nat) : a.sr n = b.sr n := by simp only [sr, h]
theorem Wave.lcr_congr {a b : Wave} (h : a.lc = b.lc) (n : Nat) : a.lcr n = b.lcr n := by simp only [lcr, h]
theorem Wave.pr_congr {a b : Wave} (h : a.p = b.p) (n : Nat) : a.pr n = b.pr n := by simp only [pr, h]

/-- Writing registers commutes with what does not touch them. -/
theorem Wave.puts_regs (ws : List RegW) : ∀ (a b : Wave), a.v = b.v → a.s = b.s → a.lc = b.lc → a.p = b.p →
    (a.puts ws).v = (b.puts ws).v ∧ (a.puts ws).s = (b.puts ws).s ∧ (a.puts ws).lc = (b.puts ws).lc ∧ (a.puts ws).p = (b.puts ws).p := by
  induction ws with
  | nil => intro a b h1 h2 h3 h4; exact ⟨h1, h2, h3, h4⟩
  | cons w r ih =>
    intro a b h1 h2 h3 h4
    rw [puts_cons, puts_cons]
    apply ih <;> cases w <;> simp only [put, pr, h1, h2, h3, h4] <;> split <;> simp [h1, h2, h3, h4]

@[simp] theorem Wave.put_fflags (wv : Wave) (x : RegW) : (wv.put x).fflags = wv.fflags := by
  cases x <;> simp only [Wave.put]
  split <;> rfl
@[simp] theorem Wave.puts_fflags : ∀ (ws : List RegW) (wv : Wave), (wv.puts ws).fflags = wv.fflags
  | [], _ => rfl
  | w :: r, wv => by rw [Wave.puts_cons, Wave.puts_fflags r, Wave.put_fflags]

/-! ### Lists of writes -/

theorem Wave.got32_wr1 (a : Wave) (m : Lanes) (d : Opd) (f : Nat → Word) : a.Got32 (a.puts (wr1 m d f)) m d f := by
  cases d with
  | v n =>
    refine ⟨fun r k hk => ?_, fun r => ?_, fun r => ?_⟩
    · rw [puts_wr1_v _ _ _ _ _ _ hk]; simp [Opd.vNum]
    · rw [puts_sr_other]
      · simp [Opd.sNum]
      · intro n x hx; simp [wr1] at hx
    · rw [puts_lcr_other]
      · simp [Opd.lcNum]
      · intro n x hx; simp [wr1] at hx
  | s n =>
    refine ⟨fun r k hk => ?_, fun r => ?_, fun r => ?_⟩
    · rw [puts_vr_other _ _ hk]
      · simp [Opd.vNum]
      · intro n l x hx; simp only [wr1] at hx; split at hx <;> simp at hx
    · rw [puts_wr1_s]; simp [Opd.sNum]
    · rw [puts_lcr_other]
      · simp [Opd.lcNum]
      · intro n x hx; simp only [wr1] at hx; split at hx <;> simp at hx
  | lc n =>
    refine ⟨fun r k hk => ?_, fun r => ?_, fun r => ?_⟩
    · rw [puts_vr_other _ _ hk]
      · simp [Opd.vNum]
      · intro n l x hx; simp only [wr1] at hx; split at hx <;> simp at hx
    · rw [puts_sr_other]
      · simp [Opd.sNum]
      · intro n x hx; simp only [wr1] at hx; split at hx <;> simp at hx
    · rw [puts_wr1_lc]; simp [Opd.lcNum]
  | _ => exact ⟨fun _ _ _ => by simp [wr1, Opd.vNum], fun _ => by simp [wr1, Opd.sNum], fun _ => by simp [wr1, Opd.lcNum]⟩

theorem Wave.got64_wr64 (a : Wave) (m : Lanes) (d : Opd) (f : Nat → DWord) : a.Got64 (a.puts (wr64 m d f)) m d f := by
  cases d with
  | v n =>
    refine ⟨fun r k hk => ?_, fun r => ?_, fun r => ?_⟩
    · rw [puts_wr64_v _ _ _ _ _ _ hk]; simp [Opd.vNum]
    · rw [puts_sr_other]
      · simp [Opd.sNum]
      · intro n x hx; simp [wr64] at hx
    · rw [puts_lcr_other]
      intro n x hx; simp [wr64] at hx
  | s n =>
    refine ⟨fun r k hk => ?_, fun r => ?_, fun r => ?_⟩
    · rw [puts_vr_other _ _ hk]
      · simp [Opd.vNum]
      · intro n l x hx; simp only [wr64] at hx; split at hx <;> simp at hx
    · rw [puts_wr64_s]; simp [Opd.sNum]
    · rw [puts_lcr_other]
      intro n x hx; simp only [wr64] at hx; split at hx <;> simp at hx
  | _ => exact ⟨fun _ _ _ => by simp [wr64, Opd.vNum], fun _ => by simp [wr64, Opd.sNum], fun _ => by simp [wr64]⟩

/-- Two words of a wide result are one 64-bit result (R67). -/
theorem Wave.got64_wrN (a : Wave) (m : Lanes) (d : Opd) (f : Nat → Nat → Word) :
    a.Got64 (a.puts (wrN m d 2 f)) m d (fun l => f 1 l ++ f 0 l) := by
  have h : wrN m d 2 f = wr64 m d (fun l => f 1 l ++ f 0 l) := by
    have e0 : ∀ l, (f 1 l ++ f 0 l).setWidth 32 = f 0 l := fun l => by
      rw [BitVec.setWidth_append, dif_pos (by decide)]; rfl
    have e1 : ∀ l, ((f 1 l ++ f 0 l) >>> 32).setWidth 32 = f 1 l := fun l => by
      have : (f 1 l ++ f 0 l) >>> 32 = (f 1 l).setWidth 64 := by
        apply BitVec.eq_of_toNat_eq
        have := (f 0 l).isLt
        have := (f 1 l).isLt
        simp only [BitVec.toNat_ushiftRight, BitVec.toNat_append, BitVec.toNat_setWidth, Nat.shiftRight_eq_div_pow, Nat.shiftLeft_eq]
        rw [← Nat.shiftLeft_eq, ← Nat.shiftLeft_add_eq_or_of_lt (by assumption), Nat.shiftLeft_eq]
        omega
      rw [this, BitVec.setWidth_setWidth_of_le _ (by decide), BitVec.setWidth_eq]
    cases d with
    | v r => simp only [wrN, wr64, e0, e1, List.range, List.range.loop, List.map_cons, List.map_nil, Nat.add_zero]
    | s r => simp only [wrN, wr64]; rfl
    | _ => rfl
  rw [h]
  exact got64_wr64 ..

theorem Wave.puts_wr1_preds (a : Wave) (m : Lanes) (d : Opd) (f : Nat → Word) : (a.puts (wr1 m d f)).p = a.p := by
  cases d <;> simp only [wr1, puts_nil]
  · rename_i n
    generalize lanesOf m = l
    induction l generalizing a with
    | nil => rfl
    | cons x r ih => rw [List.map_cons, puts_cons, ih]; rfl
  · split <;> rfl
  · split <;> rfl
theorem Wave.puts_wr64_preds (a : Wave) (m : Lanes) (d : Opd) (f : Nat → DWord) : (a.puts (wr64 m d f)).p = a.p := by
  cases d <;> simp only [wr64, puts_nil]
  · rename_i n
    generalize lanesOf m = l
    induction l generalizing a with
    | nil => rfl
    | cons x r ih => rw [List.flatMap_cons, puts_append, ih]; rfl
  · split <;> rfl
theorem Wave.puts_wrN_preds (a : Wave) (m : Lanes) (d : Opd) (f : Nat → Nat → Word) : (a.puts (wrN m d 2 f)).p = a.p := by
  cases d <;> simp only [wrN, puts_nil]
  · rename_i n
    generalize lanesOf m = l
    induction l generalizing a with
    | nil => rfl
    | cons x r ih => rw [List.flatMap_cons, puts_append, ih]; rfl
  · split <;> rfl
theorem Wave.puts_p_regs (ws : List RegW) (h : ∀ w ∈ ws, ∃ n l x, w = .p n l x) : ∀ a : Wave, a.KeptRegs (a.puts ws) := by
  induction ws with
  | nil => intro a; exact ⟨fun _ _ => rfl, fun _ => rfl, fun _ => rfl⟩
  | cons w r ih =>
    intro a
    obtain ⟨n, l, x, rfl⟩ := h w List.mem_cons_self
    have := ih (fun w hw => h w (List.mem_cons_of_mem _ hw)) (a.put (.p n l x))
    exact ⟨fun n l => by rw [puts_cons, this.v, put_p_vr], fun n => by rw [puts_cons, this.s, put_p_sr],
      fun n => by rw [puts_cons, this.lc, put_p_lcr]⟩
theorem Ctx.mem_dstP (c : Ctx) (p : Pr) (f : Nat → Bool) : ∀ w ∈ c.dstP p f, ∃ n l x, w = RegW.p n l x := by
  intro w hw
  simp only [dstP] at hw
  split at hw
  · cases hw
  · simp only [List.mem_map] at hw
    obtain ⟨l, _, rfl⟩ := hw
    exact ⟨_, _, _, rfl⟩

/-! ### Settling the loops -/

/-- Stepping the loops moves threads, loop entries and loop counters, and leaves the rest of the wave alone (R138). -/
theorem Wave.settle_eq : ∀ (n : Nat) (a : Wave), ∃ x y z, Wave.settle n a = { a with thr := x, loops := y, lc := z }
  | 0, a => ⟨_, _, _, rfl⟩
  | n + 1, a => by
    unfold settle
    split
    · exact ⟨_, _, _, rfl⟩
    · simp only
      split
      · exact ⟨_, _, _, rfl⟩
      · split
        · obtain ⟨x, y, z, e⟩ := settle_eq n _
          rw [e]; exact ⟨x, y, z, rfl⟩
        · split
          · obtain ⟨x, y, z, e⟩ := settle_eq n _
            rw [e]; exact ⟨x, y, z, rfl⟩
          · obtain ⟨x, y, z, e⟩ := settle_eq n _
            rw [e]; exact ⟨x, y, z, rfl⟩
@[simp] theorem Wave.settle_ix (n : Nat) (a : Wave) : (Wave.settle n a).ix = a.ix := by
  obtain ⟨x, y, z, e⟩ := settle_eq n a
  rw [e]

/-- The wave after the loops have settled. -/
theorem settle_wave (s : State) (tag w : Nat) (wv : Wave) (h : s.wave? tag w = some wv) :
    (s.settle tag w).wave? tag w = some (Wave.settle 4 wv) := by
  unfold State.settle
  rw [State.wave?_updWave _ _ _ _ _ _ (Wave.settle_ix 4), if_pos ⟨rfl, rfl⟩, h]
  rfl

/-! ### Completion of `compute` -/

/-- The wave after an instruction that only computes: the writes on the registers as they stood, and the flags. -/
theorem computed (i : Instr) (s : State) (f : Ctx → List RegW × BitVec 8) (c : Ctx) (s' : State) (h : s.pre i = .go c s') :
    ∃ t wv, compute i s f = .next t ∧ t.wave? c.tag c.w = some (Wave.settle 4 wv) ∧
      (wv.v = (c.wv.puts (f c).1).v ∧ wv.s = (c.wv.puts (f c).1).s ∧ wv.lc = (c.wv.puts (f c).1).lc ∧ wv.p = (c.wv.puts (f c).1).p) ∧
      wv.fflags = c.wv.fflags ||| (f c).2.setWidth 64 := by
  obtain ⟨w0, h0, age, rfl⟩ := advance_wave s i c s' h
  have hr := result_wave (s'.advance c i) c i (f c).1 (f c).2 _ h0
  have hs := Ctx.advance_same c i c.wv age
  have hp := Wave.puts_regs (f c).1 { c.advance i c.wv with age := age } c.wv hs.v hs.s hs.lc hs.p
  refine ⟨_, _, compute_go s i f c s' h, settle_wave _ _ _ _ hr, hp, ?_⟩
  change ((Wave.puts { c.advance i c.wv with age := age } (f c).1).fflags ||| _) = _
  rw [Wave.puts_fflags, hs.fflags]

/-! ### The frame -/

theorem Wave.put_eq (wv : Wave) (x : RegW) : ∃ a b c d, wv.put x = { wv with v := a, s := b, p := c, lc := d } := by
  cases x <;> simp only [put]
  · exact ⟨_, _, _, _, rfl⟩
  · exact ⟨_, _, _, _, rfl⟩
  · split <;> exact ⟨_, _, _, _, rfl⟩
  · exact ⟨_, _, _, _, rfl⟩
/-- Writing registers changes nothing else of a wave. -/
theorem Wave.puts_eq : ∀ (ws : List RegW) (wv : Wave), ∃ a b c d, wv.puts ws = { wv with v := a, s := b, p := c, lc := d }
  | [], wv => ⟨_, _, _, _, rfl⟩
  | x :: r, wv => by
    obtain ⟨a, b, c, d, e⟩ := put_eq wv x
    obtain ⟨a', b', c', d', e'⟩ := puts_eq r (wv.put x)
    rw [puts_cons, e', e]
    exact ⟨a', b', c', d', rfl⟩

theorem Wave.spoil_acc (wv : Wave) (n : Nat) (f : MOpen → Bool) (h : wv.mopen = []) : (wv.spoil n f).acc = wv.acc := by
  simp [spoil, h]
/-- What the bookkeeping of an issue keeps. -/
theorem Ctx.advance_keptBut (c : Ctx) (i : Instr) (wv : Wave) (age : Sparse Nat) : wv.KeptBut { c.advance i wv with age := age } := by
  have hr : ∀ (rs : List Region) (f : Region → Prop) [DecidablePred f] (x y : Region → List (Reg × Lanes)),
      (rs.map (fun r => if f r then r.track (x r) (y r) else r)).map (fun r => (r.rid, r.sl, r.start, r.stores, r.undo))
        = rs.map (fun r => (r.rid, r.sl, r.start, r.stores, r.undo)) := by
    intro rs f _ x y
    rw [List.map_map]
    apply List.map_congr_left
    intro r _
    simp only [Function.comp]
    split <;> rfl
  simp only [Ctx.advance]
  split <;> split <;> exact ⟨rfl, rfl, rfl, rfl, rfl, rfl, rfl, rfl, rfl, rfl, rfl,
    hr _ (fun r => c.b.mask &&& sliceMask r.sl ≠ 0) _ _, rfl, rfl, rfl, fun h => by first | rfl | exact Wave.spoil_acc _ _ _ h⟩

theorem Wave.KeptBut.trans {a b c : Wave} (h : a.KeptBut b) (g : b.KeptBut c) (hm : a.mopen = [] → b.mopen = []) : a.KeptBut c :=
  ⟨g.ix.trans h.ix, g.slot.trans h.slot, g.ev.trans h.ev, g.fmode.trans h.fmode, g.tcause.trans h.tcause, g.taddr.trans h.taddr,
   g.tregion.trans h.tregion, g.waits.trans h.waits, g.holds.trans h.holds, g.handler.trans h.handler, g.trapQ.trans h.trapQ,
   g.stores.trans h.stores, g.bdesc.trans h.bdesc, g.walk.trans h.walk, g.scene.trans h.scene, fun e => (g.acc (hm e)).trans (h.acc e)⟩

/-- Changing one wave and the counters. -/
theorem State.OnlyWave.of_rest {s t : State} {tag w : Nat} (rest : { t with teams := s.teams, free := s.free, nextId := s.nextId } = s)
    (teams : ∀ k, k ≠ tag → t.team? k = s.team? k) (waves : ∀ k, k ≠ w → t.wave? tag k = s.wave? tag k)
    (team : ∀ a, s.team? tag = some a → ∃ b, t.team? tag = some b ∧ { b with waves := a.waves, regPoison := a.regPoison } = a) :
    s.OnlyWave t tag w := by
  have hu : ∀ x, t.undefAt x = s.undefAt x := fun x => by
    have e := congrArg (fun u => State.undefAt u x) rest
    exact e
  refine ⟨rest, teams, waves, team, hu, fun x hx => ?_⟩
  have e : t.mem.read (t.cell x) = s.mem.read (s.cell x) := by
    have e := congrArg (fun u : State => u.mem.read (u.cell x)) rest
    exact e
  unfold memAt
  rw [hu, hx, if_neg Bool.false_ne_true, if_neg Bool.false_ne_true, e]
theorem State.OnlyWave.refl (s : State) (tag w : Nat) : s.OnlyWave s tag w :=
  ⟨rfl, fun _ _ => rfl, fun _ _ => rfl, fun a h => ⟨a, h, rfl⟩, fun _ => rfl, fun _ _ => rfl⟩
theorem State.OnlyWave.trans {s t u : State} {tag w : Nat} (h : s.OnlyWave t tag w) (g : t.OnlyWave u tag w) : s.OnlyWave u tag w := by
  refine ⟨?_, fun k hk => (g.teams k hk).trans (h.teams k hk), fun k hk => (g.waves k hk).trans (h.waves k hk), fun a ha => ?_,
    fun x => (g.lost x).trans (h.lost x), fun x hx => (g.mem x ((h.lost x).trans hx)).trans (h.mem x hx)⟩
  · have h1 := h.rest; have h2 := g.rest
    rw [← h2] at h1
    exact h1
  · obtain ⟨b, hb, e1⟩ := h.team a ha
    obtain ⟨c, hc, e2⟩ := g.team b hb
    refine ⟨c, hc, ?_⟩
    rw [← e2] at e1
    exact e1
theorem State.onlyWave_updWave (s : State) (tag w : Nat) (f : Wave → Wave) (hf : ∀ x, (f x).ix = x.ix) : s.OnlyWave (s.updWave tag w f) tag w := by
  refine .of_rest rfl (fun k hk => ?_) (fun k hk => ?_) (fun a ha => ?_)
  · simp only [State.updWave]; rw [State.team?_updTeam s tag k (fun t => t.updWave w f) (fun _ => rfl), if_neg hk]
  · rw [State.wave?_updWave s tag w tag k f hf, if_neg (fun e => hk e.2)]
  · refine ⟨a.updWave w f, ?_, rfl⟩
    simp only [State.updWave]; rw [State.team?_updTeam s tag tag (fun t => t.updWave w f) (fun _ => rfl), if_pos rfl, ha]; rfl

/-- Beyond the pops, the bookkeeping of an issue changes the issuing wave only, but for an SFU instruction, which takes the SFU (R130). -/
theorem advance_onlyWave (s' : State) (i : Instr) (c : Ctx) (hs : isSfu i = false) : s'.OnlyWave (s'.advance c i) c.tag c.w := by
  have hb : s'.sfuTake c i = s'.sfuBusy := by simp [State.sfuTake, hs]
  unfold State.advance
  rw [hb]
  have := State.onlyWave_updWave s' c.tag c.w (fun wv => { c.advance i wv with age := s'.ages c.tm c.wv c.b.mask }) (fun x => (Ctx.advance_same c i x _).ix)
  exact .of_rest this.rest this.teams this.waves this.team
theorem settle_onlyWave (s : State) (tag w : Nat) : s.OnlyWave (s.settle tag w) tag w :=
  State.onlyWave_updWave s tag w _ (Wave.settle_ix 4)

/-- The frame of an instruction that only computes. -/
theorem compute_frame (i : Instr) (s : State) (f : Ctx → List RegW × BitVec 8) (c : Ctx) (s' : State) (h : s.pre i = .go c s')
    (hs : isSfu i = false) :
    ∃ t wv, compute i s f = .next t ∧ t.wave? c.tag c.w = some (Wave.settle 4 wv) ∧ c.wv.KeptBut wv ∧ s.Popped s' c.tag ∧ s'.OnlyWave t c.tag c.w := by
  obtain ⟨w0, h0, age, rfl⟩ := advance_wave s i c s' h
  have hr := result_wave (s'.advance c i) c i (f c).1 (f c).2 _ h0
  refine ⟨_, _, compute_go s i f c s' h, settle_wave _ _ _ _ hr, ?_, (pre_go s i c s' h).pops, ?_⟩
  · refine (Ctx.advance_keptBut c i c.wv age).trans ?_ ?_
    · obtain ⟨x1, x2, x3, x4, e⟩ := Wave.puts_eq (f c).1 { c.advance i c.wv with age := age }
      rw [e]
      exact ⟨rfl, rfl, rfl, rfl, rfl, rfl, rfl, rfl, rfl, rfl, rfl, rfl, rfl, rfl, rfl, fun _ => rfl⟩
    · intro hm
      simp only [Ctx.advance]
      split <;> split <;> simp [hm, Wave.spoil, Wave.setPcs, Wave.mapThr]
  · refine ((advance_onlyWave s' i c hs).trans ?_).trans (settle_onlyWave _ _ _)
    generalize s'.advance c i = u
    unfold State.result
    refine .of_rest rfl (fun k hk => ?_) (fun k hk => ?_) (fun a ha => ?_)
    · rw [State.team?_updTeam u c.tag k _ (by intro t; rfl), if_neg hk]
    · simp only [State.wave?]
      rw [State.team?_updTeam u c.tag c.tag _ (by intro t; rfl), if_pos rfl]
      cases u.team? c.tag with
      | none => rfl
      | some t =>
        simp only [Option.map_some, Option.bind_some]
        have hw : ∀ (t : Team) (w : Nat) (ws : List RegW) (k : Nat), (t.cleanRegs w ws).wave? k = t.wave? k := fun _ _ _ _ => rfl
        rw [hw, Team.wave?_updWave _ _ _ _ (by intro x; exact Wave.puts_ix (f c).1 x), if_neg hk]
    · have := State.team?_updTeam u c.tag c.tag (fun t =>
        (t.updWave c.w (fun wv =>
            let wv := (wv.puts (f c).1).mark (writtenLanes (f c).1) (c.cyc + i.latency)
            { wv with fflags := wv.fflags ||| (f c).2.setWidth 64 })).cleanRegs c.w (f c).1) (fun _ => rfl)
      rw [if_pos rfl, ha] at this
      exact ⟨_, this, rfl⟩

/-- No SFU instruction is among those that `computes` lists. -/
theorem isSfu_computes (i : Instr) (h : computes i = true) : isSfu i = false := by
  cases i <;> first | exact absurd h Bool.false_ne_true | rfl
/-- An instruction that `computes` lists is one `compute`. -/
theorem exec_computes (i : Instr) (h : computes i = true) (s : State) : ∃ f, exec i s = compute i s f := by
  cases i <;> first | exact absurd h Bool.false_ne_true | exact ⟨_, rfl⟩

/-! ### One lemma per form of result -/

theorem gives32_of (i : Instr) (d : Opd) (f : Ctx → Nat → Word) (fl : Ctx → BitVec 8)
    (he : ∀ s, exec i s = compute i s (fun c => (c.dst d (f c), fl c))) : Gives32 i d f fl := by
  intro s c s' h
  obtain ⟨t, wv, h1, h2, ⟨hv, hs, hl, hp⟩, hf⟩ := computed i s _ c s' h
  have g := Wave.got32_wr1 c.wv c.lanes d (f c)
  refine ⟨t, wv, by rw [he, h1], h2, ⟨fun n l hk => ?_, fun n => ?_, fun n => ?_⟩, fun n => ?_, hf⟩
  · rw [Wave.vr_congr hv, ← g.v n l hk]; rfl
  · rw [Wave.sr_congr hs, ← g.s n]; rfl
  · rw [Wave.lcr_congr hl, ← g.lc n]; rfl
  · exact (Wave.pr_congr hp n).trans (Wave.pr_congr (Wave.puts_wr1_preds c.wv c.lanes d (f c)) n)
theorem gives64_of (i : Instr) (d : Opd) (f : Ctx → Nat → DWord) (fl : Ctx → BitVec 8)
    (he : ∀ s, exec i s = compute i s (fun c => (c.dst64 d (f c), fl c))) : Gives64 i d f fl := by
  intro s c s' h
  obtain ⟨t, wv, h1, h2, ⟨hv, hs, hl, hp⟩, hf⟩ := computed i s _ c s' h
  have g := Wave.got64_wr64 c.wv c.lanes d (f c)
  refine ⟨t, wv, by rw [he, h1], h2, ⟨fun n l hk => ?_, fun n => ?_, fun n => ?_⟩, fun n => ?_, hf⟩
  · rw [Wave.vr_congr hv, ← g.v n l hk]; rfl
  · rw [Wave.sr_congr hs, ← g.s n]; rfl
  · rw [Wave.lcr_congr hl, ← g.lc n]; rfl
  · exact (Wave.pr_congr hp n).trans (Wave.pr_congr (Wave.puts_wr64_preds c.wv c.lanes d (f c)) n)
theorem gives64_ofN (i : Instr) (d : Opd) (f : Ctx → Nat → Nat → Word) (fl : Ctx → BitVec 8)
    (he : ∀ s, exec i s = compute i s (fun c => (c.dstN d 2 (f c), fl c))) : Gives64 i d (fun c l => f c 1 l ++ f c 0 l) fl := by
  intro s c s' h
  obtain ⟨t, wv, h1, h2, ⟨hv, hs, hl, hp⟩, hf⟩ := computed i s _ c s' h
  have g := Wave.got64_wrN c.wv c.lanes d (f c)
  refine ⟨t, wv, by rw [he, h1], h2, ⟨fun n l hk => ?_, fun n => ?_, fun n => ?_⟩, fun n => ?_, hf⟩
  · rw [Wave.vr_congr hv, ← g.v n l hk]; rfl
  · rw [Wave.sr_congr hs, ← g.s n]; rfl
  · rw [Wave.lcr_congr hl, ← g.lc n]; rfl
  · exact (Wave.pr_congr hp n).trans (Wave.pr_congr (Wave.puts_wrN_preds c.wv c.lanes d (f c)) n)
theorem givesP_of (i : Instr) (p : Pr) (f : Ctx → Nat → Bool) (fl : Ctx → BitVec 8)
    (he : ∀ s, exec i s = compute i s (fun c => (c.dstP p (f c), fl c))) : GivesP i p f fl := by
  intro s c s' h
  obtain ⟨t, wv, h1, h2, ⟨hv, hs, hl, hp⟩, hf⟩ := computed i s _ c s' h
  have g := Wave.puts_p_regs (c.dstP p (f c)) (Ctx.mem_dstP c p (f c)) c.wv
  refine ⟨t, wv, by rw [he, h1], h2, ⟨fun n l => ?_, fun n => ?_, fun n => ?_⟩, fun n l hk => ?_, hf⟩
  · rw [Wave.vr_congr hv, g.v]
  · rw [Wave.sr_congr hs, g.s]
  · rw [Wave.lcr_congr hl, g.lc]
  · rw [Wave.pr_congr hp, Wave.puts_dstP c c.wv p (f c) n l hk]

end Sys2Proof.Machine
end

