-- ==== Sys2Proof/Laws/Exec.lean ====
section
/-! SUPPORT. Sys2Proof/Laws/Exec.lean: every instruction of a wave is one issue of its effect (R72). -/
namespace Sys2Proof.Machine

theorem compute_issue (i : Instr) (s : State) (f : Ctx → List RegW × BitVec 8) : ∃ k, compute i s f = issue i s k := by unfold compute; exact ⟨_, rfl⟩
theorem alu_issue (i : Instr) (s : State) (d : Opd) (f : Ctx → Nat → Word) : ∃ k, alu i s d f = issue i s k := by unfold alu; exact compute_issue ..
theorem alu1_issue (i : Instr) (s : State) (d a : Opd) (f : Word → Word) : ∃ k, alu1 i s d a f = issue i s k := by unfold alu1; exact alu_issue ..
theorem alu2_issue (i : Instr) (s : State) (d a b : Opd) (f : Word → Word → Word) : ∃ k, alu2 i s d a b f = issue i s k := by unfold alu2; exact alu_issue ..
theorem alu3_issue (i : Instr) (s : State) (d a b x : Opd) (f : Word → Word → Word → Word) : ∃ k, alu3 i s d a b x f = issue i s k := by unfold alu3; exact alu_issue ..
theorem flt_issue (i : Instr) (s : State) (d : Opd) (f : Ctx → Nat → FR) : ∃ k, flt i s d f = issue i s k := by unfold flt; exact compute_issue ..
theorem pairOp_issue (i : Instr) (s : State) (d : Opd) (f : Ctx → Nat → (Word × Word) × BitVec 8) : ∃ k, pairOp i s d f = issue i s k := by unfold pairOp; exact compute_issue ..
theorem packed_issue (i : Instr) (s : State) (d a b x : Opd) (b0 : Bool) (f : Ctx → Nat → Nat → Nat → FR) : ∃ k, packed i s d a b x b0 f = issue i s k := by unfold packed; exact flt_issue ..
theorem plogic_issue (i : Instr) (s : State) (p a b : Pr) (na nb : Bool) (op : Bool → Bool → Bool) : ∃ k, plogic i s p a b na nb op = issue i s k := by unfold plogic; exact compute_issue ..
theorem sfuOp_issue (i : Instr) (s : State) (d a : Opd) (f : Ctx → Word → FR) : ∃ k, sfuOp i s d a f = issue i s k := by unfold sfuOp; exact ⟨_, rfl⟩
theorem endRegion_issue (i : Instr) (s : State) (f : Ctx → List DWord × List DWord × List DWord) : ∃ k, endRegion i s f = issue i s k := by unfold endRegion; exact ⟨_, rfl⟩
theorem load_issue (i : Instr) (s : State) (kind n align : Nat) (d a b : Opd) : ∃ k, load i s kind n align d a b = issue i s k := by unfold load; exact ⟨_, rfl⟩
theorem store_issue (i : Instr) (s : State) (kind : Nat) (v : StVia) (d a b : Opd) (ty : MTy) : ∃ k, store i s kind v d a b ty = issue i s k := by unfold store; exact ⟨_, rfl⟩
theorem storeCvt_issue (i : Instr) (s : State) (kind : Nat) (v : StVia) (d a b : Opd) (sf : Nat) (ty : MTy) : ∃ k, storeCvt i s kind v d a b sf ty = issue i s k := by unfold storeCvt; exact ⟨_, rfl⟩
theorem atomIssue_issue (i : Instr) (s : State) (a : Opd) (ls : Ctx → List Nat) (ty : MTy) (y z : Ctx → Nat → DWord) : ∃ k, atomIssue i s a ls ty y z = issue i s k := by unfold atomIssue; exact ⟨_, rfl⟩
theorem launderIssue_issue (i : Instr) (s : State) (a : Opd) (n : BitVec 4) (send : Bool) : ∃ k, launderIssue i s a n send = issue i s k := by unfold launderIssue; exact ⟨_, rfl⟩
theorem poolRead_issue (i : Instr) (s : State) (h : Ctx → Nat → Word) : ∃ k, poolRead i s h = issue i s k := by unfold poolRead; exact ⟨_, rfl⟩
theorem texIssue_issue (i : Instr) (s : State) (a b d : Opd) : ∃ k, texIssue i s a b d = issue i s k := by unfold texIssue; exact ⟨_, rfl⟩
theorem csrIssue_issue (i : Instr) (s : State) (a : Opd) : ∃ k, csrIssue i s a = issue i s k := by unfold csrIssue; exact ⟨_, rfl⟩
theorem rinvIssue_issue (i : Instr) (s : State) (a : Opd) (ev : Option (BitVec 3)) (y z : Ctx → List DWord) : ∃ k, rinvIssue i s a ev y z = issue i s k := by unfold rinvIssue; exact ⟨_, rfl⟩

/-- Every instruction of a wave is one `issue` of its effect. -/
theorem exec_issue (i : Instr) (hev : isEvent i = false) (s : State) : ∃ k, exec i s = issue i s k := by
  by_cases hc : computes i = true
  · obtain ⟨f, e⟩ := exec_computes i hc s
    exact e ▸ compute_issue i s f
  cases i with
  | nop h => exact (⟨_, rfl⟩ : ∃ eff, execNop h s = issue (.nop h) s eff)
  | bra h off => exact (⟨_, rfl⟩ : ∃ eff, execBra h off s = issue (.bra h off) s eff)
  | brx h a => exact (⟨_, rfl⟩ : ∃ eff, execBrx h a s = issue (.brx h a) s eff)
  | call h d off => exact (⟨_, rfl⟩ : ∃ eff, execCall h d off s = issue (.call h d off) s eff)
  | ret h a => exact (⟨_, rfl⟩ : ∃ eff, execRet h a s = issue (.ret h a) s eff)
  | join h => exact (⟨_, rfl⟩ : ∃ eff, execJoin h s = issue (.join h) s eff)
  | loop h d off => exact (⟨_, rfl⟩ : ∃ eff, execLoop h d off s = issue (.loop h d off) s eff)
  | lexit h off => exact (⟨_, rfl⟩ : ∃ eff, execLexit h off s = issue (.lexit h off) s eff)
  | exit h => exact (endRegion_issue .. : ∃ eff, execExit h s = issue (.exit h) s eff)
  | yield h => exact (endRegion_issue .. : ∃ eff, execYield h s = issue (.yield h) s eff)
  | wait h k mask => exact (⟨_, rfl⟩ : ∃ eff, execWait h k mask s = issue (.wait h k mask) s eff)
  | iadd _ _ _ _ _ => exact absurd rfl hc
  | isub _ _ _ _ _ => exact absurd rfl hc
  | imul _ _ _ _ => exact absurd rfl hc
  | imulh _ _ _ _ _ => exact absurd rfl hc
  | imad _ _ _ _ _ => exact absurd rfl hc
  | imin _ _ _ _ _ => exact absurd rfl hc
  | imax _ _ _ _ _ => exact absurd rfl hc
  | iabs _ _ _ _ => exact absurd rfl hc
  | icmp _ _ _ _ _ _ => exact absurd rfl hc
  | and _ _ _ _ => exact absurd rfl hc
  | or _ _ _ _ => exact absurd rfl hc
  | xor _ _ _ _ => exact absurd rfl hc
  | andn _ _ _ _ => exact absurd rfl hc
  | shl _ _ _ _ => exact absurd rfl hc
  | shr _ _ _ _ => exact absurd rfl hc
  | sar _ _ _ _ => exact absurd rfl hc
  | rot _ _ _ _ _ => exact absurd rfl hc
  | popc _ _ _ => exact absurd rfl hc
  | clz _ _ _ => exact absurd rfl hc
  | brev _ _ _ => exact absurd rfl hc
  | bfe _ _ _ _ _ _ => exact absurd rfl hc
  | bfi _ _ _ _ _ => exact absurd rfl hc
  | lea _ _ _ _ _ _ _ => exact absurd rfl hc
  | iaddw _ _ _ _ _ => exact absurd rfl hc
  | iaddc _ _ _ _ _ _ => exact absurd rfl hc
  | sad _ _ _ _ _ _ => exact absurd rfl hc
  | bsel _ _ _ _ _ => exact absurd rfl hc
  | idot4 _ _ _ _ _ _ _ _ => exact absurd rfl hc
  | fadd _ _ _ _ _ => exact absurd rfl hc
  | fsub _ _ _ _ _ => exact absurd rfl hc
  | fmul _ _ _ _ _ => exact absurd rfl hc
  | ffma _ _ _ _ _ _ => exact absurd rfl hc
  | fmin _ _ _ _ => exact absurd rfl hc
  | fmax _ _ _ _ => exact absurd rfl hc
  | fcmp _ _ _ _ _ => exact absurd rfl hc
  | frnd _ _ _ _ _ => exact absurd rfl hc
  | fclass _ _ _ => exact absurd rfl hc
  | fscale _ _ _ _ _ => exact absurd rfl hc
  | twosum _ _ _ _ => exact absurd rfl hc
  | twoprod _ _ _ _ => exact absurd rfl hc
  | faddp _ _ _ _ _ => exact absurd rfl hc
  | pkadd _ _ _ _ _ _ => exact absurd rfl hc
  | pkmul _ _ _ _ _ _ => exact absurd rfl hc
  | pkfma _ _ _ _ _ _ _ => exact absurd rfl hc
  | pkfmab _ _ _ _ _ _ _ => exact absurd rfl hc
  | rcp h d a rm => exact (sfuOp_issue .. : ∃ eff, execRcp h d a rm s = issue (.rcp h d a rm) s eff)
  | rsq h d a => exact (sfuOp_issue .. : ∃ eff, execRsq h d a s = issue (.rsq h d a) s eff)
  | sqrt h d a rm => exact (sfuOp_issue .. : ∃ eff, execSqrt h d a rm s = issue (.sqrt h d a rm) s eff)
  | exp2 h d a => exact (sfuOp_issue .. : ∃ eff, execExp2 h d a s = issue (.exp2 h d a) s eff)
  | log2 h d a => exact (sfuOp_issue .. : ∃ eff, execLog2 h d a s = issue (.log2 h d a) s eff)
  | sin h d a => exact (sfuOp_issue .. : ∃ eff, execSin h d a s = issue (.sin h d a) s eff)
  | cos h d a => exact (sfuOp_issue .. : ∃ eff, execCos h d a s = issue (.cos h d a) s eff)
  | tanh h d a => exact (sfuOp_issue .. : ∃ eff, execTanh h d a s = issue (.tanh h d a) s eff)
  | cvtif _ _ _ _ _ => exact absurd rfl hc
  | cvtfi _ _ _ _ _ => exact absurd rfl hc
  | cvtff _ _ _ _ _ => exact absurd rfl hc
  | packh _ _ _ _ _ _ => exact absurd rfl hc
  | unpkh _ _ _ _ _ => exact absurd rfl hc
  | decn h d a b f scl esc => exact (⟨_, rfl⟩ : ∃ eff, execDecn h d a b f scl esc s = issue (.decn h d a b f scl esc) s eff)
  | mov _ _ _ _ => exact absurd rfl hc
  | movi _ _ _ => exact absurd rfl hc
  | moviS _ _ _ => exact absurd rfl hc
  | moviHi _ _ _ => exact absurd rfl hc
  | sel _ _ _ _ _ _ => exact absurd rfl hc
  | pand _ _ _ _ _ _ => exact absurd rfl hc
  | por _ _ _ _ _ _ => exact absurd rfl hc
  | pxor _ _ _ _ _ _ => exact absurd rfl hc
  | pmov _ _ _ => exact absurd rfl hc
  | pmovNot _ _ _ => exact absurd rfl hc
  | pmovVal _ _ _ => exact absurd rfl hc
  | pmovNz _ _ _ => exact absurd rfl hc
  | pset _ _ _ _ => exact absurd rfl hc
  | psetPack _ _ _ _ => exact absurd rfl hc
  | smov _ _ _ _ _ => exact absurd rfl hc
  | lxch _ _ _ _ _ _ _ => exact absurd rfl hc
  | agree _ _ _ _ _ => exact absurd rfl hc
  | ballot _ _ _ _ _ => exact absurd rfl hc
  | wred _ _ _ _ _ _ => exact absurd rfl hc
  | wscan _ _ _ _ _ _ _ => exact absurd rfl hc
  | rebal _ _ _ _ => exact absurd rfl hc
  | csamp _ _ _ _ => exact absurd rfl hc
  | rand _ _ _ _ _ => exact absurd rfl hc
  | ld h d a b ty pol sc od => exact (load_issue .. : ∃ eff, execLd h d a b ty pol sc od s = issue (.ld h d a b ty pol sc od) s eff)
  | st _ _ _ _ _ _ _ _ _ => simp only [exec, execSt]; split <;> exact ⟨_, rfl⟩
  | lds h d a b ty pol sc od => exact (load_issue .. : ∃ eff, execLds h d a b ty pol sc od s = issue (.lds h d a b ty pol sc od) s eff)
  | sts _ _ _ _ _ _ _ _ _ => simp only [exec, execSts]; split <;> exact ⟨_, rfl⟩
  | ldw h d a b ty pol sc od => exact (load_issue .. : ∃ eff, execLdw h d a b ty pol sc od s = issue (.ldw h d a b ty pol sc od) s eff)
  | stw h d a b ty pol sc od => exact (store_issue .. : ∃ eff, execStw h d a b ty pol sc od s = issue (.stw h d a b ty pol sc od) s eff)
  | ldn h d a b ty pol sc od => exact (load_issue .. : ∃ eff, execLdn h d a b ty pol sc od s = issue (.ldn h d a b ty pol sc od) s eff)
  | qst h d a b c f mode ev => exact (⟨_, rfl⟩ : ∃ eff, execQst h d a b c f mode ev s = issue (.qst h d a b c f mode ev) s eff)
  | pref h a b pol => exact (⟨_, rfl⟩ : ∃ eff, execPref h a b pol s = issue (.pref h a b pol) s eff)
  | shbind h d a b ev => exact (⟨_, rfl⟩ : ∃ eff, execShbind h d a b ev s = issue (.shbind h d a b ev) s eff)
  | shfree h d a ev => exact (⟨_, rfl⟩ : ∃ eff, execShfree h d a ev s = issue (.shfree h d a ev) s eff)
  | cpy h a ev => exact (⟨_, rfl⟩ : ∃ eff, execCpy h a ev s = issue (.cpy h a ev) s eff)
  | aqstart h d ev => exact (⟨_, rfl⟩ : ∃ eff, execAqstart h d ev s = issue (.aqstart h d ev) s eff)
  | aqstop h d ev => exact (⟨_, rfl⟩ : ∃ eff, execAqstop h d ev s = issue (.aqstop h d ev) s eff)
  | aqstopQry h d a ev => exact (⟨_, rfl⟩ : ∃ eff, execAqstopQry h d a ev s = issue (.aqstopQry h d a ev) s eff)
  | ldc h d a b ty => exact (load_issue .. : ∃ eff, execLdc h d a b ty s = issue (.ldc h d a b ty) s eff)
  | atom h d a b op ty sc od => exact (atomIssue_issue .. : ∃ eff, execAtom h d a b op ty sc od s = issue (.atom h d a b op ty sc od) s eff)
  | acas _ _ _ _ _ _ _ => simp only [exec, execAcas]; exact atomIssue_issue ..
  | red h a b op ty sc od => exact (atomIssue_issue .. : ∃ eff, execRed h a b op ty sc od s = issue (.red h a b op ty sc od) s eff)
  | fence h sc od => exact (endRegion_issue .. : ∃ eff, execFence h sc od s = issue (.fence h sc od) s eff)
  | bar h a => exact (endRegion_issue .. : ∃ eff, execBar h a s = issue (.bar h a) s eff)
  | nbar h a => exact (endRegion_issue .. : ∃ eff, execNbar h a s = issue (.nbar h a) s eff)
  | slin h d a b => exact (endRegion_issue .. : ∃ eff, execSlin h d a b s = issue (.slin h d a b) s eff)
  | slout h d a => exact (endRegion_issue .. : ∃ eff, execSlout h d a s = issue (.slout h d a) s eff)
  | sloutLast h d a => exact (endRegion_issue .. : ∃ eff, execSloutLast h d a s = issue (.sloutLast h d a) s eff)
  | slqry h d a => exact (endRegion_issue .. : ∃ eff, execSlqry h d a s = issue (.slqry h d a) s eff)
  | slrst h d a b => exact (endRegion_issue .. : ∃ eff, execSlrst h d a b s = issue (.slrst h d a b) s eff)
  | slrstDel h d a => exact (endRegion_issue .. : ∃ eff, execSlrstDel h d a s = issue (.slrstDel h d a) s eff)
  | send h d a n => exact (launderIssue_issue .. : ∃ eff, execSend h d a n s = issue (.send h d a n) s eff)
  | recv h d a n => exact (launderIssue_issue .. : ∃ eff, execRecv h d a n s = issue (.recv h d a n) s eff)
  | mloadb h a b f scr ev => exact (⟨_, rfl⟩ : ∃ eff, execMloadb h a b f scr ev s = issue (.mloadb h a b f scr ev) s eff)
  | mma h a b nkm bank ev => exact (⟨_, rfl⟩ : ∃ eff, execMma h a b nkm bank ev s = issue (.mma h a b nkm bank ev) s eff)
  | mres h d g bank ev => exact (⟨_, rfl⟩ : ∃ eff, execMres h d g bank ev s = issue (.mres h d g bank ev) s eff)
  | mfence h sc => exact (⟨_, rfl⟩ : ∃ eff, execMfence h sc s = issue (.mfence h sc) s eff)
  | mwait h => exact (⟨_, rfl⟩ : ∃ eff, execMwait h s = issue (.mwait h) s eff)
  | had h a b c p ty ev => exact (⟨_, rfl⟩ : ∃ eff, execHad h a b c p ty ev s = issue (.had h a b c p ty ev) s eff)
  | twalk h d a b n ev => exact (⟨_, rfl⟩ : ∃ eff, execTwalk h d a b n ev s = issue (.twalk h d a b n ev) s eff)
  | tnext h d ev => exact (⟨_, rfl⟩ : ∃ eff, execTnext h d ev s = issue (.tnext h d ev) s eff)
  | mzero h bank bd => exact (⟨_, rfl⟩ : ∃ eff, execMzero h bank bd s = issue (.mzero h bank bd) s eff)
  | beam h d a ev => exact (⟨_, rfl⟩ : ∃ eff, execBeam h d a ev s = issue (.beam h d a ev) s eff)
  | bfrag h d a ev => exact (poolRead_issue .. : ∃ eff, execBfrag h d a ev s = issue (.bfrag h d a ev) s eff)
  | bdone h a => exact (⟨_, rfl⟩ : ∃ eff, execBdone h a s = issue (.bdone h a) s eff)
  | rays h d a b first sh ev => exact (⟨_, rfl⟩ : ∃ eff, execRays h d a b first sh ev s = issue (.rays h d a b first sh ev) s eff)
  | hitget h d a ev => exact (poolRead_issue .. : ∃ eff, execHitget h d a ev s = issue (.hitget h d a ev) s eff)
  | hitgetCand h d a ev => exact (poolRead_issue .. : ∃ eff, execHitgetCand h d a ev s = issue (.hitgetCand h d a ev) s eff)
  | hitacc h a b c => exact (⟨_, rfl⟩ : ∃ eff, execHitacc h a b c s = issue (.hitacc h a b c) s eff)
  | tex h d a b c nr ev => exact (texIssue_issue .. : ∃ eff, execTex h d a b c nr ev s = issue (.tex h d a b c nr ev) s eff)
  | texq h d a b c ev => exact (texIssue_issue .. : ∃ eff, execTexq h d a b c ev s = issue (.texq h d a b c ev) s eff)
  | bvhset h d a ev => exact (⟨_, rfl⟩ : ∃ eff, execBvhset h d a ev s = issue (.bvhset h d a ev) s eff)
  | launch h d a => exact (⟨_, rfl⟩ : ∃ eff, execLaunch h d a s = issue (.launch h d a) s eff)
  | wchild h d => exact (endRegion_issue .. : ∃ eff, execWchild h d s = issue (.wchild h d) s eff)
  | gsig h d a => exact (endRegion_issue .. : ∃ eff, execGsig h d a s = issue (.gsig h d a) s eff)
  | enrd h d => exact (⟨_, rfl⟩ : ∃ eff, execEnrd h d s = issue (.enrd h d) s eff)
  | enrdBal _ _ => exact absurd rfl hc
  | role _ _ _ => exact absurd rfl hc
  | roleId _ _ _ => exact absurd rfl hc
  | rolePos _ _ _ => exact absurd rfl hc
  | roleCnt _ _ => exact absurd rfl hc
  | trap h imm => exact (endRegion_issue .. : ∃ eff, execTrap h imm s = issue (.trap h imm) s eff)
  | rte h => exact (endRegion_issue .. : ∃ eff, execRte h s = issue (.rte h) s eff)
  | csrr _ _ _ => exact absurd rfl hc
  | csrw h d reg => exact (csrIssue_issue .. : ∃ eff, execCsrw h d reg s = issue (.csrw h d reg) s eff)
  | csrwSet h d reg => exact (csrIssue_issue .. : ∃ eff, execCsrwSet h d reg s = issue (.csrwSet h d reg) s eff)
  | csrwClr h d reg => exact (csrIssue_issue .. : ∃ eff, execCsrwClr h d reg s = issue (.csrwClr h d reg) s eff)
  | rinv h d a ev => exact (rinvIssue_issue .. : ∃ eff, execRinv h d a ev s = issue (.rinv h d a ev) s eff)
  | rinvRange h d a b c ev => exact (rinvIssue_issue .. : ∃ eff, execRinvRange h d a b c ev s = issue (.rinvRange h d a b c ev) s eff)
  | qctlQ h d a ev => exact (⟨_, rfl⟩ : ∃ eff, execQctlQ h d a ev s = issue (.qctlQ h d a ev) s eff)
  | qctlR h d a ev => exact (⟨_, rfl⟩ : ∃ eff, execQctlR h d a ev s = issue (.qctlR h d a ev) s eff)
  | qctlQry h d a ev => exact (⟨_, rfl⟩ : ∃ eff, execQctlQry h d a ev s = issue (.qctlQry h d a ev) s eff)
  | sfuResult _ _ _ => simp [isEvent, Instr.hdr?] at hev
  | loadComplete _ _ _ => simp [isEvent, Instr.hdr?] at hev
  | copyComplete _ => simp [isEvent, Instr.hdr?] at hev
  | streamPush _ => simp [isEvent, Instr.hdr?] at hev
  | qstComplete _ _ _ => simp [isEvent, Instr.hdr?] at hev
  | sluiceTimeout _ _ => simp [isEvent, Instr.hdr?] at hev
  | sluiceDeadlock _ => simp [isEvent, Instr.hdr?] at hev
  | mloadbComplete _ _ _ => simp [isEvent, Instr.hdr?] at hev
  | mmaComplete _ _ _ => simp [isEvent, Instr.hdr?] at hev
  | hadComplete _ _ _ => simp [isEvent, Instr.hdr?] at hev
  | beamTreeSettled _ _ => simp [isEvent, Instr.hdr?] at hev
  | raysSettled _ _ => simp [isEvent, Instr.hdr?] at hev
  | clauseEntry _ _ => simp [isEvent, Instr.hdr?] at hev
  | regionCommit _ _ _ => simp [isEvent, Instr.hdr?] at hev
  | sectorFill _ _ _ => simp [isEvent, Instr.hdr?] at hev
  | spillRefetch _ => simp [isEvent, Instr.hdr?] at hev
  | faultResolved _ _ => simp [isEvent, Instr.hdr?] at hev
  | faultSlotRetry _ => simp [isEvent, Instr.hdr?] at hev
  | recordTake _ _ => simp [isEvent, Instr.hdr?] at hev
  | nodeComplete _ => simp [isEvent, Instr.hdr?] at hev
  | gangPlace _ => simp [isEvent, Instr.hdr?] at hev
  | preemptSaved _ => simp [isEvent, Instr.hdr?] at hev
  | park _ => simp [isEvent, Instr.hdr?] at hev
  | teamRetire _ => simp [isEvent, Instr.hdr?] at hev
  | energyRefill  => simp [isEvent, Instr.hdr?] at hev
  | coreUncorrectableError _ _ => simp [isEvent, Instr.hdr?] at hev
  | schedulerCoreError _ => simp [isEvent, Instr.hdr?] at hev
  | rootCoreError  => simp [isEvent, Instr.hdr?] at hev
  | boot _ => simp [isEvent, Instr.hdr?] at hev
  | firmwareUpdate _ => simp [isEvent, Instr.hdr?] at hev
  | hostBar2Access _ _ _ => simp [isEvent, Instr.hdr?] at hev
  | atsInvalidate _ => simp [isEvent, Instr.hdr?] at hev
  | peerAccess _ _ _ => simp [isEvent, Instr.hdr?] at hev
  | linkCrcError _ _ _ => simp [isEvent, Instr.hdr?] at hev
  | qcfgWrite _ _ _ => simp [isEvent, Instr.hdr?] at hev
  | qidxWrite _ _ _ => simp [isEvent, Instr.hdr?] at hev
  | fqcfgWrite _ _ => simp [isEvent, Instr.hdr?] at hev
  | mqcfgWrite _ _ => simp [isEvent, Instr.hdr?] at hev
  | mqidxWrite _ _ => simp [isEvent, Instr.hdr?] at hev
  | acthWrite _ _ => simp [isEvent, Instr.hdr?] at hev
  | slcfgWrite _ _ => simp [isEvent, Instr.hdr?] at hev
  | cqcfgWrite _ _ => simp [isEvent, Instr.hdr?] at hev
  | cqidxWrite _ _ => simp [isEvent, Instr.hdr?] at hev
  | eqcfgWrite _ _ => simp [isEvent, Instr.hdr?] at hev
  | pqmaskWrite _ _ _ => simp [isEvent, Instr.hdr?] at hev
  | pwaysWrite _ _ _ => simp [isEvent, Instr.hdr?] at hev
  | nbndWrite _ _ _ => simp [isEvent, Instr.hdr?] at hev
  | prsvWrite _ _ _ => simp [isEvent, Instr.hdr?] at hev
  | asidvWrite _ _ _ => simp [isEvent, Instr.hdr?] at hev
  | pcapWrite _ _ _ => simp [isEvent, Instr.hdr?] at hev
  | fmodeWrite _ _ _ => simp [isEvent, Instr.hdr?] at hev
  | fflagsWrite _ _ _ => simp [isEvent, Instr.hdr?] at hev
  | registerWrite _ _ => simp [isEvent, Instr.hdr?] at hev
  | regionEndingResult _ _ _ => simp [isEvent, Instr.hdr?] at hev
  | texComplete _ _ _ => simp [isEvent, Instr.hdr?] at hev
  | bvhsetComplete _ _ _ => simp [isEvent, Instr.hdr?] at hev
  | shbindComplete _ _ _ => simp [isEvent, Instr.hdr?] at hev
  | tnextComplete _ _ _ _ => simp [isEvent, Instr.hdr?] at hev
  | mresComplete _ _ _ => simp [isEvent, Instr.hdr?] at hev
  | rinvComplete _ _ _ => simp [isEvent, Instr.hdr?] at hev
  | faultRecordFreed _ _ => simp [isEvent, Instr.hdr?] at hev
  | energyWrite _ _ _ => simp [isEvent, Instr.hdr?] at hev
  | schedulerCoreReloaded _ => simp [isEvent, Instr.hdr?] at hev
  | msixTableWrite _ _ _ => simp [isEvent, Instr.hdr?] at hev

end Sys2Proof.Machine
end

