-- ==== Sys2Proof/Laws/PerInstr.lean ====
section
/-! SUPPORT. Sys2Proof/Laws/PerInstr.lean: statements about each instruction as syntax. RoundTrip: the word that the encoder
gives a well-formed instruction decodes to that instruction, every operand and modifier at every value (03_code.md R55, R58,
Tables 3.2 to 3.6); an event has no word. -/
namespace Sys2Proof.Laws

/-- Decoding the word of a well-formed instruction gives the instruction back. -/
def RoundTrip.Statement (i : Instr) : Prop := ∀ w, encode i = some w → i.wf = true → decode w = .ok i

theorem RoundTrip.nop (h : Hdr) : RoundTrip.Statement (.nop h) := by
  intro w hw hf
  cases hw
  refine decode_of (Fields.ofWord_packA ..) rfl ((raw0 _ _ _ _ _ _ _ (by decide)).trans ((arm00 ..).trans ?_)) hf
  rfl

theorem RoundTrip.bra (h : Hdr) (off : BitVec 32) : RoundTrip.Statement (.bra h off) := by
  intro w hw hf
  cases hw
  refine decode_of (Fields.ofWord_packI ..) rfl ((raw0 _ _ _ _ _ _ _ (by decide)).trans ((arm01 ..).trans ?_)) hf
  simp only [Fields.fn4_packI, Fields.imm_packI]
  rfl

theorem RoundTrip.brx (h : Hdr) (a : Opd) : RoundTrip.Statement (.brx h a) := by
  intro w hw hf
  cases hw
  refine decode_of (Fields.ofWord_packA ..) rfl ((raw0 _ _ _ _ _ _ _ (by decide)).trans ((arm02 ..).trans ?_)) hf
  simp only [Opd.ofCode_code]
  rfl

theorem RoundTrip.call (h : Hdr) (d : Opd) (off : BitVec 32) : RoundTrip.Statement (.call h d off) := by
  intro w hw hf
  cases hw
  refine decode_of (Fields.ofWord_packI ..) rfl ((raw0 _ _ _ _ _ _ _ (by decide)).trans ((arm03 ..).trans ?_)) hf
  simp only [Opd.ofCode_code, Fields.fn4_packI, Fields.imm_packI]
  rfl

theorem RoundTrip.ret (h : Hdr) (a : Opd) : RoundTrip.Statement (.ret h a) := by
  intro w hw hf
  cases hw
  refine decode_of (Fields.ofWord_packA ..) rfl ((raw0 _ _ _ _ _ _ _ (by decide)).trans ((arm04 ..).trans ?_)) hf
  simp only [Opd.ofCode_code]
  rfl

theorem RoundTrip.join (h : Hdr) : RoundTrip.Statement (.join h) := by
  intro w hw hf
  cases hw
  refine decode_of (Fields.ofWord_packA ..) rfl ((raw0 _ _ _ _ _ _ _ (by decide)).trans ((arm05 ..).trans ?_)) hf
  rfl

theorem RoundTrip.loop (h : Hdr) (d : Opd) (off : BitVec 32) : RoundTrip.Statement (.loop h d off) := by
  intro w hw hf
  cases hw
  refine decode_of (Fields.ofWord_packI ..) rfl ((raw0 _ _ _ _ _ _ _ (by decide)).trans ((arm06 ..).trans ?_)) hf
  simp only [Opd.ofCode_code, Fields.fn4_packI, Fields.imm_packI]
  rfl

theorem RoundTrip.lexit (h : Hdr) (off : BitVec 32) : RoundTrip.Statement (.lexit h off) := by
  intro w hw hf
  cases hw
  refine decode_of (Fields.ofWord_packI ..) rfl ((raw0 _ _ _ _ _ _ _ (by decide)).trans ((arm07 ..).trans ?_)) hf
  simp only [Fields.fn4_packI, Fields.imm_packI]
  rfl

theorem RoundTrip.exit (h : Hdr) : RoundTrip.Statement (.exit h) := by
  intro w hw hf
  cases hw
  refine decode_of (Fields.ofWord_packA ..) rfl ((raw0 _ _ _ _ _ _ _ (by decide)).trans ((arm08 ..).trans ?_)) hf
  rfl

theorem RoundTrip.yield (h : Hdr) : RoundTrip.Statement (.yield h) := by
  intro w hw hf
  cases hw
  refine decode_of (Fields.ofWord_packA ..) rfl ((raw0 _ _ _ _ _ _ _ (by decide)).trans ((arm09 ..).trans ?_)) hf
  rfl

theorem RoundTrip.wait (h : Hdr) (k : BitVec 4) (mask : BitVec 8) : RoundTrip.Statement (.wait h k mask) := by
  intro w hw hf
  cases hw
  refine decode_of (Fields.ofWord_packA ..) rfl ((raw0 _ _ _ _ _ _ _ (by decide)).trans ((arm0A ..).trans ?_)) hf
  have hk : ∀ (k : BitVec 4) (mask : BitVec 8), (fld 4 (((k).setWidth 12 <<< 8) ||| ((mask).setWidth 12 <<< 0)) 8 = k) ∧ (fld 8 (((k).setWidth 12 <<< 8) ||| ((mask).setWidth 12 <<< 0)) 0 = mask) := by
    intro k mask
    (revert k mask; decide)
  simp only [hk k mask]
  rfl

theorem RoundTrip.iadd (h : Hdr) (d : Opd) (a : Opd) (b : Opd) (sat : SatMode) : RoundTrip.Statement (.iadd h d a b sat) := by
  intro w hw hf
  cases hw
  refine decode_of (Fields.ofWord_packA ..) rfl ((raw1 _ _ _ _ _ _ _ (by decide)).trans ((arm10 ..).trans ?_)) hf
  have hk : ∀ (sat : SatMode), (((((sat.toBits).setWidth 12 <<< 0)) &&& 0xFFC#12 == 0x000#12) = true) ∧ (SatMode.ofBits (fld 2 (((sat.toBits).setWidth 12 <<< 0)) 0) = some sat) := by
    intro sat
    cases sat <;> decide
  simp only [Opd.ofCode_code, hk sat]
  rfl

theorem RoundTrip.isub (h : Hdr) (d : Opd) (a : Opd) (b : Opd) (sat : SatMode) : RoundTrip.Statement (.isub h d a b sat) := by
  intro w hw hf
  cases hw
  refine decode_of (Fields.ofWord_packA ..) rfl ((raw1 _ _ _ _ _ _ _ (by decide)).trans ((arm11 ..).trans ?_)) hf
  have hk : ∀ (sat : SatMode), (((((sat.toBits).setWidth 12 <<< 0)) &&& 0xFFC#12 == 0x000#12) = true) ∧ (SatMode.ofBits (fld 2 (((sat.toBits).setWidth 12 <<< 0)) 0) = some sat) := by
    intro sat
    cases sat <;> decide
  simp only [Opd.ofCode_code, hk sat]
  rfl

theorem RoundTrip.imul (h : Hdr) (d : Opd) (a : Opd) (b : Opd) : RoundTrip.Statement (.imul h d a b) := by
  intro w hw hf
  cases hw
  refine decode_of (Fields.ofWord_packA ..) rfl ((raw1 _ _ _ _ _ _ _ (by decide)).trans ((arm12 ..).trans ?_)) hf
  simp only [Opd.ofCode_code]
  rfl

theorem RoundTrip.imulh (h : Hdr) (d : Opd) (a : Opd) (b : Opd) (sg : Bool) : RoundTrip.Statement (.imulh h d a b sg) := by
  intro w hw hf
  cases hw
  refine decode_of (Fields.ofWord_packA ..) rfl ((raw1 _ _ _ _ _ _ _ (by decide)).trans ((arm13 ..).trans ?_)) hf
  have hk : ∀ (sg : Bool), ((((((BitVec.ofBool sg)).setWidth 12 <<< 0)) &&& 0xFFE#12 == 0x000#12) = true) ∧ ((fld 1 ((((BitVec.ofBool sg)).setWidth 12 <<< 0)) 0 == 1#1) = sg) := by
    intro sg
    cases sg <;> decide
  simp only [Opd.ofCode_code, hk sg]
  rfl

theorem RoundTrip.imad (h : Hdr) (d : Opd) (a : Opd) (b : Opd) (c : Opd) : RoundTrip.Statement (.imad h d a b c) := by
  intro w hw hf
  cases hw
  refine decode_of (Fields.ofWord_packA ..) rfl ((raw1 _ _ _ _ _ _ _ (by decide)).trans ((arm14 ..).trans ?_)) hf
  simp only [Opd.ofCode_code]
  rfl

theorem RoundTrip.imin (h : Hdr) (d : Opd) (a : Opd) (b : Opd) (sg : Bool) : RoundTrip.Statement (.imin h d a b sg) := by
  intro w hw hf
  cases hw
  refine decode_of (Fields.ofWord_packA ..) rfl ((raw1 _ _ _ _ _ _ _ (by decide)).trans ((arm15 ..).trans ?_)) hf
  have hk : ∀ (sg : Bool), ((((((BitVec.ofBool sg)).setWidth 12 <<< 0)) &&& 0xFFE#12 == 0x000#12) = true) ∧ ((fld 1 ((((BitVec.ofBool sg)).setWidth 12 <<< 0)) 0 == 1#1) = sg) := by
    intro sg
    cases sg <;> decide
  simp only [Opd.ofCode_code, hk sg]
  rfl

theorem RoundTrip.imax (h : Hdr) (d : Opd) (a : Opd) (b : Opd) (sg : Bool) : RoundTrip.Statement (.imax h d a b sg) := by
  intro w hw hf
  cases hw
  refine decode_of (Fields.ofWord_packA ..) rfl ((raw1 _ _ _ _ _ _ _ (by decide)).trans ((arm16 ..).trans ?_)) hf
  have hk : ∀ (sg : Bool), ((((((BitVec.ofBool sg)).setWidth 12 <<< 0)) &&& 0xFFE#12 == 0x000#12) = true) ∧ ((fld 1 ((((BitVec.ofBool sg)).setWidth 12 <<< 0)) 0 == 1#1) = sg) := by
    intro sg
    cases sg <;> decide
  simp only [Opd.ofCode_code, hk sg]
  rfl

theorem RoundTrip.iabs (h : Hdr) (d : Opd) (a : Opd) (sat : Bool) : RoundTrip.Statement (.iabs h d a sat) := by
  intro w hw hf
  cases hw
  refine decode_of (Fields.ofWord_packA ..) rfl ((raw1 _ _ _ _ _ _ _ (by decide)).trans ((arm17 ..).trans ?_)) hf
  have hk : ∀ (sat : Bool), ((((((BitVec.ofBool sat)).setWidth 12 <<< 1)) &&& 0xFFD#12 == 0x000#12) = true) ∧ ((fld 1 ((((BitVec.ofBool sat)).setWidth 12 <<< 1)) 1 == 1#1) = sat) := by
    intro sat
    cases sat <;> decide
  simp only [Opd.ofCode_code, hk sat]
  rfl

theorem RoundTrip.icmp (h : Hdr) (d : Pr) (a : Opd) (b : Opd) (sg : Bool) (cc : Cmp) : RoundTrip.Statement (.icmp h d a b sg cc) := by
  intro w hw hf
  cases hw
  refine decode_of (Fields.ofWord_packA ..) rfl ((raw1 _ _ _ _ _ _ _ (by decide)).trans ((arm18 ..).trans ?_)) hf
  have hk : ∀ (sg : Bool) (cc : Cmp), ((((((BitVec.ofBool sg)).setWidth 12 <<< 0) ||| ((cc.toBits).setWidth 12 <<< 1)) &&& 0xFF0#12 == 0x000#12) = true) ∧ ((fld 1 ((((BitVec.ofBool sg)).setWidth 12 <<< 0) ||| ((cc.toBits).setWidth 12 <<< 1)) 0 == 1#1) = sg) ∧ (Cmp.ofBits (fld 3 ((((BitVec.ofBool sg)).setWidth 12 <<< 0) ||| ((cc.toBits).setWidth 12 <<< 1)) 1) = some cc) := by
    intro sg cc
    cases sg <;> cases cc <;> decide
  simp only [Opd.ofCode_code, prOf_prCode, hk sg cc]
  rfl

theorem RoundTrip.and (h : Hdr) (d : Opd) (a : Opd) (b : Opd) : RoundTrip.Statement (.and h d a b) := by
  intro w hw hf
  cases hw
  refine decode_of (Fields.ofWord_packA ..) rfl ((raw1 _ _ _ _ _ _ _ (by decide)).trans ((arm19 ..).trans ?_)) hf
  simp only [Opd.ofCode_code]
  rfl

theorem RoundTrip.or (h : Hdr) (d : Opd) (a : Opd) (b : Opd) : RoundTrip.Statement (.or h d a b) := by
  intro w hw hf
  cases hw
  refine decode_of (Fields.ofWord_packA ..) rfl ((raw1 _ _ _ _ _ _ _ (by decide)).trans ((arm1A ..).trans ?_)) hf
  simp only [Opd.ofCode_code]
  rfl

theorem RoundTrip.xor (h : Hdr) (d : Opd) (a : Opd) (b : Opd) : RoundTrip.Statement (.xor h d a b) := by
  intro w hw hf
  cases hw
  refine decode_of (Fields.ofWord_packA ..) rfl ((raw1 _ _ _ _ _ _ _ (by decide)).trans ((arm1B ..).trans ?_)) hf
  simp only [Opd.ofCode_code]
  rfl

theorem RoundTrip.andn (h : Hdr) (d : Opd) (a : Opd) (b : Opd) : RoundTrip.Statement (.andn h d a b) := by
  intro w hw hf
  cases hw
  refine decode_of (Fields.ofWord_packA ..) rfl ((raw1 _ _ _ _ _ _ _ (by decide)).trans ((arm1C ..).trans ?_)) hf
  simp only [Opd.ofCode_code]
  rfl

theorem RoundTrip.shl (h : Hdr) (d : Opd) (a : Opd) (b : Opd) : RoundTrip.Statement (.shl h d a b) := by
  intro w hw hf
  cases hw
  refine decode_of (Fields.ofWord_packA ..) rfl ((raw1 _ _ _ _ _ _ _ (by decide)).trans ((arm1D ..).trans ?_)) hf
  simp only [Opd.ofCode_code]
  rfl

theorem RoundTrip.shr (h : Hdr) (d : Opd) (a : Opd) (b : Opd) : RoundTrip.Statement (.shr h d a b) := by
  intro w hw hf
  cases hw
  refine decode_of (Fields.ofWord_packA ..) rfl ((raw1 _ _ _ _ _ _ _ (by decide)).trans ((arm1E ..).trans ?_)) hf
  simp only [Opd.ofCode_code]
  rfl

theorem RoundTrip.sar (h : Hdr) (d : Opd) (a : Opd) (b : Opd) : RoundTrip.Statement (.sar h d a b) := by
  intro w hw hf
  cases hw
  refine decode_of (Fields.ofWord_packA ..) rfl ((raw1 _ _ _ _ _ _ _ (by decide)).trans ((arm1F ..).trans ?_)) hf
  simp only [Opd.ofCode_code]
  rfl

theorem RoundTrip.rot (h : Hdr) (d : Opd) (a : Opd) (b : Opd) (right : Bool) : RoundTrip.Statement (.rot h d a b right) := by
  intro w hw hf
  cases hw
  refine decode_of (Fields.ofWord_packA ..) rfl ((raw2 _ _ _ _ _ _ _ (by decide)).trans ((arm20 ..).trans ?_)) hf
  have hk : ∀ (right : Bool), ((((((BitVec.ofBool right)).setWidth 12 <<< 0)) &&& 0xFFE#12 == 0x000#12) = true) ∧ ((fld 1 ((((BitVec.ofBool right)).setWidth 12 <<< 0)) 0 == 1#1) = right) := by
    intro right
    cases right <;> decide
  simp only [Opd.ofCode_code, hk right]
  rfl

theorem RoundTrip.popc (h : Hdr) (d : Opd) (a : Opd) : RoundTrip.Statement (.popc h d a) := by
  intro w hw hf
  cases hw
  refine decode_of (Fields.ofWord_packA ..) rfl ((raw2 _ _ _ _ _ _ _ (by decide)).trans ((arm21 ..).trans ?_)) hf
  simp only [Opd.ofCode_code]
  rfl

theorem RoundTrip.clz (h : Hdr) (d : Opd) (a : Opd) : RoundTrip.Statement (.clz h d a) := by
  intro w hw hf
  cases hw
  refine decode_of (Fields.ofWord_packA ..) rfl ((raw2 _ _ _ _ _ _ _ (by decide)).trans ((arm22 ..).trans ?_)) hf
  simp only [Opd.ofCode_code]
  rfl

theorem RoundTrip.brev (h : Hdr) (d : Opd) (a : Opd) : RoundTrip.Statement (.brev h d a) := by
  intro w hw hf
  cases hw
  refine decode_of (Fields.ofWord_packA ..) rfl ((raw2 _ _ _ _ _ _ _ (by decide)).trans ((arm23 ..).trans ?_)) hf
  simp only [Opd.ofCode_code]
  rfl

theorem RoundTrip.bfe (h : Hdr) (d : Opd) (a : Opd) (b : Opd) (c : Opd) (sg : Bool) : RoundTrip.Statement (.bfe h d a b c sg) := by
  intro w hw hf
  cases hw
  refine decode_of (Fields.ofWord_packA ..) rfl ((raw2 _ _ _ _ _ _ _ (by decide)).trans ((arm24 ..).trans ?_)) hf
  have hk : ∀ (sg : Bool), ((((((BitVec.ofBool sg)).setWidth 12 <<< 0)) &&& 0xFFE#12 == 0x000#12) = true) ∧ ((fld 1 ((((BitVec.ofBool sg)).setWidth 12 <<< 0)) 0 == 1#1) = sg) := by
    intro sg
    cases sg <;> decide
  simp only [Opd.ofCode_code, hk sg]
  rfl

theorem RoundTrip.bfi (h : Hdr) (d : Opd) (a : Opd) (b : Opd) (c : Opd) : RoundTrip.Statement (.bfi h d a b c) := by
  intro w hw hf
  cases hw
  refine decode_of (Fields.ofWord_packA ..) rfl ((raw2 _ _ _ _ _ _ _ (by decide)).trans ((arm25 ..).trans ?_)) hf
  simp only [Opd.ofCode_code]
  rfl

theorem RoundTrip.lea (h : Hdr) (d : Opd) (a : Opd) (b : Opd) (k : BitVec 5) (w : Bool) (sg : Bool) : RoundTrip.Statement (.lea h d a b k w sg) := by
  intro w hw hf
  cases hw
  refine decode_of (Fields.ofWord_packA ..) rfl ((raw2 _ _ _ _ _ _ _ (by decide)).trans ((arm26 ..).trans ?_)) hf
  have hk : ∀ (k : BitVec 5) (w : Bool) (sg : Bool), (((((k).setWidth 12 <<< 0) ||| (((BitVec.ofBool w)).setWidth 12 <<< 5) ||| (((BitVec.ofBool sg)).setWidth 12 <<< 6)) &&& 0xF80#12 == 0x000#12) = true) ∧ (fld 5 (((k).setWidth 12 <<< 0) ||| (((BitVec.ofBool w)).setWidth 12 <<< 5) ||| (((BitVec.ofBool sg)).setWidth 12 <<< 6)) 0 = k) ∧ ((fld 1 (((k).setWidth 12 <<< 0) ||| (((BitVec.ofBool w)).setWidth 12 <<< 5) ||| (((BitVec.ofBool sg)).setWidth 12 <<< 6)) 5 == 1#1) = w) ∧ ((fld 1 (((k).setWidth 12 <<< 0) ||| (((BitVec.ofBool w)).setWidth 12 <<< 5) ||| (((BitVec.ofBool sg)).setWidth 12 <<< 6)) 6 == 1#1) = sg) := by
    intro k w sg
    cases w <;> cases sg <;> (revert k; decide)
  simp only [Opd.ofCode_code, hk k w sg]
  rfl

theorem RoundTrip.iaddw (h : Hdr) (d : Opd) (a : Opd) (b : Opd) (wb : WideB) : RoundTrip.Statement (.iaddw h d a b wb) := by
  intro w hw hf
  cases hw
  refine decode_of (Fields.ofWord_packA ..) rfl ((raw2 _ _ _ _ _ _ _ (by decide)).trans ((arm27 ..).trans ?_)) hf
  have hk : ∀ (wb : WideB), (((((wb.toBits).setWidth 12 <<< 0)) &&& 0xFFC#12 == 0x000#12) = true) ∧ (WideB.ofBits (fld 2 (((wb.toBits).setWidth 12 <<< 0)) 0) = some wb) := by
    intro wb
    cases wb <;> decide
  simp only [Opd.ofCode_code, hk wb]
  rfl

theorem RoundTrip.iaddc (h : Hdr) (d : Opd) (a : Opd) (b : Opd) (c : Pr) (sub : Bool) : RoundTrip.Statement (.iaddc h d a b c sub) := by
  intro w hw hf
  cases hw
  refine decode_of (Fields.ofWord_packA ..) rfl ((raw2 _ _ _ _ _ _ _ (by decide)).trans ((arm28 ..).trans ?_)) hf
  have hk : ∀ (sub : Bool), ((((((BitVec.ofBool sub)).setWidth 12 <<< 0)) &&& 0xFFE#12 == 0x000#12) = true) ∧ ((fld 1 ((((BitVec.ofBool sub)).setWidth 12 <<< 0)) 0 == 1#1) = sub) := by
    intro sub
    cases sub <;> decide
  simp only [Opd.ofCode_code, prOf_prCode, hk sub]
  rfl

theorem RoundTrip.sad (h : Hdr) (d : Opd) (a : Opd) (b : Opd) (c : Opd) (sg : Bool) : RoundTrip.Statement (.sad h d a b c sg) := by
  intro w hw hf
  cases hw
  refine decode_of (Fields.ofWord_packA ..) rfl ((raw2 _ _ _ _ _ _ _ (by decide)).trans ((arm29 ..).trans ?_)) hf
  have hk : ∀ (sg : Bool), ((((((BitVec.ofBool sg)).setWidth 12 <<< 0)) &&& 0xFFE#12 == 0x000#12) = true) ∧ ((fld 1 ((((BitVec.ofBool sg)).setWidth 12 <<< 0)) 0 == 1#1) = sg) := by
    intro sg
    cases sg <;> decide
  simp only [Opd.ofCode_code, hk sg]
  rfl

theorem RoundTrip.bsel (h : Hdr) (d : Opd) (a : Opd) (b : Opd) (c : Opd) : RoundTrip.Statement (.bsel h d a b c) := by
  intro w hw hf
  cases hw
  refine decode_of (Fields.ofWord_packA ..) rfl ((raw2 _ _ _ _ _ _ _ (by decide)).trans ((arm2A ..).trans ?_)) hf
  simp only [Opd.ofCode_code]
  rfl

theorem RoundTrip.idot4 (h : Hdr) (d : Opd) (a : Opd) (b : Opd) (c : Opd) (sa : Bool) (sb : Bool) (sat : Bool) : RoundTrip.Statement (.idot4 h d a b c sa sb sat) := by
  intro w hw hf
  cases hw
  refine decode_of (Fields.ofWord_packA ..) rfl ((raw2 _ _ _ _ _ _ _ (by decide)).trans ((arm2B ..).trans ?_)) hf
  have hk : ∀ (sa : Bool) (sb : Bool) (sat : Bool), ((((((BitVec.ofBool sa)).setWidth 12 <<< 0) ||| (((BitVec.ofBool sb)).setWidth 12 <<< 1) ||| (((BitVec.ofBool sat)).setWidth 12 <<< 2)) &&& 0xFF8#12 == 0x000#12) = true) ∧ ((fld 1 ((((BitVec.ofBool sa)).setWidth 12 <<< 0) ||| (((BitVec.ofBool sb)).setWidth 12 <<< 1) ||| (((BitVec.ofBool sat)).setWidth 12 <<< 2)) 0 == 1#1) = sa) ∧ ((fld 1 ((((BitVec.ofBool sa)).setWidth 12 <<< 0) ||| (((BitVec.ofBool sb)).setWidth 12 <<< 1) ||| (((BitVec.ofBool sat)).setWidth 12 <<< 2)) 1 == 1#1) = sb) ∧ ((fld 1 ((((BitVec.ofBool sa)).setWidth 12 <<< 0) ||| (((BitVec.ofBool sb)).setWidth 12 <<< 1) ||| (((BitVec.ofBool sat)).setWidth 12 <<< 2)) 2 == 1#1) = sat) := by
    intro sa sb sat
    cases sa <;> cases sb <;> cases sat <;> decide
  simp only [Opd.ofCode_code, hk sa sb sat]
  rfl

theorem RoundTrip.fadd (h : Hdr) (d : Opd) (a : Opd) (b : Opd) (rm : Rm) : RoundTrip.Statement (.fadd h d a b rm) := by
  intro w hw hf
  cases hw
  refine decode_of (Fields.ofWord_packA ..) rfl ((raw3 _ _ _ _ _ _ _ (by decide)).trans ((arm30 ..).trans ?_)) hf
  have hk : ∀ (rm : Rm), (((((rm.toBits).setWidth 12 <<< 0)) &&& 0xFF8#12 == 0x000#12) = true) ∧ (Rm.ofBits (fld 3 (((rm.toBits).setWidth 12 <<< 0)) 0) = some rm) := by
    intro rm
    cases rm <;> decide
  simp only [Opd.ofCode_code, hk rm]
  rfl

theorem RoundTrip.fsub (h : Hdr) (d : Opd) (a : Opd) (b : Opd) (rm : Rm) : RoundTrip.Statement (.fsub h d a b rm) := by
  intro w hw hf
  cases hw
  refine decode_of (Fields.ofWord_packA ..) rfl ((raw3 _ _ _ _ _ _ _ (by decide)).trans ((arm31 ..).trans ?_)) hf
  have hk : ∀ (rm : Rm), (((((rm.toBits).setWidth 12 <<< 0)) &&& 0xFF8#12 == 0x000#12) = true) ∧ (Rm.ofBits (fld 3 (((rm.toBits).setWidth 12 <<< 0)) 0) = some rm) := by
    intro rm
    cases rm <;> decide
  simp only [Opd.ofCode_code, hk rm]
  rfl

theorem RoundTrip.fmul (h : Hdr) (d : Opd) (a : Opd) (b : Opd) (rm : Rm) : RoundTrip.Statement (.fmul h d a b rm) := by
  intro w hw hf
  cases hw
  refine decode_of (Fields.ofWord_packA ..) rfl ((raw3 _ _ _ _ _ _ _ (by decide)).trans ((arm32 ..).trans ?_)) hf
  have hk : ∀ (rm : Rm), (((((rm.toBits).setWidth 12 <<< 0)) &&& 0xFF8#12 == 0x000#12) = true) ∧ (Rm.ofBits (fld 3 (((rm.toBits).setWidth 12 <<< 0)) 0) = some rm) := by
    intro rm
    cases rm <;> decide
  simp only [Opd.ofCode_code, hk rm]
  rfl

theorem RoundTrip.ffma (h : Hdr) (d : Opd) (a : Opd) (b : Opd) (c : Opd) (rm : Rm) : RoundTrip.Statement (.ffma h d a b c rm) := by
  intro w hw hf
  cases hw
  refine decode_of (Fields.ofWord_packA ..) rfl ((raw3 _ _ _ _ _ _ _ (by decide)).trans ((arm33 ..).trans ?_)) hf
  have hk : ∀ (rm : Rm), (((((rm.toBits).setWidth 12 <<< 0)) &&& 0xFF8#12 == 0x000#12) = true) ∧ (Rm.ofBits (fld 3 (((rm.toBits).setWidth 12 <<< 0)) 0) = some rm) := by
    intro rm
    cases rm <;> decide
  simp only [Opd.ofCode_code, hk rm]
  rfl

theorem RoundTrip.fmin (h : Hdr) (d : Opd) (a : Opd) (b : Opd) : RoundTrip.Statement (.fmin h d a b) := by
  intro w hw hf
  cases hw
  refine decode_of (Fields.ofWord_packA ..) rfl ((raw3 _ _ _ _ _ _ _ (by decide)).trans ((arm34 ..).trans ?_)) hf
  simp only [Opd.ofCode_code]
  rfl

theorem RoundTrip.fmax (h : Hdr) (d : Opd) (a : Opd) (b : Opd) : RoundTrip.Statement (.fmax h d a b) := by
  intro w hw hf
  cases hw
  refine decode_of (Fields.ofWord_packA ..) rfl ((raw3 _ _ _ _ _ _ _ (by decide)).trans ((arm35 ..).trans ?_)) hf
  simp only [Opd.ofCode_code]
  rfl

theorem RoundTrip.fcmp (h : Hdr) (d : Pr) (a : Opd) (b : Opd) (cc : FCond) : RoundTrip.Statement (.fcmp h d a b cc) := by
  intro w hw hf
  cases hw
  refine decode_of (Fields.ofWord_packA ..) rfl ((raw3 _ _ _ _ _ _ _ (by decide)).trans ((arm36 ..).trans ?_)) hf
  have hk : ∀ (cc : FCond), (((((cc.toBits).setWidth 12 <<< 0)) &&& 0xFF8#12 == 0x000#12) = true) ∧ (FCond.ofBits (fld 3 (((cc.toBits).setWidth 12 <<< 0)) 0) = some cc) := by
    intro cc
    cases cc <;> decide
  simp only [Opd.ofCode_code, prOf_prCode, hk cc]
  rfl

theorem RoundTrip.frnd (h : Hdr) (d : Opd) (a : Opd) (rm : Rm) (x : Bool) : RoundTrip.Statement (.frnd h d a rm x) := by
  intro w hw hf
  cases hw
  refine decode_of (Fields.ofWord_packA ..) rfl ((raw3 _ _ _ _ _ _ _ (by decide)).trans ((arm37 ..).trans ?_)) hf
  have hk : ∀ (rm : Rm) (x : Bool), (((((rm.toBits).setWidth 12 <<< 0) ||| (((BitVec.ofBool x)).setWidth 12 <<< 3)) &&& 0xFF0#12 == 0x000#12) = true) ∧ (Rm.ofBits (fld 3 (((rm.toBits).setWidth 12 <<< 0) ||| (((BitVec.ofBool x)).setWidth 12 <<< 3)) 0) = some rm) ∧ ((fld 1 (((rm.toBits).setWidth 12 <<< 0) ||| (((BitVec.ofBool x)).setWidth 12 <<< 3)) 3 == 1#1) = x) := by
    intro rm x
    cases rm <;> cases x <;> decide
  simp only [Opd.ofCode_code, hk rm x]
  rfl

theorem RoundTrip.fclass (h : Hdr) (d : Opd) (a : Opd) : RoundTrip.Statement (.fclass h d a) := by
  intro w hw hf
  cases hw
  refine decode_of (Fields.ofWord_packA ..) rfl ((raw3 _ _ _ _ _ _ _ (by decide)).trans ((arm38 ..).trans ?_)) hf
  simp only [Opd.ofCode_code]
  rfl

theorem RoundTrip.fscale (h : Hdr) (d : Opd) (a : Opd) (b : Opd) (rm : Rm) : RoundTrip.Statement (.fscale h d a b rm) := by
  intro w hw hf
  cases hw
  refine decode_of (Fields.ofWord_packA ..) rfl ((raw3 _ _ _ _ _ _ _ (by decide)).trans ((arm39 ..).trans ?_)) hf
  have hk : ∀ (rm : Rm), (((((rm.toBits).setWidth 12 <<< 0)) &&& 0xFF8#12 == 0x000#12) = true) ∧ (Rm.ofBits (fld 3 (((rm.toBits).setWidth 12 <<< 0)) 0) = some rm) := by
    intro rm
    cases rm <;> decide
  simp only [Opd.ofCode_code, hk rm]
  rfl

theorem RoundTrip.twosum (h : Hdr) (d : Opd) (a : Opd) (b : Opd) : RoundTrip.Statement (.twosum h d a b) := by
  intro w hw hf
  cases hw
  refine decode_of (Fields.ofWord_packA ..) rfl ((raw3 _ _ _ _ _ _ _ (by decide)).trans ((arm3A ..).trans ?_)) hf
  simp only [Opd.ofCode_code]
  rfl

theorem RoundTrip.twoprod (h : Hdr) (d : Opd) (a : Opd) (b : Opd) : RoundTrip.Statement (.twoprod h d a b) := by
  intro w hw hf
  cases hw
  refine decode_of (Fields.ofWord_packA ..) rfl ((raw3 _ _ _ _ _ _ _ (by decide)).trans ((arm3B ..).trans ?_)) hf
  simp only [Opd.ofCode_code]
  rfl

theorem RoundTrip.faddp (h : Hdr) (d : Opd) (a : Opd) (b : Opd) (one : Bool) : RoundTrip.Statement (.faddp h d a b one) := by
  intro w hw hf
  cases hw
  refine decode_of (Fields.ofWord_packA ..) rfl ((raw3 _ _ _ _ _ _ _ (by decide)).trans ((arm3C ..).trans ?_)) hf
  have hk : ∀ (one : Bool), ((((((BitVec.ofBool one)).setWidth 12 <<< 0)) &&& 0xFFE#12 == 0x000#12) = true) ∧ ((fld 1 ((((BitVec.ofBool one)).setWidth 12 <<< 0)) 0 == 1#1) = one) := by
    intro one
    cases one <;> decide
  simp only [Opd.ofCode_code, hk one]
  rfl

theorem RoundTrip.pkadd (h : Hdr) (d : Opd) (a : Opd) (b : Opd) (rm : Rm) (b0 : Bool) : RoundTrip.Statement (.pkadd h d a b rm b0) := by
  intro w hw hf
  cases hw
  refine decode_of (Fields.ofWord_packA ..) rfl ((raw3 _ _ _ _ _ _ _ (by decide)).trans ((arm3D ..).trans ?_)) hf
  have hk : ∀ (rm : Rm) (b0 : Bool), (((((rm.toBits).setWidth 12 <<< 0) ||| (((BitVec.ofBool b0)).setWidth 12 <<< 3)) &&& 0xFF0#12 == 0x000#12) = true) ∧ (Rm.ofBits (fld 3 (((rm.toBits).setWidth 12 <<< 0) ||| (((BitVec.ofBool b0)).setWidth 12 <<< 3)) 0) = some rm) ∧ ((fld 1 (((rm.toBits).setWidth 12 <<< 0) ||| (((BitVec.ofBool b0)).setWidth 12 <<< 3)) 3 == 1#1) = b0) := by
    intro rm b0
    cases rm <;> cases b0 <;> decide
  simp only [Opd.ofCode_code, hk rm b0]
  rfl

theorem RoundTrip.pkmul (h : Hdr) (d : Opd) (a : Opd) (b : Opd) (rm : Rm) (b0 : Bool) : RoundTrip.Statement (.pkmul h d a b rm b0) := by
  intro w hw hf
  cases hw
  refine decode_of (Fields.ofWord_packA ..) rfl ((raw3 _ _ _ _ _ _ _ (by decide)).trans ((arm3E ..).trans ?_)) hf
  have hk : ∀ (rm : Rm) (b0 : Bool), (((((rm.toBits).setWidth 12 <<< 0) ||| (((BitVec.ofBool b0)).setWidth 12 <<< 3)) &&& 0xFF0#12 == 0x000#12) = true) ∧ (Rm.ofBits (fld 3 (((rm.toBits).setWidth 12 <<< 0) ||| (((BitVec.ofBool b0)).setWidth 12 <<< 3)) 0) = some rm) ∧ ((fld 1 (((rm.toBits).setWidth 12 <<< 0) ||| (((BitVec.ofBool b0)).setWidth 12 <<< 3)) 3 == 1#1) = b0) := by
    intro rm b0
    cases rm <;> cases b0 <;> decide
  simp only [Opd.ofCode_code, hk rm b0]
  rfl

theorem RoundTrip.pkfma (h : Hdr) (d : Opd) (a : Opd) (b : Opd) (c : Opd) (rm : Rm) (b0 : Bool) : RoundTrip.Statement (.pkfma h d a b c rm b0) := by
  intro w hw hf
  cases hw
  refine decode_of (Fields.ofWord_packA ..) rfl ((raw3 _ _ _ _ _ _ _ (by decide)).trans ((arm3F ..).trans ?_)) hf
  have hk : ∀ (rm : Rm) (b0 : Bool), (((((rm.toBits).setWidth 12 <<< 0) ||| (((BitVec.ofBool b0)).setWidth 12 <<< 3)) &&& 0xFF0#12 == 0x000#12) = true) ∧ (Rm.ofBits (fld 3 (((rm.toBits).setWidth 12 <<< 0) ||| (((BitVec.ofBool b0)).setWidth 12 <<< 3)) 0) = some rm) ∧ ((fld 1 (((rm.toBits).setWidth 12 <<< 0) ||| (((BitVec.ofBool b0)).setWidth 12 <<< 3)) 3 == 1#1) = b0) := by
    intro rm b0
    cases rm <;> cases b0 <;> decide
  simp only [Opd.ofCode_code, hk rm b0]
  rfl

theorem RoundTrip.pkfmab (h : Hdr) (d : Opd) (a : Opd) (b : Opd) (c : Opd) (rm : Rm) (b0 : Bool) : RoundTrip.Statement (.pkfmab h d a b c rm b0) := by
  intro w hw hf
  cases hw
  refine decode_of (Fields.ofWord_packA ..) rfl ((raw4 _ _ _ _ _ _ _ (by decide)).trans ((arm40 ..).trans ?_)) hf
  have hk : ∀ (rm : Rm) (b0 : Bool), (((((rm.toBits).setWidth 12 <<< 0) ||| (((BitVec.ofBool b0)).setWidth 12 <<< 3)) &&& 0xFF0#12 == 0x000#12) = true) ∧ (Rm.ofBits (fld 3 (((rm.toBits).setWidth 12 <<< 0) ||| (((BitVec.ofBool b0)).setWidth 12 <<< 3)) 0) = some rm) ∧ ((fld 1 (((rm.toBits).setWidth 12 <<< 0) ||| (((BitVec.ofBool b0)).setWidth 12 <<< 3)) 3 == 1#1) = b0) := by
    intro rm b0
    cases rm <;> cases b0 <;> decide
  simp only [Opd.ofCode_code, hk rm b0]
  rfl

theorem RoundTrip.rcp (h : Hdr) (d : Opd) (a : Opd) (rm : Rm) : RoundTrip.Statement (.rcp h d a rm) := by
  intro w hw hf
  cases hw
  refine decode_of (Fields.ofWord_packA ..) rfl ((raw5 _ _ _ _ _ _ _ (by decide)).trans ((arm50 ..).trans ?_)) hf
  have hk : ∀ (rm : Rm), (((((rm.toBits).setWidth 12 <<< 0)) &&& 0xFF8#12 == 0x000#12) = true) ∧ (Rm.ofBits (fld 3 (((rm.toBits).setWidth 12 <<< 0)) 0) = some rm) := by
    intro rm
    cases rm <;> decide
  simp only [Opd.ofCode_code, hk rm]
  rfl

theorem RoundTrip.rsq (h : Hdr) (d : Opd) (a : Opd) : RoundTrip.Statement (.rsq h d a) := by
  intro w hw hf
  cases hw
  refine decode_of (Fields.ofWord_packA ..) rfl ((raw5 _ _ _ _ _ _ _ (by decide)).trans ((arm51 ..).trans ?_)) hf
  simp only [Opd.ofCode_code]
  rfl

theorem RoundTrip.sqrt (h : Hdr) (d : Opd) (a : Opd) (rm : Rm) : RoundTrip.Statement (.sqrt h d a rm) := by
  intro w hw hf
  cases hw
  refine decode_of (Fields.ofWord_packA ..) rfl ((raw5 _ _ _ _ _ _ _ (by decide)).trans ((arm52 ..).trans ?_)) hf
  have hk : ∀ (rm : Rm), (((((rm.toBits).setWidth 12 <<< 0)) &&& 0xFF8#12 == 0x000#12) = true) ∧ (Rm.ofBits (fld 3 (((rm.toBits).setWidth 12 <<< 0)) 0) = some rm) := by
    intro rm
    cases rm <;> decide
  simp only [Opd.ofCode_code, hk rm]
  rfl

theorem RoundTrip.exp2 (h : Hdr) (d : Opd) (a : Opd) : RoundTrip.Statement (.exp2 h d a) := by
  intro w hw hf
  cases hw
  refine decode_of (Fields.ofWord_packA ..) rfl ((raw5 _ _ _ _ _ _ _ (by decide)).trans ((arm53 ..).trans ?_)) hf
  simp only [Opd.ofCode_code]
  rfl

theorem RoundTrip.log2 (h : Hdr) (d : Opd) (a : Opd) : RoundTrip.Statement (.log2 h d a) := by
  intro w hw hf
  cases hw
  refine decode_of (Fields.ofWord_packA ..) rfl ((raw5 _ _ _ _ _ _ _ (by decide)).trans ((arm54 ..).trans ?_)) hf
  simp only [Opd.ofCode_code]
  rfl

theorem RoundTrip.sin (h : Hdr) (d : Opd) (a : Opd) : RoundTrip.Statement (.sin h d a) := by
  intro w hw hf
  cases hw
  refine decode_of (Fields.ofWord_packA ..) rfl ((raw5 _ _ _ _ _ _ _ (by decide)).trans ((arm55 ..).trans ?_)) hf
  simp only [Opd.ofCode_code]
  rfl

theorem RoundTrip.cos (h : Hdr) (d : Opd) (a : Opd) : RoundTrip.Statement (.cos h d a) := by
  intro w hw hf
  cases hw
  refine decode_of (Fields.ofWord_packA ..) rfl ((raw5 _ _ _ _ _ _ _ (by decide)).trans ((arm56 ..).trans ?_)) hf
  simp only [Opd.ofCode_code]
  rfl

theorem RoundTrip.tanh (h : Hdr) (d : Opd) (a : Opd) : RoundTrip.Statement (.tanh h d a) := by
  intro w hw hf
  cases hw
  refine decode_of (Fields.ofWord_packA ..) rfl ((raw5 _ _ _ _ _ _ _ (by decide)).trans ((arm57 ..).trans ?_)) hf
  simp only [Opd.ofCode_code]
  rfl

theorem RoundTrip.cvtif (h : Hdr) (d : Opd) (a : Opd) (rm : Rm) (ty : ITy) : RoundTrip.Statement (.cvtif h d a rm ty) := by
  intro w hw hf
  cases hw
  refine decode_of (Fields.ofWord_packA ..) rfl ((raw5 _ _ _ _ _ _ _ (by decide)).trans ((arm58 ..).trans ?_)) hf
  have hk : ∀ (rm : Rm) (ty : ITy), (((((rm.toBits).setWidth 12 <<< 0) ||| ((ty.toBits).setWidth 12 <<< 4)) &&& 0xFC8#12 == 0x000#12) = true) ∧ (Rm.ofBits (fld 3 (((rm.toBits).setWidth 12 <<< 0) ||| ((ty.toBits).setWidth 12 <<< 4)) 0) = some rm) ∧ (ITy.ofBits (fld 2 (((rm.toBits).setWidth 12 <<< 0) ||| ((ty.toBits).setWidth 12 <<< 4)) 4) = some ty) := by
    intro rm ty
    cases rm <;> cases ty <;> decide
  simp only [Opd.ofCode_code, hk rm ty]
  rfl

theorem RoundTrip.cvtfi (h : Hdr) (d : Opd) (a : Opd) (rm : Rm) (ty : ITy) : RoundTrip.Statement (.cvtfi h d a rm ty) := by
  intro w hw hf
  cases hw
  refine decode_of (Fields.ofWord_packA ..) rfl ((raw5 _ _ _ _ _ _ _ (by decide)).trans ((arm59 ..).trans ?_)) hf
  have hk : ∀ (rm : Rm) (ty : ITy), (((((rm.toBits).setWidth 12 <<< 0) ||| ((ty.toBits).setWidth 12 <<< 4)) &&& 0xFC8#12 == 0x000#12) = true) ∧ (Rm.ofBits (fld 3 (((rm.toBits).setWidth 12 <<< 0) ||| ((ty.toBits).setWidth 12 <<< 4)) 0) = some rm) ∧ (ITy.ofBits (fld 2 (((rm.toBits).setWidth 12 <<< 0) ||| ((ty.toBits).setWidth 12 <<< 4)) 4) = some ty) := by
    intro rm ty
    cases rm <;> cases ty <;> decide
  simp only [Opd.ofCode_code, hk rm ty]
  rfl

theorem RoundTrip.cvtff (h : Hdr) (d : Opd) (a : Opd) (rm : Rm) (toF16 : Bool) : RoundTrip.Statement (.cvtff h d a rm toF16) := by
  intro w hw hf
  cases hw
  refine decode_of (Fields.ofWord_packA ..) rfl ((raw5 _ _ _ _ _ _ _ (by decide)).trans ((arm5A ..).trans ?_)) hf
  have hk : ∀ (rm : Rm) (toF16 : Bool), (((((rm.toBits).setWidth 12 <<< 0) ||| (((BitVec.ofBool toF16)).setWidth 12 <<< 4)) &&& 0xFE8#12 == 0x000#12) = true) ∧ (Rm.ofBits (fld 3 (((rm.toBits).setWidth 12 <<< 0) ||| (((BitVec.ofBool toF16)).setWidth 12 <<< 4)) 0) = some rm) ∧ ((fld 1 (((rm.toBits).setWidth 12 <<< 0) ||| (((BitVec.ofBool toF16)).setWidth 12 <<< 4)) 4 == 1#1) = toF16) := by
    intro rm toF16
    cases rm <;> cases toF16 <;> decide
  simp only [Opd.ofCode_code, hk rm toF16]
  rfl

theorem RoundTrip.packh (h : Hdr) (d : Opd) (a : Opd) (b : Opd) (rm : Rm) (bf : Bool) : RoundTrip.Statement (.packh h d a b rm bf) := by
  intro w hw hf
  cases hw
  refine decode_of (Fields.ofWord_packA ..) rfl ((raw5 _ _ _ _ _ _ _ (by decide)).trans ((arm5B ..).trans ?_)) hf
  have hk : ∀ (rm : Rm) (bf : Bool), (((((rm.toBits).setWidth 12 <<< 0) ||| (((BitVec.ofBool bf)).setWidth 12 <<< 4)) &&& 0xFE8#12 == 0x000#12) = true) ∧ (Rm.ofBits (fld 3 (((rm.toBits).setWidth 12 <<< 0) ||| (((BitVec.ofBool bf)).setWidth 12 <<< 4)) 0) = some rm) ∧ ((fld 1 (((rm.toBits).setWidth 12 <<< 0) ||| (((BitVec.ofBool bf)).setWidth 12 <<< 4)) 4 == 1#1) = bf) := by
    intro rm bf
    cases rm <;> cases bf <;> decide
  simp only [Opd.ofCode_code, hk rm bf]
  rfl

theorem RoundTrip.unpkh (h : Hdr) (d : Opd) (a : Opd) (bf : Bool) (hi : Bool) : RoundTrip.Statement (.unpkh h d a bf hi) := by
  intro w hw hf
  cases hw
  refine decode_of (Fields.ofWord_packA ..) rfl ((raw5 _ _ _ _ _ _ _ (by decide)).trans ((arm5C ..).trans ?_)) hf
  have hk : ∀ (bf : Bool) (hi : Bool), ((((((BitVec.ofBool bf)).setWidth 12 <<< 4) ||| (((BitVec.ofBool hi)).setWidth 12 <<< 5)) &&& 0xFCF#12 == 0x000#12) = true) ∧ ((fld 1 ((((BitVec.ofBool bf)).setWidth 12 <<< 4) ||| (((BitVec.ofBool hi)).setWidth 12 <<< 5)) 4 == 1#1) = bf) ∧ ((fld 1 ((((BitVec.ofBool bf)).setWidth 12 <<< 4) ||| (((BitVec.ofBool hi)).setWidth 12 <<< 5)) 5 == 1#1) = hi) := by
    intro bf hi
    cases bf <;> cases hi <;> decide
  simp only [Opd.ofCode_code, hk bf hi]
  rfl

theorem RoundTrip.decn (h : Hdr) (d : Opd) (a : Opd) (b : Opd) (f : BitVec 5) (scl : Bool) (esc : Bool) : RoundTrip.Statement (.decn h d a b f scl esc) := by
  intro w hw hf
  cases hw
  refine decode_of (Fields.ofWord_packA ..) rfl ((raw5 _ _ _ _ _ _ _ (by decide)).trans ((arm5D ..).trans ?_)) hf
  have hk : ∀ (f : BitVec 5) (scl : Bool) (esc : Bool), (((((f).setWidth 12 <<< 0) ||| (((BitVec.ofBool scl)).setWidth 12 <<< 5) ||| (((BitVec.ofBool esc)).setWidth 12 <<< 6)) &&& 0xF80#12 == 0x000#12) = true) ∧ (fld 5 (((f).setWidth 12 <<< 0) ||| (((BitVec.ofBool scl)).setWidth 12 <<< 5) ||| (((BitVec.ofBool esc)).setWidth 12 <<< 6)) 0 = f) ∧ ((fld 1 (((f).setWidth 12 <<< 0) ||| (((BitVec.ofBool scl)).setWidth 12 <<< 5) ||| (((BitVec.ofBool esc)).setWidth 12 <<< 6)) 5 == 1#1) = scl) ∧ ((fld 1 (((f).setWidth 12 <<< 0) ||| (((BitVec.ofBool scl)).setWidth 12 <<< 5) ||| (((BitVec.ofBool esc)).setWidth 12 <<< 6)) 6 == 1#1) = esc) := by
    intro f scl esc
    cases scl <;> cases esc <;> (revert f; decide)
  simp only [Opd.ofCode_code, hk f scl esc]
  rfl

theorem RoundTrip.mov (h : Hdr) (d : Opd) (a : Opd) (w : Bool) : RoundTrip.Statement (.mov h d a w) := by
  intro w hw hf
  cases hw
  refine decode_of (Fields.ofWord_packA ..) rfl ((raw6 _ _ _ _ _ _ _ (by decide)).trans ((arm60 ..).trans ?_)) hf
  have hk : ∀ (w : Bool), ((((((BitVec.ofBool w)).setWidth 12 <<< 0)) &&& 0xFFE#12 == 0x000#12) = true) ∧ ((fld 1 ((((BitVec.ofBool w)).setWidth 12 <<< 0)) 0 == 1#1) = w) := by
    intro w
    cases w <;> decide
  simp only [Opd.ofCode_code, hk w]
  rfl

theorem RoundTrip.movi (h : Hdr) (d : Opd) (imm : BitVec 32) : RoundTrip.Statement (.movi h d imm) := by
  intro w hw hf
  cases hw
  refine decode_of (Fields.ofWord_packI ..) rfl ((raw6 _ _ _ _ _ _ _ (by decide)).trans ((arm61 ..).trans ?_)) hf
  simp only [Opd.ofCode_code, Fields.fn4_packI, Fields.imm_packI]
  rfl

theorem RoundTrip.moviS (h : Hdr) (d : Opd) (imm : BitVec 32) : RoundTrip.Statement (.moviS h d imm) := by
  intro w hw hf
  cases hw
  refine decode_of (Fields.ofWord_packI ..) rfl ((raw6 _ _ _ _ _ _ _ (by decide)).trans ((arm61 ..).trans ?_)) hf
  simp only [Opd.ofCode_code, Fields.fn4_packI, Fields.imm_packI]
  rfl

theorem RoundTrip.moviHi (h : Hdr) (d : Opd) (imm : BitVec 32) : RoundTrip.Statement (.moviHi h d imm) := by
  intro w hw hf
  cases hw
  refine decode_of (Fields.ofWord_packI ..) rfl ((raw6 _ _ _ _ _ _ _ (by decide)).trans ((arm61 ..).trans ?_)) hf
  simp only [Opd.ofCode_code, Fields.fn4_packI, Fields.imm_packI]
  rfl

theorem RoundTrip.sel (h : Hdr) (d : Opd) (a : Opd) (b : Opd) (c : Pr) (w : Bool) : RoundTrip.Statement (.sel h d a b c w) := by
  intro w hw hf
  cases hw
  refine decode_of (Fields.ofWord_packA ..) rfl ((raw6 _ _ _ _ _ _ _ (by decide)).trans ((arm62 ..).trans ?_)) hf
  have hk : ∀ (w : Bool), ((((((BitVec.ofBool w)).setWidth 12 <<< 0)) &&& 0xFFE#12 == 0x000#12) = true) ∧ ((fld 1 ((((BitVec.ofBool w)).setWidth 12 <<< 0)) 0 == 1#1) = w) := by
    intro w
    cases w <;> decide
  simp only [Opd.ofCode_code, prOf_prCode, hk w]
  rfl

theorem RoundTrip.pand (h : Hdr) (d : Pr) (a : Pr) (b : Pr) (na : Bool) (nb : Bool) : RoundTrip.Statement (.pand h d a b na nb) := by
  intro w hw hf
  cases hw
  refine decode_of (Fields.ofWord_packA ..) rfl ((raw6 _ _ _ _ _ _ _ (by decide)).trans ((arm63 ..).trans ?_)) hf
  have hk : ∀ (na : Bool) (nb : Bool), ((((((BitVec.ofBool na)).setWidth 12 <<< 0) ||| (((BitVec.ofBool nb)).setWidth 12 <<< 1)) &&& 0xFFC#12 == 0x000#12) = true) ∧ ((fld 1 ((((BitVec.ofBool na)).setWidth 12 <<< 0) ||| (((BitVec.ofBool nb)).setWidth 12 <<< 1)) 0 == 1#1) = na) ∧ ((fld 1 ((((BitVec.ofBool na)).setWidth 12 <<< 0) ||| (((BitVec.ofBool nb)).setWidth 12 <<< 1)) 1 == 1#1) = nb) := by
    intro na nb
    cases na <;> cases nb <;> decide
  simp only [prOf_prCode, hk na nb]
  rfl

theorem RoundTrip.por (h : Hdr) (d : Pr) (a : Pr) (b : Pr) (na : Bool) (nb : Bool) : RoundTrip.Statement (.por h d a b na nb) := by
  intro w hw hf
  cases hw
  refine decode_of (Fields.ofWord_packA ..) rfl ((raw6 _ _ _ _ _ _ _ (by decide)).trans ((arm64 ..).trans ?_)) hf
  have hk : ∀ (na : Bool) (nb : Bool), ((((((BitVec.ofBool na)).setWidth 12 <<< 0) ||| (((BitVec.ofBool nb)).setWidth 12 <<< 1)) &&& 0xFFC#12 == 0x000#12) = true) ∧ ((fld 1 ((((BitVec.ofBool na)).setWidth 12 <<< 0) ||| (((BitVec.ofBool nb)).setWidth 12 <<< 1)) 0 == 1#1) = na) ∧ ((fld 1 ((((BitVec.ofBool na)).setWidth 12 <<< 0) ||| (((BitVec.ofBool nb)).setWidth 12 <<< 1)) 1 == 1#1) = nb) := by
    intro na nb
    cases na <;> cases nb <;> decide
  simp only [prOf_prCode, hk na nb]
  rfl

theorem RoundTrip.pxor (h : Hdr) (d : Pr) (a : Pr) (b : Pr) (na : Bool) (nb : Bool) : RoundTrip.Statement (.pxor h d a b na nb) := by
  intro w hw hf
  cases hw
  refine decode_of (Fields.ofWord_packA ..) rfl ((raw6 _ _ _ _ _ _ _ (by decide)).trans ((arm65 ..).trans ?_)) hf
  have hk : ∀ (na : Bool) (nb : Bool), ((((((BitVec.ofBool na)).setWidth 12 <<< 0) ||| (((BitVec.ofBool nb)).setWidth 12 <<< 1)) &&& 0xFFC#12 == 0x000#12) = true) ∧ ((fld 1 ((((BitVec.ofBool na)).setWidth 12 <<< 0) ||| (((BitVec.ofBool nb)).setWidth 12 <<< 1)) 0 == 1#1) = na) ∧ ((fld 1 ((((BitVec.ofBool na)).setWidth 12 <<< 0) ||| (((BitVec.ofBool nb)).setWidth 12 <<< 1)) 1 == 1#1) = nb) := by
    intro na nb
    cases na <;> cases nb <;> decide
  simp only [prOf_prCode, hk na nb]
  rfl

theorem RoundTrip.pmov (h : Hdr) (d : Pr) (a : Pr) : RoundTrip.Statement (.pmov h d a) := by
  intro w hw hf
  cases hw
  refine decode_of (Fields.ofWord_packA ..) rfl ((raw6 _ _ _ _ _ _ _ (by decide)).trans ((arm66 ..).trans ?_)) hf
  simp only [prOf_prCode]
  rfl

theorem RoundTrip.pmovNot (h : Hdr) (d : Pr) (a : Pr) : RoundTrip.Statement (.pmovNot h d a) := by
  intro w hw hf
  cases hw
  refine decode_of (Fields.ofWord_packA ..) rfl ((raw6 _ _ _ _ _ _ _ (by decide)).trans ((arm66 ..).trans ?_)) hf
  simp only [prOf_prCode]
  rfl

theorem RoundTrip.pmovVal (h : Hdr) (d : Opd) (a : Pr) : RoundTrip.Statement (.pmovVal h d a) := by
  intro w hw hf
  cases hw
  refine decode_of (Fields.ofWord_packA ..) rfl ((raw6 _ _ _ _ _ _ _ (by decide)).trans ((arm66 ..).trans ?_)) hf
  simp only [Opd.ofCode_code, prOf_prCode]
  rfl

theorem RoundTrip.pmovNz (h : Hdr) (d : Pr) (a : Opd) : RoundTrip.Statement (.pmovNz h d a) := by
  intro w hw hf
  cases hw
  refine decode_of (Fields.ofWord_packA ..) rfl ((raw6 _ _ _ _ _ _ _ (by decide)).trans ((arm66 ..).trans ?_)) hf
  simp only [Opd.ofCode_code, prOf_prCode]
  rfl

theorem RoundTrip.pset (h : Hdr) (d : Pr) (a : Opd) (n1 : BitVec 6) : RoundTrip.Statement (.pset h d a n1) := by
  intro w hw hf
  cases hw
  refine decode_of (Fields.ofWord_packA ..) rfl ((raw6 _ _ _ _ _ _ _ (by decide)).trans ((arm67 ..).trans ?_)) hf
  have hk : ∀ (n1 : BitVec 6), (((((n1).setWidth 12 <<< 4)) &&& 0xC0F#12 == 0x000#12) = true) ∧ (fld 6 (((n1).setWidth 12 <<< 4)) 4 = n1) := by
    intro n1
    (revert n1; decide)
  simp only [Opd.ofCode_code, prOf_prCode, hk n1]
  rfl

theorem RoundTrip.psetPack (h : Hdr) (d : Opd) (a : Pr) (n1 : BitVec 6) : RoundTrip.Statement (.psetPack h d a n1) := by
  intro w hw hf
  cases hw
  refine decode_of (Fields.ofWord_packA ..) rfl ((raw6 _ _ _ _ _ _ _ (by decide)).trans ((arm67 ..).trans ?_)) hf
  have hk : ∀ (n1 : BitVec 6), (((((n1).setWidth 12 <<< 4) ||| 0x001#12) &&& 0xC0F#12 == 0x001#12) = true) ∧ (((((n1).setWidth 12 <<< 4) ||| 0x001#12) &&& 0xC0F#12 == 0x000#12) = false) ∧ (fld 6 (((n1).setWidth 12 <<< 4) ||| 0x001#12) 4 = n1) := by
    intro n1
    (revert n1; decide)
  simp only [Opd.ofCode_code, prOf_prCode, Bool.and_false, hk n1]
  rfl

theorem RoundTrip.smov (h : Hdr) (d : Opd) (a : Opd) (b : Opd) (first : Bool) : RoundTrip.Statement (.smov h d a b first) := by
  intro w hw hf
  cases hw
  refine decode_of (Fields.ofWord_packA ..) rfl ((raw6 _ _ _ _ _ _ _ (by decide)).trans ((arm68 ..).trans ?_)) hf
  have hk : ∀ (first : Bool), ((((((BitVec.ofBool first)).setWidth 12 <<< 0)) &&& 0xFFE#12 == 0x000#12) = true) ∧ ((fld 1 ((((BitVec.ofBool first)).setWidth 12 <<< 0)) 0 == 1#1) = first) := by
    intro first
    cases first <;> decide
  simp only [Opd.ofCode_code, hk first]
  rfl

theorem RoundTrip.lxch (h : Hdr) (d : Opd) (a : Opd) (b : Opd) (c : Option Pr) (mode : LxMode) (grp : LxGroup) : RoundTrip.Statement (.lxch h d a b c mode grp) := by
  intro w hw hf
  cases hw
  refine decode_of (Fields.ofWord_packA ..) rfl ((raw7 _ _ _ _ _ _ _ (by decide)).trans ((arm70 ..).trans ?_)) hf
  have hk : ∀ (c : Option Pr) (mode : LxMode) (grp : LxGroup), (((((BitVec.ofBool c.isSome).setWidth 12 <<< 6) ||| ((mode.toBits).setWidth 12 <<< 0) ||| ((grp.toBits).setWidth 12 <<< 3)) &&& 0xF80#12 == 0x000#12) = true) ∧ (prOpt (fld 1 (((BitVec.ofBool c.isSome).setWidth 12 <<< 6) ||| ((mode.toBits).setWidth 12 <<< 0) ||| ((grp.toBits).setWidth 12 <<< 3)) 6 == 1#1) (prOptCode c) = some c) ∧ (LxMode.ofBits (fld 3 (((BitVec.ofBool c.isSome).setWidth 12 <<< 6) ||| ((mode.toBits).setWidth 12 <<< 0) ||| ((grp.toBits).setWidth 12 <<< 3)) 0) = some mode) ∧ (LxGroup.ofBits (fld 3 (((BitVec.ofBool c.isSome).setWidth 12 <<< 6) ||| ((mode.toBits).setWidth 12 <<< 0) ||| ((grp.toBits).setWidth 12 <<< 3)) 3) = some grp) := by
    intro c mode grp
    rcases c with _ | c <;> cases mode <;> cases grp <;> (first | decide | (revert c; decide))
  simp only [Opd.ofCode_code, hk c mode grp]
  rfl

theorem RoundTrip.agree (h : Hdr) (d : Pr) (a : Pr) (kd : AgreeK) (neg : Bool) : RoundTrip.Statement (.agree h d a kd neg) := by
  intro w hw hf
  cases hw
  refine decode_of (Fields.ofWord_packA ..) rfl ((raw7 _ _ _ _ _ _ _ (by decide)).trans ((arm71 ..).trans ?_)) hf
  have hk : ∀ (kd : AgreeK) (neg : Bool), (((((kd.toBits).setWidth 12 <<< 0) ||| (((BitVec.ofBool neg)).setWidth 12 <<< 2)) &&& 0xFF8#12 == 0x000#12) = true) ∧ (AgreeK.ofBits (fld 2 (((kd.toBits).setWidth 12 <<< 0) ||| (((BitVec.ofBool neg)).setWidth 12 <<< 2)) 0) = some kd) ∧ ((fld 1 (((kd.toBits).setWidth 12 <<< 0) ||| (((BitVec.ofBool neg)).setWidth 12 <<< 2)) 2 == 1#1) = neg) := by
    intro kd neg
    cases kd <;> cases neg <;> decide
  simp only [prOf_prCode, hk kd neg]
  rfl

theorem RoundTrip.ballot (h : Hdr) (d : Opd) (a : Pr) (cnt : Bool) (neg : Bool) : RoundTrip.Statement (.ballot h d a cnt neg) := by
  intro w hw hf
  cases hw
  refine decode_of (Fields.ofWord_packA ..) rfl ((raw7 _ _ _ _ _ _ _ (by decide)).trans ((arm72 ..).trans ?_)) hf
  have hk : ∀ (cnt : Bool) (neg : Bool), ((((((BitVec.ofBool cnt)).setWidth 12 <<< 0) ||| (((BitVec.ofBool neg)).setWidth 12 <<< 1)) &&& 0xFFC#12 == 0x000#12) = true) ∧ ((fld 1 ((((BitVec.ofBool cnt)).setWidth 12 <<< 0) ||| (((BitVec.ofBool neg)).setWidth 12 <<< 1)) 0 == 1#1) = cnt) ∧ ((fld 1 ((((BitVec.ofBool cnt)).setWidth 12 <<< 0) ||| (((BitVec.ofBool neg)).setWidth 12 <<< 1)) 1 == 1#1) = neg) := by
    intro cnt neg
    cases cnt <;> cases neg <;> decide
  simp only [Opd.ofCode_code, prOf_prCode, hk cnt neg]
  rfl

theorem RoundTrip.wred (h : Hdr) (d : Opd) (a : Opd) (rm : Rm) (op : WOp) (ty : WTy) : RoundTrip.Statement (.wred h d a rm op ty) := by
  intro w hw hf
  cases hw
  refine decode_of (Fields.ofWord_packA ..) rfl ((raw7 _ _ _ _ _ _ _ (by decide)).trans ((arm73 ..).trans ?_)) hf
  have hk : ∀ (rm : Rm) (op : WOp) (ty : WTy), (((((rm.toBits).setWidth 12 <<< 0) ||| ((op.toBits).setWidth 12 <<< 3) ||| ((ty.toBits).setWidth 12 <<< 6)) &&& 0xF00#12 == 0x000#12) = true) ∧ (Rm.ofBits (fld 3 (((rm.toBits).setWidth 12 <<< 0) ||| ((op.toBits).setWidth 12 <<< 3) ||| ((ty.toBits).setWidth 12 <<< 6)) 0) = some rm) ∧ (WOp.ofBits (fld 3 (((rm.toBits).setWidth 12 <<< 0) ||| ((op.toBits).setWidth 12 <<< 3) ||| ((ty.toBits).setWidth 12 <<< 6)) 3) = some op) ∧ (WTy.ofBits (fld 2 (((rm.toBits).setWidth 12 <<< 0) ||| ((op.toBits).setWidth 12 <<< 3) ||| ((ty.toBits).setWidth 12 <<< 6)) 6) = some ty) := by
    intro rm op ty
    cases rm <;> cases op <;> cases ty <;> decide
  simp only [Opd.ofCode_code, hk rm op ty]
  rfl

theorem RoundTrip.wscan (h : Hdr) (d : Opd) (a : Opd) (rm : Rm) (op : WOp) (ty : WTy) (excl : Bool) : RoundTrip.Statement (.wscan h d a rm op ty excl) := by
  intro w hw hf
  cases hw
  refine decode_of (Fields.ofWord_packA ..) rfl ((raw7 _ _ _ _ _ _ _ (by decide)).trans ((arm74 ..).trans ?_)) hf
  have hk : ∀ (rm : Rm) (op : WOp) (ty : WTy) (excl : Bool), (((((rm.toBits).setWidth 12 <<< 0) ||| ((op.toBits).setWidth 12 <<< 3) ||| ((ty.toBits).setWidth 12 <<< 6) ||| (((BitVec.ofBool excl)).setWidth 12 <<< 8)) &&& 0xE00#12 == 0x000#12) = true) ∧ (Rm.ofBits (fld 3 (((rm.toBits).setWidth 12 <<< 0) ||| ((op.toBits).setWidth 12 <<< 3) ||| ((ty.toBits).setWidth 12 <<< 6) ||| (((BitVec.ofBool excl)).setWidth 12 <<< 8)) 0) = some rm) ∧ (WOp.ofBits (fld 3 (((rm.toBits).setWidth 12 <<< 0) ||| ((op.toBits).setWidth 12 <<< 3) ||| ((ty.toBits).setWidth 12 <<< 6) ||| (((BitVec.ofBool excl)).setWidth 12 <<< 8)) 3) = some op) ∧ (WTy.ofBits (fld 2 (((rm.toBits).setWidth 12 <<< 0) ||| ((op.toBits).setWidth 12 <<< 3) ||| ((ty.toBits).setWidth 12 <<< 6) ||| (((BitVec.ofBool excl)).setWidth 12 <<< 8)) 6) = some ty) ∧ ((fld 1 (((rm.toBits).setWidth 12 <<< 0) ||| ((op.toBits).setWidth 12 <<< 3) ||| ((ty.toBits).setWidth 12 <<< 6) ||| (((BitVec.ofBool excl)).setWidth 12 <<< 8)) 8 == 1#1) = excl) := by
    intro rm op ty excl
    cases rm <;> cases op <;> cases ty <;> cases excl <;> decide
  simp only [Opd.ofCode_code, hk rm op ty excl]
  rfl

theorem RoundTrip.rebal (h : Hdr) (d : Opd) (a : Opd) (b : Opd) : RoundTrip.Statement (.rebal h d a b) := by
  intro w hw hf
  cases hw
  refine decode_of (Fields.ofWord_packA ..) rfl ((raw7 _ _ _ _ _ _ _ (by decide)).trans ((arm75 ..).trans ?_)) hf
  simp only [Opd.ofCode_code]
  rfl

theorem RoundTrip.csamp (h : Hdr) (d : Opd) (a : Opd) (b : Opd) : RoundTrip.Statement (.csamp h d a b) := by
  intro w hw hf
  cases hw
  refine decode_of (Fields.ofWord_packA ..) rfl ((raw7 _ _ _ _ _ _ _ (by decide)).trans ((arm76 ..).trans ?_)) hf
  simp only [Opd.ofCode_code]
  rfl

theorem RoundTrip.rand (h : Hdr) (d : Opd) (a : Opd) (b : Opd) (f01 : Bool) : RoundTrip.Statement (.rand h d a b f01) := by
  intro w hw hf
  cases hw
  refine decode_of (Fields.ofWord_packA ..) rfl ((raw7 _ _ _ _ _ _ _ (by decide)).trans ((arm77 ..).trans ?_)) hf
  have hk : ∀ (f01 : Bool), ((((((BitVec.ofBool f01)).setWidth 12 <<< 0)) &&& 0xFFE#12 == 0x000#12) = true) ∧ ((fld 1 ((((BitVec.ofBool f01)).setWidth 12 <<< 0)) 0 == 1#1) = f01) := by
    intro f01
    cases f01 <;> decide
  simp only [Opd.ofCode_code, hk f01]
  rfl

theorem RoundTrip.ld (h : Hdr) (d : Opd) (a : Opd) (b : Opd) (ty : MTy) (pol : Pol) (sc : Scope) (od : Ord) : RoundTrip.Statement (.ld h d a b ty pol sc od) := by
  intro w hw hf
  cases hw
  refine decode_of (Fields.ofWord_packA ..) rfl ((raw8 _ _ _ _ _ _ _ (by decide)).trans ((arm80 ..).trans ?_)) hf
  have hk : ∀ (pol : Pol) (sc : Scope) (od : Ord), (((((pol.toBits).setWidth 12 <<< 10) ||| ((sc.toBits).setWidth 12 <<< 7) ||| ((od.toBits).setWidth 12 <<< 5)) &&& 0x01F#12 == 0x000#12) = true) ∧ (Pol.ofBits (fld 2 (((pol.toBits).setWidth 12 <<< 10) ||| ((sc.toBits).setWidth 12 <<< 7) ||| ((od.toBits).setWidth 12 <<< 5)) 10) = some pol) ∧ (Scope.ofBits (fld 3 (((pol.toBits).setWidth 12 <<< 10) ||| ((sc.toBits).setWidth 12 <<< 7) ||| ((od.toBits).setWidth 12 <<< 5)) 7) = some sc) ∧ (Ord.ofBits (fld 2 (((pol.toBits).setWidth 12 <<< 10) ||| ((sc.toBits).setWidth 12 <<< 7) ||| ((od.toBits).setWidth 12 <<< 5)) 5) = some od) := by
    intro pol sc od
    cases pol <;> cases sc <;> cases od <;> decide
  have hc : ∀ (ty : MTy), (((((ty.toBits).setWidth 8 <<< 0)) &&& 0xF8#8 == 0#8) = true) ∧ (MTy.ofBits (fld 3 (((ty.toBits).setWidth 8 <<< 0)) 0) = some ty) := by
    intro ty
    cases ty <;> decide
  simp only [Opd.ofCode_code, hk pol sc od, hc ty]
  rfl

theorem RoundTrip.st (h : Hdr) (d : Opd) (a : Opd) (b : Opd) (sf : BitVec 5) (ty : MTy) (pol : Pol) (sc : Scope) (od : Ord) : RoundTrip.Statement (.st h d a b sf ty pol sc od) := by
  intro w hw hf
  cases hw
  refine decode_of (Fields.ofWord_packA ..) rfl ((raw8 _ _ _ _ _ _ _ (by decide)).trans ((arm81 ..).trans ?_)) hf
  have hk : ∀ (pol : Pol) (sc : Scope) (od : Ord), (((((pol.toBits).setWidth 12 <<< 10) ||| ((sc.toBits).setWidth 12 <<< 7) ||| ((od.toBits).setWidth 12 <<< 5)) &&& 0x01F#12 == 0x000#12) = true) ∧ (Pol.ofBits (fld 2 (((pol.toBits).setWidth 12 <<< 10) ||| ((sc.toBits).setWidth 12 <<< 7) ||| ((od.toBits).setWidth 12 <<< 5)) 10) = some pol) ∧ (Scope.ofBits (fld 3 (((pol.toBits).setWidth 12 <<< 10) ||| ((sc.toBits).setWidth 12 <<< 7) ||| ((od.toBits).setWidth 12 <<< 5)) 7) = some sc) ∧ (Ord.ofBits (fld 2 (((pol.toBits).setWidth 12 <<< 10) ||| ((sc.toBits).setWidth 12 <<< 7) ||| ((od.toBits).setWidth 12 <<< 5)) 5) = some od) := by
    intro pol sc od
    cases pol <;> cases sc <;> cases od <;> decide
  have hc : ∀ (sf : BitVec 5) (ty : MTy), (fld 5 (((sf).setWidth 8 <<< 3) ||| ((ty.toBits).setWidth 8 <<< 0)) 3 = sf) ∧ (MTy.ofBits (fld 3 (((sf).setWidth 8 <<< 3) ||| ((ty.toBits).setWidth 8 <<< 0)) 0) = some ty) := by
    intro sf ty
    cases ty <;> (revert sf; decide)
  simp only [Opd.ofCode_code, hk pol sc od, hc sf ty]
  rfl

theorem RoundTrip.lds (h : Hdr) (d : Opd) (a : Opd) (b : Opd) (ty : MTy) (pol : Pol) (sc : Scope) (od : Ord) : RoundTrip.Statement (.lds h d a b ty pol sc od) := by
  intro w hw hf
  cases hw
  refine decode_of (Fields.ofWord_packA ..) rfl ((raw8 _ _ _ _ _ _ _ (by decide)).trans ((arm82 ..).trans ?_)) hf
  have hk : ∀ (pol : Pol) (sc : Scope) (od : Ord), (((((pol.toBits).setWidth 12 <<< 10) ||| ((sc.toBits).setWidth 12 <<< 7) ||| ((od.toBits).setWidth 12 <<< 5)) &&& 0x01F#12 == 0x000#12) = true) ∧ (Pol.ofBits (fld 2 (((pol.toBits).setWidth 12 <<< 10) ||| ((sc.toBits).setWidth 12 <<< 7) ||| ((od.toBits).setWidth 12 <<< 5)) 10) = some pol) ∧ (Scope.ofBits (fld 3 (((pol.toBits).setWidth 12 <<< 10) ||| ((sc.toBits).setWidth 12 <<< 7) ||| ((od.toBits).setWidth 12 <<< 5)) 7) = some sc) ∧ (Ord.ofBits (fld 2 (((pol.toBits).setWidth 12 <<< 10) ||| ((sc.toBits).setWidth 12 <<< 7) ||| ((od.toBits).setWidth 12 <<< 5)) 5) = some od) := by
    intro pol sc od
    cases pol <;> cases sc <;> cases od <;> decide
  have hc : ∀ (ty : MTy), (((((ty.toBits).setWidth 8 <<< 0)) &&& 0xF8#8 == 0#8) = true) ∧ (MTy.ofBits (fld 3 (((ty.toBits).setWidth 8 <<< 0)) 0) = some ty) := by
    intro ty
    cases ty <;> decide
  simp only [Opd.ofCode_code, hk pol sc od, hc ty]
  rfl

theorem RoundTrip.sts (h : Hdr) (d : Opd) (a : Opd) (b : Opd) (sf : BitVec 5) (ty : MTy) (pol : Pol) (sc : Scope) (od : Ord) : RoundTrip.Statement (.sts h d a b sf ty pol sc od) := by
  intro w hw hf
  cases hw
  refine decode_of (Fields.ofWord_packA ..) rfl ((raw8 _ _ _ _ _ _ _ (by decide)).trans ((arm83 ..).trans ?_)) hf
  have hk : ∀ (pol : Pol) (sc : Scope) (od : Ord), (((((pol.toBits).setWidth 12 <<< 10) ||| ((sc.toBits).setWidth 12 <<< 7) ||| ((od.toBits).setWidth 12 <<< 5)) &&& 0x01F#12 == 0x000#12) = true) ∧ (Pol.ofBits (fld 2 (((pol.toBits).setWidth 12 <<< 10) ||| ((sc.toBits).setWidth 12 <<< 7) ||| ((od.toBits).setWidth 12 <<< 5)) 10) = some pol) ∧ (Scope.ofBits (fld 3 (((pol.toBits).setWidth 12 <<< 10) ||| ((sc.toBits).setWidth 12 <<< 7) ||| ((od.toBits).setWidth 12 <<< 5)) 7) = some sc) ∧ (Ord.ofBits (fld 2 (((pol.toBits).setWidth 12 <<< 10) ||| ((sc.toBits).setWidth 12 <<< 7) ||| ((od.toBits).setWidth 12 <<< 5)) 5) = some od) := by
    intro pol sc od
    cases pol <;> cases sc <;> cases od <;> decide
  have hc : ∀ (sf : BitVec 5) (ty : MTy), (fld 5 (((sf).setWidth 8 <<< 3) ||| ((ty.toBits).setWidth 8 <<< 0)) 3 = sf) ∧ (MTy.ofBits (fld 3 (((sf).setWidth 8 <<< 3) ||| ((ty.toBits).setWidth 8 <<< 0)) 0) = some ty) := by
    intro sf ty
    cases ty <;> (revert sf; decide)
  simp only [Opd.ofCode_code, hk pol sc od, hc sf ty]
  rfl

theorem RoundTrip.ldw (h : Hdr) (d : Opd) (a : Opd) (b : Opd) (ty : MTy) (pol : Pol) (sc : Scope) (od : Ord) : RoundTrip.Statement (.ldw h d a b ty pol sc od) := by
  intro w hw hf
  cases hw
  refine decode_of (Fields.ofWord_packA ..) rfl ((raw8 _ _ _ _ _ _ _ (by decide)).trans ((arm84 ..).trans ?_)) hf
  have hk : ∀ (pol : Pol) (sc : Scope) (od : Ord), (((((pol.toBits).setWidth 12 <<< 10) ||| ((sc.toBits).setWidth 12 <<< 7) ||| ((od.toBits).setWidth 12 <<< 5)) &&& 0x01F#12 == 0x000#12) = true) ∧ (Pol.ofBits (fld 2 (((pol.toBits).setWidth 12 <<< 10) ||| ((sc.toBits).setWidth 12 <<< 7) ||| ((od.toBits).setWidth 12 <<< 5)) 10) = some pol) ∧ (Scope.ofBits (fld 3 (((pol.toBits).setWidth 12 <<< 10) ||| ((sc.toBits).setWidth 12 <<< 7) ||| ((od.toBits).setWidth 12 <<< 5)) 7) = some sc) ∧ (Ord.ofBits (fld 2 (((pol.toBits).setWidth 12 <<< 10) ||| ((sc.toBits).setWidth 12 <<< 7) ||| ((od.toBits).setWidth 12 <<< 5)) 5) = some od) := by
    intro pol sc od
    cases pol <;> cases sc <;> cases od <;> decide
  have hc : ∀ (ty : MTy), (((((ty.toBits).setWidth 8 <<< 0)) &&& 0xF8#8 == 0#8) = true) ∧ (MTy.ofBits (fld 3 (((ty.toBits).setWidth 8 <<< 0)) 0) = some ty) := by
    intro ty
    cases ty <;> decide
  simp only [Opd.ofCode_code, hk pol sc od, hc ty]
  rfl

theorem RoundTrip.stw (h : Hdr) (d : Opd) (a : Opd) (b : Opd) (ty : MTy) (pol : Pol) (sc : Scope) (od : Ord) : RoundTrip.Statement (.stw h d a b ty pol sc od) := by
  intro w hw hf
  cases hw
  refine decode_of (Fields.ofWord_packA ..) rfl ((raw8 _ _ _ _ _ _ _ (by decide)).trans ((arm85 ..).trans ?_)) hf
  have hk : ∀ (pol : Pol) (sc : Scope) (od : Ord), (((((pol.toBits).setWidth 12 <<< 10) ||| ((sc.toBits).setWidth 12 <<< 7) ||| ((od.toBits).setWidth 12 <<< 5)) &&& 0x01F#12 == 0x000#12) = true) ∧ (Pol.ofBits (fld 2 (((pol.toBits).setWidth 12 <<< 10) ||| ((sc.toBits).setWidth 12 <<< 7) ||| ((od.toBits).setWidth 12 <<< 5)) 10) = some pol) ∧ (Scope.ofBits (fld 3 (((pol.toBits).setWidth 12 <<< 10) ||| ((sc.toBits).setWidth 12 <<< 7) ||| ((od.toBits).setWidth 12 <<< 5)) 7) = some sc) ∧ (Ord.ofBits (fld 2 (((pol.toBits).setWidth 12 <<< 10) ||| ((sc.toBits).setWidth 12 <<< 7) ||| ((od.toBits).setWidth 12 <<< 5)) 5) = some od) := by
    intro pol sc od
    cases pol <;> cases sc <;> cases od <;> decide
  have hc : ∀ (ty : MTy), (((((ty.toBits).setWidth 8 <<< 0)) &&& 0xF8#8 == 0#8) = true) ∧ (MTy.ofBits (fld 3 (((ty.toBits).setWidth 8 <<< 0)) 0) = some ty) := by
    intro ty
    cases ty <;> decide
  simp only [Opd.ofCode_code, hk pol sc od, hc ty]
  rfl

theorem RoundTrip.ldn (h : Hdr) (d : Opd) (a : Opd) (b : Opd) (ty : MTy) (pol : Pol) (sc : Scope) (od : Ord) : RoundTrip.Statement (.ldn h d a b ty pol sc od) := by
  intro w hw hf
  cases hw
  refine decode_of (Fields.ofWord_packA ..) rfl ((raw8 _ _ _ _ _ _ _ (by decide)).trans ((arm86 ..).trans ?_)) hf
  have hk : ∀ (pol : Pol) (sc : Scope) (od : Ord), (((((pol.toBits).setWidth 12 <<< 10) ||| ((sc.toBits).setWidth 12 <<< 7) ||| ((od.toBits).setWidth 12 <<< 5)) &&& 0x01F#12 == 0x000#12) = true) ∧ (Pol.ofBits (fld 2 (((pol.toBits).setWidth 12 <<< 10) ||| ((sc.toBits).setWidth 12 <<< 7) ||| ((od.toBits).setWidth 12 <<< 5)) 10) = some pol) ∧ (Scope.ofBits (fld 3 (((pol.toBits).setWidth 12 <<< 10) ||| ((sc.toBits).setWidth 12 <<< 7) ||| ((od.toBits).setWidth 12 <<< 5)) 7) = some sc) ∧ (Ord.ofBits (fld 2 (((pol.toBits).setWidth 12 <<< 10) ||| ((sc.toBits).setWidth 12 <<< 7) ||| ((od.toBits).setWidth 12 <<< 5)) 5) = some od) := by
    intro pol sc od
    cases pol <;> cases sc <;> cases od <;> decide
  have hc : ∀ (ty : MTy), (((((ty.toBits).setWidth 8 <<< 0)) &&& 0xF8#8 == 0#8) = true) ∧ (MTy.ofBits (fld 3 (((ty.toBits).setWidth 8 <<< 0)) 0) = some ty) := by
    intro ty
    cases ty <;> decide
  simp only [Opd.ofCode_code, hk pol sc od, hc ty]
  rfl

theorem RoundTrip.qst (h : Hdr) (d : Opd) (a : Opd) (b : Opd) (c : Opd) (f : BitVec 5) (mode : QMode) (ev : Option (BitVec 3)) : RoundTrip.Statement (.qst h d a b c f mode ev) := by
  intro w hw hf
  cases hw
  refine decode_of (Fields.ofWord_packA ..) rfl ((raw8 _ _ _ _ _ _ _ (by decide)).trans ((arm87 ..).trans ?_)) hf
  have hk : ∀ (f : BitVec 5) (mode : QMode) (ev : Option (BitVec 3)), (fld 5 (((f).setWidth 12 <<< 0) ||| ((mode.toBits).setWidth 12 <<< 5) ||| (((evToBits ev)).setWidth 12 <<< 7)) 0 = f) ∧ (QMode.ofBits (fld 2 (((f).setWidth 12 <<< 0) ||| ((mode.toBits).setWidth 12 <<< 5) ||| (((evToBits ev)).setWidth 12 <<< 7)) 5) = some mode) ∧ (evOfBits (fld 5 (((f).setWidth 12 <<< 0) ||| ((mode.toBits).setWidth 12 <<< 5) ||| (((evToBits ev)).setWidth 12 <<< 7)) 7) = some ev) := by
    intro f mode ev
    cases mode <;> rcases ev with _ | ev <;> (first | (revert f ev; decide) | (revert f; decide))
  simp only [Opd.ofCode_code, hk f mode ev]
  rfl

theorem RoundTrip.pref (h : Hdr) (a : Opd) (b : Opd) (pol : Pol) : RoundTrip.Statement (.pref h a b pol) := by
  intro w hw hf
  cases hw
  refine decode_of (Fields.ofWord_packA ..) rfl ((raw8 _ _ _ _ _ _ _ (by decide)).trans ((arm88 ..).trans ?_)) hf
  have hk : ∀ (pol : Pol), (((((pol.toBits).setWidth 12 <<< 10)) &&& 0x3FF#12 == 0x000#12) = true) ∧ (Pol.ofBits (fld 2 (((pol.toBits).setWidth 12 <<< 10)) 10) = some pol) := by
    intro pol
    cases pol <;> decide
  simp only [Opd.ofCode_code, hk pol]
  rfl

theorem RoundTrip.shbind (h : Hdr) (d : Opd) (a : Opd) (b : Opd) (ev : Option (BitVec 3)) : RoundTrip.Statement (.shbind h d a b ev) := by
  intro w hw hf
  cases hw
  refine decode_of (Fields.ofWord_packA ..) rfl ((raw8 _ _ _ _ _ _ _ (by decide)).trans ((arm89 ..).trans ?_)) hf
  have hk : ∀ (ev : Option (BitVec 3)), ((((((evToBits ev)).setWidth 12 <<< 7)) &&& 0x07F#12 == 0x000#12) = true) ∧ (evOfBits (fld 5 ((((evToBits ev)).setWidth 12 <<< 7)) 7) = some ev) := by
    intro ev
    rcases ev with _ | ev <;> (first | decide | (revert ev; decide))
  simp only [Opd.ofCode_code, hk ev]
  rfl

theorem RoundTrip.shfree (h : Hdr) (d : Opd) (a : Opd) (ev : Option (BitVec 3)) : RoundTrip.Statement (.shfree h d a ev) := by
  intro w hw hf
  cases hw
  refine decode_of (Fields.ofWord_packA ..) rfl ((raw8 _ _ _ _ _ _ _ (by decide)).trans ((arm8A ..).trans ?_)) hf
  have hk : ∀ (ev : Option (BitVec 3)), ((((((evToBits ev)).setWidth 12 <<< 7)) &&& 0x07F#12 == 0x000#12) = true) ∧ (evOfBits (fld 5 ((((evToBits ev)).setWidth 12 <<< 7)) 7) = some ev) := by
    intro ev
    rcases ev with _ | ev <;> (first | decide | (revert ev; decide))
  simp only [Opd.ofCode_code, hk ev]
  rfl

theorem RoundTrip.cpy (h : Hdr) (a : Opd) (ev : Option (BitVec 3)) : RoundTrip.Statement (.cpy h a ev) := by
  intro w hw hf
  cases hw
  refine decode_of (Fields.ofWord_packA ..) rfl ((raw8 _ _ _ _ _ _ _ (by decide)).trans ((arm8B ..).trans ?_)) hf
  have hk : ∀ (ev : Option (BitVec 3)), ((((((evToBits ev)).setWidth 12 <<< 7)) &&& 0x07F#12 == 0x000#12) = true) ∧ (evOfBits (fld 5 ((((evToBits ev)).setWidth 12 <<< 7)) 7) = some ev) := by
    intro ev
    rcases ev with _ | ev <;> (first | decide | (revert ev; decide))
  simp only [Opd.ofCode_code, hk ev]
  rfl

theorem RoundTrip.aqstart (h : Hdr) (d : Opd) (ev : Option (BitVec 3)) : RoundTrip.Statement (.aqstart h d ev) := by
  intro w hw hf
  cases hw
  refine decode_of (Fields.ofWord_packA ..) rfl ((raw8 _ _ _ _ _ _ _ (by decide)).trans ((arm8C ..).trans ?_)) hf
  have hk : ∀ (ev : Option (BitVec 3)), ((((((evToBits ev)).setWidth 12 <<< 7)) &&& 0x07F#12 == 0x000#12) = true) ∧ (evOfBits (fld 5 ((((evToBits ev)).setWidth 12 <<< 7)) 7) = some ev) := by
    intro ev
    rcases ev with _ | ev <;> (first | decide | (revert ev; decide))
  simp only [Opd.ofCode_code, hk ev]
  rfl

theorem RoundTrip.aqstop (h : Hdr) (d : Opd) (ev : Option (BitVec 3)) : RoundTrip.Statement (.aqstop h d ev) := by
  intro w hw hf
  cases hw
  refine decode_of (Fields.ofWord_packA ..) rfl ((raw8 _ _ _ _ _ _ _ (by decide)).trans ((arm8D ..).trans ?_)) hf
  have hk : ∀ (ev : Option (BitVec 3)), ((((((evToBits ev)).setWidth 12 <<< 7)) &&& 0x07F#12 == 0x000#12) = true) ∧ (evOfBits (fld 5 ((((evToBits ev)).setWidth 12 <<< 7)) 7) = some ev) := by
    intro ev
    rcases ev with _ | ev <;> (first | decide | (revert ev; decide))
  simp only [Opd.ofCode_code, hk ev]
  rfl

theorem RoundTrip.aqstopQry (h : Hdr) (d : Opd) (a : Opd) (ev : Option (BitVec 3)) : RoundTrip.Statement (.aqstopQry h d a ev) := by
  intro w hw hf
  cases hw
  refine decode_of (Fields.ofWord_packA ..) rfl ((raw8 _ _ _ _ _ _ _ (by decide)).trans ((arm8D ..).trans ?_)) hf
  have hk : ∀ (ev : Option (BitVec 3)), ((((((evToBits ev)).setWidth 12 <<< 7) ||| 0x001#12) &&& 0x07F#12 == 0x001#12) = true) ∧ ((((((evToBits ev)).setWidth 12 <<< 7) ||| 0x001#12) &&& 0x07F#12 == 0x000#12) = false) ∧ (evOfBits (fld 5 ((((evToBits ev)).setWidth 12 <<< 7) ||| 0x001#12) 7) = some ev) := by
    intro ev
    rcases ev with _ | ev <;> (first | decide | (revert ev; decide))
  simp only [Opd.ofCode_code, Bool.and_false, hk ev]
  rfl

theorem RoundTrip.ldc (h : Hdr) (d : Opd) (a : Opd) (b : Opd) (ty : MTy) : RoundTrip.Statement (.ldc h d a b ty) := by
  intro w hw hf
  cases hw
  refine decode_of (Fields.ofWord_packA ..) rfl ((raw8 _ _ _ _ _ _ _ (by decide)).trans ((arm8E ..).trans ?_)) hf
  have hc : ∀ (ty : MTy), (((((ty.toBits).setWidth 8 <<< 0)) &&& 0xF8#8 == 0#8) = true) ∧ (MTy.ofBits (fld 3 (((ty.toBits).setWidth 8 <<< 0)) 0) = some ty) := by
    intro ty
    cases ty <;> decide
  simp only [Opd.ofCode_code, hc ty]
  rfl

theorem RoundTrip.atom (h : Hdr) (d : Opd) (a : Opd) (b : Opd) (op : AtomOp) (ty : MTy) (sc : Scope) (od : Ord) : RoundTrip.Statement (.atom h d a b op ty sc od) := by
  intro w hw hf
  cases hw
  refine decode_of (Fields.ofWord_packA ..) rfl ((rawA _ _ _ _ _ _ _ (by decide)).trans ((armA0 ..).trans ?_)) hf
  have hk : ∀ (sc : Scope) (od : Ord), (((((sc.toBits).setWidth 12 <<< 7) ||| ((od.toBits).setWidth 12 <<< 5)) &&& 0xC1F#12 == 0x000#12) = true) ∧ (Scope.ofBits (fld 3 (((sc.toBits).setWidth 12 <<< 7) ||| ((od.toBits).setWidth 12 <<< 5)) 7) = some sc) ∧ (Ord.ofBits (fld 2 (((sc.toBits).setWidth 12 <<< 7) ||| ((od.toBits).setWidth 12 <<< 5)) 5) = some od) := by
    intro sc od
    cases sc <;> cases od <;> decide
  have hc : ∀ (op : AtomOp) (ty : MTy), (AtomOp.ofBits (fld 5 (((op.toBits).setWidth 8 <<< 3) ||| ((ty.toBits).setWidth 8 <<< 0)) 3) = some op) ∧ (MTy.ofBits (fld 3 (((op.toBits).setWidth 8 <<< 3) ||| ((ty.toBits).setWidth 8 <<< 0)) 0) = some ty) := by
    intro op ty
    cases op <;> cases ty <;> decide
  simp only [Opd.ofCode_code, hk sc od, hc op ty]
  rfl

theorem RoundTrip.acas (h : Hdr) (d : Opd) (a : Opd) (b : Opd) (ty : MTy) (sc : Scope) (od : Ord) : RoundTrip.Statement (.acas h d a b ty sc od) := by
  intro w hw hf
  cases hw
  refine decode_of (Fields.ofWord_packA ..) rfl ((rawA _ _ _ _ _ _ _ (by decide)).trans ((armA1 ..).trans ?_)) hf
  have hk : ∀ (sc : Scope) (od : Ord), (((((sc.toBits).setWidth 12 <<< 7) ||| ((od.toBits).setWidth 12 <<< 5)) &&& 0xC1F#12 == 0x000#12) = true) ∧ (Scope.ofBits (fld 3 (((sc.toBits).setWidth 12 <<< 7) ||| ((od.toBits).setWidth 12 <<< 5)) 7) = some sc) ∧ (Ord.ofBits (fld 2 (((sc.toBits).setWidth 12 <<< 7) ||| ((od.toBits).setWidth 12 <<< 5)) 5) = some od) := by
    intro sc od
    cases sc <;> cases od <;> decide
  have hc : ∀ (ty : MTy), (((((ty.toBits).setWidth 8 <<< 0)) &&& 0xF8#8 == 0#8) = true) ∧ (MTy.ofBits (fld 3 (((ty.toBits).setWidth 8 <<< 0)) 0) = some ty) := by
    intro ty
    cases ty <;> decide
  simp only [Opd.ofCode_code, hk sc od, hc ty]
  rfl

theorem RoundTrip.red (h : Hdr) (a : Opd) (b : Opd) (op : AtomOp) (ty : MTy) (sc : Scope) (od : Ord) : RoundTrip.Statement (.red h a b op ty sc od) := by
  intro w hw hf
  cases hw
  refine decode_of (Fields.ofWord_packA ..) rfl ((rawA _ _ _ _ _ _ _ (by decide)).trans ((armA2 ..).trans ?_)) hf
  have hk : ∀ (sc : Scope) (od : Ord), (((((sc.toBits).setWidth 12 <<< 7) ||| ((od.toBits).setWidth 12 <<< 5)) &&& 0xC1F#12 == 0x000#12) = true) ∧ (Scope.ofBits (fld 3 (((sc.toBits).setWidth 12 <<< 7) ||| ((od.toBits).setWidth 12 <<< 5)) 7) = some sc) ∧ (Ord.ofBits (fld 2 (((sc.toBits).setWidth 12 <<< 7) ||| ((od.toBits).setWidth 12 <<< 5)) 5) = some od) := by
    intro sc od
    cases sc <;> cases od <;> decide
  have hc : ∀ (op : AtomOp) (ty : MTy), (AtomOp.ofBits (fld 5 (((op.toBits).setWidth 8 <<< 3) ||| ((ty.toBits).setWidth 8 <<< 0)) 3) = some op) ∧ (MTy.ofBits (fld 3 (((op.toBits).setWidth 8 <<< 3) ||| ((ty.toBits).setWidth 8 <<< 0)) 0) = some ty) := by
    intro op ty
    cases op <;> cases ty <;> decide
  simp only [Opd.ofCode_code, hk sc od, hc op ty]
  rfl

theorem RoundTrip.fence (h : Hdr) (sc : Scope) (od : Ord) : RoundTrip.Statement (.fence h sc od) := by
  intro w hw hf
  cases hw
  refine decode_of (Fields.ofWord_packA ..) rfl ((rawA _ _ _ _ _ _ _ (by decide)).trans ((armA3 ..).trans ?_)) hf
  have hk : ∀ (sc : Scope) (od : Ord), (((((sc.toBits).setWidth 12 <<< 7) ||| ((od.toBits).setWidth 12 <<< 5)) &&& 0xC1F#12 == 0x000#12) = true) ∧ (Scope.ofBits (fld 3 (((sc.toBits).setWidth 12 <<< 7) ||| ((od.toBits).setWidth 12 <<< 5)) 7) = some sc) ∧ (Ord.ofBits (fld 2 (((sc.toBits).setWidth 12 <<< 7) ||| ((od.toBits).setWidth 12 <<< 5)) 5) = some od) := by
    intro sc od
    cases sc <;> cases od <;> decide
  simp only [hk sc od]
  rfl

theorem RoundTrip.bar (h : Hdr) (a : Opd) : RoundTrip.Statement (.bar h a) := by
  intro w hw hf
  cases hw
  refine decode_of (Fields.ofWord_packA ..) rfl ((rawA _ _ _ _ _ _ _ (by decide)).trans ((armA4 ..).trans ?_)) hf
  simp only [Opd.ofCode_code]
  rfl

theorem RoundTrip.nbar (h : Hdr) (a : Opd) : RoundTrip.Statement (.nbar h a) := by
  intro w hw hf
  cases hw
  refine decode_of (Fields.ofWord_packA ..) rfl ((rawA _ _ _ _ _ _ _ (by decide)).trans ((armA5 ..).trans ?_)) hf
  simp only [Opd.ofCode_code]
  rfl

theorem RoundTrip.slin (h : Hdr) (d : Opd) (a : Opd) (b : Opd) : RoundTrip.Statement (.slin h d a b) := by
  intro w hw hf
  cases hw
  refine decode_of (Fields.ofWord_packA ..) rfl ((rawA _ _ _ _ _ _ _ (by decide)).trans ((armA6 ..).trans ?_)) hf
  simp only [Opd.ofCode_code]
  rfl

theorem RoundTrip.slout (h : Hdr) (d : Opd) (a : Opd) : RoundTrip.Statement (.slout h d a) := by
  intro w hw hf
  cases hw
  refine decode_of (Fields.ofWord_packA ..) rfl ((rawA _ _ _ _ _ _ _ (by decide)).trans ((armA7 ..).trans ?_)) hf
  simp only [Opd.ofCode_code]
  rfl

theorem RoundTrip.sloutLast (h : Hdr) (d : Opd) (a : Opd) : RoundTrip.Statement (.sloutLast h d a) := by
  intro w hw hf
  cases hw
  refine decode_of (Fields.ofWord_packA ..) rfl ((rawA _ _ _ _ _ _ _ (by decide)).trans ((armA7 ..).trans ?_)) hf
  simp only [Opd.ofCode_code]
  rfl

theorem RoundTrip.slqry (h : Hdr) (d : Opd) (a : Opd) : RoundTrip.Statement (.slqry h d a) := by
  intro w hw hf
  cases hw
  refine decode_of (Fields.ofWord_packA ..) rfl ((rawA _ _ _ _ _ _ _ (by decide)).trans ((armA8 ..).trans ?_)) hf
  simp only [Opd.ofCode_code]
  rfl

theorem RoundTrip.slrst (h : Hdr) (d : Opd) (a : Opd) (b : Opd) : RoundTrip.Statement (.slrst h d a b) := by
  intro w hw hf
  cases hw
  refine decode_of (Fields.ofWord_packA ..) rfl ((rawA _ _ _ _ _ _ _ (by decide)).trans ((armA9 ..).trans ?_)) hf
  simp only [Opd.ofCode_code]
  rfl

theorem RoundTrip.slrstDel (h : Hdr) (d : Opd) (a : Opd) : RoundTrip.Statement (.slrstDel h d a) := by
  intro w hw hf
  cases hw
  refine decode_of (Fields.ofWord_packA ..) rfl ((rawA _ _ _ _ _ _ _ (by decide)).trans ((armA9 ..).trans ?_)) hf
  simp only [Opd.ofCode_code]
  rfl

theorem RoundTrip.send (h : Hdr) (d : Opd) (a : Opd) (n : BitVec 4) : RoundTrip.Statement (.send h d a n) := by
  intro w hw hf
  cases hw
  refine decode_of (Fields.ofWord_packA ..) rfl ((rawA _ _ _ _ _ _ _ (by decide)).trans ((armAA ..).trans ?_)) hf
  have hk : ∀ (n : BitVec 4), (((((n).setWidth 12 <<< 0)) &&& 0xFF0#12 == 0x000#12) = true) ∧ (fld 4 (((n).setWidth 12 <<< 0)) 0 = n) := by
    intro n
    (revert n; decide)
  simp only [Opd.ofCode_code, hk n]
  rfl

theorem RoundTrip.recv (h : Hdr) (d : Opd) (a : Opd) (n : BitVec 4) : RoundTrip.Statement (.recv h d a n) := by
  intro w hw hf
  cases hw
  refine decode_of (Fields.ofWord_packA ..) rfl ((rawA _ _ _ _ _ _ _ (by decide)).trans ((armAB ..).trans ?_)) hf
  have hk : ∀ (n : BitVec 4), (((((n).setWidth 12 <<< 0)) &&& 0xFF0#12 == 0x000#12) = true) ∧ (fld 4 (((n).setWidth 12 <<< 0)) 0 = n) := by
    intro n
    (revert n; decide)
  simp only [Opd.ofCode_code, hk n]
  rfl

theorem RoundTrip.mloadb (h : Hdr) (a : Opd) (b : Opd) (f : BitVec 5) (scr : Bool) (ev : Option (BitVec 3)) : RoundTrip.Statement (.mloadb h a b f scr ev) := by
  intro w hw hf
  cases hw
  refine decode_of (Fields.ofWord_packA ..) rfl ((rawB _ _ _ _ _ _ _ (by decide)).trans ((armB0 ..).trans ?_)) hf
  have hk : ∀ (f : BitVec 5) (scr : Bool) (ev : Option (BitVec 3)), (((((f).setWidth 12 <<< 0) ||| (((BitVec.ofBool scr)).setWidth 12 <<< 5) ||| (((evToBits ev)).setWidth 12 <<< 7)) &&& 0x040#12 == 0x000#12) = true) ∧ (fld 5 (((f).setWidth 12 <<< 0) ||| (((BitVec.ofBool scr)).setWidth 12 <<< 5) ||| (((evToBits ev)).setWidth 12 <<< 7)) 0 = f) ∧ ((fld 1 (((f).setWidth 12 <<< 0) ||| (((BitVec.ofBool scr)).setWidth 12 <<< 5) ||| (((evToBits ev)).setWidth 12 <<< 7)) 5 == 1#1) = scr) ∧ (evOfBits (fld 5 (((f).setWidth 12 <<< 0) ||| (((BitVec.ofBool scr)).setWidth 12 <<< 5) ||| (((evToBits ev)).setWidth 12 <<< 7)) 7) = some ev) := by
    intro f scr ev
    cases scr <;> rcases ev with _ | ev <;> (first | (revert f ev; decide) | (revert f; decide))
  simp only [Opd.ofCode_code, hk f scr ev]
  rfl

theorem RoundTrip.mma (h : Hdr) (a : Opd) (b : Opd) (nkm : BitVec 4) (bank : Bool) (ev : Option (BitVec 3)) : RoundTrip.Statement (.mma h a b nkm bank ev) := by
  intro w hw hf
  cases hw
  refine decode_of (Fields.ofWord_packA ..) rfl ((rawB _ _ _ _ _ _ _ (by decide)).trans ((armB1 ..).trans ?_)) hf
  have hk : ∀ (nkm : BitVec 4) (bank : Bool) (ev : Option (BitVec 3)), (((((nkm).setWidth 12 <<< 0) ||| (((BitVec.ofBool bank)).setWidth 12 <<< 4) ||| (((evToBits ev)).setWidth 12 <<< 7)) &&& 0x060#12 == 0x000#12) = true) ∧ (fld 4 (((nkm).setWidth 12 <<< 0) ||| (((BitVec.ofBool bank)).setWidth 12 <<< 4) ||| (((evToBits ev)).setWidth 12 <<< 7)) 0 = nkm) ∧ ((fld 1 (((nkm).setWidth 12 <<< 0) ||| (((BitVec.ofBool bank)).setWidth 12 <<< 4) ||| (((evToBits ev)).setWidth 12 <<< 7)) 4 == 1#1) = bank) ∧ (evOfBits (fld 5 (((nkm).setWidth 12 <<< 0) ||| (((BitVec.ofBool bank)).setWidth 12 <<< 4) ||| (((evToBits ev)).setWidth 12 <<< 7)) 7) = some ev) := by
    intro nkm bank ev
    cases bank <;> rcases ev with _ | ev <;> (first | (revert nkm ev; decide) | (revert nkm; decide))
  simp only [Opd.ofCode_code, hk nkm bank ev]
  rfl

theorem RoundTrip.mres (h : Hdr) (d : Opd) (g : BitVec 2) (bank : Bool) (ev : Option (BitVec 3)) : RoundTrip.Statement (.mres h d g bank ev) := by
  intro w hw hf
  cases hw
  refine decode_of (Fields.ofWord_packA ..) rfl ((rawB _ _ _ _ _ _ _ (by decide)).trans ((armB2 ..).trans ?_)) hf
  have hk : ∀ (g : BitVec 2) (bank : Bool) (ev : Option (BitVec 3)), (((((g).setWidth 12 <<< 0) ||| (((BitVec.ofBool bank)).setWidth 12 <<< 2) ||| (((evToBits ev)).setWidth 12 <<< 7)) &&& 0x078#12 == 0x000#12) = true) ∧ (fld 2 (((g).setWidth 12 <<< 0) ||| (((BitVec.ofBool bank)).setWidth 12 <<< 2) ||| (((evToBits ev)).setWidth 12 <<< 7)) 0 = g) ∧ ((fld 1 (((g).setWidth 12 <<< 0) ||| (((BitVec.ofBool bank)).setWidth 12 <<< 2) ||| (((evToBits ev)).setWidth 12 <<< 7)) 2 == 1#1) = bank) ∧ (evOfBits (fld 5 (((g).setWidth 12 <<< 0) ||| (((BitVec.ofBool bank)).setWidth 12 <<< 2) ||| (((evToBits ev)).setWidth 12 <<< 7)) 7) = some ev) := by
    intro g bank ev
    cases bank <;> rcases ev with _ | ev <;> (first | (revert g ev; decide) | (revert g; decide))
  simp only [Opd.ofCode_code, hk g bank ev]
  rfl

theorem RoundTrip.mfence (h : Hdr) (sc : Scope) : RoundTrip.Statement (.mfence h sc) := by
  intro w hw hf
  cases hw
  refine decode_of (Fields.ofWord_packA ..) rfl ((rawB _ _ _ _ _ _ _ (by decide)).trans ((armB3 ..).trans ?_)) hf
  have hk : ∀ (sc : Scope), (((((sc.toBits).setWidth 12 <<< 0)) &&& 0xFF8#12 == 0x000#12) = true) ∧ (Scope.ofBits (fld 3 (((sc.toBits).setWidth 12 <<< 0)) 0) = some sc) := by
    intro sc
    cases sc <;> decide
  simp only [hk sc]
  rfl

theorem RoundTrip.mwait (h : Hdr) : RoundTrip.Statement (.mwait h) := by
  intro w hw hf
  cases hw
  refine decode_of (Fields.ofWord_packA ..) rfl ((rawB _ _ _ _ _ _ _ (by decide)).trans ((armB4 ..).trans ?_)) hf
  rfl

theorem RoundTrip.had (h : Hdr) (a : Opd) (b : Opd) (c : Opd) (p : HadP) (ty : HadTy) (ev : Option (BitVec 3)) : RoundTrip.Statement (.had h a b c p ty ev) := by
  intro w hw hf
  cases hw
  refine decode_of (Fields.ofWord_packA ..) rfl ((rawB _ _ _ _ _ _ _ (by decide)).trans ((armB5 ..).trans ?_)) hf
  have hk : ∀ (p : HadP) (ty : HadTy) (ev : Option (BitVec 3)), (((((p.toBits).setWidth 12 <<< 0) ||| ((ty.toBits).setWidth 12 <<< 2) ||| (((evToBits ev)).setWidth 12 <<< 7)) &&& 0x070#12 == 0x000#12) = true) ∧ (HadP.ofBits (fld 2 (((p.toBits).setWidth 12 <<< 0) ||| ((ty.toBits).setWidth 12 <<< 2) ||| (((evToBits ev)).setWidth 12 <<< 7)) 0) = some p) ∧ (HadTy.ofBits (fld 2 (((p.toBits).setWidth 12 <<< 0) ||| ((ty.toBits).setWidth 12 <<< 2) ||| (((evToBits ev)).setWidth 12 <<< 7)) 2) = some ty) ∧ (evOfBits (fld 5 (((p.toBits).setWidth 12 <<< 0) ||| ((ty.toBits).setWidth 12 <<< 2) ||| (((evToBits ev)).setWidth 12 <<< 7)) 7) = some ev) := by
    intro p ty ev
    cases p <;> cases ty <;> rcases ev with _ | ev <;> (first | decide | (revert ev; decide))
  simp only [Opd.ofCode_code, hk p ty ev]
  rfl

theorem RoundTrip.twalk (h : Hdr) (d : Opd) (a : Opd) (b : Opd) (n : WDim) (ev : Option (BitVec 3)) : RoundTrip.Statement (.twalk h d a b n ev) := by
  intro w hw hf
  cases hw
  refine decode_of (Fields.ofWord_packA ..) rfl ((rawB _ _ _ _ _ _ _ (by decide)).trans ((armB6 ..).trans ?_)) hf
  have hk : ∀ (n : WDim) (ev : Option (BitVec 3)), (((((n.toBits).setWidth 12 <<< 0) ||| (((evToBits ev)).setWidth 12 <<< 7)) &&& 0x07C#12 == 0x000#12) = true) ∧ (WDim.ofBits (fld 2 (((n.toBits).setWidth 12 <<< 0) ||| (((evToBits ev)).setWidth 12 <<< 7)) 0) = some n) ∧ (evOfBits (fld 5 (((n.toBits).setWidth 12 <<< 0) ||| (((evToBits ev)).setWidth 12 <<< 7)) 7) = some ev) := by
    intro n ev
    cases n <;> rcases ev with _ | ev <;> (first | decide | (revert ev; decide))
  simp only [Opd.ofCode_code, hk n ev]
  rfl

theorem RoundTrip.tnext (h : Hdr) (d : Opd) (ev : Option (BitVec 3)) : RoundTrip.Statement (.tnext h d ev) := by
  intro w hw hf
  cases hw
  refine decode_of (Fields.ofWord_packA ..) rfl ((rawB _ _ _ _ _ _ _ (by decide)).trans ((armB7 ..).trans ?_)) hf
  have hk : ∀ (ev : Option (BitVec 3)), ((((((evToBits ev)).setWidth 12 <<< 7)) &&& 0x07F#12 == 0x000#12) = true) ∧ (evOfBits (fld 5 ((((evToBits ev)).setWidth 12 <<< 7)) 7) = some ev) := by
    intro ev
    rcases ev with _ | ev <;> (first | decide | (revert ev; decide))
  simp only [Opd.ofCode_code, hk ev]
  rfl

theorem RoundTrip.mzero (h : Hdr) (bank : Bool) (bd : Bool) : RoundTrip.Statement (.mzero h bank bd) := by
  intro w hw hf
  cases hw
  refine decode_of (Fields.ofWord_packA ..) rfl ((rawB _ _ _ _ _ _ _ (by decide)).trans ((armB8 ..).trans ?_)) hf
  have hk : ∀ (bank : Bool) (bd : Bool), ((((((BitVec.ofBool bank)).setWidth 12 <<< 0) ||| (((BitVec.ofBool bd)).setWidth 12 <<< 1)) &&& 0xFFC#12 == 0x000#12) = true) ∧ ((fld 1 ((((BitVec.ofBool bank)).setWidth 12 <<< 0) ||| (((BitVec.ofBool bd)).setWidth 12 <<< 1)) 0 == 1#1) = bank) ∧ ((fld 1 ((((BitVec.ofBool bank)).setWidth 12 <<< 0) ||| (((BitVec.ofBool bd)).setWidth 12 <<< 1)) 1 == 1#1) = bd) := by
    intro bank bd
    cases bank <;> cases bd <;> decide
  simp only [hk bank bd]
  rfl

theorem RoundTrip.beam (h : Hdr) (d : Opd) (a : Opd) (ev : Option (BitVec 3)) : RoundTrip.Statement (.beam h d a ev) := by
  intro w hw hf
  cases hw
  refine decode_of (Fields.ofWord_packA ..) rfl ((rawC _ _ _ _ _ _ _ (by decide)).trans ((armC0 ..).trans ?_)) hf
  have hk : ∀ (ev : Option (BitVec 3)), ((((((evToBits ev)).setWidth 12 <<< 7)) &&& 0x07F#12 == 0x000#12) = true) ∧ (evOfBits (fld 5 ((((evToBits ev)).setWidth 12 <<< 7)) 7) = some ev) := by
    intro ev
    rcases ev with _ | ev <;> (first | decide | (revert ev; decide))
  simp only [Opd.ofCode_code, hk ev]
  rfl

theorem RoundTrip.bfrag (h : Hdr) (d : Opd) (a : Opd) (ev : Option (BitVec 3)) : RoundTrip.Statement (.bfrag h d a ev) := by
  intro w hw hf
  cases hw
  refine decode_of (Fields.ofWord_packA ..) rfl ((rawC _ _ _ _ _ _ _ (by decide)).trans ((armC1 ..).trans ?_)) hf
  have hk : ∀ (ev : Option (BitVec 3)), ((((((evToBits ev)).setWidth 12 <<< 7)) &&& 0x07F#12 == 0x000#12) = true) ∧ (evOfBits (fld 5 ((((evToBits ev)).setWidth 12 <<< 7)) 7) = some ev) := by
    intro ev
    rcases ev with _ | ev <;> (first | decide | (revert ev; decide))
  simp only [Opd.ofCode_code, hk ev]
  rfl

theorem RoundTrip.bdone (h : Hdr) (a : Opd) : RoundTrip.Statement (.bdone h a) := by
  intro w hw hf
  cases hw
  refine decode_of (Fields.ofWord_packA ..) rfl ((rawC _ _ _ _ _ _ _ (by decide)).trans ((armC2 ..).trans ?_)) hf
  simp only [Opd.ofCode_code]
  rfl

theorem RoundTrip.rays (h : Hdr) (d : Opd) (a : Opd) (b : Opd) (first : Bool) (sh : Bool) (ev : Option (BitVec 3)) : RoundTrip.Statement (.rays h d a b first sh ev) := by
  intro w hw hf
  cases hw
  refine decode_of (Fields.ofWord_packA ..) rfl ((rawC _ _ _ _ _ _ _ (by decide)).trans ((armC3 ..).trans ?_)) hf
  have hk : ∀ (first : Bool) (sh : Bool) (ev : Option (BitVec 3)), ((((((BitVec.ofBool first)).setWidth 12 <<< 0) ||| (((BitVec.ofBool sh)).setWidth 12 <<< 1) ||| (((evToBits ev)).setWidth 12 <<< 7)) &&& 0x07C#12 == 0x000#12) = true) ∧ ((fld 1 ((((BitVec.ofBool first)).setWidth 12 <<< 0) ||| (((BitVec.ofBool sh)).setWidth 12 <<< 1) ||| (((evToBits ev)).setWidth 12 <<< 7)) 0 == 1#1) = first) ∧ ((fld 1 ((((BitVec.ofBool first)).setWidth 12 <<< 0) ||| (((BitVec.ofBool sh)).setWidth 12 <<< 1) ||| (((evToBits ev)).setWidth 12 <<< 7)) 1 == 1#1) = sh) ∧ (evOfBits (fld 5 ((((BitVec.ofBool first)).setWidth 12 <<< 0) ||| (((BitVec.ofBool sh)).setWidth 12 <<< 1) ||| (((evToBits ev)).setWidth 12 <<< 7)) 7) = some ev) := by
    intro first sh ev
    cases first <;> cases sh <;> rcases ev with _ | ev <;> (first | decide | (revert ev; decide))
  simp only [Opd.ofCode_code, hk first sh ev]
  rfl

theorem RoundTrip.hitget (h : Hdr) (d : Opd) (a : Opd) (ev : Option (BitVec 3)) : RoundTrip.Statement (.hitget h d a ev) := by
  intro w hw hf
  cases hw
  refine decode_of (Fields.ofWord_packA ..) rfl ((rawC _ _ _ _ _ _ _ (by decide)).trans ((armC4 ..).trans ?_)) hf
  have hk : ∀ (ev : Option (BitVec 3)), ((((((evToBits ev)).setWidth 12 <<< 7)) &&& 0x07F#12 == 0x000#12) = true) ∧ (evOfBits (fld 5 ((((evToBits ev)).setWidth 12 <<< 7)) 7) = some ev) := by
    intro ev
    rcases ev with _ | ev <;> (first | decide | (revert ev; decide))
  simp only [Opd.ofCode_code, hk ev]
  rfl

theorem RoundTrip.hitgetCand (h : Hdr) (d : Opd) (a : Opd) (ev : Option (BitVec 3)) : RoundTrip.Statement (.hitgetCand h d a ev) := by
  intro w hw hf
  cases hw
  refine decode_of (Fields.ofWord_packA ..) rfl ((rawC _ _ _ _ _ _ _ (by decide)).trans ((armC4 ..).trans ?_)) hf
  have hk : ∀ (ev : Option (BitVec 3)), ((((((evToBits ev)).setWidth 12 <<< 7) ||| 0x001#12) &&& 0x07F#12 == 0x001#12) = true) ∧ ((((((evToBits ev)).setWidth 12 <<< 7) ||| 0x001#12) &&& 0x07F#12 == 0x000#12) = false) ∧ (evOfBits (fld 5 ((((evToBits ev)).setWidth 12 <<< 7) ||| 0x001#12) 7) = some ev) := by
    intro ev
    rcases ev with _ | ev <;> (first | decide | (revert ev; decide))
  simp only [Opd.ofCode_code, Bool.and_false, hk ev]
  rfl

theorem RoundTrip.hitacc (h : Hdr) (a : Opd) (b : Opd) (c : Opd) : RoundTrip.Statement (.hitacc h a b c) := by
  intro w hw hf
  cases hw
  refine decode_of (Fields.ofWord_packA ..) rfl ((rawC _ _ _ _ _ _ _ (by decide)).trans ((armC5 ..).trans ?_)) hf
  simp only [Opd.ofCode_code]
  rfl

theorem RoundTrip.tex (h : Hdr) (d : Opd) (a : Opd) (b : Opd) (c : Opd) (nr : Bool) (ev : Option (BitVec 3)) : RoundTrip.Statement (.tex h d a b c nr ev) := by
  intro w hw hf
  cases hw
  refine decode_of (Fields.ofWord_packA ..) rfl ((rawC _ _ _ _ _ _ _ (by decide)).trans ((armC6 ..).trans ?_)) hf
  have hk : ∀ (nr : Bool) (ev : Option (BitVec 3)), ((((((BitVec.ofBool nr)).setWidth 12 <<< 0) ||| (((evToBits ev)).setWidth 12 <<< 7)) &&& 0x07E#12 == 0x000#12) = true) ∧ ((fld 1 ((((BitVec.ofBool nr)).setWidth 12 <<< 0) ||| (((evToBits ev)).setWidth 12 <<< 7)) 0 == 1#1) = nr) ∧ (evOfBits (fld 5 ((((BitVec.ofBool nr)).setWidth 12 <<< 0) ||| (((evToBits ev)).setWidth 12 <<< 7)) 7) = some ev) := by
    intro nr ev
    cases nr <;> rcases ev with _ | ev <;> (first | decide | (revert ev; decide))
  simp only [Opd.ofCode_code, hk nr ev]
  rfl

theorem RoundTrip.texq (h : Hdr) (d : Opd) (a : Opd) (b : Opd) (c : Opd) (ev : Option (BitVec 3)) : RoundTrip.Statement (.texq h d a b c ev) := by
  intro w hw hf
  cases hw
  refine decode_of (Fields.ofWord_packA ..) rfl ((rawC _ _ _ _ _ _ _ (by decide)).trans ((armC7 ..).trans ?_)) hf
  have hk : ∀ (ev : Option (BitVec 3)), ((((((evToBits ev)).setWidth 12 <<< 7)) &&& 0x07F#12 == 0x000#12) = true) ∧ (evOfBits (fld 5 ((((evToBits ev)).setWidth 12 <<< 7)) 7) = some ev) := by
    intro ev
    rcases ev with _ | ev <;> (first | decide | (revert ev; decide))
  simp only [Opd.ofCode_code, hk ev]
  rfl

theorem RoundTrip.bvhset (h : Hdr) (d : Opd) (a : Opd) (ev : Option (BitVec 3)) : RoundTrip.Statement (.bvhset h d a ev) := by
  intro w hw hf
  cases hw
  refine decode_of (Fields.ofWord_packA ..) rfl ((rawC _ _ _ _ _ _ _ (by decide)).trans ((armC8 ..).trans ?_)) hf
  have hk : ∀ (ev : Option (BitVec 3)), ((((((evToBits ev)).setWidth 12 <<< 7)) &&& 0x07F#12 == 0x000#12) = true) ∧ (evOfBits (fld 5 ((((evToBits ev)).setWidth 12 <<< 7)) 7) = some ev) := by
    intro ev
    rcases ev with _ | ev <;> (first | decide | (revert ev; decide))
  simp only [Opd.ofCode_code, hk ev]
  rfl

theorem RoundTrip.launch (h : Hdr) (d : Opd) (a : Opd) : RoundTrip.Statement (.launch h d a) := by
  intro w hw hf
  cases hw
  refine decode_of (Fields.ofWord_packA ..) rfl ((rawD _ _ _ _ _ _ _ (by decide)).trans ((armD0 ..).trans ?_)) hf
  simp only [Opd.ofCode_code]
  rfl

theorem RoundTrip.wchild (h : Hdr) (d : Opd) : RoundTrip.Statement (.wchild h d) := by
  intro w hw hf
  cases hw
  refine decode_of (Fields.ofWord_packA ..) rfl ((rawD _ _ _ _ _ _ _ (by decide)).trans ((armD1 ..).trans ?_)) hf
  simp only [Opd.ofCode_code]
  rfl

theorem RoundTrip.gsig (h : Hdr) (d : Opd) (a : Opd) : RoundTrip.Statement (.gsig h d a) := by
  intro w hw hf
  cases hw
  refine decode_of (Fields.ofWord_packA ..) rfl ((rawD _ _ _ _ _ _ _ (by decide)).trans ((armD2 ..).trans ?_)) hf
  simp only [Opd.ofCode_code]
  rfl

theorem RoundTrip.enrd (h : Hdr) (d : Opd) : RoundTrip.Statement (.enrd h d) := by
  intro w hw hf
  cases hw
  refine decode_of (Fields.ofWord_packA ..) rfl ((rawD _ _ _ _ _ _ _ (by decide)).trans ((armD3 ..).trans ?_)) hf
  simp only [Opd.ofCode_code]
  rfl

theorem RoundTrip.enrdBal (h : Hdr) (d : Opd) : RoundTrip.Statement (.enrdBal h d) := by
  intro w hw hf
  cases hw
  refine decode_of (Fields.ofWord_packA ..) rfl ((rawD _ _ _ _ _ _ _ (by decide)).trans ((armD3 ..).trans ?_)) hf
  simp only [Opd.ofCode_code]
  rfl

theorem RoundTrip.role (h : Hdr) (d : Opd) (a : Opd) : RoundTrip.Statement (.role h d a) := by
  intro w hw hf
  cases hw
  refine decode_of (Fields.ofWord_packA ..) rfl ((rawD _ _ _ _ _ _ _ (by decide)).trans ((armD4 ..).trans ?_)) hf
  simp only [Opd.ofCode_code]
  rfl

theorem RoundTrip.roleId (h : Hdr) (d : Opd) (a : Opd) : RoundTrip.Statement (.roleId h d a) := by
  intro w hw hf
  cases hw
  refine decode_of (Fields.ofWord_packA ..) rfl ((rawD _ _ _ _ _ _ _ (by decide)).trans ((armD4 ..).trans ?_)) hf
  simp only [Opd.ofCode_code]
  rfl

theorem RoundTrip.rolePos (h : Hdr) (d : Opd) (a : Opd) : RoundTrip.Statement (.rolePos h d a) := by
  intro w hw hf
  cases hw
  refine decode_of (Fields.ofWord_packA ..) rfl ((rawD _ _ _ _ _ _ _ (by decide)).trans ((armD4 ..).trans ?_)) hf
  simp only [Opd.ofCode_code]
  rfl

theorem RoundTrip.roleCnt (h : Hdr) (d : Opd) : RoundTrip.Statement (.roleCnt h d) := by
  intro w hw hf
  cases hw
  refine decode_of (Fields.ofWord_packA ..) rfl ((rawD _ _ _ _ _ _ _ (by decide)).trans ((armD4 ..).trans ?_)) hf
  simp only [Opd.ofCode_code]
  rfl

theorem RoundTrip.trap (h : Hdr) (imm : BitVec 32) : RoundTrip.Statement (.trap h imm) := by
  intro w hw hf
  cases hw
  refine decode_of (Fields.ofWord_packI ..) rfl ((rawE _ _ _ _ _ _ _ (by decide)).trans ((armE0 ..).trans ?_)) hf
  simp only [Fields.fn4_packI, Fields.imm_packI]
  rfl

theorem RoundTrip.rte (h : Hdr) : RoundTrip.Statement (.rte h) := by
  intro w hw hf
  cases hw
  refine decode_of (Fields.ofWord_packA ..) rfl ((rawE _ _ _ _ _ _ _ (by decide)).trans ((armE1 ..).trans ?_)) hf
  rfl

theorem RoundTrip.csrr (h : Hdr) (d : Opd) (reg : BitVec 12) : RoundTrip.Statement (.csrr h d reg) := by
  intro w hw hf
  cases hw
  refine decode_of (Fields.ofWord_packI ..) rfl ((rawE _ _ _ _ _ _ _ (by decide)).trans ((armE2 ..).trans ?_)) hf
  simp only [Opd.ofCode_code, Fields.fn4_packI, Fields.imm_packI, fld_reg, fld_reg_high]
  rfl

theorem RoundTrip.csrw (h : Hdr) (d : Opd) (reg : BitVec 12) : RoundTrip.Statement (.csrw h d reg) := by
  intro w hw hf
  cases hw
  refine decode_of (Fields.ofWord_packI ..) rfl ((rawE _ _ _ _ _ _ _ (by decide)).trans ((armE3 ..).trans ?_)) hf
  simp only [Opd.ofCode_code, Fields.fn4_packI, Fields.imm_packI, fld_reg, fld_reg_high]
  rfl

theorem RoundTrip.csrwSet (h : Hdr) (d : Opd) (reg : BitVec 12) : RoundTrip.Statement (.csrwSet h d reg) := by
  intro w hw hf
  cases hw
  refine decode_of (Fields.ofWord_packI ..) rfl ((rawE _ _ _ _ _ _ _ (by decide)).trans ((armE3 ..).trans ?_)) hf
  simp only [Opd.ofCode_code, Fields.fn4_packI, Fields.imm_packI, fld_reg, fld_reg_high]
  rfl

theorem RoundTrip.csrwClr (h : Hdr) (d : Opd) (reg : BitVec 12) : RoundTrip.Statement (.csrwClr h d reg) := by
  intro w hw hf
  cases hw
  refine decode_of (Fields.ofWord_packI ..) rfl ((rawE _ _ _ _ _ _ _ (by decide)).trans ((armE3 ..).trans ?_)) hf
  simp only [Opd.ofCode_code, Fields.fn4_packI, Fields.imm_packI, fld_reg, fld_reg_high]
  rfl

theorem RoundTrip.rinv (h : Hdr) (d : Opd) (a : Opd) (ev : Option (BitVec 3)) : RoundTrip.Statement (.rinv h d a ev) := by
  intro w hw hf
  cases hw
  refine decode_of (Fields.ofWord_packA ..) rfl ((rawE _ _ _ _ _ _ _ (by decide)).trans ((armE4 ..).trans ?_)) hf
  have hk : ∀ (ev : Option (BitVec 3)), ((((((evToBits ev)).setWidth 12 <<< 7)) &&& 0x07F#12 == 0x000#12) = true) ∧ (evOfBits (fld 5 ((((evToBits ev)).setWidth 12 <<< 7)) 7) = some ev) := by
    intro ev
    rcases ev with _ | ev <;> (first | decide | (revert ev; decide))
  simp only [Opd.ofCode_code, hk ev]
  rfl

theorem RoundTrip.rinvRange (h : Hdr) (d : Opd) (a : Opd) (b : Opd) (c : Opd) (ev : Option (BitVec 3)) : RoundTrip.Statement (.rinvRange h d a b c ev) := by
  intro w hw hf
  cases hw
  refine decode_of (Fields.ofWord_packA ..) rfl ((rawE _ _ _ _ _ _ _ (by decide)).trans ((armE4 ..).trans ?_)) hf
  have hk : ∀ (ev : Option (BitVec 3)), ((((((evToBits ev)).setWidth 12 <<< 7) ||| 0x001#12) &&& 0x07F#12 == 0x001#12) = true) ∧ ((((((evToBits ev)).setWidth 12 <<< 7) ||| 0x001#12) &&& 0x07F#12 == 0x000#12) = false) ∧ (evOfBits (fld 5 ((((evToBits ev)).setWidth 12 <<< 7) ||| 0x001#12) 7) = some ev) := by
    intro ev
    rcases ev with _ | ev <;> (first | decide | (revert ev; decide))
  simp only [Opd.ofCode_code, Bool.and_false, hk ev]
  rfl

theorem RoundTrip.qctlQ (h : Hdr) (d : Opd) (a : Opd) (ev : Option (BitVec 3)) : RoundTrip.Statement (.qctlQ h d a ev) := by
  intro w hw hf
  cases hw
  refine decode_of (Fields.ofWord_packA ..) rfl ((rawE _ _ _ _ _ _ _ (by decide)).trans ((armE5 ..).trans ?_)) hf
  have hk : ∀ (ev : Option (BitVec 3)), ((((((evToBits ev)).setWidth 12 <<< 7)) &&& 0x07F#12 == 0x000#12) = true) ∧ (evOfBits (fld 5 ((((evToBits ev)).setWidth 12 <<< 7)) 7) = some ev) := by
    intro ev
    rcases ev with _ | ev <;> (first | decide | (revert ev; decide))
  simp only [Opd.ofCode_code, hk ev]
  rfl

theorem RoundTrip.qctlR (h : Hdr) (d : Opd) (a : Opd) (ev : Option (BitVec 3)) : RoundTrip.Statement (.qctlR h d a ev) := by
  intro w hw hf
  cases hw
  refine decode_of (Fields.ofWord_packA ..) rfl ((rawE _ _ _ _ _ _ _ (by decide)).trans ((armE5 ..).trans ?_)) hf
  have hk : ∀ (ev : Option (BitVec 3)), ((((((evToBits ev)).setWidth 12 <<< 7) ||| 0x001#12) &&& 0x07F#12 == 0x001#12) = true) ∧ ((((((evToBits ev)).setWidth 12 <<< 7) ||| 0x001#12) &&& 0x07F#12 == 0x000#12) = false) ∧ (evOfBits (fld 5 ((((evToBits ev)).setWidth 12 <<< 7) ||| 0x001#12) 7) = some ev) := by
    intro ev
    rcases ev with _ | ev <;> (first | decide | (revert ev; decide))
  simp only [Opd.ofCode_code, Bool.and_false, hk ev]
  rfl

theorem RoundTrip.qctlQry (h : Hdr) (d : Opd) (a : Opd) (ev : Option (BitVec 3)) : RoundTrip.Statement (.qctlQry h d a ev) := by
  intro w hw hf
  cases hw
  refine decode_of (Fields.ofWord_packA ..) rfl ((rawE _ _ _ _ _ _ _ (by decide)).trans ((armE5 ..).trans ?_)) hf
  have hk : ∀ (ev : Option (BitVec 3)), ((((((evToBits ev)).setWidth 12 <<< 7) ||| 0x002#12) &&& 0x07F#12 == 0x002#12) = true) ∧ ((((((evToBits ev)).setWidth 12 <<< 7) ||| 0x002#12) &&& 0x07F#12 == 0x000#12) = false) ∧ ((((((evToBits ev)).setWidth 12 <<< 7) ||| 0x002#12) &&& 0x07F#12 == 0x001#12) = false) ∧ (evOfBits (fld 5 ((((evToBits ev)).setWidth 12 <<< 7) ||| 0x002#12) 7) = some ev) := by
    intro ev
    rcases ev with _ | ev <;> (first | decide | (revert ev; decide))
  simp only [Opd.ofCode_code, Bool.and_false, hk ev]
  rfl

theorem RoundTrip.sfuResult : ∀ x0 x1 x2, RoundTrip.Statement (.sfuResult x0 x1 x2) := by
  intros
  intro w hw
  cases hw
theorem RoundTrip.loadComplete : ∀ x0 x1 x2, RoundTrip.Statement (.loadComplete x0 x1 x2) := by
  intros
  intro w hw
  cases hw
theorem RoundTrip.copyComplete : ∀ x0, RoundTrip.Statement (.copyComplete x0) := by
  intros
  intro w hw
  cases hw
theorem RoundTrip.streamPush : ∀ x0, RoundTrip.Statement (.streamPush x0) := by
  intros
  intro w hw
  cases hw
theorem RoundTrip.qstComplete : ∀ x0 x1 x2, RoundTrip.Statement (.qstComplete x0 x1 x2) := by
  intros
  intro w hw
  cases hw
theorem RoundTrip.sluiceTimeout : ∀ x0 x1, RoundTrip.Statement (.sluiceTimeout x0 x1) := by
  intros
  intro w hw
  cases hw
theorem RoundTrip.sluiceDeadlock : ∀ x0, RoundTrip.Statement (.sluiceDeadlock x0) := by
  intros
  intro w hw
  cases hw
theorem RoundTrip.mloadbComplete : ∀ x0 x1 x2, RoundTrip.Statement (.mloadbComplete x0 x1 x2) := by
  intros
  intro w hw
  cases hw
theorem RoundTrip.mmaComplete : ∀ x0 x1 x2, RoundTrip.Statement (.mmaComplete x0 x1 x2) := by
  intros
  intro w hw
  cases hw
theorem RoundTrip.hadComplete : ∀ x0 x1 x2, RoundTrip.Statement (.hadComplete x0 x1 x2) := by
  intros
  intro w hw
  cases hw
theorem RoundTrip.beamTreeSettled : ∀ x0 x1, RoundTrip.Statement (.beamTreeSettled x0 x1) := by
  intros
  intro w hw
  cases hw
theorem RoundTrip.raysSettled : ∀ x0 x1, RoundTrip.Statement (.raysSettled x0 x1) := by
  intros
  intro w hw
  cases hw
theorem RoundTrip.clauseEntry : ∀ x0 x1, RoundTrip.Statement (.clauseEntry x0 x1) := by
  intros
  intro w hw
  cases hw
theorem RoundTrip.regionCommit : ∀ x0 x1 x2, RoundTrip.Statement (.regionCommit x0 x1 x2) := by
  intros
  intro w hw
  cases hw
theorem RoundTrip.sectorFill : ∀ x0 x1 x2, RoundTrip.Statement (.sectorFill x0 x1 x2) := by
  intros
  intro w hw
  cases hw
theorem RoundTrip.spillRefetch : ∀ x0, RoundTrip.Statement (.spillRefetch x0) := by
  intros
  intro w hw
  cases hw
theorem RoundTrip.faultResolved : ∀ x0 x1, RoundTrip.Statement (.faultResolved x0 x1) := by
  intros
  intro w hw
  cases hw
theorem RoundTrip.faultSlotRetry : ∀ x0, RoundTrip.Statement (.faultSlotRetry x0) := by
  intros
  intro w hw
  cases hw
theorem RoundTrip.recordTake : ∀ x0 x1, RoundTrip.Statement (.recordTake x0 x1) := by
  intros
  intro w hw
  cases hw
theorem RoundTrip.nodeComplete : ∀ x0, RoundTrip.Statement (.nodeComplete x0) := by
  intros
  intro w hw
  cases hw
theorem RoundTrip.gangPlace : ∀ x0, RoundTrip.Statement (.gangPlace x0) := by
  intros
  intro w hw
  cases hw
theorem RoundTrip.preemptSaved : ∀ x0, RoundTrip.Statement (.preemptSaved x0) := by
  intros
  intro w hw
  cases hw
theorem RoundTrip.park : ∀ x0, RoundTrip.Statement (.park x0) := by
  intros
  intro w hw
  cases hw
theorem RoundTrip.teamRetire : ∀ x0, RoundTrip.Statement (.teamRetire x0) := by
  intros
  intro w hw
  cases hw
theorem RoundTrip.energyRefill : RoundTrip.Statement (.energyRefill ) := by
  intro w hw
  cases hw
theorem RoundTrip.coreUncorrectableError : ∀ x0 x1, RoundTrip.Statement (.coreUncorrectableError x0 x1) := by
  intros
  intro w hw
  cases hw
theorem RoundTrip.schedulerCoreError : ∀ x0, RoundTrip.Statement (.schedulerCoreError x0) := by
  intros
  intro w hw
  cases hw
theorem RoundTrip.rootCoreError : RoundTrip.Statement (.rootCoreError ) := by
  intro w hw
  cases hw
theorem RoundTrip.boot : ∀ x0, RoundTrip.Statement (.boot x0) := by
  intros
  intro w hw
  cases hw
theorem RoundTrip.firmwareUpdate : ∀ x0, RoundTrip.Statement (.firmwareUpdate x0) := by
  intros
  intro w hw
  cases hw
theorem RoundTrip.hostBar2Access : ∀ x0 x1 x2, RoundTrip.Statement (.hostBar2Access x0 x1 x2) := by
  intros
  intro w hw
  cases hw
theorem RoundTrip.atsInvalidate : ∀ x0, RoundTrip.Statement (.atsInvalidate x0) := by
  intros
  intro w hw
  cases hw
theorem RoundTrip.peerAccess : ∀ x0 x1 x2, RoundTrip.Statement (.peerAccess x0 x1 x2) := by
  intros
  intro w hw
  cases hw
theorem RoundTrip.linkCrcError : ∀ x0 x1 x2, RoundTrip.Statement (.linkCrcError x0 x1 x2) := by
  intros
  intro w hw
  cases hw
theorem RoundTrip.qcfgWrite : ∀ x0 x1 x2, RoundTrip.Statement (.qcfgWrite x0 x1 x2) := by
  intros
  intro w hw
  cases hw
theorem RoundTrip.qidxWrite : ∀ x0 x1 x2, RoundTrip.Statement (.qidxWrite x0 x1 x2) := by
  intros
  intro w hw
  cases hw
theorem RoundTrip.fqcfgWrite : ∀ x0 x1, RoundTrip.Statement (.fqcfgWrite x0 x1) := by
  intros
  intro w hw
  cases hw
theorem RoundTrip.mqcfgWrite : ∀ x0 x1, RoundTrip.Statement (.mqcfgWrite x0 x1) := by
  intros
  intro w hw
  cases hw
theorem RoundTrip.mqidxWrite : ∀ x0 x1, RoundTrip.Statement (.mqidxWrite x0 x1) := by
  intros
  intro w hw
  cases hw
theorem RoundTrip.acthWrite : ∀ x0 x1, RoundTrip.Statement (.acthWrite x0 x1) := by
  intros
  intro w hw
  cases hw
theorem RoundTrip.slcfgWrite : ∀ x0 x1, RoundTrip.Statement (.slcfgWrite x0 x1) := by
  intros
  intro w hw
  cases hw
theorem RoundTrip.cqcfgWrite : ∀ x0 x1, RoundTrip.Statement (.cqcfgWrite x0 x1) := by
  intros
  intro w hw
  cases hw
theorem RoundTrip.cqidxWrite : ∀ x0 x1, RoundTrip.Statement (.cqidxWrite x0 x1) := by
  intros
  intro w hw
  cases hw
theorem RoundTrip.eqcfgWrite : ∀ x0 x1, RoundTrip.Statement (.eqcfgWrite x0 x1) := by
  intros
  intro w hw
  cases hw
theorem RoundTrip.pqmaskWrite : ∀ x0 x1 x2, RoundTrip.Statement (.pqmaskWrite x0 x1 x2) := by
  intros
  intro w hw
  cases hw
theorem RoundTrip.pwaysWrite : ∀ x0 x1 x2, RoundTrip.Statement (.pwaysWrite x0 x1 x2) := by
  intros
  intro w hw
  cases hw
theorem RoundTrip.nbndWrite : ∀ x0 x1 x2, RoundTrip.Statement (.nbndWrite x0 x1 x2) := by
  intros
  intro w hw
  cases hw
theorem RoundTrip.prsvWrite : ∀ x0 x1 x2, RoundTrip.Statement (.prsvWrite x0 x1 x2) := by
  intros
  intro w hw
  cases hw
theorem RoundTrip.asidvWrite : ∀ x0 x1 x2, RoundTrip.Statement (.asidvWrite x0 x1 x2) := by
  intros
  intro w hw
  cases hw
theorem RoundTrip.pcapWrite : ∀ x0 x1 x2, RoundTrip.Statement (.pcapWrite x0 x1 x2) := by
  intros
  intro w hw
  cases hw
theorem RoundTrip.fmodeWrite : ∀ x0 x1 x2, RoundTrip.Statement (.fmodeWrite x0 x1 x2) := by
  intros
  intro w hw
  cases hw
theorem RoundTrip.fflagsWrite : ∀ x0 x1 x2, RoundTrip.Statement (.fflagsWrite x0 x1 x2) := by
  intros
  intro w hw
  cases hw
theorem RoundTrip.registerWrite : ∀ x0 x1, RoundTrip.Statement (.registerWrite x0 x1) := by
  intros
  intro w hw
  cases hw
theorem RoundTrip.regionEndingResult : ∀ x0 x1 x2, RoundTrip.Statement (.regionEndingResult x0 x1 x2) := by
  intros
  intro w hw
  cases hw
theorem RoundTrip.texComplete : ∀ x0 x1 x2, RoundTrip.Statement (.texComplete x0 x1 x2) := by
  intros
  intro w hw
  cases hw
theorem RoundTrip.bvhsetComplete : ∀ x0 x1 x2, RoundTrip.Statement (.bvhsetComplete x0 x1 x2) := by
  intros
  intro w hw
  cases hw
theorem RoundTrip.shbindComplete : ∀ x0 x1 x2, RoundTrip.Statement (.shbindComplete x0 x1 x2) := by
  intros
  intro w hw
  cases hw
theorem RoundTrip.tnextComplete : ∀ x0 x1 x2 x3, RoundTrip.Statement (.tnextComplete x0 x1 x2 x3) := by
  intros
  intro w hw
  cases hw
theorem RoundTrip.mresComplete : ∀ x0 x1 x2, RoundTrip.Statement (.mresComplete x0 x1 x2) := by
  intros
  intro w hw
  cases hw
theorem RoundTrip.rinvComplete : ∀ x0 x1 x2, RoundTrip.Statement (.rinvComplete x0 x1 x2) := by
  intros
  intro w hw
  cases hw
theorem RoundTrip.faultRecordFreed : ∀ x0 x1, RoundTrip.Statement (.faultRecordFreed x0 x1) := by
  intros
  intro w hw
  cases hw
theorem RoundTrip.energyWrite : ∀ x0 x1 x2, RoundTrip.Statement (.energyWrite x0 x1 x2) := by
  intros
  intro w hw
  cases hw
theorem RoundTrip.schedulerCoreReloaded : ∀ x0, RoundTrip.Statement (.schedulerCoreReloaded x0) := by
  intros
  intro w hw
  cases hw
theorem RoundTrip.msixTableWrite : ∀ x0 x1 x2, RoundTrip.Statement (.msixTableWrite x0 x1 x2) := by
  intros
  intro w hw
  cases hw

end Sys2Proof.Laws
end

