-- ==== Sys2Proof/Laws/Work.lean ====
section
/-! SUPPORT. Sys2Proof/Laws/Work.lean: the operations that every meaning shares keep the canonical form of memory: those that touch no
memory leave it as it is; records, page faults, teardown and traps write it through the operations of Laws/Mem.lean; and issuing
an instruction keeps it whenever its effect does. -/
namespace Sys2Proof.Machine
open Host (Outcome)

@[simp] theorem State.mem_updTeam (s : State) (tag : Nat) (f : Team → Team) : (s.updTeam tag f).mem = s.mem := rfl
@[simp] theorem State.mem_updWave (s : State) (tag w : Nat) (f : Wave → Wave) : (s.updWave tag w f).mem = s.mem := rfl
@[simp] theorem State.mem_updGang (s : State) (gid : Nat) (f : Gang → Gang) : (s.updGang gid f).mem = s.mem := rfl
@[simp] theorem State.mem_updGrid (s : State) (id : Nat) (f : Grid → Grid) : (s.updGrid id f).mem = s.mem := rfl
@[simp] theorem State.mem_updPart (s : State) (p : Nat) (f : Part → Part) : (s.updPart p f).mem = s.mem := rfl
@[simp] theorem State.mem_bumpSeq (s : State) (p : Nat) : (s.bumpSeq p).mem = s.mem := rfl
@[simp] theorem State.mem_sendMsix (s : State) (v : Nat) : (s.sendMsix v).mem = s.mem := by unfold sendMsix; split; · rfl
                                                                                            split <;> rfl
@[simp] theorem State.mem_ringMsix (s : State) (p en lo : Nat) : (s.ringMsix p en lo).mem = s.mem := by unfold ringMsix; dsimp only; split <;> simp
@[simp] theorem State.mem_abandon (s : State) (f : Nat × Nat × Nat → Bool) : (s.abandon f).mem = s.mem := rfl
theorem State.memOk_leaveCore (s : State) (tag : Nat) (h : s.MemOk) : (s.leaveCore tag).MemOk := by
  unfold leaveCore
  split
  · exact memOk_cache.dropLines _ _ h
  · exact h
theorem State.memOk_freeTeam (s : State) (tag : Nat) (h : s.MemOk) : (s.freeTeam tag).MemOk := s.memOk_leaveCore tag h
@[simp] theorem State.mem_meterTeam (s : State) (tag : Nat) : (s.meterTeam tag).mem = s.mem := rfl
@[simp] theorem State.mem_trueUp (s : State) (tag : Nat) : (s.trueUp tag).mem = s.mem := by unfold trueUp; dsimp only; split <;> simp
@[simp] theorem State.mem_unpark (s : State) : s.unpark.mem = s.mem := rfl
@[simp] theorem State.mem_gridRetire (s : State) (g : Grid) : (s.gridRetire g).mem = s.mem := by
  unfold gridRetire; dsimp only; split
  · split <;> simp
  · simp
@[simp] theorem State.mem_gridsRetire : ∀ (n : Nat) (s : State), (s.gridsRetire n).mem = s.mem
  | 0, _ => rfl
  | n + 1, s => by unfold gridsRetire; split <;> simp [mem_gridsRetire n]
@[simp] theorem State.mem_afterEnd (s : State) : s.afterEnd.mem = s.mem := mem_gridsRetire 11 s
@[simp] theorem State.mem_abort1 (s : State) (tag w : Nat) (r : Region) : (s.abort1 tag w r).mem = s.mem := rfl
/-- A fold of operations that leave memory as it is leaves memory as it is. -/
theorem State.mem_foldl {α : Type} (f : State → α → State) (hf : ∀ s a, (f s a).mem = s.mem) (l : List α) (s : State) : (l.foldl f s).mem = s.mem :=
  foldl_keeps (fun t => t.mem = s.mem) f (fun t a h => (hf t a).trans h) l s rfl
@[simp] theorem State.mem_abort (s : State) (tag w : Nat) (sls : List Nat) : (s.abort tag w sls).1.mem = s.mem := by
  unfold abort
  split
  · rfl
  · rename_i wv _
    have hm : ∀ rs : List Region, (rs.foldl (fun s r => s.abort1 tag w r) (s.updTeam tag (fun t =>
        { t with pool := t.pool.map (fun x => (x.1, x.2.undo (rs.map (·.rid)))) }))).mem = s.mem := fun rs => mem_foldl (fun s r => s.abort1 tag w r) (fun _ _ => rfl) rs _
    have hx : ∀ (b : Bool) (x : State × List Nat) (y : State × List Nat), x.1.mem = s.mem → y.1.mem = s.mem → (if b then x else y).1.mem = s.mem := by
      intro b x y hx hy; cases b <;> assumption
    exact hx _ _ _ (hm _) (hm _)
@[simp] theorem State.mem_finishPend (s : State) (tag w : Nat) (q : Pend) (ws : List RegW) (fl : BitVec 8) : (s.finishPend tag w q ws fl).mem = s.mem := rfl
@[simp] theorem State.mem_flushSfu (s : State) (tag w : Nat) : (s.flushSfu tag w).mem = s.mem := by
  unfold flushSfu; split
  · rfl
  · exact mem_foldl (fun s (q : Pend) => s.finishPend tag w q q.wr q.flags) (fun _ _ => rfl) _ _
@[simp] theorem State.mem_advance (s : State) (c : Ctx) (i : Instr) : (s.advance c i).mem = s.mem := rfl
@[simp] theorem State.mem_settle (s : State) (tag w : Nat) : (s.settle tag w).mem = s.mem := rfl

/-! ### Records -/

theorem State.memOk_postError (s : State) (p : Nat) (e : ErrRec) (h : s.MemOk) : (s.postError p e).MemOk := by
  unfold postError
  dsimp only
  split
  · simpa only [MemOk, mem_updPart] using h
  · split
    · simpa only [MemOk, mem_updPart] using h
    · simpa only [MemOk, mem_ringMsix, mem_updPart, mem_bumpSeq] using memOk_cache.writeVia _ _ _ _ _ _ _ _ h (by assumption)
theorem State.memOk_slotFailed (s : State) (p : Nat) (x : Nat × Nat) (b : Bad) (h : s.MemOk) : (s.slotFailed p x b).MemOk := by
  unfold slotFailed
  split
  · exact h
  · simpa only [MemOk, mem_updPart] using s.memOk_postError p _ h
theorem State.memOk_putSlot (s : State) (p : Nat) (x : Nat × Nat) (r : List Byte) (h : s.MemOk) : (s.putSlot p x r).1.MemOk := by
  unfold putSlot
  split
  · exact s.memOk_slotFailed p x _ h
  · simpa only [MemOk, mem_updPart] using memOk_cache.writeVia _ _ _ _ _ _ _ _ h (by assumption)
theorem State.memOk_enterFault (s : State) (p asid blk : Nat) (pages : DWord) (kinds : Nat) (h : s.MemOk) : (s.enterFault p asid blk pages kinds).1.MemOk := by
  have ht : ∀ x : Nat × Nat, (s.touch .agent p x.1 x.2 64 true .read true).MemOk := fun x => memOk_cache.touch _ _ _ _ _ _ _ _ _ h
  have hp : ∀ (u : State) (x : Nat × Nat) r (y : State × Option (Nat × Nat)), u.MemOk → u.putSlot p x r = y → y.1.MemOk :=
    fun u x r y hu e => e ▸ u.memOk_putSlot p x r hu
  unfold enterFault
  dsimp only
  split
  · exact h
  · split
    · exact memOk_slotFailed _ _ _ _ h
    · split
      · exact memOk_slotFailed _ _ _ _ (ht _)
      · exact memOk_putSlot _ _ _ _ (ht _)
    · have hx := ht ((s.part p).fqSlot (s.part p).fqNext)
      generalize s.touch .agent p ((s.part p).fqSlot (s.part p).fqNext).1 ((s.part p).fqSlot (s.part p).fqNext).2 64 true .read true = u at hx ⊢
      split
      · exact memOk_slotFailed _ _ _ _ hx
      · split
        · exact hx
        · split
          · rename_i e
            exact hp u _ _ _ hx e
          · rename_i e
            simp only [MemOk, mem_ringMsix, mem_updPart, mem_bumpSeq]
            exact hp u _ _ _ hx e
theorem State.memOk_enterFaultsK (s : State) (p asid : Nat) (pages : FaultPages) (sls : List Nat) (h : s.MemOk) : (s.enterFaultsK p asid pages sls).1.MemOk :=
  foldl_keeps (fun x : State × List Hold => x.1.MemOk) _ (fun x _ hx => x.1.memOk_enterFault _ _ _ _ _ hx) _ _ h
/-- Page faults enter their records and hold their slices. -/
theorem State.memOk_pageFaults (s : State) (tag w : Nat) (l : List (List Nat × FaultPages)) (h : s.MemOk) : (s.pageFaults tag w l).MemOk := by
  unfold pageFaults
  refine foldl_keeps MemOk _ (fun s x hs => ?_) _ _ (by rwa [MemOk, mem_abort])
  unfold faultHold
  split
  · exact hs
  · exact memOk_enterFaultsK _ _ _ _ _ hs
theorem State.memOk_pageFaultK (s : State) (tag w : Nat) (sls : List Nat) (pages : FaultPages) (h : s.MemOk) : (s.pageFaultK tag w sls pages).MemOk :=
  s.memOk_pageFaults _ _ _ h
theorem State.memOk_pageFault (s : State) (tag w : Nat) (sls pages : List Nat) (kinds : Nat) (h : s.MemOk) : (s.pageFault tag w sls pages kinds).MemOk :=
  s.memOk_pageFaultK _ _ _ _ h

/-! ### Teardown and traps -/

theorem State.memOk_teardown (s : State) (gid who cause flg addr : Nat) (h : s.MemOk) : (s.teardown gid who cause flg addr).MemOk := by
  unfold teardown
  split
  · exact h
  · dsimp only
    rw [MemOk, mem_afterEnd, mem_updGrid, mem_updGang]
    refine foldl_keeps MemOk (fun s (t : Team) => s.freeTeam t.tag) (fun s t hs => s.memOk_freeTeam _ hs) _ _ ?_
    refine foldl_keeps MemOk _ (fun s t hs => s.memOk_postError _ _ hs) _ _ ?_
    rw [MemOk, mem_foldl (fun s (t : Team) => s.trueUp t.tag) (fun s t => s.mem_trueUp t.tag), mem_abandon]
    have hw (t : Team) (s : State) (wv : Wave) : (wv.regions.foldl (fun s r => s.abort1 t.tag wv.ix r) s).mem = s.mem :=
      mem_foldl (fun s r => s.abort1 t.tag wv.ix r) (fun _ _ => rfl) _ _
    rwa [mem_foldl (fun s (t : Team) => t.waves.foldl (fun s wv => wv.regions.foldl (fun s r => s.abort1 t.tag wv.ix r) s) s) (fun s t => mem_foldl _ (hw t) _ _)]
theorem State.memOk_writePieces (s u : State) (t : Team) (base : Nat) (ps : List (Nat × List Byte)) (h : s.MemOk) (w : s.writePieces t base ps = some u) : u.MemOk := by
  unfold writePieces at w
  split at w
  · cases w; exact foldl_keeps MemOk _ (fun s x hs => memOk_cache.writeBy _ _ _ _ _ _ _ hs) _ _ h
  · cases w
theorem State.memOk_writeFrame (s u : State) (t : Team) (base : Nat) (wv : Wave) (faddr : DWord) (vr sr : Nat) (h : s.MemOk)
    (w : s.writeFrame t base wv faddr vr sr = some u) : u.MemOk := by
  unfold writeFrame at w
  split at w
  · cases w
  · rename_i s1 h1
    have hs := s.memOk_writePieces s1 t base _ h h1
    simp only [Option.some.injEq] at w
    subst w
    cases e : s1.writePieces t base (List.filter (s1.pieceOk t base) (frameOpen s.free vr sr)) with
    | none => exact hs
    | some v => exact s1.memOk_writePieces v t base _ hs e
/-- Entering a pending trap writes the frame, or tears the gang down, or leaves memory as it is. -/
theorem State.memOk_enterTrap (s : State) (tag w : Nat) (h : s.MemOk) : (s.enterTrap tag w).MemOk := by
  unfold enterTrap
  split
  · split
    · exact h
    · dsimp only
      split
      · exact h
      · split
        · exact s.memOk_teardown _ _ _ _ _ h
        · split
          · exact s.memOk_teardown _ _ _ _ _ h
          · split
            · exact h
            · split
              · exact s.memOk_teardown _ _ _ _ _ h
              · rw [MemOk, mem_updTeam]; exact s.memOk_writeFrame _ _ _ _ _ _ _ h (by assumption)
  · exact h
/-- Taking a trap keeps the form of memory. -/
theorem State.memOk_takeTrap (s : State) (tag w : Nat) (bl : Lanes) (q : TrapReq) (h : s.MemOk) : (s.takeTrap tag w bl q).MemOk := by
  unfold takeTrap
  exact memOk_enterTrap _ _ _ (by rw [MemOk, mem_updWave, mem_flushSfu, mem_abort]; exact h)
theorem State.memOk_stop (s : State) (c : Ctx) (x : Stop) (h : s.MemOk) : (s.stop c x).MemOk := by
  cases x
  · exact h
  · exact s.memOk_takeTrap _ _ _ _ h
  · exact s.memOk_pageFaultK _ _ _ _ h
/-- Issuing an instruction keeps the form whenever its effect keeps it. -/
theorem memOk_issue (i : Instr) (s t : State) (k : Ctx → State → Except Stop State) (hk : ∀ c u v, u.MemOk → k c u = .ok v → v.MemOk)
    (h : s.MemOk) (e : issue i s k = .next t) : t.MemOk := by
  unfold issue at e
  split at e
  · cases e
  · cases e; exact s.memOk_stop _ _ h
  · rename_i c s' hp
    have hs : s'.MemOk := (pre_go s i c s' hp).keeps _ memOk_cache (fun _ _ _ p => p) h
    split at e
    · rename_i v hv; cases e; exact (hk c (s'.advance c i) v hs hv : v.mem.wf = true)
    · cases e; exact s.memOk_stop _ _ h
/-- A computing instruction keeps the form of memory. -/
theorem memOk_compute (i : Instr) (s t : State) (f : Ctx → List RegW × BitVec 8) (h : s.MemOk) (e : compute i s f = .next t) : t.MemOk := by
  unfold compute at e
  exact memOk_issue i s t _ (fun c u v hu hv => by cases hv; exact hu) h e
theorem memOk_endRegion (i : Instr) (s t : State) (f : Ctx → List DWord × List DWord × List DWord) (h : s.MemOk) (e : endRegion i s f = .next t) : t.MemOk := by
  unfold endRegion at e
  exact memOk_issue i s t _ (fun c u v hu hv => by cases hv; exact hu) h e

end Sys2Proof.Machine
end

