-- ==== Sys2Proof/Tests/Slice0.lean ====
section
/-! SUPPORT. Sys2Proof/Tests/Slice0.lean: small tests of the model, and for every obligation with hypotheses a concrete state that
meets them. The words of the decoding tests are the manual's own examples, or are assembled by hand from Tables 3.2 to 3.6 and the
encoding line of the instruction's entry; other expected values come from the tables and entries that the comments name. -/
namespace Sys2Proof.Tests
open Sys2Proof Sys2Proof.Machine
set_option Elab.async false

/-- STALL 0 and no guard. -/
def h0 : Hdr := { stall := 0, gn := false, gp := 127 }
/-- Every word decodes to the instruction beside it. -/
def reads (l : List (BitVec 64 × Instr)) : Bool := l.all (fun x => match decode x.1 with | .ok i => i == x.2 | _ => false)
/-- The state is past the issue checks of `i`, and `P` holds of it and of the issue. -/
def wit (s : State) (i : Instr) (P : State → Ctx → Bool) : Bool := match s.pre i with | .go c _ => P s c | _ => false
/-- Wave 0 of team 1 about to issue, all threads active, changed by `f`. -/
def base (f : Wave → Wave) : State := { (State.reset.atWord 0).updWave 1 0 f with cur := some (1, 0) }
/-- `exec i s` is a next state of which `P` holds. -/
def goes (i : Instr) (s : State) (P : State → Bool) : Bool := match exec i s with | .next t => P t | _ => false
/-- In `base`, every instruction of the list is past its issue checks with an active thread. -/
def issues (l : List (BitVec 64 × Instr)) : Bool := l.all (fun x => wit (base id) x.2 (fun _ c => c.lanes ≠ 0))

/-! ### Decoding -/

def controlWords : List (BitVec 64 × Instr) := [
    (0x00583C0C0C0C0000, .nop { stall := 5, gn := true, gp := 3 }), (0x0107FC0000000005, .bra h0 5),
    (0x0107FC00FFFFFFFD, .bra h0 0xFFFFFFFD), (0x0207FC087C0C0000, .brx h0 (.s 7)), (0x0207FC006C0C0000, .brx h0 (.v 6)),
    (0x0307F86000000020, .call h0 (.s 6) 0x20), (0x0407FC086C0C0000, .ret h0 (.s 6)), (0x0507FC0C0C0C0000, .join h0),
    (0x0607FD8000000006, .loop h0 (.lc 0) 6), (0x0607FDA000000009, .loop h0 (.lc 2) 9), (0x0707FC0000000009, .lexit h0 9),
    (0x0807FC0C0C0C0000, .exit h0), (0x0907FC0C0C0C0000, .yield h0), (0x0A07FC0C0C0C0105, .wait h0 1 0x05)]
theorem test_decode_control : reads controlWords = true := by decide +kernel
def integerWords : List (BitVec 64 × Instr) := [
    (0x1007F0401EFC0000, .iadd h0 (.v 4) (.v 1) (.k 15) .wrap), (0x1007F8481C6C0002, .iadd h0 (.s 4) (.s 1) .role .n32),
    (0x1107F050102C0003, .isub h0 (.v 5) (.v 1) (.v 2) .i32), (0x1207F040102C0000, .imul h0 (.v 4) (.v 1) (.v 2)),
    (0x1307F040102C0001, .imulh h0 (.v 4) (.v 1) (.v 2) true), (0x1407F04010203000, .imad h0 (.v 4) (.v 1) (.v 2) (.v 3)),
    (0x1507F040102C0000, .imin h0 (.v 4) (.v 1) (.v 2) false), (0x1607F040102C0001, .imax h0 (.v 4) (.v 1) (.v 2) true),
    (0x1707F0401C0C0002, .iabs h0 (.v 4) (.v 1) true), (0x1807F020102C0005, .icmp h0 2 (.v 1) (.v 2) true .lt),
    (0x2907F04010203001, .sad h0 (.v 4) (.v 1) (.v 2) (.v 3) true)]
theorem test_decode_integer : reads integerWords = true := by decide +kernel
def bitWords : List (BitVec 64 × Instr) := [
    (0x1907F050183C0000, .and h0 (.v 5) (.v 1) (.s 3)), (0x1A07F050183C0000, .or h0 (.v 5) (.v 1) (.s 3)),
    (0x1B07F050183C0000, .xor h0 (.v 5) (.v 1) (.s 3)), (0x1C07F050183C0000, .andn h0 (.v 5) (.v 1) (.s 3)),
    (0x1D07F050183C0000, .shl h0 (.v 5) (.v 1) (.s 3)), (0x1F07F050183C0000, .sar h0 (.v 5) (.v 1) (.s 3)),
    (0x1E07F0701E4C0000, .shr h0 (.v 7) (.v 1) (.k 4)), (0x2007F050102C0001, .rot h0 (.v 5) (.v 1) (.v 2) true),
    (0x2107F057FC0C0000, .popc h0 (.v 5) (.v 127)), (0x2207F057FC0C0000, .clz h0 (.v 5) (.v 127)),
    (0x2307F057FC0C0000, .brev h0 (.v 5) (.v 127)), (0x2407F0801E8E4001, .bfe h0 (.v 8) (.v 1) (.k 8) (.k 4) true),
    (0x2507F08010203000, .bfi h0 (.v 8) (.v 1) (.v 2) (.v 3)), (0x2A07F09010203000, .bsel h0 (.v 9) (.v 1) (.v 2) (.v 3)),
    (0x2B07F0B010203003, .idot4 h0 (.v 11) (.v 1) (.v 2) (.v 3) true true false),
    (0x2607F0A8403C0022, .lea h0 (.v 10) (.s 4) (.v 3) 2 true false), (0x2707F8A8483C0002, .iaddw h0 (.s 10) (.s 4) (.s 3) .i32),
    (0x2807F05010206001, .iaddc h0 (.v 5) (.v 1) (.v 2) 6 true)]
theorem test_decode_bit : reads bitWords = true := by decide +kernel
def floatWords : List (BitVec 64 × Instr) := [
    (0x3007F050102C0004, .fadd h0 (.v 5) (.v 1) (.v 2) .rn), (0x3107F050102C0005, .fsub h0 (.v 5) (.v 1) (.v 2) .rz),
    (0x3207F050102C0007, .fmul h0 (.v 5) (.v 1) (.v 2) .ru), (0x3307F0C010203000, .ffma h0 (.v 12) (.v 1) (.v 2) (.v 3) .dyn),
    (0x3407F190102C0000, .fmin h0 (.v 25) (.v 1) (.v 2)), (0x3507F190102C0000, .fmax h0 (.v 25) (.v 1) (.v 2)),
    (0x3607F030102C0002, .fcmp h0 3 (.v 1) (.v 2) .lt), (0x3607F7F0102C0007, .fcmp h0 127 (.v 1) (.v 2) .ord),
    (0x3707F0D01C0C0006, .frnd h0 (.v 13) (.v 1) .rd false), (0x3807F0E01C0C0000, .fclass h0 (.v 14) (.v 1)),
    (0x3907F050102C0000, .fscale h0 (.v 5) (.v 1) (.v 2) .dyn), (0x3A07F040102C0000, .twosum h0 (.v 4) (.v 1) (.v 2)),
    (0x3B07F040102C0000, .twoprod h0 (.v 4) (.v 1) (.v 2)), (0x3C07F040406C0001, .faddp h0 (.v 4) (.v 4) (.v 6) true)]
theorem test_decode_float : reads floatWords = true := by decide +kernel
def packedAndConversionWords : List (BitVec 64 × Instr) := [
    (0x3D07F050102C0008, .pkadd h0 (.v 5) (.v 1) (.v 2) .dyn true), (0x3E07F050102C0004, .pkmul h0 (.v 5) (.v 1) (.v 2) .rn false),
    (0x3F07F11010203000, .pkfma h0 (.v 17) (.v 1) (.v 2) (.v 3) .dyn false),
    (0x4007F0501020300D, .pkfmab h0 (.v 5) (.v 1) (.v 2) (.v 3) .rz true), (0x5807F1501C0C0000, .cvtif h0 (.v 21) (.v 1) .dyn .n32),
    (0x5907F1401C0C0015, .cvtfi h0 (.v 20) (.v 1) .rz .i32), (0x5A07F1D01C0C0000, .cvtff h0 (.v 29) (.v 1) .dyn false),
    (0x5B07F160102C0010, .packh h0 (.v 22) (.v 1) (.v 2) .dyn true), (0x5C07F1716C0C0020, .unpkh h0 (.v 23) (.v 22) false true),
    (0x5D07F140406C0021, .decn h0 (.v 20) (.v 4) (.v 6) 1 true false)]
theorem test_decode_packed_and_conversion : reads packedAndConversionWords = true := by decide +kernel
def specialFunctionWords : List (BitVec 64 × Instr) := [
    (0x5007F1201C0C0000, .rcp h0 (.v 18) (.v 1) .dyn), (0x5107F1201C0C0000, .rsq h0 (.v 18) (.v 1)),
    (0x5207F1201C0C0004, .sqrt h0 (.v 18) (.v 1) .rn), (0x5307F1201C0C0000, .exp2 h0 (.v 18) (.v 1)),
    (0x5407F1201C0C0000, .log2 h0 (.v 18) (.v 1)), (0x5607F1201C0C0000, .cos h0 (.v 18) (.v 1)),
    (0x5707F1201C0C0000, .tanh h0 (.v 18) (.v 1)), (0x5507F1301C0C0000, .sin h0 (.v 19) (.v 1))]
theorem test_decode_special_function : reads specialFunctionWords = true := by decide +kernel
def moveWords : List (BitVec 64 × Instr) := [
    (0x6007FD8E3C0C0000, .mov h0 (.lc 0) (.k 3) false), (0x6007F8389C0C0001, .mov h0 (.s 3) (.s 9) true),
    (0x6107F0200000000A, .movi h0 (.v 2) 10), (0x6107F891FFFFFFFF, .moviS h0 (.s 9) 0xFFFFFFFF),
    (0x6107F9020000000A, .moviHi h0 (.s 16) 10), (0x6207F04010203000, .sel h0 (.v 4) (.v 1) (.v 2) 3 false),
    (0x6807F8305E7C0000, .smov h0 (.s 3) (.v 5) (.k 7) false), (0x6307F020001C0002, .pand h0 2 0 1 false true),
    (0x6407F020001C0001, .por h0 2 0 1 true false), (0x6507F020001C0000, .pxor h0 2 0 1 false false),
    (0x6607F027FC0C0000, .pmov h0 2 127), (0x6607F0203C0C0001, .pmovNot h0 2 3), (0x6607F0203C0C0002, .pmovVal h0 (.v 2) 3),
    (0x6607F0407C0C0003, .pmovNz h0 4 (.v 7)), (0x6707F01C1C0C0040, .pset h0 1 .lane 4), (0x6707F0901C0C01F1, .psetPack h0 (.v 9) 1 31)]
theorem test_decode_move : reads moveWords = true := by decide +kernel
def crossLaneWords : List (BitVec 64 × Instr) := [
    (0x7007F0904E206052, .lxch h0 (.v 9) (.v 4) (.k 2) (some 6) .hi .g8),
    (0x7007F0A06E1C001C, .lxch h0 (.v 10) (.v 6) (.k 1) none .rot .g4), (0x7107F0207C0C0001, .agree h0 2 7 .some false),
    (0x7207F857FC0C0000, .ballot h0 (.s 5) 127 false false), (0x7307F860AC0C0090, .wred h0 (.s 6) (.v 10) .dyn .max .f32),
    (0x7407F0C03C0C0100, .wscan h0 (.v 12) (.v 3) .dyn .add .n32 true), (0x7507F0E0288C0000, .rebal h0 (.v 14) (.v 2) (.s 8)),
    (0x7607F100405C0000, .csamp h0 (.v 16) (.v 4) (.v 5)), (0x7707F12C189C0001, .rand h0 (.v 18) .lane (.s 9) true)]
theorem test_decode_cross_lane : reads crossLaneWords = true := by decide +kernel
def memoryWords : List (BitVec 64 × Instr) := [
    (0x8007F04820302000, .ld h0 (.v 4) (.s 2) (.v 3) .b32 .normal .core .rlx),
    (0x8007F0482C002220, .ld h0 (.v 4) (.s 2) .zero .b32 .normal .dev .acq),
    (0x8107F0986C04F000, .st h0 (.v 9) (.s 6) .zero 9 .f32 .normal .core .rlx),
    (0x8107FD3860580AC0, .st h0 (.q 3) (.s 6) (.v 5) 0x10 .b8 .keep .sys .rel),
    (0x8207F0602E803000, .lds h0 (.v 6) (.v 2) (.k 8) .b64 .normal .core .rlx),
    (0x8307F0802E084000, .sts h0 (.v 8) (.v 2) (.k 0) 0x10 .b128 .normal .core .rlx),
    (0x8407F04830501120, .ldw h0 (.v 4) (.s 3) (.v 5) .b16 .normal .nbhd .acq),
    (0x8507F07830502140, .stw h0 (.v 7) (.s 3) (.v 5) .b32 .normal .nbhd .rel),
    (0x8607F0C848501000, .ldn h0 (.v 12) (.s 4) (.s 5) .b16 .normal .core .rlx), (0x8E07F0884C004000, .ldc h0 (.v 8) (.s 4) .zero .b128),
    (0x8807FC0820300800, .pref h0 (.s 2) (.v 3) .keep)]
theorem test_decode_memory : reads memoryWords = true := by decide +kernel
def addressEngineWords : List (BitVec 64 × Instr) := [
    (0x8707F8A8C8E1459C, .qst h0 (.s 10) (.s 12) (.s 14) (.v 20) 28 .fault (some 5)),
    (0x8907F878A8CC0280, .shbind h0 (.s 7) (.s 10) (.s 12) (some 2)), (0x8A07F878CC0C0280, .shfree h0 (.s 7) (.s 12) (some 2)),
    (0x8B07FC08EC0C0380, .cpy h0 (.s 14) (some 3)), (0x8C07F89C0C0C0480, .aqstart h0 (.s 9) (some 4)),
    (0x8D07F89C0C0C0480, .aqstop h0 (.s 9) (some 4)), (0x8D07F89E2C0C0481, .aqstopQry h0 (.s 9) (.k 2) (some 4))]
theorem test_decode_address_engine : reads addressEngineWords = true := by decide +kernel
def syncWords : List (BitVec 64 × Instr) := [
    (0xA007F0181E10D200, .atom h0 (.v 1) (.s 1) (.k 1) .add .i32 .dev .rlx),
    (0xA107F018104021E0, .acas h0 (.v 1) (.s 1) (.v 4) .b32 .part .acqrel),
    (0xA207FC081E10D080, .red h0 (.s 1) (.k 1) .add .i32 .clus .rlx), (0xA307FC0C0C000260, .fence h0 .dev .acqrel),
    (0xA407FC0E0C0C0000, .bar h0 (.k 0)), (0xA507FC0E1C0C0000, .nbar h0 (.k 1)), (0xA607F018203C0000, .slin h0 (.v 1) (.s 2) (.v 3)),
    (0xA707F0582C0C0000, .slout h0 (.v 5) (.s 2)), (0xA707F0582C0C0001, .sloutLast h0 (.v 5) (.s 2)),
    (0xA807F0682C0C0000, .slqry h0 (.v 6) (.s 2)), (0xA907F0782E0C0000, .slrst h0 (.v 7) (.s 2) (.k 0)),
    (0xA907F0782C0C0001, .slrstDel h0 (.v 7) (.s 2)), (0xAA07F8684C0C0000, .send h0 (.s 6) (.s 4) 0),
    (0xAB07F8785C0C000F, .recv h0 (.s 7) (.s 5) 15)]
theorem test_decode_sync : reads syncWords = true := by decide +kernel
def matrixWords : List (BitVec 64 × Instr) := [
    (0xB007FC09496C029C, .mloadb h0 (.s 20) (.s 22) 28 false (some 2)), (0xB107FC0981EC019B, .mma h0 (.s 24) (.v 30) 0xB true (some 1)),
    (0xB207F28C0C0C0381, .mres h0 (.v 40) 1 false (some 3)), (0xB307FC0C0C0C0004, .mfence h0 .dev), (0xB407FC0C0C0C0000, .mwait h0),
    (0xB507FC09A9B9C180, .had h0 (.s 26) (.s 27) (.s 28) .p16 .i32i16 (some 1)),
    (0xB607F9D9E9FC0281, .twalk h0 (.s 29) (.s 30) (.s 31) .d2 (some 2)), (0xB707FA1C0C0C0280, .tnext h0 (.s 33) (some 2)),
    (0xB807FC0C0C0C0001, .mzero h0 true false)]
theorem test_decode_matrix : reads matrixWords = true := by decide +kernel
def beamWords : List (BitVec 64 × Instr) := [
    (0xC007F8584C0C0280, .beam h0 (.s 5) (.s 4) (some 2)), (0xC107F0885C0C0380, .bfrag h0 (.v 8) (.s 5) (some 3)),
    (0xC207FC085C0C0000, .bdone h0 (.s 5)), (0xC307F101418C0482, .rays h0 (.v 16) (.v 20) (.v 24) false true (some 4)),
    (0xC407F2011C0C0580, .hitget h0 (.v 32) (.v 17) (some 5)), (0xC407F2011C0C0581, .hitgetCand h0 (.v 32) (.v 17) (some 5)),
    (0xC507FC0202428000, .hitacc h0 (.v 32) (.v 36) (.v 40)),
    (0xC607F2C242887680, .tex h0 (.v 44) (.v 36) (.v 40) (.s 7) false (some 6)),
    (0xC707F30242887680, .texq h0 (.v 48) (.v 36) (.v 40) (.s 7) (some 6)), (0xC807F8382C0C0180, .bvhset h0 (.s 3) (.s 2) (some 1))]
theorem test_decode_beam : reads beamWords = true := by decide +kernel
def systemWords : List (BitVec 64 × Instr) := [
    (0xD007F0884C0C0000, .launch h0 (.v 8) (.s 4)), (0xD107F09C0C0C0000, .wchild h0 (.v 9)),
    (0xD207F0A85C0C0000, .gsig h0 (.v 10) (.s 5)), (0xD307F84C0C0C0000, .enrd h0 (.s 4)), (0xD307F84C0C0C0001, .enrdBal h0 (.s 4)),
    (0xD407F04E3C0C0000, .role h0 (.v 4) (.k 3)), (0xD407F04E3C0C0001, .roleId h0 (.v 4) (.k 3)),
    (0xD407F04E3C0C0002, .rolePos h0 (.v 4) (.k 3)), (0xD407F04C0C0C0003, .roleCnt h0 (.v 4)), (0xE007FC000000002A, .trap h0 0x2A),
    (0xE107FC0C0C0C0000, .rte h0), (0xE207F84000000008, .csrr h0 (.s 4) 0x008), (0xE307F8600000002B, .csrw h0 (.s 6) 0x02B),
    (0xE307F85100000001, .csrwSet h0 (.s 5) 0x001), (0xE307F85200000001, .csrwClr h0 (.s 5) 0x001),
    (0xE407F8384C0C0280, .rinv h0 (.s 3) (.s 4) (some 2)), (0xE407F83848688281, .rinvRange h0 (.s 3) (.s 4) (.s 6) (.s 8) (some 2)),
    (0xE507F8A88C0C0180, .qctlQ h0 (.s 10) (.s 8) (some 1)), (0xE507F8A88C0C0181, .qctlR h0 (.s 10) (.s 8) (some 1)),
    (0xE507F8A89C0C0002, .qctlQry h0 (.s 10) (.s 9) none)]
theorem test_decode_system : reads systemWords = true := by decide +kernel

/-- Words that are no instruction (Table 3.7): reserved opcodes, operand codes and function values, unused fields that are not 0xC0,
`EVE` = 0 with `EV` ≠ 0, `EV` above 7, predicate fields with bit 7, operand forms that the entries refuse. -/
theorem test_decode_refuses : ([
    0x0B07FC0C0C0C0000, 0x2C07FC0C0C0C0000, 0xFF07FC0C0C0C0000,   -- reserved opcodes
    0x1007F04C7E1C0000, 0x1007F04DBE1C0000, 0x1007F04F01EC0000,   -- operand codes 0xC7, 0xDB, 0xF0
    0x1007FE101E0C0000,                                           -- a constant as destination
    0x1007F0401E1C0001, 0x1007F0401E1C0004, 0x1007F0401E1E0000,   -- IADD: S without SAT, FN[2], C not 0xC0
    0x1007F8401E1C0000,                                           -- scalar destination with a vector source (R66)
    0x3007F050102C0001, 0x3007F050102C0003,                       -- rounding codes 1 and 3
    0x3607F830102C0002,                                           -- predicate field with bit 7
    0x6007F03C0C0C0001,                                           -- MOV.b64 to an odd vector register (R67)
    0x8007F048203000E0, 0x8007F04820308000, 0x8007F04820300C00,   -- LD: ORD .acqrel, SF 1, POL 3
    0x8007F04820302001, 0x8007F04820302300,                       -- LD: bits [4:0], SCOPE 6
    0x8907F878A8CC0200, 0x8907F878A8CC0880,                       -- SHBIND: EV without EVE, EV 8
    0xB107FC0981EC018F, 0xA007F0181E149200] : List (BitVec 64)).all   -- MMA with no K block, ATOM with SF 0x09
    (fun w => match decode w with | .error _ => true | .ok _ => false) = true := by decide +kernel

/-! ### Operand checks -/

/-- An ill-formed instruction for every check of WellFormed, which it refuses. -/
theorem test_wf_refuses_scalar_rules : ([
    .iadd h0 (.s 1) (.v 1) (.k 0) .wrap, .isub h0 (.k 1) (.v 1) (.k 0) .wrap, .imul h0 (.s 1) .lane (.k 0), .imulh h0 (.s 1) (.k 0) (.q 0) true,
    .imad h0 (.s 1) (.k 0) (.k 0) (.v 3), .imin h0 .lane (.k 0) (.k 0) false, .imax h0 (.lc 0) (.k 0) (.k 0) false, .iabs h0 (.s 1) (.v 1) true,
    .and h0 (.s 1) (.v 0) (.k 0), .or h0 (.q 1) (.k 0) (.k 0), .xor h0 (.s 0) (.k 0) .lane, .andn h0 .role (.k 0) (.k 0), .shl h0 .tx (.k 0) (.k 0),
    .shr h0 (.s 0) (.v 0) (.k 0), .sar h0 (.s 0) (.q 0) (.k 0), .rot h0 .ty (.k 0) (.k 0) true, .popc h0 (.s 0) (.v 0), .clz h0 .tz (.k 0),
    .brev h0 (.s 0) (.v 0), .bfe h0 (.s 0) (.k 0) (.k 0) (.v 0) true, .bfi h0 (.s 0) (.k 0) (.v 0) (.k 0), .sad h0 (.s 0) (.v 0) (.k 0) (.k 0) true,
    .bsel h0 .wave (.k 0) (.k 0) (.k 0), .idot4 h0 (.s 0) (.k 0) (.k 0) (.v 0) true true true, .fadd h0 (.s 0) (.v 0) (.k 0) .dyn,
    .fsub h0 (.lc 1) (.k 0) (.k 0) .dyn, .fmul h0 (.s 0) (.k 0) (.v 0) .dyn, .ffma h0 (.s 0) (.k 0) (.k 0) .lane .dyn, .fmin h0 (.s 0) (.v 0) (.k 0),
    .fmax h0 (.k 0) (.k 0) (.k 0), .frnd h0 (.s 0) (.v 0) .dyn true, .fclass h0 (.s 0) (.v 0), .fscale h0 (.s 0) (.v 0) (.k 0) .dyn,
    .pkadd h0 (.s 0) (.v 0) (.k 0) .dyn true, .pkmul h0 (.s 0) (.v 0) (.k 0) .dyn true, .pkfma h0 (.s 0) (.k 0) (.k 0) (.v 0) .dyn true,
    .pkfmab h0 (.s 0) (.k 0) (.v 0) (.k 0) .dyn true, .rcp h0 (.s 0) (.v 0) .dyn, .rsq h0 (.s 0) (.v 0), .sqrt h0 (.s 0) (.v 0) .dyn, .exp2 h0 (.s 0) (.v 0),
    .log2 h0 (.s 0) (.v 0), .sin h0 (.s 0) (.v 0), .cos h0 (.s 0) (.v 0), .tanh h0 (.s 0) (.v 0), .cvtff h0 (.s 0) (.v 0) .dyn true,
    .packh h0 (.s 0) (.v 0) (.k 0) .dyn true, .unpkh h0 (.s 0) (.v 0) true true, .role h0 (.s 0) (.v 0), .roleId h0 (.v 0) .lane, .rolePos h0 (.v 0) .zero,
    .roleCnt h0 (.lc 0)] : List Instr).all (fun i => !i.wf) = true := by decide +kernel
theorem test_wf_refuses_forms : ([
    .brx h0 (.v 1), .brx h0 .zero, .call h0 (.v 1) 0, .ret h0 (.k 0), .join { stall := 0, gn := true, gp := 127 }, .loop { stall := 0, gn := false, gp := 1 } (.lc 0) 0,
    .loop h0 (.s 0) 0, .yield { stall := 0, gn := false, gp := 1 }, .wait { stall := 0, gn := false, gp := 1 } 0 0, .lea h0 (.v 1) (.k 0) (.k 0) 0 true false,
    .lea h0 (.v 1) (.k 0) (.k 0) 0 false true, .lea h0 (.v 0) (.v 1) (.k 0) 0 true true, .iaddw h0 (.v 0) (.k 0) (.v 1) .b64, .iaddw h0 (.v 3) (.k 0) (.k 0) .n32,
    .iaddc h0 (.s 0) (.k 0) (.k 0) 0 true, .twosum h0 (.v 1) (.k 0) (.k 0), .twoprod h0 (.s 0) (.k 0) (.k 0), .faddp h0 (.v 2) (.v 1) (.v 4) false,
    .faddp h0 (.v 2) (.v 4) (.v 1) false, .cvtif h0 (.v 0) (.v 1) .dyn .i64, .cvtfi h0 (.v 1) (.k 0) .dyn .n64, .decn h0 (.v 0) (.v 1) (.v 2) 0 false false,
    .decn h0 (.v 0) (.v 1) (.v 2) 0 true true, .mov h0 (.lc 0) (.lc 1) false, .mov h0 (.lc 0) (.k 0) true, .mov h0 (.v 1) (.k 0) true, .mov h0 (.s 0) (.v 0) false,
    .movi h0 (.k 0) 0, .moviS h0 .lane 0, .moviHi h0 (.v 0) 0, .sel h0 (.s 0) (.k 0) (.k 0) 0 false, .sel h0 (.v 1) (.k 0) (.k 0) 0 true, .pmovVal h0 (.s 0) 0,
    .pset h0 120 (.k 0) 8, .pset h0 0 (.k 0) 32, .psetPack h0 (.s 0) 0 0, .psetPack h0 (.v 0) 127 1, .smov h0 (.v 0) (.v 0) (.k 0) false, .smov h0 (.s 0) (.s 0) (.k 0) false,
    .smov h0 (.s 0) (.v 0) (.k 0) true, .lxch h0 (.s 0) (.v 0) (.k 0) none .atl .g32, .ballot h0 (.lc 0) 0 true true, .wred h0 (.v 0) (.v 0) .rn .min .f32,
    .wred h0 (.v 0) (.v 0) .dyn .and .f32, .wscan h0 (.s 0) (.v 0) .dyn .add .n32 false, .rebal h0 (.v 1) (.k 0) (.k 0), .csamp h0 (.s 0) (.k 0) (.k 0),
    .rand h0 .lane (.k 0) (.k 0) true] : List Instr).all (fun i => !i.wf) = true := by decide +kernel
theorem test_wf_refuses_memory_forms : ([
    .ld h0 (.v 0) (.s 0) (.k 0) .b32 .normal .core .rel, .ld h0 (.v 1) (.s 0) (.k 0) .b64 .normal .core .rlx, .ld h0 (.v 2) (.s 0) (.k 0) .b128 .normal .core .rlx,
    .ld h0 (.s 0) (.s 0) (.v 0) .b32 .normal .core .rlx, .ld h0 (.s 1) (.s 0) (.k 0) .b128 .normal .core .rlx, .ld h0 (.v 0) (.v 1) (.k 0) .b32 .normal .core .rlx,
    .ld h0 (.v 0) (.s 0) .lane .b32 .normal .core .rlx, .st h0 (.v 0) (.s 0) (.k 0) 0x10 .b32 .normal .core .acq, .st h0 (.q 0) (.s 0) (.k 0) 0x10 .b64 .normal .core .rlx,
    .st h0 (.v 0) (.s 0) (.k 0) 0x11 .f32 .normal .core .rlx, .st h0 (.v 0) (.s 0) (.v 0) 0x09 .f32 .normal .core .rlx, .st h0 (.v 0) (.s 0) (.k 0) 0x09 .b32 .normal .core .rlx,
    .lds h0 (.v 0) (.s 0) .tx .b32 .normal .core .rlx, .sts h0 (.v 1) (.s 0) (.k 0) 0x10 .b64 .normal .core .rlx, .ldw h0 .lane (.s 0) (.k 0) .b32 .normal .core .rlx,
    .stw h0 (.v 0) (.s 0) (.k 0) .b32 .normal .core .acqrel, .ldn h0 (.s 0) (.s 0) (.k 0) .b8 .normal .core .rlx, .ldn h0 (.v 0) (.s 0) (.v 0) .b8 .normal .core .rlx,
    .ldn h0 (.v 0) (.s 0) (.k 0) .b128 .normal .core .rlx, .qst h0 .zero (.s 1) (.s 0) (.v 0) 16 .fault none, .qst h0 .zero (.s 0) (.s 0) (.v 0) 15 .fault none,
    .qst h0 (.s 0) (.s 0) (.s 0) (.v 0) 16 .fault none, .pref h0 (.v 1) (.k 0) .keep, .shbind h0 (.s 0) (.s 0) (.s 0) none, .shbind h0 .zero (.v 1) (.s 0) none,
    .shfree h0 (.s 0) (.s 0) none, .cpy h0 (.k 0) none, .aqstart h0 (.s 0) none, .aqstop h0 (.k 0) none, .aqstopQry h0 (.s 0) (.k 8) (some 0), .ldc h0 (.v 0) (.v 0) (.k 0) .b32,
    .atom h0 (.v 0) (.s 0) (.k 0) .and .i32 .dev .rlx, .atom h0 (.v 0) (.v 1) (.k 0) .add .i32 .dev .rlx, .atom h0 (.s 0) (.v 0) (.k 0) .add .i32 .dev .rlx,
    .atom h0 (.v 0) (.s 0) (.v 1) .add .b64 .dev .rlx, .acas h0 (.v 0) (.s 0) (.v 1) .b32 .dev .rlx, .acas h0 (.v 0) (.s 0) (.v 2) .b64 .dev .rlx, .acas h0 (.v 0) (.s 0) (.v 0) .i32 .dev .rlx,
    .red h0 (.s 0) (.k 0) .exch .b32 .dev .rlx, .red h0 (.s 0) (.k 0) .add .b32 .dev .acq, .red h0 (.k 0) (.k 0) .add .b32 .dev .rlx, .fence h0 .dev .rlx,
    .fence { stall := 0, gn := false, gp := 0 } .dev .acq, .bar h0 (.v 0), .nbar h0 .zero] : List Instr).all (fun i => !i.wf) = true := by decide +kernel
theorem test_wf_refuses_engine_forms : ([
    .slin h0 (.s 0) (.v 0) (.k 0), .slin h0 (.v 0) (.s 0) .lane, .slout h0 (.lc 0) (.s 0), .sloutLast h0 (.v 0) (.v 1), .slqry h0 (.v 1) (.s 0), .slrst h0 (.s 0) (.s 0) (.v 0),
    .slrstDel h0 (.v 0) (.k 0), .send h0 (.v 0) (.v 0) 0, .recv h0 (.k 0) (.s 0) 0, .mloadb h0 (.v 0) .zero 0 false none, .mloadb h0 (.s 0) (.k 0) 0 false none,
    .mma h0 (.s 0) (.v 0) 15 false none, .mma h0 (.s 0) (.s 0) 0 false none, .mres h0 (.v 2) 0 false none, .mwait { stall := 0, gn := false, gp := 0 },
    .had h0 (.s 0) (.s 0) (.k 1) .p16 .i32i16 none, .twalk h0 (.s 0) (.s 0) (.s 0) .d1 none, .twalk h0 .zero (.s 0) (.v 0) .d1 none, .tnext h0 (.v 0) (some 0), .tnext h0 (.s 0) none,
    .beam h0 (.lc 0) (.s 0) none, .bfrag h0 (.v 0) (.s 0) none, .bfrag h0 (.v 2) (.s 0) (some 0), .bdone h0 (.k 0), .rays h0 (.s 0) (.v 0) (.v 0) false false none,
    .rays h0 (.v 0) (.v 1) (.v 0) false false none, .hitget h0 (.v 0) (.s 0) (some 0), .hitgetCand h0 (.v 0) (.v 0) none, .hitacc h0 (.v 0) (.v 0) (.s 0),
    .tex h0 (.v 0) (.v 0) (.v 0) (.s 0) true none, .texq h0 (.v 0) (.v 2) (.v 0) (.s 0) (some 0), .bvhset h0 (.s 0) (.v 0) none, .launch h0 (.v 0) (.v 1), .wchild h0 (.lc 0),
    .gsig h0 (.v 0) .lane, .enrd h0 (.v 1), .enrdBal h0 (.k 0), .rte { stall := 0, gn := false, gp := 0 }, .csrr h0 (.v 1) 0, .csrw h0 (.v 0) 0, .csrwSet h0 .lane 0, .csrwClr h0 (.q 0) 0,
    .rinv h0 (.v 0) (.v 0) none, .rinvRange h0 (.v 0) (.s 0) (.k 0) (.s 0) none, .qctlQ h0 (.v 0) (.k 0) none, .qctlR h0 .lane (.s 0) none, .qctlQry h0 (.v 0) (.s 0) none] : List Instr).all
    (fun i => !i.wf) = true := by decide +kernel

/-! ### The hypotheses of the obligations are met

Each theorem shows states and operands that satisfy together every hypothesis of the obligation it is named after, clause by
clause, at boundary values where the clauses meet. -/

/-- Every lane of vector register `n` holds `x`. -/
def vAll (n : Nat) (x : Word) : Sparse Word := (List.range 32).map (fun l => (32 * n + l, x))
/-- A guard that no thread passes. -/
def never : Hdr := { stall := 0, gn := true, gp := 127 }
/-- In `base f`, every instruction is past its issue checks and `P` holds of the issue. -/
def allWit (f : Wave → Wave) (l : List Instr) (P : Ctx → Bool) : Bool := l.all (fun i => wit (base f) i (fun _ c => P c))
/-- All threads are active. -/
def full (c : Ctx) : Bool := c.lanes == BitVec.allOnes 32

theorem test_hyp_IntegerArithmetic : (issues integerWords && allWit id [.iadd h0 (.v 1) (.v 2) (.s 3) .wrap, .iadd h0 (.v 1) (.v 2) (.s 3) .i32,
  .isub h0 (.s 1) (.s 2) (.k 3) .wrap, .isub h0 .zero (.v 2) (.s 3) .n32, .imulh h0 (.v 1) (.q 2) .lane false, .imin h0 (.v 1) (.v 2) (.s 3) true,
  .imax h0 (.v 1) (.v 2) (.s 3) false, .iabs h0 (.v 1) (.v 2) false, .sad h0 (.v 1) (.v 2) (.s 3) (.k 1) false] full) = true := by decide +kernel
theorem test_hyp_BitOperations : (issues bitWords && allWit id [.rot h0 (.v 1) (.v 2) (.k 3) false] full) = true := by decide +kernel
theorem test_hyp_BitFields : issues bitWords = true := by decide +kernel
theorem test_hyp_WideAddresses : (issues bitWords && allWit id [.lea h0 (.v 1) (.v 3) (.k 3) 31 false false, .lea h0 (.v 2) (.v 4) (.k 3) 0 true true,
  .iaddw h0 (.v 2) (.v 4) (.v 6) .b64, .iaddw h0 (.v 2) (.v 4) (.v 5) .n32, .iaddc h0 .zero (.v 4) (.v 5) 127 false] full) = true := by decide +kernel
theorem test_hyp_Compares : (issues integerWords && issues floatWords && allWit id [.icmp h0 127 (.v 1) .role false .ge, .fcmp h0 0 .lane (.k 1) .eq] full) = true := by
  decide +kernel
theorem test_hyp_MovesAndSelects : (issues moveWords && allWit id [.moviS h0 (.v 1) 5, .mov h0 (.v 1) (.q 7) false, .mov h0 (.v 2) (.lc 1) true,
  .smov h0 (.lc 2) (.v 5) .zero true, .sel h0 (.v 2) (.v 4) (.k 1) 3 true] full) = true := by decide +kernel
theorem test_hyp_PredicateMoves : issues moveWords = true := by decide +kernel
theorem test_hyp_FloatArithmetic : (issues floatWords && allWit id [.frnd h0 (.v 1) (.k 2) .dyn true] full) = true := by decide +kernel
/-- A NaN operand, infinities of opposite signs, an overflow with a format of at least one exponent bit, a nonzero significand, and a
NaN beside a number. -/
theorem test_hyp_FloatSpecialValues : ((Machine.Num.isNan (.nan true) || Machine.Num.isNan (.inf false)) = true ∧ 1 ≤ fp16.eb ∧ (fp16.emax * 2 : Int) < 1000 ∧ (1 : Nat) ≠ 0 ∧
  (f32 0x7FC00000).isNan = true ∧ (f32 0x3F800000).isNan = false) := by decide +kernel
theorem test_hyp_PairsAndConversions : (issues floatWords && issues packedAndConversionWords && allWit id [.faddp h0 (.v 0) (.v 2) (.v 4) false,
  .cvtff h0 (.v 1) (.v 2) .rd true, .cvtif h0 (.v 1) (.v 2) .dyn .i32, .cvtif h0 (.v 1) (.v 2) .dyn .n64, .cvtif h0 (.v 1) (.s 2) .dyn .i64,
  .cvtfi h0 (.v 2) (.k 2) .dyn .n64, .cvtfi h0 (.s 2) (.s 2) .dyn .i64, .cvtfi h0 (.v 2) (.k 2) .dyn .n32, .packh h0 (.v 0) (.v 1) (.v 2) .rn false] full) = true := by
  decide +kernel
theorem test_hyp_CrossLane : (issues crossLaneWords && allWit id [.agree h0 127 127 .every true, .agree h0 1 2 .same false, .agree h0 1 2 .none false,
  .ballot h0 (.v 1) 3 true true, .rand h0 (.v 1) .lane (.k 2) false, .lxch h0 (.v 1) (.v 2) (.k 0) (some 127) .atl .g1] full) = true := by decide +kernel
theorem test_hyp_Identities : allWit id [.role h0 (.v 1) (.k 0), .role h0 (.v 1) (.k 1), .roleId h0 (.v 1) .wave, .rolePos h0 (.s 1) (.k 0), .roleCnt h0 .zero,
  .enrdBal h0 (.s 1), .csrr h0 (.s 1) 0x000, .csrr h0 (.v 2) 0x00A, .csrr h0 .zero 0x020, .csrr h0 (.s 1) 0x012] full = true := by decide +kernel
theorem test_hyp_ComputeFrame : ((integerWords ++ bitWords ++ floatWords ++ packedAndConversionWords).all (fun x => computes x.2 || (match x.2 with | .decn .. => true | _ => false)) &&
  (moveWords ++ crossLaneWords).all (fun x => computes x.2)) = true := by decide +kernel
theorem test_hyp_SfuIssue : (issues specialFunctionWords && allWit id [.rcp never (.v 1) (.v 2) .dyn, .tanh never (.s 1) (.k 0)] (fun c => c.lanes == 0) &&
  (sfuSpecial 1 (f32 0x3F000000)).isNone && sfuValues 1 0x3F000000 != []) = true := by decide +kernel
theorem test_hyp_DecodeOfEncode : ((Instr.lea h0 (.v 126) (.s 63) (.q 7) 31 true true).wf = true ∧
  encode (.lea h0 (.v 126) (.s 63) (.q 7) 31 true true) = some 0x2607F7EBFD7C007F) := by decide +kernel
theorem test_hyp_EncodeOfDecode : reads [(0xB107FC0981EC0180, .mma h0 (.s 24) (.v 30) 0 false (some 1))] = true := by decide +kernel
/-- The first and last reserved opcode of a gap, and the opcodes beside it. -/
theorem test_hyp_ReservedOpcodes : ([0x0B, 0x0F, 0x2C, 0x2F, 0x41, 0x4F, 0x5E, 0x5F, 0x69, 0x6F, 0x78, 0x7F, 0x8F, 0x9F, 0xAC, 0xAF, 0xB9, 0xBF, 0xC9, 0xCF, 0xD5, 0xDF, 0xE6,
    0xFF].all (fun o => match decode (BitVec.ofNat 64 (o * 2 ^ 56)) with | .error .reservedOp => true | _ => false) &&
  [0x00, 0x0A, 0x10, 0x2B, 0x30, 0x40, 0x50, 0x5D, 0x60, 0x68, 0x70, 0x77, 0x80, 0x8E, 0xA0, 0xAB, 0xB0, 0xB8, 0xC0, 0xC8, 0xD0, 0xD4, 0xE0, 0xE5].all
    (fun o => match decode (BitVec.ofNat 64 (o * 2 ^ 56)) with | .error .reservedOp => false | _ => true)) = true := by decide +kernel

/-- A wave at a word that decodes, at one that does not, a scheduled event, and no schedule. -/
theorem test_hyp_StepRunsDecoded :
    let at_ (x : DWord) : State := State.reset.atWord x
    let after (s : State) : State := { s.tick with sched := [] }
    ((at_ 0x0007FC0C0C0C0000).sched == [.issue 1 0] && (after (at_ 0x0007FC0C0C0C0000)).nextWord 1 0 == some 0x0007FC0C0C0C0000 &&
      (match decode 0x0007FC0C0C0C0000 with | .ok i => i == .nop h0 | .error _ => false) &&
      (after (at_ 0)).nextWord 1 0 == some 0 && (match decode 0 with | .ok _ => false | .error _ => true) &&
      ({ State.reset with sched := [.event .energyRefill] } : State).sched == [.event .energyRefill] && isEvent .energyRefill &&
      State.reset.sched == []) = true := by decide +kernel
theorem test_hyp_FetchWordRuns : (decodeTableWord 64 0x1107F050102C0003 = some (.isub h0 (.v 5) (.v 1) (.v 2) .i32) ∧ isEvent (.isub h0 (.v 5) (.v 1) (.v 2) .i32) = false) := by
  decide +kernel

/-- The context of an issue in `base f`, of which `P` holds. -/
def ctxWit (s : State) (i : Instr) (P : Ctx → Bool) : Bool := (s.ctx? i).any P
/-- The wave may issue now. -/
def may (s : State) (c : Ctx) : Bool := c.gg.st = .placed && c.wv.ready ≤ s.cycle && !c.wv.blocked
/-- Team 1 changed. -/
def team (f : Team → Team) (s : State) : State := s.updTeam 1 f
/-- Each check of the issue, with every check before it passed: no issue now, illegal, denied, early, clobbers, poison, a full
event counter, a pop of an empty queue while the program runs, an SFU word while the SFU is held by another pipe. -/
theorem test_hyp_IssueChecks :
    let add : Instr := .iadd h0 (.v 1) (.v 2) (.v 3) .wrap
    let ok (s : State) (c : Ctx) : Bool := may s c
    let s0 := base id
    (ctxWit (base (fun w => { w with ready := 1 })) add (fun c => !may s0 c) &&
     ctxWit s0 (.iadd h0 (.s 1) (.v 2) (.k 0) .wrap) (fun c => ok s0 c && c.illegal (.iadd h0 (.s 1) (.v 2) (.k 0) .wrap)) &&
     (let s := team (fun t => { t with sys := false }) s0
      ctxWit s (.csrw h0 (.s 1) 0x011) (fun c => ok s c && !c.illegal (.csrw h0 (.s 1) 0x011) && c.denied (.csrw h0 (.s 1) 0x011))) &&
     ctxWit (base (fun w => { w with sb := [(.v 2, 1, 1)] })) add (fun c => ok s0 c && !c.illegal add && !c.denied add && c.early add) &&
     ctxWit (base (fun w => { w with regions := w.regions.map (fun r => { r with rd := [(.v 1, 1)] }) })) add
       (fun c => ok s0 c && !c.illegal add && !c.denied add && !c.early add && c.clobbers add) &&
     (let s := team (fun t => { t with regPoison := [(0, .v 3, 31)] }) s0
      ctxWit s add (fun c => ok s c && !c.illegal add && !c.denied add && !c.early add && !c.clobbers add && c.readsPoison add)) &&
     (let i : Instr := .ld h0 (.v 1) (.s 1) .zero .b32 .normal .core .rlx
      ctxWit (base (fun w => { w with ev := [(0, 63)] })) i (fun c => ok s0 c && !c.illegal i && !c.denied i && !c.early i && !c.clobbers i && !c.readsPoison i &&
        c.lanes != 0 && i.counted == some 0 && c.wv.evr 0 == 63) &&
      ctxWit (base (fun w => { w with ev := [(0, 62)] })) i (fun c => c.lanes != 0 && i.counted == some 0 && c.wv.evr 0 < 63 && queuesOf i == [])) &&
     (let i : Instr := .mov h0 (.v 1) (.q 3) false
      let s := team (fun t => { t with aq := { t.aq with run := true } }) s0
      ctxWit s i (fun c => ok s c && !c.illegal i && !c.denied i && !c.early i && c.lanes != 0 && i.counted == none &&
        (match State.popAll c (queuesOf i) s with | .error _ => true | .ok _ => false))) &&
     (let i : Instr := .rcp h0 (.v 1) (.k 2) .dyn
      let s : State := { s0 with sfuBusy := [{ core := 0, pipe := 1, till := s0.cycle + 1 }] }
      ctxWit s i (fun c => ok s c && !c.illegal i && !c.denied i && !c.early i && !c.clobbers i && !c.readsPoison i && isSfu i && c.tm.core == 0 && c.wv.pipe == 0 && s.sfuHeld c i)) &&
     ctxWit s0 (.rcp h0 (.v 1) (.k 2) .dyn) (fun c => !s0.sfuHeld c (.rcp h0 (.v 1) (.k 2) .dyn))) = true := by decide +kernel
/-- A privileged instruction and a CSRW of `ASIDV` outside system mode. -/
theorem test_hyp_PrivilegedInstructions :
    let s := team (fun t => { t with sys := false }) (base id)
    let P (i : Instr) (c : Ctx) : Bool := may s c && !c.illegal i && !c.tm.sys && !c.wv.handler
    (ctxWit s (.rinv h0 (.s 3) (.s 4) none) (fun c => P (.rinv h0 (.s 3) (.s 4) none) c && (Instr.rinv h0 (.s 3) (.s 4) none).privileged) &&
     ctxWit s (.csrw h0 (.s 1) 0x011) (fun c => P (.csrw h0 (.s 1) 0x011) c && csrOf (.csrw h0 (.s 1) 0x011) == some (0x11, true) && csrSys 0x11)) = true := by decide +kernel
theorem test_hyp_IssueBookkeeping :
    (wit (base id) (.nop h0) (fun _ c => c.b.words.length ≤ c.b.ix + 1 && c.wv.thr.length == 32) &&
     wit (base (fun w => { w with bundle := w.bundle.map (fun b => { b with words := [0, 0] }) })) (.nop { stall := 15, gn := false, gp := 127 })
       (fun _ c => c.b.ix + 1 < c.b.words.length)) = true := by decide +kernel
/-- Aligned and canonical targets up to 2^48 - 8, a misaligned one, and 2^48. -/
theorem test_hyp_Branches :
    let tgt (x : DWord) (P : Ctx → Bool) : Bool := allWit (fun w => { w with s := [(7, x)] }) [.brx h0 (.s 7), .ret h0 (.s 7)] (fun c => full c && P c)
    (allWit id [.bra h0 5, .call h0 (.s 6) 0x20, .brx h0 (.v 6)] full &&
     tgt 0xFFFFFFFFFFF8 (fun c => (lanesOf c.lanes).all (fun l => (c.w64 (.s 7) l).toNat % 8 == 0 && (c.w64 (.s 7) l).toNat < 2 ^ 48)) &&
     tgt 0x1000000000004 (fun c => (lanesOf c.lanes).find? (fun k => (c.w64 (.s 7) k).toNat % 8 ≠ 0) == some 0) &&
     tgt 0x1000000000000 (fun c => (lanesOf c.lanes).all (fun k => (c.w64 (.s 7) k).toNat % 8 == 0) &&
       (lanesOf c.lanes).find? (fun k => 2 ^ 48 ≤ (c.w64 (.s 7) k).toNat) == some 0)) = true := by decide +kernel
/-- LOOP at the least target that is beyond the next clause, at the next clause itself and below address 0, with a full stack and with its counter on
the stack; with the counter 0 and not 0; LEXIT with and without a loop; and a WAIT that is not met. -/
theorem test_hyp_LoopsJoinsAndWaits :
    let ok (off : BitVec 32) (c : Ctx) : Bool :=
      decide ((c.next.toNat : Int) < c.b.h.toNat + 8 * off.toInt) && c.wv.loops.length < 3 && c.wv.loops.all (fun e => e.k != 1)
    let e (k : Nat) : Loop := { start := 0, fin := 8, k := k }
    let lp (off : BitVec 32) : Instr := .loop h0 (.lc 1) off
    let bad (s : State) (off : BitVec 32) : Bool := ctxWit s (lp off) (fun c => may s c && !ok off c)
    (bad (base id) 2 && bad (base id) 0xFFFFFFFF && wit (base id) (lp 3) (fun _ c => ok 3 c && c.lc 1 == 0) &&
     wit (base (fun w => { w with lc := [(1, 1)] })) (lp 3) (fun _ c => ok 3 c && c.lc 1 != 0) &&
     bad (base (fun w => { w with loops := [e 0, e 2, e 0] })) 3 && bad (base (fun w => { w with loops := [e 1] })) 3 &&
     ctxWit (base id) (.lexit h0 5) (fun c => may (base id) c && c.wv.loops == []) &&
     wit (base (fun w => { w with loops := [e 1] })) (.lexit h0 5) (fun _ c => c.wv.loops != []) &&
     wit (base id) (.join h0) (fun _ _ => true) && wit (base id) (.wait h0 0 0x80) (fun _ _ => true) &&
     (let w : Wave := { Wave.first 0 0 0 0 0 with waitCnt := some (0x80, 0), ev := [(7, 1)] }
      w.waitCnt == some (0x80, 0) && (0x80 : BitVec 8).getLsbD 7 && 0 < w.evr 7)) = true := by decide +kernel
theorem test_hyp_RegionEndingIssue : (issues syncWords && allWit id [.exit h0, .yield h0, .fence h0 .sys .acq, .trap h0 5, .wchild h0 (.v 1), .gsig h0 (.v 1) (.v 2)] full &&
  allWit (fun w => { w with handler := true }) [.rte h0] full) = true := by decide +kernel
/-- Each form of ATOM, RED and ACAS with lane 5's address misaligned, with it at 2^48, and with every address good. -/
theorem test_hyp_AtomicsIssue :
    let ops : List (Instr × Nat) := [(.atom h0 (.v 10) (.v 2) (.k 1) .add .b64 .dev .rlx, 8), (.red h0 (.v 2) (.k 1) .add .b32 .dev .rlx, 4),
      (.acas h0 (.v 10) (.v 2) (.v 6) .b32 .dev .rlx, 4), (.acas h0 (.v 10) (.v 2) (.v 8) .b64 .dev .rlx, 8),
      (.acas h0 (.v 10) (.v 2) (.s 6) .b64 .dev .rlx, 8), (.acas h0 (.v 10) (.v 2) (.s 6) .b32 .dev .rlx, 4)]
    let at5 (lo hi : Word) (P : Nat → Ctx → Bool) : Bool := ops.all (fun x => wit (base (fun w => { w with v := [(69, lo), (101, hi)] })) x.1
      (fun _ c => c.accLanes (.v 10) == List.range 32 && lanesOf c.lanes == List.range 32 && P x.2 c))
    (at5 2 0 (fun n c => (List.range 32).find? (fun k => (c.w64 (.v 2) k).toNat % n ≠ 0) == some 5) &&
     at5 0 0x10000 (fun n c => (List.range 32).all (fun k => (c.w64 (.v 2) k).toNat % n == 0) && (List.range 32).find? (fun k => 2 ^ 48 ≤ (c.w64 (.v 2) k).toNat) == some 5) &&
     at5 8 0xFFFF (fun n c => (List.range 32).all (fun k => (c.w64 (.v 2) k).toNat % n == 0 && (c.w64 (.v 2) k).toNat < 2 ^ 48))) = true := by decide +kernel

/-- Page tables that map the first 2 MiB of ASID 0 to physical address 0x200000, readable, writable and executable (Tables 9.1, 9.2),
and the bytes 1 to 7 at address 0x100. -/
def mapped (s : State) : State :=
  { s with mem := [(0, 0x01), (1, 0x10), (0x1000, 0x01), (0x1001, 0x20), (0x2000, 0x01), (0x2001, 0x30), (0x3000, 0x07), (0x3001, 0x02), (0x3002, 0x20),
      (0x200100, 1), (0x200101, 2), (0x200102, 3), (0x200103, 4), (0x200104, 5), (0x200105, 6), (0x200106, 7)] }
/-- Team 1 and its wave 0. -/
def wv0 (s : State) (P : Team → Wave → Bool) : Bool := (s.team? 1).any (fun t => (t.wave? 0).any (P t))
/-- The state after an instruction or event, if it is a next state. -/
def after (i : Instr) (s : State) : State := match exec i s with | .next t => t | _ => s
/-- The newest pending operation of wave 0, clean and without a trap waiting. -/
def pendWit (s : State) (P : Team → Wave → Pend → Bool) : Bool :=
  wv0 s (fun t w => w.pend.getLast?.any (fun q => w.pend? q.id == some q && q.clob == [] && !w.behindAcq q && w.trapQ == none && P t w q))

theorem test_hyp_MemoryReadsWhatWasWritten :
    let s := State.reset
    ((7 : Nat) ≠ 8 ∧ s.cell 7 ≠ s.cell 8 ∧ (mapped s).mem.wf = true ∧ (∀ i < 3, ∀ k < 3, s.cell (255 + i) = s.cell (255 + k) → i = k) ∧
      Memory.wf [(3, 1)] = true) := by decide +kernel
/-- An address below the range of partition 0, one inside, two inside, and partition 1 beside it. -/
def split : State := { State.reset with parts := State.reset.parts.zipIdx.map (fun x =>
  if x.2 = 0 then { x.1 with pmbase := 0x10000, pmlim := 0x20000, milv := 0x1000F } else if x.2 = 1 then { x.1 with pqmask := 0, pmbase := 0, pmlim := 0x20000 } else x.1) }
theorem test_hyp_InterleaveOfMemory :
    (split.rangeOf 0xFFFF = none ∧ 0xFFFF < devLimit ∧ split.rangeOf 0x20000 = none ∧ split.rangeOf 0x10000 = some 0 ∧ split.rangeOf 0x1FFFF = some 0 ∧
      (split.part 0).milv.toNat % 65536 ≠ 0 ∧ split.interleave 0x10200 = (1, 0) ∧ split.interleave 0x10200 = split.interleave 0x10200) := by decide +kernel
/-- A page below the range, one that the tables map, a line that hits, and an address space without tables. -/
theorem test_hyp_TranslationStaysInRange :
    let m := mapped State.reset
    let l : Line := Line.fresh (.slice (m.homeVa 0 0 0)) (Tgt.of 0 0 0 0x200000 (Attr.ofPte 7)) 0 0 1 0
    let u : State := { m with lines := [l] }
    ((0 : Nat) < devLimit ∧ (Attr.ofPte 7).home ≠ 2#2 ∧ (0 : Nat) < (split.part 0).pmbase.toNat) ∧
    (match m.leaf 0 0x1FFFFF true .write (m.lookup 0 0 0x1FFFFF) with | .ok pa a => pa == 0x3FFFFF && a.home != 2#2 && pa < devLimit | _ => false) = true ∧
    (m.tagLine none 0 0 0x1FFFFF = none ∧ m.tlbHit 0 0 0x1FFFFF = none) ∧
    (u.tagLine none 0 0 0x7F = some l ∧ u.translateBy none 0 0 0x7F true .read = .ok 0x20007F (Attr.ofPte 7)) ∧
    State.reset.entry (State.reset.asidDir.toNat + 8 * 5) % 2 = 0 := by decide +kernel
theorem test_hyp_HomeSlices : ((15 : Nat) < 16 ∧ (State.reset.part 0).nbnd.toNat % 16 ≠ 0) := by decide +kernel
/-- A trap waiting in a gang that leaves, in handler mode, without a handler, and with a handler and a frame that can be written or not. -/
theorem test_hyp_TrapEntry :
    let q : TrapReq := { cause := 0x12, lanes := 1, addr := 8, region := 0, after := true, faddr := 0 }
    let s (h : Bool) (tv ts : DWord) : State :=
      mapped (((base (fun w => { w with trapQ := some q, handler := h })).updGang 9 (fun g => { g with kobj := { g.kobj with vregs := 8, sregs := 8 } })).updPart 0 (fun p => { p with tvec := tv, tsave := ts }))
    let fr (s : State) (t : Team) (w : Wave) : Option State := s.writeFrame t (s.frameAddr t w) w q.faddr 8 8
    let P (s : State) (f : Team → Wave → Bool) : Bool := wv0 s (fun t w => w.trapQ == some q && (s.gang? t.gid).any (fun g => g.st == .placed && g.kobj.vregs == 8 && g.kobj.sregs == 8) && f t w)
    (P (s true 9 0x1000) (fun _ w => w.handler) && P (s false 8 0x1000) (fun t w => !((s false 8 0x1000).part t.part).tvec.getLsbD 0 && !w.handler) &&
     P (s false 9 0x1000) (fun t w => !w.handler && ((s false 9 0x1000).part t.part).tvec.getLsbD 0 && w.pend == [] && (fr (s false 9 0x1000) t w).isSome) &&
     P (s false 9 0x800000) (fun t w => !w.handler && w.pend == [] && (fr (s false 9 0x800000) t w).isNone) &&
     wv0 ((s false 9 0x1000).updGang 9 (fun g => { g with st := .parked })) (fun _ w => w.trapQ == some q)) = true := by decide +kernel
theorem test_hyp_FrameWords :
    let t : Thread := { pc := 0xFFFFFFFFFFF8, exited := false, mem := 7, hold := some (3, true) }
    t.pc.toNat % 8 = 0 ∧ t.pc.toNat < 2 ^ 48 ∧ (3 : Nat) < 4 ∧ threadOf (framePc true t) = t ∧
      (0xFFFFFFFFFFFF : DWord).toNat < 2 ^ 48 ∧ (255 : Nat) < 256 ^ 1 := by decide +kernel
theorem test_hyp_AtomicValues :
    let e : EndOp := { instr := .exit h0, iss := 0, lanes := 0, mask := 0, site := 0, next := 0, x := [0x100], y := [1], z := [2], st := [], since := 0, lim := 0 }
    wv0 (mapped (base id)) (fun t _ => match (mapped (base id)).readVa t.part t.asid (e.x.getD 0 0).toNat 4 true .read with
      | .ok bs => bs == [1, 2, 3, 4] | .error _ => false) = true := by decide +kernel
/-- SEND and RECV on a declared launder: with the whole slot in the scratch, misaligned, at the last place and one beyond it, without an active thread;
and on a launder whose end is another position. -/
theorem test_hyp_LaunderIssue :
    let g (f : LaunderDecl → LaunderDecl) (s : State) : State := s.updGang 9 (fun g => { g with kobj := { g.kobj with launders := g.kobj.launders.map f } })
    let at_ (x : DWord) : State := base (fun w => { w with s := [(4, x)] })
    let o (c : Ctx) : Nat := (c.w64 (.s 4) (lowest c.lanes)).toNat % 2 ^ 32
    let mine (send : Bool) (c : Ctx) : Bool := (c.gg.kobj.launders[15]?).any (fun l => c.gg.kobj.posOf (if send then l.src else l.dst) == some c.tm.pos)
    let both (s : State) (h : Hdr) (P : Bool → Ctx → Bool) : Bool :=
      wit s (.send h (.v 1) (.s 4) 15) (fun _ => P true) && wit s (.recv h (.v 1) (.s 4) 15) (fun _ => P false)
    (both (g (fun l => { l with src := 1, dst := 1 }) (at_ 0)) h0 (fun b c => c.lanes != 0 && !mine b c) && both (at_ 8) h0 (fun b c => mine b c && o c % 16 != 0) &&
     both (at_ 0xFFF0) h0 (fun b c => c.lanes != 0 && o c % 16 == 0 && mine b c && o c + 16 == c.gg.kobj.scrLen) &&
     both (at_ 0x10000) h0 (fun b c => c.lanes != 0 && o c % 16 == 0 && mine b c && c.gg.kobj.scrLen < o c + 16) && both (at_ 0) never (fun _ c => c.lanes == 0)) = true := by
  decide +kernel

/-- Loads of `n` bytes at s6 plus v3: every place good, lane 9 misaligned, and lane 9 out of the scratch. -/
theorem test_hyp_LoadIssue :
    let ld : List (Instr × Nat × Nat × Nat) := [(.ld h0 (.v 8) (.s 6) (.v 3) .b32 .normal .core .rlx, 0, 4, 4), (.lds h0 (.v 8) (.s 6) (.v 3) .b64 .normal .core .acq, 1, 8, 8),
      (.ldw h0 (.v 8) (.s 6) (.v 3) .b128 .stream .nbhd .rlx, 2, 16, 16)]
    let at9 (x : Word) (l : List (Instr × Nat × Nat × Nat)) (P : Nat → Nat → Nat → State → Ctx → Bool) : Bool :=
      l.all (fun i => wit (base (fun w => { w with v := [(105, x)] })) i.1 (fun s c => c.accLanes (.v 8) == List.range 32 && P i.2.1 i.2.2.1 i.2.2.2 s c))
    let nar : List (Instr × Nat × Nat × Nat) := [(.ldn h0 (.v 8) (.s 6) (.k 8) .b16 .normal .core .rlx, 0, 24, 8), (.ldc h0 (.v 8) (.s 6) (.k 8) .b64, 0, 8, 8)]
    let ok (b : Opd) (k n a : Nat) (s : State) (c : Ctx) : Bool := (List.range 32).all (fun l => c.rawAddr k (.s 6) b l % a == 0 && (s.place c k (.s 6) b n l).isSome)
    (at9 0 ld (ok (.v 3)) && at9 0 nar (ok (.k 8)) && at9 2 ld (fun k _ a _ c => (List.range 32).find? (fun l => c.rawAddr k (.s 6) (.v 3) l % a ≠ 0) == some 9) &&
     at9 0xFFF0 ld (ok (.v 3)) && ld.all (fun i => wit (base id) i.1 (fun s c => !(s.advance c i.1).l1Full c i.1 i.2.1 i.2.2.1 (.v 8) (.s 6) (.v 3))) &&
     (let i : Instr := .ld h0 (.v 8) (.s 6) .zero .b32 .normal .core .rlx
      let f (w : Wave) : Wave := { w with s := [(6, 0x100)] }
      pendWit (after i (mapped (base f))) (fun _ _ q =>
        wit (mapped (base (fun w => { f w with pend := [{ q with sec := (List.range 128).map (· + 100000) }] }))) (.ld h0 (.v 9) (.s 6) .zero .b32 .normal .core .rlx)
          (fun s c => (s.advance c i).l1Full c (.ld h0 (.v 9) (.s 6) .zero .b32 .normal .core .rlx) 0 4 (.v 9) (.s 6) .zero))) &&
     at9 0x10000 (ld.drop 1) (fun k n a s c => (List.range 32).all (fun l => c.rawAddr k (.s 6) (.v 3) l % a == 0) &&
       (List.range 32).find? (fun l => (s.place c k (.s 6) (.v 3) n l).isNone) == some 9)) = true := by decide +kernel
/-- A load that returns (its lanes read the bytes 1 to 4), one of scratch, one of a page that may not be read, and one that waits for its fill. -/
theorem test_hyp_LoadResult :
    let i : Instr := .ld h0 (.v 8) (.s 6) .zero .b32 .normal .core .rlx
    let s0 (i : Instr) (x : DWord) : State := after i (mapped (base (fun w => { w with s := [(6, x)] })))
    let s (i : Instr) (x : DWord) : State := { s0 i x with misses := [] }
    let lane (u : State) (t : Team) (w : Wave) (q : Pend) (f : LdForm) (l : Nat) : Except LaneBad (List Byte) := u.laneBytes t (t.sys || w.handler) q f l
    let ready (u : State) (P : Team → Wave → Pend → LdForm → Bool) : Bool := pendWit u (fun t w q => !u.loadWaits 1 0 q.id && (ldForm q.instr).any (P t w q))
    let lds : Instr := .lds h0 (.v 8) (.s 6) .zero .b32 .normal .core .rlx
    (ready (s i 0x100) (fun t w q f => f.lanes q.lanes == List.range 32 && (List.range 32).all (fun l => match lane (s i 0x100) t w q f l with | .ok b => b == [1, 2, 3, 4] | .error _ => false)) &&
     ready (s lds 0x100) (fun t w q f => f.kind == 1 && !isAcqLoad q.instr && (List.range 32).all (fun l => match lane (s lds 0x100) t w q f l with | .ok b => b.length == 4 | .error _ => false)) &&
     ready (s i 0x1000000000000) (fun t w q f => (f.lanes q.lanes).find? (fun k => match lane (s i 0x1000000000000) t w q f k with | .error (.trap _ _) => true | _ => false) == some 0 &&
       (match lane (s i 0x1000000000000) t w q f 0 with | .error (.trap c _) => c == 8 | _ => false)) &&
     ready (s i 0x800000) (fun t w q f => laneStop ((f.lanes q.lanes).map (fun l => (l, lane (s i 0x800000) t w q f l))) matches some (.fault _ _)) &&
     pendWit (s0 i 0x100) (fun _ _ q => (s0 i 0x100).loadWaits 1 0 q.id)) = true := by decide +kernel

/-- Stores at s6 plus v3: every place good with room in the runs, lane 9 misaligned, lane 9 out of the scratch, and a run that already holds 64 other
lines. -/
theorem test_hyp_StoreIssue :
    let st : List (Instr × Nat × Nat) := [(.st h0 (.v 8) (.s 6) (.v 3) 0x10 .b32 .normal .core .rlx, 0, 4), (.sts h0 (.v 8) (.s 6) (.v 3) 0x10 .b64 .normal .core .rel, 1, 8),
      (.stw h0 (.v 8) (.s 6) (.v 3) .b128 .stream .nbhd .rlx, 2, 16)]
    let at9 (f : Wave → Wave) (x : Word) (l : List (Instr × Nat × Nat)) (P : Instr → Nat → Nat → State → Ctx → Bool) : Bool :=
      l.all (fun i => wit (base (fun w => f { w with v := [(105, x)] })) i.1 (fun s c => full c && P i.1 i.2.1 i.2.2 s c))
    let ok (k n : Nat) (s : State) (c : Ctx) : Bool := (List.range 32).all (fun l => c.rawAddr k (.s 6) (.v 3) l % n == 0 && (s.place c k (.s 6) (.v 3) n l).isSome)
    let one (k : Nat) : BufW := { sp := .mem 0, a := 0x100000 + 256 * k, b := 0, site := 0, iss := 0, lane := 0, lanes := 1, sc := .core, pol := .normal, rel := false, eng := false, und := false, lost := false }
    let adds (i : Instr) (k n : Nat) (s : State) (c : Ctx) (sl : Nat) : List BufW := (lanesOf (c.lanes &&& sliceMask sl)).flatMap (fun l => match s.place c k (.s 6) (.v 3) n l with
      | some p => c.bufs (stVia .normal .core .rlx) l p.1 p.2 (c.stBytes (.v 8) (match i with | .stw .. => .b128 | .sts .. => .b64 | _ => .b32) l) | none => [])
    let longer (i : Instr) (k n : Nat) (s : State) (c : Ctx) (r : Region) : Nat := ({ r with stores := r.stores ++ adds i k n s c r.sl } : Region).lines.length
    let short (i : Instr) (k n : Nat) (s : State) (c : Ctx) : Bool := s.linesShort c.tm.core c.wv ((slicesOf c.lanes).filterMap (fun sl => (c.wv.region? sl).map (fun r => (r.rid, longer i k n s c r - r.lines.length))))
    (at9 id 0 st (fun i k n s c => ok k n s c && c.wv.regions.all (fun r => longer i k n s c r ≤ 64) && !short i k n s c) &&
     at9 id 2 st (fun _ k n _ c => (List.range 32).find? (fun l => c.rawAddr k (.s 6) (.v 3) l % n ≠ 0) == some 9) &&
     at9 id 0x10000 (st.drop 1) (fun _ k n s c => (List.range 32).all (fun l => c.rawAddr k (.s 6) (.v 3) l % n == 0) &&
       (List.range 32).find? (fun l => (s.place c k (.s 6) (.v 3) n l).isNone) == some 9) &&
     at9 (fun w => { w with regions := w.regions.map (fun r => if r.sl = 2 then { r with stores := (List.range 64).map one } else r) }) 0 (st.take 1)
       (fun i k n s c => ok k n s c && (c.wv.region? 2).any (fun r => 64 < longer i k n s c r)) &&
     (st.take 1).all (fun i => wit (team (fun t => { t with waves := t.waves ++ t.waves.map (fun w =>
         { w with ix := 1, regions := w.regions.map (fun r => { r with rid := r.rid - 100, stores := (List.range 64).map one }) }) }) (base (fun w => { w with regions := w.regions.map (fun r => { r with rid := r.rid + 100 }) }))) i.1
       (fun s c => ok i.2.1 i.2.2 s c && c.wv.regions.all (fun r => longer i.1 i.2.1 i.2.2 s c r ≤ 64) && short i.1 i.2.1 i.2.2 s c))) = true := by decide +kernel
/-- A converting store aligned, misaligned, out of the scratch, into a run that holds 64 other lines, and without an active thread. -/
theorem test_hyp_ConvertingStoreIssue :
    let i (h : Hdr) : List (Instr × Nat) := [(.st h (.v 9) (.s 6) .zero 9 .f32 .normal .core .rlx, 0), (.sts h (.v 9) (.s 6) .zero 0x1E .i32 .normal .core .rlx, 1)]
    let at_ (x : DWord) (l : List (Instr × Nat)) (P : Nat → State → Ctx → Bool) : Bool := l.all (fun y => wit (base (fun w => { w with s := [(6, x)] })) y.1 (P y.2))
    let one (k : Nat) : BufW := { sp := .mem 0, a := 0x100000 + 256 * k, b := 0, site := 0, iss := 0, lane := 0, lanes := 1, sc := .core, pol := .normal, rel := false, eng := false, und := false, lost := false }
    let longer (sf : Nat) (ty : MTy) (c : Ctx) (p : Space × Nat) (r : Region) : Nat :=
      let bs := c.bufs (stVia .normal .core .rlx) 0 p.1 p.2 (packCodes (fmtWidth sf) (byLane (fun l => (toCode sf (c.cvtSrc (.v 9) ty l)).x)))
      ({ r with stores := r.stores ++ bs } : Region).lines.length
    (at_ 0xFF80 (i h0) (fun k s c => c.lanes != 0 && c.rawAddr k (.s 6) .zero 0 % 8 == 0 && (s.place c k (.s 6) .zero 64 0).any (fun p =>
       (c.wv.region? 0).any (fun r => longer 9 .f32 c p r ≤ 64 && longer 0x1E .i32 c p r ≤ 64 && !s.linesShort c.tm.core c.wv [(r.rid, longer 9 .f32 c p r)] &&
         !s.linesShort c.tm.core c.wv [(r.rid, longer 0x1E .i32 c p r)]))) &&
     wit (base (fun w => { w with regions := w.regions.map (fun r => { r with stores := (List.range 64).map one }) })) (.st h0 (.v 9) (.s 6) .zero 9 .f32 .normal .core .rlx)
       (fun s c => c.lanes != 0 && (s.place c 0 (.s 6) .zero (4 * fmtWidth 9) 0).any (fun p => (c.wv.region? 0).any (fun r => 64 < longer 9 .f32 c p r))) &&
     at_ 4 (i h0) (fun k _ c => c.lanes != 0 && c.rawAddr k (.s 6) .zero 0 % 8 != 0) &&
     at_ 0x10000 ((i h0).drop 1) (fun k s c => c.lanes != 0 && c.rawAddr k (.s 6) .zero 0 % 8 == 0 && s.place c k (.s 6) .zero 32 0 == none) &&
     at_ 0 (i never) (fun _ _ c => c.lanes == 0)) = true := by decide +kernel
theorem test_hyp_NothingVisibleBeforeCommit : (issues memoryWords && issues integerWords && memoryWords.all (fun x => !isEvent x.2)) = true := by decide +kernel
/-- A run that a clause ended, those that YIELD, EXIT, BAR and SEND ended, and one whose store goes to an address that does not exist. -/
theorem test_hyp_RegionCommit :
    let ended (e : Option EndOp) (a : Option Nat) : State := base (fun w => { w with bundle := none, regions := [{ w.newRun 5 0 0 with
      stores := a.toList.map (fun x => { sp := .mem 0, a := x, b := 1, site := 8, iss := 1, lane := 0, lanes := 1, sc := .core, pol := .normal, rel := false, eng := false, und := false, lost := false }), ended := some (e.elim .clause .op) }] })
    let op (i : Instr) (x : List DWord) : EndOp := { instr := i, iss := 40, lanes := 15, mask := 15, site := 8, next := 16, x := x, y := [], z := [], st := [], since := 0, lim := 0 }
    let P (s : State) (f : Grp → List Found → Bool) : Bool := wv0 s (fun t w => t.tag == 1 && w.ix == 0 && s.placed t && !t.retired && (w.group 0).any (fun g => w.drained g &&
      g.rs.all (fun r => r.tex == [] && r.bdone == [] && (s.part t.part).shadows == []) && w.thr.length == 32 &&
      (s.gang? t.gid).any (fun gg => gg.nbars.all (fun b => b.arrived == [])) &&
      f g (g.rs.flatMap (fun r => s.foundStores t true g.rs r ++ s.foundTex t true r) ++ g.acts.elim [] (fun e => s.foundOwn (s.ownView t true g e) t w true g e))))
    -- two slices that one CPY of scratch-free description ended, with a store of slice 1 and of slice 0
    let two (a b : Option Nat) : State := mapped (base (fun w => { w with bundle := none, regions := [(0, b), (1, a)].map (fun x => { w.newRun (5 + x.1) x.1 0 with
      stores := x.2.toList.map (fun y => { sp := .mem 0, a := y, b := 1, site := 8, iss := 1, lane := 4 * x.1, lanes := 255, sc := .core, pol := .normal, rel := false, eng := false, und := false, lost := false })
      ended := some (.op { op (.cpy h0 (.s 4) none) [0x1000] with lanes := 255, mask := 255 }) }) }))
    let finds (s : State) (t : Team) (w : Wave) (g : Grp) : List Found := g.rs.flatMap (fun r => s.foundStores t true g.rs r ++ s.foundTex t true r) ++ g.acts.elim [] (fun e => s.foundOwn (s.ownView t true g e) t w true g e)
    let ahead (s : State) (f : List Found → List Found → Bool) (t : Team) (w : Wave) : Bool := t.tag == 1 && w.ix == 0 && s.placed t && !t.retired && (w.group 0).any (fun g => w.drained g && g.ahead.any (fun x =>
      let s1 := s.commitStep3 t w true x.1
      f (x.1.rs.flatMap (fun r => s.foundStores t true x.1.rs r ++ s.foundTex t true r)) (finds s1 t ((s1.wave? 1 0).getD w) x.2)))
    let does (i : Instr) (x : List DWord) : Bool := P (ended (some (op i x)) none) (fun g l => l == [] && g.acts.any (fun e => e.instr == i))
    (P (mapped (ended none (some 0x180))) (fun g l => l == [] && g.acts.isNone) && P (ended none (some 0x1000000000000)) (fun g l => l != [] && g.acts.isNone) &&
     does (.yield h0) [] && does (.exit h0) [] && does (.bar h0 (.k 1)) [1] && does (.send h0 (.v 1) (.s 4) 15) [0] && does (.recv h0 (.v 1) (.s 4) 15) [0] &&
     P (ended (some (op (.yield h0) [])) none) (fun g _ => g.ahead.isNone) && P (ended none none) (fun g _ => g.ahead.isNone) && wv0 (two none none) (fun _ w => (w.group 0).any (fun g => (g.ahead.any (fun x => x.1.rs.map (·.sl) == [1] && x.2.rs.map (·.sl) == [0])))) &&
     wv0 (two (some 0x1000000000000) none) (ahead (two (some 0x1000000000000) none) (fun a _ => a != [])) && wv0 (two none (some 0x1000000000000)) (ahead (two none (some 0x1000000000000)) (fun a b => a == [] && b != [])) &&
     wv0 (two none none) (ahead (two none none) (fun a b => a == [] && b == []))) = true := by decide +kernel

/-- `mapped` with a texture descriptor at 0x600 (RMAP 0x400, one level). -/
def textured (s : State) : State := let m := mapped s; { m with mem := m.mem ++ [(0x200609, 4), (0x200612, 1)] }
/-- The state after issuing `i` with scalar registers `ss` and vector registers `vs`, on mapped memory. -/
def issued (i : Instr) (ss : List (Nat × DWord)) (vs : Sparse Word) : State := after i (textured (base (fun w => { w with s := ss, v := vs, bundle := w.bundle.map (fun b => { b with mask := 1 }) })))
def isOk (x : Except ε α) : Bool := match x with | .ok _ => true | .error _ => false

/-- A pending SFU result, a pending MRES, a committed instruction that holds its wave without and with a trap, and a WCHILD that waits
with and without a child grid left. -/
theorem test_hyp_PendingResults :
    let q : Pend := { id := 5, instr := .slout h0 (.v 1) (.s 2), rids := [], lanes := 1, ev := none, site := 8, dsts := [], clob := [], hold := true, x := [], y := [], z := []
                      fwd := [], sec := [], wr := [.v 1 0 0], flags := 0, lfl := [], mask := 15, trap := none }
    let s (q : Pend) : State := base (fun w => { w with pend := [q], bundle := none, regions := [] })
    let wc (k : Bool) : State := (base (fun w => { w with waits := [(0, .wchild 5 (.v 1) 15)] })).updPart 0 id |> fun s =>
      if k then { s with grids := s.grids.map (fun g => { g with parent := some 1 }) } else s
    (pendWit (issued (.rcp h0 (.v 1) (.k 2) .dyn) [] []) (fun _ _ q => isSfu q.instr) &&
     pendWit (issued (.mres h0 (.v 4) 0 false (some 2)) [] []) (fun _ _ q => match q.instr with | .mres .. => true | _ => false) &&
     pendWit (s q) (fun _ _ q => q.hold && q.rids == [] && q.instr.endsRegion && q.trap == none) &&
     pendWit (s { q with trap := some (9, 0) }) (fun _ _ q => q.hold && q.rids == [] && q.instr.endsRegion && q.trap == some (9, 0)) &&
     [true, false].all (fun k => wv0 (wc k) (fun _ w => w.pend? 5 == none && (w.waits.find? (fun x => match x.2 with | .wchild i _ _ => i == 5 | _ => false)).isSome &&
       (wc k).childrenLeft 1 == k))) = true := by decide +kernel
theorem test_hyp_EngineResults :
    let P (i : Instr) (ss : List (Nat × DWord)) (vs : Sparse Word) (f : State → Team → Wave → Pend → Bool) : Bool := pendWit (issued i ss vs) (fun t w q => q.instr == i && f (issued i ss vs) t w q)
    -- a BVHSET that holds the answer `y` of its issue
    let bv (y : List DWord) : State := (issued (.rinv h0 (.s 3) (.s 4) (some 1)) [] []).updWave 1 0 (fun w => { w with
      pend := w.pend.map (fun q => { q with instr := .bvhset h0 (.s 3) (.s 2) (some 1), x := [0], y := y }) })
    (pendWit (bv [3]) (fun _ _ q => q.y.head? == some 3) && pendWit (bv []) (fun t w q => q.y == [] && isOk ((bv []).engRead (w.engVia t) t 0 false (q.x.headD 0).toNat 256 true)) &&
     P (.rinv h0 (.s 3) (.s 4) (some 1)) [(4, 0xFFFF)] [] (fun _ _ _ q => (q.x.headD 0).toNat < 65536) && P (.rinv h0 (.s 3) (.s 4) none) [(4, 0x10000)] [] (fun _ _ _ q => 65536 ≤ (q.x.headD 0).toNat) &&
     P (.rinvRange h0 (.s 3) (.s 4) (.s 5) (.s 6) none) [(5, 0xFFFFFFFFF000), (6, 0x1000)] [] (fun _ _ _ q => (q.y.headD 0).toNat + (q.z.headD 0).toNat == 2 ^ 48) &&
     P (.shbind h0 (.s 3) (.s 4) (.s 6) (some 1)) [] [] (fun s t w q => isOk (s.runRead t w q (q.rids.headD 0) 0 32 true) && t.part < s.parts.length) &&
     P (.tnext h0 (.s 3) (some 1)) [] [] (fun s t w _ => match s.findTile (w.engVia t) t true (w.walk.getD { t0 := 1, t1 := 1, t2 := 1, mask := none, gone := [] })
       (w.walk.elim 0 (fun k => k.t0 * k.t1 * k.t2)) 0 with | .ok (none, _) => true | _ => false) &&
     (let i : Instr := .tnext h0 (.s 3) (some 1)
      let s := after i (base (fun w => { w with walks := [(0, { t0 := 2, t1 := 1, t2 := 1, mask := none, gone := [(0, (0, 0, 0))] })] }))
      pendWit s (fun t w _ => w.walk.any (fun k => match s.findTile (w.engVia t) t true k 2 0 with | .ok (some x, _) => x == (1, 0, 0) | _ => false))) &&
     P (.qst h0 (.s 3) (.s 4) (.s 6) (.v 1) 16 .fault (some 1)) [(4, 0x800), (5, 0x900), (6, 0x7F7F800000)] [] (fun s t w q => q.qst.any (fun f => match s.runRead t w q (q.rids.headD 0) f.list 8 true with
       | .error _ => false
       | .ok hd => match s.runRead t w q (q.rids.headD 0) f.list (leatSize hd) true with
         | .error _ => false
         | .ok bs => (leatList f.sideB bs).any (fun x => (f.result x.1 x.2 q.lanes (fun l => (q.y.getD l 0).setWidth 32)).any (fun y =>
             s.vcheckK (t.via .core) t.part t.asid f.blk y.1.length true false == [] && s.vcheckK (t.via .core) t.part t.asid f.list (8 + 4 * y.2.1.length) true false == [] &&
             w.regions.all (fun r => let n := ({ r with stores := r.stores ++ f.stores q t.asid s.free x.1 y.1 y.2.1 } : Region).lines.length
               n ≤ 64 && !s.linesShort t.core w [(r.rid, n - r.lines.length)]))))) &&
     P (.tex h0 (.v 4) (.v 8) (.v 12) (.s 4) false (some 1)) [(4, 0x600)] [] (fun s t w q => (lanesOf q.lanes).all (fun l => isOk (s.texLane t w true q false l)) && w.scene == none) &&
     P (.texq h0 (.v 4) (.v 8) (.v 12) (.s 4) (some 1)) [(4, 0x600)] [] (fun s t w q => (lanesOf q.lanes).all (fun l => isOk (s.texLane t w true q true l)))) = true := by decide +kernel
/-- A B tile that can be read; an MMA whose rows, lists and latch can be read, and one that an older MLOADB holds back; and a HAD of one vector. -/
theorem test_hyp_MatrixResults :
    let bd : BDesc := { asid := 0, scr := false, tile := 0x1000, fmt := 9, list := none }
    let mma : Instr := .mma h0 (.s 24) (.v 30) 0 true (some 1)
    let s (o : Bool) : State := (after mma (mapped (base (fun w => { w with bdescs := [(0, some bd)], s := [(24, 0x09000100)], v := vAll 30 31 })))).updWave 1 0 (fun w =>
      if o then { w with pend := w.pend.map (fun q => { q with id := 0, instr := .mloadb h0 (.s 20) .zero 9 false none }) ++ w.pend } else w)
    let had : Instr := .had h0 (.s 1) (.s 2) (.s 3) .p16 .i32i16 (some 1)
    let hs := issued had [(1, 0), (2, 0x100), (3, 1)] []
    (pendWit (issued (.mloadb h0 (.s 20) .zero 9 false (some 2)) [(20, 0x1000)] []) (fun t w q =>
       isOk ((issued (.mloadb h0 (.s 20) .zero 9 false (some 2)) [(20, 0x1000)] []).readTile (w.engVia t) t ((issued (.mloadb h0 (.s 20) .zero 9 false (some 2)) [(20, 0x1000)] []).scrLim t) true { bd with tile := (q.x.getD 0 0).toNat })) &&
     pendWit (s false) (fun t w q => q.mma.any (fun m => !(s false).engFirst t w q.id && isOk ((s false).gatherA t ((s false).scrLim t) true q m) &&
       isOk ((s false).latchFor t w true m.bd) && w.mopen.all (fun e => e.id != q.id || e.spoilt == 0))) &&
     pendWit (s true) (fun t w q => q.mma.isSome && (s true).engFirst t w q.id) &&
     pendWit hs (fun t w q => q.instr == had && isOk (hs.engRead .agent t (hs.scrLim t) true 0 32 true) && (w.regions.find? (fun x => q.rids.contains x.rid)).any (fun r => w.region? r.sl == some r))) =
      true := by decide +kernel

/-- After issuing a write of `x` to register `n` of Table 17.2. -/
def wrote (n : BitVec 12) (x : DWord) : State := after (.csrw h0 (.s 1) n) (base (fun w => { w with s := [(1, x)] }))
/-- Each register at the last value that its check lets through and the first that it does not, with the root core running and halted. -/
theorem test_hyp_SystemRegisterWrites :
    let P (n : BitVec 12) (x : DWord) (f : State → DWord → Bool) : Bool := pendWit (wrote n x) (fun _ _ q => csrOf q.instr == some (n.toNat, true) && q.x.headD 0 == x &&
      !(wrote n x).rootHalt && (q.z.headD 0).toNat < (wrote n x).parts.length && f (wrote n x) x)
    let pq (s : State) (x : DWord) : Bool := 16 ≤ x.toNat || popc x.toNat 4 == 3 || x &&& s.quartersOff.setWidth 64 != 0 || [1, 2, 3].any (fun o => (s.part o).pqmask &&& x != 0)
    (issues [(0, .csrw h0 (.s 1) 0x011), (0, .csrwSet h0 (.k 1) 0x000), (0, .csrwClr h0 .zero 0x020)] &&
     P 0 3 (fun _ _ => true) && P 1 0xFF (fun _ _ => true) && P 0x11 0x80000 (fun _ _ => true) &&
     P 0x12 0x80000000000000F3 (fun _ x => bits x.toNat 8 55 == 0 && bits x.toNat 2 2 == 0) && P 0x12 4 (fun _ x => bits x.toNat 2 2 != 0) &&
     P 0x20 15 (fun s x => !pq s x) && P 0x20 16 pq && P 0x20 7 pq && P 0x21 0xFFFF (fun _ x => x.toNat < 2 ^ 16) && P 0x21 0x10000 (fun _ x => 2 ^ 16 ≤ x.toNat) &&
     P 0x26 0xF0F (fun _ x => bits x.toNat 4 4 == 0 && bits x.toNat 12 52 == 0) && P 0x26 0x10 (fun _ x => bits x.toNat 4 4 != 0) && P 0x27 (BitVec.allOnes 64) (fun _ _ => true) &&
     P 0x29 0x0FFFFFFFFFFFFFFF (fun _ x => bits x.toNat 60 4 == 0) && P 0x29 0x1000000000000000 (fun _ x => bits x.toNat 60 4 != 0) &&
     P 0x22 64 (fun _ x => x.toNat ≤ 64) && P 0x22 65 (fun _ x => 64 < x.toNat) && P 0x23 0xFFFFFFF0000 (fun _ x => bits x.toNat 44 20 == 0 && bits x.toNat 0 16 == 0) &&
     (let milv (x : DWord) : Bool := bits x.toNat 40 24 != 0 || bits x.toNat 20 4 != 0 || 9 < bits x.toNat 16 4 || !([0, 1, 2, 4, 8, 16].contains (popc x.toNat 16))
      P 0x25 0xFFFF09FFFF (fun _ x => !milv x) && [0x10000000001, 0x100001, 0xA0001, 0x7].all (fun x => P 0x25 x (fun _ x => milv x))) &&
     P 0x24 0x100000000000 (fun _ x => bits x.toNat 44 20 != 0) && P 0x28 0 (fun _ _ => true) && P 0x2A 0xFFFFFFFF (fun _ x => bits x.toNat 32 32 == 0) && P 0x2A 0x100000000 (fun _ x => bits x.toNat 32 32 != 0) &&
     P 0x2B 0xFFFFFFFFFFF9 (fun _ x => bits x.toNat 48 16 == 0 && bits x.toNat 1 2 == 0) && P 0x2B 2 (fun _ x => bits x.toNat 1 2 != 0) &&
     P 0x2C 0xFFFFFFFFF000 (fun _ x => bits x.toNat 48 16 == 0 && bits x.toNat 0 12 == 0) && P 0x2C 0x800 (fun _ x => bits x.toNat 0 12 != 0) &&
     ({ wrote 0x20 15 with rootHalt := true } : State).rootHalt) = true := by decide +kernel
theorem test_hyp_QueueRegisterWrites :
    let s := State.reset
    (s.parts.length = 4 ∧ s.pcq.length = 4 ∧ s.pca.length = 4 ∧ ((s.part 3).queues[63]?).isSome = true ∧ cfgEn 0 = false ∧ cfgEn 1 = true ∧
      bits (0xB01 : DWord).toNat 8 4 < 12 ∧ 12 ≤ bits (0xC01 : DWord).toNat 8 4 ∧
      ([0x800, 0x808, 0x848, 0x858, 0x870, 0xFF8].all (fun off => decide (off < 0x1000) && off % 8 == 0 && !pageOwn off)) = true) := by decide +kernel

/-- The lowest active thread's value of an operand. -/
def xOf (o : Opd) (c : Ctx) : DWord := c.w64 o (lowest c.lanes)
def sets (l : List (Nat × DWord)) : Wave → Wave := fun w => { w with s := l }
theorem test_hyp_AddressEngineIssue :
    let W (i : Instr) (l : List (Nat × DWord)) (P : State → Ctx → Bool) : Bool := wit (base (sets l)) i P
    let ev : Option (BitVec 3) := some 2
    let q (h : Hdr) : Instr := .qst h (.s 2) (.s 10) (.s 14) (.v 20) 28 .fault ev
    let res (x : Nat) : Bool := bits x 32 8 == 255 || bits x 48 16 != 0 || (bit x 47 && 15 < bits x 40 5)
    (W (.shbind h0 (.s 7) (.s 10) (.s 12) ev) [(10, 4)] (fun _ c => c.lanes != 0 && (xOf (.s 10) c).toNat % 8 != 0) &&
     W (.shbind h0 (.s 7) (.s 10) (.s 12) ev) [(10, 8)] (fun _ c => (xOf (.s 10) c).toNat % 8 == 0) && W (.shbind never .zero (.s 10) (.s 12) ev) [(10, 4)] (fun _ c => c.lanes == 0) &&
     W (.shfree h0 (.s 7) (.s 12) ev) [] (fun s c => c.lanes != 0 && c.tm.part < s.parts.length) &&
     W (.cpy h0 (.s 14) ev) [(14, 64)] (fun _ c => c.lanes != 0 && (xOf (.s 14) c).toNat % 128 != 0) && W (.cpy h0 (.s 14) none) [(14, 128)] (fun _ c => (xOf (.s 14) c).toNat % 128 == 0) &&
     W (.aqstart h0 (.s 9) ev) [] (fun _ c => c.lanes != 0 && c.gg.kobj.aloops != 0 && !c.tm.aq.run && c.tm.aq.q.all (· == [])) &&
     wit (team (fun t => { t with aq := { t.aq with run := true } }) (base id)) (.aqstart h0 (.s 9) ev) (fun _ c => c.lanes != 0 && c.tm.aq.run) &&
     wit ((base id).updGang 9 (fun g => { g with kobj := { g.kobj with aloops := 0 } })) (.aqstart h0 (.s 9) ev) (fun _ c => c.gg.kobj.aloops == 0) &&
     W (.aqstop h0 (.s 9) ev) [] (fun _ c => c.lanes != 0) && W (.aqstopQry h0 (.s 9) (.k 7) ev) [] (fun _ c => c.lanes != 0) &&
     (let i : Instr := .pref h0 (.s 2) (.v 3) .keep
      let goes (s : State) (c : Ctx) (l : Nat) : Bool := (s.advance c i).runAhead { c.tm.via .core with pol := .keep } c.tm.part c.tm.asid ((c.memAddr (.s 2) (.v 3) l).toNat / 64 * 64) 64 c.sys
      let m := mapped (base (sets [(2, 0x1000)]))
      wit m i (fun s c => (lanesOf c.lanes).all (fun l => !goes s c l)) && wit (m.tlbFill none 0 0 0x1000) i (fun s c => (lanesOf c.lanes).all (goes s c))) &&
     W (q h0) [(10, 4)] (fun _ c => (c.s 10).toNat % 8 != 0) && W (q h0) [(11, 4)] (fun _ c => (c.s 10).toNat % 8 == 0 && (c.s 11).toNat % 8 != 0) &&
     [0xFF00000000, 0x1000000000000, 0x900000000000].all (fun x => W (q h0) [(14, x)] (fun _ c => (c.s 10).toNat % 8 == 0 && (c.s 11).toNat % 8 == 0 && res (xOf (.s 14) c).toNat)) &&
     [0xFE00000000, 0x8F0000000000, 0x1F0000000000].all (fun x => W (q h0) [(14, x)] (fun _ c => (c.s 10).toNat % 8 == 0 && (c.s 11).toNat % 8 == 0 && !res (xOf (.s 14) c).toNat)) &&
     W (q never) [(10, 4)] (fun _ c => c.lanes == 0)) = true := by decide +kernel
theorem test_hyp_DecodedNumbers :
    let i (scl esc : Bool) : Instr := .decn h0 (.v 1) (.v 2) (if scl then .v 3 else .zero) 1 scl esc
    let vs (x : Word) : Wave → Wave := fun w => { w with v := vAll 3 x }
    (wit (base (vs 255)) (i true false) (fun _ c => (lanesOf c.lanes).any (fun l => (c.w32 (.v 3) l).toNat % 256 == 255)) &&
     wit (base (vs 254)) (i true false) (fun _ c => (lanesOf c.lanes).all (fun l => (c.w32 (.v 3) l).toNat % 256 != 255)) &&
     allWit (vs 255) [i false false, i false true] full) = true := by decide +kernel
/-- The clauses of the matrix instructions, each reached with the clauses before it not met. -/
theorem test_hyp_MatrixIssue :
    let W (f : Wave → Wave) (i : Instr) (P : Ctx → Bool) : Bool := wit (base f) i (fun _ c => P c)
    let bd : BDesc := { asid := 0, scr := false, tile := 0x1000, fmt := 9, list := none }
    let op (id : Nat) (cov : Bool) : MOpen := { id := id, rids := [], bank := true, lanes := 15, regs := [], rng := [], covered := cov, spoilt := 0 }
    let pd : Pend := { id := 5, instr := .nop h0, rids := [], lanes := 1, ev := none, site := 8, dsts := [], clob := [], hold := false, x := [], y := [], z := [], fwd := [], sec := [], wr := [], flags := 0, lfl := [], mask := 1, trap := none }
    let busy (w : Wave) : Wave := { w with mopen := [op 5 false], pend := [pd] }
    let free (c : Ctx) : Bool := !c.b.chk || c.wv.mopen.all (fun e => e.bank != true || e.covered || c.wv.pend.all (fun q => q.id != e.id))
    let closed (c : Ctx) : Bool := c.wv.mopen.all (fun e => e.bank != true || e.covered || e.lanes &&& c.lanes == 0)
    let ml (f : BitVec 5) (b : Opd) : Instr := .mloadb h0 (.s 20) b f false (some 1)
    let mma (h : Hdr) : Instr := .mma h (.s 24) (.v 30) 0 true (some 1)
    let md (d : DWord) (w : Wave) : Wave := { w with bdescs := [(0, some bd)], s := [(24, d)] }
    let ad (c : Ctx) : ADesc := ADesc.of (xOf (.s 24) c).toNat
    let okD (c : Ctx) : Bool := c.wv.bdesc.any (fun w => !(ad c).bad && isLeat (ad c).fmt == (ad c).lv && pairOk (ad c).fmt w.fmt)
    let had (h : Hdr) : Instr := .had h (.s 1) (.s 2) (.s 3) .p16 .i32i16 none
    let tw (n : WDim) (b : Opd) : Instr := .twalk h0 (.s 3) (.s 4) b n (some 0)
    let bad (n : WDim) (c : Ctx) : Bool := (List.range 3).any (fun j => decide (j < walkN n) == (bits (xOf (.s 4) c).toNat (16 * j) 16 == 0)) || bits (xOf (.s 4) c).toNat 48 16 != 0
    (W id (ml 9 (.s 22)) (fun c => c.lanes != 0 && !isLeat 9) && W (sets [(20, 4)]) (ml 9 .zero) (fun c => (xOf (.s 20) c).toNat % 8 != 0) && W (sets [(22, 4)]) (ml 28 (.s 22)) (fun c => isLeat 28 && (xOf (.s 22) c).toNat % 8 != 0) &&
     W id (ml 9 .zero) full && W id (ml 28 (.s 22)) full &&
     W busy (mma h0) (fun c => !free c) && W (md 0x29000100) (mma h0) (fun c => free c && !okD c) && W id (mma h0) (fun c => free c && c.wv.bdesc == none) && W (md 0x09000104) (mma h0) (fun c => okD c && (ad c).tile % 8 != 0) &&
     W (fun w => { md 0x800000041C000100 w with bdescs := [(0, some { bd with fmt := 28, list := some 0 })] }) (mma h0) (fun c => free c && okD c && (ad c).tile % 8 == 0 && (ad c).lv && (ad c).list % 8 != 0) &&
     W (md 0x0900F008) (mma h0) (fun c => free c && okD c && (ad c).tile % 8 == 0 && c.gg.kobj.scrLen < (ad c).tile + 512 * fmtWidth (ad c).fmt) &&
     W (fun w => { md 0x0900F000 w with v := vAll 30 32 }) (mma h0) (fun c => free c && okD c && (ad c).tile + 512 * fmtWidth (ad c).fmt == c.gg.kobj.scrLen && c.w32 (.v 30) 0 == 32) &&
     W (fun w => { md 0x0900F000 w with v := vAll 30 0xFFFFFFFF }) (mma h0) (fun c => free c && okD c && (ad c).tile + 512 * fmtWidth (ad c).fmt == c.gg.kobj.scrLen) && W (md 0x29000104) (mma never) (fun c => c.lanes == 0) &&
     [.mres h0 (.v 4) 3 true none, .mres h0 (.v 4) 3 true (some 7), .mzero h0 true true].all (fun i => W busy i (fun c => c.lanes != 0 && !free c) && W (fun w => { w with mopen := [op 5 true] }) i (fun c => c.lanes != 0 && free c && closed c &&
       c.wv.mopen.all (·.covered))) &&
     W id (.mfence h0 .dev) full && W id (.mwait h0) full &&
     W (sets [(1, 1)]) (had h0) (fun c => (xOf (.s 1) c).toNat % 2 != 0) && W (sets [(2, 2)]) (had h0) (fun c => (xOf (.s 1) c).toNat % 2 == 0 && (xOf (.s 2) c).toNat % 4 != 0) &&
     W (sets [(1, 0xFFE2), (3, 1)]) (had h0) (fun c => c.gg.kobj.scrLen < (xOf (.s 1) c).toNat + 32) && W (sets [(1, 0xFFE0), (2, 0xFFC4), (3, 1)]) (had h0) (fun c => (xOf (.s 1) c).toNat + 32 == c.gg.kobj.scrLen && c.gg.kobj.scrLen < (xOf (.s 2) c).toNat + 64) &&
     W (sets [(1, 0xFFE0), (2, 0xFFC0), (3, 1)]) (had h0) (fun c => (xOf (.s 1) c).toNat + 32 == c.gg.kobj.scrLen && (xOf (.s 2) c).toNat + 64 == c.gg.kobj.scrLen) && W id (had h0) (fun c => xOf (.s 3) c == 0) && W (sets [(1, 1)]) (had never) (fun c => c.lanes == 0) &&
     W (sets [(4, 0x00010001), (5, 4)]) (tw .d2 (.s 5)) (fun c => !bad .d2 c && (xOf (.s 5) c).toNat % 8 != 0) && W (sets [(4, 0x00010001)]) (tw .d2 .zero) (fun c => !bad .d2 c) && W (sets [(4, 0x00010001)]) (tw .d1 .zero) (bad .d1) &&
     W (sets [(4, 0x00010001)]) (tw .d3 .zero) (bad .d3) && W id (.tnext h0 (.s 3) (some 1)) full) = true := by decide +kernel

/-- A pool record. -/
def prec (n : Nat) (f : PoolRec → PoolRec) (s : State) : State := team (fun t => { t with pool := sput t.pool n (f { PoolRec.empty with root := n, gen := 1 }) }) s
def cand0 : Cand := { tag := 7, ray := 0, hit := { t := 0, u := 0, v := 0, gid := 0, pid := 0, leaf := 0 }, proc := false, pix := 0, taken := none, dec := none }
theorem test_hyp_BeamIssue :
    let W (f : Wave → Wave) (i : Instr) (P : Ctx → Bool) : Bool := wit (base f) i (fun _ c => P c)
    let sc (l : List (Nat × DWord)) (w : Wave) : Wave := { w with scenes := [(0, [])], s := l }
    let beam (h : Hdr) : Instr := .beam h (.s 5) (.s 4) none
    let rays (h : Hdr) : Instr := .rays h (.v 16) (.v 20) (.v 24) true false (some 1)
    let acc : Instr := .hitacc h0 (.v 1) (.v 2) (.v 3)
    let pool := prec 3 (fun r => { r with st := .cand, cands := [cand0] })
    let lane5 (tag d : Word) : State := pool (base (fun w => { w with v := (vAll 1 0xFFFFFFFF).map (fun x => if x.1 = 37 then (37, tag) else x) ++ [(101, d)] }))
    let lost := prec 3 (fun r => { r with st := .failed, old := [9], cause := 0x08 }) (lane5 9 2)
    let spoilt := prec 3 (fun r => { r with st := .cand, cands := [cand0], bad := true }) (lane5 7 2)
    let failed (c : Ctx) (l : Nat) : Option Nat := c.tm.failedBy (c.w32 (.v 1) l)
    let isBad (c : Ctx) (l : Nat) : Bool := (c.tm.candOf (c.w32 (.v 1) l)).any (·.1.bad)
    let ok (c : Ctx) (l : Nat) : Bool := (c.w32 (.v 3) l).toNat ≤ 2 && (c.tm.candOf (c.w32 (.v 1) l)).any (fun x => x.2.dec == none && x.2.taken.all (· == c.wv.ridOf (l / 4)))
    let ls (c : Ctx) : List Nat := (lanesOf c.lanes).filter (fun l => c.w32 (.v 1) l ≠ 0xFFFFFFFF)
    (W (sc [(4, 8)]) (beam h0) (fun c => (xOf (.s 4) c).toNat % 16 != 0) && W (sc [(4, 0xFF10)]) (beam h0) (fun c => c.gg.kobj.scrLen < (xOf (.s 4) c).toNat + 256) &&
     W (sets [(4, 0xFF00)]) (beam h0) (fun c => (xOf (.s 4) c).toNat + 256 == c.gg.kobj.scrLen && !c.wv.sceneDue) && W (sc [(4, 0xFF00)]) (beam h0) (fun c => (xOf (.s 4) c).toNat + 256 == c.gg.kobj.scrLen && c.wv.sceneDue) &&
     W (sc [(4, 0x10000FF00)]) (beam h0) (fun c => c.gg.kobj.scrLen < (xOf (.s 4) c).toNat + 256) && W id (beam never) (fun c => c.lanes == 0) && W id (rays h0) (fun c => c.lanes != 0 && !c.wv.sceneDue) && W (sc []) (rays h0) (fun c => c.lanes != 0 && c.wv.sceneDue) && W id (rays never) (fun c => c.lanes == 0) &&
     W (sets [(5, 0x10003)]) (.bdone h0 (.s 5)) (fun c => (c.tm.byHandle 0x10003).isNone) && W (sets [(5, 0xFFFFFFFE)]) (.bdone h0 (.s 5)) full && wit (pool (base (sets [(5, 0x10003)]))) (.bdone h0 (.s 5)) (fun _ c => (c.tm.byHandle 0x10003).isSome) &&
     wit (lane5 7 3) acc (fun _ c => (ls c).any (fun l => !ok c l && failed c l == none)) && wit (lane5 8 2) acc (fun _ c => (ls c).any (fun l => !ok c l && failed c l == none)) &&
     wit lost acc (fun _ c => (ls c).all (fun l => ok c l || failed c l != none) && (ls c).findSome? (failed c) == some 8) &&
     wit spoilt acc (fun _ c => (ls c).all (fun l => ok c l && failed c l == none) && (ls c).any (isBad c)) &&
     wit (lane5 7 2) acc (fun _ c => ls c == [5] && (ls c).all (fun l => ok c l && failed c l == none && !isBad c l)) && wit (lane5 0xFFFFFFFF 9) acc (fun _ c => ls c == []) &&
     W (sets [(4, 32)]) (.bvhset h0 (.s 3) (.s 4) none) (fun c => (xOf (.s 4) c).toNat % 64 != 0) && W (sets [(4, 64)]) (.bvhset h0 (.s 3) (.s 4) none) (fun c => (xOf (.s 4) c).toNat % 64 == 0) &&
     (let i : Instr := .bvhset h0 (.s 3) (.s 4) none
      wit (mapped (base (sets [(4, 64)]))) i (fun s c => c.lanes != 0 && isOk ((s.advance c i).engRead (c.wv.engVia c.tm) c.tm 0 false 64 256 c.sys))) &&
     [Instr.tex h0 (.v 4) (.v 8) (.v 12) (.s 4) true (some 1), .texq h0 (.v 4) (.v 8) (.v 12) (.s 4) (some 1)].all (fun i =>
       W (sets [(4, 32)]) i (fun c => c.lanes != 0 && (xOf (.s 4) c).toNat % 64 != 0) && W (sets [(4, 64)]) i (fun c => (xOf (.s 4) c).toNat % 64 == 0))) = true := by decide +kernel
/-- BFRAG, HITGET and HITGET.cand against records of every state, and a handle of no record. -/
theorem test_hyp_PoolReads :
    let i (k : Nat) : Instr := if k = 0 then .bfrag h0 (.v 8) (.s 5) (some 1) else if k = 1 then .hitget h0 (.v 8) (.v 4) (some 1) else .hitgetCand h0 (.v 8) (.v 4) (some 1)
    let hd (k : Nat) (c : Ctx) (l : Nat) : Word := if k = 0 then (c.w64 (.s 5) (lowest c.lanes)).setWidth 32 else c.w32 (.v 4) l
    let try_ (k : Nat) (s : State) (c : Ctx) : PoolTry := c.tm.tryPool (i k) (lanesOf c.lanes) (hd k c) (s.free + 1) (fun l => c.wv.ridOf (l / 4))
    let at_ (ray : Bool) (st : RecSt) (bad : Bool := false) : State := prec 3 (fun r => { r with
        isRay := ray, bad := bad, st := st, cause := 0x14, cands := (if st == .cand then [cand0] else []),
        rays := (List.range 4).map (fun l => { lane := l, ox := 0, oy := 0, oz := 0, tmin := 0, dx := 0, dy := 0, dz := 0, tmax := 0, bad := false, pix := 0, hit := none, fin := true, todo := [] }),
        frags := [[1, 2, 3, 4, 5, 6, 7, 8, 9, 10, 11, 12]] }) (base (fun w => { w with s := [(5, 0x10003)], v := vAll 4 0x10003 }))
    let W (k : Nat) (s : State) (P : PoolTry → Bool) : Bool := wit s (i k) (fun s c => c.lanes != 0 && P (try_ k s c))
    let trap : PoolTry → Bool := fun x => match x with | .trap c => c == 0x14 | _ => false
    let lostW : PoolTry → Bool := fun x => match x with | .trap c => c == 0x15 | _ => false
    let wait : PoolTry → Bool := fun x => match x with | .wait => true | _ => false
    let ok : PoolTry → Bool := fun x => match x with | .ok _ _ => true | _ => false
    ([0, 1, 2].all (fun k => W k (base (fun w => { w with v := vAll 4 5 })) trap && W k (at_ (k != 0) .busy) wait && W k (at_ (k != 0) .failed) trap &&
      W k (at_ (k != 0) .ready) ok && W k (at_ (k != 0) .cand) ok) && W 0 (at_ true .ready) trap && W 0 (at_ false .ready true) lostW && W 0 (at_ false .cand true) lostW && W 1 (at_ false .ready) ok &&
     [RecSt.busy, .cand, .ready, .failed].all (fun st => [true, false].all (fun b => ((at_ false st b).team? 1).any (fun t => (t.byHandle 0x10003).any (fun x => x.2.1.st == st && !x.2.1.isRay && x.2.1.bad == b))))) = true := by decide +kernel
theorem test_hyp_SystemIssue :
    let q (k : Nat) (h : Hdr) : Instr := if k = 0 then .qctlQ h (.s 10) (.s 8) none else if k = 1 then .qctlR h (.s 10) (.s 8) (some 1) else .qctlQry h (.s 10) (.s 8) none
    let b (m : DWord) : State := base (sets [(8, m)])
    let go (s : State) (c : Ctx) : Bool := c.lanes != 0 && !s.rootHalt && c.tm.reach < s.parts.length
    let x (c : Ctx) : DWord := xOf (.s 8) c
    let mine (s : State) (c : Ctx) : Bool := c.tm.part == c.tm.reach && s.queueOf c.tm < 64 && (x c).getLsbD (s.queueOf c.tm)
    let lat (s : State) (c : Ctx) : Bool := (s.namedTeams c.tm.reach (x c)).any (fun t => (s.gridOf t.tag).any (·.lat))
    -- team 2 of gang 12 and queue 3, beside the issuing team of queue 0
    let two (l : Bool) (m : DWord) : State := let s := b m
      { s with teams := s.teams ++ s.teams.map (fun t => { t with tag := 2, gid := 12, core := 1 }), gangs := s.gangs ++ s.gangs.map (fun g => { g with gid := 12, grid := 13 })
               grids := s.grids ++ s.grids.map (fun g => { g with id := 13, queue := 3, lat := l }) }
    let deep (n : Nat) (a : DWord) : State := let s := base (sets [(4, a)]); { s with grids := s.grids.map (fun g => { g with depth := n }) }
    ([0, 1, 2].all (fun k => wit (b 1) (q k never) (fun _ c => c.lanes == 0) && wit { b 1 with rootHalt := true } (q k h0) (fun s c => c.lanes != 0 && s.rootHalt) && wit (b 0) (q k h0) (fun s c => go s c && x c == 0)) &&
     wit (b 1) (q 0 h0) (fun s c => go s c && x c != 0 && mine s c) && wit (two true 8) (q 0 h0) (fun s c => go s c && !mine s c && lat s c) && wit (b 2) (q 0 h0) (fun s c => go s c && !mine s c && s.namedTeams c.tm.reach (x c) == []) &&
     wit (two false 8) (q 0 h0) (fun s c => go s c && !mine s c && !lat s c && s.namedTeams c.tm.reach (x c) != [] && (s.namedTeams c.tm.reach (x c)).all (fun u => s.teams.all (fun y => y.gid != u.gid || y.tag != c.tag))) &&
     wit ((b 2).updPart 0 (fun p => { p with pmlim := 0xFE0000000 })) (q 1 h0) (fun s c => go s c && x c != 0 && s.configOk c.tm.reach) && wit ((b 2).updPart 0 (fun p => { p with pways := 0 })) (q 1 h0) (fun s c => go s c && x c != 0 && !s.configOk c.tm.reach) &&
     wit (deep 10 0) (.launch h0 (.v 8) (.s 4)) (fun s c => c.lanes != 0 && s.depthOf c.tag == 10) && wit (deep 9 32) (.launch h0 (.v 8) (.s 4)) (fun s c => s.depthOf c.tag == 9 && c.w == 0 && (xOf (.s 4) c).toNat % 64 != 0) &&
     wit (deep 9 64) (.launch h0 (.v 8) (.s 4)) (fun s c => s.depthOf c.tag == 9 && c.w == 0 && (xOf (.s 4) c).toNat % 64 == 0) && wit (deep 10 1) (.launch never (.v 8) (.s 4)) (fun _ c => c.lanes == 0) &&
     wit (base id) (.enrd h0 (.s 4)) (fun _ c => c.lanes != 0) && wit (base id) (.enrd never (.s 4)) (fun _ c => c.lanes == 0) && allWit id [.rinv h0 (.s 3) (.s 4) none, .rinvRange h0 (.s 3) (.s 4) (.s 5) (.s 6) (some 1)] full) = true := by decide +kernel

/-- `base` at a clause boundary, its threads at `pc`, with the open runs that `rs` gives. -/
def atPc (pc : DWord) (rs : Wave → List Region) : State :=
  base (fun w => { w with bundle := none, regions := rs w, thr := List.replicate 32 { pc := pc, exited := false, mem := 0, hold := none } })
/-- Two clauses: at 0x40 a header that sets RB, at 0x60 one that does not, each before the example word of 3.9. -/
def coded (s : State) : State :=
  let m := (mapped s).mem
  let w (a : Nat) : Memory := [(a + 7, 0xC0), (a + 10, 0x2C), (a + 11, 0x10), (a + 12, 0x30), (a + 13, 0xF0), (a + 14, 0x07), (a + 15, 0x10)]
  { s with mem := m.take 9 ++ [(0x200046, 8)] ++ w 0x200040 ++ w 0x200060 ++ m.drop 9 }
/-- A clause at the head PC of wave 0 of team 1 can be fetched. -/
def fetched (s : State) (P : Team → Wave → DWord → Lanes → Option Header → Bool) : Bool :=
  wv0 s (fun t w => s.atBoundary t w && (w.headPc (s.readySlices t w)).any (fun pc =>
    match s.fetch t w true pc.toNat 1 with
    | .ok hw => P t w pc (w.bundleAt (s.readySlices t w) pc) (Header.ofWord (hw.headD 0))
    | .error _ => false))
theorem test_hyp_TeamAgents_clauses :
    let words (s : State) (t : Team) (w : Wave) (pc : DWord) (h : Header) : Bool := match s.fetch t w true (pc.toNat + 8) h.n with
      | .ok ws => !clauseBad h ws
      | .error _ => false
    (wv0 (base id) (fun t w => !(base id).atBoundary t w) && wv0 (atPc 0 (fun _ => [])) (fun t w => (atPc 0 (fun _ => [])).atBoundary t w) &&
     fetched (mapped (atPc 0x40 (fun _ => []))) (fun _ _ _ _ h => h.isNone) &&
     fetched (coded (atPc 0x40 (fun w => w.regions))) (fun _ w _ m h => h.any (·.rb) && w.regions.any (w.endsAt m)) &&
     fetched (coded (atPc 0x40 (fun _ => []))) (fun t w pc m h => h.any (fun h => h.rb && !w.regions.any (w.endsAt m) && words (coded (base id)) t w pc h)) &&
     fetched (coded (atPc 0x60 (fun w => w.regions))) (fun t w pc m h => h.any (fun h => !h.rb && w.openIn m == slicesOf m && words (coded (base id)) t w pc h))) = true := by
  decide +kernel
/-- A copy of one element of 16 bytes from scratch to scratch, and others that have ended, are malformed or belong to a record. -/
def copyBytes (ctl : Nat) : List Byte := packRec [(0x100, 8), (0x200, 8), (ctl, 8), (1, 4), (0, 36), (0, 64)]
def copy1 : Copy := { id := 5, desc := 0x1000, bytes := copyBytes 0x6900, asid := 0, part := 0, sys := true, tag := some 1, wave := 0, ev := some 1, pos := 0
                      poisoned := false, flags := 0, fin := none, grid := none, holds := [] }
def copying (c : Copy) : State := let s := mapped (base (fun w => { w with ev := [(1, 1)] })); { s with copies := [c] }
theorem test_hyp_TeamAgents_copies :
    let W (c : Copy) (P : State → Copy → Bool) : Bool := let s := copying c; (s.copies.find? (·.id == 5)).any (fun c => P s c)
    let ends (s : State) (c : Copy) : Bool := s.vcheckK (s.copyVia c) c.part c.asid (c.desc + 0x3C) 4 c.sys true == []
    let can (c : Copy) : Bool := c.holds == [] && c.bytes != []
    let h : Hold := { sl := 0, slot := none, asid := 0, blk := 0, pages := 0, kinds := 0, who := 0, part := 0 }
    let reads (s : State) (c : Copy) : Except Bad (List Byte) := s.vread .agent c.part c.asid c.desc 128 c.sys
    (W { copy1 with holds := [h] } (fun _ c => c.holds != []) && W { copy1 with bytes := [] } (fun s c => c.holds == [] && c.bytes == [] && isOk (reads s c)) &&
     W { copy1 with bytes := [], desc := 0x1000000000000 } (fun s c => c.holds == [] && c.bytes == [] && match reads s c with | .error (.fault _) => false | .error _ => true | _ => false) &&
     W { copy1 with fin := some 9 } (fun s c => can c && ends s c && c.fin == some 9) &&
     W { copy1 with bytes := copyBytes 0x8000 } (fun s c => let d := { c with fin := some 1 }; can c && ends (s.setCopy d) d && c.fin == none && c.bad) &&
     W copy1 (fun s c => let r := s.copyRun (c.units - c.pos) c; can c && c.fin == none && !c.bad && r.2.fin == some 0 && ends (r.1.setCopy r.2) r.2) &&
     W copy1 (fun s c => c.fscr && c.tscr && c.sf == 16 && c.src c.pos == (0x100, 16) && c.dst c.pos == (0x200, 16) && 0x210 ≤ s.copyScr c &&
       (s.team? 1).any (fun t => (List.range 16).all (fun i => !s.copyOverlap c (0x200 + i : Nat) && t.scrBad (0x100 + i) 1 == none)) && isOk (s.copyUnit c)) &&
     W { copy1 with tag := none, grid := some 10, fin := some 0 } (fun s c => can c && ends s c && c.tag == none && (s.grid? 10).any (·.parent == none) && c.part < s.parts.length) &&
     goes (.copyComplete 5) (copying copy1) (fun u => u.copies == [] && wv0 u (fun _ v => v.evr 1 == 0))) = true := by decide +kernel
theorem test_hyp_TeamAgents_streams :
    let aq (f : Aq → Aq) : State := mapped (team (fun t => { t with aq := f { t.aq with run := true, base := List.replicate 8 0x1000 } }) (base id))
    let W (s : State) (P : Team → Gang → Bool) : Bool := (s.team? 1).any (fun t => (s.gang? t.gid).any (fun g => P t g))
    (W (base id) (fun t g => !t.mayPush g.kobj) &&
     W (aq id) (fun t g => (aq id).placed t && !t.retired && t.mayPush g.kobj && g.kobj.nextFed t.aq.ns == some 0 && (g.kobj.streams[0]?).isSome && t.aq.q.length == 8) &&
     W (aq (fun a => { a with ns := 7 })) (fun t g => t.mayPush g.kobj && g.kobj.nextFed t.aq.ns == some 7 && (g.kobj.streams[7]?).isSome) && goes (.streamPush 1) (aq id) (fun _ => true)) = true := by decide +kernel
/-- A run that ends with SLIN, waiting since cycle 0 with a limit of 1 µs. -/
def slinWaits (cyc : Nat) : State := { base (fun w => { w with regions := w.regions.map (fun r => { r with ended := some (.op
  { instr := .slin h0 .zero (.v 2) (.v 4), iss := 1, lanes := 1, mask := 1, site := 8, next := 16, x := [], y := [], z := [], st := [], since := 1, lim := 1 }) }) }) with cycle := cyc }
/-- Wave 0 of team 1 with every slice waiting at barrier 0, the partition blocked since cycle 0. -/
def barWaits (cyc : Nat) : State := { (mapped (base (fun w => { w with bundle := none, regions := [], waits := (List.range 8).map (fun sl => (sl, Wait.bar 0 8 (sliceMask sl))) }))).updPart 0
  (fun p => { p with blockedAt := some 0 }) with cycle := cyc }
theorem test_hyp_TeamAgents_sluices :
    let unsettled (s : State) : Bool := wv0 s (fun _ w => w.regions.any (fun r => match r.ended with
      | some (.op e) => let l := e.lanes &&& w.endMask e.iss; e.since != 0 && e.lim != 0 && !({ e with lanes := l } : EndOp).settled l
      | _ => false))
    (unsettled (slinWaits 1200) && wv0 (slinWaits 1200) (fun _ w => (w.late 1200).isNone) && wv0 (slinWaits 1201) (fun _ w => (w.late 1201).isSome) && (barWaits 0).allBlocked 0 && (State.reset.part 0).blockedAt.isNone &&
     ((barWaits 1199999).part 0).blockedAt == some 0 && !((barWaits 1200000).part 0).snapped && (barWaits 1200000).allBlocked 0 && ((barWaits 1200000).part 0).blockedAt == some 0 && goes (.sluiceDeadlock 0) (barWaits 1200000) (fun _ => true)) = true := by
  decide +kernel
theorem test_hyp_TeamAgents_beams :
    let b (f : PoolRec → PoolRec) : State := prec 3 (fun r => f { r with st := .busy, root := 3 }) (base id)
    let ray (f : PoolRec → PoolRec) : State := b (fun r => f { r with
      isRay := true, cast := 6, rays := [{ lane := 0, ox := 0, oy := 0, oz := 0, tmin := 0, dx := 0, dy := 0, dz := 0, tmax := 0, bad := false, pix := 0, hit := none, fin := true, todo := [] }] })
    let W (s : State) (P : Team → PoolRec → Bool) : Bool := (s.team? 1).any (fun t => P t (t.record 3))
    let live (r : PoolRec) : PoolRec := { r with rays := r.rays.map (fun y => { y with fin := false, tmax := 0x3F800000, dx := 0x3F800000, todo := [(64, false)] }) }
    let flat (r : PoolRec) : PoolRec := { r with src := List.replicate 256 0, scene := 0x80 :: List.replicate 255 0 }
    let split (r : PoolRec) : PoolRec := { r with src := List.replicate 256 0, scene := 0x40 :: List.replicate 255 0 }
    let node (s : State) : State := let m := (mapped s).mem; { s with mem := m.take 9 ++ [(0x20008F, 1), (0x20009B, 0x80)] ++ m.drop 9 }
    (W (b id) (fun t r => (b id).recRuns t r && !r.isRay && r.root == 3) && W (base id) (fun t r => !(base id).recRuns t r) &&
     W (ray id) (fun t r => (ray id).recRuns t r && r.isRay && shas t.pool 3 == some r && t.pool.length == 1 && r.rays.all (·.fin)) &&
     W (ray live) (fun t r => r.isRay && (match ((ray live).passRays t 3 r).2 with | some .malformed => true | _ => false)) &&
     W (ray id) (fun t r => r.isRay && r.cands == [] && match ((ray id).passRays t 3 r).2 with | none => true | _ => false) &&
     W (node (b flat)) (fun t r => !r.isRay && match ((node (b flat)).passBeam t KObj.full 3 r).2 with | none => true | _ => false) &&
     W (b split) (fun t r => !r.isRay && match ((b split).passBeam t KObj.full 3 r).2 with | some .malformed => true | _ => false)) = true := by decide +kernel

/-- A line of the stack cache, and a sector fill in flight. -/
def line0 : Line := { Line.fresh (.slice 5) (Tgt.of 0 0 0 0x200000 (Attr.ofPte 0x87)) 0 0 1 0 with filled := 0xFFFF }
def miss0 (va : Nat) : Miss := { slice := 5, byPa := false, key := va, asid := 0, va := va, part := 0, demand := false, sys := true }
theorem test_hyp_FillsFaultsAndOutsideAccesses_fills :
    let s := mapped (base id)
    let f (va : Nat) : State := { s with misses := [miss0 va] }
    let spilled (n : Nat) : State := { s with spill := [miss0 0], misses := List.replicate n (miss0 0) }
    let tgt (va : Nat) (P : Tgt → Bool) : Bool := match s.translate 0 0 va true .read with | .ok pa a => a.home != 3#2 && P (Tgt.of 0 0 va pa a) | _ => false
    (((f 0).misses[0]?).isSome && ((f 0).misses[1]?).isNone && s.lines == [] &&
     [0x40, 0x1000].all (fun va => tgt va (fun t => !s.blur t && (List.range 16).any (bit (s.waysOf t)) && (List.range 256).all (fun o => !s.undefAt (t.pa + o)))) &&
     decide (devLimit ≤ devLimit ∧ devLimit - 1 < devLimit) &&
     ((spilled 703).spill.find? (·.slice == 5)).isSome && ((spilled 703).misses.filter (·.slice == 5)).length == 703 && ((spilled 704).misses.filter (·.slice == 5)).length == 704 &&
     goes (.spillRefetch 5) (spilled 703) (fun u => u.spill == [])) = true := by decide +kernel
/-- The fault queue at 0x2000 of ASID 0, with one OPEN record, and a wave that it holds. -/
def faulted (f : Part → Part) (ho : Option (Nat × Nat)) : State :=
  let s := mapped (base (fun w => { w with holds := [{ sl := 0, who := 0, part := 0, slot := ho, asid := 0, blk := 0, pages := 1, kinds := 1 }] }))
  ({ s with mem := s.mem ++ [(0x202013, 1)] }).updPart 0 (fun p => f { p with fqcfg := 0x2001, fqidx := 1 })
theorem test_hyp_FillsFaultsAndOutsideAccesses_records :
    let s := faulted id (some (0, 0x2000))
    let late (c : Nat) : State := { faulted (fun p => { p with slotErr := true }) none with cycle := c }
    (s.slotUsed 0 (0, 0x2000) && !s.slotUsed 0 (0, 0x2040) && !s.isSlot 0 (0, 0x2040 * 64) && (s.setSlotState 0 (0, 0x2000) 3).isSome && s.isSlot 0 (0, 0x2000) &&
     (s.setSlotState 0 (0, 0x2000) 0).isSome && ((late 120000).part 0).slotErr && ((late 120000).part 0).retryAt == 0 &&
     !(s.part 0).slotErr && ((late 119999).part 0).slotErr && ((late 119999).part 0).retryAt + 120000 > 119999 && (s.holdsOf 0).all (·.slot.isSome) && (s.holdsOf 0).length == 1) = true := by decide +kernel
theorem test_hyp_FillsFaultsAndOutsideAccesses_outside :
    let s := State.reset
    let up : State := { s with portUp := [true, false] }
    let lost (wr : Bool) : State := { s with linkErr := [{ pa := 0x1000, at_ := s.cycle, wr := wr }] }
    (decide (fwLo - 4 + 4 ≤ fwLo ∧ fwLo ≤ devLimit ∧ true ∈ up.portUp ∧ s.lines = [] ∧ s.linkErr = [] ∧ fwLo < fwLo - 4 + 5 ∧ fwLo - 4 + 5 ≤ devLimit) &&
     (List.range 4).all (fun i => (List.range 4).all (fun j => i == j || s.cell (0x1000 + i) != s.cell (0x1000 + j))) &&
     goes (.hostBar2Access 0x1000 2 (some [1, 2])) s (fun u => u.devByte 0x1001 == 2) && goes (.peerAccess 0x1000 1 ⟨false, .read⟩) up (fun u => u.hostRead == [0]) && s.upds == [] &&
     goes (.peerAccess 0x1000 1 ⟨false, .write [7]⟩) up (fun u => (u.peerByte 0x1000).b == 7) && goes (.peerAccess 0x1000 4 ⟨false, .atom (some .add) .b32 1 0⟩) up (fun u => (u.peerByte 0x1000).b == 1) &&
     goes (.peerAccess 0x1000 4 ⟨false, .atom none .b32 0 9⟩) up (fun u => (u.peerByte 0x1000).b == 9) && goes (.peerAccess 0x1000 4 ⟨false, .atom none .b32 1 9⟩) up (fun u => (u.peerByte 0x1000).b == 0) &&
     (let bad : State := { up with poison := [(up.cell 0x1000 / 4, true)] }
      bad.cellBad 0x1000 && goes (.peerAccess 0x1000 4 ⟨false, .atom (some .add) .b32 1 0⟩) bad (fun u => u.cellBad 0x1000)) && !up.portUp.getD 1 false &&
     decide (5 ∈ { s with ats := [5, 6] }.ats) && physOk peerLo && bits peerLo 41 1 == 0 && (lost false).linkFails 0x1005 false && (lost true).linkFails 0x1005 true &&
     decide (physOk (peerLo + 2 ^ 41) = true ∧ bits (peerLo + 2 ^ 41) 41 1 = 1)) = true := by decide +kernel

/-- A booted device whose queue 0 of partition 0 holds one record in its ring at 0x1000 of ASID 0, at index `ix`: records of kind 1,
the one at 0x1000 without a node, the one at 0x1040 with node 0 of a table of one entry at 0x2000. -/
def queued (ix : Nat) (f : Part → Part) : State :=
  let s := mapped State.reset
  let ff (a : Nat) : Memory := (List.range 4).map (fun i => (a + i, 0xFF))
  ({ s with bootrec := [2, 2, 2, 2, 2, 2], mem := s.mem ++ [(0x20101D, 0x10)] ++ ff 0x201024 ++ [(0x20105D, 0x10)] }).updPart 0 (fun p => f { p with
    gnbase := 0x2000, gnlen := 1, queues := p.queues.set 0 { cfg := 0x1001, idx := mkIdx ix (ix + 1), stat := 1, readyN := [], took := none, cur := none, held := false } })
theorem test_hyp_RecordsAndCompletions_records :
    -- the record, the state after its reads, what the reads gave
    let W (s : State) (P : Queue → LRec → Nat → Except Bad (List Byte) → Bool) : Bool := ((s.part 0).queues[0]?).any (fun x =>
      s.parts.length == 4 && s.working 0 && x.mayTake && !(s.part 0).agentWaits (takeHold 0) &&
      (let asid := cfgAsid x.cfg
       let va := cfgBase x.cfg + 64 * (idxR x.idx % cfgSize x.cfg)
       let S := ((s.touch .outer 0 asid va 64 true .read true).acquire none (Scope.rank .sys)).updQueue 0 0 (fun y => { y with idx := mkIdx (idxR x.idx + 1) (idxW x.idx) })
       match s.readBy .outer 0 asid va 64 true .read with
       | .ok raw => let r := LRec.ofBytes raw; P x r (S.recStatus 0 0 r (S.recReads 0 asid r) (idxUsed x.idx > cfgSize x.cfg)) ((S.recTouch 0 asid r).nodeRead 0 r.node.toNat)
       | .error _ => false))
    let has (s : State) (r : LRec) : Bool := r.hasNode && r.node.toNat < s.nodeN 0
    let far : State := (queued 0 id).updPart 0 (fun p => { p with queues := p.queues.map (fun x => { x with cfg := x.cfg ||| 0x800000000000 }) })
    let idle : State := queued 0 (fun p => { p with queues := p.queues.map (fun x => { x with stat := 0 }) })
    let held : State := (queued 0 id).updPart 0 (fun p => { p with agentHolds := [{ sl := takeHold 0, who := 0, part := 0, slot := none, asid := 0, blk := 0, pages := 1, kinds := 1 }] })
    let read : State := queued 0 (fun p => { p with queues := p.queues.map (fun x => { x with took := some { ix := 0, raw := [], st := 0 } }) })
    let table (a : DWord) : State := queued 1 (fun p => { p with gnbase := a })
    (((queued 0 id).part 0).queues.length == 64 && !State.reset.working 0 && ((idle.part 0).queues[0]?).any (fun x => x.took == none && !x.mayTake) && (held.part 0).agentWaits (takeHold 0) &&
     ((read.part 0).queues[0]?).any (fun x => read.working 0 && !(read.part 0).agentWaits (takeHold 0) && x.took.isSome) &&
     ((far.part 0).queues[0]?).any (fun x => far.working 0 && x.mayTake && match far.readBy .outer 0 0 (cfgBase x.cfg) 64 true .read with | .error _ => true | _ => false) &&
     W (queued 2 (fun p => { p with gnlen := 0 })) (fun _ r st _ => st != 0 && !has (queued 2 (fun p => { p with gnlen := 0 })) r) && W (queued 0 id) (fun _ r st _ => st == 0 && !r.hasNode) &&
     W (table 0x400000) (fun _ r _ e => has (table 0x400000) r && match e with | .error (.fault _) => true | _ => false) &&
     W (queued 2 id) (fun _ r st e => has (queued 2 id) r && (match e with | .error (.fault _) => false | _ => true) && nodeStatus r st e != 0) &&
     W (queued 1 id) (fun _ r st e => has (queued 1 id) r && (match e with | .ok b => nodeStatus r st e == 0 && nodeRem b + r.preds == 0 && r.kind != 2 | _ => false))) = true := by decide +kernel
/-- A record without reads to make: malformed in its kind, in its shape, in what it says of a node it has not. -/
theorem test_hyp_RecordsAndCompletions_statuses :
    let r0 : LRec := { obj := 0, args := 0, gx := 1, gy := 1, gz := 1, ctl := 0, est := 0, node := 0xFFFFFFFF, succ := 0, seq := 0, rsvd := 0 }
    let rd : RecReads := { succ := ([], none), obj := none }
    (rd.succ.2 = none ∧ rd.obj.isNone ∧ { rd with obj := some (.error (.prot 0)) }.obj.isSome ∧ { rd with succ := ([], some (.prot 0, 0)) }.succ.2.isSome ∧ { r0 with ctl := 0x3000 }.kindBad = true ∧ { r0 with rsvd := 1 }.kindBad = true ∧ r0.kindBad = false ∧
      { r0 with gz := 0 }.kindBad = false ∧ { r0 with gz := 0 }.shapeBad = true ∧ r0.shapeBad = false ∧ r0.hasNode = false ∧ { r0 with ctl := 0x1000000 }.preds ≠ 0 ∧
      { r0 with ctl := 0x2000 }.kind = 2 ∧ { r0 with ctl := 0x2000 }.kindBad = false ∧ { r0 with ctl := 0x2000 }.shapeBad = false) := by decide +kernel
theorem test_hyp_RecordsAndCompletions_completions :
    let r0 : LRec := { obj := 0, args := 0, gx := 1, gy := 1, gz := 1, ctl := 0, est := 0, node := 0xFFFFFFFF, succ := 0, seq := 7, rsvd := 0 }
    let c0 : Compl := { lrec := r0, queue := 0, asid := 0, status := 0, cause := 0, cstat := 0, energy := 0, stage := 0 }
    let q (cfg ix : DWord) (c : Compl) : State := queued 0 (fun p => { p with cqcfg := cfg, cqidx := ix, compl := [c] })
    let held : State := queued 0 (fun p => { p with compl := [c0], agentHolds := [{ sl := complHold, who := 0, part := 0, slot := none, asid := 0, blk := 0, pages := 1, kinds := 1 }] })
    let W (s : State) (P : Part → Bool) : Bool := s.parts.length == 4 && (s.part 0).compl.length == 1 && s.working 0 && !(s.part 0).agentWaits complHold && !c0.lrec.hasNode && c0.lrec.nsucc == 0 && P (s.part 0)
    (!State.reset.working 0 && (State.reset.updPart 0 (fun p => { p with compl := [c0] }) |>.part 0).compl == [c0] &&
     W (q 0x2001 16 { c0 with stage := 1 }) (·.complFull) && W (q 0x2001 16 c0) (·.complFull) && W (q 0 0 c0) (fun p => !cfgEn p.cqcfg) &&
     W (q 0x2001 15 c0) (fun p => cfgEn p.cqcfg && !p.complFull) && isOk (((q 0x2001 15 c0).complRelease 0 c0).writeVia .outer 0 0 (0x2000 + 32 * 15) true (List.replicate 32 1)) && (held.part 0).agentWaits complHold) = true := by decide +kernel

/-- A booted device whose queue 0 of partition 0 places grid 20 of `n` gangs, with a kernel object already read. -/
def placing (gx gy : Word) (f : Grid → Grid) : State :=
  let r : LRec := { obj := 0, args := 0x1234, gx := gx, gy := gy, gz := 1, ctl := 0, est := 0, node := 0xFFFFFFFF, succ := 0, seq := 0, rsvd := 0 }
  let s := mapped State.reset
  ({ s with bootrec := [2, 2, 2, 2, 2, 2], nextId := 30, nextTag := 3, grids := [f { r.grid 20 0 0 0 1 none 0 with kobj := some { KObj.full with gw := 2, addr := 0x5678 } }] }).updPart 0
    (fun p => { p with queues := p.queues.set 0 { cfg := 0x1001, idx := 0, stat := 1, readyN := [], took := none, cur := some 20, held := false } })
theorem test_hyp_PlacementAndRetirement_placing :
    let ok (s : State) : Bool := s.working 0 && (List.range 64).all (fun n => !s.pullable 0 n)
    let W (s : State) (at_ : Nat × Nat) : Bool := ok s && (s.head? 0 true).isNone && (match s.head? 0 false with
      | some (.fresh g) => g.lrec.kind == 0 && !g.lrec.hasNode && !g.lat && (s.kobjOf g).any (fun k => (s.part 0).admits false (k.gw * k.gh * g.lrec.est.toNat) &&
          s.search { p := 0, lat := false, k := k, quarter := s.quarterFor g, spare := false, force := false } == some at_) && s.teams.all (·.gid != s.nextId)
      | _ => false)
    let idle : State := { State.reset with bootrec := [2, 2, 2, 2, 2, 2] }
    let part (s : State) : State := { s with disabled := [0, 2] }
    (!State.reset.working 0 && ok idle && (idle.placeStep 0).isNone && ok (placing 1 1 id) && ((placing 1 1 id).placeStep 0).isSome &&
     W (placing 3 2 (fun g => { g with next := 4 })) (0, 0) && W (part (placing 1 1 id)) (0, 3) &&
     (let s := (placing 1 1 id).updPart 0 (fun p => p.setBal (-1))
      let waits (u : State) (P : Part → Head → Bool) : Bool := ok u && (u.head? 0 true).isNone && (u.head? 0 false).any (fun h => (u.actOn 0 false h (u.verdict 0 false false h)).isNone && P (u.part 0) h)
      waits s (fun p h => !p.headBulk.contains h.id)) &&
     goes (.gangPlace 0) (placing 3 2 (fun g => { g with next := 4 })) (fun u => u.gangs.any (fun y => y.x == 1 && y.y == 1 && y.z == 0) && (u.teamsOf 30).map (·.core) == [0, 1])) = true := by decide +kernel
/-- The one gang of `base`, changed by `f`. -/
def gang (f : Gang → Gang) (s : State) : State := s.updGang 9 f
/-- Team 1 waits for its child grid 20, for whose gangs of 17 × 1 teams no rectangle exists. -/
def parkable : State :=
  let s := base (fun w => { w with bundle := none, regions := [], waits := (List.range 8).map (fun sl => (sl, Wait.wchild 1 .zero 1)) })
  { s.updPart 0 (fun p => { p with childQ := [20] }) with bootrec := [2, 2, 2, 2, 2, 2]
                                                          grids := s.grids ++ (placing 1 1 (fun g => { g with parent := some 1, queue := 0xFF, kobj := some { KObj.full with gw := 17 } })).grids }
/-- Every thread of wave 0 has exited. -/
def exited : State := base (fun w => { w with bundle := none, regions := [], thr := w.thr.map (fun t => { t with exited := true }) })
theorem test_hyp_PlacementAndRetirement_leaving :
    let left (b : Bool) : State := gang (fun g => { g with st := .leaving, waitPark := b }) exited
    let G (s : State) (P : Gang → Bool) : Bool := (s.gang? 9).any P
    let quiet (s : State) : Bool := (s.teamsOf 9).all (fun t => t.waves.all (·.pend == [])) && s.teams.length == 1
    (G (base id) (fun g => g.st != .leaving) && [false, true].all (fun b => G (left b) (fun g => g.st == .leaving && g.waitPark == b) && quiet (left b)) &&
     G (base id) (fun g => !(base id).mayPark g) && G parkable parkable.mayPark && (exited.team? 1).any (fun t => exited.placed t && t.ended) && ((base id).team? 1).any (fun t => !t.ended) &&
     !(base id).locOn 256 .noState && (base id).locOn 255 .noState && (base id).locOn 255 .corrected && (base id).locOn 0 (.vreg 1 0 127 31) && !(base id).locOn 0 (.vreg 1 0 128 0) && (base id).locOn 0 (.sreg 1 0 63) &&
     goes (.preemptSaved 9) (left false) (fun u => G u (·.st == .returning)) && goes (.park 9) parkable (fun u => G u (fun g => g.st == .leaving && g.waitPark)) &&
     goes (.teamRetire 1) exited (fun u => (u.team? 1).any (·.retired)) && goes (.coreUncorrectableError 0 (.sreg 1 0 63)) (base id) (fun u => u.failed == [0])) = true := by decide +kernel

theorem test_hyp_DeviceEvents :
    let s := State.reset
    let run : State := { s with bootrec := [2, 2, 2, 2, 2, 3] }
    let half (q : BitVec 4) : State := { run with schedHalt := q }
    (!s.booted && run.booted && s.bootrec == [0, 0, 0, 0, 0, 0] && !s.dstat.getLsbD 1 && s.teams == [] && s.parts.length == 4 && !{ s with bootrec := [1, 0, 0, 0, 0, 0] }.booted &&
     !run.rootHalt && run.fwVer.length == 5 && run.fwProto.length == 5 && (half 0).schedHalt.getLsbD 3 == false && (half 8).schedHalt.getLsbD 3 &&
     !{ run with msixMask := 1 }.msixPend.getLsbD 0 && { run with msixMask := 1 }.msixMask.getLsbD 0 && !{ run with msixMask := 0, msixPend := 0 }.msixMask.getLsbD 0 && { run with msixPend := 1 }.msixPend.getLsbD 0 &&
     !{ run with msixPend := 0x8000000000000000 }.msixPend.getLsbD 0 && { run with msixPend := 0x8000000000000000 }.msixPend.getLsbD 63 &&
     s.cycle < s.refillAt + 120000 && { s with cycle := 120000 }.refillAt == 0 && (((List.range 4).filter s.active).map (fun p => (s.part p).share)).foldl (· + ·) 0 ≤ 540 &&
     goes (.boot []) s (·.booted) && goes .rootCoreError run (·.rootHalt) && goes .energyRefill { s with cycle := 120000 } (·.refillAt == 120000) &&
     goes (.msixTableWrite 63 false false) { run with msixPend := 0x8000000000000000 } (·.msgs == [63]) && goes (.schedulerCoreReloaded 3) (half 8) (·.schedHalt == 0)) = true := by decide +kernel
/-- An image of the fused version that every running die accepts. -/
theorem test_hyp_DeviceEvents_firmware : ∃ img : FwImage, img.rsaOk = true ∧ img.slhOk = true ∧ Config.fusedVersion ≤ img.secVer ∧ img.protoLo.toNat ≤ img.protoHi.toNat ∧
    ∀ x ∈ State.reset.fwProto, max img.protoLo.toNat x.1.toNat ≤ min img.protoHi.toNat x.2.toNat :=
  ⟨{ secVer := Config.fusedVersion, rsaOk := true, slhOk := true, protoLo := 0, protoHi := 100 }, rfl, rfl, Nat.le_refl _, Nat.zero_le _, fun x hx => by
    have h : x = (0#16, 0#16) := List.eq_of_mem_replicate (n := 5) hx
    subst h
    exact Nat.zero_le _⟩
theorem test_hyp_StepKeepsInv : Machine.Inv State.reset ∧ (match step State.reset with | .next _ => true | _ => false) = true :=
  ⟨by unfold Sys2Proof.Machine.Inv; decide +kernel, by decide +kernel⟩

/-! ### One step of an instruction

Words and values are the examples of 07_arithmetic.md and 08_wave.md where those give both; the other values are worked out by hand
from the entries. -/

/-- The word decodes, and after its instruction `P` holds of wave 0. Registers of `l` hold one value in every lane; `m` are the active threads. -/
def runs (x : BitVec 64) (m : Lanes) (l : List (Nat × Word)) (ss : List (Nat × DWord)) (P : Wave → Bool) : Bool :=
  match decode x with
  | .ok i => goes i (base (fun w => { w with v := l.flatMap (fun x => vAll x.1 x.2), s := ss, bundle := w.bundle.map (fun b => { b with mask := m }) })) (fun s => wv0 s (fun _ w => P w))
  | .error _ => false
/-- With every thread active. -/
def gives (x : BitVec 64) (l : List (Nat × Word)) (P : Wave → Bool) : Bool := runs x (BitVec.allOnes 32) l [] P
/-- Lane 5 of a register. -/
def at5 (n : Nat) (w : Wave) : Word := w.vr n 5
/-- R171 at the wrap, and its saturating example. -/
theorem test_add_wraps : goes (.iadd h0 (.v 3) (.v 1) (.v 2) .wrap) (base (fun w => { w with v := vAll 1 0xFFFFFFFF ++ vAll 2 3 })) (fun s => wv0 s (fun _ w => at5 3 w == 2)) = true := by decide +kernel
theorem test_isub_saturates : gives 0x1107F050102C0003 [(1, 0x80000000), (2, 1)] (fun w => at5 5 w == 0x80000000 && w.fflags == 0) = true := by decide +kernel
theorem test_iabs_corner : goes (.iabs h0 (.v 3) (.v 1) false) (base (fun w => { w with v := vAll 1 0x80000000 })) (fun s => wv0 s (fun _ w => at5 3 w == 0x80000000)) = true := by decide +kernel
theorem test_imulh_signed : goes (.imulh h0 (.v 3) (.v 1) (.v 2) true) (base (fun w => { w with v := vAll 1 0xFFFFFFFF ++ vAll 2 2 })) (fun s => wv0 s (fun _ w => at5 3 w == 0xFFFFFFFF)) = true := by decide +kernel
/-- R172: a shift by 4, and by 32 or more. -/
theorem test_shr : gives 0x1E07F0701E4C0000 [(1, 0x80000010)] (fun w => at5 7 w == 0x08000001) = true := by decide +kernel
theorem test_icmp : gives 0x1807F020102C0005 [(1, 0xFFFFFFFF), (2, 1)] (fun w => w.pr 2 == BitVec.allOnes 32) = true := by decide +kernel
theorem test_bfe : gives 0x2407F0801E8E4001 [(1, 0x00000A00)] (fun w => at5 8 w == 0xFFFFFFFA) = true := by decide +kernel
theorem test_bsel : gives 0x2A07F09010203000 [(1, 0x44332211), (2, 0x88776655), (3, 0x03170804)] (fun w => at5 9 w == 0x44FF0055) = true := by decide +kernel
theorem test_lea : runs 0x2607F0A8403C0022 (BitVec.allOnes 32) [(3, 4)] [(4, 0xFFFFFFF8)] (fun w => at5 10 w == 8 && at5 11 w == 1) = true := by decide +kernel
theorem test_idot4 : gives 0x2B07F0B010203003 [(1, 0xFF020301), (2, 0x05040302), (3, 100)] (fun w => at5 11 w == 114) = true := by decide +kernel
/-- 1.5 × 2 + 0.25 = 3.25. -/
theorem test_ffma : gives 0x3307F0C010203000 [(1, 0x3FC00000), (2, 0x40000000), (3, 0x3E800000)] (fun w => at5 12 w == 0x40500000 && w.fflags == 0) = true := by decide +kernel
/-- R180: a comparison with a NaN is false. -/
theorem test_fcmp_nan : gives 0x3607F030102C0002 [(1, 0x7FC00000), (2, 0x3F800000)] (fun w => w.pr 3 == 0) = true := by decide +kernel
theorem test_frnd_down : gives 0x3707F0D01C0C0006 [(1, 0xC0200000)] (fun w => at5 13 w == 0xC0400000) = true := by decide +kernel
/-- Table 7.7, steps 1 and 3. -/
theorem test_faddp : gives 0x3C07F040406C0001 [(4, 0x3F800000), (6, 0x33000000)] (fun w => at5 4 w == 0x3F800000 && at5 5 w == 0x33000000) = true := by decide +kernel
theorem test_faddp_carry : gives 0x3C07F040406C0001 [(4, 0x3F800000), (5, 0x33800000), (6, 0x33000000)] (fun w => at5 4 w == 0x3F800001 && at5 5 w == 0xB3000000) = true := by decide +kernel
theorem test_pkfma : gives 0x3F07F11010203000 [(1, 0x3C003C00), (2, 0x3C003C00)] (fun w => at5 17 w == 0x3C003C00) = true := by decide +kernel
/-- −2.5 gives −2 and NX; 3.0e9 the largest integer and NV. -/
theorem test_cvtfi : gives 0x5907F1401C0C0015 [(1, 0xC0200000)] (fun w => at5 20 w == 0xFFFFFFFE && w.fflags == 1) = true := by decide +kernel
theorem test_cvtfi_invalid : gives 0x5907F1401C0C0015 [(1, 0x4F32D05E)] (fun w => at5 20 w == 0x7FFFFFFF && w.fflags == 16) = true := by decide +kernel
theorem test_packh : gives 0x5B07F160102C0010 [(1, 0x3F800000), (2, 0xC0000000)] (fun w => at5 22 w == 0xC0003F80) = true := by decide +kernel
theorem test_ballot : runs 0x7207F857FC0C0000 0xFFFF [] [] (fun w => w.sr 5 == 0xFFFF) = true := by decide +kernel
theorem test_wred_max : runs 0x7307F860AC0C0090 0xF0 [(10, 0xC0000000)] [] (fun w => w.sr 6 == 0xC0000000) = true := by decide +kernel
theorem test_wscan_excl : runs 0x7407F0C03C0C0100 0x38 [(3, 7)] [] (fun w => [w.vr 12 3, w.vr 12 4, w.vr 12 5, w.vr 12 6] == [0, 7, 14, 0]) = true := by decide +kernel
/-- Table 8.4 with s8 = 4. -/
theorem test_rebal :
    goes (.rebal h0 (.v 14) (.v 2) (.s 8)) (base (fun w => { w with v := [(64, 3), (66, 2), (67, 4)], s := [(8, 4)], bundle := w.bundle.map (fun b => { b with mask := 0xF }) }))
      (fun s => wv0 s (fun _ w => (List.range 4).map (fun l => (w.vr 14 l, w.vr 15 l)) == [(2, 1), (3, 0), (3, 1), (3, 2)])) = true := by decide +kernel
/-- Table 8.5. -/
theorem test_csamp :
    goes (.csamp h0 (.v 16) (.v 4) (.v 5)) (base (fun w => { w with
        v := [(128, 0x3F800000), (129, 0x40400000), (131, 0x40800000), (161, 0x40000000), (162, 0x80000000), (163, 0xFFFFFFFF)], bundle := w.bundle.map (fun b => { b with mask := 0xF }) }))
      (fun s => wv0 s (fun _ w => (List.range 4).map (w.vr 16) == [0, 1, 3, 3])) = true := by decide +kernel
theorem test_rand : goes (.rand h0 (.v 3) (.v 1) (.v 2) false) (base (fun w => { w with v := vAll 1 3 ++ vAll 2 0xDEADBEEF })) (fun s => wv0 s (fun _ w => at5 3 w == 0xD4B30D96)) = true := by decide +kernel
/-- Table 7.8: the values within 1 ulp of 2^(1/2) and of 1/√3, and within 2 ulp of sin(π/4), by hand. -/
theorem test_sfu_bounds : (sfuValues 1 0x3F000000 == [0x3FB504F3, 0x3FB504F4] && sfuValues 0 0x40400000 == [0x3F13CD3A, 0x3F13CD3B] &&
    sfuValues 3 0x3E800000 == [0x3F3504F2, 0x3F3504F3, 0x3F3504F4, 0x3F3504F5]) = true := by decide +kernel

end Sys2Proof.Tests
end

section
/-! PROOFS. What the system registers, roles and accounts read as (R39, R103, R119, R404 to R406, R421, R431). -/
open Sys2Proof Sys2Proof.Machine

namespace Sys2Proof.Machine

/-- Table 1.2's word, with the row of a core written as its own digit. -/
theorem coreId_eq (core : Nat) :
    coreId core = ((core / 64 / 2 * 4 + core / 8 % 8 / 2) * 8 + (core / 64 % 2 * 4 + core % 8 / 2)) * 256 + core / 64 * 64 + core / 8 % 8 * 8 + core % 8 := by
  have row : core % 64 / 8 = core / 8 % 8 := by omega
  simp only [coreId, row]

/-- `PCAP.SEL` names the partition reached where `PCAP.VAL` is set, else it is the team's own (R103). -/
theorem Team.reach_eq (t : Team) : t.reach = if t.pcap.getLsbD 63 then t.pcap.toNat % 4 else t.part := rfl

/-- The frame address of a wave (R406), with the base field of `TSAVE` as a quotient. -/
theorem State.frameAddr_eq (s : State) (t : Team) (wv : Wave) :
    s.frameAddr t wv = (s.part t.part).tsave.toNat / 4096 % 2 ^ 36 * 4096 + 0x4800 * (16 * t.core + wv.slot) := by
  simp only [State.frameAddr, bits, Nat.shiftRight_eq_div_pow, Nat.reducePow]

/-- CSRR of every register but the own partition's `TSAVE` reads the register as it stands. -/
theorem State.csrRead_eq_regNow (s : State) (t : Team) (wv : Wave) (n : Nat) (h : n ≠ 0x2C ∨ t.reach ≠ t.part) :
    s.csrRead t wv n = s.regNow t wv t.reach n := by
  unfold csrRead
  exact if_neg (fun e => h.elim (fun h => h e.1) (fun h => h e.2))
/-- CSRR of `TSAVE` (R406). -/
theorem State.csrRead_tsave (s : State) (t : Team) (wv : Wave) :
    s.csrRead t wv 0x2C = if t.reach = t.part then BitVec.ofNat 64 (s.frameAddr t wv) else (s.part t.reach).tsave := by
  by_cases h : t.reach = t.part
  · rw [if_pos h]; exact if_pos ⟨rfl, h⟩
  · rw [if_neg h, s.csrRead_eq_regNow t wv _ (.inr h)]; rfl

/-- A 64-bit value that an instruction reads of the machine as it stood at its issue, in its destination, without flags. -/
theorem acts_read64_of (i : Instr) (d : Opd) (f : State → Ctx → DWord)
    (he : ∀ s, exec i s = compute i s (fun c => (c.dst64 d (fun _ => f s c), 0))) :
    Acts i (fun s c wv => c.wv.Got64 wv c.lanes d (fun _ => f s c) ∧ c.wv.KeptPreds wv ∧ wv.fflags = c.wv.fflags) := by
  intro s c s' h
  obtain ⟨t, wv, h1, h2, ⟨hv, hs, hl, hp⟩, hf⟩ := computed i s _ c s' h
  have g := Wave.got64_wr64 c.wv c.lanes d (fun _ => f s c)
  refine ⟨t, wv, by rw [he, h1], h2, ⟨fun n l hk => ?_, fun n => ?_, fun n => ?_⟩, fun n => ?_, ?_⟩
  · exact (Wave.vr_congr hv n l).trans (g.v n l hk)
  · exact (Wave.sr_congr hs n).trans (g.s n)
  · exact (Wave.lcr_congr hl n).trans (g.lc n)
  · exact (Wave.pr_congr hp n).trans (Wave.pr_congr (Wave.puts_wr64_preds c.wv c.lanes d _) n)
  · rw [hf]; exact BitVec.or_zero

end Sys2Proof.Machine

/-- Settles O12: each instruction is one `compute` whose value is the model's; CSRR's is read register by register. -/
theorem identities : Obligations.Identities := by
  intro h d a reg
  refine ⟨gives32_of _ _ _ _ (fun _ => rfl), gives32_of _ _ _ _ (fun _ => rfl), gives32_of _ _ _ _ (fun _ => rfl),
    gives32_of _ _ _ _ (fun _ => rfl), acts_read64_of _ d (fun s c => BitVec.ofInt 64 (s.part c.tm.part).bal) (fun _ => rfl), ?_⟩
  intro s c s' hp
  obtain ⟨t, wv, he, hw, hgot, hpreds, hfl⟩ := acts_read64_of (.csrr h d reg) d (fun s c => s.csrRead c.tm c.wv reg.toNat) (fun _ => rfl) s c s' hp
  refine ⟨t, wv, he, hw, hpreds, hfl, ?_⟩
  convert hgot using 2
  generalize reg.toNat = n
  have known (m : Nat) (hm : m ≠ 0x2C) : s.csrRead c.tm c.wv m = s.regNow c.tm c.wv c.tm.reach m :=
    s.csrRead_eq_regNow c.tm c.wv m (.inl hm)
  split
  case h_6 => rw [known _ (by decide)]; simp only [State.regNow, coreId_eq]
  case h_9 =>
    rw [← Team.reach_eq]
    dsimp only
    split
    case h_13 =>
      rw [State.csrRead_tsave, State.frameAddr_eq]
      split
      · rename_i e; rw [e]
      · rfl
    case h_14 => rfl
    all_goals (rw [known _ (by decide)]; rfl)
  all_goals (rw [known _ (by decide)]; rfl)

end

section
/-! PROOFS. What an issue leaves of its wave, how a pending operation starts, and loads at issue (R33, R120, R134, R227 to R233). -/
open Sys2Proof Sys2Proof.Machine

namespace Sys2Proof.Machine
open Host (Outcome)

/-- What the bookkeeping of an issue keeps holds all that `Wave.Quiet` asks. -/
theorem Wave.Same.quiet {a b : Wave} (h : a.Same b) : a.Quiet b where
  regs := ⟨Wave.vr_congr h.v, Wave.sr_congr h.s, Wave.lcr_congr h.lc⟩
  preds := Wave.pr_congr h.p
  fflags := h.fflags
  pend := h.pend
  ev n := by simp only [Wave.evr, h.ev]

/-! ### What an issue does, by what its effect answers -/

/-- An effect that stops its instruction. -/
theorem issue_error {i : Instr} {s : State} {k : Ctx → State → Except Stop State} {c : Ctx} {s' : State} {x : Stop} (hp : s.pre i = .go c s')
    (hk : k c (s'.advance c i) = .error x) : issue i s k = .next (s.stop c x) := by
  rw [issue_go s i k c s' hp, hk]
/-- An effect that goes through. -/
theorem issue_ok {i : Instr} {s : State} {k : Ctx → State → Except Stop State} {c : Ctx} {s' t : State} (hp : s.pre i = .go c s')
    (hk : k c (s'.advance c i) = .ok t) : issue i s k = .next (t.settle c.tag c.w) := by
  rw [issue_go s i k c s' hp, hk]

/-! ### Where a lane's bytes lie, after the bookkeeping of an issue -/

/-- The tag of the team at a position, after a change of one team that keeps its gang, position and tag. -/
theorem State.teamAt_updTeam (s : State) (tag : Nat) (f : Team → Team) (hf : ∀ t, (f t).gid = t.gid ∧ (f t).pos = t.pos ∧ (f t).tag = t.tag)
    (gid pos : Nat) : ((s.updTeam tag f).teamAt gid pos).map (·.tag) = (s.teamAt gid pos).map (·.tag) := by
  have hg (t : Team) : (if t.tag = tag then f t else t).gid = t.gid := by split; exacts [(hf t).1, rfl]
  have hpos (t : Team) : (if t.tag = tag then f t else t).pos = t.pos := by split; exacts [(hf t).2.1, rfl]
  have htag (t : Team) : (if t.tag = tag then f t else t).tag = t.tag := by split; exacts [(hf t).2.2, rfl]
  simp only [State.teamAt, State.updTeam, List.find?_map, Option.map_map, Function.comp_def, hg, hpos, htag]

/-- Only a window looks at the teams: where a lane's bytes lie depends on the device by the tags of the teams at the gang's positions. -/
theorem State.place_congr {s t : State} (h : ∀ gid pos, (t.teamAt gid pos).map (·.tag) = (s.teamAt gid pos).map (·.tag))
    (c : Ctx) (kind : Nat) (a b : Opd) (n l : Nat) : t.place c kind a b n l = s.place c kind a b n l := by
  have hw (x : Nat) : t.windowAt c x n = s.windowAt c x n := by
    have pair (u : State) (gid pos off : Nat) : (u.teamAt gid pos).map (fun v => (v.tag, off)) = ((u.teamAt gid pos).map (·.tag)).map (·, off) := by
      rw [Option.map_map]; rfl
    simp only [State.windowAt, pair, h]
  unfold State.place
  simp only [hw]

/-- The bookkeeping of an issue leaves every lane's place where it was. -/
theorem place_advance {s : State} {i : Instr} {c : Ctx} {s' : State} (hp : s.pre i = .go c s') (kind : Nat) (a b : Opd) (n l : Nat) :
    (s'.advance c i).place c kind a b n l = s.place c kind a b n l := by
  obtain ⟨g, e⟩ := (pre_go s i c s' hp).pops.rest
  refine State.place_congr (fun gid pos => ?_) c kind a b n l
  calc ((s'.advance c i).teamAt gid pos).map (·.tag)
      = (s'.teamAt gid pos).map (·.tag) := s'.teamAt_updTeam c.tag (fun t => t.updWave c.w (fun wv => { c.advance i wv with age := s'.ages c.tm c.wv c.b.mask }))
        (fun _ => ⟨rfl, rfl, rfl⟩) gid pos
    _ = _ := by
      have := State.teamAt_updTeam s c.tag (fun t => { t with aq := { t.aq with q := g t.aq.q } }) (fun _ => ⟨rfl, rfl, rfl⟩) gid pos
      rw [← this, State.teamAt, State.teams_sansCache e]; rfl

/-! ### Loads at issue -/

/-- Asking for fills changes lookaside buffers and the tables of fills only. -/
theorem State.teams_askFills (s : State) (v : Via) (p asid va n : Nat) (sys : Bool) : (s.askFills v p asid va n sys).teams = s.teams := by
  have ask (u : State) (m : Miss) : (u.askFill m).teams = u.teams := by
    unfold State.askFill
    split
    · rfl
    · split <;> rfl
  have tlb (u : State) (x : Nat) : (u.tlbFill v.core p asid x).teams = u.teams := by
    unfold State.tlbFill
    split
    · rfl
    · split <;> rfl
  unfold State.askFills
  split
  · rfl
  · refine foldl_keeps (fun u : State => u.teams = s.teams) _ (fun u x hu => ?_) _ _ rfl
    split
    · exact foldl_keeps (fun u : State => u.teams = s.teams) _ (fun u o hu => (ask u _).trans hu) _ _ ((tlb u x.1).trans hu)
    · exact hu

/-- Where the lanes that access lie. -/
theorem Ctx.mem_accLanes {c : Ctx} {d : Opd} {l : Nat} (h : l ∈ c.accLanes d) : l < 32 := by
  have all (m : Lanes) (k : Nat) (hk : k ∈ lanesOf m) : k < 32 := ((mem_lanesOf m k).1 hk).1
  unfold Ctx.accLanes at h
  split at h
  · split at h
    · cases h
    · rename_i h0
      rw [List.mem_singleton.1 h]
      exact all _ _ (lowest_mem _ h0)
  · exact all _ _ h

@[simp] theorem getD_byLane {α : Type} (f : Nat → α) (d : α) {l : Nat} (h : l < 32) : (byLane f).getD l d = f l := by
  simp [byLane, List.getD_eq_getElem?_getD, h]

/-- Finding by key in a list of pairs that gives each key at most one value. -/
theorem find?_key {α β : Type} [BEq α] [LawfulBEq α] (l : List (α × β)) (k : α) (v : Option β) (h : ∀ b, (k, b) ∈ l ↔ v = some b) :
    (l.find? (·.1 == k)).map (·.2) = v := by
  cases e : l.find? (·.1 == k) with
  | none =>
    cases v with
    | none => rfl
    | some b => exact absurd (List.find?_eq_none.1 e _ ((h b).2 rfl)) (by simp)
  | some x =>
    have hk : x.1 = k := by simpa using List.find?_some e
    exact ((h x.2).1 (hk ▸ List.mem_of_find?_eq_some e)).symm

/-- The own bytes that a load has taken, by lane and offset: what the lane's run had stored at the place of each (R33). -/
theorem find?_forward (c : Ctx) (free n : Nat) (pl : Nat → Space × Nat) (ls : List Nat) (hn : n ≤ 64) (l k : Nat) (hl : l ∈ ls) (hk : k < n) :
    ((ls.flatMap (fun l => c.forward free (pl l).1 (pl l).2 n l)).find? (·.1 == 64 * l + k)).map (·.2)
      = c.wv.fwdByte free (l / 4) (pl l).1 ((pl l).2 + k) := by
  refine find?_key _ _ _ (fun b => ?_)
  simp only [Ctx.forward, List.mem_flatMap, List.mem_filterMap, List.mem_range, Option.map_eq_some_iff, Prod.mk.injEq]
  constructor
  · rintro ⟨l', -, j, hj, b', hb, hkey, rfl⟩
    obtain ⟨rfl, rfl⟩ : l' = l ∧ j = k := by omega
    exact hb
  · exact fun hb => ⟨l, hl, k, hk, b, hb, rfl, rfl⟩

/-- The issuing wave after the bookkeeping of the issue, by what it keeps. -/
theorem advance_same {s : State} {i : Instr} {c : Ctx} {s' : State} (hp : s.pre i = .go c s') :
    ∃ w0, (s'.advance c i).wave? c.tag c.w = some w0 ∧ c.wv.Same w0 ∧ c.wv.KeptBut w0 := by
  obtain ⟨w0, h0, age, e⟩ := advance_wave s i c s' hp
  exact ⟨w0, h0, e ▸ Ctx.advance_same c i c.wv age, e ▸ Ctx.advance_keptBut c i c.wv age⟩

/-- A wave with one more pending operation, counted on its event counter (R134). -/
def Wave.startPend (q : Pend) (wv : Wave) : Wave :=
  { wv with pend := (wv.pend.map (·.clobber (q.dsts.map (·, q.lanes)))) ++ [q]
            ev := match q.ev with | some n => sset 0 wv.ev n (wv.evr n + 1) | none => wv.ev }
@[simp] theorem Wave.startPend_ix (q : Pend) (wv : Wave) : (wv.startPend q).ix = wv.ix := rfl
theorem Wave.startPend_evr (q : Pend) (wv : Wave) (n : Nat) : (wv.startPend q).evr n = if q.ev = some n then wv.evr n + 1 else wv.evr n := by
  simp only [Wave.startPend, Wave.evr]
  cases q.ev with
  | none => rfl
  | some m =>
    simp only [sget_sset, Option.some.injEq]
    split
    · rename_i e; rw [e]
    · rfl
theorem State.start_active (u : State) (c : Ctx) (q : Pend) (h : c.lanes ≠ 0) : u.start c q = u.updWave c.tag c.w (Wave.startPend q) := if_neg h
theorem State.start_idle (u : State) (c : Ctx) (q : Pend) (h : c.lanes = 0) : u.start c q = u := if_pos h

/-- An instruction that starts a pending operation, once its effect goes through: the operation stands as the effect built it. -/
theorem starts_of {i : Instr} {P : State → Ctx → Prop} {Q : State → Ctx → Pend → Prop}
    (h : ∀ s c s', s.pre i = .go c s' → P s c → ∃ (u : State) (q : Pend), u.teams = (s'.advance c i).teams ∧
      exec i s = .next ((u.start c q).settle c.tag c.w) ∧ q.id = c.iss ∧ q.instr = i ∧ q.ev = i.counted ∧ q.dsts = i.dstRegs ∧ q.lanes = c.lanes ∧
      Q s c q) : Starts i P Q := by
  intro s c s' hp hP
  obtain ⟨u, q, hteams, he, hid, hinstr, hev, hdsts, hlanes, hQ⟩ := h s c s' hp hP
  obtain ⟨-, -, hiss⟩ := (pre_go s i c s' hp).now
  obtain ⟨w0, h0, hsame, -⟩ := advance_same hp
  have hu : u.wave? c.tag c.w = some w0 := by
    rw [← h0]; simp only [State.wave?, State.team?, hteams]
  obtain ⟨hregs, hpreds, hfl, hpend, hevr⟩ := hsame.quiet
  by_cases hz : c.lanes = 0
  · rw [State.start_idle u c q hz] at he
    exact ⟨_, w0, he, settle_wave _ _ _ _ hu, hregs, hpreds, hfl, fun _ => ⟨hpend, hevr⟩, fun e => absurd hz e⟩
  · rw [State.start_active u c q hz] at he
    have hw : (u.updWave c.tag c.w (Wave.startPend q)).wave? c.tag c.w = some (w0.startPend q) := by
      rw [State.wave?_updWave _ _ _ _ _ _ (Wave.startPend_ix q), if_pos ⟨rfl, rfl⟩, hu]; rfl
    have hlen : (w0.startPend q).pend.length = c.wv.pend.length + 1 := by
      simp only [Wave.startPend, List.length_append, List.length_map, List.length_singleton, hpend]
    refine ⟨_, _, he, settle_wave _ _ _ _ hw, ⟨hregs.v, hregs.s, hregs.lc⟩, hpreds, hfl, fun e => absurd e hz, fun _ => ⟨fun n => ?_,
      q, List.getLast?_concat, hlen, hid.trans hiss, hinstr, hev, hdsts, hlanes, hQ⟩⟩
    rw [Wave.startPend_evr, hev, hevr]

/-! ### What `load` answers -/

section
variable {i : Instr} {s : State} {kind n align : Nat} {d a b : Opd} {c : Ctx} {s' : State} (hp : s.pre i = .go c s')
include hp

/-- A load that meets a misaligned lane (R228). -/
theorem load_misaligned {l : Nat} (h : (c.accLanes d).find? (fun k => c.rawAddr kind a b k % align ≠ 0) = some l) :
    load i s kind n align d a b = .next (s.stop c (.trap 0x06 (c.rawAddr kind a b l))) := by
  unfold load
  refine issue_error hp ?_
  simp only [h]

/-- A load that meets a lane out of bounds, all of them being aligned (R120, R233). -/
theorem load_outOfBounds (hal : ∀ k ∈ c.accLanes d, c.rawAddr kind a b k % align = 0) {l : Nat}
    (h : (c.accLanes d).find? (fun k => (s.place c kind a b n k).isNone) = some l) :
    load i s kind n align d a b = .next (s.stop c (.trap 0x08 (c.rawAddr kind a b l))) := by
  have hal' : (c.accLanes d).find? (fun k => c.rawAddr kind a b k % align ≠ 0) = none := by
    simpa [List.find?_eq_none] using hal
  unfold load
  refine issue_error hp ?_
  simp only [hal', place_advance hp, h]

/-- The place of a lane that is in bounds, else a place that nothing reads. -/
def State.placeD (s : State) (c : Ctx) (kind : Nat) (a b : Opd) (n l : Nat) : Space × Nat := (s.place c kind a b n l).getD (.mem 0, 0)

section
variable (hok : ∀ k ∈ c.accLanes d, c.rawAddr kind a b k % align = 0 ∧ (s.place c kind a b n k).isSome)
include hok

/-- No lane of such a load is misaligned or out of bounds. -/
theorem load_checks : (c.accLanes d).find? (fun k => c.rawAddr kind a b k % align ≠ 0) = none ∧
    (c.accLanes d).find? (fun k => ((s'.advance c i).place c kind a b n k).isNone) = none := by
  simp only [place_advance hp, List.find?_eq_none]
  exact ⟨fun k hk => by simpa using (hok k hk).1, fun k hk => by simpa using Option.isSome_iff_ne_none.1 (hok k hk).2⟩

/-- A load whose misses L1 has no room for waits (R227). -/
theorem load_waits (hfull : (s'.advance c i).l1Full c i kind n d a b = true) : load i s kind n align d a b = .next s := by
  obtain ⟨hal, hin⟩ := load_checks hp hok
  unfold load
  refine issue_error (x := .wait) hp ?_
  simp only [hal, hin, hfull, if_true]

/-- A load that goes through starts one pending operation, with the places of its lanes and its own stores' bytes (R33, R231). -/
theorem load_starts (hfull : (s'.advance c i).l1Full c i kind n d a b = false) :
    ∃ (u : State) (q : Pend), u.teams = (s'.advance c i).teams ∧ load i s kind n align d a b = .next ((u.start c q).settle c.tag c.w) ∧
      q.id = c.iss ∧ q.instr = i ∧ q.ev = i.counted ∧ q.dsts = i.dstRegs ∧ q.lanes = c.lanes ∧
      q.x = byLane (fun l => BitVec.ofNat 64 (s.placeD c kind a b n l).2) ∧ q.y = byLane (fun l => spaceCode (s.placeD c kind a b n l).1) ∧
      q.fwd = (c.accLanes d).flatMap (fun l => c.forward (s'.advance c i).free (s.placeD c kind a b n l).1 (s.placeD c kind a b n l).2 n l) := by
  obtain ⟨hal, hin⟩ := load_checks hp hok
  have hpl (l : Nat) : ((s'.advance c i).place c kind a b n l).getD (.mem 0, 0) = s.placeD c kind a b n l := by
    rw [place_advance hp]; rfl
  unfold load
  rw [issue_go s i _ c s' hp]
  simp only [hal, hin, hfull, Bool.false_eq_true, if_false, hpl]
  refine ⟨_, _, ?_, rfl, rfl, rfl, rfl, rfl, rfl, rfl, rfl, rfl⟩
  split
  · exact foldl_keeps (fun u : State => u.teams = (s'.advance c i).teams) _ (fun u l hu => (State.teams_askFills u _ _ _ _ _ _).trans hu) _ _ rfl
  · rfl
end
end

end Sys2Proof.Machine

/-- Settles O39: the five loads are one `load` each, which checks, waits or starts one pending operation. -/
theorem loadIssue : Obligations.LoadIssue := by
  intro h d a b ty pol sc od i kind n align hi
  have he (s : State) : exec i s = load i s kind n align d a b := by
    rcases hi with ⟨rfl, rfl, rfl, rfl⟩ | ⟨rfl, rfl, rfl, rfl⟩ | ⟨rfl, rfl, rfl, rfl⟩ | ⟨rfl, rfl, rfl, rfl⟩ | ⟨rfl, rfl, rfl, rfl⟩
    case inr.inr.inr.inl => cases ty <;> rfl
    all_goals rfl
  have hn : n ≤ 64 := by
    rcases hi with ⟨-, -, rfl, -⟩ | ⟨-, -, rfl, -⟩ | ⟨-, -, rfl, -⟩ | ⟨-, -, rfl, -⟩ | ⟨-, -, rfl, -⟩ <;> cases ty <;> decide
  refine ⟨fun l s c s' hp hl => ?_, fun l s c s' hp ⟨hal, hl⟩ => ?_, fun s c u hp hok hfull => ?_, starts_of (fun s c s' hp ⟨hok, hfull⟩ => ?_)⟩
  · rw [he, load_misaligned hp hl]; rfl
  · rw [he, load_outOfBounds hp hal hl]; rfl
  · rw [he, load_waits hp hok hfull]
  · obtain ⟨u, q, hteams, hload, hid, hinstr, hev, hdsts, hlanes, hx, hy, hfwd⟩ := load_starts hp hok (hfull s' hp)
    have hfree : (s'.advance c i).free = s.free + 1 := by
      obtain ⟨g, e⟩ := (pre_go s i c s' hp).pops.rest
      have : s'.free = s.free := State.free_sansCache (s := s.updTeam c.tag _) e
      exact congrArg (· + 1) this
    refine ⟨u, q, hteams, (he s).trans hload, hid, hinstr, hev, hdsts, hlanes, fun l hl sp x hplace => ?_⟩
    have hD : s.placeD c kind a b n l = (sp, x) := by simp only [State.placeD, hplace, Option.getD_some]
    refine ⟨?_, ?_, fun k hk => ?_⟩
    · rw [hx, getD_byLane _ _ (Ctx.mem_accLanes hl), hD]
    · rw [hy, getD_byLane _ _ (Ctx.mem_accLanes hl), hD]
    · rw [hfwd, find?_forward c _ n _ _ hn l k hl hk, hD, hfree]

end

section
/-! PROOFS. Region-ending instructions at issue (R34, R464). -/
open Sys2Proof Sys2Proof.Machine

namespace Sys2Proof.Machine

/-- The wave after an issue whose effect changes the issuing wave only: what the bookkeeping of the issue leaves, then the effect. -/
theorem issue_updWave (i : Instr) (s : State) (k : Ctx → State → Except Stop State) (f : Ctx → Wave → Wave) (c : Ctx) (s' : State)
    (hp : s.pre i = .go c s') (hk : k c (s'.advance c i) = .ok ((s'.advance c i).updWave c.tag c.w (f c))) (hf : ∀ x, (f c x).ix = x.ix) :
    ∃ t age, issue i s k = .next t ∧ t.wave? c.tag c.w = some (Wave.settle 4 (f c { c.advance i c.wv with age := age })) := by
  obtain ⟨w0, h0, age, rfl⟩ := advance_wave s i c s' hp
  refine ⟨_, age, by rw [issue_go s i k c s' hp, hk], settle_wave _ _ _ _ ?_⟩
  rw [State.wave?_updWave _ _ _ _ _ _ hf, if_pos ⟨rfl, rfl⟩, h0]
  rfl

/-- The runs of the slices of a bundle have ended with a region-ending instruction (R464). -/
def Wave.endRuns (m : Lanes) (e : EndOp) (wv : Wave) : Wave :=
  { wv with regions := wv.regions.map (fun r => if m &&& sliceMask r.sl ≠ 0 then { r with ended := some (.op e) } else r) }

theorem State.endRuns_eq (s : State) (c : Ctx) (e : EndOp) : s.endRuns c e = s.updWave c.tag c.w (Wave.endRuns c.b.mask e) := rfl

/-- Ending the runs changes only how they ended. -/
theorem Wave.endRuns_stores (m : Lanes) (e : EndOp) (wv : Wave) :
    (wv.endRuns m e).regions.map (fun r => (r.rid, r.sl, r.start, r.stores, r.undo)) = wv.regions.map (fun r => (r.rid, r.sl, r.start, r.stores, r.undo)) := by
  simp only [Wave.endRuns, List.map_map]
  apply List.map_congr_left
  intro r _
  simp only [Function.comp]
  split <;> rfl
theorem Wave.endRuns_ended (m : Lanes) (e : EndOp) (wv : Wave) (r : Region) (hr : r ∈ (wv.endRuns m e).regions) (hm : m &&& sliceMask r.sl ≠ 0) :
    r.ended = some (.op e) := by
  obtain ⟨r0, -, rfl⟩ := List.mem_map.1 hr
  by_cases h : m &&& sliceMask r0.sl ≠ 0
  · rw [if_pos h]
  · rw [if_neg h] at hm
    exact absurd hm h

/-- A region-ending instruction ends the runs of its bundle with what it reads at issue, and does nothing else yet (R34, R464). -/
theorem ends_of (i : Instr) (P : State → Ctx → Prop) (x y z : Ctx → List DWord) (he : ∀ s, exec i s = endRegion i s (fun c => (x c, y c, z c))) :
    Ends i P x y z := by
  intro s c s' hp _
  obtain ⟨-, -, hiss⟩ := (pre_go s i c s' hp).now
  obtain ⟨t, age, h1, h2⟩ := issue_updWave i s (fun c s => .ok (s.endRuns c (c.endOp i (x c) (y c) (z c))))
    (fun c => Wave.endRuns c.b.mask (c.endOp i (x c) (y c) (z c))) c s' hp rfl (fun _ => rfl)
  have hsame := Ctx.advance_same c i c.wv age
  refine ⟨t, _, by rw [he]; exact h1, h2, ?_, ?_, c.endOp i (x c) (y c) (z c), ⟨rfl, hiss, rfl, rfl, rfl, rfl, rfl, rfl⟩, ?_⟩
  · obtain ⟨hregs, hpreds, hfl, hpend, hev⟩ := hsame.quiet
    exact ⟨⟨hregs.v, hregs.s, hregs.lc⟩, hpreds, hfl, hpend, hev⟩
  · rw [Wave.endRuns_stores]
    exact (Ctx.advance_keptBut c i c.wv age).stores
  · exact Wave.endRuns_ended _ _ _

end Sys2Proof.Machine

/-- Settles O34: each of these instructions is one `endRegion` with the operand values that it reads at issue. -/
theorem regionEndingIssue : Obligations.RegionEndingIssue := by
  intro h d a b sc od imm any no keys vals
  have ends (i : Instr) (x y z : Ctx → List DWord) (he : ∀ s, exec i s = endRegion i s (fun c => (x c, y c, z c))) : Ends i any x y z :=
    ends_of i any x y z he
  exact ⟨ends _ _ _ _ fun _ => rfl, ends _ _ _ _ fun _ => rfl, ends _ _ _ _ fun _ => rfl, ends _ _ _ _ fun _ => rfl, ends _ _ _ _ fun _ => rfl,
    ends _ _ _ _ fun _ => rfl, ends _ _ _ _ fun _ => rfl, ends _ _ _ _ fun _ => rfl, ends _ _ _ _ fun _ => rfl, ends _ _ _ _ fun _ => rfl,
    ends _ _ _ _ fun _ => rfl, ends _ _ _ _ fun _ => rfl, ends _ _ _ _ fun _ => rfl, ends _ _ _ _ fun _ => rfl, ends _ _ _ _ fun _ => rfl⟩

end

section
/-! PROOFS. The region buffer and plain stores at issue (R33, R120, R228, R235). -/
open Sys2Proof Sys2Proof.Machine

namespace Sys2Proof.Machine
open Host (Outcome)

/-! ### Runs by what a list of them shares -/

/-- Two lists of runs that agree in a view which tells the slice: the first run of a slice in one is seen as that of the other. -/
theorem find?_region_congr {β : Type} (view : Region → β) (sl? : β → Nat) (hv : ∀ r, sl? (view r) = r.sl) {rs rs' : List Region}
    (h : rs'.map view = rs.map view) (sl : Nat) : (rs'.find? (·.sl == sl)).map view = (rs.find? (·.sl == sl)).map view := by
  have fuse (l : List Region) : (l.find? (·.sl == sl)).map view = (l.map view).find? (fun x => sl? x == sl) := by
    rw [List.find?_map]
    simp only [Function.comp_def, hv]
  rw [fuse, fuse, h]

/-- The open run of a slice after the bookkeeping of an issue: the same number, start and stores. -/
theorem Wave.Same.region? {a b : Wave} (h : a.Same b) {sl : Nat} {r : Region} (hr : a.region? sl = some r) :
    ∃ r', b.region? sl = some r' ∧ r'.rid = r.rid ∧ r'.stores = r.stores := by
  have e := find?_region_congr (fun r : Region => (r.rid, r.sl, r.start, r.stores, r.ended)) (fun x => x.2.1) (fun _ => rfl) h.stores sl
  simp only [Wave.region?] at hr ⊢
  rw [hr, Option.map_some, Option.map_eq_some_iff] at e
  obtain ⟨r', hr', e⟩ := e
  simp only [Prod.mk.injEq] at e
  obtain ⟨hrid, -, -, hst, -⟩ := e
  exact ⟨r', hr', hrid, hst⟩

/-! ### Lines of the core's runs, after the bookkeeping of an issue -/

/-- What the wait for lines looks at in a run (R33). -/
def Region.held (r : Region) : Nat × Nat := (r.rid, r.lines.length)

/-- The wait for lines looks at the numbers and the lines of the runs on the core only. -/
theorem State.linesShort_congr {s t : State} (core : Nat) (h : (t.coreRuns core).map Region.held = (s.coreRuns core).map Region.held) (wv : Wave)
    (grown : List (Nat × Nat)) : t.linesShort core wv grown = s.linesShort core wv grown := by
  have oldest (l : List Region) : oldestRun l = (l.map Region.held).foldl (fun m x => if m = 0 ∨ x.1 < m then x.1 else m) 0 := by
    rw [List.foldl_map]; rfl
  have used (l : List Region) : l.foldl (fun n r => n + r.lines.length) 0 = (l.map Region.held).foldl (fun n x => n + x.2) 0 := by
    rw [List.foldl_map]; rfl
  have held (l : List Region) (o : Nat) : ((l.find? (·.rid == o)).elim 0 (fun r => r.lines.length)) = ((l.map Region.held).find? (·.1 == o)).elim 0 (·.2) := by
    rw [List.find?_map]
    cases e : l.find? (·.rid == o) with
    | none => rw [show (fun x : Nat × Nat => x.1 == o) ∘ Region.held = (fun r => r.rid == o) from rfl, e]; rfl
    | some r => rw [show (fun x : Nat × Nat => x.1 == o) ∘ Region.held = (fun r => r.rid == o) from rfl, e]; rfl
  unfold State.linesShort
  simp only [oldest, used, held, h]

/-- A change of the teams that keeps each team's core and the lines of its runs keeps those of the core's runs. -/
theorem State.coreRuns_map {s t : State} (g : Team → Team) (ht : t.teams = s.teams.map g) (hg : t.gangs = s.gangs)
    (hid : ∀ x, (g x).core = x.core ∧ (g x).retired = x.retired ∧ (g x).gid = x.gid)
    (hr : ∀ x, ((g x).waves.flatMap (·.regions)).map Region.held = (x.waves.flatMap (·.regions)).map Region.held) (core : Nat) :
    (t.coreRuns core).map Region.held = (s.coreRuns core).map Region.held := by
  have hp (x : Team) : t.placed (g x) = s.placed x := by
    simp only [State.placed, State.gang?, hg, (hid x).2.2]
  have hf : ∀ l : List Team, ((l.map g).filter (fun t' => t'.core == core && !t'.retired && t.placed t')).flatMap (fun x => (x.waves.flatMap (·.regions)).map Region.held)
      = (l.filter (fun t' => t'.core == core && !t'.retired && s.placed t')).flatMap (fun x => (x.waves.flatMap (·.regions)).map Region.held) := by
    intro l
    rw [List.filter_map, List.flatMap_map]
    simp only [Function.comp_def, hp, (hid _).1, (hid _).2.1, hr]
  simp only [State.coreRuns, List.map_flatMap] at hf ⊢
  rw [ht, hf]

/-- A change of one wave that keeps the lines of its runs. -/
theorem Team.held_updWave (t : Team) (w : Nat) (f : Wave → Wave) (hf : ∀ x, (f x).regions.map Region.held = x.regions.map Region.held) :
    ((t.updWave w f).waves.flatMap (·.regions)).map Region.held = (t.waves.flatMap (·.regions)).map Region.held := by
  simp only [Team.updWave, List.map_flatMap, List.flatMap_map]
  refine List.flatMap_congr (fun x _ => ?_)
  split
  · exact hf x
  · rfl

/-- The bookkeeping of an issue leaves the lines of the core's runs as they were. -/
theorem linesShort_advance {s : State} {i : Instr} {c : Ctx} {s' : State} (hp : s.pre i = .go c s') (core : Nat) (wv : Wave) (grown : List (Nat × Nat)) :
    (s'.advance c i).linesShort core wv grown = s.linesShort core wv grown := by
  obtain ⟨g, e⟩ := (pre_go s i c s' hp).pops.rest
  have held (x : Wave) (age : Sparse Nat) : ({ c.advance i x with age := age } : Wave).regions.map Region.held = x.regions.map Region.held := by
    have := congrArg (List.map (fun y : Nat × Nat × DWord × List BufW × Option Ended => (y.1, (((y.2.2.2.1.filter (!·.eng)).map (fun b => (b.sp, b.a / 256))).eraseDups).length)))
      (Ctx.advance_same c i x age).stores
    rwa [List.map_map, List.map_map] at this
  refine State.linesShort_congr core ?_ wv grown
  calc ((s'.advance c i).coreRuns core).map Region.held
      = (s'.coreRuns core).map Region.held := by
        refine State.coreRuns_map (s := s') (t := s'.advance c i) (fun t => if t.tag = c.tag then t.updWave c.w (fun wv => { c.advance i wv with age := s'.ages c.tm c.wv c.b.mask }) else t) rfl rfl ?_ ?_ core
        · intro x; split <;> exact ⟨rfl, rfl, rfl⟩
        · intro x
          dsimp only
          split
          · exact Team.held_updWave _ _ _ (fun x => held x _)
          · rfl
    _ = (s.coreRuns core).map Region.held := by
        refine State.coreRuns_map (fun t => if t.tag = c.tag then { t with aq := { t.aq with q := g t.aq.q } } else t) (State.teams_sansCache e) ?_ ?_ ?_ core
        · have hg := congrArg State.gangs e; exact hg
        · intro x; split <;> exact ⟨rfl, rfl, rfl⟩
        · intro x; dsimp only; split <;> rfl

/-! ### Bytes in the region buffer -/

/-- Adding the stores of issue `n` to a run: after those of earlier issues and its own, before those of later ones. -/
theorem addIssue_eq (l bs : List BufW) (n : Nat) (hne : bs ≠ []) (hn : ∀ b ∈ bs, b.iss = n) :
    addIssue l bs = l.filter (·.iss ≤ n) ++ bs ++ l.filter (n < ·.iss) := by
  cases bs with
  | nil => exact absurd rfl hne
  | cons b r =>
    have : b.iss = n := hn b List.mem_cons_self
    simp only [addIssue, List.head?_cons, Option.elim_some, this]

/-- The run of a slice after stores were added, slice by slice. -/
theorem Wave.region?_addStores (wv : Wave) (sl k : Nat) (bs : List BufW) :
    (wv.addStores sl bs).region? k = (wv.region? k).map (fun r => if k = sl then { r with stores := addIssue r.stores bs } else r) := by
  have hsl (r : Region) : (if r.sl = sl then { r with stores := addIssue r.stores bs } else r).sl = r.sl := by split <;> rfl
  simp only [Wave.region?, Wave.addStores, List.find?_map, Function.comp_def, hsl]
  cases e : wv.regions.find? (·.sl == k) with
  | none => rfl
  | some r =>
    have hk : r.sl = k := by simpa using List.find?_some e
    simp only [Option.map_some, hk]
theorem Wave.region?_foldl_addStores (f : Nat → List BufW) (k : Nat) : ∀ (sls : List Nat) (_ : sls.Nodup) (wv : Wave),
    ((sls.map (fun sl => (sl, f sl))).foldl (fun wv x => wv.addStores x.1 x.2) wv).region? k
      = (wv.region? k).map (fun r => if k ∈ sls then { r with stores := addIssue r.stores (f k) } else r)
  | [], _, wv => by simp
  | sl :: r, hn, wv => by
    obtain ⟨hsl, hr⟩ := List.nodup_cons.1 hn
    rw [List.map_cons, List.foldl_cons, Wave.region?_foldl_addStores f k r hr, Wave.region?_addStores, Option.map_map]
    refine Option.map_congr (fun x _ => ?_)
    by_cases hk : k = sl
    · subst hk
      simp [hsl]
    · simp [hk]

/-- Adding stores touches the runs only. -/
theorem Wave.addStores_fold_eq : ∀ (parts : List (Nat × List BufW)) (wv : Wave), ∃ rs, parts.foldl (fun wv x => wv.addStores x.1 x.2) wv = { wv with regions := rs }
  | [], wv => ⟨_, rfl⟩
  | x :: r, wv => by
    obtain ⟨rs, e⟩ := Wave.addStores_fold_eq r (wv.addStores x.1 x.2)
    exact ⟨rs, e⟩

/-- The wave after a change of every wave. -/
theorem State.wave?_mapWaves (s : State) (f : Wave → Wave) (hf : ∀ x, (f x).ix = x.ix) (tag w : Nat) :
    ({ s with teams := s.teams.map (fun t => { t with waves := t.waves.map f }) } : State).wave? tag w = (s.wave? tag w).map f := by
  simp only [State.wave?, State.team?, Team.wave?, List.find?_map, Function.comp_def]
  cases s.teams.find? (·.tag == tag) with
  | none => rfl
  | some t => simp only [Option.map_some, Option.bind_some, List.find?_map, Function.comp_def, hf]

/-- What software writes under an open MMA spoils its accumulators, and nothing else of a wave (R281). -/
theorem State.spoilBytes_wave (s : State) (bs : List (Space × Nat)) (tag w : Nat) (wv : Wave) (h : s.wave? tag w = some wv) :
    ∃ m a, (s.spoilBytes bs).wave? tag w = some { wv with mopen := m, acc := a } := by
  unfold State.spoilBytes
  rw [State.wave?_mapWaves _ _ (fun x => by dsimp only; split <;> rfl), h]
  rw [Option.map_some]
  split
  · exact ⟨_, _, rfl⟩
  · exact ⟨wv.mopen, wv.acc, rfl⟩

/-- Buffering the stores of one issue (R33): nothing of the wave changes but the stores of the runs named, and what an open MMA has at stake. -/
theorem buffer_wave {s : State} {i : Instr} {c : Ctx} {s' : State} (hp : s.pre i = .go c s') (f : Nat → List BufW) (sls : List Nat) (hnd : sls.Nodup)
    (hne : ∀ sl ∈ sls, f sl ≠ []) (hiss : ∀ sl ∈ sls, ∀ b ∈ f sl, b.iss = s.nextId) {u : State}
    (hu : (s'.advance c i).buffer c (sls.map (fun sl => (sl, f sl))) = .ok u) :
    ∃ wv, u.wave? c.tag c.w = some wv ∧ c.wv.Quiet wv ∧ ∀ sl ∈ sls, ∀ r, c.wv.region? sl = some r → ∃ r', wv.region? sl = some r' ∧ r'.rid = r.rid ∧
      r'.stores = r.stores.filter (·.iss ≤ s.nextId) ++ f sl ++ r.stores.filter (s.nextId < ·.iss) := by
  obtain ⟨w0, h0, hsame, -⟩ := advance_same hp
  obtain ⟨rs, hrs⟩ := Wave.addStores_fold_eq (sls.map (fun sl => (sl, f sl))) w0
  have hw : ((s'.advance c i).onWave c (fun wv => (sls.map (fun sl => (sl, f sl))).foldl (fun wv x => wv.addStores x.1 x.2) wv)).wave? c.tag c.w
      = some { w0 with regions := rs } := by
    unfold State.onWave
    rw [State.wave?_updWave _ _ _ _ _ _ (fun x => by obtain ⟨rs, e⟩ := Wave.addStores_fold_eq (sls.map (fun sl => (sl, f sl))) x; rw [e]), if_pos ⟨rfl, rfl⟩, h0,
      Option.map_some, hrs]
  unfold State.buffer at hu
  dsimp only at hu
  split at hu
  · cases hu
  · split at hu
    · cases hu
    · cases hu
      obtain ⟨m, a, hv⟩ := State.spoilBytes_wave _ ((sls.map (fun sl => (sl, f sl))).flatMap (fun x => x.2.filterMap ((s'.advance c i).storedAt c.tm c.sys))) _ _ _ hw
      refine ⟨_, hv, ?_, fun sl hsl r hr => ?_⟩
      · obtain ⟨hregs, hpreds, hfl, hpend, hev⟩ := hsame.quiet
        exact ⟨⟨hregs.v, hregs.s, hregs.lc⟩, hpreds, hfl, hpend, hev⟩
      · obtain ⟨r0, hr0, hrid, hst⟩ := hsame.region? hr
        have e : ({ w0 with regions := rs } : Wave).region? sl = some { r0 with stores := addIssue r0.stores (f sl) } := by
          rw [← hrs, Wave.region?_foldl_addStores f sl sls hnd, hr0, Option.map_some, if_pos hsl]
        refine ⟨_, e, hrid, ?_⟩
        rw [← hst]
        exact addIssue_eq _ _ _ (hne sl hsl) (hiss sl hsl)

/-! ### What `State.buffer` answers -/

/-- The lines that a run would hold with some more stores. -/
def Region.linesWith (r : Region) (bs : List BufW) : Nat := ({ r with stores := r.stores ++ bs } : Region).lines.length
/-- No run would hold more than 64 lines (R33). -/
def Ctx.fits (c : Ctx) (f : Nat → List BufW) (sls : List Nat) : Prop := ∀ sl ∈ sls, ∀ r, c.wv.region? sl = some r → r.linesWith (f sl) ≤ 64
/-- The lines that each run would take. -/
def Ctx.grown (c : Ctx) (f : Nat → List BufW) (sls : List Nat) : List (Nat × Nat) :=
  sls.filterMap (fun sl => (c.wv.region? sl).map (fun r => (r.rid, r.linesWith (f sl) - r.lines.length)))

theorem Ctx.fits_iff (c : Ctx) (f : Nat → List BufW) (sls : List Nat) :
    (sls.map (fun sl => (sl, f sl))).any (fun x => (c.wv.region? x.1).any (fun r => r.linesWith x.2 > 64)) = false ↔ c.fits f sls := by
  simp only [Ctx.fits, List.any_eq_false, List.mem_map, forall_exists_index, and_imp, forall_apply_eq_imp_iff₂, Option.any_eq_true_iff_get, gt_iff_lt,
    decide_eq_true_eq]
  refine forall₂_congr (fun sl _ => ?_)
  cases c.wv.region? sl with
  | none => simp
  | some r => simp

theorem State.buffer_over (u : State) (c : Ctx) (f : Nat → List BufW) (sls : List Nat) (h : ¬c.fits f sls) :
    u.buffer c (sls.map (fun sl => (sl, f sl))) = .error (.trap 0x11 0) := by
  rw [← Ctx.fits_iff, Bool.not_eq_false] at h
  exact if_pos h
theorem State.buffer_fits (u : State) (c : Ctx) (f : Nat → List BufW) (sls : List Nat) (h : c.fits f sls) :
    if u.linesShort c.tm.core c.wv (c.grown f sls) then u.buffer c (sls.map (fun sl => (sl, f sl))) = .error .wait
    else ∃ t, u.buffer c (sls.map (fun sl => (sl, f sl))) = .ok t := by
  rw [← Ctx.fits_iff] at h
  have hg : c.grown f sls = (sls.map (fun sl => (sl, f sl))).filterMap (fun x => (c.wv.region? x.1).map (fun r => (r.rid, r.linesWith x.2 - r.lines.length))) := by
    rw [List.filterMap_map]; rfl
  have e : u.buffer c (sls.map (fun sl => (sl, f sl))) = _ := if_neg (fun e => Bool.false_ne_true (h.symm.trans e))
  rw [e, hg]
  split
  · rename_i hs; exact if_pos hs
  · rename_i hs; exact ⟨_, if_neg hs⟩

/-! ### Plain stores at issue -/

/-- The bytes that a lane of a plain store puts into the region buffer (R235), and those of a slice in ascending order of lanes. -/
def State.laneStores (s : State) (c : Ctx) (kind : Nat) (v : StVia) (d a b : Opd) (ty : MTy) (l : Nat) : List BufW :=
  match s.place c kind a b ty.size l with
  | some p => c.bufs v l p.1 p.2 (c.stBytes d ty l)
  | none => []
def State.sliceStores (s : State) (c : Ctx) (kind : Nat) (v : StVia) (d a b : Opd) (ty : MTy) (sl : Nat) : List BufW :=
  (lanesOf (c.lanes &&& sliceMask sl)).flatMap (s.laneStores c kind v d a b ty)

theorem Ctx.length_stBytes (c : Ctx) (d : Opd) (ty : MTy) (l : Nat) : (c.stBytes d ty l).length = ty.size := by
  simp only [Ctx.stBytes, List.length_take, List.length_flatMap, length_toBytes, List.map_const', List.sum_replicate, List.length_range, smul_eq_mul]
  cases ty <;> decide
theorem Ctx.bufs_ne_nil (c : Ctx) (v : StVia) (l : Nat) (sp : Space) (a : Nat) (bs : List Byte) (h : bs ≠ []) : c.bufs v l sp a bs ≠ [] := by
  simpa [Ctx.bufs] using h
theorem Ctx.iss_of_mem_bufs {c : Ctx} {v : StVia} {l : Nat} {sp : Space} {a : Nat} {bs : List Byte} {b : BufW} (h : b ∈ c.bufs v l sp a bs) : b.iss = c.iss := by
  obtain ⟨x, -, rfl⟩ := List.mem_map.1 h
  rfl

section
variable {i : Instr} {s : State} {kind : Nat} {v : StVia} {d a b : Opd} {ty : MTy} {c : Ctx} {s' : State} (hp : s.pre i = .go c s')
include hp

theorem store_misaligned {l : Nat} (h : (lanesOf c.lanes).find? (fun k => c.rawAddr kind a b k % ty.size ≠ 0) = some l) :
    store i s kind v d a b ty = .next (s.stop c (.trap 0x06 (c.rawAddr kind a b l))) := by
  unfold store
  refine issue_error hp ?_
  simp only [h]
theorem store_outOfBounds (hal : ∀ k ∈ lanesOf c.lanes, c.rawAddr kind a b k % ty.size = 0) {l : Nat}
    (h : (lanesOf c.lanes).find? (fun k => (s.place c kind a b ty.size k).isNone) = some l) :
    store i s kind v d a b ty = .next (s.stop c (.trap 0x08 (c.rawAddr kind a b l))) := by
  have hal' : (lanesOf c.lanes).find? (fun k => c.rawAddr kind a b k % ty.size ≠ 0) = none := by
    simpa [List.find?_eq_none] using hal
  unfold store
  refine issue_error hp ?_
  simp only [hal', place_advance hp, h]

section
variable (hok : ∀ k ∈ lanesOf c.lanes, c.rawAddr kind a b k % ty.size = 0 ∧ (s.place c kind a b ty.size k).isSome)
include hok

/-- With every lane aligned and in bounds a store is what the region buffer answers for its slices. -/
theorem store_placed : store i s kind v d a b ty =
    match (s'.advance c i).buffer c ((slicesOf c.lanes).map (fun sl => (sl, s.sliceStores c kind v d a b ty sl))) with
    | .ok t => .next (t.settle c.tag c.w)
    | .error x => .next (s.stop c x) := by
  have hal : (lanesOf c.lanes).find? (fun k => c.rawAddr kind a b k % ty.size ≠ 0) = none := by
    simp only [List.find?_eq_none]; exact fun k hk => by simpa using (hok k hk).1
  have hin : (lanesOf c.lanes).find? (fun k => (s.place c kind a b ty.size k).isNone) = none := by
    simp only [List.find?_eq_none]; exact fun k hk => by simpa using Option.isSome_iff_ne_none.1 (hok k hk).2
  have hone : (slicesOf c.lanes).map (fun sl => (sl, (lanesOf (c.lanes &&& sliceMask sl)).flatMap (fun l =>
        c.bufs v l ((s.place c kind a b ty.size l).getD (.mem 0, 0)).1 ((s.place c kind a b ty.size l).getD (.mem 0, 0)).2 (c.stBytes d ty l))))
      = (slicesOf c.lanes).map (fun sl => (sl, s.sliceStores c kind v d a b ty sl)) := by
    refine List.map_congr_left (fun sl _ => Prod.ext rfl (List.flatMap_congr (fun l hl => ?_)))
    have hl : l ∈ lanesOf c.lanes := by
      simp only [mem_lanesOf, BitVec.getLsbD_and, Bool.and_eq_true] at hl ⊢
      exact ⟨hl.1, hl.2.1⟩
    obtain ⟨p, hpl⟩ := Option.isSome_iff_exists.1 (hok l hl).2
    simp only [State.laneStores, hpl, Option.getD_some]
  unfold store
  rw [issue_go s i _ c s' hp]
  simp only [hal, place_advance hp, hin, hone] <;> rfl
omit hp in
/-- The stores of a slice that has an active lane: at least one byte, all of this issue. -/
theorem sliceStores_ne_nil (sl : Nat) (hsl : sl ∈ slicesOf c.lanes) : s.sliceStores c kind v d a b ty sl ≠ [] := by
  have hm : c.lanes &&& sliceMask sl ≠ 0 := by simpa using (List.mem_filter.1 hsl).2
  have hl := lowest_mem _ hm
  have hl' : lowest (c.lanes &&& sliceMask sl) ∈ lanesOf c.lanes := by
    simp only [mem_lanesOf, BitVec.getLsbD_and, Bool.and_eq_true] at hl ⊢
    exact ⟨hl.1, hl.2.1⟩
  obtain ⟨p, hpl⟩ := Option.isSome_iff_exists.1 (hok _ hl').2
  have hbytes : c.stBytes d ty (lowest (c.lanes &&& sliceMask sl)) ≠ [] := by
    rw [ne_eq, ← List.length_eq_zero_iff, Ctx.length_stBytes]
    cases ty <;> decide
  obtain ⟨x, hx⟩ := List.exists_mem_of_ne_nil _ (c.bufs_ne_nil v (lowest (c.lanes &&& sliceMask sl)) p.1 p.2 _ hbytes)
  refine List.ne_nil_of_mem (List.mem_flatMap.2 ⟨_, hl, ?_⟩) (a := x)
  simpa only [State.laneStores, hpl] using hx
omit hok in
theorem iss_of_mem_sliceStores (sl : Nat) (x : BufW) (hx : x ∈ s.sliceStores c kind v d a b ty sl) : x.iss = s.nextId := by
  obtain ⟨-, -, hiss⟩ := (pre_go s i c s' hp).now
  obtain ⟨l, -, hx⟩ := List.mem_flatMap.1 hx
  unfold State.laneStores at hx
  split at hx
  · exact (Ctx.iss_of_mem_bufs hx).trans hiss
  · cases hx

theorem store_over (hf : ¬c.fits (s.sliceStores c kind v d a b ty) (slicesOf c.lanes)) : store i s kind v d a b ty = .next (s.stop c (.trap 0x11 0)) := by
  rw [store_placed hp hok, State.buffer_over _ _ _ _ hf]
theorem store_waits (hf : c.fits (s.sliceStores c kind v d a b ty) (slicesOf c.lanes))
    (hs : s.linesShort c.tm.core c.wv (c.grown (s.sliceStores c kind v d a b ty) (slicesOf c.lanes)) = true) : store i s kind v d a b ty = .next s := by
  have hb := State.buffer_fits (s'.advance c i) c _ _ hf
  rw [linesShort_advance hp, hs, if_pos rfl] at hb
  rw [store_placed hp hok, hb]
  rfl
/-- A store that goes through: the stores of each slice's run, in the order of issue (R33). -/
theorem store_buffers (hf : c.fits (s.sliceStores c kind v d a b ty) (slicesOf c.lanes))
    (hs : s.linesShort c.tm.core c.wv (c.grown (s.sliceStores c kind v d a b ty) (slicesOf c.lanes)) = false) :
    ∃ t wv, store i s kind v d a b ty = .next t ∧ t.wave? c.tag c.w = some (Wave.settle 4 wv) ∧ c.wv.Quiet wv ∧
      ∀ sl ∈ slicesOf c.lanes, ∀ r, c.wv.region? sl = some r → ∃ r', wv.region? sl = some r' ∧ r'.rid = r.rid ∧
        r'.stores = r.stores.filter (·.iss ≤ s.nextId) ++ s.sliceStores c kind v d a b ty sl ++ r.stores.filter (s.nextId < ·.iss) := by
  have hb := State.buffer_fits (s'.advance c i) c _ _ hf
  rw [linesShort_advance hp, hs, if_neg Bool.false_ne_true] at hb
  obtain ⟨u, hu⟩ := hb
  obtain ⟨wv, hw, hq, hst⟩ := buffer_wave hp _ _ (List.nodup_range.filter _) (sliceStores_ne_nil hok) (fun sl _ => iss_of_mem_sliceStores hp sl) hu
  exact ⟨_, wv, by rw [store_placed hp hok, hu], settle_wave _ _ _ _ hw, hq, hst⟩
end
end

end Sys2Proof.Machine

/-- Settles O41: the three stores without conversion are one `store` each, which checks its lanes, then the lines of the runs. -/
theorem storeIssue : Obligations.StoreIssue := by
  intro h d a b ty pol sc od i kind hi
  have he (s : State) : exec i s = store i s kind (stVia pol sc od) d a b ty := by
    rcases hi with ⟨rfl, rfl⟩ | ⟨rfl, rfl⟩ | ⟨rfl, rfl⟩ <;> rfl
  refine ⟨fun l s c s' hp hl => ?_, fun l s c s' hp ⟨hal, hl⟩ => ?_, fun s c s' hp ⟨hok, hf⟩ => ?_, fun s c s' hp hok hf hs => ?_, fun s c s' hp ⟨hok, hf, hs⟩ => ?_⟩
  · exact (he s).trans (store_misaligned hp hl)
  · exact (he s).trans (store_outOfBounds hp hal hl)
  · exact (he s).trans (store_over hp hok hf)
  · exact (he s).trans (store_waits hp hok hf hs)
  · obtain ⟨t, wv, ht, hw, hq, hst⟩ := store_buffers hp hok hf hs
    exact ⟨t, wv, (he s).trans ht, hw, hq, hst⟩

end

section
/-! PROOFS. Converting stores at issue (R33, R232, R235). -/
open Sys2Proof Sys2Proof.Machine

namespace Sys2Proof.Machine
open Host (Outcome)

/-- The code that a lane of a converting store gives: an inactive one code 0 (R232). -/
def Ctx.cvtCode (c : Ctx) (d : Opd) (sf : Nat) (ty : MTy) (l : Nat) : FR :=
  if c.lanes.getLsbD l then toCode sf (c.cvtSrc d ty l) else { x := 0, fl := 0 }
/-- The bytes of its block at a place. -/
def Ctx.cvtStores (c : Ctx) (v : StVia) (d : Opd) (sf : Nat) (ty : MTy) (p : Space × Nat) : List BufW :=
  c.bufs v (lowest c.lanes) p.1 p.2 (packCodes (fmtWidth sf) (byLane (fun l => (c.cvtCode d sf ty l).x)))

theorem fmtWidth_pos (f : Nat) : 0 < fmtWidth f := by
  unfold fmtWidth
  split <;> decide
theorem Ctx.cvtStores_ne_nil (c : Ctx) (v : StVia) (d : Opd) (sf : Nat) (ty : MTy) (p : Space × Nat) : c.cvtStores v d sf ty p ≠ [] := by
  refine c.bufs_ne_nil _ _ _ _ _ ?_
  rw [ne_eq, ← List.length_eq_zero_iff, packCodes, length_toBytes]
  have := fmtWidth_pos sf
  omega

section
variable {i : Instr} {s : State} {kind : Nat} {v : StVia} {d a b : Opd} {sf : Nat} {ty : MTy} {c : Ctx} {s' : State} (hp : s.pre i = .go c s')
include hp

theorem storeCvt_idle (h0 : c.lanes = 0) : storeCvt i s kind v d a b sf ty = .next ((s'.advance c i).settle c.tag c.w) := by
  unfold storeCvt
  refine issue_ok hp ?_
  rw [if_pos h0]

section
variable (h0 : c.lanes ≠ 0)
include h0

theorem storeCvt_misaligned (h : c.rawAddr kind a b (lowest c.lanes) % 8 ≠ 0) :
    storeCvt i s kind v d a b sf ty = .next (s.stop c (.trap 0x06 (c.rawAddr kind a b (lowest c.lanes)))) := by
  unfold storeCvt
  refine issue_error hp ?_
  rw [if_neg h0]
  exact if_pos h

variable (hal : c.rawAddr kind a b (lowest c.lanes) % 8 = 0)
include hal

theorem storeCvt_outOfBounds (h : s.place c kind a b (4 * fmtWidth sf) (lowest c.lanes) = none) :
    storeCvt i s kind v d a b sf ty = .next (s.stop c (.trap 0x08 (c.rawAddr kind a b (lowest c.lanes)))) := by
  unfold storeCvt
  refine issue_error hp ?_
  simp only [if_neg h0, hal, place_advance hp, h, ne_eq, not_true_eq_false, if_false]

/-- With its block in bounds, a converting store is what the region buffer answers for the run of the lowest active lane, and its flags. -/
theorem storeCvt_placed {p : Space × Nat} (hpl : s.place c kind a b (4 * fmtWidth sf) (lowest c.lanes) = some p) : storeCvt i s kind v d a b sf ty =
    match (s'.advance c i).buffer c ([lowest c.lanes / 4].map (fun sl => (sl, c.cvtStores v d sf ty p))) with
    | .ok t => .next ((t.result c i [] ((lanesOf c.lanes).foldl (fun f l => f ||| (c.cvtCode d sf ty l).fl) 0)).settle c.tag c.w)
    | .error x => .next (s.stop c x) := by
  unfold storeCvt
  rw [issue_go s i _ c s' hp]
  simp only [if_neg h0, hal, place_advance hp, hpl, ne_eq, not_true_eq_false, if_false]
  change (match (match (s'.advance c i).buffer c [(lowest c.lanes / 4, c.cvtStores v d sf ty p)] with
    | .error e => .error e
    | .ok s => .ok (s.result c i [] ((lanesOf c.lanes).foldl (fun f l => f ||| (c.cvtCode d sf ty l).fl) 0)) : Except Stop State) with
    | .ok t => Outcome.next (t.settle c.tag c.w)
    | .error x => .next (s.stop c x)) = _
  simp only [List.map_cons, List.map_nil]
  cases (s'.advance c i).buffer c [(lowest c.lanes / 4, c.cvtStores v d sf ty p)] <;> rfl

variable {p : Space × Nat} {r : Region} (hpl : s.place c kind a b (4 * fmtWidth sf) (lowest c.lanes) = some p)
  (hr : c.wv.region? (lowest c.lanes / 4) = some r)
include hpl hr

theorem storeCvt_over (hf : 64 < r.linesWith (c.cvtStores v d sf ty p)) : storeCvt i s kind v d a b sf ty = .next (s.stop c (.trap 0x11 0)) := by
  have h : ¬c.fits (fun _ => c.cvtStores v d sf ty p) [lowest c.lanes / 4] := fun h => absurd (h _ (List.mem_singleton.2 rfl) r hr) (Nat.not_le.2 hf)
  rw [storeCvt_placed hp h0 hal hpl, State.buffer_over _ _ _ _ h]
/-- A converting store that goes through: its block in the run of the lowest active lane, and the flags of its conversions. -/
theorem storeCvt_buffers (hf : r.linesWith (c.cvtStores v d sf ty p) ≤ 64)
    (hs : s.linesShort c.tm.core c.wv [(r.rid, r.linesWith (c.cvtStores v d sf ty p) - r.lines.length)] = false) :
    ∃ t wv, storeCvt i s kind v d a b sf ty = .next t ∧ t.wave? c.tag c.w = some (Wave.settle 4 wv) ∧ c.wv.KeptRegs wv ∧ c.wv.KeptPreds wv ∧
      wv.fflags = c.wv.fflags ||| ((lanesOf c.lanes).foldl (fun f l => f ||| (c.cvtCode d sf ty l).fl) 0).setWidth 64 ∧
      ∃ r', wv.region? (lowest c.lanes / 4) = some r' ∧ r'.rid = r.rid ∧
        r'.stores = r.stores.filter (·.iss ≤ s.nextId) ++ c.cvtStores v d sf ty p ++ r.stores.filter (s.nextId < ·.iss) := by
  obtain ⟨-, -, hiss⟩ := (pre_go s i c s' hp).now
  have hfits : c.fits (fun _ => c.cvtStores v d sf ty p) [lowest c.lanes / 4] := by
    intro sl hsl r1 hr1
    rw [List.mem_singleton.1 hsl, hr] at hr1
    exact Option.some.inj hr1 ▸ hf
  have hgrown : c.grown (fun _ => c.cvtStores v d sf ty p) [lowest c.lanes / 4] = [(r.rid, r.linesWith (c.cvtStores v d sf ty p) - r.lines.length)] := by
    simp only [Ctx.grown, List.filterMap_cons, hr, Option.map_some, List.filterMap_nil]
  have hb := State.buffer_fits (s'.advance c i) c _ _ hfits
  rw [linesShort_advance hp, hgrown, hs, if_neg Bool.false_ne_true] at hb
  obtain ⟨u, hu⟩ := hb
  obtain ⟨wv, hw, hq, hst⟩ := buffer_wave hp _ _ (List.nodup_singleton _) (fun _ _ => c.cvtStores_ne_nil v d sf ty p)
    (fun _ _ _ hx => (Ctx.iss_of_mem_bufs hx).trans hiss) hu
  refine ⟨_, _, by rw [storeCvt_placed hp h0 hal hpl, hu], settle_wave _ _ _ _ (result_wave u c i [] _ wv hw), ⟨hq.regs.v, hq.regs.s, hq.regs.lc⟩, hq.preds, ?_,
    hst _ (List.mem_singleton.2 rfl) r hr⟩
  rw [Wave.puts_nil, hq.fflags]
end
end

end Sys2Proof.Machine

/-- Settles O42: a converting store is one `storeCvt`, which checks the block's one address, then the lines of the run it goes to. -/
theorem convertingStoreIssue : Obligations.ConvertingStoreIssue := by
  intro h d a b sf ty pol sc od i kind hsf hi
  have he (s : State) : exec i s = storeCvt i s kind (stVia pol sc od) d a b sf.toNat ty := by
    rcases hi with ⟨rfl, rfl⟩ | ⟨rfl, rfl⟩ <;> exact if_neg hsf
  refine ⟨fun s c s' hp ⟨h0, hal⟩ => ?_, fun s c s' hp ⟨h0, hal, hpl⟩ => ?_, fun s c s' hp ⟨p, r, ⟨h0, hal, hpl⟩, hr, hf⟩ => ?_, fun s c s' hp h0 => ?_,
    fun s c s' hp ⟨p, r, ⟨h0, hal, hpl⟩, hr, hf, hs⟩ => ?_⟩
  · exact (he s).trans (storeCvt_misaligned hp h0 hal)
  · exact (he s).trans (storeCvt_outOfBounds hp h0 hal hpl)
  · exact (he s).trans (storeCvt_over hp h0 hal hpl hr hf)
  · obtain ⟨w0, hw, hsame, -⟩ := advance_same hp
    exact ⟨_, w0, (he s).trans (storeCvt_idle hp h0), settle_wave _ _ _ _ hw, hsame.quiet⟩
  · obtain ⟨t, wv, ht, hw, hregs, hpreds, hfl, hst⟩ := storeCvt_buffers hp h0 hal hpl hr hf hs
    refine ⟨t, wv, (he s).trans ht, hw, hregs, hpreds, hfl, fun p' r1 hp' hr1 => ?_⟩
    obtain rfl := Option.some.inj (hpl.symm.trans hp')
    obtain rfl := Option.some.inj (hr.symm.trans hr1)
    exact hst

end

section
/-! PROOFS. Loads that return (R33, R134, R231, R347, Table 10.1). -/
open Sys2Proof Sys2Proof.Machine

namespace Sys2Proof.Machine
open Host (Outcome)

/-! ### Events about a pending operation -/

theorem State.wave?_of_team {s : State} {tag w : Nat} {t : Team} {wv : Wave} (ht : s.team? tag = some t) (hw : t.wave? w = some wv) :
    s.wave? tag w = some wv := by
  simp only [State.wave?, ht, Option.bind_some, hw]

/-- The event of a pending operation that is there and stands behind no acquire happens. -/
theorem withPend_next {mn : String} {s : State} {tag w id : Nat} {f : Instr → Bool} {k : Team → Wave → Pend → State} {t : Team} {wv : Wave} {q : Pend}
    (ht : s.team? tag = some t) (hw : t.wave? w = some wv) (hq : wv.pend? id = some q) (hf : f q.instr = true) (hacq : wv.behindAcq q = false) :
    withPend mn s tag w id f k = .next ((k t wv q).afterPend tag w) := by
  simp only [withPend, ht, State.wave?_of_team ht hw, hq, hf, hacq, Bool.not_false, Bool.and_self, if_true]
/-- That of one behind an acquire is refused (R347). -/
theorem withPend_behind {mn : String} {s : State} {tag w id : Nat} {f : Instr → Bool} {k : Team → Wave → Pend → State} {t : Team} {wv : Wave} {q : Pend}
    (ht : s.team? tag = some t) (hw : t.wave? w = some wv) (hq : wv.pend? id = some q) (hacq : wv.behindAcq q = true) :
    withPend mn s tag w id f k = .refused (.notEnabled mn) := by
  simp only [withPend, ht, State.wave?_of_team ht hw, hq, hacq, Bool.not_true, Bool.and_false, Bool.false_eq_true, if_false]

/-- Without a trap that waits, nothing is entered once an operation has completed. -/
theorem State.enterTrap_none (s : State) (tag w : Nat) (wv : Wave) (hw : s.wave? tag w = some wv) (hq : wv.trapQ = none) : s.enterTrap tag w = s := by
  unfold State.enterTrap
  cases ht : s.team? tag with
  | none => rfl
  | some t => simp only [hw, hq]

@[simp] theorem Wave.puts_pend (ws : List RegW) (wv : Wave) : (wv.puts ws).pend = wv.pend := by
  obtain ⟨a, b, c, d, e⟩ := Wave.puts_eq ws wv
  rw [e]
@[simp] theorem Wave.puts_ev (ws : List RegW) (wv : Wave) : (wv.puts ws).ev = wv.ev := by
  obtain ⟨a, b, c, d, e⟩ := Wave.puts_eq ws wv
  rw [e]
@[simp] theorem Wave.puts_trapQ (ws : List RegW) (wv : Wave) : (wv.puts ws).trapQ = wv.trapQ := by
  obtain ⟨a, b, c, d, e⟩ := Wave.puts_eq ws wv
  rw [e]
@[simp] theorem Wave.finishPend_ix (wv : Wave) (free : Nat) (q : Pend) (ws : List RegW) (fl : BitVec 8) : (wv.finishPend free q ws fl).ix = wv.ix := by
  simp only [Wave.finishPend, Wave.deliver, Wave.puts_ix]
@[simp] theorem Wave.finishPend_trapQ (wv : Wave) (free : Nat) (q : Pend) (ws : List RegW) (fl : BitVec 8) : (wv.finishPend free q ws fl).trapQ = wv.trapQ := by
  simp only [Wave.finishPend, Wave.deliver, Wave.puts_trapQ]

/-- With no destination written meanwhile, every write of a result counts (R132). -/
theorem Pend.kept_of_clean (q : Pend) (hc : q.clob = []) (free : Nat) (ws : List RegW) :
    (ws.zipIdx.filter (fun x => !q.clobbered x.1 || Config.freeBool free x.2)).map (·.1) = ws := by
  have hcl (x : RegW) : q.clobbered x = false := by cases x <;> simp [Pend.clobbered, hc]
  simp only [hcl, Bool.not_false, Bool.true_or, List.filter_true, List.zipIdx_map_fst]

/-- Completing an operation delivers its result (R134). -/
theorem Wave.finishPend_delivered (wv : Wave) (free : Nat) (q : Pend) (ws : List RegW) (fl : BitVec 8) (hc : q.clob = []) :
    wv.Delivered (wv.finishPend free q ws fl) q ws fl where
  v n l := by simp only [Wave.finishPend, Wave.deliver, q.kept_of_clean hc]; rfl
  s n := by simp only [Wave.finishPend, Wave.deliver, q.kept_of_clean hc]; rfl
  p n := by simp only [Wave.finishPend, Wave.deliver, q.kept_of_clean hc]; rfl
  lc n := by simp only [Wave.finishPend, Wave.deliver, q.kept_of_clean hc]; rfl
  fflags := rfl
  pend := by simp only [Wave.finishPend, Wave.deliver, Wave.puts_pend]
  ev n := by
    simp only [Wave.finishPend, Wave.deliver, Wave.evr, decEv, List.foldl_cons, List.foldl_nil, Wave.puts_ev]
    cases q.ev with
    | none => rfl
    | some m =>
      simp only [sget_sset, Option.some.injEq]
      split
      · rename_i e; rw [e]
      · rfl

/-- The team after an operation of one of its waves has completed. -/
theorem State.team?_finishPend (s : State) (tag w k : Nat) (q : Pend) (ws : List RegW) (fl : BitVec 8) :
    (s.finishPend tag w q ws fl).team? k = if k = tag then (s.team? k).map (fun t => (t.updWave w (·.finishPend s.free q ws fl)).cleanRegs w ws) else s.team? k :=
  State.team?_updTeam s tag k (fun t => (t.updWave w (·.finishPend s.free q ws fl)).cleanRegs w ws) (fun _ => rfl)
theorem State.wave?_finishPend (s : State) (tag w j : Nat) (q : Pend) (ws : List RegW) (fl : BitVec 8) :
    (s.finishPend tag w q ws fl).wave? tag j = if j = w then (s.wave? tag j).map (·.finishPend s.free q ws fl) else s.wave? tag j := by
  simp only [State.wave?]
  rw [State.team?_finishPend, if_pos rfl]
  cases s.team? tag with
  | none => simp
  | some t => exact Team.wave?_updWave t w j _ (fun x => Wave.finishPend_ix x _ _ _ _)

/-- A pending operation that completes from a state which holds the teams of `s`: its wave gets the result, and no other team or wave changes. -/
theorem finishPend_completes {s u : State} {tag w id : Nat} {t : Team} {wv : Wave} {q : Pend} (hp : s.Pending tag w id t wv q) (hu : u.teams = s.teams)
    (ws : List RegW) (fl : BitVec 8) : ∃ v, (u.finishPend tag w q ws fl).afterPend tag w = u.finishPend tag w q ws fl ∧
      (u.finishPend tag w q ws fl).wave? tag w = some v ∧ wv.Delivered v q ws fl ∧ (∀ k, k ≠ tag → (u.finishPend tag w q ws fl).team? k = s.team? k) ∧
      ∀ k, k ≠ w → (u.finishPend tag w q ws fl).wave? tag k = s.wave? tag k := by
  have hteam (k : Nat) : u.team? k = s.team? k := by simp only [State.team?, hu]
  have hwave (k j : Nat) : u.wave? k j = s.wave? k j := by simp only [State.wave?, hteam]
  have hw : (u.finishPend tag w q ws fl).wave? tag w = some (wv.finishPend u.free q ws fl) := by
    rw [State.wave?_finishPend, if_pos rfl, hwave, State.wave?_of_team hp.team hp.wave]; rfl
  refine ⟨_, State.enterTrap_none _ _ _ _ hw ((Wave.finishPend_trapQ ..).trans hp.quiet), hw, Wave.finishPend_delivered _ _ _ _ _ hp.clean, fun k hk => ?_, fun k hk => ?_⟩
  · rw [State.team?_finishPend, if_neg hk, hteam]
  · rw [State.wave?_finishPend, if_neg hk, hwave]

/-! ### The stop that lanes meet -/

/-- Whether a lane meets a trap. -/
def lanesTrap {α : Type} (x : Except LaneBad α) : Option (Nat × Nat) := match x with | .error (.trap c a) => some (c, a) | _ => none
/-- The pages that a lane faults on. -/
def lanePages {α : Type} (x : Nat × Except LaneBad α) : Option (Nat × FaultPages) := match x.2 with | .error (.pages ps) => some (x.1, ps) | _ => none

theorem laneStop_eq {α : Type} (l : List (Nat × Except LaneBad α)) : laneStop l =
    (l.findSome? (fun x => lanesTrap x.2)).elim (if l.filterMap lanePages = [] then none
      else some (.fault (((l.filterMap lanePages).map (·.1 / 4)).eraseDups) (((l.filterMap lanePages).flatMap (·.2)).eraseDups))) (fun x => some (.trap x.1 x.2)) := by
  have h : laneStop l = match l.findSome? (fun x => lanesTrap x.2) with
    | some (c, a) => some (.trap c a)
    | none => match l.filterMap lanePages with
      | [] => none
      | bs => some (.fault ((bs.map (·.1 / 4)).eraseDups) ((bs.flatMap (·.2)).eraseDups)) := rfl
  rw [h]
  cases l.findSome? (fun x => lanesTrap x.2) with
  | some x => rfl
  | none => cases l.filterMap lanePages <;> rfl

/-- Lanes that can all be read meet no stop. -/
theorem laneStop_ok {α : Type} (ls : List Nat) (r : Nat → Except LaneBad α) (x : Nat → α) (h : ∀ l ∈ ls, r l = .ok (x l)) :
    laneStop (ls.map (fun l => (l, r l))) = none := by
  have h1 : (ls.map (fun l => (l, r l))).findSome? (fun x => lanesTrap x.2) = none := by
    simp only [List.findSome?_eq_none_iff, List.forall_mem_map]
    exact fun l hl => by rw [h l hl]; rfl
  have h2 : (ls.map (fun l => (l, r l))).filterMap lanePages = [] := by
    simp only [List.filterMap_eq_nil_iff, List.forall_mem_map]
    exact fun l hl => by simp only [lanePages, h l hl]
  rw [laneStop_eq, h1, h2]
  rfl
/-- The lowest lane that meets a trap raises it, whatever else the others meet (R402). -/
theorem laneStop_trap {α : Type} (ls : List Nat) (r : Nat → Except LaneBad α) (l cause a : Nat)
    (hl : ls.find? (fun k => (lanesTrap (r k)).isSome) = some l) (hr : r l = .error (.trap cause a)) :
    laneStop (ls.map (fun l => (l, r l))) = some (.trap cause a) := by
  have h1 : (ls.map (fun l => (l, r l))).findSome? (fun x => lanesTrap x.2) = some (cause, a) := by
    induction ls with
    | nil => cases hl
    | cons k ks ih =>
      rw [List.find?_cons] at hl
      rw [List.map_cons, List.findSome?_cons]
      dsimp only at hl ⊢
      split at hl
      · cases hl
        rw [hr]
        rfl
      · rename_i hk
        rw [Option.isSome_eq_false_iff, Option.isNone_iff_eq_none] at hk
        rw [hk]
        exact ih hl
  rw [laneStop_eq, h1]
  rfl

/-! ### Loads that return -/

/-- What a load writes depends on the bytes of its own lanes only. -/
theorem ldWrites_congr (f : LdForm) (m : Lanes) (x y : Nat → List Byte) (h : ∀ l ∈ f.lanes m, x l = y l) : ldWrites f m x = ldWrites f m y := by
  have hN (n : Nat) : wrN m f.d n (fun i l => ldWord f l i (x l)) = wrN m f.d n (fun i l => ldWord f l i (y l)) := by
    unfold wrN LdForm.lanes at *
    split
    · rename_i r hd
      simp only [hd] at h
      exact List.flatMap_congr (fun l hl => by dsimp only; rw [h l hl])
    · rename_i r hd
      simp only [hd] at h
      dsimp only
      rw [h _ (List.mem_singleton.2 rfl)]
    · rfl
  unfold ldWrites
  split
  · rename_i r hd ht
    simp only [LdForm.lanes, hd] at h
    rw [h _ (List.mem_singleton.2 rfl)]
  · exact hN _

/-- What accesses keep beside the constant cache. -/
theorem sansConst_keeps (x : State) (l : List ConstW) : CacheKeeps (fun s => { s with consts := l }.sansCache = x) where
  put := fun _ _ _ h => h
  lose := fun s lo hi h => by
    simp only [State.memLose]
    split
    · exact h
    · exact h
  bad := fun _ _ _ h => h
  lines := fun _ _ h => h
  stamp := fun _ _ h => h
  upds := fun _ _ h => h
  due := fun _ _ h => h
  ats := fun _ _ h => h
  tlb := fun _ _ _ h => h
  spill := fun _ _ h => h

/-- Keeping words changes the constant cache only (R234). -/
theorem State.constKeep_eq (s : State) (t : Team) (va n : Nat) (sys : Bool) : ∃ l, s.constKeep t va n sys = { s with consts := l } := by
  unfold State.constKeep
  refine foldl_keeps (fun u => ∃ l, u = { s with consts := l }) _ (fun u j hu => ?_) _ _ ⟨s.consts, rfl⟩
  obtain ⟨l, rfl⟩ := hu
  dsimp only
  split
  · exact ⟨_, rfl⟩
  · exact ⟨l, rfl⟩

/-- A load on its way changes memory's caches and the constant cache only. -/
theorem State.loadTouch_sansConst (s : State) (t : Team) (sys : Bool) (q : Pend) (f : LdForm) :
    { s.loadTouch t sys q f with consts := s.consts }.sansCache = s.sansCache := by
  have K := sansConst_keeps s.sansCache s.consts
  unfold State.loadTouch
  generalize hu : (if f.kind = 1 then s else _) = u
  have h : { u with consts := s.consts }.sansCache = s.sansCache := by
    rw [← hu]
    split
    · rfl
    · refine foldl_keeps (fun v : State => { v with consts := s.consts }.sansCache = s.sansCache) _ (fun v l hv => K.vtouch _ _ _ _ _ _ _ _ ?_) _ _ rfl
      split
      · obtain ⟨cs, e⟩ := v.constKeep_eq t (q.x.getD l 0).toNat f.n sys
        rw [e]
        exact hv
      · exact hv
  dsimp only
  split
  · exact K.acquire u _ _ h
  · exact h
theorem State.loadTouch_teams (s : State) (t : Team) (sys : Bool) (q : Pend) (f : LdForm) : (s.loadTouch t sys q f).teams = s.teams :=
  State.teams_sansCache (t := { s.loadTouch t sys q f with consts := s.consts }) (s.loadTouch_sansConst t sys q f)
/-- A relaxed load of scratch touches no cache. -/
theorem State.loadTouch_scratch (s : State) (t : Team) (sys : Bool) (q : Pend) (f : LdForm) (hk : f.kind = 1) (hq : isAcqLoad q.instr = false) :
    s.loadTouch t sys q f = s := by
  simp only [State.loadTouch, hk, if_true, hq, Bool.false_eq_true, if_false]

/-- A load that waits for nothing, once its lanes have been read. -/
theorem loadComplete_next {s : State} {tag w id : Nat} {t : Team} {wv : Wave} {q : Pend} {f : LdForm} (ht : s.team? tag = some t) (hw : t.wave? w = some wv)
    (hq : wv.pend? id = some q) (hf : ldForm q.instr = some f) (hwait : s.loadWaits tag w id = false) (hacq : wv.behindAcq q = false) :
    exec (.loadComplete tag w id) s = .next (
      (match laneStop ((f.lanes q.lanes).map (fun l => (l, s.laneBytes t (t.sys || wv.handler) q f l))) with
      | some (.fault sls ps) => s.loadFaults tag w t wv q sls ps
      | some x => s.pendStop tag w wv q x
      | none => (s.loadTouch t (t.sys || wv.handler) q f).finishPend tag w q
          (ldWrites f q.lanes (fun l => match s.laneBytes t (t.sys || wv.handler) q f l with | .ok bs => bs | .error _ => [])) 0).afterPend tag w) := by
  have e : exec (.loadComplete tag w id) s = execLoadComplete tag w id s := rfl
  rw [e, execLoadComplete, hwait, if_neg Bool.false_ne_true, withPend_next ht hw hq (by rw [hf]; rfl) hacq]
  simp only [hf] <;> rfl

/-- One that waits does not complete. -/
theorem loadComplete_refused {s : State} {tag w id : Nat} {t : Team} {wv : Wave} {q : Pend} (ht : s.team? tag = some t) (hw : t.wave? w = some wv)
    (hq : wv.pend? id = some q) (h : s.loadWaits tag w id = true ∨ wv.behindAcq q = true) :
    exec (.loadComplete tag w id) s = .refused (.notEnabled "LOAD_COMPLETE") := by
  have e : exec (.loadComplete tag w id) s = execLoadComplete tag w id s := rfl
  rw [e, execLoadComplete]
  split
  · rfl
  · rename_i hwait
    exact withPend_behind ht hw hq (h.resolve_left hwait)

end Sys2Proof.Machine

/-- Settles O40: what the lanes of the load meet decides between its completion, its trap and its page faults. -/
theorem loadResult : Obligations.LoadResult := by
  intro s tag w id t wv q f ht hw hq hf
  dsimp only
  refine ⟨fun bytes hp hwait hok hout => ?_, fun l cause a hwait hacq hl hr => ?_, fun sls ps hwait hacq hst => ?_, fun h => ?_⟩
  · rw [State.Completes, loadComplete_next ht hw hq hf hwait hp.due, laneStop_ok _ _ bytes hok]
    have hws : ldWrites f q.lanes (fun l => match s.laneBytes t (t.sys || wv.handler) q f l with | .ok bs => bs | .error _ => []) = ldWrites f q.lanes bytes :=
      ldWrites_congr f q.lanes _ _ (fun l hl => by simp only [hok l hl])
    obtain ⟨v, hafter, hv, hdel, hteams, hwaves⟩ := finishPend_completes hp (s.loadTouch_teams t (t.sys || wv.handler) q f) (ldWrites f q.lanes bytes) 0
    refine ⟨_, v, rfl, ?_⟩
    rw [hws, hafter]
    refine ⟨hv, hdel, hteams, hwaves, ?_, fun hk hn => ?_⟩
    · exact congrArg (fun x : State => { x with teams := s.teams, free := s.free }) (s.loadTouch_sansConst t (t.sys || wv.handler) q f)
    · rw [s.loadTouch_scratch t _ q f hk hn]
      rfl
  · have first : (f.lanes q.lanes).find? (fun k => (lanesTrap (s.laneBytes t (t.sys || wv.handler) q f k)).isSome) = some l := by
      rw [← hl]
      congr 1
      funext k
      generalize s.laneBytes t (t.sys || wv.handler) q f k = x
      rcases x with (⟨cause, a⟩ | ps) | bs <;> rfl
    rw [loadComplete_next ht hw hq hf hwait hacq, laneStop_trap _ _ l cause a first hr]; rfl
  · rw [loadComplete_next ht hw hq hf hwait hacq, hst]
  · exact loadComplete_refused ht hw hq h

end

section
/-! PROOFS. What no issue may change before its region commits (O43): QCTL.r changes lines. -/
open Sys2Proof Sys2Proof.Machine

namespace Sys2Proof.Machine

/-! ### An instruction that stops leaves the layout of every partition

QCTL.r clears the mark `moved` of a partition whose layout has changed (R459); no wait, trap or page fault does. -/

/-- Which partitions wait for a resume to give them their new layout. -/
def State.moved (s : State) : List Bool := s.parts.map Part.moved
@[simp] theorem State.moved_updPart (s : State) (p : Nat) (f : Part → Part) (hf : ∀ q, (f q).moved = q.moved) : (s.updPart p f).moved = s.moved := by
  unfold moved updPart
  refine List.ext_getElem? fun n => ?_
  simp only [List.getElem?_map, List.getElem?_modify]
  cases s.parts[n]? with
  | none => rfl
  | some q => by_cases hn : p = n <;> simp [hn, hf]
@[simp] theorem State.moved_updTeam (s : State) (tag : Nat) (f : Team → Team) : (s.updTeam tag f).moved = s.moved := rfl
@[simp] theorem State.moved_updWave (s : State) (tag w : Nat) (f : Wave → Wave) : (s.updWave tag w f).moved = s.moved := rfl
@[simp] theorem State.moved_updGang (s : State) (gid : Nat) (f : Gang → Gang) : (s.updGang gid f).moved = s.moved := rfl
@[simp] theorem State.moved_updGrid (s : State) (id : Nat) (f : Grid → Grid) : (s.updGrid id f).moved = s.moved := rfl
theorem moved_cache (n : List Bool) : CacheKeeps (fun s => s.moved = n) where
  put := fun _ _ _ h => h
  lose := fun s lo hi h => by unfold State.memLose; split <;> exact h
  bad := fun _ _ _ h => h
  lines := fun _ _ h => h
  stamp := fun _ _ h => h
  upds := fun _ _ h => h
  due := fun _ _ h => h
  ats := fun _ _ h => h
  tlb := fun _ _ _ h => h
  spill := fun _ _ h => h
/-- A fold of operations that keep the layout keeps it. -/
theorem State.moved_foldl {α : Type} (f : State → α → State) (hf : ∀ s a, (f s a).moved = s.moved) (l : List α) (s : State) :
    (l.foldl f s).moved = s.moved :=
  foldl_keeps (fun t => t.moved = s.moved) f (fun t a h => (hf t a).trans h) l s rfl
@[simp] theorem State.moved_bumpSeq (s : State) (p : Nat) : (s.bumpSeq p).moved = s.moved := by simp [bumpSeq]
@[simp] theorem State.moved_sendMsix (s : State) (v : Nat) : (s.sendMsix v).moved = s.moved := by
  unfold sendMsix
  split
  · rfl
  · split <;> rfl
@[simp] theorem State.moved_ringMsix (s : State) (p en lo : Nat) : (s.ringMsix p en lo).moved = s.moved := by
  unfold ringMsix; dsimp only; split <;> simp
@[simp] theorem State.moved_abandon (s : State) (f : Nat × Nat × Nat → Bool) : (s.abandon f).moved = s.moved := rfl
@[simp] theorem State.moved_freeTeam (s : State) (tag : Nat) : (s.freeTeam tag).moved = s.moved := by
  show (s.leaveCore tag).moved = s.moved
  unfold leaveCore
  split
  · exact (moved_cache s.moved).dropLines _ _ rfl
  · rfl
@[simp] theorem State.moved_trueUp (s : State) (tag : Nat) : (s.trueUp tag).moved = s.moved := by
  unfold trueUp; dsimp only; split
  · exact moved_updPart _ _ _ (fun _ => rfl)
  · rfl
@[simp] theorem State.moved_gridRetire (s : State) (g : Grid) : (s.gridRetire g).moved = s.moved := by
  unfold gridRetire; dsimp only; split
  · split <;> rfl
  · exact moved_updPart _ _ _ (fun _ => rfl)
@[simp] theorem State.moved_gridsRetire : ∀ (n : Nat) (s : State), (s.gridsRetire n).moved = s.moved
  | 0, _ => rfl
  | n + 1, s => by unfold gridsRetire; split <;> simp [moved_gridsRetire n]
@[simp] theorem State.moved_abort1 (s : State) (tag w : Nat) (r : Region) : (s.abort1 tag w r).moved = s.moved :=
  moved_updPart _ _ _ (fun _ => rfl)
@[simp] theorem State.moved_abort (s : State) (tag w : Nat) (sls : List Nat) : (s.abort tag w sls).1.moved = s.moved := by
  unfold abort
  split
  · rfl
  · have hm (t : Team → Team) (rs : List Region) : (rs.foldl (fun s r => s.abort1 tag w r) (s.updTeam tag t)).moved = s.moved :=
      moved_foldl (fun s r => s.abort1 tag w r) (fun _ _ => moved_abort1 ..) rs _
    dsimp only
    generalize (_ && _ : Bool) = b
    cases b <;> exact hm _ _
@[simp] theorem State.moved_flushSfu (s : State) (tag w : Nat) : (s.flushSfu tag w).moved = s.moved := by
  unfold flushSfu; split
  · rfl
  · exact moved_foldl (fun s (q : Pend) => s.finishPend tag w q q.wr q.flags) (fun _ _ => rfl) _ _
@[simp] theorem State.moved_postError (s : State) (p : Nat) (e : ErrRec) : (s.postError p e).moved = s.moved := by
  unfold postError
  dsimp only
  split
  · simp
  · split
    · simp
    · next hw => simpa using (moved_cache s.moved).writeVia _ _ _ _ _ _ _ _ rfl hw
@[simp] theorem State.moved_tornRecord (s : State) (who : Nat) (cause flg addr : Nat) (t : Team) : (s.tornRecord who cause flg addr t).moved = s.moved :=
  moved_postError _ _ _
@[simp] theorem State.moved_slotFailed (s : State) (p : Nat) (x : Nat × Nat) (b : Bad) : (s.slotFailed p x b).moved = s.moved := by
  unfold slotFailed; split <;> simp
@[simp] theorem State.moved_putSlot (s : State) (p : Nat) (x : Nat × Nat) (r : List Byte) : (s.putSlot p x r).1.moved = s.moved := by
  unfold putSlot
  split
  · simp
  · next hw => simpa using (moved_cache s.moved).writeVia _ _ _ _ _ _ _ _ rfl hw
@[simp] theorem State.moved_touch (s : State) (v p a va n b k c) : (s.touch v p a va n b k c).moved = s.moved :=
  (moved_cache s.moved).touch _ _ _ _ _ _ _ _ _ rfl
@[simp] theorem State.moved_enterFault (s : State) (p asid blk : Nat) (pages : DWord) (kinds : Nat) :
    (s.enterFault p asid blk pages kinds).1.moved = s.moved := by
  unfold enterFault
  dsimp only
  split
  · rfl
  · split
    · simp
    · split <;> simp
    · split
      · simp
      · split
        · simp
        · split
          · next e => simpa using congrArg (·.1.moved) e.symm
          · next e => simpa using congrArg (·.1.moved) e.symm
@[simp] theorem State.moved_faultHold (s : State) (tag w : Nat) (sls : List Nat) (pages : FaultPages) :
    (s.faultHold tag w sls pages).moved = s.moved := by
  unfold faultHold
  split
  · rfl
  · next t _ =>
    refine foldl_keeps (fun y : State × List Hold => y.1.moved = s.moved) _ (fun y x hy => ?_) _ _ rfl
    exact (moved_enterFault y.1 t.part t.asid x.1 x.2.1 x.2.2).trans hy
@[simp] theorem State.moved_teardown (s : State) (gid who cause flg addr : Nat) : (s.teardown gid who cause flg addr).moved = s.moved := by
  unfold teardown
  split
  · rfl
  · have hr (t : Team) (s : State) (wv : Wave) : (wv.regions.foldl (fun s r => s.abort1 t.tag wv.ix r) s).moved = s.moved :=
      moved_foldl (fun s r => s.abort1 t.tag wv.ix r) (fun _ _ => moved_abort1 ..) _ _
    simp only [afterEnd, moved_gridsRetire, moved_updGrid, moved_updGang]
    rw [moved_foldl _ (fun s (t : Team) => s.moved_freeTeam t.tag), moved_foldl _ (fun s (t : Team) => s.moved_tornRecord _ _ _ _ _),
      moved_foldl _ (fun s (t : Team) => s.moved_trueUp t.tag), moved_abandon,
      moved_foldl _ (fun s (t : Team) => moved_foldl _ (hr t) _ _)]
theorem State.moved_writePieces (s u : State) (t : Team) (base : Nat) (ps : List (Nat × List Byte)) (w : s.writePieces t base ps = some u) :
    u.moved = s.moved := by
  unfold writePieces at w
  split at w
  · cases w
    exact foldl_keeps (fun u : State => u.moved = s.moved) _ (fun s' x hs => (moved_cache s.moved).writeBy _ _ _ _ _ _ _ hs) _ _ rfl
  · cases w
theorem State.moved_writeFrame (s u : State) (t : Team) (base : Nat) (wv : Wave) (faddr : DWord) (vr sr : Nat)
    (w : s.writeFrame t base wv faddr vr sr = some u) : u.moved = s.moved := by
  unfold writeFrame at w
  split at w
  · cases w
  · next s1 h1 =>
    have hs := s.moved_writePieces s1 t base _ h1
    simp only [Option.some.injEq] at w
    subst w
    cases e : s1.writePieces t base (List.filter (s1.pieceOk t base) (frameOpen s.free vr sr)) with
    | none => exact hs
    | some v => exact (s1.moved_writePieces v t base _ e).trans hs
@[simp] theorem State.moved_enterTrap (s : State) (tag w : Nat) : (s.enterTrap tag w).moved = s.moved := by
  unfold enterTrap
  split
  · split
    · rfl
    · dsimp only
      split
      · rfl
      · split
        · exact moved_teardown ..
        · split
          · exact moved_teardown ..
          · split
            · rfl
            · split
              · exact moved_teardown ..
              · next h => exact (moved_updTeam ..).trans (s.moved_writeFrame _ _ _ _ _ _ _ h)
  · rfl
@[simp] theorem State.moved_stop (s : State) (c : Ctx) (x : Stop) : (s.stop c x).moved = s.moved := by
  cases x with
  | wait => rfl
  | trap cause faddr => simp [stop, takeTrap]
  | fault sls ps =>
    exact (moved_foldl _ (fun s (x : List Nat × FaultPages) => s.moved_faultHold c.tag c.w x.1 x.2) _ _).trans (moved_abort ..)

/-! ### A resume that changes a line -/

/-- A line of an L1 that holds one byte of the first partition's range. -/
def heldLine : Line :=
  { loc := .l1 0, asid := 0, va := 0, byPa := false, part := 0, pa := 0
    attr := { w := true, x := false, sys := false, home := 0, nopf := false, cnt := false }
    filled := 1, mask := 1, dirty := 0, und := 0, bad := 0, data := [], own := [], way := 0, stamp := 0, ret := 0, tag := 1 }
/-- Wave 0 of team 1 is about to resume queue 1 of the first partition, whose configuration is legal and whose range has changed
since the last resume; an L1 holds a line of it. -/
def newLayout : State :=
  { ((State.reset.atWord 0).updWave 1 0 (fun wv => { wv with s := [(8, 2)] })).updPart 0 (fun q => { q with pmlim := 0xFE0000000, moved := true }) with
    cur := some (1, 0), lines := [heldLine] }
/-- QCTL.r of the queues that S8 names, with its status in S10. -/
def resumeQueues : Instr := .qctlR { stall := 0, gn := false, gp := 127 } (.s 10) (.s 8) none

/-- The resume completes, clears the mark of the layout, and the byte that the L1 holds is undefined. -/
theorem resumeQueues_newLayout :
    (match newLayout.pre resumeQueues, exec resumeQueues newLayout with
      | .go _ s', .next t => decide (t.moved ≠ newLayout.moved) && decide (t.lines ≠ s'.lines)
      | _, _ => false) = true := by decide +kernel
end Sys2Proof.Machine

/-- Refutes O43: a QCTL resume gives a partition whose range has changed a new layout, whose bytes become undefined in memory and
in every line that holds them (R459), so that the cache lines are not those before it. -/
theorem not_nothingVisibleBeforeCommit : ¬ Obligations.NothingVisibleBeforeCommit := by
  unfold Obligations.NothingVisibleBeforeCommit
  intro h
  have hw := resumeQueues_newLayout
  split at hw
  · next c s' t hp he =>
    simp only [Bool.and_eq_true, decide_eq_true_eq] at hw
    obtain ⟨hmoved, hlines⟩ := hw
    obtain ⟨-, u, hu, ⟨x, hstop⟩ | ⟨⟨-, hl⟩, -⟩⟩ := h resumeQueues newLayout c s' rfl hp
    · rw [he, Host.Outcome.next.injEq] at hu
      exact hmoved (by rw [hu, hstop, State.moved_stop])
    · rw [he, Host.Outcome.next.injEq] at hu
      exact hlines (hu ▸ hl)
  · cases hw

end

section
/-! PROOFS. The commit of a region run (O38; R34, R149, R463). -/
open Sys2Proof Sys2Proof.Machine

namespace Sys2Proof.Machine
open Host (Outcome)

/-! ### What the stores of a run leave alone as they become visible -/

/-- The waves, the gangs and the shadow bindings stand as they did. -/
structure State.Shows (s u : State) : Prop where
  waves : ∀ tag w, u.wave? tag w = s.wave? tag w
  gangs : u.gangs = s.gangs
  shadows : ∀ p, (u.part p).shadows = (s.part p).shadows

namespace State.Shows
theorem refl (s : State) : s.Shows s := ⟨fun _ _ => rfl, rfl, fun _ => rfl⟩
theorem trans {s u v : State} (a : s.Shows u) (b : u.Shows v) : s.Shows v :=
  ⟨fun tag w => (b.waves tag w).trans (a.waves tag w), b.gangs.trans a.gangs, fun p => (b.shadows p).trans (a.shadows p)⟩
theorem of_sansCache {s u : State} (h : u.sansCache = s.sansCache) : s.Shows u where
  waves := fun tag w => by simp only [State.wave?, State.team?_sansCache h]
  gangs := by have e := congrArg State.gangs h; exact e
  shadows := fun p => by have e := congrArg (fun x : State => (x.part p).shadows) h; exact e
/-- A fold of changes that each leave them alone. -/
theorem foldl {α : Type} {f : State → α → State} (hf : ∀ (s : State) a, s.Shows (f s a)) (l : List α) (s : State) : s.Shows (l.foldl f s) :=
  foldl_keeps s.Shows f (fun u a h => h.trans (hf u a)) l s (refl s)
theorem tableWrite (s : State) (asid va n : Nat) : s.Shows (s.tableWrite asid va n) := by
  unfold State.tableWrite
  generalize (fun p => (s.part p).inTable asid va n) = f
  unfold State.tablesLost
  split
  · refine ⟨fun _ _ => rfl, rfl, fun p => ?_⟩
    simp only [State.part, List.getD_eq_getElem?_getD, List.getElem?_map, List.getElem?_zipIdx, Option.map_map]
    cases s.parts[p]? with
    | none => rfl
    | some q => simp only [Option.map_some, Option.getD_some, Function.comp_apply]; split <;> rfl
  · exact refl s
theorem updTeam (s : State) (tag : Nat) (f : Team → Team) (ht : ∀ t, (f t).tag = t.tag) (hw : ∀ t, (f t).waves = t.waves) : s.Shows (s.updTeam tag f) where
  waves := fun k w => by
    simp only [State.wave?, State.team?_updTeam s tag k f ht]
    split
    · cases s.team? k with
      | none => rfl
      | some t => simp only [Option.map_some, Option.bind_some, Team.wave?, hw]
    · rfl
  gangs := rfl
  shadows := fun _ => rfl
end State.Shows

@[simp] theorem Team.scrPut_tag (t : Team) (bs : List (Nat × BV)) : (t.scrPut bs).tag = t.tag := by
  unfold scrPut
  dsimp only
  refine foldl_keeps (fun u : Team => u.tag = t.tag) _ (fun _ _ h => ?_) bs t rfl
  exact h
@[simp] theorem Team.scrPut_waves (t : Team) (bs : List (Nat × BV)) : (t.scrPut bs).waves = t.waves := by
  unfold scrPut
  dsimp only
  refine foldl_keeps (fun u : Team => u.waves = t.waves) _ (fun _ _ h => ?_) bs t rfl
  exact h

theorem State.shows_vwriteAll (s : State) (v : Via) (p asid : Nat) (sys : Bool) (bs : Sparse (Nat × BV)) : s.Shows (s.vwriteAll v p asid sys bs) := by
  have one (s : State) (v : Via) (a : Nat) (l : List BV) (n : Nat) : s.Shows ((s.writeBVs v p asid a sys l).tableWrite asid a n) :=
    (State.Shows.of_sansCache (s.sansCache_writeBVs v p asid a sys l)).trans (State.Shows.tableWrite _ _ _ _)
  unfold vwriteAll
  dsimp only
  refine (State.Shows.foldl (fun s x => ?_) _ _).trans (State.Shows.foldl (fun s x => ?_) _ _)
  · exact one s v _ _ _
  · exact one s v.win _ _ _
theorem State.shows_showIssue (s : State) (t : Team) (sys : Bool) (bs : List BufW) : s.Shows (s.showIssue t sys bs) := by
  unfold showIssue
  split
  · exact .refl s
  · next b r =>
    refine State.Shows.trans (u := if b.rel then s.release (some t.core) b.sc.rank else s) ?_ (State.Shows.foldl (fun u sp => ?_) _ _)
    · split
      · exact .of_sansCache (s.sansCache_release _ _)
      · exact .refl s
    · cases sp with
      | mem asid => exact u.shows_vwriteAll ..
      | scratch tag => exact .updTeam u tag _ (fun t => t.scrPut_tag _) (fun t => t.scrPut_waves _)
theorem State.shows_visible (s : State) (t : Team) (sys : Bool) (rs : List Region) : s.Shows (s.visible t sys rs) := by
  have of (l : List BufW) (s : State) :
      s.Shows (((l.map (·.iss)).foldl insertAsc []).foldl (fun s i => s.showIssue t sys (l.filter (·.iss == i))) s) :=
    State.Shows.foldl (fun s i => s.shows_showIssue t sys _) _ _
  unfold visible
  exact (of _ s).trans (of _ _)

/-! ### Step 3 of runs that the engines hold nothing of -/

theorem State.dropLines_none (s : State) (f : Line → Bool) (h : ∀ l, f l = false) : s.dropLines f = s := by
  simp [dropLines, h]

/-- What step 3 of such runs keeps, once their stores are visible: memory and its caches, the waves, the gangs; and no binding is reserved by one
of them. -/
structure State.Shown (s : State) (p : Nat) (rids : List Nat) (u : State) : Prop where
  mem : u.mem = s.mem
  lines : u.lines = s.lines
  waves : ∀ tag w, u.wave? tag w = s.wave? tag w
  gangs : u.gangs = s.gangs
  free : ∀ b ∈ (u.part p).shadows, ∀ i ∈ rids, b.resBy ≠ some i

namespace State.Shown
variable {s u : State} {p : Nat} {rids : List Nat}
theorem updTeam (h : s.Shown p rids u) (tag : Nat) (f : Team → Team) (ht : ∀ t, (f t).tag = t.tag) (hw : ∀ t, (f t).waves = t.waves) :
    s.Shown p rids (u.updTeam tag f) :=
  ⟨h.mem, h.lines, fun k w => ((Shows.updTeam u tag f ht hw).waves k w).trans (h.waves k w), h.gangs, h.free⟩
theorem engineCommit (h : s.Shown p rids u) (t : Team) (hp : t.part = p) (r : Region) (hr : r.rid ∈ rids) : s.Shown p rids (u.engineCommit t r) := by
  have hbs : (u.part t.part).shadows.filter (·.resBy == some r.rid) = [] := by
    simp only [List.filter_eq_nil_iff, beq_iff_eq]
    exact fun b hb => h.free b (hp ▸ hb) _ hr
  unfold State.engineCommit
  dsimp only
  rw [hbs, u.dropLines_none _ (fun l => by simp)]
  refine Shown.updTeam ?_ t.tag _ (fun _ => by dsimp only) (fun _ => by dsimp only)
  refine ⟨h.mem, h.lines, h.waves, h.gangs, fun b hb => ?_⟩
  rw [State.part_updPart] at hb
  split at hb
  · simp only [List.mem_map, List.mem_filter] at hb
    obtain ⟨x, ⟨hx, -⟩, rfl⟩ := hb
    intro i hi
    split
    · exact fun e => nomatch e
    · exact h.free x hx i hi
  · exact h.free b hb
theorem beamCommit (h : s.Shown p rids u) (t : Team) (r : Region) (hr : r.bdone = []) : s.Shown p rids (u.beamCommit t r) := by
  unfold State.beamCommit
  simp only [hr, List.foldl_nil, if_true]
  exact h.updTeam _ _ (fun _ => rfl) (fun _ => rfl)
end State.Shown

@[simp] theorem Wave.jKeep_fold_thr (rids : List Nat) (wv : Wave) : (rids.foldl (·.jKeep ·) wv).thr = wv.thr :=
  foldl_keeps (fun v : Wave => v.thr = wv.thr) Wave.jKeep (fun _ _ h => h) rids wv rfl
@[simp] theorem Wave.jKeep_fold_ix (rids : List Nat) (wv : Wave) : (rids.foldl (·.jKeep ·) wv).ix = wv.ix :=
  foldl_keeps (fun v : Wave => v.ix = wv.ix) Wave.jKeep (fun _ _ h => h) rids wv rfl

theorem State.wave?_updWave_of {s : State} {tag w : Nat} {wv : Wave} {f : Wave → Wave} (hw : s.wave? tag w = some wv) (hf : ∀ x, (f x).ix = x.ix) :
    (s.updWave tag w f).wave? tag w = some (f wv) := by
  rw [State.wave?_updWave _ _ _ _ _ _ hf, if_pos ⟨rfl, rfl⟩, hw]
  rfl

/-- Step 3 of runs that reserve no binding, free no record and met no texture miss: their stores are visible, and the runs are gone. -/
theorem State.commitStep3_plain {s : State} {t : Team} {wv : Wave} (hw : s.wave? t.tag wv.ix = some wv) (sys : Bool) (g : Grp)
    (hpl : ∀ r ∈ g.rs, r.tex = [] ∧ r.bdone = [] ∧ ∀ b ∈ (s.part t.part).shadows, b.resBy ≠ some r.rid) :
    let u := s.commitStep3 t wv sys g
    u.mem = (s.visible t sys g.rs).mem ∧ u.lines = (s.visible t sys g.rs).lines ∧ u.gangs = s.gangs ∧
      ∃ v, u.wave? t.tag wv.ix = some v ∧ v.thr = wv.thr ∧ ∀ r ∈ v.regions, r.rid ∉ g.rids := by
  have hv := s.shows_visible t sys g.rs
  unfold commitStep3
  dsimp only
  generalize s.visible t sys g.rs = s1 at hv
  have hw1 : ∃ rs, (s1.markLost t wv.ix sys g.rs).wave? t.tag wv.ix = some { wv with regions := rs } := by
    unfold markLost
    exact ⟨_, State.wave?_updWave_of ((hv.waves _ _).trans hw) (fun _ => by exact rfl)⟩
  obtain ⟨rs, hw1⟩ := hw1
  have hfree : ∀ b ∈ (s1.part t.part).shadows, ∀ i ∈ g.rids, b.resBy ≠ some i := by
    intro b hb i hi
    obtain ⟨r, hr, rfl⟩ := List.mem_map.1 hi
    obtain ⟨-, -, hs⟩ := hpl r hr
    exact hs b (hv.shadows t.part ▸ hb)
  have h2 : (s1.markLost t wv.ix sys g.rs).Shown t.part g.rids (s1.markLost t wv.ix sys g.rs) := ⟨rfl, rfl, fun _ _ => rfl, rfl, hfree⟩
  have hm2 : (s1.markLost t wv.ix sys g.rs).mem = s1.mem ∧ (s1.markLost t wv.ix sys g.rs).lines = s1.lines ∧
    (s1.markLost t wv.ix sys g.rs).gangs = s.gangs := ⟨rfl, rfl, hv.gangs⟩
  generalize s1.markLost t wv.ix sys g.rs = s2 at hw1 h2 hm2
  obtain ⟨hm, hl, hg⟩ := hm2
  have h3 : s2.Shown t.part g.rids (g.rs.foldl (fun s r => (s.engineCommit t r).beamCommit t r) s2) :=
    List.foldlRecOn g.rs _ h2 (fun u hu r hr =>
      (hu.engineCommit t rfl r (List.mem_map_of_mem hr)).beamCommit t r (hpl r hr).2.1)
  have h4 : s2.Shown t.part g.rids (g.rs.foldl (fun s r => r.tex.foldl (fun s m => s.texMiss t sys m) s)
      (g.rs.foldl (fun s r => (s.engineCommit t r).beamCommit t r) s2)) :=
    List.foldlRecOn g.rs _ h3 (fun u hu r hr => by rw [(hpl r hr).1]; exact hu)
  generalize g.rs.foldl (fun (s : State) (r : Region) => r.tex.foldl (fun (s : State) m => s.texMiss t sys m) s) _ = s4 at h4
  refine ⟨h4.mem.trans hm, h4.lines.trans hl, h4.gangs.trans hg, ?_⟩
  refine ⟨_, State.wave?_updWave_of ((h4.waves _ _).trans hw1) (fun x => by exact Wave.jKeep_fold_ix _ x), Wave.jKeep_fold_thr _ _, fun r hr => ?_⟩
  have := (List.mem_filter.1 hr).2
  simpa using this

/-! ### EXIT (R149) -/

/-- What the barriers of a team change in it: waits of its waves (R373). -/
def Team.Released (t u : Team) : Prop :=
  u.tag = t.tag ∧ ∀ w wv, t.wave? w = some wv → ∃ x y, u.wave? w = some { wv with waits := x, keptOver := y }
theorem Team.Released.release {t u : Team} (h : t.Released u) (bs : List Bar) (f : Wait → Bool) :
    t.Released { u with bars := bs, waves := u.waves.map (·.release f) } := by
  obtain ⟨htag, hw⟩ := h
  refine ⟨htag, fun w wv e => ?_⟩
  obtain ⟨x, y, hu⟩ := hw w wv e
  refine ⟨x.filter (fun x => !f x.2), y ++ (wv.keptW.filter (fun x => f x.2)).map (·.1), ?_⟩
  simp only [Team.wave?] at hu
  simp only [Team.wave?, List.find?_map, Function.comp_def, Wave.release, hu, Option.map_some]
theorem State.wave?_updTeam_released {s : State} {tag w : Nat} {wv : Wave} {f : Team → Team} (hf : ∀ t : Team, t.Released (f t))
    (hw : s.wave? tag w = some wv) : ∃ x y, (s.updTeam tag f).wave? tag w = some { wv with waits := x, keptOver := y } := by
  obtain ⟨t, ht, hw⟩ := Option.bind_eq_some_iff.1 hw
  simp only [wave?, State.team?_updTeam _ _ _ _ (fun t => (hf t).1), if_true, ht, Option.map_some, Option.bind_some]
  exact (hf t).2 w wv hw
theorem State.barsTeam_wave {s : State} {tag w : Nat} {wv : Wave} (hw : s.wave? tag w = some wv) :
    ∃ x y, (s.barsTeam tag).wave? tag w = some { wv with waits := x, keptOver := y } := by
  refine State.wave?_updTeam_released (fun t => foldl_keeps t.Released _ (fun u j h => ?_) _ _ ⟨rfl, fun w wv h => ⟨wv.waits, wv.keptOver, h⟩⟩) hw
  dsimp only
  split
  · exact h.release _ _
  · exact h
/-- A gang at whose barriers nobody has arrived has none to complete. -/
theorem State.barsGang_idle {s : State} {gid : Nat} (h : ∀ g, s.gang? gid = some g → ∀ b ∈ g.nbars, b.arrived = []) : s.barsGang gid = s := by
  have one (j : Nat) : (s.nbarRelease gid j).nbarComplete gid j = s := by
    have hb (g : Gang) (hg : s.gang? gid = some g) : (g.nbars.getD j Bar.reset).arrived = [] := by
      rw [List.getD_eq_getElem?_getD]
      cases e : g.nbars[j]? with
      | none => rfl
      | some b => exact h g hg b (List.mem_of_getElem? e)
    have hr : s.nbarRelease gid j = s := by
      unfold nbarRelease
      split
      · rfl
      · next g hg => simp only [hb g hg, if_true]
    rw [hr]
    unfold nbarComplete
    split
    · rfl
    · next g hg => simp only [hb g hg, ne_eq, not_true_eq_false, false_and, if_false]
  unfold barsGang
  exact List.foldlRecOn (motive := fun u => u = s) _ _ rfl (fun u hu j _ => by rw [hu]; exact one j)

/-- The wave once the active threads of an EXIT have exited (R149, R408). -/
def Wave.exits (wv : Wave) (m : Lanes) : Wave :=
  let wv := wv.mapThr m (fun _ x => { x with exited := true, hold := none })
  if wv.handler && !wv.lives then { wv with handler := false, kept := [], keptW := [], keptOver := [] } else wv
@[simp] theorem Wave.exits_ix (wv : Wave) (m : Lanes) : (wv.exits m).ix = wv.ix := by
  unfold exits; dsimp only; split <;> rfl
theorem Wave.exits_thr (wv : Wave) (m : Lanes) : (wv.exits m).thr = (wv.mapThr m (fun _ x => { x with exited := true, hold := none })).thr := by
  unfold exits; dsimp only; split <;> rfl
theorem Wave.mapThr_thread (wv : Wave) (m : Lanes) (f : Nat → Thread → Thread) {n : Nat} (hn : n < wv.thr.length) :
    (wv.mapThr m f).thread n = if m.getLsbD n then f n (wv.thread n) else wv.thread n := by
  simp [mapThr, thread, List.getD_eq_getElem?_getD, hn]

/-- EXIT performs: the active threads have exited, and where nobody waits at a barrier of the gang memory and its caches stand as they did. -/
theorem State.exitPerform_wave {s : State} {t : Team} {w : Nat} {e : EndOp} {wv : Wave} (hw : s.wave? t.tag w = some wv)
    (hidle : ∀ g, s.gang? t.gid = some g → ∀ b ∈ g.nbars, b.arrived = []) :
    let u := s.exitPerform t w e
    u.mem = s.mem ∧ u.lines = s.lines ∧ ∃ v, u.wave? t.tag w = some v ∧ v.thr = (wv.exits e.lanes).thr := by
  have hx : s.exitPerform t w e = ((s.updWave t.tag w (·.exits e.lanes)).abandon
      (fun h => h.1 == t.tag && h.2.1 == w && e.lanes.getLsbD h.2.2)).barsTeam t.tag := by
    unfold exitPerform barriers
    exact State.barsGang_idle hidle
  rw [hx]
  have h1 := State.wave?_updWave_of (f := (·.exits e.lanes)) hw (fun x => x.exits_ix _)
  obtain ⟨x, y, h2⟩ := State.barsTeam_wave (s := (s.updWave t.tag w (·.exits e.lanes)).abandon
      (fun h => h.1 == t.tag && h.2.1 == w && e.lanes.getLsbD h.2.2)) h1
  exact ⟨rfl, rfl, _, h2, rfl⟩

/-! ### A commit, outcome by outcome -/

section
variable {s : State} {t : Team} {wv : Wave} {sys : Bool} {g : Grp}
/-- What step 2 finds for a group. -/
def State.found (s : State) (t : Team) (wv : Wave) (sys : Bool) (g : Grp) : List Found :=
  s.foundRuns t sys g ++ g.acts.elim [] (fun e => s.foundOwn (s.ownView t sys g e) t wv sys g e)
theorem commitGrp_stop (h : s.found t wv sys g ≠ []) : s.commitGrp t wv sys g = some (s.commitStop t wv.ix (s.found t wv sys g)) := by
  unfold State.commitGrp
  exact if_pos h
theorem commitGrp_plain (h : s.found t wv sys g = []) (ha : g.acts = none) :
    s.commitGrp t wv sys g = some ((s.commitStep3 t wv sys g).settle t.tag wv.ix) := by
  unfold State.found at h
  unfold State.commitGrp
  simp only [h, ne_eq, not_true_eq_false, if_false]
  rw [ha]
/-- With a region-ending instruction that waits for nothing before step 3. -/
theorem commitGrp_acts {e : EndOp} (h : s.found t wv sys g = []) (ha : g.acts = some e) (hb : s.beforeStep3 t wv g e = .go s (some e)) :
    s.commitGrp t wv sys g = some (((s.commitStep3 t wv sys g).commitStep4 (s.ownView t sys g e) t wv sys g e).settle t.tag wv.ix) := by
  unfold State.found at h
  unfold State.commitGrp
  simp only [h, ne_eq, not_true_eq_false, if_false]
  rw [ha]
  simp only [hb]
theorem commitGrp_notYet {e : EndOp} (h : s.found t wv sys g = []) (ha : g.acts = some e) (hb : s.beforeStep3 t wv g e = .notYet) :
    s.commitGrp t wv sys g = none := by
  unfold State.found at h
  unfold State.commitGrp
  simp only [h, ne_eq, not_true_eq_false, if_false]
  rw [ha]
  simp only [hb]
end

/-- The run of a slice has ended and everything that its commit waits for at step 1 has completed. -/
structure State.CommitDue (s : State) (sl : Nat) (t : Team) (wv : Wave) (g : Grp) : Prop where
  team : s.team? t.tag = some t
  wave : t.wave? wv.ix = some wv
  grp : wv.group sl = some g
  placed : s.placed t = true
  live : t.retired = false
  drained : wv.drained g = true

namespace State.CommitDue
variable {s : State} {sl : Nat} {t : Team} {wv : Wave} {g : Grp} (h : s.CommitDue sl t wv g)
include h
theorem wave? : s.wave? t.tag wv.ix = some wv := State.wave?_of_team h.team h.wave
/-- The commit where no part of the group goes ahead. -/
theorem exec_alone (ha : g.ahead = none) : exec (.regionCommit t.tag wv.ix sl) s =
    (s.commitGrp t wv (t.sys || wv.handler) g).elim (.refused (.notEnabled "REGION_COMMIT")) .next := by
  show execRegionCommit t.tag wv.ix sl s = _
  simp only [execRegionCommit, h.team, h.wave?, h.grp, h.placed, h.live, h.drained, Bool.not_true, Bool.or_self, Bool.false_eq_true, if_false, ha]
  cases s.commitGrp t wv (t.sys || wv.handler) g <;> rfl
/-- The commit where the runs of other slices go ahead of the one that reads. -/
theorem exec_ahead {g1 g2 : Grp} (ha : g.ahead = some (g1, g2)) : exec (.regionCommit t.tag wv.ix sl) s =
    (if s.foundRuns t (t.sys || wv.handler) g1 ≠ [] then .next (s.commitStop t wv.ix (s.foundRuns t (t.sys || wv.handler) g1))
     else
      ((s.commitStep3 t wv (t.sys || wv.handler) g1).commitGrp t (((s.commitStep3 t wv (t.sys || wv.handler) g1).wave? t.tag wv.ix).getD wv)
        (t.sys || wv.handler) g2).elim (.refused (.notEnabled "REGION_COMMIT")) .next) := by
  show execRegionCommit t.tag wv.ix sl s = _
  simp only [execRegionCommit, h.team, h.wave?, h.grp, h.placed, h.live, h.drained, Bool.not_true, Bool.or_self, Bool.false_eq_true, if_false, ha]
  split
  · rfl
  · generalize State.commitGrp _ _ _ _ _ = x
    cases x <;> rfl
end State.CommitDue

/-- A wave found by its number has that number. -/
theorem State.wave?_ix {s : State} {tag w : Nat} {wv : Wave} (h : s.wave? tag w = some wv) : wv.ix = w := by
  obtain ⟨t, -, h⟩ := Option.bind_eq_some_iff.1 h
  simpa using List.find?_some h
theorem Grp.ahead_none_iff (g : Grp) : g.ahead = none ↔ ∀ e, g.acts = some e → Instr.readsOnce e.instr = true → ∀ r ∈ g.rs, r.sl = lowest e.lanes / 4 := by
  unfold ahead
  cases g.acts with
  | none => simp
  | some e => simp
/-- What goes ahead leaves the run that acts, with its instruction, which is one that reads. -/
theorem Grp.ahead_some {g g1 g2 : Grp} {e : EndOp} (ha : g.acts = some e) (h : g.ahead = some (g1, g2)) :
    Instr.readsOnce e.instr = true ∧ g2.acts = some e := by
  unfold ahead at h
  rw [ha] at h
  dsimp only at h
  split at h
  · next hc =>
    simp only [Option.some.injEq, Prod.mk.injEq] at h
    obtain ⟨-, rfl⟩ := h
    exact ⟨(Bool.and_eq_true_iff.1 hc).1, ha⟩
  · cases h
end Sys2Proof.Machine
namespace Sys2Proof.Machine
/-- Region-ending instructions that wait for something between steps 2 and 3. -/
def Instr.waitsToCommit : Instr → Bool
  | .slin .. | .slrst .. | .slrstDel .. | .slqry .. | .send .. | .recv .. | .gsig .. => true
  | _ => false
theorem State.beforeStep3_go {s : State} {t : Team} {wv : Wave} {g : Grp} {e : EndOp} (h : Instr.waitsToCommit e.instr = false) :
    s.beforeStep3 t wv g e = .go s (some e) := by
  unfold beforeStep3
  generalize e.instr = i at h
  cases i <;> cases h <;> rfl
end Sys2Proof.Machine

namespace Sys2Proof.Machine
section
variable {s : State} {sl : Nat} {t : Team} {wv : Wave} {g : Grp} (h : s.CommitDue sl t wv g)
include h

/-- With no region-ending instruction the commit is step 3 alone. -/
theorem State.CommitDue.exec_plain (hf : s.found t wv (t.sys || wv.handler) g = []) (ha : g.acts = none) :
    exec (.regionCommit t.tag wv.ix sl) s = .next ((s.commitStep3 t wv (t.sys || wv.handler) g).settle t.tag wv.ix) := by
  rw [h.exec_alone ((Grp.ahead_none_iff g).2 (fun e he => by rw [ha] at he; cases he)), commitGrp_plain hf ha]
  rfl
/-- With one that waits for nothing, step 4 follows step 3. -/
theorem State.CommitDue.exec_acts {e : EndOp} (hal : g.ahead = none) (hf : s.found t wv (t.sys || wv.handler) g = []) (ha : g.acts = some e)
    (hw : Instr.waitsToCommit e.instr = false) :
    exec (.regionCommit t.tag wv.ix sl) s = .next (((s.commitStep3 t wv (t.sys || wv.handler) g).commitStep4
      (s.ownView t (t.sys || wv.handler) g e) t wv (t.sys || wv.handler) g e).settle t.tag wv.ix) := by
  rw [h.exec_alone hal, commitGrp_acts hf ha (State.beforeStep3_go hw)]
  rfl
/-- SEND and RECV commit exactly when their launder is ready (R378). -/
theorem State.CommitDue.exec_launder {e : EndOp} {b : Bool} (hf : s.found t wv (t.sys || wv.handler) g = []) (ha : g.acts = some e)
    (n : BitVec 4) (hal : Instr.readsOnce e.instr = false)
    (hb : s.beforeStep3 t wv g e = if s.launderReady t n.toNat b then .go s (some e) else .notYet) :
    (∃ u, exec (.regionCommit t.tag wv.ix sl) s = .next u) ↔ s.launderReady t n.toNat b = true := by
  rw [h.exec_alone ((Grp.ahead_none_iff g).2 (fun x hx hr => by rw [ha] at hx; cases hx; rw [hal] at hr; cases hr))]
  cases hl : s.launderReady t n.toNat b with
  | true =>
    rw [hl] at hb
    rw [commitGrp_acts hf ha hb]
    exact ⟨fun _ => rfl, fun _ => ⟨_, rfl⟩⟩
  | false =>
    rw [hl] at hb
    rw [commitGrp_notYet hf ha hb]
    exact ⟨fun ⟨_, hu⟩ => (nomatch hu), fun hc => (nomatch hc)⟩
end
end Sys2Proof.Machine

/-- Settles O38: the branches of the commit one by one; the runs of a plain group leave nothing but their stores, whose showing keeps the waves,
the gangs and the bindings. -/
theorem regionCommit : Obligations.RegionCommit := by
  unfold Obligations.RegionCommit
  rintro s _ _ sl t wv g hteam hwave rfl rfl hgrp hpl hlive hdr
  intro sys finds found waits plain gone
  have h : s.CommitDue sl t wv g := ⟨hteam, hwave, hgrp, hpl, hlive, hdr⟩
  have hfound : found = s.found t wv sys g := rfl
  have hwaits (i : Instr) : Instr.waitsToCommit i = waits i := by cases i <;> rfl
  have hgone (u : State) (hu : u.mem = (s.visible t sys g.rs).mem ∧ u.lines = (s.visible t sys g.rs).lines ∧
      ∃ v, u.wave? t.tag wv.ix = some v ∧ ∀ r ∈ v.regions, r.rid ∉ g.rids) : gone (u.settle t.tag wv.ix) := by
    obtain ⟨hm, hl, v, hv, hr⟩ := hu
    exact ⟨hm, hl, v, settle_wave _ _ _ _ hv, hr⟩
  have hahead {e : EndOp} (ha : g.acts = some e) (hr : Instr.readsOnce e.instr = false) : g.ahead = none :=
    (Grp.ahead_none_iff g).2 (fun x hx hc => by rw [ha] at hx; cases hx; rw [hr] at hc; cases hc)
  refine ⟨fun hal hf => ?_, fun hf ha => h.exec_plain hf ha, fun e hal hf ha hw => h.exec_acts hal hf ha ((hwaits _).trans hw),
    fun e g1 g2 ha hal => ?_, Grp.ahead_none_iff g, fun e hd d a n hf ha hi => ?_, fun hf hp ha => ?_, fun e hd hf hp ha hi => ?_,
    fun e hd hf hp ha hi hlen hidle => ?_⟩
  · rw [h.exec_alone hal, commitGrp_stop hf]
    rfl
  · obtain ⟨hr, ha2⟩ := Grp.ahead_some ha hal
    intro s1 wv1 first
    have hix : wv1.ix = wv.ix := by
      show ((s1.wave? t.tag wv.ix).getD wv).ix = wv.ix
      cases hw1 : s1.wave? t.tag wv.ix with
      | none => rfl
      | some x => exact State.wave?_ix hw1
    have hnw : Instr.waitsToCommit e.instr = false := by
      generalize e.instr = i at hr
      cases i <;> cases hr <;> rfl
    have hex := h.exec_ahead hal
    refine ⟨fun hf => ?_, fun hf hf2 => ?_, fun hf hf2 => ?_⟩
    · rw [hex]
      exact if_pos hf
    · rw [hex, if_neg (fun hc => hc hf), commitGrp_stop (g := g2) hf2]
      exact congrArg (fun w => Host.Outcome.next (s1.commitStop t w (finds s1 wv1 g2))) hix
    · rw [hex, if_neg (fun hc => hc hf), commitGrp_acts (g := g2) hf2 ha2 (State.beforeStep3_go hnw)]
      exact congrArg (fun w => Host.Outcome.next (State.settle _ t.tag w)) hix
  · rcases hi with hi | hi
    · rw [hi]
      exact h.exec_launder hf ha n (by rw [hi]; rfl) (by unfold State.beforeStep3; rw [hi])
    · rw [hi]
      exact h.exec_launder hf ha n (by rw [hi]; rfl) (by unfold State.beforeStep3; rw [hi])
  · obtain ⟨hm, hl, -, v, hv, -, hr⟩ := State.commitStep3_plain h.wave? sys g hp
    exact ⟨_, h.exec_plain hf ha, hgone _ ⟨hm, hl, v, hv, hr⟩⟩
  · obtain ⟨hm, hl, -, v, hv, -, hr⟩ := State.commitStep3_plain h.wave? sys g hp
    refine ⟨_, h.exec_acts (hahead ha (by rw [hi]; rfl)) hf ha (by rw [hi]; rfl), ?_⟩
    have h4 : (s.commitStep3 t wv sys g).commitStep4 (s.ownView t sys g e) t wv sys g e =
        (s.commitStep3 t wv sys g).updWave t.tag wv.ix (fun wv => { wv with young := true }) := by
      unfold State.commitStep4
      rw [hi]
      rfl
    rw [h4]
    have hy := State.wave?_updWave_of (f := fun wv => { wv with young := true }) hv (fun _ => rfl)
    obtain ⟨x, y, z, hs⟩ := Wave.settle_eq 4 { v with young := true }
    exact ⟨hgone _ ⟨hm, hl, _, hy, hr⟩, _, settle_wave _ _ _ _ hy, by rw [hs]⟩
  · obtain ⟨hm, hl, hg, v, hv, hthr, -⟩ := State.commitStep3_plain h.wave? sys g hp
    have h4 : (s.commitStep3 t wv sys g).commitStep4 (s.ownView t sys g e) t wv sys g e = (s.commitStep3 t wv sys g).exitPerform t wv.ix e := by
      unfold State.commitStep4
      rw [hi]
      rfl
    obtain ⟨hm5, hl5, x, hx, hthr5⟩ := State.exitPerform_wave (e := e) hv (fun gg hgg => hidle gg (by rw [← hgg]; simp only [State.gang?, hg]))
    refine ⟨_, x, h.exec_acts (hahead ha (by rw [hi]; rfl)) hf ha (by rw [hi]; rfl), ?_⟩
    rw [h4]
    generalize (s.commitStep3 t wv sys g).exitPerform t wv.ix e = u at hm5 hl5 hx
    refine ⟨hm5.trans hm, hl5.trans hl, settle_wave _ _ _ _ hx, fun n hn => ?_⟩
    have hxn : x.thread n = (v.mapThr e.lanes (fun _ x => { x with exited := true, hold := none })).thread n := by
      unfold Wave.thread
      rw [hthr5, Wave.exits_thr]
    have hvn : v.thread n = wv.thread n := by unfold Wave.thread; rw [hthr]
    rw [hxn, Wave.mapThr_thread _ _ _ (by rw [hthr, hlen]; exact hn), hvn]
    cases e.lanes.getLsbD n <;> simp

end

section
/-! PROOFS. What traps, teardown, retirement and pre-emption keep, said once. -/
open Sys2Proof Sys2Proof.Machine

namespace Sys2Proof.Machine

/-! ### What traps, teardown and retirement keep

A property of the device that every change they make keeps, they keep: said once for all of them, as `CacheKeeps` says it for accesses. -/

/-- A team that has retired and freed what it held (R424). -/
def Team.Gone (t : Team) : Prop := t.retired = true ∧ t.waves = [] ∧ t.sramLen = 0
/-- A property that accesses keep, and changes of the records of teams (a retired one staying so), partitions, grids and keys. -/
structure TeamKeeps (P : State → Prop) : Prop extends CacheKeeps P where
  team : ∀ s tag f, (∀ t, (f t).tag = t.tag ∧ (t.Gone → (f t).Gone)) → P s → P (s.updTeam tag f)
  part : ∀ s p f, P s → P (s.updPart p f)
  grid : ∀ s id f, P s → P (s.updGrid id f)
  keys : ∀ (s : State) l, P s → P { s with keys := l }
  free : ∀ (s : State) n, P s → P { s with free := n }
  msix : ∀ (s : State) l m, P s → P { s with msixPend := l, msgs := m }
/-- And changes of the records of gangs: a parked one may return; another changes only where it stands on its cores while the property holds. -/
structure WorkKeeps (P : State → Prop) : Prop extends TeamKeeps P where
  unpark : ∀ s, P s → P s.unpark
  gang : ∀ (u v : State) gid f, P u → ((u.gang? gid).elim .placed (·.st) = .placed ∨ (u.gang? gid).elim .placed (·.st) = .leaving) →
    (∀ g, (f g).gid = g.gid) → P v → P (v.updGang gid f)

namespace TeamKeeps
variable {P : State → Prop} (h : TeamKeeps P)
include h

theorem wave (s : State) (tag w : Nat) (f : Wave → Wave) (p : P s) : P (s.updWave tag w f) :=
  h.team s tag _ (fun t => ⟨rfl, fun ⟨a, b, c⟩ => ⟨a, by simp [Team.updWave, b], c⟩⟩) p
theorem sendMsix (s : State) (v : Nat) (p : P s) : P (s.sendMsix v) := by
  unfold State.sendMsix
  split
  · exact p
  · split
    · exact h.msix s _ s.msgs p
    · exact h.msix s s.msixPend _ p
theorem ringMsix (s : State) (q en lo : Nat) (p : P s) : P (s.ringMsix q en lo) := by
  unfold State.ringMsix
  dsimp only
  split
  · exact h.sendMsix _ _ p
  · exact p
theorem postError (s : State) (q : Nat) (e : ErrRec) (p : P s) : P (s.postError q e) := by
  unfold State.postError
  dsimp only
  split
  · exact h.part _ _ _ p
  · split
    · exact h.part _ _ _ p
    · next hw => exact h.ringMsix _ _ _ _ (h.part _ _ _ (h.part _ _ _ (h.toCacheKeeps.writeVia _ _ _ _ _ _ _ _ p hw)))
theorem meterTeam (s : State) (tag : Nat) (p : P s) : P (s.meterTeam tag) :=
  h.free _ _ (h.team s tag _ (fun _ => ⟨rfl, fun g => g⟩) p)
theorem trueUp (s : State) (tag : Nat) (p : P s) : P (s.trueUp tag) := by
  unfold State.trueUp
  dsimp only
  split
  · exact h.team _ _ _ (fun _ => ⟨rfl, fun g => g⟩) (h.grid _ _ _ (h.part _ _ _ (h.meterTeam _ _ p)))
  · exact h.meterTeam _ _ p
theorem abort1 (s : State) (tag w : Nat) (r : Region) (p : P s) : P (s.abort1 tag w r) :=
  h.keys _ _ (h.part _ _ _ (h.team s tag _ (fun t => ⟨rfl, fun ⟨a, b, c⟩ => ⟨a, by simp [Team.updWave, b], c⟩⟩) p))
theorem abort (s : State) (tag w : Nat) (sls : List Nat) (p : P s) : P (s.abort tag w sls).1 := by
  unfold State.abort
  split
  · exact p
  · have hm (f : Team → Team) (hf : ∀ t, (f t).tag = t.tag ∧ (t.Gone → (f t).Gone)) (rs : List Region) :
        P (rs.foldl (fun s r => s.abort1 tag w r) (s.updTeam tag f)) :=
      foldl_keeps P _ (fun s r => h.abort1 s tag w r) _ _ (h.team s tag f hf p)
    have hx (b : Bool) (x y : State × List Nat) (px : P x.1) (py : P y.1) : P (if b then x else y).1 := by cases b <;> assumption
    have hf (rids : List Nat) (t : Team) : ({ t with pool := t.pool.map (fun x => (x.1, x.2.undo rids)) } : Team).tag = t.tag ∧
        (t.Gone → ({ t with pool := t.pool.map (fun x => (x.1, x.2.undo rids)) } : Team).Gone) := ⟨rfl, fun g => g⟩
    exact hx _ _ _ (h.wave _ _ _ _ (hm _ (hf _) _)) (hm _ (hf _) _)
theorem finishPend (s : State) (tag w : Nat) (q : Pend) (ws : List RegW) (fl : BitVec 8) (p : P s) : P (s.finishPend tag w q ws fl) :=
  h.free _ _ (h.team s tag _ (fun t => ⟨rfl, fun ⟨a, b, c⟩ => ⟨a, by simp [Team.cleanRegs, Team.updWave, b], c⟩⟩) p)
theorem flushSfu (s : State) (tag w : Nat) (p : P s) : P (s.flushSfu tag w) := by
  unfold State.flushSfu
  split
  · exact p
  · exact foldl_keeps P _ (fun s q => h.finishPend s tag w q q.wr q.flags) _ _ p
theorem leaveCore (s : State) (tag : Nat) (p : P s) : P (s.leaveCore tag) := by
  unfold State.leaveCore
  split
  · exact h.toCacheKeeps.dropLines _ _ p
  · exact p
theorem freeTeam (s : State) (tag : Nat) (p : P s) : P (s.freeTeam tag) :=
  h.team _ _ _ (fun _ => ⟨rfl, fun _ => ⟨rfl, rfl, rfl⟩⟩) (h.leaveCore _ _ p)
theorem abandon (s : State) (f : Nat × Nat × Nat → Bool) (p : P s) : P (s.abandon f) := h.keys _ _ p
theorem writePieces (s u : State) (t : Team) (base : Nat) (ps : List (Nat × List Byte)) (p : P s) (w : s.writePieces t base ps = some u) : P u := by
  unfold State.writePieces at w
  split at w
  · cases w
    exact foldl_keeps P _ (fun s x q => h.toCacheKeeps.writeBy _ _ _ _ _ _ _ q) _ _ p
  · cases w
theorem writeFrame (s u : State) (t : Team) (base : Nat) (wv : Wave) (faddr : DWord) (vr sr : Nat) (p : P s)
    (w : s.writeFrame t base wv faddr vr sr = some u) : P u := by
  unfold State.writeFrame at w
  split at w
  · cases w
  · next s1 h1 =>
    have hs := h.writePieces s s1 t base _ p h1
    simp only [Option.some.injEq] at w
    subst w
    cases e : s1.writePieces t base (List.filter (s1.pieceOk t base) (frameOpen s.free vr sr)) with
    | none => exact hs
    | some v => exact h.writePieces s1 v t base _ hs e
/-- A gang that begins to leave its cores (R412), where the property does not speak of the gang. -/
theorem preempt (s : State) (gid : Nat) (hg : ∀ v f, (∀ g, (f g).gid = g.gid) → P v → P (v.updGang gid f)) (p : P s) : P (s.preempt gid) := by
  unfold State.preempt
  dsimp only
  refine hg _ _ (fun g => by split <;> rfl) (foldl_keeps P _ (fun s t p => foldl_keeps P _ (fun s wv p => ?_) _ s p) _ _ p)
  exact h.wave _ _ _ _ (h.flushSfu _ _ _ (h.abort _ _ _ _ p))
end TeamKeeps

namespace WorkKeeps
variable {P : State → Prop} (h : WorkKeeps P)
include h

theorem gridRetire (s : State) (g : Grid) (p : P s) : P (s.gridRetire g) := by
  have p1 := h.grid s g.id (fun g => { g with fin := true }) p
  unfold State.gridRetire
  dsimp only
  split
  · split
    · exact h.unpark _ (h.team _ _ _ (fun _ => ⟨rfl, fun g => g⟩) p1)
    · exact h.unpark _ p1
  · exact h.part _ _ _ p1
theorem gridsRetire : ∀ (n : Nat) (s : State), P s → P (s.gridsRetire n)
  | 0, _, p => p
  | n + 1, s, p => by
    unfold State.gridsRetire
    split
    · exact gridsRetire n _ (h.gridRetire _ _ p)
    · exact p
theorem afterEnd (s : State) (p : P s) : P s.afterEnd := h.gridsRetire 11 s p
/-- Teardown of a gang that may change. -/
theorem teardown (s : State) (gid who cause flg addr : Nat) (hg : ∀ v f, (∀ g, (f g).gid = g.gid) → P v → P (v.updGang gid f)) (p : P s) :
    P (s.teardown gid who cause flg addr) := by
  unfold State.teardown
  split
  · exact p
  · dsimp only
    refine h.afterEnd _ (h.grid _ _ _ (hg _ _ (fun _ => by exact rfl) ?_))
    refine foldl_keeps P _ (fun s (t : Team) => h.freeTeam s t.tag) _ _ (foldl_keeps P _ (fun s (t : Team) => h.postError s _ _) _ _
      (foldl_keeps P _ (fun s (t : Team) => h.trueUp s t.tag) _ _ (h.abandon _ _ ?_)))
    exact foldl_keeps P _ (fun s (t : Team) => foldl_keeps P _ (fun s (wv : Wave) => foldl_keeps P _ (fun s r => h.abort1 s t.tag wv.ix r) _ s) _ s) _ _ p
theorem enterTrap (s : State) (tag w : Nat) (p : P s) : P (s.enterTrap tag w) := by
  unfold State.enterTrap
  split
  · next t wv _ _ =>
    split
    · exact p
    · next q _ =>
      dsimp only
      split
      · exact p
      · next hst =>
        have hg : (s.gang? t.gid).elim .placed (·.st) = .placed ∨ (s.gang? t.gid).elim .placed (·.st) = .leaving := by
          by_cases h1 : (s.gang? t.gid).elim .placed (·.st) = GangSt.placed
          · exact .inl h1
          · right
            by_contra h2
            exact hst (by simp [h1, h2])
        have td := fun who cause flg addr => h.teardown s t.gid who cause flg addr (fun v f hf q => h.gang s v t.gid f p hg hf q) p
        split
        · exact td ..
        · split
          · exact td ..
          · split
            · exact p
            · split
              · exact td ..
              · next hw =>
                refine h.team _ _ _ (fun t => ⟨rfl, fun ⟨a, b, c⟩ => ⟨a, ?_, c⟩⟩) (h.writeFrame s _ _ _ _ _ _ _ p hw)
                simp [Team.updWave, b]
  · exact p
/-- A quiesce that completes (R423). -/
theorem qctlSettle (s : State) (p : P s) : P s.qctlSettle := by
  unfold State.qctlSettle
  refine foldl_keeps P _ (fun s t p => foldl_keeps P _ (fun s wv p => foldl_keeps P _ (fun s q p => ?_) _ s p) _ s p) _ _ p
  split
  · split
    · exact h.enterTrap _ _ _ (h.finishPend _ _ _ _ _ _ p)
    · exact p
  · exact p
end WorkKeeps
end Sys2Proof.Machine

end

section
/-! PROOFS. Placement, pre-emption and retirement (O58). -/
open Sys2Proof Sys2Proof.Machine

namespace Sys2Proof.Machine

/-! ### TEAM_RETIRE (R424) -/

/-- The team of a tag is there, and has retired and holds nothing if `b`. -/
def State.HasTeam (s : State) (tag : Nat) (b : Bool) : Prop := ∃ t, s.team? tag = some t ∧ (b = true → t.Gone)
theorem hasTeam_keeps (tag : Nat) (b : Bool) : WorkKeeps (fun u => u.HasTeam tag b) where
  put := fun _ _ _ h => h
  lose := fun s lo hi h => by unfold State.memLose; split <;> exact h
  bad := fun _ _ _ h => h
  lines := fun _ _ h => h
  stamp := fun _ _ h => h
  upds := fun _ _ h => h
  due := fun _ _ h => h
  ats := fun _ _ h => h
  tlb := fun _ _ _ h => h
  spill := fun _ _ h => h
  team := fun s k f hf ⟨t, ht, hg⟩ => by
    unfold State.HasTeam
    rw [State.team?_updTeam s k tag f (fun t => (hf t).1), ht]
    split
    · exact ⟨f t, rfl, fun e => (hf t).2 (hg e)⟩
    · exact ⟨t, rfl, hg⟩
  part := fun _ _ _ h => h
  grid := fun _ _ _ h => h
  keys := fun _ _ h => h
  free := fun _ _ h => h
  msix := fun _ _ _ h => h
  unpark := fun _ h => h
  gang := fun _ _ _ _ _ _ _ h => h

theorem State.team?_mapTeams (s : State) (f : Team → Team) (hf : ∀ t, (f t).tag = t.tag) (k : Nat) :
    ({ s with teams := s.teams.map f } : State).team? k = (s.team? k).map f := by
  simp only [State.team?, List.find?_map, Function.comp_def, hf]
theorem State.hasTeam_nbarComplete {s : State} {tag : Nat} {b : Bool} (gid j : Nat) (p : s.HasTeam tag b) : (s.nbarComplete gid j).HasTeam tag b := by
  unfold nbarComplete
  split
  · exact p
  · dsimp only
    split
    · obtain ⟨t, ht, hg⟩ := foldl_keeps (fun u : State => u.HasTeam tag b) (fun s (t : Team) => s.acquire (some t.core) 2)
        (fun s t p => (hasTeam_keeps tag b).acquire s _ _ p) (s.teamsOf gid) s p
      refine ⟨_, (State.team?_mapTeams _ _ (fun t => by split <;> rfl) tag).trans (congrArg (Option.map _) ht), fun e => ?_⟩
      obtain ⟨hr, hw, hl⟩ := hg e
      dsimp only
      split
      · exact ⟨hr, by simp [hw], hl⟩
      · exact ⟨hr, hw, hl⟩
    · exact p
theorem State.hasTeam_nbarRelease {s : State} {tag : Nat} {b : Bool} (gid j : Nat) (p : s.HasTeam tag b) : (s.nbarRelease gid j).HasTeam tag b := by
  unfold nbarRelease
  split
  · exact p
  · dsimp only
    split
    · exact p
    · split
      · exact p
      · exact foldl_keeps (fun u : State => u.HasTeam tag b) (fun s (t : Team) => s.release (some t.core) 2)
          (fun s t p => (hasTeam_keeps tag b).release s _ _ p) _ s p
theorem State.hasTeam_barsGang {s : State} {tag : Nat} {b : Bool} (gid : Nat) (p : s.HasTeam tag b) : (s.barsGang gid).HasTeam tag b := by
  unfold barsGang
  exact foldl_keeps (fun u : State => u.HasTeam tag b) _ (fun u j p => State.hasTeam_nbarComplete gid j (State.hasTeam_nbarRelease gid j p)) _ _ p
/-- What a team held is free once it has retired. -/
theorem State.hasTeam_freeTeam {s : State} {tag : Nat} (p : s.HasTeam tag false) : (s.freeTeam tag).HasTeam tag true := by
  obtain ⟨t, ht, -⟩ := (hasTeam_keeps tag false).leaveCore s tag p
  unfold freeTeam HasTeam
  rw [State.team?_updTeam _ _ _ _ (fun _ => by exact rfl), if_pos rfl, ht]
  exact ⟨_, rfl, fun _ => ⟨rfl, rfl, rfl⟩⟩

theorem teamRetire_gone {s : State} {tag : Nat} {t : Team} (ht : s.team? tag = some t) (hp : s.placed t = true) (he : t.ended = true) :
    ∃ u, exec (.teamRetire tag) s = .next u ∧ u.HasTeam tag true := by
  have h0 : s.HasTeam tag false := ⟨t, ht, fun e => nomatch e⟩
  have h1 := State.hasTeam_freeTeam ((hasTeam_keeps tag false).trueUp ((s.abandon (fun h => h.1 == tag)).updGang t.gid (·.dropReceived t.pos)) tag h0)
  refine ⟨_, ?_, (hasTeam_keeps tag true).qctlSettle
    (let s := (((s.abandon (fun h => h.1 == tag)).updGang t.gid (·.dropReceived t.pos)).trueUp tag).freeTeam tag
     if s.teamsOf t.gid = [] then (s.updGang t.gid (fun g => { g with st := .ended, launders := [], nbars := [] })).afterEnd else s.barsGang t.gid) ?_⟩
  · show execTeamRetire tag s = _
    simp only [execTeamRetire, ht, hp, he, Bool.not_true, Bool.or_self, Bool.false_eq_true, if_false]
  · dsimp only
    split
    · exact (hasTeam_keeps tag true).afterEnd _ h1
    · exact State.hasTeam_barsGang _ h1
theorem teamRetire_refused {s : State} {tag : Nat} {t : Team} (ht : s.team? tag = some t) (h : s.placed t = false ∨ t.ended = false) :
    exec (.teamRetire tag) s = .refused (.notEnabled "TEAM_RETIRE") := by
  show execTeamRetire tag s = _
  rcases h with h | h <;> simp [execTeamRetire, ht, h]

/-! ### CORE_UNCORRECTABLE_ERROR (R414, R415) -/

theorem failed_keeps (l : List Nat) : WorkKeeps (fun u => u.failed = l) where
  put := fun _ _ _ h => h
  lose := fun s lo hi h => by unfold State.memLose; split <;> exact h
  bad := fun _ _ _ h => h
  lines := fun _ _ h => h
  stamp := fun _ _ h => h
  upds := fun _ _ h => h
  due := fun _ _ h => h
  ats := fun _ _ h => h
  tlb := fun _ _ _ h => h
  spill := fun _ _ h => h
  team := fun _ _ _ _ h => h
  part := fun _ _ _ h => h
  grid := fun _ _ _ h => h
  keys := fun _ _ h => h
  free := fun _ _ h => h
  msix := fun _ _ _ h => h
  unpark := fun _ h => h
  gang := fun _ _ _ _ _ _ _ h => h
theorem mem_insertAsc_self (l : List Nat) (n : Nat) : n ∈ insertAsc l n := by
  induction l with
  | nil => simp [insertAsc]
  | cons k r ih =>
    unfold insertAsc
    split
    · simp
    · split
      · simp [*]
      · simp [ih]
/-- A core with an uncorrectable error counts as failed, whatever the word belonged to. -/
theorem coreError_failed {s : State} {core : Nat} {x : Sys2Proof.CoreLoc} (hon : s.locOn core x = true) (h0 : x ≠ .noState) (h1 : x ≠ .corrected) :
    ∃ u, exec (.coreUncorrectableError core x) s = .next u ∧ core ∈ u.failed := by
  have key (v : State) (hv : v.failed = insertAsc s.failed core) : core ∈ v.failed := hv ▸ mem_insertAsc_self _ _
  have hk := failed_keeps (insertAsc s.failed core)
  have hclear (v : State) (but : Option Nat) (hv : v.failed = insertAsc s.failed core) : (v.clearCore core but).failed = insertAsc s.failed core := by
    unfold State.clearCore
    exact foldl_keeps (fun u : State => u.failed = _) (fun s g => s.preempt g) (fun s g p => hk.preempt s g (fun _ _ _ h => h) p) _ _ hv
  show ∃ u, execCoreUncorrectableError core x s = .next u ∧ _
  unfold execCoreUncorrectableError
  rw [hon]
  simp only [Bool.not_true, Bool.false_eq_true, if_false]
  split
  · exact ⟨_, rfl, key _ (foldl_keeps (fun u : State => u.failed = _) _ (fun s p q => hk.postError s _ _ q) _ _ (hclear _ _ rfl))⟩
  · refine ⟨_, rfl, key _ ?_⟩
    split
    · exact hk.preempt _ _ (fun _ _ _ h => h) (hk.postError _ _ _ (hclear _ _ rfl))
    · exact hk.teardown _ _ _ _ _ _ (fun _ _ _ h => h) (hk.postError _ _ _ (hclear _ _ rfl))
end Sys2Proof.Machine
namespace Sys2Proof.Machine

/-! ### PREEMPT_SAVED and PARK (R101, R412) -/

/-- The gangs stand as they did. -/
theorem gangs_keeps (l : List Gang) : TeamKeeps (fun u => u.gangs = l) where
  put := fun _ _ _ h => h
  lose := fun s lo hi h => by unfold State.memLose; split <;> exact h
  bad := fun _ _ _ h => h
  lines := fun _ _ h => h
  stamp := fun _ _ h => h
  upds := fun _ _ h => h
  due := fun _ _ h => h
  ats := fun _ _ h => h
  tlb := fun _ _ _ h => h
  spill := fun _ _ h => h
  team := fun _ _ _ _ h => h
  part := fun _ _ _ h => h
  grid := fun _ _ _ h => h
  keys := fun _ _ h => h
  free := fun _ _ h => h
  msix := fun _ _ _ h => h
/-- The gang has left its cores, and is on the return list unless it may be parked. -/
def State.Off (s : State) (gid : Nat) (park : Bool) : Prop := ∃ g, s.gang? gid = some g ∧ (g.st = .returning ∨ (park = true ∧ g.st = .parked))
theorem off_keeps (gid : Nat) (park : Bool) : WorkKeeps (fun u => u.Off gid park) where
  put := fun _ _ _ h => h
  lose := fun s lo hi h => by unfold State.memLose; split <;> exact h
  bad := fun _ _ _ h => h
  lines := fun _ _ h => h
  stamp := fun _ _ h => h
  upds := fun _ _ h => h
  due := fun _ _ h => h
  ats := fun _ _ h => h
  tlb := fun _ _ _ h => h
  spill := fun _ _ h => h
  team := fun _ _ _ _ h => h
  part := fun _ _ _ h => h
  grid := fun _ _ _ h => h
  keys := fun _ _ h => h
  free := fun _ _ h => h
  msix := fun _ _ _ h => h
  unpark := fun s ⟨g, hg, hst⟩ => by
    unfold State.Off State.unpark
    simp only [State.gang?] at hg
    simp only [State.gang?, List.find?_map, Function.comp_def, apply_ite Gang.gid, ite_self, hg, Option.map_some]
    refine ⟨_, rfl, ?_⟩
    split
    · exact .inl rfl
    · exact hst
  gang := fun u v k f ⟨g, hg, hst⟩ hk hf ⟨x, hx, hxst⟩ => by
    have hne : gid ≠ k := by
      rintro rfl
      rw [hg] at hk
      rcases hst with h | ⟨-, h⟩ <;> rcases hk with hk | hk <;> simp [h] at hk
    exact ⟨x, by rw [State.gang?_updGang _ _ _ _ hf, if_neg hne, hx], hxst⟩

section
variable {s : State} {gid : Nat} {g : Gang} (hg : s.gang? gid = some g)
include hg
theorem preemptSaved_refused (h : g.st ≠ .leaving ∨ ∃ t ∈ s.teamsOf gid, ∃ wv ∈ t.waves, wv.pend ≠ []) :
    exec (.preemptSaved gid) s = .refused (.notEnabled "PREEMPT_SAVED") := by
  have hc : (decide (g.st ≠ .leaving) || (s.teamsOf gid).any (fun t => t.waves.any (fun wv => decide (wv.pend ≠ [])))) = true := by
    rcases h with h | ⟨t, ht, wv, hw, hp⟩
    · simp [h]
    · simp only [Bool.or_eq_true, List.any_eq_true, decide_eq_true_eq]
      exact .inr ⟨t, ht, wv, hw, hp⟩
  show execPreemptSaved gid s = _
  simp only [execPreemptSaved, hg, hc, if_true]
/-- A gang that has left its cores returns, or is parked. -/
theorem preemptSaved_off (hst : g.st = .leaving) (hp : ∀ t ∈ s.teamsOf gid, ∀ wv ∈ t.waves, wv.pend = []) :
    ∃ u, exec (.preemptSaved gid) s = .next u ∧ u.Off gid g.waitPark := by
  have hc : (decide (g.st ≠ .leaving) || (s.teamsOf gid).any (fun t => t.waves.any (fun wv => decide (wv.pend ≠ [])))) = false := by
    simp only [hst, ne_eq, not_true_eq_false, decide_false, Bool.false_or, List.any_eq_false, List.any_eq_true, decide_eq_true_eq]
    exact fun t ht ⟨wv, hw, hne⟩ => hne (hp t ht wv hw)
  have hk := gangs_keeps s.gangs
  have hsave (u : State) (t : Team) (wv : Wave) (p : u.gangs = s.gangs) : ((u.saveFrame t wv).saveCounts t wv).gangs = s.gangs := by
    unfold State.saveCounts State.saveFrame
    split
    · exact p
    · split <;> exact p
  have hx : exec (.preemptSaved gid) s = .next (((((s.teamsOf gid).foldl (fun s t => ((s.trueUp t.tag).release (some t.core) (Scope.rank .dev)).leaveCore t.tag)
      ((s.teamsOf gid).foldl (fun s t => t.waves.foldl (fun s wv => (s.saveFrame t wv).saveCounts t wv) s) s)).updGang gid
      (fun g => { g with st := if g.waitPark then .parked else .returning, waitPark := false })).unpark).qctlSettle) := by
    show execPreemptSaved gid s = _
    simp only [execPreemptSaved, hg, hc, Bool.false_eq_true, if_false]
  refine ⟨_, hx, (off_keeps gid g.waitPark).qctlSettle _ ((off_keeps gid g.waitPark).unpark _ ?_)⟩
  have h2 := foldl_keeps (fun u : State => u.gangs = s.gangs) (fun s (t : Team) => ((s.trueUp t.tag).release (some t.core) (Scope.rank .dev)).leaveCore t.tag)
    (fun u t p => hk.leaveCore _ _ (hk.release _ _ _ (hk.trueUp _ _ p))) (s.teamsOf gid) _
    (foldl_keeps (fun u : State => u.gangs = s.gangs) (fun s (t : Team) => t.waves.foldl (fun s wv => (s.saveFrame t wv).saveCounts t wv) s)
      (fun u t p => foldl_keeps (fun u : State => u.gangs = s.gangs) _ (fun u wv p => hsave u t wv p) _ u p) (s.teamsOf gid) s rfl)
  unfold State.Off
  rw [State.gang?_updGang _ _ _ _ (fun _ => by exact rfl), if_pos rfl]
  refine ⟨_, congrArg (Option.map _) ((show State.gang? _ gid = s.gang? gid by simp only [State.gang?, h2]).trans hg), ?_⟩
  cases hpark : g.waitPark <;> simp [hpark]
theorem park_refused (h : s.mayPark g = false) : exec (.park gid) s = .refused (.notEnabled "PARK") := by
  show execPark gid s = _
  simp [execPark, hg, h]
/-- A gang that parks begins to leave its cores. -/
theorem park_leaving (h : s.mayPark g = true) :
    ∃ u, exec (.park gid) s = .next u ∧ (u.gang? gid).map (fun x => (x.st, x.waitPark)) = some (.leaving, true) := by
  have hst : g.st = .placed := by
    unfold State.mayPark at h
    simp only [Bool.and_eq_true, beq_iff_eq] at h
    exact h.1.1.1
  have hx : exec (.park gid) s = .next ((s.updGang gid (fun g => { g with waitPark := true })).preempt gid) := by
    show execPark gid s = _
    simp [execPark, hg, h]
  refine ⟨_, hx, ?_⟩
  have hg1 : (s.updGang gid (fun g => { g with waitPark := true })).gang? gid = some { g with waitPark := true } := by
    rw [State.gang?_updGang _ _ _ _ (fun _ => by exact rfl), if_pos rfl, hg]
    rfl
  generalize s.updGang gid (fun g => { g with waitPark := true }) = s1 at hg1
  have hk := gangs_keeps s1.gangs
  unfold State.preempt
  dsimp only
  rw [State.gang?_updGang _ _ _ _ (fun _ => by split <;> rfl), if_pos rfl]
  have hgangs := foldl_keeps (fun u : State => u.gangs = s1.gangs) (fun s (t : Team) => t.waves.foldl (fun s wv =>
      ((s.abort t.tag wv.ix (List.range 8)).1.flushSfu t.tag wv.ix).updWave t.tag wv.ix
        (fun wv => { wv with bundle := none, waitCnt := none, waitIds := [], waitRids := [], mfAcq := none })) s)
    (fun u t p => foldl_keeps (fun u : State => u.gangs = s1.gangs) _ (fun u wv p => hk.wave _ _ _ _ (hk.flushSfu _ _ _ (hk.abort _ _ _ _ p))) _ u p)
    (s1.teamsOf gid) s1 rfl
  rw [show State.gang? _ gid = s1.gang? gid by simp only [State.gang?, hgangs], hg1]
  simp [hst]
end
end Sys2Proof.Machine
namespace Sys2Proof.Machine

/-! ### GANG_PLACE (R89, R96, R116, R118) -/

section
variable {s : State} {p : Nat}
theorem gangPlace_refused_idle (h : s.working p = false) : exec (.gangPlace p) s = .refused (.notEnabled "GANG_PLACE") := by
  show execGangPlace p s = _
  simp [execGangPlace, h]
variable (hwork : s.working p = true) (hpull : ∀ n, n < 64 → s.pullable p n = false)
include hwork hpull
/-- With no ready node to pull, GANG_PLACE is one placement step. -/
theorem gangPlace_step : exec (.gangPlace p) s = (s.placeStep p).elim (.refused (.notEnabled "GANG_PLACE")) .next := by
  have hq : (List.range 64).filter (s.pullable p) = [] := by
    simp only [List.filter_eq_nil_iff, List.mem_range]
    exact fun n hn => by simp [hpull n hn]
  show execGangPlace p s = _
  simp only [execGangPlace, hwork, hq, Bool.not_true, Bool.false_eq_true, if_false, List.foldl_nil, if_true]
  cases s.placeStep p <;> rfl
end

/-- A bulk head with no latency head before it: it is acted on, or noted as waiting. -/
theorem State.placeStep_bulk {s : State} {p : Nat} {h : Head} (hl : s.head? p true = none) (hb : s.head? p false = some h) :
    s.placeStep p = (s.actOn p false h (s.verdict p false false h)).or (s.noteHead p false h) := by
  simp only [placeStep, hl, hb]

/-- The verdict on a fresh gang that starts no node, is admitted, and for which there is room. -/
theorem State.verdict_room {s : State} {p : Nat} {g : Grid} {k : KObj} {a : Nat × Nat} (hlat : g.lat = false) (hkind : g.lrec.kind = 0)
    (hnode : g.lrec.hasNode = false) (hk : s.kobjOf g = some k) (hadm : (s.part p).admits false (k.gw * k.gh * g.lrec.est.toNat) = true)
    (ha : s.search { p := p, lat := false, k := k, quarter := s.quarterFor g, spare := false, force := false } = some a) :
    s.verdict p false false (.fresh g) = .room a := by
  have hstart : g.starts = false := by simp [Grid.starts, hnode]
  simp [verdict, costOf, wantOf, startFault, hlat, hkind, hk, hadm, ha, hstart]

/-! The teams of a new gang -/

/-- A tag is taken: teams that have not retired keep theirs. -/
theorem State.takeTag_keeps (gid : Nat) : ∀ (n : Nat) (s : State), (State.takeTag n s).2.gangs = s.gangs ∧ (State.takeTag n s).2.teamsOf gid = s.teamsOf gid
  | 0, s => ⟨rfl, rfl⟩
  | n + 1, s => by
    unfold takeTag
    dsimp only
    split
    · next hf =>
      refine ⟨rfl, ?_⟩
      simp only [teamsOf, List.filter_filter]
      refine List.filter_congr (fun t ht => ?_)
      simp only [tagFree, Bool.and_eq_true, Bool.not_eq_true', List.any_eq_false, decide_eq_true_eq] at hf
      obtain ⟨-, hf⟩ := hf
      have := hf t ht
      by_cases htag : t.tag = s.nextTag <;> cases hr : t.retired <;> simp_all
    · exact State.takeTag_keeps gid n _

/-- A team as its gang places it at a position of a kernel (R118, R119, Table 2.2). -/
def Team.Fits (t : Team) (g : Grid) (k : KObj) (a : Nat × Nat) : Prop :=
  t.core = k.coreOf a t.pos ∧ t.part = g.part ∧ t.asid = g.asid ∧
    ∀ wv ∈ t.waves, wv.sr 0 = g.lrec.args ∧ wv.sr 1 = BitVec.ofNat 64 k.addr ∧ wv.thr = List.replicate 32 { pc := k.entry, exited := false, mem := 0, hold := none }
theorem State.sansCache_enterCore (s : State) (core r : Nat) : (s.enterCore core r).sansCache =
    ({ s with consts := s.consts.filter (·.core ≠ core), loopBufs := s.loopBufs.filter (·.core ≠ core) } : State).sansCache := by
  unfold enterCore
  dsimp only
  rw [sansCache_acquire]
  unfold sramTrim
  dsimp only
  split
  · rfl
  · exact sansCache_dropLines _ _
theorem State.teamsOf_addTeam (s : State) {gid : Nat} {t : Team} (hg : t.gid = gid) (hr : t.retired = false) :
    ({ s with teams := s.teams ++ [t] } : State).teamsOf gid = s.teamsOf gid ++ [t] := by
  simp [teamsOf, List.filter_append, hg, hr]
theorem State.newTeam_placed (s : State) (g : Grid) (k : KObj) (gid : Nat) (a : Nat × Nat) (pos : Nat) :
    (s.newTeam g k gid a pos).gangs = s.gangs ∧ ∃ t : Team, (s.newTeam g k gid a pos).teamsOf gid = s.teamsOf gid ++ [t] ∧ t.Fits g k a := by
  obtain ⟨hgangs, hteams⟩ := State.takeTag_keeps gid (s.teams.length + 3) s
  unfold newTeam
  dsimp only
  generalize State.takeTag (s.teams.length + 3) s = r at hgangs hteams
  have he := fun (u : State) => u.sansCache_enterCore (k.coreOf a pos) g.lrec.startRank
  refine ⟨(congrArg State.gangs (he _)).trans hgangs, _,
    (congrArg (fun u : State => u.teamsOf gid) (he _)).trans ((State.teamsOf_addTeam r.2 (by exact rfl) (by exact rfl)).trans (by rw [hteams])), rfl, rfl, rfl, fun wv hw => ?_⟩
  obtain ⟨x, -, rfl⟩ := List.mem_map.1 hw
  simp [Wave.first, Wave.sr, sget_sset]
/-- The teams of a new gang, one for each position. -/
theorem State.newTeams_placed (g : Grid) (k : KObj) (gid : Nat) (a : Nat × Nat) (n : Nat) (s : State) (h0 : s.teamsOf gid = []) :
    let u := (List.range n).foldl (fun s pos => s.newTeam g k gid a pos) s
    u.gangs = s.gangs ∧ (u.teamsOf gid).length = n ∧ ∀ t ∈ u.teamsOf gid, t.Fits g k a := by
  induction n with
  | zero => exact ⟨rfl, by simp [h0], by simp [h0]⟩
  | succ n ih =>
    simp only [List.range_succ, List.foldl_append, List.foldl_cons, List.foldl_nil]
    obtain ⟨hg, hl, hf⟩ := ih
    generalize (List.range n).foldl (fun s pos => s.newTeam g k gid a pos) s = u at hg hl hf
    obtain ⟨hg', t, ht, hfit⟩ := u.newTeam_placed g k gid a n
    refine ⟨hg'.trans hg, by simp [ht, hl], fun x hx => ?_⟩
    rw [ht, List.mem_append, List.mem_singleton] at hx
    rcases hx with hx | rfl
    · exact hf x hx
    · exact hfit
end Sys2Proof.Machine
namespace Sys2Proof.Machine
/-- The gangs and teams once the next gang of a grid has been placed at an anchor. -/
def State.Places (s u : State) (g : Grid) (k : KObj) (a : Nat × Nat) : Prop :=
  ∃ y, u.gangs = s.gangs ++ [y] ∧ y.gid = s.nextId ∧ y.grid = g.id ∧ y.st = .placed ∧ y.kobj = k ∧
    y.x = g.next % max 1 g.lrec.gx.toNat ∧ y.y = g.next / max 1 g.lrec.gx.toNat % max 1 g.lrec.gy.toNat ∧
    y.z = g.next / (max 1 g.lrec.gx.toNat * max 1 g.lrec.gy.toNat) ∧ (u.teamsOf y.gid).length = k.gw * k.gh ∧ ∀ t ∈ u.teamsOf y.gid, t.Fits g k a
/-- It says nothing else of the device. -/
theorem State.Places.congr {s u v : State} {g : Grid} {k : KObj} {a : Nat × Nat} (h : s.Places u g k a) (hg : v.gangs = u.gangs) (ht : v.teams = u.teams) :
    s.Places v g k a := by
  unfold Places teamsOf
  rw [hg, ht]
  exact h
theorem State.placeNew_places {s : State} (g : Grid) (k : KObj) (a : Nat × Nat) (hfree : ∀ t ∈ s.teams, t.gid ≠ s.nextId) :
    s.Places (s.placeNew g k a) g k a := by
  unfold placeNew
  dsimp only
  have hnew := State.newTeams_placed g k s.nextId a (k.gw * k.gh)
  generalize hs : ({ s with nextId := s.nextId + 1, gangs := s.gangs ++ [_] } : State) = s1
  have h0 : s1.teamsOf s.nextId = [] := by
    subst hs
    simp only [teamsOf, List.filter_eq_nil_iff]
    exact fun t ht => by simp [hfree t ht]
  obtain ⟨hgangs, hlen, hfit⟩ := hnew s1 h0
  refine State.Places.congr (u := (List.range (k.gw * k.gh)).foldl (fun s pos => s.newTeam g k _ a pos) s1) ?_ rfl rfl
  subst hs
  exact ⟨_, hgangs, rfl, rfl, rfl, rfl, rfl, rfl, rfl, hlen, hfit⟩
/-- What follows the placement changes partitions only. -/
theorem State.placeHead_places {s : State} {g : Grid} {k : KObj} {a : Nat × Nat} (hnode : g.lrec.hasNode = false) (hk : s.kobjOf g = some k)
    (hfree : ∀ t ∈ s.teams, t.gid ≠ s.nextId) : s.Places (s.placeHead (.fresh g) a) g k a := by
  have hn (u : State) : u.nodeStart g = u := by
    unfold nodeStart
    simp [Grid.starts, hnode]
  have hserved (u : State) : (u.served g).gangs = u.gangs ∧ (u.served g).teams = u.teams := by
    unfold served
    split <;> exact ⟨rfl, rfl⟩
  have key (u : State) (hu : u.sansCache = s.sansCache) (b : Prop) [Decidable b] :
      s.Places (if b then ((u.placeNew g k a).served g).leaveQueue g else (u.placeNew g k a).served g) g k a := by
    have hid : u.nextId = s.nextId := State.nextId_sansCache hu
    have hgs : u.gangs = s.gangs := by have e := congrArg State.gangs hu; exact e
    have h := u.placeNew_places g k a (by rw [State.teams_sansCache hu, hid]; exact hfree)
    obtain ⟨h1, h2⟩ := hserved (u.placeNew g k a)
    have h' : s.Places (u.placeNew g k a) g k a := by
      unfold Places at h ⊢
      rw [hid, hgs] at h
      exact h
    split
    · exact h'.congr h1 h2
    · exact h'.congr h1 h2
  unfold placeHead
  simp only [hk, hn]
  refine key _ ?_ _
  split
  · exact State.sansCache_touch ..
  · rfl
end Sys2Proof.Machine

/-- Settles O58: each event unfolded once; what traps and teardown may do to the gang, the team or the failed cores that it speaks of is bounded
by what they keep. -/
theorem placementAndRetirement : Obligations.PlacementAndRetirement := by
  unfold Obligations.PlacementAndRetirement
  refine ⟨fun s p => ⟨gangPlace_refused_idle, fun u hw hp hs => ?_, fun hw hp hs => ?_, fun g k a hw hp hl hb hlat hkind hnode hk hadm ha hfree => ?_⟩,
    fun s p h _ hw hp hl hb hact hnew => ?_,
    fun s gid g hg => ⟨preemptSaved_refused hg, fun hst hpend _ => ?_, park_refused hg, park_leaving hg⟩,
    fun s tag t ht => ⟨teamRetire_refused ht, fun hp he => ?_⟩,
    fun s core x => ⟨fun h => ?_, fun h hx => ?_, fun h hx => ?_, coreError_failed⟩⟩
  · rw [gangPlace_step hw hp, hs]
    rfl
  · rw [gangPlace_step hw hp, hs]
    rfl
  · have hstep : s.placeStep p = some ((s.placeHead (.fresh g) a).updPart p (·.setWaiting false (·.filter (· ≠ (Head.fresh g).id)))) := by
      rw [State.placeStep_bulk hl hb, State.verdict_room hlat hkind hnode hk hadm ha]
      rfl
    obtain ⟨y, hy⟩ := (State.placeHead_places (a := a) hnode hk hfree).congr (v := (s.placeHead (.fresh g) a).updPart p _) rfl rfl
    exact ⟨_, y, by rw [gangPlace_step hw hp, hstep]; rfl, hy⟩
  · have hnote : ((s.part p).waiting false).contains h.id = false := by simpa [Part.waiting] using hnew
    rw [gangPlace_step hw hp, State.placeStep_bulk hl hb, hact, Option.none_or]
    simp only [State.noteHead, hnote, Bool.false_eq_true, if_false]
    rfl
  · obtain ⟨u, hu, g', hg', hst'⟩ := preemptSaved_off hg hst hpend
    refine ⟨u, hu, fun hw => ?_, fun hw => ?_⟩
    · rw [hg', Option.map_some]
      rcases hst' with h | ⟨h, -⟩
      · rw [h]
      · rw [hw] at h
        cases h
    · rw [hg', Option.map_some]
      rcases hst' with h | ⟨-, h⟩
      · exact .inr (congrArg some h)
      · exact .inl (congrArg some h)
  · obtain ⟨u, hu, x, hx, hgone⟩ := teamRetire_gone ht hp he
    obtain ⟨h1, h2, h3⟩ := hgone rfl
    exact ⟨u, hu, by rw [hx, Option.map_some, h1, h2, h3]⟩
  · show execCoreUncorrectableError core x s = _
    simp [execCoreUncorrectableError, h]
  · subst hx
    show execCoreUncorrectableError core _ s = _
    simp [execCoreUncorrectableError, h]
  · subst hx
    show execCoreUncorrectableError core _ s = _
    simp [execCoreUncorrectableError, h]

end

section
/-! PROOFS. The agents that work for a team (O55). -/
open Sys2Proof Sys2Proof.Machine

namespace Sys2Proof.Machine

/-! ### CLAUSE_ENTRY (R127, R51, R464) -/

section
variable {s : State} {t : Team} {wv : Wave} (ht : s.team? t.tag = some t) (hw : t.wave? wv.ix = some wv)
include ht hw
theorem clauseEntry_refused (h : s.atBoundary t wv = false ∨ wv.headPc (s.readySlices t wv) = none) :
    exec (.clauseEntry t.tag wv.ix) s = .refused (.notEnabled "CLAUSE_ENTRY") := by
  show execClauseEntry t.tag wv.ix s = _
  simp only [execClauseEntry, ht, State.wave?_of_team ht hw]
  rcases h with h | h
  · simp [h]
  · simp [h]
theorem clauseEntry_enters {pc : DWord} (hb : s.atBoundary t wv = true) (hpc : wv.headPc (s.readySlices t wv) = some pc) :
    exec (.clauseEntry t.tag wv.ix) s = .next (s.enterAt t wv (wv.bundleAt (s.readySlices t wv) pc) pc) := by
  show execClauseEntry t.tag wv.ix s = _
  simp only [execClauseEntry, ht, State.wave?_of_team ht hw, hb, hpc, Bool.not_true, Bool.false_eq_true, if_false]
end

section
variable {s : State} {t : Team} {wv : Wave} {m : Lanes} {pc : DWord} {hs : List DWord} (hf : s.fetch t wv (t.sys || wv.handler) pc.toNat 1 = .ok hs)
include hf
/-- A word that is no header traps (R71). -/
theorem State.enterAt_noHeader (hh : Header.ofWord (hs.headD 0) = none) :
    s.enterAt t wv m pc = (s.fetchTouch t wv (t.sys || wv.handler) pc.toNat 1).takeTrap t.tag wv.ix m
      { cause := 0x02, lanes := m, addr := pc, region := wv.startOf (lowest m / 4) pc, after := false, faddr := 0 } := by
  simp only [enterAt, hf, hh, clauseTrap]
  rfl
/-- At an RB clause the open runs of the bundle end (R464). -/
theorem State.enterAt_ends {h : Header} (hh : Header.ofWord (hs.headD 0) = some h) (hrb : h.rb = true) (he : wv.regions.any (wv.endsAt m) = true) :
    s.enterAt t wv m pc = (s.fetchTouch t wv (t.sys || wv.handler) pc.toNat 1).updWave t.tag wv.ix (fun wv =>
      { wv with regions := wv.regions.map (fun r => if wv.endsAt m r then { r with ended := some .clause } else r) }) := by
  simp only [enterAt, hf, hh, hrb, he, and_self, if_true]
/-- Otherwise the bundle enters the clause. -/
theorem State.enterAt_enters {h : Header} {ws : List DWord} (hh : Header.ofWord (hs.headD 0) = some h) (hne : ¬(h.rb = true ∧ wv.regions.any (wv.endsAt m) = true))
    (hws : s.fetch t wv (t.sys || wv.handler) (pc.toNat + 8) h.n = .ok ws) (hbad : clauseBad h ws = false) (hopen : h.rb = true ∨ wv.openIn m = slicesOf m) :
    s.enterAt t wv m pc =
      { ((s.fetchTouch t wv (t.sys || wv.handler) pc.toNat (h.n + 1)).loopFill t wv (t.sys || wv.handler) pc).updWave t.tag wv.ix
          (·.enterClause (s.fetchTouch t wv (t.sys || wv.handler) pc.toNat (h.n + 1)).nextId m pc h ws) with
        nextId := (s.fetchTouch t wv (t.sys || wv.handler) pc.toNat (h.n + 1)).nextId + 8 } := by
  have hc : (clauseBad h ws || (!h.rb && decide (wv.openIn m ≠ slicesOf m))) = false := by
    rcases hopen with e | e <;> simp [hbad, e]
  simp only [enterAt, hf, hh, if_neg hne, hws, hc, Bool.false_eq_true, if_false]
end

/-- A fetch, and the filling of a loop buffer, leave the waves as they are. -/
theorem State.wave?_fetchTouch (s : State) (t : Team) (wv : Wave) (sys : Bool) (va n tag w : Nat) : (s.fetchTouch t wv sys va n).wave? tag w = s.wave? tag w := by
  unfold fetchTouch
  split
  · rfl
  · exact (State.Shows.of_sansCache (s.sansCache_touch ..)).waves tag w
theorem State.wave?_loopFill (s : State) (t : Team) (wv : Wave) (sys : Bool) (pc : DWord) (tag w : Nat) : (s.loopFill t wv sys pc).wave? tag w = s.wave? tag w := by
  unfold loopFill
  dsimp only
  split
  · rfl
  · split
    · rfl
    · split
      · rfl
      · split <;> rfl

/-- The runs that begin with a clause: those of its slices, where the clause sets RB (R29). -/
theorem Wave.enterClause_regions (wv : Wave) (id : Nat) (m : Lanes) (pc : DWord) (h : Header) (ws : List DWord) :
    ∃ sls, (wv.enterClause id m pc h ws).regions = wv.regions ++ sls.map (fun sl => wv.newRun (id + sl) sl pc) ∧
      (h.rb = false → sls = []) ∧ (h.rb = true → ∀ sl ∈ slicesOf m, sl ∈ sls) := by
  refine ⟨_, rfl, fun e => by simp [e], fun e sl hsl => ?_⟩
  simp only [e, Bool.not_true, Bool.false_eq_true, if_false]
  split
  · exact List.mem_append_left _ hsl
  · exact hsl
theorem Wave.enterClause_region? (wv : Wave) (id : Nat) (m : Lanes) (pc : DWord) (h : Header) (ws : List DWord) (hrb : h.rb = true) (sl : Nat)
    (hsl : sl ∈ slicesOf m) (hnone : wv.region? sl = none) :
    ∃ r, (wv.enterClause id m pc h ws).region? sl = some r ∧ r.start = pc ∧ r.stores = [] ∧ r.ended = none := by
  obtain ⟨sls, hr, -, hin⟩ := wv.enterClause_regions id m pc h ws
  unfold region? at hnone ⊢
  rw [hr, List.find?_append, hnone, Option.none_or, List.find?_map]
  cases hf : sls.find? ((fun r : Region => r.sl == sl) ∘ fun sl => wv.newRun (id + sl) sl pc) with
  | none => exact absurd (List.find?_eq_none.1 hf sl (hin hrb sl hsl)) (by simp [newRun])
  | some x => exact ⟨_, rfl, rfl, rfl, rfl⟩

/-! ### COPY_COMPLETE (R245 to R248) -/

/-- What the writes of a copy leave alone: the copies, the grids, the completions of every partition; and of a wave all but what an open MMA has at
stake (R281). -/
structure State.CopyWrites (s u : State) : Prop where
  copies : u.copies = s.copies
  grids : u.grids = s.grids
  length : u.parts.length = s.parts.length
  compl : ∀ p, (u.part p).compl = (s.part p).compl
  waves : ∀ tag w wv, s.wave? tag w = some wv → ∃ m a, u.wave? tag w = some { wv with mopen := m, acc := a }

namespace State.CopyWrites
theorem refl (s : State) : s.CopyWrites s := ⟨rfl, rfl, rfl, fun _ => rfl, fun _ _ wv h => ⟨wv.mopen, wv.acc, h⟩⟩
theorem trans {s u v : State} (a : s.CopyWrites u) (b : u.CopyWrites v) : s.CopyWrites v where
  copies := b.copies.trans a.copies
  grids := b.grids.trans a.grids
  length := b.length.trans a.length
  compl := fun p => (b.compl p).trans (a.compl p)
  waves := fun tag w wv h => by
    obtain ⟨_, _, h⟩ := a.waves tag w wv h
    obtain ⟨m, n, h⟩ := b.waves tag w _ h
    exact ⟨m, n, h⟩
/-- Any change that keeps the waves. -/
theorem of_shows {s u : State} (h : s.Shows u) (hc : u.copies = s.copies) (hg : u.grids = s.grids) (hl : u.parts.length = s.parts.length)
    (hp : ∀ p, (u.part p).compl = (s.part p).compl) : s.CopyWrites u :=
  ⟨hc, hg, hl, hp, fun tag w wv e => ⟨wv.mopen, wv.acc, (h.waves tag w).trans e⟩⟩
theorem of_sansCache {s u : State} (h : u.sansCache = s.sansCache) : s.CopyWrites u := by
  have hc := congrArg State.copies h
  have hg := congrArg State.grids h
  have hl := congrArg (fun x : State => x.parts.length) h
  have hp := fun p => congrArg (fun x : State => (x.part p).compl) h
  exact of_shows (.of_sansCache h) hc hg hl hp
theorem foldl {α : Type} {f : State → α → State} (hf : ∀ (s : State) a, s.CopyWrites (f s a)) (l : List α) (s : State) : s.CopyWrites (l.foldl f s) :=
  foldl_keeps s.CopyWrites f (fun u a h => h.trans (hf u a)) l s (refl s)
theorem tablesLost (s : State) (f : Nat → Bool) : s.CopyWrites (s.tablesLost f) := by
  unfold State.tablesLost
  split
  · refine ⟨rfl, rfl, by simp, fun p => ?_, fun _ _ wv h => ⟨wv.mopen, wv.acc, h⟩⟩
    simp only [State.part, List.getD_eq_getElem?_getD, List.getElem?_map, List.getElem?_zipIdx, Option.map_map]
    cases s.parts[p]? with
    | none => rfl
    | some q => simp only [Option.map_some, Option.getD_some, Function.comp_apply]; split <;> rfl
  · exact refl s
theorem tableWrite (s : State) (asid va n : Nat) : s.CopyWrites (s.tableWrite asid va n) := tablesLost s _
theorem vwriteAll (s : State) (v : Via) (p asid : Nat) (sys : Bool) (bs : Sparse (Nat × BV)) : s.CopyWrites (s.vwriteAll v p asid sys bs) := by
  have one (s : State) (v : Via) (a : Nat) (l : List BV) (n : Nat) : s.CopyWrites ((s.writeBVs v p asid a sys l).tableWrite asid a n) :=
    (of_sansCache (s.sansCache_writeBVs v p asid a sys l)).trans (tableWrite _ _ _ _)
  unfold State.vwriteAll
  dsimp only
  refine (foldl (fun s x => ?_) _ _).trans (foldl (fun s x => ?_) _ _)
  · exact one s v _ _ _
  · exact one s v.win _ _ _
theorem spoilBytes (s : State) (bs : List (Space × Nat)) : s.CopyWrites (s.spoilBytes bs) :=
  ⟨rfl, rfl, rfl, fun _ => rfl, fun tag w wv h => s.spoilBytes_wave bs tag w wv h⟩
theorem copyWrite (s : State) (c : Copy) (ws : List (Nat × BV)) : s.CopyWrites (s.copyWrite c ws) := by
  unfold State.copyWrite
  split
  · split
    · next t _ =>
      exact (of_shows (.updTeam s t _ (fun t => t.scrPut_tag ws) (fun t => t.scrPut_waves ws)) rfl rfl rfl (fun _ => rfl)).trans (spoilBytes _ _)
    · exact refl s
  · exact (vwriteAll _ _ _ _ _ _).trans (spoilBytes _ _)
theorem copyTouch (s : State) (c : Copy) (a : Int) (n : Nat) : s.CopyWrites (s.copyTouch c a n) := by
  unfold State.copyTouch
  split
  · exact refl s
  · exact of_sansCache (s.sansCache_vtouch ..)
/-- A unit that goes through, and the copy after it. -/
theorem copyUnit {s s1 : State} {c c1 : Copy} (h : s.copyUnit c = .ok (s1, c1)) :
    s.CopyWrites s1 ∧ ∃ p b f, c1 = { c with pos := p, poisoned := b, flags := f } := by
  unfold State.copyUnit at h
  dsimp only at h
  split at h
  · cases h
  · cases h
  · split at h
    · cases h
    · simp only [Except.ok.injEq, Prod.mk.injEq] at h
      obtain ⟨rfl, rfl⟩ := h
      exact ⟨⟨((copyTouch ..).trans (copyWrite ..)).copies, ((copyTouch ..).trans (copyWrite ..)).grids, ((copyTouch ..).trans (copyWrite ..)).length,
        ((copyTouch ..).trans (copyWrite ..)).compl, ((copyTouch ..).trans (copyWrite ..)).waves⟩, _, _, _, rfl⟩
end State.CopyWrites

/-- A copy that has run to its status, not to a page fault. -/
theorem copyRun_ends : ∀ (n : Nat) (s : State) (c : Copy) {s1 : State} {c1 : Copy} {st : Nat}, c.fin = none → s.copyRun n c = (s1, c1) → c1.fin = some st →
    s.CopyWrites s1 ∧ ∃ p b f, c1 = { c with pos := p, poisoned := b, flags := f, fin := some st }
  | 0, s, c, s1, c1, st, _, h, hst => by
    simp only [State.copyRun, Prod.mk.injEq] at h
    obtain ⟨rfl, rfl⟩ := h
    exact ⟨.refl s, _, _, _, by rw [← hst]⟩
  | n + 1, s, c, s1, c1, st, hfin, h, hst => by
    unfold State.copyRun at h
    split at h
    · next s' c' hu =>
      obtain ⟨hw, p, b, f, rfl⟩ := State.CopyWrites.copyUnit hu
      obtain ⟨hw', p', b', f', rfl⟩ := copyRun_ends n s' { c with pos := p, poisoned := b, flags := f } hfin h hst
      exact ⟨hw.trans hw', _, _, _, rfl⟩
    · next ps _ =>
      -- held on a page fault: no status stands in any copy of this number
      exfalso
      simp only [Prod.mk.injEq] at h
      obtain ⟨rfl, rfl⟩ := h
      cases hf : (s.copyHold c ps).copies.find? (·.id == c.id) with
      | none => rw [hf, Option.getD_none, hfin] at hst; cases hst
      | some x =>
        rw [hf, Option.getD_some] at hst
        unfold State.copyHold State.setCopy at hf
        obtain ⟨y, -, rfl⟩ := List.mem_map.1 (List.mem_of_find?_eq_some hf)
        have hid := List.find?_some hf
        split at hst
        · rw [show ({ c with holds := _ } : Copy).fin = c.fin from rfl, hfin] at hst; cases hst
        · next hne =>
          rw [if_neg hne] at hid
          exact hne (by simpa using hid)
    · simp only [Prod.mk.injEq] at h
      obtain ⟨rfl, rfl⟩ := h
      exact ⟨.refl s, _, _, _, by rw [← hst]⟩

/-- The device once a copy has written its status, a release at .dev (R246). -/
def State.statusWritten (s : State) (c : Copy) (st : Nat) : State :=
  ((s.release (s.copyVia c).core Scope.dev.rank).vwrite (s.copyVia c) c.part c.asid (c.desc + 0x3C) c.sys (toBytes 4 st)).spoilBytes
    ((List.range 4).map (fun i => (.mem c.asid, c.desc + 0x3C + i)))
theorem State.copyWrites_statusWritten (s : State) (c : Copy) (st : Nat) : s.CopyWrites (s.statusWritten c st) :=
  ((State.CopyWrites.of_sansCache (s.sansCache_release _ _)).trans (.vwriteAll _ _ _ _ _ _)).trans (.spoilBytes _ _)
theorem State.copyStatus_ends {s : State} {c : Copy} {st : Nat} (h : s.vcheckK (s.copyVia c) c.part c.asid (c.desc + 0x3C) 4 c.sys true = []) :
    s.copyStatus c st = (s.statusWritten c st).copyEnd c st := by
  unfold copyStatus
  rw [h]
  rfl

/-- The copies stand as they do: what the end of a copy record keeps. -/
theorem copies_keeps (l : List Copy) : WorkKeeps (fun u => u.copies = l) where
  put := fun _ _ _ h => h
  lose := fun s lo hi h => by unfold State.memLose; split <;> exact h
  bad := fun _ _ _ h => h
  lines := fun _ _ h => h
  stamp := fun _ _ h => h
  upds := fun _ _ h => h
  due := fun _ _ h => h
  ats := fun _ _ h => h
  tlb := fun _ _ _ h => h
  spill := fun _ _ h => h
  team := fun _ _ _ _ h => h
  part := fun _ _ _ h => h
  grid := fun _ _ _ h => h
  keys := fun _ _ h => h
  free := fun _ _ h => h
  msix := fun _ _ _ h => h
  unpark := fun _ h => h
  gang := fun _ _ _ _ _ _ _ h => h
theorem State.copyEnd_copies (s : State) (c : Copy) (st : Nat) : (s.copyEnd c st).copies = s.copies.filter (·.id ≠ c.id) := by
  have hk := copies_keeps (s.copies.filter (·.id ≠ c.id))
  unfold copyEnd
  dsimp only
  split
  · rfl
  · split
    · rfl
    · split
      · exact hk.afterEnd _ (hk.gridRetire _ _ rfl)
      · rfl
  · rfl
/-- A copy of a team lowers its counter and gives its flags (R246). -/
theorem State.copyEnd_team {s : State} {c : Copy} {tag : Nat} (htag : c.tag = some tag) (st : Nat) :
    (s.copyEnd c st).mem = s.mem ∧ (s.copyEnd c st).lines = s.lines ∧
      ∀ wv, s.wave? tag c.wave = some wv → ∃ v, (s.copyEnd c st).wave? tag c.wave = some v ∧ v.fflags = wv.fflags ||| c.flags.setWidth 64 ∧
        ∀ n, v.evr n = if c.ev = some n then wv.evr n - 1 else wv.evr n := by
  unfold copyEnd
  simp only [htag]
  refine ⟨rfl, rfl, fun wv hw => ⟨_, State.wave?_updWave_of (s := { s with copies := s.copies.filter (·.id ≠ c.id) }) hw (fun _ => by exact rfl), rfl, fun n => ?_⟩⟩
  cases c.ev with
  | none => rfl
  | some k =>
    simp only [Wave.evr, sget_sset, Option.some.injEq]
    split
    · next hk => rw [hk]
    · rfl
/-- A copy record of a queue completes (R94, R425). -/
theorem State.copyEnd_record {s : State} {c : Copy} {g : Nat} {gr : Grid} (htag : c.tag = none) (hgrid : c.grid = some g) (hg : s.grid? g = some gr)
    (hpar : gr.parent = none) (hp : c.part < s.parts.length) (st : Nat) :
    ∃ y, ((s.copyEnd c st).part c.part).compl = (s.part c.part).compl ++ [y] ∧ y.lrec = gr.lrec ∧ y.status = 0 ∧ y.cstat = st := by
  have hg' : ({ s with copies := s.copies.filter (·.id ≠ c.id) } : State).grid? g = some gr := hg
  unfold copyEnd
  simp only [htag, hgrid, hg', hpar, Option.isSome_none, Bool.false_eq_true, if_false]
  have hp1 (f : Part → Part) (u : State) (hu : u.parts = s.parts) : c.part = c.part ∧ c.part < (u.updPart c.part f).parts.length :=
    ⟨rfl, by simp only [State.updPart, List.length_modify, hu]; exact hp⟩
  rw [State.part_updPart, if_pos (hp1 _ _ (by rfl)), State.part_updPart, if_pos ⟨rfl, hp⟩]
  exact ⟨_, rfl, rfl, rfl, rfl⟩

/-- What the end of copy `c` leaves, where the status `st` of its record `C` is written in the state `S`. -/
def State.CopyEnded (s : State) (c : Copy) (S : State) (C : Copy) (st : Nat) (u : State) : Prop :=
  u.copies = s.copies.filter (·.id ≠ c.id) ∧
  (∀ tag, c.tag = some tag → u.mem = (S.statusWritten C st).mem ∧ u.lines = (S.statusWritten C st).lines ∧
    ∀ wv, S.wave? tag c.wave = some wv → ∃ v, u.wave? tag c.wave = some v ∧ v.fflags = wv.fflags ||| C.flags.setWidth 64 ∧
      ∀ n, v.evr n = if c.ev = some n then wv.evr n - 1 else wv.evr n) ∧
  (∀ g gr, c.tag = none → c.grid = some g → S.grid? g = some gr → gr.parent = none → c.part < s.parts.length → ∃ y,
    (u.part c.part).compl = (S.part c.part).compl ++ [y] ∧ y.lrec = gr.lrec ∧ y.status = 0 ∧ y.cstat = st)
theorem State.copyStatus_ended {s S : State} {c C : Copy} {st : Nat} (hcop : S.copies.filter (·.id ≠ c.id) = s.copies.filter (·.id ≠ c.id))
    (hlen : S.parts.length = s.parts.length) (hC : ∃ p b f r, C = { c with pos := p, poisoned := b, flags := f, fin := r })
    (hv : S.vcheckK (S.copyVia C) C.part C.asid (C.desc + 0x3C) 4 C.sys true = []) : s.CopyEnded c S C st (S.copyStatus C st) := by
  rw [State.copyStatus_ends hv]
  have hw := S.copyWrites_statusWritten C st
  obtain ⟨p, b, f, r, rfl⟩ := hC
  unfold State.CopyEnded
  generalize S.statusWritten { c with pos := p, poisoned := b, flags := f, fin := r } st = T at hw ⊢
  refine ⟨?_, fun tag htag => ?_, fun g gr htag hgrid hg hpar hp => ?_⟩
  · rw [State.copyEnd_copies, hw.copies]
    exact hcop
  · obtain ⟨hm, hl, hwave⟩ := State.copyEnd_team (s := T) (c := { c with pos := p, poisoned := b, flags := f, fin := r }) htag st
    refine ⟨hm, hl, fun wv hs => ?_⟩
    obtain ⟨x, y, hT⟩ := hw.waves tag c.wave wv hs
    obtain ⟨v, hv, hf, he⟩ := hwave _ hT
    exact ⟨v, hv, hf, he⟩
  · rw [← hw.compl]
    exact State.copyEnd_record (s := T) (c := { c with pos := p, poisoned := b, flags := f, fin := r }) htag hgrid
      (by rw [← hg]; unfold State.grid?; rw [hw.grids]) hpar (by rw [hw.length, hlen]; exact hp) st

section
variable {s : State} {c : Copy} (hc : s.copies.find? (·.id == c.id) = some c)
include hc
theorem copyComplete_held (h : c.holds ≠ []) : exec (.copyComplete c.id) s = .refused (.notEnabled "COPY_COMPLETE") := by
  show execCopyComplete c.id s = _
  simp only [execCopyComplete, hc, if_pos h]
variable (hh : c.holds = [])
include hh
theorem copyComplete_reads (hb : c.bytes = []) {bs : List Byte} (hr : s.vread .agent c.part c.asid c.desc 128 c.sys = .ok bs) :
    exec (.copyComplete c.id) s = .next ((s.vtouch .agent c.part c.asid c.desc 128 c.sys true).copyGo { c with bytes := bs }) := by
  show execCopyComplete c.id s = _
  simp only [execCopyComplete, hc, hh, hb, ne_eq, not_true_eq_false, if_false, if_true, hr]
theorem copyComplete_unreadable (hb : c.bytes = []) {e : Bad} (hr : s.vread .agent c.part c.asid c.desc 128 c.sys = .error e) (he : ∀ ps, e ≠ .fault ps) :
    exec (.copyComplete c.id) s = .next (s.copyEnd c 8) := by
  show execCopyComplete c.id s = _
  simp only [execCopyComplete, hc, hh, hb, ne_eq, not_true_eq_false, if_false, if_true, hr]
theorem copyComplete_goes (hb : c.bytes ≠ []) : exec (.copyComplete c.id) s = .next (s.copyGo c) := by
  show execCopyComplete c.id s = _
  simp only [execCopyComplete, hc, hh, ne_eq, not_true_eq_false, if_false, if_neg hb]
end

theorem State.setCopy_others (s : State) {c : Copy} {id : Nat} (h : c.id = id) : (s.setCopy c).copies.filter (·.id ≠ id) = s.copies.filter (·.id ≠ id) := by
  subst h
  unfold setCopy
  dsimp only
  induction s.copies with
  | nil => rfl
  | cons x r ih =>
    rw [List.map_cons]
    by_cases hx : x.id = c.id
    · simpa [hx] using ih
    · simpa [hx] using ih

/-! A unit from scratch to scratch -/

/-- Without poison a unit of an unconverted copy is what was read. -/
theorem Copy.out_clean {c : Copy} (hsf : c.sf = 16) (free : Nat) (dst : Int) {bs : List BV} (h : ∀ x ∈ bs, x.bad = false) : c.out free bs dst = (bs, 0) := by
  have hf : bs.zipIdx.filter (·.1.bad) = [] := by
    simp only [List.filter_eq_nil_iff]
    exact fun x hx => by simp [h x.1 (List.fst_mem_of_mem_zipIdx hx)]
  unfold out
  simp only [hsf, if_true, hf, List.map_nil, List.contains_nil, Bool.false_eq_true, if_false, Prod.mk.injEq, and_true]
  exact List.zipIdx_map_fst 0 bs
/-- The bytes of a unit, from scratch. -/
def Team.scrBytes (t : Team) (free a n : Nat) : List BV := (List.range n).map (fun i => BV.of (t.scrByte free (a + i)))
/-- And where they go. -/
def Team.scrMoved (t : Team) (free a b n : Nat) : List (Nat × BV) := (List.range n).map (fun i => (b + i, BV.of (t.scrByte free (a + i))))

theorem Team.scrPut_scratch (t : Team) (ws : List (Nat × BV)) (h : ∀ x ∈ ws, x.2.und = false) :
    (t.scrPut ws).scratch = ws.foldl (fun m x => sput m x.1 x.2.b) t.scratch := by
  unfold scrPut
  dsimp only
  induction ws generalizing t with
  | nil => rfl
  | cons x r ih =>
    rw [List.foldl_cons, List.foldl_cons, ih _ (fun y hy => h y (List.mem_cons_of_mem x hy))]
    simp only [h x List.mem_cons_self, Bool.false_eq_true, if_false]
theorem shas_scrMoved (t : Team) (free a b x : Nat) (m : Sparse Byte) : ∀ n, shas ((t.scrMoved free a b n).foldl (fun m x => sput m x.1 x.2.b) m) x =
    if b ≤ x ∧ x < b + n then some (t.scrByte free (a + (x - b))) else shas m x
  | 0 => by simp [Team.scrMoved]
  | n + 1 => by
    have ih := shas_scrMoved t free a b x m n
    unfold Team.scrMoved at ih ⊢
    rw [List.range_succ, List.map_append, List.foldl_append, List.map_singleton, List.foldl_cons, List.foldl_nil, shas_sput, ih]
    by_cases hx : b + n = x
    · subst hx
      simp [BV.of]
    · rw [if_neg hx]
      by_cases h1 : b ≤ x ∧ x < b + n
      · rw [if_pos h1, if_pos ⟨h1.1, by omega⟩]
      · rw [if_neg h1, if_neg (by omega)]
/-- A unit from scratch to scratch whose bytes are sound and not of its own source, in the team's memory. -/
theorem copyUnit_scratch {s : State} {c : Copy} {tag : Nat} {t : Team} {a b n : Nat} (htag : c.tag = some tag) (ht : s.team? tag = some t)
    (hf : c.fscr = true) (ht' : c.tscr = true) (hsf : c.sf = 16) (hsrc : c.src c.pos = (((a : Nat) : Int), n)) (hdst : c.dst c.pos = (((b : Nat) : Int), n))
    (ha : a + n ≤ s.copyScr c) (hb : b + n ≤ s.copyScr c)
    (hok : ∀ i, i < n → s.copyOverlap c (b + i : Nat) = false ∧ t.scrBad (a + i) 1 = none) :
    s.copyUnit c = .ok ({ s.copyWrite c (t.scrMoved s.free a b n) with free := (s.copyWrite c (t.scrMoved s.free a b n)).free + 1 }, { c with pos := c.pos + 1 }) := by
  have hread : s.copyRead c (a : Int) n = .ok (t.scrBytes s.free a n) := by
    have hbnd : ¬((a : Int) < 0 ∨ (a : Int).toNat + n > s.copyScr c) := by omega
    simp only [State.copyRead, hf, htag, Option.bind_some, ht, if_true]
    rw [if_neg hbnd]
    refine congrArg Except.ok (List.map_congr_left fun i hi => ?_)
    rw [Int.toNat_natCast, (hok i (List.mem_range.1 hi)).2]
    rfl
  have hcheck : s.copyCheck c (b : Int) n = [] := by
    have hbnd : ¬((b : Int) < 0 ∨ (b : Int).toNat + n > s.copyScr c) := by omega
    simp only [State.copyCheck, ht', if_true, if_neg hbnd]
  have hclean : ∀ x ∈ t.scrBytes s.free a n, x.bad = false := by
    intro x hx
    obtain ⟨i, -, rfl⟩ := List.mem_map.1 hx
    rfl
  have hhid (i : Int) : s.copyHidden c c.pos i = false := by simp [State.copyHidden, ht']
  have hws : (((t.scrBytes s.free a n).zipIdx.filter (fun x => !s.copyHidden c c.pos ((b : Int) + x.2))).map (fun x =>
      (if c.tscr then ((b : Int) + x.2).toNat else vaOf ((b : Int) + x.2), if s.copyOverlap c ((b : Int) + x.2)
        then ({ b := (Config.freeWord s.free 900 (c.pos + x.2)).setWidth 8, bad := x.1.bad, und := true } : BV) else x.1))) = t.scrMoved s.free a b n := by
    simp only [hhid, Bool.not_false, List.filter_true, ht', if_true]
    apply List.ext_getElem
    · simp [Team.scrBytes, Team.scrMoved]
    · intro i h1 h2
      have hi : i < n := by simpa [Team.scrMoved] using h2
      have ho := (hok i hi).1
      rw [Int.natCast_add] at ho
      simp [Team.scrBytes, Team.scrMoved, ho]
      omega
  have hany : (t.scrBytes s.free a n).any (·.bad) = false := by simpa using hclean
  unfold State.copyUnit
  simp only [hsrc, hdst, hread, hcheck, Copy.out_clean hsf s.free _ hclean]
  rw [hws, hany]
  simp only [worstK, worst, State.copyTouch, hf]
  simp
theorem copyUnit_scratch_team {s : State} {c : Copy} {tag : Nat} {t : Team} {a b n : Nat} (htag : c.tag = some tag) (ht : s.team? tag = some t)
    (ht' : c.tscr = true) :
    ∃ t1, (s.copyWrite c (t.scrMoved s.free a b n)).team? tag = some t1 ∧
      ∀ x, shas t1.scratch x = if b ≤ x ∧ x < b + n then some (t.scrByte s.free (a + (x - b))) else shas t.scratch x := by
  unfold State.copyWrite
  simp only [ht', htag, if_true]
  have hput : (s.updTeam tag (·.scrPut (t.scrMoved s.free a b n))).team? tag = some (t.scrPut (t.scrMoved s.free a b n)) := by
    rw [State.team?_updTeam _ _ _ _ (fun t => t.scrPut_tag _), if_pos rfl, ht]
    rfl
  refine ⟨_, (State.team?_mapTeams _ _ (fun _ => by exact rfl) tag).trans (congrArg (Option.map _) hput), fun x => ?_⟩
  · dsimp only
    rw [Team.scrPut_scratch, shas_scrMoved]
    intro y hy
    obtain ⟨i, -, rfl⟩ := List.mem_map.1 hy
    rfl

section
variable {s : State} {c : Copy} (hc : s.copies.find? (·.id == c.id) = some c) (hh : c.holds = []) (hb : c.bytes ≠ [])
include hc hh hb
/-- The status of a copy that has one. -/
theorem copyComplete_fin {st : Nat} (hfin : c.fin = some st) (hv : s.vcheckK (s.copyVia c) c.part c.asid (c.desc + 0x3C) 4 c.sys true = []) :
    ∃ u, exec (.copyComplete c.id) s = .next u ∧ s.CopyEnded c s c st u := by
  refine ⟨_, copyComplete_goes hc hh hb, ?_⟩
  unfold State.copyGo
  simp only [hfin]
  exact State.copyStatus_ended rfl rfl ⟨_, _, _, _, rfl⟩ hv
/-- The status of a copy whose descriptor is bad (R248). -/
theorem copyComplete_bad (hfin : c.fin = none) (hbad : c.bad = true)
    (hv : (s.setCopy { c with fin := some 1 }).vcheckK ((s.setCopy { c with fin := some 1 }).copyVia { c with fin := some 1 }) c.part c.asid (c.desc + 0x3C) 4
      c.sys true = []) :
    ∃ u, exec (.copyComplete c.id) s = .next u ∧ s.CopyEnded c (s.setCopy { c with fin := some 1 }) { c with fin := some 1 } 1 u := by
  refine ⟨_, copyComplete_goes hc hh hb, ?_⟩
  unfold State.copyGo
  simp only [hfin, hbad, if_true]
  exact State.copyStatus_ended (s.setCopy_others rfl) rfl ⟨_, _, _, _, rfl⟩ hv
/-- The status of a copy whose data part has run. -/
theorem copyComplete_ran {s1 : State} {c1 : Copy} {st : Nat} (hfin : c.fin = none) (hbad : c.bad = false)
    (hrun : s.copyRun (c.units - c.pos) c = (s1, c1)) (hst : c1.fin = some st)
    (hv : (s1.setCopy c1).vcheckK ((s1.setCopy c1).copyVia c1) c1.part c1.asid (c1.desc + 0x3C) 4 c1.sys true = []) :
    ∃ u, exec (.copyComplete c.id) s = .next u ∧ s.CopyEnded c (s1.setCopy c1) c1 st u := by
  refine ⟨_, copyComplete_goes hc hh hb, ?_⟩
  obtain ⟨hw, p, b, f, hc1⟩ := copyRun_ends _ _ _ hfin hrun hst
  unfold State.copyGo
  simp only [hfin, hbad, Bool.false_eq_true, if_false, hrun, hst]
  refine State.copyStatus_ended ?_ hw.length ⟨p, b, f, _, hc1⟩ hv
  rw [State.setCopy_others s1 (by rw [hc1]), hw.copies]
end

/-! ### STREAM_PUSH (R250 to R252) -/

theorem State.gangOf_of {s : State} {tag : Nat} {t : Team} {g : Gang} (ht : s.team? tag = some t) (hg : s.gang? t.gid = some g) : s.gangOf tag = some g := by
  simp only [gangOf, ht, Option.bind_some, hg]
theorem State.team?_streamTouch (s : State) (t : Team) (esz : Nat) (addrs : List Nat) (tag : Nat) : (s.streamTouch t esz addrs).team? tag = s.team? tag := by
  refine foldl_keeps (fun u => u.team? tag = s.team? tag) _ (fun u a h => ?_) addrs s rfl
  split
  · rw [← h]
    have e := congrArg State.teams (u.sansCache_touch (t.via .core) t.part t.asid a esz t.sys .read false)
    exact congrArg (List.find? (·.tag == tag)) e
  · exact h
/-- A stream that pushes next is not an earlier one. -/
theorem KObj.nextFed_bounds {k : KObj} {m n : Nat} (h : k.nextFed m = some n) : m ≤ n ∧ n < 8 := by
  have hm := List.mem_of_mem_head? (Option.mem_def.2 h)
  simp only [List.mem_filter, List.mem_range, Bool.and_eq_true, decide_eq_true_eq] at hm
  exact ⟨hm.2.1, hm.1⟩

/-- The entry that stream `n` of the program pushes (R250, R41). -/
def State.streamEntry (s : State) (t : Team) (k : KObj) (n : Nat) (st : Stream) : QEnt :=
  let addrs := byLane (fun l => k.streamAddr st (t.aq.base.getD n 0) t.aq.it l)
  { id := s.nextId, words := addrs.map (s.streamLane t st.esz), addrs := addrs, popped := false, bad := 0, rids := [], redo := [] }
/-- The team with an entry pushed on stream `n`. -/
def Team.pushed (t : Team) (n : Nat) (e : QEnt) : Team := { t with aq := { t.aq with ns := n + 1, q := t.aq.q.set n (t.aq.q.getD n [] ++ [e]) } }
/-- The state with one entry pushed. -/
def State.pushOne (s : State) (t : Team) (k : KObj) (n : Nat) (st : Stream) : State :=
  let u := s.streamTouch t st.esz (s.streamEntry t k n st).addrs
  { u.updTeam t.tag (·.pushed n (s.streamEntry t k n st)) with nextId := u.nextId + 1 }
theorem State.pushOne_team {s : State} {t : Team} (ht : s.team? t.tag = some t) (k : KObj) (n : Nat) (st : Stream) :
    (s.pushOne t k n st).team? t.tag = some (t.pushed n (s.streamEntry t k n st)) := by
  refine (State.team?_updTeam (s.streamTouch ..) t.tag t.tag _ (fun _ => by exact rfl)).trans ?_
  rw [if_pos rfl, State.team?_streamTouch, ht]
  rfl
theorem State.pushes_succ {s : State} {t : Team} {k : KObj} {n : Nat} {st : Stream} (ht : s.team? t.tag = some t) (hn : k.nextFed t.aq.ns = some n)
    (hroom : t.freeQ k n ≠ 0) (hst : k.streams[n]? = some st) (fuel : Nat) : s.pushes t.tag k (fuel + 1) = (s.pushOne t k n st).pushes t.tag k fuel := by
  rw [State.pushes]
  simp only [ht, hn, if_neg hroom, hst]
  rfl
theorem Team.pushed_earlier (t : Team) (e : QEnt) {m n : Nat} (h : n ≠ m) : (t.pushed m e).aq.q.getD n [] = t.aq.q.getD n [] := by
  simp only [pushed, List.getD_eq_getElem?_getD, List.getElem?_set_ne h.symm]
/-- Pushes of later streams leave the queue of an earlier one alone. -/
theorem State.pushes_earlier (k : KObj) (n : Nat) : ∀ (fuel : Nat) (s : State) (t : Team), s.team? t.tag = some t → n < t.aq.ns →
    ∃ t', (s.pushes t.tag k fuel).team? t.tag = some t' ∧ t'.aq.q.getD n [] = t.aq.q.getD n []
  | 0, s, t, ht, _ => ⟨t, ht, rfl⟩
  | fuel + 1, s, t, ht, hns => by
    cases hn : k.nextFed t.aq.ns with
    | none =>
      refine ⟨{ t with aq := { t.aq with it := t.aq.it + 1, ns := 0, run := t.aq.it + 1 < k.iters } }, ?_, rfl⟩
      rw [State.pushes]
      simp only [ht, hn]
      rw [State.team?_updTeam _ _ _ _ (fun _ => by exact rfl), if_pos rfl, ht]
      rfl
    | some m =>
      by_cases hroom : t.freeQ k m = 0
      · refine ⟨t, ?_, rfl⟩
        rw [State.pushes]
        simp only [ht, hn, hroom, if_true]
      · cases hst : k.streams[m]? with
        | none =>
          refine ⟨t, ?_, rfl⟩
          rw [State.pushes]
          simp only [ht, hn, if_neg hroom, hst]
        | some st =>
          have hm := (KObj.nextFed_bounds hn).1
          rw [State.pushes_succ ht hn hroom hst]
          obtain ⟨t', ht', hq⟩ := State.pushes_earlier k n fuel (s.pushOne t k m st) (t.pushed m (s.streamEntry t k m st)) (State.pushOne_team ht k m st)
            (by exact (by omega : n < m + 1))
          exact ⟨t', ht', hq.trans (t.pushed_earlier _ (by omega))⟩

section
variable {s : State} {t : Team} {g : Gang} (ht : s.team? t.tag = some t) (hg : s.gang? t.gid = some g)
include ht hg
theorem streamPush_refused (h : s.placed t = false ∨ t.retired = true ∨ t.mayPush g.kobj = false) :
    exec (.streamPush t.tag) s = .refused (.notEnabled "STREAM_PUSH") := by
  show execStreamPush t.tag s = _
  simp only [execStreamPush, ht, State.gangOf_of ht hg]
  rw [if_neg]
  rcases h with h | h | h <;> simp [h]
theorem streamPush_appends {n : Nat} {st : Stream} (hp : s.placed t = true) (hr : t.retired = false) (hm : t.mayPush g.kobj = true)
    (hn : g.kobj.nextFed t.aq.ns = some n) (hst : g.kobj.streams[n]? = some st) (hq : t.aq.q.length = 8) :
    ∃ u t', exec (.streamPush t.tag) s = .next u ∧ u.team? t.tag = some t' ∧ t'.aq.q.getD n [] = t.aq.q.getD n [] ++ [s.streamEntry t g.kobj n st] := by
  have hroom : t.freeQ g.kobj n ≠ 0 := by
    simp only [Team.mayPush, hn, Option.any_some, Bool.and_eq_true, decide_eq_true_eq] at hm
    omega
  obtain ⟨t', ht', hq'⟩ := State.pushes_earlier g.kobj n 8 (s.pushOne t g.kobj n st) (t.pushed n (s.streamEntry t g.kobj n st))
    (State.pushOne_team ht g.kobj n st) (Nat.lt_succ_self n)
  refine ⟨_, t', ?_, ht', hq'.trans ?_⟩
  · show execStreamPush t.tag s = _
    simp only [execStreamPush, ht, State.gangOf_of ht hg, hp, hr, hm, Bool.not_false, Bool.and_self, if_true]
    rw [State.pushes_succ ht hn hroom hst]
    rfl
  · have hlt := (KObj.nextFed_bounds hn).2
    simp only [Team.pushed, List.getD_eq_getElem?_getD, List.getElem?_set_self (by omega : n < t.aq.q.length), Option.getD_some]
end

/-! ### SLUICE_TIMEOUT and SLUICE_DEADLOCK (R393, R394) -/

/-- The lanes that a SLIN still holds, as the check for its limit sees it (R393). -/
def EndOp.inRuns (e : EndOp) (wv : Wave) : EndOp := { e with lanes := e.lanes &&& wv.endMask e.iss }
theorem Wave.late_none (wv : Wave) (cyc : Nat) : wv.late cyc = none ↔ ∀ r ∈ wv.regions, ∀ e h d a b, r.ended = some (.op e) → e.instr = .slin h d a b →
    e.since ≠ 0 → e.lim ≠ 0 → (e.inRuns wv).settled (e.inRuns wv).lanes = false → cyc - (e.since - 1) ≤ e.lim * 1200 := by
  unfold late
  rw [List.findSome?_eq_none_iff]
  refine forall₂_congr fun r _ => ?_
  split
  · next e he =>
    dsimp only
    split
    · next h d a b hi =>
      constructor
      · intro hn e' h' d' a' b' he' hi' hs hl hset
        obtain rfl : e = e' := by simpa [he] using he'
        by_contra hc
        refine absurd hn ?_
        rw [if_pos ⟨hs, hl, by omega, by rw [Bool.not_eq_true']; exact hset⟩]
        exact Option.some_ne_none _
      · intro hall
        rw [if_neg]
        rintro ⟨hs, hl, hlt, hset⟩
        have := hall e h d a b he hi hs hl (by rw [Bool.not_eq_true'] at hset; exact hset)
        omega
    · next hno => exact iff_of_true rfl fun e' h' d' a' b' he' hi' => absurd hi' (by
        obtain rfl : e = e' := by simpa [he] using he'
        exact hno h' d' a' b')
  · next hno => exact iff_of_true rfl fun e' h' d' a' b' he' => absurd he' (hno e')

section
variable {s : State} {tag w : Nat} {wv : Wave} (hw : s.wave? tag w = some wv)
include hw
theorem sluiceTimeout_traps {r : Region} {e : EndOp} (h : wv.late s.cycle = some (r, e)) :
    exec (.sluiceTimeout tag w) s = .next (s.takeTrap tag w (e.mask &&& wv.endMask e.iss)
      { cause := 0x0D, lanes := e.lanes, addr := e.site, region := r.start, after := false, faddr := 0 }) := by
  show execSluiceTimeout tag w s = _
  simp only [execSluiceTimeout, hw, h]
theorem sluiceTimeout_refused (h : wv.late s.cycle = none) : exec (.sluiceTimeout tag w) s = .refused (.notEnabled "SLUICE_TIMEOUT") := by
  show execSluiceTimeout tag w s = _
  simp only [execSluiceTimeout, hw, h]
end

theorem sluiceDeadlock_refused {s : State} {p : Nat}
    (h : ∀ c, (s.part p).blockedAt = some c → s.cycle < c + 1200000 ∨ (s.part p).snapped = true ∨ s.allBlocked p = false) :
    exec (.sluiceDeadlock p) s = .refused (.notEnabled "SLUICE_DEADLOCK") := by
  show execSluiceDeadlock p s = _
  unfold execSluiceDeadlock
  cases hb : (s.part p).blockedAt with
  | none => rfl
  | some c =>
    dsimp only
    rw [if_pos]
    rcases h c hb with h | h | h <;> simp [h]
theorem sluiceDeadlock_traps {s : State} {p c : Nat} (hb : (s.part p).blockedAt = some c) (hc : c + 1200000 ≤ s.cycle) (hs : (s.part p).snapped = false)
    (ha : s.allBlocked p = true) :
    exec (.sluiceDeadlock p) s = .next ((s.blockedWaves p).foldl (fun u x => u.takeTrap x.1.tag x.2.ix 0 (s.deadlockTrap x.1 x.2))
      ((s.snapshot p).updPart p (fun q => { q with snapped := true }))) := by
  show execSluiceDeadlock p s = _
  have hlt : ¬s.cycle < c + 1200000 := by omega
  simp only [execSluiceDeadlock, hb, hlt, hs, ha, decide_false, Bool.not_true, Bool.or_self, Bool.false_eq_true, if_false, List.foldl_map]

/-! ### The beam engine (R322) -/

@[simp] theorem Team.record_setRec (t : Team) (n : Nat) (r : PoolRec) : (t.setRec n r).record n = r := by
  simp only [record, setRec, shas_sput, if_true, Option.getD_some]
@[simp] theorem Team.setRec_tag (t : Team) (n : Nat) (r : PoolRec) : (t.setRec n r).tag = t.tag := rfl
/-- A team put in the place of the one of its tag. -/
theorem State.team?_updTeam_const {s : State} {tag : Nat} {t t' : Team} (ht : s.team? tag = some t) (h : t'.tag = tag) :
    (s.updTeam tag (fun _ => t')).team? tag = some t' := by
  have hsame : (fun x : Team => (if x.tag = tag then t' else x).tag == tag) = (fun x : Team => x.tag == tag) := funext fun x => by
    split
    · next e => rw [h, e]
    · rfl
  have htag : t.tag = tag := by simpa using List.find?_some ht
  unfold updTeam team?
  rw [List.find?_map]
  refine (congrArg (Option.map _) ((congrArg (fun p => s.teams.find? p) hsame).trans ht)).trans ?_
  rw [Option.map_some, if_pos htag]
theorem State.team?_seenTouch (s : State) (t : Team) (sys : Bool) (new : Seen) (tag : Nat) : (s.seenTouch t sys new).team? tag = s.team? tag := by
  have e := congrArg State.teams (State.sansCache_foldl (fun (s : State) (x : Nat × List Byte) => s.engTouch (t.via .dev) t false x.1 x.2.length sys)
    (fun s x => s.sansCache_touch ..) new.reverse s)
  exact congrArg (List.find? (·.tag == tag)) e

theorem State.passRays_tag (s : State) (t : Team) (n : Nat) (r : PoolRec) : (s.passRays t n r).1.tag = t.tag := rfl
theorem State.passTree_tag {α : Type} (s : State) (t : Team) (k : KObj) (n : Nat) (r : PoolRec) (bk : BeamKind α)
    (frs : List (Child α) → List Ray → (Hit → Option Machine.Shown) → List (List Word)) : (s.passTree t k n r bk frs).1.tag = t.tag := by
  have hfold (l : List Nat) : (l.foldl (fun (t : Team) c => t.setRec c { (t.record c) with st := .ready, root := n, isRay := false, cast := 0, ev := none }) t).tag = t.tag :=
    foldl_keeps (fun u : Team => u.tag = t.tag) _ (fun u a h => by exact h) l t rfl
  unfold passTree
  dsimp only
  split
  · rfl
  · split
    · exact hfold _
    · exact hfold _
theorem State.passBeam_tag (s : State) (t : Team) (k : KObj) (n : Nat) (r : PoolRec) : (s.passBeam t k n r).1.tag = t.tag := by
  unfold passBeam
  split
  · exact s.passTree_tag ..
  · exact s.passTree_tag ..
  · exact s.passTree_tag ..

/-- The pass that the engine makes over record `n`. -/
def State.pass (s : State) (t : Team) (k : KObj) (n : Nat) : Team × Option WalkBad :=
  if (t.record n).isRay then s.passRays t n (t.record n) else s.passBeam t k n (t.record n)
theorem State.pass_tag (s : State) (t : Team) (k : KObj) (n : Nat) : (s.pass t k n).1.tag = t.tag := by
  unfold pass
  split
  · exact s.passRays_tag ..
  · exact s.passBeam_tag ..

section
variable {s : State} {t : Team} {g : Gang} (ht : s.team? t.tag = some t) (hg : s.gang? t.gid = some g) (n : Nat)
include ht hg
/-- A pass that runs to its stop gives the team it leaves. -/
theorem runRec_team (h : (s.pass t g.kobj n).2 = none) : (s.runRec t.tag n).team? t.tag = some (s.pass t g.kobj n).1 := by
  have htag := s.pass_tag t g.kobj n
  have hrun : s.runRec t.tag n = { (s.seenTouch t (t.record n).sys (((s.pass t g.kobj n).1.record n).seen.filter (fun y => !(t.record n).seen.contains y))).updTeam
      t.tag (fun _ => (s.pass t g.kobj n).1) with free := s.free + 1024 } := by
    unfold State.runRec
    simp only [ht, State.gangOf_of ht hg]
    rw [show (if (t.record n).isRay then s.passRays t n (t.record n) else s.passBeam t g.kobj n (t.record n)) = s.pass t g.kobj n from rfl, h]
  rw [hrun]
  exact State.team?_updTeam_const ((s.team?_seenTouch ..).trans ht) htag
/-- A malformed scene fails the record (R323). -/
theorem runRec_malformed (h : (s.pass t g.kobj n).2 = some .malformed) :
    ∃ t', (s.runRec t.tag n).team? t.tag = some t' ∧ (t'.record n).st = .failed ∧ (t'.record n).cause = 0x14 := by
  have htag := s.pass_tag t g.kobj n
  refine ⟨(s.pass t g.kobj n).1.setRec n { (s.pass t g.kobj n).1.record n with st := .failed, cause := 0x14, seen := [], cands := [] }, ?_, by simp, by simp⟩
  have hrun : s.runRec t.tag n = (s.seenTouch t (t.record n).sys (((s.pass t g.kobj n).1.record n).seen.filter (fun y => !(t.record n).seen.contains y))).updTeam
      t.tag (fun _ => (s.pass t g.kobj n).1.setRec n { (s.pass t g.kobj n).1.record n with st := .failed, cause := 0x14, seen := [], cands := [] }) := by
    unfold State.runRec
    simp only [ht, State.gangOf_of ht hg]
    rw [show (if (t.record n).isRay then s.passRays t n (t.record n) else s.passBeam t g.kobj n (t.record n)) = s.pass t g.kobj n from rfl, h]
  rw [hrun]
  exact State.team?_updTeam_const ((s.team?_seenTouch ..).trans ht) htag
end

/-- Rays that have all ended stay as they are. -/
theorem Ray.run_fin (cast : Nat) (rd : Nat → Nat → Except Bad (List Byte)) (first sh : Bool) (ix : Nat) {r : Ray} (h : r.fin = true) (cs : List Cand) (k : Seen) :
    Ray.run cast rd first sh ix walkFuel r cs k = { ray := r, cands := cs, seen := k, bad := none } := by
  obtain ⟨n, hn⟩ : ∃ n, walkFuel = n + 1 := ⟨2 ^ 40 - 1, rfl⟩
  rw [hn, Ray.run]
  simp [h]
theorem runRays_fin (cast : Nat) (rd : Nat → Nat → Except Bad (List Byte)) (first sh : Bool) : ∀ (rs : List Ray) (i : Nat) (cs : List Cand) (k : Seen),
    (∀ y ∈ rs, y.fin = true) → runRays cast rd first sh rs i cs k = (rs, cs, k, none)
  | [], _, _, _, _ => rfl
  | y :: ys, i, cs, k, h => by
    rw [runRays]
    simp only [Ray.run_fin cast rd first sh i (h y List.mem_cons_self) cs k]
    rw [runRays_fin cast rd first sh ys (i + 1) cs k (fun z hz => h z (List.mem_cons_of_mem y hz))]
/-- A ray record without candidates whose rays have all ended is complete (R322). -/
theorem State.passRays_fin (s : State) (t : Team) (n : Nat) {r : PoolRec} (hc : r.cands = []) (h : ∀ y ∈ r.rays, y.fin = true) :
    (s.passRays t n r).2 = none ∧ ((s.passRays t n r).1.record n).st = .ready := by
  unfold passRays
  simp only [runRays_fin _ _ _ _ r.rays 0 r.cands r.seen h, Option.isNone_none, if_true, Team.record_setRec, true_and]
  simp [PoolRec.settled, hc]

theorem mem_of_shas {α : Type} {m : Sparse α} {n : Nat} {x : α} (h : shas m n = some x) : (n, x) ∈ m := by
  induction m with
  | nil => cases h
  | cons y r ih =>
    rw [shas] at h
    split at h
    · next e =>
      obtain rfl := Option.some.inj h
      exact e ▸ List.mem_cons_self
    · exact List.mem_cons_of_mem y (ih h)

section
variable {s : State} {tag n : Nat} {t : Team} (ht : s.team? tag = some t)
include ht
theorem beamTreeSettled_runs (hr : s.recRuns t (t.record n) = true) (hray : (t.record n).isRay = false) (hroot : (t.record n).root = n) :
    exec (.beamTreeSettled tag n) s = .next ((s.runRec tag n).wakeBeams tag) := by
  show execBeamTreeSettled tag n s = _
  simp only [execBeamTreeSettled, ht]
  rw [if_pos (by simp [hr, hray, hroot])]
theorem beamTreeSettled_refused (h : s.recRuns t (t.record n) = false ∨ (t.record n).isRay = true ∨ (t.record n).root ≠ n) :
    exec (.beamTreeSettled tag n) s = .refused (.notEnabled "BEAM_TREE_SETTLED") := by
  show execBeamTreeSettled tag n s = _
  simp only [execBeamTreeSettled, ht]
  rw [if_neg]
  rcases h with h | h | h <;> simp [h]
/-- The only ray record of its cast that can run does. -/
theorem raysSettled_runs {x : PoolRec} (hx : shas t.pool n = some x) (hray : x.isRay = true) (hruns : s.recRuns t x = true) (hnd : (t.pool.map (·.1)).Nodup)
    (hone : ∀ m y, (m, y) ∈ t.pool → y.isRay = true → y.cast = x.cast → m = n) :
    exec (.raysSettled tag x.cast) s = .next ((s.runRec tag n).wakeBeams tag) := by
  have hmem : (n, x) ∈ t.pool := mem_of_shas hx
  have hns : (t.pool.filter (fun y => y.2.isRay && y.2.cast == x.cast && s.recRuns t y.2)).map (·.1) = [n] := by
    refine List.perm_singleton.1 ((List.perm_ext_iff_of_nodup (hnd.sublist (List.filter_sublist.map _)) (List.nodup_singleton n)).2 fun m => ?_)
    simp only [List.mem_map, List.mem_filter, Bool.and_eq_true, beq_iff_eq, List.mem_singleton]
    constructor
    · rintro ⟨⟨k, y⟩, ⟨hy, ⟨h1, h2⟩, -⟩, rfl⟩
      exact hone k y hy h1 h2
    · rintro rfl
      exact ⟨(m, x), ⟨hmem, ⟨hray, rfl⟩, hruns⟩, rfl⟩
  show execRaysSettled tag x.cast s = _
  simp only [execRaysSettled, ht, hns, List.foldl_cons, List.foldl_nil]
end

section
variable {s : State} {t : Team} {wv : Wave} {m : Lanes} {pc : DWord} {hs : List DWord} {h : Header}
  (hw : s.wave? t.tag wv.ix = some wv) (hf : s.fetch t wv (t.sys || wv.handler) pc.toNat 1 = .ok hs) (hh : Header.ofWord (hs.headD 0) = some h)
include hw hf hh
/-- The wave whose open runs an RB clause has ended (R464). -/
theorem State.enterAt_ended (hrb : h.rb = true) (he : wv.regions.any (wv.endsAt m) = true) :
    ∃ v, (s.enterAt t wv m pc).wave? t.tag wv.ix = some v ∧ wv.KeptRegs v ∧ wv.KeptPreds v ∧ v.bundle = wv.bundle ∧
      v.regions = wv.regions.map (fun r => if wv.endsAt m r then { r with ended := some .clause } else r) := by
  rw [State.enterAt_ends hf hh hrb he]
  exact ⟨_, State.wave?_updWave_of ((State.wave?_fetchTouch ..).trans hw) (fun _ => by exact rfl), ⟨fun _ _ => rfl, fun _ => rfl, fun _ => rfl⟩, fun _ => rfl, rfl, rfl⟩
/-- The wave whose bundle has entered the clause (R127, R51). -/
theorem State.enterAt_entered {ws : List DWord} (hne : ¬(h.rb = true ∧ wv.regions.any (wv.endsAt m) = true))
    (hws : s.fetch t wv (t.sys || wv.handler) (pc.toNat + 8) h.n = .ok ws) (hbad : clauseBad h ws = false) (hopen : h.rb = true ∨ wv.openIn m = slicesOf m) :
    ∃ v, (s.enterAt t wv m pc).wave? t.tag wv.ix = some v ∧ wv.KeptRegs v ∧ wv.KeptPreds v ∧
      v.bundle = some { h := pc, words := ws, ix := 0, chk := h.chk, rb := h.rb, mask := m } ∧
      (h.rb = true → ∀ sl ∈ slicesOf m, wv.region? sl = none → ∃ r, v.region? sl = some r ∧ r.start = pc ∧ r.stores = [] ∧ r.ended = none) ∧
      (h.rb = false → v.regions = wv.regions) := by
  rw [State.enterAt_enters hf hh hne hws hbad hopen]
  refine ⟨_, State.wave?_updWave_of (s := (s.fetchTouch ..).loopFill ..) ((State.wave?_loopFill ..).trans ((State.wave?_fetchTouch ..).trans hw)) (fun _ => by exact rfl),
    ⟨fun _ _ => rfl, fun _ => rfl, fun _ => rfl⟩, fun _ => rfl, rfl, fun hrb sl => wv.enterClause_region? _ m pc h ws hrb sl, fun hrb => ?_⟩
  obtain ⟨sls, hr, hnil, -⟩ := wv.enterClause_regions (s.fetchTouch t wv (t.sys || wv.handler) pc.toNat (h.n + 1)).nextId m pc h ws
  rw [hr, hnil hrb, List.map_nil, List.append_nil]
end
end Sys2Proof.Machine

/-- Settles O55: each agent of a team, by its cases. -/
theorem teamAgents : Obligations.TeamAgents := by
  unfold Obligations.TeamAgents
  refine ⟨?clause, ?copy, ?stream, ?timeout, fun s p => sluiceDeadlock_refused, fun s p c => sluiceDeadlock_traps, ?beam⟩
  case clause =>
    intro s tag w t wv ht hw
    obtain rfl : t.tag = tag := by simpa using List.find?_some ht
    obtain rfl : wv.ix = w := by simpa using List.find?_some hw
    have hs := State.wave?_of_team ht hw
    refine ⟨clauseEntry_refused ht hw, fun pc hs' hb hpc hf => ⟨fun hh => ?_, fun h hh => ⟨fun hrb he => ?_, fun ws hne hws hbad hopen => ?_⟩⟩⟩
    · rw [clauseEntry_enters ht hw hb hpc, State.enterAt_noHeader hf hh]
    · exact ⟨_, (State.enterAt_ended hs hf hh hrb he).imp fun v hv => ⟨clauseEntry_enters ht hw hb hpc, hv⟩⟩
    · exact ⟨_, (State.enterAt_entered hs hf hh hne hws hbad hopen).imp fun v hv => ⟨clauseEntry_enters ht hw hb hpc, hv⟩⟩
  case copy =>
    intro s id c hc
    obtain rfl : c.id = id := by simpa using List.find?_some hc
    refine ⟨copyComplete_held hc, fun hh hb => ⟨fun bs => copyComplete_reads hc hh hb, fun e hr he => copyComplete_unreadable hc hh hb hr he⟩, fun hh hb => ?_, ?_⟩
    · exact ⟨fun st hfin => copyComplete_fin hc hh hb hfin, copyComplete_bad hc hh hb,
        fun s1 c1 st hfin hbad hrun hst => copyComplete_ran hc hh hb hfin hbad hrun hst⟩
    · intro tag t a b n htag ht hf ht' hsf hsrc hdst ha hb hok
      obtain ⟨t1, ht1, hbytes⟩ := copyUnit_scratch_team (a := a) (b := b) (n := n) htag ht ht'
      exact ⟨_, _, copyUnit_scratch htag ht hf ht' hsf hsrc hdst ha hb hok, rfl, (State.CopyWrites.copyWrite s c _).copies, t1, ht1, hbytes⟩
  case stream =>
    intro s tag t g ht hg
    obtain rfl : t.tag = tag := by simpa using List.find?_some ht
    refine ⟨streamPush_refused ht hg, fun n st hp hr hm hn hst hq => ?_⟩
    obtain ⟨u, t', hu, ht', he⟩ := streamPush_appends ht hg hp hr hm hn hst hq
    exact ⟨u, t', _, hu, ht', he, rfl, List.map_map, rfl⟩
  case timeout =>
    intro s tag w wv hw
    exact ⟨fun r e => sluiceTimeout_traps hw, sluiceTimeout_refused hw, wv.late_none s.cycle⟩
  case beam =>
    intro s tag n t g ht hg
    obtain rfl : t.tag = tag := by simpa using List.find?_some ht
    have hray (h : (t.record n).isRay = true) : s.pass t g.kobj n = s.passRays t n (t.record n) := if_pos h
    have hbeam (h : (t.record n).isRay = false) : s.pass t g.kobj n = s.passBeam t g.kobj n (t.record n) := if_neg (by simp [h])
    refine ⟨beamTreeSettled_runs ht, beamTreeSettled_refused ht, fun x => raysSettled_runs ht, fun h hc hfin => ?_, fun h hm => ?_, fun h hm => ?_,
      fun h hn => ?_, fun h hn => ?_⟩
    · obtain ⟨hnone, hready⟩ := s.passRays_fin t n hc hfin
      rw [← hray h] at hnone hready
      exact ⟨_, runRec_team ht hg n hnone, hready⟩
    · exact runRec_malformed ht hg n (by rw [hray h]; exact hm)
    · exact runRec_malformed ht hg n (by rw [hbeam h]; exact hm)
    · rw [← hray h] at hn ⊢
      exact runRec_team ht hg n hn
    · rw [← hbeam h] at hn ⊢
      exact runRec_team ht hg n hn

end

section
/-! PROOFS. A step by its pick (R55, R127, R130), the checks at issue in their order (R72, R53, R133, R32, R415, R134, R130), and the frame
of the instructions that only compute (R79). -/
open Sys2Proof Sys2Proof.Machine

namespace Sys2Proof.Machine
open Host (Outcome)

/-! ### What a step does, by its pick -/

theorem step_pick {s : State} {k : Pick} {r : List Pick} (h : s.sched = k :: r) : step s = wrap (runPick k { s.tick with sched := r }) := by
  have ht : s.tick.sched = k :: r := h
  simp only [step, ht]
theorem step_free {s : State} (h : s.sched = []) : step s = wrap (runFirst s.tick s.tick.picksNow) := by
  have ht : s.tick.sched = [] := h
  simp only [step, ht]

theorem runPick_event {i : Instr} (s : State) (h : isEvent i = true) : runPick (.event i) s = exec i s := if_pos h

section
variable {s : State} {tag w : Nat} {x : DWord} (hsel : s.maySelect exec tag w = true) (hx : s.nextWord tag w = some x)
include hsel hx
theorem runPick_issue {i : Instr} (hd : decode x = .ok i) : runPick (.issue tag w) s = exec i { s with cur := some (tag, w) } := by
  simp only [runPick, hsel, hx, hd, Bool.not_true, Bool.false_eq_true, if_false, State.at_]
theorem runPick_badWord {e : DecodeError} (hd : decode x = .error e) : runPick (.issue tag w) s = .next (s.badWord tag w x) := by
  simp only [runPick, hsel, hx, hd, Bool.not_true, Bool.false_eq_true, if_false]
end

theorem wrap_next_iff (o : Outcome State Fault Refusal) (t : State) : wrap o = .next t ↔ ∃ u, o = .next u ∧ t = u.wrapUp := by
  cases o with
  | next u => simp only [wrap, Outcome.next.injEq, exists_eq_left', eq_comm]
  | fault r => simp only [wrap, reduceCtorEq, false_and, exists_false]
  | refused r => simp only [wrap, reduceCtorEq, false_and, exists_false]

/-! ### The checks at issue, in their order -/

/-- An instruction of a wave that stands at an issue is no event. -/
theorem isEvent_of_ctx? {s : State} {i : Instr} {c : Ctx} (hc : s.ctx? i = some c) : isEvent i = false := by
  obtain ⟨-, -, -, -, -, ⟨h, hh, -⟩, -⟩ := ctx?_some s i c hc
  simp only [isEvent, hh, Option.isNone_some]

/-- An issue that a check stops answers that stop, whatever the instruction does. -/
theorem exec_stop {s : State} {i : Instr} {c : Ctx} {x : Stop} (hc : s.ctx? i = some c) (h : s.pre i = .stop c x) : exec i s = .next (s.stop c x) := by
  obtain ⟨k, hk⟩ := exec_issue i (isEvent_of_ctx? hc) s
  rw [hk, issue, h]

/-- May the wave of an issue issue now: its gang is placed, its stall is over, and nothing blocks it. -/
def Ctx.MayIssue (c : Ctx) (s : State) : Prop := c.gg.st = .placed ∧ c.wv.ready ≤ s.cycle ∧ c.wv.blocked = false

/-- The model's guard is that the wave may not issue. -/
theorem Ctx.mayIssue_iff (c : Ctx) (s : State) : c.MayIssue s ↔ (decide (c.gg.st ≠ .placed) || decide (s.cycle < c.wv.ready) || c.wv.blocked) = false := by
  simp only [MayIssue, Bool.or_eq_false_iff, decide_eq_false_iff_not, ne_eq, not_not, not_lt, and_assoc]
/-- Is there room for an instruction: its event counter is not full (R134), and no other pipe holds the SFU that it needs (R130). -/
def State.HasRoom (s : State) (c : Ctx) (i : Instr) : Prop :=
  (c.lanes = 0 ∨ ∀ n, i.counted = some n → c.wv.evr n < 63) ∧ s.sfuHeld c i = false

/-- The model's guard is that there is no room. -/
theorem State.hasRoom_iff (s : State) (c : Ctx) (i : Instr) :
    s.HasRoom c i ↔ (decide (c.lanes ≠ 0) && i.counted.any (fun n => decide (c.wv.evr n ≥ 63)) || s.sfuHeld c i) = false := by
  simp only [HasRoom, Bool.or_eq_false_iff, Bool.and_eq_false_iff, decide_eq_false_iff_not, ne_eq, not_not, Option.any_eq_false, ge_iff_le, not_le]

section
variable {s : State} {i : Instr} {c : Ctx} (hc : s.ctx? i = some c)
include hc

theorem pre_waits (h : ¬c.MayIssue s) : s.pre i = .stop c .wait := by
  rw [c.mayIssue_iff, Bool.not_eq_false] at h
  simp only [State.pre, hc, h, if_true]

variable (may : c.MayIssue s)
include may
theorem pre_illegal (h : c.illegal i = true) : s.pre i = .stop c (.trap 0x01 0) := by
  simp only [State.pre, hc, (c.mayIssue_iff s).1 may, h, Bool.false_eq_true, if_false, if_true]

variable (legal : c.illegal i = false)
include legal
theorem pre_denied (h : c.denied i = true) : s.pre i = .stop c (.trap 0x05 0) := by
  simp only [State.pre, hc, (c.mayIssue_iff s).1 may, legal, h, Bool.false_eq_true, if_false, if_true]

variable (allowed : c.denied i = false)
include allowed
theorem pre_early (h : c.early i = true) : s.pre i = .stop c (.trap 0x03 0) := by
  simp only [State.pre, hc, (c.mayIssue_iff s).1 may, legal, allowed, h, Bool.false_eq_true, if_false, if_true]

variable (inTime : c.early i = false)
include inTime
theorem pre_clobbers (h : c.clobbers i = true) : s.pre i = .stop c (.trap 0x04 0) := by
  simp only [State.pre, hc, (c.mayIssue_iff s).1 may, legal, allowed, inTime, h, Bool.false_eq_true, if_false, if_true]

variable (liveIn : c.clobbers i = false)
include liveIn
theorem pre_poison (h : c.readsPoison i = true) : s.pre i = .stop c (.trap 0x15 0) := by
  simp only [State.pre, hc, (c.mayIssue_iff s).1 may, legal, allowed, inTime, liveIn, h, Bool.false_eq_true, if_false, if_true]

variable (sound : c.readsPoison i = false)
include sound
theorem pre_full (h : ¬s.HasRoom c i) : s.pre i = .stop c .wait := by
  rw [s.hasRoom_iff, Bool.not_eq_false] at h
  simp only [State.pre, hc, (c.mayIssue_iff s).1 may, legal, allowed, inTime, liveIn, sound, h, Bool.false_eq_true, if_false, if_true]

variable (room : s.HasRoom c i)
include room
theorem pre_idle (h : c.lanes = 0) : s.pre i = .go c s := by
  have free := (s.hasRoom_iff c i).1 room
  rw [h] at free
  simp only [State.pre, hc, (c.mayIssue_iff s).1 may, legal, allowed, inTime, liveIn, sound, free, h, Bool.false_eq_true, if_false, if_true]
theorem pre_pops (h : c.lanes ≠ 0) {l : List (Nat × List Word)} {s' : State} (hq : State.popAll c (queuesOf i) s = .ok (l, s')) :
    s.pre i = .go { c with pops := l } s' := by
  simp only [State.pre, hc, (c.mayIssue_iff s).1 may, legal, allowed, inTime, liveIn, sound, (s.hasRoom_iff c i).1 room, h, hq, Bool.false_eq_true, if_false]
theorem pre_popStop (h : c.lanes ≠ 0) {e : Stop} (hq : State.popAll c (queuesOf i) s = .error e) : s.pre i = .stop c e := by
  simp only [State.pre, hc, (c.mayIssue_iff s).1 may, legal, allowed, inTime, liveIn, sound, (s.hasRoom_iff c i).1 room, h, hq, Bool.false_eq_true, if_false]
end

/-- An instruction that names no queue pops nothing (R65). -/
theorem pre_go_noQueue {s : State} {i : Instr} {c : Ctx} {s' : State} (hp : s.pre i = .go c s') (hq : queuesOf i = []) : s' = s := by
  cases hc : s.ctx? i with
  | none => simp only [State.pre, hc, reduceCtorEq] at hp
  | some c0 =>
    have hpop : State.popAll c0 [] s = .ok ([], s) := rfl
    simp only [State.pre, hc, hq, hpop] at hp
    repeat' split at hp
    all_goals cases hp
    all_goals rfl

end Sys2Proof.Machine

/-- Settles O19: a step ticks, then runs its pick, whose branches are told apart by what the pick is and by what its word decodes to. -/
theorem stepRunsDecoded : Obligations.StepRunsDecoded :=
  ⟨fun _ _ _ _ _ _ hs hsel hx hd => (step_pick hs).trans (congrArg wrap (runPick_issue hsel hx hd)),
    fun _ _ _ hs hev => (step_pick hs).trans (congrArg wrap (runPick_event _ hev)),
    fun _ _ _ _ _ _ hs hsel hx hd => (step_pick hs).trans (congrArg wrap (runPick_badWord hsel hx hd)),
    fun _ => step_free, wrap_next_iff, fun _ => ⟨rfl, rfl, rfl⟩⟩

/-- Settles O21: the guards of `State.pre`, one after the other; each stop is what the instruction answers. -/
theorem issueChecks : Obligations.IssueChecks := by
  intro i s c hc trap may
  refine ⟨fun h => exec_stop hc (pre_waits hc h), fun hm h => exec_stop hc (pre_illegal hc hm h), fun hm hl h => exec_stop hc (pre_denied hc hm hl h),
    fun hm hl ha h => exec_stop hc (pre_early hc hm hl ha h), fun hm hl ha ht h => exec_stop hc (pre_clobbers hc hm hl ha ht h),
    fun hm hl ha ht hi h => exec_stop hc (pre_poison hc hm hl ha ht hi h),
    fun hm hl ha ht hi hs => ⟨fun n hn he h => ?full, fun x hx hsfu hcore hpipe htill => ?held, fun hroom hfree => ?past⟩⟩
  case full => exact exec_stop hc (pre_full hc hm hl ha ht hi hs fun ⟨hroom, _⟩ => absurd (hroom.resolve_left hn n he) (Nat.not_lt.2 h))
  case held =>
    have hheld : s.sfuHeld c i = true := by
      simp only [State.sfuHeld, hsfu, Bool.true_and, List.any_eq_true]
      exact ⟨x, hx, by simp [hcore, hpipe, htill]⟩
    exact exec_stop hc (pre_full hc hm hl ha ht hi hs fun ⟨_, hfree⟩ => Bool.false_ne_true (hfree.symm.trans hheld))
  case past =>
    have room : s.HasRoom c i := ⟨hroom, hfree⟩
    refine ⟨fun h => ?_, fun e he h0 => exec_stop hc (pre_popStop hc hm hl ha ht hi hs room h0 he)⟩
    by_cases h0 : c.lanes = 0
    · exact ⟨c.pops, pre_idle hc hm hl ha ht hi hs room h0⟩
    · refine ⟨[], pre_pops hc hm hl ha ht hi hs room h0 ?_⟩
      rw [h.resolve_left h0]; rfl

/-- Settles O13: such an instruction is one `compute`, whose frame holds whatever it writes. -/
theorem computeFrame : Obligations.ComputeFrame := by
  intro i s c s' hi hp
  obtain ⟨f, hf⟩ := exec_computes i hi s
  obtain ⟨t, wv, ht, hw, hkept, hpops, honly⟩ := compute_frame i s f c s' hp (isSfu_computes i hi)
  exact ⟨hpops, pre_go_noQueue hp, t, wv, hf.trans ht, hw, hkept, honly⟩

end

section
/-! PROOFS. Predicate logic, moves and packs (R63, R157 to R159). -/
open Sys2Proof Sys2Proof.Machine

namespace Sys2Proof.Machine

/-- Consecutive predicates, each with its own bits, that end at p127 at the latest: a write of p127 is discarded (R63, R159). -/
theorem Wave.puts_dstP_range (c : Ctx) (wv : Wave) (p : Pr) (f : Nat → Nat → Bool) {n l : Nat} (hl : l < 32) : ∀ k, p.toNat + k ≤ 128 →
    ((wv.puts ((List.range k).flatMap (fun i => c.dstP (p + BitVec.ofNat 7 i) (f i)))).pr n).getLsbD l =
      if p.toNat ≤ n ∧ n < p.toNat + k ∧ n ≠ 127 ∧ c.lanes.getLsbD l then f (n - p.toNat) l else (wv.pr n).getLsbD l
  | 0, _ => by
    have h : ¬(p.toNat ≤ n ∧ n < p.toNat + 0 ∧ n ≠ 127 ∧ c.lanes.getLsbD l) := fun h => by omega
    rw [if_neg h]; rfl
  | k + 1, hk => by
    have hnum : (p + BitVec.ofNat 7 k).toNat = p.toNat + k := by
      rw [BitVec.toNat_add, BitVec.toNat_ofNat]; omega
    have hlast : p + BitVec.ofNat 7 k ≠ 127#7 ↔ p.toNat + k ≠ 127 := by
      rw [← hnum, ne_eq, ne_eq, ← BitVec.toNat_inj]; rfl
    rw [List.range_succ, List.flatMap_append, puts_append, List.flatMap_singleton, puts_dstP _ _ _ _ _ _ hl, puts_dstP_range c wv p f hl k (by omega)]
    simp only [hlast, hnum]
    by_cases hn : p.toNat + k = n
    · subst hn
      simp
    · have hlt : n < p.toNat + (k + 1) ↔ n < p.toNat + k := by omega
      simp only [hn, hlt, false_and, and_false, if_false]

/-- Such writes name predicates only. -/
theorem Ctx.mem_dstP_range (c : Ctx) (p : Pr) (f : Nat → Nat → Bool) (k : Nat) :
    ∀ w ∈ (List.range k).flatMap (fun i => c.dstP (p + BitVec.ofNat 7 i) (f i)), ∃ n l x, w = RegW.p n l x := by
  intro w hw
  obtain ⟨i, -, hi⟩ := List.mem_flatMap.1 hw
  exact c.mem_dstP _ _ w hi

/-- The predicates that a legal PSET names end at p127 at the latest (R159). -/
theorem pset_legal {c : Ctx} {h : Hdr} {p : Pr} {a : Opd} {n1 : BitVec 6} (hl : c.illegal (.pset h p a n1) = false) : p.toNat + n1.toNat ≤ 127 := by
  simp only [Ctx.illegal, Bool.or_eq_false_iff, Bool.not_eq_false'] at hl
  obtain ⟨⟨⟨⟨⟨hwf, -⟩, -⟩, -⟩, -⟩, -⟩ := hl
  simp only [Instr.wf, Bool.and_eq_true, decide_eq_true_eq] at hwf
  exact hwf.2

/-- PSET (R159). -/
theorem acts_pset (h : Hdr) (p : Pr) (a : Opd) (n1 : BitVec 6) :
    Acts (.pset h p a n1) (fun _ c wv => c.wv.KeptRegs wv ∧ wv.fflags = c.wv.fflags ∧
      ∀ n l, l < 32 → (wv.pr n).getLsbD l =
        if p.toNat ≤ n ∧ n ≤ p.toNat + n1.toNat ∧ n ≠ 127 ∧ c.lanes.getLsbD l then (c.w32 a l).getLsbD (n - p.toNat) else (c.wv.pr n).getLsbD l) := by
  intro s c s' hp
  have hlast := pset_legal (pre_go s _ c s' hp).legal
  obtain ⟨t, wv, ht, hw, ⟨hv, hs, hlc, hpr⟩, hfl⟩ := computed (.pset h p a n1) s
    (fun c => ((List.range (n1.toNat + 1)).flatMap (fun i => c.dstP (p + BitVec.ofNat 7 i) (fun l => (c.w32 a l).getLsbD i)), 0)) c s' hp
  have kept := Wave.puts_p_regs _ (c.mem_dstP_range p (fun i l => (c.w32 a l).getLsbD i) (n1.toNat + 1)) c.wv
  refine ⟨t, wv, ht, hw, ⟨fun n l => ?_, fun n => ?_, fun n => ?_⟩, hfl.trans BitVec.or_zero, fun n l hl => ?_⟩
  · rw [Wave.vr_congr hv, kept.v]
  · rw [Wave.sr_congr hs, kept.s]
  · rw [Wave.lcr_congr hlc, kept.lc]
  · rw [Wave.pr_congr hpr, Wave.puts_dstP_range c c.wv p (fun i l => (c.w32 a l).getLsbD i) hl _ (by omega), ← Nat.add_assoc]
    simp only [Nat.lt_succ_iff]

/-- PSET.pack (R159): bit i is predicate q + i, up to the last one packed. -/
def Ctx.packed (c : Ctx) (q : Pr) (n1 : BitVec 6) (l : Nat) : Word := lanesWhere (fun i => i ≤ n1.toNat && c.p (q.toNat + i) l)

end Sys2Proof.Machine

/-- Settles O7: each instruction is one `compute`; PSET's writes go to consecutive predicates, which a legal one names without wrapping. -/
theorem predicateMoves : Obligations.PredicateMoves := by
  intro h d a p q r nq nr n1
  refine ⟨givesP_of _ _ _ _ fun _ => rfl, givesP_of _ _ _ _ fun _ => rfl, givesP_of _ _ _ _ fun _ => rfl, givesP_of _ _ _ _ fun _ => rfl,
    givesP_of _ _ _ _ fun _ => rfl, givesP_of _ _ _ _ fun _ => rfl, gives32_of _ _ _ _ fun _ => rfl,
    ⟨fun c => c.packed q n1, gives32_of _ _ _ _ fun _ => rfl, fun c l i hi => ?_⟩, acts_pset h p a n1⟩
  simp only [Ctx.packed, getLsbD_lanesWhere, hi, decide_true, Bool.true_and]

end

section
/-! PROOFS. NOP, and the transfers BRA, CALL, BRX and RET (R57, R59, R127, R145, R152). -/
open Sys2Proof Sys2Proof.Machine

namespace Sys2Proof.Machine

/-! ### The threads after an issue -/

/-- A thread is read from the list of threads only. -/
theorem Wave.thread_congr {a b : Wave} (h : a.thr = b.thr) (n : Nat) : a.thread n = b.thread n := by simp only [thread, h]
theorem Wave.setPcs_thread (wv : Wave) (m : Lanes) (f : Nat → DWord) {n : Nat} (hn : n < wv.thr.length) :
    (wv.setPcs m f).thread n = if m.getLsbD n then { wv.thread n with pc := f n } else wv.thread n := wv.mapThr_thread m _ hn
@[simp] theorem Wave.setPcs_thr_length (wv : Wave) (m : Lanes) (f : Nat → DWord) : (wv.setPcs m f).thr.length = wv.thr.length := by
  simp [setPcs, mapThr]

/-- After the last instruction of the clause, the threads of the bundle stand at the next clause (R127). -/
theorem Ctx.advance_thread (c : Ctx) (i : Instr) (wv : Wave) {n : Nat} (hn : n < wv.thr.length) :
    (c.advance i wv).thread n = if c.b.words.length ≤ c.b.ix + 1 ∧ c.b.mask.getLsbD n then { wv.thread n with pc := c.next } else wv.thread n := by
  by_cases hlast : c.b.words.length ≤ c.b.ix + 1
  · rw [Wave.thread_congr ((c.advance_thr i wv).trans (if_pos hlast)), wv.setPcs_thread _ _ hn]
    simp only [hlast, true_and]
  · rw [Wave.thread_congr ((c.advance_thr i wv).trans (if_neg hlast)), if_neg (fun h => hlast h.1)]
theorem Ctx.advance_thr_length (c : Ctx) (i : Instr) (wv : Wave) : (c.advance i wv).thr.length = wv.thr.length := by
  rw [c.advance_thr]
  split
  · exact Wave.setPcs_thr_length ..
  · rfl

theorem exec_nop (h : Hdr) (s : State) : exec (.nop h) s = issue (.nop h) s (fun _ u => .ok u) := rfl
theorem exec_call (h : Hdr) (d : Opd) (off : BitVec 32) (s : State) : exec (.call h d off) s = issue (.call h d off) s (fun c u =>
    .ok ((u.onWave c (·.setPcs c.lanes (fun _ => c.target off))).result c (.call h d off) (c.dst64 d (fun _ => c.next)) 0)) := rfl

/-- NOP (R152): an issue without an effect is the bookkeeping of the issue. -/
theorem nop_wave {h : Hdr} {s : State} {c : Ctx} {s' : State} (hp : s.pre (.nop h) = .go c s') :
    ∃ t age, exec (.nop h) s = .next t ∧ t.wave? c.tag c.w = some (Wave.settle 4 { c.advance (.nop h) c.wv with age := age }) := by
  obtain ⟨w0, h0, age, rfl⟩ := advance_wave s _ c s' hp
  exact ⟨_, age, (exec_nop h s).trans (issue_ok hp rfl), settle_wave _ _ _ _ h0⟩

/-! ### Transfers -/

/-- Where the threads stand after a transfer of the active ones to `f`: the others of the bundle, after the last instruction, at the next clause (R145). -/
def Ctx.Transfers (c : Ctx) (wv : Wave) (f : Nat → DWord) : Prop :=
  c.wv.thr.length = 32 → ∀ n, n < 32 → (wv.thread n).exited = (c.wv.thread n).exited ∧
    (wv.thread n).pc = if c.lanes.getLsbD n then f n
      else if c.b.words.length ≤ c.b.ix + 1 ∧ c.b.mask.getLsbD n then c.b.h + BitVec.ofNat 64 (8 * (c.b.words.length + 1)) else (c.wv.thread n).pc

/-- PCs are not among what `Wave.Same` compares. -/
theorem Wave.Same.setPcs {a b : Wave} (h : a.Same b) (m : Lanes) (f : Nat → DWord) : a.Same (b.setPcs m f) := { h with }

/-- Setting the PCs of the active threads after the bookkeeping of an issue. -/
theorem transfer_wave {s : State} {i : Instr} {c : Ctx} {s' : State} (hp : s.pre i = .go c s') (f : Nat → DWord) :
    ∃ w1, ((s'.advance c i).onWave c (·.setPcs c.lanes f)).wave? c.tag c.w = some w1 ∧ c.wv.Same w1 ∧ c.Transfers w1 f := by
  obtain ⟨-, hnext⟩ := (pre_go s i c s' hp).addr
  obtain ⟨w0, h0, age, rfl⟩ := advance_wave s i c s' hp
  refine ⟨_, State.wave?_updWave_of h0 (fun _ => rfl), (Ctx.advance_same c i c.wv age).setPcs _ _, fun h32 n hn => ?_⟩
  have hlen : n < c.wv.thr.length := h32 ▸ hn
  have hadv : ({ c.advance i c.wv with age := age } : Wave).thread n = _ := c.advance_thread i c.wv hlen
  rw [Wave.setPcs_thread _ _ _ (by rw [c.advance_thr_length]; exact hlen), hadv, ← hnext]
  split <;> split <;> exact ⟨rfl, rfl⟩

/-- A transfer that goes through moves the active threads and leaves registers, flags and pending operations alone. -/
theorem transfer_of {i : Instr} {P : State → Ctx → Prop} (k : Ctx → State → Except Stop State) (f : Ctx → Nat → DWord)
    (he : ∀ s, exec i s = issue i s k) (hk : ∀ s c, P s c → ∀ u, k c u = .ok (u.onWave c (·.setPcs c.lanes (f c)))) :
    ActsIf i P (fun _ c wv => c.wv.Quiet wv ∧ c.Transfers wv (f c)) := by
  intro s c s' hp hP
  obtain ⟨w1, hw, hsame, htr⟩ := transfer_wave hp (f c)
  exact ⟨_, w1, (he s).trans (issue_ok hp (hk s c hP _)), settle_wave _ _ _ _ hw, hsame.quiet, htr⟩

/-- A result leaves the threads where they stand. -/
theorem Wave.puts_thr (wv : Wave) (ws : List RegW) : (wv.puts ws).thr = wv.thr := by
  obtain ⟨_, _, _, _, e⟩ := Wave.puts_eq ws wv
  rw [e]

/-- A 64-bit result written to a wave that holds the same registers. -/
theorem Wave.Same.got64 {a b : Wave} (h : a.Same b) (m : Lanes) (d : Opd) (f : Nat → DWord) :
    a.Got64 (b.puts (wr64 m d f)) m d f ∧ a.KeptPreds (b.puts (wr64 m d f)) := by
  obtain ⟨ev, es, elc, ep⟩ := Wave.puts_regs (wr64 m d f) b a h.v h.s h.lc h.p
  have g := Wave.got64_wr64 a m d f
  exact ⟨⟨fun n l hl => (Wave.vr_congr ev n l).trans (g.v n l hl), fun n => (Wave.sr_congr es n).trans (g.s n), fun n => (Wave.lcr_congr elc n).trans (g.lc n)⟩,
    fun n => (Wave.pr_congr ep n).trans (Wave.pr_congr (Wave.puts_wr64_preds a m d f) n)⟩

/-- CALL (R145): a transfer whose link is the address of the next clause. -/
theorem acts_call (h : Hdr) (d : Opd) (off : BitVec 32) :
    Acts (.call h d off) (fun _ c wv => c.wv.Got64 wv c.lanes d (fun _ => c.b.h + BitVec.ofNat 64 (8 * (c.b.words.length + 1))) ∧
      c.wv.KeptPreds wv ∧ wv.fflags = c.wv.fflags ∧ c.Transfers wv (fun _ => c.target off)) := by
  intro s c s' hp
  obtain ⟨-, hnext⟩ := (pre_go s _ c s' hp).addr
  obtain ⟨w1, hw, hsame, htr⟩ := transfer_wave hp (fun _ => c.target off)
  obtain ⟨hgot, hpreds⟩ := hsame.got64 c.lanes d (fun _ => c.next)
  have hthr := w1.puts_thr (c.dst64 d (fun _ => c.next))
  refine ⟨_, _, (exec_call h d off s).trans (issue_ok hp rfl), settle_wave _ _ _ _ (result_wave _ c _ _ 0 w1 hw), ?_, hpreds, ?_, fun h32 n hn => ?_⟩
  · rw [← hnext]
    exact ⟨hgot.v, hgot.s, hgot.lc⟩
  · exact BitVec.or_zero.trans ((w1.puts_fflags _).trans hsame.fflags)
  · exact (Wave.thread_congr hthr n).symm ▸ htr h32 n hn

/-! ### Indirect targets -/

theorem misaligned_iff (x : DWord) : x.extractLsb' 0 3 ≠ 0 ↔ x.toNat % 8 ≠ 0 := by
  rw [← BitVec.toNat_ne_iff_ne, BitVec.extractLsb'_toNat]; rfl
theorem beyond48_iff (x : DWord) : x.extractLsb' 48 16 ≠ 0 ↔ 2 ^ 48 ≤ x.toNat := by
  have := x.isLt
  rw [← BitVec.toNat_ne_iff_ne, BitVec.extractLsb'_toNat, Nat.shiftRight_eq_div_pow]
  simp only [BitVec.ofNat_eq_ofNat, BitVec.toNat_ofNat]
  omega

section
variable (c : Ctx) (a : Opd) (u : State)
theorem Ctx.badLane_misaligned : c.badLane a (fun x => x.extractLsb' 0 3 ≠ 0) = (lanesOf c.lanes).find? (fun k => (c.w64 a k).toNat % 8 ≠ 0) := by
  simp only [badLane, misaligned_iff]
theorem Ctx.badLane_beyond : c.badLane a (fun x => x.extractLsb' 48 16 ≠ 0) = (lanesOf c.lanes).find? (fun k => 2 ^ 48 ≤ (c.w64 a k).toNat) := by
  simp only [badLane, beyond48_iff]
theorem indirect_misaligned {l : Nat} (h : (lanesOf c.lanes).find? (fun k => (c.w64 a k).toNat % 8 ≠ 0) = some l) :
    indirect c a u = .error (.trap 0x06 (c.w64 a l).toNat) := by
  rw [indirect, c.badLane_misaligned, h]

section
variable (hal : ∀ k ∈ lanesOf c.lanes, (c.w64 a k).toNat % 8 = 0)
include hal
theorem Ctx.find?_aligned : (lanesOf c.lanes).find? (fun k => (c.w64 a k).toNat % 8 ≠ 0) = none := by
  simpa [List.find?_eq_none] using hal
theorem indirect_beyond {l : Nat} (h : (lanesOf c.lanes).find? (fun k => 2 ^ 48 ≤ (c.w64 a k).toNat) = some l) :
    indirect c a u = .error (.trap 0x08 (c.w64 a l).toNat) := by
  rw [indirect, c.badLane_misaligned, c.find?_aligned a hal, c.badLane_beyond, h]
theorem indirect_ok (hlow : ∀ k ∈ lanesOf c.lanes, (c.w64 a k).toNat < 2 ^ 48) : indirect c a u = .ok (u.onWave c (·.setPcs c.lanes (fun l => c.w64 a l))) := by
  have hb : (lanesOf c.lanes).find? (fun k => 2 ^ 48 ≤ (c.w64 a k).toNat) = none := by
    simpa [List.find?_eq_none] using hlow
  rw [indirect, c.badLane_misaligned, c.find?_aligned a hal, c.badLane_beyond, hb]
end
end

end Sys2Proof.Machine

/-- Settles O31: an issue without an effect leaves its wave as the bookkeeping of the issue does. -/
theorem issueBookkeeping : Obligations.IssueBookkeeping := by
  intro h s c s' hp
  have p := pre_go s _ c s' hp
  obtain ⟨t, age, ht, hw⟩ := nop_wave hp
  refine ⟨t, _, ht, hw, (Ctx.advance_same c _ c.wv age).quiet, Ctx.advance_keptBut c _ c.wv age, ?ready, fun hmore => ⟨?bundle, ?threads⟩,
    fun hlast => ⟨?dissolved, fun h32 n hn => ?moved⟩⟩
  case ready => rw [← p.now.1]; exact c.advance_ready _ _
  case bundle => exact (c.advance_bundle _ _).trans (if_neg (by omega))
  case threads => exact (c.advance_thr _ _).trans (if_neg (by omega))
  case dissolved => exact (c.advance_bundle _ _).trans (if_pos hlast)
  case moved =>
    rw [← p.addr.2]
    exact (c.advance_thread (.nop h) c.wv (h32 ▸ hn)).trans (by simp only [hlast, true_and])

/-- Settles O32: a direct transfer sets the PCs of the active threads; an indirect one first checks its targets, lane by lane. -/
theorem branches : Obligations.Branches := by
  intro h d a off tgt
  refine ⟨fun s c s' hp => transfer_of (P := fun _ _ => True) _ (fun c _ => c.target off) (fun _ => rfl) (fun _ _ _ _ => rfl) s c s' hp trivial,
    acts_call h d off, fun i hi => ?_⟩
  have he (s : State) : exec i s = issue i s (fun c s => indirect c a s) := by
    rcases hi with rfl | rfl <;> rfl
  exact ⟨transfer_of _ (fun c l => c.w64 a l) he (fun _ c hok u => indirect_ok c a u (fun k hk => (hok k hk).1) (fun k hk => (hok k hk).2)),
    fun l s c s' hp hl => by rw [he, issue_error hp (indirect_misaligned c a _ hl)]; rfl,
    fun l s c s' hp ⟨hal, hl⟩ => by rw [he, issue_error hp (indirect_beyond c a _ hal hl)]; rfl⟩

end

section
/-! PROOFS. Results that arrive after the issue (O44; R101, R134, R294, R369). -/
open Sys2Proof Sys2Proof.Machine

namespace Sys2Proof.Machine
open Host (Outcome)

/-- The first element that meets a condition is the first that meets a stronger one, once it meets that too. -/
theorem find?_stronger {α : Type} {f g : α → Bool} {l : List α} {x : α} (hf : l.find? f = some x) (hg : g x = true) (h : ∀ y, g y = true → f y = true) :
    l.find? g = some x := by
  obtain ⟨-, a, b, rfl, ha⟩ := List.find?_eq_some_iff_append.1 hf
  refine List.find?_eq_some_iff_append.2 ⟨hg, a, b, rfl, fun y hy => ?_⟩
  have := ha y hy
  cases e : g y with
  | false => rfl
  | true => rw [h y e] at this; exact this

/-- An operation whose results were known completes at the event that delivers them. -/
theorem State.Pending.completes {s : State} {ev : Instr} {tag w id : Nat} {t : Team} {wv : Wave} {q : Pend} (hp : s.Pending tag w id t wv q)
    (he : exec ev s = .next ((s.finishPend tag w q q.wr q.flags).afterPend tag w)) :
    s.Completes ev tag w wv q q.wr q.flags (fun u _ => u.mem = s.mem ∧ u.lines = s.lines) := by
  obtain ⟨v, hafter, hv, hdel, -, -⟩ := finishPend_completes hp rfl q.wr q.flags
  exact ⟨_, v, by rw [he, hafter], hv, hdel, rfl, rfl⟩

/-- The operation that REGION_ENDING_RESULT looks for: a committed one, which holds its wave (R134). -/
def Pend.committed (id : Nat) (q : Pend) : Bool := q.id == id && q.hold && q.rids == [] && q.instr.endsRegion

/-- REGION_ENDING_RESULT of a committed operation: its results, then the trap of one that met poison (R369). -/
theorem regionEndingResult_next {s : State} {tag w id : Nat} {t : Team} {wv : Wave} {q : Pend} (ht : s.team? tag = some t) (hw : t.wave? w = some wv)
    (hq : wv.pend.find? (Pend.committed id) = some q) : exec (.regionEndingResult tag w id) s = .next (match q.trap with
      | some (cause, region) => (s.finishPend tag w q q.wr q.flags).takeTrap tag w 0
          { cause := cause, lanes := q.lanes, addr := q.site, region := region, after := true, faddr := q.x.headD 0 }
      | none => (s.finishPend tag w q q.wr q.flags).afterPend tag w) := by
  have e : exec (.regionEndingResult tag w id) s = execRegionEndingResult tag w id s := rfl
  have hq' : wv.pend.find? (fun q => q.id == id && q.hold && q.rids == [] && q.instr.endsRegion) = some q := hq
  rw [e, execRegionEndingResult, ht, State.wave?_of_team ht hw]
  simp only [hq']
  cases q.trap with
  | none => rfl
  | some x => rfl

/-- The slices that wait in the WCHILD of an issue wait no more. -/
def Wave.childDone (id : Nat) (wv : Wave) : Wave := { wv with waits := wv.waits.filter (fun x => match x.2 with | .wchild i _ _ => i ≠ id | _ => true) }

/-- REGION_ENDING_RESULT of a WCHILD that waits (R101). -/
theorem regionEndingResult_wchild {s : State} {tag w id sl : Nat} {t : Team} {wv : Wave} {d : Opd} {m : Lanes} (ht : s.team? tag = some t)
    (hw : t.wave? w = some wv) (hq : wv.pend? id = none)
    (hs : wv.waits.find? (fun x => match x.2 with | .wchild i _ _ => i == id | _ => false) = some (sl, .wchild id d m)) :
    exec (.regionEndingResult tag w id) s = if s.childrenLeft tag then .refused (.notEnabled "REGION_ENDING_RESULT")
      else .next ((s.putRegs tag w (wr1 m d (fun _ => BitVec.ofNat 32 (min t.torn 0xFFFFFFFF)))).updWave tag w (Wave.childDone id)) := by
  have e : exec (.regionEndingResult tag w id) s = execRegionEndingResult tag w id s := rfl
  have hq' : wv.pend.find? (fun q => q.id == id && q.hold && q.rids == [] && q.instr.endsRegion) = none := by
    refine List.find?_eq_none.2 (fun q hmem => ?_)
    have := List.find?_eq_none.1 hq q hmem
    simp only [Bool.and_assoc, Bool.and_eq_true, not_and]
    exact fun h => absurd h this
  rw [e, execRegionEndingResult, ht, State.wave?_of_team ht hw]
  simp only [hq']
  split
  · next h =>
    cases hs.symm.trans h
    rfl
  · next h => exact absurd hs (h _ _ _ _)

/-- Writing registers of a wave. -/
theorem State.wave?_putRegs (s : State) (tag w : Nat) (ws : List RegW) : (s.putRegs tag w ws).wave? tag w = (s.wave? tag w).map (·.puts ws) := by
  simp only [State.wave?, State.putRegs]
  rw [State.team?_updTeam s tag tag (fun t => (t.updWave w (·.puts ws)).cleanRegs w ws) (fun _ => rfl), if_pos rfl]
  cases s.team? tag with
  | none => rfl
  | some t => exact (Team.wave?_updWave t w w (·.puts ws) (Wave.puts_ix ws)).trans (if_pos rfl)

@[simp] theorem Wave.puts_waits (ws : List RegW) (wv : Wave) : (wv.puts ws).waits = wv.waits := by
  obtain ⟨a, b, c, d, e⟩ := Wave.puts_eq ws wv
  rw [e]

end Sys2Proof.Machine

/-- Settles O44: what was known at the issue is delivered by each of the three events; a waiting WCHILD answers once its team has no child left. -/
theorem pendingResults : Obligations.PendingResults := by
  intro s tag w id t wv
  refine ⟨fun q hp => ⟨fun hi => ?_, fun ⟨h, d, g, b, ev, hi⟩ => ?_, fun hhold hrids hends => ?_⟩, fun sl d m ht hw hq hs => ⟨fun hleft => ?_, fun hleft => ?_⟩⟩
  · exact hp.completes (withPend_next hp.team hp.wave hp.op hi hp.due)
  · refine hp.completes (Eq.trans (b := execMresComplete tag w id s) rfl ?_)
    exact withPend_next hp.team hp.wave hp.op (by rw [hi]) hp.due
  · have hid : q.id = id := by simpa using List.find?_some hp.op
    have hq : wv.pend.find? (Pend.committed id) = some q :=
      find?_stronger hp.op (by simp [Pend.committed, hid, hhold, hrids, hends]) (fun y hy => by
        simp only [Pend.committed, Bool.and_eq_true] at hy; exact hy.1.1.1)
    have he := regionEndingResult_next hp.team hp.wave hq
    exact ⟨fun hno => hp.completes (by rw [he, hno]), fun cause region htrap => by rw [he, htrap]⟩
  · rw [regionEndingResult_wchild ht hw hq hs, hleft]; rfl
  · have hput := s.wave?_putRegs tag w (wr1 m d (fun _ => BitVec.ofNat 32 (min t.torn 0xFFFFFFFF)))
    rw [State.wave?_of_team ht hw] at hput
    have hgot := Wave.got32_wr1 wv m d (fun _ => BitVec.ofNat 32 (min t.torn 0xFFFFFFFF))
    refine ⟨_, Wave.childDone id (wv.puts (wr1 m d (fun _ => BitVec.ofNat 32 (min t.torn 0xFFFFFFFF)))),
      by rw [regionEndingResult_wchild ht hw hq hs, hleft]; rfl, ?_, ⟨hgot.v, hgot.s, hgot.lc⟩, ?_⟩
    · rw [State.wave?_updWave _ _ _ _ _ _ (fun x => (rfl : (Wave.childDone id x).ix = x.ix)), if_pos ⟨rfl, rfl⟩, hput]; rfl
    · exact congrArg (List.filter _) (Wave.puts_waits _ _)

end

section
/-! PROOFS. What the device's own work leaves alone: error records, fault records, notifications, spills of keys and aborts change
bookkeeping fields only (R35, R216 to R220, R386, R418). -/
open Sys2Proof Sys2Proof.Machine

namespace Sys2Proof.Machine
open Host (Outcome)

/-! ### Fields of a word -/

/-- A field of a register, as bits of its word. -/
theorem bits_toNat {w : Nat} (x : BitVec w) (lo n : Nat) : bits x.toNat lo n = (x.extractLsb' lo n).toNat := by
  rw [BitVec.extractLsb'_toNat]; rfl
theorem bits_lt (x lo n : Nat) : bits x lo n < 2 ^ n := Nat.mod_lt _ (Nat.two_pow_pos n)

/-- `RIDX` and `WIDX` of an index register put together (Table 4.5). -/
theorem idxR_mkIdx (r w : Nat) : idxR (mkIdx r w) = r % 2 ^ 32 := by
  simp only [idxR, mkIdx, bits, BitVec.toNat_ofNat, Nat.shiftRight_eq_div_pow]
  omega
theorem idxW_mkIdx (r w : Nat) : idxW (mkIdx r w) = w % 2 ^ 32 := by
  simp only [idxW, mkIdx, bits, BitVec.toNat_ofNat, Nat.shiftRight_eq_div_pow]
  omega
@[simp] theorem idxR_mkIdx_idxR (x : DWord) (w : Nat) : idxR (mkIdx (idxR x) w) = idxR x := by
  rw [idxR_mkIdx]; exact Nat.mod_eq_of_lt (bits_lt _ _ _)
@[simp] theorem idxW_mkIdx_idxW (x : DWord) (r : Nat) : idxW (mkIdx r (idxW x)) = idxW x := by
  rw [idxW_mkIdx]; exact Nat.mod_eq_of_lt (bits_lt _ _ _)

/-! ### The device but for its bookkeeping -/

/-- A partition but for what the device's own work changes: sequence numbers, the indexes of the rings that it fills, faults and
notifications that wait, shadow bindings that runs reserve, and keys that it has written. -/
def Part.sansWork (q : Part) : Part :=
  { q with eqidx := 0, eqdrop := 0, eseq := 0, fqidx := 0, slotErr := false, agentHolds := [], migWait := [], shadows := [], slDef := []
           mqidx := mkIdx (idxR q.mqidx) 0 }
/-- The device but for memory and its caches, teams, copies, keys, interrupts, fresh numbers, and that part of its partitions. -/
def State.sansWork (s : State) : State :=
  { s.sansCache with teams := [], copies := [], keys := [], free := 0, nextId := 0, msixPend := 0, msgs := [], parts := s.parts.map Part.sansWork }

theorem sansWork_cache (x : State) : CacheKeeps (fun s => s.sansWork = x) where
  put := fun _ _ _ h => h
  lose := fun s lo hi h => by
    unfold State.memLose
    split
    · exact h
    · exact h
  bad := fun _ _ _ h => h
  lines := fun _ _ h => h
  stamp := fun _ _ h => h
  upds := fun _ _ h => h
  due := fun _ _ h => h
  ats := fun _ _ h => h
  tlb := fun _ _ _ h => h
  spill := fun _ _ h => h

/-- What is read off two devices that differ in bookkeeping only. -/
theorem State.part_sansWork {s t : State} (h : t.sansWork = s.sansWork) (p : Nat) : (t.part p).sansWork = (s.part p).sansWork := by
  have e (u : State) : (u.part p).sansWork = (u.sansWork.parts[p]?).getD (Part.reset 1).sansWork := by
    simp only [State.part, State.sansWork, List.getD_eq_getElem?_getD, List.getElem?_map]
    cases u.parts[p]? <;> rfl
  rw [e, e, h]
theorem State.length_sansWork {s t : State} (h : t.sansWork = s.sansWork) : t.parts.length = s.parts.length := by
  have e (u : State) : u.parts.length = u.sansWork.parts.length := by simp [State.sansWork]
  rw [e t, e s, h]
theorem State.queues_sansWork {s t : State} (h : t.sansWork = s.sansWork) (p : Nat) : (t.part p).queues = (s.part p).queues := by
  have e := congrArg Part.queues (State.part_sansWork h p)
  exact e
theorem State.grids_sansWork {s t : State} (h : t.sansWork = s.sansWork) : t.grids = s.grids := by
  have e := congrArg State.grids h
  exact e

@[simp] theorem State.sansWork_updPart (s : State) (p : Nat) (f : Part → Part) (hf : ∀ q, (f q).sansWork = q.sansWork) :
    (s.updPart p f).sansWork = s.sansWork := by
  have e : (s.updPart p f).parts.map Part.sansWork = s.parts.map Part.sansWork := by
    refine List.ext_getElem? fun n => ?_
    simp only [State.updPart, List.getElem?_map, List.getElem?_modify]
    cases s.parts[n]? with
    | none => rfl
    | some q => by_cases hn : p = n <;> simp [hn, hf]
  unfold State.sansWork
  rw [e]
  rfl
@[simp] theorem State.sansWork_fresh (s : State) : s.fresh.sansWork = s.sansWork := rfl
theorem State.sansWork_keys (s : State) (l : List KeyEnt) : ({ s with keys := l } : State).sansWork = s.sansWork := rfl
/-- A fold of operations that change bookkeeping only. -/
theorem State.sansWork_foldl {α : Type} (f : State → α → State) (hf : ∀ s a, (f s a).sansWork = s.sansWork) (l : List α) (s : State) :
    (l.foldl f s).sansWork = s.sansWork := foldl_keeps (fun t => t.sansWork = s.sansWork) f (fun t a h => (hf t a).trans h) l s rfl

/-! ### Records -/

@[simp] theorem State.sansWork_bumpSeq (s : State) (p : Nat) : (s.bumpSeq p).sansWork = s.sansWork := sansWork_updPart _ _ _ (fun _ => by rfl)
@[simp] theorem State.sansWork_sendMsix (s : State) (v : Nat) : (s.sendMsix v).sansWork = s.sansWork := by
  unfold sendMsix
  split
  · rfl
  · split <;> rfl
@[simp] theorem State.sansWork_ringMsix (s : State) (p en lo : Nat) : (s.ringMsix p en lo).sansWork = s.sansWork := by
  unfold ringMsix
  dsimp only
  split
  · exact sansWork_sendMsix _ _
  · rfl
theorem State.sansWork_writeVia {s u : State} {v : Via} {p asid va : Nat} {sys : Bool} {bs : List Byte} (h : s.writeVia v p asid va sys bs = .ok u) :
    u.sansWork = s.sansWork := (sansWork_cache _).writeVia _ _ _ _ _ _ _ _ rfl h
@[simp] theorem State.sansWork_touch (s : State) (v p a va n b k c) : (s.touch v p a va n b k c).sansWork = s.sansWork :=
  (sansWork_cache _).touch _ _ _ _ _ _ _ _ _ rfl
@[simp] theorem State.sansWork_postError (s : State) (p : Nat) (e : ErrRec) : (s.postError p e).sansWork = s.sansWork := by
  unfold postError
  dsimp only
  split
  · exact sansWork_updPart _ _ _ (fun _ => by rfl)
  · split
    · exact sansWork_updPart _ _ _ (fun _ => by rfl)
    · next hw => rw [sansWork_ringMsix, sansWork_updPart _ _ _ (fun _ => by simp only [Part.sansWork]), sansWork_bumpSeq, sansWork_writeVia hw]
@[simp] theorem State.sansWork_slotFailed (s : State) (p : Nat) (x : Nat × Nat) (b : Bad) : (s.slotFailed p x b).sansWork = s.sansWork := by
  unfold slotFailed
  split
  · rfl
  · rw [sansWork_updPart _ _ _ (fun _ => by rfl), sansWork_postError]
@[simp] theorem State.sansWork_putSlot (s : State) (p : Nat) (x : Nat × Nat) (r : List Byte) : (s.putSlot p x r).1.sansWork = s.sansWork := by
  unfold putSlot
  split
  · exact sansWork_slotFailed _ _ _ _
  · next hw => exact (sansWork_updPart _ _ _ (fun _ => by rfl)).trans (sansWork_writeVia hw)
@[simp] theorem State.sansWork_enterFault (s : State) (p asid blk : Nat) (pages : DWord) (kinds : Nat) :
    (s.enterFault p asid blk pages kinds).1.sansWork = s.sansWork := by
  unfold enterFault
  dsimp only
  split
  · rfl
  · split
    · simp
    · split <;> simp
    · split
      · simp
      · split
        · exact (sansWork_updPart _ _ _ (fun _ => by rfl)).trans (sansWork_touch ..)
        · split
          · next e => simpa using congrArg (·.1.sansWork) e.symm
          · next e =>
            have hput := congrArg (·.1.sansWork) e
            dsimp only at hput ⊢
            rw [sansWork_putSlot, sansWork_touch] at hput
            rw [sansWork_ringMsix, sansWork_updPart _ _ _ (fun _ => by simp only [Part.sansWork]), sansWork_bumpSeq, ← hput]
@[simp] theorem State.sansWork_enterFaultsK (s : State) (p asid : Nat) (pages : FaultPages) (sls : List Nat) :
    (s.enterFaultsK p asid pages sls).1.sansWork = s.sansWork :=
  foldl_keeps (fun y : State × List Hold => y.1.sansWork = s.sansWork) _ (fun y x hy =>
    (sansWork_fresh _).trans ((sansWork_enterFault y.1 p asid x.1 x.2.1 x.2.2).trans hy)) _ _ rfl
/-- A page fault of a device agent. -/
@[simp] theorem State.sansWork_agentFault (s : State) (p asid : Nat) (ps : List Nat) (kinds who : Nat) :
    (s.agentFault p asid ps kinds who).sansWork = s.sansWork :=
  (sansWork_updPart _ _ _ (fun _ => by rfl)).trans (sansWork_enterFaultsK _ _ _ _ _)
@[simp] theorem State.sansWork_mapHolds (s : State) (f : List Hold → List Hold) : (s.mapHolds f).sansWork = s.sansWork := by
  unfold mapHolds sansWork
  simp only [List.map_map, Function.comp_def]
  rfl
/-- Faults that enter again (R217). -/
@[simp] theorem State.sansWork_reenter (s : State) (p : Nat) : (s.reenter p).sansWork = s.sansWork := by
  unfold reenter
  refine sansWork_foldl _ (fun s who => ?_) _ _
  split
  · rfl
  · dsimp only
    split
    · exact sansWork_enterFault ..
    · exact (sansWork_mapHolds _ _).trans (sansWork_enterFault ..)
/-- Notifications that are posted again (R220). -/
@[simp] theorem State.sansWork_migRetry (s : State) (p : Nat) : (s.migRetry p).sansWork = s.sansWork := by
  have hpost {s u : State} {m : MigWait} (h : s.migPost p m = some u) : u.sansWork = s.sansWork := by
    unfold migPost at h
    dsimp only at h
    split at h
    · cases h
    · split at h
      · cases h
      · next hw =>
        cases h
        rw [sansWork_ringMsix, sansWork_updPart _ _ _ (fun q => by simp [Part.sansWork]), sansWork_bumpSeq, sansWork_writeVia hw]
  unfold migRetry
  refine sansWork_foldl _ (fun s m => ?_) _ _
  split
  · rfl
  · split
    · next h => exact (sansWork_updPart _ _ _ (fun _ => by rfl)).trans (hpost h)
    · rfl
@[simp] theorem State.sansWork_bucketTouch (s : State) (p : Nat) (k : DWord) : (s.bucketTouch p k).sansWork = s.sansWork := by
  unfold bucketTouch
  split
  · rfl
  · exact sansWork_touch ..
theorem State.sansWork_bucketWrite {s u : State} {p : Nat} {k : DWord} {j o : Nat} {bs : List Byte} (h : s.bucketWrite p k j o bs = .ok u) :
    u.sansWork = s.sansWork := by
  unfold bucketWrite writeVa at h
  exact sansWork_writeVia h
@[simp] theorem State.sansWork_slotMade (s : State) (p : Nat) (k : DWord) : (s.slotMade p k).sansWork = s.sansWork := by
  unfold slotMade
  refine sansWork_updPart _ _ _ (fun q => ?_)
  split
  · simp only [Part.sansWork]
  · rfl
/-- The read and the write of the bucket stand as names in the proof: the kernel must not evaluate the hash of a key. -/
theorem State.sansWork_spillKey {s u : State} {e : KeyEnt} (h : s.spillKey e = .ok u) : u.sansWork = s.sansWork := by
  rw [spillKey] at h
  obtain ⟨R, hR⟩ : ∃ R, R = State.bucketRead := ⟨_, rfl⟩
  obtain ⟨W, hW⟩ : ∃ W, W = State.bucketWrite := ⟨_, rfl⟩
  rw [← hR, ← hW] at h
  split at h
  · cases h
  · split at h
    · cases h
    · split at h
      · cases h
      · split at h
        · cases h
        · next hw =>
          rw [hW] at hw
          cases h
          rw [sansWork_keys, sansWork_slotMade, sansWork_bucketWrite hw, sansWork_bucketTouch]
/-- The spill of a partition's keys (R388). -/
@[simp] theorem State.sansWork_spillAll (s : State) (p : Nat) : (s.spillAll p).sansWork = s.sansWork := by
  unfold spillAll
  refine sansWork_foldl _ (fun s e => ?_) _ _
  dsimp only
  split
  · exact sansWork_keys _ _
  · split
    · exact sansWork_keys _ _
    · split
      · next h => exact sansWork_spillKey h
      · exact (sansWork_postError ..).trans (sansWork_keys _ _)

/-! ### Aborts -/

@[simp] theorem State.sansWork_abort1 (s : State) (tag w : Nat) (r : Region) : (s.abort1 tag w r).sansWork = s.sansWork :=
  sansWork_updPart (s.updTeam tag _) _ _ (fun _ => by rfl)
@[simp] theorem State.sansWork_abort (s : State) (tag w : Nat) (sls : List Nat) : (s.abort tag w sls).1.sansWork = s.sansWork := by
  unfold abort
  split
  · rfl
  · have hm (t : Team → Team) (rs : List Region) : (rs.foldl (fun s r => s.abort1 tag w r) (s.updTeam tag t)).sansWork = s.sansWork :=
      sansWork_foldl (fun s r => s.abort1 tag w r) (fun _ _ => sansWork_abort1 ..) rs _
    dsimp only
    generalize (_ && _ : Bool) = b
    cases b <;> exact hm _ _
@[simp] theorem State.sansWork_flushSfu (s : State) (tag w : Nat) : (s.flushSfu tag w).sansWork = s.sansWork := by
  unfold flushSfu
  split
  · rfl
  · exact sansWork_foldl (fun s (q : Pend) => s.finishPend tag w q q.wr q.flags) (fun _ _ => rfl) _ _

end Sys2Proof.Machine

end

section
/-! PROOFS. Writes of the queue page and the management page (O48). -/
open Sys2Proof Sys2Proof.Machine

namespace Sys2Proof.Machine
open Host (Outcome)

/-! ### Queues of a partition -/

/-- A partition after one change of it. -/
theorem State.part_updPart_self {s : State} {p : Nat} (hp : p < s.parts.length) (f : Part → Part) : (s.updPart p f).part p = f (s.part p) := by
  rw [part_updPart, if_pos ⟨rfl, hp⟩]

/-- The queues of a partition after a change of one of them. -/
theorem State.queues_updQueue (s : State) {p : Nat} (n m : Nat) (f : Queue → Queue) (hp : p < s.parts.length) :
    ((s.updQueue p n f).part p).queues[m]? = if m = n then ((s.part p).queues[m]?).map f else (s.part p).queues[m]? := by
  rw [State.updQueue, State.part_updPart_self hp, List.getElem?_modify]
  by_cases h : m = n
  · subst h
    cases (s.part p).queues[m]? <;> simp
  · cases (s.part p).queues[m]? <;> simp [h, Ne.symm h]

/-- `STATE` after it is set (Table 4.6). -/
theorem Queue.state_setState (q : Queue) {n : Nat} (hn : n < 4) : (q.setState n).state = n := by
  have low : (q.setState n).stat.extractLsb' 0 2 = BitVec.ofNat 2 n := by
    rw [setState, BitVec.extractLsb'_or, BitVec.extractLsb'_and]
    have h0 : (~~~(3#64)).extractLsb' 0 2 = 0#2 := by decide
    have hc : (BitVec.ofNat 64 n).extractLsb' 0 2 = BitVec.ofNat 2 n := by
      apply BitVec.eq_of_toNat_eq
      simp only [BitVec.extractLsb'_toNat, BitVec.toNat_ofNat, Nat.shiftRight_zero]
      omega
    rw [h0, hc, BitVec.and_zero, BitVec.zero_or]
  rw [state, bits_toNat, low, BitVec.toNat_ofNat]
  omega

/-- The status of a queue that an attempt to enable it stops: ERROR, with `ERR` 0x04 (R84). -/
theorem badConfig_stat (x : DWord) : bits ((x &&& ~~~(0xFF03#64)) ||| 0x0403#64).toNat 0 2 = 3 ∧
    bits ((x &&& ~~~(0xFF03#64)) ||| 0x0403#64).toNat 8 8 = 4 := by
  have hst : (~~~(0xFF03#64)).extractLsb' 0 2 = 0#2 := by decide
  have herr : (~~~(0xFF03#64)).extractLsb' 8 8 = 0#8 := by decide
  constructor
  · rw [bits_toNat, BitVec.extractLsb'_or, BitVec.extractLsb'_and, hst, BitVec.and_zero, BitVec.zero_or]; decide
  · rw [bits_toNat, BitVec.extractLsb'_or, BitVec.extractLsb'_and, herr, BitVec.and_zero, BitVec.zero_or]; decide

/-! ### Rings -/

/-- A ring's register after a write (R221, R427). -/
theorem ringCfg_eq (old v : DWord) : ringCfg old v =
    if cfgEn old then (if cfgEn v then old else old &&& ~~~1#64)
    else (if cfgEn v && decide (12 ≤ bits v.toNat 8 4) then v &&& 0xFFFFFFFFFFFFFF00 else v &&& 0xFFFFFFFFFFFFFF01) := by
  have hoff : v &&& 0xFFFFFFFFFFFFFF01 &&& ~~~1#64 = v &&& 0xFFFFFFFFFFFFFF00 := by
    rw [BitVec.and_assoc]; rfl
  simp only [ringCfg, ge_iff_le, hoff]

/-- A write enables a ring that is off, unless its `LOGN` is reserved. -/
theorem ringOn_eq (old v : DWord) : ringOn old v = (!cfgEn old && cfgEn v && decide (bits v.toNat 8 4 < 12)) := by
  have hon : cfgEn (v &&& 0xFFFFFFFFFFFFFF01#64) = cfgEn v := by
    have hb : (0xFFFFFFFFFFFFFF01#64).getLsbD 0 = true := by decide
    rw [cfgEn, BitVec.getLsbD_and, hb, Bool.and_true]; rfl
  have hoff : cfgEn (v &&& 0xFFFFFFFFFFFFFF00#64) = false := by
    have hb : (0xFFFFFFFFFFFFFF00#64).getLsbD 0 = false := by decide
    rw [cfgEn, BitVec.getLsbD_and, hb, Bool.and_false]
  rw [ringOn, ringCfg_eq]
  cases cfgEn old with
  | true => rfl
  | false =>
    by_cases hl : 12 ≤ bits v.toNat 8 4
    · have hlt : ¬bits v.toNat 8 4 < 12 := by omega
      cases hv : cfgEn v <;> simp [hl, hlt, hon, hoff, hv]
    · have hlt : bits v.toNat 8 4 < 12 := by omega
      simp [hl, hlt, hon]

/-! ### The queue page and the management page -/

section
variable {s : State} {p : Nat} (hp4 : p < 4) (hp : p < s.parts.length)
include hp4 hp

/-- QCFG after a write (R84). -/
theorem qcfgWrite_next {n : Nat} {v : DWord} {q : Queue} (hn : n < 64) (hq : (s.part p).queues[n]? = some q) :
    ∃ t q', exec (.qcfgWrite p n v) s = .next t ∧ (t.part p).queues[n]? = some q' ∧ q'.readyN = q.readyN ∧ q'.cur = q.cur ∧ q'.held = q.held ∧
      (cfgEn q.cfg = true → cfgEn v = true → q' = q) ∧
      (cfgEn q.cfg = true → cfgEn v = false → q'.cfg = q.cfg &&& ~~~1#64 ∧ q'.idx = q.idx ∧ q'.state = 0) ∧
      (cfgEn q.cfg = false → cfgEn v = true → bits v.toNat 8 4 < 12 → q'.cfg = v &&& 0xFFFFFFFFFFFFFF01 ∧ q'.idx = 0 ∧ q'.state = 1) ∧
      (cfgEn q.cfg = false → cfgEn v = true → 12 ≤ bits v.toNat 8 4 → q'.state = 3 ∧ bits q'.stat.toNat 8 8 = 4) ∧
      (cfgEn q.cfg = false → cfgEn v = false → q'.cfg = v &&& 0xFFFFFFFFFFFFFF01 ∧ q'.idx = q.idx ∧ q'.stat = q.stat) := by
  have hrun : exec (.qcfgWrite p n v) s = execQcfgWrite p n v s := rfl
  rw [hrun, execQcfgWrite, if_neg (by simp [hp4, hn])]
  refine ⟨_, _, rfl, (State.queues_updQueue s n n _ hp).trans (by rw [if_pos rfl, hq]; rfl), ?_⟩
  dsimp only
  cases hold : cfgEn q.cfg with
  | true =>
    cases hv : cfgEn v with
    | true => simp
    | false =>
      refine ⟨rfl, rfl, rfl, nofun, fun _ _ => ⟨rfl, rfl, ?_⟩, nofun, nofun, nofun⟩
      exact q.state_setState (n := 0) (by decide)
  | false =>
    cases hv : cfgEn v with
    | false => exact ⟨rfl, rfl, rfl, nofun, nofun, nofun, nofun, fun _ _ => ⟨rfl, rfl, rfl⟩⟩
    | true =>
      by_cases hl : 12 ≤ bits v.toNat 8 4
      · rw [if_neg (by decide), if_pos rfl, if_pos hl]
        exact ⟨rfl, rfl, rfl, nofun, nofun, fun _ _ h => absurd hl (by omega), fun _ _ _ => badConfig_stat q.stat, nofun⟩
      · rw [if_neg (by decide), if_pos rfl, if_neg hl]
        exact ⟨rfl, rfl, rfl, nofun, nofun, fun _ _ _ => ⟨rfl, rfl, q.state_setState (n := 1) (by decide)⟩, fun _ _ h => absurd h hl, nofun⟩

/-- QIDX after a write: only WIDX of that queue (R85). -/
theorem qidxWrite_next {n : Nat} {v : DWord} {q : Queue} (hn : n < 64) (hq : (s.part p).queues[n]? = some q) :
    ∃ t, exec (.qidxWrite p n v) s = .next t ∧ (t.part p).queues[n]? = some { q with idx := mkIdx (idxR q.idx) (idxW v) } ∧
      ∀ m, m ≠ n → (t.part p).queues[m]? = (s.part p).queues[m]? := by
  have hrun : exec (.qidxWrite p n v) s = execQidxWrite p n v s := rfl
  rw [hrun, execQidxWrite, if_neg (by simp [hp4, hn])]
  refine ⟨_, rfl, (State.queues_updQueue s n n _ hp).trans (by rw [if_pos rfl, hq]; rfl), fun m hm => ?_⟩
  rw [State.queues_updQueue s n m _ hp, if_neg hm]

theorem fqcfgWrite_next (v : DWord) : ∃ t, exec (.fqcfgWrite p v) s = .next t ∧ (t.part p).fqcfg = ringCfg (s.part p).fqcfg v := by
  have hrun : exec (.fqcfgWrite p v) s = execFqcfgWrite p v s := rfl
  rw [hrun, execFqcfgWrite, if_neg (by omega)]
  refine ⟨_, rfl, (congrArg Part.fqcfg (State.part_sansWork (State.sansWork_reenter _ p) p)).trans ?_⟩
  rw [State.part_updPart_self hp]; rfl

theorem mqcfgWrite_next (v : DWord) : ∃ t, exec (.mqcfgWrite p v) s = .next t ∧ (t.part p).mqcfg = ringCfg (s.part p).mqcfg v := by
  have hrun : exec (.mqcfgWrite p v) s = execMqcfgWrite p v s := rfl
  rw [hrun, execMqcfgWrite, if_neg (by omega)]
  refine ⟨_, rfl, ?_⟩
  split
  · refine (congrArg Part.mqcfg (State.part_sansWork (State.sansWork_migRetry _ p) p)).trans ?_
    rw [State.part_updPart_self hp]; rfl
  · rw [State.part_updPart_self hp]

theorem mqidxWrite_next (v : DWord) : ∃ t, exec (.mqidxWrite p v) s = .next t ∧ idxR (t.part p).mqidx = idxR v := by
  have hread (q : Part) : idxR q.sansWork.mqidx = idxR q.mqidx := idxR_mkIdx_idxR _ _
  have hrun : exec (.mqidxWrite p v) s = execMqidxWrite p v s := rfl
  rw [hrun, execMqidxWrite, if_neg (by omega)]
  refine ⟨_, rfl, ?_⟩
  rw [← hread, State.part_sansWork (State.sansWork_migRetry _ p) p, hread, State.part_updPart_self hp]
  exact idxR_mkIdx_idxR _ _

theorem cqcfgWrite_next (v : DWord) : ∃ t, exec (.cqcfgWrite p v) s = .next t ∧ (t.part p).cqcfg = ringCfg (s.part p).cqcfg v ∧
    (t.part p).cqidx = if ringOn (s.part p).cqcfg v then 0 else (s.part p).cqidx := by
  have hrun : exec (.cqcfgWrite p v) s = execCqcfgWrite p v s := rfl
  rw [hrun, execCqcfgWrite, if_neg (by omega)]
  exact ⟨_, rfl, by rw [State.part_updPart_self hp], by rw [State.part_updPart_self hp]⟩

theorem eqcfgWrite_next (v : DWord) : ∃ t, exec (.eqcfgWrite p v) s = .next t ∧ (t.part p).eqcfg = ringCfg (s.part p).eqcfg v ∧
    (t.part p).eqidx = if ringOn (s.part p).eqcfg v then 0 else (s.part p).eqidx := by
  have hrun : exec (.eqcfgWrite p v) s = execEqcfgWrite p v s := rfl
  rw [hrun, execEqcfgWrite, if_neg (by omega)]
  exact ⟨_, rfl, by rw [State.part_updPart_self hp], by rw [State.part_updPart_self hp]⟩

theorem cqidxWrite_next (v : DWord) : ∃ t, exec (.cqidxWrite p v) s = .next t ∧ idxR (t.part p).cqidx = idxR v ∧
    idxW (t.part p).cqidx = idxW (s.part p).cqidx := by
  have hrun : exec (.cqidxWrite p v) s = execCqidxWrite p v s := rfl
  rw [hrun, execCqidxWrite, if_neg (by omega)]
  refine ⟨_, rfl, ?_⟩
  rw [State.part_updPart_self hp]
  exact ⟨idxR_mkIdx_idxR _ _, idxW_mkIdx_idxW _ _⟩

theorem acthWrite_next (v : DWord) : ∃ t, exec (.acthWrite p v) s = .next t ∧
    (t.part p).acth = (v &&& 0xFFFF) ||| ((s.part p).acth &&& v &&& 0x10000) := by
  have hrun : exec (.acthWrite p v) s = execActhWrite p v s := rfl
  rw [hrun, execActhWrite, if_neg (by omega)]
  exact ⟨_, rfl, by rw [State.part_updPart_self hp]⟩

/-- SLCFG after a write: the spill of the keys before it leaves the partitions where they are (R388). -/
theorem slcfgWrite_next (v : DWord) : ∃ t, exec (.slcfgWrite p v) s = .next t ∧ (t.part p).slcfg = v &&& 0xFFFFFFFFFFFFF01F := by
  have hrun : exec (.slcfgWrite p v) s = execSlcfgWrite p v s := rfl
  rw [hrun, execSlcfgWrite, if_neg (by omega)]
  refine ⟨_, rfl, ?_⟩
  rw [State.part_updPart_self (s := s.spillAll p) (by rwa [State.length_sansWork (State.sansWork_spillAll s p)])]
  rfl

/-- A register of the queue page whose write is no event of its own (Tables 4.8, 4.9, 16.4, 18.4). -/
theorem queuePageWrite_next {off : Nat} (v : DWord) (h1 : off < 0x1000) (h8 : off % 8 = 0) (hown : pageOwn off = false) :
    ∃ t, exec (.registerWrite (.queuePage p off) v) s = .next t ∧
      (off = 0x800 → (t.part p).gnbase = v &&& 0x0000FFFFFFFFFF80) ∧ (off = 0x808 → (t.part p).gnlen = v &&& 0xFFFF0000FFFFFFFF) ∧
      (off = 0x848 → (t.part p).slsnap = v &&& 0xFFFFFFFFFFFFFF01) ∧ (off = 0x870 → (t.part p).ivec = v &&& 0xBFBFBFBF) ∧
      (off = 0x858 → idxR (t.part p).eqidx = idxR v ∧ idxW (t.part p).eqidx = idxW (s.part p).eqidx) ∧
      (off ∉ [0x800, 0x808, 0x848, 0x858, 0x870] → t = s) := by
  have hrun : exec (.registerWrite (.queuePage p off) v) s = execRegisterWrite (.queuePage p off) v s := rfl
  rw [hrun]
  unfold execRegisterWrite
  refine ⟨s.pageWrite p off v, if_pos (by simp [hp4, h1, h8, hown]), ?_, ?_, ?_, ?_, ?_, fun hoff => ?_⟩
  · rintro rfl; rw [State.pageWrite, State.part_updPart_self hp]; rfl
  · rintro rfl; rw [State.pageWrite, State.part_updPart_self hp]; rfl
  · rintro rfl; rw [State.pageWrite, State.part_updPart_self hp]; rfl
  · rintro rfl; rw [State.pageWrite, State.part_updPart_self hp]; rfl
  · rintro rfl
    rw [State.pageWrite, State.part_updPart_self hp]
    exact ⟨idxR_mkIdx_idxR _ _, idxW_mkIdx_idxW _ _⟩
  · have hid : s.pageWrite p off v = s.updPart p id := by
      simp only [List.mem_cons, List.not_mem_nil, or_false, not_or] at hoff
      obtain ⟨h800, h808, h848, h858, h870⟩ := hoff
      unfold State.pageWrite
      congr 1
      funext q
      split
      · exact absurd rfl h800
      · exact absurd rfl h808
      · exact absurd rfl h848
      · exact absurd rfl h858
      · exact absurd rfl h870
      · rfl
    rw [hid, State.updPart, List.modify_id]

end

/-- CPU bells of the management page (Table 18.3). -/
theorem mgmtWrite_next (s : State) {j : Nat} (v : DWord) (hj : j < 4) (hq : s.pcq.length = 4) (ha : s.pca.length = 4) :
    (∃ t, exec (.registerWrite (.mgmt (0x40 + 8 * j)) v) s = .next t ∧ t.pcq[j]? = some v) ∧
    (∃ t, exec (.registerWrite (.mgmt (0x60 + 8 * j)) v) s = .next t ∧ t.pca[j]? = some (v &&& 0xF)) := by
  constructor
  · refine ⟨s.mgmtWrite (0x40 + 8 * j) v, rfl, ?_⟩
    have hix : (0x40 + 8 * j - 0x40) / 8 = j := by omega
    rw [State.mgmtWrite, if_neg (by omega), if_pos (by omega), hix]
    exact List.getElem?_set_self (by omega)
  · refine ⟨s.mgmtWrite (0x60 + 8 * j) v, rfl, ?_⟩
    have hix : (0x60 + 8 * j - 0x60) / 8 = j := by omega
    rw [State.mgmtWrite, if_neg (by omega), if_neg (by omega), if_pos (by omega), hix]
    exact List.getElem?_set_self (by omega)

end Sys2Proof.Machine

/-- Settles O48: one lemma per register of the two pages; what a write sets off afterwards (faults that enter again, notifications, spills)
leaves the registers that software owns. -/
theorem queueRegisterWrites : Obligations.QueueRegisterWrites := by
  unfold Obligations.QueueRegisterWrites
  refine ⟨fun s p n v q hp4 hlen hn hq => ?_, fun s p v hp4 hlen => ?_, fun s j v hj hq ha => mgmtWrite_next s v hj hq ha⟩
  · have hp : p < s.parts.length := by omega
    exact ⟨qcfgWrite_next hp4 hp hn hq, qidxWrite_next hp4 hp hn hq⟩
  · have hp : p < s.parts.length := by omega
    simp only [← ringCfg_eq, ← ringOn_eq]
    exact ⟨fqcfgWrite_next hp4 hp v, mqcfgWrite_next hp4 hp v, cqcfgWrite_next hp4 hp v, eqcfgWrite_next hp4 hp v, mqidxWrite_next hp4 hp v,
      acthWrite_next hp4 hp v, slcfgWrite_next hp4 hp v, cqidxWrite_next hp4 hp v,
      fun off h1 h8 hown => queuePageWrite_next hp4 hp v h1 h8 hown⟩

end

section
/-! PROOFS. Submission records and completions (O57). -/
open Sys2Proof Sys2Proof.Machine

namespace Sys2Proof.Machine
open Host (Outcome)

/-! ### What reads and writes of device agents leave -/

theorem State.parts_sansCache {s t : State} (h : t.sansCache = s.sansCache) : t.parts = s.parts := by have e := congrArg State.parts h; exact e
theorem State.grids_sansCache {s t : State} (h : t.sansCache = s.sansCache) : t.grids = s.grids := by have e := congrArg State.grids h; exact e
theorem State.part_sansCache {s t : State} (h : t.sansCache = s.sansCache) (p : Nat) : t.part p = s.part p := by
  rw [part, part, parts_sansCache h]
@[simp] theorem State.sansCache_agentTouch (s : State) (p asid va n : Nat) : (s.agentTouch p asid va n).sansCache = s.sansCache :=
  sansCache_touch ..
@[simp] theorem State.sansCache_nodeTouch (s : State) (p k : Nat) : (s.nodeTouch p k).sansCache = s.sansCache := sansCache_agentTouch ..
@[simp] theorem State.sansCache_nodeWrite (s : State) (p k o : Nat) (bs : List Byte) : (s.nodeWrite p k o bs).sansCache = s.sansCache :=
  sansCache_writeRaw ..
@[simp] theorem State.sansCache_recTouch (s : State) (p asid : Nat) (r : LRec) : (s.recTouch p asid r).sansCache = s.sansCache := by
  have hsucc : (if r.nsucc = 0 then s else s.agentTouch p asid r.succ.toNat (4 * r.nsucc)).sansCache = s.sansCache := by
    split
    · rfl
    · exact sansCache_agentTouch ..
  unfold recTouch
  dsimp only
  split
  · exact (sansCache_agentTouch ..).trans hsucc
  · exact hsucc
@[simp] theorem State.sansCache_complRelease (s : State) (p : Nat) (c : Compl) : (s.complRelease p c).sansCache = s.sansCache := by
  have hk := sansCache_keeps s.sansCache
  exact hk.release _ _ _ (hk.sendLines _ _ (hk.sendLines _ _ (hk.combine _ _ rfl)))

/-- A queue after it has changed. -/
theorem State.queue_updQueue {s : State} {p q : Nat} {x : Queue} (f : Queue → Queue) (hp : p < s.parts.length)
    (hx : (s.part p).queues[q]? = some x) : ((s.updQueue p q f).part p).queues[q]? = some (f x) := by
  rw [queues_updQueue s q q f hp, if_pos rfl, hx]; rfl

/-- Two changes of a queue agree when they agree on that queue. -/
theorem modify_congr {α : Type} {l : List α} {n : Nat} {f g : α → α} (h : ∀ x, l[n]? = some x → f x = g x) : l.modify n f = l.modify n g := by
  refine List.ext_getElem? fun m => ?_
  rw [List.getElem?_modify, List.getElem?_modify]
  cases hm : l[m]? with
  | none => rfl
  | some y => by_cases hn : n = m <;> simp_all
theorem State.updQueue_congr {s : State} {p q : Nat} {x : Queue} {f g : Queue → Queue} (hx : (s.part p).queues[q]? = some x) (h : f x = g x) :
    s.updQueue p q f = s.updQueue p q g := by
  have hparts : s.parts.modify p (fun y => { y with queues := y.queues.modify q f }) =
      s.parts.modify p (fun y => { y with queues := y.queues.modify q g }) := by
    refine modify_congr fun y hy => ?_
    have hpart : s.part p = y := by rw [part, List.getD_eq_getElem?_getD, hy]; rfl
    rw [hpart] at hx
    rw [modify_congr fun z hz => ?_]
    rw [hx] at hz
    cases hz
    exact h
  unfold updQueue updPart
  rw [hparts]

/-! ### RECORD_TAKE -/

/-- A queue that takes its next record holds none that it has read. -/
theorem Queue.took_of_mayTake {x : Queue} (h : x.mayTake = true) : x.took = none := by
  unfold mayTake at h
  simp only [Bool.and_eq_true, Option.isNone_iff_eq_none] at h
  exact h.2

/-- Queue `q` of partition `p` has read the record that it is at: the device after that. -/
def State.recordRead (s : State) (p q : Nat) (x : Queue) : State :=
  ((s.touch .outer p (cfgAsid x.cfg) (cfgBase x.cfg + 64 * (idxR x.idx % cfgSize x.cfg)) 64 true .read true).acquire none (Scope.rank .sys)).updQueue p q
    (fun x' => { x' with idx := mkIdx (idxR x.idx + 1) (idxW x.idx) })

/-- The record that it goes on with: where it lay, its bytes, and the status of its tests. -/
def State.recordTook (S : State) (p q : Nat) (x : Queue) (raw : List Byte) : Took :=
  { ix := idxR x.idx, raw := raw
    st := S.recStatus p q (LRec.ofBytes raw) (S.recReads p (cfgAsid x.cfg) (LRec.ofBytes raw)) (idxUsed x.idx > cfgSize x.cfg) }

section
variable {s : State} {p q : Nat} {x : Queue} (hx : (s.part p).queues[q]? = some x)
include hx

theorem recordTake_refused (h : s.working p = false ∨ (s.part p).agentWaits (takeHold q) = true ∨ (x.took = none ∧ x.mayTake = false)) :
    exec (.recordTake p q) s = .refused (.notEnabled "RECORD_TAKE") := by
  have hrun : exec (.recordTake p q) s = execRecordTake p q s := rfl
  rw [hrun, execRecordTake, hx]
  dsimp only
  obtain h | h | ⟨ht, hm⟩ := h
  · rw [h]; rfl
  · rw [h, Bool.or_true]; rfl
  · rw [ht, hm]; exact ite_self _

variable (hw : s.working p = true) (ha : (s.part p).agentWaits (takeHold q) = false)
include hw ha

/-- A queue goes on with the record that it has read. -/
theorem recordTake_again {y : Took} (hy : x.took = some y) : exec (.recordTake p q) s = .next (s.takeOn p q y) := by
  have hrun : exec (.recordTake p q) s = execRecordTake p q s := rfl
  rw [hrun, execRecordTake, hx]
  dsimp only
  rw [if_neg (by simp [hw, ha]), hy]

/-- A queue takes its next record: it is refused when it cannot be read, and goes on otherwise. -/
theorem recordTake_next (hm : x.mayTake = true) : exec (.recordTake p q) s =
    match s.readBy .outer p (cfgAsid x.cfg) (cfgBase x.cfg + 64 * (idxR x.idx % cfgSize x.cfg)) 64 true .read with
    | .error _ => .next ((s.recordRead p q x).refuse p q (idxR x.idx) 0x07)
    | .ok raw => .next (((s.recordRead p q x).recTouch p (cfgAsid x.cfg) (LRec.ofBytes raw)).takeOn p q ((s.recordRead p q x).recordTook p q x raw)) := by
  have hrun : exec (.recordTake p q) s = execRecordTake p q s := rfl
  rw [hrun, execRecordTake, hx]
  dsimp only
  rw [if_neg (by simp [hw, ha]), Queue.took_of_mayTake hm]
  dsimp only
  rw [if_neg (by simp [hm])]
  have hS : ((s.touch .outer p (cfgAsid x.cfg) (cfgBase x.cfg + 64 * (idxR x.idx % cfgSize x.cfg)) 64 true .read true).acquire none
      (Scope.rank .sys)).updQueue p q (fun x' => { x' with idx := mkIdx (idxR x.idx + 1) (idxW x'.idx) }) = s.recordRead p q x :=
    State.updQueue_congr (by rwa [State.part_sansCache (s := s) (by simp)]) rfl
  rw [hS]
  rfl

end

/-- Up to memory and caches, the read of a record only counts it (R85). -/
theorem recordRead_counts (s : State) (p q : Nat) (x : Queue) : ∃ u : State, u.sansCache = s.sansCache ∧
    s.recordRead p q x = u.updQueue p q (fun x' => { x' with idx := mkIdx (idxR x.idx + 1) (idxW x.idx) }) := ⟨_, by simp, rfl⟩
theorem recordRead_grids (s : State) (p q : Nat) (x : Queue) : (s.recordRead p q x).grids = s.grids := by
  obtain ⟨u, hu, e⟩ := recordRead_counts s p q x
  rw [e]; exact (State.grids_sansCache hu :)
theorem recordRead_nextId (s : State) (p q : Nat) (x : Queue) : (s.recordRead p q x).nextId = s.nextId := by
  obtain ⟨u, hu, e⟩ := recordRead_counts s p q x
  rw [e]; exact (State.nextId_sansCache hu :)
theorem recordRead_length (s : State) (p q : Nat) (x : Queue) : (s.recordRead p q x).parts.length = s.parts.length := by
  obtain ⟨u, hu, e⟩ := recordRead_counts s p q x
  rw [e, ← State.parts_sansCache hu]; exact List.length_modify ..

section
variable {s : State} {p q : Nat} {x : Queue} (hp : p < s.parts.length) (hx : (s.part p).queues[q]? = some x)
include hp hx

/-- What the read of a record leaves: its queue counts it, and nothing else but memory and caches has changed (R85). -/
theorem recordRead_queue : ((s.recordRead p q x).part p).queues[q]? = some { x with idx := mkIdx (idxR x.idx + 1) (idxW x.idx) } := by
  obtain ⟨u, hu, e⟩ := recordRead_counts s p q x
  rw [e]
  exact State.queue_updQueue _ (by rwa [State.parts_sansCache hu]) (by rwa [State.part_sansCache hu])

/-- A refused record stops its queue in ERROR, with the status and the record's index (R86, Table 4.6). -/
theorem refuse_queue (ix st : Nat) : ((s.refuse p q ix st).part p).queues[q]? =
    some { x with stat := BitVec.ofNat 64 (ix % 2 ^ 32 * 2 ^ 32 + st * 256 + 3) } := State.queue_updQueue _ hp hx

omit hp hx in
theorem refuse_grids (ix st : Nat) : (s.refuse p q ix st).grids = s.grids := rfl

/-- A launch or copy node that becomes ready joins its queue's ready list (R93). -/
theorem nodeReady_queue {k : Nat} {r : LRec} {sig : Bool} (hk : r.kind ≠ 2) : ((s.nodeReady p k q r sig).part p).queues[q]? =
    some { x with readyN := x.readyN ++ [(k, r)] } := by
  have hc := State.sansCache_nodeWrite s p k 0x44 [2]
  rw [State.nodeReady, if_neg hk, State.part_updPart_self (by rwa [State.parts_sansCache hc]), State.part_sansCache hc]
  simp [hx]
end

/-- The record of a queue that goes on with it, with no node entry to read: it is refused with its status, or starts. -/
theorem takeOn_direct (T : State) (p q : Nat) (y : Took) (h : ¬((LRec.ofBytes y.raw).hasNode = true ∧ (LRec.ofBytes y.raw).node.toNat < T.nodeN p)) :
    T.takeOn p q y = if y.st ≠ 0 then (T.updQueue p q (fun z => { z with took := none })).refuse p q y.ix y.st
      else (T.updQueue p q (fun z => { z with took := none })).direct p q ((T.part p).queueAsid q) (LRec.ofBytes y.raw) := by
  rw [State.takeOn]
  exact if_neg (by simpa using h)

section
variable {T : State} {p q : Nat} {y : Took} (h : (LRec.ofBytes y.raw).hasNode = true ∧ (LRec.ofBytes y.raw).node.toNat < T.nodeN p)
include h

/-- The entry of its node faults: the queue keeps the record (R91). -/
theorem takeOn_fault {ps : List Nat} (he : T.nodeRead p (LRec.ofBytes y.raw).node.toNat = .error (.fault ps)) : T.takeOn p q y =
    (T.updQueue p q (fun z => { z with took := some y })).agentFault p (T.nodeAsid p) ps (kEngRead + kWrite) (takeHold q) := by
  rw [State.takeOn]
  refine (if_pos (by simpa using h)).trans ?_
  rw [he]

/-- The entry is read, or meets protection or poison: the record is refused, or arrives. -/
theorem takeOn_entry (he : ∀ ps, T.nodeRead p (LRec.ofBytes y.raw).node.toNat ≠ .error (.fault ps)) : T.takeOn p q y =
    let e := T.nodeRead p (LRec.ofBytes y.raw).node.toNat
    let G := (T.updQueue p q (fun z => { z with took := none })).nodeTouch p (LRec.ofBytes y.raw).node.toNat
    if nodeStatus (LRec.ofBytes y.raw) y.st e ≠ 0 then G.refuse p q y.ix (nodeStatus (LRec.ofBytes y.raw) y.st e)
    else match e with
      | .ok b => G.arrive p q y.ix (LRec.ofBytes y.raw) y.raw b
      | .error _ => G := by
  rw [State.takeOn]
  refine (if_pos (by simpa using h)).trans ?_
  cases hr : T.nodeRead p (LRec.ofBytes y.raw).node.toNat with
  | ok b => rfl
  | error e =>
    cases e with
    | fault ps => exact absurd hr (he ps)
    | _ => rfl

end

/-- A record with no predecessor left is ready when it arrives (R93). -/
theorem arrive_ready (s : State) (p q ix : Nat) (r : LRec) (raw b : List Byte) (hm : nodeRem b + r.preds = 0) : ∃ u : State, u.sansCache = s.sansCache ∧
    s.arrive p q ix r raw b = u.nodeReady p r.node.toNat q r (nodeSig b) := by
  refine ⟨_, ?_, if_pos hm⟩
  simp

section
variable {T : State} {p q : Nat} {x : Queue} {y : Took} (hp : p < T.parts.length) (hx : (T.part p).queues[q]? = some x) (ht : x.took = none)
include hp hx ht

/-- A queue that held no record holds none when it goes on with one. -/
theorem gone_queue : ((T.updQueue p q (fun z => { z with took := none })).part p).queues[q]? = some x := by
  rw [State.queue_updQueue _ hp hx]
  cases x
  cases ht
  rfl

theorem takeOn_refused (h : ¬((LRec.ofBytes y.raw).hasNode = true ∧ (LRec.ofBytes y.raw).node.toNat < T.nodeN p)) (hst : y.st ≠ 0) :
    ((T.takeOn p q y).part p).queues[q]? = some { x with stat := BitVec.ofNat 64 (y.ix % 2 ^ 32 * 2 ^ 32 + y.st * 256 + 3) } ∧
    (T.takeOn p q y).grids = T.grids := by
  rw [takeOn_direct T p q y h, if_pos hst]
  exact ⟨refuse_queue (by rwa [State.updQueue, State.updPart, List.length_modify]) (gone_queue hp hx ht) _ _, rfl⟩

/-- A record without a node becomes the queue's next grid (R87). -/
theorem takeOn_starts (h : (LRec.ofBytes y.raw).hasNode = false) (hst : y.st = 0) :
    (T.takeOn p q y).grids = T.grids ++ [(LRec.ofBytes y.raw).grid T.nextId p q (cfgAsid x.cfg) 1 none 0] ∧
    ((T.takeOn p q y).part p).queues[q]? = some { x with cur := some T.nextId } := by
  have hasid : (T.part p).queueAsid q = cfgAsid x.cfg := by rw [Part.queueAsid, hx]; rfl
  rw [takeOn_direct T p q y (by simp [h]), if_neg (by simp [hst]), hasid]
  exact ⟨rfl, State.queue_updQueue _ (by rwa [State.updQueue, State.updPart, List.length_modify]) (gone_queue hp hx ht)⟩

variable (h : (LRec.ofBytes y.raw).hasNode = true ∧ (LRec.ofBytes y.raw).node.toNat < T.nodeN p)
include h

omit ht in
/-- The entry of its node faults: the queue keeps the record. -/
theorem takeOn_waits {ps : List Nat} (he : T.nodeRead p (LRec.ofBytes y.raw).node.toNat = .error (.fault ps)) :
    ((T.takeOn p q y).part p).queues[q]? = some { x with took := some y } ∧ (T.takeOn p q y).grids = T.grids := by
  rw [takeOn_fault h he]
  have hs := State.sansWork_agentFault (T.updQueue p q (fun z => { z with took := some y })) p (T.nodeAsid p) ps (kEngRead + kWrite) (takeHold q)
  rw [State.queues_sansWork hs, State.grids_sansWork hs]
  exact ⟨State.queue_updQueue _ hp hx, rfl⟩

theorem takeOn_entryRefused (he : ∀ ps, T.nodeRead p (LRec.ofBytes y.raw).node.toNat ≠ .error (.fault ps)) {st : Nat}
    (hst : nodeStatus (LRec.ofBytes y.raw) y.st (T.nodeRead p (LRec.ofBytes y.raw).node.toNat) = st) (h0 : st ≠ 0) :
    ((T.takeOn p q y).part p).queues[q]? = some { x with stat := BitVec.ofNat 64 (y.ix % 2 ^ 32 * 2 ^ 32 + st * 256 + 3) } ∧
    (T.takeOn p q y).grids = T.grids := by
  have hG := State.sansCache_nodeTouch (T.updQueue p q (fun z => { z with took := none })) p (LRec.ofBytes y.raw).node.toNat
  rw [takeOn_entry h he]
  dsimp only
  rw [hst, if_pos h0, refuse_grids, State.grids_sansCache hG]
  refine ⟨refuse_queue ?_ ?_ _ _, rfl⟩
  · rwa [State.parts_sansCache hG, State.updQueue, State.updPart, List.length_modify]
  · rw [State.part_sansCache hG]
    exact gone_queue hp hx ht

/-- A launch or copy of a usable entry, with no predecessor left, is ready. -/
theorem takeOn_ready {b : List Byte} (he : T.nodeRead p (LRec.ofBytes y.raw).node.toNat = .ok b)
    (hst : nodeStatus (LRec.ofBytes y.raw) y.st (.ok b) = 0) (hm : nodeRem b + (LRec.ofBytes y.raw).preds = 0) (hk : (LRec.ofBytes y.raw).kind ≠ 2) :
    ((T.takeOn p q y).part p).queues[q]? =
      some { x with readyN := x.readyN ++ [((LRec.ofBytes y.raw).node.toNat, LRec.ofBytes y.raw)] } := by
  have hG := State.sansCache_nodeTouch (T.updQueue p q (fun z => { z with took := none })) p (LRec.ofBytes y.raw).node.toNat
  rw [takeOn_entry h (by simp [he])]
  dsimp only
  rw [he, hst, if_neg (by simp)]
  obtain ⟨u, hu, e⟩ := arrive_ready ((T.updQueue p q (fun z => { z with took := none })).nodeTouch p (LRec.ofBytes y.raw).node.toNat)
    p q y.ix (LRec.ofBytes y.raw) y.raw b hm
  have hu' := hu.trans hG
  dsimp only
  rw [e]
  refine nodeReady_queue ?_ ?_ hk
  · rwa [State.parts_sansCache hu', State.updQueue, State.updPart, List.length_modify]
  · rw [State.part_sansCache hu']
    exact gone_queue hp hx ht

end

/-! ### The status of a record (Table 4.3) -/

theorem recStatus_unreadable (s : State) (p q : Nat) (r : LRec) (rd : RecReads) (big : Bool)
    (h : rd.succ.2 ≠ none ∨ ∃ e, rd.obj = some (.error e)) : s.recStatus p q r rd big = 0x07 := by
  unfold State.recStatus
  refine if_pos ?_
  obtain h | ⟨e, h⟩ := h
  · rw [Option.isSome_iff_ne_none.mpr h]; rfl
  · simp [h]

section
variable (s : State) (p q : Nat) (r : LRec) (rd : RecReads) (hs : rd.succ.2 = none) (ho : ∀ e, rd.obj ≠ some (.error e))
include hs ho

/-- A record that could be read: Table 4.3 from its second row on. -/
theorem recStatus_readable (big : Bool) : s.recStatus p q r rd big =
    if big then 0x06
    else if r.kindBad then 0x04
    else if r.shapeBad then 0x03
    else
      let o := match rd.obj with | some (.ok b) => s.objStatus p r (s.regionQ p q) b | _ => 0
      if o ≠ 0 then o
      else if (r.hasNode && r.node.toNat ≥ s.nodeN p) || rd.succ.1.any (s.nodeN p ≤ ·) || (!r.hasNode && (r.preds ≠ 0 || r.kind = 2)) then 0x05
      else if s.capBad p ((if r.hasNode then [r.node.toNat] else []) ++ rd.succ.1) then 0x09
      else 0 := by
  unfold State.recStatus
  refine (if_neg ?_).trans rfl
  rw [hs]
  cases hobj : rd.obj with
  | none => simp
  | some y =>
    cases y with
    | error e => exact absurd hobj (ho e)
    | ok b => simp

theorem recStatus_firsts : s.recStatus p q r rd true = 0x06 ∧ (r.kindBad = true → s.recStatus p q r rd false = 0x04) ∧
    (r.kindBad = false → r.shapeBad = true → s.recStatus p q r rd false = 0x03) ∧
    (r.kindBad = false → r.shapeBad = false → rd.obj = none → r.hasNode = false → (r.preds ≠ 0 ∨ r.kind = 2) → s.recStatus p q r rd false = 0x05) := by
  simp only [recStatus_readable s p q r rd hs ho]
  refine ⟨rfl, fun hk => by simp [hk], fun hk hsh => by simp [hk, hsh], fun hk hsh hobj hn hpk => ?_⟩
  simp [hk, hsh, hobj, hn, hpk]

end

/-! ### NODE_COMPLETE -/

section
variable {s : State} {p : Nat} {c : Compl} {rest : List Compl} (hc : (s.part p).compl = c :: rest)
include hc

theorem nodeComplete_refused (h : s.working p = false ∨ (s.part p).agentWaits complHold = true ∨ (c.stage = 1 ∧ (s.part p).complFull = true)) :
    exec (.nodeComplete p) s = .refused (.notEnabled "NODE_COMPLETE") := by
  have hrun : exec (.nodeComplete p) s = execNodeComplete p s := rfl
  rw [hrun, execNodeComplete, hc]
  refine if_pos ?_
  obtain h | h | ⟨hs, hf⟩ := h
  · simp [h]
  · simp [h]
  · simp [hs, hf]

/-- A completion of no node that goes on: after the release of its stores the ring and the successors are left to do (R94). -/
theorem nodeComplete_go (hw : s.working p = true) (ha : (s.part p).agentWaits complHold = false) (hn : c.lrec.hasNode = false)
    (hf : ¬(c.stage = 1 ∧ (s.part p).complFull = true)) :
    exec (.nodeComplete p) s = .next ((if c.stage = 0 then s.complRelease p c else s).complRest p c) := by
  have hrun : exec (.nodeComplete p) s = execNodeComplete p s := rfl
  rw [hrun, execNodeComplete, hc]
  refine (if_neg (by simpa [hw, ha] using hf)).trans ?_
  by_cases hz : c.stage = 0
  · rw [if_neg (by omega), if_pos hz]
    have hnode : (s.complRelease p c).complNode p c = (s.complRelease p c, true) := by
      unfold State.complNode
      exact if_pos (by simp [hn])
    rw [hnode]
  · rw [if_pos (by omega), if_neg hz]

end

/-- The completions of a partition after the oldest one is off. -/
theorem State.compl_dropCompl {s : State} {p : Nat} {c : Compl} {rest : List Compl} (hp : p < s.parts.length) (hc : (s.part p).compl = c :: rest) :
    ((s.dropCompl p).part p).compl = rest := by rw [dropCompl, part_updPart_self hp, hc]; rfl

section
variable {S : State} {p : Nat} {c : Compl} {rest : List Compl} (hst : c.stage ≤ 1)
include hst

/-- While the ring is full the completion waits (R426). -/
theorem complRest_full (hp : p < S.parts.length) (hc : (S.part p).compl = c :: rest) (hfull : (S.part p).complFull = true) :
    ((S.complRest p c).part p).compl = { c with stage := 1 } :: rest := by
  rw [State.complRest, if_neg (by omega), if_pos hfull, State.updCompl, State.part_updPart_self hp, hc]

variable (hfull : (S.part p).complFull = false)
include hfull

/-- With room in the ring, or none enabled, the record is written, and with no successor the completion is off the list. -/
theorem complRest_write (hn : c.lrec.nsucc = 0) {u : State} (hrec : S.complRecord p c = (u, true)) : S.complRest p c = u.dropCompl p := by
  rw [State.complRest, if_neg (by omega), if_neg (by simp [hfull]), hrec, hn]
  rfl

end

/-- With the ring off there is no record to write. -/
theorem complRecord_off {S : State} {p : Nat} {c : Compl} (hoff : cfgEn (S.part p).cqcfg = false) : S.complRecord p c = (S, true) := by
  rw [State.complRecord, hoff]; rfl

/-- The record of a completion is written, numbered and counted, and its vector rings (Table 18.1, R426). -/
def State.recordDone (s : State) (p : Nat) : State :=
  ((s.bumpSeq p).updPart p (fun q => { q with cqidx := mkIdx (idxR q.cqidx) (idxW q.cqidx + 1) })).ringMsix p 7 0
theorem complRecord_ok {S s1 : State} {p : Nat} {c : Compl} (hon : cfgEn (S.part p).cqcfg = true)
    (hw : S.writeVia .outer p (cfgAsid (S.part p).cqcfg) (cfgBase (S.part p).cqcfg + 32 * (idxW (S.part p).cqidx % cfgSize (S.part p).cqcfg)) true
      (packRec [(c.lrec.seq.toNat, 8), (c.lrec.node.toNat, 4), (c.queue, 1), (c.status, 1), (c.cause, 1), (c.cstat, 1), (c.energy, 8),
        (S.seqOf p, 8)]) = .ok s1) : S.complRecord p c = (s1.recordDone p, true) := by
  rw [State.complRecord]
  refine (if_neg (by simp [hon])).trans ?_
  dsimp only
  rw [hw]
  rfl

/-- A vector that rings changes neither memory nor the partitions. -/
theorem State.ringMsix_keeps (s : State) (p en lo : Nat) : (s.ringMsix p en lo).parts = s.parts ∧ (s.ringMsix p en lo).mem = s.mem ∧
    (s.ringMsix p en lo).lines = s.lines := by
  have hsend (v : Nat) : (s.sendMsix v).parts = s.parts ∧ (s.sendMsix v).mem = s.mem ∧ (s.sendMsix v).lines = s.lines := by
    unfold sendMsix
    split
    · exact ⟨rfl, rfl, rfl⟩
    · split
      · exact ⟨rfl, rfl, rfl⟩
      · exact ⟨rfl, rfl, rfl⟩
  unfold ringMsix
  dsimp only
  split
  · exact hsend _
  · exact ⟨rfl, rfl, rfl⟩
theorem State.part_recordDone {s : State} {p : Nat} (hp : p < s.parts.length) : (s.recordDone p).part p =
    { s.part p with eseq := (s.part p).eseq + 1, cqidx := mkIdx (idxR (s.part p).cqidx) (idxW (s.part p).cqidx + 1) } := by
  have hring (t : State) : (t.ringMsix p 7 0).part p = t.part p := by rw [part, part, (ringMsix_keeps t p 7 0).1]
  rw [recordDone, hring, part_updPart_self (by rwa [bumpSeq, updPart, List.length_modify]), bumpSeq, part_updPart_self hp]
theorem State.length_recordDone (s : State) (p : Nat) : (s.recordDone p).parts.length = s.parts.length := by
  rw [recordDone, (ringMsix_keeps _ p 7 0).1, updPart, List.length_modify, bumpSeq, updPart, List.length_modify]
theorem State.memory_recordDone (s : State) (p : Nat) : (s.recordDone p).mem = s.mem ∧ (s.recordDone p).lines = s.lines :=
  (ringMsix_keeps _ p 7 0).2

section
variable {s : State} {p : Nat} {c : Compl} {rest : List Compl} (hp : p < s.parts.length) (hc : (s.part p).compl = c :: rest)
  (hw : s.working p = true) (ha : (s.part p).agentWaits complHold = false) (hn : c.lrec.hasNode = false)
include hp hc hw ha hn

theorem nodeComplete_full (hz : c.stage = 0) (hf : (s.part p).complFull = true) :
    ∃ u, exec (.nodeComplete p) s = .next u ∧ (u.part p).compl = { c with stage := 1 } :: rest := by
  rw [nodeComplete_go hc hw ha hn (by omega), if_pos hz]
  have hS := State.sansCache_complRelease s p c
  refine ⟨_, rfl, complRest_full (by omega) (by rwa [State.parts_sansCache hS]) ?_ ?_⟩
  · rwa [State.part_sansCache hS]
  · rwa [State.part_sansCache hS]

theorem nodeComplete_ringOff (hst : c.stage ≤ 1) (hs0 : c.lrec.nsucc = 0) (hoff : cfgEn (s.part p).cqcfg = false) :
    ∃ u, exec (.nodeComplete p) s = .next u ∧ (u.part p).compl = rest := by
  have hfull : (s.part p).complFull = false := by rw [Part.complFull, hoff]; rfl
  have hS : (if c.stage = 0 then s.complRelease p c else s).sansCache = s.sansCache := by split <;> simp
  rw [nodeComplete_go hc hw ha hn (by simp [hfull])]
  generalize (if c.stage = 0 then s.complRelease p c else s) = S at hS
  rw [complRest_write hst (by rwa [State.part_sansCache hS]) hs0 (complRecord_off (by rwa [State.part_sansCache hS]))]
  exact ⟨_, rfl, State.compl_dropCompl (by rwa [State.parts_sansCache hS]) (by rwa [State.part_sansCache hS])⟩

/-- With the ring enabled and room in it, the record of Table 18.1 is written, numbered and counted, and the completion is off (R426). -/
theorem nodeComplete_record {s1 : State} (hst : c.stage ≤ 1) (hs0 : c.lrec.nsucc = 0) (hon : cfgEn (s.part p).cqcfg = true)
    (hfull : (s.part p).complFull = false)
    (hrec : (if c.stage = 0 then s.complRelease p c else s).writeVia .outer p (cfgAsid (s.part p).cqcfg)
      (cfgBase (s.part p).cqcfg + 32 * (idxW (s.part p).cqidx % cfgSize (s.part p).cqcfg)) true
      (packRec [(c.lrec.seq.toNat, 8), (c.lrec.node.toNat, 4), (c.queue, 1), (c.status, 1), (c.cause, 1), (c.cstat, 1), (c.energy, 8),
        (s.seqOf p, 8)]) = .ok s1) :
    ∃ u, exec (.nodeComplete p) s = .next u ∧ (u.part p).compl = rest ∧ u.mem = s1.mem ∧ u.lines = s1.lines ∧ (u.part p).eseq = (s.part p).eseq + 1 ∧
      (u.part p).cqidx = mkIdx (idxR (s.part p).cqidx) (idxW (s.part p).cqidx + 1) := by
  have hS : (if c.stage = 0 then s.complRelease p c else s).sansCache = s.sansCache := by split <;> simp
  rw [nodeComplete_go hc hw ha hn (by simp [hfull])]
  generalize (if c.stage = 0 then s.complRelease p c else s) = S at hS hrec
  have hpart := State.part_sansCache hS p
  have h1 : s1.sansCache = s.sansCache := ((sansCache_keeps _).writeVia _ _ _ _ _ _ _ _ rfl hrec).trans hS
  have hp1 : p < s1.parts.length := by rwa [State.parts_sansCache h1]
  have hdone := State.part_recordDone hp1
  rw [State.part_sansCache h1] at hdone
  obtain ⟨hmem, hlines⟩ := State.memory_recordDone s1 p
  have hpd : p < (s1.recordDone p).parts.length := by rwa [State.length_recordDone]
  rw [complRest_write hst (by rwa [hpart]) hs0 (complRecord_ok (s1 := s1) (by rwa [hpart]) (by rw [State.seqOf, hpart]; exact hrec))]
  refine ⟨_, rfl, State.compl_dropCompl hpd (by rw [hdone]; exact hc), hmem, hlines, ?_, ?_⟩
  · rw [State.dropCompl, State.part_updPart_self hpd, hdone]
  · rw [State.dropCompl, State.part_updPart_self hpd, hdone]

end

end Sys2Proof.Machine

/-- Settles O57: RECORD_TAKE and NODE_COMPLETE case by case; the reads and writes on their way change memory and caches only, and page faults
bookkeeping only. -/
theorem recordsAndCompletions : Obligations.RecordsAndCompletions := by
  unfold Obligations.RecordsAndCompletions
  refine ⟨fun s p q x hp4 hlen hx => ⟨recordTake_refused hx, fun y hw ha hy => recordTake_again hx hw ha hy, fun hw ha hm => ?_⟩,
    recStatus_unreadable, recStatus_firsts, fun s p c rest hp4 hlen hc => ⟨nodeComplete_refused hc, fun hw ha hn => ?_⟩⟩
  · have hp : p < s.parts.length := by omega
    have htook := Queue.took_of_mayTake hm
    have hrun := recordTake_next hx hw ha hm
    intro asid ix va idx S refused
    refine ⟨fun e he => ?_, fun raw hraw => ?_⟩
    · rw [he] at hrun
      have hlen := recordRead_length s p q x
      have hr := refuse_queue (by omega) (recordRead_queue hp hx) (idxR x.idx) 0x07
      exact ⟨_, hrun, hr, (refuse_grids ..).trans (recordRead_grids s p q x)⟩
    · rw [hraw] at hrun
      intro r st T entry hasEntry
      have hT : T.sansCache = (s.recordRead p q x).sansCache := State.sansCache_recTouch S p asid r
      have hgr : T.grids = s.grids := (State.grids_sansCache hT).trans (recordRead_grids s p q x)
      have hid : T.nextId = s.nextId := (State.nextId_sansCache hT).trans (recordRead_nextId s p q x)
      have hTp : p < T.parts.length := by rw [State.parts_sansCache hT, recordRead_length]; exact hp
      have hTx : (T.part p).queues[q]? = some { x with idx := idx } := by rw [State.part_sansCache hT]; exact recordRead_queue hp hx
      have hN : T.nodeN p = S.nodeN p := by rw [State.nodeN, State.part_sansCache hT]; rfl
      have hE : hasEntry ↔ r.hasNode = true ∧ r.node.toNat < T.nodeN p := by rw [hN]
      refine ⟨fun hst he => ?_, fun hst hn => ?_, fun ps he hf => ?_, fun he hf hst => ?_, fun b he hb hst hm hk => ?_⟩
      · rw [hE] at he
        obtain ⟨hu, hug⟩ := takeOn_refused (y := (s.recordRead p q x).recordTook p q x raw) hTp hTx htook he hst
        exact ⟨_, hrun, hu, hug.trans hgr⟩
      · obtain ⟨hug, hu⟩ := takeOn_starts (y := (s.recordRead p q x).recordTook p q x raw) hTp hTx htook hn hst
        rw [hid] at hug hu
        rw [hgr] at hug
        exact ⟨_, _, hrun, hug, rfl, rfl, rfl, rfl, rfl, rfl, hu⟩
      · rw [hE] at he
        obtain ⟨hu, hug⟩ := takeOn_waits (y := (s.recordRead p q x).recordTook p q x raw) hTp hTx he hf
        exact ⟨_, hrun, hug.trans hgr, hu⟩
      · rw [hE] at he
        obtain ⟨hu, hug⟩ := takeOn_entryRefused (y := (s.recordRead p q x).recordTook p q x raw) hTp hTx htook he hf rfl hst
        exact ⟨_, hrun, hu, hug.trans hgr⟩
      · rw [hE] at he
        exact ⟨_, hrun, takeOn_ready (y := (s.recordRead p q x).recordTook p q x raw) hTp hTx htook he hb (hb ▸ hst) hm hk⟩
  · have hp : p < s.parts.length := by omega
    exact ⟨nodeComplete_full hp hc hw ha hn, nodeComplete_ringOff hp hc hw ha hn, fun s1 => nodeComplete_record hp hc hw ha hn⟩

end

section
/-! PROOFS. Boot, firmware, halted cores, interrupt vectors and energy (O59). -/
open Sys2Proof Sys2Proof.Machine

namespace Sys2Proof.Machine
open Host (Outcome)

/-! ### Boot -/

theorem boot_refused (s : State) (r : List Bool) (h : s.booted = true ∨ s.dstat.getLsbD 1 = true ∨ s.teams ≠ []) :
    exec (.boot r) s = .refused (.notEnabled "BOOT") := by
  have hrun : exec (.boot r) s = execBoot r s := rfl
  rw [hrun, execBoot]
  exact if_pos (by simpa [or_assoc] using h)

/-- A start of a device that is not booted, has not stopped for good and holds no teams. -/
theorem boot_next {s : State} (r : List Bool) (hb : s.booted = false) (hd : s.dstat.getLsbD 1 = false) (ht : s.teams = []) :
    exec (.boot r) s = .next (s.bootFrom r 6 0) := by
  have hrun : exec (.boot r) s = execBoot r s := rfl
  rw [hrun, execBoot]
  rw [hb, hd]
  exact if_neg (by simp [ht])

/-- Does every quarter's image load at this start? -/
def quartersLoad (r : List Bool) : Prop := ∀ q, q < 4 → r.getD (6 + q) true = true
theorem quartersLoad_mask {r : List Bool} (h : quartersLoad r) :
    BitVec.ofNat 4 ((List.range 4).foldr (fun q m => (if r.getD (6 + q) true then 0 else 1) + 2 * m) 0) = 0#4 := by
  have e : (List.range 4).foldr (fun q m => (if r.getD (6 + q) true then 0 else 1) + 2 * m) 0 = 0 := by
    simp only [List.range, List.range.loop, List.foldr_cons, List.foldr_nil, h 0 (by omega), h 1 (by omega), h 2 (by omega), h 3 (by omega), if_true]
  rw [e]

/-- The device after step `j` of a start has succeeded where no start has failed before (R435). -/
def State.stepDone (s : State) (r : List Bool) (j : Nat) : State :=
  if j = 5 then { s.setBoot j 2 with portUp := [r.getD 10 true, r.getD 11 true] } else if j = 2 then { s.setBoot j 2 with quartersOff := 0 } else s.setBoot j 2

section
variable {s : State} {r : List Bool} {j : Nat} (h0 : s.bootrec.getD j 0 = 0) (hq : quartersLoad r) (n : Nat)
include h0 hq

theorem bootFrom_ok (hok : r.getD j true = true) : s.bootFrom r (n + 1) j = (s.stepDone r j).bootFrom r n (j + 1) := by
  rw [State.bootFrom, quartersLoad_mask hq, h0]
  dsimp only
  rw [if_neg (by decide), hok]
  exact if_pos (by simp)

theorem bootFrom_fails (hok : r.getD j true = false) : (s.bootFrom r (n + 1) j).bootrec = s.bootrec.set j 1 := by
  rw [State.bootFrom, quartersLoad_mask hq, h0]
  dsimp only
  rw [if_neg (by decide), hok, if_neg (by simp)]
  split
  · rfl
  · rfl

end

/-- The device after the first `j` steps of such a start have succeeded, and its boot record then (Table 18.3). -/
def State.bootTo (s : State) (r : List Bool) : Nat → State
  | 0 => s
  | j + 1 => (s.bootTo r j).stepDone r j
def bootedTo (j : Nat) : List Nat := List.replicate j 2 ++ List.replicate (6 - j) 0

theorem State.stepDone_keeps (s : State) (r : List Bool) (j : Nat) : (s.stepDone r j).bootrec = s.bootrec.set j 2 ∧
    (s.stepDone r j).parts = s.parts ∧ (s.stepDone r j).mem = s.mem := by
  unfold stepDone
  split
  · exact ⟨rfl, rfl, rfl⟩
  · split
    · exact ⟨rfl, rfl, rfl⟩
    · exact ⟨rfl, rfl, rfl⟩
theorem State.bootTo_keeps (s : State) (r : List Bool) (j : Nat) : (s.bootTo r j).parts = s.parts ∧ (s.bootTo r j).mem = s.mem := by
  induction j with
  | zero => exact ⟨rfl, rfl⟩
  | succ j ih =>
    obtain ⟨-, hp, hm⟩ := (s.bootTo r j).stepDone_keeps r j
    exact ⟨hp.trans ih.1, hm.trans ih.2⟩
theorem bootedTo_step : ∀ j < 6, (bootedTo j).getD j 0 = 0 ∧ (bootedTo j).set j 2 = bootedTo (j + 1) := by decide

/-- A start from a cleared boot record reaches step `j` when the steps before it succeed. -/
theorem boot_reaches {s : State} {r : List Bool} (h0 : s.bootrec = [0, 0, 0, 0, 0, 0]) (hq : quartersLoad r) (j : Nat) (hj : j ≤ 6)
    (hok : ∀ i < j, r.getD i true = true) : (s.bootTo r j).bootrec = bootedTo j ∧ s.bootFrom r 6 0 = (s.bootTo r j).bootFrom r (6 - j) j := by
  induction j with
  | zero => exact ⟨h0, rfl⟩
  | succ j ih =>
    obtain ⟨hrec, hrun⟩ := ih (by omega) (fun i hi => hok i (by omega))
    obtain ⟨hz, hset⟩ := bootedTo_step j (by omega)
    have hleft : 6 - j = 6 - (j + 1) + 1 := by omega
    refine ⟨?_, ?_⟩
    · rw [State.bootTo, (State.stepDone_keeps ..).1, hrec, hset]
    · rw [hrun, hleft, bootFrom_ok (by rw [hrec, hz]) hq _ (hok j (by omega))]
      rfl

section
variable {s : State} (h0 : s.bootrec = [0, 0, 0, 0, 0, 0]) (hd : s.dstat.getLsbD 1 = false) (ht : s.teams = [])
include h0 hd ht

theorem boot_succeeds (hlen : s.parts.length = 4) : ∃ u, exec (.boot []) s = .next u ∧ u.bootrec = [2, 2, 2, 2, 2, 2] ∧ u.portUp = [true, true] ∧
    (u.part 0).pmlim = 0xFE0000000 ∧ u.mem = s.mem := by
  obtain ⟨hrec, hrun⟩ := boot_reaches h0 (r := []) (fun _ _ => rfl) 6 (by omega) (fun _ _ => rfl)
  obtain ⟨hparts, hmem⟩ := s.bootTo_keeps [] 6
  rw [boot_next [] (by rw [State.booted, h0]; rfl) hd ht, hrun]
  refine ⟨_, rfl, hrec, rfl, ?_, hmem⟩
  exact congrArg Part.pmlim (State.part_updPart_self (by rw [hparts]; omega) _)

/-- A start that fails at step `j` records that step. -/
theorem boot_stops {j : Nat} (hj : j < 6) : ∃ u, exec (.boot ((List.range 6).map (· != j))) s = .next u ∧ u.bootrec[j]? = some 1 ∧ u.booted = false := by
  have hstep (i : Nat) (hi : i < 6) : ((List.range 6).map (· != j)).getD i true = (i != j) := by
    simp [List.getD_eq_getElem?_getD, hi]
  have hq : quartersLoad ((List.range 6).map (· != j)) := fun q _ => by
    simp [List.getD_eq_getElem?_getD]
  obtain ⟨hrec, hrun⟩ := boot_reaches h0 hq j (by omega) (fun i hi => by rw [hstep i (by omega)]; simp; omega)
  have hleft : 6 - j = 5 - j + 1 := by omega
  have hfail := bootFrom_fails (n := 5 - j) (by rw [hrec, (bootedTo_step j hj).1]) hq (by rw [hstep j hj]; simp)
  have hmem : (s.bootFrom ((List.range 6).map (· != j)) 6 0).bootrec[j]? = some 1 := by
    rw [hrun, hleft, hfail, hrec]
    exact List.getElem?_set_self (by simp [bootedTo]; omega)
  rw [boot_next _ (by rw [State.booted, h0]; rfl) hd ht]
  refine ⟨_, rfl, hmem, ?_⟩
  rw [State.booted, List.all_eq_false]
  exact ⟨1, List.mem_of_getElem? hmem, by decide⟩

end

/-- A root step that fails a second time stops the device for good (R435). -/
theorem boot_stops_root {s : State} (h1 : s.bootrec = [1, 0, 0, 0, 0, 0]) (hd : s.dstat.getLsbD 1 = false) (ht : s.teams = []) :
    ∃ u, exec (.boot [false]) s = .next u ∧ u.bootrec[0]? = some 5 ∧ u.dstat.getLsbD 1 = true := by
  have hrun : s.bootFrom [false] 6 0 = { s.setBoot 0 5 with dstat := s.dstat ||| 2 } := by
    rw [State.bootFrom, h1]; rfl
  rw [boot_next _ (by rw [State.booted, h1]; rfl) hd ht, hrun]
  refine ⟨_, rfl, by rw [State.setBoot, h1]; rfl, ?_⟩
  have hbit : (2#64 : DWord).getLsbD 1 = true := by decide
  exact (BitVec.getLsbD_or ..).trans (by rw [hd]; exact hbit)

/-! ### Firmware -/

theorem firmwareUpdate_refused (s : State) (img : FwImage) (h : s.booted = false ∨ s.rootHalt = true) :
    exec (.firmwareUpdate img) s = .refused (.notEnabled "FIRMWARE_UPDATE") := by
  have hrun : exec (.firmwareUpdate img) s = execFirmwareUpdate img s := rfl
  rw [hrun, execFirmwareUpdate]
  exact if_pos (by simpa using h)

/-- An update applies only an image whose signatures hold and whose version is not too old (R436). -/
theorem firmwareUpdate_next {s : State} (img : FwImage) (hb : s.booted = true) (hr : s.rootHalt = false) : exec (.firmwareUpdate img) s =
    .next (if img.rsaOk = true ∧ img.slhOk = true ∧ Config.fusedVersion ≤ img.secVer then s.switchDies img [0, 1, 2, 3, 4] else s) := by
  have hrun : exec (.firmwareUpdate img) s = execFirmwareUpdate img s := rfl
  rw [hrun, execFirmwareUpdate, hb, hr]
  refine (if_neg (by simp)).trans ?_
  simp only [Bool.and_eq_true, decide_eq_true_eq, and_assoc]
  split
  · rfl
  · rfl

/-- A record of a quarter changes bookkeeping only. -/
theorem State.sansWork_quarterRecord (s : State) (q : Nat) : (s.quarterRecord q).sansWork = s.sansWork :=
  sansWork_foldl _ (fun _ _ => sansWork_postError ..) _ _

/-- The range of mailbox versions of an image, and two ranges that meet (R437). -/
def fwRange (img : FwImage) : BitVec 16 × BitVec 16 := (img.protoLo, img.protoHi)
theorem protoMeet_isSome (a b : BitVec 16 × BitVec 16) :
    (protoMeet a b).isSome = true ↔ max a.1.toNat b.1.toNat ≤ min a.2.toNat b.2.toNat := by
  unfold protoMeet
  dsimp only
  split
  · next h => simpa using h
  · next h => simpa using h

/-- A die switches to the image (R437), and its quarter reports it. -/
def State.switchDie (s : State) (img : FwImage) (d : Nat) : State :=
  { s with fwPrev := s.fwPrev.set d (s.fwVer.getD d 0), fwVer := s.fwVer.set d img.secVer, fwProto := s.fwProto.set d (fwRange img) }
def State.dieDone (s : State) (img : FwImage) (d : Nat) : State := if d < 4 then (s.switchDie img d).quarterRecord d else s.switchDie img d
theorem switchDies_cons {s : State} {img : FwImage} {d : Nat} (r : List Nat)
    (h : ((List.range 5).filter (· ≠ d)).all (fun o => (protoMeet (fwRange img) (s.fwProto.getD o (0, 0))).isSome) = true) :
    s.switchDies img (d :: r) = (s.dieDone img d).switchDies img r := by
  rw [State.switchDies]
  exact if_pos h
theorem State.dieDone_fw (s : State) (img : FwImage) (d : Nat) :
    (s.dieDone img d).fwVer = s.fwVer.set d img.secVer ∧ (s.dieDone img d).fwProto = s.fwProto.set d (fwRange img) := by
  have hw : (s.dieDone img d).sansWork = (s.switchDie img d).sansWork := by
    unfold dieDone
    split
    · exact sansWork_quarterRecord ..
    · rfl
  have hver := congrArg State.fwVer hw
  have hproto := congrArg State.fwProto hw
  exact ⟨hver, hproto⟩

/-- Dies that all share a version with the image switch, one after another. -/
theorem switchDies_fw (img : FwImage) (hself : (protoMeet (fwRange img) (fwRange img)).isSome = true) (l : List Nat) (s : State)
    (hlen : s.fwProto.length = 5) (hmeet : ∀ x ∈ s.fwProto, (protoMeet (fwRange img) x).isSome = true) :
    (s.switchDies img l).fwVer = l.foldl (fun v d => v.set d img.secVer) s.fwVer ∧
    (s.switchDies img l).fwProto = l.foldl (fun v d => v.set d (fwRange img)) s.fwProto := by
  induction l generalizing s with
  | nil => exact ⟨rfl, rfl⟩
  | cons d r ih =>
    obtain ⟨hver, hproto⟩ := s.dieDone_fw img d
    rw [switchDies_cons r, List.foldl_cons, List.foldl_cons, ← hver, ← hproto]
    · refine ih _ (by rw [hproto, List.length_set, hlen]) fun x hx => ?_
      rw [hproto] at hx
      obtain hx | rfl := List.mem_or_eq_of_mem_set hx
      · exact hmeet x hx
      · exact hself
    · rw [List.all_eq_true]
      intro o ho
      have ho5 : o < s.fwProto.length := by
        have h := List.mem_range.mp (List.mem_filter.mp ho).1
        omega
      rw [List.getD_eq_getElem _ _ ho5]
      exact hmeet _ (List.getElem_mem _)

/-- All five entries of a table set. -/
theorem set_all {α : Type} {l : List α} (h : l.length = 5) (x : α) : [0, 1, 2, 3, 4].foldl (fun v d => v.set d x) l = List.replicate 5 x := by
  match l, h with
  | [_, _, _, _, _], _ => rfl

/-- A valid image whose range of mailbox versions meets that of every die runs on all of them afterwards (R437). -/
theorem firmwareUpdate_applies {s : State} {img : FwImage} (hb : s.booted = true) (hr : s.rootHalt = false) (hrsa : img.rsaOk = true)
    (hslh : img.slhOk = true) (hv : Config.fusedVersion ≤ img.secVer) (hver : s.fwVer.length = 5) (hproto : s.fwProto.length = 5)
    (hself : img.protoLo.toNat ≤ img.protoHi.toNat)
    (hmeet : ∀ x ∈ s.fwProto, max img.protoLo.toNat x.1.toNat ≤ min img.protoHi.toNat x.2.toNat) :
    ∃ u, exec (.firmwareUpdate img) s = .next u ∧ u.fwVer = List.replicate 5 img.secVer ∧ ∀ d o, d < 5 → o < 5 → u.mailVersion d o = some img.protoHi := by
  have hfw := switchDies_fw img ((protoMeet_isSome _ _).mpr (by simpa [fwRange] using hself)) [0, 1, 2, 3, 4] s hproto
    (fun x hx => (protoMeet_isSome _ _).mpr (hmeet x hx))
  rw [set_all hver, set_all hproto] at hfw
  obtain ⟨hv', hp'⟩ := hfw
  rw [firmwareUpdate_next img hb hr, if_pos ⟨hrsa, hslh, hv⟩]
  refine ⟨_, rfl, hv', fun d o hd ho => ?_⟩
  have hget (d : Nat) (hd : d < 5) : (List.replicate 5 (fwRange img)).getD d (0, 0) = (fwRange img) := by
    rw [List.getD_eq_getElem?_getD, List.getElem?_replicate, if_pos hd]; rfl
  rw [State.mailVersion, hp', hget d hd, hget o ho, protoMeet]
  simp [fwRange, hself]

/-! ### Halted cores and interrupt vectors -/

/-- A bit of a mask after one bit of it is set, or cleared. -/
theorem getLsbD_oneBit {w : Nat} (v : Nat) {j : Nat} (hj : j < w) : (1#w <<< v).getLsbD j = decide (j = v) := by
  rw [BitVec.getLsbD_shiftLeft, BitVec.getLsbD_one]
  by_cases h : j = v
  · subst h; simp; omega
  · by_cases hlt : j < v
    · simp [h, hlt]
    · simp [h]; omega
theorem getLsbD_setBit {w : Nat} (x : BitVec w) (v : Nat) {j : Nat} (hj : j < w) :
    (x ||| 1#w <<< v).getLsbD j = if j = v then true else x.getLsbD j := by
  rw [BitVec.getLsbD_or, getLsbD_oneBit v hj]
  by_cases h : j = v <;> simp [h]
theorem getLsbD_clearBit {w : Nat} (x : BitVec w) (v : Nat) {j : Nat} (hj : j < w) :
    (x &&& ~~~(1#w <<< v)).getLsbD j = if j = v then false else x.getLsbD j := by
  rw [BitVec.getLsbD_and, BitVec.getLsbD_not, getLsbD_oneBit v hj]
  by_cases h : j = v <;> simp [h, hj]

theorem schedulerCore_events (s : State) (q : Nat) (hq : q < 4) :
    (s.schedHalt.getLsbD q = false → exec (.schedulerCoreError q) s = .next { s with schedHalt := s.schedHalt ||| (1#4 <<< q) }) ∧
    (s.schedHalt.getLsbD q = true → exec (.schedulerCoreError q) s = .refused (.notEnabled "SCHEDULER_CORE_ERROR")) ∧
    (s.schedHalt.getLsbD q = true → s.rootHalt = false → ∃ u, exec (.schedulerCoreReloaded q) s = .next u ∧
      ∀ j, j < 4 → u.schedHalt.getLsbD j = (s.schedHalt.getLsbD j && decide (j ≠ q))) ∧
    (s.schedHalt.getLsbD q = false ∨ s.rootHalt = true → exec (.schedulerCoreReloaded q) s = .refused (.notEnabled "SCHEDULER_CORE_RELOADED")) := by
  have herr : exec (.schedulerCoreError q) s = execSchedulerCoreError q s := rfl
  have hload : exec (.schedulerCoreReloaded q) s = execSchedulerCoreReloaded q s := rfl
  rw [herr, hload, execSchedulerCoreError, execSchedulerCoreReloaded]
  refine ⟨fun h => if_pos (by rw [h]; simpa using hq), fun h => if_neg (by rw [h]; simp), fun h hr => ?_, fun h => if_neg ?_⟩
  · rw [if_pos (by rw [h, hr]; simpa using hq)]
    refine ⟨_, rfl, fun j hj => ?_⟩
    have hk := congrArg State.schedHalt (State.sansWork_quarterRecord { s with schedHalt := s.schedHalt &&& ~~~(1#4 <<< q) } q)
    refine (congrArg (·.getLsbD j) hk).trans ((getLsbD_clearBit s.schedHalt q hj).trans ?_)
    by_cases hjq : j = q <;> simp [hjq]
  · obtain h | h := h
    · rw [h]; simp
    · rw [h]; simp

/-- A vector's message is sent, or pends while the vector is masked (R439). -/
theorem sendMsix_delivers (s : State) {v : Nat} (hv : v < 64) :
    (s.msixPend.getLsbD v = false → s.msixMask.getLsbD v = false → (s.sendMsix v).msgs = v :: s.msgs) ∧
    (s.msixMask.getLsbD v = true → (s.sendMsix v).msgs = s.msgs ∧ (s.sendMsix v).msixPend.getLsbD v = true ∨ s.msixPend.getLsbD v = true) := by
  unfold State.sendMsix
  refine ⟨fun hp hm => by rw [hp, hm]; rfl, fun hm => ?_⟩
  cases hp : s.msixPend.getLsbD v with
  | true => exact .inr rfl
  | false =>
    rw [hm]
    exact .inl ⟨rfl, (getLsbD_setBit s.msixPend v hv).trans (if_pos rfl)⟩

theorem rootCoreError_next (s : State) : (s.rootHalt = true → exec .rootCoreError s = .refused (.notEnabled "ROOT_CORE_ERROR")) ∧
    (s.rootHalt = false → ∃ u, exec .rootCoreError s = .next u ∧ u.rootHalt = true ∧ u.dstat = s.dstat ||| 1 ∧ (∀ p, u.working p = false) ∧
      (s.msixPend.getLsbD 0 = false → s.msixMask.getLsbD 0 = false → u.msgs = 0 :: s.msgs) ∧
      (s.msixMask.getLsbD 0 = true → u.msgs = s.msgs ∧ u.msixPend.getLsbD 0 = true ∨ s.msixPend.getLsbD 0 = true)) := by
  have hrun : exec .rootCoreError s = execRootCoreError s := rfl
  rw [hrun, execRootCoreError]
  refine ⟨fun h => if_pos h, fun h => ?_⟩
  rw [if_neg (by simp [h])]
  have hk := State.sansWork_sendMsix { s with rootHalt := true, dstat := s.dstat ||| 1 } 0
  have hroot := congrArg State.rootHalt hk
  have hdstat := congrArg State.dstat hk
  obtain ⟨hsend, hmask⟩ := sendMsix_delivers { s with rootHalt := true, dstat := s.dstat ||| 1 } (v := 0) (by omega)
  refine ⟨_, rfl, hroot, hdstat, fun p => ?_, hsend, hmask⟩
  have hr : ({ s with rootHalt := true, dstat := s.dstat ||| 1 }.sendMsix 0).rootHalt = true := hroot
  rw [State.working, State.coresUp, hr]
  simp

/-- A write of a vector's entry: its mask bit, and a message that pends is sent once it is unmasked (R439). -/
theorem msixTableWrite_next (s : State) (v : Nat) (mask clr : Bool) (hv : v < 64) : ∃ u, exec (.msixTableWrite v mask clr) s = .next u ∧
    (∀ j, j < 64 → u.msixMask.getLsbD j = if j = v then mask else s.msixMask.getLsbD j) ∧
    (mask = false → clr = false → s.msixPend.getLsbD v = true → u.msgs = v :: s.msgs ∧ u.msixPend.getLsbD v = false) ∧
    (mask = true ∨ clr = true ∨ s.msixPend.getLsbD v = false → u.msgs = s.msgs) := by
  have hrun : exec (.msixTableWrite v mask clr) s = execMsixTableWrite v mask clr s := rfl
  rw [hrun, execMsixTableWrite, if_neg (by omega)]
  have hbits (j : Nat) (hj : j < 64) : (if mask then s.msixMask ||| 1#64 <<< v else s.msixMask &&& ~~~(1#64 <<< v)).getLsbD j =
      if j = v then mask else s.msixMask.getLsbD j := by
    cases mask with
    | true => exact getLsbD_setBit _ v hj
    | false => exact getLsbD_clearBit _ v hj
  have hpend : (if clr then s.msixPend &&& ~~~(1#64 <<< v) else s.msixPend).getLsbD v = (!clr && s.msixPend.getLsbD v) := by
    cases clr with
    | true => exact (getLsbD_clearBit _ v hv).trans (if_pos rfl)
    | false => rfl
  dsimp only
  rw [hpend]
  by_cases hsend : (!mask && (!clr && s.msixPend.getLsbD v)) = true
  · rw [if_pos hsend]
    simp only [Bool.and_eq_true, Bool.not_eq_true'] at hsend
    obtain ⟨hm, hc, hp⟩ := hsend
    refine ⟨_, rfl, hbits, fun _ _ _ => ⟨rfl, (getLsbD_clearBit _ v hv).trans (if_pos rfl)⟩, ?_⟩
    simp [hm, hc, hp]
  · rw [if_neg hsend]
    refine ⟨_, rfl, hbits, fun hm hc hp => absurd ?_ hsend, fun _ => rfl⟩
    rw [hm, hc, hp]; rfl

/-! ### Energy -/

/-- The fields of `ENERGY` after its balance is set (Table 9.7): a balance in range is kept (R97), and the others stay. -/
theorem Part.bal_setBal (q : Part) {x : Int} (hlo : -(2 ^ 31) ≤ x) (hhi : x ≤ 2 ^ 31 - 1) : (q.setBal x).bal = x := by
  have hclamp : clampI (-(2 ^ 31)) (2 ^ 31 - 1) x = x := by
    rw [clampI, if_neg (by omega), if_neg (by omega)]
  have hlow : (q.setBal x).energy.extractLsb' 0 32 = BitVec.ofInt 32 x := by
    rw [setBal, hclamp]
    exact BitVec.extractLsb'_append_eq_right
  rw [bal, hlow, BitVec.toInt_ofInt]
  exact Int.bmod_eq_of_le (by omega) (by omega)
theorem Part.high_setBal (q : Part) (x : Int) {lo n : Nat} (hlo : 32 ≤ lo) (hn : lo + n ≤ 64) :
    bits (q.setBal x).energy.toNat lo n = bits q.energy.toNat lo n := by
  have e : (q.setBal x).energy.extractLsb' lo n = q.energy.extractLsb' lo n := by
    refine BitVec.eq_of_getLsbD_eq fun i hi => ?_
    simp only [setBal, BitVec.getLsbD_extractLsb', BitVec.getLsbD_append, hi]
    have h1 : ¬lo + i < 32 := by omega
    have h2 : lo + i - 32 < 32 := by omega
    have h3 : 32 + (lo + i - 32) = lo + i := by omega
    simp [h1, h2, h3]
  rw [bits_toNat, e, ← bits_toNat]
theorem Part.bal_range (q : Part) : -(2 ^ 31) ≤ q.bal ∧ q.bal ≤ 2 ^ 31 - 1 := by
  have hlo := BitVec.le_toInt (q.energy.extractLsb' 0 32)
  have hhi := BitVec.toInt_lt (x := q.energy.extractLsb' 0 32)
  rw [bal]
  omega
theorem Part.share_lt (q : Part) : q.share < 4096 := bits_lt _ _ _

/-- What 100 microseconds give an account: its share, scaled when the shares exceed the budget, up to ten refills' worth (R95, R429). -/
def Part.refill (sum : Nat) (q : Part) : Part :=
  let add : Int := if sum > 540 then ((q.share * 100 * 540 / sum : Nat) : Int) else ((q.share * 100 : Nat) : Int)
  q.setBal (min (q.bal + add) (max q.bal ((q.share * 1000 : Nat) : Int)))
theorem Part.refill_within {sum : Nat} (q : Part) (h : sum ≤ 540) :
    (q.refill sum).bal = min (q.bal + q.share * 100) (max q.bal (q.share * 1000)) ∧ (q.refill sum).share = q.share ∧ (q.refill sum).rsv = q.rsv := by
  have hshare := q.share_lt
  obtain ⟨hlo, hhi⟩ := q.bal_range
  refine ⟨?_, q.high_setBal _ (by omega) (by omega), q.high_setBal _ (by omega) (by omega)⟩
  rw [refill, if_neg (by omega)]
  rw [bal_setBal _ (by omega) (by omega)]
  push_cast
  rfl

/-- The sum of the shares of the active partitions. -/
def State.shares (s : State) : Nat := (((List.range 4).filter s.active).map (fun p => (s.part p).share)).foldl (· + ·) 0

theorem energyRefill_next (s : State) : (s.cycle < s.refillAt + 120000 → exec .energyRefill s = .refused (.notEnabled "ENERGY_REFILL")) ∧
    (s.refillAt + 120000 ≤ s.cycle → ∃ u, exec .energyRefill s = .next u ∧ u.refillAt = s.refillAt + 120000 ∧ u.mem = s.mem ∧ u.teams = s.teams ∧
      (s.shares ≤ 540 → ∀ p, p < s.parts.length →
        (u.part p).bal = min ((s.part p).bal + (s.part p).share * 100) (max (s.part p).bal ((s.part p).share * 1000)) ∧
        (u.part p).share = (s.part p).share ∧ (u.part p).rsv = (s.part p).rsv)) := by
  have hrun : exec .energyRefill s = if s.cycle < s.refillAt + 120000 then .refused (.notEnabled "ENERGY_REFILL")
    else .next { s with refillAt := s.refillAt + 120000, parts := s.parts.map (Part.refill s.shares) } := rfl
  rw [hrun]
  refine ⟨fun h => if_pos h, fun h => ?_⟩
  rw [if_neg (by omega)]
  refine ⟨_, rfl, rfl, rfl, rfl, fun hsum p hp => ?_⟩
  have hpart : ({ s with refillAt := s.refillAt + 120000, parts := s.parts.map (Part.refill s.shares) } : State).part p = (s.part p).refill s.shares := by
    rw [State.part, State.part, List.getD_eq_getElem _ _ (by simpa using hp), List.getD_eq_getElem _ _ hp, List.getElem_map]
  rw [hpart]
  exact (s.part p).refill_within hsum

end Sys2Proof.Machine

/-- Settles O59: a start of the device reaches each step that the ones before it let it reach; an update switches die after die while all share a
mailbox version; masks change one bit; a refill stays within the account's range. -/
theorem deviceEvents : Obligations.DeviceEvents := by
  unfold Obligations.DeviceEvents
  refine ⟨boot_refused, fun s h0 hd ht hlen => ⟨boot_succeeds h0 hd ht hlen, fun j hj => boot_stops h0 hd ht hj⟩, fun s h1 hd ht => boot_stops_root h1 hd ht,
    fun s img => ⟨firmwareUpdate_refused s img, fun hb hr => ⟨fun hbad => ?_, fun hrsa hslh hv hver hproto hself hmeet =>
      firmwareUpdate_applies hb hr hrsa hslh hv hver hproto hself hmeet⟩⟩,
    fun s d o => rfl, schedulerCore_events, rootCoreError_next, msixTableWrite_next, energyRefill_next⟩
  rw [firmwareUpdate_next img hb hr, if_neg]
  rintro ⟨hrsa, hslh, hv⟩
  obtain h | h | h := hbad
  · exact absurd h (by simp [hrsa])
  · exact absurd h (by simp [hslh])
  · exact absurd hv (by simpa using h)

end

section
/-! PROOFS. RINV, QCTL, LAUNCH and ENRD at issue (O54). -/
open Sys2Proof Sys2Proof.Machine

namespace Sys2Proof.Machine
open Host (Outcome)

/-! ### What the scheduler sees of a device -/

/-- What the scheduler sees of a team: its number, its gang, its partition, whether it has retired, and its meter. -/
def Team.face (t : Team) : Nat × Nat × Nat × Bool × Nat := (t.tag, t.gid, t.part, t.retired, t.meter)
/-- The scheduler sees the same in two devices. -/
structure State.Alike (s t : State) : Prop where
  faces : t.teams.map Team.face = s.teams.map Team.face
  gangs : t.gangs = s.gangs
  grids : t.grids = s.grids
  parts : t.parts = s.parts
  rootHalt : t.rootHalt = s.rootHalt

namespace State.Alike
variable {s t u : State}

theorem trans (h : s.Alike t) (k : t.Alike u) : s.Alike u :=
  ⟨k.faces.trans h.faces, k.gangs.trans h.gangs, k.grids.trans h.grids, k.parts.trans h.parts, k.rootHalt.trans h.rootHalt⟩
theorem of_sansCache (h : t.sansCache = s.sansCache) : s.Alike t :=
  ⟨by rw [teams_sansCache h], by have e := congrArg State.gangs h; exact e, grids_sansCache h, parts_sansCache h,
    by have e := congrArg State.rootHalt h; exact e⟩
theorem updTeam (s : State) (tag : Nat) {f : Team → Team} (hf : ∀ x, (f x).face = x.face) : s.Alike (s.updTeam tag f) := by
  refine ⟨?_, rfl, rfl, rfl, rfl⟩
  simp only [State.updTeam, List.map_map]
  refine List.map_congr_left fun x _ => ?_
  simp only [Function.comp_def]
  split
  · exact hf x
  · rfl
/-- The bookkeeping of an issue, and the pops before it, are not seen. -/
theorem advance {i : Instr} {c : Ctx} (hp : s.pre i = .go c t) : s.Alike (t.advance c i) := by
  obtain ⟨g, e⟩ := (pre_go s i c t hp).pops.rest
  have hpop : s.Alike t := (updTeam s c.tag (fun _ => by rfl)).trans (of_sansCache e)
  have hbook := updTeam t c.tag (f := fun x => x.updWave c.w (fun wv => { c.advance i wv with age := t.ages c.tm c.wv c.b.mask })) (fun _ => by rfl)
  exact hpop.trans ⟨hbook.faces, rfl, rfl, rfl, rfl⟩

variable (h : s.Alike t)
include h

theorem team? (k : Nat) : (t.team? k).map Team.face = (s.team? k).map Team.face := by
  have e (u : State) : (u.team? k).map Team.face = (u.teams.map Team.face).find? (·.1 == k) := by
    rw [State.team?, List.find?_map]; rfl
  rw [e, e, h.faces]
theorem gridOf (k : Nat) : t.gridOf k = s.gridOf k := by
  have e (u : State) : u.gridOf k = (((u.team? k).map Team.face).bind (fun x => u.gang? x.2.1)).bind (fun g => u.grid? g.grid) := by
    simp only [State.gridOf, State.gangOf, Option.bind_map]; rfl
  rw [e, e, h.team?]
  simp only [State.gang?, State.grid?, h.gangs, h.grids]
theorem depthOf (k : Nat) : t.depthOf k = s.depthOf k := by rw [State.depthOf, State.depthOf, h.gridOf]
theorem queueOf (x : Team) : t.queueOf x = s.queueOf x := by rw [State.queueOf, State.queueOf, h.gridOf]
/-- The same teams are on cores for the queues named. -/
theorem namedTeams (p : Nat) (mask : DWord) : (t.namedTeams p mask).map Team.face = (s.namedTeams p mask).map Team.face := by
  have e (u : State) : (u.namedTeams p mask).map Team.face = (u.teams.map Team.face).filter (fun x => x.2.2.1 == p &&
      (!x.2.2.2.1 && (u.gang? x.2.1).any (fun g => g.st == .placed || g.st == .leaving)) &&
      (u.gridOf x.1).elim 255 (·.queue) < 64 && mask.getLsbD ((u.gridOf x.1).elim 255 (·.queue))) := by
    rw [List.filter_map]; rfl
  rw [e, e, h.faces]
  simp only [h.gridOf, State.gang?, h.gangs]
theorem namedTeams_nil (p : Nat) (mask : DWord) : t.namedTeams p mask = [] ↔ s.namedTeams p mask = [] := by
  rw [← List.map_eq_nil_iff (f := Team.face), h.namedTeams, List.map_eq_nil_iff]
theorem named_gids (p : Nat) (mask : DWord) : (t.namedTeams p mask).map (·.gid) = (s.namedTeams p mask).map (·.gid) := by
  have e (u : State) : (u.namedTeams p mask).map (·.gid) = ((u.namedTeams p mask).map Team.face).map (·.2.1) := by rw [List.map_map]; rfl
  rw [e, e, h.namedTeams]
theorem named_any (p : Nat) (mask : DWord) (f : Nat → Bool) : (t.namedTeams p mask).any (fun x => f x.tag) = (s.namedTeams p mask).any (fun x => f x.tag) := by
  have e (u : State) : (u.namedTeams p mask).any (fun x => f x.tag) = ((u.namedTeams p mask).map Team.face).any (fun x => f x.1) := by
    rw [List.any_map]; rfl
  rw [e, e, h.namedTeams]
/-- Is a team of the latency class among them? -/
theorem named_lat (p : Nat) (mask : DWord) : (t.namedTeams p mask).any (fun x => (t.gridOf x.tag).any (·.lat)) = true ↔
    ∃ x ∈ s.namedTeams p mask, ∃ gr, s.gridOf x.tag = some gr ∧ gr.lat = true := by
  simp only [h.gridOf]
  rw [h.named_any p mask (fun k => (s.gridOf k).any (·.lat)), List.any_eq_true]
  simp only [Option.any_eq_true]
/-- The queues of those teams, as QCTL.qry reports them (R423). -/
theorem named_mask (p : Nat) (mask : DWord) : (t.namedTeams p mask).foldl (fun m x => m ||| (1#64 <<< t.queueOf x)) 0 =
    (s.namedTeams p mask).foldl (fun m x => m ||| (1#64 <<< s.queueOf x)) 0 := by
  have e (u : State) : (u.namedTeams p mask).foldl (fun m x => m ||| (1#64 <<< s.queueOf x)) 0 =
      ((u.namedTeams p mask).map Team.face).foldl (fun m x => m ||| (1#64 <<< (s.gridOf x.1).elim 255 (·.queue))) (0#64) := by
    rw [List.foldl_map]; rfl
  simp only [h.queueOf]
  rw [e, e, h.namedTeams]
theorem part (p : Nat) : t.part p = s.part p := by rw [State.part, State.part, h.parts]
theorem configOk (p : Nat) : t.configOk p = s.configOk p := by
  have hpart : t.part = s.part := funext h.part
  have hact : t.active = s.active := funext fun o => by rw [State.active, State.active, hpart]
  unfold State.configOk
  rw [hpart, hact]
end State.Alike

/-! ### Answers at issue -/

/-- A 32-bit result written to a wave that holds the same registers. -/
theorem Wave.Same.got32 {a b : Wave} (h : a.Same b) (m : Lanes) (d : Opd) (f : Nat → Word) :
    a.Got32 (b.puts (wr1 m d f)) m d f ∧ a.KeptPreds (b.puts (wr1 m d f)) := by
  obtain ⟨ev, es, elc, ep⟩ := Wave.puts_regs (wr1 m d f) b a h.v h.s h.lc h.p
  have g := Wave.got32_wr1 a m d f
  exact ⟨⟨fun n l hl => (Wave.vr_congr ev n l).trans (g.v n l hl), fun n => (Wave.sr_congr es n).trans (g.s n), fun n => (Wave.lcr_congr elc n).trans (g.lc n)⟩,
    fun n => (Wave.pr_congr ep n).trans (Wave.pr_congr (Wave.puts_wr1_preds a m d f) n)⟩

/-- The wave after writes that are ready at once. -/
theorem putNow_wave {u : State} {c : Ctx} {wv : Wave} (ws : List RegW) (h : u.wave? c.tag c.w = some wv) :
    (u.putNow c ws).wave? c.tag c.w = some ((wv.puts ws).mark (writtenLanes ws) c.cyc) := by
  have e : (u.putNow c ws).wave? c.tag c.w = (u.updWave c.tag c.w (fun x => (x.puts ws).mark (writtenLanes ws) c.cyc)).wave? c.tag c.w := by
    simp only [State.wave?, State.putNow, State.updWave]
    rw [State.team?_updTeam _ _ _ _ (fun _ => by rfl), State.team?_updTeam _ _ _ _ (fun _ => by rfl)]
    rw [if_pos rfl, if_pos rfl]
    cases u.team? c.tag with
    | none => rfl
    | some t => rfl
  rw [e, State.wave?_updWave _ _ _ _ _ _ (fun x => by exact Wave.puts_ix ws x), if_pos ⟨rfl, rfl⟩, h]
  rfl

/-- Marks and writes keep the numbers of what is pending, the counters and the flags. -/
theorem Wave.mark_puts_kept {a b : Wave} (h : a.Same b) (ws : List RegW) (rs : List (Reg × Lanes)) (n : Nat) :
    ((b.puts ws).mark rs n).pend.map (·.id) = a.pend.map (·.id) ∧ (∀ k, ((b.puts ws).mark rs n).evr k = a.evr k) ∧
    ((b.puts ws).mark rs n).fflags = a.fflags := by
  obtain ⟨_, _, _, _, e⟩ := Wave.puts_eq ws b
  rw [e]
  refine ⟨?_, fun k => by simp only [Wave.mark, Wave.evr, h.ev], h.fflags⟩
  simp only [Wave.mark, List.map_map, h.pend]
  rfl

section
variable {i : Instr} {s s' u : State} {c : Ctx} (hp : s.pre i = .go c s') (hu : u.wave? c.tag c.w = (s'.advance c i).wave? c.tag c.w)
include hp hu

/-- An effect that answers a status at once. -/
theorem answers_done (d : Opd) (x : Word) : ∃ wv, ((u.done c d x).settle c.tag c.w).wave? c.tag c.w = some (Wave.settle 4 wv) ∧
    c.wv.Got32 wv c.lanes d (fun _ => x) ∧ c.wv.KeptPreds wv ∧ wv.fflags = c.wv.fflags ∧ wv.pend.map (·.id) = c.wv.pend.map (·.id) ∧
    ∀ n, wv.evr n = c.wv.evr n := by
  obtain ⟨w0, h0, hsame, -⟩ := advance_same hp
  obtain ⟨hgot, hpreds⟩ := hsame.got32 c.lanes d (fun _ => x)
  obtain ⟨hpend, hev, hfl⟩ := Wave.mark_puts_kept hsame (c.dst d (fun _ => x)) (writtenLanes (c.dst d (fun _ => x))) c.cyc
  exact ⟨_, settle_wave _ _ _ _ (putNow_wave _ (hu.trans h0)), ⟨hgot.v, hgot.s, hgot.lc⟩, hpreds, hfl, hpend, hev⟩

/-- An effect that answers a 64-bit value at once. -/
theorem answers_wide (d : Opd) (x : DWord) : ∃ wv, ((u.putNow c (c.dst64 d (fun _ => x))).settle c.tag c.w).wave? c.tag c.w = some (Wave.settle 4 wv) ∧
    c.wv.Got64 wv c.lanes d (fun _ => x) ∧ c.wv.KeptPreds wv ∧ wv.fflags = c.wv.fflags := by
  obtain ⟨w0, h0, hsame, -⟩ := advance_same hp
  obtain ⟨hgot, hpreds⟩ := hsame.got64 c.lanes d (fun _ => x)
  obtain ⟨-, -, hfl⟩ := Wave.mark_puts_kept hsame (c.dst64 d (fun _ => x)) (writtenLanes (c.dst64 d (fun _ => x))) c.cyc
  exact ⟨_, settle_wave _ _ _ _ (putNow_wave _ (hu.trans h0)), ⟨hgot.v, hgot.s, hgot.lc⟩, hpreds, hfl⟩
end

/-- An effect that does nothing. -/
theorem acts_nothing {i : Instr} {s s' : State} {c : Ctx} (hp : s.pre i = .go c s') : ∃ wv,
    ((s'.advance c i).settle c.tag c.w).wave? c.tag c.w = some (Wave.settle 4 wv) ∧ c.wv.Quiet wv := by
  obtain ⟨w0, h0, hsame, -⟩ := advance_same hp
  exact ⟨w0, settle_wave _ _ _ _ h0, hsame.quiet⟩

/-! ### Gangs that begin to leave -/

/-- From `s` to `t` no team numbered `k` changed, no team changed its number or gang, and else bookkeeping only. -/
structure State.Spares (k : Nat) (s t : State) : Prop where
  team : t.team? k = s.team? k
  ids : t.teams.map (fun x => (x.tag, x.gid)) = s.teams.map (fun x => (x.tag, x.gid))
  work : t.sansWork = s.sansWork

namespace State.Spares
variable {k : Nat} {s t u : State}

theorem refl (k : Nat) (s : State) : s.Spares k s := ⟨rfl, rfl, rfl⟩
theorem trans (h : s.Spares k t) (h' : t.Spares k u) : s.Spares k u := ⟨h'.team.trans h.team, h'.ids.trans h.ids, h'.work.trans h.work⟩
theorem foldl {α : Type} (f : State → α → State) (l : List α) (hf : ∀ (s : State), ∀ a ∈ l, s.Spares k (f s a)) (s : State) : s.Spares k (l.foldl f s) := by
  induction l generalizing s with
  | nil => exact refl k s
  | cons a r ih => exact (hf s a List.mem_cons_self).trans (ih (fun s b hb => hf s b (List.mem_cons_of_mem _ hb)) _)

variable {tag : Nat} (hk : tag ≠ k)
include hk

theorem updTeam (s : State) {f : Team → Team} (hf : ∀ x, (f x).tag = x.tag ∧ (f x).gid = x.gid) : s.Spares k (s.updTeam tag f) := by
  refine ⟨?_, ?_, rfl⟩
  · rw [State.team?_updTeam s tag k f (fun x => (hf x).1), if_neg (Ne.symm hk)]
  · simp only [State.updTeam, List.map_map]
    refine List.map_congr_left fun x _ => ?_
    simp only [Function.comp_def]
    split
    · rw [(hf x).1, (hf x).2]
    · rfl
theorem updWave (s : State) (w : Nat) (f : Wave → Wave) : s.Spares k (s.updWave tag w f) := updTeam hk s (fun _ => ⟨rfl, rfl⟩)
theorem abort1 (s : State) (w : Nat) (r : Region) : s.Spares k (s.abort1 tag w r) := by
  have h := updTeam hk s (f := fun t => { t.updWave w (·.undo r) with aq := t.aq.undo w r }) (fun _ => ⟨rfl, rfl⟩)
  exact ⟨h.team, h.ids, sansWork_abort1 s tag w r⟩
theorem abort (s : State) (w : Nat) (sls : List Nat) : s.Spares k (s.abort tag w sls).1 := by
  unfold State.abort
  split
  · exact refl k s
  · have hm (f : Team → Team) (hf : ∀ t, (f t).tag = t.tag ∧ (f t).gid = t.gid) (rs : List Region) :
        s.Spares k (rs.foldl (fun s r => s.abort1 tag w r) (s.updTeam tag f)) :=
      (updTeam hk s hf).trans (foldl _ rs (fun s r _ => abort1 hk s w r) _)
    dsimp only
    generalize (_ && _ : Bool) = b
    cases b with
    | true => exact (hm _ (fun _ => ⟨by rfl, by rfl⟩) _).trans (updWave hk _ w _)
    | false => exact hm _ (fun _ => ⟨by rfl, by rfl⟩) _
theorem flushSfu (s : State) (w : Nat) : s.Spares k (s.flushSfu tag w) := by
  unfold State.flushSfu
  split
  · exact refl k s
  · refine foldl _ _ (fun s q _ => ?_) s
    have h := updTeam hk s (f := fun t => (t.updWave w (·.finishPend s.free q q.wr q.flags)).cleanRegs w q.wr) (fun _ => ⟨rfl, rfl⟩)
    exact ⟨h.team, h.ids, rfl⟩
end State.Spares

/-- The teams of a gang stop where they are (R412 stage 1). -/
def State.halt (s : State) (gid : Nat) : State :=
  (s.teamsOf gid).foldl (fun s t => t.waves.foldl (fun s wv =>
    ((s.abort t.tag wv.ix (List.range 8)).1.flushSfu t.tag wv.ix).updWave t.tag wv.ix
      (fun wv => { wv with bundle := none, waitCnt := none, waitIds := [], waitRids := [], mfAcq := none })) s) s
/-- What a gang that is placed becomes. -/
def leaves (st : GangSt) : GangSt := if st = .placed then .leaving else st
/-- Where a gang stands. -/
def State.gangSt (s : State) (gid : Nat) : Option GangSt := (s.gang? gid).map (·.st)

theorem State.halt_spares {s : State} {gid k : Nat} (h : ∀ y ∈ s.teams, y.gid = gid → y.tag ≠ k) : s.Spares k (s.halt gid) := by
  refine Spares.foldl _ _ (fun s t ht => Spares.foldl _ _ (fun s wv _ => ?_) s) s
  have hk : t.tag ≠ k := by
    obtain ⟨hmem, hgid⟩ := List.mem_filter.mp ht
    simp only [Bool.and_eq_true, beq_iff_eq] at hgid
    exact h t hmem hgid.1
  exact ((Spares.abort hk s _ _).trans (Spares.flushSfu hk _ _)).trans (Spares.updWave hk _ _ _)

/-- Where a gang stands after one has begun to leave. -/
theorem State.preempt_gangSt (s : State) (gid g : Nat) : (s.preempt gid).gangSt g = if g = gid then (s.gangSt g).map leaves else s.gangSt g := by
  have hgangs : (s.halt gid).gangs = s.gangs := by
    refine foldl_keeps (fun t : State => t.gangs = s.gangs) _ (fun t x ht => ?_) _ _ rfl
    refine foldl_keeps (fun t : State => t.gangs = s.gangs) _ (fun t wv ht => ?_) _ _ ht
    have e := congrArg State.gangs ((sansWork_flushSfu (t.abort x.tag wv.ix (List.range 8)).1 x.tag wv.ix).trans (sansWork_abort t x.tag wv.ix (List.range 8)))
    exact Eq.trans (by exact e) ht
  have hrun : s.preempt gid = (s.halt gid).updGang gid (fun g => if g.st = .placed then { g with st := .leaving } else g) := rfl
  rw [hrun, gangSt, gang?_updGang _ _ _ _ (fun g => by split <;> rfl)]
  have hg : (s.halt gid).gang? g = s.gang? g := by rw [gang?, gang?, hgangs]
  rw [hg]
  split
  · rw [gangSt, Option.map_map, Option.map_map]
    congr 1
    funext x
    simp only [Function.comp_def, leaves]
    split <;> rfl
  · rfl

/-- Teams of other gangs and queues stand after gangs have begun to leave; those gangs leave. -/
structure State.Moved (k : Nat) (gids : List Nat) (s t : State) : Prop where
  team : t.team? k = s.team? k
  queues : ∀ p, (t.part p).queues = (s.part p).queues
  gangs : ∀ g, t.gangSt g = if g ∈ gids then (s.gangSt g).map leaves else s.gangSt g

theorem leaves_leaves (st : GangSt) : leaves (leaves st) = leaves st := by cases st <;> rfl

theorem State.preempts_moved (k : Nat) (gids : List Nat) (s : State) (h : ∀ y ∈ s.teams, y.gid ∈ gids → y.tag ≠ k) :
    s.Moved k gids (gids.foldl (fun s g => s.preempt g) s) := by
  induction gids generalizing s with
  | nil => exact ⟨rfl, fun _ => rfl, fun g => (if_neg List.not_mem_nil).symm⟩
  | cons gid r ih =>
    have hh := halt_spares (s := s) (gid := gid) (k := k) (fun y hy e => h y hy (by simp [e]))
    have hids : (s.preempt gid).teams.map (fun x => (x.tag, x.gid)) = s.teams.map (fun x => (x.tag, x.gid)) := hh.ids
    have hr := ih (s.preempt gid) (fun y hy hgid => by
      have hmem : (y.tag, y.gid) ∈ s.teams.map (fun x => (x.tag, x.gid)) := hids ▸ List.mem_map_of_mem hy
      obtain ⟨z, hz, e⟩ := List.mem_map.mp hmem
      simp only [Prod.mk.injEq] at e
      rw [← e.1]
      exact h z hz (by rw [e.2]; exact List.mem_cons_of_mem _ hgid))
    refine ⟨hr.team.trans hh.team, fun p => (hr.queues p).trans (State.queues_sansWork hh.work p), fun g => ?_⟩
    rw [List.foldl_cons, hr.gangs, preempt_gangSt]
    by_cases hg : g = gid
    · subst hg
      by_cases hm : g ∈ r
      · simp [hm, Option.map_map, Function.comp_def, leaves_leaves]
      · simp [hm]
    · simp [hg]

/-! ### RINV and LAUNCH -/

/-- Issue of RINV in either form: it starts with what it reads (R422). -/
theorem rinv_starts {i : Instr} {a : Opd} {ev : Option (BitVec 3)} {y z : Ctx → List DWord} (he : ∀ s, exec i s = rinvIssue i s a ev y z) :
    Starts i (fun _ _ => True) (fun _ c q => q.hold = ev.isNone ∧ q.x = [c.sc a] ∧ q.y = y c ∧ q.z = z c) :=
  starts_of fun s _ _ hp _ => ⟨_, _, rfl, (he s).trans (issue_ok hp rfl), rfl, rfl, rfl, rfl, rfl, rfl, rfl, rfl, rfl⟩

/-- A region-ending instruction with checks of its own ends the runs of its bundle when they hold. -/
theorem ends_when {i : Instr} {P : State → Ctx → Prop} {x y z : Ctx → List DWord} {k : Ctx → State → Except Stop State}
    (he : ∀ s, exec i s = issue i s k) (hk : ∀ s c s', s.pre i = .go c s' → P s c →
      k c (s'.advance c i) = .ok ((s'.advance c i).endRuns c (c.endOp i (x c) (y c) (z c)))) : Ends i P x y z := by
  intro s c s' hp hP
  obtain ⟨-, -, hiss⟩ := (pre_go s i c s' hp).now
  obtain ⟨t, age, hrun, hw⟩ := issue_updWave i s k (fun c => Wave.endRuns c.b.mask (c.endOp i (x c) (y c) (z c))) c s' hp (hk s c s' hp hP) (fun _ => rfl)
  obtain ⟨hregs, hpreds, hfl, hpend, hev⟩ := (Ctx.advance_same c i c.wv age).quiet
  refine ⟨t, _, (he s).trans hrun, hw, ⟨⟨hregs.v, hregs.s, hregs.lc⟩, hpreds, hfl, hpend, hev⟩, ?_, c.endOp i (x c) (y c) (z c),
    ⟨rfl, hiss, rfl, rfl, rfl, rfl, rfl, rfl⟩, Wave.endRuns_ended _ _ _⟩
  rw [Wave.endRuns_stores]
  exact (Ctx.advance_keptBut c i c.wv age).stores

/-- What LAUNCH does once it has passed its checks. -/
def launchEffect (h : Hdr) (d a : Opd) (c : Ctx) (s : State) : Except Stop State :=
  if c.lanes = 0 then .ok (s.endRuns c (c.endOp (.launch h d a) [] [] []))
  else if s.depthOf c.tag ≥ 10 then .error (.trap 0x0F 0)
  else if c.w = 0 ∧ (c.sc a).toNat % 64 ≠ 0 then .error (.trap 0x06 (c.sc a).toNat)
  else .ok (s.endRuns c (c.endOp (.launch h d a) [c.sc a] [] []))

theorem launch_issue (h : Hdr) (d a : Opd) :
    TrapsIf (.launch h d a) (fun s c => c.lanes ≠ 0 ∧ 10 ≤ s.depthOf c.tag) 0x0F (fun _ => 0) ∧
    TrapsIf (.launch h d a) (fun s c => c.lanes ≠ 0 ∧ s.depthOf c.tag < 10 ∧ c.w = 0 ∧ (c.sc a).toNat % 64 ≠ 0) 0x06 (fun c => (c.sc a).toNat) ∧
    Ends (.launch h d a) (fun s c => c.lanes ≠ 0 ∧ s.depthOf c.tag < 10 ∧ (c.w = 0 → (c.sc a).toNat % 64 = 0)) (fun c => [c.sc a]) (fun _ => []) (fun _ => []) ∧
    Ends (.launch h d a) (fun _ c => c.lanes = 0) (fun _ => []) (fun _ => []) (fun _ => []) := by
  have he (s : State) : exec (.launch h d a) s = issue (.launch h d a) s (launchEffect h d a) := rfl
  have hdepth {s : State} {c : Ctx} {s' : State} (hp : s.pre (.launch h d a) = .go c s') :
      (s'.advance c (.launch h d a)).depthOf c.tag = s.depthOf c.tag := (State.Alike.advance hp).depthOf c.tag
  refine ⟨fun s c s' hp ⟨hl, hd⟩ => ?_, fun s c s' hp ⟨hl, hd, hw, hal⟩ => ?_, ends_when he fun s c s' hp ⟨hl, hd, hal⟩ => ?_,
    ends_when he fun _ _ _ _ hl => if_pos hl⟩
  · have hk : launchEffect h d a c (s'.advance c (.launch h d a)) = .error (.trap 0x0F 0) := by
      rw [launchEffect, if_neg hl, hdepth hp, if_pos hd]
    exact (he s).trans (issue_error hp hk)
  · have hk : launchEffect h d a c (s'.advance c (.launch h d a)) = .error (.trap 0x06 (c.sc a).toNat) := by
      rw [launchEffect, if_neg hl, hdepth hp, if_neg (by omega), if_pos ⟨hw, hal⟩]
    exact (he s).trans (issue_error hp hk)
  · rw [launchEffect, if_neg hl, hdepth hp, if_neg (by omega), if_neg (fun e => e.2 (hal e.1))]

/-! ### ENRD -/

theorem State.meterTeam_wave (u : State) (k tag w : Nat) : (u.meterTeam k).wave? tag w = u.wave? tag w := by
  have e : (u.meterTeam k).wave? tag w = (u.updTeam k (fun t => { t with meter := t.meter + Config.energy u.free })).wave? tag w := rfl
  rw [e, wave?, team?_updTeam _ _ _ _ (fun _ => by rfl), wave?]
  split
  · cases u.team? tag <;> rfl
  · rfl
theorem State.meterTeam_meter {u : State} {k m : Nat} (h : (u.team? k).map (·.meter) = some m) :
    ((u.meterTeam k).team? k).map (·.meter) = some (m + Config.energy u.free) := by
  have e : (u.meterTeam k).team? k = (u.updTeam k (fun t => { t with meter := t.meter + Config.energy u.free })).team? k := rfl
  obtain ⟨t, ht, rfl⟩ := Option.map_eq_some_iff.mp h
  rw [e, team?_updTeam _ _ _ _ (fun _ => by rfl), if_pos rfl, ht]
  rfl
theorem State.Alike.meter {s t : State} (h : s.Alike t) (k : Nat) : (t.team? k).map (·.meter) = (s.team? k).map (·.meter) := by
  have e := congrArg (Option.map (fun x : Nat × Nat × Nat × Bool × Nat => x.2.2.2.2)) (h.team? k)
  rw [Option.map_map, Option.map_map] at e
  exact e

theorem State.Alike.result (u : State) (c : Ctx) (i : Instr) (ws : List RegW) (fl : BitVec 8) : u.Alike (u.result c i ws fl) :=
  updTeam u c.tag (fun _ => by rfl)
theorem State.Alike.settle (u : State) (tag w : Nat) : u.Alike (u.settle tag w) := updTeam u tag (fun _ => by rfl)

/-- ENRD reads the team's meter, which has grown by what was metered since (R428, R431). -/
theorem enrd_issue (h : Hdr) (d : Opd) :
    ActsTo (.enrd h d) (fun _ c => c.lanes ≠ 0) (fun _ c t wv => c.wv.KeptPreds wv ∧ wv.fflags = c.wv.fflags ∧
      ∃ m, c.tm.meter ≤ m ∧ (t.team? c.tag).map (·.meter) = some m ∧ c.wv.Got64 wv c.lanes d (fun _ => BitVec.ofNat 64 m)) ∧
    ActsTo (.enrd h d) (fun _ c => c.lanes = 0) (fun _ c _ wv => c.wv.Quiet wv) := by
  have hrun (s : State) : exec (.enrd h d) s = execEnrd h d s := rfl
  refine ⟨fun s c s' hp hl => ?_, fun s c s' hp hl => ?_⟩
  · obtain ⟨w0, h0, hsame, -⟩ := advance_same hp
    have hmeter : ((s'.advance c (.enrd h d)).team? c.tag).map (·.meter) = some c.tm.meter := by
      rw [(State.Alike.advance hp).meter, (pre_go s _ c s' hp).team]; rfl
    have hgrown := State.meterTeam_meter hmeter
    generalize hm : c.tm.meter + Config.energy (s'.advance c (.enrd h d)).free = m at hgrown
    have hread : (((s'.advance c (.enrd h d)).meterTeam c.tag).team? c.tag).elim 0 (·.meter) = m := by
      obtain ⟨t, ht, e⟩ := Option.map_eq_some_iff.mp hgrown
      rw [ht, ← e]; rfl
    have hk : exec (.enrd h d) s = .next ((((s'.advance c (.enrd h d)).meterTeam c.tag).result c (.enrd h d)
        (c.dst64 d (fun _ => BitVec.ofNat 64 m)) 0).settle c.tag c.w) := by
      rw [hrun, execEnrd]
      refine issue_ok hp ((if_neg hl).trans ?_)
      dsimp only
      rw [hread]
    obtain ⟨hgot, hpreds⟩ := hsame.got64 c.lanes d (fun _ => BitVec.ofNat 64 m)
    have hw := result_wave ((s'.advance c (.enrd h d)).meterTeam c.tag) c (.enrd h d) (c.dst64 d (fun _ => BitVec.ofNat 64 m)) 0 w0
      ((State.meterTeam_wave ..).trans h0)
    refine ⟨_, _, hk, settle_wave _ _ _ _ hw, hpreds, ?_, m, by omega, ?_, ⟨hgot.v, hgot.s, hgot.lc⟩⟩
    · refine (BitVec.or_zero).trans ?_
      rw [Wave.puts_fflags, hsame.fflags]
    · rw [(State.Alike.settle _ _ _).meter, (State.Alike.result _ _ _ _ _).meter, hgrown]
  · obtain ⟨wv, hw, hq⟩ := acts_nothing hp
    refine ⟨_, wv, ?_, hw, hq⟩
    rw [hrun, execEnrd]
    exact issue_ok hp (if_pos hl)

/-! ### QCTL -/

/-- A queue that is quiesced: RUNNING becomes QUIESCED, and it is held; and one that is resumed (R423). -/
def Queue.quiesced (q : Queue) : Queue := { (if q.state = 1 then q.setState 2 else q) with held := true }
def Queue.resumed (q : Queue) : Queue := { (if q.state = 2 then q.setState 1 else q) with held := false }

/-- What QCTL.q, QCTL.r and QCTL.qry do. -/
def qctlQEffect (h : Hdr) (d a : Opd) (ev : Option (BitVec 3)) (c : Ctx) (s : State) : Except Stop State :=
  if c.lanes = 0 then .ok s
  else if s.rootHalt then .error .wait
  else if c.sc a = 0 then .ok (s.done c d 1)
  else if c.tm.part = c.tm.reach ∧ (c.sc a).getLsbD (s.queueOf c.tm) ∧ s.queueOf c.tm < 64 then .ok (s.done c d 3)
  else if (s.namedTeams c.tm.reach (c.sc a)).any (fun t => (s.gridOf t.tag).any (·.lat)) then .ok (s.done c d 2)
  else
    let u := (((s.namedTeams c.tm.reach (c.sc a)).map (·.gid)).eraseDups).foldl (fun s g => s.preempt g)
      (s.updPart c.tm.reach (·.updQueues (c.sc a) Queue.quiesced))
    if s.namedTeams c.tm.reach (c.sc a) = [] then .ok (u.done c d 0)
    else .ok (u.start c { c.pend (.qctlQ h d a ev) [c.ownRid] with hold := ev.isNone, x := [c.sc a], z := [BitVec.ofNat 64 c.tm.reach] })
def qctlREffect (d a : Opd) (c : Ctx) (s : State) : Except Stop State :=
  if c.lanes = 0 then .ok s
  else if s.rootHalt then .error .wait
  else if c.sc a = 0 then .ok (s.done c d 1)
  else if !s.configOk c.tm.reach then .ok (s.done c d 4)
  else
    let u := s.updPart c.tm.reach (·.updQueues (c.sc a) Queue.resumed)
    .ok (((if (u.part c.tm.reach).moved then u.loseRange c.tm.reach else u).updPart c.tm.reach (fun q => { q with moved := false, wild := false })).done c d 0)
def qctlQryEffect (d a : Opd) (c : Ctx) (s : State) : Except Stop State :=
  if c.lanes = 0 then .ok s
  else if s.rootHalt then .error .wait
  else .ok (s.putNow c (c.dst64 d (fun _ => if c.sc a = 0 then 1
    else (s.namedTeams c.tm.reach (c.sc a)).foldl (fun m t => m ||| (1#64 <<< s.queueOf t)) 0)))

theorem exec_qctlQ (h : Hdr) (d a : Opd) (ev : Option (BitVec 3)) (s : State) :
    exec (.qctlQ h d a ev) s = issue (.qctlQ h d a ev) s (qctlQEffect h d a ev) := rfl
theorem exec_qctlR (h : Hdr) (d a : Opd) (ev : Option (BitVec 3)) (s : State) :
    exec (.qctlR h d a ev) s = issue (.qctlR h d a ev) s (qctlREffect d a) := rfl
theorem exec_qctlQry (h : Hdr) (d a : Opd) (ev : Option (BitVec 3)) (s : State) :
    exec (.qctlQry h d a ev) s = issue (.qctlQry h d a ev) s (qctlQryEffect d a) := rfl

/-- The three share their first two answers: with no active thread nothing, and a wait while the root core is halted (R417). -/
theorem qctl_first {i : Instr} {k : Ctx → State → Except Stop State} (he : ∀ s, exec i s = issue i s k)
    (hidle : ∀ c u, c.lanes = 0 → k c u = .ok u) (hhalt : ∀ c u, c.lanes ≠ 0 → u.rootHalt = true → k c u = .error .wait)
    {s s' : State} {c : Ctx} (hp : s.pre i = .go c s') :
    (c.lanes = 0 → ∃ t wv, exec i s = .next t ∧ t.wave? c.tag c.w = some (Wave.settle 4 wv) ∧ c.wv.Quiet wv ∧ t.parts = s.parts) ∧
    (c.lanes ≠ 0 → s.rootHalt = true → exec i s = .next s) := by
  refine ⟨fun hl => ?_, fun hl hr => ?_⟩
  · obtain ⟨wv, hw, hq⟩ := acts_nothing hp
    exact ⟨_, wv, (he s).trans (issue_ok hp (hidle c _ hl)), hw, hq, (State.Alike.advance hp).parts⟩
  · exact (he s).trans (issue_error (x := .wait) hp (hhalt c _ hl ((State.Alike.advance hp).rootHalt.trans hr)))

section
variable {i : Instr} {s s' : State} {c : Ctx} (hp : s.pre i = .go c s')
include hp

/-- A status answered while the partitions stand. -/
theorem qctl_answer {k : Ctx → State → Except Stop State} (he : exec i s = issue i s k) (d : Opd) (x : Word)
    (hk : k c (s'.advance c i) = .ok ((s'.advance c i).done c d x)) :
    ∃ t wv, exec i s = .next t ∧ t.wave? c.tag c.w = some (Wave.settle 4 wv) ∧ c.wv.Got32 wv c.lanes d (fun _ => x) ∧ c.wv.KeptPreds wv ∧
      wv.fflags = c.wv.fflags ∧ wv.pend.map (·.id) = c.wv.pend.map (·.id) ∧ (∀ n, wv.evr n = c.wv.evr n) ∧ t.parts = s.parts := by
  obtain ⟨wv, hw, hgot, hpreds, hfl, hpend, hev⟩ := answers_done hp rfl d x
  exact ⟨_, wv, he.trans (issue_ok hp hk), hw, hgot, hpreds, hfl, hpend, hev, (State.Alike.advance hp).parts⟩

/-- A status answered after a change that leaves the issuing wave. -/
theorem qctl_changed {k : Ctx → State → Except Stop State} (he : exec i s = issue i s k) (d : Opd) (x : Word) {u : State}
    (hu : u.team? c.tag = (s'.advance c i).team? c.tag) (hk : k c (s'.advance c i) = .ok (u.done c d x)) :
    ∃ t wv, exec i s = .next t ∧ t.wave? c.tag c.w = some (Wave.settle 4 wv) ∧ c.wv.Got32 wv c.lanes d (fun _ => x) ∧ c.wv.KeptPreds wv ∧
      wv.fflags = c.wv.fflags ∧ wv.pend.map (·.id) = c.wv.pend.map (·.id) ∧ (∀ n, wv.evr n = c.wv.evr n) ∧ t.parts = u.parts := by
  obtain ⟨wv, hw, hgot, hpreds, hfl, hpend, hev⟩ := answers_done hp (u := u) (by rw [State.wave?, hu, State.wave?]) d x
  exact ⟨_, wv, he.trans (issue_ok hp hk), hw, hgot, hpreds, hfl, hpend, hev, rfl⟩
end

/-- The queues named by a mask, changed. -/
theorem State.queues_updQueues {s : State} {p : Nat} (hp : p < s.parts.length) (mask : DWord) (f : Queue → Queue) :
    ((s.updPart p (·.updQueues mask f)).part p).queues = (s.part p).queues.zipIdx.map (fun x => if mask.getLsbD x.2 then f x.1 else x.1) := by
  rw [part_updPart_self hp]; rfl

theorem State.queues_of_parts {t u : State} (h : t.parts = u.parts) (p : Nat) : (t.part p).queues = (u.part p).queues := by rw [part, part, h]

/-- A wave that starts an operation keeps its registers (R134). -/
theorem Wave.Same.startPend {a b : Wave} (h : a.Same b) (q : Pend) : a.KeptRegs (b.startPend q) :=
  ⟨Wave.vr_congr h.v, Wave.sr_congr h.s, Wave.lcr_congr h.lc⟩

/-- The named teams of the issue, as QCTL sees them. -/
def Ctx.named (c : Ctx) (a : Opd) (s : State) : List Team := s.namedTeams c.tm.reach (c.sc a)
/-- Is the issuing team's own queue among those named (R423)? -/
def Ctx.names (c : Ctx) (a : Opd) (s : State) : Prop := c.tm.part = c.tm.reach ∧ s.queueOf c.tm < 64 ∧ (c.sc a).getLsbD (s.queueOf c.tm) = true
/-- Is a team of the latency class among the named ones? -/
def Ctx.namesLat (c : Ctx) (a : Opd) (s : State) : Prop := ∃ t ∈ c.named a s, ∃ gr, s.gridOf t.tag = some gr ∧ gr.lat = true

section
variable {h : Hdr} {d a : Opd} {ev : Option (BitVec 3)} {s s' : State} {c : Ctx}

section
variable (hp : s.pre (.qctlQ h d a ev) = .go c s') (hl : c.lanes ≠ 0) (hr : s.rootHalt = false) (hm : c.sc a ≠ 0)
include hp hl hr

theorem qctlQ_empty (hm : c.sc a = 0) : qctlQEffect h d a ev c (s'.advance c (.qctlQ h d a ev)) = .ok ((s'.advance c (.qctlQ h d a ev)).done c d 1) := by
  have hal := State.Alike.advance hp
  rw [qctlQEffect, if_neg hl, hal.rootHalt, hr, if_neg (by decide), if_pos hm]

include hm

theorem qctlQ_own (ho : c.names a s) : qctlQEffect h d a ev c (s'.advance c (.qctlQ h d a ev)) = .ok ((s'.advance c (.qctlQ h d a ev)).done c d 3) := by
  have hal := State.Alike.advance hp
  obtain ⟨hpart, hq, hbit⟩ := ho
  rw [qctlQEffect, if_neg hl, hal.rootHalt, hr, if_neg (by decide), if_neg hm, hal.queueOf, if_pos ⟨hpart, hbit, hq⟩]

variable (ho : ¬c.names a s)
include ho

theorem qctlQ_lat (hlat : c.namesLat a s) :
    qctlQEffect h d a ev c (s'.advance c (.qctlQ h d a ev)) = .ok ((s'.advance c (.qctlQ h d a ev)).done c d 2) := by
  have hal := State.Alike.advance hp
  rw [qctlQEffect, if_neg hl, hal.rootHalt, hr, if_neg (by decide), if_neg hm, hal.queueOf, if_neg (fun e => ho ⟨e.1, e.2.2, e.2.1⟩),
    if_pos ((hal.named_lat _ _).mpr hlat)]

/-- Past those answers the named queues are quiesced, and the gangs of the named teams begin to leave. -/
theorem qctlQ_quiesce (hlat : ¬c.namesLat a s) : qctlQEffect h d a ev c (s'.advance c (.qctlQ h d a ev)) =
    let u := (((c.named a s).map (·.gid)).eraseDups).foldl (fun s g => s.preempt g)
      ((s'.advance c (.qctlQ h d a ev)).updPart c.tm.reach (·.updQueues (c.sc a) Queue.quiesced))
    if c.named a s = [] then .ok (u.done c d 0)
    else .ok (u.start c { c.pend (.qctlQ h d a ev) [c.ownRid] with hold := ev.isNone, x := [c.sc a], z := [BitVec.ofNat 64 c.tm.reach] }) := by
  have hal := State.Alike.advance hp
  rw [qctlQEffect, if_neg hl, hal.rootHalt, hr, if_neg (by decide), if_neg hm, hal.queueOf, if_neg (fun e => ho ⟨e.1, e.2.2, e.2.1⟩),
    if_neg (fun e => hlat ((hal.named_lat _ _).mp e))]
  dsimp only
  rw [hal.named_gids]
  by_cases hn : c.named a s = []
  · rw [if_pos ((hal.namedTeams_nil _ _).mpr hn), if_pos hn]; rfl
  · rw [if_neg (fun e => hn ((hal.namedTeams_nil _ _).mp e)), if_neg hn]; rfl

/-- With none of the named teams on a core the quiesce is done at once. -/
theorem qctlQ_atOnce (hreach : c.tm.reach < s.parts.length) (hn : c.named a s = []) : ∃ u : State,
    u.team? c.tag = (s'.advance c (.qctlQ h d a ev)).team? c.tag ∧ qctlQEffect h d a ev c (s'.advance c (.qctlQ h d a ev)) = .ok (u.done c d 0) ∧
    (u.part c.tm.reach).queues = (s.part c.tm.reach).queues.zipIdx.map (fun q => if (c.sc a).getLsbD q.2 then q.1.quiesced else q.1) := by
  have hal := State.Alike.advance hp
  have hlat : ¬c.namesLat a s := by
    rintro ⟨t, ht, -⟩
    rw [hn] at ht
    exact absurd ht List.not_mem_nil
  have hk := qctlQ_quiesce hp hl hr hm ho hlat
  dsimp only at hk
  rw [if_pos hn, hn] at hk
  refine ⟨(s'.advance c (.qctlQ h d a ev)).updPart c.tm.reach (·.updQueues (c.sc a) Queue.quiesced), rfl, hk, ?_⟩
  exact (State.queues_updQueues (by rw [hal.parts]; exact hreach) _ _).trans (by rw [hal.part])

/-- With named teams on cores, other than the issuing wave's gang, the quiesce waits until they have left. -/
theorem qctlQ_waits (hreach : c.tm.reach < s.parts.length) (hlat : ¬c.namesLat a s) (hn : c.named a s ≠ [])
    (hapart : ∀ u ∈ c.named a s, ∀ y ∈ s.teams, y.gid = u.gid → y.tag ≠ c.tag) :
    ∃ t wv, exec (.qctlQ h d a ev) s = .next t ∧ t.wave? c.tag c.w = some (Wave.settle 4 wv) ∧ c.wv.KeptRegs wv ∧
      (t.part c.tm.reach).queues = (s.part c.tm.reach).queues.zipIdx.map (fun q => if (c.sc a).getLsbD q.2 then q.1.quiesced else q.1) ∧
      (∀ u ∈ c.named a s, (t.gang? u.gid).map (·.st) = some .leaving) ∧
      ∃ q, wv.pend.getLast? = some q ∧ q.id = s.nextId ∧ q.instr = .qctlQ h d a ev ∧ q.x = [c.sc a] := by
  have hal := State.Alike.advance hp
  obtain ⟨-, -, hiss⟩ := (pre_go s _ c s' hp).now
  obtain ⟨w0, h0, hsame, -⟩ := advance_same hp
  have hk := qctlQ_quiesce hp hl hr hm ho hlat
  dsimp only at hk
  rw [if_neg hn, State.start_active _ _ _ hl] at hk
  have hmoved := State.preempts_moved c.tag (((c.named a s).map (·.gid)).eraseDups)
    ((s'.advance c (.qctlQ h d a ev)).updPart c.tm.reach (·.updQueues (c.sc a) Queue.quiesced)) (fun y hy hgid => by
      obtain ⟨u, hu, hug⟩ := List.mem_map.mp (List.mem_eraseDups.mp hgid)
      have hface : y.face ∈ s.teams.map Team.face := hal.faces ▸ List.mem_map_of_mem hy
      obtain ⟨z, hz, e⟩ := List.mem_map.mp hface
      simp only [Team.face, Prod.mk.injEq] at e
      rw [← e.1]
      exact hapart u hu z hz (e.2.1.trans hug.symm))
  have hw := hmoved.team.trans (rfl : _ = (s'.advance c (.qctlQ h d a ev)).team? c.tag)
  generalize (((c.named a s).map (·.gid)).eraseDups).foldl (fun s g => s.preempt g)
    ((s'.advance c (.qctlQ h d a ev)).updPart c.tm.reach (·.updQueues (c.sc a) Queue.quiesced)) = u at hk hmoved hw
  have hwave : u.wave? c.tag c.w = some w0 := by rw [State.wave?, hw]; exact h0
  generalize hq : ({ c.pend (.qctlQ h d a ev) [c.ownRid] with hold := ev.isNone, x := [c.sc a], z := [BitVec.ofNat 64 c.tm.reach] } : Pend) = q at hk
  have hstart : (u.updWave c.tag c.w (Wave.startPend q)).wave? c.tag c.w = some (w0.startPend q) := by
    rw [State.wave?_updWave _ _ _ _ _ _ (Wave.startPend_ix q), if_pos ⟨rfl, rfl⟩, hwave]; rfl
  refine ⟨_, _, issue_ok hp hk, settle_wave _ _ _ _ hstart, hsame.startPend q, ?_, fun x hx => ?_, q, List.getLast?_concat, ?_, ?_, ?_⟩
  · refine (hmoved.queues c.tm.reach).trans ?_
    rw [State.queues_updQueues (by rw [hal.parts]; exact hreach), hal.part]
  · have hres := (List.mem_filter.mp hx).2
    have hgid : x.gid ∈ ((c.named a s).map (·.gid)).eraseDups := List.mem_eraseDups.mpr (List.mem_map_of_mem hx)
    have hst : (s.gangSt x.gid).map leaves = some .leaving := by
      simp only [Bool.and_eq_true, State.resident] at hres
      obtain ⟨g, hg, hst⟩ := (Option.any_eq_true ..).mp hres.1.1.2.2
      rw [State.gangSt, hg]
      simp only [Bool.or_eq_true, beq_iff_eq] at hst
      obtain hst | hst := hst
      · rw [Option.map_some, hst]; rfl
      · rw [Option.map_some, hst]; rfl
    refine (hmoved.gangs x.gid).trans ?_
    rw [if_pos hgid, ← hst, State.gangSt, State.gangSt, State.gang?, State.gang?]
    exact congrArg (fun l : List Gang => ((l.find? (·.gid == x.gid)).map (·.st)).map leaves) hal.gangs
  · rw [← hq]; exact hiss
  · rw [← hq]; rfl
  · rw [← hq]
end

theorem State.loseRange_keeps (u : State) (p : Nat) : (u.loseRange p).teams = u.teams ∧ (u.loseRange p).parts = u.parts := by
  have hmem (lo hi : Nat) : (u.memLose lo hi).teams = u.teams ∧ (u.memLose lo hi).parts = u.parts := by
    unfold State.memLose
    split
    · exact ⟨rfl, rfl⟩
    · exact ⟨rfl, rfl⟩
  exact hmem _ _

/-- A resume (R423): refused while the configuration breaks R105, else the named queues run again. -/
theorem qctlR_effects (hp : s.pre (.qctlR h d a ev) = .go c s') (hl : c.lanes ≠ 0) (hr : s.rootHalt = false) :
    (c.sc a = 0 → qctlREffect d a c (s'.advance c (.qctlR h d a ev)) = .ok ((s'.advance c (.qctlR h d a ev)).done c d 1)) ∧
    (c.sc a ≠ 0 → s.configOk c.tm.reach = false → qctlREffect d a c (s'.advance c (.qctlR h d a ev)) = .ok ((s'.advance c (.qctlR h d a ev)).done c d 4)) ∧
    (c.sc a ≠ 0 → s.configOk c.tm.reach = true → c.tm.reach < s.parts.length → ∃ u : State,
      u.team? c.tag = (s'.advance c (.qctlR h d a ev)).team? c.tag ∧ qctlREffect d a c (s'.advance c (.qctlR h d a ev)) = .ok (u.done c d 0) ∧
      (u.part c.tm.reach).queues = (s.part c.tm.reach).queues.zipIdx.map (fun q => if (c.sc a).getLsbD q.2 then q.1.resumed else q.1)) := by
  have hal := State.Alike.advance hp
  refine ⟨fun hm => ?_, fun hm hcfg => ?_, fun hm hcfg hreach => ?_⟩
  · rw [qctlREffect, if_neg hl, hal.rootHalt, hr, if_neg (by decide), if_pos hm]
  · rw [qctlREffect, if_neg hl, hal.rootHalt, hr, if_neg (by decide), if_neg hm, hal.configOk, hcfg]; rfl
  · rw [qctlREffect, if_neg hl, hal.rootHalt, hr, if_neg (by decide), if_neg hm, hal.configOk, hcfg]
    have hlose (u : State) (b : Bool) : (if b then u.loseRange c.tm.reach else u).team? c.tag = u.team? c.tag ∧
        (if b then u.loseRange c.tm.reach else u).parts = u.parts := by
      cases b with
      | false => exact ⟨rfl, rfl⟩
      | true =>
        obtain ⟨hteams, hparts⟩ := u.loseRange_keeps c.tm.reach
        exact ⟨by rw [if_pos rfl, State.team?, hteams, State.team?], hparts⟩
    generalize hU : (s'.advance c (.qctlR h d a ev)).updPart c.tm.reach (·.updQueues (c.sc a) Queue.resumed) = U
    obtain ⟨hteam, hparts⟩ := hlose U (U.part c.tm.reach).moved
    refine ⟨(if (U.part c.tm.reach).moved then U.loseRange c.tm.reach else U).updPart c.tm.reach (fun q => { q with moved := false, wild := false }), ?_, ?_, ?_⟩
    · exact hteam.trans (hU ▸ rfl)
    · rw [← hU]; rfl
    · have hlen : c.tm.reach < U.parts.length := by
        rw [← hU, State.updPart, List.length_modify, hal.parts]; exact hreach
      rw [State.part_updPart_self (by rw [hparts]; exact hlen), State.part, hparts, ← hU]
      exact (State.queues_updQueues (by rw [hal.parts]; exact hreach) _ _).trans (by rw [hal.part])

/-- A query (R423). -/
theorem qctlQry_acts (hp : s.pre (.qctlQry h d a ev) = .go c s') (hl : c.lanes ≠ 0) (hr : s.rootHalt = false) :
    ∃ t wv, exec (.qctlQry h d a ev) s = .next t ∧ t.wave? c.tag c.w = some (Wave.settle 4 wv) ∧ t.parts = s.parts ∧ c.wv.KeptPreds wv ∧
      wv.fflags = c.wv.fflags ∧ c.wv.Got64 wv c.lanes d (fun _ => if c.sc a = 0 then 1
        else (c.named a s).foldl (fun m t => m ||| (1#64 <<< s.queueOf t)) 0) := by
  have hal := State.Alike.advance hp
  have hk : qctlQryEffect d a c (s'.advance c (.qctlQry h d a ev)) = .ok ((s'.advance c (.qctlQry h d a ev)).putNow c
      (c.dst64 d (fun _ => if c.sc a = 0 then 1 else (c.named a s).foldl (fun m t => m ||| (1#64 <<< s.queueOf t)) 0))) := by
    rw [qctlQryEffect, if_neg hl, hal.rootHalt, hr, if_neg (by decide), hal.named_mask]
    rfl
  obtain ⟨wv, hw, hgot, hpreds, hfl⟩ := answers_wide hp rfl d (if c.sc a = 0 then 1 else (c.named a s).foldl (fun m t => m ||| (1#64 <<< s.queueOf t)) 0)
  exact ⟨_, wv, issue_ok hp hk, hw, hal.parts, hpreds, hfl, hgot⟩

end

end Sys2Proof.Machine

/-- Settles O54: each instruction is one `issue`; the bookkeeping before its effect does not change what the scheduler sees, and gangs that begin
to leave change neither the issuing wave nor the queues. -/
theorem systemIssue : Obligations.SystemIssue := by
  intro h d a b g ev x
  obtain ⟨hdepth, halign, hends, hidle⟩ := launch_issue h d a
  obtain ⟨henrd, henrd0⟩ := enrd_issue h d
  refine ⟨?_, rinv_starts fun _ => rfl, fun i hi s c s' hp => ?_, ⟨?_, ?_, ?_, ?_, ?_, ?_, ?_, ?_, ?_⟩, hdepth, halign, hends, hidle, henrd, henrd0⟩
  · intro s c s' hp hany
    obtain ⟨t, wv, he, hw, hregs, hpreds, hfl, h0, h1⟩ := rinv_starts (i := .rinv h d a ev) (a := a) (ev := ev) (y := fun _ => []) (z := fun _ => [])
      (fun _ => rfl) s c s' hp hany
    refine ⟨t, wv, he, hw, hregs, hpreds, hfl, h0, fun hl => ?_⟩
    obtain ⟨hev, q, hq, hlen, hid, hinstr, hqev, hdst, hlanes, hhold, hx, -, -⟩ := h1 hl
    exact ⟨hev, q, hq, hlen, hid, hinstr, hqev, hdst, hlanes, hhold, hx⟩
  · simp only [List.mem_cons, List.not_mem_nil, or_false] at hi
    obtain rfl | rfl | rfl := hi
    · exact qctl_first (exec_qctlQ h d a ev) (fun c u hl => if_pos hl) (fun c u hl hr => (if_neg hl).trans (if_pos hr)) hp
    · exact qctl_first (exec_qctlR h d a ev) (fun c u hl => if_pos hl) (fun c u hl hr => (if_neg hl).trans (if_pos hr)) hp
    · exact qctl_first (exec_qctlQry h d a ev) (fun c u hl => if_pos hl) (fun c u hl hr => (if_neg hl).trans (if_pos hr)) hp
  · intro s c s' hp ⟨⟨hl, hr, _⟩, hm⟩
    exact qctl_answer hp (exec_qctlQ h d a ev s) d 1 (qctlQ_empty hp hl hr hm)
  · intro s c s' hp ⟨⟨hl, hr, _⟩, hm, ho⟩
    exact qctl_answer hp (exec_qctlQ h d a ev s) d 3 (qctlQ_own hp hl hr hm ho)
  · intro s c s' hp ⟨⟨hl, hr, _⟩, hm, ho, hlat⟩
    exact qctl_answer hp (exec_qctlQ h d a ev s) d 2 (qctlQ_lat hp hl hr hm ho hlat)
  · intro s c s' hp ⟨⟨hl, hr, hreach⟩, hm, ho, hn⟩
    obtain ⟨u, hu, hk, hq⟩ := qctlQ_atOnce hp hl hr hm ho hreach hn
    obtain ⟨t, wv, he, hw, hgot, hpreds, hfl, hpend, hev, hparts⟩ := qctl_changed hp (exec_qctlQ h d a ev s) d 0 hu hk
    exact ⟨t, wv, he, hw, hgot, hpreds, hfl, hpend, hev, (State.queues_of_parts hparts _).trans hq⟩
  · intro s c s' hp ⟨⟨hl, hr, hreach⟩, hm, ho, hlat, hn, hapart⟩
    exact qctlQ_waits hp hl hr hm ho hreach hlat hn hapart
  · intro s c s' hp ⟨⟨hl, hr, _⟩, hm⟩
    exact qctl_answer hp (exec_qctlR h d a ev s) d 1 ((qctlR_effects hp hl hr).1 hm)
  · intro s c s' hp ⟨⟨hl, hr, _⟩, hm, hcfg⟩
    exact qctl_answer hp (exec_qctlR h d a ev s) d 4 ((qctlR_effects hp hl hr).2.1 hm hcfg)
  · intro s c s' hp ⟨⟨hl, hr, hreach⟩, hm, hcfg⟩
    obtain ⟨-, -, hresume⟩ := qctlR_effects hp hl hr
    obtain ⟨u, hu, hk, hq⟩ := hresume hm hcfg hreach
    obtain ⟨t, wv, he, hw, hgot, hpreds, hfl, hpend, hev, hparts⟩ := qctl_changed hp (exec_qctlR h d a ev s) d 0 hu hk
    exact ⟨t, wv, he, hw, hgot, hpreds, hfl, hpend, hev, (State.queues_of_parts hparts _).trans hq⟩
  · intro s c s' hp ⟨hl, hr, _⟩
    exact qctlQry_acts hp hl hr

end

section
/-! PROOFS. Placement: what reset leaves, the interleave of memory, home slices and translation (R102, R110 to R112, R202, R204, R207 to R209,
R384, R465). -/
open Sys2Proof Sys2Proof.Machine

namespace Sys2Proof.Machine

/-! ### Counting and picking the set bits of a mask -/

theorem bits_zero (x n : Nat) : bits x 0 n = x % 2 ^ n := by rw [bits, Nat.shiftRight_zero]

/-- The places of the set bits of `x` among the low `n`, ascending. -/
def setBits (x n : Nat) : List Nat := (List.range n).filter (bit x)

theorem popc_eq_length (x n : Nat) : popc x n = (setBits x n).length := by
  have count (l : List Nat) (a : Nat) : l.foldl (fun a i => if bit x i then a + 1 else a) a = a + (l.filter (bit x)).length := by
    induction l generalizing a with
    | nil => rfl
    | cons i l ih =>
      rw [List.foldl_cons, ih, List.filter_cons]
      split
      · rw [List.length_cons]; omega
      · rfl
  exact (count _ 0).trans (Nat.zero_add _)

theorem nthSet_eq_getElem {x n k : Nat} (hk : k < (setBits x n).length) : nthSet x n k = (setBits x n)[k] :=
  List.getD_eq_getElem _ _ hk

/-- Below the population count the picked bit is set. -/
theorem bit_nthSet {x n k : Nat} (hk : k < popc x n) : nthSet x n k < n ∧ bit x (nthSet x n k) = true := by
  rw [popc_eq_length] at hk
  have hmem : nthSet x n k ∈ setBits x n := nthSet_eq_getElem hk ▸ List.getElem_mem hk
  obtain ⟨hlt, hbit⟩ := List.mem_filter.mp hmem
  exact ⟨List.mem_range.mp hlt, hbit⟩

/-- Different numbers below the population count pick different bits. -/
theorem nthSet_inj {x n j k : Nat} (hj : j < popc x n) (hk : k < popc x n) (h : nthSet x n j = nthSet x n k) : j = k := by
  rw [popc_eq_length] at hj hk
  rw [nthSet_eq_getElem hj, nthSet_eq_getElem hk] at h
  exact (List.Nodup.getElem_inj_iff (List.nodup_range.filter _)).mp h

theorem popc_pos {x n i : Nat} (hi : i < n) (hb : bit x i = true) : 0 < popc x n := by
  rw [popc_eq_length]
  exact List.length_pos_of_mem (List.mem_filter.mpr ⟨List.mem_range.mpr hi, hb⟩)

/-- A number with a bit below `n` has a set bit there. -/
theorem popc_pos_of_ne_zero {x n : Nat} (h : x % 2 ^ n ≠ 0) : 0 < popc x n := by
  obtain ⟨i, hi⟩ := Nat.exists_testBit_of_ne_zero h
  rw [Nat.testBit_mod_two_pow, Bool.and_eq_true, decide_eq_true_eq] at hi
  exact popc_pos hi.1 hi.2

/-! ### The interleave (R110, R465) -/

/-- The range of a partition holds an address. -/
def State.RangeHolds (s : State) (p pa : Nat) : Prop := s.active p = true ∧ (s.part p).pmbase.toNat ≤ pa ∧ pa < (s.part p).pmlim.toNat

/-- The deciding partition is the lowest-numbered active one whose range holds the address. -/
theorem State.rangeOf_some {s : State} {pa p : Nat} (h : s.rangeOf pa = some p) : s.RangeHolds p pa ∧ ∀ q, q < p → ¬s.RangeHolds q pa := by
  obtain ⟨hp, -, hlow⟩ := List.find?_range_eq_some.mp h
  simp only [Bool.and_eq_true, decide_eq_true_eq, and_assoc] at hp
  refine ⟨hp, fun q hq hh => ?_⟩
  have := hlow q hq
  obtain ⟨ha, hlo, hhi⟩ := hh
  simp [ha, hlo, hhi] at this

/-- Granule shift, number of controllers and first local unit of an interleave register (Table 5.6). -/
def Part.granShift (q : Part) : Nat := bits q.milv.toNat 16 4 + 8
def Part.controllers (q : Part) : Nat := max (popc (bits q.milv.toNat 0 16) 16) 1

theorem State.interleave_none {s : State} {pa : Nat} (h : s.rangeOf pa = none) : s.interleave pa = (pa / 256 % 16, pa / 256 / 16 * 256 + pa % 256) := by
  simp only [interleave, h, Nat.shiftRight_eq_div_pow]

/-- Within a range: the granule of the offset names the controller in turn, and its turn the place there. -/
theorem State.interleave_some {s : State} {pa p : Nat} (h : s.rangeOf pa = some p) : s.interleave pa =
    let q := s.part p
    let off := pa - q.pmbase.toNat
    let g := off / 2 ^ q.granShift
    (nthSet (bits q.milv.toNat 0 16) 16 (g % q.controllers),
      bits q.milv.toNat 24 16 * 65536 + g / q.controllers * 2 ^ q.granShift + off % 2 ^ q.granShift) := by
  simp only [interleave, h, Nat.shiftRight_eq_div_pow, Part.granShift, Part.controllers]

/-- The fixed device interleave leaves a byte at its own address. -/
theorem State.cell_none {s : State} {pa : Nat} (h : s.rangeOf pa = none) (hpa : pa < devLimit) : s.cell pa = pa := by
  simp only [cell, if_pos hpa, interleave_none h]
  omega

/-- A quotient, its remainder and a remainder below it determine the number. -/
theorem eq_of_div_mod {a b k n : Nat} (hdiv : a / k / n = b / k / n) (hmod : a / k % n = b / k % n) (hlow : a % k = b % k) : a = b := by
  have hg : a / k = b / k := by rw [← Nat.div_add_mod (a / k) n, hdiv, hmod, Nat.div_add_mod]
  rw [← Nat.div_add_mod a k, hg, hlow, Nat.div_add_mod]

/-- The turn of a granule is one of the controllers' numbers, or the mask is empty. -/
theorem Part.turn_inj (q : Part) {i j : Nat}
    (h : nthSet (bits q.milv.toNat 0 16) 16 (i % q.controllers) = nthSet (bits q.milv.toNat 0 16) 16 (j % q.controllers)) :
    i % q.controllers = j % q.controllers := by
  have hi : i % q.controllers < q.controllers := Nat.mod_lt _ (Nat.le_max_right _ _)
  have hj : j % q.controllers < q.controllers := Nat.mod_lt _ (Nat.le_max_right _ _)
  by_cases h0 : popc (bits q.milv.toNat 0 16) 16 = 0
  · have h1 : q.controllers = 1 := by rw [controllers, h0]; rfl
    rw [h1, Nat.mod_one, Nat.mod_one]
  · have hn : q.controllers = popc (bits q.milv.toNat 0 16) 16 := Nat.max_eq_left (Nat.pos_of_ne_zero h0)
    exact nthSet_inj (hn ▸ hi) (hn ▸ hj) h

/-- Two addresses of one range never share a place of one controller. -/
theorem State.interleave_inj {s : State} {pa qa p : Nat} (hpa : s.rangeOf pa = some p) (hqa : s.rangeOf qa = some p)
    (h : s.interleave pa = s.interleave qa) : pa = qa := by
  obtain ⟨⟨-, hlo, -⟩, -⟩ := rangeOf_some hpa
  obtain ⟨⟨-, hlo', -⟩, -⟩ := rangeOf_some hqa
  rw [interleave_some hpa, interleave_some hqa] at h
  generalize s.part p = q at *
  obtain ⟨hctl, hloc⟩ := Prod.mk.inj h
  rw [Nat.add_assoc, Nat.add_assoc, Nat.add_left_cancel_iff] at hloc
  have hk : 0 < 2 ^ q.granShift := Nat.two_pow_pos _
  have hlow := congrArg (· % 2 ^ q.granShift) hloc
  have hdiv := congrArg (· / 2 ^ q.granShift) hloc
  simp only [Nat.mod_mod, Nat.mul_comm _ (2 ^ q.granShift), Nat.mul_add_div hk,
    Nat.div_eq_of_lt (Nat.mod_lt _ hk), Nat.add_zero, Nat.mul_add_mod] at hlow hdiv
  have := eq_of_div_mod hdiv (q.turn_inj hctl) hlow
  omega

/-- The controllers of a range are those of its mask. -/
theorem State.interleave_mask {s : State} {pa p : Nat} (h : s.rangeOf pa = some p) (hm : (s.part p).milv.toNat % 65536 ≠ 0) :
    (s.part p).milv.getLsbD (s.interleave pa).1 = true := by
  rw [interleave_some h]
  generalize s.part p = q at *
  dsimp only
  have hmask : bits q.milv.toNat 0 16 = q.milv.toNat % 2 ^ 16 := bits_zero _ _
  have hpos : 0 < popc (bits q.milv.toNat 0 16) 16 := popc_pos_of_ne_zero (by rw [hmask, Nat.mod_mod]; exact hm)
  have hn : q.controllers = popc (bits q.milv.toNat 0 16) 16 := Nat.max_eq_left hpos
  rw [hn]
  obtain ⟨-, hbit⟩ := bit_nthSet (Nat.mod_lt ((pa - q.pmbase.toNat) / 2 ^ q.granShift) hpos)
  rw [bit, hmask, Nat.testBit_mod_two_pow, Bool.and_eq_true] at hbit
  rw [hmask]
  exact hbit.2

/-- At reset partition 0 holds every address of device memory, with all controllers in granules of 256 bytes. -/
theorem State.rangeOf_reset {pa : Nat} (h : pa < devLimit) : State.reset.rangeOf pa = some 0 := by
  have hlim : (State.reset.part 0).pmlim.toNat = devLimit := by decide
  have hbase : (State.reset.part 0).pmbase.toNat = 0 := by decide
  have hact : State.reset.active 0 = true := by decide
  refine List.find?_range_eq_some.mpr ⟨?_, by decide, fun q hq => absurd hq (Nat.not_lt_zero q)⟩
  simp [hlim, hbase, hact, h]
theorem State.interleave_reset {pa : Nat} (h : pa < devLimit) : State.reset.interleave pa = (pa / 256 % 16, pa / 256 / 16 * 256 + pa % 256) := by
  have hgran : (State.reset.part 0).granShift = 8 := by decide
  have hn : (State.reset.part 0).controllers = 16 := by decide
  have hloc : bits (State.reset.part 0).milv.toNat 24 16 = 0 := by decide
  have hbase : (State.reset.part 0).pmbase.toNat = 0 := by decide
  have hpick : ∀ i < 16, nthSet (bits (State.reset.part 0).milv.toNat 0 16) 16 i = i := by decide
  simp only [interleave_some (rangeOf_reset h), hgran, hn, hloc, hbase, hpick _ (Nat.mod_lt _ (by decide : 0 < 16)), Nat.sub_zero, Nat.zero_mul, Nat.zero_add]
  rfl

end Sys2Proof.Machine

/-- Settles O26: outside every range by the fixed interleave's arithmetic; within one, the granule and its turn are read back from the place. -/
theorem interleaveOfMemory : Obligations.InterleaveOfMemory :=
  ⟨fun _ _ => State.interleave_none, fun _ _ => State.cell_none, fun _ => State.interleave_reset, fun _ _ _ _ => State.interleave_inj,
    fun _ _ _ => State.interleave_mask, fun s pa p h => by
      obtain ⟨⟨hact, hlo, hhi⟩, hlow⟩ := State.rangeOf_some h
      exact ⟨hact, hlo, hhi, hlow⟩⟩

namespace Sys2Proof.Machine

/-! ### Home slices (R112, R384) -/

/-- A slice is one of the named home blocks' (R112). -/
theorem mem_homeSlices (homes sl : Nat) : sl ∈ homeSlices homes ↔ sl < 64 ∧ homes.testBit (sl / 32 * 2 + sl % 8 / 4) = true := by
  rw [homeSlices, List.mem_filter, List.mem_range, Nat.div_div_eq_div_mul]
  rfl

/-- Each home block has 16 slices. -/
theorem length_homeSlices : ∀ homes, homes < 16 → (homeSlices homes).length = 16 * popc homes 4 := by decide

/-- A choice modulo the number of slices, as a hash makes it for three blocks or for a power of two, picks one of them. -/
theorem getD_homeSlices_mem {homes : Nat} (hlt : homes < 16) (h0 : homes ≠ 0) (x y : Nat) :
    (homeSlices homes).getD (if popc homes 4 = 3 then x % 48 else y % (16 * max (popc homes 4) 1)) 0 ∈ homeSlices homes := by
  have hpos : 0 < popc homes 4 := popc_pos_of_ne_zero (by rwa [Nat.mod_eq_of_lt (b := 2 ^ 4) hlt])
  have hi : (if popc homes 4 = 3 then x % 48 else y % (16 * max (popc homes 4) 1)) < (homeSlices homes).length := by
    rw [length_homeSlices homes hlt]
    split
    · next h3 => rw [h3]; exact Nat.mod_lt _ (by decide)
    · rw [Nat.max_eq_left hpos]; exact Nat.mod_lt _ (by omega)
  rw [List.getD_eq_getElem _ _ hi]
  exact List.getElem_mem hi

theorem State.homeVa_mem {s : State} {p : Nat} (h : (s.part p).nbnd.toNat % 16 ≠ 0) (asid va : Nat) :
    s.homeVa p asid va ∈ homeSlices ((s.part p).nbnd.toNat % 16) := by
  rw [homeVa, bits_zero]
  exact getD_homeSlices_mem (Nat.mod_lt _ (by decide)) h _ _
theorem State.homeKey_mem {s : State} {p : Nat} (h : (s.part p).nbnd.toNat % 16 ≠ 0) (k : DWord) :
    s.homeKey p k ∈ homeSlices ((s.part p).nbnd.toNat % 16) := by
  rw [homeKey, bits_zero]
  exact getD_homeSlices_mem (Nat.mod_lt _ (by decide)) h _ _

end Sys2Proof.Machine

/-- Settles O28: both homes are picked by a number below the count of the slices. -/
theorem homeSlices : Obligations.HomeSlices :=
  ⟨mem_homeSlices, length_homeSlices, fun _ _ _ _ h => State.homeVa_mem h _ _, fun _ _ _ h => State.homeKey_mem h _⟩

namespace Sys2Proof.Machine

/-! ### Translation (R111, R202, R204, R207 to R209, Table 9.3) -/

/-- The rows of Table 9.3 about the access. -/
theorem Attr.allows_iff (a : Attr) (sys : Bool) (k : Acs) :
    a.allows sys k = true ↔ (a.sys = true → sys = true) ∧ (k = .write → a.w = true) ∧ (k = .fetch → a.x = true) := by
  cases k <;> cases ha : a.sys <;> cases sys <;> simp [allows, ha]

/-- A page of device memory that is no hand-off page lies in the partition's range whole (R111). -/
theorem State.frameOk_range {s : State} {p frame size : Nat} {a : Attr} (h : s.frameOk p frame size a = true) (hdev : frame < devLimit)
    (hhome : a.home ≠ 2#2) : (s.part p).pmbase.toNat ≤ frame ∧ frame + size ≤ (s.part p).pmlim.toNat := by
  simp only [frameOk, Bool.and_eq_true, Bool.or_eq_true, decide_eq_true_eq, Bool.not_eq_true', decide_eq_false_iff_not, beq_iff_eq] at h
  obtain ⟨-, (hfar | hhand) | hin⟩ := h
  · exact absurd hdev hfar
  · exact absurd hhand hhome
  · exact hin

/-- What a translation of a leaf that answers an address says. -/
theorem State.leaf_ok {s : State} {p va : Nat} {sys : Bool} {k : Acs} {x : Walked} {pa : Nat} {a : Attr} (h : s.leaf p va sys k x = .ok pa a) :
    ∃ frame size, x = .leaf frame size a ∧ pa = frame + va % size ∧ s.frameOk p frame size a = true ∧ a.allows sys k = true := by
  cases x with
  | leaf frame size b =>
    rw [leaf] at h
    split at h
    · next hok =>
      obtain ⟨rfl, rfl⟩ := Xlat.ok.inj h
      exact ⟨frame, size, rfl, rfl, Bool.and_eq_true_iff.mp hok⟩
    · cases h
  | fault => cases h
  | prot => cases h

theorem State.leaf_outside {s : State} {p frame size : Nat} {a : Attr} (hdev : frame < devLimit) (hhome : a.home ≠ 2#2)
    (hout : frame < (s.part p).pmbase.toNat ∨ (s.part p).pmlim.toNat < frame + size) (va : Nat) (sys : Bool) (k : Acs) :
    s.leaf p va sys k (.leaf frame size a) = .prot := by
  rw [leaf, if_neg]
  intro h
  obtain ⟨hlo, hhi⟩ := frameOk_range (Bool.and_eq_true_iff.mp h).1 hdev hhome
  omega

/-- A page that a walk finds is one of the three sizes (R206, R207). -/
theorem State.walkFrom_size {s : State} {va : Nat} : ∀ {n tab frame size : Nat} {a : Attr}, s.walkFrom va n tab = .leaf frame size a → 0 < size
  | 0, _, _, _, _, h => by cases h
  | n + 1, tab, frame, size, a, h => by
    rw [walkFrom] at h
    split at h
    · cases h
    · split at h
      · cases h
      · split at h
        · split at h
          · cases h; decide
          · split at h
            · split at h
              · cases h; decide
              · cases h
            · cases h
        · split at h
          · split at h
            · cases h; decide
            · cases h
          · split at h
            · cases h
            · split at h
              · exact walkFrom_size h
              · cases h
theorem State.walk_size {s : State} {asid va frame size : Nat} {a : Attr} (h : s.walk asid va = .leaf frame size a) : 0 < size := by
  rw [walk] at h
  dsimp only at h
  split at h
  · cases h
  · split at h
    · cases h
    · split at h
      · exact walkFrom_size h
      · cases h

/-- A lookaside entry that answers holds the address, so its page is not empty either. -/
theorem State.lookup_size {s : State} {p asid va frame size : Nat} {a : Attr} (h : s.lookup p asid va = .leaf frame size a) : 0 < size := by
  rw [lookup] at h
  split at h
  · next e he =>
    have hhit := List.find?_some he
    simp only [Bool.and_eq_true, decide_eq_true_eq] at hhit
    obtain ⟨⟨-, hlo⟩, hhi⟩ := hhit
    obtain ⟨-, rfl, -⟩ := Walked.leaf.inj h
    omega
  · exact walk_size h

/-- An address in device memory that a lookup answers lies in the partition's range. -/
theorem State.leaf_lookup_range {s : State} {p asid va : Nat} {sys : Bool} {k : Acs} {pa : Nat} {a : Attr}
    (h : s.leaf p va sys k (s.lookup p asid va) = .ok pa a) (hdev : pa < devLimit) (hhome : a.home ≠ 2#2) :
    (s.part p).pmbase.toNat ≤ pa ∧ pa < (s.part p).pmlim.toNat := by
  obtain ⟨frame, size, hx, rfl, hframe, -⟩ := leaf_ok h
  have hoff := Nat.mod_lt va (lookup_size hx)
  obtain ⟨hlo, hhi⟩ := frameOk_range hframe (by omega) hhome
  omega

/-- A directory entry that is not present is a cause of protection (R204). -/
theorem State.walk_absent {s : State} {asid : Nat} (h : s.entry (s.asidDir.toNat + 8 * asid) % 2 = 0) (va : Nat) : s.walk asid va = .prot := by
  have hv : bit (s.entry (s.asidDir.toNat + 8 * asid)) 0 = false := by simp [bit, Nat.testBit_zero, h]
  simp only [walk, hv, Bool.not_false, Bool.true_or, if_true, ite_self]

section
variable {s : State} {core : Option Nat} {p asid va : Nat} {sys : Bool} {k : Acs}

/-- The line that hits is one of the partition and the address space. -/
theorem State.tagLine_some {l : Line} (h : s.tagLine core p asid va = some l) : l.part = p ∧ l.asid = asid := by
  have hl := List.find?_some h
  simp only [Bool.and_eq_true, beq_iff_eq] at hl
  obtain ⟨⟨⟨⟨-, hpart⟩, hasid⟩, -⟩, -⟩ := hl
  exact ⟨hpart, hasid⟩

theorem State.translateBy_high (h : 2 ^ 48 ≤ va) : s.translateBy core p asid va sys k = .prot := if_pos h
theorem State.translateBy_miss (h : va < 2 ^ 48) (hl : s.tagLine core p asid va = none) :
    s.translateBy core p asid va sys k = s.leaf p va sys k (s.lookup p asid va) := by
  rw [translateBy, if_neg (Nat.not_le.mpr h), hl]
/-- An access that hits gets the line's address and what the line carries of its page, which allows it. -/
theorem State.translateBy_hit {l : Line} {pa : Nat} {a : Attr} (hl : s.tagLine core p asid va = some l) (h : s.translateBy core p asid va sys k = .ok pa a) :
    a = l.attr ∧ pa = l.pa + va % 256 ∧ a.allows sys k = true := by
  rw [translateBy, hl] at h
  split at h
  · cases h
  · dsimp only at h
    split at h
    · next hok =>
      obtain ⟨rfl, rfl⟩ := Xlat.ok.inj h
      exact ⟨rfl, rfl, hok⟩
    · cases h
end

end Sys2Proof.Machine

/-- Settles O27: what an answer of a leaf, a hit or a miss says, and what each cause of protection answers. -/
theorem translationStaysInRange : Obligations.TranslationStaysInRange := by
  intro s core p asid va sys k
  refine ⟨fun frame size a hdev hhome hout => State.leaf_outside hdev hhome hout va sys k, fun pa a h => ?_, State.translateBy_high, State.translateBy_miss,
    fun l pa a hl h => ?_, fun h => ?_, fun h => State.walk_absent h va⟩
  · obtain ⟨_, _, -, -, -, hallow⟩ := State.leaf_ok h
    obtain ⟨hsys, hw, hx⟩ := (Attr.allows_iff a sys k).mp hallow
    exact ⟨hsys, hw, hx, State.leaf_lookup_range h⟩
  · obtain ⟨hpart, hasid⟩ := State.tagLine_some hl
    obtain ⟨hattr, hpa, hallow⟩ := State.translateBy_hit hl h
    exact ⟨hpart, hasid, hattr, hpa, (Attr.allows_iff a sys k).mp hallow⟩
  · rw [State.lookup, h]

namespace Sys2Proof.Machine

/-! ### Reset (R102, R216, Tables 4.4, 5.1 and 16.3) -/

theorem State.part_reset {p : Nat} (hp : p < 4) : State.reset.part p = Part.reset p := by
  interval_cases p <;> rfl

/-- The registers that every partition has after reset, active or not. -/
theorem Part.reset_idle (p : Nat) : (Part.reset p).eseq = 1 ∧ (Part.reset p).tvec = 0 ∧ (Part.reset p).fqcfg = 0 ∧ (Part.reset p).cqcfg = 0 ∧
    (Part.reset p).eqcfg = 0 ∧ (Part.reset p).sltmo = 100000 ∧ (Part.reset p).queues.length = 64 ∧
    ∀ q ∈ (Part.reset p).queues, q.cfg = 0 ∧ q.idx = 0 ∧ q.stat = 0 := by
  refine ⟨rfl, rfl, rfl, rfl, rfl, rfl, List.length_replicate, fun q hq => ?_⟩
  rw [List.eq_of_mem_replicate hq]
  exact ⟨rfl, rfl, rfl⟩

end Sys2Proof.Machine

/-- Settles O23: the four partitions of the reset state are `Part.reset`, and only that of partition 0 holds anything. -/
theorem resetState : Obligations.ResetState := by
  refine ⟨⟨rfl, rfl, rfl, rfl, rfl⟩, ⟨rfl, rfl, rfl, rfl⟩, fun p hp => ?_, rfl, rfl, rfl, rfl, rfl, rfl, rfl, rfl, rfl⟩
  rw [State.part_reset hp]
  exact Part.reset_idle p

end

section
/-! PROOFS. Writes of system registers: CSRW in its three forms and the events by which it takes effect (R103, R104, R203, R404, R405, R417,
R421, Tables 5.2 to 5.8, 16.3, 17.2, 17.5 and 17.6). -/
open Sys2Proof Sys2Proof.Machine

namespace Sys2Proof.Machine
open Host (Outcome)

/-- Issue of CSRW in each form: it starts with what the write needs, and holds the wave (R421). -/
theorem csr_starts {i : Instr} {a : Opd} (he : ∀ s, exec i s = csrIssue i s a) :
    Starts i (fun _ _ => True) (fun _ c q => q.hold = true ∧ q.x = [c.w64 a (lowest c.lanes)] ∧ q.y = [c.firstClause] ∧
      q.z = [BitVec.ofNat 64 c.tm.reach]) :=
  starts_of fun s _ _ hp _ => ⟨_, _, rfl, (he s).trans (issue_ok hp rfl), rfl, rfl, rfl, rfl, rfl, rfl, rfl, rfl, rfl⟩

/-! ### The event of a CSRW -/

/-- The write of register `n` that waits as operation `q` in wave `w` of team `tag`, in which no trap waits to be taken. -/
structure State.Writing (s : State) (tag w id : Nat) (t : Team) (wv : Wave) (q : Pend) (n : Nat) : Prop where
  team : s.team? tag = some t
  wave : t.wave? w = some wv
  op : wv.pend? id = some q
  quiet : wv.trapQ = none
  csr : csrOf q.instr = some (n, true)

/-- The partition that the write reaches, and the value that it gives the register, from the one that stands (R421). -/
def Pend.csrPartition (q : Pend) : Nat := (q.z.headD 0).toNat
def State.csrValue (s : State) (t : Team) (wv : Wave) (q : Pend) (n : Nat) : DWord :=
  csrNew q.instr (s.regNow t wv q.csrPartition n) (q.x.headD 0)

/-- The state after the protection trap of the write (R104, R405). -/
def State.csrTrapped (s : State) (tag w id : Nat) (wv : Wave) (q : Pend) : State :=
  (s.updWave tag w (fun wv => { wv with pend := wv.pend.filter (·.id ≠ id) })).takeTrap tag w (wv.bundleOf id q.mask)
    { cause := 0x08, lanes := q.lanes, addr := q.site, region := q.y.headD 0, after := false, faddr := 0 }

/-- The event `ev` writes: the operation is pending no more, registers and predicates of the wave stand, and `R` holds. -/
def State.Wrote (s : State) (tag w id : Nat) (wv : Wave) (ev : Instr) (R : State → Wave → Prop) : Prop :=
  ∃ u v, exec ev s = .next u ∧ u.wave? tag w = some v ∧ wv.KeptRegs v ∧ wv.KeptPreds v ∧ v.pend = wv.pend.filter (·.id ≠ id) ∧ R u v

section
variable {s : State} {tag w id : Nat} {t : Team} {wv : Wave} {q : Pend} {n : Nat} (hp : s.Writing tag w id t wv q n)
variable {mn : String} {f : Nat → Bool} {k : Nat → Nat → DWord → Option State}
include hp

/-- A write that takes effect, or takes the trap, as `k` says. -/
theorem csrWrite_eq (hf : f n = true) (hrun : csrPart n = false ∨ s.rootHalt = false) : csrWrite mn s tag w id f k =
    .next ((k n q.csrPartition (s.csrValue t wv q n)).elim (s.csrTrapped tag w id wv q) (fun u => (u.finishPend tag w q [] 0).afterPend tag w)) := by
  have hgo : (!f n || (csrPart n && s.rootHalt)) = false := by rcases hrun with h | h <;> simp [hf, h]
  simp only [csrWrite, hp.team, State.wave?_of_team hp.team hp.wave, hp.op, hp.csr, hgo, Bool.false_eq_true, if_false]
  rw [State.csrValue, Pend.csrPartition]
  cases k n (q.z.headD 0).toNat (csrNew q.instr (s.regNow t wv (q.z.headD 0).toNat n) (q.x.headD 0)) with
  | none => rfl
  | some u => rfl

/-- A write of a partition register waits while the root core is halted (R417). -/
theorem csrWrite_halted {ev : Instr} (hn : csrPart n = true) (hr : s.rootHalt = true) (he : exec ev s = csrWrite mn s tag w id f k) :
    ∃ m, exec ev s = .refused (.notEnabled m) := by
  refine ⟨mn, he.trans ?_⟩
  simp only [csrWrite, hp.team, State.wave?_of_team hp.team hp.wave, hp.op, hp.csr, hn, hr, Bool.and_self, Bool.or_true, if_true]

/-- A write that takes effect in a state where the wave differs in `FMODE` and `FFLAGS` at most completes its operation there. -/
theorem csrWrite_wrote {ev : Instr} {u : State} {a b : DWord} {R : State → Wave → Prop} (he : exec ev s = csrWrite mn s tag w id f k) (hf : f n = true)
    (hrun : csrPart n = false ∨ s.rootHalt = false) (hk : k n q.csrPartition (s.csrValue t wv q n) = some u)
    (hw : u.wave? tag w = some { wv with fmode := a, fflags := b })
    (hR : ∀ v : Wave, v.fmode = a → v.fflags = b → R (u.finishPend tag w q [] 0) v) : s.Wrote tag w id wv ev R := by
  have hid : q.id = id := by simpa using List.find?_some hp.op
  have hdone : (u.finishPend tag w q [] 0).wave? tag w = some (Wave.finishPend { wv with fmode := a, fflags := b } u.free q [] 0) := by
    rw [State.wave?_finishPend, if_pos rfl, hw]; rfl
  have hafter := State.enterTrap_none _ _ _ _ hdone ((Wave.finishPend_trapQ ..).trans hp.quiet)
  refine ⟨u.finishPend tag w q [] 0, _, ?_, hdone, ⟨fun _ _ => rfl, fun _ => rfl, fun _ => rfl⟩, fun _ => rfl, hid ▸ rfl, hR _ rfl BitVec.or_zero⟩
  rw [he, csrWrite_eq hp hf hrun, hk]
  exact congrArg _ hafter

/-- A write of a reserved bit or value. -/
theorem csrWrite_traps {ev : Instr} (he : exec ev s = csrWrite mn s tag w id f k) (hf : f n = true) (hrun : csrPart n = false ∨ s.rootHalt = false)
    (hk : k n q.csrPartition (s.csrValue t wv q n) = none) : exec ev s = .next (s.csrTrapped tag w id wv q) := by
  rw [he, csrWrite_eq hp hf hrun, hk]; rfl
end

/-! ### Partition registers -/

/-- A partition register reads as what was written to it. -/
theorem Part.reg_setReg (q : Part) {n : Nat} (h : csrPart n = true) (x : DWord) : (q.setReg n x).reg n = x := by
  simp only [csrPart, Bool.and_eq_true, decide_eq_true_eq] at h
  obtain ⟨hlo, hhi⟩ := h
  interval_cases n <;> rfl
/-- The marks of a partition are none of its registers. -/
theorem Part.reg_moved (q : Part) (n : Nat) (b : Bool) : ({ q with moved := b } : Part).reg n = q.reg n := by
  unfold reg; split <;> rfl
theorem Part.reg_wild (q : Part) (n : Nat) (b : Bool) : ({ q with wild := b } : Part).reg n = q.reg n := by
  unfold reg; split <;> rfl

/-- From `s` to `u` register `n` of partition `p` got `x`, and every wave stands. -/
structure State.Sets (s u : State) (p n : Nat) (x : DWord) : Prop where
  waves : ∀ tag w, u.wave? tag w = s.wave? tag w
  reg : p < s.parts.length → (u.part p).reg n = x

/-- The teams stand, and no partition came or went. -/
def State.Stands (s u : State) : Prop := u.teams = s.teams ∧ u.parts.length = s.parts.length

/-- A change of the register after work that leaves the teams alone. -/
theorem State.Stands.sets {s v : State} (h : s.Stands v) {p n : Nat} {x : DWord} {f : Part → Part} (hf : ∀ q, (f q).reg n = x) :
    s.Sets (v.updPart p f) p n x where
  waves tag w := by
    have hteams : (v.updPart p f).teams = s.teams := h.1
    rw [wave?, wave?, team?, team?, hteams]
  reg hp := by rw [part_updPart_self (h.2 ▸ hp), hf]

theorem State.wave?_mapTeams {s u : State} (f : Team → Team) (hu : u.teams = s.teams.map f) (hf : ∀ t, (f t).tag = t.tag ∧ (f t).waves = t.waves)
    (tag w : Nat) : u.wave? tag w = s.wave? tag w := by
  have ht : u.team? tag = (s.team? tag).map f := by simp only [team?, hu, List.find?_map, Function.comp_def, (hf _).1]
  rw [wave?, wave?, ht]
  cases s.team? tag with
  | none => rfl
  | some t => exact congrArg (List.find? _) (hf t).2

/-- What teams may lose by a write that breaks R106 is none of their waves, and no register of the partition. -/
theorem State.Sets.disturb {s u : State} {p n : Nat} {x : DWord} (h : s.Sets u p n x) : s.Sets (u.disturb p) p n x := by
  unfold State.disturb
  split
  · refine ⟨fun tag w => ?_, fun hp => ?_⟩
    · exact (wave?_mapTeams (s := u) _ rfl (fun t => by split <;> exact ⟨rfl, rfl⟩) tag w).trans (h.waves tag w)
    · have hreg : ((u.updPart p (fun q => { q with wild := true })).part p).reg n = (u.part p).reg n := by
        rw [part_updPart]
        split
        · exact Part.reg_wild _ _ _
        · rfl
      exact hreg.trans (h.reg hp)
  · exact h

/-! ### What the spill of a partition's keys keeps -/

/-- A property that accesses keep, and changes of partitions, keys and interrupts. -/
structure SpillKeeps (P : State → Prop) : Prop extends CacheKeeps P where
  part : ∀ s p f, P s → P (s.updPart p f)
  keys : ∀ (s : State) l, P s → P { s with keys := l }
  msix : ∀ (s : State) l m, P s → P { s with msixPend := l, msgs := m }

theorem State.stands_spill (s : State) : SpillKeeps s.Stands where
  put := fun _ _ _ h => h
  lose := fun _ _ _ h => by
    unfold State.memLose
    split
    · exact h
    · exact h
  bad := fun _ _ _ h => h
  lines := fun _ _ h => h
  stamp := fun _ _ h => h
  upds := fun _ _ h => h
  due := fun _ _ h => h
  ats := fun _ _ h => h
  tlb := fun _ _ _ h => h
  spill := fun _ _ h => h
  part := fun _ _ _ h => ⟨h.1, (List.length_modify ..).trans h.2⟩
  keys := fun _ _ h => h
  msix := fun _ _ _ h => h

namespace SpillKeeps
variable {P : State → Prop} (h : SpillKeeps P)
include h

theorem postError (s : State) (q : Nat) (e : ErrRec) (p : P s) : P (s.postError q e) := by
  have hring (s : State) (en lo : Nat) (p : P s) : P (s.ringMsix q en lo) := by
    unfold State.ringMsix State.sendMsix
    dsimp only
    split
    · split
      · exact p
      · split
        · exact h.msix s _ s.msgs p
        · exact h.msix s s.msixPend _ p
    · exact p
  unfold State.postError
  dsimp only
  split
  · exact h.part _ _ _ p
  · split
    · exact h.part _ _ _ p
    · next hw => exact hring _ _ _ (h.part _ _ _ (h.part _ _ _ (h.toCacheKeeps.writeVia _ _ _ _ _ _ _ _ p hw)))
/-- A spill reads and writes the bucket of its key through the caches. -/
theorem bucketTouch (s : State) (q : Nat) (k : DWord) (p : P s) : P (s.bucketTouch q k) := by
  unfold State.bucketTouch
  split
  · exact p
  · exact h.toCacheKeeps.touch _ _ _ _ _ _ _ _ _ p
theorem bucketWrite {s u : State} {q : Nat} {k : DWord} {j o : Nat} {bs : List Byte} (p : P s) (hw : s.bucketWrite q k j o bs = .ok u) : P u := by
  unfold State.bucketWrite State.writeVa at hw
  exact h.toCacheKeeps.writeVia _ _ _ _ _ _ _ _ p hw
/-- The read and the write of the bucket stand as names: the kernel must not evaluate the hash of a key. -/
theorem spillKey {s u : State} {e : KeyEnt} (p : P s) (hs : s.spillKey e = .ok u) : P u := by
  rw [State.spillKey] at hs
  obtain ⟨R, hR⟩ : ∃ R, R = State.bucketRead := ⟨_, rfl⟩
  obtain ⟨W, hW⟩ : ∃ W, W = State.bucketWrite := ⟨_, rfl⟩
  rw [← hR, ← hW] at hs
  split at hs
  · cases hs
  · split at hs
    · cases hs
    · split at hs
      · cases hs
      · split at hs
        · cases hs
        · next hw =>
          rw [hW] at hw
          cases hs
          exact h.keys _ _ (h.part _ _ _ (h.bucketWrite (h.bucketTouch _ _ _ p) hw))
theorem spillAll (s : State) (q : Nat) (p : P s) : P (s.spillAll q) := by
  unfold State.spillAll
  refine foldl_keeps P _ (fun s e p => ?_) _ _ p
  dsimp only
  split
  · exact h.keys _ _ p
  · split
    · exact h.keys _ _ p
    · split
      · next hs => exact h.spillKey p hs
      · exact h.postError _ _ _ (h.keys _ _ p)
end SpillKeeps

theorem State.stands_refl (s : State) : s.Stands s := ⟨rfl, rfl⟩

/-! ### The registers, one event each -/

/-- `PCAP` with `SEL` of a value (Table 5.8). -/
def Team.select (x : DWord) (t : Team) : Team := { t with pcap := (t.pcap &&& ~~~(3#64)) ||| (x &&& 3) }

theorem exec_fmodeWrite (tag w id : Nat) (s : State) : exec (.fmodeWrite tag w id) s =
    csrWrite "FMODE_WRITE" s tag w id (· == 0) (fun _ _ x => some (s.updWave tag w (fun wv => { wv with fmode := x &&& 3 }))) := rfl
theorem exec_fflagsWrite (tag w id : Nat) (s : State) : exec (.fflagsWrite tag w id) s =
    csrWrite "FFLAGS_WRITE" s tag w id (· == 1) (fun _ _ x => some (s.updWave tag w (fun wv => { wv with fflags := x &&& 0xFF }))) := rfl
theorem exec_asidvWrite (tag w id : Nat) (s : State) : exec (.asidvWrite tag w id) s =
    csrWrite "ASIDV_WRITE" s tag w id (· == 0x11) (fun _ _ x => some { s with asidDir := x &&& 0x00000FFFFFF80000 }) := rfl
theorem exec_pcapWrite (tag w id : Nat) (s : State) : exec (.pcapWrite tag w id) s =
    csrWrite "PCAP_WRITE" s tag w id (· == 0x12) (fun _ _ x => if bits x.toNat 8 55 ≠ 0 ∨ bits x.toNat 2 2 ≠ 0 then none
      else some (s.updTeam tag (Team.select x))) := rfl
theorem exec_pqmaskWrite (tag w id : Nat) (s : State) : exec (.pqmaskWrite tag w id) s =
    csrWrite "PQMASK_WRITE" s tag w id (· == 0x20) (fun n p x =>
      if x.toNat ≥ 16 ∨ popc x.toNat 4 = 3 ∨ (x &&& s.quartersOff.setWidth 64) ≠ 0
        ∨ (List.range 4).any (fun o => o ≠ p && ((s.part o).pqmask &&& x) ≠ 0)
      then none else some ((s.updPart p (·.setReg n x)).disturb p)) := rfl
theorem exec_pwaysWrite (tag w id : Nat) (s : State) : exec (.pwaysWrite tag w id) s =
    csrWrite "PWAYS_WRITE" s tag w id (· == 0x21) (fun n p x => if x.toNat ≥ 2 ^ 16 then none
      else some ((s.dropLines (fun l => l.loc.rank == 2 && !l.byPa && l.part == p && ((s.part p).pways &&& ~~~x).getLsbD l.way)).updPart p
        (·.setReg n x))) := rfl
theorem exec_nbndWrite (tag w id : Nat) (s : State) : exec (.nbndWrite tag w id) s =
    csrWrite "NBND_WRITE" s tag w id (· == 0x26) (fun n p x => if bits x.toNat 4 4 ≠ 0 ∨ bits x.toNat 12 52 ≠ 0 then none
      else some (((s.spillAll p).updPart p (·.setReg n x)).disturb p)) := rfl
theorem exec_prsvWrite (tag w id : Nat) (s : State) : exec (.prsvWrite tag w id) s =
    csrWrite "PRSV_WRITE" s tag w id (· == 0x27) (fun n p x => some (s.updPart p (·.setReg n x))) := rfl
theorem exec_energyWrite (tag w id : Nat) (s : State) : exec (.energyWrite tag w id) s =
    csrWrite "ENERGY_WRITE" s tag w id (· == 0x29) (fun n p x => if bits x.toNat 60 4 ≠ 0 then none else some (s.updPart p (·.setReg n x))) := rfl
theorem exec_registerWrite_csr (tag w id : Nat) (v : BitVec 64) (s : State) : exec (.registerWrite (.csr tag w id) v) s =
    csrWrite "REGISTER_WRITE" s tag w id csrPlain (fun n p x => if csrPlainBad n x then none else some (s.plainWrite n p x)) := rfl

/-! The reserved bits and values of the registers whose CSRW is a REGISTER_WRITE (Tables 5.4 to 5.6, 16.3, 17.5, 17.6). -/
theorem csrPlainBad_pbws (x : DWord) : csrPlainBad 0x22 x = true ↔ 64 < x.toNat := decide_eq_true_iff
theorem csrPlainBad_pmbase (x : DWord) : csrPlainBad 0x23 x = true ↔ bits x.toNat 44 20 ≠ 0 ∨ bits x.toNat 0 16 ≠ 0 := by simp [csrPlainBad]
theorem csrPlainBad_pmlim (x : DWord) : csrPlainBad 0x24 x = true ↔ bits x.toNat 44 20 ≠ 0 ∨ bits x.toNat 0 16 ≠ 0 := csrPlainBad_pmbase x
theorem csrPlainBad_milv (x : DWord) : csrPlainBad 0x25 x = true ↔
    bits x.toNat 40 24 ≠ 0 ∨ bits x.toNat 20 4 ≠ 0 ∨ 9 < bits x.toNat 16 4 ∨ popc x.toNat 16 ∉ [0, 1, 2, 4, 8, 16] := by
  simp [csrPlainBad, or_assoc]
theorem csrPlainBad_prgn (x : DWord) : csrPlainBad 0x28 x = true ↔ False := by simp [csrPlainBad]
theorem csrPlainBad_sltmo (x : DWord) : csrPlainBad 0x2A x = true ↔ bits x.toNat 32 32 ≠ 0 := decide_eq_true_iff
theorem csrPlainBad_tvec (x : DWord) : csrPlainBad 0x2B x = true ↔ bits x.toNat 48 16 ≠ 0 ∨ bits x.toNat 1 2 ≠ 0 := by simp [csrPlainBad]
theorem csrPlainBad_tsave (x : DWord) : csrPlainBad 0x2C x = true ↔ bits x.toNat 48 16 ≠ 0 ∨ bits x.toNat 0 12 ≠ 0 := by simp [csrPlainBad]

/-- The register of partition `p` got `x`, and the registers of the wave stand. -/
def State.RegWritten (s : State) (wv : Wave) (p n : Nat) (x : DWord) (u : State) (v : Wave) : Prop :=
  v.fmode = wv.fmode ∧ v.fflags = wv.fflags ∧ (p < s.parts.length → (u.part p).reg n = x)

/-- The write of a partition register takes the protection trap when the value is `bad`, and takes effect when it is not. -/
def State.WritesReg (s : State) (tag w id : Nat) (t : Team) (wv : Wave) (q : Pend) (n : Nat) (ev : Instr) (bad : Prop) : Prop :=
  (bad → exec ev s = .next (s.csrTrapped tag w id wv q)) ∧
    (¬bad → s.Wrote tag w id wv ev (s.RegWritten wv q.csrPartition n (s.csrValue t wv q n)))

section
variable {s : State} {tag w id : Nat} {t : Team} {wv : Wave} {q : Pend} {n : Nat} (hp : s.Writing tag w id t wv q n)
include hp

/-- The general case: the event's effect is refused exactly for a bad value, and else sets the register. -/
theorem csrWrite_reg {mn : String} {f : Nat → Bool} {k : Nat → Nat → DWord → Option State} {ev : Instr} {bad : Prop}
    (he : exec ev s = csrWrite mn s tag w id f k) (hf : f n = true) (hr : s.rootHalt = false)
    (hbad : bad → k n q.csrPartition (s.csrValue t wv q n) = none)
    (hok : ¬bad → ∃ u, k n q.csrPartition (s.csrValue t wv q n) = some u ∧ s.Sets u q.csrPartition n (s.csrValue t wv q n)) :
    s.WritesReg tag w id t wv q n ev bad := by
  refine ⟨fun h => csrWrite_traps hp he hf (.inr hr) (hbad h), fun h => ?_⟩
  obtain ⟨u, hk, hset⟩ := hok h
  exact csrWrite_wrote hp (a := wv.fmode) (b := wv.fflags) he hf (.inr hr) hk ((hset.waves tag w).trans (State.wave?_of_team hp.team hp.wave))
    (fun v ha hb => ⟨ha, hb, hset.reg⟩)

/-- FMODE, FFLAGS and ASIDV take any value; of it the bits that the register has (R160, R203). -/
theorem fmode_written (hn : n = 0) :
    s.Wrote tag w id wv (.fmodeWrite tag w id) (fun _ v => v.fmode = s.csrValue t wv q n &&& 3 ∧ v.fflags = wv.fflags) := by
  subst hn
  exact csrWrite_wrote hp (exec_fmodeWrite tag w id s) rfl (.inl rfl) rfl (b := wv.fflags)
    (State.wave?_updWave_of (State.wave?_of_team hp.team hp.wave) (fun _ => rfl)) (fun _ ha hb => ⟨ha, hb⟩)
theorem fflags_written (hn : n = 1) :
    s.Wrote tag w id wv (.fflagsWrite tag w id) (fun _ v => v.fflags = s.csrValue t wv q n &&& 0xFF ∧ v.fmode = wv.fmode) := by
  subst hn
  exact csrWrite_wrote hp (exec_fflagsWrite tag w id s) rfl (.inl rfl) rfl (a := wv.fmode)
    (State.wave?_updWave_of (State.wave?_of_team hp.team hp.wave) (fun _ => rfl)) (fun _ ha hb => ⟨hb, ha⟩)
theorem asidv_written (hn : n = 0x11) :
    s.Wrote tag w id wv (.asidvWrite tag w id) (fun u _ => u.asidDir = s.csrValue t wv q n &&& 0x00000FFFFFF80000) := by
  subst hn
  exact csrWrite_wrote hp (exec_asidvWrite tag w id s) rfl (.inl rfl) rfl (a := wv.fmode) (b := wv.fflags)
    (State.wave?_of_team hp.team hp.wave) (fun _ _ _ => rfl)

/-- PCAP takes `SEL`, unless a reserved bit is written (R103). -/
theorem pcap_written (hn : n = 0x12) (hres : bits (s.csrValue t wv q n).toNat 8 55 = 0) (hmid : bits (s.csrValue t wv q n).toNat 2 2 = 0) :
    s.Wrote tag w id wv (.pcapWrite tag w id) (fun u _ => (u.team? tag).map (·.pcap) = some ((t.pcap &&& ~~~3#64) ||| (s.csrValue t wv q n &&& 3))) := by
  subst hn
  have hteam : (s.updTeam tag (Team.select (s.csrValue t wv q 0x12))).team? tag = some (t.select (s.csrValue t wv q 0x12)) := by
    rw [State.team?_updTeam s tag tag (Team.select _) (fun _ => rfl), if_pos rfl, hp.team]; rfl
  refine csrWrite_wrote hp (exec_pcapWrite tag w id s) rfl (.inl rfl) (if_neg (by simp [hres, hmid])) (a := wv.fmode) (b := wv.fflags)
    (State.wave?_of_team hteam hp.wave) (fun _ _ _ => ?_)
  rw [State.team?_finishPend, if_pos rfl, hteam]; rfl
theorem pcap_traps (hn : n = 0x12) (hres : bits (s.csrValue t wv q n).toNat 8 55 ≠ 0 ∨ bits (s.csrValue t wv q n).toNat 2 2 ≠ 0) :
    exec (.pcapWrite tag w id) s = .next (s.csrTrapped tag w id wv q) := by
  subst hn
  exact csrWrite_traps hp (exec_pcapWrite tag w id s) rfl (.inl rfl) (if_pos hres)

section
variable (hr : s.rootHalt = false)
include hr

/-- PQMASK_WRITE (R104, R435). -/
theorem pqmask_writes (hn : n = 0x20) : s.WritesReg tag w id t wv q n (.pqmaskWrite tag w id)
    (16 ≤ (s.csrValue t wv q n).toNat ∨ popc (s.csrValue t wv q n).toNat 4 = 3 ∨ s.csrValue t wv q n &&& s.quartersOff.setWidth 64 ≠ 0 ∨
      ∃ o, o < 4 ∧ o ≠ q.csrPartition ∧ (s.part o).pqmask &&& s.csrValue t wv q n ≠ 0) := by
  subst hn
  have hany : (List.range 4).any (fun o => o ≠ q.csrPartition && ((s.part o).pqmask &&& s.csrValue t wv q 0x20) ≠ 0) = true ↔
      ∃ o, o < 4 ∧ o ≠ q.csrPartition ∧ (s.part o).pqmask &&& s.csrValue t wv q 0x20 ≠ 0 := by
    simp only [List.any_eq_true, List.mem_range, Bool.and_eq_true, decide_eq_true_eq]
  rw [← hany]
  exact csrWrite_reg hp (exec_pqmaskWrite tag w id s) rfl hr (fun h => if_pos h)
    (fun h => ⟨_, if_neg h, (s.stands_refl.sets (fun r => r.reg_setReg rfl _)).disturb⟩)
/-- PWAYS_WRITE, whose lines leave before it takes effect (R106). -/
theorem pways_writes (hn : n = 0x21) : s.WritesReg tag w id t wv q n (.pwaysWrite tag w id) (2 ^ 16 ≤ (s.csrValue t wv q n).toNat) := by
  subst hn
  exact csrWrite_reg hp (exec_pwaysWrite tag w id s) rfl hr (fun h => if_pos h)
    (fun h => ⟨_, if_neg h, (s.stands_spill.dropLines s _ s.stands_refl).sets (fun r => r.reg_setReg rfl _)⟩)
/-- NBND_WRITE, before which the partition's keys are spilled (R388). -/
theorem nbnd_writes (hn : n = 0x26) : s.WritesReg tag w id t wv q n (.nbndWrite tag w id)
    (bits (s.csrValue t wv q n).toNat 4 4 ≠ 0 ∨ bits (s.csrValue t wv q n).toNat 12 52 ≠ 0) := by
  subst hn
  exact csrWrite_reg hp (exec_nbndWrite tag w id s) rfl hr (fun h => if_pos h)
    (fun h => ⟨_, if_neg h, ((s.stands_spill.spillAll s _ s.stands_refl).sets (fun r => r.reg_setReg rfl _)).disturb⟩)
theorem prsv_writes (hn : n = 0x27) : s.WritesReg tag w id t wv q n (.prsvWrite tag w id) False := by
  subst hn
  exact csrWrite_reg hp (exec_prsvWrite tag w id s) rfl hr False.elim (fun _ => ⟨_, rfl, s.stands_refl.sets (fun r => r.reg_setReg rfl _)⟩)
theorem energy_writes (hn : n = 0x29) : s.WritesReg tag w id t wv q n (.energyWrite tag w id) (bits (s.csrValue t wv q n).toNat 60 4 ≠ 0) := by
  subst hn
  exact csrWrite_reg hp (exec_energyWrite tag w id s) rfl hr (fun h => if_pos h)
    (fun h => ⟨_, if_neg h, s.stands_refl.sets (fun r => r.reg_setReg rfl _)⟩)

/-- The registers whose CSRW is a REGISTER_WRITE. -/
theorem plain_writes {bad : Prop} (hn : csrPlain n = true) (hpart : csrPart n = true)
    (hbad : csrPlainBad n (s.csrValue t wv q n) = true ↔ bad) : s.WritesReg tag w id t wv q n (.registerWrite (.csr tag w id) 0) bad := by
  rw [← hbad]
  refine csrWrite_reg hp (exec_registerWrite_csr tag w id 0 s) hn hr (fun h => if_pos h) (fun h => ⟨_, if_neg h, ?_⟩)
  unfold State.plainWrite
  split
  · exact (s.stands_refl.sets (fun r => (Part.reg_moved _ _ _).trans (r.reg_setReg hpart _))).disturb
  · exact s.stands_refl.sets (fun r => r.reg_setReg hpart _)
end

theorem part_waits (hn : csrPart n = true) (hr : s.rootHalt = true) : ∀ ev ∈ [Instr.pqmaskWrite tag w id, .pwaysWrite tag w id, .nbndWrite tag w id,
    .prsvWrite tag w id, .energyWrite tag w id, .registerWrite (.csr tag w id) 0], ∃ m, exec ev s = .refused (.notEnabled m) := by
  simp only [List.forall_mem_cons, List.not_mem_nil, false_imp_iff, implies_true, and_true]
  exact ⟨csrWrite_halted hp hn hr (exec_pqmaskWrite tag w id s), csrWrite_halted hp hn hr (exec_pwaysWrite tag w id s),
    csrWrite_halted hp hn hr (exec_nbndWrite tag w id s), csrWrite_halted hp hn hr (exec_prsvWrite tag w id s),
    csrWrite_halted hp hn hr (exec_energyWrite tag w id s), csrWrite_halted hp hn hr (exec_registerWrite_csr tag w id 0 s)⟩

end

end Sys2Proof.Machine

/-- Settles O47: each event is one `csrWrite`, refused exactly for the reserved values of its register. -/
theorem systemRegisterWrites : Obligations.SystemRegisterWrites := by
  refine ⟨fun h a reg i hi => ?_, fun s tag w id t wv q n ht hw hq hquiet hcsr => ?_⟩
  · simp only [List.mem_cons, List.not_mem_nil, or_false] at hi
    obtain rfl | rfl | rfl := hi
    · exact csr_starts (fun _ => rfl)
    · exact csr_starts (fun _ => rfl)
    · exact csr_starts (fun _ => rfl)
  · have hp : s.Writing tag w id t wv q n := ⟨ht, hw, hq, hquiet, hcsr⟩
    refine ⟨fmode_written hp, fflags_written hp, asidv_written hp, pcap_written hp, pcap_traps hp, fun hlo hhi => part_waits hp ?part, fun hr =>
      ⟨pqmask_writes hp hr, pways_writes hp hr, nbnd_writes hp hr, prsv_writes hp hr, energy_writes hp hr, ?pbws,
        ?range, ?milv, ?prgn, ?sltmo, ?tvec, ?tsave⟩⟩
    case part => simp [csrPart, hlo, hhi]
    case pbws => rintro rfl; exact plain_writes hp hr rfl rfl (csrPlainBad_pbws _)
    case range =>
      rintro (rfl | rfl)
      · exact plain_writes hp hr rfl rfl (csrPlainBad_pmbase _)
      · exact plain_writes hp hr rfl rfl (csrPlainBad_pmlim _)
    case milv => rintro rfl; exact plain_writes hp hr rfl rfl (csrPlainBad_milv _)
    case prgn => rintro rfl; exact plain_writes hp hr rfl rfl (csrPlainBad_prgn _)
    case sltmo => rintro rfl; exact plain_writes hp hr rfl rfl (csrPlainBad_sltmo _)
    case tvec => rintro rfl; exact plain_writes hp hr rfl rfl (csrPlainBad_tvec _)
    case tsave => rintro rfl; exact plain_writes hp hr rfl rfl (csrPlainBad_tsave _)

end

section
/-! PROOFS. Moves and selects, special functions at issue, and LOOP, LEXIT, JOIN and WAIT (R130, R134, R146 to R148, R151, R153 to R156, R186). -/
open Sys2Proof Sys2Proof.Machine

namespace Sys2Proof.Machine

/-! ### Special functions -/

/-- An operand that Table 7.9 does not list gets one of the values within the bound of Table 7.8, with NX (R186, R187). -/
theorem fSfu_mem {fn rm : Nat} {x : Word} (hs : sfuSpecial fn (f32 x) = none) (hne : sfuValues fn x ≠ []) :
    (fSfu fn rm x).word ∈ sfuValues fn x ∧ (fSfu fn rm x).fl = fNX := by
  have hlt : Config.sfu fn rm x % (sfuValues fn x).length < (sfuValues fn x).length := Nat.mod_lt _ (List.length_pos_of_ne_nil hne)
  simp only [fSfu, hs, FR.word, BitVec.ofNat_toNat, BitVec.setWidth_eq, and_true]
  rw [List.getD_eq_getElem _ _ hlt]
  exact List.getElem_mem hlt

/-- The count of a bundle's threads, as the model's population count. -/
theorem popc_lanes (m : Lanes) : popc m.toNat 32 = (List.range 32).countP (fun l => m.getLsbD l) := by
  rw [popc_eq_length, setBits, List.countP_eq_length_filter]; rfl

/-- The pending operation of an SFU instruction: its results and flags are known at issue (R186). -/
def Ctx.sfuPend (c : Ctx) (i : Instr) (d a : Opd) (f : Ctx → Word → FR) : Pend :=
  { c.pend i (match d with | .s _ => [c.ownRid] | _ => c.rids) with
    wr := c.dst d (fun l => (f c (c.fp a l)).word), flags := c.flags d (fun l => (f c (c.fp a l)).fl)
    lfl := match d with | .s _ => [] | _ => byLane (fun l => (f c (c.fp a l)).fl) }

theorem State.start_sfuBusy (s : State) (c : Ctx) (q : Pend) : (s.start c q).sfuBusy = s.sfuBusy := by
  unfold State.start; split <;> rfl
theorem State.settle_sfuBusy (s : State) (tag w : Nat) : (s.settle tag w).sfuBusy = s.sfuBusy := rfl

/-- An SFU instruction that issues takes its core's SFU, for a cycle or for two (R130). -/
theorem sfu_taken {s s' : State} {i : Instr} {c : Ctx} (hp : s.pre i = .go c s') (hi : isSfu i = true) :
    ∃ x ∈ (s'.advance c i).sfuBusy, x.core = c.tm.core ∧ x.pipe = c.wv.pipe ∧
      x.till = s.cycle + if (List.range 32).countP (fun l => c.b.mask.getLsbD l) ≤ 16 then 1 else 2 := by
  have hcyc : s'.cycle = s.cycle := by
    obtain ⟨g, e⟩ := (pre_go s i c s' hp).pops.rest
    calc s'.cycle = s'.sansCache.cycle := rfl
      _ = s.cycle := by rw [e]; rfl
  refine ⟨{ core := c.tm.core, pipe := c.wv.pipe, till := s'.cycle + if popc c.b.mask.toNat 32 ≤ 16 then 1 else 2 }, ?_, rfl, rfl, ?_⟩
  · simp only [State.advance, State.sfuTake, hi, if_true]
    exact List.mem_append_right _ (List.mem_singleton.2 rfl)
  · rw [hcyc, popc_lanes]

section
variable {i : Instr} {d a : Opd} {f : Ctx → Word → FR} (he : ∀ s, exec i s = sfuOp i s d a f)
include he

/-- The state after an SFU instruction has issued. -/
theorem sfuOp_go {s s' : State} {c : Ctx} (hp : s.pre i = .go c s') :
    exec i s = .next (((s'.advance c i).start c (c.sfuPend i d a f)).settle c.tag c.w) := (he s).trans (issue_ok hp rfl)

/-- An SFU instruction starts one pending operation with its results and flags (R134, R186). -/
theorem sfuOp_starts : Starts i (fun _ _ => True) (fun _ c q => q.wr = wr1 c.lanes d (fun l => (f c (c.fp a l)).word) ∧
    q.flags = c.flags d (fun l => (f c (c.fp a l)).fl)) :=
  starts_of fun _ c _ hp _ => ⟨_, c.sfuPend i d a f, rfl, sfuOp_go he hp, rfl, rfl, rfl, rfl, rfl, rfl, rfl⟩
end

/-! ### LOOP, LEXIT, JOIN and WAIT -/

/-- `Wave.Quiet` does not look at threads, loops, marks of joining slices or waits on event counters. -/
theorem Wave.Quiet.control {a b : Wave} (h : a.Quiet b) (x : List Thread) (y : List Loop) (z : Slices) (n : Option (BitVec 8 × Nat)) :
    a.Quiet { b with thr := x, loops := y, joining := z, waitCnt := n } where
  regs := ⟨h.regs.v, h.regs.s, h.regs.lc⟩
  preds := h.preds
  fflags := h.fflags
  pend := h.pend
  ev := h.ev

/-- An instruction whose effect changes the issuing wave by `f`, after the bookkeeping of its issue. -/
theorem onWave_of {i : Instr} {P : State → Ctx → Prop} (k : Ctx → State → Except Stop State) (f : Ctx → Wave → Wave) (he : ∀ s, exec i s = issue i s k)
    (hk : ∀ s c, P s c → ∀ u, k c u = .ok (u.onWave c (f c))) (hf : ∀ c x, (f c x).ix = x.ix) {R : State → Ctx → Wave → Prop}
    (hR : ∀ s c s' age, s.pre i = .go c s' → P s c → R s c (f c { c.advance i c.wv with age := age })) : ActsIf i P R := by
  intro s c s' hp hP
  obtain ⟨t, age, ht, hw⟩ := issue_updWave i s k f c s' hp (hk s c hP _) (hf c)
  exact ⟨t, _, (he s).trans ht, hw, hR s c s' age hp hP⟩

/-- A thread that an effect changes, after the bookkeeping of the issue. -/
theorem Ctx.advance_mapThr (c : Ctx) (i : Instr) (age : Sparse Nat) (m : Lanes) (g : Nat → Thread → Thread) {n : Nat} (hn : n < c.wv.thr.length)
    (hm : m.getLsbD n = true) :
    (({ c.advance i c.wv with age := age } : Wave).mapThr m g).thread n = g n ((c.advance i c.wv).thread n) := by
  rw [Wave.mapThr_thread _ _ _ (by rw [c.advance_thr_length]; exact hn), if_pos hm]
  rfl

/-- LOOP may push an entry (R147): END after START, room on the stack, and a counter that no entry uses. -/
def Ctx.LoopOk (c : Ctx) (k : Fin 3) (off : BitVec 32) : Prop :=
  (c.next.toNat : Int) < c.b.h.toNat + 8 * off.toInt ∧ c.wv.loops.length < 3 ∧ ∀ e ∈ c.wv.loops, e.k ≠ k.val

/-- What stops LOOP holds of whatever is no good body, stack or counter. -/
theorem Ctx.loopBad_of {c : Ctx} {k : Fin 3} {off : BitVec 32} (h : ¬c.LoopOk k off) : c.loopBad (.lc k) off = true := by
  by_contra hb
  simp only [loopBad, Bool.or_eq_true, decide_eq_true_eq, List.any_eq_true, beq_iff_eq, Opd.lc.injEq, not_or, not_le, not_exists, not_and, ge_iff_le] at hb
  obtain ⟨⟨hbody, hroom⟩, hfree⟩ := hb
  refine h ⟨hbody, by omega, fun e he hk => hfree e he ?_⟩
  apply Fin.ext
  rw [hk, Fin.val_ofNat, Nat.mod_eq_of_lt k.isLt]

/-- The stack has room where LOOP is legal (R147). -/
theorem loop_room {c : Ctx} {h : Hdr} {d : Opd} {off : BitVec 32} (hl : c.illegal (.loop h d off) = false) : c.wv.loops.length < 3 := by
  simp only [Ctx.illegal, Ctx.loopBad, Bool.or_eq_false_iff, decide_eq_false_iff_not, not_le] at hl
  obtain ⟨-, ⟨-, hroom⟩, -⟩ := hl
  exact hroom

theorem illegal_loop {c : Ctx} (h : Hdr) {d : Opd} {off : BitVec 32} (hb : c.loopBad d off = true) : c.illegal (.loop h d off) = true := by
  simp only [Ctx.illegal, hb, Bool.or_true]
theorem illegal_lexit {c : Ctx} (h : Hdr) (off : BitVec 32) (hl : c.wv.loops = []) : c.illegal (.lexit h off) = true := by
  simp only [Ctx.illegal, hl, beq_self_eq_true, Bool.or_true]

/-- An illegal instruction takes trap 0x01 at its own word, before any later check (R72). -/
theorem exec_illegal {s : State} {i : Instr} {c : Ctx} (hc : s.ctx? i = some c) (may : c.MayIssue s) (h : c.illegal i = true) :
    exec i s = .next (s.takeTrap c.tag c.w c.b.mask
      { cause := 0x01, lanes := c.lanes, addr := c.site, region := c.firstClause, after := false, faddr := 0 }) :=
  exec_stop hc (pre_illegal hc may h)

/-- LOOP enters its body: the bundle stands at START, each of its threads a member of the new entry (R147). -/
def Wave.pushLoop (wv : Wave) (m : Lanes) (ls : List Loop) (e : Loop) : Wave :=
  { wv.mapThr m (fun _ t => { t with pc := e.start, mem := t.mem ||| (1#3 <<< ls.length) }) with loops := ls ++ [e] }

/-- What LOOP does past its checks (R147). -/
def loopEffect (k : Nat) (off : BitVec 32) (c : Ctx) (u : State) : Except Stop State :=
  if c.lc k = 0 then .ok (u.onWave c (·.setPcs c.b.mask (fun _ => c.target off)))
  else .ok (u.onWave c (·.pushLoop c.b.mask c.wv.loops { start := c.next, fin := c.target off, k := k }))
theorem exec_loop (h : Hdr) (k : Fin 3) (off : BitVec 32) (s : State) :
    exec (.loop h (.lc k) off) s = issue (.loop h (.lc k) off) s (loopEffect k.val off) := rfl

/-- LOOP with a counter of 0 sends the whole bundle to END (R147). -/
theorem loop_skips (h : Hdr) (k : Fin 3) (off : BitVec 32) :
    ActsIf (.loop h (.lc k) off) (fun _ c => c.lc k.val = 0) (fun _ c wv => c.wv.Quiet wv ∧ wv.loops = c.wv.loops ∧
      (c.wv.thr.length = 32 → ∀ t, t < 32 → c.b.mask.getLsbD t → (wv.thread t).pc = c.target off)) := by
  refine onWave_of _ (fun c wv => wv.setPcs c.b.mask (fun _ => c.target off)) (exec_loop h k off) (fun s c hz u => if_pos hz) (fun _ _ => rfl) ?_
  intro s c s' age hp _
  have hsame := (Ctx.advance_same c (.loop h (.lc k) off) c.wv age).setPcs c.b.mask (fun _ => c.target off)
  refine ⟨hsame.quiet, hsame.loops, fun h32 t ht hm => ?_⟩
  exact congrArg Thread.pc (c.advance_mapThr _ age c.b.mask _ (h32 ▸ ht) hm)

/-- LOOP with another counter enters its body (R147). -/
theorem loop_enters (h : Hdr) (k : Fin 3) (off : BitVec 32) :
    ActsIf (.loop h (.lc k) off) (fun _ c => c.lc k.val ≠ 0) (fun _ c wv => c.wv.Quiet wv ∧
      wv.loops = c.wv.loops ++ [{ start := c.next, fin := c.target off, k := k.val }] ∧
      (c.wv.thr.length = 32 → ∀ t, t < 32 → c.b.mask.getLsbD t → (wv.thread t).pc = c.next ∧ (wv.thread t).mem.getLsbD c.wv.loops.length = true)) := by
  refine onWave_of _ (fun c wv => wv.pushLoop c.b.mask c.wv.loops { start := c.next, fin := c.target off, k := k.val }) (exec_loop h k off)
    (fun s c hz u => if_neg hz) (fun _ _ => rfl) ?_
  intro s c s' age hp _
  have hroom := loop_room (pre_go s _ c s' hp).legal
  have hq := (Ctx.advance_same c (.loop h (.lc k) off) c.wv age).quiet
  refine ⟨hq.control _ _ _ _, rfl, fun h32 t ht hm => ?_⟩
  have hthread := c.advance_mapThr (.loop h (.lc k) off) age c.b.mask
    (fun _ t => { t with pc := c.next, mem := t.mem ||| (1#3 <<< c.wv.loops.length) }) (h32 ▸ ht) hm
  refine ⟨congrArg Thread.pc hthread, (congrArg (·.mem.getLsbD c.wv.loops.length) hthread).trans ?_⟩
  simp [hroom]

/-- LEXIT holds the active threads at its target until the innermost loop is popped (R148). -/
theorem acts_lexit (h : Hdr) (off : BitVec 32) :
    ActsIf (.lexit h off) (fun _ _ => True) (fun _ c wv => c.wv.Quiet wv ∧ wv.loops = c.wv.loops ∧
      (c.wv.thr.length = 32 → ∀ t, t < 32 → c.lanes.getLsbD t →
        (wv.thread t).pc = c.target off ∧ (wv.thread t).hold = some (c.wv.loops.length - 1, true))) := by
  refine onWave_of _ (fun c wv => wv.mapThr c.lanes (fun _ t => { t with pc := c.target off, hold := some (c.wv.loops.length - 1, true) }))
    (fun _ => rfl) (fun _ _ _ _ => rfl) (fun _ _ => rfl) ?_
  intro s c s' age hp _
  have hsame := Ctx.advance_same c (.lexit h off) c.wv age
  refine ⟨hsame.quiet.control _ _ _ _, hsame.loops, fun h32 t ht hm => ?_⟩
  have hthread := c.advance_mapThr (.lexit h off) age c.lanes
    (fun _ t => { t with pc := c.target off, hold := some (c.wv.loops.length - 1, true) }) (h32 ▸ ht) hm
  exact ⟨congrArg Thread.pc hthread, congrArg Thread.hold hthread⟩

/-- A slice is in the set of the slices of some lanes if one of them is its own. -/
theorem getLsbD_sliceBits (m : Lanes) {sl : Nat} (h : sl < 8) : (sliceBits m).getLsbD sl = decide (m &&& sliceMask sl ≠ 0) := by
  have hbits := testBit_foldr_bits (fun sl => decide (m &&& sliceMask sl ≠ 0)) (List.range 8) sl
  simp only [decide_eq_true_eq] at hbits
  rw [sliceBits, BitVec.getLsbD_ofNat, hbits, List.getElem?_range h]
  simp [h]

/-- JOIN marks the slices of the bundle as joining (R146). -/
theorem acts_join (h : Hdr) :
    ActsIf (.join h) (fun _ _ => True) (fun _ c wv => c.wv.Quiet wv ∧
      ∀ sl, sl < 8 → wv.joining.getLsbD sl = (c.wv.joining.getLsbD sl || decide (c.b.mask &&& sliceMask sl ≠ 0))) := by
  refine onWave_of _ (fun c wv => { wv with joining := wv.joining ||| sliceBits c.b.mask }) (fun _ => rfl) (fun _ _ _ _ => rfl) (fun _ _ => rfl) ?_
  intro s c s' age hp _
  have hsame := Ctx.advance_same c (.join h) c.wv age
  refine ⟨hsame.quiet.control _ _ _ _, fun sl hsl => ?_⟩
  rw [BitVec.getLsbD_or, hsame.joining, getLsbD_sliceBits _ hsl]

/-- WAIT leaves its wave waiting on the counters of its mask (R135, R151). -/
theorem acts_wait (h : Hdr) (n : BitVec 4) (mask : BitVec 8) :
    ActsIf (.wait h n mask) (fun _ _ => True) (fun _ c wv => c.wv.Quiet wv ∧ wv.waitCnt = some (mask, n.toNat)) := by
  refine onWave_of _ (fun _ wv => { wv with waitCnt := some (mask, n.toNat) }) (fun _ => rfl) (fun _ _ _ _ => rfl) (fun _ _ => rfl) ?_
  intro s c s' age hp _
  exact ⟨(Ctx.advance_same c (.wait h n mask) c.wv age).quiet.control _ _ _ _, rfl⟩

/-- A wave that waits issues nothing while a counter of the mask is above the limit (R135). -/
theorem Wave.blocked_of_waitCnt {wv : Wave} {mask : BitVec 8} {n j : Nat} (hw : wv.waitCnt = some (mask, n)) (hj : j < 8)
    (hm : mask.getLsbD j = true) (hn : n < wv.evr j) : wv.blocked = true := by
  have hwait : (List.range 8).any (fun j => mask.getLsbD j && decide (n < wv.evr j)) = true :=
    List.any_eq_true.2 ⟨j, List.mem_range.2 hj, by simp [hm, hn]⟩
  simp only [Wave.blocked, hw, Option.any_some, hwait, Bool.or_true, Bool.true_or]

end Sys2Proof.Machine

/-- Settles O6: each instruction is one `compute` with the stated result. -/
theorem movesAndSelects : Obligations.MovesAndSelects := by
  intro h d a b p imm
  exact ⟨gives32_of _ _ _ _ fun _ => rfl, gives64_of _ _ _ _ fun _ => rfl, gives32_of _ _ _ _ fun _ => rfl,
    fun _ => gives32_of _ _ _ _ fun _ => rfl, fun _ => gives64_of _ _ _ _ fun _ => rfl, fun _ => gives64_of _ _ _ _ fun _ => rfl,
    gives32_of _ _ _ _ fun _ => rfl, gives32_of _ _ _ _ fun _ => rfl, gives32_of _ _ _ _ fun _ => rfl, gives64_of _ _ _ _ fun _ => rfl⟩

/-- Settles O14: each of the eight is one `sfuOp`, which starts a pending operation with what is known at issue. -/
theorem sfuIssue : Obligations.SfuIssue := by
  refine ⟨fun _ _ _ => fSfu_mem, fun h d a rm i f hi => ?_⟩
  have hsfu : (∀ s, exec i s = sfuOp i s d a f) ∧ isSfu i = true ∧ i.counted = some 1 := by
    rcases hi with ⟨rfl, rfl⟩ | ⟨rfl, rfl⟩ | ⟨rfl, rfl⟩ | ⟨rfl, rfl⟩ | ⟨rfl, rfl⟩ | ⟨rfl, rfl⟩ | ⟨rfl, rfl⟩ | ⟨rfl, rfl⟩ <;> exact ⟨fun _ => rfl, rfl, rfl⟩
  obtain ⟨he, hi, hev⟩ := hsfu
  intro s c s' hp _
  obtain ⟨t, wv, ht, hw, hregs, hpreds, hfl, hidle, hactive⟩ := sfuOp_starts he s c s' hp trivial
  obtain rfl : t = _ := Host.Outcome.next.inj (ht.symm.trans (sfuOp_go he hp))
  refine ⟨_, wv, ht, hw, hregs, hpreds, hfl, ?held, hidle, fun hz => ?pending⟩
  case held =>
    rw [State.settle_sfuBusy, State.start_sfuBusy]
    exact sfu_taken hp hi
  case pending =>
    obtain ⟨hevr, q, hlast, -, hid, hinstr, hqev, hdsts, -, hwr, hflags⟩ := hactive hz
    refine ⟨fun n => ?_, q, hlast, hid, hinstr, hqev.trans hev, hdsts, hwr, hflags⟩
    rw [hevr, hev]
    by_cases hn : n = 1
    · subst hn; rfl
    · rw [if_neg hn, if_neg (fun e => hn (Option.some.inj e).symm)]

/-- Settles O33: LOOP and LEXIT trap by the illegal-instruction check; past it, each of the four changes its wave only. -/
theorem loopsJoinsAndWaits : Obligations.LoopsJoinsAndWaits := by
  intro h k off n mask fin ok traps
  refine ⟨fun s c hc hplaced hready hfree hbad => ?_, loop_skips h k off, loop_enters h k off, fun s c hc hplaced hready hfree hbad => ?_,
    fun s c s' hp => acts_lexit h off s c s' hp trivial, fun s c s' hp => acts_join h s c s' hp trivial,
    fun s c s' hp => acts_wait h n mask s c s' hp trivial, fun wv hw ⟨j, hj, hm, hn⟩ => Wave.blocked_of_waitCnt hw hj hm hn⟩
  · exact exec_illegal hc ⟨hplaced, hready, hfree⟩ (illegal_loop h (Ctx.loopBad_of hbad))
  · exact exec_illegal hc ⟨hplaced, hready, hfree⟩ (illegal_lexit h off hbad)

end

section
/-! PROOFS. Integer arithmetic, bit operations, bit fields and wide addresses (R80, R169 to R177). -/
open Sys2Proof Sys2Proof.Machine

namespace Sys2Proof.Machine

/-! ### Results by what they are equal to -/

/-- A result may be stated by any function that agrees with the one the instruction writes. -/
theorem Gives32.congr {i : Instr} {d : Opd} {f g : Ctx → Nat → Word} {fl : Ctx → BitVec 8} (h : Gives32 i d f fl) (e : ∀ c l, f c l = g c l) :
    Gives32 i d g fl := by rwa [show f = g from funext₂ e] at h
theorem GivesP.congr {i : Instr} {p : Pr} {f g : Ctx → Nat → Bool} {fl gl : Ctx → BitVec 8} (h : GivesP i p f fl) (e : ∀ c l, f c l = g c l)
    (efl : ∀ c, fl c = gl c) : GivesP i p g gl := by rwa [show f = g from funext₂ e, show fl = gl from funext efl] at h

/-- An instruction of one, two or three 32-bit operands writes its operation's value and raises no flag. -/
theorem gives_alu1 {i : Instr} {d a : Opd} (op : Word → Word) (he : ∀ s, exec i s = alu1 i s d a op) : Gives i d (fun c l => op (c.w32 a l)) :=
  gives32_of _ _ _ _ he
theorem gives_alu2 {i : Instr} {d a b : Opd} (op : Word → Word → Word) (he : ∀ s, exec i s = alu2 i s d a b op) :
    Gives i d (fun c l => op (c.w32 a l) (c.w32 b l)) := gives32_of _ _ _ _ he
theorem gives_alu3 {i : Instr} {d a b x : Opd} (op : Word → Word → Word → Word) (he : ∀ s, exec i s = alu3 i s d a b x op) :
    Gives i d (fun c l => op (c.w32 a l) (c.w32 b l) (c.w32 x l)) := gives32_of _ _ _ _ he

/-! ### Words as integers (R170) -/

@[simp] theorem ofInt_toNat {w : Nat} (x : BitVec w) : BitVec.ofInt w (x.toNat : Int) = x := by
  rw [BitVec.ofInt_natCast, BitVec.ofNat_toNat, BitVec.setWidth_eq]
theorem ofInt_sub (w : Nat) (x y : Int) : BitVec.ofInt w (x - y) = BitVec.ofInt w x - BitVec.ofInt w y := by
  rw [Int.sub_eq_add_neg, BitVec.ofInt_add, BitVec.ofInt_neg, BitVec.sub_eq_add_neg]

/-- A word is what its integer wraps to, signed or not. -/
@[simp] theorem ofInt_wInt (sg : Bool) (x : Word) : BitVec.ofInt 32 (wInt sg x) = x := by
  cases sg
  · exact ofInt_toNat x
  · exact BitVec.ofInt_toInt
theorem wInt_inj {sg : Bool} {x y : Word} : wInt sg x = wInt sg y ↔ x = y :=
  ⟨fun h => by rw [← ofInt_wInt sg x, h, ofInt_wInt], fun h => h ▸ rfl⟩
theorem wInt_lt_unsigned (x y : Word) : wInt false x < wInt false y ↔ x.ult y = true := by
  rw [BitVec.ult_iff_toNat_lt]; exact Int.ofNat_lt
theorem wInt_lt_signed (x y : Word) : wInt true x < wInt true y ↔ x.slt y = true := BitVec.slt_iff_toInt_lt.symm
theorem wInt_le_unsigned (x y : Word) : wInt false x ≤ wInt false y ↔ x.ule y = true := by
  rw [BitVec.ule_iff_toNat_le]; exact Int.ofNat_le
theorem wInt_le_signed (x y : Word) : wInt true x ≤ wInt true y ↔ x.sle y = true := BitVec.sle_iff_toInt_le.symm

/-- The bounds of a word as an integer. -/
theorem toInt_bounds (x : Word) : -2 ^ 31 ≤ x.toInt ∧ x.toInt < 2 ^ 31 := ⟨x.le_toInt, x.toInt_lt⟩

/-- Clamping is the lesser of the upper bound and the greater of the lower one. -/
theorem clampI_eq {lo hi : Int} (h : lo ≤ hi) (x : Int) : clampI lo hi x = max lo (min hi x) := by
  unfold clampI
  split
  · omega
  · split <;> omega
theorem sat32_signed (x : Int) : sat32 true x = BitVec.ofInt 32 (max (-2 ^ 31) (min (2 ^ 31 - 1) x)) :=
  congrArg (BitVec.ofInt 32) (clampI_eq (by decide) x)
theorem sat32_unsigned (x : Int) : sat32 false x = BitVec.ofInt 32 (max 0 (min (2 ^ 32 - 1) x)) :=
  congrArg (BitVec.ofInt 32) (clampI_eq (by decide) x)

/-! ### Integer arithmetic (R171, Table 7.4) -/

theorem satOp_wrap_add (x y : Word) : satOp .wrap (· + ·) x y = x + y := by
  simp only [satOp, BitVec.ofInt_add, ofInt_wInt]
theorem satOp_wrap_sub (x y : Word) : satOp .wrap (· - ·) x y = x - y := by
  simp only [satOp, ofInt_sub, ofInt_wInt]
theorem satOp_n32_add (x y : Word) : satOp .n32 (· + ·) x y = BitVec.ofNat 32 (min (2 ^ 32 - 1) (x.toNat + y.toNat)) := by
  have hclamp : max 0 (min (2 ^ 32 - 1) (wInt false x + wInt false y)) = ((min (2 ^ 32 - 1) (x.toNat + y.toNat) : Nat) : Int) := by
    simp only [wInt, Bool.false_eq_true, if_false]; omega
  rw [satOp, sat32_unsigned, hclamp, BitVec.ofInt_natCast]
theorem satOp_n32_sub (x y : Word) : satOp .n32 (· - ·) x y = BitVec.ofNat 32 (x.toNat - y.toNat) := by
  have hclamp : max 0 (min (2 ^ 32 - 1) (wInt false x - wInt false y)) = ((x.toNat - y.toNat : Nat) : Int) := by
    have hx := x.isLt
    simp only [wInt, Bool.false_eq_true, if_false]; omega
  rw [satOp, sat32_unsigned, hclamp, BitVec.ofInt_natCast]
theorem satOp_i32 (op : Int → Int → Int) (x y : Word) :
    satOp .i32 op x y = BitVec.ofInt 32 (max (-2 ^ 31) (min (2 ^ 31 - 1) (op x.toInt y.toInt))) := sat32_signed _

/-- Wrapping at 2^N does not reach the bits from `pos` on that lie below N. -/
theorem emod_div_emod_two_pow {N pos len : Nat} (h : pos + len ≤ N) (x : Int) :
    x % (2 ^ N : Nat) / (2 ^ pos : Nat) % (2 ^ len : Nat) = x / (2 ^ pos : Nat) % (2 ^ len : Nat) := by
  obtain ⟨r, rfl⟩ := Nat.exists_eq_add_of_le h
  have hpow : ((2 ^ (pos + len + r) : Nat) : Int) = (2 ^ pos : Nat) * ((2 ^ len : Nat) * (2 ^ r : Nat)) := by push_cast; ring
  have hpos : ((2 ^ pos : Nat) : Int) ≠ 0 := by positivity
  rw [Int.emod_def x (2 ^ (pos + len + r) : Nat), hpow, Int.mul_assoc, Int.sub_mul_ediv_left _ _ hpos, Int.mul_assoc, Int.sub_mul_emod_self_left]

/-- Bits `pos` and up of a wrapped integer, as long as they lie within it, are those of the integer divided by 2^pos. -/
theorem extractLsb'_ofInt {N pos len : Nat} (h : pos + len ≤ N) (x : Int) :
    (BitVec.ofInt N x).extractLsb' pos len = BitVec.ofInt len (x / (2 ^ pos : Nat)) := by
  have hnn : ∀ (y : Int) (n : Nat), 0 ≤ y % ((2 ^ n : Nat) : Int) := fun y n => Int.emod_nonneg y (by positivity)
  apply BitVec.eq_of_toNat_eq
  rw [BitVec.extractLsb'_toNat, BitVec.toNat_ofInt, BitVec.toNat_ofInt, Nat.shiftRight_eq_div_pow]
  apply Int.ofNat.inj
  simp only [Int.ofNat_eq_natCast, Int.natCast_mod, Int.natCast_div, Int.toNat_of_nonneg (hnn _ _), emod_div_emod_two_pow h]

theorem imulh_unsigned (x y : Word) : imulh false x y = (x.setWidth 64 * y.setWidth 64).extractLsb' 32 32 := by
  have hprod : x.setWidth 64 * y.setWidth 64 = BitVec.ofInt 64 (x.toNat * y.toNat) := by
    rw [BitVec.ofInt_mul, BitVec.ofInt_natCast, BitVec.ofInt_natCast, BitVec.ofNat_toNat, BitVec.ofNat_toNat]
  rw [hprod, extractLsb'_ofInt (by decide)]; rfl
theorem imulh_signed (x y : Word) : imulh true x y = (x.signExtend 64 * y.signExtend 64).extractLsb' 32 32 := by
  have hprod : x.signExtend 64 * y.signExtend 64 = BitVec.ofInt 64 (x.toInt * y.toInt) := (BitVec.ofInt_mul _ _).symm
  rw [hprod, extractLsb'_ofInt (by decide)]; rfl

/-- Of two equal operands it does not matter which one is taken. -/
theorem imin_eq (sg : Bool) (x y : Word) : imin sg x y = if wInt sg x < wInt sg y then x else y := by
  unfold imin
  rcases lt_trichotomy (wInt sg x) (wInt sg y) with h | h | h
  · rw [if_pos h.le, if_pos h]
  · rw [if_pos h.le, if_neg h.not_lt, wInt_inj.1 h]
  · rw [if_neg h.not_ge, if_neg h.not_gt]
theorem imax_eq (sg : Bool) (x y : Word) : imax sg x y = if wInt sg x < wInt sg y then y else x := by
  unfold imax
  rcases lt_trichotomy (wInt sg x) (wInt sg y) with h | h | h
  · rw [if_pos h.le, if_pos h]
  · rw [if_pos h.le, if_neg h.not_lt, wInt_inj.1 h]
  · rw [if_neg h.not_ge, if_neg h.not_gt]

/-- The magnitude of an integer, wrapped. -/
theorem ofNat_natAbs (w : Nat) (x : Int) : BitVec.ofNat w x.natAbs = if x < 0 then -BitVec.ofInt w x else BitVec.ofInt w x := by
  rw [← BitVec.ofInt_natCast]
  split
  · rw [← BitVec.ofInt_neg, Int.ofNat_natAbs_of_nonpos (by omega)]
  · rw [Int.natAbs_of_nonneg (by omega)]

theorem iabs_wrap (x : Word) : iabs false x = if x.slt 0 then -x else x := by
  have h0 : x.toInt < 0 ↔ x.slt 0 = true := wInt_lt_signed x 0
  simp only [iabs, Bool.false_eq_true, if_false, ofNat_natAbs, BitVec.ofInt_toInt, h0]
/-- Only the most negative word has a magnitude that saturates. -/
theorem iabs_sat (x : Word) : iabs true x = if x = 0x80000000 then 0x7FFFFFFF else if x.slt 0 then -x else x := by
  by_cases hmin : x = 0x80000000
  · subst hmin; decide
  · have hne : x.toInt ≠ -2 ^ 31 := fun h => hmin (BitVec.toInt_inj.1 (h.trans (by decide)))
    have hfits : max (-2 ^ 31) (min (2 ^ 31 - 1) (x.toInt.natAbs : Int)) = x.toInt.natAbs := by
      have := toInt_bounds x; omega
    rw [if_neg hmin, ← iabs_wrap]
    simp only [iabs, if_true, Bool.false_eq_true, if_false]
    rw [sat32_signed, hfits, BitVec.ofInt_natCast]

theorem sad_eq (sg : Bool) (x y z : Word) : sad sg x y z = (if wInt sg x < wInt sg y then y - x else x - y) + z := by
  have hneg : -(x - y) = y - x := by rw [BitVec.neg_sub, BitVec.add_comm, ← BitVec.sub_eq_add_neg]
  simp only [sad, ofNat_natAbs, ofInt_sub, ofInt_wInt, hneg, sub_neg]

/-! ### Bit operations (R172, Table 7.5) -/

theorem shl_eq (x y : Word) : shl x y = x <<< y.toNat := by
  unfold shl
  split
  · rfl
  · exact (BitVec.shiftLeft_eq_zero (by omega)).symm
theorem shr_eq (x y : Word) : shr x y = x >>> y.toNat := by
  unfold shr
  split
  · rfl
  · exact (BitVec.ushiftRight_eq_zero (by omega)).symm

/-- From 31 on, every division of a word by 2^n leaves only its sign. -/
theorem toInt_div_two_pow (x : Word) {n : Nat} (h : 31 ≤ n) : x.toInt / (2 ^ n : Nat) = if x.toInt < 0 then -1 else 0 := by
  have hb := toInt_bounds x
  have hpow : (2 ^ 31 : Int) ≤ (2 ^ n : Nat) := by exact_mod_cast Nat.pow_le_pow_right (by decide) h
  split
  · exact Int.ediv_eq_neg_one_of_neg_of_le ‹_› (by omega)
  · exact Int.ediv_eq_zero_of_lt (by omega) (by omega)
theorem sar_eq (x y : Word) : sar x y = BitVec.ofInt 32 (x.toInt / 2 ^ y.toNat) := by
  have hdiv : x.toInt / (2 ^ min y.toNat 31 : Nat) = x.toInt / (2 ^ y.toNat : Nat) := by
    rcases le_total y.toNat 31 with h | h
    · rw [min_eq_left h]
    · rw [min_eq_right h, toInt_div_two_pow x le_rfl, toInt_div_two_pow x h]
  rw [sar, BitVec.sshiftRight_eq, Int.shiftRight_eq_div_pow, hdiv, Nat.cast_pow]; rfl

theorem getLsbD_rot_left (x y : Word) {i : Nat} (hi : i < 32) : (rot false x y).getLsbD ((i + y.toNat) % 32) = x.getLsbD i := by
  have hn : y.toNat % 32 < 32 := Nat.mod_lt _ (by decide)
  simp only [rot, Bool.false_eq_true, if_false]
  rw [BitVec.getLsbD_rotateLeft_of_le hn]
  by_cases hw : (i + y.toNat) % 32 < y.toNat % 32
  · rw [decide_eq_true hw, cond_true]; congr 1; omega
  · rw [decide_eq_false hw, cond_false, decide_eq_true (by omega), Bool.true_and]; congr 1; omega
theorem getLsbD_rot_right (x y : Word) {i : Nat} (hi : i < 32) : (rot true x y).getLsbD i = x.getLsbD ((i + y.toNat) % 32) := by
  have hn : y.toNat % 32 < 32 := Nat.mod_lt _ (by decide)
  simp only [rot, if_true]
  rw [BitVec.getLsbD_rotateRight_of_lt hn]
  by_cases hw : i < 32 - y.toNat % 32
  · rw [decide_eq_true hw, cond_true]; congr 1; omega
  · rw [decide_eq_false hw, cond_false, decide_eq_true hi, Bool.true_and]; congr 1; omega

theorem popcW_eq (x : Word) : popcW x = BitVec.ofNat 32 ((List.range 32).countP (fun i => x.getLsbD i)) := congrArg (BitVec.ofNat 32) (popc_lanes x)

/-- The leading zeros of a word that is not 0, by its highest set bit. -/
theorem toNat_clzW {x : Word} (hx : x ≠ 0) : (clzW x).toNat = 31 - x.toNat.log2 ∧ x.toNat.log2 < 32 := by
  have hne : x.toNat ≠ 0 := fun h => hx (BitVec.eq_of_toNat_eq h)
  have hlog : x.toNat.log2 < 32 := (Nat.log2_lt hne).2 x.isLt
  refine ⟨?_, hlog⟩
  rw [clzW, bitLen, if_neg hne, BitVec.toNat_ofNat]
  omega
theorem clzW_spec (x : Word) (hx : x ≠ 0) :
    (clzW x).toNat < 32 ∧ x.getLsbD (31 - (clzW x).toNat) = true ∧ ∀ i, i < (clzW x).toNat → x.getLsbD (31 - i) = false := by
  obtain ⟨hclz, hlog⟩ := toNat_clzW hx
  have hne : x.toNat ≠ 0 := fun h => hx (BitVec.eq_of_toNat_eq h)
  refine ⟨by omega, ?_, fun i hi => ?_⟩
  · rw [hclz, show 31 - (31 - x.toNat.log2) = x.toNat.log2 by omega]
    exact Nat.testBit_log2 hne
  · exact Nat.testBit_lt_two_pow ((Nat.log2_lt hne).1 (by omega))

theorem getLsbD_brev (x : Word) {i : Nat} (hi : i < 32) : (brev x).getLsbD i = x.getLsbD (31 - i) := by
  simp only [brev, getLsbD_lanesWhere, hi, decide_true, Bool.true_and]

/-! ### Bit fields (R174) -/

/-- The operand of BFE, extended far enough for every position and length (R174). -/
def bfeOperand (sg : Bool) (u : Word) : BitVec 320 := BitVec.ofInt 320 (wInt sg u)

theorem getLsbD_bfeOperand (sg : Bool) (u : Word) {j : Nat} (hj : j < 320) :
    (bfeOperand sg u).getLsbD j = if j < 32 then u.getLsbD j else sg && u.getLsbD 31 := by
  cases sg
  · have hext : bfeOperand false u = u.setWidth 320 := (BitVec.ofInt_natCast 320 u.toNat).trans (BitVec.ofNat_toNat 320 u)
    rw [hext, BitVec.getLsbD_setWidth, decide_eq_true hj, Bool.true_and, Bool.false_and]
    split
    · rfl
    · exact BitVec.getLsbD_of_ge _ _ (by omega)
  · have hext : bfeOperand true u = u.signExtend 320 := rfl
    rw [hext, BitVec.getLsbD_signExtend, decide_eq_true hj, Bool.true_and, Bool.true_and, BitVec.msb_eq_getLsbD_last]

/-- An integer modulo 2^n, read as a signed number of n bits. -/
theorem signed_emod {n : Nat} (hn : n ≠ 0) (x : Int) :
    (if x % (2 ^ n : Nat) ≥ (2 ^ (n - 1) : Nat) then x % (2 ^ n : Nat) - (2 ^ n : Nat) else x % (2 ^ n : Nat)) = (BitVec.ofInt n x).toInt := by
  have hhalf : (((2 ^ n : Nat) : Int) + 1) / 2 = (2 ^ (n - 1) : Nat) := by
    obtain ⟨k, rfl⟩ := Nat.exists_eq_succ_of_ne_zero hn
    rw [Nat.succ_sub_one, Nat.pow_succ]; omega
  rw [BitVec.toInt_ofInt, Int.bmod_def, hhalf, ← ite_not]
  simp only [ge_iff_le, not_le]

/-- BFE takes a field out of the extended operand and extends it in its turn (R174). -/
theorem bfe_eq (sg : Bool) (u v w : Word) {n : Nat} (hn : n = min (w.toNat % 256) 32) (h0 : n ≠ 0) :
    bfe sg u v w = if sg then ((bfeOperand sg u).extractLsb' (v.toNat % 256) n).signExtend 32
      else ((bfeOperand sg u).extractLsb' (v.toNat % 256) n).setWidth 32 := by
  have hpos : v.toNat % 256 < 256 := Nat.mod_lt _ (by decide)
  have hfield : (bfeOperand sg u).extractLsb' (v.toNat % 256) n = BitVec.ofInt n (wInt sg u / (2 ^ (v.toNat % 256) : Nat)) :=
    extractLsb'_ofInt (by omega) _
  simp only [bfe, ← hn]
  rw [if_neg h0, hfield]
  cases sg
  · simp only [Bool.false_eq_true, false_and, if_false]
    apply BitVec.eq_of_toNat_eq
    have hnn : 0 ≤ wInt false u / (2 ^ (v.toNat % 256) : Nat) % (2 ^ n : Nat) := Int.emod_nonneg _ (by positivity)
    rw [BitVec.toNat_setWidth, BitVec.toNat_ofInt, BitVec.toNat_ofInt]
    omega
  · simp only [true_and, if_true]
    rw [signed_emod h0]; rfl

/-- BFE, bit by bit (R174). -/
theorem getLsbD_bfe (sg : Bool) (u v w : Word) {i : Nat} (hi : i < 32) : (bfe sg u v w).getLsbD i =
    (let n := min (w.toNat % 256) 32
     let at_ (j : Nat) : Bool := if j < 32 then u.getLsbD j else sg && u.getLsbD 31
     if n = 0 then false else if i < n then at_ (v.toNat % 256 + i) else sg && at_ (v.toNat % 256 + n - 1)) := by
  have hpos : v.toNat % 256 < 256 := Nat.mod_lt _ (by decide)
  simp only
  generalize hn : min (w.toNat % 256) 32 = n
  have hn32 : n ≤ 32 := by omega
  by_cases h0 : n = 0
  · rw [if_pos h0]
    simp only [bfe, hn, h0, if_true]
    exact BitVec.getLsbD_zero
  rw [if_neg h0, bfe_eq sg u v w hn.symm h0, ← getLsbD_bfeOperand sg u (by omega), ← getLsbD_bfeOperand sg u (by omega)]
  cases sg
  · simp only [Bool.false_eq_true, if_false, Bool.false_and]
    rw [BitVec.getLsbD_setWidth, BitVec.getLsbD_extractLsb', decide_eq_true hi, Bool.true_and]
    by_cases hin : i < n <;> simp [hin]
  · simp only [if_true, Bool.true_and]
    rw [BitVec.getLsbD_signExtend, BitVec.msb_eq_getLsbD_last, BitVec.getLsbD_extractLsb',
      BitVec.getLsbD_extractLsb', decide_eq_true hi, Bool.true_and]
    by_cases hin : i < n
    · simp [hin]
    · rw [if_neg hin, if_neg hin, decide_eq_true (by omega), Bool.true_and, Nat.add_sub_assoc (by omega)]

/-- BFI, bit by bit (R174). -/
theorem getLsbD_bfi (u v w : Word) {i : Nat} (hi : i < 32) : (bfi u v w).getLsbD i =
    if v.toNat % 256 ≤ i ∧ i < v.toNat % 256 + min (v.toNat / 256 % 256) 32 then u.getLsbD (i - v.toNat % 256) else w.getLsbD i := by
  simp only [bfi]
  generalize v.toNat % 256 = pos
  generalize min (v.toNat / 256 % 256) 32 = len
  have hmask : (BitVec.ofNat 32 ((2 ^ len - 1) * 2 ^ pos)).getLsbD i = decide (pos ≤ i ∧ i < pos + len) := by
    rw [BitVec.getLsbD_ofNat, Nat.testBit_mul_two_pow, Nat.testBit_two_pow_sub_one, decide_eq_true hi, Bool.true_and, ← Bool.decide_and]
    exact decide_eq_decide.2 (by omega)
  have hfield : (BitVec.ofNat 32 (u.toNat * 2 ^ pos)).getLsbD i = (decide (pos ≤ i) && u.getLsbD (i - pos)) := by
    rw [BitVec.getLsbD_ofNat, Nat.testBit_mul_two_pow, decide_eq_true hi, Bool.true_and, BitVec.testBit_toNat]
  rw [BitVec.getLsbD_or, BitVec.getLsbD_and, BitVec.getLsbD_and, BitVec.getLsbD_not, hmask, hfield, decide_eq_true hi, Bool.true_and]
  by_cases hin : pos ≤ i ∧ i < pos + len
  · simp [hin]
  · simp [hin]

/-! ### Byte selects and byte products (R175, R177) -/

/-- Byte `k` of a little-endian number. -/
theorem ofBytes_div_mod : ∀ (l : List Byte) (k : Nat), ofBytes l / 256 ^ k % 256 = (l.getD k 0).toNat
  | [], k => by simp [ofBytes]
  | b :: r, 0 => by
    have hb := b.isLt
    rw [Nat.pow_zero, Nat.div_one, List.getD_cons_zero]
    change (b.toNat + 256 * ofBytes r) % 256 = b.toNat
    omega
  | b :: r, k + 1 => by
    have hb := b.isLt
    have hrest : (b.toNat + 256 * ofBytes r) / 256 = ofBytes r := by omega
    rw [List.getD_cons_succ, ← ofBytes_div_mod r k, Nat.pow_succ', ← Nat.div_div_eq_div_mul]
    exact congrArg (· / 256 ^ k % 256) hrest

/-- One byte of BSEL by its control (R175). -/
theorem bselByte_eq (u v : Word) (t : Byte) : BitVec.ofNat 8 (bselByte (v ++ u) t.toNat) =
    (let j := (t.extractLsb' 0 3).toNat
     let y : Byte := if j < 4 then u.extractLsb' (8 * j) 8 else v.extractLsb' (8 * (j - 4)) 8
     match (t.extractLsb' 3 2).toNat with
     | 0 => y | 1 => 0x00 | 2 => if y.msb then 0xFF else 0x00 | _ => 0xFF) := by
  have hj : t.toNat % 8 = (t.extractLsb' 0 3).toNat := by rw [← bits_toNat, bits_zero]; rfl
  have hm : t.toNat / 8 % 4 = (t.extractLsb' 3 2).toNat := by rw [← bits_toNat, bits, Nat.shiftRight_eq_div_pow]; rfl
  have hy : ∀ j, j < 8 → (v ++ u).extractLsb' (8 * j) 8 = if j < 4 then u.extractLsb' (8 * j) 8 else v.extractLsb' (8 * (j - 4)) 8 := by
    intro j hj
    split
    · exact BitVec.extractLsb'_append_eq_of_add_le (by omega)
    · rw [BitVec.extractLsb'_append_eq_of_le (by omega)]; congr 1; omega
  simp only [bselByte, hj, hm, bits_toNat]
  rw [hy _ (t.extractLsb' 0 3).isLt]
  generalize (if (t.extractLsb' 0 3).toNat < 4 then _ else _ : Byte) = y
  have hmsb : bit y.toNat 7 = y.msb := by rw [BitVec.msb_eq_getLsbD_last]; rfl
  rcases (t.extractLsb' 3 2).toNat with _ | _ | _ | _
  · simp
  · rfl
  · simp only [hmsb]; split <;> rfl
  · rfl

/-- BSEL, byte by byte (R175). -/
theorem extractLsb'_bsel (u v w : Word) {k : Nat} (hk : k < 4) :
    (bsel u v w).extractLsb' (8 * k) 8 = BitVec.ofNat 8 (bselByte (v ++ u) (w.extractLsb' (8 * k) 8).toNat) := by
  have hbytes := ofBytes_div_mod ((List.range 4).map (fun k => BitVec.ofNat 8 (bselByte (v ++ u) (bits w.toNat (8 * k) 8)))) k
  rw [List.getD_eq_getElem?_getD, List.getElem?_map, List.getElem?_range hk, Option.map_some, Option.getD_some, bits_toNat] at hbytes
  apply BitVec.eq_of_toNat_eq
  rw [← hbytes, BitVec.extractLsb'_toNat, bsel, BitVec.toNat_ofNat, Nat.shiftRight_eq_div_pow, show (256 : Nat) = 2 ^ 8 from rfl, ← Nat.pow_mul]
  generalize ofBytes _ = n
  obtain ⟨r, hr⟩ : ∃ r, 32 = 8 * k + 8 + r := ⟨24 - 8 * k, by omega⟩
  rw [hr, Nat.add_assoc, Nat.pow_add 2 (8 * k), Nat.mod_mul_right_div_self, Nat.pow_add, Nat.mod_mul_right_mod]

/-- IDOT4 (R177): the sum of the byte products in any order. -/
theorem idot4_eq (sa sb sat : Bool) (u v w : Word) : idot4 sa sb sat u v w =
    (let byte (sg : Bool) (w : Word) (i : Nat) : Int := if sg then (w.extractLsb' (8 * i) 8).toInt else (w.extractLsb' (8 * i) 8).toNat
     let t : Int := (if sa || sb then w.toInt else w.toNat) + ((List.range 4).map (fun i => byte sa u i * byte sb v i)).sum
     if sat then (if sa || sb then BitVec.ofInt 32 (max (-2 ^ 31) (min (2 ^ 31 - 1) t)) else BitVec.ofInt 32 (max 0 (min (2 ^ 32 - 1) t)))
     else BitVec.ofInt 32 t) := by
  have hsum : wInt (sa || sb) w + byteInt sa u 0 * byteInt sb v 0 + byteInt sa u 1 * byteInt sb v 1 + byteInt sa u 2 * byteInt sb v 2
      + byteInt sa u 3 * byteInt sb v 3 = wInt (sa || sb) w + ((List.range 4).map (fun i => byteInt sa u i * byteInt sb v i)).sum := by
    simp only [List.range, List.range.loop, List.map_cons, List.map_nil, List.sum_cons, List.sum_nil]; ring
  simp only [idot4, hsum]
  cases sat
  · rfl
  · cases hsg : sa || sb
    · exact sat32_unsigned _
    · exact sat32_signed _

/-! ### Wide addresses (R176) -/

/-- A 32-bit result and a predicate result of one instruction, without flags. -/
theorem acts32P_of (i : Instr) (d : Opd) (p : Pr) (f : Ctx → Nat → Word) (g : Ctx → Nat → Bool)
    (he : ∀ s, exec i s = compute i s (fun c => (c.dst d (f c) ++ c.dstP p (g c), 0))) :
    Acts i (fun _ c wv => c.wv.Got32 wv c.lanes d (f c) ∧ c.wv.GotP wv c.lanes p (g c) ∧ wv.fflags = c.wv.fflags) := by
  intro s c s' h
  obtain ⟨t, wv, h1, h2, ⟨hv, hs, hl, hp⟩, hf⟩ := computed i s (fun c => (c.dst d (f c) ++ c.dstP p (g c), 0)) c s' h
  have got := Wave.got32_wr1 c.wv c.lanes d (f c)
  have preds : (c.wv.puts (c.dst d (f c))).p = c.wv.p := Wave.puts_wr1_preds c.wv c.lanes d (f c)
  have kept := Wave.puts_p_regs (c.dstP p (g c)) (Ctx.mem_dstP c p (g c)) (c.wv.puts (c.dst d (f c)))
  rw [Wave.puts_append] at hv hs hl hp
  refine ⟨t, wv, by rw [he, h1], h2, ⟨fun n l hk => ?_, fun n => ?_, fun n => ?_⟩, fun n l hk => ?_, hf.trans BitVec.or_zero⟩
  · rw [Wave.vr_congr hv, kept.v]; exact got.v n l hk
  · rw [Wave.sr_congr hs, kept.s]; exact got.s n
  · rw [Wave.lcr_congr hl, kept.lc]; exact got.lc n
  · rw [Wave.pr_congr hp, Wave.puts_dstP c _ p (g c) n l hk, Wave.pr_congr preds n]

/-- IADDC adds the carry that comes in, or subtracts the borrow, and gives the carry or borrow out (R176). -/
theorem addc_fst (sub : Bool) (x y : Word) (ci : Bool) : (addc sub x y ci).1 =
    if sub then x - y - BitVec.ofNat 32 (if ci then 1 else 0) else x + y + BitVec.ofNat 32 (if ci then 1 else 0) := by
  have hci : BitVec.ofInt 32 (if ci then 1 else 0) = BitVec.ofNat 32 (if ci then 1 else 0) := by cases ci <;> rfl
  cases sub
  · simp only [addc, Bool.false_eq_true, if_false, BitVec.ofInt_add, ofInt_toNat, hci]
  · simp only [addc, if_true, ofInt_sub, ofInt_toNat, hci]
theorem addc_snd (sub : Bool) (x y : Word) (ci : Bool) : (addc sub x y ci).2 =
    if sub then decide (x.toNat < y.toNat + (if ci then 1 else 0)) else decide (2 ^ 32 ≤ x.toNat + y.toNat + (if ci then 1 else 0)) := by
  cases sub <;> cases ci <;> simp only [addc, Bool.false_eq_true, if_false, if_true] <;> exact decide_eq_decide.2 (by omega)

end Sys2Proof.Machine

/-- Settles O1: each instruction is one `alu1`, `alu2` or `alu3`, whose operation equals the table's. -/
theorem integerArithmetic : Obligations.IntegerArithmetic := by
  intro h d a b x
  refine ⟨(gives_alu2 (satOp .wrap (· + ·)) fun _ => rfl).congr fun _ _ => satOp_wrap_add _ _,
    (gives_alu2 (satOp .n32 (· + ·)) fun _ => rfl).congr fun _ _ => satOp_n32_add _ _,
    (gives_alu2 (satOp .i32 (· + ·)) fun _ => rfl).congr fun _ _ => satOp_i32 _ _ _,
    (gives_alu2 (satOp .wrap (· - ·)) fun _ => rfl).congr fun _ _ => satOp_wrap_sub _ _,
    (gives_alu2 (satOp .n32 (· - ·)) fun _ => rfl).congr fun _ _ => satOp_n32_sub _ _,
    (gives_alu2 (satOp .i32 (· - ·)) fun _ => rfl).congr fun _ _ => satOp_i32 _ _ _,
    gives_alu2 (· * ·) fun _ => rfl,
    (gives_alu2 (imulh false) fun _ => rfl).congr fun _ _ => imulh_unsigned _ _,
    (gives_alu2 (imulh true) fun _ => rfl).congr fun _ _ => imulh_signed _ _,
    gives_alu3 (fun u v w => u * v + w) fun _ => rfl,
    (gives_alu2 (imin false) fun _ => rfl).congr fun _ _ => ?minUnsigned,
    (gives_alu2 (imin true) fun _ => rfl).congr fun _ _ => ?minSigned,
    (gives_alu2 (imax false) fun _ => rfl).congr fun _ _ => ?maxUnsigned,
    (gives_alu2 (imax true) fun _ => rfl).congr fun _ _ => ?maxSigned,
    (gives_alu1 (iabs false) fun _ => rfl).congr fun _ _ => iabs_wrap _,
    (gives_alu1 (iabs true) fun _ => rfl).congr fun _ _ => iabs_sat _,
    (gives_alu3 (sad false) fun _ => rfl).congr fun _ _ => ?sadUnsigned,
    (gives_alu3 (sad true) fun _ => rfl).congr fun _ _ => ?sadSigned⟩
  case minUnsigned => simp only [imin_eq, wInt_lt_unsigned]
  case minSigned => simp only [imin_eq, wInt_lt_signed]
  case maxUnsigned => simp only [imax_eq, wInt_lt_unsigned]
  case maxSigned => simp only [imax_eq, wInt_lt_signed]
  case sadUnsigned => simp only [sad_eq, wInt_lt_unsigned]
  case sadSigned => simp only [sad_eq, wInt_lt_signed]

/-- Settles O2: each instruction is one `alu1` or `alu2`; ROT, CLZ and BREV are read bit by bit. -/
theorem bitOperations : Obligations.BitOperations := by
  intro h d a b
  exact ⟨gives_alu2 (· &&& ·) fun _ => rfl, gives_alu2 (· ||| ·) fun _ => rfl, gives_alu2 (· ^^^ ·) fun _ => rfl,
    gives_alu2 (fun u v => u &&& ~~~v) fun _ => rfl,
    (gives_alu2 shl fun _ => rfl).congr fun _ _ => shl_eq _ _,
    (gives_alu2 shr fun _ => rfl).congr fun _ _ => shr_eq _ _,
    (gives_alu2 sar fun _ => rfl).congr fun _ _ => sar_eq _ _,
    ⟨rot false, gives_alu2 (rot false) fun _ => rfl, fun x n _ hi => getLsbD_rot_left x n hi⟩,
    ⟨rot true, gives_alu2 (rot true) fun _ => rfl, fun x n _ hi => getLsbD_rot_right x n hi⟩,
    (gives_alu1 popcW fun _ => rfl).congr fun _ _ => popcW_eq _,
    ⟨clzW, gives_alu1 clzW fun _ => rfl, rfl, clzW_spec⟩,
    ⟨brev, gives_alu1 brev fun _ => rfl, fun x _ hi => getLsbD_brev x hi⟩⟩

/-- Settles O3: each instruction is one `alu3`, whose value is read by the bits of a field or by bytes. -/
theorem bitFields : Obligations.BitFields := by
  intro h d a b x
  exact ⟨⟨bfe, fun sg => gives_alu3 (bfe sg) fun _ => rfl, fun sg u v w _ hi => getLsbD_bfe sg u v w hi⟩,
    ⟨bfi, gives_alu3 bfi fun _ => rfl, fun u v w _ hi => getLsbD_bfi u v w hi⟩,
    ⟨bsel, gives_alu3 bsel fun _ => rfl, fun u v w _ hk => (extractLsb'_bsel u v w hk).trans (bselByte_eq u v _)⟩,
    fun sa sb sat => (gives_alu3 (idot4 sa sb sat) fun _ => rfl).congr fun _ _ => idot4_eq sa sb sat _ _ _⟩

/-- Settles O4: LEA and IADDW are one result each; IADDC writes its sum or difference, then its predicate. -/
theorem wideAddresses : Obligations.WideAddresses := by
  intro h d a b k p
  refine ⟨gives32_of _ _ _ _ fun _ => rfl, gives64_of _ _ _ _ fun _ => rfl, gives64_of _ _ _ _ fun _ => rfl, gives64_of _ _ _ _ fun _ => rfl,
    gives64_of _ _ _ _ fun _ => rfl, gives64_of _ _ _ _ fun _ => rfl, fun sub => ?_⟩
  have hacts := acts32P_of (.iaddc h d a b p sub) d p (fun c l => (addc sub (c.w32 a l) (c.w32 b l) (c.p p.toNat l)).1)
    (fun c l => (addc sub (c.w32 a l) (c.w32 b l) (c.p p.toNat l)).2) fun _ => rfl
  simpa only [addc_fst, addc_snd] using hacts

end

section
/-! PROOFS. Compares, FP32 arithmetic, error-free pairs, packed 16-bit arithmetic and conversions (R161 to R168, R173, R178 to R185, R188, R189). -/
open Sys2Proof Sys2Proof.Machine

namespace Sys2Proof.Machine

/-! ### Flags of the lanes that execute (R161) -/

/-- Lanes that all raise one flag or none raise it together if any does. -/
theorem foldl_flag {α : Type} (p : α → Bool) (y : BitVec 8) : ∀ (ls : List α) (x : BitVec 8),
    ls.foldl (fun a l => a ||| if p l then y else 0) x = x ||| if ls.any p then y else 0
  | [], _ => BitVec.or_zero.symm
  | l :: r, x => by
    rw [List.foldl_cons, foldl_flag p y r, List.any_cons, BitVec.or_assoc]
    cases p l
    · rw [Bool.false_or]
      exact congrArg (x ||| ·) BitVec.zero_or
    · cases r.any p
      · exact congrArg (x ||| ·) BitVec.or_zero
      · exact congrArg (x ||| ·) BitVec.or_self
theorem Ctx.flags_zero (c : Ctx) (d : Opd) : c.flags d (fun _ => 0) = 0 := by
  have hfold : ∀ ls : List Nat, ls.foldl (fun (a : BitVec 8) _ => a ||| 0) 0 = 0 := by
    intro ls
    induction ls with
    | nil => rfl
    | cons l r ih => exact ih
  cases d with
  | s n => exact ite_self _
  | _ => exact hfold _

/-! ### One lemma per form of result -/

/-- An FP32 or packed instruction writes its result and raises the flags of the lanes that execute. -/
theorem givesF_of {i : Instr} {d : Opd} (f : Ctx → Nat → FR) (he : ∀ s, exec i s = flt i s d f) : GivesF i d f := gives32_of _ _ _ _ he
/-- Without flags in any lane, it raises none. -/
theorem gives_of_flt {i : Instr} {d : Opd} (f : Ctx → Nat → Word) (r : Ctx → Nat → FR) (hw : ∀ c l, (r c l).word = f c l)
    (hfl : ∀ c l, (r c l).fl = 0) (he : ∀ s, exec i s = flt i s d r) : Gives i d f := by
  have h := givesF_of r he
  simp only [GivesF, hw, hfl, Ctx.flags_zero] at h
  exact h
/-- An error-free transform writes hi and lo into a pair, hi first (R183). -/
theorem gives64_pair {i : Instr} {d : Opd} (f : Ctx → Nat → (Word × Word) × BitVec 8) (he : ∀ s, exec i s = pairOp i s d f) :
    Gives64 i d (fun c l => (f c l).1.2 ++ (f c l).1.1) (fun c => c.flags d (fun l => (f c l).2)) :=
  gives64_ofN i d (fun c j l => if j = 0 then (f c l).1.1 else (f c l).1.2) (fun c => c.flags d (fun l => (f c l).2)) he

/-! ### Compares (R173, R180) -/

theorem icmp_unsigned (cc : Cmp) (x y : Word) : icmp cc false x y = match cc with
    | .eq => decide (x = y) | .ne => decide (x ≠ y) | .lt => x.ult y | .le => x.ule y | .gt => y.ult x | .ge => y.ule x := by
  cases cc <;> simp only [icmp, gt_iff_lt, ge_iff_le, wInt_lt_unsigned, wInt_le_unsigned, Bool.decide_eq_true]
  · rw [Bool.eq_iff_iff, beq_iff_eq, decide_eq_true_iff, wInt_inj]
  · rw [Bool.eq_iff_iff, bne_iff_ne, decide_eq_true_iff, ne_eq, wInt_inj]
theorem icmp_signed (cc : Cmp) (x y : Word) : icmp cc true x y = match cc with
    | .eq => decide (x = y) | .ne => decide (x ≠ y) | .lt => x.slt y | .le => x.sle y | .gt => y.slt x | .ge => y.sle x := by
  cases cc <;> simp only [icmp, gt_iff_lt, ge_iff_le, wInt_lt_signed, wInt_le_signed, Bool.decide_eq_true]
  · rw [Bool.eq_iff_iff, beq_iff_eq, decide_eq_true_iff, wInt_inj]
  · rw [Bool.eq_iff_iff, bne_iff_ne, decide_eq_true_iff, ne_eq, wInt_inj]

theorem gives_icmp (h : Hdr) (p : Pr) (a b : Opd) (sg : Bool) (cc : Cmp) :
    GivesP (.icmp h p a b sg cc) p (fun c l => icmp cc sg (c.w32 a l) (c.w32 b l)) (fun _ => 0) := givesP_of _ _ _ _ fun _ => rfl

theorem gives_fcmp (h : Hdr) (p : Pr) (a b : Opd) (cc : FCond) :
    GivesP (.fcmp h p a b cc) p (fun c l => (fCmp cc (c.fv a l) (c.fv b l)).1)
      (fun c => c.flags .zero (fun l => (fCmp cc (c.fv a l) (c.fv b l)).2)) :=
  givesP_of _ _ _ _ fun _ => rfl

/-- Is NV due for the operands of FCMP: a signalling NaN, or any NaN in the ordered relations (Table 7.6)? -/
def fcmpInvalid (cc : FCond) (x y : Num) : Bool :=
  match cc with
  | .lt | .le | .gt | .ge => x.isNan || y.isNan
  | _ => x.isSnan || y.isSnan
theorem nvOf_pair (x y : Num) : nvOf [x, y] = if x.isSnan || y.isSnan then fNV else 0 := by
  rw [nvOf, List.any_cons, List.any_cons, List.any_nil, Bool.or_false]
theorem fCmp_snd (cc : FCond) (x y : Num) : (fCmp cc x y).2 = if fcmpInvalid cc x y then fNV else 0 := by
  cases cc <;> simp only [fCmp, fcmpInvalid, nvOf_pair] <;> rfl
theorem flags_fcmp (c : Ctx) (cc : FCond) (x y : Nat → Num) :
    c.flags .zero (fun l => (fCmp cc (x l) (y l)).2) = if (lanesOf c.lanes).any (fun l => fcmpInvalid cc (x l) (y l)) then fNV else 0 := by
  simp only [Ctx.flags, fCmp_snd, foldl_flag]
  exact BitVec.zero_or

/-! ### Special values (R164, R165, R179, R182) -/

theorem finish_nan (f : Fmt) (rm : Nat) (g : Bool) : (finish f rm (.nan g)).x = f.nanBits ∧ (finish f rm (.nan g)).fl = if g then fNV else 0 := by
  cases g <;> exact ⟨rfl, BitVec.zero_or⟩

/-- A NaN operand of a sum or product makes a NaN, marked if an operand is signalling (R165). -/
theorem add_mul_nan (rm : Nat) {a b : Num} (h : (a.isNan || b.isNan) = true) :
    ∃ g, Num.add rm a b = .nan g ∧ Num.mul a b = .nan g ∧ g = (a.isSnan || b.isSnan) := by
  match a, b with
  | .nan g, .nan k => exact ⟨g || k, rfl, rfl, rfl⟩
  | .nan g, .inf _ => exact ⟨g, rfl, rfl, (Bool.or_false g).symm⟩
  | .nan g, .fin _ _ _ => exact ⟨g, rfl, rfl, (Bool.or_false g).symm⟩
  | .inf _, .nan k => exact ⟨k, rfl, rfl, rfl⟩
  | .fin _ _ _, .nan k => exact ⟨k, rfl, rfl, rfl⟩

/-- An exact zero sum of opposite terms is −0 only when rounding down (R164). -/
theorem add_opposite (rm : Nat) (s : Bool) {m : Nat} (e : Int) (hm : m ≠ 0) :
    ∃ q, Num.add rm (.fin s m e) (.fin (!s) m e) = .fin (rm = 2) 0 q := by
  have hzero : scaled s m e (min e e) + scaled (!s) m e (min e e) = 0 := by cases s <;> simp [scaled]
  refine ⟨min e e, ?_⟩
  simp only [Num.add]
  rw [if_pos hzero, if_neg (fun h => hm h.1)]

/-- The code of a power of two above the smallest normal number: its biased exponent, and no fraction. -/
theorem roundMag_two_pow (f : Fmt) (rm : Nat) (s : Bool) {e : Int} (h : 1 - (f.bias : Int) ≤ e) :
    (roundMag f rm s 1 e false).1 = (e + f.bias).toNat * 2 ^ f.mb := by
  have hq : max (e + (bitLen 1 : Nat) - (f.mb + 1 : Nat)) f.qmin = e - f.mb := by
    have hlen : bitLen 1 = 1 := by decide
    rw [hlen, Fmt.qmin]; omega
  have hexact : roundAt rm s 1 e false (e - f.mb) = (2 ^ f.mb, false) := by
    rw [roundAt, if_pos (by omega), show (e - (e - f.mb)).toNat = f.mb by omega, Nat.one_mul]
  have hne : (2 ^ f.mb : Nat) ≠ 2 ^ (f.mb + 1) := by have := Nat.two_pow_pos f.mb; rw [Nat.pow_succ]; omega
  simp only [roundMag, hq, hexact, hne, if_false]
  have hexp : (e - f.mb - f.qmin).toNat + 1 = (e + f.bias).toNat := by rw [Fmt.qmin]; omega
  rw [← hexp, Nat.succ_mul]

/-- A power of two beyond every exponent overflows by the rounding mode, with OF and NX (R164). -/
theorem roundTo_overflow (f : Fmt) (rm : Nat) (s : Bool) {e : Int} (h : (f.emax * 2 : Int) < e) :
    roundTo f rm s 1 e =
      { x := if rm = 0 ∨ (rm = 2 ∧ s = true) ∨ (3 ≤ rm ∧ s = false) then f.infBits s else f.sign s (f.emax * 2 ^ f.mb - 1)
        fl := fOF ||| fNX } := by
  have hmag : f.emax * 2 ^ f.mb ≤ (roundMag f rm s 1 e false).1 := by
    rw [roundMag_two_pow f rm s (by omega)]
    exact Nat.mul_le_mul_right _ (by omega)
  simp only [roundTo]
  rw [if_neg (by decide), if_pos hmag]
  match rm with
  | 0 => simp
  | 1 => simp
  | 2 => simp
  | _ + 3 => simp

/-- FMIN and FMAX return the number beside a NaN (R179). -/
theorem fMinMax_nan (f : Fmt) (mx : Bool) {x y : Nat} (hx : (Num.of f x).isNan = true) (hy : (Num.of f y).isNan = false) :
    (fMinMax f mx x y).x = y ∧ (fMinMax f mx y x).x = y := by
  constructor <;> simp only [fMinMax, hx, hy, Bool.and_false, Bool.false_and, Bool.false_eq_true, if_false, if_true]

/-- FCLASS sets one bit of ten (R182). -/
theorem fClass_one (f : Fmt) (x : Nat) : ∃ k, k < 10 ∧ fClass f x = 2 ^ k := by
  unfold fClass
  split
  · split
    · exact ⟨8, by decide, rfl⟩
    · exact ⟨9, by decide, rfl⟩
  · split
    · exact ⟨0, by decide, rfl⟩
    · exact ⟨7, by decide, rfl⟩
  · split
    · split
      · exact ⟨3, by decide, rfl⟩
      · exact ⟨4, by decide, rfl⟩
    · split
      · split
        · exact ⟨2, by decide, rfl⟩
        · exact ⟨5, by decide, rfl⟩
      · split
        · exact ⟨1, by decide, rfl⟩
        · exact ⟨6, by decide, rfl⟩

/-! ### Packed elements and integer conversions (R185, R188) -/

/-- Element `i` of a packed word, by its bits. -/
theorem half_eq (x : Word) (i : Nat) : half x i = (x.extractLsb' (16 * i) 16).toNat := bits_toNat x (16 * i) 16
theorem gives_cvtfi (h : Hdr) (d a : Opd) (rm : Rm) {ty : ITy} (hty : ty.wide = false) :
    Gives32 (.cvtfi h d a rm ty) d (fun c l => (fToInt ty (c.rm rm) (c.fv a l)).1.setWidth 32)
      (fun c => c.flags d (fun l => (fToInt ty (c.rm rm) (c.fv a l)).2)) :=
  gives32_of _ _ _ _ fun _ => by simp only [exec, execCvtfi, hty, Bool.false_eq_true, if_false]
theorem gives64_cvtfi (h : Hdr) (d a : Opd) (rm : Rm) {ty : ITy} (hty : ty.wide = true) :
    Gives64 (.cvtfi h d a rm ty) d (fun c l => (fToInt ty (c.rm rm) (c.fv a l)).1)
      (fun c => c.flags d (fun l => (fToInt ty (c.rm rm) (c.fv a l)).2)) :=
  gives64_of _ _ _ _ fun _ => by simp only [exec, execCvtfi, hty, if_true]

end Sys2Proof.Machine

/-- Settles O5: a compare is one predicate result; FCMP's lanes raise one flag or none, so NV is raised if any lane raises it. -/
theorem compares : Obligations.Compares := by
  intro h p a b
  refine ⟨fun cc => (gives_icmp h p a b false cc).congr (fun _ _ => (icmp_unsigned cc _ _).trans ?_) fun _ => rfl,
    fun cc => (gives_icmp h p a b true cc).congr (fun _ _ => (icmp_signed cc _ _).trans ?_) fun _ => rfl,
    fun cc => (gives_fcmp h p a b cc).congr (fun c l => ?truth) fun c => (flags_fcmp c cc (c.fv a) (c.fv b)).trans ?flag⟩
  · cases cc <;> rfl
  · cases cc <;> rfl
  case truth =>
    cases cc with
    | ne => exact congrArg (_ || ·) decide_not.symm
    | _ => rfl
  case flag => cases cc <;> rfl

/-- Settles O8: each instruction is one `flt` of the exact result, rounded; the lanes of FCLASS raise no flag. -/
theorem floatArithmetic : Obligations.FloatArithmetic := by
  intro h d a b x rm
  exact ⟨givesF_of _ fun _ => rfl, givesF_of _ fun _ => rfl, givesF_of _ fun _ => rfl, givesF_of _ fun _ => rfl, givesF_of _ fun _ => rfl,
    givesF_of _ fun _ => rfl, givesF_of _ fun _ => rfl, fun _ => givesF_of _ fun _ => rfl,
    gives_of_flt _ (fun c l => { x := fClass fp32 (c.fp a l).toNat, fl := 0 }) (fun _ _ => rfl) (fun _ _ => rfl) fun _ => rfl⟩

/-- Settles O9: NaNs, overflow, zero sums, FMIN, FMAX and FCLASS case by case. -/
theorem floatSpecialValues : Obligations.FloatSpecialValues :=
  ⟨finish_nan, ⟨rfl, rfl, rfl⟩, fun rm _ _ h => add_mul_nan rm h, fun _ s => by cases s <;> rfl, fun _ _ _ => rfl,
    fun f rm s _ _ he => by rw [roundTo_overflow f rm s he]; exact ⟨rfl, rfl⟩, fun rm s _ e hm => add_opposite rm s e hm,
    fun mx _ _ hx hy => fMinMax_nan fp32 mx hx hy, fun x => fClass_one fp32 x.toNat⟩

/-- Settles O10: the transforms are one `pairOp` each, the packed instructions and conversions one `flt` of their elements. -/
theorem pairsAndConversions : Obligations.PairsAndConversions := by
  intro h d a b x rm b0
  refine ⟨gives64_pair _ fun _ => rfl, gives64_pair _ fun _ => rfl, gives64_pair _ fun _ => rfl, gives64_pair _ fun _ => rfl,
    ⟨?add, ?mul, ?fma, ?fmaBf16, ?toFp16, ?toBf16, fun _ => givesF_of _ fun _ => rfl, fun _ _ => ?unpack⟩,
    givesF_of _ fun _ => rfl, givesF_of _ fun _ => rfl, givesF_of _ fun _ => rfl, givesF_of _ fun _ => rfl,
    fun _ hty => gives_cvtfi h d a rm hty, fun _ hty => gives64_cvtfi h d a rm hty⟩
  all_goals
    simp only [← half_eq]
    exact givesF_of _ fun _ => rfl

end

section
/-! PROOFS. Instructions that look across the active lanes (R190 to R201). -/
open Sys2Proof Sys2Proof.Machine

namespace Sys2Proof.Machine

/-! ### Votes and REBAL (R194, R195, R199) -/

/-- A test of the predicate's values in the active lanes, as a test over all 32 lanes (R190, R194). -/
theorem Ctx.any_preds (c : Ctx) (q : Pr) (neg : Bool) :
    (c.preds q neg).any id = (List.range 32).any (fun l => c.lanes.getLsbD l && (c.p q.toNat l != neg)) := by
  rw [Ctx.preds, List.any_map, lanesOf, List.any_filter]; rfl
theorem Ctx.all_preds (c : Ctx) (q : Pr) (neg : Bool) :
    (c.preds q neg).all id = (List.range 32).all (fun l => !c.lanes.getLsbD l || (c.p q.toNat l != neg)) := by
  rw [Ctx.preds, List.all_map, lanesOf, List.all_filter]; rfl

/-- BALLOT's mask: the active lanes whose predicate is true (R195). -/
def Ctx.ballot (c : Ctx) (q : Pr) (neg : Bool) : Word := lanesWhere (fun l => c.lanes.getLsbD l && (c.p q.toNat l != neg))
theorem Ctx.getLsbD_ballot (c : Ctx) (q : Pr) (neg : Bool) {i : Nat} (hi : i < 32) :
    (c.ballot q neg).getLsbD i = (c.lanes.getLsbD i && (c.p q.toNat i != neg)) := by
  rw [Ctx.ballot, getLsbD_lanesWhere, decide_eq_true hi, Bool.true_and]

/-- REBAL's row and offset for lane `l`, with the row lengths of the active lanes (R199). -/
def Ctx.rebal (c : Ctx) (a b : Opd) (l : Nat) : Word × Word :=
  Machine.rebal (fun j => if c.lanes.getLsbD j then (c.w32 a j).toNat else 0) (c.w32 b l).toNat l

/-! ### CSAMP's flags (R200) -/

/-- The prefix sums add no flag but OF to those they start with. -/
theorem prefixes_flags : ∀ (ws : List Word) (q : Word) (fl : BitVec 8), (prefixes ws q fl).2 &&& ~~~fOF = fl &&& ~~~fOF
  | [], _, _ => rfl
  | x :: r, q, fl => by
    simp only [prefixes]
    rw [prefixes_flags r]
    ext i hi
    simp only [BitVec.getElem_and, BitVec.getElem_or, BitVec.getElem_not]
    cases fOF[i] <;> simp

/-! ### The number of RAND.f01 (R201) -/

/-- Bits of a normal number with sign +: exponent field `E`, fraction `k`. -/
theorem Num.of_normal (f : Fmt) {E k : Nat} (hk : k < 2 ^ f.mb) (h0 : E ≠ 0) (hE : E < f.emax) :
    Num.of f (E * 2 ^ f.mb + k) = .fin false (k + 2 ^ f.mb) (f.qmin + (E - 1 : Nat)) := by
  have hemax : E < 2 ^ f.eb := by have := Nat.two_pow_pos f.eb; rw [Fmt.emax] at hE; omega
  have hsign : bit (E * 2 ^ f.mb + k) (f.eb + f.mb) = false := by
    refine Nat.testBit_lt_two_pow ?_
    calc E * 2 ^ f.mb + k < (E + 1) * 2 ^ f.mb := by rw [Nat.succ_mul]; omega
      _ ≤ 2 ^ f.eb * 2 ^ f.mb := Nat.mul_le_mul_right _ hemax
      _ = 2 ^ (f.eb + f.mb) := (Nat.pow_add ..).symm
  have hexp : bits (E * 2 ^ f.mb + k) f.mb f.eb = E := by
    rw [bits, Nat.shiftRight_eq_div_pow, Nat.mul_comm, Nat.mul_add_div (Nat.two_pow_pos _), Nat.div_eq_of_lt hk, Nat.add_zero, Nat.mod_eq_of_lt hemax]
  have hfrac : bits (E * 2 ^ f.mb + k) 0 f.mb = k := by
    rw [bits, Nat.shiftRight_zero, Nat.mul_comm, Nat.mul_add_mod, Nat.mod_eq_of_lt hk]
  simp only [Num.of, hsign, hexp, hfrac]
  rw [if_neg hE.ne, if_neg h0]

/-- A number shifted up until its highest bit is bit `p`. -/
theorem shifted_up {n p : Nat} (h0 : n ≠ 0) (h : n.log2 ≤ p) : 2 ^ p ≤ n * 2 ^ (p - n.log2) ∧ n * 2 ^ (p - n.log2) < 2 ^ (p + 1) := by
  constructor
  · calc 2 ^ p = 2 ^ n.log2 * 2 ^ (p - n.log2) := by rw [← Nat.pow_add, Nat.add_sub_cancel' h]
      _ ≤ n * 2 ^ (p - n.log2) := Nat.mul_le_mul_right _ (Nat.log2_self_le h0)
  · calc n * 2 ^ (p - n.log2) < 2 ^ (n.log2 + 1) * 2 ^ (p - n.log2) := Nat.mul_lt_mul_of_pos_right Nat.lt_log2_self (Nat.two_pow_pos _)
      _ = 2 ^ (p + 1) := by rw [← Nat.pow_add]; congr 1; omega

/-- A significand that fits the format keeps every bit: the code of an exact value that is not subnormal. -/
theorem roundMag_exact (f : Fmt) (rm : Nat) (s : Bool) {m : Nat} {e : Int} (hm : m ≠ 0) (hfit : m.log2 ≤ f.mb) (hnorm : f.qmin + f.mb ≤ e + m.log2) :
    (roundMag f rm s m e false).1 = (e + m.log2 - f.mb - f.qmin).toNat * 2 ^ f.mb + m * 2 ^ (f.mb - m.log2) := by
  have hq : max (e + (bitLen m : Nat) - (f.mb + 1 : Nat)) f.qmin = e + m.log2 - f.mb := by
    rw [bitLen, if_neg hm]; omega
  have hexact : roundAt rm s m e false (e + m.log2 - f.mb) = (m * 2 ^ (f.mb - m.log2), false) := by
    rw [roundAt, if_pos (by omega), show (e - (e + m.log2 - f.mb)).toNat = f.mb - m.log2 by omega]
  simp only [roundMag, hq, hexact, (shifted_up hm hfit).2.ne, if_false]

theorem fp32_mb : fp32.mb = 23 := rfl
theorem fp32_emax : fp32.emax = 255 := rfl
theorem fp32_qmin : fp32.qmin = -149 := rfl

/-- A number `n` × 2⁻²⁴ as FP32 (R201). -/
def unitWord (n : Nat) : Word := (roundTo fp32 0 false n (-24)).word
/-- The code of `n` × 2⁻²⁴ below 1: the exponent of its highest bit, and `n` shifted up to 24 bits without that bit. -/
theorem toNat_unitWord {n : Nat} (h0 : n ≠ 0) (hlog : n.log2 < 24) {k : Nat} (hk : k < 2 ^ 23) (hsig : n * 2 ^ (23 - n.log2) = k + 2 ^ 23) :
    (unitWord n).toNat = (n.log2 + 103) * 2 ^ 23 + k := by
  have hmag : (roundMag fp32 0 false n (-24) false).1 = (n.log2 + 103) * 2 ^ 23 + k := by
    have hexact := roundMag_exact fp32 0 false (e := -24) h0 (Nat.lt_succ_iff.1 hlog) (by rw [fp32_qmin, fp32_mb]; omega)
    rw [fp32_qmin, fp32_mb, hsig, show (-24 + (n.log2 : Int) - (23 : Nat) - -149).toNat = n.log2 + 102 by omega] at hexact
    exact hexact.trans (by omega)
  have hfinite : ¬fp32.emax * 2 ^ fp32.mb ≤ (n.log2 + 103) * 2 ^ 23 + k := by rw [fp32_emax, fp32_mb]; omega
  have hround : (roundTo fp32 0 false n (-24)).x = (n.log2 + 103) * 2 ^ 23 + k := by
    simp only [roundTo, hmag, hfinite, h0, decide_false, Bool.false_and, Bool.false_eq_true, if_false, Fmt.sign]
  rw [unitWord, FR.word, BitVec.toNat_ofNat, hround]
  exact Nat.mod_eq_of_lt (by omega)

/-- Below 1, `n` × 2⁻²⁴ is exact in FP32: zero, or a normal number with a significand of 24 bits (R201). -/
theorem f32_unitWord_zero : f32 (unitWord 0) = .fin false 0 (-(149 : Nat)) := by decide
theorem f32_unitWord {n : Nat} (h0 : n ≠ 0) (hn : n < 2 ^ 24) :
    f32 (unitWord n) = .fin false (n * 2 ^ (23 - n.log2)) (-(24 + (23 - n.log2) : Nat)) := by
  have hlog : n.log2 < 24 := (Nat.log2_lt h0).2 hn
  obtain ⟨hlow, hhigh⟩ := shifted_up h0 (Nat.lt_succ_iff.1 hlog)
  obtain ⟨k, hk⟩ := Nat.exists_eq_add_of_le' hlow
  have hfrac : k < 2 ^ 23 := by omega
  rw [f32, toNat_unitWord h0 hlog hfrac hk, hk]
  refine (Num.of_normal fp32 hfrac (by omega) (by rw [fp32_emax]; omega)).trans ?_
  rw [fp32_qmin]
  congr 1
  omega

theorem Num.fin_cmp_one {m k : Nat} (h : m < 2 ^ k) : (Num.fin false m (-(k : Nat))).cmp (.fin false 1 0) < 0 := by
  have hmin : min (-(k : Int)) 0 = -k := by omega
  have hless : scaled false m (-k) (-k) < scaled false 1 0 (-k) := by
    simp only [scaled, Bool.false_eq_true, if_false, sub_self, zero_sub, neg_neg, Int.toNat_zero, Int.toNat_natCast, pow_zero, mul_one, one_mul]
    exact Int.ofNat_lt.2 h
  simp only [Num.cmp, hmin, hless, if_true]
  decide

/-- A number of 24 bits × 2⁻²⁴ is positive or +0, and below 1. -/
theorem f32_unitWord_lt_one {n : Nat} (hn : n < 2 ^ 24) :
    (f32 (unitWord n)).isNan = false ∧ (f32 (unitWord n)).sgn = false ∧ (f32 (unitWord n)).cmp (.fin false 1 0) < 0 := by
  by_cases h0 : n = 0
  · rw [h0, f32_unitWord_zero]
    exact ⟨rfl, rfl, Num.fin_cmp_one (Nat.two_pow_pos _)⟩
  · rw [f32_unitWord h0 hn]
    refine ⟨rfl, rfl, Num.fin_cmp_one ?_⟩
    rw [Nat.pow_add]
    exact Nat.mul_lt_mul_of_pos_right hn (Nat.two_pow_pos _)

end Sys2Proof.Machine

/-- Settles O11: each instruction is one `compute` with the stated result; the votes and BALLOT are read lane by lane, CSAMP's sums keep only
OF, and RAND.f01 is a 24-bit number × 2⁻²⁴, exactly. Flags stand in FFLAGS from the issue on (log entry 61), and RAND with a scalar destination writes
the lowest active lane's result (log entry 63). -/
theorem crossLane : Obligations.CrossLane := by
  intro h d a b p q rm neg
  refine ⟨fun m g => gives32_of _ _ _ _ fun s => ?lxch, fun m g => acts32P_of _ d p _ _ fun _ => rfl,
    fun k => (givesP_of (.agree h p q k neg) p (fun c _ => agree k (c.preds q neg)) (fun _ => 0) fun _ => rfl).congr (fun c _ => ?agree) fun _ => rfl,
    ⟨fun c => c.ballot q neg, fun c _ hi => c.getLsbD_ballot q neg hi, gives32_of _ _ _ _ fun _ => rfl,
      (gives32_of _ _ (fun c _ => popcW (c.ballot q neg)) _ fun _ => rfl).congr fun _ _ => popcW_eq _⟩,
    fun _ _ => gives32_of _ _ _ _ fun _ => rfl, fun _ _ _ => gives32_of _ _ _ _ fun _ => rfl,
    gives64_ofN _ _ (fun c j l => if j = 0 then (c.rebal a b l).1 else (c.rebal a b l).2) _ fun _ => rfl,
    ⟨gives32_of _ _ _ _ fun _ => rfl, fun l q => (prefixes_flags l q 0).trans BitVec.zero_and⟩, gives32_of _ _ _ _ fun _ => rfl,
    ⟨fun x k => unitWord ((randHash x k).toNat / 256), gives32_of _ _ _ _ fun _ => rfl, fun x k => f32_unitWord_lt_one ?rand⟩⟩
  case lxch => simp only [exec, execLxch, List.append_nil]
  case agree => cases k <;> simp only [agree, Ctx.any_preds, Ctx.all_preds]
  case rand => have := (randHash x k).isLt; omega

end

section
/-! PROOFS. Memory by physical address: what a write of bytes at consecutive addresses leaves, whoever makes it (R202, R465). -/
open Sys2Proof Sys2Proof.Machine

namespace Sys2Proof.Machine

/-- The addresses of `n` bytes from `pa` on reach cells of their own. -/
def State.OwnCells (s : State) (pa n : Nat) : Prop := ∀ i j, i < n → j < n → s.cell (pa + i) = s.cell (pa + j) → i = j

/-- `u` is `s` after memory took the bytes `bs` at `pa`: where their cells differ each reads as written, and a byte of any other cell reads as before. -/
structure State.Stored (s u : State) (pa : Nat) (bs : List Byte) : Prop where
  cell : u.cell = s.cell
  lines : u.lines = s.lines
  linkErr : u.linkErr = s.linkErr
  here : s.OwnCells pa bs.length → ∀ i, i < bs.length → u.memAt (pa + i) = bs.getD i 0
  off : ∀ a, (∀ i, i < bs.length → s.cell a ≠ s.cell (pa + i)) → u.memAt a = s.memAt a

namespace State.Stored
variable {s u v : State} {pa : Nat} {xs ys : List Byte}

/-- A change that no byte of memory shows. -/
theorem of_memAt (cell : u.cell = s.cell) (lines : u.lines = s.lines) (linkErr : u.linkErr = s.linkErr) (memAt : u.memAt = s.memAt) (pa : Nat) :
    s.Stored u pa [] := ⟨cell, lines, linkErr, fun _ _ h => absurd h (Nat.not_lt_zero _), fun _ _ => by rw [memAt]⟩

theorem refl (s : State) (pa : Nat) : s.Stored s pa [] := of_memAt rfl rfl rfl rfl pa

theorem memPut (s : State) (pa : Nat) (b : Byte) : s.Stored (s.memPut pa b) pa [b] where
  cell := rfl
  lines := rfl
  linkErr := rfl
  here _ i h := by
    obtain rfl : i = 0 := by simpa using h
    exact s.memAt_memPut_same pa b
  off a h := s.memAt_memPut_other pa a b (h 0 Nat.one_pos)

/-- Bytes written one range after the other. -/
theorem append (a : s.Stored u pa xs) (b : u.Stored v (pa + xs.length) ys) : s.Stored v pa (xs ++ ys) where
  cell := b.cell.trans a.cell
  lines := b.lines.trans a.lines
  linkErr := b.linkErr.trans a.linkErr
  here own i hi := by
    rw [List.length_append] at own hi
    by_cases hx : i < xs.length
    · have apart : ∀ j, j < ys.length → u.cell (pa + i) ≠ u.cell (pa + xs.length + j) := fun j hj e => by
        rw [a.cell, Nat.add_assoc] at e
        have := own i (xs.length + j) hi (by omega) e
        omega
      rw [b.off _ apart, a.here (fun i j hi hj => own i j (by omega) (by omega)) i hx, List.getD_append _ _ _ _ hx]
    · obtain ⟨j, rfl⟩ := Nat.exists_eq_add_of_le (Nat.le_of_not_lt hx)
      have ownY : u.OwnCells (pa + xs.length) ys.length := fun i j hi hj e => by
        rw [a.cell, Nat.add_assoc, Nat.add_assoc] at e
        have := own (xs.length + i) (xs.length + j) (by omega) (by omega) e
        omega
      rw [← Nat.add_assoc, b.here ownY j (by omega), List.getD_append_right _ _ _ _ (Nat.le_add_right _ _), Nat.add_sub_cancel_left]
  off p h := by
    rw [List.length_append] at h
    have apart : ∀ j, j < ys.length → u.cell p ≠ u.cell (pa + xs.length + j) := fun j hj => by
      rw [a.cell, Nat.add_assoc]
      exact h _ (by omega)
    rw [b.off p apart, a.off p (fun i hi => h i (by omega))]

/-- The same bytes, then a change that memory does not show. -/
theorem then_memAt (a : s.Stored u pa xs) (cell : v.cell = u.cell) (lines : v.lines = u.lines) (linkErr : v.linkErr = u.linkErr) (memAt : v.memAt = u.memAt) :
    s.Stored v pa xs := by
  have h := a.append (of_memAt cell lines linkErr memAt _)
  rwa [List.append_nil] at h

theorem physWrite : ∀ (bs : List Byte) (s : State) (pa : Nat), s.Stored (s.physWrite pa bs) pa bs
  | [], s, pa => refl s pa
  | b :: bs, s, pa => (memPut s pa b).append (physWrite bs (s.memPut pa b) (pa + 1))

end State.Stored

end Sys2Proof.Machine

/-- Settles O25: the rule of one write, its fold over a wider one, and the canonical form of sparse data. -/
theorem memoryReadsWhatWasWritten : Obligations.MemoryReadsWhatWasWritten :=
  ⟨State.memAt_memPut_same, fun s pa qa b _ hcell => s.memAt_memPut_other pa qa b hcell.symm, State.memOk_memPut,
    fun s pa l j own hj => (State.Stored.physWrite l s pa).here own j hj, Memory.ext_read⟩

end

section
/-! PROOFS. Accesses of the host and of peers to device memory, holds on fault records and poisoned words (R217, R226, R438, R440, R442, R444). -/
open Sys2Proof Sys2Proof.Machine

namespace Sys2Proof.Machine

/-! ### A write of one line to memory -/

theorem State.linkFails_nil {s : State} (h : s.linkErr = []) (pa : Nat) (wr : Bool) : s.linkFails pa wr = false := by rw [linkFails, h]; rfl

/-- A write that a peer link fails is dropped (R444). -/
theorem State.memPuts_fails {s : State} {t : Tgt} {o : Nat} (h : s.linkFails (t.pa + o) true = true) (b : BV) : s.memPuts t [(o, b)] = s := by
  have hdrop : [(o, b)].filter (fun x => !s.linkFails (t.pa + x.1) true) = [] := by simp [h]
  simp only [memPuts, hdrop]
  rfl

/-- The bytes of a list at successive offsets from `o`, neither poisoned nor undefined. -/
def plainAt (o : Nat) (bs : List Byte) : List (Nat × BV) := bs.zipIdx.map (fun x => (o + x.2, BV.of x.1))

theorem plainAt_cons (o : Nat) (b : Byte) (bs : List Byte) : plainAt o (b :: bs) = (o, BV.of b) :: plainAt (o + 1) bs := by
  simp only [plainAt, List.zipIdx_cons', List.map_cons, List.map_map, Nat.add_zero, List.cons.injEq, true_and]
  refine List.map_congr_left fun x _ => ?_
  simp only [Function.comp_apply, Prod.map_fst, Prod.map_snd, id_eq, Nat.add_assoc, Nat.add_comm 1]

/-- One byte of a line as memory takes it: undefined where it is undefined in the line. -/
def State.memPutBV (s : State) (t : Tgt) (x : Nat × BV) : State :=
  let s := s.memPut (t.pa + x.1) x.2.b
  if x.2.und then s.memLose (t.pa + x.1) (t.pa + x.1 + 1) else s

theorem State.Stored.plainAt (t : Tgt) : ∀ (bs : List Byte) (s : State) (o : Nat), s.Stored ((plainAt o bs).foldl (State.memPutBV · t ·) s) (t.pa + o) bs
  | [], s, o => refl s _
  | b :: bs, s, o => by
    rw [plainAt_cons, List.foldl_cons]
    exact (memPut s (t.pa + o) b).append (plainAt t bs _ (o + 1))

/-- Poison of a word is no byte of memory. -/
theorem State.Stored.setCellBad {s u : State} {pa : Nat} {bs : List Byte} (h : s.Stored u pa bs) (qa : Nat) (x : Bool) : s.Stored (u.setCellBad qa x) pa bs :=
  h.then_memAt rfl rfl rfl rfl

/-- Plain bytes of a line reach memory, where no peer link fails. -/
theorem State.stored_memPuts {s : State} (h : s.linkErr = []) (t : Tgt) (o : Nat) (bs : List Byte) : s.Stored (s.memPuts t (plainAt o bs)) (t.pa + o) bs := by
  have hkeep : (plainAt o bs).filter (fun x => !s.linkFails (t.pa + x.1) true) = plainAt o bs :=
    List.filter_eq_self.mpr fun x _ => by rw [State.linkFails_nil h]; rfl
  simp only [memPuts, hkeep]
  refine foldl_keeps (fun u => s.Stored u (t.pa + o) bs) _ (fun u w hu => ?_) _ _ (Stored.plainAt t bs s o)
  split
  · exact hu.setCellBad _ _
  · split
    · exact hu.setCellBad _ _
    · exact hu

/-- Keys lost with a backing table change no byte of memory and no range. -/
theorem State.part_tablesLost (s : State) (f : Nat → Bool) (p : Nat) : ∃ w d, (s.tablesLost f).part p = { s.part p with slWild := w, slDef := d } := by
  unfold tablesLost
  split
  · simp only [part, List.getD_eq_getElem?_getD, List.getElem?_map, List.getElem?_zipIdx, Option.map_map]
    cases s.parts[p]? with
    | none => exact ⟨_, _, rfl⟩
    | some q =>
      simp only [Option.map_some, Option.getD_some, Function.comp_apply]
      split
      · exact ⟨_, _, rfl⟩
      · exact ⟨_, _, rfl⟩
  · exact ⟨_, _, rfl⟩
theorem State.cell_tablesLost (s : State) (f : Nat → Bool) : (s.tablesLost f).cell = s.cell := by
  have field {α : Type} (g : Part → α) (hg : ∀ (q : Part) w d, g { q with slWild := w, slDef := d } = g q) (p : Nat) :
      g ((s.tablesLost f).part p) = g (s.part p) := by
    obtain ⟨w, d, h⟩ := s.part_tablesLost f p
    rw [h, hg]
  have hmask := field Part.pqmask (fun _ _ _ => rfl)
  have hbase := field Part.pmbase (fun _ _ _ => rfl)
  have hlim := field Part.pmlim (fun _ _ _ => rfl)
  have hmilv := field Part.milv (fun _ _ _ => rfl)
  have hrange : (s.tablesLost f).rangeOf = s.rangeOf := by
    funext pa
    simp only [rangeOf, active, hmask, hbase, hlim]
  have hplace : (s.tablesLost f).interleave = s.interleave := by
    funext pa
    unfold interleave
    rw [hrange]
    cases s.rangeOf pa with
    | none => rfl
    | some p => dsimp only; rw [hbase p, hmilv p]
  funext pa
  unfold cell
  rw [hplace]
theorem State.Stored.tablesLost {s u : State} {pa : Nat} {bs : List Byte} (h : s.Stored u pa bs) (f : Nat → Bool) : s.Stored (u.tablesLost f) pa bs := by
  have hcell := u.cell_tablesLost f
  refine h.then_memAt hcell ?_ ?_ ?_
  · unfold State.tablesLost; split <;> rfl
  · unfold State.tablesLost; split <;> rfl
  · funext a
    simp only [State.memAt, hcell]
    unfold State.tablesLost
    split <;> rfl

/-! ### A write cut at the ends of lines -/

/-- A way to write the bytes of one piece. -/
abbrev PieceWriter := State → Nat → List Byte → State
/-- The writes of the pieces of a range, one after the other; `lo` is where `bs` begins. -/
def PieceWriter.run (f : PieceWriter) (lo : Nat) (bs : List Byte) (ps : List (Nat × Nat)) (s : State) : State :=
  ps.foldl (fun s x => f s x.1 ((bs.drop (x.1 - lo)).take x.2)) s

/-- Where no line is held and no link fails, each piece reaches memory. -/
def PieceWriter.Stores (f : PieceWriter) : Prop := ∀ (s : State) pa bs, s.lines = [] → s.linkErr = [] → s.Stored (f s pa bs) pa bs

/-- The pieces of the rest of a range hold the rest of its bytes. -/
theorem PieceWriter.Stores.pieces {f : PieceWriter} (hf : f.Stores) (lo : Nat) (bs : List Byte) : ∀ (fuel j : Nat) (s : State),
    bs.length - j = 0 ∨ (lo + j) % 256 + (bs.length - j) ≤ 256 * fuel → s.lines = [] → s.linkErr = [] →
    s.Stored (f.run lo bs (Machine.pieces fuel (lo + j) (bs.length - j)) s) (lo + j) (bs.drop j)
  | 0, j, s, hn, _, _ => by
    rw [List.drop_of_length_le (by omega)]
    exact .refl s _
  | fuel + 1, j, s, hn, hl, hk => by
    rw [Machine.pieces]
    split
    · next h0 =>
      rw [List.drop_of_length_le (by omega)]
      exact .refl s _
    · next h0 =>
      dsimp only
      generalize hm : min (bs.length - j) (256 - (lo + j) % 256) = m
      rw [PieceWriter.run, List.foldl_cons, Nat.add_sub_cancel_left]
      have first := hf s (lo + j) ((bs.drop j).take m) hl hk
      have hlen : ((bs.drop j).take m).length = m := by rw [List.length_take, List.length_drop]; omega
      have rest := PieceWriter.Stores.pieces hf lo bs fuel (j + m) (f s (lo + j) ((bs.drop j).take m)) (by omega)
        (first.lines.trans hl) (first.linkErr.trans hk)
      rw [← List.drop_drop, ← Nat.add_assoc, Nat.sub_add_eq] at rest
      have both := first.append (by rw [hlen]; exact rest)
      rwa [List.take_append_drop] at both

/-- The write of a whole range. -/
theorem PieceWriter.Stores.run {f : PieceWriter} (hf : f.Stores) {s : State} (hl : s.lines = []) (hk : s.linkErr = []) (pa : Nat) (bs : List Byte) :
    s.Stored (f.run pa bs (piecesOf pa bs.length) s) pa bs :=
  hf.pieces pa bs (bs.length / 256 + 2) 0 s (by omega) hl hk

/-! ### Accesses of the host and of peers (R438, R440, R442) -/

section
variable {s : State} (hl : s.lines = [])
include hl

theorem State.devByte_eq_memAt (pa : Nat) : s.devByte pa = s.memAt pa := by rw [devByte, handOff, hl]; rfl
theorem State.peerByte_eq_memBV (pa : Nat) : s.peerByte pa = s.memBV pa := by rw [peerByte, sliceLine, hl]; rfl
theorem State.devPiece_eq_memPuts (pa : Nat) (bs : List Byte) : s.devPiece pa bs = s.memPuts (Tgt.of 0 0 0 pa (Attr.ofPte 0)) (plainAt (pa % 256) bs) := by
  rw [devPiece, handOff, hl]; rfl
theorem State.peerPiece_eq_memPuts (pa : Nat) (bs : List Byte) : s.peerPiece pa bs = s.memPuts (Tgt.of 0 0 0 pa (Attr.ofPte 0)) (plainAt (pa % 256) bs) := by
  rw [peerPiece, sliceLine, hl]; rfl
end

/-- A piece of device memory, named by its physical address. -/
theorem State.stored_memPuts_line {s : State} (hk : s.linkErr = []) (pa : Nat) (a : Attr) (bs : List Byte) :
    s.Stored (s.memPuts (Tgt.of 0 0 0 pa a) (plainAt (pa % 256) bs)) pa bs := by
  have h := State.stored_memPuts hk (Tgt.of 0 0 0 pa a) (pa % 256) bs
  rwa [show (Tgt.of 0 0 0 pa a).pa + pa % 256 = pa from Nat.div_add_mod' pa 256] at h
theorem State.devPiece_stores : PieceWriter.Stores State.devPiece := fun s pa bs hl hk => by
  rw [devPiece_eq_memPuts hl]
  exact stored_memPuts_line hk pa _ bs
theorem State.peerPiece_stores : PieceWriter.Stores State.peerPiece := fun s pa bs hl hk => by
  rw [peerPiece_eq_memPuts hl]
  exact stored_memPuts_line hk pa _ bs

/-- A write of the host to device memory. -/
theorem State.stored_devAccess {s : State} (hl : s.lines = []) (hk : s.linkErr = []) (pa : Nat) (bs : List Byte) :
    s.Stored (s.devAccess pa bs.length (some bs)) pa bs := (devPiece_stores.run hl hk pa bs).tablesLost _
/-- A write of a peer to device memory. -/
theorem State.stored_peerWrite {s : State} (hl : s.lines = []) (hk : s.linkErr = []) (pa : Nat) (bs : List Byte) :
    s.Stored (s.peerWrite pa bs) pa bs := (peerPiece_stores.run hl hk pa bs).tablesLost _

theorem State.combinePa_nil {s : State} (h : s.upds = []) (pa n : Nat) : s.combinePa pa n = s := by rw [combinePa, combine, h]; rfl

section
variable {s : State} {pa n : Nat} (hn : n ≠ 0) (hdev : pa + n ≤ devLimit)
include hn hdev

/-- An access of the host below the firmware area. -/
theorem State.hostAccess_eq (hfw : pa + n ≤ fwLo) {wr : Option (List Byte)} (hwr : wr.any (·.length ≠ n) = false) :
    execHostBar2Access pa n wr s = .next (s.devAccess pa n wr) := by
  rw [execHostBar2Access, hwr, if_neg (by simp [hn, hdev]), if_neg (Nat.not_lt.mpr hfw)]
/-- An access of the host that meets the firmware area. -/
theorem State.hostAccess_firmware (hfw : fwLo < pa + n) {wr : Option (List Byte)} (hwr : wr.any (·.length ≠ n) = false) :
    execHostBar2Access pa n wr s = .next (if wr.isNone then { s with hostRead := List.replicate n 0xFF } else s) := by
  rw [execHostBar2Access, hwr, if_neg (by simp [hn, hdev]), if_pos hfw]
/-- A request of a peer that fits, through a port that is up. -/
theorem State.peerAccess_eq {req : PeerReq} (hup : s.portUp.getD (if req.port then 1 else 0) false = true) (hfit : peerFits pa n req.act = true) :
    execPeerAccess pa n req s = .next (s.peerDo pa n req.act) := by
  rw [execPeerAccess, hup, hfit, if_neg (by simp [hn, hdev])]
end

theorem State.peerAccess_down {s : State} {req : PeerReq} (hdown : s.portUp.getD (if req.port then 1 else 0) false = false) (pa n : Nat) :
    execPeerAccess pa n req s = .refused (.notEnabled "PEER_ACCESS") := by
  rw [execPeerAccess, hdown, if_pos (by simp)]

theorem State.peerDo_read (s : State) (pa n : Nat) :
    let S := s.combinePa pa n
    s.peerDo pa n .read = { S with hostRead := ((List.range n).map (fun i => S.peerByte (pa + i))).map (·.b) } := by
  intro S
  rw [List.map_map]
  rfl
/-- An atomic of a peer that meets poison does as its read (R369). -/
theorem State.peerDo_atom_bad {s : State} {pa n : Nat} (op : Option AtomOp) (ty : MTy) (x y : BitVec 64)
    (h : ∃ b ∈ (List.range n).map (fun i => (s.combinePa pa n).peerByte (pa + i)), b.bad = true) :
    s.peerDo pa n (.atom op ty x y) = s.peerDo pa n .read := by
  have hbad := List.any_eq_true.mpr h
  simp only [peerDo, hbad, if_true, List.map_map, Function.comp_def]
  split <;> rfl

/-! ### Fault records (R217) -/

/-- What anyone holds after every list of holds was put through `f` comes of one of these lists. -/
theorem State.mem_holdsOf_mapHolds {s : State} {f : List Hold → List Hold} {p : Nat} {h : Hold} (hh : h ∈ (s.mapHolds f).holdsOf p) :
    h.part = p ∧ ∃ l, h ∈ f l := by
  simp only [holdsOf, mapHolds, List.mem_filter, List.mem_append, List.mem_flatMap, List.mem_map, beq_iff_eq] at hh
  obtain ⟨hheld, hpart⟩ := hh
  refine ⟨hpart, ?_⟩
  obtain (⟨-, ⟨t, -, rfl⟩, hteam⟩ | ⟨-, ⟨c, -, rfl⟩, hcopy⟩) | ⟨-, ⟨q, -, rfl⟩, hagent⟩ := hheld
  · simp only [List.mem_map] at hteam
    obtain ⟨-, ⟨wv, -, rfl⟩, hwave | hkept⟩ | ⟨-, ⟨x, -, rfl⟩, hpool⟩ := hteam
    · exact ⟨_, hwave⟩
    · exact ⟨_, hkept⟩
    · exact ⟨_, hpool⟩
  · exact ⟨_, hcopy⟩
  · exact ⟨_, hagent⟩

/-- Where every hold has its record no fault enters again. -/
theorem State.reenter_of_slots {s : State} {p : Nat} (h : ∀ x ∈ s.holdsOf p, x.slot.isSome) : s.reenter p = s := by
  have hnone : (s.holdsOf p).filter (·.slot.isNone) = [] := List.filter_eq_nil_iff.mpr fun x hx => by
    have := h x hx
    cases hs : x.slot with
    | none => rw [hs] at this; cases this
    | some _ => simp
  rw [reenter, hnone]
  rfl

/-! ### Error correction (R226) -/

/-- A word marked as poisoned, and every word that was, is poisoned. -/
theorem State.cellBad_setCellBad_true (s : State) (pa qa : Nat) (h : qa = pa ∨ s.cellBad qa = true) : (s.setCellBad pa true).cellBad qa = true := by
  change sget false (sset false s.poison (s.cell pa / 4) true) (s.cell qa / 4) = true
  rw [sget_sset]
  split
  · rfl
  · next hne => exact h.elim (fun e => absurd (e ▸ rfl) hne) id

/-- The words of a list, marked one after the other. -/
def State.poisonWords (s : State) (pa : Nat) (js : List Nat) : State := js.foldl (fun s j => s.setCellBad (pa + 4 * j) true) s

theorem State.mem_poisonWords (pa : Nat) (js : List Nat) (s : State) : (s.poisonWords pa js).mem = s.mem :=
  State.mem_foldl (fun s j => s.setCellBad (pa + 4 * j) true) (fun _ _ => rfl) js s
theorem State.cellBad_poisonWords (pa qa : Nat) : ∀ (js : List Nat) (s : State), (∃ j ∈ js, qa = pa + 4 * j) ∨ s.cellBad qa = true →
    (s.poisonWords pa js).cellBad qa = true
  | [], s, h => h.elim (fun ⟨_, hj, _⟩ => absurd hj List.not_mem_nil) id
  | k :: js, s, h => by
    refine cellBad_poisonWords pa qa js (s.setCellBad (pa + 4 * k) true) ?_
    rcases h with ⟨j, hj, e⟩ | h
    · rcases List.mem_cons.mp hj with rfl | hj
      · exact .inr (s.cellBad_setCellBad_true _ _ (.inl e))
      · exact .inl ⟨j, hj, e⟩
    · exact .inr (s.cellBad_setCellBad_true _ _ (.inr h))

end Sys2Proof.Machine
end

section
/-! PROOFS. Sector fills of a home slice that holds no line (R211, R223). -/
open Sys2Proof Sys2Proof.Machine

namespace Sys2Proof.Machine

/-! ### Pages -/

/-- A page that a walk finds has one of the three sizes, and a frame of whole 4 KiB pages (R206, R207). -/
theorem State.walkFrom_page {s : State} {va : Nat} : ∀ {n tab frame size : Nat} {a : Attr}, s.walkFrom va n tab = .leaf frame size a → 4096 ∣ frame ∧ (size = 4096 ∨ size = 65536 ∨ size = 2097152)
  | 0, _, _, _, _, h => by cases h
  | n + 1, tab, frame, size, a, h => by
    rw [walkFrom] at h
    split at h
    · cases h
    · split at h
      · cases h
      · split at h
        · split at h
          · cases h; omega
          · split at h
            · split at h
              · cases h; omega
              · cases h
            · cases h
        · split at h
          · split at h
            · cases h; omega
            · cases h
          · split at h
            · cases h
            · split at h
              · exact walkFrom_page h
              · cases h
theorem State.walk_page {s : State} {asid va frame size : Nat} {a : Attr} (h : s.walk asid va = .leaf frame size a) : 4096 ∣ frame ∧ (size = 4096 ∨ size = 65536 ∨ size = 2097152) := by
  rw [walk] at h
  dsimp only at h
  split at h
  · cases h
  · split at h
    · cases h
    · split at h
      · exact walkFrom_page h
      · cases h

/-- A line's place in its page is that of its frame. -/
theorem line_of_page {frame size va : Nat} (hf : 256 ∣ frame) (hs : 256 ∣ size) :
    va / size * size + ((frame + va % size) / 256 * 256 - frame) = va / 256 * 256 := by
  obtain ⟨f, rfl⟩ := hf
  obtain ⟨n, rfl⟩ := hs
  have hva := Nat.div_add_mod' va (256 * n)
  generalize va % (256 * n) = r at *
  generalize va / (256 * n) = q at *
  subst hva
  have : q * (256 * n) = 256 * (q * n) := by ring
  omega

/-- Lookaside entries and the mappings that accesses have made. -/
theorem State.tlbFill_eq (s : State) (core : Option Nat) (p asid va : Nat) : ∃ l m, s.tlbFill core p asid va = { s with tlb := l, maps := m } := by
  unfold tlbFill
  split
  · exact ⟨_, _, rfl⟩
  · split
    · exact ⟨_, _, rfl⟩
    · exact ⟨_, _, rfl⟩

/-- A translation that an access leaves behind maps the line that it was made for as the access names it. -/
theorem State.blur_tlbFill {s : State} {p asid va : Nat} {sys : Bool} {pa : Nat} {a : Attr} (hl : s.lines = [])
    (h : s.translate p asid va sys .read = .ok pa a) (hb : s.blur (Tgt.of p asid va pa a) = false) :
    (s.tlbFill none p asid va).blur (Tgt.of p asid va pa a) = false := by
  have htag : s.tagLine none p asid va = none := by rw [tagLine, hl]; rfl
  unfold tlbFill
  split
  · exact hb
  · next hmiss =>
    push Not at hmiss
    obtain ⟨hva, -, htlb⟩ := hmiss
    split
    · next frame size b hw =>
      have hlook : s.lookup p asid va = .leaf frame size b := by rw [lookup, Option.not_isSome_iff_eq_none.mp htlb, ← hw]
      rw [translate, translateBy_miss hva htag, hlook] at h
      obtain ⟨_, _, hx, rfl, -, -⟩ := leaf_ok h
      obtain ⟨rfl, rfl, rfl⟩ := Walked.leaf.inj hx
      obtain ⟨hf, hs⟩ := walk_page hw
      have hline : va / size * size + ((frame + va % size) / 256 * 256 - frame) = va / 256 * 256 := line_of_page (by omega) (by omega)
      simp only [blur, aliased, Bool.or_eq_false_iff] at hb ⊢
      refine ⟨?_, hb.2⟩
      refine Bool.and_eq_false_iff.mpr ((Bool.and_eq_false_iff.mp hb.1).imp id fun hold => ?_)
      obtain ⟨hheld, hmaps⟩ := Bool.or_eq_false_iff.mp hold
      refine Bool.or_eq_false_iff.mpr ⟨hheld, ?_⟩
      split
      · rw [List.any_cons, hmaps, Bool.or_false]
        simp [Tgt.of, hline]
      · exact hmaps
    · exact hb

/-! ### A line that takes words -/

@[simp] theorem Line.puts_nil (l : Line) (own : Nat → Option Nat) : l.puts [] own true = l := by
  have hor {n : Nat} (x : BitVec n) : x ||| 0 = x := BitVec.or_zero
  have keep {n : Nat} (x : BitVec n) : x &&& ~~~0 = x := (congrArg (x &&& ·) BitVec.not_zero).trans BitVec.and_allOnes
  simp only [puts, List.map_nil, List.filter_nil, List.foldl_nil, byteMask, undOs, badWs, wordsOfBytes, List.eraseDups_nil, wordMask, keep, hor, if_true]
@[simp] theorem State.taint_nil (s : State) (up : List Cache) (l : Line) : s.taint up l [] = l := by
  simp [taint, wordsOfBytes, wordMask]

theorem mem_wordBytes (w o : Nat) : o ∈ wordBytes w ↔ o / 4 = w := by
  simp only [wordBytes, List.mem_cons, List.not_mem_nil, or_false]
  omega
/-- Bytes set one after the other. -/
theorem sget_foldl_sset (f : Nat → Byte) (k : Nat) : ∀ (os : List Nat) (d : Sparse Byte),
    sget 0 (os.foldl (fun d o => sset 0 d o (f o)) d) k = if k ∈ os then f k else sget 0 d k
  | [], _ => rfl
  | o :: os, d => by
    rw [List.foldl_cons, sget_foldl_sset f k os, sget_sset]
    by_cases hk : k ∈ os
    · simp [hk]
    · by_cases ho : o = k
      · simp [ho]
      · simp [hk, ho, Ne.symm ho]

/-- A line holds the bytes of its filled words as `src` gives them. -/
structure Line.Holds (l : Line) (src : Nat → BV) : Prop where
  mask : l.mask = 0#256
  data : ∀ o, o < 256 → l.filled.getLsbD (o / 4) = true → sget 0 l.data o = (src o).b

theorem Line.fill_cons (l : Line) (src : Nat → BV) (w : Nat) (ws : List Nat) : l.fill src (w :: ws) = (l.fill src [w]).fill src ws := rfl

theorem Line.fill_one (l : Line) (src : Nat → BV) (w : Nat) : l.fill src [w] =
    if l.filled.getLsbD w then l
    else
      let os := (wordBytes w).filter (fun o => !l.mask.getLsbD o)
      { l with
        filled := l.filled ||| (1#64 <<< w)
        data := os.foldl (fun d o => sset 0 d o (src o).b) l.data
        und := l.und ||| byteMask (os.filter (fun o => (src o).und))
        bad := if os.any (fun o => (src o).bad) then l.bad ||| (1#64 <<< w) else l.bad } := rfl

/-- A fill leaves the line what it is a line of. -/
theorem Line.tag_fill (src : Nat → BV) : ∀ (ws : List Nat) (l : Line),
    (l.fill src ws).loc = l.loc ∧ (l.fill src ws).byPa = l.byPa ∧ (l.fill src ws).tgt = l.tgt
  | [], _ => ⟨rfl, rfl, rfl⟩
  | w :: ws, l => by
    have one : (l.fill src [w]).loc = l.loc ∧ (l.fill src [w]).byPa = l.byPa ∧ (l.fill src [w]).tgt = l.tgt := by
      rw [fill_one]
      split <;> exact ⟨rfl, rfl, rfl⟩
    rw [fill_cons]
    obtain ⟨hloc, hpa, htgt⟩ := tag_fill src ws (l.fill src [w])
    exact ⟨hloc.trans one.1, hpa.trans one.2.1, htgt.trans one.2.2⟩

/-- The word that a fill takes, beside those that were there. -/
theorem Line.Holds.fill_one {l : Line} {src : Nat → BV} (h : l.Holds src) {w : Nat} (hw : w < 64) :
    (l.fill src [w]).Holds src ∧ ∀ k, k = w ∨ l.filled.getLsbD k = true → (l.fill src [w]).filled.getLsbD k = true := by
  rw [Line.fill_one]
  split
  · next hf => exact ⟨h, fun k hk => hk.elim (fun e => e ▸ hf) id⟩
  · have hos : (wordBytes w).filter (fun o => !l.mask.getLsbD o) = wordBytes w :=
      List.filter_eq_self.mpr fun o _ => by rw [h.mask, BitVec.getLsbD_zero]; rfl
    simp only [hos]
    refine ⟨⟨h.mask, fun o ho hf => ?_⟩, fun k hk => ?_⟩
    · dsimp only at hf ⊢
      rw [sget_foldl_sset (fun o => (src o).b)]
      split
      · rfl
      · next hne =>
        rw [mem_wordBytes] at hne
        rw [getLsbD_setBit _ w (by omega), if_neg hne] at hf
        exact h.data o ho hf
    · rw [getLsbD_setBit _ w (hk.elim (fun e => e ▸ hw) BitVec.lt_of_getLsbD)]
      split
      · rfl
      · next hne => exact hk.resolve_left hne

/-- A fill takes the words asked for as the levels beyond give them. -/
theorem Line.Holds.fill {src : Nat → BV} : ∀ {ws : List Nat} {l : Line}, l.Holds src → (∀ w ∈ ws, w < 64) →
    (l.fill src ws).Holds src ∧ ∀ k, k ∈ ws ∨ l.filled.getLsbD k = true → (l.fill src ws).filled.getLsbD k = true
  | [], _, h, _ => ⟨h, fun _ hk => hk.resolve_left List.not_mem_nil⟩
  | w :: ws, l, h, hws => by
    obtain ⟨one, hone⟩ := h.fill_one (hws w List.mem_cons_self)
    obtain ⟨rest, hrest⟩ := one.fill (ws := ws) fun k hk => hws k (List.mem_cons_of_mem _ hk)
    rw [Line.fill_cons]
    refine ⟨rest, fun k hk => hrest k ?_⟩
    rcases hk with hk | hk
    · rcases List.mem_cons.mp hk with rfl | hk
      · exact .inr (hone _ (.inl rfl))
      · exact .inl hk
    · exact .inr (hone k (.inr hk))

/-! ### A fill of a slice that holds nothing -/

/-- A new line is the line of what it was made for, in its cache. -/
theorem Line.is_of_tag {l : Line} {c : Cache} {t : Tgt} (hloc : l.loc = c) (hpa : l.byPa = t.byPa) (ht : l.tgt = t) : l.is c t = true := by
  subst ht
  unfold Line.is
  rw [hloc, hpa]
  simp [Line.tgt]
theorem Line.holds_fresh (c : Cache) (t : Tgt) (way stamp ret tag : Nat) (src : Nat → BV) : (Line.fresh c t way stamp ret tag).Holds src :=
  ⟨rfl, fun _ _ h => by simp [Line.fresh] at h⟩

/-- The state after a line takes its place alone. -/
theorem State.setLine_of_empty {s : State} (hl : s.lines = []) (l : Line) : s.setLine l = { s with lines := [l] } := by
  simp [setLine, hl]
theorem State.setLine_of_same {s : State} {l m : Line} (hl : s.lines = [m]) (h : l.same m = true) : s.setLine l = { s with lines := [l] } := by
  simp [setLine, hl, h]

/-- An empty set of a slice has room in any way that the line may take. -/
theorem State.room_of_empty {s : State} (hl : s.lines = []) (sl : Nat) {t : Tgt} (hw : ∃ w, w < 16 ∧ bit (s.waysOf t) w = true) :
    ∃ way, s.room (.slice sl) t = some (none, way) := by
  obtain ⟨w, hw, hbit⟩ := hw
  have hfound : ((List.range 16).find? (fun w => bit (s.waysOf t) w)).isSome := List.find?_isSome.mpr ⟨w, List.mem_range.mpr hw, hbit⟩
  obtain ⟨way, hway⟩ := Option.isSome_iff_exists.mp hfound
  refine ⟨way, ?_⟩
  simp [room, hl, Cache.ways, hway]

/-- A fill of a home slice where nothing is held: the slice holds the line, with the words asked for as memory has them. -/
theorem State.fillAt_of_empty {s : State} (hl : s.lines = []) (sl : Nat) {t : Tgt} (hw : ∃ w, w < 16 ∧ bit (s.waysOf t) w = true)
    (hb : s.blur t = false) {ws : List Nat} (hws : ∀ w ∈ ws, w < 64) (ret tag : Nat) :
    ∃ l n, s.fillAt (.slice sl) [] t ws ret tag = { s with lines := [l], stamp := n } ∧ l.loc = .slice sl ∧ l.byPa = t.byPa ∧ l.tgt = t ∧
      l.Holds (fun o => s.memBV (t.pa + o)) ∧ ∀ w ∈ ws, l.filled.getLsbD w = true := by
  obtain ⟨way, hroom⟩ := room_of_empty hl sl hw
  have hat : s.lineAt (.slice sl) t = none := by rw [lineAt, hl]; rfl
  generalize hf : Line.fresh (.slice sl) t way s.stamp ret tag = f
  have hfis : f.is (.slice sl) t = true := hf ▸ Line.is_of_tag rfl rfl rfl
  have hput : s.putOut [.slice sl] t ret tag [] (fun _ => none) = { s with lines := [f], stamp := s.stamp + 1 } := by
    rw [putOut, putAt, hat]
    simp only [hroom, hf, taint_nil, Line.puts_nil, setLine_of_empty hl]
  have hblur : ({ s with lines := [f], stamp := s.stamp + 1 } : State).blur t = false := by
    rw [← hb]
    simp [blur, aliased, inRange, part, hl, ← hf, Line.fresh]
  have hsrc : ({ s with lines := [f], stamp := s.stamp + 1 } : State).peek [] t = fun o => s.memBV (t.pa + o) := by
    funext o
    rw [peek, hblur]
    rfl
  have hline : ({ s with lines := [f], stamp := s.stamp + 1 } : State).lineAt (.slice sl) t = some f := List.find?_cons_of_pos hfis
  obtain ⟨hloc, hpa, htgt⟩ := Line.tag_fill (fun o => s.memBV (t.pa + o)) ws f
  obtain ⟨hholds, hfilled⟩ := (hf ▸ Line.holds_fresh ..  : f.Holds (fun o => s.memBV (t.pa + o))).fill hws
  refine ⟨f.fill (fun o => s.memBV (t.pa + o)) ws, s.stamp + 1, ?_, hloc.trans (hf ▸ rfl), hpa.trans (hf ▸ rfl), htgt.trans (hf ▸ rfl), hholds, fun w h => hfilled w (.inl h)⟩
  rw [fillAt, hput, hline]
  dsimp only [heldOn, List.filterMap_nil]
  rw [hsrc]
  refine setLine_of_same rfl ?_
  rw [Line.same, hloc, htgt]
  exact hf ▸ Line.is_of_tag rfl rfl rfl

/-- The way of an agent's access ends at the home slice. -/
theorem State.path_agent {s : State} {t : Tgt} (hhome : t.a.home ≠ 3#2) (hw : ∃ w, w < 16 ∧ bit (s.waysOf t) w = true) :
    s.path none t = [.slice (s.homeOf t)] := by
  have hways : s.waysOf t ≠ 0 := by
    rintro h0
    obtain ⟨w, -, hbit⟩ := hw
    rw [h0, bit, Nat.zero_testBit] at hbit
    cases hbit
  rw [path, if_neg hhome, if_neg hways]
theorem Tgt.rank_agent (t : Tgt) : t.rank Via.agent.sc = 2 := by
  rw [Tgt.rank, if_neg (by simp [Via.agent])]
  rfl
/-- An agent leaves nothing unsent below the slices. -/
theorem State.sendBelow_agent {s : State} {t : Tgt} {sl : Nat} (hp : s.path none t = [.slice sl]) (os : List Nat) : s.sendBelow .agent t os = s := by
  rw [sendBelow, Tgt.rank_agent, show Via.agent.core = none from rfl, hp]
  rfl
/-- Requests of fills that end with the step are kept only where no entry is free. -/
theorem State.passFill_eq (s : State) (m : Miss) : ∃ l, s.passFill m = { s with spill := l } := by
  unfold passFill
  split
  · next hfull =>
    unfold askFill
    rw [if_pos hfull]
    split
    · exact ⟨_, rfl⟩
    · exact ⟨_, rfl⟩
  · exact ⟨_, rfl⟩
theorem State.passFills_eq (f : State → Nat → Miss) (os : List Nat) (s : State) :
    ∃ l, os.foldl (fun s o => s.passFill (f s o)) s = { s with spill := l } := by
  refine foldl_keeps (fun u : State => ∃ l, u = { s with spill := l }) _ (fun u o hu => ?_) os s ⟨s.spill, rfl⟩
  obtain ⟨k, rfl⟩ := hu
  obtain ⟨l, h⟩ := passFill_eq { s with spill := k } (f { s with spill := k } o)
  exact ⟨l, h⟩

/-- The words of the sectors of a line that offsets lie in. -/
theorem mem_sectorWords {os : List Nat} {w : Nat} : w ∈ sectorWords os ↔ ∃ o ∈ os, o / 64 = w / 16 := by
  simp only [sectorWords, List.mem_flatMap, List.mem_eraseDups, List.mem_map, List.mem_range]
  constructor
  · rintro ⟨q, ⟨o, ho, rfl⟩, j, hj, rfl⟩
    exact ⟨o, ho, by omega⟩
  · rintro ⟨o, ho, e⟩
    exact ⟨w / 16, ⟨o, ho, e⟩, w % 16, by omega, by omega⟩

/-- Where nothing is held every sector concerned lacks bytes. -/
theorem lack_of_empty (r : Nat) {os : List Nat} (hne : os ≠ []) : ((os.filter (fun o => lacking r [] [o])).map (· / 64 * 64)).eraseDups ≠ [] := by
  obtain ⟨o, ho⟩ := List.exists_mem_of_ne_nil os hne
  exact List.ne_nil_of_mem (List.mem_eraseDups.mpr (List.mem_map.mpr ⟨o, List.mem_filter.mpr ⟨ho, rfl⟩, rfl⟩))

/-- An agent's read of a line that nothing holds brings the sectors concerned into the home slice. -/
theorem State.touchPiece_of_empty {s : State} {t : Tgt} (hl : s.lines = []) (hhome : t.a.home ≠ 3#2) (hw : ∃ w, w < 16 ∧ bit (s.waysOf t) w = true)
    (hb : s.blur t = false) {os : List Nat} (hne : os ≠ []) (hos : ∀ o ∈ os, o < 256) (d : Bool) :
    ∃ l, (s.touchPiece .agent t os d).lineAt (.slice (s.homeOf t)) t = some l ∧
      ∀ o, o < 256 → (∃ x ∈ os, x / 64 = o / 64) → l.has o = true ∧ sget 0 l.data o = s.memAt (t.pa + o) := by
  have hp := path_agent hhome hw
  have hheld : s.heldOn [.slice (s.homeOf t)] t = [] := by simp [heldOn, lineAt, hl]
  unfold touchPiece
  dsimp only
  rw [sendBelow_agent hp, Tgt.rank_agent, show Via.agent.core = none from rfl, hp, hheld]
  have hlack := lack_of_empty 2 hne
  generalize ((os.filter (fun o => lacking 2 [] [o])).map (· / 64 * 64)).eraseDups = lack at hlack ⊢
  generalize hs1 : List.foldl _ s _ = s1
  generalize hs3 : (if (_ && d) = true then _ else s1) = s3
  obtain ⟨sp, du, at_, h3⟩ : ∃ x y z, s3 = { s with spill := x, due := y, ats := z } := by
    obtain ⟨sp, h⟩ := s.passFills_eq (fun s o => t.miss (s.homeOf t) o true false)
      (if ([Cache.slice (s.homeOf t)].any fun c => decide (c.rank = 2)) = true then lack else [])
    rw [← hs3, hs1.symm.trans h]
    split
    · exact ⟨_, _, _, rfl⟩
    · exact ⟨_, _, _, rfl⟩
  have hl3 : s3.lines = [] := h3 ▸ hl
  have hw3 : ∃ w, w < 16 ∧ bit (s3.waysOf t) w = true := by rw [h3]; exact hw
  have hb3 : s3.blur t = false := by rw [h3]; exact hb
  have hmem3 : s3.memAt = s.memAt := h3 ▸ rfl
  have hws : ∀ w ∈ sectorWords os, w < 64 := fun w h => by
    obtain ⟨o, ho, e⟩ := mem_sectorWords.mp h
    have := hos o ho
    omega
  obtain ⟨l, n, hfill, hloc, hpa, htgt, hholds, hfilled⟩ :=
    fillAt_of_empty hl3 (s.homeOf t) hw3 hb3 hws (t.ret Via.agent.pol) Via.agent.tag
  have hread : ∀ o, o < 256 → (∃ x ∈ os, x / 64 = o / 64) → l.has o = true ∧ sget 0 l.data o = s.memAt (t.pa + o) := by
    rintro o ho ⟨x, hx, e⟩
    have hword := hfilled (o / 4) (mem_sectorWords.mpr ⟨x, hx, by omega⟩)
    exact ⟨by rw [Line.has, hword, Bool.or_true], (hholds.data o ho hword).trans (congrFun hmem3 _)⟩
  generalize hs2 : List.foldl _ s3 _ = s2
  have h2 : s2 = { s3 with lines := [l], stamp := n } := by
    rw [← hs2, ← hfill, List.reverse_singleton, List.foldl_cons, List.foldl_nil, if_pos (show (Cache.slice (s.homeOf t)).rank = 2 from rfl), if_pos hlack]
  have hlis : l.is (.slice (s.homeOf t)) t = true := Line.is_of_tag hloc hpa htgt
  have hline : s2.lineAt (.slice (s.homeOf t)) t = some l := h2 ▸ List.find?_cons_of_pos hlis
  rw [List.find?_cons_of_pos (by rw [hline]; rfl)]
  dsimp only
  rw [hline]
  dsimp only
  split
  · exact ⟨l, hline, hread⟩
  · have hsame : ({ l with stamp := s2.stamp, ret := if l.ret = 0 then t.ret Via.agent.pol else l.ret } : Line).same l = true := by
      rw [Line.same, hloc]
      exact Line.is_of_tag hloc (hpa.trans (congrArg Tgt.byPa htgt.symm)) rfl
    rw [setLine_of_same (h2 ▸ rfl) hsame]
    exact ⟨_, List.find?_cons_of_pos (Line.is_of_tag hloc hpa htgt), hread⟩

/-- A clean fill of a sector of a line that nothing holds. -/
theorem State.fillMiss_of_empty {s : State} {m : Miss} {pa : Nat} {a : Attr} (h : s.translate m.part m.asid m.va m.sys .read = .ok pa a)
    (hhome : a.home ≠ 3#2) (hl : s.lines = []) :
    let t := Tgt.of m.part m.asid m.va pa a
    s.blur t = false → (∃ w, w < 16 ∧ bit (s.waysOf t) w = true) → ∃ l, (s.fillMiss m .none).lineAt (.slice (s.homeOf t)) t = some l ∧
      ∀ o, o / 64 = m.va % 256 / 64 → l.has o = true ∧ sget 0 l.data o = s.memAt (t.pa + o) := by
  intro t hb hw
  have hb := blur_tlbFill hl h hb
  obtain ⟨tlb, maps, htlb⟩ := s.tlbFill_eq none m.part m.asid m.va
  have hfill : s.fillMiss m .none = (s.tlbFill none m.part m.asid m.va).touchPiece .agent t ((List.range 64).map (m.va % 256 / 64 * 64 + ·)) m.demand := by
    rw [fillMiss, h]
    rfl
  rw [hfill]
  rw [htlb] at hb ⊢
  have hos : ∀ o ∈ (List.range 64).map (m.va % 256 / 64 * 64 + ·), o < 256 := fun o ho => by
    obtain ⟨j, hj, rfl⟩ := List.mem_map.mp ho
    have := List.mem_range.mp hj
    omega
  obtain ⟨l, hline, hread⟩ := touchPiece_of_empty (s := { s with tlb := tlb, maps := maps }) (t := t) hl hhome hw hb (by simp) hos m.demand
  refine ⟨l, hline, fun o ho => hread o (by omega) ⟨m.va % 256 / 64 * 64, ?_, by omega⟩⟩
  exact List.mem_map.mpr ⟨0, List.mem_range.mpr (by decide), rfl⟩

end Sys2Proof.Machine
end

section
/-! PROOFS. Fills, fault records and accesses from outside: the events (R211, R217, R223, R226, R438, R440, R442, R444). -/
open Sys2Proof Sys2Proof.Machine

namespace Sys2Proof.Machine

/-! ### The events, clause by clause -/

/-- SECTOR_FILL that names no entry: what the error correction finds in the sector of device memory that is read (R226). -/
theorem sectorFill_none_exec (s : State) (pa : Nat) :
    (devLimit ≤ pa → ∀ err, exec (.sectorFill none pa err) s = .refused (.notEnabled "SECTOR_FILL")) ∧
    exec (.sectorFill none pa .none) s = .refused (.notEnabled "SECTOR_FILL") ∧
    (pa < devLimit → exec (.sectorFill none pa .corrected) s = .next { s with ecc := s.ecc + 1 }) ∧
    (pa < devLimit → ∃ u : State, exec (.sectorFill none pa .uncorrectable) s = .next (u.memError (s.interleave (pa / 64 * 64)).1 (pa / 64 * 64)) ∧
      u.mem = s.mem ∧ ∀ j, j < 16 → u.cellBad (pa / 64 * 64 + 4 * j) = true) := by
  have run (err : EccErr) : exec (.sectorFill none pa err) s =
      if pa ≥ devLimit || err == .none then .refused (.notEnabled "SECTOR_FILL") else .next (s.eccRead pa err) := rfl
  refine ⟨fun h err => ?_, ?_, fun h => ?_, fun h => ⟨s.poisonWords (pa / 64 * 64) (List.range 16), ?_, State.mem_poisonWords _ _ _, fun j hj => ?_⟩⟩
  · rw [run, if_pos (by simp [h])]
  · rw [run, if_pos (by simp)]
  · rw [run, if_neg (by simp [h])]; rfl
  · rw [run, if_neg (by simp [h])]; rfl
  · exact State.cellBad_poisonWords _ _ _ _ (.inl ⟨j, List.mem_range.mpr hj, rfl⟩)

/-- SPILL_REFETCH waits for a free entry (R223). -/
theorem spillRefetch_exec {s : State} {sl : Nat} {m : Miss} (h : s.spill.find? (·.slice == sl) = some m) :
    ((s.misses.filter (·.slice == sl)).length < 704 → exec (.spillRefetch sl) s = .next { s with misses := s.misses ++ [m], spill := s.spill.erase m }) ∧
    (704 ≤ (s.misses.filter (·.slice == sl)).length → exec (.spillRefetch sl) s = .refused (.notEnabled "SPILL_REFETCH")) := by
  have run : exec (.spillRefetch sl) s = execSpillRefetch sl s := rfl
  rw [run, execSpillRefetch, h]
  exact ⟨fun hlt => if_neg (Nat.not_le.mpr hlt), fun hge => if_pos hge⟩

/-- A record that is resolved holds nothing any more (R217). -/
theorem faultResolved_next {s s1 : State} {p : Nat} {slot : Nat × Nat} (hu : s.slotUsed p slot = true) (h1 : s.setSlotState p slot 3 = some s1) :
    ∃ u, exec (.faultResolved p slot) s = .next u ∧ (∀ h ∈ u.holdsOf p, h.slot ≠ some slot) ∧ u.mem = s1.mem ∧ u.lines = s1.lines := by
  have run : exec (.faultResolved p slot) s = execFaultResolved p slot s := rfl
  rw [run, execFaultResolved, hu, h1]
  refine ⟨_, rfl, fun h hh => ?_, rfl, rfl⟩
  obtain ⟨hpart, l, hl⟩ := State.mem_holdsOf_mapHolds hh
  have hkept := (List.mem_filter.mp hl).2
  rintro hslot
  simp [hpart, hslot] at hkept

/-- A record that is freed lets the faults without one enter again. -/
theorem faultRecordFreed_next {s s1 : State} {p : Nat} {slot : Nat × Nat} (hs : s.isSlot p slot = true) (h1 : s.setSlotState p slot 0 = some s1) :
    exec (.faultRecordFreed p slot) s = .next (s1.reenter p) := by
  have run : exec (.faultRecordFreed p slot) s = execFaultRecordFreed p slot s := rfl
  rw [run, execFaultRecordFreed, hs, h1]
  rfl

/-- A slot that failed is tried again after 100 µs, not before. -/
theorem faultSlotRetry_exec (s : State) (p : Nat) :
    (p < 4 → (s.part p).slotErr = true → (s.part p).retryAt + 120000 ≤ s.cycle →
      exec (.faultSlotRetry p) s = .next ((s.updPart p (fun q => { q with retryAt := s.cycle })).reenter p)) ∧
    ((s.part p).slotErr = false ∨ s.cycle < (s.part p).retryAt + 120000 → exec (.faultSlotRetry p) s = .refused (.notEnabled "FAULT_SLOT_RETRY")) := by
  have run : exec (.faultSlotRetry p) s = execFaultSlotRetry p s := rfl
  rw [run, execFaultSlotRetry]
  refine ⟨fun hp he hc => if_pos (by simp [hp, he, hc]), fun h => if_neg ?_⟩
  rcases h with h | h
  · simp [h]
  · simp [h]

/-- A write of the host is read back by the host, and leaves every other byte. -/
theorem hostWrite_next {s : State} {pa n : Nat} (hn : n ≠ 0) (hdev : pa + n ≤ devLimit) (hfw : pa + n ≤ fwLo) {bs : List Byte} (hlen : bs.length = n)
    (own : s.OwnCells pa n) (hl : s.lines = []) (hk : s.linkErr = []) :
    ∃ u, exec (.hostBar2Access pa n (some bs)) s = .next u ∧ (∀ i, i < n → u.devByte (pa + i) = bs.getD i 0) ∧
      ∀ a, (∀ i, i < n → s.cell a ≠ s.cell (pa + i)) → u.memAt a = s.memAt a := by
  subst hlen
  have w := State.stored_devAccess hl hk pa bs
  refine ⟨_, State.hostAccess_eq hn hdev hfw (by simp), fun i hi => ?_, w.off⟩
  rw [State.devByte_eq_memAt (w.lines.trans hl)]
  exact w.here own i hi

/-- A write of a peer is read back by the peer, and leaves every other byte. -/
theorem peerWrite_next {s : State} {pa n : Nat} {port : Bool} (hn : n ≠ 0) (hdev : pa + n ≤ devLimit) (hup : s.portUp.getD (if port then 1 else 0) false = true)
    {xs : List Byte} (hlen : xs.length = n) (own : s.OwnCells pa n) (hl : s.lines = []) (hk : s.linkErr = []) (hup0 : s.upds = []) :
    ∃ u, exec (.peerAccess pa n ⟨port, .write xs⟩) s = .next u ∧ (∀ i, i < n → (u.peerByte (pa + i)).b = xs.getD i 0) ∧
      ∀ a, (∀ i, i < n → s.cell a ≠ s.cell (pa + i)) → u.memAt a = s.memAt a := by
  subst hlen
  have w := State.stored_peerWrite hl hk pa xs
  have run : exec (.peerAccess pa xs.length ⟨port, .write xs⟩) s = .next (s.peerWrite pa xs) := by
    refine (State.peerAccess_eq hn hdev hup (by simp [peerFits])).trans ?_
    rw [State.peerDo, State.combinePa_nil hup0]
  refine ⟨_, run, fun i hi => ?_, w.off⟩
  rw [State.peerByte_eq_memBV (w.lines.trans hl)]
  exact w.here own i hi

/-- A read of a peer. -/
theorem peerRead_next {s : State} {pa n : Nat} {port : Bool} (hn : n ≠ 0) (hdev : pa + n ≤ devLimit) (hup : s.portUp.getD (if port then 1 else 0) false = true) :
    let S := s.combinePa pa n
    exec (.peerAccess pa n ⟨port, .read⟩) s = .next { S with hostRead := ((List.range n).map (fun i => S.peerByte (pa + i))).map (·.b) } := by
  intro S
  exact (State.peerAccess_eq (req := ⟨port, .read⟩) hn hdev hup rfl).trans (congrArg _ (s.peerDo_read pa n))

section
variable {s : State} {pa n : Nat} {port : Bool} (hn : n ≠ 0) (hdev : pa + n ≤ devLimit) (hup : s.portUp.getD (if port then 1 else 0) false = true)
  {ty : MTy} (h4 : 4 ≤ ty.size) (hsize : ty.size = n) (hal : pa % n = 0) (x y : DWord)
include hn hdev hup h4 hsize hal

theorem peerAtom_exec (o : Option AtomOp) : exec (.peerAccess pa n ⟨port, .atom o ty x y⟩) s = .next (s.peerDo pa n (.atom o ty x y)) :=
  State.peerAccess_eq hn hdev hup (by simp [peerFits, hsize ▸ h4, hsize, hal])

/-- An atomic of a peer that meets poison leaves memory as it is (R369). -/
theorem peerAtom_bad :
    let S := s.combinePa pa n
    let bs := (List.range n).map (fun i => S.peerByte (pa + i))
    (∃ b ∈ bs, b.bad = true) → ∀ o, exec (.peerAccess pa n ⟨port, .atom o ty x y⟩) s = .next { S with hostRead := bs.map (·.b) } := by
  intro S bs hbad o
  exact (peerAtom_exec hn hdev hup h4 hsize hal x y o).trans (congrArg _ ((State.peerDo_atom_bad o ty x y hbad).trans (s.peerDo_read pa n)))

/-- An atomic of a peer on sound bytes writes the new value; ACAS writes its second operand where the old value agrees with the first (R350, R442). -/
theorem peerAtom_good :
    let S := s.combinePa pa n
    let bs := (List.range n).map (fun i => S.peerByte (pa + i))
    let old := BitVec.ofNat 64 (ofBytes (bs.map (·.b)))
    let T : State := { S with hostRead := bs.map (·.b) }
    (∀ b ∈ bs, b.bad = false) →
      (∀ op, exec (.peerAccess pa n ⟨port, .atom (some op) ty x y⟩) s = .next (T.peerWrite pa (toBytes n (atomNew op ty old x).1.toNat))) ∧
      exec (.peerAccess pa n ⟨port, .atom none ty x y⟩) s = .next (if old = x then T.peerWrite pa (toBytes n y.toNat) else T) := by
  intro S bs old T hgood
  have hany : ¬bs.any (·.bad) = true := fun h => by
    obtain ⟨b, hb, hbad⟩ := List.any_eq_true.mp h
    rw [hgood b hb] at hbad
    cases hbad
  have hwrite (z : DWord) : (if bs.any (·.bad) then T else T.peerWrite pa (toBytes n z.toNat)) = T.peerWrite pa (toBytes n z.toNat) := if_neg hany
  refine ⟨fun op => (peerAtom_exec hn hdev hup h4 hsize hal x y _).trans (congrArg _ (hwrite _)),
    (peerAtom_exec hn hdev hup h4 hsize hal x y _).trans (congrArg _ ?_)⟩
  change (match (if old = x then some y else none : Option DWord) with
    | some z => if bs.any (·.bad) then T else T.peerWrite pa (toBytes n z.toNat)
    | none => T) = _
  by_cases hold : old = x
  · rw [if_pos hold, if_pos hold]
    exact hwrite y
  · rw [if_neg hold, if_neg hold]
end

/-- The translation of a page goes from the buffer of the host's translations, and no other (R440). -/
theorem atsInvalidate_next (s : State) (bus : Nat) :
    ∃ u, exec (.atsInvalidate bus) s = .next u ∧ bus / 4096 ∉ u.ats ∧ (∀ x ∈ s.ats, x ≠ bus / 4096 → x ∈ u.ats) ∧ u.mem = s.mem :=
  ⟨_, rfl, fun h => by simp at h, fun x hx hne => List.mem_filter.mpr ⟨hx, by simp [hne]⟩, rfl⟩

/-- A link error of a port concerns the peer memory that it reaches (R444). -/
theorem linkCrcError_exec (s : State) (port pa : Nat) (wr : Bool) :
    (physOk pa = true → peerLo ≤ pa → bits pa 41 1 = port → exec (.linkCrcError port pa wr) s =
      .next (({ s with linkErr := { pa := pa / 64 * 64, at_ := s.cycle + 1, wr := wr } :: s.linkErr } : State).linkError port pa)) ∧
    (physOk pa = false ∨ pa < peerLo ∨ bits pa 41 1 ≠ port → exec (.linkCrcError port pa wr) s = .refused (.notEnabled "LINK_CRC_ERROR")) := by
  have run : exec (.linkCrcError port pa wr) s = execLinkCrcError port pa wr s := rfl
  rw [run, execLinkCrcError]
  refine ⟨fun hok hlo hport => if_neg (by simp [hok, hlo, hport]), fun h => if_pos ?_⟩
  rcases h with h | h | h
  · simp [h]
  · simp [h]
  · simp [h]

/-- A read that a peer link fails is poisoned (R444). -/
theorem State.memBV_fails {s : State} {pa : Nat} (h : s.linkFails pa false = true) : (s.memBV pa).bad = true := by
  rw [memBV, h]
  exact Bool.or_true _

end Sys2Proof.Machine

/-- Settles O56: the events clause by clause; a fill and the writes of the host and of peers by what they leave where no line is held. -/
theorem fillsFaultsAndOutsideAccesses : Obligations.FillsFaultsAndOutsideAccesses := by
  refine ⟨fun s i m pa err h => ?fill, fun s i pa err h => ?noEntry, fun s m pa a h hhome hl => ?filled, sectorFill_none_exec, fun s sl m => spillRefetch_exec,
    fun s p slot => ⟨fun h => ?unused, fun s1 => faultResolved_next, fun h => ?noSlot, fun s1 => faultRecordFreed_next,
      (faultSlotRetry_exec s p).1, (faultSlotRetry_exec s p).2, State.reenter_of_slots⟩,
    fun s pa n hn hdev hfw => ⟨State.hostAccess_eq hn hdev hfw rfl, fun bs => hostWrite_next hn hdev hfw⟩,
    fun s port pa n hn hdev hup => ⟨peerRead_next hn hdev hup, fun xs => peerWrite_next hn hdev hup, fun op ty x y h4 hsize hal =>
      ⟨peerAtom_bad hn hdev hup h4 hsize hal x y, fun hgood => (peerAtom_good hn hdev hup h4 hsize hal x y hgood).imp (· op) id⟩⟩,
    fun s pa n req hdown => State.peerAccess_down hdown pa n,
    fun s pa n hn hdev hfw => ⟨State.hostAccess_firmware hn hdev hfw rfl, fun bs hlen => State.hostAccess_firmware hn hdev hfw (by simp [hlen])⟩,
    atsInvalidate_next, linkCrcError_exec, fun s t o b => ⟨State.memBV_fails, fun h => State.memPuts_fails h b⟩⟩
  case fill =>
    change execSectorFill (some i) pa err s = _
    rw [execSectorFill, h]
  case noEntry =>
    change execSectorFill (some i) pa err s = _
    rw [execSectorFill, h]
  case filled =>
    intro t hb hw
    obtain ⟨l, hline, hread⟩ := State.fillMiss_of_empty h hhome hl hb hw
    exact ⟨l, hline, fun o ho => ⟨(hread o ho).1, fun _ => (hread o ho).2⟩⟩
  case unused =>
    change execFaultResolved p slot s = _
    rw [execFaultResolved, h]
    rfl
  case noSlot =>
    change execFaultRecordFreed p slot s = _
    rw [execFaultRecordFreed, h]
    rfl

end

section
/-! PROOFS. The address engine, prefetch and QST at issue (R236, R242, R243, R249, R255, R256, R272). -/
open Sys2Proof Sys2Proof.Machine

namespace Sys2Proof.Machine
open Host (Outcome)

/-! ### Statuses that are known at issue -/

/-- An instruction that answers a status at once, from a state `u` whose issuing wave stands as the bookkeeping of an issue may leave it. -/
theorem answers_of {i : Instr} {d : Opd} {P : State → Ctx → Prop} {f : State → Ctx → Word} {R : State → Ctx → State → Wave → Prop}
    {k : Ctx → State → Except Stop State} (he : ∀ s, exec i s = issue i s k)
    (hk : ∀ s c s', s.pre i = .go c s' → P s c → ∃ (u : State) (w1 : Wave), k c (s'.advance c i) = .ok (u.done c d (f s c)) ∧
      u.wave? c.tag c.w = some w1 ∧ c.wv.Same w1 ∧ ∀ wv : Wave, wv.regions = w1.regions → R s c ((u.done c d (f s c)).settle c.tag c.w) wv) :
    Answers i P d (fun s c _ => f s c) R := by
  intro s c s' hp hP
  obtain ⟨u, w1, hrun, hw, hsame, hR⟩ := hk s c s' hp hP
  obtain ⟨hgot, hpreds⟩ := hsame.got32 c.lanes d (fun _ => f s c)
  obtain ⟨hpend, hev, hfl⟩ := Wave.mark_puts_kept hsame (c.dst d (fun _ => f s c)) (writtenLanes (c.dst d (fun _ => f s c))) c.cyc
  have hregions : ((w1.puts (c.dst d (fun _ => f s c))).mark (writtenLanes (c.dst d (fun _ => f s c))) c.cyc).regions = w1.regions := by
    obtain ⟨_, _, _, _, e⟩ := Wave.puts_eq (c.dst d (fun _ => f s c)) w1
    rw [e]
    rfl
  exact ⟨_, _, (he s).trans (issue_ok hp hrun), settle_wave _ _ _ _ (putNow_wave _ hw), ⟨hgot.v, hgot.s, hgot.lc⟩, hpreds, hfl, hpend, hev,
    hR _ hregions⟩

/-- The access program of a team, after a change of a team that keeps it. -/
theorem State.aq_updTeam (s : State) (k j : Nat) (f : Team → Team) (hf : ∀ t, (f t).tag = t.tag ∧ (f t).aq = t.aq) :
    ((s.updTeam k f).team? j).map (·.aq) = (s.team? j).map (·.aq) := by
  rw [team?_updTeam _ _ _ _ (fun t => (hf t).1)]
  split
  · rw [Option.map_map]
    exact congrArg (Option.map · _) (funext fun t => (hf t).2)
  · rfl

/-- A status answered at once leaves the access programs. -/
theorem State.aq_done (s : State) (c : Ctx) (d : Opd) (x : Word) (j : Nat) :
    (((s.done c d x).settle c.tag c.w).team? j).map (·.aq) = (s.team? j).map (·.aq) :=
  calc (((s.done c d x).settle c.tag c.w).team? j).map (·.aq)
      = ((s.done c d x).team? j).map (·.aq) := aq_updTeam _ _ _ (fun t => t.updWave c.w (Wave.settle 4)) (fun _ => ⟨rfl, rfl⟩)
    _ = _ := aq_updTeam _ _ _ (fun t => (t.updWave c.w (fun wv => (wv.puts (c.dst d (fun _ => x))).mark (writtenLanes (c.dst d (fun _ => x))) c.cyc)).cleanRegs
        c.w (c.dst d (fun _ => x))) (fun _ => ⟨rfl, rfl⟩)

/-- With no queue to pop, the access program after the bookkeeping of an issue is that which the issue sees. -/
theorem aq_advance {s s' : State} {i : Instr} {c : Ctx} (hp : s.pre i = .go c s') (hq : queuesOf i = []) :
    ((s'.advance c i).team? c.tag).map (·.aq) = some c.tm.aq := by
  have hpops := pre_go_noQueue hp hq
  have hbook : ((s'.advance c i).team? c.tag).map (·.aq) = (s'.team? c.tag).map (·.aq) :=
    s'.aq_updTeam c.tag c.tag (fun t => t.updWave c.w (fun wv => { c.advance i wv with age := s'.ages c.tm c.wv c.b.mask })) (fun _ => ⟨rfl, rfl⟩)
  rw [hbook, hpops, (pre_go s i c s' hp).team]
  rfl

/-- The run of a slice, changed by `f`. -/
def Wave.updRun (sl : Nat) (f : Region → Region) (wv : Wave) : Wave :=
  { wv with regions := wv.regions.map (fun r => if r.sl = sl then f r else r) }
theorem State.updRun_eq (s : State) (c : Ctx) (f : Region → Region) : s.updRun c f = s.updWave c.tag c.w (Wave.updRun c.ownSlice f) := rfl
theorem State.updRun_wave {s : State} {c : Ctx} {w0 : Wave} (f : Region → Region) (h : s.wave? c.tag c.w = some w0) :
    (s.updRun c f).wave? c.tag c.w = some (w0.updRun c.ownSlice f) := by
  rw [updRun_eq, wave?_updWave _ _ _ _ _ _ (fun x => (rfl : (x.updRun c.ownSlice f).ix = x.ix)), if_pos ⟨rfl, rfl⟩, h]
  rfl

/-- A mark on a run leaves what the bookkeeping of an issue keeps. -/
theorem Wave.Same.updRun {a b : Wave} (h : a.Same b) (sl : Nat) {f : Region → Region}
    (hf : ∀ r, ((f r).rid, (f r).sl, (f r).start, (f r).stores, (f r).ended) = (r.rid, r.sl, r.start, r.stores, r.ended)) : a.Same (b.updRun sl f) := by
  have hview : (b.updRun sl f).regions.map (fun r => (r.rid, r.sl, r.start, r.stores, r.ended)) =
      b.regions.map (fun r => (r.rid, r.sl, r.start, r.stores, r.ended)) := by
    simp only [Wave.updRun, List.map_map]
    refine List.map_congr_left fun r _ => ?_
    simp only [Function.comp_def]
    split
    · exact hf r
    · rfl
  exact { h with stores := hview.trans h.stores }

/-! ### SHFREE (R243) -/

/-- Does SHFREE of the window that `a` names free a binding? -/
def Ctx.frees (c : Ctx) (a : Opd) (y : Shadow) : Bool := y.asid == c.tm.asid && y.base == (c.sc a).toNat && y.resBy.isNone && y.leaving.isNone

theorem shfree_answers (h : Hdr) (d a : Opd) (ev : Option (BitVec 3)) : Answers (.shfree h d a ev) (fun _ c => c.lanes ≠ 0) d
    (fun s c _ => if (s.part c.tm.part).shadows.any (c.frees a) then 0 else 4) (fun s c t _ => c.tm.part < s.parts.length →
      (t.part c.tm.part).shadows = (s.part c.tm.part).shadows.map (fun y => if c.frees a y then { y with leaving := some c.ownRid } else y)) := by
  have he (s : State) : exec (.shfree h d a ev) s = execShfree h d a ev s := rfl
  unfold execShfree at he
  refine answers_of he fun s c s' hp hl => ?_
  obtain ⟨w0, h0, hsame, -⟩ := advance_same hp
  have halike := State.Alike.advance hp
  have hpart := halike.part c.tm.part
  have hany : ((s'.advance c (.shfree h d a ev)).part c.tm.part).shadows.any (c.frees a) = (s.part c.tm.part).shadows.any (c.frees a) := by rw [hpart]
  by_cases hf : (s.part c.tm.part).shadows.any (c.frees a) = true
  · refine ⟨(s'.advance c (.shfree h d a ev)).updPart c.tm.part (fun p => { p with shadows := p.shadows.map (fun y =>
        if c.frees a y then { y with leaving := some c.ownRid } else y) }), w0, ?_, h0, hsame, fun _ _ hlt => ?_⟩
    · rw [if_pos hf]
      exact (if_neg hl).trans (if_pos (hany.trans hf))
    · have hlt' : c.tm.part < (s'.advance c (.shfree h d a ev)).parts.length := by rwa [halike.parts]
      rw [if_pos hf]
      refine (congrArg Part.shadows (State.part_updPart (s'.advance c (.shfree h d a ev)) c.tm.part c.tm.part _)).trans ?_
      rw [if_pos ⟨rfl, hlt'⟩, hpart]
  · refine ⟨s'.advance c (.shfree h d a ev), w0, ?_, h0, hsame, fun _ _ _ => ?_⟩
    · rw [if_neg hf]
      exact (if_neg hl).trans (if_neg (fun e => hf (hany.symm.trans e)))
    · have hnone : (s.part c.tm.part).shadows.map (fun y => if c.frees a y then { y with leaving := some c.ownRid } else y) = (s.part c.tm.part).shadows := by
        refine (List.map_congr_left fun y hy => if_neg fun e => hf (List.any_eq_true.2 ⟨y, hy, e⟩)).trans (List.map_id' _)
      rw [hnone]
      exact congrArg Part.shadows hpart

/-! ### The access program (R255, R256) -/

/-- Is the access program running, or has it entries left? -/
def Ctx.aqBusy (c : Ctx) : Prop := c.tm.aq.run = true ∨ ∃ q ∈ c.tm.aq.q, q ≠ []
theorem Ctx.aqBusy_iff (c : Ctx) : (c.tm.aq.run || c.tm.aq.q.any (· ≠ [])) = true ↔ c.aqBusy := by
  simp only [aqBusy, Bool.or_eq_true, List.any_eq_true, decide_eq_true_eq]
theorem Ctx.aqIdle_iff (c : Ctx) (h : c.gg.kobj.aloops ≠ 0) : (!c.tm.aqIdle c.gg.kobj) = true ↔ c.aqBusy := by
  simp only [Team.aqIdle, aqBusy, h, ne_eq, not_false_eq_true, decide_true, Bool.true_and, Bool.not_eq_true', Bool.and_eq_false_iff, Bool.not_eq_false',
    List.all_eq_false, beq_iff_eq]

/-- An access program that starts: at its first iteration, with the bases as the scalar registers hold them and empty queues. -/
def Ctx.aqFirst (c : Ctx) : Aq := { run := true, it := 0, ns := 0, base := c.gg.kobj.streams.map (fun st => c.s st.sbase), q := List.replicate 8 [] }

/-- The status of AQSTART (R255): no program, one that is still busy, started. -/
def Ctx.aqstartStatus (c : Ctx) : Word := if c.gg.kobj.aloops = 0 then 2 else if c.tm.aq.run || c.tm.aq.q.any (· ≠ []) then 1 else 0
theorem Ctx.aqstartStatus_noProgram {c : Ctx} (h : c.gg.kobj.aloops = 0) : c.aqstartStatus = 2 := if_pos h
theorem Ctx.aqstartStatus_busy {c : Ctx} (h : c.gg.kobj.aloops ≠ 0) (hb : c.aqBusy) : c.aqstartStatus = 1 :=
  (if_neg h).trans (if_pos (c.aqBusy_iff.2 hb))
theorem Ctx.aqstartStatus_idle {c : Ctx} (h : c.gg.kobj.aloops ≠ 0) (hb : ¬c.aqBusy) : c.aqstartStatus = 0 :=
  (if_neg h).trans (if_neg (c.aqBusy_iff.not.2 hb))

/-- The team's access program starts over, and the run of the issuing bundle marks that it did. -/
def State.aqStarted (u : State) (c : Ctx) : State :=
  (u.updTeam c.tag (fun t => { t with aq := c.aqFirst })).updRun c (fun r => { r with aqStart := true })
theorem State.aqStarted_wave {u : State} {c : Ctx} {w0 : Wave} (h : u.wave? c.tag c.w = some w0) :
    (u.aqStarted c).wave? c.tag c.w = some (w0.updRun c.ownSlice (fun r => { r with aqStart := true })) := by
  refine updRun_wave _ ?_
  rw [← h, wave?, team?_updTeam _ _ _ (fun t => { t with aq := c.aqFirst }) (fun _ => rfl), if_pos rfl, wave?]
  cases u.team? c.tag <;> rfl
theorem State.aqStarted_aq {u : State} {c : Ctx} {q : Aq} (h : (u.team? c.tag).map (·.aq) = some q) :
    ((u.aqStarted c).team? c.tag).map (·.aq) = some c.aqFirst := by
  obtain ⟨t, ht, -⟩ := Option.map_eq_some_iff.1 h
  refine (aq_updTeam _ _ _ (fun t => t.updWave c.w (Wave.updRun c.ownSlice (fun r => { r with aqStart := true }))) (fun _ => ⟨rfl, rfl⟩)).trans ?_
  rw [team?_updTeam _ _ _ (fun t => { t with aq := c.aqFirst }) (fun _ => rfl), if_pos rfl, ht]
  rfl

theorem aqstart_answers (h : Hdr) (d : Opd) (ev : Option (BitVec 3)) : Answers (.aqstart h d ev) (fun _ c => c.lanes ≠ 0) d
    (fun _ c _ => c.aqstartStatus)
    (fun _ c t _ => (c.gg.kobj.aloops = 0 ∨ c.aqBusy → (t.team? c.tag).map (·.aq) = some c.tm.aq) ∧
      (c.gg.kobj.aloops ≠ 0 → ¬c.aqBusy → (t.team? c.tag).map (·.aq) = some c.aqFirst)) := by
  have he (s : State) : exec (.aqstart h d ev) s = execAqstart h d ev s := rfl
  unfold execAqstart at he
  refine answers_of he fun s c s' hp hl => ?_
  obtain ⟨w0, h0, hsame, -⟩ := advance_same hp
  have haq := aq_advance hp rfl
  by_cases hloops : c.gg.kobj.aloops = 0
  · refine ⟨s'.advance c (.aqstart h d ev), w0, ?_, h0, hsame, fun _ _ => ⟨fun _ => (State.aq_done ..).trans haq, fun e => absurd hloops e⟩⟩
    rw [Ctx.aqstartStatus_noProgram hloops]
    exact (if_neg hl).trans (if_pos hloops)
  · by_cases hbusy : c.aqBusy
    · refine ⟨s'.advance c (.aqstart h d ev), w0, ?_, h0, hsame, fun _ _ => ⟨fun _ => (State.aq_done ..).trans haq, fun _ e => absurd hbusy e⟩⟩
      rw [Ctx.aqstartStatus_busy hloops hbusy]
      exact (if_neg hl).trans ((if_neg hloops).trans (if_pos ((c.aqIdle_iff hloops).2 hbusy)))
    · refine ⟨(s'.advance c (.aqstart h d ev)).aqStarted c, _, ?_, State.aqStarted_wave h0, hsame.updRun _ (fun _ => rfl),
        fun _ _ => ⟨fun e => absurd e (not_or.2 ⟨hloops, hbusy⟩), fun _ _ => (State.aq_done ..).trans (State.aqStarted_aq haq)⟩⟩
      rw [Ctx.aqstartStatus_idle hloops hbusy]
      exact (if_neg hl).trans ((if_neg hloops).trans (if_neg ((c.aqIdle_iff hloops).not.2 hbusy)))

theorem aqstop_answers (h : Hdr) (d : Opd) (ev : Option (BitVec 3)) : Answers (.aqstop h d ev) (fun _ c => c.lanes ≠ 0) d
    (fun _ c _ => if c.tm.aq.run then 0 else 3) (fun _ c t wv => (t.team? c.tag).map (·.aq) = some c.tm.aq ∧
      ∀ r ∈ wv.regions, r.sl = c.ownSlice → r.aqStop = true) := by
  have he (s : State) : exec (.aqstop h d ev) s = execAqstop h d ev s := rfl
  unfold execAqstop at he
  refine answers_of he fun s c s' hp hl => ?_
  obtain ⟨w0, h0, hsame, -⟩ := advance_same hp
  refine ⟨(s'.advance c (.aqstop h d ev)).updRun c (fun r => { r with aqStop := true }), _, if_neg hl, State.updRun_wave _ h0, hsame.updRun _ (fun _ => rfl),
    fun wv hregions => ⟨?_, fun r hr hsl => ?_⟩⟩
  · rw [State.aq_done, State.updRun_eq]
    exact (State.aq_updTeam _ _ _ (fun t => t.updWave c.w _) (fun _ => ⟨rfl, rfl⟩)).trans (aq_advance hp rfl)
  · rw [hregions] at hr
    obtain ⟨r0, -, rfl⟩ := List.mem_map.1 hr
    by_cases h0 : r0.sl = c.ownSlice
    · rw [if_pos h0]
    · rw [if_neg h0] at hsl
      exact absurd hsl h0

/-- A legal AQSTOP.qry names its queue by a constant. -/
theorem queuesOf_aqstopQry {h : Hdr} {d a : Opd} {ev : Option (BitVec 3)} (hwf : (Instr.aqstopQry h d a ev).wf = true) :
    queuesOf (.aqstopQry h d a ev) = [] := by
  cases a with
  | q n => simp [Instr.wf] at hwf
  | _ => rfl

theorem aqstopQry_answers (h : Hdr) (d a : Opd) (ev : Option (BitVec 3)) : Answers (.aqstopQry h d a ev) (fun _ c => c.lanes ≠ 0) d
    (fun _ c _ => if c.gg.kobj.qmask.getLsbD (c.sc a).toNat then
      BitVec.ofNat 32 (c.gg.kobj.qdepth - (c.tm.aq.q.getD (c.sc a).toNat []).length) else 0xFFFFFFFF)
    (fun _ c t _ => (t.team? c.tag).map (·.aq) = some c.tm.aq) := by
  have he (s : State) : exec (.aqstopQry h d a ev) s = execAqstopQry h d a ev s := rfl
  unfold execAqstopQry at he
  refine answers_of he fun s c s' hp hl => ?_
  obtain ⟨w0, h0, hsame, -⟩ := advance_same hp
  have hwf : (Instr.aqstopQry h d a ev).wf = true := by
    have := (pre_go s _ c s' hp).legal
    simp only [Ctx.illegal, Bool.or_eq_false_iff, Bool.not_eq_false'] at this
    exact this.1.1.1.1.1
  exact ⟨s'.advance c (.aqstopQry h d a ev), w0, if_neg hl, h0, hsame, fun _ _ => (State.aq_done ..).trans (aq_advance hp (queuesOf_aqstopQry hwf))⟩

/-! ### Checks that trap, and operations that start for the run of their bundle -/

/-- An instruction whose effect stops with a trap. -/
theorem trapsIf_of {i : Instr} {P : State → Ctx → Prop} {cause : Nat} {faddr : Ctx → Nat} {k : Ctx → State → Except Stop State}
    (he : ∀ s, exec i s = issue i s k) (hk : ∀ s c u, P s c → k c u = .error (.trap cause (faddr c))) : TrapsIf i P cause faddr :=
  fun s c _ hp hP => (he s).trans (issue_error (x := .trap cause (faddr c)) hp (hk s c _ hP))

/-- An operation of the run of its bundle, which does nothing with no active thread and starts when its checks hold. -/
theorem starts_once {i : Instr} {P : State → Ctx → Prop} {Q : State → Ctx → Pend → Prop} {k : Ctx → State → Except Stop State}
    (x y : Ctx → List DWord)
    (he : ∀ s, exec i s = issue i s k) (hidle : ∀ c u, c.lanes = 0 → k c u = .ok u)
    (hk : ∀ s c u, P s c → c.lanes ≠ 0 → k c u = .ok (u.start c { c.pend i [c.ownRid] with x := x c, y := y c }))
    (hQ : ∀ s c, Q s c { c.pend i [c.ownRid] with x := x c, y := y c }) : Starts i P Q := by
  refine starts_of fun s c s' hp hP => ⟨s'.advance c i, { c.pend i [c.ownRid] with x := x c, y := y c }, rfl,
    (he s).trans (issue_ok hp ?_), rfl, rfl, rfl, rfl, rfl, hQ s c⟩
  by_cases hz : c.lanes = 0
  · rw [hidle c _ hz, State.start_idle _ _ _ hz]
  · exact hk s c _ hP hz

theorem shbind_issue (h : Hdr) (d a b : Opd) (ev : Option (BitVec 3)) :
    TrapsIf (.shbind h d a b ev) (fun _ c => c.lanes ≠ 0 ∧ (c.sc a).toNat % 8 ≠ 0) 0x06 (fun c => (c.sc a).toNat) ∧
    Starts (.shbind h d a b ev) (fun _ c => c.lanes = 0 ∨ (c.sc a).toNat % 8 = 0)
      (fun _ c q => q.rids = [c.ownRid] ∧ q.x = [c.sc a] ∧ q.y = [c.sc b]) := by
  have he (s : State) : exec (.shbind h d a b ev) s = execShbind h d a b ev s := rfl
  unfold execShbind at he
  refine ⟨trapsIf_of he (fun _ _ _ ⟨hl, hal⟩ => (if_neg hl).trans (if_pos hal)),
    starts_once (fun c => [c.sc a]) (fun c => [c.sc b]) he (fun _ _ hz => if_pos hz) (fun _ c _ hP hl => ?_) (fun _ _ => ⟨rfl, rfl, rfl⟩)⟩
  exact (if_neg hl).trans (if_neg (not_not.2 (hP.resolve_left hl)))

/-! ### QST (R272) -/

/-- What QST reads at issue: block and list from a pair of scalar registers, and its parameters. -/
def Ctx.qstForm (c : Ctx) (n : BitVec 6) (b : Opd) (f : BitVec 5) (mode : QMode) : QstForm :=
  { f := f.toNat, mode := mode, blk := (c.s n.toNat).toNat, list := (c.s (n.toNat + 1)).toNat, par := (c.sc b).toNat }
/-- Are reserved parameters set? -/
def QstForm.reserved (q : QstForm) : Prop := q.scl = 255 ∨ bits q.par 48 16 ≠ 0 ∨ (q.sideB ∧ q.row > 15)

theorem qst_issue (h : Hdr) (d b g : Opd) (n : BitVec 6) (f : BitVec 5) (mode : QMode) (ev : Option (BitVec 3)) :
    let i : Instr := .qst h d (.s n) b g f mode ev
    let q (c : Ctx) : QstForm := c.qstForm n b f mode
    TrapsIf i (fun _ c => c.lanes ≠ 0 ∧ (q c).blk % 8 ≠ 0) 0x06 (fun c => (q c).blk) ∧
    TrapsIf i (fun _ c => c.lanes ≠ 0 ∧ (q c).blk % 8 = 0 ∧ (q c).list % 8 ≠ 0) 0x06 (fun c => (q c).list) ∧
    TrapsIf i (fun _ c => c.lanes ≠ 0 ∧ (q c).blk % 8 = 0 ∧ (q c).list % 8 = 0 ∧ (q c).reserved) 0x13 (fun _ => 0) ∧
    Starts i (fun _ c => c.lanes = 0 ∨ ((q c).blk % 8 = 0 ∧ (q c).list % 8 = 0 ∧ ¬(q c).reserved)) (fun _ c p =>
      p.x = [c.s n.toNat, c.s (n.toNat + 1), BitVec.ofNat 64 (q c).par] ∧ p.y = byLane (fun l => (c.w32 g l).setWidth 64)) := by
  intro i q
  have he (s : State) : exec (.qst h d (.s n) b g f mode ev) s = execQst h d (.s n) b g f mode ev s := rfl
  unfold execQst at he
  refine ⟨trapsIf_of he (fun _ _ _ ⟨hl, hblk⟩ => (if_neg hl).trans (if_pos hblk)),
    trapsIf_of he (fun _ _ _ ⟨hl, hblk, hlist⟩ => (if_neg hl).trans ((if_neg (not_not.2 hblk)).trans (if_pos hlist))),
    trapsIf_of he (fun _ _ _ ⟨hl, hblk, hlist, hres⟩ =>
      (if_neg hl).trans ((if_neg (not_not.2 hblk)).trans ((if_neg (not_not.2 hlist)).trans (if_pos hres)))),
    starts_once (fun c => [BitVec.ofNat 64 (q c).blk, BitVec.ofNat 64 (q c).list, BitVec.ofNat 64 (q c).par])
      (fun c => byLane (fun l => (c.w32 g l).setWidth 64)) he (fun _ _ hz => if_pos hz) (fun _ c _ hP hl => ?_) (fun _ c => ⟨?_, rfl⟩)⟩
  · obtain ⟨hblk, hlist, hres⟩ := hP.resolve_left hl
    exact (if_neg hl).trans ((if_neg (not_not.2 hblk)).trans ((if_neg (not_not.2 hlist)).trans (if_neg hres)))
  · simp only [q, Ctx.qstForm, BitVec.ofNat_toNat, BitVec.setWidth_eq]

/-! ### CPY (R249) -/

/-- An engine operation that starts at issue, for a thread that is active, and ends the runs of its bundle. -/
theorem startsEnding_of {i : Instr} {P : State → Ctx → Prop} {x y z : Ctx → List DWord} {q : Ctx → Pend} {k : Ctx → State → Except Stop State}
    (he : ∀ s, exec i s = issue i s k) (hk : ∀ s c u, P s c → k c u = .ok ((u.start c (q c)).endRuns c (c.endOp i (x c) (y c) (z c))))
    (hq : ∀ c, (q c).id = c.iss ∧ (q c).instr = i ∧ (q c).ev = i.counted ∧ (q c).lanes = c.lanes) : StartsEnding i P x y := by
  intro s c s' hp hP
  obtain ⟨-, -, hiss⟩ := (pre_go s i c s' hp).now
  obtain ⟨w0, h0, hsame, -⟩ := advance_same hp
  obtain ⟨hregs, hpreds, hfl, hpend, hevr⟩ := hsame.quiet
  obtain ⟨hid, hinstr, hev, hlanes⟩ := hq c
  have hrun := (he s).trans (issue_ok hp (hk s c _ hP))
  have ended {u : State} {w1 : Wave} (hu : u.wave? c.tag c.w = some w1) :
      ((u.endRuns c (c.endOp i (x c) (y c) (z c))).settle c.tag c.w).wave? c.tag c.w =
        some (Wave.settle 4 (w1.endRuns c.b.mask (c.endOp i (x c) (y c) (z c)))) := by
    refine settle_wave _ _ _ _ ?_
    rw [State.endRuns_eq, State.wave?_updWave _ _ _ _ _ _ (fun w => (rfl : (w.endRuns c.b.mask (c.endOp i (x c) (y c) (z c))).ix = w.ix)),
      if_pos ⟨rfl, rfl⟩, hu]
    rfl
  by_cases hz : c.lanes = 0
  · rw [State.start_idle _ _ _ hz] at hrun
    refine ⟨_, _, hrun, ended h0, ⟨hregs.v, hregs.s, hregs.lc⟩, hpreds, hfl, fun _ => ⟨hpend, hevr, fun r hr hm => ?_⟩, fun e => absurd hz e⟩
    exact ⟨_, Wave.endRuns_ended _ _ _ r hr hm, rfl, hz⟩
  · rw [State.start_active _ _ _ hz] at hrun
    have hw : ((s'.advance c i).updWave c.tag c.w (Wave.startPend (q c))).wave? c.tag c.w = some (w0.startPend (q c)) := by
      rw [State.wave?_updWave _ _ _ _ _ _ (Wave.startPend_ix (q c)), if_pos ⟨rfl, rfl⟩, h0]
      rfl
    refine ⟨_, _, hrun, ended hw, ⟨hregs.v, hregs.s, hregs.lc⟩, hpreds, hfl, fun e => absurd e hz, fun _ => ⟨fun n => ?_,
      ⟨q c, List.getLast?_concat, ?_, hid.trans hiss, hinstr, hlanes⟩, c.endOp i (x c) (y c) (z c), ⟨rfl, hiss, rfl, rfl, rfl, rfl, rfl⟩, Wave.endRuns_ended _ _ _⟩⟩
    · exact (Wave.startPend_evr _ _ n).trans (by rw [hev, hevr])
    · simp only [Wave.endRuns, Wave.startPend, List.length_append, List.length_map, List.length_singleton, hpend]

theorem cpy_issue (h : Hdr) (a : Opd) (ev : Option (BitVec 3)) :
    TrapsIf (.cpy h a ev) (fun _ c => c.lanes ≠ 0 ∧ (c.sc a).toNat % 128 ≠ 0) 0x06 (fun c => (c.sc a).toNat) ∧
    StartsEnding (.cpy h a ev) (fun _ c => c.lanes = 0 ∨ (c.sc a).toNat % 128 = 0) (fun c => [c.sc a]) (fun _ => []) := by
  have he (s : State) : exec (.cpy h a ev) s = execCpy h a ev s := rfl
  unfold execCpy at he
  refine ⟨trapsIf_of he (fun _ _ _ hbad => if_pos hbad),
    startsEnding_of (z := fun _ => []) (q := fun c => { c.pend (.cpy h a ev) [c.ownRid] with dsts := [] }) he (fun _ c _ hP => if_neg ?_) (fun _ => ⟨rfl, rfl, rfl, rfl⟩)⟩
  rintro ⟨hl, hal⟩
  exact hal (hP.resolve_left hl)

/-! ### PREF (R236) -/

/-- The fetches of PREF, lane by lane: those that may go through are made. -/
def State.prefetch (u : State) (c : Ctx) (a b : Opd) (pol : Pol) : State :=
  (lanesOf c.lanes).foldl (fun u l => if u.runAhead { c.tm.via .core with pol := pol } c.tm.part c.tm.asid ((c.memAddr a b l).toNat / 64 * 64) 64 c.sys then
    u.touch { c.tm.via .core with pol := pol } c.tm.part c.tm.asid ((c.memAddr a b l).toNat / 64 * 64) 64 c.sys .read false else u) u

theorem State.sansCache_prefetch (u : State) (c : Ctx) (a b : Opd) (pol : Pol) : (u.prefetch c a b pol).sansCache = u.sansCache := by
  refine sansCache_foldl _ (fun s l => ?_) _ _
  split
  · exact sansCache_touch ..
  · rfl
/-- Where no sector may be fetched, nothing happens. -/
theorem State.prefetch_none {u : State} {c : Ctx} {a b : Opd} {pol : Pol} (h : ∀ l ∈ lanesOf c.lanes,
    u.runAhead { c.tm.via .core with pol := pol } c.tm.part c.tm.asid ((c.memAddr a b l).toNat / 64 * 64) 64 c.sys = false) : u.prefetch c a b pol = u := by
  unfold State.prefetch
  generalize lanesOf c.lanes = ls at h ⊢
  induction ls with
  | nil => rfl
  | cons l r ih =>
    rw [List.foldl_cons, if_neg (by rw [h l List.mem_cons_self]; exact Bool.false_ne_true)]
    exact ih fun k hk => h k (List.mem_cons_of_mem _ hk)

/-- PREF leaves registers alone, and of the device all but caches and what they write back. -/
theorem pref_next {h : Hdr} {a b : Opd} {pol : Pol} {s s' : State} {c : Ctx} (hp : s.pre (.pref h a b pol) = .go c s') : ∃ t wv,
    exec (.pref h a b pol) s = .next t ∧ t.wave? c.tag c.w = some (Wave.settle 4 wv) ∧ c.wv.Quiet wv ∧
    ({ t with teams := s.teams, free := s.free, nextId := s.nextId } : State).sansCache = s.sansCache ∧
    t.mem = ((s'.advance c (.pref h a b pol)).prefetch c a b pol).mem ∧ t.lines = ((s'.advance c (.pref h a b pol)).prefetch c a b pol).lines := by
  have he (s : State) : exec (.pref h a b pol) s = execPref h a b pol s := rfl
  unfold execPref at he
  obtain ⟨w0, h0, hsame, -⟩ := advance_same hp
  obtain ⟨g, hpops⟩ := (pre_go s _ c s' hp).pops.rest
  have hfetch := (s'.advance c (.pref h a b pol)).sansCache_prefetch c a b pol
  have hw : ((s'.advance c (.pref h a b pol)).prefetch c a b pol).wave? c.tag c.w = some w0 := by
    rw [← h0, State.wave?, State.team?_sansCache hfetch, State.wave?]
  refine ⟨((s'.advance c (.pref h a b pol)).prefetch c a b pol).settle c.tag c.w, w0, (he s).trans (issue_ok hp rfl),
    settle_wave _ _ _ _ hw, hsame.quiet, ?_, rfl, rfl⟩
  calc ({ ((s'.advance c (.pref h a b pol)).prefetch c a b pol).settle c.tag c.w with teams := s.teams, free := s.free, nextId := s.nextId } : State).sansCache
      = ({ (s'.advance c (.pref h a b pol)) with teams := s.teams, free := s.free, nextId := s.nextId } : State).sansCache :=
        congrArg (fun u : State => { u with teams := s.teams, free := s.free, nextId := s.nextId }) hfetch
    _ = ({ s' with teams := s.teams, free := s.free, nextId := s.nextId } : State).sansCache :=
        by
          have e := congrArg (fun u : State => ({ u with teams := s.teams, free := s.free, nextId := s.nextId } : State).sansCache)
            (advance_onlyWave s' (.pref h a b pol) c rfl).rest
          exact e
    _ = s.sansCache := congrArg (fun u : State => { u with teams := s.teams, free := s.free, nextId := s.nextId }) hpops

end Sys2Proof.Machine

/-- Settles O49: each instruction is one `issue`, whose checks decide between its traps, its start and its status at issue. -/
theorem addressEngineIssue : Obligations.AddressEngineIssue := by
  intro h d a b g ev n f mode pol
  obtain ⟨hshTrap, hshStarts⟩ := shbind_issue h d a b ev
  obtain ⟨hcpyTrap, hcpyStarts⟩ := cpy_issue h a ev
  refine ⟨hshTrap, hshStarts, shfree_answers h d a ev, hcpyTrap, hcpyStarts, aqstart_answers h d ev, aqstop_answers h d ev, aqstopQry_answers h d a ev, ?_,
    qst_issue h d b g n f mode ev⟩
  intro via sec goes s c s' hp
  obtain ⟨t, wv, he, hw, hquiet, hrest, hmem, hlines⟩ := pref_next hp
  refine ⟨t, wv, he, hw, hquiet, hrest, hmem, hlines, fun hno => ?_⟩
  rw [hmem, hlines, State.prefetch_none hno]
  exact ⟨rfl, rfl⟩

end

section
/-! PROOFS. RINV and a cache line that its own tags do not find (R422). -/
open Sys2Proof Sys2Proof.Machine

namespace Sys2Proof.Machine

/-- A line of slice 0 that caches address 0 of address space 0 by its virtual address, although its page's home (2) is one whose
lines are held by physical address: `Line.byPa` does not say what `Line.attr` says, so that `Line.same` does not find the line by
its own tags. A line that the model fills (`Line.fresh`) has the two agree. -/
def mislabelledLine : Line :=
  { loc := .slice 0, asid := 0, va := 0, byPa := false, part := 0, pa := 0
    attr := { w := true, x := false, sys := false, home := 2, nopf := false, cnt := false }
    filled := 1, mask := 0, dirty := 0, und := 0, bad := 0, data := [], own := [], way := 0, stamp := 0, ret := 0, tag := 1 }
/-- RINV of address space 0, with its status in S3. -/
def invalidation : Pend :=
  { id := 5, instr := .rinv { stall := 0, gn := false, gp := 127 } (.s 3) (.s 4) (some 1), rids := [1], lanes := 1, ev := some 1, site := 8
    dsts := [], clob := [], hold := false, x := [0], y := [], z := [], fwd := [], sec := [], wr := [], flags := 0, lfl := [], mask := 1, trap := none }
/-- The invalidation pends in wave 0 of team 1, and the mislabelled line is the only one in a cache. -/
def invalidating : State :=
  { (State.reset.atWord 0).updWave 1 0 (fun wv => { wv with pend := [invalidation] }) with lines := [mislabelledLine] }

theorem invalidating_pending : ∃ t wv, invalidating.Pending 1 0 5 t wv invalidation :=
  ⟨_, _, rfl, rfl, rfl, rfl, by decide, rfl⟩

/-- The invalidation completes, and the line is still there. -/
theorem invalidating_keepsLine :
    (match exec (.rinvComplete 1 0 5) invalidating with
      | .next u => decide (mislabelledLine ∈ u.lines)
      | _ => false) = true := by decide +kernel
end Sys2Proof.Machine

/-- Refutes O45: its RINV clause speaks of every state, also of one whose cache holds a line with a mark of its kind that its page
does not bear out; RINV of the line's address space completes and leaves that line. -/
theorem not_engineResults : ¬ Obligations.EngineResults := by
  unfold Obligations.EngineResults
  intro h
  obtain ⟨t, wv, hpend⟩ := invalidating_pending
  obtain ⟨-, -, hrinv, -⟩ := h _ _ _ _ _ _ _ hpend
  obtain ⟨u, v, he, -, -, hwithout, -⟩ := hrinv _ _ _ _ rfl
  have hkept := invalidating_keepsLine
  rw [he] at hkept
  have hgone := (hwithout (by decide)).lines mislabelledLine (of_decide_eq_true hkept)
  exact absurd hgone (by decide)

end

section
/-! PROOFS. DECN: the result of a lane, and the scales it refuses (R276). -/
open Sys2Proof Sys2Proof.Machine

namespace Sys2Proof.Machine

/-! ### A fixed-latency result of an instruction that checks its operands first -/

/-- An effect that writes a 32-bit fixed-latency result, with its flags, where its checks hold (R131, R161). -/
theorem actsIf_result32 {i : Instr} {P : State → Ctx → Prop} {d : Opd} (f : Ctx → Nat → Word) (fl : Ctx → BitVec 8) {k : Ctx → State → Except Stop State}
    (he : ∀ s, exec i s = issue i s k) (hk : ∀ s c u, P s c → k c u = .ok (u.result c i (c.dst d (f c)) (fl c))) :
    ActsIf i P (fun _ c wv => c.wv.Got32 wv c.lanes d (f c) ∧ c.wv.KeptPreds wv ∧ wv.fflags = c.wv.fflags ||| (fl c).setWidth 64) := by
  intro s c s' hp hP
  obtain ⟨w0, hw, hsame, -⟩ := advance_same hp
  obtain ⟨hgot, hpreds⟩ := hsame.got32 c.lanes d (f c)
  have hflags : (w0.puts (c.dst d (f c))).fflags = c.wv.fflags := (w0.puts_fflags _).trans hsame.fflags
  exact ⟨_, _, (he s).trans (issue_ok hp (hk s c _ hP)), settle_wave _ _ _ _ (result_wave _ c i _ (fl c) w0 hw), ⟨hgot.v, hgot.s, hgot.lc⟩, hpreds,
    congrArg (· ||| (fl c).setWidth 64) hflags⟩

/-! ### Decoding by what a code stands for: the escape, a finite number, or a NaN or infinity -/

section
variable {f c : Nat}
theorem decVal_escape (h : codeVal f c = none) : decVal f c = 0 := by rw [decVal, h]
theorem decVal_some {x : Num} (h : codeVal f c = some x) : decVal f c = (x.round fp32 0).word := by rw [decVal, h]
theorem decScaled_escape (h : codeVal f c = none) (s : Nat) : decScaled f c s = { x := 0, fl := 0 } := by rw [decScaled, h]
theorem decScaled_fin {g : Bool} {m : Nat} {e : Int} (h : codeVal f c = some (.fin g m e)) (s : Nat) : decScaled f c s = roundTo fp32 0 g m (e + s - 127) := by
  rw [decScaled, h]
theorem decScaled_inf {g : Bool} (h : codeVal f c = some (.inf g)) (s : Nat) : decScaled f c s = (Num.inf g).round fp32 0 := by rw [decScaled, h]
theorem decScaled_nan {g : Bool} (h : codeVal f c = some (.nan g)) (s : Nat) : decScaled f c s = (Num.nan g).round fp32 0 := by rw [decScaled, h]
end

/-! ### DECN as one issue -/

/-- The code that a lane decodes: the low bits of A, as many as the format is wide. -/
def Ctx.decnCode (c : Ctx) (a : Opd) (f l : Nat) : Nat := (c.w32 a l).toNat % 2 ^ fmtWidth f
/-- The scale byte of a lane. -/
def Ctx.decnScale (c : Ctx) (b : Opd) (l : Nat) : Nat := (c.w32 b l).toNat % 256
/-- What DECN makes of a code and a scale byte. -/
def decnResult (f : Nat) (scl esc : Bool) (code scale : Nat) : FR :=
  if esc then { x := if isEsc f code then 0xFFFFFFFF else 0, fl := 0 }
  else if scl then decScaled f code scale
  else { x := (decVal f code).toNat, fl := 0 }
/-- The result of a lane. -/
def Ctx.decnLane (c : Ctx) (a b : Opd) (f : Nat) (scl esc : Bool) (l : Nat) : FR := decnResult f scl esc (c.decnCode a f l) (c.decnScale b l)
/-- The effect of DECN: it refuses a reserved scale of an active lane, and else writes every lane's result. -/
def decnEffect (i : Instr) (d a b : Opd) (f : Nat) (scl esc : Bool) (c : Ctx) (u : State) : Except Stop State :=
  if scl && (lanesOf c.lanes).any (fun l => c.decnScale b l == 255) then .error (.trap 0x13 0)
  else .ok (u.result c i (c.dst d (fun l => (c.decnLane a b f scl esc l).word)) (c.flags d (fun l => (c.decnLane a b f scl esc l).fl)))

theorem exec_decn (h : Hdr) (d a b : Opd) (f : BitVec 5) (scl esc : Bool) (s : State) :
    exec (.decn h d a b f scl esc) s = issue (.decn h d a b f scl esc) s (decnEffect (.decn h d a b f scl esc) d a b f.toNat scl esc) := rfl

/-- Some active lane of a scaled DECN has the reserved scale. -/
def Ctx.ReservedScale (c : Ctx) (b : Opd) (scl : Bool) : Prop := scl = true ∧ ∃ l ∈ lanesOf c.lanes, c.decnScale b l = 255
theorem Ctx.reservedScale_iff (c : Ctx) (b : Opd) (scl : Bool) :
    (scl && (lanesOf c.lanes).any (fun l => c.decnScale b l == 255)) = true ↔ c.ReservedScale b scl := by
  simp only [ReservedScale, Bool.and_eq_true, List.any_eq_true, beq_iff_eq]

section
variable {i : Instr} {d a b : Opd} {f : Nat} {scl esc : Bool} {c : Ctx} {u : State}
theorem decnEffect_reserved (h : c.ReservedScale b scl) : decnEffect i d a b f scl esc c u = .error (.trap 0x13 0) := if_pos ((c.reservedScale_iff b scl).2 h)
theorem decnEffect_result (h : ¬c.ReservedScale b scl) : decnEffect i d a b f scl esc c u =
    .ok (u.result c i (c.dst d (fun l => (c.decnLane a b f scl esc l).word)) (c.flags d (fun l => (c.decnLane a b f scl esc l).fl))) :=
  if_neg (mt (c.reservedScale_iff b scl).1 h)
end

/-- DECN acts unless an active lane has the reserved scale. -/
theorem decn_acts (h : Hdr) (d a b : Opd) (f : BitVec 5) (scl esc : Bool) :
    ActsIf (.decn h d a b f scl esc) (fun _ c => ¬c.ReservedScale b scl) (fun _ c wv =>
      c.wv.Got32 wv c.lanes d (fun l => (c.decnLane a b f.toNat scl esc l).word) ∧ c.wv.KeptPreds wv ∧
      wv.fflags = c.wv.fflags ||| (c.flags d (fun l => (c.decnLane a b f.toNat scl esc l).fl)).setWidth 64) :=
  actsIf_result32 _ (fun c => c.flags d (fun l => (c.decnLane a b f.toNat scl esc l).fl)) (exec_decn h d a b f scl esc)
    fun _ _ _ hok => decnEffect_result hok

end Sys2Proof.Machine

/-- Settles O50: the check of the scales decides between trap and result, and a lane's result is compared by what its code stands for. -/
theorem decodedNumbers : Obligations.DecodedNumbers := by
  intro h d a b f scl esc i code sc r bad
  have hr (c : Ctx) (l : Nat) : r c l = decnResult f.toNat scl esc (code c l) (sc c l) := by
    cases esc with
    | true => rfl
    | false =>
      simp only [r, decnResult, Bool.false_eq_true, if_false]
      cases hv : codeVal f.toNat (code c l) with
      | none =>
        rw [decVal_escape hv, decScaled_escape hv]
        cases scl <;> rfl
      | some x =>
        rw [decVal_some hv]
        cases x with
        | fin g m e => rw [decScaled_fin hv]
        | inf g => rw [decScaled_inf hv]
        | nan g => rw [decScaled_nan hv]
  refine ⟨trapsIf_of (exec_decn h d a b f scl esc) fun _ _ _ hbad => decnEffect_reserved hbad, ?_⟩
  simp only [hr]
  exact decn_acts h d a b f scl esc

end

section
/-! PROOFS. Accumulators, open MMAs, the latch and the journals of the matrix engine: what each operation on them leaves (R278, R281, R290). -/
open Sys2Proof Sys2Proof.Machine

namespace Sys2Proof.Machine

/-! ### Accumulators -/

/-- Bank, lane and column of an accumulator are read back from its key. -/
theorem accKey_bank (b : Bool) {l n : Nat} (hl : l < 32) (hn : n < 16) : decide (512 ≤ accKey b l n) = b := by
  cases b
  · exact decide_eq_false (by simp only [accKey, Bool.false_eq_true, if_false]; omega)
  · exact decide_eq_true (by simp only [accKey, if_true]; omega)
theorem accKey_lane (b : Bool) {l n : Nat} (hl : l < 32) (hn : n < 16) : accKey b l n % 512 / 16 = l := by
  unfold accKey
  split <;> omega
theorem accKey_col (b : Bool) (l : Nat) {n : Nat} (hn : n < 16) : accKey b l n % 16 = n := by
  unfold accKey
  split <;> omega
theorem accKey_inj {b c : Bool} {l m n k : Nat} (hl : l < 32) (hm : m < 32) (hn : n < 16) (hk : k < 16) (h : accKey b l n = accKey c m k) :
    b = c ∧ l = m ∧ n = k := by
  refine ⟨?_, ?_, ?_⟩
  · rw [← accKey_bank b hl hn, ← accKey_bank c hm hk, h]
  · rw [← accKey_lane b hl hn, ← accKey_lane c hm hk, h]
  · rw [← accKey_col b l hn, ← accKey_col c m hk, h]

/-- Values for the accumulators of some lanes and columns of a bank. -/
def accWrites (bank : Bool) (ls ns : List Nat) (f : Nat → Nat → Acc) : List (Nat × Nat × Acc) :=
  ls.flatMap (fun l => ns.map (fun n => (l, accKey bank l n, f l n)))

/-- What a key holds after values were assigned to keys, one after the other: what all that name it agree on, else what it held. -/
theorem sget_assign {k : Nat} {x : Acc} : ∀ (xs : List (Nat × Nat × Acc)) (a : Sparse Acc), (∀ y ∈ xs, y.2.1 = k → y.2.2 = x) →
    sget Acc.zero (xs.foldl (fun a y => sset Acc.zero a y.2.1 y.2.2) a) k = if ∃ y ∈ xs, y.2.1 = k then x else sget Acc.zero a k
  | [], _, _ => by simp
  | y :: ys, a, h => by
    rw [List.foldl_cons, sget_assign ys _ (fun z hz => h z (List.mem_cons_of_mem _ hz)), sget_sset]
    by_cases hys : ∃ z ∈ ys, z.2.1 = k
    · obtain ⟨z, hz, hzk⟩ := hys
      rw [if_pos ⟨z, hz, hzk⟩, if_pos ⟨z, List.mem_cons_of_mem _ hz, hzk⟩]
    · rw [if_neg hys]
      by_cases hy : y.2.1 = k
      · rw [if_pos hy, if_pos ⟨y, List.mem_cons_self, hy⟩, h y List.mem_cons_self hy]
      · rw [if_neg hy, if_neg]
        rintro ⟨z, hz, hzk⟩
        rcases List.mem_cons.1 hz with rfl | hz
        · exact hy hzk
        · exact hys ⟨z, hz, hzk⟩

/-- Writing accumulators is read back in the lanes and columns written, and nowhere else. -/
theorem Wave.accAt_putAccs (wv : Wave) (bank : Bool) {ls ns : List Nat} (f : Nat → Nat → Acc) (hls : ∀ l ∈ ls, l < 32) (hns : ∀ n ∈ ns, n < 16)
    (bk : Bool) {l n : Nat} (hl : l < 32) (hn : n < 16) :
    (wv.putAccs (accWrites bank ls ns f)).accAt bk l n = if bk = bank ∧ l ∈ ls ∧ n ∈ ns then f l n else wv.accAt bk l n := by
  have names {y : Nat × Nat × Acc} (hy : y ∈ accWrites bank ls ns f) (hk : y.2.1 = accKey bk l n) : (bk = bank ∧ l ∈ ls ∧ n ∈ ns) ∧ y.2.2 = f l n := by
    obtain ⟨l', hl', hy⟩ := List.mem_flatMap.1 hy
    obtain ⟨n', hn', rfl⟩ := List.mem_map.1 hy
    obtain ⟨rfl, rfl, rfl⟩ := accKey_inj (hls l' hl') hl (hns n' hn') hn hk
    exact ⟨⟨rfl, hl', hn'⟩, rfl⟩
  refine (sget_assign (k := accKey bk l n) (x := f l n) _ wv.acc fun y hy hk => (names hy hk).2).trans ?_
  congr 1
  refine propext ⟨fun ⟨y, hy, hk⟩ => (names hy hk).1, ?_⟩
  rintro ⟨rfl, hl', hn'⟩
  exact ⟨_, List.mem_flatMap.2 ⟨l, hl', List.mem_map.2 ⟨n, hn', rfl⟩⟩, rfl⟩

/-! ### Open MMAs -/

/-- Where no open MMA is touched, nothing is spoilt. -/
theorem Wave.spoil_untouched {wv : Wave} {f : MOpen → Bool} (free : Nat) (h : ∀ e ∈ wv.mopen, f e = false) : wv.spoil free f = wv := by
  have hmap : wv.mopen.map (fun e => if f e then { e with spoilt := e.lanes } else e) = wv.mopen := by
    refine (List.map_congr_left fun e he => ?_).trans (List.map_id _)
    rw [h e he]
    rfl
  have hnone : wv.mopen.filter f = [] := List.filter_eq_nil_iff.2 fun e he => by rw [h e he]; exact Bool.false_ne_true
  rw [spoil, hmap, hnone]
  rfl

/-- The open MMAs after the bookkeeping of an issue stood before it, with the same bank and lanes. -/
theorem Ctx.mem_advance_mopen {c : Ctx} {i : Instr} {wv : Wave} {e : MOpen} (h : e ∈ (c.advance i wv).mopen) :
    ∃ e0 ∈ wv.mopen, e.bank = e0.bank ∧ e.lanes = e0.lanes ∧ e.covered = e0.covered := by
  have spoilt {free : Nat} {f : MOpen → Bool} (he : e ∈ (wv.spoil free f).mopen) :
      ∃ e0 ∈ wv.mopen, e.bank = e0.bank ∧ e.lanes = e0.lanes ∧ e.covered = e0.covered := by
    obtain ⟨e0, he0, rfl⟩ := List.mem_map.1 he
    refine ⟨e0, he0, ?_⟩
    split
    · exact ⟨rfl, rfl, rfl⟩
    · exact ⟨rfl, rfl, rfl⟩
  simp only [Ctx.advance] at h
  split at h <;> split at h <;> replace h := List.mem_of_mem_filter h
  · exact ⟨e, h, rfl, rfl, rfl⟩
  · exact spoilt h
  · exact ⟨e, h, rfl, rfl, rfl⟩
  · exact spoilt h

/-- The bookkeeping of an issue leaves the accumulators, unless the instruction writes a register that an open MMA reads (R281). -/
theorem Ctx.advance_acc {c : Ctx} {i : Instr} {wv : Wave} (h : ∀ e ∈ wv.mopen, e.covered = true ∨ ∀ r ∈ i.dstRegs, r ∉ e.regs) :
    (c.advance i wv).acc = wv.acc := by
  have hsafe : ∀ e ∈ wv.mopen, (!e.covered && e.regs.any (fun r => (c.writes i).any (·.1 == r))) = false := by
    intro e he
    rcases h e he with hcov | hregs
    · rw [hcov]; rfl
    · rw [Bool.and_eq_false_iff, List.any_eq_false]
      refine .inr fun r hr => ?_
      simp only [List.any_eq_true, beq_iff_eq, not_exists, not_and]
      rintro x hx rfl
      refine hregs _ ?_ hr
      unfold Ctx.writes at hx
      split at hx
      · cases hx
      · obtain ⟨d, hd, rfl⟩ := List.mem_map.1 hx
        exact hd
  simp only [Ctx.advance]
  rw [Wave.spoil_untouched _ hsafe, ite_self]
  split <;> rfl

/-- What the lanes of an issue may do to a bank: no MMA of the bank that is not covered holds them. -/
def Ctx.BankClosed (c : Ctx) (bank : Bool) : Prop := ∀ e ∈ c.wv.mopen, e.bank = bank → e.covered = true ∨ e.lanes &&& c.lanes = 0

theorem overlaps_false {bank : Bool} {m : Lanes} {e : MOpen} (h : e.bank = bank → e.covered = true ∨ e.lanes &&& m = 0) : overlaps bank m e = false := by
  by_cases hb : e.bank = bank
  · rcases h hb with hc | hl
    · simp only [overlaps, hc, Bool.not_true, Bool.and_false, Bool.false_and]
    · simp only [overlaps, hl, ne_eq, not_true_eq_false, decide_false, Bool.and_false]
  · simp only [overlaps, beq_eq_false_iff_ne.2 hb, Bool.false_and]

/-- An issue on a bank closed for its lanes spoils no open MMA, before or after its bookkeeping. -/
theorem Ctx.BankClosed.filter_nil {c : Ctx} {bank : Bool} (h : c.BankClosed bank) : c.wv.mopen.filter (overlaps bank c.lanes) = [] :=
  List.filter_eq_nil_iff.2 fun e he => by rw [overlaps_false (h e he)]; exact Bool.false_ne_true
theorem Ctx.BankClosed.advance {c : Ctx} {bank : Bool} (h : c.BankClosed bank) (i : Instr) :
    ∀ e ∈ (c.advance i c.wv).mopen, overlaps bank c.lanes e = false := by
  intro e he
  obtain ⟨e0, he0, hbank, hlanes, hcov⟩ := Ctx.mem_advance_mopen he
  refine overlaps_false fun hb => ?_
  rw [hcov, hlanes]
  exact h e0 he0 (hbank.symm.trans hb)

/-! ### The latch -/

theorem State.latchOf_setLatch (s : State) (x : Latch) : (s.setLatch x).latchOf x.core x.pipe = some x :=
  List.find?_cons_of_pos (by simp)

/-- The latch that an MMA reads is its array's. -/
theorem State.latchFor_array {s : State} {t : Team} {wv : Wave} {sys : Bool} {d : BDesc} {x : Latch} (h : s.latchFor t wv sys d = .ok x) :
    x.core = t.core ∧ x.pipe = wv.pipe := by
  have read {r : Except (Option Bad) (List Byte × List Byte)}
      (h : r.map (fun r => ({ core := t.core, pipe := wv.pipe, desc := d, codes := r.1, list := r.2 } : Latch)) = .ok x) :
      x.core = t.core ∧ x.pipe = wv.pipe := by
    cases r with
    | error e => cases h
    | ok r => cases h; exact ⟨rfl, rfl⟩
  unfold latchFor at h
  split at h
  · rename_i y hy
    split at h
    · cases h
      split at hy
      · cases hy
      · simpa using List.find?_some hy
    · exact read h
  · exact read h

/-- Reading a tile and its list changes caches only. -/
theorem State.sansCache_engTouch (s : State) (v : Via) (t : Team) (scr : Bool) (a n : Nat) (sys : Bool) : (s.engTouch v t scr a n sys).sansCache = s.sansCache := by
  unfold State.engTouch
  split
  · rfl
  · exact State.sansCache_touch ..
theorem State.sansCache_tileTouch (s : State) (v : Via) (t : Team) (sys : Bool) (d : BDesc) (l : List Byte) : (s.tileTouch v t sys d l).sansCache = s.sansCache := by
  unfold State.tileTouch
  dsimp only
  split
  · exact State.sansCache_engTouch ..
  · exact (State.sansCache_engTouch ..).trans (State.sansCache_engTouch ..)
theorem State.wave?_tileTouch (s : State) (v : Via) (t : Team) (sys : Bool) (d : BDesc) (l : List Byte) (tag w : Nat) :
    (s.tileTouch v t sys d l).wave? tag w = s.wave? tag w := by
  simp only [State.wave?, State.team?_sansCache (s.sansCache_tileTouch v t sys d l)]

/-! ### Journals -/

@[simp] theorem Wave.bdesc_putBDesc (wv : Wave) (rid : Nat) (d : Option BDesc) : (wv.putBDesc rid d).bdesc = d := rfl
@[simp] theorem Wave.walk_putWalk (wv : Wave) (rid : Nat) (k : Walk) : (wv.putWalk rid k).walk = some k := rfl

end Sys2Proof.Machine

end

section
/-! PROOFS. Results of the matrix operations (O46; R283 to R293, R298, R299): MLOADB, MMA and HAD, once what they read can be read. -/
open Sys2Proof Sys2Proof.Machine

namespace Sys2Proof.Machine

/-- A result in no register leaves its wave but for its flags and what pends. -/
theorem Wave.finishPend_nil (wv : Wave) (free : Nat) (q : Pend) (fl : BitVec 8) : wv.finishPend free q [] fl =
    { wv with fflags := wv.fflags ||| fl.setWidth 64, pend := wv.pend.filter (·.id ≠ q.id), ev := decEv wv.ev [q] } := rfl

theorem State.latchOf_finishPend (u : State) (tag w : Nat) (q : Pend) (ws : List RegW) (fl : BitVec 8) (core pipe : Nat) :
    (u.finishPend tag w q ws fl).latchOf core pipe = u.latchOf core pipe := rfl

/-! ### What the operations read and deliver -/

/-- The descriptor that a pending MLOADB reads by. -/
def Pend.tileDesc (q : Pend) (t : Team) (f : BitVec 5) (scr : Bool) : BDesc :=
  { asid := t.asid, scr := scr, tile := (q.x.getD 0 0).toNat, fmt := f.toNat, list := if q.y.getD 0 0 = 1 then some (q.x.getD 1 0).toNat else none }

theorem Pend.instr_of_mma {q : Pend} {m : MmaForm} (h : q.mma = some m) : ∃ hd a b nkm bank ev, q.instr = .mma hd a b nkm bank ev := by
  unfold Pend.mma at h
  split at h
  · rename_i hi
    exact ⟨_, _, _, _, _, _, hi⟩
  · cases h

/-- The accumulator of a row and a column, with the flags of its sum: the products over the included K blocks, rounded once (R283 to R287). -/
def mmaSum (m : MmaForm) (x : Latch) (a : List Byte) (al : List Leat) (row n : Nat) : Acc × BitVec 8 :=
  (passSum (tileVal m.ad.fmt a al row) (tileVal x.desc.fmt x.codes (latchList true x.list) n) (ksOf m.nkm)).acc

theorem mmaLane_flags (m : MmaForm) (x : Latch) (a : List Byte) (al : List Leat) (row l : Nat) :
    (mmaLane m x a al row l).2 = (List.range 16).foldl (fun f n => f ||| (mmaSum m x a al row n).2) 0 := List.foldl_map
/-- The accumulators that a pending MMA writes, and the flags that it raises. -/
def Pend.mmaAccs (q : Pend) (m : MmaForm) (x : Latch) (a : List Byte) (al : List Leat) : List (Nat × Nat × Acc) :=
  accWrites m.bank q.mmaLanes (List.range 16) (fun l n => (mmaSum m x a al (q.row l) n).1)
def Pend.mmaFlags (q : Pend) (m : MmaForm) (x : Latch) (a : List Byte) (al : List Leat) : BitVec 8 :=
  q.mmaLanes.foldl (fun f l => f ||| (List.range 16).foldl (fun f n => f ||| (mmaSum m x a al (q.row l) n).2) 0) 0

theorem Pend.mmaLane_accs (q : Pend) (m : MmaForm) (x : Latch) (a : List Byte) (al : List Leat) :
    (q.mmaLanes.map (fun l => mmaLane m x a al (q.row l) l)).flatMap (·.1) = q.mmaAccs m x a al := by
  rw [List.flatMap_map]
  refine congrArg (List.flatMap · q.mmaLanes) (funext fun l => ?_)
  exact List.map_map
/-- An MMA writes every accumulator of its lanes in its bank, and no other. -/
theorem Wave.accAt_mmaAccs (wv : Wave) (q : Pend) (m : MmaForm) (x : Latch) (a : List Byte) (al : List Leat) (bank : Bool) {l n : Nat} (hl : l < 32) (hn : n < 16) :
    (wv.putAccs (q.mmaAccs m x a al)).accAt bank l n = if bank = m.bank ∧ l ∈ q.mmaLanes then (mmaSum m x a al (q.row l) n).1 else wv.accAt bank l n := by
  have hlanes (k : Nat) (hk : k ∈ q.mmaLanes) : k < 32 := ((mem_lanesOf _ k).1 (List.mem_of_mem_filter hk)).1
  have hput := wv.accAt_putAccs m.bank (fun l n => (mmaSum m x a al (q.row l) n).1) hlanes (fun n hn => List.mem_range.1 hn) bank hl hn
  simp only [List.mem_range, hn, and_true] at hput
  exact hput

/-- Is the latch as it stands the one that an MMA reads? -/
def State.latchStands (s : State) (t : Team) (wv : Wave) (x : Latch) : Bool := !wv.relatch && s.latchOf t.core wv.pipe == some x

/-- The state in which an MMA delivers: the latch filled, and the accumulators of its lanes written. -/
def State.mmaDone (s : State) (tag w : Nat) (t : Team) (wv : Wave) (m : MmaForm) (x : Latch) (accs : List (Nat × Nat × Acc)) : State :=
  ((if s.latchStands t wv x then s else s.tileTouch (wv.engVia t) t (t.sys || wv.handler) m.bd x.list).setLatch x).updWave tag w
    (fun wv => { wv.putAccs accs with relatch := false })

theorem State.latchOf_mmaDone (s : State) (tag w : Nat) (t : Team) (wv : Wave) (m : MmaForm) (x : Latch) (accs : List (Nat × Nat × Acc)) :
    (s.mmaDone tag w t wv m x accs).latchOf x.core x.pipe = some x := State.latchOf_setLatch _ x

theorem hadVec_length (p : HadP) (ty : HadTy) (xs : List Num) : (hadVec p ty xs).1.length = hadN p := by
  unfold hadVec
  split
  · exact List.length_replicate
  · simp only [List.length_map, List.length_range]

/-- Vector `i` of HAD, from the bytes read. -/
def hadRow (p : HadP) (ty : HadTy) (bs : List Byte) (i : Nat) : List Word × BitVec 8 :=
  hadVec p ty ((List.range (hadN p)).map (fun j => hadElem ty ((bs.drop ((i * hadN p + j) * hadE ty)).take (hadE ty))))
/-- The bytes of the results of `v` vectors. -/
def hadOut (p : HadP) (ty : HadTy) (bs : List Byte) (v : Nat) : List Byte :=
  (List.range v).flatMap (fun i => (hadRow p ty bs i).1.flatMap (fun y => toBytes 4 y.toNat))

theorem hadOut_length (p : HadP) (ty : HadTy) (bs : List Byte) (v : Nat) : (hadOut p ty bs v).length = v * hadN p * 4 := by
  have row (i : Nat) : ((hadRow p ty bs i).1.flatMap (fun y => toBytes 4 y.toNat)).length = hadN p * 4 := by
    simp only [List.length_flatMap, length_toBytes, List.map_const', List.sum_replicate, hadRow, hadVec_length, smul_eq_mul]
  simp only [hadOut, List.length_flatMap, row, List.map_const', List.sum_replicate, List.length_range, smul_eq_mul, Nat.mul_assoc]

/-- A byte stored at a place lies in it. -/
theorem Pend.mem_bufs {q : Pend} {eng : Bool} {sp : Space} {a : Nat} {bs : List Byte} {b : BufW} (h : b ∈ q.bufs eng sp a bs) :
    b.iss = q.id ∧ a ≤ b.a ∧ b.a < a + bs.length := by
  obtain ⟨x, hx, rfl⟩ := List.mem_map.1 h
  have hlt := (List.mem_zipIdx hx).2.1
  exact ⟨rfl, Nat.le_add_right .., by dsimp only; omega⟩

/-- Operand `i` of a pending operation, as a number. -/
def Pend.num (q : Pend) (i : Nat) : Nat := (q.x.getD i 0).toNat
/-- The stores of HAD: in its second area, as bytes of the engine. -/
def Pend.hadStores (q : Pend) (tag : Nat) (p : HadP) (ty : HadTy) (bs : List Byte) : List BufW :=
  q.bufs true (.scratch tag) (q.num 1) (hadOut p ty bs (q.num 2))

/-- The state in which HAD delivers: its results are stores of the run of a slice. -/
def State.hadDone (s : State) (tag w sl : Nat) (stores : List BufW) : State :=
  (s.updWave tag w (·.addStores sl stores)).spoilBytes (stores.map (fun b => (b.sp, b.a)))

/-! ### Completion -/

/-- A matrix operation completes from a state whose wave differs from that in which it pends in its runs, its open MMAs, its accumulators and
the mark for its latch only: those stay, and no register is written. -/
theorem State.Pending.matrix_completes {s u : State} {ev : Instr} {tag w id : Nat} {t : Team} {wv : Wave} {q : Pend} {fl : BitVec 8} {R : State → Wave → Prop}
    (hp : s.Pending tag w id t wv q) {rs : List Region} {m : List MOpen} {a : Sparse Acc} {l : Bool}
    (hu : u.wave? tag w = some { wv with regions := rs, mopen := m, acc := a, relatch := l })
    (he : exec ev s = .next ((u.finishPend tag w q [] fl).afterPend tag w))
    (hR : ∀ v : Wave, v.regions = rs → v.acc = a → v.relatch = l → R (u.finishPend tag w q [] fl) v) :
    s.Completes ev tag w wv q [] fl R := by
  have hw : (u.finishPend tag w q [] fl).wave? tag w = some (Wave.finishPend { wv with regions := rs, mopen := m, acc := a, relatch := l } u.free q [] fl) := by
    rw [State.wave?_finishPend, if_pos rfl, hu]
    rfl
  have hafter : (u.finishPend tag w q [] fl).afterPend tag w = u.finishPend tag w q [] fl :=
    State.enterTrap_none _ _ _ _ hw ((Wave.finishPend_trapQ ..).trans hp.quiet)
  have hd := Wave.finishPend_delivered { wv with regions := rs, mopen := m, acc := a, relatch := l } u.free q [] fl hp.clean
  rw [hafter] at he
  rw [Wave.finishPend_nil] at hw hd
  exact ⟨_, _, he, hw, ⟨hd.v, hd.s, hd.p, hd.lc, hd.fflags, hd.pend, hd.ev⟩, hR _ rfl rfl rfl⟩

section
variable {s : State} {tag w id : Nat} {t : Team} {wv : Wave} {q : Pend} (hp : s.Pending tag w id t wv q)
include hp

theorem State.Pending.id_eq : q.id = id := by simpa using List.find?_some hp.op

/-! ### MLOADB (R292) -/

theorem mloadbComplete_next {h : Hdr} {a b : Opd} {f : BitVec 5} {scr : Bool} {ev : Option (BitVec 3)} {codes l : List Byte}
    (hi : q.instr = .mloadb h a b f scr ev)
    (hr : s.readTile (wv.engVia t) t (s.scrLim t) (t.sys || wv.handler) (q.tileDesc t f scr) = .ok (codes, l)) :
    exec (.mloadbComplete tag w id) s = .next ((((s.tileTouch (wv.engVia t) t (t.sys || wv.handler) (q.tileDesc t f scr) l).setLatch
      { core := t.core, pipe := wv.pipe, desc := q.tileDesc t f scr, codes := codes, list := l }).finishPend tag w q [] 0).afterPend tag w) := by
  have e : exec (.mloadbComplete tag w id) s = execMloadbComplete tag w id s := rfl
  unfold Pend.tileDesc at hr ⊢
  rw [e, execMloadbComplete, withPend_next hp.team hp.wave hp.op (by rw [hi]) hp.due]
  simp only [hi, hr]

/-- MLOADB leaves the tile in the latch of its array, and the accumulators alone. -/
theorem mloadb_completes {h : Hdr} {a b : Opd} {f : BitVec 5} {scr : Bool} {ev : Option (BitVec 3)} {codes l : List Byte}
    (hi : q.instr = .mloadb h a b f scr ev)
    (hr : s.readTile (wv.engVia t) t (s.scrLim t) (t.sys || wv.handler) (q.tileDesc t f scr) = .ok (codes, l)) :
    s.Completes (.mloadbComplete tag w id) tag w wv q [] 0 (fun u v => v.acc = wv.acc ∧
      u.latchOf t.core wv.pipe = some { core := t.core, pipe := wv.pipe, desc := q.tileDesc t f scr, codes := codes, list := l }) := by
  refine hp.matrix_completes (rs := wv.regions) (m := wv.mopen) (a := wv.acc) (l := wv.relatch) ?_ (mloadbComplete_next hp hi hr)
    fun v _ hacc _ => ⟨hacc, (State.latchOf_finishPend ..).trans (State.latchOf_setLatch ..)⟩
  exact (State.wave?_tileTouch ..).trans (State.wave?_of_team hp.team hp.wave)

/-! ### MMA (R283 to R293) -/

theorem State.Pending.wave?_mmaDone (m : MmaForm) (x : Latch) (accs : List (Nat × Nat × Acc)) :
    (s.mmaDone tag w t wv m x accs).wave? tag w =
      some { wv with regions := (wv.putAccs accs).regions, mopen := wv.mopen, acc := (wv.putAccs accs).acc, relatch := false } := by
  refine State.wave?_updWave_of ?_ (fun _ => rfl)
  have hw := State.wave?_of_team hp.team hp.wave
  rw [← hw]
  split
  · rfl
  · exact State.wave?_tileTouch ..

section
variable {m : MmaForm} {a : List Byte} {al : List Leat} {x : Latch} (hq : q.mma = some m) (hturn : s.engFirst t wv id = false)
  (ha : s.gatherA t (s.scrLim t) (t.sys || wv.handler) q m = .ok (a, al)) (hx : s.latchFor t wv (t.sys || wv.handler) m.bd = .ok x)
  (hopen : ∀ e ∈ wv.mopen, e.id = id → e.spoilt = 0)
include hq hturn ha hx hopen

/-- MMA_COMPLETE in its turn, when what it reads can be read and software has touched none of it. -/
theorem mmaComplete_next : exec (.mmaComplete tag w id) s =
    .next (((s.mmaDone tag w t wv m x (q.mmaAccs m x a al)).finishPend tag w q [] (q.mmaFlags m x a al)).afterPend tag w) := by
  have e : exec (.mmaComplete tag w id) s = execMmaComplete tag w id s := rfl
  have hw := State.wave?_of_team hp.team hp.wave
  obtain ⟨_, _, _, _, _, _, hi⟩ := Pend.instr_of_mma hq
  have hspoilt : ((wv.mopen.find? (·.id == q.id)).map (·.spoilt)).getD 0 = 0 := by
    cases hf : wv.mopen.find? (·.id == q.id) with
    | none => rfl
    | some e => exact hopen e (List.mem_of_find?_eq_some hf) ((by simpa using List.find?_some hf : e.id = q.id).trans hp.id_eq)
  have clean (accs : List (Nat × Nat × Acc)) : accs.map (fun y => if (0 : Lanes).getLsbD y.1 then (y.1, y.2.1, freeAcc s.free y.1 (y.2.1 % 16)) else y) = accs :=
    (List.map_congr_left fun y _ => if_neg (by simp)).trans (List.map_id' _)
  rw [e, execMmaComplete]
  simp only [hp.team, hw, hturn, Bool.false_eq_true, if_false]
  rw [withPend_next hp.team hp.wave hp.op (by rw [hi]) hp.due]
  simp only [hq, ha, hx, hspoilt, clean, Pend.mmaLane_accs, List.foldl_map, mmaLane_flags]
  rfl

/-- MMA fills the latch, writes every accumulator of its lanes, and leaves every other (R283 to R291). -/
theorem mma_completes : s.Completes (.mmaComplete tag w id) tag w wv q [] (q.mmaFlags m x a al) (fun u v =>
    u.latchOf t.core wv.pipe = some x ∧ v.relatch = false ∧ ∀ bank l n, l < 32 → n < 16 →
      v.accAt bank l n = if bank = m.bank ∧ l ∈ q.mmaLanes then (mmaSum m x a al (q.row l) n).1 else wv.accAt bank l n) := by
  refine hp.matrix_completes (hp.wave?_mmaDone m x (q.mmaAccs m x a al)) (mmaComplete_next hp hq hturn ha hx hopen)
    fun v _ hacc hlatch => ⟨?_, hlatch, fun bank l n hl hn => ?_⟩
  · obtain ⟨hcore, hpipe⟩ := State.latchFor_array hx
    have hfilled := s.latchOf_mmaDone tag w t wv m x (q.mmaAccs m x a al)
    rw [hcore, hpipe] at hfilled
    exact (State.latchOf_finishPend ..).trans hfilled
  · rw [← wv.accAt_mmaAccs q m x a al bank hl hn, Wave.accAt, hacc]
    rfl
end

/-- MMA out of its turn (R290). -/
theorem mmaComplete_refused (hturn : s.engFirst t wv id = true) : exec (.mmaComplete tag w id) s = .refused (.notEnabled "MMA_COMPLETE") := by
  have e : exec (.mmaComplete tag w id) s = execMmaComplete tag w id s := rfl
  rw [e, execMmaComplete]
  simp only [hp.team, State.wave?_of_team hp.team hp.wave, hturn, if_true]

/-! ### HAD (R298, R299) -/

section
variable {h : Hdr} {a b c : Opd} {p : HadP} {ty : HadTy} {ev : Option (BitVec 3)} {bs : List Byte} {r : Region}
  (hi : q.instr = .had h a b c p ty ev) (hr : wv.regions.find? (fun x => q.rids.contains x.rid) = some r)
  (hb : s.engRead .agent t (s.scrLim t) true (q.num 0) (q.num 2 * hadN p * hadE ty) (t.sys || wv.handler) = .ok bs)
  (hapart : q.num 0 + q.num 2 * hadN p * hadE ty ≤ q.num 1 ∨ q.num 1 + q.num 2 * hadN p * 4 ≤ q.num 0)
include hi hr hb hapart

/-- HAD_COMPLETE, with areas that do not meet. -/
theorem hadComplete_next : exec (.hadComplete tag w id) s = .next (((s.hadDone tag w r.sl (q.hadStores tag p ty bs)).finishPend tag w q []
    ((List.range (q.num 2)).foldl (fun f i => f ||| (hadRow p ty bs i).2) 0)).afterPend tag w) := by
  have e : exec (.hadComplete tag w id) s = execHadComplete tag w id s := rfl
  have kept : (q.hadStores tag p ty bs).map (fun x =>
      if !(hadE ty == 4 && q.num 0 == q.num 1) && q.num 0 ≤ x.a && x.a < q.num 0 + q.num 2 * hadN p * hadE ty then { x with und := true } else x) =
        q.hadStores tag p ty bs := by
    refine (List.map_congr_left fun x hx => if_neg ?_).trans (List.map_id' _)
    obtain ⟨-, hlo, hhi⟩ := Pend.mem_bufs hx
    rw [hadOut_length] at hhi
    simp only [Bool.and_eq_true, decide_eq_true_eq, not_and]
    intro _
    omega
  rw [e, execHadComplete, withPend_next hp.team hp.wave hp.op (by rw [hi]) hp.due]
  unfold Pend.num at hb
  simp only [hi, hb, hr, Option.map_some, Option.getD_some, List.flatMap_map, List.foldl_map]
  unfold Pend.hadStores hadOut hadRow Pend.num at kept
  simp only [kept]
  rfl

/-- HAD holds its results as stores of its run, in the order of the issues (R299). -/
theorem had_completes (hsl : wv.region? r.sl = some r) (hv : q.num 2 ≠ 0) :
    s.Completes (.hadComplete tag w id) tag w wv q [] ((List.range (q.num 2)).foldl (fun f i => f ||| (hadRow p ty bs i).2) 0)
      (fun _ x => ∃ r', x.region? r.sl = some r' ∧
        r'.stores = r.stores.filter (·.iss ≤ id) ++ q.hadStores tag p ty bs ++ r.stores.filter (id < ·.iss)) := by
  have hadd : (s.updWave tag w (·.addStores r.sl (q.hadStores tag p ty bs))).wave? tag w = some (wv.addStores r.sl (q.hadStores tag p ty bs)) :=
    State.wave?_updWave_of (State.wave?_of_team hp.team hp.wave) (fun _ => rfl)
  obtain ⟨m, acc, hdone⟩ := State.spoilBytes_wave _ ((q.hadStores tag p ty bs).map (fun b => (b.sp, b.a))) _ _ _ hadd
  refine hp.matrix_completes (l := wv.relatch) hdone (hadComplete_next hp hi hr hb hapart) fun x hregions _ _ => ?_
  have hne : q.hadStores tag p ty bs ≠ [] := by
    have hpos : 0 < hadN p := by cases p <;> decide
    refine List.ne_nil_of_length_pos ?_
    simp only [Pend.hadStores, Pend.bufs, List.length_map, List.length_zipIdx, hadOut_length]
    exact Nat.mul_pos (Nat.mul_pos (Nat.pos_of_ne_zero hv) hpos) (by decide)
  have hstores := addIssue_eq r.stores _ id hne fun b hb => (Pend.mem_bufs hb).1.trans hp.id_eq
  refine ⟨{ r with stores := addIssue r.stores (q.hadStores tag p ty bs) }, ?_, hstores⟩
  have hrun := wv.region?_addStores r.sl r.sl (q.hadStores tag p ty bs)
  rw [hsl, Option.map_some, if_pos rfl] at hrun
  rw [← hrun, Wave.region?, hregions]
  rfl
end
end

end Sys2Proof.Machine

/-- Settles O46: each event is one `withPend` that reads, then delivers; the accumulators of an MMA are told apart by their keys. -/
theorem matrixResults : Obligations.MatrixResults := by
  intro s tag w id t wv q hp
  refine ⟨?mloadb, ?mma, mmaComplete_refused hp, ?had⟩
  case mloadb =>
    intro h a b f scr ev codes l hi d hr
    exact mloadb_completes hp hi hr
  case mma =>
    intro m a al x hq hturn ha hx hopen
    exact mma_completes hp hq hturn ha hx hopen
  case had =>
    intro h a b c p ty ev bs r hi hr hsl f o v n hv hb hapart
    exact had_completes hp hi hr hb hapart hsl hv

end

section
/-! PROOFS. Instructions that change their wave and then start an operation or answer a status, and wide results in vector registers (R67, R131, R134). -/
open Sys2Proof Sys2Proof.Machine

namespace Sys2Proof.Machine

/-! ### Effects on the issuing wave -/

/-- An instruction that acts, by the wave that its effect leaves. -/
theorem actsIf_of {i : Instr} {P : State → Ctx → Prop} {R : State → Ctx → Wave → Prop} {k : Ctx → State → Except Stop State}
    (he : ∀ s, exec i s = issue i s k)
    (hk : ∀ s c s' u age, s.pre i = .go c s' → P s c → u.wave? c.tag c.w = some { c.advance i c.wv with age := age } →
      ∃ t wv, k c u = .ok t ∧ t.wave? c.tag c.w = some wv ∧ R s c wv) : ActsIf i P R := by
  intro s c s' hp hP
  obtain ⟨w0, h0, age, rfl⟩ := advance_wave s i c s' hp
  obtain ⟨t, wv, ht, hw, hR⟩ := hk s c s' _ age hp hP h0
  exact ⟨_, wv, (he s).trans (issue_ok hp ht), settle_wave _ _ _ _ hw, hR⟩

theorem State.wave?_onWave {u : State} {c : Ctx} {w0 : Wave} (f : Wave → Wave) (hf : ∀ x, (f x).ix = x.ix) (h : u.wave? c.tag c.w = some w0) :
    (u.onWave c f).wave? c.tag c.w = some (f w0) := State.wave?_updWave_of h hf
theorem State.wave?_start {u : State} {c : Ctx} {w0 : Wave} (q : Pend) (hl : c.lanes ≠ 0) (h : u.wave? c.tag c.w = some w0) :
    (u.start c q).wave? c.tag c.w = some (w0.startPend q) := by
  rw [State.start_active _ _ _ hl]
  exact State.wave?_updWave_of h (Wave.startPend_ix q)

/-- `Wave.Quiet` looks at registers, flags, pending operations and event counters only. -/
theorem Wave.Quiet.congr {a b x : Wave} (h : a.Quiet b) (hregs : (x.v, x.s, x.p, x.lc) = (b.v, b.s, b.p, b.lc))
    (hrest : (x.fflags, x.pend, x.ev) = (b.fflags, b.pend, b.ev)) : a.Quiet x := by
  simp only [Prod.mk.injEq] at hregs hrest
  obtain ⟨hv, hs, hp, hlc⟩ := hregs
  obtain ⟨hfl, hpend, hev⟩ := hrest
  exact ⟨⟨fun n l => (Wave.vr_congr hv n l).trans (h.regs.v n l), fun n => (Wave.sr_congr hs n).trans (h.regs.s n),
    fun n => (Wave.lcr_congr hlc n).trans (h.regs.lc n)⟩, fun n => (Wave.pr_congr hp n).trans (h.preds n), hfl.trans h.fflags, hpend.trans h.pend,
    fun n => (by simp only [Wave.evr, hev] : x.evr n = b.evr n).trans (h.ev n)⟩

/-- What an operation that starts in a wave leaves of it. -/
structure Wave.Started (a b : Wave) (q : Pend) : Prop where
  regs : a.KeptRegs b
  preds : a.KeptPreds b
  fflags : b.fflags = a.fflags
  ev : ∀ n, b.evr n = if q.ev = some n then a.evr n + 1 else a.evr n
  last : b.pend.getLast? = some q
  length : b.pend.length = a.pend.length + 1
theorem Wave.Quiet.started {a b : Wave} (h : a.Quiet b) (q : Pend) : a.Started (b.startPend q) q where
  regs := ⟨h.regs.v, h.regs.s, h.regs.lc⟩
  preds := h.preds
  fflags := h.fflags
  ev n := by rw [Wave.startPend_evr, h.ev]
  last := List.getLast?_concat
  length := by simp only [Wave.startPend, List.length_append, List.length_map, List.length_singleton, h.pend]

/-- An operation that starts once its effect has changed its wave in what no result is read from. -/
theorem starts_wave {i : Instr} {P : State → Ctx → Prop} {Q : State → Ctx → Pend → Prop} {k : Ctx → State → Except Stop State}
    (he : ∀ s, exec i s = issue i s k) (hidle : ∀ c u, c.lanes = 0 → k c u = .ok u)
    (hk : ∀ s c u w0, P s c → c.lanes ≠ 0 → u.wave? c.tag c.w = some w0 → c.wv.Quiet w0 → ∃ (v : State) (w1 : Wave) (q : Pend), k c u = .ok (v.start c q) ∧
      v.wave? c.tag c.w = some w1 ∧ c.wv.Quiet w1 ∧ q.id = c.iss ∧ q.instr = i ∧ q.ev = i.counted ∧ q.dsts = i.dstRegs ∧ q.lanes = c.lanes ∧ Q s c q) :
    Starts i P Q := by
  refine actsIf_of he fun s c s' u age hp hP hu => ?_
  have hquiet := (Ctx.advance_same c i c.wv age).quiet
  obtain ⟨-, -, hiss⟩ := (pre_go s i c s' hp).now
  by_cases hl : c.lanes = 0
  · exact ⟨u, _, hidle c u hl, hu, ⟨hquiet.regs.v, hquiet.regs.s, hquiet.regs.lc⟩, hquiet.preds, hquiet.fflags,
      fun _ => ⟨hquiet.pend, hquiet.ev⟩, fun e => absurd hl e⟩
  · obtain ⟨v, w1, q, hrun, hv, hq1, hid, hinstr, hev, hdsts, hlanes, hQ⟩ := hk s c u _ hP hl hu hquiet
    have hs := hq1.started q
    exact ⟨_, _, hrun, State.wave?_start q hl hv, hs.regs, hs.preds, hs.fflags, fun e => absurd e hl,
      fun _ => ⟨hev ▸ hs.ev, q, hs.last, hs.length, hid.trans hiss, hinstr, hev, hdsts, hlanes, hQ⟩⟩

/-- A status that is answered once the effect has changed the wave in what no result is read from. -/
theorem answers_wave {i : Instr} {P : State → Ctx → Prop} {R : State → Ctx → Wave → Prop} {d : Opd} {x : Word} {k : Ctx → State → Except Stop State}
    (he : ∀ s, exec i s = issue i s k)
    (hk : ∀ s c u w0, P s c → u.wave? c.tag c.w = some w0 → c.wv.Same w0 → ∃ (v : State) (w1 : Wave), k c u = .ok (v.done c d x) ∧ v.wave? c.tag c.w = some w1 ∧
      c.wv.Quiet w1 ∧ ∀ wv : Wave, wv.walks = w1.walks → R s c wv) :
    Answers i P d (fun _ _ _ => x) (fun s c _ wv => R s c wv) := by
  refine actsIf_of he fun s c s' u age hp hP hu => ?_
  obtain ⟨v, w1, hrun, hv, hquiet, hR⟩ := hk s c u _ hP hu (Ctx.advance_same c i c.wv age)
  have hgot := w1.got32_wr1 c.lanes d (fun _ => x)
  have hpreds := w1.puts_wr1_preds c.lanes d (fun _ => x)
  obtain ⟨_, _, _, _, e⟩ := Wave.puts_eq (c.dst d (fun _ => x)) w1
  refine ⟨_, _, hrun, putNow_wave _ hv, ⟨fun n l hl => ?_, fun n => ?_, fun n => ?_⟩, fun n => ?_, ?_, ?_, fun n => ?_, hR _ ?_⟩
  · rw [← hquiet.regs.v]; exact hgot.v n l hl
  · rw [← hquiet.regs.s]; exact hgot.s n
  · rw [← hquiet.regs.lc]; exact hgot.lc n
  · rw [← hquiet.preds]; exact Wave.pr_congr hpreds n
  · rw [e]; exact hquiet.fflags
  · rw [e, ← hquiet.pend]; exact List.map_map
  · rw [e]; exact hquiet.ev n
  · rw [e]; rfl

/-! ### Wide results in vector registers -/

/-- A vector register after words were written to consecutive ones, in one lane. -/
theorem Wave.puts_words_vr (r l m k : Nat) (f : Nat → Word) (hl : l < 32) (hk : k < 32) : ∀ (n : Nat) (wv : Wave),
    (wv.puts ((List.range n).map (fun i => .v (r + i) l (f i)))).vr m k = if r ≤ m ∧ m < r + n ∧ l = k then f (m - r) else wv.vr m k
  | 0, wv => by rw [if_neg (by omega)]; rfl
  | n + 1, wv => by
    rw [List.range_succ, List.map_append, Wave.puts_append, List.map_singleton, Wave.puts_cons, Wave.puts_nil, Wave.put_v_vr _ _ _ _ _ _ hl hk,
      Wave.puts_words_vr r l m k f hl hk n wv]
    by_cases hlast : r + n = m ∧ l = k
    · obtain ⟨rfl, rfl⟩ := hlast
      rw [if_pos ⟨rfl, rfl⟩, if_pos (by omega), Nat.add_sub_cancel_left]
    · rw [if_neg hlast]
      refine if_congr ?_ rfl rfl
      omega
/-- A wide result in vector registers: each active lane gets its words (R67). -/
theorem Wave.puts_wrN_v (wv : Wave) (m : Lanes) (r : BitVec 7) (n : Nat) (f : Nat → Nat → Word) (j k : Nat) (hk : k < 32) :
    (wv.puts (wrN m (.v r) n f)).vr j k = if r.toNat ≤ j ∧ j < r.toNat + n ∧ m.getLsbD k = true then f (j - r.toNat) k else wv.vr j k := by
  have lanes : ∀ (ls : List Nat) (wv : Wave), (∀ l ∈ ls, l < 32) →
      (wv.puts (ls.flatMap (fun l => (List.range n).map (fun i => .v (r.toNat + i) l (f i l))))).vr j k =
        if r.toNat ≤ j ∧ j < r.toNat + n ∧ k ∈ ls then f (j - r.toNat) k else wv.vr j k := by
    intro ls
    induction ls with
    | nil => intro wv _; rw [if_neg fun e => absurd e.2.2 List.not_mem_nil]; rfl
    | cons l ls ih =>
      intro wv hls
      rw [List.flatMap_cons, Wave.puts_append, ih _ (fun x hx => hls x (List.mem_cons_of_mem _ hx)),
        Wave.puts_words_vr _ _ _ _ _ (hls l List.mem_cons_self) hk]
      by_cases hin : r.toNat ≤ j ∧ j < r.toNat + n
      · by_cases hkl : l = k
        · subst hkl
          simp only [hin, true_and, if_true, List.mem_cons, true_or, ite_self]
        · simp only [hin, true_and, hkl, if_false, List.mem_cons, Ne.symm hkl, false_or]
      · rw [if_neg fun e => hin ⟨e.1, e.2.1⟩, if_neg fun e => hin ⟨e.1, e.2.1⟩, if_neg fun e => hin ⟨e.1, e.2.1⟩]
  rw [wrN, lanes _ _ fun l hl => ((mem_lanesOf m l).1 hl).1]
  simp only [mem_lanesOf, hk, true_and]

/-- Writes of vector registers leave the others. -/
theorem Wave.puts_vectors : ∀ (ws : List RegW) (_ : ∀ x ∈ ws, ∃ n l y, x = .v n l y) (wv : Wave), ∃ v, wv.puts ws = { wv with v := v }
  | [], _, wv => ⟨wv.v, rfl⟩
  | x :: r, h, wv => by
    obtain ⟨n, l, y, rfl⟩ := h x List.mem_cons_self
    obtain ⟨v, e⟩ := Wave.puts_vectors r (fun x hx => h x (List.mem_cons_of_mem _ hx)) (wv.put (.v n l y))
    exact ⟨v, (Wave.puts_cons ..).trans e⟩
theorem mem_wrN_v {m : Lanes} {r : BitVec 7} {n : Nat} {f : Nat → Nat → Word} : ∀ x ∈ wrN m (.v r) n f, ∃ n l y, x = RegW.v n l y := by
  intro x hx
  obtain ⟨l, -, hx⟩ := List.mem_flatMap.1 hx
  obtain ⟨i, -, rfl⟩ := List.mem_map.1 hx
  exact ⟨_, _, _, rfl⟩

end Sys2Proof.Machine

end

section
/-! PROOFS. Issue of the matrix instructions (O51; R281, R282, R289, R292 to R298, R300, R302). -/
open Sys2Proof Sys2Proof.Machine

namespace Sys2Proof.Machine

/-! ### Accumulators cleared -/

/-- From `a` to `b`, the accumulators of some columns of a bank were cleared in the lanes `m`, and no other changed. -/
def Wave.Cleared (a b : Wave) (bank : Bool) (m : Lanes) (cols : Nat → Prop) : Prop :=
  ∀ bk l n, l < 32 → n < 16 → ((bk = bank ∧ m.getLsbD l = true ∧ cols n) → b.accAt bk l n = Acc.zero) ∧
    (¬(bk = bank ∧ m.getLsbD l = true ∧ cols n) → b.accAt bk l n = a.accAt bk l n)

/-- A wave with the accumulators of some columns of a bank cleared in the lanes `m`. -/
def Wave.clearAccs (wv : Wave) (bank : Bool) (m : Lanes) (ns : List Nat) : Wave := wv.putAccs (accWrites bank (lanesOf m) ns (fun _ _ => Acc.zero))

theorem Wave.cleared_of {a w b : Wave} {bank : Bool} {m : Lanes} {ns : List Nat} {cols : Nat → Prop} (hw : w.acc = a.acc)
    (hb : b.acc = (w.clearAccs bank m ns).acc) (hns : ∀ n, n ∈ ns ↔ n < 16 ∧ cols n) : a.Cleared b bank m cols := by
  intro bk l n hl hn
  have hput := w.accAt_putAccs bank (ls := lanesOf m) (ns := ns) (fun _ _ => Acc.zero) (fun l hl => ((mem_lanesOf m l).1 hl).1)
    (fun n hn => ((hns n).1 hn).1) bk hl hn
  simp only [Wave.accAt, hb, ← hw]
  refine ⟨fun ⟨hbank, hlane, hcol⟩ => hput.trans (if_pos ⟨hbank, (mem_lanesOf m l).2 ⟨hl, hlane⟩, (hns n).2 ⟨hn, hcol⟩⟩), fun h => hput.trans (if_neg ?_)⟩
  rintro ⟨hbank, hlane, hcol⟩
  exact h ⟨hbank, ((mem_lanesOf m l).1 hlane).2, ((hns n).1 hcol).2⟩

/-! ### A bank with an MMA pending (R281) -/

/-- An MMA, MRES or MZERO may touch a bank: each MMA of it that pends is covered, or nobody checks. -/
def Ctx.BankFree (c : Ctx) (bank : Bool) : Prop := c.b.chk = false ∨ ∀ e ∈ c.wv.mopen, e.bank = bank → e.covered = true ∨ ∀ q ∈ c.wv.pend, q.id ≠ e.id

theorem Ctx.mBusy_iff (c : Ctx) (bank : Bool) : c.mBusy bank = true ↔ ¬c.BankFree bank := by
  simp only [mBusy, BankFree, Bool.and_eq_true, List.any_eq_true, beq_iff_eq, Bool.not_eq_true', not_or, Bool.not_eq_false, not_forall, ne_eq,
    not_not, exists_prop, Bool.not_eq_true, and_assoc]
theorem Ctx.BankFree.idle {c : Ctx} {bank : Bool} (h : c.BankFree bank) : ¬c.mBusy bank = true := fun e => (c.mBusy_iff bank).1 e h

/-! ### MLOADB (R292) -/

/-- The address of the list that an MLOADB names, or of the mask that a TWALK does; none for a zero operand. -/
def Ctx.listAt (c : Ctx) (b : Opd) : Option Nat := match b with | .zero => none | o => some (c.sc o).toNat

theorem Ctx.listBad_iff (c : Ctx) (b : Opd) : ((c.listAt b).any (· % 8 ≠ 0)) = true ↔ ∃ l, c.listAt b = some l ∧ l % 8 ≠ 0 := by
  simp only [Option.any_eq_true, decide_eq_true_eq]

/-- The descriptor that an MLOADB sets. -/
def Ctx.bDesc (c : Ctx) (a b : Opd) (f : BitVec 5) (scr : Bool) : BDesc :=
  { asid := c.tm.asid, scr := scr, tile := (c.sc a).toNat, fmt := f.toNat, list := c.listAt b }
/-- MLOADB as it starts. -/
def Ctx.mloadbPend (c : Ctx) (i : Instr) (a b : Opd) : Pend :=
  { c.pend i [c.ownRid] with x := [c.sc a, BitVec.ofNat 64 ((c.listAt b).getD 0)], y := [if (c.listAt b).isSome then 1 else 0] }

theorem mloadb_issue (h : Hdr) (a b : Opd) (f : BitVec 5) (scr : Bool) (ev : Option (BitVec 3)) :
    let i : Instr := .mloadb h a b f scr ev
    let ok (c : Ctx) : Prop := isLeat f.toNat = (c.listAt b).isSome
    TrapsIf i (fun _ c => c.lanes ≠ 0 ∧ ¬ok c) 0x13 (fun _ => 0) ∧
    TrapsIf i (fun _ c => c.lanes ≠ 0 ∧ ok c ∧ (c.sc a).toNat % 8 ≠ 0) 0x06 (fun c => (c.sc a).toNat) ∧
    TrapsIf i (fun _ c => c.lanes ≠ 0 ∧ ok c ∧ (c.sc a).toNat % 8 = 0 ∧ ∃ l, c.listAt b = some l ∧ l % 8 ≠ 0) 0x06 (fun c => (c.listAt b).getD 0) ∧
    ActsIf i (fun _ c => c.lanes ≠ 0 ∧ ok c ∧ (c.sc a).toNat % 8 = 0 ∧ ∀ l, c.listAt b = some l → l % 8 = 0) (fun s c wv => c.wv.KeptRegs wv ∧
      wv.bdesc = some (c.bDesc a b f scr) ∧ wv.acc = c.wv.acc ∧
      (∀ n, wv.evr n = if i.counted = some n then c.wv.evr n + 1 else c.wv.evr n) ∧ ∃ q, wv.pend.getLast? = some q ∧ q.id = s.nextId ∧ q.instr = i) := by
  intro i ok
  have he (s : State) : exec i s = execMloadb h a b f scr ev s := rfl
  unfold execMloadb at he
  refine ⟨trapsIf_of he fun _ _ _ ⟨hl, hok⟩ => (if_neg hl).trans (if_pos hok),
    trapsIf_of he fun _ _ _ ⟨hl, hok, hal⟩ => (if_neg hl).trans ((if_neg (not_not.2 hok)).trans (if_pos hal)),
    trapsIf_of he fun _ c _ ⟨hl, hok, hal, hbad⟩ =>
      (if_neg hl).trans ((if_neg (not_not.2 hok)).trans ((if_neg (not_not.2 hal)).trans (if_pos ((c.listBad_iff b).2 hbad)))),
    actsIf_of he fun s c s' u age hp ⟨hl, hok, hal, hgood⟩ hu => ?_⟩
  have hnone : ¬((c.listAt b).any (· % 8 ≠ 0)) = true := fun e => by
    obtain ⟨l, hsome, hbad⟩ := (c.listBad_iff b).1 e
    exact hbad (hgood l hsome)
  have hacc : (c.advance i c.wv).acc = c.wv.acc := Ctx.advance_acc fun _ _ => .inr fun _ hr => absurd hr List.not_mem_nil
  have hw := State.wave?_onWave (·.putBDesc c.ownRid (some (c.bDesc a b f scr))) (fun _ => rfl) hu
  have hs := ((Ctx.advance_same c i c.wv age).quiet.congr
    (x := Wave.putBDesc { c.advance i c.wv with age := age } c.ownRid (some (c.bDesc a b f scr))) rfl rfl).started (c.mloadbPend i a b)
  exact ⟨_, _, (if_neg hl).trans ((if_neg (not_not.2 hok)).trans ((if_neg (not_not.2 hal)).trans (if_neg hnone))),
    State.wave?_start (c.mloadbPend i a b) hl hw, hs.regs, Wave.bdesc_putBDesc .., hacc, hs.ev, _, hs.last, (pre_go s i c s' hp).now.2.2, rfl⟩

/-! ### MMA (R281, R282, R289, R293) -/

/-- The A descriptor that an MMA reads. -/
def Ctx.aDesc (c : Ctx) (a : Opd) : ADesc := ADesc.of (c.sc a).toNat
/-- A and B descriptors that an MMA may combine (R282). -/
def ADesc.Pairs (d : ADesc) (w : BDesc) : Prop := d.bad = false ∧ isLeat d.fmt = d.lv ∧ pairOk d.fmt w.fmt = true
/-- Tile and list of an A descriptor are aligned. -/
def ADesc.Aligned (d : ADesc) : Prop := d.tile % 8 = 0 ∧ (d.lv = true → d.list % 8 = 0)
/-- The tile of an A descriptor lies in the kernel's scratch. -/
def Ctx.ATileIn (c : Ctx) (d : ADesc) : Prop := d.tile + 512 * fmtWidth d.fmt ≤ c.gg.kobj.scrLen
/-- Every active lane names a row, or none (R289). -/
def Ctx.RowsOk (c : Ctx) (b : Opd) : Prop := ∀ l ∈ lanesOf c.lanes, (c.w32 b l).toNat ≤ 31 ∨ c.w32 b l = 0xFFFFFFFF

theorem ADesc.pairs_iff (d : ADesc) (w : BDesc) : (d.bad || isLeat d.fmt != d.lv || !pairOk d.fmt w.fmt) = true ↔ ¬d.Pairs w := by
  simp only [Pairs, Bool.or_eq_true, bne_iff_ne, Bool.not_eq_true', not_and_or, Bool.not_eq_false, Bool.not_eq_true, ne_eq, or_assoc]
theorem Ctx.rowsOk_iff (c : Ctx) (b : Opd) :
    (lanesOf c.lanes).any (fun l => (c.w32 b l).toNat > 31 && c.w32 b l ≠ 0xFFFFFFFF) = true ↔ ¬c.RowsOk b := by
  simp only [RowsOk, List.any_eq_true, Bool.and_eq_true, decide_eq_true_eq, not_forall, not_or, not_le, gt_iff_lt, ne_eq, exists_prop]

/-- The MMA that an issue opens: its lanes, and what it reads (R281). -/
def State.mmaOpen (u : State) (c : Ctx) (a b : Opd) (bank : Bool) (w : BDesc) : MOpen :=
  { id := c.iss, rids := c.rids, bank := bank, lanes := c.rowLanes b, regs := a.regs 1 1 ++ b.regs 1 1, rng := u.mmaRange c (c.aDesc a) w, covered := false
    spoilt := (c.wv.mopen.filter (overlaps bank (c.rowLanes b))).foldl (fun (x : Lanes) e => x ||| e.lanes) 0 &&& c.rowLanes b }
/-- The MMAs of the same lanes are spoilt, and the new one is open. -/
def State.openMma (u : State) (c : Ctx) (a b : Opd) (bank : Bool) (w : BDesc) : State :=
  let v := u.onWave c (·.spoil c.free (overlaps bank (c.rowLanes b)))
  v.onWave c (fun wv => { wv with mopen := wv.mopen ++ [v.mmaOpen c a b bank w] })
/-- MMA as it starts: its descriptors, and the rows of its lanes. -/
def Ctx.mmaPend (c : Ctx) (i : Instr) (a b : Opd) (w : BDesc) : Pend :=
  { c.pend i c.rids with
    x := [c.sc a, BitVec.ofNat 64 w.asid, if w.scr then 1 else 0, BitVec.ofNat 64 w.tile, BitVec.ofNat 64 w.fmt,
          if w.list.isSome then 1 else 0, BitVec.ofNat 64 (w.list.getD 0)]
    y := byLane (fun l => (c.w32 b l).setWidth 64) }

/-- The last checks of MMA, on the places it reads and the rows. -/
def mmaPlaces (i : Instr) (a b : Opd) (bank : Bool) (w : BDesc) (c : Ctx) (u : State) : Except Stop State :=
  if (c.aDesc a).tile % 8 ≠ 0 then .error (.trap 0x06 (c.aDesc a).tile)
  else if (c.aDesc a).lv && (c.aDesc a).list % 8 ≠ 0 then .error (.trap 0x06 (c.aDesc a).list)
  else if (c.aDesc a).tile + 512 * fmtWidth (c.aDesc a).fmt > c.gg.kobj.scrLen then .error (.trap 0x08 (c.aDesc a).tile)
  else if (lanesOf c.lanes).any (fun l => (c.w32 b l).toNat > 31 && c.w32 b l ≠ 0xFFFFFFFF) then .error (.trap 0x08 0)
  else .ok ((u.openMma c a b bank w).start c (c.mmaPend i a b w))
/-- The effect of MMA: bank, descriptors, then places. -/
def mmaEffect (i : Instr) (a b : Opd) (bank : Bool) (c : Ctx) (u : State) : Except Stop State :=
  if c.lanes = 0 then .ok u
  else if c.mBusy bank then .error (.trap 0x03 0)
  else match c.wv.bdesc with
    | none => .error (.trap 0x13 0)
    | some w => if (c.aDesc a).bad || isLeat (c.aDesc a).fmt != (c.aDesc a).lv || !pairOk (c.aDesc a).fmt w.fmt then .error (.trap 0x13 0)
        else mmaPlaces i a b bank w c u
theorem exec_mma (h : Hdr) (a b : Opd) (nkm : BitVec 4) (bank : Bool) (ev : Option (BitVec 3)) (s : State) :
    exec (.mma h a b nkm bank ev) s = issue (.mma h a b nkm bank ev) s (mmaEffect (.mma h a b nkm bank ev) a b bank) := rfl

/-- The descriptors that an MMA finds may be combined. -/
def Ctx.DescsOk (c : Ctx) (a : Opd) : Prop := ∃ w, c.wv.bdesc = some w ∧ (c.aDesc a).Pairs w

section
variable {i : Instr} {a b : Opd} {bank : Bool} {c : Ctx} {u : State} {w : BDesc}

theorem mmaEffect_busy (hl : c.lanes ≠ 0) (h : ¬c.BankFree bank) : mmaEffect i a b bank c u = .error (.trap 0x03 0) :=
  (if_neg hl).trans (if_pos ((c.mBusy_iff bank).2 h))
theorem mmaEffect_descs (hl : c.lanes ≠ 0) (h : c.BankFree bank) (hd : ¬c.DescsOk a) : mmaEffect i a b bank c u = .error (.trap 0x13 0) := by
  refine (if_neg hl).trans ((if_neg h.idle).trans ?_)
  cases hw : c.wv.bdesc with
  | none => rfl
  | some w => exact if_pos (((c.aDesc a).pairs_iff w).2 fun e => hd ⟨w, hw, e⟩)
theorem mmaEffect_places (hl : c.lanes ≠ 0) (h : c.BankFree bank) (hw : c.wv.bdesc = some w) (hd : (c.aDesc a).Pairs w) :
    mmaEffect i a b bank c u = mmaPlaces i a b bank w c u := by
  refine (if_neg hl).trans ((if_neg h.idle).trans ?_)
  rw [hw]
  exact if_neg fun e => ((c.aDesc a).pairs_iff w).1 e hd

theorem mmaPlaces_tile (h : (c.aDesc a).tile % 8 ≠ 0) : mmaPlaces i a b bank w c u = .error (.trap 0x06 (c.aDesc a).tile) := if_pos h
theorem mmaPlaces_list (h : (c.aDesc a).tile % 8 = 0) (hv : (c.aDesc a).lv = true) (hlist : (c.aDesc a).list % 8 ≠ 0) :
    mmaPlaces i a b bank w c u = .error (.trap 0x06 (c.aDesc a).list) :=
  (if_neg (not_not.2 h)).trans (if_pos (by rw [hv, Bool.true_and]; exact decide_eq_true hlist))
theorem ADesc.Aligned.list_ok {d : ADesc} (h : d.Aligned) : ¬(d.lv && d.list % 8 ≠ 0) = true := by
  rw [Bool.and_eq_true, decide_eq_true_eq]
  exact fun e => e.2 (h.2 e.1)
theorem mmaPlaces_beyond (h : (c.aDesc a).Aligned) (hin : ¬c.ATileIn (c.aDesc a)) : mmaPlaces i a b bank w c u = .error (.trap 0x08 (c.aDesc a).tile) :=
  (if_neg (not_not.2 h.1)).trans ((if_neg h.list_ok).trans (if_pos (not_le.1 hin)))
theorem mmaPlaces_rows (h : (c.aDesc a).Aligned) (hin : c.ATileIn (c.aDesc a)) (hr : ¬c.RowsOk b) : mmaPlaces i a b bank w c u = .error (.trap 0x08 0) :=
  (if_neg (not_not.2 h.1)).trans ((if_neg h.list_ok).trans ((if_neg (not_lt.2 hin)).trans (if_pos ((c.rowsOk_iff b).2 hr))))
theorem mmaPlaces_ok (h : (c.aDesc a).Aligned) (hin : c.ATileIn (c.aDesc a)) (hr : c.RowsOk b) :
    mmaPlaces i a b bank w c u = .ok ((u.openMma c a b bank w).start c (c.mmaPend i a b w)) :=
  (if_neg (not_not.2 h.1)).trans ((if_neg h.list_ok).trans ((if_neg (not_lt.2 hin)).trans (if_neg fun e => (c.rowsOk_iff b).1 e hr)))

/-- Opening an MMA changes open MMAs and accumulators only. -/
theorem State.wave?_openMma {w0 : Wave} (h : u.wave? c.tag c.w = some w0) :
    ∃ m acc, (u.openMma c a b bank w).wave? c.tag c.w = some { w0 with mopen := m, acc := acc } := by
  have hspoilt := State.wave?_onWave (·.spoil c.free (overlaps bank (c.rowLanes b))) (fun _ => rfl) h
  have hopen := State.wave?_onWave (fun wv => { wv with mopen := wv.mopen ++
    [(u.onWave c (·.spoil c.free (overlaps bank (c.rowLanes b)))).mmaOpen c a b bank w] }) (fun _ => rfl) hspoilt
  exact ⟨_, _, hopen⟩

/-- The form of a pending MMA is read back from its operands, where the descriptor's fields fit the words that hold them. -/
theorem Ctx.mma_mmaPend {h : Hdr} {nkm : BitVec 4} {ev : Option (BitVec 3)}
    (hfit : w.asid < 2 ^ 64 ∧ w.tile < 2 ^ 64 ∧ w.fmt < 2 ^ 64 ∧ ∀ l, w.list = some l → l < 2 ^ 64) :
    (c.mmaPend (.mma h a b nkm bank ev) a b w).mma = some { ad := c.aDesc a, bd := w, nkm := nkm.toNat, bank := bank } := by
  obtain ⟨hasid, htile, hfmt, hlist⟩ := hfit
  obtain ⟨asid, scr, tile, fmt, list⟩ := w
  have word {n : Nat} (hn : n < 2 ^ 64) : (BitVec.ofNat 64 n).toNat = n := (BitVec.toNat_ofNat n 64).trans (Nat.mod_eq_of_lt hn)
  have flag (x : Bool) : decide ((if x then 1 else 0 : DWord).toNat = 1) = x := by cases x <;> rfl
  have hscr := flag scr
  have hl : (if (if list.isSome then 1 else 0 : DWord).toNat = 1 then some (BitVec.ofNat 64 (list.getD 0)).toNat else none) = list := by
    cases list with
    | none => rfl
    | some l => exact (if_pos rfl).trans (congrArg some (word (hlist l rfl)))
  simp only [Pend.mma, Ctx.mmaPend, Ctx.pend, List.getD_cons_zero, List.getD_cons_succ, word hasid, word htile, word hfmt, hscr, hl]
  rfl
end

theorem mma_issue (h : Hdr) (a b : Opd) (nkm : BitVec 4) (bank : Bool) (ev : Option (BitVec 3)) :
    let i : Instr := .mma h a b nkm bank ev
    TrapsIf i (fun _ c => c.lanes ≠ 0 ∧ ¬c.BankFree bank) 0x03 (fun _ => 0) ∧
    TrapsIf i (fun _ c => c.lanes ≠ 0 ∧ c.BankFree bank ∧ ¬c.DescsOk a) 0x13 (fun _ => 0) ∧
    TrapsIf i (fun _ c => c.lanes ≠ 0 ∧ c.BankFree bank ∧ c.DescsOk a ∧ (c.aDesc a).tile % 8 ≠ 0) 0x06 (fun c => (c.aDesc a).tile) ∧
    TrapsIf i (fun _ c => c.lanes ≠ 0 ∧ c.BankFree bank ∧ c.DescsOk a ∧ (c.aDesc a).tile % 8 = 0 ∧ (c.aDesc a).lv = true ∧ (c.aDesc a).list % 8 ≠ 0) 0x06
      (fun c => (c.aDesc a).list) ∧
    TrapsIf i (fun _ c => c.lanes ≠ 0 ∧ c.BankFree bank ∧ c.DescsOk a ∧ (c.aDesc a).Aligned ∧ ¬c.ATileIn (c.aDesc a)) 0x08 (fun c => (c.aDesc a).tile) ∧
    TrapsIf i (fun _ c => c.lanes ≠ 0 ∧ c.BankFree bank ∧ c.DescsOk a ∧ (c.aDesc a).Aligned ∧ c.ATileIn (c.aDesc a) ∧ ¬c.RowsOk b) 0x08 (fun _ => 0) ∧
    Starts i (fun _ c => c.lanes = 0 ∨ (c.BankFree bank ∧ c.DescsOk a ∧ (c.aDesc a).Aligned ∧ c.ATileIn (c.aDesc a) ∧ c.RowsOk b)) (fun _ c q =>
      q.rids = (slicesOf c.lanes).map c.wv.ridOf ∧ q.y = byLane (fun l => (c.w32 b l).setWidth 64) ∧
      ∀ w, c.wv.bdesc = some w → (w.asid < 2 ^ 64 ∧ w.tile < 2 ^ 64 ∧ w.fmt < 2 ^ 64 ∧ ∀ l, w.list = some l → l < 2 ^ 64) →
        q.mma = some { ad := c.aDesc a, bd := w, nkm := nkm.toNat, bank := bank }) := by
  have he := exec_mma h a b nkm bank ev
  refine ⟨trapsIf_of he fun _ _ _ ⟨hl, hbusy⟩ => mmaEffect_busy hl hbusy,
    trapsIf_of he fun _ _ _ ⟨hl, hfree, hd⟩ => mmaEffect_descs hl hfree hd,
    trapsIf_of he fun _ _ _ ⟨hl, hfree, ⟨_, hw, hd⟩, hbad⟩ => (mmaEffect_places hl hfree hw hd).trans (mmaPlaces_tile hbad),
    trapsIf_of he fun _ _ _ ⟨hl, hfree, ⟨_, hw, hd⟩, htile, hv, hbad⟩ => (mmaEffect_places hl hfree hw hd).trans (mmaPlaces_list htile hv hbad),
    trapsIf_of he fun _ _ _ ⟨hl, hfree, ⟨_, hw, hd⟩, hal, hin⟩ => (mmaEffect_places hl hfree hw hd).trans (mmaPlaces_beyond hal hin),
    trapsIf_of he fun _ _ _ ⟨hl, hfree, ⟨_, hw, hd⟩, hal, hin, hr⟩ => (mmaEffect_places hl hfree hw hd).trans (mmaPlaces_rows hal hin hr),
    starts_wave he (fun _ _ hl => if_pos hl) fun s c u w0 hP hl hu hquiet => ?_⟩
  obtain ⟨hfree, ⟨w, hw, hd⟩, hal, hin, hr⟩ := hP.resolve_left hl
  obtain ⟨m, acc, hopen⟩ := State.wave?_openMma (a := a) (b := b) (bank := bank) (w := w) hu
  refine ⟨_, _, c.mmaPend (.mma h a b nkm bank ev) a b w, (mmaEffect_places hl hfree hw hd).trans (mmaPlaces_ok hal hin hr), hopen,
    hquiet.congr rfl rfl, rfl, rfl, rfl, rfl, rfl, rfl, rfl, fun w' hw' hfit => ?_⟩
  obtain rfl := Option.some.inj (hw.symm.trans hw')
  exact Ctx.mma_mmaPend hfit

/-! ### MRES and MZERO (R281, R294, R297) -/

/-- Result `j` of MRES in a lane: its accumulator, rounded (R294). -/
def Ctx.mresLane (c : Ctx) (g : BitVec 2) (bank : Bool) (j l : Nat) : FR := (c.wv.accAt bank l (4 * g.toNat + j)).res
/-- The word that MRES writes: undefined where an open MMA holds the lane (R281). -/
def Ctx.mresWord (c : Ctx) (g : BitVec 2) (bank : Bool) (j l : Nat) : Word :=
  if (c.wv.mopen.filter (overlaps bank c.lanes)).any (fun e => e.lanes.getLsbD l) then (Config.freeWord c.free (710 + j) l).setWidth 32
  else (c.mresLane g bank j l).word
/-- The flags that MRES raises. -/
def Ctx.mresFlags (c : Ctx) (g : BitVec 2) (bank : Bool) : BitVec 8 :=
  (lanesOf c.lanes).foldl (fun f l => (List.range 4).foldl (fun f j => f ||| (c.mresLane g bank j l).fl) f) 0
/-- The columns of a group. -/
def mresCols (g : BitVec 2) : List Nat := (List.range 4).map (· + 4 * g.toNat)
/-- The wave with the accumulators of an issue's lanes cleared, in some columns of a bank. -/
def Ctx.clears (c : Ctx) (bank : Bool) (ns : List Nat) (wv : Wave) : Wave := (wv.clearAccs bank c.lanes ns).spoil c.free (overlaps bank c.lanes)
/-- MRES as it starts, on an event counter. -/
def Ctx.mresPend (c : Ctx) (i : Instr) (d : Opd) (g : BitVec 2) (bank : Bool) : Pend :=
  { c.pend i c.rids with
    wr := wrN c.lanes d 4 (c.mresWord g bank), flags := c.mresFlags g bank
    lfl := byLane (fun l => (List.range 4).foldl (fun f j => f ||| (c.mresLane g bank j l).fl) 0) }

theorem mem_mresCols (g : BitVec 2) (n : Nat) : n ∈ mresCols g ↔ n < 16 ∧ n / 4 = g.toNat := by
  have hg := g.isLt
  simp only [mresCols, List.mem_map, List.mem_range]
  constructor
  · rintro ⟨j, hj, rfl⟩
    omega
  · rintro ⟨hn, hq⟩
    exact ⟨n % 4, by omega, by omega⟩
theorem Ctx.mresWord_closed {c : Ctx} {bank : Bool} (h : c.BankClosed bank) (g : BitVec 2) : c.mresWord g bank = fun j l => (c.mresLane g bank j l).word := by
  funext j l
  rw [mresWord, h.filter_nil]
  rfl
/-- On a bank closed for the lanes of the issue, clearing accumulators does nothing else to the wave. -/
theorem Ctx.clears_closed {c : Ctx} {bank : Bool} (h : c.BankClosed bank) (i : Instr) (age : Sparse Nat) (ns : List Nat) :
    c.clears bank ns { c.advance i c.wv with age := age } = Wave.clearAccs { c.advance i c.wv with age := age } bank c.lanes ns :=
  Wave.spoil_untouched _ (h.advance i)

theorem mres_traps (h : Hdr) (d : Opd) (g : BitVec 2) (bank : Bool) (ev : Option (BitVec 3)) :
    TrapsIf (.mres h d g bank ev) (fun _ c => c.lanes ≠ 0 ∧ ¬c.BankFree bank) 0x03 (fun _ => 0) := by
  have he (s : State) : exec (.mres h d g bank ev) s = execMres h d g bank ev s := rfl
  unfold execMres at he
  exact trapsIf_of he fun _ c _ ⟨hl, hbusy⟩ => (if_neg hl).trans (if_pos ((c.mBusy_iff bank).2 hbusy))

/-- No open MMA reads a register of `d`. -/
def Ctx.Apart (c : Ctx) (d : Opd) : Prop := ∀ e ∈ c.wv.mopen, e.covered = true ∨ ∀ r ∈ d.regs 4 2, r ∉ e.regs

/-- MRES without an event counter writes its results as it issues. -/
theorem mres_acts (h : Hdr) (n : BitVec 7) (g : BitVec 2) (bank : Bool) :
    ActsIf (.mres h (.v n) g bank none) (fun _ c => c.lanes ≠ 0 ∧ c.BankFree bank ∧ c.BankClosed bank) (fun _ c wv =>
      (∀ m l, l < 32 → wv.vr m l = if n.toNat ≤ m ∧ m < n.toNat + 4 ∧ c.lanes.getLsbD l = true then (c.mresLane g bank (m - n.toNat) l).word else c.wv.vr m l) ∧
      (∀ m, wv.sr m = c.wv.sr m) ∧ (∀ m, wv.lcr m = c.wv.lcr m) ∧ c.wv.KeptPreds wv ∧ wv.fflags = c.wv.fflags ||| (c.mresFlags g bank).setWidth 64 ∧
      (c.Apart (.v n) → c.wv.Cleared wv bank c.lanes (fun n => n / 4 = g.toNat))) := by
  have he (s : State) : exec (.mres h (.v n) g bank none) s = execMres h (.v n) g bank none s := rfl
  unfold execMres at he
  refine actsIf_of he fun s c s' u age hp ⟨hl, hfree, hclosed⟩ hu => ?_
  have hcleared := State.wave?_onWave (c.clears bank (mresCols g)) (fun _ => rfl) hu
  have hresult := result_wave _ c (.mres h (.v n) g bank none) (wrN c.lanes (.v n) 4 (c.mresWord g bank)) (c.mresFlags g bank) _ hcleared
  refine ⟨_, _, (if_neg hl).trans (if_neg hfree.idle), hresult, ?_⟩
  rw [Ctx.clears_closed hclosed, Ctx.mresWord_closed hclosed]
  have hsame := Ctx.advance_same c (.mres h (.v n) g bank none) c.wv age
  have hv := Wave.puts_wrN_v (Wave.clearAccs { c.advance (.mres h (.v n) g bank none) c.wv with age := age } bank c.lanes (mresCols g)) c.lanes n 4
    (fun j l => (c.mresLane g bank j l).word)
  obtain ⟨v, e⟩ := Wave.puts_vectors _ (mem_wrN_v (m := c.lanes) (r := n) (n := 4) (f := fun j l => (c.mresLane g bank j l).word))
    (Wave.clearAccs { c.advance (.mres h (.v n) g bank none) c.wv with age := age } bank c.lanes (mresCols g))
  refine ⟨fun m l hl => (hv m l hl).trans (if_congr Iff.rfl rfl (Wave.vr_congr hsame.v m l)), ?_⟩
  rw [e]
  refine ⟨Wave.sr_congr hsame.s, Wave.lcr_congr hsame.lc, Wave.pr_congr hsame.p, congrArg (· ||| _) hsame.fflags, fun hapart => ?_⟩
  exact Wave.cleared_of (Ctx.advance_acc (i := .mres h (.v n) g bank none) hapart) rfl (mem_mresCols g)

/-- MRES with one starts with its results, and clears the accumulators as it issues. -/
theorem mres_starts (h : Hdr) (d : Opd) (g : BitVec 2) (bank : Bool) (e : BitVec 3) :
    ActsIf (.mres h d g bank (some e)) (fun _ c => c.lanes ≠ 0 ∧ c.BankFree bank ∧ c.BankClosed bank) (fun s c wv => c.wv.KeptRegs wv ∧
      wv.fflags = c.wv.fflags ∧ (∀ n, wv.evr n = if e.toNat = n then c.wv.evr n + 1 else c.wv.evr n) ∧
      (c.Apart d → c.wv.Cleared wv bank c.lanes (fun n => n / 4 = g.toNat)) ∧
      ∃ q, wv.pend.getLast? = some q ∧ q.id = s.nextId ∧ q.lanes = c.lanes ∧ q.wr = wrN c.lanes d 4 (fun j l => (c.mresLane g bank j l).word)) := by
  have he (s : State) : exec (.mres h d g bank (some e)) s = execMres h d g bank (some e) s := rfl
  unfold execMres at he
  refine actsIf_of he fun s c s' u age hp ⟨hl, hfree, hclosed⟩ hu => ?_
  have hcleared := State.wave?_onWave (c.clears bank (mresCols g)) (fun _ => rfl) hu
  refine ⟨_, _, (if_neg hl).trans (if_neg hfree.idle), State.wave?_start (c.mresPend (.mres h d g bank (some e)) d g bank) hl hcleared, ?_⟩
  rw [Ctx.clears_closed hclosed]
  have hs := ((Ctx.advance_same c (.mres h d g bank (some e)) c.wv age).quiet.congr
    (x := Wave.clearAccs { c.advance (.mres h d g bank (some e)) c.wv with age := age } bank c.lanes (mresCols g)) rfl rfl).started
      (c.mresPend (.mres h d g bank (some e)) d g bank)
  refine ⟨hs.regs, hs.fflags, fun n => (hs.ev n).trans (if_congr Option.some_inj rfl rfl), fun hapart => ?_, _, hs.last, (pre_go s _ c s' hp).now.2.2, rfl, ?_⟩
  · exact Wave.cleared_of (Ctx.advance_acc (i := .mres h d g bank (some e)) hapart) rfl (mem_mresCols g)
  · exact congrArg (wrN c.lanes d 4) (Ctx.mresWord_closed hclosed g)

/-- The wave after an MZERO: the bank cleared in the lanes of the issue, which are poisoned no more, and the descriptor with it. -/
def Ctx.mzeroed (c : Ctx) (bank bd : Bool) (wv : Wave) : Wave :=
  let w := c.clears bank (List.range 16) wv
  let w := { w with accBad := w.accBad.filter (fun k => !(decide (512 ≤ k) == bank && c.lanes.getLsbD (k % 512 / 16))) }
  if bd then w.putBDesc c.ownRid none else w

theorem mzero_issue (h : Hdr) (bank bd : Bool) :
    TrapsIf (.mzero h bank bd) (fun _ c => c.lanes ≠ 0 ∧ ¬c.BankFree bank) 0x03 (fun _ => 0) ∧
    ActsIf (.mzero h bank bd) (fun _ c => c.lanes ≠ 0 ∧ c.BankFree bank ∧ c.BankClosed bank) (fun _ c wv => c.wv.Quiet wv ∧
      c.wv.Cleared wv bank c.lanes (fun _ => True) ∧ wv.bdesc = if bd then none else c.wv.bdesc) := by
  have he (s : State) : exec (.mzero h bank bd) s = execMzero h bank bd s := rfl
  unfold execMzero at he
  refine ⟨trapsIf_of he fun _ c _ ⟨hl, hbusy⟩ => (if_neg hl).trans (if_pos ((c.mBusy_iff bank).2 hbusy)),
    onWave_of _ (fun c => c.mzeroed bank bd) he (fun _ _ ⟨hl, hfree, _⟩ _ => (if_neg hl).trans (if_neg hfree.idle)) (fun _ _ => ?_)
      fun s c s' age hp ⟨_, _, hclosed⟩ => ?_⟩
  · cases bd <;> rfl
  · have hsame := Ctx.advance_same c (.mzero h bank bd) c.wv age
    have hacc : (c.advance (.mzero h bank bd) c.wv).acc = c.wv.acc := Ctx.advance_acc fun _ _ => .inr fun _ hr => absurd hr List.not_mem_nil
    have hns (n : Nat) : n ∈ List.range 16 ↔ n < 16 ∧ True := by rw [List.mem_range, and_true]
    rw [Ctx.mzeroed, Ctx.clears_closed hclosed]
    cases bd with
    | true => exact ⟨hsame.quiet.congr rfl rfl, Wave.cleared_of hacc rfl hns, rfl⟩
    | false => exact ⟨hsame.quiet.congr rfl rfl, Wave.cleared_of hacc rfl hns, hsame.bdesc⟩

/-! ### MFENCE and MWAIT (R295, R296) -/

/-- What an event about runs sees of them is the same before and after the bookkeeping of an issue. -/
theorem Wave.Same.exists_run {a b : Wave} (h : a.Same b) (P : Nat → Nat → Option Ended → Prop) :
    (∃ y ∈ b.regions, P y.rid y.sl y.ended) ↔ ∃ y ∈ a.regions, P y.rid y.sl y.ended := by
  have view (l : List Region) : (∃ y ∈ l, P y.rid y.sl y.ended) ↔
      ∃ z ∈ l.map (fun r => (r.rid, r.sl, r.start, r.stores, r.ended)), P z.1 z.2.1 z.2.2.2.2 := by
    simp only [List.mem_map, exists_exists_and_eq_and]
  rw [view, view, h.stores]

theorem mfence_acts (h : Hdr) (sc : Scope) :
    Acts (.mfence h sc) (fun _ c wv => c.wv.Quiet wv ∧ wv.mfence = some sc ∧ wv.mfAcq = some sc ∧
      ∀ r, r ∈ wv.waitRids ↔ ∃ y ∈ c.wv.regions, y.rid = r ∧ y.ended.isSome ∧ y.entry < c.wv.ridOf c.fenceSlice - c.fenceSlice) := by
  have he (s : State) : exec (.mfence h sc) s = execMfence h sc s := rfl
  unfold execMfence at he
  have hacts := onWave_of (P := fun _ _ => True) _ (fun c wv => { wv with
      mfence := some sc, mfAcq := some sc
      waitRids := (wv.regions.filter (fun r => r.ended.isSome && r.entry < c.wv.ridOf c.fenceSlice - c.fenceSlice)).map (·.rid) })
    he (fun _ _ _ _ => rfl) (fun _ _ => rfl) (R := fun _ c wv => c.wv.Quiet wv ∧ wv.mfence = some sc ∧ wv.mfAcq = some sc ∧
      ∀ r, r ∈ wv.waitRids ↔ ∃ y ∈ c.wv.regions, y.rid = r ∧ y.ended.isSome ∧ y.entry < c.wv.ridOf c.fenceSlice - c.fenceSlice)
    fun s c s' age hp _ => ?_
  · exact fun s c s' hp => hacts s c s' hp trivial
  · have hsame := Ctx.advance_same c (.mfence h sc) c.wv age
    refine ⟨hsame.quiet.congr rfl rfl, rfl, rfl, fun r => ?_⟩
    have hrun := hsame.exists_run (fun rid sl ended => rid = r ∧ ended.isSome = true ∧ rid - sl < c.wv.ridOf c.fenceSlice - c.fenceSlice)
    simp only [List.mem_map, List.mem_filter, Bool.and_eq_true, decide_eq_true_eq]
    refine Iff.trans ⟨?_, ?_⟩ hrun
    · rintro ⟨y, ⟨hy, hended, hentry⟩, hrid⟩
      exact ⟨y, hy, hrid, hended, hentry⟩
    · rintro ⟨y, hy, hrid, hended, hentry⟩
      exact ⟨y, ⟨hy, hended, hentry⟩, hrid⟩

theorem mwait_acts (h : Hdr) :
    Acts (.mwait h) (fun _ c wv => c.wv.Quiet wv ∧ (∀ e ∈ wv.mopen, e.covered = true) ∧
      wv.waitIds = (c.wv.pend.filter (fun q => isMatrixOp q.instr)).map (·.id)) := by
  have he (s : State) : exec (.mwait h) s = execMwait h s := rfl
  unfold execMwait at he
  have hacts := onWave_of (P := fun _ _ => True) _ (fun _ wv => { wv with
      waitIds := (wv.pend.filter (fun q => isMatrixOp q.instr)).map (·.id), mopen := wv.mopen.map (fun e => { e with covered := true }) })
    he (fun _ _ _ _ => rfl) (fun _ _ => rfl) (R := fun _ c wv => c.wv.Quiet wv ∧ (∀ e ∈ wv.mopen, e.covered = true) ∧
      wv.waitIds = (c.wv.pend.filter (fun q => isMatrixOp q.instr)).map (·.id)) fun s c s' age hp _ => ?_
  · exact fun s c s' hp => hacts s c s' hp trivial
  · have hsame := Ctx.advance_same c (.mwait h) c.wv age
    refine ⟨hsame.quiet.congr rfl rfl, fun e he => ?_, congrArg (fun l : List Pend => (l.filter (fun q => isMatrixOp q.instr)).map (·.id)) hsame.pend⟩
    obtain ⟨e0, -, rfl⟩ := List.mem_map.1 he
    rfl

/-! ### HAD (R298) -/

section
variable (a b g : Opd) (p : HadP) (ty : HadTy)

/-- The areas of HAD are aligned. -/
def Ctx.HadAligned (c : Ctx) : Prop := (c.sc a).toNat % hadE ty = 0 ∧ (c.sc b).toNat % 4 = 0
/-- The sources lie in the kernel's scratch. -/
def Ctx.HadReads (c : Ctx) : Prop := (c.sc a).toNat + (c.sc g).toNat * hadN p * hadE ty ≤ c.gg.kobj.scrLen
/-- The results do. -/
def Ctx.HadWrites (c : Ctx) : Prop := (c.sc b).toNat + (c.sc g).toNat * hadN p * 4 ≤ c.gg.kobj.scrLen

theorem had_issue (h : Hdr) (ev : Option (BitVec 3)) :
    let i : Instr := .had h a b g p ty ev
    TrapsIf i (fun _ c => c.lanes ≠ 0 ∧ (c.sc a).toNat % hadE ty ≠ 0) 0x06 (fun c => (c.sc a).toNat) ∧
    TrapsIf i (fun _ c => c.lanes ≠ 0 ∧ (c.sc a).toNat % hadE ty = 0 ∧ (c.sc b).toNat % 4 ≠ 0) 0x06 (fun c => (c.sc b).toNat) ∧
    TrapsIf i (fun _ c => c.lanes ≠ 0 ∧ c.HadAligned a b ty ∧ (c.sc g).toNat ≠ 0 ∧ ¬c.HadReads a g p ty) 0x08 (fun c => (c.sc a).toNat) ∧
    TrapsIf i (fun _ c => c.lanes ≠ 0 ∧ c.HadAligned a b ty ∧ (c.sc g).toNat ≠ 0 ∧ c.HadReads a g p ty ∧ ¬c.HadWrites b g p) 0x08 (fun c => (c.sc b).toNat) ∧
    ActsIf i (fun _ c => c.lanes ≠ 0 ∧ c.HadAligned a b ty ∧ (c.sc g).toNat = 0) (fun _ c wv => c.wv.Quiet wv) ∧
    Starts i (fun _ c => c.lanes = 0 ∨ (c.HadAligned a b ty ∧ (c.sc g).toNat ≠ 0 ∧ c.HadReads a g p ty ∧ c.HadWrites b g p))
      (fun _ c q => q.x = [c.sc a, c.sc b, c.sc g]) := by
  intro i
  have he (s : State) : exec i s = execHad h a b g p ty ev s := rfl
  unfold execHad at he
  refine ⟨trapsIf_of he fun _ _ _ ⟨hl, hbad⟩ => (if_neg hl).trans (if_pos hbad),
    trapsIf_of he fun _ _ _ ⟨hl, hal, hbad⟩ => (if_neg hl).trans ((if_neg (not_not.2 hal)).trans (if_pos hbad)),
    trapsIf_of he fun _ _ _ ⟨hl, ⟨ha, hb⟩, hv, hin⟩ => (if_neg hl).trans ((if_neg (not_not.2 ha)).trans ((if_neg (not_not.2 hb)).trans
      (if_pos ⟨hv, not_le.1 hin⟩))),
    trapsIf_of he fun _ _ _ ⟨hl, ⟨ha, hb⟩, hv, hin, hout⟩ => (if_neg hl).trans ((if_neg (not_not.2 ha)).trans ((if_neg (not_not.2 hb)).trans
      ((if_neg fun e => not_lt.2 hin e.2).trans (if_pos ⟨hv, not_le.1 hout⟩)))),
    actsIf_of he fun _ c _ u age _ ⟨hl, ⟨ha, hb⟩, hv⟩ hu => ⟨u, _, (if_neg hl).trans ((if_neg (not_not.2 ha)).trans ((if_neg (not_not.2 hb)).trans
      ((if_neg fun e => e.1 hv).trans ((if_neg fun e => e.1 hv).trans (if_pos hv))))), hu, (Ctx.advance_same c i c.wv age).quiet⟩,
    starts_once (fun c => [c.sc a, c.sc b, c.sc g]) (fun _ => []) he (fun _ _ hl => if_pos hl) (fun _ c u hP hl => ?_) (fun _ _ => rfl)⟩
  obtain ⟨⟨ha, hb⟩, hv, hin, hout⟩ := hP.resolve_left hl
  exact (if_neg hl).trans ((if_neg (not_not.2 ha)).trans ((if_neg (not_not.2 hb)).trans ((if_neg fun e => not_lt.2 hin e.2).trans
    ((if_neg fun e => not_lt.2 hout e.2).trans (if_neg hv)))))
end

/-! ### TWALK and TNEXT (R300, R302) -/

/-- A bound of the walk that TWALK names. -/
def Ctx.walkBound (c : Ctx) (a : Opd) (j : Nat) : Nat := bits (c.sc a).toNat (16 * j) 16
/-- The bounds are malformed: one of a named dimension is 0, one beyond is not, or reserved bits are set. -/
def Ctx.WalkBad (c : Ctx) (a : Opd) (n : WDim) : Prop := (∃ j, j < 3 ∧ (j < walkN n ↔ c.walkBound a j = 0)) ∨ bits (c.sc a).toNat 48 16 ≠ 0
/-- The walk that TWALK sets. -/
def Ctx.walkOf (c : Ctx) (a b : Opd) : Walk :=
  { t0 := c.walkBound a 0, t1 := max (c.walkBound a 1) 1, t2 := max (c.walkBound a 2) 1, mask := c.listAt b, gone := [] }

theorem Ctx.walkBad_iff (c : Ctx) (a : Opd) (n : WDim) :
    ((List.range 3).any (fun j => if j < walkN n then c.walkBound a j = 0 else c.walkBound a j ≠ 0) || bits (c.sc a).toNat 48 16 ≠ 0) = true ↔ c.WalkBad a n := by
  have hbound (j : Nat) : (if j < walkN n then decide (c.walkBound a j = 0) else decide (c.walkBound a j ≠ 0)) = true ↔ (j < walkN n ↔ c.walkBound a j = 0) := by
    by_cases hj : j < walkN n
    · rw [if_pos hj, iff_true_left hj, decide_eq_true_eq]
    · rw [if_neg hj, iff_false_left hj, decide_eq_true_eq]
  simp only [WalkBad, Bool.or_eq_true, List.any_eq_true, List.mem_range, decide_eq_true_eq, hbound]

theorem twalk_issue (h : Hdr) (d a b : Opd) (n : WDim) (ev : Option (BitVec 3)) :
    let i : Instr := .twalk h d a b n ev
    TrapsIf i (fun _ c => c.lanes ≠ 0 ∧ ¬c.WalkBad a n ∧ ∃ l, c.listAt b = some l ∧ l % 8 ≠ 0) 0x06 (fun c => (c.listAt b).getD 0) ∧
    Answers i (fun _ c => c.lanes ≠ 0 ∧ c.WalkBad a n) d (fun _ _ _ => 3) (fun _ c _ wv => wv.walk = c.wv.walk) ∧
    Answers i (fun _ c => c.lanes ≠ 0 ∧ ¬c.WalkBad a n ∧ ∀ l, c.listAt b = some l → l % 8 = 0) d (fun _ _ _ => 0)
      (fun _ c _ wv => wv.walk = some (c.walkOf a b)) := by
  intro i
  have he (s : State) : exec i s = execTwalk h d a b n ev s := rfl
  unfold execTwalk at he
  refine ⟨trapsIf_of he fun _ c _ ⟨hl, hok, hbad⟩ => (if_neg hl).trans ((if_neg fun e => hok ((c.walkBad_iff a n).1 e)).trans (if_pos ((c.listBad_iff b).2 hbad))),
    answers_wave he fun _ c u w0 ⟨hl, hbad⟩ hu hsame => ⟨u, w0, (if_neg hl).trans (if_pos ((c.walkBad_iff a n).2 hbad)), hu, hsame.quiet, fun wv hwalks => ?_⟩,
    answers_wave he fun _ c u w0 ⟨hl, hok, hgood⟩ hu hsame => ⟨_, _, (if_neg hl).trans ((if_neg fun e => hok ((c.walkBad_iff a n).1 e)).trans (if_neg fun e => ?_)),
      State.wave?_onWave (·.putWalk c.ownRid (c.walkOf a b)) (fun _ => rfl) hu, hsame.quiet.congr rfl rfl, fun wv hwalks => ?_⟩⟩
  · exact (congrArg jTop hwalks).trans hsame.walk
  · obtain ⟨l, hsome, hbad⟩ := (c.listBad_iff b).1 e
    exact hbad (hgood l hsome)
  · exact (congrArg jTop hwalks).trans (Wave.walk_putWalk ..)

theorem tnext_starts (h : Hdr) (d : Opd) (ev : Option (BitVec 3)) : Starts (.tnext h d ev) (fun _ _ => True) (fun _ _ _ => True) := by
  have he (s : State) : exec (.tnext h d ev) s = execTnext h d ev s := rfl
  unfold execTnext at he
  exact starts_once (fun _ => []) (fun _ => []) he (fun c u hl => congrArg _ (State.start_idle u c _ hl)) (fun _ _ _ _ _ => rfl) (fun _ _ => trivial)

end Sys2Proof.Machine

/-- Settles O51: each instruction is one `issue`, whose checks decide between its traps and its start; what it does to the accumulators is read back by
their keys. -/
theorem matrixIssue : Obligations.MatrixIssue := by
  intro h d a b g f scr bank bd nkm ev cg sc p ty wd x lst
  obtain ⟨hmma3, hmma13, hmma6, hmma6l, hmma8, hmma8r, hmmaStarts⟩ := mma_issue h a b nkm bank ev
  obtain ⟨hzeroTrap, hzero⟩ := mzero_issue h bank bd
  refine ⟨mloadb_issue h a b f scr ev, ⟨hmma3, hmma13, hmma6, hmma6l, hmma8, hmma8r, hmmaStarts, mres_traps h d cg bank ev, hzeroTrap, ⟨?mresNow, ?mresLater⟩, hzero⟩,
    mfence_acts h sc, mwait_acts h, had_issue a b g p ty h ev, twalk_issue h d a b wd ev, tnext_starts h d ev⟩
  case mresNow =>
    rintro n rfl
    exact mres_acts h n cg bank
  case mresLater => exact fun e => mres_starts h d cg bank e

end

section
/-! PROOFS. Words and instructions: the round trip of every instruction, and back from the fields of a word (03_code.md, Tables 3.2 to 3.7). -/
open Sys2Proof Sys2Proof.Machine

namespace Sys2Proof

/-- The word that fields are those of. -/
def Fields.word (f : Fields) : BitVec 64 := packA f.op f.h f.d f.a f.b f.c f.fn

/-- Two neighbouring fields of a word are one field. -/
theorem extractLsb'_append_extractLsb' (w : BitVec n) (lo a b : Nat) :
    w.extractLsb' (lo + b) a ++ w.extractLsb' lo b = w.extractLsb' lo (a + b) := by
  apply BitVec.eq_of_getLsbD_eq
  intro i hi
  simp only [BitVec.getLsbD_append, BitVec.getLsbD_extractLsb', hi, decide_true, Bool.true_and]
  split
  · simp [*]
  · rw [decide_eq_true (by omega), Bool.true_and]
    congr 1
    omega

theorem ofBool_beq_one (x : BitVec 1) : BitVec.ofBool (x == 1#1) = x := by revert x; decide

/-- Splitting a word into fields loses nothing of it. -/
theorem Fields.word_ofWord (w : BitVec 64) : (Fields.ofWord w).word = w := by
  have h4 := extractLsb'_append_extractLsb' w 52 8 4
  have h1 := extractLsb'_append_extractLsb' w 51 12 1
  have h7 := extractLsb'_append_extractLsb' w 44 13 7
  have hd := extractLsb'_append_extractLsb' w 36 20 8
  have ha := extractLsb'_append_extractLsb' w 28 28 8
  have hb := extractLsb'_append_extractLsb' w 20 36 8
  have hc := extractLsb'_append_extractLsb' w 12 44 8
  have hfn := extractLsb'_append_extractLsb' w 0 52 12
  simp only [Nat.reduceAdd] at h4 h1 h7 hd ha hb hc hfn
  simp only [Fields.word, Fields.ofWord, packA, ofBool_beq_one, h4, h1, h7, hd, ha, hb, hc, hfn]
  exact BitVec.extractLsb'_eq_self

/-! The code of an operand or modifier and the value of the code are inverse to each other (Table 3.5 and the tables of the entries). -/

theorem Opd.ofCode_eq_some {c : BitVec 8} {o : Opd} : Opd.ofCode c = some o ↔ o.code = c := by
  refine ⟨?_, fun h => h ▸ o.ofCode_code⟩
  have all : ∀ c : BitVec 8, ∀ o ∈ Opd.ofCode c, o.code = c := by decide
  exact all c o

theorem SatMode.ofBits_eq_some {x : BitVec 2} {m : SatMode} : SatMode.ofBits x = some m ↔ m.toBits = x := by cases m <;> revert x <;> decide
theorem Cmp.ofBits_eq_some {x : BitVec 3} {m : Cmp} : Cmp.ofBits x = some m ↔ m.toBits = x := by cases m <;> revert x <;> decide
theorem FCond.ofBits_eq_some {x : BitVec 3} {m : FCond} : FCond.ofBits x = some m ↔ m.toBits = x := by cases m <;> revert x <;> decide
theorem Rm.ofBits_eq_some {x : BitVec 3} {m : Rm} : Rm.ofBits x = some m ↔ m.toBits = x := by cases m <;> revert x <;> decide
theorem WideB.ofBits_eq_some {x : BitVec 2} {m : WideB} : WideB.ofBits x = some m ↔ m.toBits = x := by cases m <;> revert x <;> decide
theorem ITy.ofBits_eq_some {x : BitVec 2} {m : ITy} : ITy.ofBits x = some m ↔ m.toBits = x := by cases m <;> revert x <;> decide
theorem LxMode.ofBits_eq_some {x : BitVec 3} {m : LxMode} : LxMode.ofBits x = some m ↔ m.toBits = x := by cases m <;> revert x <;> decide
theorem LxGroup.ofBits_eq_some {x : BitVec 3} {m : LxGroup} : LxGroup.ofBits x = some m ↔ m.toBits = x := by cases m <;> revert x <;> decide
theorem AgreeK.ofBits_eq_some {x : BitVec 2} {m : AgreeK} : AgreeK.ofBits x = Option.some m ↔ m.toBits = x := by cases m <;> revert x <;> decide
theorem WOp.ofBits_eq_some {x : BitVec 3} {m : WOp} : WOp.ofBits x = some m ↔ m.toBits = x := by cases m <;> revert x <;> decide
theorem WTy.ofBits_eq_some {x : BitVec 2} {m : WTy} : WTy.ofBits x = some m ↔ m.toBits = x := by cases m <;> revert x <;> decide
theorem MTy.ofBits_eq_some {x : BitVec 3} {m : MTy} : MTy.ofBits x = some m ↔ m.toBits = x := by cases m <;> revert x <;> decide
theorem Pol.ofBits_eq_some {x : BitVec 2} {m : Pol} : Pol.ofBits x = some m ↔ m.toBits = x := by cases m <;> revert x <;> decide
theorem Scope.ofBits_eq_some {x : BitVec 3} {m : Scope} : Scope.ofBits x = some m ↔ m.toBits = x := by cases m <;> revert x <;> decide
theorem Ord.ofBits_eq_some {x : BitVec 2} {m : Ord} : Ord.ofBits x = some m ↔ m.toBits = x := by cases m <;> revert x <;> decide
theorem AtomOp.ofBits_eq_some {x : BitVec 5} {m : AtomOp} : AtomOp.ofBits x = some m ↔ m.toBits = x := by cases m <;> revert x <;> decide
theorem QMode.ofBits_eq_some {x : BitVec 2} {m : QMode} : QMode.ofBits x = some m ↔ m.toBits = x := by cases m <;> revert x <;> decide
theorem HadP.ofBits_eq_some {x : BitVec 2} {m : HadP} : HadP.ofBits x = some m ↔ m.toBits = x := by cases m <;> revert x <;> decide
theorem HadTy.ofBits_eq_some {x : BitVec 2} {m : HadTy} : HadTy.ofBits x = some m ↔ m.toBits = x := by cases m <;> revert x <;> decide
theorem WDim.ofBits_eq_some {x : BitVec 2} {m : WDim} : WDim.ofBits x = some m ↔ m.toBits = x := by cases m <;> revert x <;> decide
theorem prOf_eq_some {c : BitVec 8} {p : Pr} : prOf c = some p ↔ prCode p = c := by
  refine ⟨?_, fun h => h ▸ prOf_prCode p⟩
  unfold prOf
  split
  · next h0 =>
    rintro ⟨rfl⟩
    exact (congrArg (· ++ c.extractLsb' 0 7) h0.symm).trans ((extractLsb'_append_extractLsb' c 0 1 7).trans BitVec.extractLsb'_eq_self)
  · nofun
theorem evOfBits_eq_some {x : BitVec 5} {e : Option (BitVec 3)} : evOfBits x = some e ↔ evToBits e = x := by
  refine ⟨?_, fun h => h ▸ evOfBits_evToBits e⟩
  have all : ∀ x : BitVec 5, ∀ e ∈ evOfBits x, evToBits e = x := by decide
  exact all x e
theorem prOpt_eq_some {on : Bool} {c : BitVec 8} {p : Option Pr} : prOpt on c = some p ↔ p.isSome = on ∧ prOptCode p = c := by
  cases on <;> cases p <;> simp [prOpt, prOptCode, prOf_eq_some, eq_comm (a := c)]

/-- A field put back in its place is the word under the field's mask. -/
theorem fld_shiftLeft (x : BitVec n) (w lo : Nat) : (fld w x lo).setWidth n <<< lo = x &&& ((BitVec.allOnes w).setWidth n <<< lo) := by
  apply BitVec.eq_of_getLsbD_eq
  intro i hi
  simp only [fld, BitVec.getLsbD_shiftLeft, BitVec.getLsbD_setWidth, BitVec.getLsbD_extractLsb', BitVec.getLsbD_and, BitVec.getLsbD_allOnes]
  by_cases h : i < lo
  · simp [h]
  · simp only [h, hi, decide_true, decide_false, Bool.not_false, Bool.true_and, (by omega : i - lo < n), (by omega : lo + (i - lo) = i)]
    rw [Bool.and_comm]

/-- The bits of FN4 and of the immediate are read in field A as well. -/
theorem Fields.a_of_fn4_imm (y : Fields) : (y.fn4 ++ y.imm).extractLsb' 28 8 = y.a := by
  apply BitVec.eq_of_getLsbD_eq
  intro i hi
  simp only [Fields.fn4, Fields.imm, BitVec.getLsbD_append, BitVec.getLsbD_extractLsb', hi, decide_true, Bool.true_and]
  by_cases h : i < 4
  · rw [if_pos (by omega), if_neg (by omega), if_neg (by omega), if_neg (by omega), decide_eq_true (by omega), Bool.true_and]
    congr 1
    omega
  · rw [if_neg (by omega), decide_eq_true (by omega), Bool.true_and]
    congr 1
    omega
/-- The formats I and J put the fields of format A together. -/
theorem Fields.packI_eq_word (y : Fields) : packI y.op y.h y.d y.fn4 y.imm = y.word := by
  have hb : y.imm.extractLsb' 20 8 = y.b := by
    simp (disch := decide) only [Fields.imm, extract_high, extract_low, BitVec.extractLsb'_eq_self, Nat.reduceSub]
  have hc : y.imm.extractLsb' 12 8 = y.c := by
    simp (disch := decide) only [Fields.imm, extract_high, extract_low, BitVec.extractLsb'_eq_self, Nat.reduceSub]
  have hfn : y.imm.extractLsb' 0 12 = y.fn := by
    simp (disch := decide) only [Fields.imm, extract_low, BitVec.extractLsb'_eq_self]
  rw [← word_ofWord (packI ..), ofWord_packI, a_of_fn4_imm, hb, hc, hfn]

theorem Fields.ofWord_word (y : Fields) : Fields.ofWord y.word = y := Fields.ofWord_packA ..
/-- A word of format A is the word of the fields it is put together from, and of no others. -/
theorem packA_eq_word (y : Fields) (op : BitVec 8) (h : Hdr) (d a b c : BitVec 8) (fn : BitVec 12) :
    packA op h d a b c fn = y.word ↔ op = y.op ∧ h = y.h ∧ d = y.d ∧ a = y.a ∧ b = y.b ∧ c = y.c ∧ fn = y.fn := by
  constructor
  · intro e
    have e := (Fields.ofWord_packA ..).symm.trans ((congrArg Fields.ofWord e).trans y.ofWord_word)
    exact e ▸ ⟨rfl, rfl, rfl, rfl, rfl, rfl, rfl⟩
  · rintro ⟨rfl, rfl, rfl, rfl, rfl, rfl, rfl⟩
    rfl
/-- The same for formats I and J. -/
theorem packI_eq_word (y : Fields) (op : BitVec 8) (h : Hdr) (d : BitVec 8) (f4 : BitVec 4) (imm : BitVec 32) :
    packI op h d f4 imm = y.word ↔ op = y.op ∧ h = y.h ∧ d = y.d ∧ f4 = y.fn4 ∧ imm = y.imm := by
  constructor
  · intro e
    have e := (Fields.ofWord_packI ..).symm.trans ((congrArg Fields.ofWord e).trans y.ofWord_word)
    exact e ▸ ⟨rfl, rfl, rfl, (Fields.fn4_packI ..).symm, (Fields.imm_packI ..).symm⟩
  · rintro ⟨rfl, rfl, rfl, rfl, rfl⟩
    exact y.packI_eq_word
/-- A word is what it holds under a mask exactly when it holds nothing under the rest. -/
theorem and_eq_self_iff (x r : BitVec n) : x &&& r = x ↔ x &&& ~~~r = 0#n := by
  constructor
  · intro h
    rw [← h, BitVec.and_assoc, BitVec.and_not_self]
    exact BitVec.and_zero
  · intro h
    calc x &&& r = x &&& r ||| x &&& ~~~r := by rw [h, BitVec.or_zero]
      _ = x := by rw [← BitVec.and_or_distrib_left, BitVec.or_not_self, BitVec.and_allOnes]
/-- The same where the rest of the mask holds `v`. -/
theorem and_or_eq_self_iff {r v : BitVec n} (hv : v &&& r = 0#n) (x : BitVec n) : x &&& r ||| v = x ↔ x &&& ~~~r = v := by
  have hv : v &&& ~~~r = v := (and_eq_self_iff v _).2 (by rw [BitVec.not_not, hv])
  constructor
  · intro h
    rw [← h, BitVec.and_or_distrib_right, BitVec.and_assoc, BitVec.and_not_self, hv]
    simp
  · intro h
    rw [← h, ← BitVec.and_or_distrib_left, BitVec.or_not_self, BitVec.and_allOnes]
/-- A register number of 12 bits fills a field of 32 whose upper bits are 0. -/
theorem setWidth_fld_of_high {x : BitVec 32} (h : fld 20 x 12 = 0#20) : (fld 12 x 0).setWidth 32 = x := by
  have hlow := fld_shiftLeft x 12 0
  have hhigh := fld_shiftLeft x 20 12
  rw [h] at hhigh
  rw [BitVec.shiftLeft_zero] at hlow
  rw [hlow, and_eq_self_iff]
  exact hhigh.symm
theorem and_mask12 (x : BitVec 12) : x &&& 0xFFF#12 = x := BitVec.and_allOnes

/-- An instruction read off fields, where there is one, has the word `w`. -/
def Assembles (r : Option Instr) (w : BitVec 64) : Prop := ∀ i, r = some i → encode i = some w

theorem assembles_none (w : BitVec 64) : Assembles none w := fun _ h => nomatch h
theorem assembles_pure (i : Instr) (w : BitVec 64) : Assembles (pure i) w ↔ encode i = some w :=
  ⟨fun h => h i rfl, fun h _ e => Option.some.inj e ▸ h⟩
theorem assembles_bind {α : Type} (r : Option α) (k : α → Option Instr) (w : BitVec 64) :
    Assembles (r >>= k) w ↔ ∀ x, r = some x → Assembles (k x) w := by
  cases r with
  | none => exact ⟨fun _ _ h => (nomatch h), fun _ _ h => nomatch h⟩
  | some x => exact ⟨fun h _ e => Option.some.inj e ▸ h, fun h => h x rfl⟩
theorem assembles_orElse {r r' : Option Instr} {w : BitVec 64} (h : Assembles r w) (h' : Assembles r' w) : Assembles (r <|> r') w := by
  cases r with
  | none => exact h'
  | some x => exact h

/-- What the fields of a word are decoded to has that word, opcode by opcode: each operand and modifier has the code it was read from, the fields
that the form leaves unused hold what the guard asks for, and the bits of FN that the modifiers leave over are those the guard asks to be 0. -/
theorem rawDecode_assembles (y : Fields) : Assembles (rawDecode y) y.word := by
  have hop : BitVec.ofNat 8 y.op.toNat = y.op := (BitVec.ofNat_toNat 8 y.op).trans (BitVec.setWidth_eq y.op)
  unfold rawDecode rawDecode0 rawDecode1 rawDecode2 rawDecode3 rawDecode4 rawDecode5 rawDecode6 rawDecode7 rawDecode8 rawDecodeA rawDecodeB
    rawDecodeC rawDecodeD rawDecodeE
  split
  case h_15 => exact assembles_none _
  all_goals
    split
    all_goals
      repeat' apply assembles_orElse
      all_goals
        simp only [assembles_none, Option.guard_eq_some', assembles_bind, assembles_pure, Bool.and_eq_true, beq_iff_eq, and_mask12, Opd.ofCode_eq_some,
          prOf_eq_some, prOpt_eq_some, evOfBits_eq_some, SatMode.ofBits_eq_some, Cmp.ofBits_eq_some, FCond.ofBits_eq_some, Rm.ofBits_eq_some,
          WideB.ofBits_eq_some, ITy.ofBits_eq_some, LxMode.ofBits_eq_some, LxGroup.ofBits_eq_some, AgreeK.ofBits_eq_some, WOp.ofBits_eq_some,
          WTy.ofBits_eq_some, MTy.ofBits_eq_some, Pol.ofBits_eq_some, Scope.ofBits_eq_some, Ord.ofBits_eq_some, AtomOp.ofBits_eq_some,
          QMode.ofBits_eq_some, HadP.ofBits_eq_some, HadTy.ofBits_eq_some, WDim.ofBits_eq_some]
  all_goals
    intros
    simp_all only [encode, packA_eq_word, packI_eq_word, ofBool_beq_one, fld_shiftLeft, setWidth_fld_of_high, ← BitVec.and_or_distrib_left,
      and_eq_self_iff, and_or_eq_self_iff, BitVec.reduceAllOnes, BitVec.reduceSetWidth, BitVec.reduceHShiftLeft, BitVec.reduceOr,
      BitVec.reduceAnd, BitVec.reduceNot, BitVec.and_zero, Option.some.injEq, and_true]

/-- An instruction has a word exactly when it is no event. -/
@[simp] theorem isSome_encode (i : Instr) : (encode i).isSome = !isEvent i := by cases i <;> rfl

/-- What the decoder accepts: the fields are those of an instruction that keeps the operand rules. -/
theorem decode_ok {w : BitVec 64} {i : Instr} (h : decode w = .ok i) : rawDecode (Fields.ofWord w) = some i ∧ i.wf = true := by
  simp only [decode] at h
  split at h
  · cases h
  · split at h
    · cases h
    · split at h <;> cases h
      exact ⟨by assumption, by assumption⟩
/-- The decoder refuses an opcode exactly where Table 3.6 assigns none. -/
theorem decode_reservedOp_iff (w : BitVec 64) : decode w = .error .reservedOp ↔ opEng (Fields.ofWord w).op = none := by
  simp only [decode]
  split
  · simp [*]
  · split
    · simp [*]
    · split <;> simp [*]
/-- The opcodes of Table 3.6 that stand for nothing. -/
theorem opEng_eq_none_iff (op : BitVec 8) : opEng op = none ↔
    (let o := op.toNat
     ¬(o ≤ 0x0A ∨ (0x10 ≤ o ∧ o ≤ 0x2B) ∨ (0x30 ≤ o ∧ o ≤ 0x40) ∨ (0x50 ≤ o ∧ o ≤ 0x5D) ∨ (0x60 ≤ o ∧ o ≤ 0x68) ∨ (0x70 ≤ o ∧ o ≤ 0x77) ∨
       (0x80 ≤ o ∧ o ≤ 0x8E) ∨ (0xA0 ≤ o ∧ o ≤ 0xAB) ∨ (0xB0 ≤ o ∧ o ≤ 0xB8) ∨ (0xC0 ≤ o ∧ o ≤ 0xC8) ∨ (0xD0 ≤ o ∧ o ≤ 0xD4) ∨ (0xE0 ≤ o ∧ o ≤ 0xE5))) := by
  simp only [opEng, ite_eq_iff, reduceCtorEq, and_false, false_or, and_true, not_or]

open Laws in
/-- The round trip of every instruction. -/
theorem decode_encode (i : Instr) : RoundTrip.Statement i := by
  cases i
  exacts [RoundTrip.nop _, RoundTrip.bra _ _, RoundTrip.brx _ _, RoundTrip.call _ _ _, RoundTrip.ret _ _, RoundTrip.join _, RoundTrip.loop _ _ _,
    RoundTrip.lexit _ _, RoundTrip.exit _, RoundTrip.yield _, RoundTrip.wait _ _ _, RoundTrip.iadd _ _ _ _ _, RoundTrip.isub _ _ _ _ _,
    RoundTrip.imul _ _ _ _, RoundTrip.imulh _ _ _ _ _, RoundTrip.imad _ _ _ _ _, RoundTrip.imin _ _ _ _ _, RoundTrip.imax _ _ _ _ _,
    RoundTrip.iabs _ _ _ _, RoundTrip.icmp _ _ _ _ _ _, RoundTrip.and _ _ _ _, RoundTrip.or _ _ _ _, RoundTrip.xor _ _ _ _, RoundTrip.andn _ _ _ _,
    RoundTrip.shl _ _ _ _, RoundTrip.shr _ _ _ _, RoundTrip.sar _ _ _ _, RoundTrip.rot _ _ _ _ _, RoundTrip.popc _ _ _, RoundTrip.clz _ _ _,
    RoundTrip.brev _ _ _, RoundTrip.bfe _ _ _ _ _ _, RoundTrip.bfi _ _ _ _ _, RoundTrip.lea _ _ _ _ _ _ _, RoundTrip.iaddw _ _ _ _ _,
    RoundTrip.iaddc _ _ _ _ _ _, RoundTrip.sad _ _ _ _ _ _, RoundTrip.bsel _ _ _ _ _, RoundTrip.idot4 _ _ _ _ _ _ _ _, RoundTrip.fadd _ _ _ _ _,
    RoundTrip.fsub _ _ _ _ _, RoundTrip.fmul _ _ _ _ _, RoundTrip.ffma _ _ _ _ _ _, RoundTrip.fmin _ _ _ _, RoundTrip.fmax _ _ _ _,
    RoundTrip.fcmp _ _ _ _ _, RoundTrip.frnd _ _ _ _ _, RoundTrip.fclass _ _ _, RoundTrip.fscale _ _ _ _ _, RoundTrip.twosum _ _ _ _,
    RoundTrip.twoprod _ _ _ _, RoundTrip.faddp _ _ _ _ _, RoundTrip.pkadd _ _ _ _ _ _, RoundTrip.pkmul _ _ _ _ _ _, RoundTrip.pkfma _ _ _ _ _ _ _,
    RoundTrip.pkfmab _ _ _ _ _ _ _, RoundTrip.rcp _ _ _ _, RoundTrip.rsq _ _ _, RoundTrip.sqrt _ _ _ _, RoundTrip.exp2 _ _ _, RoundTrip.log2 _ _ _,
    RoundTrip.sin _ _ _, RoundTrip.cos _ _ _, RoundTrip.tanh _ _ _, RoundTrip.cvtif _ _ _ _ _, RoundTrip.cvtfi _ _ _ _ _, RoundTrip.cvtff _ _ _ _ _,
    RoundTrip.packh _ _ _ _ _ _, RoundTrip.unpkh _ _ _ _ _, RoundTrip.decn _ _ _ _ _ _ _, RoundTrip.mov _ _ _ _, RoundTrip.movi _ _ _,
    RoundTrip.moviS _ _ _, RoundTrip.moviHi _ _ _, RoundTrip.sel _ _ _ _ _ _, RoundTrip.pand _ _ _ _ _ _, RoundTrip.por _ _ _ _ _ _,
    RoundTrip.pxor _ _ _ _ _ _, RoundTrip.pmov _ _ _, RoundTrip.pmovNot _ _ _, RoundTrip.pmovVal _ _ _, RoundTrip.pmovNz _ _ _,
    RoundTrip.pset _ _ _ _, RoundTrip.psetPack _ _ _ _, RoundTrip.smov _ _ _ _ _, RoundTrip.lxch _ _ _ _ _ _ _, RoundTrip.agree _ _ _ _ _,
    RoundTrip.ballot _ _ _ _ _, RoundTrip.wred _ _ _ _ _ _, RoundTrip.wscan _ _ _ _ _ _ _, RoundTrip.rebal _ _ _ _, RoundTrip.csamp _ _ _ _,
    RoundTrip.rand _ _ _ _ _, RoundTrip.ld _ _ _ _ _ _ _ _, RoundTrip.st _ _ _ _ _ _ _ _ _, RoundTrip.lds _ _ _ _ _ _ _ _,
    RoundTrip.sts _ _ _ _ _ _ _ _ _, RoundTrip.ldw _ _ _ _ _ _ _ _, RoundTrip.stw _ _ _ _ _ _ _ _, RoundTrip.ldn _ _ _ _ _ _ _ _,
    RoundTrip.qst _ _ _ _ _ _ _ _, RoundTrip.pref _ _ _ _, RoundTrip.shbind _ _ _ _ _, RoundTrip.shfree _ _ _ _, RoundTrip.cpy _ _ _,
    RoundTrip.aqstart _ _ _, RoundTrip.aqstop _ _ _, RoundTrip.aqstopQry _ _ _ _, RoundTrip.ldc _ _ _ _ _, RoundTrip.atom _ _ _ _ _ _ _ _,
    RoundTrip.acas _ _ _ _ _ _ _, RoundTrip.red _ _ _ _ _ _ _, RoundTrip.fence _ _ _, RoundTrip.bar _ _, RoundTrip.nbar _ _, RoundTrip.slin _ _ _ _,
    RoundTrip.slout _ _ _, RoundTrip.sloutLast _ _ _, RoundTrip.slqry _ _ _, RoundTrip.slrst _ _ _ _, RoundTrip.slrstDel _ _ _,
    RoundTrip.send _ _ _ _, RoundTrip.recv _ _ _ _, RoundTrip.mloadb _ _ _ _ _ _, RoundTrip.mma _ _ _ _ _ _, RoundTrip.mres _ _ _ _ _,
    RoundTrip.mfence _ _, RoundTrip.mwait _, RoundTrip.had _ _ _ _ _ _ _, RoundTrip.twalk _ _ _ _ _ _, RoundTrip.tnext _ _ _, RoundTrip.mzero _ _ _,
    RoundTrip.beam _ _ _ _, RoundTrip.bfrag _ _ _ _, RoundTrip.bdone _ _, RoundTrip.rays _ _ _ _ _ _ _, RoundTrip.hitget _ _ _ _,
    RoundTrip.hitgetCand _ _ _ _, RoundTrip.hitacc _ _ _ _, RoundTrip.tex _ _ _ _ _ _ _, RoundTrip.texq _ _ _ _ _ _, RoundTrip.bvhset _ _ _ _,
    RoundTrip.launch _ _ _, RoundTrip.wchild _ _, RoundTrip.gsig _ _ _, RoundTrip.enrd _ _, RoundTrip.enrdBal _ _, RoundTrip.role _ _ _,
    RoundTrip.roleId _ _ _, RoundTrip.rolePos _ _ _, RoundTrip.roleCnt _ _, RoundTrip.trap _ _, RoundTrip.rte _, RoundTrip.csrr _ _ _,
    RoundTrip.csrw _ _ _, RoundTrip.csrwSet _ _ _, RoundTrip.csrwClr _ _ _, RoundTrip.rinv _ _ _ _, RoundTrip.rinvRange _ _ _ _ _ _,
    RoundTrip.qctlQ _ _ _ _, RoundTrip.qctlR _ _ _ _, RoundTrip.qctlQry _ _ _ _, RoundTrip.sfuResult _ _ _, RoundTrip.loadComplete _ _ _,
    RoundTrip.copyComplete _, RoundTrip.streamPush _, RoundTrip.qstComplete _ _ _, RoundTrip.sluiceTimeout _ _, RoundTrip.sluiceDeadlock _,
    RoundTrip.mloadbComplete _ _ _, RoundTrip.mmaComplete _ _ _, RoundTrip.hadComplete _ _ _, RoundTrip.beamTreeSettled _ _,
    RoundTrip.raysSettled _ _, RoundTrip.clauseEntry _ _, RoundTrip.regionCommit _ _ _, RoundTrip.sectorFill _ _ _, RoundTrip.spillRefetch _,
    RoundTrip.faultResolved _ _, RoundTrip.faultSlotRetry _, RoundTrip.recordTake _ _, RoundTrip.nodeComplete _, RoundTrip.gangPlace _,
    RoundTrip.preemptSaved _, RoundTrip.park _, RoundTrip.teamRetire _, RoundTrip.energyRefill, RoundTrip.coreUncorrectableError _ _,
    RoundTrip.schedulerCoreError _, RoundTrip.rootCoreError, RoundTrip.boot _, RoundTrip.firmwareUpdate _, RoundTrip.hostBar2Access _ _ _,
    RoundTrip.atsInvalidate _, RoundTrip.peerAccess _ _ _, RoundTrip.linkCrcError _ _ _, RoundTrip.qcfgWrite _ _ _, RoundTrip.qidxWrite _ _ _,
    RoundTrip.fqcfgWrite _ _, RoundTrip.mqcfgWrite _ _, RoundTrip.mqidxWrite _ _, RoundTrip.acthWrite _ _, RoundTrip.slcfgWrite _ _,
    RoundTrip.cqcfgWrite _ _, RoundTrip.cqidxWrite _ _, RoundTrip.eqcfgWrite _ _, RoundTrip.pqmaskWrite _ _ _, RoundTrip.pwaysWrite _ _ _,
    RoundTrip.nbndWrite _ _ _, RoundTrip.prsvWrite _ _ _, RoundTrip.asidvWrite _ _ _, RoundTrip.pcapWrite _ _ _, RoundTrip.fmodeWrite _ _ _,
    RoundTrip.fflagsWrite _ _ _, RoundTrip.registerWrite _ _, RoundTrip.regionEndingResult _ _ _, RoundTrip.texComplete _ _ _,
    RoundTrip.bvhsetComplete _ _ _, RoundTrip.shbindComplete _ _ _, RoundTrip.tnextComplete _ _ _ _, RoundTrip.mresComplete _ _ _,
    RoundTrip.rinvComplete _ _ _, RoundTrip.faultRecordFreed _ _, RoundTrip.energyWrite _ _ _, RoundTrip.schedulerCoreReloaded _,
    RoundTrip.msixTableWrite _ _ _]

end Sys2Proof

/-- Settles O15: an instruction has a word unless it is an event, and the word of each instruction decodes to it. -/
theorem decodeOfEncode : Obligations.DecodeOfEncode :=
  ⟨fun i h => by rw [isSome_encode, h]; rfl, fun i w hwf hw => decode_encode i w hw hwf⟩

/-- Settles O16: the fields of an accepted word are put together again by the encoder, and the fields are the whole word. -/
theorem encodeOfDecode : Obligations.EncodeOfDecode := by
  intro w i h
  obtain ⟨hraw, hwf⟩ := decode_ok h
  have hw : encode i = some w := (rawDecode_assembles (Fields.ofWord w) i hraw).trans (congrArg some (Fields.word_ofWord w))
  have hevent : (!isEvent i) = true := by rw [← isSome_encode, hw]; rfl
  exact ⟨hwf, by simpa using hevent, hw⟩

/-- Settles O17: 'reserved opcode' is the decoder's answer exactly where Table 3.6 has no engine class for the opcode. -/
theorem reservedOpcodes : Obligations.ReservedOpcodes := fun w => (decode_reservedOp_iff w).trans (opEng_eq_none_iff _)

/-- Settles O18 by running the decoder on each of the seven words. -/
theorem specEncodings : Obligations.SpecEncodings := ⟨rfl, rfl, rfl, rfl, rfl, rfl, rfl⟩

/-- Settles O24. -/
theorem resetInvariant : Obligations.ResetInvariant := State.memOk_reset

end
section
/-! PROOFS. Every step keeps memory in canonical form: one lemma per operation of the model that gives a state, from the operations of the
caches up to the instructions and events, each from the lemmas about the operations it calls, in the order of the model's files (log entry 1). -/
open Sys2Proof Sys2Proof.Machine

namespace Sys2Proof.Machine
open Host (Outcome)

theorem memOk_foldl {α : Type} {f : State → α → State} (hf : ∀ s a, s.MemOk → (f s a).MemOk) (l : List α) {s : State}
    (hs : s.MemOk) : (l.foldl f s).MemOk :=
  foldl_keeps State.MemOk f hf l s hs

/-! ### Cache.lean -/

theorem State.memOk_setLine {s : State} (l : Line) (hs : s.MemOk) : (State.setLine s l).MemOk :=
  memOk_cache.setLine _ _ hs

theorem State.memOk_memPuts {s : State} (t : Tgt) (ws : List (Nat × BV)) (hs : s.MemOk) : (State.memPuts s t ws).MemOk :=
  memOk_cache.memPuts _ _ _ hs

theorem State.memOk_dropLines {s : State} (f : Line → Bool) (hs : s.MemOk) : (State.dropLines s f).MemOk :=
  memOk_cache.dropLines _ _ hs

theorem State.memOk_tlbFill {s : State} (core : Option Nat) (p asid va : Nat) (hs : s.MemOk) : (State.tlbFill s core p asid va).MemOk :=
  memOk_cache.tlbFill _ _ _ _ _ hs

theorem State.memOk_combine {s : State} (f : UpdOnly → Bool) (hs : s.MemOk) : (State.combine s f).MemOk :=
  memOk_cache.combine _ _ hs

theorem State.memOk_touchPiece {s : State} (v : Via) (t : Tgt) (os : List Nat) (demand : Bool)
    (hs : s.MemOk) : (State.touchPiece s v t os demand).MemOk :=
  memOk_cache.touchPiece _ _ _ _ _ hs

theorem State.memOk_touch {s : State} (v : Via) (p asid va n : Nat) (sys : Bool) (k : Acs) (demand : Bool)
    (hs : s.MemOk) : (State.touch s v p asid va n sys k demand).MemOk :=
  memOk_cache.touch _ _ _ _ _ _ _ _ _ hs

/-! ### Window.lean -/

theorem State.memOk_vtouch {s : State} (v : Via) (p asid va n : Nat) (sys demand : Bool)
    (hs : s.MemOk) : (State.vtouch s v p asid va n sys demand).MemOk :=
  memOk_cache.vtouch _ _ _ _ _ _ _ _ hs

theorem State.memOk_writeBy {s : State} (v : Via) (p asid va : Nat) (sys : Bool) (bs : List Byte)
    (hs : s.MemOk) : (State.writeBy s v p asid va sys bs).MemOk :=
  memOk_cache.writeBy _ _ _ _ _ _ _ hs

theorem State.memOk_writeRaw {s : State} (p asid va : Nat) (sys : Bool) (bs : List Byte)
    (hs : s.MemOk) : (State.writeRaw s p asid va sys bs).MemOk :=
  memOk_cache.writeRaw _ _ _ _ _ _ hs

theorem State.memOk_writeVia {s : State} (v : Via) (p asid va : Nat) (sys : Bool) (bs : List Byte) {u' : State}
    (hs : s.MemOk) (e : State.writeVia s v p asid va sys bs = .ok u') : u'.MemOk :=
  memOk_cache.writeVia _ _ _ _ _ _ _ _ hs e

theorem State.memOk_sendLines {s : State} (f : Line → Bool) (hs : s.MemOk) : (State.sendLines s f).MemOk :=
  memOk_cache.sendLines _ _ hs

theorem State.memOk_release {s : State} (core : Option Nat) (r : Nat) (hs : s.MemOk) : (State.release s core r).MemOk :=
  memOk_cache.release _ _ _ hs

theorem State.memOk_acquire {s : State} (core : Option Nat) (r : Nat) (hs : s.MemOk) : (State.acquire s core r).MemOk :=
  memOk_cache.acquire _ _ _ hs

theorem State.memOk_redAt {s : State} (v : Via) (t : Tgt) (u : UpdOnly) (hs : s.MemOk) : (State.redAt s v t u).MemOk :=
  memOk_cache.redAt _ _ _ _ hs

theorem State.memOk_setCellBad {s : State} (pa : Nat) (x : Bool) (hs : s.MemOk) : (State.setCellBad s pa x).MemOk := by
  unfold State.setCellBad
  grind

theorem State.memOk_askFill {s : State} (m : Miss) (hs : s.MemOk) : (State.askFill s m).MemOk := by
  unfold State.askFill
  grind

theorem State.memOk_writeVa {s : State} (p asid va : Nat) (sys : Bool) (bs : List Byte) {u' : State}
    (hs : s.MemOk) (e : State.writeVa s p asid va sys bs = .ok u') : u'.MemOk := by
  unfold State.writeVa at e
  grind [State.memOk_writeVia]

theorem State.memOk_fresh {s : State} (hs : s.MemOk) : (State.fresh s).MemOk := by
  unfold State.fresh
  grind

theorem State.memOk_enterFaults {s : State} (p asid : Nat) (pages : List Nat) (kinds : Nat) (sls : List Nat)
    (hs : s.MemOk) : (State.enterFaults s p asid pages kinds sls).1.MemOk := by
  unfold State.enterFaults
  grind [State.memOk_enterFaultsK]

theorem State.memOk_tablesLost {s : State} (f : Nat → Bool) (hs : s.MemOk) : (State.tablesLost s f).MemOk := by
  unfold State.tablesLost
  grind

theorem State.memOk_fetchTouch {s : State} (t : Team) (wv : Wave) (sys : Bool) (va n : Nat)
    (hs : s.MemOk) : (State.fetchTouch s t wv sys va n).MemOk := by
  unfold State.fetchTouch
  grind [State.memOk_touch]

/-! ### Ops.lean -/

theorem State.memOk_afterPend {s : State} (tag w : Nat) (hs : s.MemOk) : (State.afterPend s tag w).MemOk := by
  unfold State.afterPend
  grind [State.memOk_enterTrap]

theorem State.memOk_spoilBytes {s : State} (bs : List (Space × Nat)) (hs : s.MemOk) : (State.spoilBytes s bs).MemOk := by
  unfold State.spoilBytes
  grind

theorem State.memOk_result {s : State} (c : Ctx) (i : Instr) (ws : List RegW) (fl : BitVec 8)
    (hs : s.MemOk) : (State.result s c i ws fl).MemOk := by
  unfold State.result
  grind [State.mem_updTeam, State.mem_updWave]

theorem State.memOk_putRegs {s : State} (tag w : Nat) (ws : List RegW) (hs : s.MemOk) : (State.putRegs s tag w ws).MemOk := by
  unfold State.putRegs
  grind [State.mem_updTeam, State.mem_updWave]

theorem State.memOk_putNow {s : State} (c : Ctx) (ws : List RegW) (hs : s.MemOk) : (State.putNow s c ws).MemOk := by
  unfold State.putNow
  grind [State.mem_updTeam, State.mem_updWave]

theorem State.memOk_start {s : State} (c : Ctx) (q : Pend) (hs : s.MemOk) : (State.start s c q).MemOk := by
  unfold State.start
  grind [State.mem_updWave]

theorem State.memOk_endRuns {s : State} (c : Ctx) (e : EndOp) (hs : s.MemOk) : (State.endRuns s c e).MemOk := by
  unfold State.endRuns
  grind [State.mem_updWave]

theorem memOk_withPend {mn : String} {s : State} {tag w id : Nat} {f : Instr → Bool} {k : Team → Wave → Pend → State} {u' : State}
    (hk : ∀ t wv q, (k t wv q).MemOk) (e : withPend mn s tag w id f k = .next u') : u'.MemOk := by
  unfold withPend at e
  grind [State.memOk_afterPend]

theorem State.memOk_pendTrap {s : State} (tag w : Nat) (wv : Wave) (q : Pend) (cause faddr : Nat)
    (hs : s.MemOk) : (State.pendTrap s tag w wv q cause faddr).MemOk := by
  unfold State.pendTrap
  grind [State.memOk_start, State.memOk_takeTrap]

theorem State.memOk_pendStop {s : State} (tag w : Nat) (wv : Wave) (q : Pend) (x0 : Stop)
    (hs : s.MemOk) : (State.pendStop s tag w wv q x0).MemOk := by
  unfold State.pendStop
  grind [State.memOk_pageFaultK, State.memOk_pendTrap]

/-! ### Float.lean -/

theorem memOk_sfuOp (i : Instr) {s : State} (d a : Opd) (f : Ctx → Word → FR) {u' : State}
    (hs : s.MemOk) (e : sfuOp i s d a f = .next u') : u'.MemOk := by
  unfold sfuOp at e
  refine memOk_issue _ _ _ _ (fun c u v hu hk => ?_) hs e
  grind [State.memOk_start]

theorem memOk_execRcp (h : Hdr) (d a : Opd) (rm : Rm) {s : State} {u' : State}
    (hs : s.MemOk) (e : execRcp h d a rm s = .next u') : u'.MemOk := by
  unfold execRcp at e
  grind [memOk_sfuOp]

theorem memOk_execRsq (h : Hdr) (d a : Opd) {s : State} {u' : State} (hs : s.MemOk) (e : execRsq h d a s = .next u') : u'.MemOk := by
  unfold execRsq at e
  grind [memOk_sfuOp]

theorem memOk_execSqrt (h : Hdr) (d a : Opd) (rm : Rm) {s : State} {u' : State}
    (hs : s.MemOk) (e : execSqrt h d a rm s = .next u') : u'.MemOk := by
  unfold execSqrt at e
  grind [memOk_sfuOp]

theorem memOk_execExp2 (h : Hdr) (d a : Opd) {s : State} {u' : State} (hs : s.MemOk) (e : execExp2 h d a s = .next u') : u'.MemOk := by
  unfold execExp2 at e
  grind [memOk_sfuOp]

theorem memOk_execLog2 (h : Hdr) (d a : Opd) {s : State} {u' : State} (hs : s.MemOk) (e : execLog2 h d a s = .next u') : u'.MemOk := by
  unfold execLog2 at e
  grind [memOk_sfuOp]

theorem memOk_execSin (h : Hdr) (d a : Opd) {s : State} {u' : State} (hs : s.MemOk) (e : execSin h d a s = .next u') : u'.MemOk := by
  unfold execSin at e
  grind [memOk_sfuOp]

theorem memOk_execCos (h : Hdr) (d a : Opd) {s : State} {u' : State} (hs : s.MemOk) (e : execCos h d a s = .next u') : u'.MemOk := by
  unfold execCos at e
  grind [memOk_sfuOp]

theorem memOk_execTanh (h : Hdr) (d a : Opd) {s : State} {u' : State} (hs : s.MemOk) (e : execTanh h d a s = .next u') : u'.MemOk := by
  unfold execTanh at e
  grind [memOk_sfuOp]

theorem memOk_execSfuResult (tag w id : Nat) {s : State} {u' : State}
    (hs : s.MemOk) (e : execSfuResult tag w id s = .next u') : u'.MemOk := by
  unfold execSfuResult at e
  refine memOk_withPend (fun t wv q => ?_) e
  grind [State.mem_finishPend]

/-! ### Control.lean -/

theorem State.memOk_onWave {s : State} (c : Ctx) (f : Wave → Wave) (hs : s.MemOk) : (State.onWave s c f).MemOk := by
  unfold State.onWave
  grind [State.mem_updWave]

theorem memOk_execNop (h : Hdr) {s : State} {u' : State} (hs : s.MemOk) (e : execNop h s = .next u') : u'.MemOk := by
  unfold execNop at e
  refine memOk_issue _ _ _ _ (fun c u v hu hk => ?_) hs e
  grind

theorem memOk_execBra (h : Hdr) (off : BitVec 32) {s : State} {u' : State} (hs : s.MemOk) (e : execBra h off s = .next u') : u'.MemOk := by
  unfold execBra at e
  refine memOk_issue _ _ _ _ (fun c u v hu hk => ?_) hs e
  grind [State.memOk_onWave]

theorem memOk_indirect (c : Ctx) (a : Opd) {s : State} {u' : State} (hs : s.MemOk) (e : indirect c a s = .ok u') : u'.MemOk := by
  unfold indirect at e
  grind [State.memOk_onWave]

theorem memOk_execBrx (h : Hdr) (a : Opd) {s : State} {u' : State} (hs : s.MemOk) (e : execBrx h a s = .next u') : u'.MemOk := by
  unfold execBrx at e
  refine memOk_issue _ _ _ _ (fun c u v hu hk => ?_) hs e
  grind [memOk_indirect]

theorem memOk_execCall (h : Hdr) (d : Opd) (off : BitVec 32) {s : State} {u' : State}
    (hs : s.MemOk) (e : execCall h d off s = .next u') : u'.MemOk := by
  unfold execCall at e
  refine memOk_issue _ _ _ _ (fun c u v hu hk => ?_) hs e
  grind [State.memOk_onWave, State.memOk_result]

theorem memOk_execRet (h : Hdr) (a : Opd) {s : State} {u' : State} (hs : s.MemOk) (e : execRet h a s = .next u') : u'.MemOk := by
  unfold execRet at e
  refine memOk_issue _ _ _ _ (fun c u v hu hk => ?_) hs e
  grind [memOk_indirect]

theorem memOk_execJoin (h : Hdr) {s : State} {u' : State} (hs : s.MemOk) (e : execJoin h s = .next u') : u'.MemOk := by
  unfold execJoin at e
  refine memOk_issue _ _ _ _ (fun c u v hu hk => ?_) hs e
  grind [State.memOk_onWave]

theorem memOk_execLoop (h : Hdr) (d : Opd) (off : BitVec 32) {s : State} {u' : State}
    (hs : s.MemOk) (e : execLoop h d off s = .next u') : u'.MemOk := by
  unfold execLoop at e
  refine memOk_issue _ _ _ _ (fun c u v hu hk => ?_) hs e
  grind [State.memOk_onWave, State.memOk_start]

theorem memOk_execLexit (h : Hdr) (off : BitVec 32) {s : State} {u' : State}
    (hs : s.MemOk) (e : execLexit h off s = .next u') : u'.MemOk := by
  unfold execLexit at e
  refine memOk_issue _ _ _ _ (fun c u v hu hk => ?_) hs e
  grind [State.memOk_onWave]

theorem memOk_execWait (h : Hdr) (k : BitVec 4) (mask : BitVec 8) {s : State} {u' : State}
    (hs : s.MemOk) (e : execWait h k mask s = .next u') : u'.MemOk := by
  unfold execWait at e
  refine memOk_issue _ _ _ _ (fun c u v hu hk => ?_) hs e
  grind [State.memOk_onWave]

theorem State.memOk_clauseTrap {s : State} (tag w : Nat) (wv : Wave) (m : Lanes) (pc : DWord) (cause faddr : Nat)
    (hs : s.MemOk) : (State.clauseTrap s tag w wv m pc cause faddr).MemOk := by
  unfold State.clauseTrap
  grind [State.memOk_takeTrap]

theorem State.memOk_fetchStop {s : State} (tag w : Nat) (wv : Wave) (m : Lanes) (pc : DWord) (x0 : Bad)
    (hs : s.MemOk) : (State.fetchStop s tag w wv m pc x0).MemOk := by
  unfold State.fetchStop
  grind [State.memOk_clauseTrap, State.memOk_pageFault]

theorem State.memOk_loopFill {s : State} (t : Team) (wv : Wave) (sys : Bool) (pc : DWord)
    (hs : s.MemOk) : (State.loopFill s t wv sys pc).MemOk := by
  unfold State.loopFill
  grind [State.memOk_start, memOk_foldl]

theorem State.memOk_enterAt {s : State} (t : Team) (wv : Wave) (m : Lanes) (pc : DWord)
    (hs : s.MemOk) : (State.enterAt s t wv m pc).MemOk := by
  unfold State.enterAt
  grind [State.memOk_clauseTrap, State.memOk_fetchStop, State.memOk_fetchTouch, State.memOk_loopFill, State.mem_updWave]

theorem memOk_execClauseEntry (tag w : Nat) {s : State} {u' : State}
    (hs : s.MemOk) (e : execClauseEntry tag w s = .next u') : u'.MemOk := by
  unfold execClauseEntry at e
  grind [State.memOk_enterAt]

/-! ### Narrow.lean -/

theorem memOk_execDecn (h : Hdr) (d a b : Opd) (f : BitVec 5) (scl esc : Bool) {s : State} {u' : State}
    (hs : s.MemOk) (e : execDecn h d a b f scl esc s = .next u') : u'.MemOk := by
  unfold execDecn at e
  refine memOk_issue _ _ _ _ (fun c u v hu hk => ?_) hs e
  grind [State.memOk_result]

/-! ### Memory.lean -/

theorem State.memOk_askFills {s : State} (v : Via) (p asid va n : Nat) (sys : Bool)
    (hs : s.MemOk) : (State.askFills s v p asid va n sys).MemOk := by
  unfold State.askFills
  grind [State.memOk_askFill, State.memOk_tlbFill, memOk_foldl]

theorem memOk_load (i : Instr) {s : State} (kind n align : Nat) (d a b : Opd) {u' : State}
    (hs : s.MemOk) (e : load i s kind n align d a b = .next u') : u'.MemOk := by
  unfold load at e
  refine memOk_issue _ _ _ _ (fun c u v hu hk => ?_) hs e
  grind [State.memOk_askFills, State.memOk_start, memOk_foldl]

theorem memOk_execLd (h : Hdr) (d a b : Opd) (ty : MTy) (pol : Pol) (sc : Scope) (od : Ord) {s : State} {u' : State}
    (hs : s.MemOk) (e : execLd h d a b ty pol sc od s = .next u') : u'.MemOk := by
  unfold execLd at e
  grind [memOk_load]

theorem memOk_execLds (h : Hdr) (d a b : Opd) (ty : MTy) (pol : Pol) (sc : Scope) (od : Ord) {s : State} {u' : State}
    (hs : s.MemOk) (e : execLds h d a b ty pol sc od s = .next u') : u'.MemOk := by
  unfold execLds at e
  grind [memOk_load]

theorem memOk_execLdw (h : Hdr) (d a b : Opd) (ty : MTy) (pol : Pol) (sc : Scope) (od : Ord) {s : State} {u' : State}
    (hs : s.MemOk) (e : execLdw h d a b ty pol sc od s = .next u') : u'.MemOk := by
  unfold execLdw at e
  grind [memOk_load]

theorem memOk_execLdn (h : Hdr) (d a b : Opd) (ty : MTy) (pol : Pol) (sc : Scope) (od : Ord) {s : State} {u' : State}
    (hs : s.MemOk) (e : execLdn h d a b ty pol sc od s = .next u') : u'.MemOk := by
  unfold execLdn at e
  grind [memOk_load]

theorem memOk_execLdc (h : Hdr) (d a b : Opd) (ty : MTy) {s : State} {u' : State}
    (hs : s.MemOk) (e : execLdc h d a b ty s = .next u') : u'.MemOk := by
  unfold execLdc at e
  grind [memOk_load]

theorem State.memOk_constAdd {s : State} (core asid va : Nat) (x : Word) (hs : s.MemOk) : (State.constAdd s core asid va x).MemOk := by
  unfold State.constAdd
  grind

theorem State.memOk_constKeep {s : State} (t : Team) (va n : Nat) (sys : Bool) (hs : s.MemOk) : (State.constKeep s t va n sys).MemOk := by
  unfold State.constKeep
  grind [State.memOk_constAdd, memOk_foldl]

theorem State.memOk_loadTouch {s : State} (t : Team) (sys : Bool) (q : Pend) (f : LdForm)
    (hs : s.MemOk) : (State.loadTouch s t sys q f).MemOk := by
  unfold State.loadTouch
  grind [State.memOk_acquire, State.memOk_constKeep, State.memOk_vtouch, memOk_foldl]

theorem State.memOk_loadFaults {s : State} (tag w : Nat) (t : Team) (wv : Wave) (q : Pend) (sls : List Nat) (ps : FaultPages)
    (hs : s.MemOk) : (State.loadFaults s tag w t wv q sls ps).MemOk := by
  unfold State.loadFaults
  grind [State.memOk_pageFaults]

theorem memOk_execLoadComplete (tag w id : Nat) {s : State} {u' : State}
    (hs : s.MemOk) (e : execLoadComplete tag w id s = .next u') : u'.MemOk := by
  unfold execLoadComplete at e
  grind [State.memOk_loadFaults, State.memOk_loadTouch, State.memOk_pendStop, State.mem_finishPend, memOk_withPend]

theorem State.memOk_buffer {s : State} (c : Ctx) (parts : List (Nat × List BufW)) {u' : State}
    (hs : s.MemOk) (e : State.buffer s c parts = .ok u') : u'.MemOk := by
  unfold State.buffer at e
  grind [State.memOk_onWave, State.memOk_spoilBytes, memOk_foldl]

theorem memOk_store (i : Instr) {s : State} (kind : Nat) (v : StVia) (d a b : Opd) (ty : MTy) {u' : State}
    (hs : s.MemOk) (e : store i s kind v d a b ty = .next u') : u'.MemOk := by
  unfold store at e
  refine memOk_issue _ _ _ _ (fun c u v hu hk => ?_) hs e
  grind [State.memOk_buffer]

theorem memOk_storeCvt (i : Instr) {s : State} (kind : Nat) (v : StVia) (d a b : Opd) (sf : Nat) (ty : MTy) {u' : State}
    (hs : s.MemOk) (e : storeCvt i s kind v d a b sf ty = .next u') : u'.MemOk := by
  unfold storeCvt at e
  refine memOk_issue _ _ _ _ (fun c u v hu hk => ?_) hs e
  grind [State.memOk_buffer, State.memOk_result, memOk_foldl]

theorem memOk_execSt (h : Hdr) (d a b : Opd) (sf : BitVec 5) (ty : MTy) (pol : Pol) (sc : Scope) (od : Ord) {s : State} {u' : State}
    (hs : s.MemOk) (e : execSt h d a b sf ty pol sc od s = .next u') : u'.MemOk := by
  unfold execSt at e
  grind [memOk_store, memOk_storeCvt]

theorem memOk_execSts (h : Hdr) (d a b : Opd) (sf : BitVec 5) (ty : MTy) (pol : Pol) (sc : Scope) (od : Ord) {s : State} {u' : State}
    (hs : s.MemOk) (e : execSts h d a b sf ty pol sc od s = .next u') : u'.MemOk := by
  unfold execSts at e
  grind [memOk_store, memOk_storeCvt]

theorem memOk_execStw (h : Hdr) (d a b : Opd) (ty : MTy) (pol : Pol) (sc : Scope) (od : Ord) {s : State} {u' : State}
    (hs : s.MemOk) (e : execStw h d a b ty pol sc od s = .next u') : u'.MemOk := by
  unfold execStw at e
  grind [memOk_store]

theorem memOk_execPref (h : Hdr) (a b : Opd) (pol : Pol) {s : State} {u' : State}
    (hs : s.MemOk) (e : execPref h a b pol s = .next u') : u'.MemOk := by
  unfold execPref at e
  refine memOk_issue _ _ _ _ (fun c u v hu hk => ?_) hs e
  grind [State.memOk_touch, memOk_foldl]

theorem State.memOk_showIssue {s : State} (t : Team) (sys : Bool) (bs : List BufW) (hs : s.MemOk) : (State.showIssue s t sys bs).MemOk := by
  unfold State.showIssue
  grind [State.memOk_release, State.memOk_vwriteAll, State.mem_updTeam, memOk_foldl]

theorem State.memOk_visible {s : State} (t : Team) (sys : Bool) (rs : List Region) (hs : s.MemOk) : (State.visible s t sys rs).MemOk := by
  unfold State.visible
  grind [State.memOk_showIssue, memOk_foldl]

theorem State.memOk_markLost {s : State} (t : Team) (w : Nat) (sys : Bool) (rs : List Region)
    (hs : s.MemOk) : (State.markLost s t w sys rs).MemOk := by
  unfold State.markLost
  grind [State.mem_updWave]

/-! ### Sync.lean -/

theorem State.memOk_answer {s : State} (tag w : Nat) (e : EndOp) (ws : List RegW) (fl : BitVec 8) (trap : Option (Nat × DWord)) (at_ : List DWord)
    (hs : s.MemOk) : (State.answer s tag w e ws fl trap at_).MemOk := by
  unfold State.answer
  grind [State.mem_updWave]

theorem memOk_execRegionEndingResult (tag w id : Nat) {s : State} {u' : State}
    (hs : s.MemOk) (e : execRegionEndingResult tag w id s = .next u') : u'.MemOk := by
  unfold execRegionEndingResult at e
  grind [State.memOk_afterPend, State.memOk_putRegs, State.memOk_takeTrap, State.mem_finishPend, State.mem_updWave]

theorem memOk_atomIssue (i : Instr) {s : State} (a : Opd) (ls : Ctx → List Nat) (ty : MTy) (y z : Ctx → Nat → DWord) {u' : State}
    (hs : s.MemOk) (e : atomIssue i s a ls ty y z = .next u') : u'.MemOk := by
  unfold atomIssue at e
  refine memOk_issue _ _ _ _ (fun c u v hu hk => ?_) hs e
  grind [State.memOk_endRuns]

theorem memOk_execAtom (h : Hdr) (d a b : Opd) (op : AtomOp) (ty : MTy) (sc : Scope) (od : Ord) {s : State} {u' : State}
    (hs : s.MemOk) (e : execAtom h d a b op ty sc od s = .next u') : u'.MemOk := by
  unfold execAtom at e
  grind [memOk_atomIssue]

theorem memOk_execAcas (h : Hdr) (d a b : Opd) (ty : MTy) (sc : Scope) (od : Ord) {s : State} {u' : State}
    (hs : s.MemOk) (e : execAcas h d a b ty sc od s = .next u') : u'.MemOk := by
  unfold execAcas at e
  grind [memOk_atomIssue]

theorem memOk_execRed (h : Hdr) (a b : Opd) (op : AtomOp) (ty : MTy) (sc : Scope) (od : Ord) {s : State} {u' : State}
    (hs : s.MemOk) (e : execRed h a b op ty sc od s = .next u') : u'.MemOk := by
  unfold execRed at e
  grind [memOk_atomIssue]

theorem State.memOk_memError {s : State} (unit pa : Nat) (hs : s.MemOk) : (State.memError s unit pa).MemOk := by
  unfold State.memError
  grind [State.memOk_postError, memOk_foldl]

theorem State.memOk_redLane {s : State} (t : Team) (sys : Bool) (f : AtomForm) (op : AtomOp) (a : Nat) (b : DWord)
    (hs : s.MemOk) : (State.redLane s t sys f op a b).MemOk := by
  unfold State.redLane
  grind [State.memOk_memError, State.memOk_redAt, State.memOk_spoilBytes, State.memOk_tableWrite, State.memOk_tlbFill]

theorem State.memOk_atomLane {s : State} (t : Team) (sys : Bool) (e : EndOp) (f : AtomForm) (l : Nat) {u' : State} {y1 : DWord} {y2 : BitVec 8}
    (hs : s.MemOk) (e : State.atomLane s t sys e f l = .ok (u', y1, y2)) : u'.MemOk := by
  unfold State.atomLane at e
  grind [State.memOk_spoilBytes, State.memOk_tableWrite, State.memOk_touch, State.memOk_writeBy]

theorem State.memOk_atomLanes (t : Team) (sys : Bool) (e : EndOp) (f : AtomForm)
    : ∀ (ls : List Nat) {s : State}, s.MemOk → (s.atomLanes t sys e f ls).1.MemOk
  | [], _, hs => hs
  | l :: ls, s, hs => by
    have ih := @memOk_atomLanes t sys e f ls
    unfold atomLanes
    grind [memOk_atomLane, memOk_redLane]

theorem State.memOk_atomPerform {s : State} (t : Team) (sys : Bool) (w : Nat) (e : EndOp) (f : AtomForm)
    (hs : s.MemOk) : (State.atomPerform s t sys w e f).MemOk := by
  unfold State.atomPerform
  grind [State.memOk_acquire, State.memOk_answer, State.memOk_atomLanes, State.memOk_release]

theorem State.memOk_fencePerform {s : State} (t : Team) (sc : Scope) (od : Ord) (hs : s.MemOk) : (State.fencePerform s t sc od).MemOk := by
  unfold State.fencePerform
  grind [State.memOk_acquire, State.memOk_release]

theorem State.memOk_barsTeam {s : State} (tag : Nat) (hs : s.MemOk) : (State.barsTeam s tag).MemOk := by
  unfold State.barsTeam
  grind [State.memOk_release, State.memOk_reset, State.mem_updTeam, memOk_foldl]

theorem State.memOk_nbarRelease {s : State} (gid j : Nat) (hs : s.MemOk) : (State.nbarRelease s gid j).MemOk := by
  unfold State.nbarRelease
  grind [State.memOk_release, State.memOk_reset, State.mem_updGang, memOk_foldl]

theorem State.memOk_nbarComplete {s : State} (gid j : Nat) (hs : s.MemOk) : (State.nbarComplete s gid j).MemOk := by
  unfold State.nbarComplete
  grind [State.memOk_acquire, State.memOk_release, State.memOk_reset, State.mem_updGang, memOk_foldl]

theorem State.memOk_barsGang {s : State} (gid : Nat) (hs : s.MemOk) : (State.barsGang s gid).MemOk := by
  unfold State.barsGang
  grind [State.memOk_nbarComplete, State.memOk_nbarRelease, memOk_foldl]

theorem State.memOk_barriers {s : State} (tag gid : Nat) (hs : s.MemOk) : (State.barriers s tag gid).MemOk := by
  unfold State.barriers
  grind [State.memOk_barsGang, State.memOk_barsTeam]

theorem State.memOk_barriersAll {s : State} (hs : s.MemOk) : (State.barriersAll s).MemOk := by
  unfold State.barriersAll
  grind [State.memOk_barsGang, State.memOk_barsTeam, memOk_foldl]

theorem State.memOk_barArrive {s : State} (t : Team) (w : Nat) (sls : List Nat) (e : EndOp) (nb : Bool)
    (hs : s.MemOk) : (State.barArrive s t w sls e nb).MemOk := by
  unfold State.barArrive
  grind [State.memOk_barriers, State.memOk_reset, State.mem_updGang, State.mem_updTeam, State.mem_updWave]

theorem State.memOk_exitPerform {s : State} (t : Team) (w : Nat) (e : EndOp) (hs : s.MemOk) : (State.exitPerform s t w e).MemOk := by
  unfold State.exitPerform
  grind [State.memOk_barriers, State.mem_abandon, State.mem_updWave]

theorem memOk_launderIssue (i : Instr) {s : State} (a : Opd) (n : BitVec 4) (send : Bool) {u' : State}
    (hs : s.MemOk) (e : launderIssue i s a n send = .next u') : u'.MemOk := by
  unfold launderIssue at e
  refine memOk_issue _ _ _ _ (fun c u v hu hk => ?_) hs e
  grind [State.memOk_endRuns]

theorem memOk_execSend (h : Hdr) (d a : Opd) (n : BitVec 4) {s : State} {u' : State}
    (hs : s.MemOk) (e : execSend h d a n s = .next u') : u'.MemOk := by
  unfold execSend at e
  grind [memOk_launderIssue]

theorem memOk_execRecv (h : Hdr) (d a : Opd) (n : BitVec 4) {s : State} {u' : State}
    (hs : s.MemOk) (e : execRecv h d a n s = .next u') : u'.MemOk := by
  unfold execRecv at e
  grind [memOk_launderIssue]

theorem State.memOk_launderPerform {s : State} (t : Team) (w : Nat) (e : EndOp) (d : Opd) (n : Nat) (send : Bool)
    (hs : s.MemOk) : (State.launderPerform s t w e d n send).MemOk := by
  unfold State.launderPerform
  grind [State.memOk_acquire, State.memOk_answer, State.memOk_release, State.memOk_spoilBytes, State.mem_updGang, State.mem_updTeam]

/-! ### Sluice.lean -/

theorem State.memOk_putKey {s : State} (e : KeyEnt) (hs : s.MemOk) : (State.putKey s e).MemOk := by
  unfold State.putKey
  grind

theorem State.memOk_useKey {s : State} (p : Nat) (k : DWord) (hs : s.MemOk) : (State.useKey s p k).MemOk := by
  unfold State.useKey
  grind

theorem State.memOk_dropKeys {s : State} (hs : s.MemOk) : (State.dropKeys s).MemOk := by
  unfold State.dropKeys
  grind

theorem State.memOk_settleLane {s : State} (st : Nat) (x : Waiter) (hs : s.MemOk) : (State.settleLane s st x).MemOk := by
  unfold State.settleLane
  grind [State.mem_updWave]

theorem State.memOk_recheck {s : State} (p : Nat) (k : DWord) (hs : s.MemOk) : (State.recheck s p k).MemOk := by
  unfold State.recheck
  grind [State.memOk_putKey, State.memOk_settleLane, memOk_foldl]

theorem State.memOk_recheckAll {s : State} (hs : s.MemOk) : (State.recheckAll s).MemOk := by
  unfold State.recheckAll
  grind [State.memOk_recheck, memOk_foldl]

theorem State.memOk_bucketTouch {s : State} (p : Nat) (k : DWord) (hs : s.MemOk) : (State.bucketTouch s p k).MemOk := by
  unfold State.bucketTouch
  grind [State.memOk_touch]

theorem State.memOk_bucketWrite {s : State} (p : Nat) (k : DWord) (j o : Nat) (bs : List Byte) {u' : State}
    (hs : s.MemOk) (e : State.bucketWrite s p k j o bs = .ok u') : u'.MemOk := by
  unfold State.bucketWrite at e
  grind [State.memOk_writeVa]

theorem State.memOk_slotMade {s : State} (p : Nat) (k : DWord) (hs : s.MemOk) : (State.slotMade s p k).MemOk := by
  unfold State.slotMade
  grind [State.mem_updPart]

/-- The read and the write of the bucket stand as names in the proof: the kernel must not evaluate the hash of a key. -/
theorem State.memOk_spillKey {s : State} (e : KeyEnt) {u' : State} (hs : s.MemOk) (he : s.spillKey e = .ok u') : u'.MemOk := by
  rw [spillKey] at he
  obtain ⟨R, hR⟩ : ∃ R, R = State.bucketRead := ⟨_, rfl⟩
  obtain ⟨W, hW⟩ : ∃ W, W = State.bucketWrite := ⟨_, rfl⟩
  rw [← hR, ← hW] at he
  split at he
  · cases he
  · split at he
    · cases he
    · split at he
      · cases he
      · split at he
        · cases he
        · next hw =>
          rw [hW] at hw
          cases he
          have hb := memOk_bucketWrite _ _ _ _ _ (memOk_bucketTouch _ _ hs) hw
          have hm := memOk_slotMade e.part e.key hb
          exact hm

theorem State.memOk_makeRoom {s u' : State} (hs : s.MemOk) : ∀ l, s.makeRoom l = .ok u' → u'.MemOk
  | [], e => by cases e
  | k :: l, e => by
    have ih := @memOk_makeRoom s u' hs l
    unfold makeRoom at e
    grind [memOk_spillKey]

theorem State.memOk_keyRoom {s : State} (sl : Nat) {u' : State} (hs : s.MemOk) (e : State.keyRoom s sl = .ok u') : u'.MemOk := by
  unfold State.keyRoom at e
  grind [State.memOk_dropKeys, State.memOk_makeRoom, memOk_foldl]

/-- As for `spillKey`, the kernel must not evaluate the hash of the key. -/
theorem State.memOk_ensureKey {s : State} (p : Nat) (k : DWord) {u' : State} (hs : s.MemOk) (e : s.ensureKey p k = .ok u') : u'.MemOk := by
  rw [ensureKey] at e
  obtain ⟨B, hB⟩ : ∃ B, B = State.bucketTouch := ⟨_, rfl⟩
  obtain ⟨W, hW⟩ : ∃ W, W = State.bucketWrite := ⟨_, rfl⟩
  have hb : (B s p k).MemOk := hB ▸ memOk_bucketTouch p k hs
  have hw {u v : State} {j o : Nat} {bs : List Byte} (hu : u.MemOk) (h : W u p k j o bs = .ok v) : v.MemOk := memOk_bucketWrite p k j o bs hu (hW ▸ h)
  rw [← hB, ← hW] at e
  split at e
  · cases e; exact hs
  · split at e
    · cases e
    · split at e
      · cases e
      · next hroom =>
        have hr := memOk_keyRoom _ hb hroom
        dsimp only at e
        split at e
        · cases e; exact memOk_putKey _ hr
        · split at e
          · cases e
          · next hbw => cases e; exact memOk_putKey _ (hw hr hbw)

theorem State.memOk_slinLanes (t : Team) (wv : Wave) (e : EndOp) : ∀ (ls : List Nat) {s : State}, s.MemOk → (s.slinLanes t wv e ls).1.MemOk
  | [], _, hs => hs
  | l :: ls, s, hs => by
    have ih := @memOk_slinLanes t wv e ls
    unfold slinLanes
    grind [memOk_ensureKey, memOk_putKey, memOk_useKey, mem_updWave]

theorem State.memOk_slinTry {s : State} (t : Team) (wv : Wave) (e : EndOp) (m : Lanes)
    (hs : s.MemOk) : (State.slinTry s t wv e m).1.MemOk := by
  unfold State.slinTry
  grind [State.memOk_slinLanes, State.mem_updWave]

theorem State.memOk_slrstKeys (t : Team) (wv : Wave) (e : EndOp) {u' : State}
    : ∀ (ls : List Nat) {s : State}, s.MemOk → s.slrstKeys t wv e ls = .ok u' → u'.MemOk
  | [], _, hs, he => by cases he; exact hs
  | l :: ls, s, hs, he => by
    have ih := @memOk_slrstKeys t wv e u' ls
    unfold slrstKeys at he
    grind [memOk_ensureKey, memOk_putKey]

theorem State.memOk_slinPerform {s : State} (t : Team) (w : Nat) (e : EndOp) (d : Opd) (m : Lanes) (rids : List Nat)
    (hs : s.MemOk) : (State.slinPerform s t w e d m rids).MemOk := by
  unfold State.slinPerform
  grind [State.memOk_acquire, State.memOk_answer, State.memOk_dropKeys]

theorem State.memOk_slout1 {s : State} (t : Team) (w : Nat) (k : DWord) (l : Nat) (last : Bool)
    (hs : s.MemOk) : (State.slout1 s t w k l last).1.MemOk := by
  unfold State.slout1
  grind [State.memOk_putKey, State.memOk_useKey]

theorem State.memOk_slrst1 {s : State} (t : Team) (k : DWord) (q : Word) (del : Bool)
    (hs : s.MemOk) : (State.slrst1 s t k q del).1.MemOk := by
  unfold State.slrst1
  grind [State.memOk_bucketWrite, State.memOk_putKey, State.memOk_slotMade]

theorem memOk_keyLanes (p : Nat) (e : EndOp) {f : State → Nat → State × Word} (hf : ∀ s l, s.MemOk → (f s l).1.MemOk) :
    ∀ (ls : List Nat) {s : State}, s.MemOk → (keyLanes p e f ls s).1.MemOk
  | [], _, hs => hs
  | l :: ls, _, hs => memOk_keyLanes p e hf ls (State.memOk_recheck _ _ (hf _ l hs))

theorem State.memOk_keyPerform {s : State} (t : Team) (w : Nat) (e : EndOp) (d : Opd) (m : Lanes) {f : State → Nat → State × Word}
    (hf : ∀ s l, s.MemOk → (f s l).1.MemOk) (hs : s.MemOk) : (s.keyPerform t w e d m f).MemOk :=
  memOk_answer _ _ _ _ _ _ _ (memOk_dropKeys (memOk_keyLanes _ _ hf _ hs))

theorem State.memOk_sloutPerform {s : State} (t : Team) (w : Nat) (e : EndOp) (d : Opd) (m : Lanes) (last : Bool)
    (hs : s.MemOk) : (State.sloutPerform s t w e d m last).MemOk := by
  unfold State.sloutPerform
  grind [State.memOk_keyPerform, State.memOk_release, State.memOk_slout1]

theorem State.memOk_slqryPerform {s : State} (t : Team) (w : Nat) (e : EndOp) (d : Opd) (m : Lanes)
    (hs : s.MemOk) : (State.slqryPerform s t w e d m).MemOk := by
  unfold State.slqryPerform
  grind [State.memOk_answer, State.memOk_bucketTouch, State.memOk_useKey, memOk_foldl]

theorem memOk_execSluiceTimeout (tag w : Nat) {s : State} {u' : State}
    (hs : s.MemOk) (e : execSluiceTimeout tag w s = .next u') : u'.MemOk := by
  unfold execSluiceTimeout at e
  grind [State.memOk_start, State.memOk_takeTrap]

/-! ### Copy.lean -/

theorem State.memOk_done {s : State} (c : Ctx) (d : Opd) (x : Word) (hs : s.MemOk) : (State.done s c d x).MemOk := by
  unfold State.done
  grind [State.memOk_putNow]

theorem State.memOk_updRun {s : State} (c : Ctx) (f : Region → Region) (hs : s.MemOk) : (State.updRun s c f).MemOk := by
  unfold State.updRun
  grind [State.memOk_onWave]

theorem State.memOk_runTouch {s : State} (t : Team) (va n : Nat) (sys : Bool) (hs : s.MemOk) : (State.runTouch s t va n sys).MemOk := by
  unfold State.runTouch
  grind [State.memOk_vtouch]

theorem memOk_execShbind (h : Hdr) (d a b : Opd) (ev : Option (BitVec 3)) {s : State} {u' : State}
    (hs : s.MemOk) (e : execShbind h d a b ev s = .next u') : u'.MemOk := by
  unfold execShbind at e
  refine memOk_issue _ _ _ _ (fun c u v hu hk => ?_) hs e
  grind [State.memOk_start]

theorem memOk_execShbindComplete (tag w id : Nat) {s : State} {u' : State}
    (hs : s.MemOk) (e : execShbindComplete tag w id s = .next u') : u'.MemOk := by
  unfold execShbindComplete at e
  refine memOk_withPend (fun t wv q => ?_) e
  grind [State.memOk_pageFault, State.memOk_pendTrap, State.memOk_runTouch, State.mem_finishPend, State.mem_updPart]

theorem memOk_execShfree (h : Hdr) (d a : Opd) (ev : Option (BitVec 3)) {s : State} {u' : State}
    (hs : s.MemOk) (e : execShfree h d a ev s = .next u') : u'.MemOk := by
  unfold execShfree at e
  refine memOk_issue _ _ _ _ (fun c u v hu hk => ?_) hs e
  grind [State.memOk_done, State.mem_updPart]

theorem memOk_execCpy (h : Hdr) (a : Opd) (ev : Option (BitVec 3)) {s : State} {u' : State}
    (hs : s.MemOk) (e : execCpy h a ev s = .next u') : u'.MemOk := by
  unfold execCpy at e
  refine memOk_issue _ _ _ _ (fun c u v hu hk => ?_) hs e
  grind [State.memOk_endRuns, State.memOk_start]

theorem State.memOk_copyTouch {s : State} (c : Copy) (a : Int) (n : Nat) (hs : s.MemOk) : (State.copyTouch s c a n).MemOk := by
  unfold State.copyTouch
  grind [State.memOk_vtouch]

theorem State.memOk_copyWrite {s : State} (c : Copy) (bs : List (Nat × BV)) (hs : s.MemOk) : (State.copyWrite s c bs).MemOk := by
  unfold State.copyWrite
  grind [State.memOk_spoilBytes, State.memOk_vwriteAll, State.mem_updTeam]

theorem State.memOk_copyUnit {s : State} (c : Copy) {u' : State} {y1 : Copy}
    (hs : s.MemOk) (e : State.copyUnit s c = .ok (u', y1)) : u'.MemOk := by
  unfold State.copyUnit at e
  grind [State.memOk_copyTouch, State.memOk_copyWrite]

theorem State.memOk_setCopy {s : State} (c : Copy) (hs : s.MemOk) : (State.setCopy s c).MemOk := by
  unfold State.setCopy
  grind

theorem State.memOk_copyHold {s : State} (c : Copy) (ps : FaultPages) (hs : s.MemOk) : (State.copyHold s c ps).MemOk := by
  unfold State.copyHold
  grind [State.memOk_enterFaultsK, State.memOk_setCopy]

theorem State.memOk_copyRun : ∀ (n : Nat) {s : State} (c : Copy), s.MemOk → (s.copyRun n c).1.MemOk
  | 0, _, _, hs => hs
  | n + 1, s, c, hs => by
    have ih := @memOk_copyRun n
    unfold copyRun
    grind [memOk_copyUnit, memOk_copyHold]

theorem State.memOk_copyEnd {s : State} (c : Copy) (cstat : Nat) (hs : s.MemOk) : (State.copyEnd s c cstat).MemOk := by
  unfold State.copyEnd
  grind [State.mem_afterEnd, State.mem_gridRetire, State.mem_updGrid, State.mem_updPart, State.mem_updWave]

theorem State.memOk_copyStatus {s : State} (c : Copy) (st : Nat) (hs : s.MemOk) : (State.copyStatus s c st).MemOk := by
  unfold State.copyStatus
  grind [State.memOk_copyEnd, State.memOk_copyHold, State.memOk_release, State.memOk_spoilBytes, State.memOk_vwrite]

theorem State.memOk_copyGo {s : State} (c : Copy) (hs : s.MemOk) : (State.copyGo s c).MemOk := by
  unfold State.copyGo
  grind [State.memOk_copyRun, State.memOk_copyStatus, State.memOk_setCopy]

theorem memOk_execCopyComplete (id : Nat) {s : State} {u' : State} (hs : s.MemOk) (e : execCopyComplete id s = .next u') : u'.MemOk := by
  unfold execCopyComplete at e
  grind [State.memOk_copyEnd, State.memOk_copyGo, State.memOk_copyHold, State.memOk_vtouch]

theorem State.memOk_cpyPerform {s : State} (t : Team) (w : Nat) (e : EndOp) (bs : List Byte) (sys : Bool)
    (hs : s.MemOk) : (State.cpyPerform s t w e bs sys).MemOk := by
  unfold State.cpyPerform
  grind [State.mem_updWave]

theorem memOk_execAqstart (h : Hdr) (d : Opd) (ev : Option (BitVec 3)) {s : State} {u' : State}
    (hs : s.MemOk) (e : execAqstart h d ev s = .next u') : u'.MemOk := by
  unfold execAqstart at e
  refine memOk_issue _ _ _ _ (fun c u v hu hk => ?_) hs e
  grind [State.memOk_done, State.memOk_updRun, State.mem_updTeam]

theorem memOk_execAqstop (h : Hdr) (d : Opd) (ev : Option (BitVec 3)) {s : State} {u' : State}
    (hs : s.MemOk) (e : execAqstop h d ev s = .next u') : u'.MemOk := by
  unfold execAqstop at e
  refine memOk_issue _ _ _ _ (fun c u v hu hk => ?_) hs e
  grind [State.memOk_done, State.memOk_updRun]

theorem memOk_execAqstopQry (h : Hdr) (d a : Opd) (ev : Option (BitVec 3)) {s : State} {u' : State}
    (hs : s.MemOk) (e : execAqstopQry h d a ev s = .next u') : u'.MemOk := by
  unfold execAqstopQry at e
  refine memOk_issue _ _ _ _ (fun c u v hu hk => ?_) hs e
  grind [State.memOk_done]

theorem State.memOk_streamTouch {s : State} (t : Team) (esz : Nat) (addrs : List Nat)
    (hs : s.MemOk) : (State.streamTouch s t esz addrs).MemOk := by
  unfold State.streamTouch
  grind [State.memOk_touch, memOk_foldl]

theorem State.memOk_pushes (tag : Nat) (k : KObj) : ∀ (n : Nat) {s : State}, s.MemOk → (State.pushes tag k n s).MemOk
  | 0, _, hs => hs
  | n + 1, s, hs => by
    have ih := @memOk_pushes tag k n
    unfold pushes
    grind [memOk_streamTouch, mem_updTeam]

theorem memOk_execStreamPush (tag : Nat) {s : State} {u' : State} (hs : s.MemOk) (e : execStreamPush tag s = .next u') : u'.MemOk := by
  unfold execStreamPush at e
  grind [State.memOk_pushes]

theorem State.memOk_engineCommit {s : State} (t : Team) (r : Region) (hs : s.MemOk) : (State.engineCommit s t r).MemOk := by
  unfold State.engineCommit
  grind [State.memOk_dropLines, State.mem_updPart, State.mem_updTeam]

/-! ### Quant.lean -/

theorem State.memOk_bufferEng {s : State} (t : Team) (w rid : Nat) (bs : List BufW) {u' : State}
    (hs : s.MemOk) (e : State.bufferEng s t w rid bs = .ok u') : u'.MemOk := by
  unfold State.bufferEng at e
  grind [State.memOk_spoilBytes, State.mem_updWave]

theorem memOk_execQst (h : Hdr) (d a b c : Opd) (f : BitVec 5) (mode : QMode) (ev : Option (BitVec 3)) {s : State} {u' : State}
    (hs : s.MemOk) (e : execQst h d a b c f mode ev s = .next u') : u'.MemOk := by
  unfold execQst at e
  refine memOk_issue _ _ _ _ (fun c u v hu hk => ?_) hs e
  grind [State.memOk_start]

theorem State.memOk_engBad {s : State} (tag w : Nat) (wv : Wave) (q : Pend) (kinds : Nat) (x0 : Bad)
    (hs : s.MemOk) : (State.engBad s tag w wv q kinds x0).MemOk := by
  unfold State.engBad
  grind [State.memOk_pageFault, State.memOk_pendTrap]

theorem memOk_execQstComplete (tag w id : Nat) {s u' : State} (hs : s.MemOk) (e : execQstComplete tag w id s = .next u') : u'.MemOk := by
  unfold execQstComplete at e
  refine memOk_withPend (fun t wv p => ?_) e
  split
  · exact hs
  · dsimp only
    split
    · exact State.memOk_engBad _ _ _ _ _ _ hs
    · split
      · exact State.memOk_engBad _ _ _ _ _ _ hs
      · split
        · exact State.memOk_pendTrap _ _ _ _ _ _ hs
        · split
          · exact State.memOk_pendTrap _ _ _ _ _ _ hs
          · split
            · exact State.memOk_pageFaultK _ _ _ _ _ hs
            · exact State.memOk_engBad _ _ _ _ _ _ hs
            · split
              · exact State.memOk_pendTrap _ _ _ _ _ _ hs
              · exact hs
              · next hb =>
                have hu := State.memOk_bufferEng _ _ _ _ (State.memOk_runTouch _ _ _ _ hs) hb
                exact hu

/-! ### Matrix.lean -/

theorem State.memOk_engTouch {s : State} (v : Via) (t : Team) (scr : Bool) (a n : Nat) (sys : Bool)
    (hs : s.MemOk) : (State.engTouch s v t scr a n sys).MemOk := by
  unfold State.engTouch
  grind [State.memOk_touch]

theorem State.memOk_engStop {s : State} (tag w : Nat) (t : Team) (wv : Wave) (q : Pend) (scr : Bool) (x0 : Bad)
    (hs : s.MemOk) : (State.engStop s tag w t wv q scr x0).MemOk := by
  unfold State.engStop
  grind [State.memOk_pageFault, State.memOk_pendTrap]

theorem State.memOk_tileTouch {s : State} (v : Via) (t : Team) (sys : Bool) (d : BDesc) (list : List Byte)
    (hs : s.MemOk) : (State.tileTouch s v t sys d list).MemOk := by
  unfold State.tileTouch
  grind [State.memOk_engTouch]

theorem State.memOk_setLatch {s : State} (x : Latch) (hs : s.MemOk) : (State.setLatch s x).MemOk := by
  unfold State.setLatch
  grind

theorem memOk_execMloadb (h : Hdr) (a b : Opd) (f : BitVec 5) (scr : Bool) (ev : Option (BitVec 3)) {s : State} {u' : State}
    (hs : s.MemOk) (e : execMloadb h a b f scr ev s = .next u') : u'.MemOk := by
  unfold execMloadb at e
  refine memOk_issue _ _ _ _ (fun c u v hu hk => ?_) hs e
  grind [State.memOk_onWave, State.memOk_start]

theorem memOk_execMloadbComplete (tag w id : Nat) {s : State} {u' : State}
    (hs : s.MemOk) (e : execMloadbComplete tag w id s = .next u') : u'.MemOk := by
  unfold execMloadbComplete at e
  refine memOk_withPend (fun t wv q => ?_) e
  grind [State.memOk_engStop, State.memOk_pendTrap, State.memOk_setLatch, State.memOk_tileTouch, State.mem_finishPend]

theorem memOk_execMma (h : Hdr) (a b : Opd) (nkm : BitVec 4) (bank : Bool) (ev : Option (BitVec 3)) {s : State} {u' : State}
    (hs : s.MemOk) (e : execMma h a b nkm bank ev s = .next u') : u'.MemOk := by
  unfold execMma at e
  refine memOk_issue _ _ _ _ (fun c u v hu hk => ?_) hs e
  grind [State.memOk_onWave, State.memOk_start, memOk_foldl]

theorem memOk_execMmaComplete (tag w id : Nat) {s u' : State} (hs : s.MemOk) (e : execMmaComplete tag w id s = .next u') : u'.MemOk := by
  unfold execMmaComplete at e
  split at e
  · split at e
    · cases e
    · refine memOk_withPend (fun t wv q => ?_) e
      split
      · exact hs
      · grind [State.memOk_engStop, State.memOk_pendTrap, State.memOk_setLatch, State.memOk_tileTouch, State.mem_finishPend, State.mem_updWave]
  · cases e

theorem memOk_execMres (h : Hdr) (d : Opd) (g : BitVec 2) (bank : Bool) (ev : Option (BitVec 3)) {s : State} {u' : State}
    (hs : s.MemOk) (e : execMres h d g bank ev s = .next u') : u'.MemOk := by
  unfold execMres at e
  refine memOk_issue _ _ _ _ (fun c u v hu hk => ?_) hs e
  grind [State.memOk_onWave, State.memOk_result, State.memOk_start, memOk_foldl]

theorem memOk_execMresComplete (tag w id : Nat) {s : State} {u' : State}
    (hs : s.MemOk) (e : execMresComplete tag w id s = .next u') : u'.MemOk := by
  unfold execMresComplete at e
  refine memOk_withPend (fun t wv q => ?_) e
  grind [State.mem_finishPend]

theorem memOk_execMzero (h : Hdr) (bank bd : Bool) {s : State} {u' : State}
    (hs : s.MemOk) (e : execMzero h bank bd s = .next u') : u'.MemOk := by
  unfold execMzero at e
  refine memOk_issue _ _ _ _ (fun c u v hu hk => ?_) hs e
  grind [State.memOk_onWave]

theorem memOk_execMfence (h : Hdr) (sc : Scope) {s : State} {u' : State} (hs : s.MemOk) (e : execMfence h sc s = .next u') : u'.MemOk := by
  unfold execMfence at e
  refine memOk_issue _ _ _ _ (fun c u v hu hk => ?_) hs e
  grind [State.memOk_onWave]

theorem State.memOk_fenceAcquire {s : State} (hs : s.MemOk) : (State.fenceAcquire s).MemOk := by
  unfold State.fenceAcquire
  grind [State.memOk_acquire, State.mem_updWave, memOk_foldl]

theorem memOk_execMwait (h : Hdr) {s : State} {u' : State} (hs : s.MemOk) (e : execMwait h s = .next u') : u'.MemOk := by
  unfold execMwait at e
  refine memOk_issue _ _ _ _ (fun c u v hu hk => ?_) hs e
  grind [State.memOk_onWave]

theorem memOk_execHad (h : Hdr) (a b c : Opd) (p : HadP) (ty : HadTy) (ev : Option (BitVec 3)) {s : State} {u' : State}
    (hs : s.MemOk) (e : execHad h a b c p ty ev s = .next u') : u'.MemOk := by
  unfold execHad at e
  refine memOk_issue _ _ _ _ (fun c u v hu hk => ?_) hs e
  grind [State.memOk_start]

theorem memOk_execHadComplete (tag w id : Nat) {s : State} {u' : State}
    (hs : s.MemOk) (e : execHadComplete tag w id s = .next u') : u'.MemOk := by
  unfold execHadComplete at e
  refine memOk_withPend (fun t wv q => ?_) e
  grind [State.memOk_engStop, State.memOk_spoilBytes, State.mem_finishPend, State.mem_updWave, memOk_foldl]

theorem memOk_execTwalk (h : Hdr) (d a b : Opd) (n : WDim) (ev : Option (BitVec 3)) {s : State} {u' : State}
    (hs : s.MemOk) (e : execTwalk h d a b n ev s = .next u') : u'.MemOk := by
  unfold execTwalk at e
  refine memOk_issue _ _ _ _ (fun c u v hu hk => ?_) hs e
  grind [State.memOk_done, State.memOk_onWave]

theorem memOk_execTnext (h : Hdr) (d : Opd) (ev : Option (BitVec 3)) {s : State} {u' : State}
    (hs : s.MemOk) (e : execTnext h d ev s = .next u') : u'.MemOk := by
  unfold execTnext at e
  refine memOk_issue _ _ _ _ (fun c u v hu hk => ?_) hs e
  grind [State.memOk_start]

theorem State.memOk_tileSet {s : State} (v : Via) (t : Team) (sys : Bool) (k : Walk) (x : Nat × Nat × Nat) {b : Bool} {u' : State}
    (hs : s.MemOk)
    (e : s.tileSet v t sys k x = .ok (b, u')) : u'.MemOk := by
  unfold tileSet at e
  split at e
  · cases e; exact hs
  · next a _ =>
    cases hr : s.engRead v t 0 false (k.maskAt a x) 8 sys with
    | error x => rw [hr] at e; cases e
    | ok bs => rw [hr] at e; cases e; exact memOk_engTouch _ _ _ _ _ _ hs

theorem State.memOk_findTile (v : Via) (t : Team) (sys : Bool) (k : Walk) {r : Option (Nat × Nat × Nat)} {u' : State} :
    ∀ (n i : Nat) {s : State}, s.MemOk → State.findTile v t sys k n i s = .ok (r, u') → u'.MemOk
  | 0, _, _, hs, e => by cases e; exact hs
  | n + 1, i, s, hs, e => by
    have ih := @memOk_findTile v t sys k r u' n
    unfold findTile at e
    grind [memOk_tileSet]

theorem memOk_execTnextComplete (tag w id pick : Nat) {s : State} {u' : State}
    (hs : s.MemOk) (e : execTnextComplete tag w id pick s = .next u') : u'.MemOk := by
  unfold execTnextComplete at e
  refine memOk_withPend (fun t wv q => ?_) e
  grind [State.memOk_engStop, State.memOk_findTile, State.mem_finishPend, State.mem_updWave]

/-! ### Beam.lean -/

theorem State.memOk_castDone {s : State} (tag cast : Nat) (hs : s.MemOk) : (State.castDone s tag cast).MemOk := by
  unfold State.castDone
  grind [State.mem_updTeam, State.mem_updWave]

theorem State.memOk_seenTouch {s : State} (t : Team) (sys : Bool) (new : Seen) (hs : s.MemOk) : (State.seenTouch s t sys new).MemOk := by
  unfold State.seenTouch
  grind [State.memOk_engTouch, memOk_foldl]

theorem State.memOk_runRec {s : State} (tag n : Nat) (hs : s.MemOk) : (State.runRec s tag n).MemOk := by
  unfold State.runRec
  grind [State.memOk_enterFaults, State.memOk_seenTouch, State.mem_updTeam]

theorem memOk_poolRead (i : Instr) {s : State} (h : Ctx → Nat → Word) {u' : State}
    (hs : s.MemOk) (e : poolRead i s h = .next u') : u'.MemOk := by
  unfold poolRead at e
  refine memOk_issue _ _ _ _ (fun c u v hu hk => ?_) hs e
  grind [State.memOk_putNow, State.memOk_start, State.mem_updTeam]

theorem memOk_execBfrag (h : Hdr) (d a : Opd) (ev : Option (BitVec 3)) {s : State} {u' : State}
    (hs : s.MemOk) (e : execBfrag h d a ev s = .next u') : u'.MemOk := by
  unfold execBfrag at e
  grind [memOk_poolRead]

theorem memOk_execHitget (h : Hdr) (d a : Opd) (ev : Option (BitVec 3)) {s : State} {u' : State}
    (hs : s.MemOk) (e : execHitget h d a ev s = .next u') : u'.MemOk := by
  unfold execHitget at e
  grind [memOk_poolRead]

theorem memOk_execHitgetCand (h : Hdr) (d a : Opd) (ev : Option (BitVec 3)) {s : State} {u' : State}
    (hs : s.MemOk) (e : execHitgetCand h d a ev s = .next u') : u'.MemOk := by
  unfold execHitgetCand at e
  grind [memOk_poolRead]

theorem State.memOk_wake1 {s : State} (tag w id : Nat) (hs : s.MemOk) : (State.wake1 s tag w id).MemOk := by
  unfold State.wake1
  grind [State.memOk_afterPend, State.memOk_pendTrap, State.mem_finishPend, State.mem_updTeam]

theorem State.memOk_wakeBeams {s : State} (tag : Nat) (hs : s.MemOk) : (State.wakeBeams s tag).MemOk := by
  unfold State.wakeBeams
  grind [State.memOk_castDone, State.memOk_wake1, memOk_foldl]

theorem memOk_execBeamTreeSettled (tag n : Nat) {s : State} {u' : State}
    (hs : s.MemOk) (e : execBeamTreeSettled tag n s = .next u') : u'.MemOk := by
  unfold execBeamTreeSettled at e
  grind [State.memOk_runRec, State.memOk_wakeBeams]

theorem memOk_execRaysSettled (tag cast : Nat) {s : State} {u' : State}
    (hs : s.MemOk) (e : execRaysSettled tag cast s = .next u') : u'.MemOk := by
  unfold execRaysSettled at e
  grind [State.memOk_runRec, State.memOk_wakeBeams, memOk_foldl]

theorem memOk_execBvhset (h : Hdr) (d a : Opd) (ev : Option (BitVec 3)) {s : State} {u' : State}
    (hs : s.MemOk) (e : execBvhset h d a ev s = .next u') : u'.MemOk := by
  unfold execBvhset at e
  refine memOk_issue _ _ _ _ (fun c u v hu hk => ?_) hs e
  grind [State.memOk_engTouch, State.memOk_onWave, State.memOk_start]

theorem memOk_execBvhsetComplete (tag w id : Nat) {s : State} {u' : State}
    (hs : s.MemOk) (e : execBvhsetComplete tag w id s = .next u') : u'.MemOk := by
  unfold execBvhsetComplete at e
  refine memOk_withPend (fun t wv q => ?_) e
  grind [State.memOk_engStop, State.memOk_engTouch, State.mem_finishPend, State.mem_updWave]

theorem memOk_execBeam (h : Hdr) (d a : Opd) (ev : Option (BitVec 3)) {s : State} {u' : State}
    (hs : s.MemOk) (e : execBeam h d a ev s = .next u') : u'.MemOk := by
  unfold execBeam at e
  refine memOk_issue _ _ _ _ (fun c u v hu hk => ?_) hs e
  grind [State.memOk_endRuns, State.memOk_start]

theorem memOk_execRays (h : Hdr) (d a b : Opd) (first sh : Bool) (ev : Option (BitVec 3)) {s : State} {u' : State}
    (hs : s.MemOk) (e : execRays h d a b first sh ev s = .next u') : u'.MemOk := by
  unfold execRays at e
  refine memOk_issue _ _ _ _ (fun c u v hu hk => ?_) hs e
  grind [State.memOk_endRuns, State.memOk_start]

theorem State.memOk_dropPend {s : State} (tag w iss : Nat) (hs : s.MemOk) : (State.dropPend s tag w iss).MemOk := by
  unfold State.dropPend
  grind [State.mem_updWave]

theorem State.memOk_lower {s : State} (tag w : Nat) (ev : Option Nat) (hs : s.MemOk) : (State.lower s tag w ev).MemOk := by
  unfold State.lower
  grind [State.mem_updWave]

theorem State.memOk_beamPerform {s : State} (t : Team) (w : Nat) (e : EndOp) (d : Opd) (src : List Byte) (sys : Bool)
    (hs : s.MemOk) : (State.beamPerform s t w e d src sys).MemOk := by
  unfold State.beamPerform
  grind [State.memOk_dropPend, State.memOk_lower, State.memOk_putRegs, State.mem_updTeam]

theorem State.memOk_raysPerform {s : State} (t : Team) (w : Nat) (e : EndOp) (d : Opd) (first sh sys : Bool)
    (hs : s.MemOk) : (State.raysPerform s t w e d first sh sys).MemOk := by
  unfold State.raysPerform
  grind [State.memOk_castDone, State.memOk_dropPend, State.memOk_lower, State.memOk_putRegs, State.mem_updTeam, memOk_foldl]

theorem memOk_execBdone (h : Hdr) (a : Opd) {s : State} {u' : State} (hs : s.MemOk) (e : execBdone h a s = .next u') : u'.MemOk := by
  unfold execBdone at e
  refine memOk_issue _ _ _ _ (fun c u v hu hk => ?_) hs e
  grind [State.memOk_updRun]

theorem memOk_execHitacc (h : Hdr) (a b d : Opd) {s : State} {u' : State}
    (hs : s.MemOk) (e : execHitacc h a b d s = .next u') : u'.MemOk := by
  unfold execHitacc at e
  refine memOk_issue _ _ _ _ (fun c u v hu hk => ?_) hs e
  grind [State.memOk_onWave]

theorem State.memOk_beamCommit {s : State} (t : Team) (r : Region) (hs : s.MemOk) : (State.beamCommit s t r).MemOk := by
  unfold State.beamCommit
  grind [State.memOk_wakeBeams, State.mem_updTeam, memOk_foldl]

theorem memOk_texIssue (i : Instr) {s : State} (a b d : Opd) {u' : State}
    (hs : s.MemOk) (e : texIssue i s a b d = .next u') : u'.MemOk := by
  unfold texIssue at e
  refine memOk_issue _ _ _ _ (fun c u v hu hk => ?_) hs e
  grind [State.memOk_start]

theorem memOk_execTex (h : Hdr) (d a b c : Opd) (nr : Bool) (ev : Option (BitVec 3)) {s : State} {u' : State}
    (hs : s.MemOk) (e : execTex h d a b c nr ev s = .next u') : u'.MemOk := by
  unfold execTex at e
  grind [memOk_texIssue]

theorem memOk_execTexq (h : Hdr) (d a b c : Opd) (ev : Option (BitVec 3)) {s : State} {u' : State}
    (hs : s.MemOk) (e : execTexq h d a b c ev s = .next u') : u'.MemOk := by
  unfold execTexq at e
  grind [memOk_texIssue]

theorem memOk_execTexComplete (tag w id : Nat) {s : State} {u' : State}
    (hs : s.MemOk) (e : execTexComplete tag w id s = .next u') : u'.MemOk := by
  unfold execTexComplete at e
  refine memOk_withPend (fun t wv q => ?_) e
  grind [State.memOk_pageFault, State.memOk_pendTrap, State.memOk_touch, State.mem_finishPend, State.mem_updWave, memOk_foldl]

theorem State.memOk_texWord {s : State} (t : Team) (sys : Bool) (a : Nat)
    (hs : s.MemOk) : (s.texWord t sys a).2.MemOk := memOk_touch _ _ _ _ _ _ _ _ hs

/-- The effects of a miss are words read at .dev and writes there. -/
theorem State.memOk_texMiss {s : State} (t : Team) (sys : Bool) (m : TexMiss) (hs : s.MemOk) : (s.texMiss t sys m).MemOk := by
  have wr {u : State} (a : Nat) (bs : List Byte) (hu : u.MemOk) : ((u.writeBy (t.via .dev) t.part t.asid a sys bs).tableWrite t.asid a bs.length).MemOk :=
    memOk_tableWrite _ _ _ _ (memOk_writeBy _ _ _ _ _ _ hu)
  have rd {u : State} (a : Nat) (hu : u.MemOk) : (u.texWord t sys a).2.MemOk := memOk_texWord t sys a hu
  unfold texMiss
  extract_lets w s1
  have h1 : s1.MemOk := by
    unfold s1 w
    split
    · exact wr _ _ (rd _ hs)
    · exact hs
  clear_value s1
  split
  · exact h1
  · extract_lets x r s2 e s3
    have hr : r.2.MemOk := rd _ (rd _ h1)
    clear_value r x
    split
    · exact hr
    · exact wr _ _ (memOk_release _ _ (wr _ _ (wr _ _ hr)))

/-! ### System.lean -/

theorem memOk_csrIssue (i : Instr) {s : State} (a : Opd) {u' : State} (hs : s.MemOk) (e : csrIssue i s a = .next u') : u'.MemOk := by
  unfold csrIssue at e
  refine memOk_issue _ _ _ _ (fun c u v hu hk => ?_) hs e
  grind [State.memOk_start]

theorem memOk_execCsrw (h : Hdr) (a : Opd) (reg : BitVec 12) {s : State} {u' : State}
    (hs : s.MemOk) (e : execCsrw h a reg s = .next u') : u'.MemOk := by
  unfold execCsrw at e
  grind [memOk_csrIssue]

theorem memOk_execCsrwSet (h : Hdr) (a : Opd) (reg : BitVec 12) {s : State} {u' : State}
    (hs : s.MemOk) (e : execCsrwSet h a reg s = .next u') : u'.MemOk := by
  unfold execCsrwSet at e
  grind [memOk_csrIssue]

theorem memOk_execCsrwClr (h : Hdr) (a : Opd) (reg : BitVec 12) {s : State} {u' : State}
    (hs : s.MemOk) (e : execCsrwClr h a reg s = .next u') : u'.MemOk := by
  unfold execCsrwClr at e
  grind [memOk_csrIssue]

theorem memOk_csrWrite {mn : String} {s : State} {tag w id : Nat} {f : Nat → Bool} {k : Nat → Nat → DWord → Option State} {u' : State}
    (hs : s.MemOk) (hk : ∀ n p v u, k n p v = some u → u.MemOk) (e : csrWrite mn s tag w id f k = .next u') : u'.MemOk := by
  unfold csrWrite at e
  split at e
  · split at e
    · split at e
      · split at e
        · cases e
        · dsimp only at e
          split at e
          · next hv =>
            cases e
            have hnew := hk _ _ _ _ hv
            exact State.memOk_afterPend _ _ hnew
          · cases e; exact State.memOk_takeTrap _ _ _ _ _ hs
      · cases e
    · cases e
  · cases e

theorem memOk_execFmodeWrite (tag w id : Nat) {s : State} {u' : State}
    (hs : s.MemOk) (e : execFmodeWrite tag w id s = .next u') : u'.MemOk := by
  unfold execFmodeWrite at e
  refine memOk_csrWrite hs (fun n p v u hk => ?_) e
  grind [State.mem_updWave]

theorem memOk_execFflagsWrite (tag w id : Nat) {s : State} {u' : State}
    (hs : s.MemOk) (e : execFflagsWrite tag w id s = .next u') : u'.MemOk := by
  unfold execFflagsWrite at e
  refine memOk_csrWrite hs (fun n p v u hk => ?_) e
  grind [State.mem_updWave]

theorem memOk_execAsidvWrite (tag w id : Nat) {s : State} {u' : State}
    (hs : s.MemOk) (e : execAsidvWrite tag w id s = .next u') : u'.MemOk := by
  unfold execAsidvWrite at e
  refine memOk_csrWrite hs (fun n p v u hk => ?_) e
  grind

theorem memOk_execPcapWrite (tag w id : Nat) {s : State} {u' : State}
    (hs : s.MemOk) (e : execPcapWrite tag w id s = .next u') : u'.MemOk := by
  unfold execPcapWrite at e
  refine memOk_csrWrite hs (fun n p v u hk => ?_) e
  grind [State.mem_updTeam]

theorem State.memOk_loseRange {s : State} (p : Nat) (hs : s.MemOk) : (State.loseRange s p).MemOk := by
  unfold State.loseRange
  grind [State.mem_memLose]

theorem State.memOk_disturb {s : State} (p : Nat) (hs : s.MemOk) : (State.disturb s p).MemOk := by
  unfold State.disturb
  grind [State.mem_updPart]

theorem State.memOk_spillAll {s : State} (p : Nat) (hs : s.MemOk) : (State.spillAll s p).MemOk := by
  unfold State.spillAll
  grind [State.memOk_postError, State.memOk_spillKey, memOk_foldl]

theorem memOk_execPqmaskWrite (tag w id : Nat) {s : State} {u' : State}
    (hs : s.MemOk) (e : execPqmaskWrite tag w id s = .next u') : u'.MemOk := by
  unfold execPqmaskWrite at e
  refine memOk_csrWrite hs (fun n p v u hk => ?_) e
  grind [State.memOk_disturb, State.mem_updPart]

theorem memOk_execPwaysWrite (tag w id : Nat) {s : State} {u' : State}
    (hs : s.MemOk) (e : execPwaysWrite tag w id s = .next u') : u'.MemOk := by
  unfold execPwaysWrite at e
  refine memOk_csrWrite hs (fun n p v u hk => ?_) e
  grind [State.memOk_dropLines, State.mem_updPart]

theorem memOk_execNbndWrite (tag w id : Nat) {s : State} {u' : State}
    (hs : s.MemOk) (e : execNbndWrite tag w id s = .next u') : u'.MemOk := by
  unfold execNbndWrite at e
  refine memOk_csrWrite hs (fun n p v u hk => ?_) e
  grind [State.memOk_disturb, State.memOk_spillAll, State.mem_updPart]

theorem memOk_execPrsvWrite (tag w id : Nat) {s : State} {u' : State}
    (hs : s.MemOk) (e : execPrsvWrite tag w id s = .next u') : u'.MemOk := by
  unfold execPrsvWrite at e
  refine memOk_csrWrite hs (fun n p v u hk => ?_) e
  grind [State.mem_updPart]

theorem memOk_execEnergyWrite (tag w id : Nat) {s : State} {u' : State}
    (hs : s.MemOk) (e : execEnergyWrite tag w id s = .next u') : u'.MemOk := by
  unfold execEnergyWrite at e
  refine memOk_csrWrite hs (fun n p v u hk => ?_) e
  grind [State.mem_updPart]

theorem State.memOk_plainWrite {s : State} (n p : Nat) (x : DWord) (hs : s.MemOk) : (State.plainWrite s n p x).MemOk := by
  unfold State.plainWrite
  grind [State.memOk_disturb, State.mem_updPart]

theorem State.memOk_pageWrite {s : State} (p off : Nat) (v : DWord) (hs : s.MemOk) : (State.pageWrite s p off v).MemOk := by
  unfold State.pageWrite
  grind [State.mem_updPart]

theorem State.memOk_mgmtWrite {s : State} (off : Nat) (v : DWord) (hs : s.MemOk) : (State.mgmtWrite s off v).MemOk := by
  unfold State.mgmtWrite
  grind

theorem memOk_execRegisterWrite (r : RegWrite) (v : BitVec 64) {s : State} {u' : State}
    (hs : s.MemOk) (e : execRegisterWrite r v s = .next u') : u'.MemOk := by
  unfold execRegisterWrite at e
  grind [State.memOk_mgmtWrite, State.memOk_pageWrite, State.memOk_plainWrite, memOk_csrWrite]

theorem memOk_rinvIssue (i : Instr) {s : State} (a : Opd) (ev : Option (BitVec 3)) (y z : Ctx → List DWord) {u' : State}
    (hs : s.MemOk) (e : rinvIssue i s a ev y z = .next u') : u'.MemOk := by
  unfold rinvIssue at e
  refine memOk_issue _ _ _ _ (fun c u v hu hk => ?_) hs e
  grind [State.memOk_start]

theorem memOk_execRinv (h : Hdr) (d a : Opd) (ev : Option (BitVec 3)) {s : State} {u' : State}
    (hs : s.MemOk) (e : execRinv h d a ev s = .next u') : u'.MemOk := by
  unfold execRinv at e
  grind [memOk_rinvIssue]

theorem memOk_execRinvRange (h : Hdr) (d a b c : Opd) (ev : Option (BitVec 3)) {s : State} {u' : State}
    (hs : s.MemOk) (e : execRinvRange h d a b c ev s = .next u') : u'.MemOk := by
  unfold execRinvRange at e
  grind [memOk_rinvIssue]

theorem State.memOk_invalidate {s : State} (asid lo hi : Nat) (hs : s.MemOk) : (State.invalidate s asid lo hi).MemOk := by
  unfold State.invalidate
  grind [State.memOk_combine, State.memOk_dropLines]

theorem memOk_execRinvComplete (tag w id : Nat) {s : State} {u' : State}
    (hs : s.MemOk) (e : execRinvComplete tag w id s = .next u') : u'.MemOk := by
  unfold execRinvComplete at e
  refine memOk_withPend (fun t wv q => ?_) e
  grind [State.memOk_invalidate, State.memOk_release, State.mem_finishPend]

theorem State.memOk_preempt {s : State} (gid : Nat) (hs : s.MemOk) : (State.preempt s gid).MemOk := by
  unfold State.preempt
  grind [State.mem_abort, State.mem_flushSfu, State.mem_updGang, State.mem_updWave, memOk_foldl]

theorem memOk_execQctlQ (h : Hdr) (d a : Opd) (ev : Option (BitVec 3)) {s : State} {u' : State}
    (hs : s.MemOk) (e : execQctlQ h d a ev s = .next u') : u'.MemOk := by
  unfold execQctlQ at e
  refine memOk_issue _ _ _ _ (fun c u v hu hk => ?_) hs e
  grind [State.memOk_done, State.memOk_preempt, State.memOk_start, State.mem_updPart, memOk_foldl]

theorem State.memOk_qctlSettle {s : State} (hs : s.MemOk) : (State.qctlSettle s).MemOk := by
  unfold State.qctlSettle
  grind [State.memOk_afterPend, State.mem_finishPend, memOk_foldl]

theorem memOk_execQctlR (h : Hdr) (d a : Opd) (ev : Option (BitVec 3)) {s : State} {u' : State}
    (hs : s.MemOk) (e : execQctlR h d a ev s = .next u') : u'.MemOk := by
  unfold execQctlR at e
  refine memOk_issue _ _ _ _ (fun c u v hu hk => ?_) hs e
  grind [State.memOk_done, State.memOk_loseRange, State.mem_updPart]

theorem memOk_execQctlQry (h : Hdr) (d a : Opd) (ev : Option (BitVec 3)) {s : State} {u' : State}
    (hs : s.MemOk) (e : execQctlQry h d a ev s = .next u') : u'.MemOk := by
  unfold execQctlQry at e
  refine memOk_issue _ _ _ _ (fun c u v hu hk => ?_) hs e
  grind [State.memOk_putNow, memOk_foldl]

theorem State.memOk_trapPerform {s : State} (t : Team) (w : Nat) (e : EndOp) (hs : s.MemOk) : (State.trapPerform s t w e).MemOk := by
  unfold State.trapPerform
  grind [State.memOk_takeTrap]

theorem State.memOk_rtePerform {s : State} (t : Team) (w : Nat) (e : EndOp) (start : DWord) (f : Nat → Nat → List Byte)
    (hs : s.MemOk) : (State.rtePerform s t w e start f).MemOk := by
  unfold State.rtePerform
  grind [State.memOk_start, State.memOk_takeTrap, State.mem_abort, State.mem_updWave]

theorem memOk_execEnrd (h : Hdr) (d : Opd) {s : State} {u' : State} (hs : s.MemOk) (e : execEnrd h d s = .next u') : u'.MemOk := by
  unfold execEnrd at e
  refine memOk_issue _ _ _ _ (fun c u v hu hk => ?_) hs e
  grind [State.memOk_result, State.mem_meterTeam]

/-! ### Launch.lean -/

theorem State.memOk_agentTouch {s : State} (p asid va n : Nat) (hs : s.MemOk) : (State.agentTouch s p asid va n).MemOk := by
  unfold State.agentTouch
  grind [State.memOk_touch]

theorem State.memOk_nodeTouch {s : State} (p k : Nat) (hs : s.MemOk) : (State.nodeTouch s p k).MemOk := by
  unfold State.nodeTouch
  grind [State.memOk_agentTouch]

theorem State.memOk_nodeWrite {s : State} (p k o : Nat) (bs : List Byte) (hs : s.MemOk) : (State.nodeWrite s p k o bs).MemOk := by
  unfold State.nodeWrite
  grind [State.memOk_writeRaw]

theorem State.memOk_agentFault {s : State} (p asid : Nat) (ps : List Nat) (kinds who : Nat)
    (hs : s.MemOk) : (State.agentFault s p asid ps kinds who).MemOk := by
  unfold State.agentFault
  grind [State.memOk_enterFaults, State.mem_updPart]

theorem State.memOk_queueCompl {s : State} (p : Nat) (r : LRec) (queue asid : Nat)
    (hs : s.MemOk) : (State.queueCompl s p r queue asid).MemOk := by
  unfold State.queueCompl
  grind [State.mem_updPart]

theorem State.memOk_nodeReady {s : State} (p k queue : Nat) (r : LRec) (sig : Bool)
    (hs : s.MemOk) : (State.nodeReady s p k queue r sig).MemOk := by
  unfold State.nodeReady
  grind [State.memOk_nodeWrite, State.memOk_queueCompl, State.mem_updPart]

theorem State.memOk_nodeDec {s : State} (p k : Nat) {u' : State} (hs : s.MemOk) (e : State.nodeDec s p k = .ok u') : u'.MemOk := by
  unfold State.nodeDec at e
  grind [State.memOk_nodeReady, State.memOk_nodeTouch, State.memOk_nodeWrite]

theorem memOk_execLaunch (h : Hdr) (d a : Opd) {s : State} {u' : State} (hs : s.MemOk) (e : execLaunch h d a s = .next u') : u'.MemOk := by
  unfold execLaunch at e
  refine memOk_issue _ _ _ _ (fun c u v hu hk => ?_) hs e
  grind [State.memOk_endRuns]

theorem State.memOk_launchTouch {s : State} (t : Team) (w : Nat) (sys : Bool) (e : EndOp) (r : LRec)
    (hs : s.MemOk) : (State.launchTouch s t w sys e r).MemOk := by
  unfold State.launchTouch
  grind [State.memOk_vtouch]

theorem State.memOk_launchPerform {s : State} (t : Team) (w : Nat) (e : EndOp) (d : Opd) (st : Nat) (r : LRec)
    (hs : s.MemOk) : (State.launchPerform s t w e d st r).MemOk := by
  unfold State.launchPerform
  grind [State.memOk_answer, State.memOk_release, State.mem_updPart]

theorem State.memOk_wchildPerform {s : State} (t : Team) (w : Nat) (sls : List Nat) (e : EndOp) (d : Opd)
    (hs : s.MemOk) : (State.wchildPerform s t w sls e d).MemOk := by
  unfold State.wchildPerform
  grind [State.memOk_answer, State.mem_updWave]

theorem State.memOk_gsigPerform {s : State} (t : Team) (w : Nat) (e : EndOp) (d : Opd)
    (hs : s.MemOk) : (State.gsigPerform s t w e d).MemOk := by
  unfold State.gsigPerform
  grind [State.memOk_answer, State.memOk_nodeTouch, State.memOk_nodeWrite, State.memOk_queueCompl, State.memOk_release]

/-! ### Commit.lean -/

theorem State.memOk_frameTouch {s : State} (t : Team) (wv : Wave) (hs : s.MemOk) : (s.frameTouch t wv).MemOk := by
  unfold frameTouch
  cases s.gang? t.gid with
  | none => exact hs
  | some g => 
    dsimp only [Option.elim]
    refine memOk_foldl (fun u x hu => ?_) _ hs
    exact memOk_touch _ _ _ _ _ _ _ _ hu

theorem State.memOk_commitFaults {s : State} (t : Team) (w : Nat) (fs : List Found)
    (hs : s.MemOk) : (State.commitFaults s t w fs).MemOk := by
  unfold State.commitFaults
  grind [State.memOk_enterFaultsK, State.mem_updWave, memOk_foldl]

theorem State.memOk_commitStop {s : State} (t : Team) (w : Nat) (fs : List Found) (hs : s.MemOk) : (State.commitStop s t w fs).MemOk := by
  unfold State.commitStop
  grind [State.memOk_commitFaults, State.memOk_takeTrap, State.mem_abort]

theorem State.memOk_keyStop {s : State} (t : Team) (w : Nat) (g : Grp) (e : EndOp) (x0 : KeyStop)
    (hs : s.MemOk) : (State.keyStop s t w g e x0).MemOk := by
  unfold State.keyStop
  grind [State.memOk_enterFaults, State.memOk_takeTrap, State.mem_updWave, memOk_foldl]

theorem State.memOk_commitStep3 {s : State} (t : Team) (wv : Wave) (sys : Bool) (g : Grp)
    (hs : s.MemOk) : (State.commitStep3 s t wv sys g).MemOk := by
  unfold State.commitStep3
  grind [State.memOk_beamCommit, State.memOk_engineCommit, State.memOk_markLost, State.memOk_texMiss, State.memOk_visible,
    State.mem_updWave, memOk_foldl]

/-- What the wait before step 3 leaves. -/
def Ready.MemOk : Ready → Prop
  | .notYet => True
  | .stay s => s.MemOk
  | .go s _ => s.MemOk
theorem State.memOk_beforeStep3 {s : State} (t : Team) (wv : Wave) (g : Grp) (e : EndOp)
    (hs : s.MemOk) : (s.beforeStep3 t wv g e).MemOk := by
  have hstop {u : State} (x : KeyStop) (hu : u.MemOk) : (u.keyStop t wv.ix g e x).MemOk := memOk_keyStop _ _ _ _ _ hu
  unfold beforeStep3
  split
  case h_1 =>
    dsimp only
    have htry := memOk_slinTry t wv e e.lanes hs
    split
    · trivial
    · split
      · exact hstop _ htry
      · split <;> exact htry
  case h_2 =>
    split
    · exact hstop _ hs
    · split
      · exact hstop _ hs
      · next hk => exact memOk_slrstKeys _ _ _ _ hs hk
  case h_7 =>
    split
    · trivial
    · split
      · exact (memOk_enterFaults _ _ _ _ _ hs : _)
      · exact hs
  case h_3 | h_4 =>
    split
    · exact hstop _ hs
    · exact hs
  case h_5 | h_6 =>
    split
    · exact hs
    · trivial
  case h_8 => exact hs

theorem State.memOk_commitStep4 {s : State} (so : State) (t : Team) (wv : Wave) (sys : Bool) (g : Grp) (e : EndOp) (hs : s.MemOk) :
    (s.commitStep4 so t wv sys g e).MemOk := by
  unfold commitStep4
  dsimp only
  split
  · exact memOk_atomPerform _ _ _ _ _ hs
  · split
    · exact memOk_fencePerform _ _ _ hs
    · exact memOk_barArrive _ _ _ _ _ hs
    · exact memOk_barArrive _ _ _ _ _ hs
    · exact memOk_exitPerform _ _ _ hs
    · exact hs
    · exact memOk_trapPerform _ _ _ hs
    · exact memOk_rtePerform _ _ _ _ _ (memOk_frameTouch _ _ hs)
    · exact memOk_slinPerform _ _ _ _ _ _ hs
    · exact memOk_sloutPerform _ _ _ _ _ _ hs
    · exact memOk_sloutPerform _ _ _ _ _ _ hs
    · exact memOk_slqryPerform _ _ _ _ _ hs
    · exact memOk_keyPerform _ _ _ _ _ (fun _ _ => memOk_slrst1 _ _ _ _) hs
    · exact memOk_keyPerform _ _ _ _ _ (fun _ _ => memOk_slrst1 _ _ _ _) hs
    · exact memOk_launderPerform _ _ _ _ _ _ hs
    · exact memOk_launderPerform _ _ _ _ _ _ hs
    · split
      · exact memOk_launchPerform _ _ _ _ _ _ (memOk_launchTouch _ _ _ _ _ hs)
      · exact hs
    · exact memOk_wchildPerform _ _ _ _ _ hs
    · exact memOk_gsigPerform _ _ _ _ hs
    · exact memOk_beamPerform _ _ _ _ _ _ hs
    · exact memOk_raysPerform _ _ _ _ _ _ _ hs
    · split
      · exact memOk_cpyPerform _ _ _ _ _ (memOk_vtouch _ _ _ _ _ _ _ hs)
      · exact hs
    · exact hs

theorem State.memOk_commitGrp {s : State} (t : Team) (wv : Wave) (sys : Bool) (g : Grp) {u' : State} (hs : s.MemOk)
    (e : s.commitGrp t wv sys g = some u') : u'.MemOk := by
  unfold commitGrp at e
  dsimp only at e
  split at e
  · cases e; exact memOk_commitStop _ _ _ hs
  · cases hg : g.acts with
    | none =>
      simp only [hg] at e
      cases e
      exact memOk_commitStep3 _ _ _ _ hs
    | some a =>
      have hb := memOk_beforeStep3 t wv g a hs
      simp only [hg] at e
      split at e
      · cases e
      · next h => rw [h] at hb; cases e; exact hb
      · next h =>
        rw [h] at hb
        cases e
        have h3 := memOk_commitStep3 t wv sys g hb
        split
        · exact memOk_commitStep4 _ _ _ _ _ _ h3
        · exact h3

theorem memOk_execRegionCommit (tag w sl : Nat) {s : State} {u' : State}
    (hs : s.MemOk) (e : execRegionCommit tag w sl s = .next u') : u'.MemOk := by
  unfold execRegionCommit at e
  grind [State.memOk_commitGrp, State.memOk_commitStep3, State.memOk_commitStop]

/-! ### Deadlock.lean -/

theorem State.memOk_snapEntries (p asid : Nat)
    : ∀ (l : List (List Byte)) (a : Nat) {s : State}, s.MemOk → (s.snapEntries p asid a l).1.MemOk
  | [], _, _, hs => hs
  | b :: l, a, s, hs => by
    unfold snapEntries
    split
    · exact hs
    · next hw => exact memOk_snapEntries p asid l _ (memOk_writeVa _ _ _ _ _ hs hw)

theorem State.memOk_snapshot {s : State} (p : Nat) (hs : s.MemOk) : (State.snapshot s p).MemOk := by
  unfold State.snapshot
  grind [State.memOk_snapEntries, State.memOk_writeVa, State.mem_bumpSeq]

theorem memOk_execSluiceDeadlock (p : Nat) {s : State} {u' : State} (hs : s.MemOk) (e : execSluiceDeadlock p s = .next u') : u'.MemOk := by
  unfold execSluiceDeadlock at e
  grind [State.memOk_snapshot, State.memOk_takeTrap, State.mem_updPart, memOk_foldl]

/-! ### Fabric.lean -/

theorem State.memOk_migPost {s : State} (p : Nat) (m : MigWait) {u' : State}
    (hs : s.MemOk) (e : State.migPost s p m = some u') : u'.MemOk := by
  unfold State.migPost at e
  grind [State.memOk_writeVia, State.mem_bumpSeq, State.mem_ringMsix, State.mem_updPart]

theorem State.memOk_migRetry {s : State} (p : Nat) (hs : s.MemOk) : (State.migRetry s p).MemOk := by
  unfold State.migRetry
  grind [State.memOk_migPost, State.mem_updPart, memOk_foldl]

theorem State.memOk_migNotify {s : State} (p : Nat) (m : MigWait) (hs : s.MemOk) : (s.migNotify p m).MemOk := by
  unfold migNotify
  dsimp only
  split
  · exact hs
  · cases h : s.migPost p m with
    | none => exact hs
    | some u => exact memOk_migPost p m hs h

theorem State.memOk_countFill {s : State} (slice asid va p pa : Nat) (cnt : Bool)
    (hs : s.MemOk) : (State.countFill s slice asid va p pa cnt).MemOk := by
  unfold State.countFill
  grind [State.memOk_migNotify, memOk_foldl]

theorem State.memOk_flushDue {s : State} (hs : s.MemOk) : (State.flushDue s).MemOk := by
  unfold State.flushDue
  grind [State.memOk_countFill, State.memOk_memError, memOk_foldl]

theorem memOk_execMqcfgWrite (p : Nat) (v : BitVec 64) {s : State} {u' : State}
    (hs : s.MemOk) (e : execMqcfgWrite p v s = .next u') : u'.MemOk := by
  unfold execMqcfgWrite at e
  grind [State.memOk_migRetry, State.mem_updPart]

theorem memOk_execMqidxWrite (p : Nat) (v : BitVec 64) {s : State} {u' : State}
    (hs : s.MemOk) (e : execMqidxWrite p v s = .next u') : u'.MemOk := by
  unfold execMqidxWrite at e
  grind [State.memOk_migRetry, State.mem_updPart]

theorem memOk_execActhWrite (p : Nat) (v : BitVec 64) {s : State} {u' : State}
    (hs : s.MemOk) (e : execActhWrite p v s = .next u') : u'.MemOk := by
  unfold execActhWrite at e
  grind [State.mem_updPart]

theorem State.memOk_poisonSector {s : State} (pa : Nat) (hs : s.MemOk) : (State.poisonSector s pa).MemOk := by
  unfold State.poisonSector
  grind [State.memOk_memError, State.memOk_setCellBad, memOk_foldl]

theorem State.memOk_eccRead {s : State} (pa : Nat) (x0 : Sys2Proof.EccErr) (hs : s.MemOk) : (State.eccRead s pa x0).MemOk := by
  unfold State.eccRead
  grind [State.memOk_poisonSector]

theorem State.memOk_fillMiss {s : State} (m : Miss) (err : Sys2Proof.EccErr) (hs : s.MemOk) : (State.fillMiss s m err).MemOk := by
  unfold State.fillMiss
  grind [State.memOk_eccRead, State.memOk_tlbFill, State.memOk_touchPiece]

theorem memOk_execSectorFill (ix : Option Nat) (pa : Nat) (err : Sys2Proof.EccErr) {s : State} {u' : State}
    (hs : s.MemOk) (e : execSectorFill ix pa err s = .next u') : u'.MemOk := by
  unfold execSectorFill at e
  grind [State.memOk_eccRead, State.memOk_fillMiss]

theorem memOk_execSpillRefetch (slice : Nat) {s : State} {u' : State}
    (hs : s.MemOk) (e : execSpillRefetch slice s = .next u') : u'.MemOk := by
  unfold execSpillRefetch at e
  grind

theorem State.memOk_mapHolds {s : State} (f : List Hold → List Hold) (hs : s.MemOk) : (State.mapHolds s f).MemOk := by
  unfold State.mapHolds
  grind

theorem State.memOk_reenter {s : State} (p : Nat) (hs : s.MemOk) : (State.reenter s p).MemOk := by
  unfold State.reenter
  grind [State.memOk_enterFault, State.memOk_mapHolds, memOk_foldl]

theorem State.memOk_setSlotState {s : State} (p : Nat) (x : Nat × Nat) (n : Nat) {u' : State}
    (hs : s.MemOk) (e : State.setSlotState s p x n = some u') : u'.MemOk := by
  unfold State.setSlotState at e
  grind [State.memOk_putSlot]

theorem memOk_execFaultResolved (p : Nat) (slot : Nat × Nat) {s : State} {u' : State}
    (hs : s.MemOk) (e : execFaultResolved p slot s = .next u') : u'.MemOk := by
  unfold execFaultResolved at e
  grind [State.memOk_mapHolds, State.memOk_setSlotState]

theorem memOk_execFaultRecordFreed (p : Nat) (slot : Nat × Nat) {s : State} {u' : State}
    (hs : s.MemOk) (e : execFaultRecordFreed p slot s = .next u') : u'.MemOk := by
  unfold execFaultRecordFreed at e
  grind [State.memOk_reenter, State.memOk_setSlotState]

theorem memOk_execFaultSlotRetry (p : Nat) {s : State} {u' : State} (hs : s.MemOk) (e : execFaultSlotRetry p s = .next u') : u'.MemOk := by
  unfold execFaultSlotRetry at e
  grind [State.memOk_reenter, State.mem_updPart]

theorem memOk_execFqcfgWrite (p : Nat) (v : BitVec 64) {s : State} {u' : State}
    (hs : s.MemOk) (e : execFqcfgWrite p v s = .next u') : u'.MemOk := by
  unfold execFqcfgWrite at e
  grind [State.memOk_reenter, State.mem_updPart]

theorem State.memOk_devPiece {s : State} (pa : Nat) (bs : List Byte) (hs : s.MemOk) : (State.devPiece s pa bs).MemOk := by
  unfold State.devPiece
  grind [State.memOk_memPuts, State.memOk_setLine]

theorem State.memOk_tableWritePa {s : State} (pa n : Nat) (hs : s.MemOk) : (State.tableWritePa s pa n).MemOk := by
  unfold State.tableWritePa
  grind [State.memOk_tablesLost]

theorem State.memOk_devAccess {s : State} (pa n : Nat) (wr : Option (List (BitVec 8)))
    (hs : s.MemOk) : (State.devAccess s pa n wr).MemOk := by
  unfold State.devAccess
  grind [State.memOk_devPiece, State.memOk_tableWritePa, memOk_foldl]

theorem memOk_execHostBar2Access (pa n : Nat) (wr : Option (List (BitVec 8))) {s : State} {u' : State}
    (hs : s.MemOk) (e : execHostBar2Access pa n wr s = .next u') : u'.MemOk := by
  unfold execHostBar2Access at e
  grind [State.memOk_devAccess]

theorem State.memOk_peerPiece {s : State} (pa : Nat) (bs : List Byte) (hs : s.MemOk) : (State.peerPiece s pa bs).MemOk := by
  unfold State.peerPiece
  grind [State.memOk_memPuts, State.memOk_setLine]

theorem State.memOk_combinePa {s : State} (pa n : Nat) (hs : s.MemOk) : (State.combinePa s pa n).MemOk := by
  unfold State.combinePa
  grind [State.memOk_combine]

theorem State.memOk_peerWrite {s : State} (pa : Nat) (bs : List Byte) (hs : s.MemOk) : (State.peerWrite s pa bs).MemOk := by
  unfold State.peerWrite
  grind [State.memOk_peerPiece, State.memOk_tableWritePa, memOk_foldl]

theorem State.memOk_peerDo {s : State} (pa n : Nat) (x0 : PeerAct) (hs : s.MemOk) : (State.peerDo s pa n x0).MemOk := by
  unfold State.peerDo
  grind [State.memOk_combinePa, State.memOk_peerWrite]

theorem memOk_execPeerAccess (pa n : Nat) (req : PeerReq) {s : State} {u' : State}
    (hs : s.MemOk) (e : execPeerAccess pa n req s = .next u') : u'.MemOk := by
  unfold execPeerAccess at e
  grind [State.memOk_peerDo]

theorem memOk_execAtsInvalidate (bus : Nat) {s : State} {u' : State}
    (hs : s.MemOk) (e : execAtsInvalidate bus s = .next u') : u'.MemOk := by
  unfold execAtsInvalidate at e
  grind

theorem State.memOk_linkError {s : State} (port pa : Nat) (hs : s.MemOk) : (State.linkError s port pa).MemOk := by
  unfold State.linkError
  grind [State.memOk_postError, memOk_foldl]

theorem memOk_execLinkCrcError (port pa : Nat) (wr : Bool) {s : State} {u' : State}
    (hs : s.MemOk) (e : execLinkCrcError port pa wr s = .next u') : u'.MemOk := by
  unfold execLinkCrcError at e
  grind [State.memOk_linkError]

/-! ### Device.lean -/

theorem State.memOk_setBoot {s : State} (j n : Nat) (hs : s.MemOk) : (State.setBoot s j n).MemOk := by
  unfold State.setBoot
  grind

theorem State.memOk_bootFrom (r : List Bool) : ∀ (n j : Nat) {s : State}, s.MemOk → (State.bootFrom r n j s).MemOk
  | 0, _, _, hs => hs
  | n + 1, j, s, hs => by
    have ih := @memOk_bootFrom r n
    unfold bootFrom
    grind [memOk_setBoot]

theorem memOk_execBoot (r : List Bool) {s : State} {u' : State} (hs : s.MemOk) (e : execBoot r s = .next u') : u'.MemOk := by
  unfold execBoot at e
  grind [State.memOk_bootFrom]

theorem State.memOk_quarterRecord {s : State} (q : Nat) (hs : s.MemOk) : (State.quarterRecord s q).MemOk := by
  unfold State.quarterRecord
  grind [State.memOk_postError, memOk_foldl]

theorem State.memOk_switchDies (img : FwImage) : ∀ (ds : List Nat) {s : State}, s.MemOk → (s.switchDies img ds).MemOk
  | [], _, hs => hs
  | d :: ds, s, hs => by
    unfold switchDies
    dsimp only
    split
    · refine memOk_switchDies img ds ?_
      split
      · exact memOk_quarterRecord d hs
      · exact hs
    · exact hs

theorem memOk_execFirmwareUpdate (img : FwImage) {s : State} {u' : State}
    (hs : s.MemOk) (e : execFirmwareUpdate img s = .next u') : u'.MemOk := by
  unfold execFirmwareUpdate at e
  grind [State.memOk_switchDies]

theorem memOk_execSchedulerCoreError (q : Nat) {s : State} {u' : State}
    (hs : s.MemOk) (e : execSchedulerCoreError q s = .next u') : u'.MemOk := by
  unfold execSchedulerCoreError at e
  grind

theorem memOk_execSchedulerCoreReloaded (q : Nat) {s : State} {u' : State}
    (hs : s.MemOk) (e : execSchedulerCoreReloaded q s = .next u') : u'.MemOk := by
  unfold execSchedulerCoreReloaded at e
  grind [State.memOk_quarterRecord]

theorem memOk_execRootCoreError {s : State} {u' : State} (hs : s.MemOk) (e : execRootCoreError s = .next u') : u'.MemOk := by
  unfold execRootCoreError at e
  grind [State.mem_sendMsix]

theorem memOk_execMsixTableWrite (vec : Nat) (mask clr : Bool) {s : State} {u' : State}
    (hs : s.MemOk) (e : execMsixTableWrite vec mask clr s = .next u') : u'.MemOk := by
  unfold execMsixTableWrite at e
  grind

theorem State.memOk_updQueue {s : State} (p n : Nat) (f : Queue → Queue) (hs : s.MemOk) : (State.updQueue s p n f).MemOk := by
  unfold State.updQueue
  grind [State.mem_updPart]

theorem memOk_execQcfgWrite (p n : Nat) (v : BitVec 64) {s : State} {u' : State}
    (hs : s.MemOk) (e : execQcfgWrite p n v s = .next u') : u'.MemOk := by
  unfold execQcfgWrite at e
  grind [State.memOk_updQueue]

theorem memOk_execQidxWrite (p n : Nat) (v : BitVec 64) {s : State} {u' : State}
    (hs : s.MemOk) (e : execQidxWrite p n v s = .next u') : u'.MemOk := by
  unfold execQidxWrite at e
  grind [State.memOk_updQueue]

theorem memOk_execSlcfgWrite (p : Nat) (v : BitVec 64) {s : State} {u' : State}
    (hs : s.MemOk) (e : execSlcfgWrite p v s = .next u') : u'.MemOk := by
  unfold execSlcfgWrite at e
  grind [State.memOk_spillAll, State.mem_updPart]

theorem memOk_execCqcfgWrite (p : Nat) (v : BitVec 64) {s : State} {u' : State}
    (hs : s.MemOk) (e : execCqcfgWrite p v s = .next u') : u'.MemOk := by
  unfold execCqcfgWrite at e
  grind [State.mem_updPart]

theorem memOk_execCqidxWrite (p : Nat) (v : BitVec 64) {s : State} {u' : State}
    (hs : s.MemOk) (e : execCqidxWrite p v s = .next u') : u'.MemOk := by
  unfold execCqidxWrite at e
  grind [State.mem_updPart]

theorem memOk_execEqcfgWrite (p : Nat) (v : BitVec 64) {s : State} {u' : State}
    (hs : s.MemOk) (e : execEqcfgWrite p v s = .next u') : u'.MemOk := by
  unfold execEqcfgWrite at e
  grind [State.mem_updPart]

theorem memOk_execEnergyRefill {s : State} {u' : State} (hs : s.MemOk) (e : execEnergyRefill s = .next u') : u'.MemOk := by
  unfold execEnergyRefill at e
  grind [memOk_foldl]

/-! ### Queues.lean -/

theorem State.memOk_recTouch {s : State} (p asid : Nat) (r : LRec) (hs : s.MemOk) : (State.recTouch s p asid r).MemOk := by
  unfold State.recTouch
  grind [State.memOk_agentTouch]

theorem State.memOk_refuse {s : State} (p q ix st : Nat) (hs : s.MemOk) : (State.refuse s p q ix st).MemOk := by
  unfold State.refuse
  grind [State.memOk_updQueue]

theorem State.memOk_arrive {s : State} (p q ix : Nat) (r : LRec) (raw b : List Byte)
    (hs : s.MemOk) : (State.arrive s p q ix r raw b).MemOk := by
  unfold State.arrive
  grind [State.memOk_nodeReady, State.memOk_nodeWrite, State.memOk_refuse]

theorem State.memOk_direct {s : State} (p q asid : Nat) (r : LRec) (hs : s.MemOk) : (State.direct s p q asid r).MemOk := by
  unfold State.direct
  grind [State.memOk_updQueue]

theorem State.memOk_takeOn {s : State} (p q : Nat) (x : Took) (hs : s.MemOk) : (State.takeOn s p q x).MemOk := by
  unfold State.takeOn
  grind [State.memOk_agentFault, State.memOk_arrive, State.memOk_direct, State.memOk_nodeTouch, State.memOk_refuse, State.memOk_updQueue]

theorem memOk_execRecordTake (p q : Nat) {s u' : State} (hs : s.MemOk) (e : execRecordTake p q s = .next u') : u'.MemOk := by
  unfold execRecordTake at e
  split at e
  · cases e
  · split at e
    · cases e
    · split at e
      · cases e; exact State.memOk_takeOn _ _ _ hs
      · split at e
        · cases e
        · extract_lets asid ix va raw s1 at e
          have h1 : s1.MemOk := State.memOk_updQueue _ _ _ (State.memOk_acquire _ _ (State.memOk_touch _ _ _ _ _ _ _ _ hs))
          clear_value raw s1
          split at e
          · cases e; exact State.memOk_refuse _ _ _ _ h1
          · cases e; exact State.memOk_takeOn _ _ _ (State.memOk_recTouch _ _ _ h1)

theorem State.memOk_updCompl {s : State} (p : Nat) (f : Compl → Compl) (hs : s.MemOk) : (State.updCompl s p f).MemOk := by
  unfold State.updCompl
  grind [State.mem_updPart]

theorem State.memOk_dropCompl {s : State} (p : Nat) (hs : s.MemOk) : (State.dropCompl s p).MemOk := by
  unfold State.dropCompl
  grind [State.mem_updPart]

theorem State.memOk_structError {s : State} (p asid : Nat) (b : Bad) (a : Nat) (c : Compl)
    (hs : s.MemOk) : (State.structError s p asid b a c).MemOk := by
  unfold State.structError
  grind [State.memOk_postError]

theorem State.memOk_complRelease {s : State} (p : Nat) (c : Compl) (hs : s.MemOk) : (State.complRelease s p c).MemOk := by
  unfold State.complRelease
  grind [State.memOk_combine, State.memOk_release, State.memOk_sendLines]

theorem State.memOk_complNode {s : State} (p : Nat) (c : Compl) (hs : s.MemOk) : (State.complNode s p c).1.MemOk := by
  unfold State.complNode
  grind [State.memOk_agentFault, State.memOk_nodeTouch, State.memOk_nodeWrite, State.memOk_structError]

theorem State.memOk_complRecord {s : State} (p : Nat) (c : Compl) (hs : s.MemOk) : (State.complRecord s p c).1.MemOk := by
  unfold State.complRecord
  grind [State.memOk_agentFault, State.memOk_structError, State.memOk_writeVia, State.mem_bumpSeq, State.mem_ringMsix, State.mem_updPart]

theorem State.memOk_complSucc {s : State} (p : Nat) (c : Compl) (i : Nat) (hs : s.MemOk) : (State.complSucc s p c i).1.MemOk := by
  unfold State.complSucc
  grind [State.memOk_agentFault, State.memOk_agentTouch, State.memOk_nodeDec, State.memOk_structError]

theorem State.memOk_complWalk (p : Nat) (c : Compl) : ∀ (n i : Nat) {s : State}, s.MemOk → (s.complWalk p c n i).MemOk
  | 0, _, _, hs => memOk_dropCompl p hs
  | n + 1, i, s, hs => by
    have hsucc := memOk_complSucc p c i hs
    unfold complWalk
    split
    · next h => rw [h] at hsucc; exact memOk_complWalk p c n (i + 1) hsucc
    · next h => rw [h] at hsucc; exact memOk_dropCompl p hsucc
    · next h => rw [h] at hsucc; exact memOk_updCompl p _ hsucc

theorem State.memOk_complRest {s : State} (p : Nat) (c : Compl) (hs : s.MemOk) : (State.complRest s p c).MemOk := by
  unfold State.complRest
  grind [State.memOk_complRecord, State.memOk_complWalk, State.memOk_updCompl]

theorem memOk_execNodeComplete (p : Nat) {s : State} {u' : State} (hs : s.MemOk) (e : execNodeComplete p s = .next u') : u'.MemOk := by
  unfold execNodeComplete at e
  grind [State.memOk_complNode, State.memOk_complRelease, State.memOk_complRest]

/-! ### Place.lean -/

theorem State.memOk_takeTag : ∀ (n : Nat) {s : State}, s.MemOk → (State.takeTag n s).2.MemOk
  | 0, _, hs => hs
  | n + 1, s, hs => by
    unfold takeTag
    dsimp only
    split
    · exact hs
    · exact memOk_takeTag n hs

theorem State.memOk_sramTrim {s : State} (core : Nat) (hs : s.MemOk) : (State.sramTrim s core).MemOk := by
  unfold State.sramTrim
  grind [State.memOk_dropLines]

theorem State.memOk_enterCore {s : State} (core r : Nat) (hs : s.MemOk) : (State.enterCore s core r).MemOk := by
  unfold State.enterCore
  grind [State.memOk_acquire, State.memOk_sramTrim]

theorem State.memOk_newTeam {s : State} (g : Grid) (k : KObj) (gid : Nat) (a : Nat × Nat) (pos : Nat)
    (hs : s.MemOk) : (State.newTeam s g k gid a pos).MemOk := by
  unfold State.newTeam
  grind [State.memOk_enterCore, State.memOk_reset, State.memOk_takeTag]

theorem State.memOk_charge {s : State} (p : Nat) (e : Nat) (hs : s.MemOk) : (State.charge s p e).MemOk := by
  unfold State.charge
  grind [State.mem_updPart]

theorem State.memOk_placeNew {s : State} (g : Grid) (k : KObj) (a : Nat × Nat) (hs : s.MemOk) : (State.placeNew s g k a).MemOk := by
  unfold State.placeNew
  grind [State.memOk_charge, State.memOk_newTeam, State.memOk_reset, State.mem_updGrid, memOk_foldl]

theorem State.memOk_oldTeam {s : State} (k : KObj) (a : Nat × Nat) (t : Team) (hs : s.MemOk) : (State.oldTeam s k a t).MemOk := by
  unfold State.oldTeam
  grind [State.memOk_enterCore, State.memOk_writePieces, State.mem_updTeam, State.mem_updWave, memOk_foldl]

theorem State.memOk_placeOld {s : State} (g : Gang) (gr : Grid) (a : Nat × Nat) (hs : s.MemOk) : (State.placeOld s g gr a).MemOk := by
  unfold State.placeOld
  grind [State.memOk_charge, State.memOk_enterTrap, State.memOk_oldTeam, State.mem_updGang, memOk_foldl]

theorem State.memOk_pull {s : State} (p n : Nat) (hs : s.MemOk) : (State.pull s p n).MemOk := by
  unfold State.pull
  grind [State.memOk_direct, State.memOk_updQueue]

theorem State.memOk_leaveQueue {s : State} (g : Grid) (hs : s.MemOk) : (State.leaveQueue s g).MemOk := by
  unfold State.leaveQueue
  grind [State.mem_updPart]

theorem State.memOk_served {s : State} (g : Grid) (hs : s.MemOk) : (State.served s g).MemOk := by
  unfold State.served
  grind [State.mem_updPart]

theorem State.memOk_nodeStart {s : State} (g : Grid) (hs : s.MemOk) : (State.nodeStart s g).MemOk := by
  unfold State.nodeStart
  grind [State.memOk_nodeTouch, State.memOk_nodeWrite, State.memOk_postError]

theorem State.memOk_stillborn {s : State} (g : Grid) (hs : s.MemOk) : (State.stillborn s g).MemOk := by
  unfold State.stillborn
  grind [State.memOk_leaveQueue, State.memOk_postError, State.mem_afterEnd, State.mem_updGrid]

theorem State.memOk_placeHead {s : State} (h : Head) (a : Nat × Nat) (hs : s.MemOk) : (State.placeHead s h a).MemOk := by
  unfold State.placeHead
  grind [State.memOk_agentTouch, State.memOk_fresh, State.memOk_leaveQueue, State.memOk_nodeStart, State.memOk_placeNew,
    State.memOk_placeOld, State.memOk_served]

theorem State.memOk_startCopy {s : State} (g : Grid) (hs : s.MemOk) : (State.startCopy s g).MemOk := by
  unfold State.startCopy
  grind [State.memOk_acquire, State.memOk_charge, State.memOk_leaveQueue, State.memOk_nodeStart, State.memOk_served]

theorem State.memOk_headWaits {s : State} (p : Nat) (lat : Bool) (h : Head) (hs : s.MemOk) : (State.headWaits s p lat h).MemOk := by
  unfold State.headWaits
  grind [State.mem_updPart]

theorem State.memOk_actOn {s : State} (p : Nat) (lat : Bool) (h : Head) (v : Verdict) {u' : State}
    (hs : s.MemOk) (e : State.actOn s p lat h v = some u') : u'.MemOk := by
  unfold State.actOn at e
  grind [State.memOk_agentFault, State.memOk_fresh, State.memOk_headWaits, State.memOk_placeHead, State.memOk_startCopy,
    State.memOk_stillborn, State.mem_updPart]

theorem State.memOk_noteHead {s : State} (p : Nat) (lat : Bool) (h : Head) {u' : State}
    (hs : s.MemOk) (e : State.noteHead s p lat h = some u') : u'.MemOk := by
  unfold State.noteHead at e
  grind [State.memOk_headWaits]

/-- Each case of a placement acts on a head, notes that it waits, or pre-empts gangs for it. -/
theorem State.memOk_placeStep {s : State} (p : Nat) {u' : State} (hs : s.MemOk) (e : s.placeStep p = some u') : u'.MemOk := by
  have hbulk (b : Bool) (h : (match s.head? p false with
      | none => none
      | some h => (s.actOn p false h (s.verdict p false b h)).or (s.noteHead p false h)) = some u') : u'.MemOk := by
    split at h
    · cases h
    · rcases Option.or_eq_some_iff.1 h with h | ⟨_, h⟩
      · exact memOk_actOn _ _ _ _ hs h
      · exact memOk_noteHead _ _ _ hs h
  unfold placeStep at e
  dsimp only at e
  split at e
  · exact hbulk false e
  · split at e
    · next h => cases e; exact memOk_actOn _ _ _ _ hs h
    · split at e
      · exact memOk_noteHead _ _ _ hs e
      · split at e
        · rcases Option.or_eq_some_iff.1 e with h | ⟨_, h⟩
          · exact memOk_noteHead _ _ _ hs h
          · exact hbulk true h
        · cases e; exact memOk_foldl (fun _ g hu => memOk_preempt g hu) _ (memOk_headWaits _ _ _ hs)

theorem memOk_execGangPlace (p : Nat) {s u' : State} (hs : s.MemOk) (e : execGangPlace p s = .next u') : u'.MemOk := by
  unfold execGangPlace at e
  split at e
  · cases e
  · have hpull := memOk_foldl (f := fun s n => s.pull p n) (fun _ n hu => State.memOk_pull p n hu) ((List.range 64).filter (s.pullable p)) hs
    dsimp only at e
    split at e
    · next h => cases e; exact State.memOk_placeStep p hpull h
    · split at e
      · cases e
      · cases e; exact hpull

theorem State.memOk_saveFrame {s : State} (t : Team) (wv : Wave) (hs : s.MemOk) : (State.saveFrame s t wv).MemOk := by
  unfold State.saveFrame
  grind [State.mem_updWave]

theorem State.memOk_saveCounts {s : State} (t : Team) (wv : Wave) (hs : s.MemOk) : (State.saveCounts s t wv).MemOk := by
  unfold State.saveCounts
  grind [State.mem_updTeam, State.mem_updWave]

theorem memOk_execPreemptSaved (gid : Nat) {s : State} {u' : State} (hs : s.MemOk) (e : execPreemptSaved gid s = .next u') : u'.MemOk := by
  unfold execPreemptSaved at e
  grind [State.memOk_leaveCore, State.memOk_qctlSettle, State.memOk_release, State.memOk_saveCounts, State.memOk_saveFrame,
    State.mem_trueUp, State.mem_unpark, State.mem_updGang, memOk_foldl]

theorem memOk_execPark (gid : Nat) {s : State} {u' : State} (hs : s.MemOk) (e : execPark gid s = .next u') : u'.MemOk := by
  unfold execPark at e
  grind [State.memOk_preempt, State.mem_updGang]

theorem memOk_execTeamRetire (tag : Nat) {s : State} {u' : State} (hs : s.MemOk) (e : execTeamRetire tag s = .next u') : u'.MemOk := by
  unfold execTeamRetire at e
  grind [State.memOk_barsGang, State.memOk_freeTeam, State.memOk_qctlSettle, State.mem_abandon, State.mem_afterEnd, State.mem_trueUp,
    State.mem_updGang]

theorem State.memOk_poisonSram {s : State} (t : Team) (k : KObj) (a : Nat) (hs : s.MemOk) : (State.poisonSram s t k a).MemOk := by
  unfold State.poisonSram
  grind [State.mem_updGang, State.mem_updTeam]

theorem State.memOk_poisonLoc {s : State} (core : Nat) (x : CoreLoc) (hs : s.MemOk) : (s.poisonLoc core x).MemOk := by
  unfold poisonLoc
  split
  case h_5 =>
    split
    · next t _ =>
      cases s.gang? t.gid with
      | none => exact hs
      | some g => exact memOk_poisonSram _ _ _ hs
    · exact hs
  all_goals exact hs

theorem State.memOk_coreRecord {s : State} (t : Team) (requeued : Bool) (hs : s.MemOk) : (State.coreRecord s t requeued).MemOk := by
  unfold State.coreRecord
  grind [State.memOk_postError]

theorem State.memOk_coreRecordNone {s : State} (core : Nat) (hs : s.MemOk) : (State.coreRecordNone s core).MemOk := by
  unfold State.coreRecordNone
  grind [State.memOk_postError, memOk_foldl]

theorem State.memOk_clearCore {s : State} (core : Nat) (but : Option Nat) (hs : s.MemOk) : (State.clearCore s core but).MemOk := by
  unfold State.clearCore
  grind [State.memOk_preempt, memOk_foldl]

theorem State.memOk_dropTraps {s : State} (gid : Nat) (hs : s.MemOk) : (State.dropTraps s gid).MemOk := by
  unfold State.dropTraps
  grind

theorem memOk_execCoreUncorrectableError (core : Nat) (at_ : Sys2Proof.CoreLoc) {s : State} {u' : State}
    (hs : s.MemOk) (e : execCoreUncorrectableError core at_ s = .next u') : u'.MemOk := by
  unfold execCoreUncorrectableError at e
  grind [State.memOk_clearCore, State.memOk_coreRecord, State.memOk_coreRecordNone, State.memOk_dropTraps, State.memOk_poisonLoc,
    State.memOk_preempt, State.memOk_teardown]

/-! ### Run.lean -/

theorem State.memOk_tick {s : State} (hs : s.MemOk) : (State.tick s).MemOk := by
  unfold State.tick
  grind

theorem State.memOk_badWord {s : State} (tag w : Nat) (x : DWord) (hs : s.MemOk) : (State.badWord s tag w x).MemOk := by
  unfold State.badWord
  grind [State.memOk_stop]

theorem State.memOk_wrapUp {s : State} (hs : s.MemOk) : (State.wrapUp s).MemOk := by
  unfold State.wrapUp
  grind [State.memOk_barriersAll, State.memOk_dropKeys, State.memOk_fenceAcquire, State.memOk_flushDue, State.memOk_qctlSettle,
    State.memOk_recheckAll]

/-! ### The instructions, the events and the step -/

/-- An instruction that does more than compute keeps the form of memory. -/
theorem memOk_exec_instr {i : Instr} {s t : State} (hc : computes i = false) (hi : isEvent i = false) (hs : s.MemOk) (e : exec i s = .next t) : t.MemOk := by
  cases i with
  | nop h => exact memOk_execNop h hs e
  | bra h off => exact memOk_execBra h off hs e
  | brx h a => exact memOk_execBrx h a hs e
  | call h d off => exact memOk_execCall h d off hs e
  | ret h a => exact memOk_execRet h a hs e
  | join h => exact memOk_execJoin h hs e
  | loop h d off => exact memOk_execLoop h d off hs e
  | lexit h off => exact memOk_execLexit h off hs e
  | exit => exact memOk_endRegion (h := hs) (e := e)
  | yield => exact memOk_endRegion (h := hs) (e := e)
  | wait h k mask => exact memOk_execWait h k mask hs e
  | rcp h d a rm => exact memOk_execRcp h d a rm hs e
  | rsq h d a => exact memOk_execRsq h d a hs e
  | sqrt h d a rm => exact memOk_execSqrt h d a rm hs e
  | exp2 h d a => exact memOk_execExp2 h d a hs e
  | log2 h d a => exact memOk_execLog2 h d a hs e
  | sin h d a => exact memOk_execSin h d a hs e
  | cos h d a => exact memOk_execCos h d a hs e
  | tanh h d a => exact memOk_execTanh h d a hs e
  | decn h d a b f scl esc => exact memOk_execDecn h d a b f scl esc hs e
  | ld h d a b ty pol sc od => exact memOk_execLd h d a b ty pol sc od hs e
  | st h d a b sf ty pol sc od => exact memOk_execSt h d a b sf ty pol sc od hs e
  | lds h d a b ty pol sc od => exact memOk_execLds h d a b ty pol sc od hs e
  | sts h d a b sf ty pol sc od => exact memOk_execSts h d a b sf ty pol sc od hs e
  | ldw h d a b ty pol sc od => exact memOk_execLdw h d a b ty pol sc od hs e
  | stw h d a b ty pol sc od => exact memOk_execStw h d a b ty pol sc od hs e
  | ldn h d a b ty pol sc od => exact memOk_execLdn h d a b ty pol sc od hs e
  | qst h d a b c f mode ev => exact memOk_execQst h d a b c f mode ev hs e
  | pref h a b pol => exact memOk_execPref h a b pol hs e
  | shbind h d a b ev => exact memOk_execShbind h d a b ev hs e
  | shfree h d a ev => exact memOk_execShfree h d a ev hs e
  | cpy h a ev => exact memOk_execCpy h a ev hs e
  | aqstart h d ev => exact memOk_execAqstart h d ev hs e
  | aqstop h d ev => exact memOk_execAqstop h d ev hs e
  | aqstopQry h d a ev => exact memOk_execAqstopQry h d a ev hs e
  | ldc h d a b ty => exact memOk_execLdc h d a b ty hs e
  | atom h d a b op ty sc od => exact memOk_execAtom h d a b op ty sc od hs e
  | acas h d a b ty sc od => exact memOk_execAcas h d a b ty sc od hs e
  | red h a b op ty sc od => exact memOk_execRed h a b op ty sc od hs e
  | fence => exact memOk_endRegion (h := hs) (e := e)
  | bar => exact memOk_endRegion (h := hs) (e := e)
  | nbar => exact memOk_endRegion (h := hs) (e := e)
  | slin => exact memOk_endRegion (h := hs) (e := e)
  | slout => exact memOk_endRegion (h := hs) (e := e)
  | sloutLast => exact memOk_endRegion (h := hs) (e := e)
  | slqry => exact memOk_endRegion (h := hs) (e := e)
  | slrst => exact memOk_endRegion (h := hs) (e := e)
  | slrstDel => exact memOk_endRegion (h := hs) (e := e)
  | send h d a n => exact memOk_execSend h d a n hs e
  | recv h d a n => exact memOk_execRecv h d a n hs e
  | mloadb h a b f scr ev => exact memOk_execMloadb h a b f scr ev hs e
  | mma h a b nkm bank ev => exact memOk_execMma h a b nkm bank ev hs e
  | mres h d g bank ev => exact memOk_execMres h d g bank ev hs e
  | mfence h sc => exact memOk_execMfence h sc hs e
  | mwait h => exact memOk_execMwait h hs e
  | had h a b c p ty ev => exact memOk_execHad h a b c p ty ev hs e
  | twalk h d a b n ev => exact memOk_execTwalk h d a b n ev hs e
  | tnext h d ev => exact memOk_execTnext h d ev hs e
  | mzero h bank bd => exact memOk_execMzero h bank bd hs e
  | beam h d a ev => exact memOk_execBeam h d a ev hs e
  | bfrag h d a ev => exact memOk_execBfrag h d a ev hs e
  | bdone h a => exact memOk_execBdone h a hs e
  | rays h d a b first sh ev => exact memOk_execRays h d a b first sh ev hs e
  | hitget h d a ev => exact memOk_execHitget h d a ev hs e
  | hitgetCand h d a ev => exact memOk_execHitgetCand h d a ev hs e
  | hitacc h a b c => exact memOk_execHitacc h a b c hs e
  | tex h d a b c nr ev => exact memOk_execTex h d a b c nr ev hs e
  | texq h d a b c ev => exact memOk_execTexq h d a b c ev hs e
  | bvhset h d a ev => exact memOk_execBvhset h d a ev hs e
  | launch h d a => exact memOk_execLaunch h d a hs e
  | wchild => exact memOk_endRegion (h := hs) (e := e)
  | gsig => exact memOk_endRegion (h := hs) (e := e)
  | enrd h d => exact memOk_execEnrd h d hs e
  | trap => exact memOk_endRegion (h := hs) (e := e)
  | rte => exact memOk_endRegion (h := hs) (e := e)
  | csrw h d reg => exact memOk_execCsrw h d reg hs e
  | csrwSet h d reg => exact memOk_execCsrwSet h d reg hs e
  | csrwClr h d reg => exact memOk_execCsrwClr h d reg hs e
  | rinv h d a ev => exact memOk_execRinv h d a ev hs e
  | rinvRange h d a b c ev => exact memOk_execRinvRange h d a b c ev hs e
  | qctlQ h d a ev => exact memOk_execQctlQ h d a ev hs e
  | qctlR h d a ev => exact memOk_execQctlR h d a ev hs e
  | qctlQry h d a ev => exact memOk_execQctlQry h d a ev hs e
  | _ => first | exact absurd hc.symm Bool.false_ne_true | exact absurd hi.symm Bool.false_ne_true

/-- An event keeps the form of memory. -/
theorem memOk_exec_event {i : Instr} {s t : State} (hi : isEvent i = true) (hs : s.MemOk) (e : exec i s = .next t) : t.MemOk := by
  cases i with
  | sfuResult tag w id => exact memOk_execSfuResult tag w id hs e
  | loadComplete tag w id => exact memOk_execLoadComplete tag w id hs e
  | copyComplete id => exact memOk_execCopyComplete id hs e
  | streamPush tag => exact memOk_execStreamPush tag hs e
  | qstComplete tag w id => exact memOk_execQstComplete tag w id hs e
  | sluiceTimeout tag w => exact memOk_execSluiceTimeout tag w hs e
  | sluiceDeadlock p => exact memOk_execSluiceDeadlock p hs e
  | mloadbComplete tag w id => exact memOk_execMloadbComplete tag w id hs e
  | mmaComplete tag w id => exact memOk_execMmaComplete tag w id hs e
  | hadComplete tag w id => exact memOk_execHadComplete tag w id hs e
  | beamTreeSettled tag rec => exact memOk_execBeamTreeSettled tag rec hs e
  | raysSettled tag cast => exact memOk_execRaysSettled tag cast hs e
  | clauseEntry tag w => exact memOk_execClauseEntry tag w hs e
  | regionCommit tag w sl => exact memOk_execRegionCommit tag w sl hs e
  | sectorFill ix pa err => exact memOk_execSectorFill ix pa err hs e
  | spillRefetch slice => exact memOk_execSpillRefetch slice hs e
  | faultResolved p slot => exact memOk_execFaultResolved p slot hs e
  | faultSlotRetry p => exact memOk_execFaultSlotRetry p hs e
  | recordTake p q => exact memOk_execRecordTake p q hs e
  | nodeComplete p => exact memOk_execNodeComplete p hs e
  | gangPlace p => exact memOk_execGangPlace p hs e
  | preemptSaved gid => exact memOk_execPreemptSaved gid hs e
  | park gid => exact memOk_execPark gid hs e
  | teamRetire tag => exact memOk_execTeamRetire tag hs e
  | energyRefill => exact memOk_execEnergyRefill hs e
  | coreUncorrectableError core at_ => exact memOk_execCoreUncorrectableError core at_ hs e
  | schedulerCoreError q => exact memOk_execSchedulerCoreError q hs e
  | rootCoreError => exact memOk_execRootCoreError hs e
  | boot r => exact memOk_execBoot r hs e
  | firmwareUpdate img => exact memOk_execFirmwareUpdate img hs e
  | hostBar2Access pa n wr => exact memOk_execHostBar2Access pa n wr hs e
  | atsInvalidate bus => exact memOk_execAtsInvalidate bus hs e
  | peerAccess pa n req => exact memOk_execPeerAccess pa n req hs e
  | linkCrcError port pa wr => exact memOk_execLinkCrcError port pa wr hs e
  | qcfgWrite p n v => exact memOk_execQcfgWrite p n v hs e
  | qidxWrite p n v => exact memOk_execQidxWrite p n v hs e
  | fqcfgWrite p v => exact memOk_execFqcfgWrite p v hs e
  | mqcfgWrite p v => exact memOk_execMqcfgWrite p v hs e
  | mqidxWrite p v => exact memOk_execMqidxWrite p v hs e
  | acthWrite p v => exact memOk_execActhWrite p v hs e
  | slcfgWrite p v => exact memOk_execSlcfgWrite p v hs e
  | cqcfgWrite p v => exact memOk_execCqcfgWrite p v hs e
  | cqidxWrite p v => exact memOk_execCqidxWrite p v hs e
  | eqcfgWrite p v => exact memOk_execEqcfgWrite p v hs e
  | pqmaskWrite tag w id => exact memOk_execPqmaskWrite tag w id hs e
  | pwaysWrite tag w id => exact memOk_execPwaysWrite tag w id hs e
  | nbndWrite tag w id => exact memOk_execNbndWrite tag w id hs e
  | prsvWrite tag w id => exact memOk_execPrsvWrite tag w id hs e
  | asidvWrite tag w id => exact memOk_execAsidvWrite tag w id hs e
  | pcapWrite tag w id => exact memOk_execPcapWrite tag w id hs e
  | fmodeWrite tag w id => exact memOk_execFmodeWrite tag w id hs e
  | fflagsWrite tag w id => exact memOk_execFflagsWrite tag w id hs e
  | registerWrite r v => exact memOk_execRegisterWrite r v hs e
  | regionEndingResult tag w id => exact memOk_execRegionEndingResult tag w id hs e
  | texComplete tag w id => exact memOk_execTexComplete tag w id hs e
  | bvhsetComplete tag w id => exact memOk_execBvhsetComplete tag w id hs e
  | shbindComplete tag w id => exact memOk_execShbindComplete tag w id hs e
  | tnextComplete tag w id pick => exact memOk_execTnextComplete tag w id pick hs e
  | mresComplete tag w id => exact memOk_execMresComplete tag w id hs e
  | rinvComplete tag w id => exact memOk_execRinvComplete tag w id hs e
  | faultRecordFreed p slot => exact memOk_execFaultRecordFreed p slot hs e
  | energyWrite tag w id => exact memOk_execEnergyWrite tag w id hs e
  | schedulerCoreReloaded q => exact memOk_execSchedulerCoreReloaded q hs e
  | msixTableWrite vec mask clr => exact memOk_execMsixTableWrite vec mask clr hs e
  | _ => exact absurd hi Bool.false_ne_true

/-- Whatever an instruction or event does, it keeps the form of memory. -/
theorem memOk_exec {i : Instr} {s t : State} (hs : s.MemOk) (e : exec i s = .next t) : t.MemOk := by
  cases hc : computes i with
  | true =>
    obtain ⟨f, hf⟩ := exec_computes i hc s
    exact memOk_compute i s t f hs (hf ▸ e)
  | false =>
    cases hi : isEvent i with
    | true => exact memOk_exec_event hi hs e
    | false => exact memOk_exec_instr hc hi hs e

theorem memOk_runPick (k : Pick) {s t : State} (hs : s.MemOk) (e : runPick k s = .next t) : t.MemOk := by
  unfold runPick at e
  split at e
  · split at e
    · exact memOk_exec hs e
    · cases e
  · split at e
    · cases e
    · split at e
      · cases e
      · split at e
        · exact memOk_exec (s := s.at_ _ _) hs e
        · cases e; exact State.memOk_badWord _ _ _ hs

theorem memOk_runFirst {s t : State} (hs : s.MemOk) : ∀ l : List Pick, runFirst s l = .next t → t.MemOk
  | [], e => by cases e; exact hs
  | k :: l, e => by
    unfold runFirst at e
    split at e
    · next hk => cases e; exact memOk_runPick k hs hk
    · exact memOk_runFirst hs l e

theorem memOk_wrap {o : Outcome State Fault Refusal} {t : State} (ho : ∀ u, o = .next u → u.MemOk) (e : wrap o = .next t) : t.MemOk := by
  obtain ⟨u, hu, rfl⟩ := (wrap_next_iff o t).1 e
  exact State.memOk_wrapUp (ho u hu)

theorem memOk_step {s t : State} (hs : s.MemOk) (e : step s = .next t) : t.MemOk := by
  cases hp : s.sched with
  | nil =>
    rw [step_free hp] at e
    exact memOk_wrap (fun _ hu => memOk_runFirst (State.memOk_tick hs) _ hu) e
  | cons k r =>
    rw [step_pick hp] at e
    exact memOk_wrap (fun _ hu => memOk_runPick k (s := { s.tick with sched := r }) (State.memOk_tick hs) hu) e

end Sys2Proof.Machine

/-- Settles O60: what a pick does keeps the form of memory, and so does what the device does by itself after it. -/
theorem stepKeepsInv : Obligations.StepKeepsInv := fun _ _ e hs => memOk_step hs e

end
section
/-! PROOFS. Privileged instructions, the entry of a trap and the words of its frame (17_interrupts.md, R403 to R410, R420, Table 17.7). -/
open Sys2Proof Sys2Proof.Machine

namespace Sys2Proof.Machine

/-! ### Numbers cut from a word -/

theorem bit_eq_div_mod (x i : Nat) : bit x i = decide (x / 2 ^ i % 2 = 1) := Nat.testBit_eq_decide_div_mod_eq
theorem bits_eq_div_mod (x lo n : Nat) : bits x lo n = x / 2 ^ lo % 2 ^ n := by rw [bits, Nat.shiftRight_eq_div_pow]

/-- The PC word as a sum of its fields, for a thread whose address is a clause's. -/
theorem framePc_eq (j : Bool) {t : Thread} (ha : t.pc.toNat % 8 = 0) (hb : t.pc.toNat < 2 ^ 48) :
    framePc j t = t.pc.toNat + t.exited.toNat + 2 * t.hold.isSome.toNat + 4 * j.toNat + 2 ^ 48 * t.mem.toNat
      + 2 ^ 51 * t.hold.elim 0 (·.1) + 2 ^ 53 * (t.hold.any (·.2)).toNat := by
  have hpc : t.pc.toNat / 8 * 8 % 2 ^ 48 = t.pc.toNat := by omega
  unfold framePc
  rw [hpc]
  cases t.exited <;> cases t.hold.isSome <;> cases j <;> cases t.hold.any (·.2) <;> simp <;> omega

theorem bit_framePc (j : Bool) (t : Thread) : bit (framePc j t) 2 = j := by
  rw [bit_eq_div_mod, framePc]
  cases j <;> simp <;> split <;> split <;> split <;> omega

/-- The fields of a PC word are those of the thread. -/
theorem threadOf_framePc (j : Bool) {t : Thread} (ha : t.pc.toNat % 8 = 0) (hb : t.pc.toNat < 2 ^ 48) (hk : ∀ x, t.hold = some x → x.1 < 4) :
    threadOf (framePc j t) = t := by
  have hx := framePc_eq j ha hb
  have hm := t.mem.isLt
  have hj := j.toNat_le
  have he := t.exited.toNat_le
  have hs := t.hold.isSome.toNat_le
  have hv := (t.hold.any (·.2)).toNat_le
  have hn : t.hold.elim 0 (·.1) < 4 := by
    cases h : t.hold with
    | none => decide
    | some x => exact hk x h
  generalize framePc j t = x at hx
  have hpc : bits x 3 45 * 8 = t.pc.toNat := by rw [bits_eq_div_mod]; omega
  have hmem : bits x 48 3 = t.mem.toNat := by rw [bits_eq_div_mod]; omega
  have hkey : bits x 51 2 = t.hold.elim 0 (·.1) := by rw [bits_eq_div_mod]; omega
  have hex : bit x 0 = t.exited := by rw [bit_eq_div_mod]; revert hx; cases t.exited <;> simp <;> omega
  have hho : bit x 1 = t.hold.isSome := by rw [bit_eq_div_mod]; revert hx; cases t.hold.isSome <;> simp <;> omega
  have hva : bit x 53 = t.hold.any (·.2) := by rw [bit_eq_div_mod]; revert hx; cases t.hold.any (·.2) <;> simp <;> omega
  rw [threadOf, hpc, hmem, hkey, hex, hho, hva, BitVec.ofNat_toNat, BitVec.ofNat_toNat]
  obtain ⟨pc, exited, mem, hold⟩ := t
  cases hold <;> simp

/-- The fields of a loop entry are read back from its bytes. -/
theorem loopOf_frameLoop {e : Loop} (hs : e.start.toNat < 2 ^ 48) (hk : e.k < 4) : loopOf (frameLoop e) = some e := by
  have hf := e.fin.isLt
  have htake : ofBytes ((frameLoop e).take 8) = e.start.toNat + e.k * 2 ^ 48 + 2 ^ 63 := by
    rw [frameLoop, List.take_left' (length_toBytes ..), ofBytes_toBytes]; omega
  have hdrop : ofBytes ((frameLoop e).drop 8) = e.fin.toNat := by
    rw [frameLoop, List.drop_left' (length_toBytes ..), ofBytes_toBytes]; omega
  have hbit : bit (e.start.toNat + e.k * 2 ^ 48 + 2 ^ 63) 63 = true := by rw [bit_eq_div_mod, decide_eq_true_iff]; omega
  have hkey : bits (e.start.toNat + e.k * 2 ^ 48 + 2 ^ 63) 48 2 = e.k := by rw [bits_eq_div_mod]; omega
  have hstart : (e.start.toNat + e.k * 2 ^ 48 + 2 ^ 63) % 2 ^ 48 = e.start.toNat := by omega
  simp only [loopOf, htake, hdrop, hbit, hkey, hstart, if_true, BitVec.ofNat_toNat, BitVec.setWidth_eq]

/-! ### Entering a trap -/

theorem CacheKeeps.writePieces {P : State → Prop} (h : CacheKeeps P) {s u : State} {t : Team} {base : Nat} {ps : List (Nat × List Byte)} (p : P s)
    (w : s.writePieces t base ps = some u) : P u := by
  unfold State.writePieces at w
  split at w
  · cases w; exact foldl_keeps P _ (fun s x q => h.writeBy _ _ _ _ _ _ _ q) _ _ p
  · cases w

theorem CacheKeeps.writeFrame {P : State → Prop} (h : CacheKeeps P) {s u : State} {t : Team} {base : Nat} {wv : Wave} {faddr : DWord} {vr sr : Nat} (p : P s)
    (w : s.writeFrame t base wv faddr vr sr = some u) : P u := by
  unfold State.writeFrame at w
  split at w
  · cases w
  · next s1 h1 =>
    cases w
    have p1 := h.writePieces p h1
    cases h2 : s1.writePieces t base ((frameOpen s.free vr sr).filter (s1.pieceOk t base)) with
    | none => exact p1
    | some s2 => exact h.writePieces p1 h2

/-- The team whose wave starts the handler. -/
def Team.enter (t : Team) (w : Nat) (q : TrapReq) (tvec : DWord) (ev : Sparse Nat) : Team :=
  { t.updWave w (·.enter q tvec ev) with pool := t.pool.map (fun x => (x.1, x.2.uncount w)) }

theorem Team.wave?_enter {t : Team} {w : Nat} {wv : Wave} (hw : t.wave? w = some wv) (q : TrapReq) (tvec : DWord) (ev : Sparse Nat) :
    (t.enter w q tvec ev).wave? w = some (wv.enter q tvec ev) := by
  refine (Team.wave?_updWave t w w (·.enter q tvec ev) (fun _ => rfl)).trans ?_
  rw [if_pos rfl, hw, Option.map_some]

/-- What trap entry does, from its premises. -/
theorem State.enterTrap_eq {s : State} {tag w : Nat} {t : Team} {wv : Wave} {q : TrapReq} {g : Gang} (ht : s.team? tag = some t)
    (hw : t.wave? w = some wv) (hq : wv.trapQ = some q) (hg : s.gang? t.gid = some g) :
    s.enterTrap tag w =
      if g.st ≠ .placed && (q.late || g.st ≠ .leaving) then s
      else if wv.handler then s.teardown t.gid tag q.cause (if (s.part t.part).tvec.getLsbD 0 then 2 else 6) q.addr.toNat
      else if !(s.part t.part).tvec.getLsbD 0 then s.teardown t.gid tag q.cause 4 q.addr.toNat
      else if wv.pend ≠ [] then s
      else match s.writeFrame t (s.frameAddr t wv) wv q.faddr g.kobj.vregs g.kobj.sregs with
        | none => s.teardown t.gid tag q.cause 12 q.addr.toNat
        | some u => u.updTeam tag (·.enter w q (s.part t.part).tvec (u.copyEv tag w)) := by
  have hwv : s.wave? tag w = some wv := State.wave?_of_team ht hw
  simp only [State.enterTrap, ht, hwv, hq, hg, Option.elim_some, Option.map_some] <;> rfl

/-- The 48 low bits of a doubleword. -/
theorem ofNat_mod_two_pow (x : DWord) : BitVec.ofNat 64 (x.toNat % 2 ^ 48) = x &&& 0xFFFFFFFFFFFF#64 := by
  refine BitVec.eq_of_toNat_eq ?_
  rw [BitVec.toNat_and, BitVec.toNat_ofNat]
  exact (Nat.mod_eq_of_lt (by omega)).trans (Nat.and_two_pow_sub_one_eq_mod x.toNat 48).symm

/-- The handler's address is `TVEC` without its enable and reserved bits. -/
theorem ofNat_bits_tvec (x : DWord) : BitVec.ofNat 64 (bits x.toNat 3 45 * 8) = x &&& 0xFFFFFFFFFFF8#64 := by
  have hmask : ∀ i < 64, (0xFFFFFFFFFFF8#64).getLsbD i = (decide (3 ≤ i) && decide (i - 3 < 45)) := by decide
  refine BitVec.eq_of_getLsbD_eq fun i hi => ?_
  rw [BitVec.getLsbD_and, hmask i hi, BitVec.getLsbD_ofNat, show 8 = 2 ^ 3 from rfl, Nat.testBit_mul_two_pow, bits, Nat.testBit_mod_two_pow,
    Nat.testBit_shiftRight]
  by_cases h3 : 3 ≤ i
  · rw [Nat.add_sub_cancel' h3]
    simp [hi, h3, BitVec.getLsbD, Bool.and_comm]
  · simp [h3]

theorem Wave.enter_thread {n : Nat} (hn : n < 32) (wv : Wave) (q : TrapReq) (tvec : DWord) (ev : Sparse Nat) :
    (wv.enter q tvec ev).thread n = { pc := tvec &&& 0xFFFFFFFFFFF8#64, exited := false, mem := 0, hold := none } := by
  rw [Wave.thread, Wave.enter, ofNat_bits_tvec, List.getD_eq_getElem?_getD, List.getElem?_replicate_of_lt hn, Option.getD_some]

/-! ### Privileged instructions -/

/-- Outside system and handler mode, a privileged instruction and a CSRW of a register of system mode are denied. -/
theorem Ctx.denied_of_notSys {c : Ctx} {i : Instr} (hs : c.sys = false) (h : i.privileged = true ∨ ∃ n, csrOf i = some (n, true) ∧ csrSys n = true) :
    c.denied i = true := by
  unfold Ctx.denied
  obtain hp | ⟨n, hn, hr⟩ := h
  · simp only [hp, hs, Bool.not_false, Bool.true_and, Bool.true_or]
  · simp only [hn, hr, hs, Option.any_some, Bool.not_false, Bool.true_and, Bool.true_or, Bool.or_true]

end Sys2Proof.Machine

/-- Settles O22: the check of R403 comes after that of the instruction's form and stops the issue. -/
theorem privilegedInstructions : Obligations.PrivilegedInstructions := by
  intro i s c hc hst hready hfree hlegal hsys hhandler h
  have hdenied := Ctx.denied_of_notSys (c := c) (by rw [Ctx.sys, hsys, hhandler]; rfl) h
  exact exec_stop hc (pre_denied hc ⟨hst, hready, hfree⟩ hlegal hdenied)

/-- Settles O30. -/
theorem frameWords : Obligations.FrameWords :=
  ⟨fun j _ ha hb hk => threadOf_framePc j ha hb hk, fun _ hs hk => loopOf_frameLoop hs hk, bit_framePc,
    fun n x hx => (ofBytes_toBytes n x).trans (Nat.mod_eq_of_lt hx)⟩

/-- Settles O29: the five outcomes are the branches of trap entry; writing the frame keeps the teams. -/
theorem trapEntry : Obligations.TrapEntry := by
  intro s tag w t wv q g ht hw hq hg
  have he := State.enterTrap_eq ht hw hq hg
  refine ⟨fun hst hlate => ?_, fun hst hh => ?_, fun hst hh htv => ?_, fun hst hh htv hp hf => ?_, fun u hst hh htv hp hf => ?_⟩
  · rw [he, if_pos (by simpa [hst] using hlate)]
  · rw [he, if_neg (by simp [hst]), if_pos hh]
  · rw [he, if_neg (by simp [hst]), if_neg (by simp [hh]), if_pos (by rw [htv]; rfl)]
  · rw [he, if_neg (by simp [hst]), if_neg (by simp [hh]), if_neg (by rw [htv]; decide), if_neg (by simp [hp]), hf]
  · rw [he, if_neg (by simp [hst]), if_neg (by simp [hh]), if_neg (by rw [htv]; decide), if_neg (by simp [hp]), hf]
    have hu : u.team? tag = some t := (State.team?_sansCache ((sansCache_keeps _).writeFrame rfl hf) tag).trans ht
    have ht' := (State.team?_updTeam u tag tag (·.enter w q (s.part t.part).tvec (u.copyEv tag w)) (fun _ => rfl)).trans
      (by rw [if_pos rfl, hu, Option.map_some])
    refine ⟨_, State.wave?_of_team ht' (Team.wave?_enter hw _ _ _), rfl, rfl, rfl,
      ofNat_mod_two_pow _, ofNat_mod_two_pow _, fun n hn => ?_, rfl, rfl, rfl, rfl, rfl, rfl⟩
    rw [Wave.enter_thread hn]
    exact ⟨rfl, rfl⟩
end

section
/-! PROOFS. Atomics and launders: their checks at issue (R363, R366, R377, R380), and the values that atomics store and return (R363 to R365,
Table 15.1). -/
open Sys2Proof Sys2Proof.Machine

namespace Sys2Proof.Machine

/-- An instruction whose effect ends the runs of its bundle where its checks hold (R34, R464). -/
theorem ends_issue {i : Instr} {P : State → Ctx → Prop} {x y z : Ctx → List DWord} {k : Ctx → State → Except Stop State}
    (he : ∀ s, exec i s = issue i s k) (hk : ∀ s c u, P s c → k c u = .ok (u.endRuns c (c.endOp i (x c) (y c) (z c)))) : Ends i P x y z := by
  intro s c s' hp hP
  obtain ⟨-, -, hiss⟩ := (pre_go s i c s' hp).now
  obtain ⟨t, age, hrun, hwave⟩ := issue_updWave i s k (fun c => Wave.endRuns c.b.mask (c.endOp i (x c) (y c) (z c))) c s' hp (hk s c _ hP) (fun _ => rfl)
  have hsame := Ctx.advance_same c i c.wv age
  refine ⟨t, _, (he s).trans hrun, hwave, ?_, ?_, c.endOp i (x c) (y c) (z c), ⟨rfl, hiss, rfl, rfl, rfl, rfl, rfl, rfl⟩, Wave.endRuns_ended _ _ _⟩
  · obtain ⟨hregs, hpreds, hfl, hpend, hev⟩ := hsame.quiet
    exact ⟨⟨hregs.v, hregs.s, hregs.lc⟩, hpreds, hfl, hpend, hev⟩
  · rw [Wave.endRuns_stores]
    exact (Ctx.advance_keptBut c i c.wv age).stores

/-! ### Atomics at issue -/

section
variable {i : Instr} {a : Opd} {ls : Ctx → List Nat} {ty : MTy} {y z : Ctx → Nat → DWord} (he : ∀ s, exec i s = atomIssue i s a ls ty y z)
include he

theorem atomIssue_misaligned (l : Nat) :
    TrapsIf i (fun _ c => (ls c).find? (fun k => (c.w64 a k).toNat % ty.size ≠ 0) = some l) 0x06 (fun c => (c.w64 a l).toNat) := by
  unfold atomIssue at he
  refine trapsIf_of he fun _ c _ hl => ?_
  simp only [hl]

theorem atomIssue_beyond (l : Nat) :
    TrapsIf i (fun _ c => (∀ k ∈ ls c, (c.w64 a k).toNat % ty.size = 0) ∧ (ls c).find? (fun k => 2 ^ 48 ≤ (c.w64 a k).toNat) = some l)
      0x08 (fun c => (c.w64 a l).toNat) := by
  unfold atomIssue at he
  refine trapsIf_of he fun _ c _ ⟨hal, hl⟩ => ?_
  have hnone : (ls c).find? (fun k => (c.w64 a k).toNat % ty.size ≠ 0) = none := List.find?_eq_none.2 fun k hk => by simp [hal k hk]
  simp only [hnone, ge_iff_le, hl]

theorem atomIssue_ends :
    Ends i (fun _ c => ∀ k ∈ ls c, (c.w64 a k).toNat % ty.size = 0 ∧ (c.w64 a k).toNat < 2 ^ 48)
      (fun c => byLane (c.w64 a)) (fun c => byLane (y c)) (fun c => byLane (z c)) := by
  unfold atomIssue at he
  refine ends_issue he fun _ c _ hP => ?_
  have hal : (ls c).find? (fun k => (c.w64 a k).toNat % ty.size ≠ 0) = none := List.find?_eq_none.2 fun k hk => by simp [(hP k hk).1]
  have hin : (ls c).find? (fun k => (c.w64 a k).toNat ≥ 2 ^ 48) = none := List.find?_eq_none.2 fun k hk => by simpa using (hP k hk).2
  simp only [hal, hin]
  rfl
end

/-- The three outcomes of an atomic's issue. -/
theorem atomIssue_outcomes {i : Instr} {a : Opd} {ls : Ctx → List Nat} {ty : MTy} {y z : Ctx → Nat → DWord}
    (he : ∀ s, exec i s = atomIssue i s a ls ty y z) :
    (∀ l, TrapsIf i (fun _ c => (ls c).find? (fun k => (c.w64 a k).toNat % ty.size ≠ 0) = some l) 0x06 (fun c => (c.w64 a l).toNat)) ∧
    (∀ l, TrapsIf i (fun _ c => (∀ k ∈ ls c, (c.w64 a k).toNat % ty.size = 0) ∧ (ls c).find? (fun k => 2 ^ 48 ≤ (c.w64 a k).toNat) = some l)
      0x08 (fun c => (c.w64 a l).toNat)) ∧
    Ends i (fun _ c => ∀ k ∈ ls c, (c.w64 a k).toNat % ty.size = 0 ∧ (c.w64 a k).toNat < 2 ^ 48)
      (fun c => byLane (c.w64 a)) (fun c => byLane (y c)) (fun c => byLane (z c)) :=
  ⟨atomIssue_misaligned he, atomIssue_beyond he, atomIssue_ends he⟩

theorem exec_atom (h : Hdr) (d a b : Opd) (op : AtomOp) (ty : MTy) (sc : Scope) (od : Ord) (s : State) :
    exec (.atom h d a b op ty sc od) s =
      atomIssue (.atom h d a b op ty sc od) s a (fun c => c.accLanes d) ty (fun c l => c.atB ty b l) (fun _ _ => 0) := rfl
theorem exec_red (h : Hdr) (a b : Opd) (op : AtomOp) (ty : MTy) (sc : Scope) (od : Ord) (s : State) :
    exec (.red h a b op ty sc od) s =
      atomIssue (.red h a b op ty sc od) s a (fun c => lanesOf c.lanes) ty (fun c l => c.atB ty b l) (fun _ _ => 0) := rfl
theorem exec_acas (h : Hdr) (d a b : Opd) (ty : MTy) (sc : Scope) (od : Ord) (s : State) : exec (.acas h d a b ty sc od) s = execAcas h d a b ty sc od s := rfl

/-- Compare value and new value of an ACAS from the registers of B, for the two sizes and the two kinds of register (R366). -/
theorem exec_acas_v32 (h : Hdr) (d a : Opd) (n : BitVec 7) (sc : Scope) (od : Ord) (s : State) :
    exec (.acas h d a (.v n) .b32 sc od) s = atomIssue (.acas h d a (.v n) .b32 sc od) s a (fun c => c.accLanes d) .b32
      (fun c l => (c.v n.toNat l).setWidth 64) (fun c l => (c.v (n.toNat + 1) l).setWidth 64) := rfl
theorem exec_acas_v64 (h : Hdr) (d a : Opd) (n : BitVec 7) {ty : MTy} (hty : ty ≠ .b32) (sc : Scope) (od : Ord) (s : State) :
    exec (.acas h d a (.v n) ty sc od) s = atomIssue (.acas h d a (.v n) ty sc od) s a (fun c => c.accLanes d) ty
      (fun c l => c.v (n.toNat + 1) l ++ c.v n.toNat l) (fun c l => c.v (n.toNat + 3) l ++ c.v (n.toNat + 2) l) := by
  rw [exec_acas, execAcas]
  simp only [if_neg hty]
  rfl
theorem exec_acas_s32 (h : Hdr) (d a : Opd) (n : BitVec 6) (sc : Scope) (od : Ord) (s : State) :
    exec (.acas h d a (.s n) .b32 sc od) s = atomIssue (.acas h d a (.s n) .b32 sc od) s a (fun c => c.accLanes d) .b32
      (fun c _ => ((c.s n.toNat).setWidth 32 : Word).setWidth 64) (fun c _ => ((c.s (n.toNat + 1)).setWidth 32 : Word).setWidth 64) := rfl
theorem exec_acas_s64 (h : Hdr) (d a : Opd) (n : BitVec 6) {ty : MTy} (hty : ty ≠ .b32) (sc : Scope) (od : Ord) (s : State) :
    exec (.acas h d a (.s n) ty sc od) s = atomIssue (.acas h d a (.s n) ty sc od) s a (fun c => c.accLanes d) ty
      (fun c _ => c.s n.toNat) (fun c _ => c.s (n.toNat + 1)) := by
  rw [exec_acas, execAcas]
  simp only [if_neg hty]
  rfl

/-! ### What an atomic makes of the old value (Table 15.1) -/

theorem atomNew_b64 (o b : DWord) :
    (atomNew .add .b64 o b).1 = o + b ∧ (atomNew .exch .b64 o b).1 = b ∧ (atomNew .and .b64 o b).1 = o &&& b ∧
    (atomNew .or .b64 o b).1 = o ||| b ∧ (atomNew .xor .b64 o b).1 = o ^^^ b ∧
    (atomNew .min .b64 o b).1 = (if o.ule b then o else b) ∧ (atomNew .max .b64 o b).1 = (if b.ult o then o else b) ∧
    (atomNew .min .i64 o b).1 = (if o.sle b then o else b) ∧ (atomNew .max .i64 o b).1 = (if b.slt o then o else b) :=
  ⟨rfl, rfl, rfl, rfl, rfl, rfl, rfl, rfl, rfl⟩

@[simp] theorem setWidth_setWidth_word (x : Word) : (x.setWidth 64).setWidth 32 = x := by
  rw [BitVec.setWidth_setWidth_of_le _ (by decide), BitVec.setWidth_eq]

/-- The smaller of two, given by its order or by the order reversed. -/
theorem ite_lt_eq_ite_le {α β : Type} [LinearOrder α] (f : β → α) (x y : β) : (if f x ≤ f y then y else x) = if f y < f x then x else y := by
  by_cases h : f x ≤ f y
  · rw [if_pos h, if_neg (not_lt.2 h)]
  · rw [if_neg h, if_pos (not_le.1 h)]

theorem atomNew_b32 (o b : Word) :
    (atomNew .add .b32 (o.setWidth 64) (b.setWidth 64)).1 = (o + b).setWidth 64 ∧
    (atomNew .inc .b32 (o.setWidth 64) (b.setWidth 64)).1 = (if b.ule o then 0 else o + 1 : Word).setWidth 64 ∧
    (atomNew .dec .b32 (o.setWidth 64) (b.setWidth 64)).1 = (if o = 0 ∨ b.ult o then b else o - 1 : Word).setWidth 64 ∧
    (atomNew .exch .b32 (o.setWidth 64) (b.setWidth 64)).1 = b.setWidth 64 ∧ (atomNew .and .b32 (o.setWidth 64) (b.setWidth 64)).1 = (o &&& b).setWidth 64 ∧
    (atomNew .or .b32 (o.setWidth 64) (b.setWidth 64)).1 = (o ||| b).setWidth 64 ∧
    (atomNew .xor .b32 (o.setWidth 64) (b.setWidth 64)).1 = (o ^^^ b).setWidth 64 ∧
    (atomNew .min .b32 (o.setWidth 64) (b.setWidth 64)).1 = (if o.ule b then o else b).setWidth 64 ∧
    (atomNew .max .b32 (o.setWidth 64) (b.setWidth 64)).1 = (if b.ult o then o else b).setWidth 64 := by
  refine ⟨?_, ?_, ?_, rfl, BitVec.setWidth_and.symm, BitVec.setWidth_or.symm, BitVec.setWidth_xor.symm, ?_, ?_⟩
  all_goals simp only [atomNew, MTy.size, setWidth_setWidth_word, Nat.reduceEqDiff, if_false, BitVec.ule, BitVec.ult, decide_eq_true_eq, ge_iff_le, gt_iff_lt]
  rw [ite_lt_eq_ite_le]

theorem atomNew_i32 (o b : Word) :
    (atomNew .add .i32 (o.setWidth 64) (b.setWidth 64)).1 = (o + b).setWidth 64 ∧
    (atomNew .min .i32 (o.setWidth 64) (b.setWidth 64)).1 = (if o.sle b then o else b).setWidth 64 ∧
    (atomNew .max .i32 (o.setWidth 64) (b.setWidth 64)).1 = (if b.slt o then o else b).setWidth 64 := by
  refine ⟨?_, ?_, ?_⟩
  all_goals simp only [atomNew, MTy.size, setWidth_setWidth_word, Nat.reduceEqDiff, if_false, BitVec.sle, BitVec.slt, decide_eq_true_eq]
  rw [ite_lt_eq_ite_le]

theorem atomNew_f32 (o b : Word) :
    (atomNew .add .f32 (o.setWidth 64) (b.setWidth 64)).1 = (fAdd fp32 0 (f32 o) (f32 b)).word.setWidth 64 ∧
    (atomNew .min .f32 (o.setWidth 64) (b.setWidth 64)).1 = (fMinMax fp32 false o.toNat b.toNat).word.setWidth 64 ∧
    (atomNew .max .f32 (o.setWidth 64) (b.setWidth 64)).1 = (fMinMax fp32 true o.toNat b.toNat).word.setWidth 64 := by
  simp only [atomNew, setWidth_setWidth_word, and_self]

/-! ### The lanes of an atomic, one after the other -/

section
variable (s : State) (t : Team) (sys : Bool) (e : EndOp) (f : AtomForm) (l : Nat)

theorem State.atomLanes_red {op : AtomOp} (hr : f.red = true) (ho : f.op = some op) (ls : List Nat) :
    s.atomLanes t sys e f (l :: ls) = (s.redLane t sys f op (e.x.getD l 0).toNat (e.y.getD l 0)).atomLanes t sys e f ls := by
  rw [atomLanes, hr, ho]

theorem State.atomLanes_error {x : Nat} (h : f.red = false ∨ f.op = none) (hx : s.atomLane t sys e f l = .error x) (ls : List Nat) :
    s.atomLanes t sys e f (l :: ls) = (s, [], 0, some (l, x)) := by
  obtain h | h := h
  · simp only [atomLanes, h, hx]
  · cases hr : f.red <;> simp only [atomLanes, hr, h, hx]

theorem State.atomLanes_ok {u : State} {old : DWord} {fl : BitVec 8} (h : f.red = false ∨ f.op = none)
    (hu : s.atomLane t sys e f l = .ok (u, old, fl)) (ls : List Nat) :
    s.atomLanes t sys e f (l :: ls) = ((u.atomLanes t sys e f ls).1, (l, old) :: (u.atomLanes t sys e f ls).2.1, fl ||| (u.atomLanes t sys e f ls).2.2.1,
      (u.atomLanes t sys e f ls).2.2.2) := by
  obtain h | h := h
  · simp only [atomLanes, h, hu]
  · cases hr : f.red <;> simp only [atomLanes, hr, h, hu]

/-- The rest of the lanes follow a lane that does not stop. -/
theorem State.atomLanes_cons (h : (s.atomLanes t sys e f [l]).2.2.2 = none) (ls : List Nat) :
    (s.atomLanes t sys e f (l :: ls)).1 = ((s.atomLanes t sys e f [l]).1.atomLanes t sys e f ls).1 ∧
    (s.atomLanes t sys e f (l :: ls)).2.1 = (s.atomLanes t sys e f [l]).2.1 ++ ((s.atomLanes t sys e f [l]).1.atomLanes t sys e f ls).2.1 := by
  have plain (hp : f.red = false ∨ f.op = none) : (s.atomLanes t sys e f (l :: ls)).1 = ((s.atomLanes t sys e f [l]).1.atomLanes t sys e f ls).1 ∧
      (s.atomLanes t sys e f (l :: ls)).2.1 = (s.atomLanes t sys e f [l]).2.1 ++ ((s.atomLanes t sys e f [l]).1.atomLanes t sys e f ls).2.1 := by
    cases hl : s.atomLane t sys e f l with
    | error x => rw [s.atomLanes_error t sys e f l hp hl] at h; cases h
    | ok r =>
      obtain ⟨u, old, fl⟩ := r
      rw [s.atomLanes_ok t sys e f l hp hl ls, s.atomLanes_ok t sys e f l hp hl []]
      exact ⟨rfl, rfl⟩
  cases hr : f.red with
  | false => exact plain (.inl hr)
  | true =>
    cases ho : f.op with
    | none => exact plain (.inr ho)
    | some op =>
      rw [s.atomLanes_red t sys e f l hr ho ls, s.atomLanes_red t sys e f l hr ho []]
      exact ⟨rfl, rfl⟩
end

/-- The state in which an atomic reads the old value at its home. -/
def State.atomTouch (s : State) (t : Team) (sys : Bool) (f : AtomForm) (pa va : Nat) : State :=
  s.touch (f.via t pa) t.part t.asid va f.ty.size sys .write true
/-- The old value's bytes. -/
def State.atomRead (s : State) (t : Team) (sys : Bool) (f : AtomForm) (pa va : Nat) : Except Bad (List Byte) :=
  (s.atomTouch t sys f pa va).readBy (f.via t pa) t.part t.asid va f.ty.size sys .write
/-- The state after the value of an atomic is written at its home. -/
def State.atomPut (u : State) (t : Team) (sys : Bool) (f : AtomForm) (pa va : Nat) (x : DWord) : State :=
  ((u.writeBy (f.via t pa) t.part t.asid va sys (toBytes f.ty.size x.toNat)).tableWrite t.asid va f.ty.size).spoilBytes (atomBytes t f va)
/-- Does the host refuse an atomic on this address? -/
def State.atomRefused (s : State) (f : AtomForm) (pa : Nat) : Prop := f.sc = .sys ∧ isHost pa = true ∧ Config.hostRefuses s.free pa = true

section
variable {s : State} {t : Team} {sys : Bool} {e : EndOp} {f : AtomForm} {l pa : Nat} {at_ : Attr}
  (htr : s.translateBy (some t.core) t.part t.asid (e.x.getD l 0).toNat sys .write = .ok pa at_)
include htr

theorem State.atomLane_refused (h : s.atomRefused f pa) : s.atomLane t sys e f l = .error 0x08 := by
  unfold atomLane
  simp only [htr]
  exact if_pos h

variable (hfree : ¬s.atomRefused f pa)
include hfree

theorem State.atomLane_poison {x : Bad} (hx : s.atomRead t sys f pa (e.x.getD l 0).toNat = .error x) : s.atomLane t sys e f l = .error 0x09 := by
  unfold atomRead atomTouch at hx
  unfold atomLane
  simp only [htr, hx]
  exact if_neg hfree

theorem State.redLane_home (op : AtomOp) : s.redLane t sys f op (e.x.getD l 0).toNat (e.y.getD l 0) =
    (((s.tlbFill (some t.core) t.part t.asid (e.x.getD l 0).toNat).tableWrite t.asid (e.x.getD l 0).toNat f.ty.size).spoilBytes
      (atomBytes t f (e.x.getD l 0).toNat)).redAt (f.via t pa) (Tgt.of t.part t.asid (e.x.getD l 0).toNat pa at_)
        { loc := .slice 0, part := t.part, asid := t.asid, va := (e.x.getD l 0).toNat, sys := sys, op := op, ty := f.ty, x := e.y.getD l 0 } := by
  unfold redLane
  simp only [htr]
  exact if_neg hfree

variable {bs : List Byte} (hbs : s.atomRead t sys f pa (e.x.getD l 0).toNat = .ok bs)
include hbs

theorem State.atomLane_op {op : AtomOp} (ho : f.op = some op) :
    s.atomLane t sys e f l = .ok ((s.atomTouch t sys f pa (e.x.getD l 0).toNat).atomPut t sys f pa (e.x.getD l 0).toNat
      (atomNew op f.ty (BitVec.ofNat 64 (ofBytes bs)) (e.y.getD l 0)).1, BitVec.ofNat 64 (ofBytes bs),
      (atomNew op f.ty (BitVec.ofNat 64 (ofBytes bs)) (e.y.getD l 0)).2) := by
  unfold atomRead atomTouch at hbs
  unfold atomLane
  simp only [htr, hbs, ho]
  exact if_neg hfree

theorem State.atomLane_cas (ho : f.op = none) :
    s.atomLane t sys e f l = .ok (if BitVec.ofNat 64 (ofBytes bs) = e.y.getD l 0 then
        (s.atomTouch t sys f pa (e.x.getD l 0).toNat).atomPut t sys f pa (e.x.getD l 0).toNat (e.z.getD l 0)
      else s.atomTouch t sys f pa (e.x.getD l 0).toNat, BitVec.ofNat 64 (ofBytes bs), 0) := by
  unfold atomRead atomTouch at hbs
  unfold atomLane
  simp only [htr, hbs, ho]
  refine (if_neg hfree).trans ?_
  by_cases hold : BitVec.ofNat 64 (ofBytes bs) = e.y.getD l 0
  · simp only [if_pos hold]; rfl
  · simp only [if_neg hold]; rfl
end

/-! ### SEND and RECV at issue -/

section
variable {i : Instr} {a : Opd} {n : BitVec 4} {send : Bool} (he : ∀ s, exec i s = launderIssue i s a n send)
include he

theorem launderIssue_misuse : TrapsIf i (fun _ c => c.lanes ≠ 0 ∧ ∀ ld, ¬(c.gg.kobj.launders[n.toNat]? = some ld ∧
    c.gg.kobj.posOf (if send then ld.src else ld.dst) = some c.tm.pos)) 0x10 (fun _ => 0) := by
  unfold launderIssue at he
  refine trapsIf_of he fun _ c _ ⟨hl, hno⟩ => (if_neg hl).trans ?_
  cases hld : c.gg.kobj.launders[n.toNat]? with
  | none => simp only [hld]
  | some ld => simp only [hld]; exact if_pos fun hpos => hno ld ⟨hld, hpos⟩

theorem launderIssue_misaligned : TrapsIf i (fun _ c => c.lanes ≠ 0 ∧ (∃ ld, c.gg.kobj.launders[n.toNat]? = some ld ∧
    c.gg.kobj.posOf (if send then ld.src else ld.dst) = some c.tm.pos) ∧ (c.sc a).toNat % 2 ^ 32 % 16 ≠ 0) 0x06 (fun c => (c.sc a).toNat % 2 ^ 32) := by
  unfold launderIssue at he
  refine trapsIf_of he fun _ c _ ⟨hl, ⟨ld, hld, hpos⟩, hal⟩ => (if_neg hl).trans ?_
  simp only [hld]
  exact (if_neg (not_not.2 hpos)).trans (if_pos hal)

theorem launderIssue_beyond : TrapsIf i (fun _ c => c.lanes ≠ 0 ∧ (c.sc a).toNat % 2 ^ 32 % 16 = 0 ∧ ∃ ld, (c.gg.kobj.launders[n.toNat]? = some ld ∧
    c.gg.kobj.posOf (if send then ld.src else ld.dst) = some c.tm.pos) ∧ c.gg.kobj.scrLen < (c.sc a).toNat % 2 ^ 32 + ld.size) 0x08
    (fun c => (c.sc a).toNat % 2 ^ 32) := by
  unfold launderIssue at he
  refine trapsIf_of he fun _ c _ ⟨hl, hal, ld, ⟨hld, hpos⟩, hlen⟩ => (if_neg hl).trans ?_
  simp only [hld]
  exact (if_neg (not_not.2 hpos)).trans ((if_neg (not_not.2 hal)).trans (if_pos hlen))

theorem launderIssue_ends : Ends i (fun _ c => c.lanes ≠ 0 ∧ (c.sc a).toNat % 2 ^ 32 % 16 = 0 ∧ ∃ ld, (c.gg.kobj.launders[n.toNat]? = some ld ∧
    c.gg.kobj.posOf (if send then ld.src else ld.dst) = some c.tm.pos) ∧ (c.sc a).toNat % 2 ^ 32 + ld.size ≤ c.gg.kobj.scrLen)
    (fun c => [BitVec.ofNat 64 ((c.sc a).toNat % 2 ^ 32)]) (fun _ => []) (fun _ => []) := by
  unfold launderIssue at he
  refine ends_issue he fun _ c _ ⟨hl, hal, ld, ⟨hld, hpos⟩, hlen⟩ => (if_neg hl).trans ?_
  simp only [hld]
  exact (if_neg (not_not.2 hpos)).trans ((if_neg (not_not.2 hal)).trans (if_neg (not_lt.2 hlen)))

theorem launderIssue_idle : Ends i (fun _ c => c.lanes = 0) (fun _ => []) (fun _ => []) (fun _ => []) := by
  unfold launderIssue at he
  exact ends_issue he fun _ c _ hz => if_pos hz
end

theorem exec_send_or_recv (h : Hdr) (d a : Opd) (n : BitVec 4) (send : Bool) (s : State) :
    exec (if send then .send h d a n else .recv h d a n) s = launderIssue (if send then .send h d a n else .recv h d a n) s a n send := by
  cases send <;> rfl

end Sys2Proof.Machine

/-- Settles O35: each of the six forms is one `atomIssue`. -/
theorem atomicsIssue : Obligations.AtomicsIssue := by
  rintro h d a b op ty sc od i ls y z (⟨rfl, rfl, rfl, rfl⟩ | ⟨rfl, rfl, rfl, rfl⟩ | ⟨n, rfl, rfl, rfl, rfl, rfl, rfl⟩ | ⟨n, rfl, hty, rfl, rfl, rfl, rfl⟩ |
    ⟨n, rfl, hty, rfl, rfl, rfl, rfl⟩ | ⟨n, rfl, rfl, rfl, rfl, rfl, rfl⟩)
  · exact atomIssue_outcomes (exec_atom h d a b op ty sc od)
  · exact atomIssue_outcomes (exec_red h a b op ty sc od)
  · exact atomIssue_outcomes (exec_acas_v32 h d a n sc od)
  · exact atomIssue_outcomes (exec_acas_v64 h d a n hty sc od)
  · exact atomIssue_outcomes (exec_acas_s64 h d a n hty sc od)
  · exact atomIssue_outcomes (exec_acas_s32 h d a n sc od)

/-- Settles O36: Table 15.1 by the cases of `atomNew`; the lanes by the equations of `atomLane`, `redLane` and `atomLanes`. -/
theorem atomicValues : Obligations.AtomicValues := by
  refine ⟨atomNew_b64, fun o b => ?words, ?home, fun s t sys e f l ls h => s.atomLanes_cons t sys e f l h ls⟩
  case words =>
    obtain ⟨add, inc, dec, exch, and, or, xor, min, max⟩ := atomNew_b32 o b
    obtain ⟨iadd, imin, imax⟩ := atomNew_i32 o b
    exact ⟨add, inc, dec, exch, and, or, xor, min, max, iadd, imin, imax, atomNew_f32 o b⟩
  case home =>
    intro s t sys e f l pa at_ va htr refused
    refine ⟨?performed, fun hr href => s.atomLanes_error t sys e f l (.inl hr) (State.atomLane_refused htr href) [], fun op hr ho hfree => ?_⟩
    case performed =>
      intro hr hfree s1
      refine ⟨?_, fun x hx => s.atomLanes_error t sys e f l (.inl hr) (State.atomLane_poison htr hfree hx) []⟩
      intro bs hbs old put
      cases ho : f.op with
      | none =>
        rw [s.atomLanes_ok t sys e f l (.inl hr) (State.atomLane_cas htr hfree hbs ho) []]
        exact ⟨fun _ h => (nomatch h), fun _ => rfl, rfl, rfl⟩
      | some op =>
        rw [s.atomLanes_ok t sys e f l (.inl hr) (State.atomLane_op htr hfree hbs ho) []]
        exact ⟨fun _ h => Option.some.inj h ▸ rfl, fun h => (nomatch h), rfl, rfl⟩
    · exact (s.atomLanes_red t sys e f l hr ho []).trans (by rw [State.redLane_home htr hfree]; rfl)

/-- Settles O37: SEND and RECV are one `launderIssue`. -/
theorem launderIssue : Obligations.LaunderIssue := by
  rintro h d a n send i rfl
  have he := exec_send_or_recv h d a n send
  exact ⟨launderIssue_misuse he, launderIssue_misaligned he, launderIssue_beyond he, launderIssue_ends he, launderIssue_idle he⟩

end

section
/-! PROOFS. Issue of the beam and texture instructions (R330, R331, R333, R334, R336, R337). -/
open Sys2Proof Sys2Proof.Machine

namespace Sys2Proof.Machine

/-! ### The runs of a wave -/

/-- The run of a slice, after a change of the runs that keeps their slices. -/
theorem find?_map_sl (f : Region → Region) (hf : ∀ r, (f r).sl = r.sl) (l : List Region) (sl : Nat) :
    (l.map f).find? (·.sl == sl) = (l.find? (·.sl == sl)).map f := by
  rw [List.find?_map]
  simp only [Function.comp_def, hf]

/-- The bookkeeping of an issue changes of a run only what it has read and written. -/
theorem Ctx.advance_region? (c : Ctx) (i : Instr) (wv : Wave) (age : Sparse Nat) {sl : Nat} {r : Region} (h : wv.region? sl = some r) :
    ∃ rd wr, ({ c.advance i wv with age := age } : Wave).region? sl = some { r with rd := rd, wr := wr } := by
  have htrack : ({ c.advance i wv with age := age } : Wave).regions = wv.regions.map (fun r => if c.b.mask &&& sliceMask r.sl ≠ 0 then
      r.track (c.inSlice i r.sl (c.reads i ++ c.evReads i)) (c.inSlice i r.sl (c.writes i ++ c.evWrites i)) else r) := by
    simp only [Ctx.advance]
    split <;> split <;> rfl
  rw [Wave.region?, htrack, find?_map_sl _ (fun r => by split <;> rfl)]
  rw [Wave.region?] at h
  rw [h, Option.map_some]
  split
  · exact ⟨_, _, rfl⟩
  · exact ⟨r.rd, r.wr, rfl⟩

/-! ### BEAM and RAYS -/

theorem beam_issue (h : Hdr) (d a : Opd) (ev : Option (BitVec 3)) :
    TrapsIf (.beam h d a ev) (fun _ c => c.lanes ≠ 0 ∧ (c.sc a).toNat % 16 ≠ 0) 0x06 (fun c => (c.sc a).toNat) ∧
    TrapsIf (.beam h d a ev) (fun _ c => c.lanes ≠ 0 ∧ (c.sc a).toNat % 16 = 0 ∧ c.gg.kobj.scrLen < (c.sc a).toNat + 256) 0x08 (fun c => (c.sc a).toNat) ∧
    TrapsIf (.beam h d a ev) (fun _ c => c.lanes ≠ 0 ∧ (c.sc a).toNat % 16 = 0 ∧ (c.sc a).toNat + 256 ≤ c.gg.kobj.scrLen ∧ c.wv.sceneDue = false) 0x14
      (fun _ => 0) ∧
    StartsEnding (.beam h d a ev) (fun _ c => c.lanes = 0 ∨ ((c.sc a).toNat % 16 = 0 ∧ (c.sc a).toNat + 256 ≤ c.gg.kobj.scrLen ∧ c.wv.sceneDue = true))
      (fun c => [c.sc a]) (fun _ => []) := by
  have he (s : State) : exec (.beam h d a ev) s = execBeam h d a ev s := rfl
  unfold execBeam at he
  simp only [BitVec.ofNat_toNat, BitVec.setWidth_eq] at he
  refine ⟨trapsIf_of he fun _ _ _ ⟨hl, hal⟩ => (if_neg hl).trans (if_pos hal),
    trapsIf_of he fun _ _ _ ⟨hl, hal, hlen⟩ => (if_neg hl).trans ((if_neg (not_not.2 hal)).trans (if_pos hlen)),
    trapsIf_of he fun _ _ _ ⟨hl, hal, hlen, hsc⟩ =>
      (if_neg hl).trans ((if_neg (not_not.2 hal)).trans ((if_neg (not_lt.2 hlen)).trans (if_pos (by rw [hsc]; rfl)))),
    startsEnding_of (z := fun _ => []) (q := fun c => { c.pend (.beam h d a ev) [c.ownRid] with dsts := [] }) he (fun _ c u hP => ?_)
      (fun _ => ⟨rfl, rfl, rfl, rfl⟩)⟩
  by_cases hl : c.lanes = 0
  · rw [State.start_idle _ _ _ hl]; exact if_pos hl
  · obtain ⟨hal, hlen, hsc⟩ := hP.resolve_left hl
    exact (if_neg hl).trans ((if_neg (not_not.2 hal)).trans ((if_neg (not_lt.2 hlen)).trans (if_neg (by rw [hsc]; decide))))

/-- The four words of an operand in every lane (R334, R337). -/
def Ctx.fourWords (c : Ctx) (o : Opd) : List DWord := (List.range 128).map (fun i => (c.wide o (i % 4) (i / 4)).setWidth 64)

theorem rays_issue (h : Hdr) (d a b : Opd) (first sh : Bool) (ev : Option (BitVec 3)) :
    TrapsIf (.rays h d a b first sh ev) (fun _ c => c.lanes ≠ 0 ∧ c.wv.sceneDue = false) 0x14 (fun _ => 0) ∧
    StartsEnding (.rays h d a b first sh ev) (fun _ c => c.lanes = 0 ∨ c.wv.sceneDue = true) (fun c => c.fourWords a) (fun c => c.fourWords b) := by
  have he (s : State) : exec (.rays h d a b first sh ev) s = execRays h d a b first sh ev s := rfl
  unfold execRays at he
  refine ⟨trapsIf_of he fun _ _ _ ⟨hl, hsc⟩ => (if_neg hl).trans (if_pos (by rw [hsc]; rfl)),
    startsEnding_of (z := fun _ => []) (q := fun c => { c.pend (.rays h d a b first sh ev) c.rids with dsts := [] }) he (fun _ c u hP => ?_)
      (fun _ => ⟨rfl, rfl, rfl, rfl⟩)⟩
  by_cases hl : c.lanes = 0
  · rw [State.start_idle _ _ _ hl]; exact if_pos hl
  · exact (if_neg hl).trans (if_neg (by rw [hP.resolve_left hl]; decide))

/-! ### BDONE -/

theorem noHandle_iff (x : Word) : noHandle x = true ↔ x = 0xFFFFFFFF ∨ x = 0xFFFFFFFE := by
  simp only [noHandle, Bool.or_eq_true, beq_iff_eq]

/-- Does BDONE of the handle that `a` names free nothing? -/
abbrev Ctx.bdoneIdle (c : Ctx) (a : Opd) : Prop := c.lanes = 0 ∨ (c.sc a).setWidth 32 = 0xFFFFFFFF#32 ∨ (c.sc a).setWidth 32 = 0xFFFFFFFE#32
theorem Ctx.bdoneIdle_iff (c : Ctx) (a : Opd) : c.bdoneIdle a ↔ c.lanes = 0 ∨ noHandle ((c.sc a).setWidth 32) = true := by
  rw [noHandle_iff]; rfl

theorem bdone_issue (h : Hdr) (a : Opd) :
    TrapsIf (.bdone h a) (fun _ c => ¬c.bdoneIdle a ∧ c.tm.byHandle ((c.sc a).setWidth 32) = none) 0x14 (fun _ => 0) ∧
    ActsIf (.bdone h a) (fun _ c => c.bdoneIdle a ∨ c.tm.byHandle ((c.sc a).setWidth 32) ≠ none) (fun _ c wv => c.wv.Quiet wv ∧
      ∀ sl r, c.wv.region? sl = some r → ∃ r', wv.region? sl = some r' ∧
        r'.bdone = r.bdone ++ if ¬c.bdoneIdle a ∧ sl = lowest c.lanes / 4 then [(c.sc a).setWidth 32] else []) := by
  have he (s : State) : exec (.bdone h a) s = execBdone h a s := rfl
  unfold execBdone at he
  refine ⟨trapsIf_of he fun _ c _ ⟨hact, hno⟩ => (if_neg ((c.bdoneIdle_iff a).not.1 hact)).trans (if_pos (by rw [hno]; rfl)),
    actsIf_of he fun s c s' u age hp hP hu => ?_⟩
  have hquiet := (Ctx.advance_same c (.bdone h a) c.wv age).quiet
  by_cases hact : c.bdoneIdle a
  · refine ⟨u, _, if_pos ((c.bdoneIdle_iff a).1 hact), hu, hquiet, fun sl r hr => ?_⟩
    obtain ⟨rd, wr, hr'⟩ := c.advance_region? (.bdone h a) c.wv age hr
    exact ⟨_, hr', by rw [if_neg fun e => e.1 hact, List.append_nil]⟩
  · have hsome : ¬(c.tm.byHandle ((c.sc a).setWidth 32)).isNone = true := by
      rw [Option.isNone_iff_eq_none]; exact hP.resolve_left hact
    refine ⟨_, _, (if_neg ((c.bdoneIdle_iff a).not.1 hact)).trans (if_neg hsome), State.updRun_wave _ hu, hquiet.congr rfl rfl, fun sl r hr => ?_⟩
    obtain ⟨rd, wr, hr'⟩ := c.advance_region? (.bdone h a) c.wv age hr
    have hsl : r.sl = sl := by simpa using List.find?_some hr
    refine ⟨_, (find?_map_sl _ (fun r => by split <;> rfl) _ sl).trans (congrArg _ hr'), ?_⟩
    subst hsl
    by_cases hown : r.sl = lowest c.lanes / 4
    · simp only [Ctx.ownSlice, hown, hact, if_true, not_false_eq_true, and_self]
    · simp only [Ctx.ownSlice, hown, if_false, and_false, List.append_nil]

/-! ### HITACC -/

/-- The lanes whose tag HITACC decides. -/
def Ctx.hitaccLanes (c : Ctx) (a : Opd) : List Nat := (lanesOf c.lanes).filter (fun l => c.w32 a l ≠ 0xFFFFFFFF)
/-- May HITACC decide the candidate of a lane's tag (R336)? -/
def Ctx.hitaccOk (c : Ctx) (a g : Opd) (l : Nat) : Prop := (c.w32 g l).toNat ≤ 2 ∧ ∃ r y, c.tm.candOf (c.w32 a l) = some (r, y) ∧ y.dec = none ∧
  ∀ k, y.taken = some k → k = c.wv.ridOf (l / 4)
/-- The model's test that HITACC may not. -/
def Ctx.hitaccBad (c : Ctx) (a g : Opd) (l : Nat) : Bool := (c.w32 g l).toNat > 2 || (match c.tm.candOf (c.w32 a l) with
  | none => true
  | some (_, x) => x.dec.isSome || x.taken.any (· ≠ c.wv.ridOf (l / 4)))
/-- Are the words of the candidate's record lost? -/
def Ctx.hitaccSpoilt (c : Ctx) (a : Opd) (l : Nat) : Prop := ∃ r y, c.tm.candOf (c.w32 a l) = some (r, y) ∧ r.bad = true

theorem Ctx.hitaccBad_iff (c : Ctx) (a g : Opd) (l : Nat) : c.hitaccBad a g l = true ↔ ¬c.hitaccOk a g l := by
  unfold hitaccBad hitaccOk
  cases hc : c.tm.candOf (c.w32 a l) with
  | none => simp
  | some x =>
    obtain ⟨r, y⟩ := x
    cases hd : y.dec <;> cases ht : y.taken <;> simp [hd, ht]
    all_goals omega

theorem Ctx.hitaccSpoilt_iff (c : Ctx) (a : Opd) (l : Nat) : (c.tm.candOf (c.w32 a l)).any (·.1.bad) = true ↔ c.hitaccSpoilt a l := by
  unfold hitaccSpoilt
  cases c.tm.candOf (c.w32 a l) with
  | none => simp
  | some x => obtain ⟨r, y⟩ := x; simp

/-- The decisions of HITACC in a slice. -/
def Ctx.hitaccDecisions (c : Ctx) (a b g : Opd) (sl : Nat) : List Decision :=
  ((c.hitaccLanes a).filter (fun l => l / 4 = sl)).map (fun l => { tag := c.w32 a l, dec := (c.w32 g l).toNat, t := c.w32 b l })
/-- The runs of the wave keep the decisions of HITACC. -/
def Wave.decide (c : Ctx) (a b g : Opd) (wv : Wave) : Wave :=
  { wv with regions := wv.regions.map (fun r => { r with decisions := r.decisions ++ c.hitaccDecisions a b g r.sl }) }

/-- What HITACC does past the checks of its issue. -/
def hitaccEffect (a b g : Opd) (c : Ctx) (u : State) : Except Stop State :=
  if ((c.hitaccLanes a).filter (c.hitaccBad a g)).any (fun l => (c.tm.failedBy (c.w32 a l)).isNone) then .error (.trap 0x14 0)
  else match (c.hitaccLanes a).findSome? (fun l => c.tm.failedBy (c.w32 a l)) with
    | some cause => .error (.trap cause 0)
    | none =>
      if (c.hitaccLanes a).any (fun l => (c.tm.candOf (c.w32 a l)).any (·.1.bad)) then .error (.trap 0x15 0)
      else .ok (u.onWave c (Wave.decide c a b g))
theorem exec_hitacc (h : Hdr) (a b g : Opd) (s : State) : exec (.hitacc h a b g) s = issue (.hitacc h a b g) s (hitaccEffect a b g) := rfl

section
variable {a b g : Opd} {c : Ctx} {u : State}

/-- No lane of HITACC is refused where each may decide or names a failed record. -/
theorem hitacc_allowed (h : ∀ l ∈ c.hitaccLanes a, c.hitaccOk a g l ∨ c.tm.failedBy (c.w32 a l) ≠ none) :
    ¬((c.hitaccLanes a).filter (c.hitaccBad a g)).any (fun l => (c.tm.failedBy (c.w32 a l)).isNone) = true := by
  simp only [List.any_eq_true, List.mem_filter, Option.isNone_iff_eq_none, not_exists, not_and]
  exact fun l ⟨hl, hbad⟩ hnone => (h l hl).elim ((c.hitaccBad_iff a g l).1 hbad) (fun e => e hnone)

theorem hitaccEffect_refused (h : ∃ l ∈ c.hitaccLanes a, ¬c.hitaccOk a g l ∧ c.tm.failedBy (c.w32 a l) = none) :
    hitaccEffect a b g c u = .error (.trap 0x14 0) := by
  obtain ⟨l, hl, hok, hnone⟩ := h
  refine if_pos (List.any_eq_true.2 ⟨l, List.mem_filter.2 ⟨hl, (c.hitaccBad_iff a g l).2 hok⟩, ?_⟩)
  rw [hnone]; rfl

theorem hitaccEffect_failed {cause : Nat} (h : ∀ l ∈ c.hitaccLanes a, c.hitaccOk a g l ∨ c.tm.failedBy (c.w32 a l) ≠ none)
    (hf : (c.hitaccLanes a).findSome? (fun l => c.tm.failedBy (c.w32 a l)) = some cause) : hitaccEffect a b g c u = .error (.trap cause 0) := by
  rw [hitaccEffect, if_neg (hitacc_allowed h), hf]

variable (h : ∀ l ∈ c.hitaccLanes a, c.hitaccOk a g l ∧ c.tm.failedBy (c.w32 a l) = none)
include h

theorem hitaccEffect_words : hitaccEffect a b g c u =
    if (c.hitaccLanes a).any (fun l => (c.tm.candOf (c.w32 a l)).any (·.1.bad)) then .error (.trap 0x15 0) else .ok (u.onWave c (Wave.decide c a b g)) := by
  have hnone : (c.hitaccLanes a).findSome? (fun l => c.tm.failedBy (c.w32 a l)) = none := List.findSome?_eq_none_iff.2 fun l hl => (h l hl).2
  rw [hitaccEffect, if_neg (hitacc_allowed fun l hl => .inl (h l hl).1), hnone]

theorem hitaccEffect_spoilt (hs : ∃ l ∈ c.hitaccLanes a, c.hitaccSpoilt a l) : hitaccEffect a b g c u = .error (.trap 0x15 0) := by
  obtain ⟨l, hl, hbad⟩ := hs
  exact (hitaccEffect_words h).trans (if_pos (List.any_eq_true.2 ⟨l, hl, (c.hitaccSpoilt_iff a l).2 hbad⟩))

theorem hitaccEffect_decides (hs : ∀ l ∈ c.hitaccLanes a, ¬c.hitaccSpoilt a l) : hitaccEffect a b g c u = .ok (u.onWave c (Wave.decide c a b g)) := by
  refine (hitaccEffect_words h).trans (if_neg fun e => ?_)
  obtain ⟨l, hl, hbad⟩ := List.any_eq_true.1 e
  exact hs l hl ((c.hitaccSpoilt_iff a l).1 hbad)
end

theorem hitacc_decides (h : Hdr) (a b g : Opd) : ActsIf (.hitacc h a b g)
    (fun _ c => ∀ l ∈ c.hitaccLanes a, c.hitaccOk a g l ∧ c.tm.failedBy (c.w32 a l) = none ∧ ¬c.hitaccSpoilt a l) (fun _ c wv => c.wv.Quiet wv ∧
      ∀ sl r, c.wv.region? sl = some r → ∃ r', wv.region? sl = some r' ∧ r'.stores = r.stores ∧
        r'.decisions = r.decisions ++ c.hitaccDecisions a b g sl) := by
  refine actsIf_of (exec_hitacc h a b g) fun s c s' u age hp hP hu => ?_
  have hquiet := (Ctx.advance_same c (.hitacc h a b g) c.wv age).quiet
  refine ⟨_, _, hitaccEffect_decides (fun l hl => ⟨(hP l hl).1, (hP l hl).2.1⟩) (fun l hl => (hP l hl).2.2), State.wave?_onWave _ (fun _ => rfl) hu,
    hquiet.congr rfl rfl, fun sl r hr => ?_⟩
  obtain ⟨rd, wr, hr'⟩ := c.advance_region? (.hitacc h a b g) c.wv age hr
  have hsl : r.sl = sl := by simpa using List.find?_some hr
  subst hsl
  exact ⟨_, (find?_map_sl _ (fun _ => by rfl) _ r.sl).trans (congrArg _ hr'), rfl, rfl⟩

/-! ### BVHSET -/

/-- The read of a scene descriptor at issue. -/
def Ctx.sceneRead (c : Ctx) (u : State) (a : Opd) : Except Bad (List Byte) := u.engRead (c.wv.engVia c.tm) c.tm 0 false (c.sc a).toNat 256 c.sys
/-- The pending operation of BVHSET, with the status that it has found, if any. -/
def Ctx.bvhsetPend (c : Ctx) (h : Hdr) (d a : Opd) (ev : Option (BitVec 3)) (y : List DWord) : Pend :=
  { c.pend (.bvhset h d a ev) [c.ownRid] with x := [c.sc a], y := y }
/-- The wave after BVHSET has read a descriptor. -/
def Wave.bindScene (rid : Nat) (bs : List Byte) (wv : Wave) : Wave := if sceneOk bs then wv.putScene rid bs else wv
theorem Wave.bindScene_scene (rid : Nat) (bs : List Byte) (wv : Wave) : (wv.bindScene rid bs).scene = if sceneOk bs then some bs else wv.scene := by
  unfold bindScene
  split <;> rfl
theorem Wave.Quiet.bindScene {a b : Wave} (h : a.Quiet b) (rid : Nat) (bs : List Byte) : a.Quiet (b.bindScene rid bs) := by
  unfold Wave.bindScene
  split
  · exact h.congr rfl rfl
  · exact h

section
variable {h : Hdr} {d a : Opd} {ev : Option (BitVec 3)} {c : Ctx} {u : State}

/-- What BVHSET does past the checks of its issue. -/
def bvhsetEffect (h : Hdr) (d a : Opd) (ev : Option (BitVec 3)) (c : Ctx) (u : State) : Except Stop State :=
  if c.lanes = 0 then .ok u
  else if (c.sc a).toNat % 64 ≠ 0 then .error (.trap 0x06 (c.sc a).toNat)
  else match c.sceneRead u a with
    | .error _ => .ok (u.start c (c.bvhsetPend h d a ev []))
    | .ok bs =>
      let v := u.engTouch (c.wv.engVia c.tm) c.tm false (c.sc a).toNat 256 c.sys
      .ok ((if sceneOk bs then v.onWave c (·.putScene c.ownRid bs) else v).start c (c.bvhsetPend h d a ev [if sceneOk bs then 0 else 3]))
theorem exec_bvhset (s : State) : exec (.bvhset h d a ev) s = issue (.bvhset h d a ev) s (bvhsetEffect h d a ev) := rfl

variable (hl : c.lanes ≠ 0) (hal : (c.sc a).toNat % 64 = 0)
include hl hal

theorem bvhsetEffect_unread {x : Bad} (hx : c.sceneRead u a = .error x) : bvhsetEffect h d a ev c u = .ok (u.start c (c.bvhsetPend h d a ev [])) := by
  rw [bvhsetEffect, if_neg hl, if_neg (not_not.2 hal), hx]

theorem bvhsetEffect_read {bs : List Byte} (hbs : c.sceneRead u a = .ok bs) {w0 : Wave} (hu : u.wave? c.tag c.w = some w0) :
    ∃ v : State, bvhsetEffect h d a ev c u = .ok (v.start c (c.bvhsetPend h d a ev [if sceneOk bs then 0 else 3])) ∧
      v.wave? c.tag c.w = some (w0.bindScene c.ownRid bs) := by
  have hv : (u.engTouch (c.wv.engVia c.tm) c.tm false (c.sc a).toNat 256 c.sys).wave? c.tag c.w = some w0 := by
    rw [← hu, State.wave?, State.team?_sansCache (State.sansCache_engTouch ..), State.wave?]
  refine ⟨_, by rw [bvhsetEffect, if_neg hl, if_neg (not_not.2 hal), hbs], ?_⟩
  unfold Wave.bindScene
  split
  · exact State.wave?_onWave _ (fun _ => rfl) hv
  · exact hv
end

theorem bvhset_misaligned (h : Hdr) (d a : Opd) (ev : Option (BitVec 3)) :
    TrapsIf (.bvhset h d a ev) (fun _ c => c.lanes ≠ 0 ∧ (c.sc a).toNat % 64 ≠ 0) 0x06 (fun c => (c.sc a).toNat) :=
  trapsIf_of exec_bvhset fun _ _ _ ⟨hl, hal⟩ => (if_neg hl).trans (if_pos hal)

theorem bvhset_starts (h : Hdr) (d a : Opd) (ev : Option (BitVec 3)) : Starts (.bvhset h d a ev) (fun _ c => c.lanes = 0 ∨ (c.sc a).toNat % 64 = 0)
    (fun _ c q => q.x = [c.sc a] ∧ q.rids = [c.wv.ridOf (lowest c.lanes / 4)]) := by
  refine starts_wave exec_bvhset (fun _ _ hz => if_pos hz) fun s c u w0 hP hl hu hquiet => ?_
  have hal := hP.resolve_left hl
  cases hr : c.sceneRead u a with
  | error x => exact ⟨u, w0, _, bvhsetEffect_unread hl hal hr, hu, hquiet, rfl, rfl, rfl, rfl, rfl, rfl, rfl⟩
  | ok bs =>
    obtain ⟨v, hrun, hv⟩ := bvhsetEffect_read (h := h) (d := d) (ev := ev) hl hal hr hu
    exact ⟨v, _, _, hrun, hv, hquiet.bindScene _ _, rfl, rfl, rfl, rfl, rfl, rfl, rfl⟩

theorem bvhset_binds {h : Hdr} {d a : Opd} {ev : Option (BitVec 3)} {s s' : State} {c : Ctx} {bs : List Byte} (hp : s.pre (.bvhset h d a ev) = .go c s')
    (hl : c.lanes ≠ 0) (hal : (c.sc a).toNat % 64 = 0) (hbs : c.sceneRead (s'.advance c (.bvhset h d a ev)) a = .ok bs) :
    ∃ t wv, exec (.bvhset h d a ev) s = .next t ∧ t.wave? c.tag c.w = some (Wave.settle 4 wv) ∧
      wv.scene = (if sceneOk bs then some bs else c.wv.scene) ∧
      ∃ q, wv.pend.getLast? = some q ∧ q.id = s.nextId ∧ q.y = [if sceneOk bs then 0 else 3] := by
  obtain ⟨-, -, hiss⟩ := (pre_go s _ c s' hp).now
  obtain ⟨w0, h0, -, hkept⟩ := advance_same hp
  obtain ⟨v, hrun, hv⟩ := bvhsetEffect_read (h := h) (d := d) (ev := ev) hl hal hbs h0
  refine ⟨_, _, (exec_bvhset s).trans (issue_ok hp hrun), settle_wave _ _ _ _ (State.wave?_start _ hl hv), ?_, _, List.getLast?_concat, hiss, rfl⟩
  exact (Wave.bindScene_scene ..).trans (by rw [hkept.scene])

/-! ### TEX and TEXQ -/

theorem texIssue_outcomes {i : Instr} {a b g : Opd} (he : ∀ s, exec i s = texIssue i s a b g) :
    TrapsIf i (fun _ c => c.lanes ≠ 0 ∧ (c.sc g).toNat % 64 ≠ 0) 0x06 (fun c => (c.sc g).toNat) ∧
    Starts i (fun _ c => c.lanes = 0 ∨ (c.sc g).toNat % 64 = 0) (fun _ c q => q.x = c.fourWords a ∧ q.y = c.fourWords b ∧ q.z = [c.sc g] ∧
      q.rids = (slicesOf c.lanes).map c.wv.ridOf) := by
  unfold texIssue at he
  refine ⟨trapsIf_of he fun _ _ _ ⟨hl, hal⟩ => (if_neg hl).trans (if_pos hal),
    starts_wave he (fun _ _ hz => if_pos hz) fun s c u w0 hP hl hu hquiet => ?_⟩
  exact ⟨u, w0, _, (if_neg hl).trans (if_neg (not_not.2 (hP.resolve_left hl))), hu, hquiet, rfl, rfl, rfl, rfl, rfl, rfl, rfl, rfl, rfl⟩

end Sys2Proof.Machine

/-- Settles O52: each instruction is one `issue`, whose checks stand in the order of its premises. -/
theorem beamIssue : Obligations.BeamIssue := by
  intro h d a b g nr first sh ev x four o
  refine ⟨beam_issue h d a ev, rays_issue h d a b first sh ev, bdone_issue h a, ⟨?_, fun cause => ?_, ?_, hitacc_decides h a b g⟩,
    ⟨bvhset_misaligned h d a ev, bvhset_starts h d a ev, fun s c s' bs hp hl hal hbs => bvhset_binds hp hl hal hbs⟩, ?_⟩
  · exact trapsIf_of (exec_hitacc h a b g) fun _ _ _ => hitaccEffect_refused
  · exact trapsIf_of (exec_hitacc h a b g) fun _ _ _ ⟨hok, hf⟩ => hitaccEffect_failed hok hf
  · exact trapsIf_of (exec_hitacc h a b g) fun _ _ _ ⟨hok, hs⟩ => hitaccEffect_spoilt hok hs
  · rintro i (rfl | rfl)
    · exact texIssue_outcomes fun _ => rfl
    · exact texIssue_outcomes fun _ => rfl

end

section
/-! PROOFS. Reads of the beam pool: BFRAG, HITGET and HITGET.cand (R323, R332, R335). -/
open Sys2Proof Sys2Proof.Machine

namespace Sys2Proof.Machine

/-! ### A read of the pool looks at the pool only -/

/-- The same answer, for another team with that pool. -/
def PoolTry.onto (t : Team) : PoolTry → PoolTry
  | .ok ws t' => .ok ws { t with pool := t'.pool }
  | .wait => .wait
  | .trap c => .trap c

theorem Team.byHandle_congr {t t2 : Team} (h : t2.pool = t.pool) (x : Word) : t2.byHandle x = t.byHandle x := by
  unfold byHandle record
  rw [h]

theorem Team.setRec_onto {t t2 : Team} (h : t2.pool = t.pool) (n : Nat) (r : PoolRec) : t2.setRec n r = { t2 with pool := (t.setRec n r).pool } := by
  simp only [setRec, h]

theorem Team.with_pool {t t2 : Team} (h : t2.pool = t.pool) : t2 = { t2 with pool := t.pool } := by
  rw [← h]

theorem Team.tryFrag_onto {t t2 : Team} (h : t2.pool = t.pool) (ls : List Nat) (x : Word) (rid : Nat → Nat) :
    t2.tryFrag ls x rid = (t.tryFrag ls x rid).onto t2 := by
  unfold tryFrag
  rw [byHandle_congr h]
  cases t.byHandle x with
  | none => rfl
  | some y =>
    obtain ⟨n, r, ray⟩ := y
    cases hray : r.isRay <;> cases hst : r.st <;> cases hbad : r.bad <;> simp [PoolTry.onto, hray, hst, hbad, setRec_onto h, ← with_pool h]

/-- What HITGET does in one lane. -/
def hitStep (h : Nat → Word) (cand : Bool) (free : Nat) (rid : Nat → Nat) (a : List (Nat × List Word) × Team)
    (l : Nat) : List (Nat × List Word) × Team :=
  if noHandle (h l) then (a.1 ++ [(l, 4 :: List.replicate 7 0)], a.2)
  else match a.2.byHandle (h l) with
    | none => a
    | some (n, r, ray) =>
      if cand then (a.1 ++ [(l, (r.candWords (rid l)).1)], a.2.setRec n (r.candWords (rid l)).2)
      else (a.1 ++ [(l, r.hitWords free l ray)], a.2)

theorem hitStep_onto {t t2 : Team} (e : t2.pool = t.pool) (h : Nat → Word) (cand : Bool) (free : Nat) (rid : Nat → Nat)
    (ws : List (Nat × List Word)) (l : Nat) :
    hitStep h cand free rid (ws, t2) l = ((hitStep h cand free rid (ws, t) l).1, { t2 with pool := (hitStep h cand free rid (ws, t) l).2.pool }) := by
  unfold hitStep
  split
  · rw [← Team.with_pool e]
  · dsimp only
    rw [Team.byHandle_congr e]
    split
    · rw [← Team.with_pool e]
    · split
      · rw [Team.setRec_onto e]
      · rw [← Team.with_pool e]

theorem foldl_hitStep_onto (h : Nat → Word) (cand : Bool) (free : Nat) (rid : Nat → Nat) : ∀ (ls : List Nat) (ws : List (Nat × List Word)) {t t2 : Team},
    t2.pool = t.pool → ls.foldl (hitStep h cand free rid) (ws, t2) =
      ((ls.foldl (hitStep h cand free rid) (ws, t)).1, { t2 with pool := (ls.foldl (hitStep h cand free rid) (ws, t)).2.pool })
  | [], ws, t, t2, e => by rw [List.foldl_nil, List.foldl_nil, ← Team.with_pool e]
  | l :: ls, ws, t, t2, e => by
    rw [List.foldl_cons, List.foldl_cons, hitStep_onto e]
    exact foldl_hitStep_onto h cand free rid ls _ (t := (hitStep h cand free rid (ws, t) l).2) rfl

theorem Team.tryHit_onto {t t2 : Team} (e : t2.pool = t.pool) (ls : List Nat) (h : Nat → Word) (cand : Bool) (free : Nat) (rid : Nat → Nat) :
    t2.tryHit ls h cand free rid = (t.tryHit ls h cand free rid).onto t2 := by
  have hfold := foldl_hitStep_onto h cand free rid ls [] e
  unfold tryHit
  simp only [byHandle_congr e]
  split
  · rfl
  · split
    · rfl
    · split
      · rfl
      · split
        · rfl
        · exact congrArg (fun r : List (Nat × List Word) × Team => PoolTry.ok r.1 r.2) hfold

theorem Team.tryPool_onto {t t2 : Team} (e : t2.pool = t.pool) (i : Instr) (ls : List Nat) (h : Nat → Word) (free : Nat) (rid : Nat → Nat) :
    t2.tryPool i ls h free rid = (t.tryPool i ls h free rid).onto t2 := by
  unfold tryPool
  split
  · exact tryFrag_onto e ..
  · exact tryHit_onto e ..
  · exact tryHit_onto e ..

/-! ### The pool after the bookkeeping of an issue -/

theorem State.pool_updTeam (s : State) (k j : Nat) (f : Team → Team) (hf : ∀ t, (f t).tag = t.tag ∧ (f t).pool = t.pool) :
    ((s.updTeam k f).team? j).map (·.pool) = (s.team? j).map (·.pool) := by
  rw [team?_updTeam _ _ _ _ (fun t => (hf t).1)]
  split
  · rw [Option.map_map]
    exact congrArg (Option.map · _) (funext fun t => (hf t).2)
  · rfl

section
variable {s s' : State} {i : Instr} {c : Ctx} (hp : s.pre i = .go c s')
include hp

theorem free_advance : (s'.advance c i).free = s.free + 1 := by
  obtain ⟨g, e⟩ := (pre_go s i c s' hp).pops.rest
  have hfree : s'.free = s.free := State.free_sansCache (s := s.updTeam c.tag _) e
  exact congrArg (· + 1) hfree

/-- The team of the issue, with the pool and the wave that the effect finds. -/
theorem team_advance : ∃ t w0, (s'.advance c i).team? c.tag = some t ∧ t.pool = c.tm.pool ∧ t.tag = c.tag ∧ t.wave? c.w = some w0 ∧ c.wv.Same w0 := by
  obtain ⟨w0, h0, hsame, -⟩ := advance_same hp
  obtain ⟨t, ht, hw⟩ := Option.bind_eq_some_iff.1 h0
  obtain ⟨g, e⟩ := (pre_go s i c s' hp).pops.rest
  have hpool : ((s'.advance c i).team? c.tag).map (·.pool) = some c.tm.pool :=
    calc ((s'.advance c i).team? c.tag).map (·.pool)
        = (s'.team? c.tag).map (·.pool) :=
          s'.pool_updTeam c.tag c.tag (fun t => t.updWave c.w (fun wv => { c.advance i wv with age := s'.ages c.tm c.wv c.b.mask })) (fun _ => ⟨rfl, rfl⟩)
      _ = (s.team? c.tag).map (·.pool) := by
          rw [State.team?_sansCache e]
          exact s.pool_updTeam c.tag c.tag (fun a => { a with aq := { a.aq with q := g a.aq.q } }) (fun _ => ⟨rfl, rfl⟩)
      _ = some c.tm.pool := by rw [(pre_go s i c s' hp).team]; rfl
  rw [ht] at hpool
  exact ⟨t, w0, ht, Option.some.inj hpool, by simpa using List.find?_some ht, hw, hsame⟩
end

/-! ### A read of the pool at issue -/

/-- What a read of the pool does with an answer. -/
def poolEffect (i : Instr) (h : Ctx → Nat → Word) (c : Ctx) (u : State) : PoolTry → Except Stop State
  | .trap cause => .error (.trap cause 0)
  | .wait => .ok (u.start c { c.pend i c.rids with x := byLane (fun l => (h c l).setWidth 64) })
  | .ok ws t' => .ok ((u.updTeam c.tag (fun _ => t')).putNow c (poolWrites c.lanes (poolDst i).1 (poolDst i).2 ws))

/-- The answer of the pool that a read meets at its issue. -/
def State.poolTry (s : State) (i : Instr) (h : Ctx → Nat → Word) (c : Ctx) : PoolTry :=
  c.tm.tryPool i (lanesOf c.lanes) (h c) (s.free + 1) (fun l => c.wv.ridOf (l / 4))

section
variable {i : Instr} {hd : Ctx → Nat → Word} (he : ∀ s, exec i s = poolRead i s hd)
include he

/-- A read of the pool with an active lane: the answer of the pool as the issue sees it, in the team as the effect finds it. -/
theorem exec_poolRead {s s' : State} {c : Ctx} (hp : s.pre i = .go c s') (hl : c.lanes ≠ 0) :
    ∃ t w0 k, (s'.advance c i).team? c.tag = some t ∧ t.tag = c.tag ∧ t.wave? c.w = some w0 ∧ c.wv.Same w0 ∧ exec i s = issue i s k ∧
      k c (s'.advance c i) = poolEffect i hd c (s'.advance c i) ((s.poolTry i hd c).onto t) := by
  obtain ⟨t, w0, ht, hpool, htag, hw, hsame⟩ := team_advance hp
  refine ⟨t, w0, _, ht, htag, hw, hsame, he s, (if_neg hl).trans ?_⟩
  simp only [ht, free_advance hp, State.poolTry]
  rw [Team.tryPool_onto hpool]
  generalize c.tm.tryPool i (lanesOf c.lanes) (hd c) (s.free + 1) (fun l => c.wv.ridOf (l / 4)) = x
  cases x <;> rfl

theorem poolRead_trap (cause : Nat) : TrapsIf i (fun s c => c.lanes ≠ 0 ∧ s.poolTry i hd c = .trap cause) cause (fun _ => 0) := by
  intro s c s' hp ⟨hl, htry⟩
  obtain ⟨t, w0, k, ht, htag, hw, hsame, hrun, hk⟩ := exec_poolRead he hp hl
  rw [htry] at hk
  exact hrun.trans (issue_error (x := .trap cause 0) hp hk)

theorem poolRead_wait : Starts i (fun s c => c.lanes ≠ 0 ∧ s.poolTry i hd c = .wait) (fun _ c q => q.x = byLane (fun l => (hd c l).setWidth 64)) := by
  refine starts_of fun s c s' hp ⟨hl, htry⟩ => ?_
  obtain ⟨t, w0, k, ht, htag, hw, hsame, hrun, hk⟩ := exec_poolRead he hp hl
  rw [htry] at hk
  exact ⟨s'.advance c i, _, rfl, hrun.trans (issue_ok hp hk), rfl, rfl, rfl, rfl, rfl, rfl⟩

theorem poolRead_answer {r : BitVec 7} {n : Nat} (hdst : poolDst i = (.v r, n)) (ws : List (Nat × List Word)) (t' : Team) :
    ActsTo i (fun s c => c.lanes ≠ 0 ∧ s.poolTry i hd c = .ok ws t') (fun _ c t wv =>
      (t.team? c.tag).map (·.pool) = some t'.pool ∧ c.wv.KeptPreds wv ∧ wv.fflags = c.wv.fflags ∧ (∀ m, wv.sr m = c.wv.sr m) ∧
      ∀ m l, l < 32 → wv.vr m l = if r.toNat ≤ m ∧ m < r.toNat + n ∧ c.lanes.getLsbD l then
        (((ws.find? (·.1 == l)).map (·.2)).getD []).getD (m - r.toNat) 0 else c.wv.vr m l) := by
  intro s c s' hp ⟨hl, htry⟩
  obtain ⟨t, w0, k, ht, htag, hw, hsame, hrun, hk⟩ := exec_poolRead he hp hl
  rw [htry] at hk
  simp only [PoolTry.onto, poolEffect, hdst] at hk
  have hteam := State.team?_updTeam_const (t' := { t with pool := t'.pool }) ht htag
  have hwave := putNow_wave (poolWrites c.lanes (.v r) n ws) (State.wave?_of_team hteam hw)
  obtain ⟨v, hv⟩ := Wave.puts_vectors (poolWrites c.lanes (.v r) n ws) mem_wrN_v w0
  refine ⟨_, _, hrun.trans (issue_ok hp hk), settle_wave _ _ _ _ hwave, ?_, fun m => ?_, ?_, fun m => ?_, fun m l hlane => ?_⟩
  · refine (State.pool_updTeam _ _ _ (fun t => t.updWave c.w (Wave.settle 4)) (fun _ => ⟨rfl, rfl⟩)).trans ?_
    refine (State.pool_updTeam _ _ _ (fun t => (t.updWave c.w (fun wv => (wv.puts (poolWrites c.lanes (.v r) n ws)).mark
      (writtenLanes (poolWrites c.lanes (.v r) n ws)) c.cyc)).cleanRegs c.w (poolWrites c.lanes (.v r) n ws)) (fun _ => ⟨rfl, rfl⟩)).trans ?_
    rw [hteam, Option.map_some]
  · rw [hv]; exact Wave.pr_congr hsame.p m
  · rw [hv]; exact hsame.fflags
  · rw [hv]; exact Wave.sr_congr hsame.s m
  · exact (Wave.puts_wrN_v w0 c.lanes r n _ m l hlane).trans (by rw [Wave.vr_congr hsame.v])
end

/-! ### What BFRAG finds (R332) -/

/-- The elements of a list, in order, to the keys of another: the `j`-th key finds the `j`-th element. -/
theorem find?_zip {α : Type} : ∀ {ls : List Nat} {fs : List α} {j l : Nat}, ls.Nodup → ls[j]? = some l →
    ((ls.zip fs).find? (·.1 == l)).map (·.2) = fs[j]?
  | [], _, _, _, _, h => by simp at h
  | _ :: _, [], _, _, _, _ => by simp
  | k :: ls, f :: fs, 0, l, _, h => by
    have hk : k = l := by simpa using h
    simp [hk]
  | k :: ls, f :: fs, j + 1, l, hnd, h => by
    have hl : ls[j]? = some l := by simpa using h
    have hne : k ≠ l := fun e => (List.nodup_cons.1 hnd).1 (e ▸ List.mem_of_getElem? hl)
    rw [List.zip_cons_cons, List.find?_cons_of_neg (by simpa using hne), find?_zip (List.nodup_cons.1 hnd).2 hl, List.getElem?_cons_succ]

theorem zip_take_length {α β : Type} (ls : List α) (fs : List β) : (ls.take fs.length).zip fs = ls.zip fs := by
  rw [List.zip_eq_zip_take_min, List.zip_eq_zip_take_min (l₁ := ls), List.length_take, List.take_take]
  simp only [Nat.min_comm, Nat.min_left_comm, Nat.min_self]

/-- What each key gets, found by the key. -/
theorem find?_map_key {α : Type} (f : Nat → α) {ls : List Nat} {l : Nat} (h : l ∈ ls) :
    ((ls.map (fun l => (l, f l))).find? (·.1 == l)).map (·.2) = some (f l) := by
  rw [List.find?_map]
  simp only [Function.comp_def, Option.map_map]
  cases hf : ls.find? (fun x => x == l) with
  | none => exact absurd (List.find?_eq_none.1 hf l h) (by simp)
  | some k =>
    have hk : k = l := by simpa using List.find?_some hf
    rw [hk]; rfl

/-- The words that BFRAG answers where no fragment is left. -/
def noFrag : List Word := 0xFFFFFFFF :: List.replicate 11 0
/-- The words of BFRAG from a READY tree. -/
def fragWords (ls : List Nat) (frags : List (List Word)) : List (Nat × List Word) :=
  ls.map (fun l => (l, (((ls.zip frags).find? (·.1 == l)).map (·.2)).getD noFrag))

theorem find?_fragWords {ls : List Nat} {frags : List (List Word)} {j l : Nat} (hnd : ls.Nodup) (h : ls[j]? = some l) :
    ((fragWords ls frags).find? (·.1 == l)).map (·.2) = some (frags[j]?.getD noFrag) := by
  refine (find?_map_key (fun l => (((ls.zip frags).find? (·.1 == l)).map (·.2)).getD noFrag) (List.mem_of_getElem? h)).trans ?_
  rw [find?_zip hnd h]

section
variable {t : Team} {ls : List Nat} {x : Word} {rid : Nat → Nat}

theorem Team.tryFrag_noHandle (h : t.byHandle x = none) : t.tryFrag ls x rid = .trap 0x14 := by
  unfold tryFrag; rw [h]

variable {k : Nat} {r : PoolRec} {ray : Nat} (h : t.byHandle x = some (k, r, ray))
include h

theorem Team.tryFrag_ray (hr : r.isRay = true) : t.tryFrag ls x rid = .trap 0x14 := by
  unfold tryFrag; rw [h]; exact if_pos hr

variable (hr : r.isRay = false)
include hr

theorem Team.tryFrag_busy (hst : r.st = .busy) : t.tryFrag ls x rid = .wait := by
  unfold tryFrag; simp only [h, hr, hst, Bool.false_eq_true, if_false]

theorem Team.tryFrag_failed (hst : r.st = .failed) : t.tryFrag ls x rid = .trap r.cause := by
  unfold tryFrag; simp only [h, hr, hst, Bool.false_eq_true, if_false]

theorem Team.tryFrag_lost (hbusy : r.st ≠ .busy) (hfailed : r.st ≠ .failed) (hbad : r.bad = true) : t.tryFrag ls x rid = .trap 0x15 := by
  unfold tryFrag
  simp only [h, hr, hbad, Bool.false_eq_true, if_false, if_true]

variable (hbad : r.bad = false)
include hbad

theorem Team.tryFrag_cand (hst : r.st = .cand) : t.tryFrag ls x rid = .ok (ls.map (fun l => (l, 0xFFFFFFFE :: List.replicate 11 0))) t := by
  unfold tryFrag; simp only [h, hr, hst, hbad, Bool.false_eq_true, if_false]

theorem Team.tryFrag_ready (hst : r.st = .ready) : t.tryFrag ls x rid = .ok (fragWords ls r.frags)
    (t.setRec k { r with frags := r.frags.drop (ls.zip r.frags).length, taken := r.taken ++ (ls.zip r.frags).map (fun x => (rid x.1, x.2)) }) := by
  unfold tryFrag; simp only [h, hr, hst, hbad, Bool.false_eq_true, if_false, zip_take_length]; rfl

/-- The fragments are handed out in order, to one lane each, and leave the tree. -/
theorem Team.tryFrag_handsOut (hst : r.st = .ready) (hnd : ls.Nodup) : ∃ ws t', t.tryFrag ls x rid = .ok ws t' ∧
    (t'.record k).frags = r.frags.drop ls.length ∧
    ∀ (j l : Nat), ls[j]? = some l → ((ws.find? (·.1 == l)).map (·.2)) = some ((r.frags[j]?).getD (0xFFFFFFFF :: List.replicate 11 0)) := by
  refine ⟨_, _, tryFrag_ready h hr hbad hst, ?_, fun j l hl => find?_fragWords hnd hl⟩
  rw [record_setRec, List.length_zip]
  by_cases hlen : ls.length ≤ r.frags.length
  · rw [Nat.min_eq_left hlen]
  · rw [Nat.min_eq_right (by omega), List.drop_length, List.drop_eq_nil_of_le (by omega)]
end

end Sys2Proof.Machine

/-- Settles O53: the answer of the pool decides what the read does; BFRAG's answer by the state of the record that its handle names. -/
theorem poolReads : Obligations.PoolReads := by
  refine ⟨fun h d a ev i hd n hform => ?_, fun t ls x rid => ⟨Team.tryFrag_noHandle, fun k r ray hx => ?_⟩⟩
  · have hread : (∀ s, exec i s = poolRead i s hd) ∧ poolDst i = (d, n) := by
      obtain ⟨rfl, rfl, rfl⟩ | ⟨rfl | rfl, rfl, rfl⟩ := hform
      · exact ⟨fun _ => rfl, rfl⟩
      · exact ⟨fun _ => rfl, rfl⟩
      · exact ⟨fun _ => rfl, rfl⟩
    obtain ⟨he, hdst⟩ := hread
    exact ⟨poolRead_trap he, poolRead_wait he, fun r hr ws t' => poolRead_answer he (hr ▸ hdst) ws t'⟩
  · exact ⟨Team.tryFrag_ray hx, Team.tryFrag_busy hx, Team.tryFrag_failed hx, Team.tryFrag_lost hx, fun hr hst hbad => Team.tryFrag_cand hx hr hbad hst,
      fun hr hst hbad hnd => Team.tryFrag_handsOut hx hr hbad hst hnd⟩

end
